-- ==== Sys2Proof/Word.lean ====
section
/-! DEFINITION. The word types of the part and the plain operand types its commands carry. -/

namespace Sys2Proof

/-- A byte of memory. -/
abbrev Byte := BitVec 8
/-- A 64-bit word: a scalar register, a system register, an MMIO register. -/
abbrev Word := BitVec 64
/-- A register field of an instruction (R37). -/
abbrev Reg := BitVec 5
/-- A hardware thread: 8 × (8 × flat block + logical cell) + thread for a cell thread (R12); 6,144 + 4 × core + thread on a Mantle core (R394). -/
abbrev Tid := Fin 6160
/-- A core with threads: 8 × flat block + logical cell, or 768 + c for Mantle core c. -/
abbrev Cid := Fin 772

/-- Who makes an MMIO access (R487, R490): the host through BAR0, a thread of a Mantle core, a thread of a cell. -/
inductive Agent where
  | host
  | mantle (core : Fin 4) (thr : Fin 4)
  | thread (t : Tid)
  deriving DecidableEq, Repr

/-- Which half of a 64-bit register an access reaches (R9). -/
inductive Half where
  | full
  | low
  | high
  deriving DecidableEq, Repr

/-- The kind of an access that is translated (R87). -/
inductive Access where
  | fetch
  | load
  | store
  | atomic
  deriving DecidableEq, Repr

/-- What an error-correcting code finds on a read (R216, R248): nothing, one corrected error (with its lane in HBM), or an uncorrectable one. -/
inductive Ecc where
  | clean
  | corrected (lane : Nat)
  | uncorrectable
  deriving DecidableEq, Repr

/-- A fill that arrives: its place among a core's served requests, and the 32-bit words of the line whose parity will be wrong in the cache (R222). -/
structure Fill where
  place : Nat
  bad : BitVec 32
  deriving DecidableEq, Repr

/-- A fault of the array: the bits that it flips in one output, by row (64: the checksum row) and column (64: the checksum column) (R200, R201). -/
structure HarpHit where
  row : Fin 65
  col : Fin 65
  flip : BitVec 40
  deriving DecidableEq, Repr

/-- What goes wrong while a unit runs an instruction: nothing, faults of the harp's first attempt and of its retry (R201–R203), a parity error in a source register (R133), a 32-bit word of a tile row that has gone bad when the harp reads it (R204). -/
inductive UnitFinding where
  | clean
  | array (first again : Option HarpHit)
  | register
  | tileRow (tile : Fin 16) (row : Fin 64) (word : Fin 64)
  deriving DecidableEq, Repr

/-- The four DMA units (R355). -/
inductive DmaUnit where
  | host
  | stor
  | seam
  | reg
  deriving DecidableEq, Repr

/-- Fields of a 32-bit vector instruction (R108) beside major and X, which the mnemonic fixes. -/
structure VForm where
  vd : Reg
  vs1 : Reg
  vs2 : Reg
  qp : BitVec 4
  et : BitVec 3
  grp : BitVec 2
  deriving DecidableEq, Repr

/-- Fields of a vector-unit long form (R129): word 0 beside OP, and word 1. -/
structure LForm where
  rd : Reg
  rs1 : Reg
  rs2 : Reg
  qp : BitVec 4
  grp : BitVec 2
  w1 : Word
  deriving DecidableEq, Repr

/-- Fields of a tile or harp instruction (R168, R189): word 0 beside OP, and word 1. -/
structure TForm where
  rd : Reg
  rs1 : Reg
  rs2 : Reg
  sub : BitVec 4
  w1 : Word
  deriving DecidableEq, Repr

/-- A job message: its 64-byte header as eight little-endian words (R327) and its payload. -/
structure Msg where
  w0 : Word
  w1 : Word
  w2 : Word
  w3 : Word
  w4 : Word
  w5 : Word
  w6 : Word
  w7 : Word
  payload : List Byte
  deriving DecidableEq, Repr

/-- What a scrub of a stored chunk finds (R407). -/
inductive ScrubResult where
  | good
  /-- It matches its digest, but the Error Information log has gained an entry for it: the chunk. -/
  | logged (chunk : Nat)
  /-- It cannot be read, or does not match: the chunk, and what the twin's Keeper sends of it over the Seam link. -/
  | bad (chunk : Nat) (copy : Option (List Byte))
  deriving DecidableEq, Repr

/-- An access through the Mantle's debug port (R423, R22). -/
inductive DebugOp where
  | halt (thr : Fin 8)
  | step (thr : Fin 8)
  | readReg (thr : Fin 8) (r : Reg)
  | readMem (addr : Nat) (n : Nat)
  | writeReg (thr : Fin 8) (r : Reg) (v : Word)
  | writeMem (addr : Nat) (data : List Byte)
  deriving DecidableEq, Repr

/-- A host configuration request (R376): a plain read or write of configuration space, a Resizable BAR write of BAR2's size in GiB (R374), the MSI-X control bits (R375), the settings, DOE objects and error status that R373 names. -/
inductive ConfigReq where
  | read (dw : BitVec 10)
  | write (dw : BitVec 10) (v : BitVec 32)
  | resizeBar2 (gib : Nat)
  | msix (enable mask : Bool)
  /-- The Device Control settings (R373): Max Payload Size and Max Read Request Size in bytes, the Completion Timeout Value's code. -/
  | control (payload readSize timeout : Nat)
  | controlRead
  /-- A DOE Discovery object (R373): the index asked for. -/
  | doeDiscovery (index : BitVec 8)
  | doeStatus
  | doeAbort
  /-- A request that the endpoint finds in error (R373): the AER status bits that it logs. -/
  | error (uncorrectable : Bool) (status : BitVec 32)
  /-- A read of an AER status register, and a write that clears bits of it (R373). -/
  | aerStatus (uncorrectable : Bool) (clear : BitVec 32)
  deriving DecidableEq, Repr

/-- A crossbar segment of a region or a die-to-die link (R19, R457). -/
inductive LinkId where
  | crossbar (r : Fin 12) (seg : Nat)
  | wToE
  | wToIo
  | eToIo
  deriving DecidableEq, Repr

end Sys2Proof
end

