-- ==== Sys2Proof/Syntax.lean ====
section
/-! DEFINITION. The commands the part takes: one constructor per row of spec/opcode_table.json, in its order, with the operands the row carries. A docstring names the row and the rule of spec/ that gives it. -/

namespace Sys2Proof

/-- A command of the Rhaelhan N12: one constructor per row of the opcode table. -/
inductive Instr where
  /-- REGISTER_WRITE (R7). -/
  | registerWrite (a : Agent) (off : Nat) (bytes : Nat) (v : Word)
  /-- READ_CLEAR (R10). -/
  | readClear (a : Agent) (off : Nat) (bytes : Nat)
  /-- ISSUE_SELECT (R31). -/
  | issueSelect (c : Cid)
  /-- DECOUPLED_RESULT_ARRIVE (R32). -/
  | decoupledResultArrive (t : Tid) (tile : Bool)
  /-- INSTRUCTION_RESOLVE (R33). -/
  | instructionResolve (t : Tid) (tile : Bool) (h : UnitFinding)
  /-- ADD (R41). -/
  | add (t : Tid) (rd rs1 rs2 : Reg)
  /-- SUB (R41). -/
  | sub (t : Tid) (rd rs1 rs2 : Reg)
  /-- AND (R41). -/
  | and (t : Tid) (rd rs1 rs2 : Reg)
  /-- OR (R41). -/
  | or (t : Tid) (rd rs1 rs2 : Reg)
  /-- XOR (R41). -/
  | xor (t : Tid) (rd rs1 rs2 : Reg)
  /-- SLL (R41). -/
  | sll (t : Tid) (rd rs1 rs2 : Reg)
  /-- SRL (R41). -/
  | srl (t : Tid) (rd rs1 rs2 : Reg)
  /-- SRA (R41). -/
  | sra (t : Tid) (rd rs1 rs2 : Reg)
  /-- SLT (R41). -/
  | slt (t : Tid) (rd rs1 rs2 : Reg)
  /-- SLTU (R41). -/
  | sltu (t : Tid) (rd rs1 rs2 : Reg)
  /-- MIN (R41). -/
  | min (t : Tid) (rd rs1 rs2 : Reg)
  /-- MAX (R41). -/
  | max (t : Tid) (rd rs1 rs2 : Reg)
  /-- MINU (R41). -/
  | minu (t : Tid) (rd rs1 rs2 : Reg)
  /-- MAXU (R41). -/
  | maxu (t : Tid) (rd rs1 rs2 : Reg)
  /-- CLZ (R41). -/
  | clz (t : Tid) (rd rs1 : Reg)
  /-- CTZ (R41). -/
  | ctz (t : Tid) (rd rs1 : Reg)
  /-- POPC (R41). -/
  | popc (t : Tid) (rd rs1 : Reg)
  /-- ADDI (R41). -/
  | addi (t : Tid) (rd rs1 : Reg) (imm : BitVec 12)
  /-- SLTI (R41). -/
  | slti (t : Tid) (rd rs1 : Reg) (imm : BitVec 12)
  /-- SLTIU (R41). -/
  | sltiu (t : Tid) (rd rs1 : Reg) (imm : BitVec 12)
  /-- XORI (R41). -/
  | xori (t : Tid) (rd rs1 : Reg) (imm : BitVec 12)
  /-- ORI (R41). -/
  | ori (t : Tid) (rd rs1 : Reg) (imm : BitVec 12)
  /-- ANDI (R41). -/
  | andi (t : Tid) (rd rs1 : Reg) (imm : BitVec 12)
  /-- SLLI (R41). -/
  | slli (t : Tid) (rd rs1 : Reg) (sh : BitVec 6)
  /-- SRLI (R41). -/
  | srli (t : Tid) (rd rs1 : Reg) (sh : BitVec 6)
  /-- SRAI (R41). -/
  | srai (t : Tid) (rd rs1 : Reg) (sh : BitVec 6)
  /-- ADD_W (R41). -/
  | addW (t : Tid) (rd rs1 rs2 : Reg)
  /-- SUB_W (R41). -/
  | subW (t : Tid) (rd rs1 rs2 : Reg)
  /-- SLL_W (R41). -/
  | sllW (t : Tid) (rd rs1 rs2 : Reg)
  /-- SRL_W (R41). -/
  | srlW (t : Tid) (rd rs1 rs2 : Reg)
  /-- SRA_W (R41). -/
  | sraW (t : Tid) (rd rs1 rs2 : Reg)
  /-- ADDI_W (R41). -/
  | addiW (t : Tid) (rd rs1 : Reg) (imm : BitVec 12)
  /-- SLLI_W (R41). -/
  | slliW (t : Tid) (rd rs1 : Reg) (sh : BitVec 5)
  /-- SRLI_W (R41). -/
  | srliW (t : Tid) (rd rs1 : Reg) (sh : BitVec 5)
  /-- SRAI_W (R41). -/
  | sraiW (t : Tid) (rd rs1 : Reg) (sh : BitVec 5)
  /-- MUL (R41). -/
  | mul (t : Tid) (rd rs1 rs2 : Reg)
  /-- MULH (R41). -/
  | mulh (t : Tid) (rd rs1 rs2 : Reg)
  /-- MULHU (R41). -/
  | mulhu (t : Tid) (rd rs1 rs2 : Reg)
  /-- MULHSU (R41). -/
  | mulhsu (t : Tid) (rd rs1 rs2 : Reg)
  /-- MUL_W (R41). -/
  | mulW (t : Tid) (rd rs1 rs2 : Reg)
  /-- DIV (R42). -/
  | div (t : Tid) (rd rs1 rs2 : Reg)
  /-- DIVU (R42). -/
  | divu (t : Tid) (rd rs1 rs2 : Reg)
  /-- REM (R42). -/
  | rem (t : Tid) (rd rs1 rs2 : Reg)
  /-- REMU (R42). -/
  | remu (t : Tid) (rd rs1 rs2 : Reg)
  /-- DIV_W (R42). -/
  | divW (t : Tid) (rd rs1 rs2 : Reg)
  /-- DIVU_W (R42). -/
  | divuW (t : Tid) (rd rs1 rs2 : Reg)
  /-- REM_W (R42). -/
  | remW (t : Tid) (rd rs1 rs2 : Reg)
  /-- REMU_W (R42). -/
  | remuW (t : Tid) (rd rs1 rs2 : Reg)
  /-- LUI (R41). -/
  | lui (t : Tid) (rd : Reg) (imm : BitVec 20)
  /-- AUIPC (R41). -/
  | auipc (t : Tid) (rd : Reg) (imm : BitVec 20)
  /-- LD_B (R43). -/
  | ldB (t : Tid) (rd rs1 : Reg) (imm : BitVec 12)
  /-- LD_H (R43). -/
  | ldH (t : Tid) (rd rs1 : Reg) (imm : BitVec 12)
  /-- LD_W (R43). -/
  | ldW (t : Tid) (rd rs1 : Reg) (imm : BitVec 12)
  /-- LD_D (R43). -/
  | ldD (t : Tid) (rd rs1 : Reg) (imm : BitVec 12)
  /-- LD_BU (R43). -/
  | ldBu (t : Tid) (rd rs1 : Reg) (imm : BitVec 12)
  /-- LD_HU (R43). -/
  | ldHu (t : Tid) (rd rs1 : Reg) (imm : BitVec 12)
  /-- LD_WU (R43). -/
  | ldWu (t : Tid) (rd rs1 : Reg) (imm : BitVec 12)
  /-- ST_B (R43). -/
  | stB (t : Tid) (rs2 rs1 : Reg) (imm : BitVec 12)
  /-- ST_H (R43). -/
  | stH (t : Tid) (rs2 rs1 : Reg) (imm : BitVec 12)
  /-- ST_W (R43). -/
  | stW (t : Tid) (rs2 rs1 : Reg) (imm : BitVec 12)
  /-- ST_D (R43). -/
  | stD (t : Tid) (rs2 rs1 : Reg) (imm : BitVec 12)
  /-- LOAD_PERFORMED (R50). -/
  | loadPerformed (c : Cid) (k : Nat)
  /-- CACHE_FILL (R226). -/
  | cacheFill (c : Cid) (k : Fill)
  /-- WRITE_BUFFER_DRAIN (R225). -/
  | writeBufferDrain (c : Cid) (k : Nat)
  /-- WRITE_BUFFER_TIMEOUT (R225). -/
  | writeBufferTimeout (c : Cid) (k : Nat)
  /-- STORE_PERFORMED (R50). -/
  | storePerformed (c : Cid) (k : Nat)
  /-- MISS_REGISTER_GRANT (R230). -/
  | missRegisterGrant (c : Cid)
  /-- BEQ (R46). -/
  | beq (t : Tid) (rs1 rs2 : Reg) (off : BitVec 12)
  /-- BNE (R46). -/
  | bne (t : Tid) (rs1 rs2 : Reg) (off : BitVec 12)
  /-- BLT (R46). -/
  | blt (t : Tid) (rs1 rs2 : Reg) (off : BitVec 12)
  /-- BGE (R46). -/
  | bge (t : Tid) (rs1 rs2 : Reg) (off : BitVec 12)
  /-- BLTU (R46). -/
  | bltu (t : Tid) (rs1 rs2 : Reg) (off : BitVec 12)
  /-- BGEU (R46). -/
  | bgeu (t : Tid) (rs1 rs2 : Reg) (off : BitVec 12)
  /-- JAL (R46). -/
  | jal (t : Tid) (rd : Reg) (imm : BitVec 20)
  /-- JALR (R46). -/
  | jalr (t : Tid) (rd rs1 : Reg) (imm : BitVec 12)
  /-- AMO_SWAP (R47). -/
  | amoSwap (t : Tid) (rd rs1 rs2 : Reg) (d aq rl : Bool)
  /-- AMO_ADD (R47). -/
  | amoAdd (t : Tid) (rd rs1 rs2 : Reg) (d aq rl : Bool)
  /-- AMO_AND (R47). -/
  | amoAnd (t : Tid) (rd rs1 rs2 : Reg) (d aq rl : Bool)
  /-- AMO_OR (R47). -/
  | amoOr (t : Tid) (rd rs1 rs2 : Reg) (d aq rl : Bool)
  /-- AMO_XOR (R47). -/
  | amoXor (t : Tid) (rd rs1 rs2 : Reg) (d aq rl : Bool)
  /-- AMO_MIN (R47). -/
  | amoMin (t : Tid) (rd rs1 rs2 : Reg) (d aq rl : Bool)
  /-- AMO_MAX (R47). -/
  | amoMax (t : Tid) (rd rs1 rs2 : Reg) (d aq rl : Bool)
  /-- AMO_MINU (R47). -/
  | amoMinu (t : Tid) (rd rs1 rs2 : Reg) (d aq rl : Bool)
  /-- AMO_MAXU (R47). -/
  | amoMaxu (t : Tid) (rd rs1 rs2 : Reg) (d aq rl : Bool)
  /-- AMO_CAS (R47). -/
  | amoCas (t : Tid) (rd rs1 rs2 : Reg) (d aq rl : Bool)
  /-- FENCE_ACQ (R54). -/
  | fenceAcq (t : Tid)
  /-- FENCE_REL (R54). -/
  | fenceRel (t : Tid)
  /-- FENCE_AR (R54). -/
  | fenceAr (t : Tid)
  /-- FENCE_I (R53). -/
  | fenceI (t : Tid)
  /-- SR_RW (R55). -/
  | srRw (t : Tid) (rd rs1 : Reg) (num : BitVec 12)
  /-- SR_SET (R55). -/
  | srSet (t : Tid) (rd rs1 : Reg) (num : BitVec 12)
  /-- SR_CLR (R55). -/
  | srClr (t : Tid) (rd rs1 : Reg) (num : BitVec 12)
  /-- YIELD (R59). -/
  | yield (t : Tid)
  /-- PAUSE (R59). -/
  | pause (t : Tid) (imm : BitVec 12)
  /-- PAUSE_EXPIRY (R59). -/
  | pauseExpiry (t : Tid)
  /-- TEND (R59). -/
  | tend (t : Tid)
  /-- GATE (R73). -/
  | gate (t : Tid) (imm : BitVec 12)
  /-- XRET (R74). -/
  | xret (t : Tid)
  /-- XRET_G (R75). -/
  | xretG (t : Tid)
  /-- INTERRUPT_TAKE (R71). -/
  | interruptTake (t : Tid)
  /-- V_ADD (R115). -/
  | vAdd (t : Tid) (f : VForm)
  /-- V_SUB (R115). -/
  | vSub (t : Tid) (f : VForm)
  /-- V_MUL (R115). -/
  | vMul (t : Tid) (f : VForm)
  /-- V_MULH (R115). -/
  | vMulh (t : Tid) (f : VForm)
  /-- V_MULHU (R115). -/
  | vMulhu (t : Tid) (f : VForm)
  /-- V_MULHSU (R115). -/
  | vMulhsu (t : Tid) (f : VForm)
  /-- V_MIN (R115). -/
  | vMin (t : Tid) (f : VForm)
  /-- V_MAX (R115). -/
  | vMax (t : Tid) (f : VForm)
  /-- V_MINU (R115). -/
  | vMinu (t : Tid) (f : VForm)
  /-- V_MAXU (R115). -/
  | vMaxu (t : Tid) (f : VForm)
  /-- V_AND (R115). -/
  | vAnd (t : Tid) (f : VForm)
  /-- V_OR (R115). -/
  | vOr (t : Tid) (f : VForm)
  /-- V_XOR (R115). -/
  | vXor (t : Tid) (f : VForm)
  /-- V_ANDN (R115). -/
  | vAndn (t : Tid) (f : VForm)
  /-- V_SLL (R115). -/
  | vSll (t : Tid) (f : VForm)
  /-- V_SRL (R115). -/
  | vSrl (t : Tid) (f : VForm)
  /-- V_SRA (R115). -/
  | vSra (t : Tid) (f : VForm)
  /-- V_SRAR (R115). -/
  | vSrar (t : Tid) (f : VForm)
  /-- V_SADD (R115). -/
  | vSadd (t : Tid) (f : VForm)
  /-- V_SSUB (R115). -/
  | vSsub (t : Tid) (f : VForm)
  /-- V_SADDU (R115). -/
  | vSaddu (t : Tid) (f : VForm)
  /-- V_SSUBU (R115). -/
  | vSsubu (t : Tid) (f : VForm)
  /-- V_QMUL (R116). -/
  | vQmul (t : Tid) (f : VForm)
  /-- V_QMUL_RNE (R116). -/
  | vQmulRne (t : Tid) (f : VForm)
  /-- V_NARROW_S (R116). -/
  | vNarrowS (t : Tid) (f : VForm)
  /-- V_NARROW_U (R116). -/
  | vNarrowU (t : Tid) (f : VForm)
  /-- V_NARROW_S_RNE (R116). -/
  | vNarrowSRne (t : Tid) (f : VForm)
  /-- V_NARROW_U_RNE (R116). -/
  | vNarrowURne (t : Tid) (f : VForm)
  /-- V_FADD (R117). -/
  | vFadd (t : Tid) (f : VForm)
  /-- V_FSUB (R117). -/
  | vFsub (t : Tid) (f : VForm)
  /-- V_FMUL (R117). -/
  | vFmul (t : Tid) (f : VForm)
  /-- V_FDIV (R117). -/
  | vFdiv (t : Tid) (f : VForm)
  /-- V_FMA (R117). -/
  | vFma (t : Tid) (f : VForm)
  /-- V_FNMA (R117). -/
  | vFnma (t : Tid) (f : VForm)
  /-- V_FMIN (R117). -/
  | vFmin (t : Tid) (f : VForm)
  /-- V_FMAX (R117). -/
  | vFmax (t : Tid) (f : VForm)
  /-- V_FSQRT (R117). -/
  | vFsqrt (t : Tid) (f : VForm)
  /-- V_FABS (R117). -/
  | vFabs (t : Tid) (f : VForm)
  /-- V_FNEG (R117). -/
  | vFneg (t : Tid) (f : VForm)
  /-- V_CMP_EQ (R118). -/
  | vCmpEq (t : Tid) (f : VForm)
  /-- V_CMP_NE (R118). -/
  | vCmpNe (t : Tid) (f : VForm)
  /-- V_CMP_LT (R118). -/
  | vCmpLt (t : Tid) (f : VForm)
  /-- V_CMP_LE (R118). -/
  | vCmpLe (t : Tid) (f : VForm)
  /-- V_CMP_GT (R118). -/
  | vCmpGt (t : Tid) (f : VForm)
  /-- V_CMP_GE (R118). -/
  | vCmpGe (t : Tid) (f : VForm)
  /-- V_CMP_LTU (R118). -/
  | vCmpLtu (t : Tid) (f : VForm)
  /-- V_CMP_LEU (R118). -/
  | vCmpLeu (t : Tid) (f : VForm)
  /-- V_FCMP_EQ (R118). -/
  | vFcmpEq (t : Tid) (f : VForm)
  /-- V_FCMP_LT (R118). -/
  | vFcmpLt (t : Tid) (f : VForm)
  /-- V_FCMP_LE (R118). -/
  | vFcmpLe (t : Tid) (f : VForm)
  /-- V_FCMP_UN (R118). -/
  | vFcmpUn (t : Tid) (f : VForm)
  /-- V_PAND (R119). -/
  | vPand (t : Tid) (f : VForm)
  /-- V_POR (R119). -/
  | vPor (t : Tid) (f : VForm)
  /-- V_PXOR (R119). -/
  | vPxor (t : Tid) (f : VForm)
  /-- V_PANDN (R119). -/
  | vPandn (t : Tid) (f : VForm)
  /-- V_PWHILE (R119). -/
  | vPwhile (t : Tid) (f : VForm)
  /-- V_PCOUNT (R119). -/
  | vPcount (t : Tid) (f : VForm)
  /-- V_RED_SUM (R128). -/
  | vRedSum (t : Tid) (f : VForm)
  /-- V_RED_SUMSQ (R128). -/
  | vRedSumsq (t : Tid) (f : VForm)
  /-- V_RED_MAX (R128). -/
  | vRedMax (t : Tid) (f : VForm)
  /-- V_RED_MIN (R128). -/
  | vRedMin (t : Tid) (f : VForm)
  /-- V_RED_MAXU (R128). -/
  | vRedMaxu (t : Tid) (f : VForm)
  /-- V_RED_MINU (R128). -/
  | vRedMinu (t : Tid) (f : VForm)
  /-- V_FRED_SUM (R128). -/
  | vFredSum (t : Tid) (f : VForm)
  /-- V_FRED_SUMSQ (R128). -/
  | vFredSumsq (t : Tid) (f : VForm)
  /-- V_FRED_MAX (R128). -/
  | vFredMax (t : Tid) (f : VForm)
  /-- V_FRED_MIN (R128). -/
  | vFredMin (t : Tid) (f : VForm)
  /-- V_LD (R124). -/
  | vLd (t : Tid) (f : VForm)
  /-- V_LD_S (R124). -/
  | vLdS (t : Tid) (f : VForm)
  /-- V_LD_X (R124). -/
  | vLdX (t : Tid) (f : VForm)
  /-- V_LD_SEG (R124). -/
  | vLdSeg (t : Tid) (f : VForm)
  /-- V_ST (R124). -/
  | vSt (t : Tid) (f : VForm)
  /-- V_ST_S (R124). -/
  | vStS (t : Tid) (f : VForm)
  /-- V_ST_X (R124). -/
  | vStX (t : Tid) (f : VForm)
  /-- V_ST_SEG (R124). -/
  | vStSeg (t : Tid) (f : VForm)
  /-- V_SPLAT (R120). -/
  | vSplat (t : Tid) (f : VForm)
  /-- V_SEL (R120). -/
  | vSel (t : Tid) (f : VForm)
  /-- V_EXT (R120). -/
  | vExt (t : Tid) (f : VForm)
  /-- V_INS (R120). -/
  | vIns (t : Tid) (f : VForm)
  /-- V_CVT (R130). -/
  | vCvt (t : Tid) (f : LForm)
  /-- V_MFMA (R131). -/
  | vMfma (t : Tid) (f : LForm)
  /-- V_STAT (R132). -/
  | vStat (t : Tid) (f : LForm)
  /-- V_STAT_MERGE (R132). -/
  | vStatMerge (t : Tid) (f : LForm)
  /-- UPD_SGDM (R305). -/
  | updSgdm (t : Tid) (f : LForm)
  /-- UPD_ADAMW (R305). -/
  | updAdamw (t : Tid) (f : LForm)
  /-- UPD_LION (R305). -/
  | updLion (t : Tid) (f : LForm)
  /-- T_LD (R176). -/
  | tLd (t : Tid) (f : TForm)
  /-- T_ST (R176). -/
  | tSt (t : Tid) (f : TForm)
  /-- T_MOV (R181). -/
  | tMov (t : Tid) (f : TForm)
  /-- T_CLR (R181). -/
  | tClr (t : Tid) (f : TForm)
  /-- T_EXT (R181). -/
  | tExt (t : Tid) (f : TForm)
  /-- MX_MMA (R199). -/
  | mxMma (t : Tid) (f : TForm)
  /-- PEG_RD (R366). -/
  | pegRd (t : Tid) (rd rs1 : Reg)
  /-- PEG_ADD (R366). -/
  | pegAdd (t : Tid) (rd rs1 rs2 : Reg)
  /-- PEG_SET (R366). -/
  | pegSet (t : Tid) (rd rs1 rs2 : Reg)
  /-- PEG_WAIT_GE (R366). -/
  | pegWaitGe (t : Tid) (rd rs1 rs2 : Reg)
  /-- PEG_WAIT_EQ (R366). -/
  | pegWaitEq (t : Tid) (rd rs1 rs2 : Reg)
  /-- PEG_ARRIVE (R369). -/
  | pegArrive (t : Tid) (rd rs1 rs2 : Reg)
  /-- PEG_WAIT_SATISFIED (R366). -/
  | pegWaitSatisfied (t : Tid)
  /-- BARRIER_WAVE_RELEASE (R370). -/
  | barrierWaveRelease
  /-- PEG_VAL_WRITE (R371). -/
  | pegValWrite (a : Agent) (h : Half) (v : Word)
  /-- PEG_VAL_READ (R371). -/
  | pegValRead (a : Agent) (h : Half)
  /-- PEG_ADD_WRITE (R371). -/
  | pegAddWrite (a : Agent) (h : Half) (v : Word)
  /-- CLOCK_GATE (R21). -/
  | clockGate (c : Cid)
  /-- POWER_GATE (R21). -/
  | powerGate (c : Cid)
  /-- POWER_SWITCH_OPEN (R22). -/
  | powerSwitchOpen (c : Cid)
  /-- CELL_WAKE (R22). -/
  | cellWake (c : Cid)
  /-- CELL_POWERED (R21). -/
  | cellPowered (c : Cid)
  /-- PLL_START (R23). -/
  | pllStart (r : Fin 12)
  /-- PLL_LOCK (R23). -/
  | pllLock (r : Fin 12)
  /-- PLL_IDLE_STOP (R23). -/
  | pllIdleStop (r : Fin 12)
  /-- PLL_LOCK_LOSS (R18). -/
  | pllLockLoss (r : Fin 12)
  /-- PLL_SWITCH_END (R18). -/
  | pllSwitchEnd (r : Fin 12) (locked : Bool)
  /-- CELL_SUBSTITUTION (R15). -/
  | cellSubstitution (c : Cid)
  /-- CELL_RETIREMENT (R16). -/
  | cellRetirement (c : Cid)
  /-- REPAIR_RECORD_WRITE (R425). -/
  | repairRecordWrite
  /-- EPOCH_UPDATE_APPLY (R94). -/
  | epochUpdateApply (c : Cid)
  /-- PAGE_WALK (R99). -/
  | pageWalk (t : Tid) (va : Word) (k : Access)
  /-- TLB_INVALIDATE (R101). -/
  | tlbInvalidate (a : Agent) (v : Word)
  /-- TLB_INVALIDATE_DONE (R101). -/
  | tlbInvalidateDone
  /-- PREFETCH_ISSUE (R234). -/
  | prefetchIssue (t : Tid) (line : Nat)
  /-- BLOCK_MEMORY_SCRUB (R218). -/
  | blockMemoryScrub (b : Fin 96) (bank : Fin 32) (w : Fin 16) (e : Ecc)
  /-- ROW_SPARE (R219). -/
  | rowSpare (b : Fin 96) (bank : Fin 32) (row : Nat)
  /-- HBM_SCRUB (R250). -/
  | hbmScrub (k : Fin 12) (ch : Fin 32) (burst : Fin 4) (e : Ecc)
  /-- LANE_FLAGGED (R246). -/
  | laneFlagged (k : Fin 12) (ch : Fin 32) (lane : Nat)
  /-- CHANNEL_RETRAIN (R246). -/
  | channelRetrain (k : Fin 12) (ch : Fin 32) (bad : List Nat) (cmdBad : Nat)
  /-- ROW_REPAIR (R251). -/
  | rowRepair (k : Fin 12) (ch : Fin 32) (pc : Fin 2) (bank : Fin 64) (row : Nat)
  /-- TOKEN_REFILL (R255). -/
  | tokenRefill
  /-- BANK_QUEUE_AGING (R257). -/
  | bankQueueAging (k : Fin 12) (ch : Fin 32) (pc : Fin 2) (bank : Fin 64)
  /-- HBM_PART_WRITE (R256). -/
  | hbmPartWrite (a : Agent) (p : Fin 5) (v : Word)
  /-- MAINT_REQUEST (R258). -/
  | maintRequest (a : Agent) (on : Bool)
  /-- TRAFFIC_GENERATOR_GO (R258). -/
  | trafficGeneratorGo (a : Agent) (v : Word)
  /-- TRAFFIC_GENERATOR_STOP (R258). -/
  | trafficGeneratorStop (a : Agent)
  /-- TRAFFIC_GENERATOR_END (R258). -/
  | trafficGeneratorEnd (k : Fin 12) (ch : Fin 32) (errors : Nat) (lane : Nat)
  /-- LINING_QPUSH (R264). -/
  | liningQpush (a : Agent) (v : Word)
  /-- LINING_TASK_DISPATCH (R269). -/
  | liningTaskDispatch (k : Fin 12)
  /-- CHUNK_START (R271). -/
  | chunkStart (k : Fin 12) (e : Fin 16) (th : Fin 4)
  /-- CHUNK_COMPLETE (R271). -/
  | chunkComplete (k : Fin 12) (e : Fin 16) (th : Fin 4) (cycles : Nat)
  /-- LINING_TASK_COMPLETE (R274). -/
  | liningTaskComplete (k : Fin 12) (j : Nat)
  /-- ENGINE_PARITY_ERROR (R286). -/
  | engineParityError (k : Fin 12) (e : Fin 16) (th : Fin 4)
  /-- ENGINE_SUBSTITUTION (R286). -/
  | engineSubstitution (k : Fin 12) (e : Fin 16)
  /-- ARM (R295). -/
  | arm (a : Agent)
  /-- DISARM (R295). -/
  | disarm (a : Agent)
  /-- RESUME (R295). -/
  | resume (a : Agent)
  /-- NONFIN_POST (R291). -/
  | nonfinPost (a : Agent)
  /-- ABORT (R292). -/
  | abort (a : Agent)
  /-- HALTREQ (R292). -/
  | haltreq (a : Agent)
  /-- HEMXDIG_WRITE (R311). -/
  | hemxdigWrite (a : Agent) (v : Word)
  /-- COLLECT_END (R292). -/
  | collectEnd
  /-- UPDATE_COMPLETE (R292). -/
  | updateComplete
  /-- TWIN_DIGEST_ARRIVE (R312). -/
  | twinDigestArrive (step digest : Word)
  /-- TWIN_TIMEOUT (R312). -/
  | twinTimeout
  /-- DEV_TQPUSH (R349). -/
  | devTqpush (a : Agent) (v : Word)
  /-- DESCRIPTOR_HEAD_CHECK (R352). -/
  | descriptorHeadCheck (r : Fin 12) (qn : Fin 64)
  /-- TASK_DISPATCH (R353). -/
  | taskDispatch (r : Fin 12)
  /-- TASK_COMPLETE (R354). -/
  | taskComplete (j : Nat)
  /-- DMA_PI_DOORBELL (R356). -/
  | dmaPiDoorbell (a : Agent) (u : DmaUnit) (page : Option (Fin 32)) (v : Word)
  /-- DMA_DESCRIPTOR_START (R357). -/
  | dmaDescriptorStart (ch : Fin 256)
  /-- DMA_BURST_COMPLETE (R357). -/
  | dmaBurstComplete (ch : Fin 256) (arrived : List Byte) (poisoned : Bool)
  /-- DMA_DESCRIPTOR_COMPLETE (R357). -/
  | dmaDescriptorComplete (ch : Fin 256)
  /-- DMA_PACE_RESUME (R359). -/
  | dmaPaceResume (ch : Fin 256)
  /-- DMA_PACE_WRITE (R359). -/
  | dmaPaceWrite (a : Agent) (u : DmaUnit) (v : Word)
  /-- DMA_ABORT (R362). -/
  | dmaAbort (a : Agent) (u : DmaUnit)
  /-- DMA_RESTART (R363). -/
  | dmaRestart (a : Agent) (u : DmaUnit)
  /-- DMA_BUS_ERROR (R363). -/
  | dmaBusError (ch : Fin 256) (cause : BitVec 3)
  /-- ROLLCALL (R317). -/
  | rollcall (a : Agent)
  /-- CANCEL (R318). -/
  | cancel (a : Agent)
  /-- JOIN_SEND (R318). -/
  | joinSend
  /-- JOIN (R320). -/
  | join (m : Msg)
  /-- REFUSE (R320). -/
  | refuse (m : Msg)
  /-- ROSTER (R321). -/
  | roster (m : Msg)
  /-- ACK (R321). -/
  | ack (m : Msg)
  /-- ROSTER_RESEND (R321). -/
  | rosterResend
  /-- ROLLCALL_TIMEOUT (R318). -/
  | rollcallTimeout
  /-- CONNECTING_DONE (R318). -/
  | connectingDone
  /-- COLL_POST (R326). -/
  | collPost (a : Agent) (v : Word)
  /-- CONTRIB (R329). -/
  | contrib (port : Fin 4) (m : Msg)
  /-- ALLGATHER (R335). -/
  | allgather (port : Fin 4) (m : Msg)
  /-- PACE (R339). -/
  | pace (port : Fin 4) (m : Msg)
  /-- PACE_SEND (R339). -/
  | paceSend
  /-- RETRY_EXHAUSTED (R316). -/
  | retryExhausted (j : Nat)
  /-- ORDSUM_PASS_START (R332). -/
  | ordsumPassStart (b : BitVec 12)
  /-- FINAL_PASS_COMPLETE (R334). -/
  | finalPassComplete (b : BitVec 12)
  /-- SHARD_DEADLINE_EXPIRY (R339). -/
  | shardDeadlineExpiry (b : BitVec 12)
  /-- PERST_DEASSERT (R376). -/
  | perstDeassert
  /-- HOT_RESET (R376). -/
  | hotReset
  /-- BAR2_ACCESS (R374). -/
  | bar2Access (off : Nat) (n : Nat) (data : Option (List Byte))
  /-- MSIX_SEND (R375). -/
  | msixSend (vec : BitVec 8)
  /-- DOE_SPDM_REQUEST (R429). -/
  | doeSpdmRequest (req : List Byte)
  /-- OUTBOUND_FAILURE (R378). -/
  | outboundFailure (c : Cid) (k : Nat) (store : Bool)
  /-- PRSNT_DEBOUNCE (R383). -/
  | prsntDebounce (l : Fin 4)
  /-- POWER_SETTLE (R383). -/
  | powerSettle (l : Fin 4)
  /-- ROOT_LINK_UP (R383). -/
  | rootLinkUp (l : Fin 4) (rate : BitVec 3) (width : BitVec 4) (cls : BitVec 24) (cmb : Bool)
  /-- SURPRISE_REMOVAL (R383). -/
  | surpriseRemoval (l : Fin 4)
  /-- ROOT_CFGDATA_ACCESS (R383). -/
  | rootCfgdataAccess (a : Agent) (wr : Option (BitVec 32)) (resp : Option (BitVec 32))
  /-- ROOT_MSI (R382). -/
  | rootMsi (l : Fin 4) (data : BitVec 32)
  /-- INBOUND_DRIVE_REQUEST (R382). -/
  | inboundDriveRequest (l : Fin 4) (addr : Nat) (n : Nat) (data : Option (List Byte))
  /-- ETH_LINK_UP (R384). -/
  | ethLinkUp (p : Fin 4)
  /-- ETH_LINK_LOST (R384). -/
  | ethLinkLost (p : Fin 4)
  /-- PFC_PAUSE_RECEIVED (R386). -/
  | pfcPauseReceived (p : Fin 4) (prio : BitVec 3) (quanta : BitVec 16)
  /-- PFC_ASSERT (R386). -/
  | pfcAssert (p : Fin 4) (prio : BitVec 3) (fill : Nat)
  /-- CNP_RECEIVED (R387). -/
  | cnpReceived (qpn : BitVec 24)
  /-- CE_MARK_RECEIVED (R387). -/
  | ceMarkReceived (qpn : BitVec 24)
  /-- RATE_RECOVERY (R387). -/
  | rateRecovery (qpn : BitVec 24)
  /-- LLDP_SEND (R388). -/
  | lldpSend (p : Fin 4)
  /-- LLDP_RECEIVE (R388). -/
  | lldpReceive (p : Fin 4) (chassis port : List Byte) (ttl : BitVec 16)
  /-- LLDP_EXPIRE (R388). -/
  | lldpExpire (p : Fin 4)
  /-- SEAM_POLL (R392). -/
  | seamPoll
  /-- SEAM_TRAINING (R392). -/
  | seamTraining (good : BitVec 18) (serial twinArea : Word)
  /-- SEAM_NAK (R390). -/
  | seamNak (seq : BitVec 8)
  /-- SEAM_REPLAY (R390). -/
  | seamReplay (seq : BitVec 8) (n : Nat)
  /-- SEAM_LANE_REPLACE (R392). -/
  | seamLaneReplace (lane : Fin 18)
  /-- SEAM_LINK_LOSS (R392). -/
  | seamLinkLoss
  /-- SEAM_WRITE (R391). -/
  | seamWrite (addr : Nat) (data : List Byte) (marks : List Nat)
  /-- SEAM_MSG (R333). -/
  | seamMsg (m : Msg)
  /-- MANTLE_MBDOOR (R396). -/
  | mantleMbdoor (slot : Fin 16)
  /-- INFO (R398). -/
  | info (slot : Fin 16)
  /-- RESET (R398). -/
  | reset (slot : Fin 16)
  /-- NETADDR (R398). -/
  | netaddr (slot : Fin 16)
  /-- LLDPNBR (R398). -/
  | lldpnbr (slot : Fin 16)
  /-- RUNPLAN (R400). -/
  | runplan (slot : Fin 16)
  /-- FEEDCFG (R401). -/
  | feedcfg (slot : Fin 16)
  /-- USERSTATE (R398). -/
  | userstate (slot : Fin 16)
  /-- CKPT (R404). -/
  | ckpt (slot : Fin 16)
  /-- RESTORE (R408). -/
  | restore (slot : Fin 16)
  /-- DRIVES (R398). -/
  | drives (slot : Fin 16)
  /-- POWERAVG (R436). -/
  | poweravg (slot : Fin 16)
  /-- TWINSEND (R411). -/
  | twinsend (slot : Fin 16)
  /-- TWINRECV (R411). -/
  | twinrecv (slot : Fin 16) (epoch : Option Word)
  /-- HEALTH (R398). -/
  | health (slot : Fin 16)
  /-- MANTLE_IRQPOST (R399). -/
  | mantleIrqpost (a : Agent) (v : Word)
  /-- HEARTBEAT_LOSS (R395). -/
  | heartbeatLoss (core : Fin 4)
  /-- MANTLE_HEART_TICK (R409). -/
  | mantleHeartTick
  /-- RUNNER_NOTIFY (R400). -/
  | runnerNotify
  /-- RUNNER_ENTRY_START (R400). -/
  | runnerEntryStart
  /-- KEEPER_CHUNK_STORE (R405). -/
  | keeperChunkStore
  /-- KEEPER_SCRUB (R407). -/
  | keeperScrub (l : Fin 4) (half : Fin 2) (r : ScrubResult)
  /-- SMART_CHECK (R407). -/
  | smartCheck (l : Fin 4) (used spare threshold : BitVec 8) (warn : BitVec 8)
  /-- TWIN_RECORD_WRITE (R410). -/
  | twinRecordWrite
  /-- POWER_UP (R412). -/
  | powerUp (skew : List Nat)
  /-- BOOT_ROM_START (R412). -/
  | bootRomStart (good : BitVec 5)
  /-- SLOT_VERIFY (R415). -/
  | slotVerify
  /-- APPLY_EMSEL_IMAGE (R412). -/
  | applyEmselImage
  /-- BUILT_IN_SELF_TEST (R420). -/
  | builtInSelfTest (badCells badEngines badCores : List Nat) (badRows : List Nat) (trims : List Nat)
  /-- HBM_TRAINING (R412). -/
  | hbmTraining (bad : List (Nat × Nat × Nat))
  /-- LINKS_START (R412). -/
  | linksStart
  /-- FLASH_READ (R431). -/
  | flashRead (a : Agent) (addr : BitVec 26)
  /-- FLASH_PROGRAM (R431). -/
  | flashProgram (a : Agent) (addr : BitVec 26)
  /-- FLASH_ERASE (R431). -/
  | flashErase (a : Agent) (addr : BitVec 26)
  /-- REBOOT (R431). -/
  | reboot (a : Agent)
  /-- FLASH_COMMAND_DONE (R431). -/
  | flashCommandDone
  /-- TRUST_PREF_WRITE (R414). -/
  | trustPrefWrite (a : Agent) (v : Word)
  /-- TRUST_ENROLL (R428). -/
  | trustEnroll (a : Agent) (v : Word)
  /-- RESET_IN_ASSERT (R484). -/
  | resetInAssert
  /-- PWRGD_DEASSERT (R484). -/
  | pwrgdDeassert
  /-- AONCLK_LOSS (R485). -/
  | aonclkLoss
  /-- RAIL_OUT_OF_RANGE (R484). -/
  | railOutOfRange
  /-- AVS_NO_ACK (R482). -/
  | avsNoAck (ch : Fin 16)
  /-- POWER_SAMPLE (R435). -/
  | powerSample (ch : Fin 16) (p10 p100 : BitVec 16)
  /-- PEAK_LEVER (R435). -/
  | peakLever (ch : Fin 17)
  /-- PEAK_RELEASE (R435). -/
  | peakRelease (ch : Fin 17)
  /-- AVERAGE_LIMIT_DROP (R436). -/
  | averageLimitDrop (g : Fin 3) (mean : BitVec 16)
  /-- AVERAGE_LIMIT_RAISE (R436). -/
  | averageLimitRaise (g : Fin 3) (mean : BitVec 16)
  /-- UPWARD_CHANGE_RETRY (R437). -/
  | upwardChangeRetry (r : Fin 12) (watts : Nat)
  /-- STEP_CHANGE (R434). -/
  | stepChange (r : Fin 12) (target : BitVec 4) (watts : Nat)
  /-- THERMAL_THROTTLE (R438). -/
  | thermalThrottle (r : Fin 12) (temp : BitVec 7)
  /-- THERMAL_RECOVERY (R438). -/
  | thermalRecovery (r : Fin 12) (temp : BitVec 7)
  /-- THERMAL_TRIP (R438). -/
  | thermalTrip (r : Fin 12) (temp : BitVec 7)
  /-- DROOP_STRETCH (R443). -/
  | droopStretch (b : Fin 96)
  /-- SHED_STAGE_ENTER (R444). -/
  | shedStageEnter (ch : Fin 16) (sag : BitVec 10)
  /-- SHED_STAGE_CLEAR (R445). -/
  | shedStageClear (sag : BitVec 10)
  /-- TUNER_REPLAN (R451). -/
  | tunerReplan (r : Fin 12) (slackFails slowOsc : Bool)
  /-- RECORD_ACCEPT (R460). -/
  | recordAccept
  /-- MERGE_EXPIRY (R461). -/
  | mergeExpiry
  /-- HOLD_DRAIN (R462). -/
  | holdDrain
  /-- ERR_RING_WRITE (R464). -/
  | errRingWrite (a : Agent) (v : Word)
  /-- ERR_INJ_GO (R464). -/
  | errInjGo (a : Agent) (v : Word)
  /-- INJECTED_ERROR_STORE (R464). -/
  | injectedErrorStore (data : Word)
  /-- PERF_DEADLINE_WRITE (R468). -/
  | perfDeadlineWrite (a : Agent) (v : Word)
  /-- DEADLINE_FIRE (R468). -/
  | deadlineFire (t : Tid)
  /-- COUNTER_OVERFLOW (R474). -/
  | counterOverflow (c : Cid) (j : Fin 8)
  /-- PERF_CNT_WRITE (R474). -/
  | perfCntWrite (a : Agent) (v : Word)
  /-- FREEZE (R475). -/
  | freeze (a : Agent) (v : Word)
  /-- DEV_CLK_PIN_WRITE (R29). -/
  | devClkPinWrite (a : Agent) (v : Word)
  /-- DEBUG_PORT_ACCESS (R423). -/
  | debugPortAccess (c : Cid) (op : DebugOp)
  /-- HALTED_THREAD_RESUME (R30). -/
  | haltedThreadResume (t : Tid)
  /-- TASK_KILL (R354). -/
  | taskKill (j : Nat)
  /-- CELL_FAULT_CLEAR (R16). -/
  | cellFaultClear (c : Cid)
  /-- STOP_REQUEST (R69). -/
  | stopRequest (t : Tid)
  /-- PAIR_DEADLINE_EXPIRY (R333). -/
  | pairDeadlineExpiry (b : BitVec 12) (shard : BitVec 16)
  /-- NEIGHBOUR_TEMPERATURE_DROP (R441). -/
  | neighbourTemperatureDrop (r n : Fin 12) (tr tn : BitVec 7)
  /-- PFC_PAUSE_EXPIRY (R386). -/
  | pfcPauseExpiry (p : Fin 4) (prio : BitVec 3)
  /-- ROOT_LINK_TRAINING_FAILED (R383). -/
  | rootLinkTrainingFailed (l : Fin 4)
  /-- CONFIG_REQUEST (R376). -/
  | configRequest (q : ConfigReq)
  /-- MANTLE_SRAM_SCRUB (R409). -/
  | mantleSramScrub (addr : Nat) (e : Ecc)
  /-- LINK_CRC_FAILURE (R457). -/
  | linkCrcFailure (l : LinkId) (fails : Nat) (retrainOk : Bool)
  /-- DROOP_RECOVERY (R443). -/
  | droopRecovery (b : Fin 96)
  /-- RAIL_BACK_IN_RANGE (R484). -/
  | railBackInRange
  /-- ADDRESS_RESOLUTION_FRAME (R384). -/
  | addressResolutionFrame (p : Fin 4) (target sender : List Byte) (mac : BitVec 48) (request : Bool)
  /-- RDMA_NONSEND_REQUEST (R315). -/
  | rdmaNonsendRequest (p : Fin 4) (qpn : BitVec 24)
  /-- INSTRUCTION_FETCH_RETURN (R53). -/
  | instructionFetchReturn (t : Tid)
  deriving DecidableEq, Repr

end Sys2Proof
end

