-- ==== Sys2Proof/Config.lean ====
section
/-! DEFINITION. The values the spec leaves open: opaque constants with no body, so that nothing can be proved of a particular value. -/

namespace Sys2Proof.Config

/-- The free value number k of a run (log 4): State's counter is the argument, so that each use is a fresh one. -/
opaque freeValue : Nat → BitVec 64

/-- What a line of a channel holds after a full-scope traffic-generator run has destroyed its contents (R258): the run's number, the line (log 4). -/
opaque freeLine : Nat → Nat → BitVec 1024

/-- The temperature of the hottest DRAM die of a stack when the IO die's counter reads a value (R259): what the sensor finds (log 4). -/
opaque dramTemp : Nat → BitVec 64 → BitVec 7

/-- The codewords that FEC could not correct on a port between two values of the IO die's counter (R388): what the line brings (log 4). -/
opaque fecErrors : Nat → BitVec 64 → BitVec 64 → BitVec 32

/-- What MANTLE_NONCE reads from reset to the first command that renews it (R397, R398): the spec says random (log 4). -/
opaque resetNonce : BitVec 32

/-- Bytes of namespace 1 of the drive on a link (R406): the drive's own (log 4). -/
opaque driveBytes : Nat → Nat

/-- Bytes 1–15 of a repair-record entry in flash (R426): kind, unit, site, data; the spec gives no layout (log 4). -/
opaque repairBytes : Nat → Nat → Nat → BitVec 64 → BitVec 120

/-- Whether `v.fma` and `v.fnma` of infinity × zero with a quiet NaN addend set NV: the spec states no flag there (log 16). -/
opaque fmaInvalidNaN : Bool

/-- SHA-512 of a byte string (R417, R424): the standard's function, uninterpreted (log 5). -/
opaque sha512 : List Byte → BitVec 512

/-- Ed25519 verification of a signature over a message under a public key (R397, R417): uninterpreted (log 5). -/
opaque ed25519Verify : BitVec 256 → List Byte → BitVec 512 → Bool

/-- The Ed25519 public key of a seed (R427): uninterpreted (log 5). -/
opaque ed25519Public : BitVec 256 → BitVec 256

/-- The Ed25519 signature of a message under a seed (R425, R427, R429): uninterpreted (log 5). -/
opaque ed25519Sign : BitVec 256 → List Byte → BitVec 512

/-- The fused identity secret (R427): the part's own (log 5). -/
opaque identitySecret : BitVec 256

/-- The seed of the identity key: the first 32 bytes of the SHA-512 of "RHN12-ID" and the secret (R427). -/
def identitySeed : BitVec 256 :=
  (sha512 (([0x52, 0x48, 0x4E, 0x31, 0x32, 0x2D, 0x49, 0x44] : List Byte) ++ (List.range 32).map (fun i => BitVec.ofNat 8 (identitySecret.toNat >>> (8 * i))))).setWidth 256

/-- The identity public key (R427). -/
def identityKey : BitVec 256 := ed25519Public identitySeed

/-- A signature by the identity key (R425, R429). -/
def identitySign (m : List Byte) : BitVec 512 := ed25519Sign identitySeed m

/-- Selmacor's root public key, fused (R427): uninterpreted (log 5). -/
opaque rootKey : BitVec 256

/-- The fused MAC base (R384): port k uses base + k; the value is the part's own (log 4). -/
opaque macBase : BitVec 48

/-- The SHA-512 of the boot ROM (R430): the spec gives no value (log 4). -/
opaque romDigest : BitVec 512

end Sys2Proof.Config
end

