-- ==== Sys2Proof/Machine/Bits.lean ====
section
/-! DEFINITION. Bit fields, byte lists and small numeric helpers (R4: little-endian, bit 0 least significant). -/

namespace Sys2Proof.Machine

/-- The field [hi:lo] of a word, as a number. -/
def bits {n : Nat} (w : BitVec n) (hi lo : Nat) : Nat := (w.toNat >>> lo) % 2 ^ (hi + 1 - lo)

/-- One bit of a word. -/
def bit {n : Nat} (w : BitVec n) (i : Nat) : Bool := w.getLsbD i

/-- The mask of the field [hi:lo]. -/
def fmask (n hi lo : Nat) : BitVec n := BitVec.ofNat n ((2 ^ (hi + 1 - lo) - 1) <<< lo)

/-- A word with the field [hi:lo] replaced. -/
def setBits {n : Nat} (w : BitVec n) (hi lo v : Nat) : BitVec n :=
  (w &&& ~~~(fmask n hi lo)) ||| BitVec.ofNat n ((v % 2 ^ (hi + 1 - lo)) <<< lo)

/-- A word with one bit replaced. -/
def setBit {n : Nat} (w : BitVec n) (i : Nat) (b : Bool) : BitVec n := setBits w i i b.toNat

/-- A 64-bit word from a number. -/
def wd (n : Nat) : Word := BitVec.ofNat 64 n

/-- Little-endian bytes of a number. -/
def leBytes (v : Nat) : Nat → List Byte
  | 0 => []
  | n + 1 => BitVec.ofNat 8 v :: leBytes (v >>> 8) n

/-- The number that little-endian bytes spell. -/
def ofLE : List Byte → Nat
  | [] => 0
  | b :: t => b.toNat + 256 * ofLE t

/-- Sign-extension of the low w bits of a number to 64 bits. -/
def sext (w : Nat) (v : Nat) : Word := (BitVec.ofNat w v).signExtend 64

/-- The two's complement value of the low w bits. -/
def sval (w : Nat) (v : Nat) : Int := (BitVec.ofNat w v).toInt

/-- The number of zero bits above the highest set bit of a w-bit value. -/
def clzN (w v : Nat) : Nat := if v = 0 then w else w - 1 - Nat.log2 v

/-- The number of zero bits below the lowest set bit among w bits. -/
def ctzN (w v : Nat) : Nat := ((List.range w).find? (fun i => v.testBit i)).getD w

/-- The number of set bits among w bits. -/
def popN (w v : Nat) : Nat := ((List.range w).filter (fun i => v.testBit i)).length

/-- Integer division truncated toward zero with the rounding of R42 left to the caller. -/
def truncDiv (a b : Int) : Int := Int.tdiv a b

/-- A number brought into [lo, hi]. -/
def clampI (lo hi v : Int) : Int := if v < lo then lo else if hi < v then hi else v

/-- A number brought into [lo, hi]. -/
def clampN (lo hi v : Nat) : Nat := if v < lo then lo else if hi < v then hi else v

/-- A small field put together from parts: each is (low bit, value). -/
def pack (l : List (Nat × Nat)) : Word := wd (l.foldl (fun a p => a ||| (p.2 <<< p.1)) 0)

end Sys2Proof.Machine
end

