-- ==== Sys2Proof/Machine/Num.lean ====
section
/-! DEFINITION. Number formats, exact values, rounding, conversion and the sticky flags (R135–R156). -/

namespace Sys2Proof.Machine

/-- An exact value: a NaN (signalling or not), an infinity, or ±m × 2^e. -/
inductive FV where
  | nan (sig : Bool)
  | inf (neg : Bool)
  | fin (neg : Bool) (m : Nat) (e : Int)
  deriving DecidableEq, Repr

/-- A floating layout (R135): exponent bits, stored significand bits, bias, and which special codes it has: 0 none, 1 IEEE infinities and NaNs, 2 the one NaN of E4M3. -/
structure FFmt where
  eb : Nat
  mb : Nat
  bias : Nat
  special : Nat
  deriving DecidableEq, Repr

/-- The floating format of a code, if it is one (R135, R136). -/
def ffmt : Nat → Option FFmt
  | 0x0 => some ⟨8, 23, 127, 1⟩
  | 0x1 => some ⟨8, 7, 127, 1⟩
  | 0x2 => some ⟨5, 10, 15, 1⟩
  | 0x3 => some ⟨4, 3, 7, 2⟩
  | 0x4 => some ⟨5, 2, 15, 1⟩
  | 0x5 => some ⟨3, 2, 3, 0⟩
  | 0x6 => some ⟨2, 3, 1, 0⟩
  | 0x7 => some ⟨2, 1, 1, 0⟩
  | 0xD => some ⟨11, 52, 1023, 1⟩
  | _ => none

/-- The integer format of a code, if it is one: width and signedness (R135). -/
def ifmt : Nat → Option (Nat × Bool)
  | 0x8 => some (8, true)
  | 0x9 => some (8, false)
  | 0xA => some (4, true)
  | 0xB => some (16, true)
  | 0xC => some (32, true)
  | _ => none

/-- FP32, FP64, BF16, FP16 and E4M3 layouts by name. -/
def f32 : FFmt := ⟨8, 23, 127, 1⟩
def f64 : FFmt := ⟨11, 52, 1023, 1⟩
def fbf16 : FFmt := ⟨8, 7, 127, 1⟩
def f16 : FFmt := ⟨5, 10, 15, 1⟩
def fe4m3 : FFmt := ⟨4, 3, 7, 2⟩

/-- Bits of an element in a format (R135); 0 for the reserved code. -/
def fmtBits (c : Nat) : Nat :=
  match ffmt c with
  | some f => 1 + f.eb + f.mb
  | none =>
    match ifmt c with
    | some (w, _) => w
    | none => if c = 0xE then 8 else 0

/-- The sticky flags of FFLAGS as bit masks. -/
def fNX : Nat := 1
def fUF : Nat := 2
def fOF : Nat := 4
def fDZ : Nat := 8
def fNV : Nat := 16
def fQSAT : Nat := 32
def fSCALE : Nat := 64
def fNANLOST : Nat := 128
def fTSHAPE : Nat := 256

/-- A value with the flags its computation set. -/
abbrev Fl (α : Type) := α × Nat

/-- How a result is rounded (R146–R148): mode 0 RNE, 1 RTZ, 2 SR with its 16 random bits. -/
structure Rnd where
  mode : Nat
  r : Nat := 0
  deriving DecidableEq, Repr

/-- Round to nearest even. -/
def rne : Rnd := { mode := 0 }

/-- The code of a floating format decoded (R135, R136). -/
def fdec (f : FFmt) (w : Nat) : FV :=
  let s := w.testBit (f.eb + f.mb)
  let ex := (w >>> f.mb) % 2 ^ f.eb
  let mn := w % 2 ^ f.mb
  let top := 2 ^ f.eb - 1
  if f.special = 1 ∧ ex = top then (if mn = 0 then .inf s else .nan (!mn.testBit (f.mb - 1)))
  else if f.special = 2 ∧ ex = top ∧ mn = 2 ^ f.mb - 1 then .nan false
  else if ex = 0 then .fin s mn (1 - (f.bias : Int) - f.mb)
  else .fin s (mn + 2 ^ f.mb) ((ex : Int) - f.bias - f.mb)

/-- The default NaN of a format (R137). -/
def fnanCode (f : FFmt) : Nat :=
  if f.special = 2 then 2 ^ (f.eb + f.mb) - 1 else (2 ^ f.eb - 1) <<< f.mb ||| (1 <<< (f.mb - 1))

/-- The code of the largest finite magnitude. -/
def fmaxCode (f : FFmt) : Nat :=
  if f.special = 1 then ((2 ^ f.eb - 1) <<< f.mb) - 1
  else if f.special = 2 then 2 ^ (f.eb + f.mb) - 2
  else 2 ^ (f.eb + f.mb) - 1

/-- The infinity code of a format that has one. -/
def finfCode (f : FFmt) : Nat := (2 ^ f.eb - 1) <<< f.mb

/-- A magnitude code with its sign. -/
def fsign (f : FFmt) (neg : Bool) (c : Nat) : Nat := if neg then c ||| (1 <<< (f.eb + f.mb)) else c

/-- m × 2^(-sh) rounded to an integer, and whether it was inexact (R147, R148). -/
def roundShift (rd : Rnd) (m sh : Nat) : Nat × Bool :=
  let k := m >>> sh
  let rem := m % 2 ^ sh
  if rem = 0 then (k, false)
  else
    let up := match rd.mode with
      | 0 => decide (2 * rem > 2 ^ sh) || (decide (2 * rem = 2 ^ sh) && decide (k % 2 = 1))
      | 1 => false
      | _ => decide (rd.r < (rem <<< 16) >>> sh)
    (if up then k + 1 else k, true)

/-- A magnitude put into a floating format's grid (R147, R153): the magnitude code before the range check, at unbounded exponent, with NX and UF. -/
def froundMag (f : FFmt) (rd : Rnd) (m : Nat) (e : Int) : Fl Nat :=
  let lead : Int := (Nat.log2 m : Int) + e
  let emin : Int := 1 - (f.bias : Int)
  let q : Int := (if lead < emin then emin else lead) - f.mb
  let (k, inx) := if q ≤ e then (m <<< (e - q).toNat, false) else roundShift rd m (q - e).toNat
  -- k below 2^mb is subnormal; the biased code is linear in k within a binade and carries over its top
  let code := if k < 2 ^ f.mb then k else (q + f.mb + f.bias - 1).toNat * 2 ^ f.mb + k
  (code, (if inx then fNX else 0) ||| (if inx && decide (lead < emin) then fUF else 0))

/-- A value converted to a floating format (R150, R151): its code and flags. R173 has a conversion between equal formats change only −0 and NaN, R151 has every infinity become ±max under SAT: an infinity between equal formats with SAT set becomes ±max with OF (DESIGN CHOICE, log 135). -/
def fenc (f : FFmt) (rd : Rnd) (sat : Bool) (v : FV) : Fl Nat :=
  match v with
  | .nan sig =>
    let nv := if sig then fNV else 0
    if f.special = 0 then (0, fNANLOST ||| nv) else (fnanCode f, nv)
  | .inf neg =>
    if f.special = 0 then (fsign f neg (fmaxCode f), fOF)
    else if sat then (fsign f neg (fmaxCode f), fOF)
    else if f.special = 2 then (fnanCode f, fNV)
    else (fsign f neg (finfCode f), 0)
  | .fin neg m e =>
    if m = 0 then (fsign f neg 0, 0)
    else
      let (c, fl) := froundMag f rd m e
      if fmaxCode f < c then
        (fsign f neg (if sat || decide (f.special ≠ 1) then fmaxCode f else finfCode f), fOF ||| fNX)
      else (fsign f neg c, fl)

/-- A finite value rounded to an integer, and whether it was inexact. -/
def roundInt (rd : Rnd) (neg : Bool) (m : Nat) (e : Int) : Int × Bool :=
  let (k, inx) := if 0 ≤ e then (m <<< e.toNat, false) else roundShift rd m (-e).toNat
  (if neg then -(k : Int) else k, inx)

/-- The ends of an integer format's range. -/
def irange (w : Nat) (sgn : Bool) : Int × Int := if sgn then (-(2 ^ (w - 1) : Int), 2 ^ (w - 1) - 1) else (0, 2 ^ w - 1)

/-- A value converted to an integer format (R150–R152); narrow marks a source of a wider integer format, whose saturation sets QSAT. -/
def ienc (w : Nat) (sgn narrow : Bool) (rd : Rnd) (v : FV) : Fl Nat :=
  let (lo, hi) := irange w sgn
  let code (i : Int) : Nat := (BitVec.ofInt w i).toNat
  match v with
  | .nan sig => (0, fNANLOST ||| fNV ||| (if sig then fNV else 0))
  | .inf neg => (code (if neg then lo else hi), fNV)
  | .fin neg m e =>
    let (i, inx) := roundInt rd neg m e
    if i < lo then (code lo, if narrow then fQSAT else fNV)
    else if hi < i then (code hi, if narrow then fQSAT else fNV)
    else (code i, if inx then fNX else 0)

/-- The exact value of an integer. -/
def FV.ofInt (i : Int) : FV := .fin (decide (i < 0)) i.natAbs 0

/-- An element's code decoded in a format (R135); the reserved code and W8 without a scale decode as E4M3 (R141). -/
def edec (c w : Nat) : FV :=
  match ffmt c with
  | some f => fdec f w
  | none =>
    match ifmt c with
    | some (n, true) => FV.ofInt (sval n w)
    | some (n, false) => FV.ofInt ((w % 2 ^ n : Nat) : Int)
    | none => fdec fe4m3 w

/-- Whether a conversion goes from an integer format to a narrower one: out of range it sets QSAT; every other conversion to an integer sets NV (R150, R152). -/
def narrows (src dst : Nat) : Bool :=
  match ifmt src, ifmt dst with
  | some (a, _), some (b, _) => decide (b < a)
  | _, _ => false

/-- A value converted to an element of a format (R150–R152). -/
def eenc (c : Nat) (narrow : Bool) (rd : Rnd) (sat : Bool) (v : FV) : Fl Nat :=
  match ffmt c with
  | some f => fenc f rd sat v
  | none =>
    match ifmt c with
    | some (w, sgn) => ienc w sgn narrow rd v
    | none => fenc fe4m3 rd true v

/-- A −0 code of a floating format becomes +0 (R154). -/
def posZero (c w : Nat) : Nat :=
  match ffmt c with
  | some f => if w = 1 <<< (f.eb + f.mb) then 0 else w
  | none => w

/-! ## Exact arithmetic -/

/-- Whether a value is a NaN. -/
def FV.isNan : FV → Bool
  | .nan _ => true
  | .inf _ => false
  | .fin _ _ _ => false

/-- Whether a value is a signalling NaN. -/
def FV.isSig : FV → Bool
  | .nan s => s
  | .inf _ => false
  | .fin _ _ _ => false

/-- The flags of NaN operands: NV for a signalling one. -/
def nanFlags (l : List FV) : Nat := if l.any FV.isSig then fNV else 0

/-- A value negated. -/
def FV.neg : FV → FV
  | .nan s => .nan s
  | .inf n => .inf (!n)
  | .fin n m e => .fin (!n) m e

/-- The magnitude of a value. -/
def FV.abs : FV → FV
  | .nan s => .nan s
  | .inf _ => .inf false
  | .fin _ m e => .fin false m e

/-- A value multiplied by a power of two. -/
def FV.scale (v : FV) (x : Int) : FV :=
  match v with
  | .fin n m e => .fin n m (e + x)
  | .nan s => .nan s
  | .inf n => .inf n

/-- The signed significand of a finite value at an exponent not above its own. -/
def alignTo (q : Int) (n : Bool) (m : Nat) (e : Int) : Int :=
  let k : Int := ((m <<< (e - q).toNat : Nat) : Int)
  if n then -k else k

/-- The exact sum. -/
def FV.add (a b : FV) : Fl FV :=
  match a, b with
  | .nan s, y => (.nan false, nanFlags [.nan s, y])
  | x, .nan s => (.nan false, nanFlags [x, .nan s])
  | .inf n, .inf m => if n = m then (.inf n, 0) else (.nan false, fNV)
  | .inf n, .fin _ _ _ => (.inf n, 0)
  | .fin _ _ _, .inf n => (.inf n, 0)
  | .fin n1 m1 e1, .fin n2 m2 e2 =>
    let q := if e1 ≤ e2 then e1 else e2
    let s := alignTo q n1 m1 e1 + alignTo q n2 m2 e2
    if s = 0 then (.fin (n1 && n2) 0 q, 0) else (.fin (decide (s < 0)) s.natAbs q, 0)

/-- The exact product. -/
def FV.mul (a b : FV) : Fl FV :=
  match a, b with
  | .nan s, y => (.nan false, nanFlags [.nan s, y])
  | x, .nan s => (.nan false, nanFlags [x, .nan s])
  | .inf n, .inf m => (.inf (n != m), 0)
  | .inf n, .fin n2 m _ => if m = 0 then (.nan false, fNV) else (.inf (n != n2), 0)
  | .fin n m _, .inf n2 => if m = 0 then (.nan false, fNV) else (.inf (n != n2), 0)
  | .fin n1 m1 e1, .fin n2 m2 e2 => (.fin (n1 != n2) (m1 * m2) (e1 + e2), 0)

/-- The exact value of a × b + c. With infinity × zero and a quiet NaN addend NV is left open (log 16). -/
def FV.fma (a b c : FV) : Fl FV :=
  let (p, fl) := FV.mul a b
  match c with
  | .nan s =>
    let invalid := p.isNan && !a.isNan && !b.isNan
    (.nan false, nanFlags [a, b, .nan s] ||| (if invalid && Config.fmaInvalidNaN then fNV else 0))
  | .inf n => let (v, f2) := FV.add p (.inf n); (v, fl ||| f2)
  | .fin n m e => let (v, f2) := FV.add p (.fin n m e); (v, fl ||| f2)

/-- The quotient, exact to far below any format's last place with a sticky bit. -/
def FV.div (a b : FV) : Fl FV :=
  match a, b with
  | .nan s, y => (.nan false, nanFlags [.nan s, y])
  | x, .nan s => (.nan false, nanFlags [x, .nan s])
  | .inf _, .inf _ => (.nan false, fNV)
  | .inf n, .fin n2 _ _ => (.inf (n != n2), 0)
  | .fin n _ _, .inf n2 => (.fin (n != n2) 0 0, 0)
  | .fin n1 m1 e1, .fin n2 m2 e2 =>
    if m2 = 0 then (if m1 = 0 then (.nan false, fNV) else (.inf (n1 != n2), fDZ))
    else
      let q := (m1 <<< 256) / m2
      let r := (m1 <<< 256) % m2
      (.fin (n1 != n2) (2 * q + (if r = 0 then 0 else 1)) (e1 - e2 - 257), 0)

/-- The integer square root, bit by bit from bit k. -/
def isqrtFrom (n : Nat) : Nat → Nat → Nat
  | 0, r => if (r + 1) * (r + 1) ≤ n then r + 1 else r
  | k + 1, r =>
    let c := r + 2 ^ (k + 1)
    isqrtFrom n k (if c * c ≤ n then c else r)

/-- The square root, exact to far below any format's last place with a sticky bit. -/
def FV.sqrt (a : FV) : Fl FV :=
  match a with
  | .nan s => (.nan false, nanFlags [.nan s])
  | .inf n => if n then (.nan false, fNV) else (.inf false, 0)
  | .fin n m e =>
    if m = 0 then (.fin n 0 e, 0)
    else if n then (.nan false, fNV)
    else
      let odd := e % 2
      let m' := (m <<< (if odd = 0 then 0 else 1)) <<< 240
      let r := isqrtFrom m' ((Nat.log2 m') / 2 + 1) 0
      (.fin false (2 * r + (if r * r = m' then 0 else 1)) ((e - odd) / 2 - 121), 0)

/-- Order of two values that are not NaN: -1, 0 or 1 (zeros are equal). -/
def FV.cmp (a b : FV) : Int :=
  match a, b with
  | .inf n, .inf m => if n = m then 0 else if n then -1 else 1
  | .inf n, _ => if n then -1 else 1
  | _, .inf n => if n then 1 else -1
  | .fin n1 m1 e1, .fin n2 m2 e2 =>
    let q := if e1 ≤ e2 then e1 else e2
    let d := alignTo q n1 m1 e1 - alignTo q n2 m2 e2
    if d < 0 then -1 else if 0 < d then 1 else 0
  | .nan _, _ => 0
  | _, .nan _ => 0

/-- Whether a value is zero. -/
def FV.isZero : FV → Bool
  | .fin _ m _ => decide (m = 0)
  | .inf _ => false
  | .nan _ => false

/-- Whether a value is finite. -/
def FV.isFin : FV → Bool
  | .fin _ _ _ => true
  | .inf _ => false
  | .nan _ => false

/-- floor(log2 |v|) of a finite non-zero value. -/
def FV.lead : FV → Int
  | .fin _ m e => (Nat.log2 m : Int) + e
  | .inf _ => 0
  | .nan _ => 0

/-- A value rounded to a format and read back: a result in that format, with its flags. -/
def fround (f : FFmt) (rd : Rnd) (v : FV) : Fl FV := let (c, fl) := fenc f rd false v; (fdec f c, fl)

/-- One rounded operation: the exact result's flags joined with the rounding's. -/
def fop (f : FFmt) (rd : Rnd) (x : Fl FV) : Fl FV := let (v, fl) := fround f rd x.1; (v, x.2 ||| fl)

/-- FP32 results rounded to nearest even, flags dropped. -/
def add32 (a b : FV) : FV := (fop f32 rne (FV.add a b)).1
def mul32 (a b : FV) : FV := (fop f32 rne (FV.mul a b)).1
def fma32 (a b c : FV) : FV := (fop f32 rne (FV.fma a b c)).1

/-- FP64 results rounded to nearest even, flags dropped. -/
def add64 (a b : FV) : FV := (fop f64 rne (FV.add a b)).1
def sub64 (a b : FV) : FV := (fop f64 rne (FV.add a b.neg)).1
def mul64 (a b : FV) : FV := (fop f64 rne (FV.mul a b)).1
def div64 (a b : FV) : FV := (fop f64 rne (FV.div a b)).1
def sqrt64 (a : FV) : FV := (fop f64 rne (FV.sqrt a)).1

/-! ## Stochastic rounding (R148, R149) -/

/-- The splitmix64 finaliser. -/
def mix64 (z : Word) : Word :=
  let z := (z ^^^ (z >>> 30)) * 0xbf58476d1ce4e5b9#64
  let z := (z ^^^ (z >>> 27)) * 0x94d049bb133111eb#64
  z ^^^ (z >>> 31)

/-- What fixes an instruction's random bits (R149); its indices count from `base` (R278). -/
structure SrCtx where
  seed : Word
  stream : Word
  step : Word
  base : Word := 0
  deriving DecidableEq, Repr

/-- The 16 random bits of an index (R148). -/
def srBits (x : SrCtx) (index : Word) : Nat :=
  let h := mix64 (x.seed ^^^ (x.stream <<< 48) ^^^ index)
  ((mix64 (h ^^^ x.step)) >>> 48).toNat

/-- The rounding of an element: its mode, and its random bits under SR. -/
def rndAt (mode : Nat) (x : SrCtx) (index : Word) : Rnd :=
  if mode = 2 then { mode := 2, r := srBits x (x.base + index) } else { mode := mode }

/-! ## Block scales and W8 (R138–R143) -/

/-- The scale exponent of an E8M0 code; none for NaN (R138). -/
def e8m0 (b : Nat) : Option Int := if b = 0xFF then none else some ((b : Int) - 127)

/-- emax of an MX element format (R140). -/
def mxEmax (c : Nat) : Int := match c with | 3 => 8 | 4 => 15 | 5 => 4 | 6 => 2 | 7 => 2 | _ => 0

/-- Whether a format is an MX element format (R139). -/
def isMx (c : Nat) : Bool := [3, 4, 5, 6, 7, 8].contains c

/-- An MX element under its block's scale (R139): INT8 stands for its value × 2⁻⁶. -/
def mxDec (c w : Nat) (scale : Nat) : FV :=
  match e8m0 scale with
  | none => .nan false
  | some x => (edec c w).scale (x + (if c = 8 then -6 else 0))

/-- The greatest magnitude of some values. -/
def amaxOf (l : List FV) : FV := l.foldl (fun a v => if FV.cmp a v.abs < 0 then v.abs else a) (.fin false 0 0)

/-- The scale code of a block written in an MX format (R140). -/
def mxScale (c : Nat) (active : List FV) : Nat :=
  if active.any (fun v => !v.isFin) then 0xFF
  else
    let a := amaxOf active
    if a.isZero then 0 else (clampI (-127) 127 (a.lead - mxEmax c) + 127).toNat

/-- An element written under a block scale (R140): saturating; zero in a NaN block, where R130 and R140 name no flag for an element, not even for the NaN or the infinity that made the scale 0xFF, and none is set (DESIGN CHOICE, log 134). -/
def mxEnc (c : Nat) (rd : Rnd) (scale : Nat) (v : FV) : Fl Nat :=
  match e8m0 scale with
  | none => (0, 0)
  | some x => eenc c false rd true (v.scale (-x + (if c = 8 then 6 else 0)))

/-- W8 encoding (R143): the byte, whether a finite value was clipped, whether it is non-finite. −0 is written +0. -/
def w8Enc (scale : Nat) (v : FV) : Nat × Bool × Bool :=
  match e8m0 scale with
  | none => (0x7F, false, true)
  | some x =>
    if !v.isFin then (0x7F, false, true)
    else
      let (c, fl) := fenc fe4m3 rne true (v.scale (-x))
      (posZero 3 c, decide (fl &&& fOF ≠ 0), false)

/-- W8 decoding (R143). -/
def w8Dec (scale b : Nat) : FV :=
  match e8m0 scale with
  | none => .nan false
  | some x => (fdec fe4m3 b).scale x

/-- The next scale code of a W8 block from the maximum of its reduced values, the code in use and x_init's code (R142). -/
def w8NextScale (vals : List FV) (cur init : Nat) : Nat :=
  if vals.any (fun v => !v.isFin) then init
  else
    let a := amaxOf vals
    if a.isZero then cur else (clampI (-127) 127 (a.lead + 2 - 8) + 127).toNat

end Sys2Proof.Machine
end

