-- ==== Sys2Proof/Machine/Assoc.lean ====
section
/-! DEFINITION. Finite tables as sorted association lists: the plain data that memories, register files and caches are kept in. -/

namespace Sys2Proof.Machine

/-- A sparse table: pairs with rising keys. -/
abbrev Table (α : Type) := List (Nat × α)

variable {α : Type}

/-- The entry of a key, if any. -/
def tget? : Table α → Nat → Option α
  | [], _ => none
  | (a, x) :: t, k => if a = k then some x else tget? t k

/-- The entry of a key, or the default. -/
def tget (d : α) (t : Table α) (k : Nat) : α := (tget? t k).getD d

/-- The table with an entry written, in order. -/
def tins (k : Nat) (v : α) : Table α → Table α
  | [] => [(k, v)]
  | (a, x) :: t => if k < a then (k, v) :: (a, x) :: t else if a = k then (k, v) :: t else (a, x) :: tins k v t

/-- The table without an entry. -/
def tdel (k : Nat) : Table α → Table α
  | [] => []
  | (a, x) :: t => if a = k then tdel k t else (a, x) :: tdel k t

/-- The table with a key's value written, where the default is kept by listing nothing. -/
def tset [DecidableEq α] (d : α) (t : Table α) (k : Nat) (v : α) : Table α :=
  if v = d then tdel k t else tins k v t

/-- The table with one entry changed. -/
def tmod (d : α) (t : Table α) (k : Nat) (f : α → α) : Table α := tins k (f (tget d t k)) t

/-- Keys rise strictly from a bound. -/
def tsortedFrom : Option Nat → Table α → Bool
  | _, [] => true
  | lo, (a, _) :: t => (match lo with | none => true | some l => decide (l < a)) && tsortedFrom (some a) t

/-- The canonical form of a table with a default: strictly rising keys, no entry equal to the default. -/
def tcanon [DecidableEq α] (d : α) (t : Table α) : Bool := tsortedFrom none t && t.all (fun p => decide (p.2 ≠ d))

/-- The first k with a property below n. -/
def findBelow (n : Nat) (p : Nat → Bool) : Option Nat := (List.range n).find? p

/-- An element of a list replaced. -/
def lset (l : List α) (i : Nat) (v : α) : List α := l.set i v

/-- A list element or a default. -/
def lgetD (l : List α) (i : Nat) (d : α) : α := l.getD i d

end Sys2Proof.Machine
end

