-- ==== Sys2Proof/Machine/Regs.lean ====
section
/-! DEFINITION. The MMIO register maps of spec/: each register's place (R81), fields, access codes (R7) and reset values; the reading and writing of fields. -/

namespace Sys2Proof.Machine

/-- Access codes (R7); a field not listed is reserved. -/
inductive Acc where
  | rw
  | ro
  | wo
  | w1c
  | w1s
  | rc
  deriving DecidableEq, Repr

/-- A field of a register map: its bits, its access code, its reset value, and the values a write may give it (none listed: every value; R8). -/
structure Fld where
  hi : Nat
  lo : Nat
  acc : Acc
  reset : Nat := 0
  ok : List (Nat × Nat) := []
  deriving DecidableEq, Repr

/-- The MMIO registers. A register with instances (a stack, a channel, a port) is one name. -/
inductive RegName where
  | devIdent
  | devActive
  | devBlksel
  | devBlkmap
  | devClk
  | devAstbase
  | devEpoch
  | devTlbinv
  | devTlbstat
  | devBmcfg
  | hbmStacksel
  | hbmChsel
  | hbmStkstat
  | hbmChstat
  | hbmPart
  | hbmRmsel
  | hbmRment
  | hbmTgctl
  | hbmTgstat
  | liningStacksel
  | liningQpush
  | liningQstat
  | liningSdig
  | liningEngsel
  | liningEngstat
  | devHemctl
  | devHemcfg
  | devHemasid
  | devHemupd
  | devHemtgt
  | devHemclip
  | devHemnorm
  | devHemverd
  | devHemrank
  | devHemdig
  | devHemxdig
  | devHeminit
  | devHemnotify
  | collCtl
  | collJob
  | collJobid
  | collRootgid
  | collRtbase
  | collBtbase
  | collNum
  | collDline
  | collPace
  | collPost
  | collGen
  | collCntsel
  | collCnt
  | collSuspect
  | collLast
  | dmaChsel
  | dmaRing
  | dmaPi
  | dmaCi
  | dmaChctl
  | dmaPace
  | dmaEngstat
  | dmaErraddr
  | pegSel
  | pegVal
  | pegAdd
  | pegGrp
  | pegRamp
  | pegSat
  | devTqsel
  | devTqpush
  | devTqstat
  | devTqcfg
  | devPciewin
  | devHostxlat
  | rootLinksel
  | rootLinkstat
  | rootCfgaddr
  | rootCfgdata
  | ethPortsel
  | ethPortstat
  | seamStat
  | seamPeer
  | mantleMbdoor
  | mantleMbstat
  | mantleMbcfg
  | mantleNonce
  | mantleCores
  | mantleHeart
  | mantleIrqpost
  | devBoot
  | trustFlctl
  | trustPref
  | trustEnroll
  | trustNumdig
  | trustIdkey
  | powerRegsel
  | powerRegstat
  | powerChsel
  | powerChstat
  | powerAvg
  | powerAvglim
  | powerShed
  | errRing
  | errWp
  | errRp
  | errStat
  | errMsix
  | errInj
  | perfCellsel
  | perfCntsel
  | perfEvt
  | perfCnt
  | perfCfg
  | perfLcsel
  | perfLcount
  | perfDeadline
  deriving DecidableEq, Repr

/-- Registers, part 0. -/
def regAll0 : List RegName :=
  [.devIdent, .devActive, .devBlksel, .devBlkmap, .devClk, .devAstbase, .devEpoch, .devTlbinv, .devTlbstat, .devBmcfg, .hbmStacksel, .hbmChsel, .hbmStkstat, .hbmChstat, .hbmPart, .hbmRmsel, .hbmRment, .hbmTgctl, .hbmTgstat, .liningStacksel, .liningQpush, .liningQstat, .liningSdig, .liningEngsel, .liningEngstat, .devHemctl, .devHemcfg, .devHemasid, .devHemupd, .devHemtgt]

/-- Registers, part 1. -/
def regAll1 : List RegName :=
  [.devHemclip, .devHemnorm, .devHemverd, .devHemrank, .devHemdig, .devHemxdig, .devHeminit, .devHemnotify, .collCtl, .collJob, .collJobid, .collRootgid, .collRtbase, .collBtbase, .collNum, .collDline, .collPace, .collPost, .collGen, .collCntsel, .collCnt, .collSuspect, .collLast, .dmaChsel, .dmaRing, .dmaPi, .dmaCi, .dmaChctl, .dmaPace, .dmaEngstat]

/-- Registers, part 2. -/
def regAll2 : List RegName :=
  [.dmaErraddr, .pegSel, .pegVal, .pegAdd, .pegGrp, .pegRamp, .pegSat, .devTqsel, .devTqpush, .devTqstat, .devTqcfg, .devPciewin, .devHostxlat, .rootLinksel, .rootLinkstat, .rootCfgaddr, .rootCfgdata, .ethPortsel, .ethPortstat, .seamStat, .seamPeer, .mantleMbdoor, .mantleMbstat, .mantleMbcfg, .mantleNonce, .mantleCores, .mantleHeart, .mantleIrqpost, .devBoot, .trustFlctl]

/-- Registers, part 3. -/
def regAll3 : List RegName :=
  [.trustPref, .trustEnroll, .trustNumdig, .trustIdkey, .powerRegsel, .powerRegstat, .powerChsel, .powerChstat, .powerAvg, .powerAvglim, .powerShed, .errRing, .errWp, .errRp, .errStat, .errMsix, .errInj, .perfCellsel, .perfCntsel, .perfEvt, .perfCnt, .perfCfg, .perfLcsel, .perfLcount, .perfDeadline]

/-- Every MMIO register. -/
def regAll : List RegName := regAll0 ++ regAll1 ++ regAll2 ++ regAll3

namespace F

/-- DEV_IDENT.DEVICE (R3). -/
def devIdentDevice : Fld := ⟨15, 0, .ro, 19986, []⟩
/-- DEV_IDENT.BASE_REV (R3). -/
def devIdentBaseRev : Fld := ⟨23, 16, .ro, 1, []⟩
/-- DEV_IDENT.METAL_REV (R3). -/
def devIdentMetalRev : Fld := ⟨31, 24, .ro, 1, []⟩
/-- DEV_IDENT.HBM_GIB_DIV8 (R3). -/
def devIdentHbmGibDiv8 : Fld := ⟨39, 32, .ro, 120, []⟩
/-- DEV_ACTIVE.CELLS (R28). -/
def devActiveCells : Fld := ⟨9, 0, .ro, 0, []⟩
/-- DEV_ACTIVE.DEGRADED (R28). -/
def devActiveDegraded : Fld := ⟨22, 16, .ro, 0, []⟩
/-- DEV_ACTIVE.ENGINE_SPARED (R28). -/
def devActiveEngineSpared : Fld := ⟨35, 24, .ro, 0, []⟩
/-- DEV_ACTIVE.MANTLE_SPARED (R28). -/
def devActiveMantleSpared : Fld := ⟨36, 36, .ro, 0, []⟩
/-- DEV_BLKSEL.BLOCK (R28). -/
def devBlkselBlock : Fld := ⟨6, 0, .rw, 0, [(0, 95)]⟩
/-- DEV_BLKMAP.SITE (R28). -/
def devBlkmapSite : Fld := ⟨31, 0, .ro, 4294967295, []⟩
/-- DEV_BLKMAP.SPARE (R28). -/
def devBlkmapSpare : Fld := ⟨35, 32, .ro, 15, []⟩
/-- DEV_BLKMAP.DEAD (R28). -/
def devBlkmapDead : Fld := ⟨39, 36, .ro, 0, []⟩
/-- DEV_CLK.PIN (R28). -/
def devClkPin : Fld := ⟨11, 0, .rw, 0, []⟩
/-- DEV_CLK.RUNNING (R28). -/
def devClkRunning : Fld := ⟨27, 16, .ro, 0, []⟩
/-- DEV_CLK.SPARE_PLL (R28). -/
def devClkSparePll : Fld := ⟨43, 32, .ro, 0, []⟩
/-- DEV_CLK.STOPPED (R28). -/
def devClkStopped : Fld := ⟨59, 48, .ro, 0, []⟩
/-- DEV_ASTBASE.BASE (R84). -/
def devAstbaseBase : Fld := ⟨51, 12, .rw, 0, []⟩
/-- DEV_EPOCH.EPOCH (R95). -/
def devEpochEpoch : Fld := ⟨63, 0, .ro, 0, []⟩
/-- DEV_TLBINV.ASID (R101). -/
def devTlbinvAsid : Fld := ⟨5, 0, .rw, 0, []⟩
/-- DEV_TLBINV.SCOPE (R101). -/
def devTlbinvScope : Fld := ⟨7, 6, .rw, 0, [(0, 2)]⟩
/-- DEV_TLBINV.VPN (R101). -/
def devTlbinvVpn : Fld := ⟨47, 12, .rw, 0, []⟩
/-- DEV_TLBINV.GO (R101). -/
def devTlbinvGo : Fld := ⟨63, 63, .w1s, 0, []⟩
/-- DEV_TLBSTAT.LOST (R101). -/
def devTlbstatLost : Fld := ⟨0, 0, .w1c, 0, []⟩
/-- DEV_BMCFG.RC_WAYS (R213). -/
def devBmcfgRcWays : Fld := ⟨47, 0, .ro, 0, []⟩
/-- DEV_BMCFG.SPARE_MIN (R213). -/
def devBmcfgSpareMin : Fld := ⟨53, 48, .ro, 0, []⟩
/-- HBM_STACKSEL.STACK (R259). -/
def hbmStackselStack : Fld := ⟨3, 0, .rw, 0, [(0, 11)]⟩
/-- HBM_CHSEL.CH (R259). -/
def hbmChselCh : Fld := ⟨4, 0, .rw, 0, []⟩
/-- HBM_STKSTAT.STATE (R259). -/
def hbmStkstatState : Fld := ⟨2, 0, .ro, 0, []⟩
/-- HBM_STKSTAT.MAINT (R259). -/
def hbmStkstatMaint : Fld := ⟨3, 3, .rw, 0, []⟩
/-- HBM_STKSTAT.ERR (R259). -/
def hbmStkstatErr : Fld := ⟨4, 4, .w1c, 0, []⟩
/-- HBM_STKSTAT.RM_USED (R259). -/
def hbmStkstatRmUsed : Fld := ⟨14, 5, .ro, 0, []⟩
/-- HBM_STKSTAT.RM_FULL (R259). -/
def hbmStkstatRmFull : Fld := ⟨15, 15, .ro, 0, []⟩
/-- HBM_STKSTAT.TEMP (R259). -/
def hbmStkstatTemp : Fld := ⟨22, 16, .ro, 0, []⟩
/-- HBM_STKSTAT.OFFLINED (R259). -/
def hbmStkstatOfflined : Fld := ⟨47, 32, .ro, 0, []⟩
/-- HBM_CHSTAT.STATE (R259). -/
def hbmChstatState : Fld := ⟨1, 0, .ro, 0, []⟩
/-- HBM_CHSTAT.DQ_SPARED (R259). -/
def hbmChstatDqSpared : Fld := ⟨3, 2, .ro, 0, []⟩
/-- HBM_CHSTAT.CMD_SPARED (R259). -/
def hbmChstatCmdSpared : Fld := ⟨4, 4, .ro, 0, []⟩
/-- HBM_CHSTAT.FLAGGED (R259). -/
def hbmChstatFlagged : Fld := ⟨5, 5, .ro, 0, []⟩
/-- HBM_CHSTAT.LANE0 (R259). -/
def hbmChstatLane0 : Fld := ⟨14, 8, .ro, 127, []⟩
/-- HBM_CHSTAT.LANE1 (R259). -/
def hbmChstatLane1 : Fld := ⟨21, 15, .ro, 127, []⟩
/-- HBM_CHSTAT.RETRAINS (R259). -/
def hbmChstatRetrains : Fld := ⟨31, 24, .ro, 0, []⟩
/-- HBM_CHSTAT.CE (R259). -/
def hbmChstatCe : Fld := ⟨63, 32, .rc, 0, []⟩
/-- HBM_PART.GUAR (R259). -/
def hbmPartGuar : Fld := ⟨9, 0, .rw, 0, []⟩
/-- HBM_PART.CEIL (R259). -/
def hbmPartCeil : Fld := ⟨25, 16, .rw, 0, []⟩
/-- HBM_PART.DEPTH (R259). -/
def hbmPartDepth : Fld := ⟨39, 32, .rw, 0, []⟩
/-- HBM_RMSEL.ENTRY (R259). -/
def hbmRmselEntry : Fld := ⟨8, 0, .rw, 0, []⟩
/-- HBM_RMENT.VALID (R259). -/
def hbmRmentValid : Fld := ⟨0, 0, .ro, 0, []⟩
/-- HBM_RMENT.CH (R259). -/
def hbmRmentCh : Fld := ⟨5, 1, .ro, 0, []⟩
/-- HBM_RMENT.PC (R259). -/
def hbmRmentPc : Fld := ⟨6, 6, .ro, 0, []⟩
/-- HBM_RMENT.BANK (R259). -/
def hbmRmentBank : Fld := ⟨12, 7, .ro, 0, []⟩
/-- HBM_RMENT.ROW (R259). -/
def hbmRmentRow : Fld := ⟨27, 13, .ro, 0, []⟩
/-- HBM_RMENT.SPARE (R259). -/
def hbmRmentSpare : Fld := ⟨31, 28, .ro, 0, []⟩
/-- HBM_RMENT.REPOINTS (R259). -/
def hbmRmentRepoints : Fld := ⟨39, 32, .ro, 0, []⟩
/-- HBM_TGCTL.GO (R259). -/
def hbmTgctlGo : Fld := ⟨0, 0, .w1s, 0, []⟩
/-- HBM_TGCTL.SCOPE (R259). -/
def hbmTgctlScope : Fld := ⟨1, 1, .rw, 0, []⟩
/-- HBM_TGCTL.OP (R259). -/
def hbmTgctlOp : Fld := ⟨3, 2, .rw, 0, [(0, 2)]⟩
/-- HBM_TGCTL.PATTERN (R259). -/
def hbmTgctlPattern : Fld := ⟨6, 4, .rw, 0, [(0, 3)]⟩
/-- HBM_TGCTL.PASSES (R259). -/
def hbmTgctlPasses : Fld := ⟨39, 8, .rw, 1, []⟩
/-- HBM_TGCTL.STOP (R259). -/
def hbmTgctlStop : Fld := ⟨40, 40, .wo, 0, []⟩
/-- HBM_TGSTAT.REFUSED (R259). -/
def hbmTgstatRefused : Fld := ⟨0, 0, .w1c, 0, []⟩
/-- HBM_TGSTAT.FAIL (R259). -/
def hbmTgstatFail : Fld := ⟨1, 1, .w1c, 0, []⟩
/-- HBM_TGSTAT.FIRST_LANE (R259). -/
def hbmTgstatFirstLane : Fld := ⟨8, 2, .ro, 127, []⟩
/-- HBM_TGSTAT.ERRORS (R259). -/
def hbmTgstatErrors : Fld := ⟨63, 32, .rc, 0, []⟩
/-- LINING_STACKSEL.STACK (R289). -/
def liningStackselStack : Fld := ⟨3, 0, .rw, 0, [(0, 11)]⟩
/-- LINING_QPUSH.DESC (R289). -/
def liningQpushDesc : Fld := ⟨51, 6, .wo, 0, []⟩
/-- LINING_QSTAT.QUEUED (R289). -/
def liningQstatQueued : Fld := ⟨8, 0, .ro, 0, []⟩
/-- LINING_QSTAT.ACTIVE (R289). -/
def liningQstatActive : Fld := ⟨12, 9, .ro, 0, []⟩
/-- LINING_QSTAT.ENGINES (R289). -/
def liningQstatEngines : Fld := ⟨20, 16, .ro, 0, []⟩
/-- LINING_QSTAT.SHED (R289). -/
def liningQstatShed : Fld := ⟨21, 21, .ro, 0, []⟩
/-- LINING_QSTAT.DONE (R289). -/
def liningQstatDone : Fld := ⟨63, 32, .rc, 0, []⟩
/-- LINING_SDIG.SDIG (R289). -/
def liningSdigSdig : Fld := ⟨63, 0, .ro, 0, []⟩
/-- LINING_ENGSEL.ENGINE (R289). -/
def liningEngselEngine : Fld := ⟨3, 0, .rw, 0, []⟩
/-- LINING_ENGSTAT.SITE (R289). -/
def liningEngstatSite : Fld := ⟨4, 0, .ro, 31, []⟩
/-- LINING_ENGSTAT.STATE (R289). -/
def liningEngstatState : Fld := ⟨6, 5, .ro, 0, []⟩
/-- LINING_ENGSTAT.FAULTS (R289). -/
def liningEngstatFaults : Fld := ⟨15, 8, .ro, 0, []⟩
/-- LINING_ENGSTAT.CHUNKS (R289). -/
def liningEngstatChunks : Fld := ⟨47, 16, .rc, 0, []⟩
/-- DEV_HEMCTL.STATE (R314). -/
def devHemctlState : Fld := ⟨2, 0, .ro, 0, []⟩
/-- DEV_HEMCTL.ARM (R314). -/
def devHemctlArm : Fld := ⟨3, 3, .wo, 0, []⟩
/-- DEV_HEMCTL.DISARM (R314). -/
def devHemctlDisarm : Fld := ⟨4, 4, .wo, 0, []⟩
/-- DEV_HEMCTL.RESUME (R314). -/
def devHemctlResume : Fld := ⟨5, 5, .wo, 0, []⟩
/-- DEV_HEMCTL.NONFIN (R314). -/
def devHemctlNonfin : Fld := ⟨6, 6, .w1s, 0, []⟩
/-- DEV_HEMCTL.ABORT (R314). -/
def devHemctlAbort : Fld := ⟨7, 7, .wo, 0, []⟩
/-- DEV_HEMCTL.HALTREQ (R314). -/
def devHemctlHaltreq : Fld := ⟨8, 8, .wo, 0, []⟩
/-- DEV_HEMCTL.HALTR (R314). -/
def devHemctlHaltr : Fld := ⟨12, 9, .ro, 0, []⟩
/-- DEV_HEMCTL.ERR (R314). -/
def devHemctlErr : Fld := ⟨13, 13, .w1c, 0, []⟩
/-- DEV_HEMCFG.GROW (R314). -/
def devHemcfgGrow : Fld := ⟨15, 0, .rw, 0, []⟩
/-- DEV_HEMCFG.LSMIN (R314). -/
def devHemcfgLsmin : Fld := ⟨23, 16, .rw, 0, [(0, 127), (130, 255)]⟩
/-- DEV_HEMCFG.LSMAX (R314). -/
def devHemcfgLsmax : Fld := ⟨31, 24, .rw, 0, [(0, 127), (130, 255)]⟩
/-- DEV_HEMCFG.UPDPEG (R314). -/
def devHemcfgUpdpeg : Fld := ⟨45, 32, .rw, 0, []⟩
/-- DEV_HEMCFG.TWIN (R314). -/
def devHemcfgTwin : Fld := ⟨46, 46, .rw, 0, []⟩
/-- DEV_HEMCFG.TWINTO (R314). -/
def devHemcfgTwinto : Fld := ⟨63, 48, .rw, 244, []⟩
/-- DEV_HEMASID.ASIDS (R314). -/
def devHemasidAsids : Fld := ⟨63, 0, .rw, 0, []⟩
/-- DEV_HEMUPD.UPDINC (R314). -/
def devHemupdUpdinc : Fld := ⟨31, 0, .rw, 0, []⟩
/-- DEV_HEMUPD.VPEG (R314). -/
def devHemupdVpeg : Fld := ⟨45, 32, .rw, 0, []⟩
/-- DEV_HEMUPD.VPEGEN (R314). -/
def devHemupdVpegen : Fld := ⟨46, 46, .rw, 0, []⟩
/-- DEV_HEMTGT.TARGET (R314). -/
def devHemtgtTarget : Fld := ⟨63, 0, .ro, 0, []⟩
/-- DEV_HEMCLIP.MAXNORM (R314). -/
def devHemclipMaxnorm : Fld := ⟨31, 0, .rw, 0, [(0, 2139095039), (2147483648, 2147483648)]⟩
/-- DEV_HEMCLIP.GF (R314). -/
def devHemclipGf : Fld := ⟨63, 32, .ro, 0, []⟩
/-- DEV_HEMNORM.S (R314). -/
def devHemnormS : Fld := ⟨63, 0, .ro, 0, []⟩
/-- DEV_HEMVERD.STEP (R314). -/
def devHemverdStep : Fld := ⟨47, 0, .ro, 0, []⟩
/-- DEV_HEMVERD.KIND (R314). -/
def devHemverdKind : Fld := ⟨51, 48, .ro, 0, []⟩
/-- DEV_HEMRANK.RANK (R314). -/
def devHemrankRank : Fld := ⟨15, 0, .ro, 0, []⟩
/-- DEV_HEMRANK.VALID (R314). -/
def devHemrankValid : Fld := ⟨16, 16, .ro, 0, []⟩
/-- DEV_HEMRANK.TWIN (R314). -/
def devHemrankTwin : Fld := ⟨17, 17, .ro, 0, []⟩
/-- DEV_HEMDIG.DIGEST (R314). -/
def devHemdigDigest : Fld := ⟨63, 0, .ro, 0, []⟩
/-- DEV_HEMXDIG.XDIG (R314). -/
def devHemxdigXdig : Fld := ⟨63, 0, .wo, 0, []⟩
/-- DEV_HEMINIT.STEP0 (R314). -/
def devHeminitStep0 : Fld := ⟨47, 0, .rw, 0, []⟩
/-- DEV_HEMINIT.LSEXP0 (R314). -/
def devHeminitLsexp0 : Fld := ⟨55, 48, .rw, 0, []⟩
/-- DEV_HEMNOTIFY.REGION (R314). -/
def devHemnotifyRegion : Fld := ⟨3, 0, .rw, 0, [(0, 11)]⟩
/-- DEV_HEMNOTIFY.BLOCK (R314). -/
def devHemnotifyBlock : Fld := ⟨6, 4, .rw, 0, []⟩
/-- DEV_HEMNOTIFY.CELL (R314). -/
def devHemnotifyCell : Fld := ⟨9, 7, .rw, 0, []⟩
/-- DEV_HEMNOTIFY.THREAD (R314). -/
def devHemnotifyThread : Fld := ⟨12, 10, .rw, 0, []⟩
/-- DEV_HEMNOTIFY.EN (R314). -/
def devHemnotifyEn : Fld := ⟨13, 13, .rw, 0, []⟩
/-- COLL_CTL.STATE (R347). -/
def collCtlState : Fld := ⟨2, 0, .ro, 0, []⟩
/-- COLL_CTL.ROLLCALL (R347). -/
def collCtlRollcall : Fld := ⟨3, 3, .wo, 0, []⟩
/-- COLL_CTL.CANCEL (R347). -/
def collCtlCancel : Fld := ⟨4, 4, .wo, 0, []⟩
/-- COLL_CTL.REASON (R347). -/
def collCtlReason : Fld := ⟨11, 8, .ro, 0, []⟩
/-- COLL_CTL.ROLLTO (R347). -/
def collCtlRollto : Fld := ⟨31, 16, .rw, 60, []⟩
/-- COLL_CTL.MISSING (R347). -/
def collCtlMissing : Fld := ⟨47, 32, .ro, 0, []⟩
/-- COLL_JOB.NRM1 (R347). -/
def collJobNrm1 : Fld := ⟨15, 0, .rw, 0, []⟩
/-- COLL_JOB.MYRANK (R347). -/
def collJobMyrank : Fld := ⟨31, 16, .rw, 0, []⟩
/-- COLL_JOB.NBM1 (R347). -/
def collJobNbm1 : Fld := ⟨43, 32, .rw, 0, []⟩
/-- COLL_JOBID.VALUE (R347). -/
def collJobidValue : Fld := ⟨63, 0, .rw, 0, []⟩
/-- COLL_ROOTGID.VALUE (R347). -/
def collRootgidValue : Fld := ⟨63, 0, .rw, 0, []⟩
/-- COLL_RTBASE.BASE (R347). -/
def collRtbaseBase : Fld := ⟨51, 12, .rw, 0, []⟩
/-- COLL_BTBASE.BASE (R347). -/
def collBtbaseBase : Fld := ⟨51, 12, .rw, 0, []⟩
/-- COLL_NUM.XINIT (R347). -/
def collNumXinit : Fld := ⟨7, 0, .ro, 0, []⟩
/-- COLL_NUM.ORDER (R347). -/
def collNumOrder : Fld := ⟨8, 8, .ro, 0, []⟩
/-- COLL_DLINE.SILENCE (R347). -/
def collDlineSilence : Fld := ⟨19, 0, .rw, 488, []⟩
/-- COLL_DLINE.LIMIT (R347). -/
def collDlineLimit : Fld := ⟨39, 20, .rw, 97656, []⟩
/-- COLL_DLINE.HBINT (R347). -/
def collDlineHbint : Fld := ⟨51, 40, .rw, 25, []⟩
/-- COLL_DLINE.PASSMIN (R347). -/
def collDlinePassmin : Fld := ⟨63, 52, .rw, 64, []⟩
/-- COLL_PACE.EN (R347). -/
def collPaceEn : Fld := ⟨0, 0, .rw, 0, []⟩
/-- COLL_PACE.FLOOR (R347). -/
def collPaceFloor : Fld := ⟨7, 4, .rw, 0, []⟩
/-- COLL_PACE.BASE (R347). -/
def collPaceBase : Fld := ⟨11, 8, .ro, 0, []⟩
/-- COLL_PACE.TARGET (R347). -/
def collPaceTarget : Fld := ⟨15, 12, .ro, 0, []⟩
/-- COLL_POST.BUCKET (R347). -/
def collPostBucket : Fld := ⟨11, 0, .wo, 0, []⟩
/-- COLL_GEN.GEN (R347). -/
def collGenGen : Fld := ⟨31, 0, .ro, 0, []⟩
/-- COLL_CNTSEL.EVENT (R347). -/
def collCntselEvent : Fld := ⟨2, 0, .rw, 0, []⟩
/-- COLL_CNT.COUNT (R347). -/
def collCntCount : Fld := ⟨47, 0, .rc, 0, []⟩
/-- COLL_SUSPECT.RANK (R347). -/
def collSuspectRank : Fld := ⟨15, 0, .ro, 0, []⟩
/-- COLL_SUSPECT.VALID (R347). -/
def collSuspectValid : Fld := ⟨16, 16, .w1c, 0, []⟩
/-- COLL_LAST.RANK (R347). -/
def collLastRank : Fld := ⟨15, 0, .ro, 0, []⟩
/-- COLL_LAST.VFSTEP (R347). -/
def collLastVfstep : Fld := ⟨19, 16, .ro, 0, []⟩
/-- COLL_LAST.REASON (R347). -/
def collLastReason : Fld := ⟨23, 20, .ro, 0, []⟩
/-- COLL_LAST.THROTTLED (R347). -/
def collLastThrottled : Fld := ⟨24, 24, .ro, 0, []⟩
/-- COLL_LAST.VALID (R347). -/
def collLastValid : Fld := ⟨25, 25, .ro, 0, []⟩
/-- COLL_LAST.LAG (R347). -/
def collLastLag : Fld := ⟨63, 32, .ro, 0, []⟩
/-- DMA_CHSEL.CH (R364). -/
def dmaChselCh : Fld := ⟨4, 0, .rw, 0, []⟩
/-- DMA_CHSEL.REGION (R364). -/
def dmaChselRegion : Fld := ⟨11, 8, .rw, 0, [(0, 11)]⟩
/-- DMA_RING.LOG2N (R364). -/
def dmaRingLog2n : Fld := ⟨3, 0, .rw, 4, [(4, 12)]⟩
/-- DMA_RING.BASE (R364). -/
def dmaRingBase : Fld := ⟨51, 12, .rw, 0, []⟩
/-- DMA_PI.PI (R364). -/
def dmaPiPi : Fld := ⟨15, 0, .rw, 0, []⟩
/-- DMA_CI.CI (R364). -/
def dmaCiCi : Fld := ⟨15, 0, .ro, 0, []⟩
/-- DMA_CHCTL.EN (R364). -/
def dmaChctlEn : Fld := ⟨0, 0, .rw, 0, []⟩
/-- DMA_CHCTL.ABORT (R364). -/
def dmaChctlAbort : Fld := ⟨1, 1, .wo, 0, []⟩
/-- DMA_CHCTL.RESTART (R364). -/
def dmaChctlRestart : Fld := ⟨2, 2, .wo, 0, []⟩
/-- DMA_CHCTL.STATE (R364). -/
def dmaChctlState : Fld := ⟨5, 3, .ro, 0, []⟩
/-- DMA_CHCTL.ERR (R364). -/
def dmaChctlErr : Fld := ⟨6, 6, .w1c, 0, []⟩
/-- DMA_CHCTL.MSIX_EN (R364). -/
def dmaChctlMsixEn : Fld := ⟨7, 7, .rw, 0, []⟩
/-- DMA_CHCTL.VEC (R364). -/
def dmaChctlVec : Fld := ⟨15, 8, .rw, 0, []⟩
/-- DMA_PACE.EN (R364). -/
def dmaPaceEn : Fld := ⟨0, 0, .rw, 0, []⟩
/-- DMA_PACE.DIR (R364). -/
def dmaPaceDir : Fld := ⟨1, 1, .rw, 0, []⟩
/-- DMA_PACE.PPEG (R364). -/
def dmaPacePpeg : Fld := ⟨15, 2, .rw, 0, []⟩
/-- DMA_PACE.LOW (R364). -/
def dmaPaceLow : Fld := ⟨39, 16, .rw, 0, []⟩
/-- DMA_PACE.HIGH (R364). -/
def dmaPaceHigh : Fld := ⟨63, 40, .rw, 1, []⟩
/-- DMA_ENGSTAT.BUSERR (R364). -/
def dmaEngstatBuserr : Fld := ⟨0, 0, .w1c, 0, []⟩
/-- DMA_ENGSTAT.CH (R364). -/
def dmaEngstatCh : Fld := ⟨5, 1, .ro, 0, []⟩
/-- DMA_ENGSTAT.CAUSE (R364). -/
def dmaEngstatCause : Fld := ⟨8, 6, .ro, 0, []⟩
/-- DMA_ERRADDR.VALUE (R364). -/
def dmaErraddrValue : Fld := ⟨63, 0, .ro, 0, []⟩
/-- PEG_SEL.PEG (R371). -/
def pegSelPeg : Fld := ⟨13, 0, .rw, 0, []⟩
/-- PEG_VAL.VALUE (R371). -/
def pegValValue : Fld := ⟨62, 0, .rw, 0, []⟩
/-- PEG_ADD.VALUE (R371). -/
def pegAddValue : Fld := ⟨63, 0, .wo, 0, []⟩
/-- PEG_GRP.ASID (R371). -/
def pegGrpAsid : Fld := ⟨5, 0, .rw, 0, []⟩
/-- PEG_GRP.UEN (R371). -/
def pegGrpUen : Fld := ⟨6, 6, .rw, 0, []⟩
/-- PEG_RAMP.RAMP_STEP (R371). -/
def pegRampRampStep : Fld := ⟨7, 0, .rw, 0, []⟩
/-- PEG_SAT.PEG (R371). -/
def pegSatPeg : Fld := ⟨13, 0, .ro, 0, []⟩
/-- PEG_SAT.VALID (R371). -/
def pegSatValid : Fld := ⟨14, 14, .w1c, 0, []⟩
/-- PEG_SAT.COUNT (R371). -/
def pegSatCount : Fld := ⟨63, 32, .rc, 0, []⟩
/-- DEV_TQSEL.REGION (R371). -/
def devTqselRegion : Fld := ⟨3, 0, .rw, 0, [(0, 11)]⟩
/-- DEV_TQSEL.QUEUE (R371). -/
def devTqselQueue : Fld := ⟨9, 4, .rw, 0, []⟩
/-- DEV_TQPUSH.DESC (R371). -/
def devTqpushDesc : Fld := ⟨51, 6, .wo, 0, []⟩
/-- DEV_TQSTAT.QUEUED (R371). -/
def devTqstatQueued : Fld := ⟨7, 0, .ro, 0, []⟩
/-- DEV_TQSTAT.HELD (R371). -/
def devTqstatHeld : Fld := ⟨8, 8, .ro, 0, []⟩
/-- DEV_TQSTAT.BLOCKED (R371). -/
def devTqstatBlocked : Fld := ⟨9, 9, .ro, 0, []⟩
/-- DEV_TQSTAT.DONE (R371). -/
def devTqstatDone : Fld := ⟨63, 32, .rc, 0, []⟩
/-- DEV_TQCFG.CELLS (R371). -/
def devTqcfgCells : Fld := ⟨63, 0, .rw, 18446744073709551615, []⟩
/-- DEV_PCIEWIN.BAR2BASE (R376). -/
def devPciewinBar2base : Fld := ⟨9, 0, .rw, 0, [(0, 959)]⟩
/-- DEV_HOSTXLAT.BASE (R376). -/
def devHostxlatBase : Fld := ⟨63, 42, .rw, 0, []⟩
/-- ROOT_LINKSEL.LINK (R383). -/
def rootLinkselLink : Fld := ⟨1, 0, .rw, 0, []⟩
/-- ROOT_LINKSTAT.POWER (R383). -/
def rootLinkstatPower : Fld := ⟨0, 0, .rw, 0, []⟩
/-- ROOT_LINKSTAT.PRESENT (R383). -/
def rootLinkstatPresent : Fld := ⟨1, 1, .ro, 0, []⟩
/-- ROOT_LINKSTAT.STATE (R383). -/
def rootLinkstatState : Fld := ⟨4, 2, .ro, 0, []⟩
/-- ROOT_LINKSTAT.RATE (R383). -/
def rootLinkstatRate : Fld := ⟨7, 5, .ro, 0, []⟩
/-- ROOT_LINKSTAT.WIDTH (R383). -/
def rootLinkstatWidth : Fld := ⟨11, 8, .ro, 0, []⟩
/-- ROOT_LINKSTAT.REMOVED (R383). -/
def rootLinkstatRemoved : Fld := ⟨12, 12, .w1c, 0, []⟩
/-- ROOT_LINKSTAT.CFGERR (R383). -/
def rootLinkstatCfgerr : Fld := ⟨13, 13, .w1c, 0, []⟩
/-- ROOT_CFGADDR.DW (R383). -/
def rootCfgaddrDw : Fld := ⟨11, 2, .rw, 0, []⟩
/-- ROOT_CFGADDR.FUNC (R383). -/
def rootCfgaddrFunc : Fld := ⟨14, 12, .rw, 0, []⟩
/-- ROOT_CFGDATA.DATA (R383). -/
def rootCfgdataData : Fld := ⟨31, 0, .rw, 0, []⟩
/-- ETH_PORTSEL.PORT (R388). -/
def ethPortselPort : Fld := ⟨1, 0, .rw, 0, []⟩
/-- ETH_PORTSTAT.STATE (R388). -/
def ethPortstatState : Fld := ⟨1, 0, .ro, 0, []⟩
/-- ETH_PORTSTAT.MODE (R388). -/
def ethPortstatMode : Fld := ⟨2, 2, .ro, 0, []⟩
/-- ETH_PORTSTAT.PFC_TX (R388). -/
def ethPortstatPfcTx : Fld := ⟨3, 3, .ro, 0, []⟩
/-- ETH_PORTSTAT.PFC_RX (R388). -/
def ethPortstatPfcRx : Fld := ⟨4, 4, .ro, 0, []⟩
/-- ETH_PORTSTAT.NBRCHG (R388). -/
def ethPortstatNbrchg : Fld := ⟨5, 5, .w1c, 0, []⟩
/-- ETH_PORTSTAT.NBR (R388). -/
def ethPortstatNbr : Fld := ⟨6, 6, .ro, 0, []⟩
/-- ETH_PORTSTAT.FLAPS (R388). -/
def ethPortstatFlaps : Fld := ⟨31, 16, .ro, 0, []⟩
/-- ETH_PORTSTAT.FECUNC (R388). -/
def ethPortstatFecunc : Fld := ⟨63, 32, .rc, 0, []⟩
/-- SEAM_STAT.STATE (R392). -/
def seamStatState : Fld := ⟨2, 0, .ro, 0, []⟩
/-- SEAM_STAT.ACCEPT (R392). -/
def seamStatAccept : Fld := ⟨3, 3, .rw, 0, []⟩
/-- SEAM_STAT.GOOD (R392). -/
def seamStatGood : Fld := ⟨21, 4, .ro, 0, []⟩
/-- SEAM_STAT.SPARES (R392). -/
def seamStatSpares : Fld := ⟨23, 22, .ro, 0, []⟩
/-- SEAM_STAT.RETRAINS (R392). -/
def seamStatRetrains : Fld := ⟨31, 24, .ro, 0, []⟩
/-- SEAM_STAT.REPLAYS (R392). -/
def seamStatReplays : Fld := ⟨63, 32, .rc, 0, []⟩
/-- SEAM_PEER.VALUE (R392). -/
def seamPeerValue : Fld := ⟨63, 0, .ro, 0, []⟩
/-- MANTLE_MBDOOR.SLOT (R398). -/
def mantleMbdoorSlot : Fld := ⟨3, 0, .wo, 0, []⟩
/-- MANTLE_MBSTAT.BUSY (R398). -/
def mantleMbstatBusy : Fld := ⟨15, 0, .ro, 0, []⟩
/-- MANTLE_MBSTAT.DONE (R398). -/
def mantleMbstatDone : Fld := ⟨31, 16, .w1c, 0, []⟩
/-- MANTLE_MBCFG.EN (R398). -/
def mantleMbcfgEn : Fld := ⟨0, 0, .rw, 0, []⟩
/-- MANTLE_MBCFG.VEC (R398). -/
def mantleMbcfgVec : Fld := ⟨15, 8, .rw, 0, []⟩
/-- MANTLE_NONCE.NONCE (R398). -/
def mantleNonceNonce : Fld := ⟨31, 0, .ro, 0, []⟩
/-- MANTLE_CORES.LIVE (R398). -/
def mantleCoresLive : Fld := ⟨3, 0, .ro, 15, []⟩
/-- MANTLE_CORES.LOST (R398). -/
def mantleCoresLost : Fld := ⟨7, 4, .w1c, 0, []⟩
/-- MANTLE_HEART.VALUE (R398). -/
def mantleHeartValue : Fld := ⟨63, 0, .ro, 0, []⟩
/-- MANTLE_IRQPOST.REGION (R399). -/
def mantleIrqpostRegion : Fld := ⟨3, 0, .wo, 0, []⟩
/-- MANTLE_IRQPOST.BLOCK (R399). -/
def mantleIrqpostBlock : Fld := ⟨6, 4, .wo, 0, []⟩
/-- MANTLE_IRQPOST.CELL (R399). -/
def mantleIrqpostCell : Fld := ⟨9, 7, .wo, 0, []⟩
/-- MANTLE_IRQPOST.THREAD (R399). -/
def mantleIrqpostThread : Fld := ⟨12, 10, .wo, 0, []⟩
/-- MANTLE_IRQPOST.NUM (R399). -/
def mantleIrqpostNum : Fld := ⟨16, 13, .wo, 0, []⟩
/-- DEV_BOOT.STAGE (R431). -/
def devBootStage : Fld := ⟨3, 0, .ro, 0, []⟩
/-- DEV_BOOT.SLOT (R431). -/
def devBootSlot : Fld := ⟨4, 4, .ro, 0, []⟩
/-- DEV_BOOT.FALLBACK (R431). -/
def devBootFallback : Fld := ⟨5, 5, .ro, 0, []⟩
/-- DEV_BOOT.IMAGE (R431). -/
def devBootImage : Fld := ⟨7, 6, .ro, 0, []⟩
/-- DEV_BOOT.RPRLOST (R431). -/
def devBootRprlost : Fld := ⟨8, 8, .ro, 0, []⟩
/-- DEV_BOOT.RECFULL (R431). -/
def devBootRecfull : Fld := ⟨9, 9, .w1c, 0, []⟩
/-- DEV_BOOT.OWNER (R431). -/
def devBootOwner : Fld := ⟨10, 10, .ro, 0, []⟩
/-- DEV_BOOT.DEBUG (R431). -/
def devBootDebug : Fld := ⟨12, 11, .ro, 0, []⟩
/-- DEV_BOOT.FAIL0 (R431). -/
def devBootFail0 : Fld := ⟨23, 16, .ro, 0, []⟩
/-- DEV_BOOT.FAIL1 (R431). -/
def devBootFail1 : Fld := ⟨31, 24, .ro, 0, []⟩
/-- DEV_BOOT.SVN (R431). -/
def devBootSvn : Fld := ⟨37, 32, .ro, 0, []⟩
/-- TRUST_FLCTL.ADDR (R431). -/
def trustFlctlAddr : Fld := ⟨25, 0, .rw, 0, []⟩
/-- TRUST_FLCTL.CMD (R431). -/
def trustFlctlCmd : Fld := ⟨28, 26, .rw, 0, [(0, 3)]⟩
/-- TRUST_FLCTL.GO (R431). -/
def trustFlctlGo : Fld := ⟨29, 29, .w1s, 0, []⟩
/-- TRUST_FLCTL.ERR (R431). -/
def trustFlctlErr : Fld := ⟨30, 30, .w1c, 0, []⟩
/-- TRUST_PREF.SLOT (R431). -/
def trustPrefSlot : Fld := ⟨0, 0, .rw, 0, []⟩
/-- TRUST_ENROLL.MAGIC (R431). -/
def trustEnrollMagic : Fld := ⟨31, 0, .wo, 0, []⟩
/-- TRUST_ENROLL.ERR (R431). -/
def trustEnrollErr : Fld := ⟨32, 32, .w1c, 0, []⟩
/-- TRUST_NUMDIG.VALUE (R431). -/
def trustNumdigValue : Fld := ⟨63, 0, .ro, 0, []⟩
/-- TRUST_IDKEY.VALUE (R431). -/
def trustIdkeyValue : Fld := ⟨63, 0, .ro, 0, []⟩
/-- POWER_REGSEL.REGION (R453). -/
def powerRegselRegion : Fld := ⟨3, 0, .rw, 0, [(0, 11)]⟩
/-- POWER_REGSTAT.STEP (R453). -/
def powerRegstatStep : Fld := ⟨3, 0, .ro, 0, []⟩
/-- POWER_REGSTAT.CAP (R453). -/
def powerRegstatCap : Fld := ⟨7, 4, .rw, 15, []⟩
/-- POWER_REGSTAT.REASON (R453). -/
def powerRegstatReason : Fld := ⟨11, 8, .ro, 0, []⟩
/-- POWER_REGSTAT.TEMP (R453). -/
def powerRegstatTemp : Fld := ⟨18, 12, .ro, 0, []⟩
/-- POWER_REGSTAT.TRIM (R453). -/
def powerRegstatTrim : Fld := ⟨25, 20, .ro, 0, []⟩
/-- POWER_REGSTAT.STRETCH (R453). -/
def powerRegstatStretch : Fld := ⟨63, 32, .rc, 0, []⟩
/-- POWER_CHSEL.CHAN (R453). -/
def powerChselChan : Fld := ⟨3, 0, .rw, 0, []⟩
/-- POWER_CHSTAT.P10 (R453). -/
def powerChstatP10 : Fld := ⟨15, 0, .ro, 0, []⟩
/-- POWER_CHSTAT.P100 (R453). -/
def powerChstatP100 : Fld := ⟨31, 16, .ro, 0, []⟩
/-- POWER_CHSTAT.SAG (R453). -/
def powerChstatSag : Fld := ⟨41, 32, .ro, 0, []⟩
/-- POWER_CHSTAT.LIMITED (R453). -/
def powerChstatLimited : Fld := ⟨42, 42, .ro, 0, []⟩
/-- POWER_AVG.PKG (R453). -/
def powerAvgPkg : Fld := ⟨15, 0, .ro, 0, []⟩
/-- POWER_AVG.DIEW (R453). -/
def powerAvgDiew : Fld := ⟨31, 16, .ro, 0, []⟩
/-- POWER_AVG.DIEE (R453). -/
def powerAvgDiee : Fld := ⟨47, 32, .ro, 0, []⟩
/-- POWER_AVGLIM.PKG (R453). -/
def powerAvglimPkg : Fld := ⟨15, 0, .rw, 0, [(100, 3600)]⟩
/-- POWER_AVGLIM.DIEW (R453). -/
def powerAvglimDiew : Fld := ⟨31, 16, .rw, 0, [(100, 3600)]⟩
/-- POWER_AVGLIM.DIEE (R453). -/
def powerAvglimDiee : Fld := ⟨47, 32, .rw, 0, [(100, 3600)]⟩
/-- POWER_SHED.STAGE (R453). -/
def powerShedStage : Fld := ⟨2, 0, .ro, 0, []⟩
/-- POWER_SHED.HIGH (R453). -/
def powerShedHigh : Fld := ⟨5, 3, .ro, 0, []⟩
/-- POWER_SHED.ENTRIES (R453). -/
def powerShedEntries : Fld := ⟨63, 32, .rc, 0, []⟩
/-- ERR_RING.LOG2N (R464). -/
def errRingLog2n : Fld := ⟨4, 0, .rw, 8, [(8, 16)]⟩
/-- ERR_RING.EN (R464). -/
def errRingEn : Fld := ⟨5, 5, .rw, 0, []⟩
/-- ERR_RING.BASE (R464). -/
def errRingBase : Fld := ⟨51, 12, .rw, 0, []⟩
/-- ERR_WP.WP (R464). -/
def errWpWp : Fld := ⟨31, 0, .ro, 0, []⟩
/-- ERR_RP.RP (R464). -/
def errRpRp : Fld := ⟨31, 0, .rw, 0, []⟩
/-- ERR_STAT.HOLD (R464). -/
def errStatHold : Fld := ⟨6, 0, .ro, 0, []⟩
/-- ERR_STAT.FATAL (R464). -/
def errStatFatal : Fld := ⟨7, 7, .ro, 0, []⟩
/-- ERR_STAT.FCAUSE (R464). -/
def errStatFcause : Fld := ⟨15, 8, .ro, 0, []⟩
/-- ERR_STAT.LOST (R464). -/
def errStatLost : Fld := ⟨63, 32, .rc, 0, []⟩
/-- ERR_MSIX.VEC0 (R464). -/
def errMsixVec0 : Fld := ⟨7, 0, .rw, 0, []⟩
/-- ERR_MSIX.EN0 (R464). -/
def errMsixEn0 : Fld := ⟨8, 8, .rw, 0, []⟩
/-- ERR_MSIX.VEC1 (R464). -/
def errMsixVec1 : Fld := ⟨23, 16, .rw, 0, []⟩
/-- ERR_MSIX.EN1 (R464). -/
def errMsixEn1 : Fld := ⟨24, 24, .rw, 0, []⟩
/-- ERR_MSIX.VEC2 (R464). -/
def errMsixVec2 : Fld := ⟨39, 32, .rw, 0, []⟩
/-- ERR_MSIX.EN2 (R464). -/
def errMsixEn2 : Fld := ⟨40, 40, .rw, 0, []⟩
/-- ERR_MSIX.VEC3 (R464). -/
def errMsixVec3 : Fld := ⟨55, 48, .rw, 0, []⟩
/-- ERR_MSIX.EN3 (R464). -/
def errMsixEn3 : Fld := ⟨56, 56, .rw, 0, []⟩
/-- ERR_INJ.GO (R464). -/
def errInjGo : Fld := ⟨0, 0, .w1s, 0, []⟩
/-- ERR_INJ.KIND (R464). -/
def errInjKind : Fld := ⟨1, 1, .rw, 0, []⟩
/-- ERR_INJ.TARGET (R464). -/
def errInjTarget : Fld := ⟨2, 2, .rw, 0, []⟩
/-- ERR_INJ.ADDR (R464). -/
def errInjAddr : Fld := ⟨47, 3, .rw, 0, []⟩
/-- ERR_INJ.REFUSED (R464). -/
def errInjRefused : Fld := ⟨62, 62, .w1c, 0, []⟩
/-- PERF_CELLSEL.BLOCK (R476). -/
def perfCellselBlock : Fld := ⟨6, 0, .rw, 0, [(0, 95)]⟩
/-- PERF_CELLSEL.CELL (R476). -/
def perfCellselCell : Fld := ⟨9, 7, .rw, 0, []⟩
/-- PERF_CNTSEL.CNT (R476). -/
def perfCntselCnt : Fld := ⟨2, 0, .rw, 0, []⟩
/-- PERF_EVT.EVENT (R476). -/
def perfEvtEvent : Fld := ⟨7, 0, .rw, 0, []⟩
/-- PERF_EVT.THREADS (R476). -/
def perfEvtThreads : Fld := ⟨15, 8, .rw, 255, []⟩
/-- PERF_EVT.EN (R476). -/
def perfEvtEn : Fld := ⟨16, 16, .rw, 0, []⟩
/-- PERF_EVT.INTEN (R476). -/
def perfEvtInten : Fld := ⟨17, 17, .rw, 0, []⟩
/-- PERF_EVT.OVF (R476). -/
def perfEvtOvf : Fld := ⟨18, 18, .w1c, 0, []⟩
/-- PERF_CNT.COUNT (R476). -/
def perfCntCount : Fld := ⟨47, 0, .rw, 0, []⟩
/-- PERF_CFG.FREEZE (R476). -/
def perfCfgFreeze : Fld := ⟨0, 0, .rw, 0, []⟩
/-- PERF_CFG.MSIX_EN (R476). -/
def perfCfgMsixEn : Fld := ⟨1, 1, .rw, 0, []⟩
/-- PERF_CFG.VEC (R476). -/
def perfCfgVec : Fld := ⟨9, 2, .rw, 0, []⟩
/-- PERF_LCSEL.CTR (R476). -/
def perfLcselCtr : Fld := ⟨3, 0, .rw, 0, [(0, 12)]⟩
/-- PERF_LCOUNT.VALUE (R476). -/
def perfLcountValue : Fld := ⟨63, 0, .ro, 0, []⟩
/-- PERF_DEADLINE.AT (R476). -/
def perfDeadlineAt : Fld := ⟨63, 0, .rw, 0, []⟩

end F

/-- The fields of a register. -/
def regFields : RegName → List Fld
  | .devIdent => [F.devIdentDevice, F.devIdentBaseRev, F.devIdentMetalRev, F.devIdentHbmGibDiv8]
  | .devActive => [F.devActiveCells, F.devActiveDegraded, F.devActiveEngineSpared, F.devActiveMantleSpared]
  | .devBlksel => [F.devBlkselBlock]
  | .devBlkmap => [F.devBlkmapSite, F.devBlkmapSpare, F.devBlkmapDead]
  | .devClk => [F.devClkPin, F.devClkRunning, F.devClkSparePll, F.devClkStopped]
  | .devAstbase => [F.devAstbaseBase]
  | .devEpoch => [F.devEpochEpoch]
  | .devTlbinv => [F.devTlbinvAsid, F.devTlbinvScope, F.devTlbinvVpn, F.devTlbinvGo]
  | .devTlbstat => [F.devTlbstatLost]
  | .devBmcfg => [F.devBmcfgRcWays, F.devBmcfgSpareMin]
  | .hbmStacksel => [F.hbmStackselStack]
  | .hbmChsel => [F.hbmChselCh]
  | .hbmStkstat => [F.hbmStkstatState, F.hbmStkstatMaint, F.hbmStkstatErr, F.hbmStkstatRmUsed, F.hbmStkstatRmFull, F.hbmStkstatTemp, F.hbmStkstatOfflined]
  | .hbmChstat => [F.hbmChstatState, F.hbmChstatDqSpared, F.hbmChstatCmdSpared, F.hbmChstatFlagged, F.hbmChstatLane0, F.hbmChstatLane1, F.hbmChstatRetrains, F.hbmChstatCe]
  | .hbmPart => [F.hbmPartGuar, F.hbmPartCeil, F.hbmPartDepth]
  | .hbmRmsel => [F.hbmRmselEntry]
  | .hbmRment => [F.hbmRmentValid, F.hbmRmentCh, F.hbmRmentPc, F.hbmRmentBank, F.hbmRmentRow, F.hbmRmentSpare, F.hbmRmentRepoints]
  | .hbmTgctl => [F.hbmTgctlGo, F.hbmTgctlScope, F.hbmTgctlOp, F.hbmTgctlPattern, F.hbmTgctlPasses, F.hbmTgctlStop]
  | .hbmTgstat => [F.hbmTgstatRefused, F.hbmTgstatFail, F.hbmTgstatFirstLane, F.hbmTgstatErrors]
  | .liningStacksel => [F.liningStackselStack]
  | .liningQpush => [F.liningQpushDesc]
  | .liningQstat => [F.liningQstatQueued, F.liningQstatActive, F.liningQstatEngines, F.liningQstatShed, F.liningQstatDone]
  | .liningSdig => [F.liningSdigSdig]
  | .liningEngsel => [F.liningEngselEngine]
  | .liningEngstat => [F.liningEngstatSite, F.liningEngstatState, F.liningEngstatFaults, F.liningEngstatChunks]
  | .devHemctl => [F.devHemctlState, F.devHemctlArm, F.devHemctlDisarm, F.devHemctlResume, F.devHemctlNonfin, F.devHemctlAbort, F.devHemctlHaltreq, F.devHemctlHaltr, F.devHemctlErr]
  | .devHemcfg => [F.devHemcfgGrow, F.devHemcfgLsmin, F.devHemcfgLsmax, F.devHemcfgUpdpeg, F.devHemcfgTwin, F.devHemcfgTwinto]
  | .devHemasid => [F.devHemasidAsids]
  | .devHemupd => [F.devHemupdUpdinc, F.devHemupdVpeg, F.devHemupdVpegen]
  | .devHemtgt => [F.devHemtgtTarget]
  | .devHemclip => [F.devHemclipMaxnorm, F.devHemclipGf]
  | .devHemnorm => [F.devHemnormS]
  | .devHemverd => [F.devHemverdStep, F.devHemverdKind]
  | .devHemrank => [F.devHemrankRank, F.devHemrankValid, F.devHemrankTwin]
  | .devHemdig => [F.devHemdigDigest]
  | .devHemxdig => [F.devHemxdigXdig]
  | .devHeminit => [F.devHeminitStep0, F.devHeminitLsexp0]
  | .devHemnotify => [F.devHemnotifyRegion, F.devHemnotifyBlock, F.devHemnotifyCell, F.devHemnotifyThread, F.devHemnotifyEn]
  | .collCtl => [F.collCtlState, F.collCtlRollcall, F.collCtlCancel, F.collCtlReason, F.collCtlRollto, F.collCtlMissing]
  | .collJob => [F.collJobNrm1, F.collJobMyrank, F.collJobNbm1]
  | .collJobid => [F.collJobidValue]
  | .collRootgid => [F.collRootgidValue]
  | .collRtbase => [F.collRtbaseBase]
  | .collBtbase => [F.collBtbaseBase]
  | .collNum => [F.collNumXinit, F.collNumOrder]
  | .collDline => [F.collDlineSilence, F.collDlineLimit, F.collDlineHbint, F.collDlinePassmin]
  | .collPace => [F.collPaceEn, F.collPaceFloor, F.collPaceBase, F.collPaceTarget]
  | .collPost => [F.collPostBucket]
  | .collGen => [F.collGenGen]
  | .collCntsel => [F.collCntselEvent]
  | .collCnt => [F.collCntCount]
  | .collSuspect => [F.collSuspectRank, F.collSuspectValid]
  | .collLast => [F.collLastRank, F.collLastVfstep, F.collLastReason, F.collLastThrottled, F.collLastValid, F.collLastLag]
  | .dmaChsel => [F.dmaChselCh, F.dmaChselRegion]
  | .dmaRing => [F.dmaRingLog2n, F.dmaRingBase]
  | .dmaPi => [F.dmaPiPi]
  | .dmaCi => [F.dmaCiCi]
  | .dmaChctl => [F.dmaChctlEn, F.dmaChctlAbort, F.dmaChctlRestart, F.dmaChctlState, F.dmaChctlErr, F.dmaChctlMsixEn, F.dmaChctlVec]
  | .dmaPace => [F.dmaPaceEn, F.dmaPaceDir, F.dmaPacePpeg, F.dmaPaceLow, F.dmaPaceHigh]
  | .dmaEngstat => [F.dmaEngstatBuserr, F.dmaEngstatCh, F.dmaEngstatCause]
  | .dmaErraddr => [F.dmaErraddrValue]
  | .pegSel => [F.pegSelPeg]
  | .pegVal => [F.pegValValue]
  | .pegAdd => [F.pegAddValue]
  | .pegGrp => [F.pegGrpAsid, F.pegGrpUen]
  | .pegRamp => [F.pegRampRampStep]
  | .pegSat => [F.pegSatPeg, F.pegSatValid, F.pegSatCount]
  | .devTqsel => [F.devTqselRegion, F.devTqselQueue]
  | .devTqpush => [F.devTqpushDesc]
  | .devTqstat => [F.devTqstatQueued, F.devTqstatHeld, F.devTqstatBlocked, F.devTqstatDone]
  | .devTqcfg => [F.devTqcfgCells]
  | .devPciewin => [F.devPciewinBar2base]
  | .devHostxlat => [F.devHostxlatBase]
  | .rootLinksel => [F.rootLinkselLink]
  | .rootLinkstat => [F.rootLinkstatPower, F.rootLinkstatPresent, F.rootLinkstatState, F.rootLinkstatRate, F.rootLinkstatWidth, F.rootLinkstatRemoved, F.rootLinkstatCfgerr]
  | .rootCfgaddr => [F.rootCfgaddrDw, F.rootCfgaddrFunc]
  | .rootCfgdata => [F.rootCfgdataData]
  | .ethPortsel => [F.ethPortselPort]
  | .ethPortstat => [F.ethPortstatState, F.ethPortstatMode, F.ethPortstatPfcTx, F.ethPortstatPfcRx, F.ethPortstatNbrchg, F.ethPortstatNbr, F.ethPortstatFlaps, F.ethPortstatFecunc]
  | .seamStat => [F.seamStatState, F.seamStatAccept, F.seamStatGood, F.seamStatSpares, F.seamStatRetrains, F.seamStatReplays]
  | .seamPeer => [F.seamPeerValue]
  | .mantleMbdoor => [F.mantleMbdoorSlot]
  | .mantleMbstat => [F.mantleMbstatBusy, F.mantleMbstatDone]
  | .mantleMbcfg => [F.mantleMbcfgEn, F.mantleMbcfgVec]
  | .mantleNonce => [F.mantleNonceNonce]
  | .mantleCores => [F.mantleCoresLive, F.mantleCoresLost]
  | .mantleHeart => [F.mantleHeartValue]
  | .mantleIrqpost => [F.mantleIrqpostRegion, F.mantleIrqpostBlock, F.mantleIrqpostCell, F.mantleIrqpostThread, F.mantleIrqpostNum]
  | .devBoot => [F.devBootStage, F.devBootSlot, F.devBootFallback, F.devBootImage, F.devBootRprlost, F.devBootRecfull, F.devBootOwner, F.devBootDebug, F.devBootFail0, F.devBootFail1, F.devBootSvn]
  | .trustFlctl => [F.trustFlctlAddr, F.trustFlctlCmd, F.trustFlctlGo, F.trustFlctlErr]
  | .trustPref => [F.trustPrefSlot]
  | .trustEnroll => [F.trustEnrollMagic, F.trustEnrollErr]
  | .trustNumdig => [F.trustNumdigValue]
  | .trustIdkey => [F.trustIdkeyValue]
  | .powerRegsel => [F.powerRegselRegion]
  | .powerRegstat => [F.powerRegstatStep, F.powerRegstatCap, F.powerRegstatReason, F.powerRegstatTemp, F.powerRegstatTrim, F.powerRegstatStretch]
  | .powerChsel => [F.powerChselChan]
  | .powerChstat => [F.powerChstatP10, F.powerChstatP100, F.powerChstatSag, F.powerChstatLimited]
  | .powerAvg => [F.powerAvgPkg, F.powerAvgDiew, F.powerAvgDiee]
  | .powerAvglim => [F.powerAvglimPkg, F.powerAvglimDiew, F.powerAvglimDiee]
  | .powerShed => [F.powerShedStage, F.powerShedHigh, F.powerShedEntries]
  | .errRing => [F.errRingLog2n, F.errRingEn, F.errRingBase]
  | .errWp => [F.errWpWp]
  | .errRp => [F.errRpRp]
  | .errStat => [F.errStatHold, F.errStatFatal, F.errStatFcause, F.errStatLost]
  | .errMsix => [F.errMsixVec0, F.errMsixEn0, F.errMsixVec1, F.errMsixEn1, F.errMsixVec2, F.errMsixEn2, F.errMsixVec3, F.errMsixEn3]
  | .errInj => [F.errInjGo, F.errInjKind, F.errInjTarget, F.errInjAddr, F.errInjRefused]
  | .perfCellsel => [F.perfCellselBlock, F.perfCellselCell]
  | .perfCntsel => [F.perfCntselCnt]
  | .perfEvt => [F.perfEvtEvent, F.perfEvtThreads, F.perfEvtEn, F.perfEvtInten, F.perfEvtOvf]
  | .perfCnt => [F.perfCntCount]
  | .perfCfg => [F.perfCfgFreeze, F.perfCfgMsixEn, F.perfCfgVec]
  | .perfLcsel => [F.perfLcselCtr]
  | .perfLcount => [F.perfLcountValue]
  | .perfDeadline => [F.perfDeadlineAt]

/-- MMIO offset of a register and the number of its consecutive copies (R81); the four DMA units have one set each at 0x1_0000 apart. -/
def regPlace : RegName → Nat × Nat
  | .devIdent => (0x0, 1)
  | .devActive => (0x100, 1)
  | .devBlksel => (0x108, 1)
  | .devBlkmap => (0x110, 1)
  | .devClk => (0x118, 1)
  | .devAstbase => (0x200, 1)
  | .devEpoch => (0x208, 1)
  | .devTlbinv => (0x210, 1)
  | .devTlbstat => (0x218, 1)
  | .devBmcfg => (0x300, 1)
  | .hbmStacksel => (0x200000, 1)
  | .hbmChsel => (0x200008, 1)
  | .hbmStkstat => (0x200010, 1)
  | .hbmChstat => (0x200018, 1)
  | .hbmPart => (0x200100, 5)
  | .hbmRmsel => (0x200200, 1)
  | .hbmRment => (0x200208, 1)
  | .hbmTgctl => (0x200300, 1)
  | .hbmTgstat => (0x200308, 1)
  | .liningStacksel => (0x300000, 1)
  | .liningQpush => (0x300008, 1)
  | .liningQstat => (0x300010, 1)
  | .liningSdig => (0x300018, 1)
  | .liningEngsel => (0x300020, 1)
  | .liningEngstat => (0x300028, 1)
  | .devHemctl => (0x400, 1)
  | .devHemcfg => (0x408, 1)
  | .devHemasid => (0x410, 1)
  | .devHemupd => (0x418, 1)
  | .devHemtgt => (0x420, 1)
  | .devHemclip => (0x428, 1)
  | .devHemnorm => (0x430, 1)
  | .devHemverd => (0x438, 1)
  | .devHemrank => (0x440, 1)
  | .devHemdig => (0x448, 1)
  | .devHemxdig => (0x450, 1)
  | .devHeminit => (0x458, 1)
  | .devHemnotify => (0x460, 1)
  | .collCtl => (0x400000, 1)
  | .collJob => (0x400008, 1)
  | .collJobid => (0x400010, 1)
  | .collRootgid => (0x400018, 2)
  | .collRtbase => (0x400028, 1)
  | .collBtbase => (0x400030, 1)
  | .collNum => (0x400038, 1)
  | .collDline => (0x400040, 1)
  | .collPace => (0x400048, 1)
  | .collPost => (0x400050, 1)
  | .collGen => (0x400058, 1)
  | .collCntsel => (0x400060, 1)
  | .collCnt => (0x400068, 1)
  | .collSuspect => (0x400070, 1)
  | .collLast => (0x400078, 1)
  | .dmaChsel => (0x100000, 1)
  | .dmaRing => (0x100008, 1)
  | .dmaPi => (0x100010, 1)
  | .dmaCi => (0x100018, 1)
  | .dmaChctl => (0x100020, 1)
  | .dmaPace => (0x100028, 1)
  | .dmaEngstat => (0x100030, 1)
  | .dmaErraddr => (0x100038, 1)
  | .pegSel => (0x20000, 1)
  | .pegVal => (0x20008, 1)
  | .pegAdd => (0x20010, 1)
  | .pegGrp => (0x20018, 1)
  | .pegRamp => (0x20020, 1)
  | .pegSat => (0x20028, 1)
  | .devTqsel => (0x500, 1)
  | .devTqpush => (0x508, 1)
  | .devTqstat => (0x510, 1)
  | .devTqcfg => (0x518, 1)
  | .devPciewin => (0x600, 1)
  | .devHostxlat => (0x608, 1)
  | .rootLinksel => (0x600000, 1)
  | .rootLinkstat => (0x600008, 1)
  | .rootCfgaddr => (0x600010, 1)
  | .rootCfgdata => (0x600018, 1)
  | .ethPortsel => (0x500000, 1)
  | .ethPortstat => (0x500008, 1)
  | .seamStat => (0x700000, 1)
  | .seamPeer => (0x700008, 1)
  | .mantleMbdoor => (0x10000, 1)
  | .mantleMbstat => (0x10008, 1)
  | .mantleMbcfg => (0x10010, 1)
  | .mantleNonce => (0x10018, 1)
  | .mantleCores => (0x10020, 1)
  | .mantleHeart => (0x10028, 1)
  | .mantleIrqpost => (0x10030, 1)
  | .devBoot => (0x10, 1)
  | .trustFlctl => (0xb00000, 1)
  | .trustPref => (0xb00008, 1)
  | .trustEnroll => (0xb00010, 1)
  | .trustNumdig => (0xb00040, 8)
  | .trustIdkey => (0xb00080, 4)
  | .powerRegsel => (0x800000, 1)
  | .powerRegstat => (0x800008, 1)
  | .powerChsel => (0x800010, 1)
  | .powerChstat => (0x800018, 1)
  | .powerAvg => (0x800020, 1)
  | .powerAvglim => (0x800028, 1)
  | .powerShed => (0x800030, 1)
  | .errRing => (0x900000, 1)
  | .errWp => (0x900008, 1)
  | .errRp => (0x900010, 1)
  | .errStat => (0x900018, 1)
  | .errMsix => (0x900020, 1)
  | .errInj => (0x900028, 1)
  | .perfCellsel => (0xa00000, 1)
  | .perfCntsel => (0xa00008, 1)
  | .perfEvt => (0xa00010, 1)
  | .perfCnt => (0xa00018, 1)
  | .perfCfg => (0xa00020, 1)
  | .perfLcsel => (0xa00028, 1)
  | .perfLcount => (0xa00030, 1)
  | .perfDeadline => (0xa00038, 1)

/-- The number of a register, for its place in the register table. -/
def regIdx (r : RegName) : Nat := r.ctorIdx

/-- The reset value of a register, put together from its fields. -/
def regReset (r : RegName) : Word := wd ((regFields r).foldl (fun a f => a ||| (f.reset <<< f.lo)) 0)

/-- The field of a word, as a number. -/
def fget (w : Word) (f : Fld) : Nat := bits w f.hi f.lo

/-- A word with a field replaced. -/
def fput (w : Word) (f : Fld) (v : Nat) : Word := setBits w f.hi f.lo v

/-- Whether a write may give a field this value (R8). -/
def fokay (f : Fld) (v : Nat) : Bool := f.ok.isEmpty || f.ok.any (fun p => decide (p.1 ≤ v) && decide (v ≤ p.2))

/-- One field written: v is the written word, mask the bits that the access reaches (R7, R8, R9). -/
def fwrite (v mask : Word) (w : Word) (f : Fld) : Word :=
  let fm := fmask 64 f.hi f.lo &&& mask
  match f.acc with
  | .rw =>
    let w' := (w &&& ~~~fm) ||| (v &&& fm)
    if fokay f (fget w' f) then w' else w
  | .w1c => w &&& ~~~(v &&& fm)
  | .w1s => w ||| (v &&& fm)
  | .ro => w
  | .wo => w
  | .rc => w

/-- A register word after a plain write: each field by its access code. -/
def regWriteWord (r : RegName) (old v mask : Word) : Word := (regFields r).foldl (fwrite v mask) old

/-- A register word after a read that reaches the bits of mask: its RC fields are cleared in them (R7, R9). -/
def regReadClear (r : RegName) (old mask : Word) : Word :=
  (regFields r).foldl (fun w f => if f.acc = .rc then w &&& ~~~(fmask 64 f.hi f.lo &&& mask) else w) old

/-- What a read of a register word returns: write-only and reserved bits read zero (R7). -/
def regReadWord (r : RegName) (w : Word) : Word :=
  w &&& (regFields r).foldl (fun m f => if f.acc = .wo then m else m ||| fmask 64 f.hi f.lo) 0#64

/-- The register at an MMIO offset of a 64-bit register slot, with the number of its copy. -/
def regAt (slot : Nat) : Option (RegName × Nat) :=
  let dma := decide (0x100000 ≤ slot) && decide (slot < 0x140000)
  let o := if dma then 0x100000 + slot % 0x10000 else slot
  (regAll.find? (fun r => decide ((regPlace r).1 ≤ o) && decide (o < (regPlace r).1 + 8 * (regPlace r).2))).map
    (fun r => (r, (o - (regPlace r).1) / 8))

end Sys2Proof.Machine
end

