-- ==== Sys2Proof/Machine/State.lean ====
section
/-! DEFINITION. The state of the part as plain data: everything the spec gives the machine, the queue of commands waiting, and the state after reset. -/

namespace Sys2Proof.Machine

/-- Reasons a command could stop the machine with a fault. No meaning of this model raises one: every command of the table has a next state. -/
inductive Fault where
  /-- A stop that no command reaches; kept so that the type is inhabited (safe). -/
  | halted (why : String)
  deriving DecidableEq, Repr

/-- Reasons a command is refused. -/
inductive Refusal where
  /-- Raised by Dispatch.lean for a row that has no meaning yet (safe: nothing can be proved of its effect). -/
  | notModelled (mnemonic : String)
  deriving DecidableEq, Repr

/-! ## Threads and cells -/

/-- Why a thread is in the Waiting state across commands (R30). Hazards that the next command can settle are not recorded here. -/
inductive Wait where
  /-- `pause`: cycles asked for (R59). -/
  | pause (cycles : Nat)
  /-- `peg.wait.ge` (eq false) or `peg.wait.eq` (eq true) on a peg, for a value, writing rd (R366). -/
  | peg (p : Nat) (value : Nat) (eq : Bool) (rd : Reg)
  /-- `peg.arrive` waiting on a barrier until the peg reaches its target; old is what it read (R366, R369). -/
  | arrive (p : Nat) (target : Nat) (old : Nat) (rd : Reg)
  /-- A peg condition satisfied by this value: the wait stays satisfied until the thread resumes (R366). -/
  | released (value : Nat) (rd : Reg)
  /-- An instruction-cache miss (R53). -/
  | fetch
  /-- A request held for a miss register (R231). -/
  | miss
  /-- A store that finds all 16 write-buffer entries in use (R225). -/
  | store
  /-- An access whose home or stack does not take it yet: a region's crossing, a retrain, tokens, a bank queue (R18, R23, R246, R255, R257). -/
  | home
  /-- An irrevocable action of a SPEC thread held until the verdict (R300). -/
  | held
  deriving DecidableEq, Repr

/-- The four thread states (R30). -/
inductive TState where
  | idle
  | ready
  | waiting (w : Wait)
  | halted
  deriving DecidableEq, Repr

/-- A 128-byte line with a poison mark per 8-byte word. -/
structure Line where
  data : BitVec 1024 := 0
  poison : BitVec 16 := 0
  deriving DecidableEq, Repr

/-- A decoupled instruction in a unit's queue (R32): its place and word 0, the scalar operands, level and modes read at issue, the register checkpoint that a fault restores (R33), whether it has resolved, and the scalar result still to arrive. `at'` is the element or row that its memory pipe goes on from once it has begun (R126, R177, R231), `lines` the lines that its requests have brought; of a vector load, `next` is the first element that has not passed its checks, `pas` the physical places of those that have and `got` the values that an entry of the write buffer gave, by field and element (R124, R226, R232); `mark` the number of the cell's next access when it issued, `ask` the number it has taken for its requests, `runs` tells that a resolved instruction has still work to do (R180, R205). -/
structure DecEntry where
  instr : Instr
  pc : Word
  word : Word
  a : Word
  b : Word
  d : Word
  more : List Word
  epoch : Bool
  spec : Option (BitVec 48)
  step : Word
  regs : Table Word
  busy : BitVec 32
  level : BitVec 2 := 0
  resolved : Bool
  result : Option (Reg × Word)
  at' : Option Nat := none
  lines : List (Nat × Line) := []
  next : Nat := 0
  pas : Table Nat := []
  got : Table Nat := []
  mark : Nat := 0
  ask : Nat := 0
  runs : Bool := false
  deriving DecidableEq, Repr

/-- A store held in the retire window (R33): its physical place and bytes. -/
structure HeldStore where
  pa : Nat
  data : List Byte
  deriving DecidableEq, Repr

/-- A poison fault that a load has met: the load's number, pc and address (R33, R44). -/
structure LateFault where
  seq : Nat
  pc : Word
  va : Word
  deriving DecidableEq, Repr

/-- A hardware thread. System registers that software writes stand in `sr` under their numbers (R58). -/
structure Thread where
  st : TState := .idle
  level : BitVec 2 := 0
  pc : Word := 0
  regs : Table Word := []
  busy : BitVec 32 := 0
  sr : Table Word := []
  asid : BitVec 6 := 0
  /-- The STEP of the SPEC task it runs, if any (R299). -/
  spec : Option (BitVec 48) := none
  /-- Interrupt pending bits 1–15 (R70). -/
  pend : BitVec 16 := 0
  deadline : Word := 0
  /-- TILEOWN.MINE (R164). -/
  mine : BitVec 16 := 0
  v : Table (BitVec 8192) := []
  q : Table (BitVec 1024) := []
  vq : List DecEntry := []
  tq : List DecEntry := []
  hold : List HeldStore := []
  /-- Scalar instructions issued past the unresolved one (R33). -/
  younger : Nat := 0
  yield : Bool := false
  /-- The oldest poison fault that a load of the thread has met: it waits for older instructions (R33, R44). -/
  late : Option LateFault := none
  /-- The running task it belongs to (R353). -/
  task : Option Nat := none
  deriving DecidableEq, Repr

/-- A translation (R95, R98): the page's base and size, both frames of a paired leaf, its attributes. -/
structure TlbEnt where
  asid : BitVec 6
  vpn : Nat
  size : Nat
  frame0 : Nat
  frame1 : Nat
  pair : Bool
  unp : Bool
  r : Bool
  w : Bool
  x : Bool
  u : Bool
  ns : Bool
  deriving DecidableEq, Repr

/-- A line of the L1 data cache or the victim cache (R222): poison marks per 32-bit word stand doubled in the word marks; P is the prefetch mark, with the stream's number; `bad` names the 32-bit words whose parity has gone wrong (R222). -/
structure CLine where
  line : Nat
  body : Line
  pmark : Option Nat := none
  bad : BitVec 32 := 0
  deriving DecidableEq, Repr

/-- A set of the L1 data cache with its seven tree bits (R223). -/
structure L1Set where
  ways : List (Option CLine) := List.replicate 8 none
  tree : BitVec 7 := 0
  deriving DecidableEq, Repr

/-- A set of the second-level TLB with its seven tree bits (R98). -/
structure L2Set where
  ways : List (Option TlbEnt) := List.replicate 8 none
  tree : BitVec 7 := 0
  deriving DecidableEq, Repr

/-- A write-buffer entry (R225). A drained entry stays until its store is performed. An MMIO or window entry stands alone; it keeps its number among the cell's accesses (R45), the privilege level of its store (R488) and the SPEC state that the store latched (R93); `tile`: it is a tile store's, and takes a slot of the tile memory pipe (R233). -/
structure WbEnt where
  line : Nat
  data : BitVec 1024
  mask : BitVec 128
  owner : Fin 8
  device : Bool := false
  drained : Bool := false
  seq : Nat := 0
  level : BitVec 2 := 0
  spec : Option (BitVec 48) := none
  tile : Bool := false
  deriving DecidableEq, Repr

/-- A load whose value has not arrived: its thread and register, its place, its virtual address and pc for a poison fault (R44), its number among the cell's accesses, the level it was made at (R488), whether it reaches a device, the line as its home served it, once it has (R50). -/
structure LoadReq where
  thr : Fin 8
  rd : Reg
  pa : Nat
  bytes : Nat
  signed : Bool
  va : Word := 0
  pc : Word := 0
  seq : Nat := 0
  level : BitVec 2 := 0
  device : Bool := false
  got : Option Line := none
  deriving DecidableEq, Repr

/-- A miss register (R229): the line, the loads merged into it, the line as its home served it, whether the fill may still install (R228), whether it is a prefetch's and of which stream, its secondary misses, the threads whose vector pipe waits for the line, its number among the requests of the part (R257). -/
structure Mshr where
  line : Nat
  loads : List LoadReq
  served : Option Line := none
  install : Bool := true
  stream : Option Nat := none
  merged : Nat := 0
  pipes : List (Fin 8) := []
  no : Nat := 0
  deriving DecidableEq, Repr

/-- What a held request is for: a scalar load, an atomic, an element of a vector load (R231). -/
inductive HeldKind where
  | load
  | atomic
  | element
  deriving DecidableEq, Repr

/-- A request held for a miss register, in order of arrival (R230). An atomic's and an element's `load` names the thread alone; an atomic keeps its instruction, which runs at the grant. -/
structure HeldMiss where
  line : Nat
  load : LoadReq
  kind : HeldKind := .load
  instr : Option Instr := none
  deriving DecidableEq, Repr

/-- An atomic on its way to its home (R48, R229): its thread, its line and place, its instruction, its number among the requests of the part. To HBM it occupies a miss register. -/
structure AtomReq where
  thr : Fin 8
  line : Nat
  pa : Nat
  instr : Instr
  no : Nat
  deriving DecidableEq, Repr

/-- A line request slot of the tile memory pipe (R233): its thread, its line, the mark of the instruction that asked, the line as its home served it, its number among the requests of the part; held: it waits for a slot. -/
structure TileSlot where
  thr : Fin 8
  line : Nat
  mark : Nat := 0
  served : Option Line := none
  no : Nat := 0
  held : Bool := false
  deriving DecidableEq, Repr

/-- What the harp holds beside the capo latches (R185, R200): the stationary values as the array's cells hold them by column, the checksum column's weights, the two drain buffers' results as (hi, lo) pairs by row, and the buffer that the next instruction takes. -/
structure HarpS where
  stat : Table (List Word) := []
  weights : List Word := []
  drain0 : List (List (Word × Word)) := []
  drain1 : List (List (Word × Word)) := []
  second : Bool := false
  deriving DecidableEq, Repr

/-- A prefetch stream (R234–R236): its number, its thread, the last demand line (virtual line numbers), the stride, how many misses trained it, D, the next line to issue, the line at which it paused, and its counts since D last changed. -/
structure Stream where
  id : Nat
  thr : Fin 8
  last : Nat
  stride : Int
  run : Nat
  armed : Bool
  depth : Nat
  next : Int
  paused : Option Int
  issued : Nat
  late : Nat
  early : Nat
  deriving DecidableEq, Repr

/-- Power states of a cell (R21). -/
inductive CellPower where
  | run
  | gated
  | entering
  | off
  | waking
  deriving DecidableEq, Repr

/-- One change the hem sends to a cell (R94): the EPOCH bits, and the end of SPEC work by a commit or a discard. -/
structure HemUpdate where
  epoch : Word
  /-- The SPEC step whose threads a commit makes ordinary, or a discard stops. -/
  step : BitVec 48
  discard : Bool
  deriving DecidableEq, Repr

/-- The written extent of a tile, ROWS_W and BYTES_W, and its address-space tag (R160). -/
structure TileAttr where
  rows : Nat := 0
  colBytes : Nat := 0
  tag : BitVec 6 := 0
  deriving DecidableEq, Repr

/-- A cell, or a Mantle core's private parts (index 768 + core). -/
structure CellS where
  power : CellPower := .run
  last : Fin 8 := 7
  site : BitVec 4 := 0
  /-- EPOCH bits as the cell has applied them, and the updates it has still to apply (R94). -/
  epoch : Word := 0
  updates : List HemUpdate := []
  icache : List (Nat × Line) := []
  itlb : List TlbEnt := []
  dtlb : List TlbEnt := []
  l2tlb : Table L2Set := []
  walker : List (Nat × Word) := []
  l1 : Table L1Set := []
  victim : List CLine := []
  wb : List WbEnt := []
  mshrs : List Mshr := []
  held : List HeldMiss := []
  /-- Atomics on their way to their homes (R229). -/
  atomics : List AtomReq := []
  /-- Outstanding loads of the aperture, MMIO and the outbound windows (R45). -/
  loads : List LoadReq := []
  /-- The number of the cell's next outstanding load or device store, in program order of each thread (R45, R71). -/
  accNo : Nat := 0
  /-- Line request slots of the tile memory pipe (R233). -/
  slots : List TileSlot := []
  /-- Cycles for which the divider is still busy (R42). -/
  div : Nat := 0
  /-- The thread that each pipe started last: vector arithmetic, vector memory, tile memory, tile move, harp (R134, R184, R205). -/
  pipeLast : Table (Fin 8) := []
  /-- Prefetch streams, most recently used first, and the number of the next one. -/
  streams : List Stream := []
  streamNo : Nat := 0
  /-- Tile rows: key 64 × tile + row (R160). -/
  tiles : Table (BitVec 2048) := []
  tattr : Table TileAttr := []
  tpoison : Table Bool := []
  /-- The 32-bit words of a tile row whose parity has gone wrong, by the same key (R204). -/
  tparity : Table (BitVec 64) := []
  /-- Tags of the operand cache's slices: tile, rows, row width (R182). Their bytes are the tile's. -/
  opcache : List (Nat × Nat × Nat) := []
  /-- The stationary operand in the capo latches: tile, shape word, address space (R183). -/
  capo : Option (Nat × Word × BitVec 6) := none
  harpStopped : Bool := false
  harp : HarpS := {}
  /-- A wake event that the cell has yet to act on (R22). -/
  wakeReq : Bool := false
  deriving DecidableEq, Repr

/-! ## Errors and outputs -/

/-- An error or event that a unit has detected (R456, R459), before acceptance. -/
structure ErrRec where
  cause : BitVec 8
  cls : BitVec 2
  level : BitVec 2
  threadV : Bool := false
  unit : BitVec 8 := 0xFF
  inst : BitVec 8 := 0
  sub : BitVec 8 := 0
  thread : BitVec 3 := 0
  addr : Word := 0
  d0 : Word := 0
  d1 : Word := 0
  d2 : Word := 0
  deriving DecidableEq, Repr

/-- An accepted record (R459, R460). -/
structure Accepted where
  er : ErrRec
  seq : Nat
  time : Word
  step : BitVec 48
  count : Nat := 1
  merged : Bool := false
  deriving DecidableEq, Repr

/-- How a RoCEv2 packet leaves on an Ethernet port (R315, R384, R386, R387): the next hop's MAC address, none for an answer to a packet's sender; the IEEE 802.1Q tag's VLAN ID and PCP; the ECN code point, 2 for ECT(0); the UDP destination port. -/
structure NetTag where
  dmac : Option (BitVec 48) := none
  vlan : Nat := 0
  pcp : Nat := 0
  ecn : Nat := 2
  udp : Nat := 4791
  deriving DecidableEq, Repr

/-- What the part sends across its edges or answers, in order (log 17). -/
inductive Out where
  /-- The value that a register read returned to an agent. -/
  | value (a : Agent) (off : Nat) (v : Word)
  /-- An MSI-X message to the host. -/
  | msix (vec : BitVec 8) (addr data : Word)
  /-- A write to the host through an outbound window or by DMA. -/
  | hostWrite (addr : Nat) (data : List Byte) (poisoned : Bool)
  /-- A read request to an outbound window: its bus address and length (R377). -/
  | hostRead (addr : Nat) (n : Nat)
  /-- Data returned to a BAR2 read (poisoned: a completion with poisoned data). -/
  | bar2 (data : List Byte) (poisoned : Bool)
  /-- A job message on an Ethernet port to a rank. -/
  | net (port : Nat) (rank : Nat) (m : Msg) (tag : NetTag)
  /-- A roll-call datagram on an Ethernet port: its destination's GID, empty for an answer to the sender of a datagram, its queue pair and its Q_Key (R315). -/
  | datagram (port : Nat) (gid : List Byte) (qpn : Nat) (key : Nat) (m : Msg) (tag : NetTag)
  /-- A transport packet of a named kind on an Ethernet port: a CNP, a NAK (R315, R387). -/
  | packet (port : Nat) (kind : String) (data : List Byte) (tag : NetTag)
  /-- A frame of a named protocol on an Ethernet port. -/
  | frame (port : Nat) (kind : String) (data : List Byte)
  /-- A message over the Seam link. -/
  | seam (kind : String) (w : Word) (data : List Byte)
  /-- A WRITE over the Seam link: its address, its bytes, the poisoned 8-byte words among them (R391, R458). -/
  | seamWrite (addr : Word) (data : List Byte) (marks : List Nat)
  /-- A notification to the Mantle firmware. -/
  | mantle (kind : String) (w : Word)
  /-- A pin driven. -/
  | pin (name : String) (high : Bool)
  /-- What the Keeper or Feed asks of a drive: the link, the request, where, the bytes. -/
  | drive (l : Nat) (kind : String) (at' : Nat) (data : List Byte)
  /-- What a Seam DMA channel copies of HBM to the twin (R411): every byte that is not zero, and the poisoned bursts. -/
  | seamCopy (ch : Nat) (mem : List Host.Cell) (poison : Table (BitVec 4))
  /-- A DOE response, a configuration completion, a debug-port answer. -/
  | reply (kind : String) (data : List Byte)
  deriving DecidableEq, Repr

/-- Error unit (R460–R464). -/
structure ErrS where
  detected : List ErrRec := []
  seq : Nat := 0
  merges : List Accepted := []
  hold : List Accepted := []
  /-- The injected error armed for the next write to the word (R464). -/
  armed : Bool := false
  /-- Latent injected errors: key word address / 8, true when double (R464). -/
  latent : Table Nat := []
  /-- Rows with a corrected error in the present scrub pass, and rows that R219 and R250 now have replaced: key 1000 + block-memory bank, or stack × 32 + channel. -/
  ceRows : Table (List Nat) := []
  due : Table (List Nat) := []
  /-- Times of the last corrected symbols of a lane (R246): key 128 × (stack × 32 + channel) + lane. -/
  lanes : Table (List Word) := []
  /-- Times of the last corrected errors 0x10 and 0x12 of a cell site (R457): key 16 × block + site. -/
  cellCe : Table (List Word) := []
  deriving DecidableEq, Repr

/-- A set of a region cache's slice (R220): the line in each way, and the bits of the replacement tree. -/
structure RcSet where
  ways : List (Option Nat) := []
  tree : BitVec 7 := 0
  deriving DecidableEq, Repr

/-- Memory (R78): HBM and block-memory bytes, poison marks, and the region caches: the dirty lines' bytes, the ways (log 10). -/
structure MemS where
  mem : List Host.Cell := []
  /-- Poisoned bursts of a DRAM line: key line number (R248). -/
  hbmPoison : Table (BitVec 4) := []
  /-- Poisoned words of a block-memory line: key line number (R217). -/
  bmPoison : Table (BitVec 16) := []
  /-- Dirty lines of the region caches: key line number (R220). -/
  rc : Table Line := []
  /-- The sets of the region caches' slices: key (8 × region + slice) × 32,768 + set (R220). -/
  rcSets : Table RcSet := []
  /-- Dirty lines that have been replaced and whose write back waits in its bank queue (R220, R257). -/
  rcOut : List Nat := []
  /-- The stack interleave granule in bytes (R243): 2 MiB until an image is applied (log 7). -/
  gran : Nat := 0x200000
  /-- Channels whose contents a full-scope generator run has destroyed: key stack × 32 + channel, the run's number + 1 (R258). A stored line there is what is listed, exclusive-or the free line. -/
  junk : Table Nat := []
  deriving DecidableEq, Repr

/-! ## Pegs, tasks, DMA, the hem -/

/-- An engine's wait on a peg (R489): at or above the value when `up`, at or below otherwise; once met it stays met. -/
structure Watch where
  peg : Nat
  up : Bool
  value : Nat
  met : Bool
  deriving DecidableEq, Repr

/-- Pegs (R365), the waves still to release of each value change, the changes in the order of their next waves (R370), the engines' watches. -/
structure PegS where
  vals : Table (BitVec 63) := []
  waves : List (List (List Tid)) := []
  watches : Table Watch := []
  deriving DecidableEq, Repr

/-- A descriptor in a task queue, with its words once the head check has read them (R352). -/
structure TqEnt where
  desc : Nat
  words : Option (List Word) := none
  deriving DecidableEq, Repr

/-- A running task (R353, R354). -/
structure TaskRun where
  desc : Nat
  queue : Nat
  cell : Nat
  threads : List Tid
  left : Nat
  spec : Option (BitVec 48)
  pegen : Bool
  peg : Nat
  deriving DecidableEq, Repr

/-- A push that a full queue holds in the fabric (R349): the queue's key, the descriptor, the agent that made it, whose later MMIO accesses wait behind it (R45). -/
structure HeldPush where
  key : Nat
  desc : Nat
  agent : Option Agent := none
  deriving DecidableEq, Repr

/-- Region task queues: key 64 × region + queue; the queue that dispatched last per region; pushes held in the fabric; running tasks by dispatch order. -/
structure TaskS where
  queues : Table (List TqEnt) := []
  rr : Table Nat := []
  held : List HeldPush := []
  runs : Table TaskRun := []
  next : Nat := 0
  deriving DecidableEq, Repr

/-- A DMA descriptor in progress (R357): its address and words, its lists of (address, length), the bytes moved, the latched EPOCH bit and SPEC, whether poison was carried, the code it ended with (0: none yet) and its residue. -/
structure DmaRun where
  desc : Nat
  words : List Word
  src : List (Nat × Nat)
  dst : List (Nat × Nat)
  total : Nat
  moved : Nat := 0
  epoch : Bool := false
  spec : Bool := false
  poison : Bool := false
  code : Nat := 0
  residue : Nat := 0
  /-- Where the run that the Seam link now carries goes on: its header has left (R391). -/
  sent : Option Nat := none
  deriving DecidableEq, Repr

/-- A DMA channel's state beside its registers: the descriptor in progress, the ring indices made pending by SPEC threads, those that a discard drops (R360), whether its pace peg has set it going since it paused (R359). -/
structure DmaChan where
  run : Option DmaRun := none
  specIdx : List Nat := []
  dropIdx : List Nat := []
  paced : Bool := false
  deriving DecidableEq, Repr

/-- The hem (R290–R314) beside its registers. -/
structure HemS where
  step : BitVec 48 := 0
  lsexp : BitVec 8 := 0
  clean : BitVec 16 := 0
  paired : Bool := true
  drift : Option (BitVec 16) := none
  updNonfin : Bool := false
  xdig : Word := 0
  /-- The step digest formed at the end of the update (R311). -/
  digest : Word := 0
  /-- A non-finite post made after the rank's last message of the step: left out of the verdict (R291). -/
  latePost : Bool := false
  /-- The twin's digest of a step, once arrived (step, digest); whether the hem waits for it (R312). -/
  twin : Option (Word × Word) := none
  twinWait : Bool := false
  /-- Notifications that the Runner has yet to take (R293, R400): the KIND of a verdict; 16 COLLECT entered, 17 UPDATE or INPLACE entered, 18 HALT entered. -/
  notes : List Nat := []
  deriving DecidableEq, Repr

/-! ## Lining engines -/

/-- A task waiting in a stack's queue (R264): its descriptor's address, whether a SPEC thread pushed it (R300) and which thread did, or a pass that the collective engine submits itself: its descriptor, its parameter block, its bucket (R332). -/
structure LEnt where
  desc : Nat
  spec : Bool := false
  agent : Option Agent := none
  own : Option (List Word × List Byte × Nat) := none
  deriving DecidableEq, Repr

/-- A reduction's partial result, as FP64 codes: count, mean, M2, or a sum in the first (R272). -/
structure LRes where
  a : Word
  b : Word := 0
  c : Word := 0
  deriving DecidableEq, Repr

/-- An active task (R264–R275): what dispatch read, the chunks still to start, the status so far. -/
structure LTask where
  desc : Nat
  words : List Word
  param : List Byte
  prog : List Byte := []
  spec : Bool
  epoch : Bool
  bucket : Option Nat := none
  total : Nat
  next : Nat := 0
  /-- Chunks to run again after an error, and chunks that have had one with the engine that had it (R286). -/
  again : List Nat := []
  erred : List (Nat × Nat) := []
  done : Nat := 0
  code : Nat := 0
  failAt : Option Nat := none
  addr : Word := 0
  flags : Nat := 0
  nonfin : Bool := false
  poisoned : Bool := false
  met : Bool := false
  dvalid : Bool := true
  digest : Word := 0
  res : Table LRes := []
  wclip : Nat := 0
  /-- Physical pieces that its chunks have written: (address, bytes) (R274). -/
  wrote : List (Nat × Nat) := []
  deriving DecidableEq, Repr

/-- A chunk on an engine thread (R271): its translations (range, 64-KiB virtual page, physical base), the TLB entries behind them, whether an invalidation has removed one (R101), a program's context, whether the program has met poison, whether it has met a value that is not finite, its writes, staged until its third phase: physical addresses and marked bytes. -/
structure LRun where
  task : Nat
  chunk : Nat
  maps : List (Nat × Nat × Nat)
  ents : List TlbEnt := []
  inv : Bool := false
  thread : Option Thread := none
  bad : Bool := false
  nonfin : Bool := false
  stores : List (Nat × List (Byte × Bool)) := []
  deriving DecidableEq, Repr

/-- A stack's queue, the pushes held in the fabric, the active tasks by their order, the running chunks: key 4 × engine + thread (R260, R264). -/
structure LStack where
  queue : List LEnt := []
  held : List LEnt := []
  active : Table LTask := []
  next : Nat := 0
  runs : Table LRun := []
  /-- The registers of the engine threads as the last program left them: key 4 × engine + thread (R260). -/
  threads : Table Thread := []
  /-- The thread of each engine that issued last (R260), and when each engine last erred, on the IO die's counter (R286). -/
  last : Table Nat := []
  errAt : Table Word := []
  /-- The spare engine site, if one is left (R286, R420). -/
  spare : Option Nat := some 16
  deriving DecidableEq, Repr

/-! ## The collective engine -/

/-- How a shard was resolved (R334): its partial when allgathered, the ranks that a void names. -/
inductive ShardRes where
  | gathered (part : Word)
  | nonfinite
  | void (rank missing : Nat) (isolated : Bool)
  deriving DecidableEq, Repr

/-- A bucket in the current generation (R326–R345). -/
structure CBucket where
  posted : Bool := false
  /-- Stopped by a translation fault (R324). -/
  stopped : Bool := false
  /-- Slots of the own shard that hold a contribution, and messages accepted: (TYPE, SRC, SHARD). -/
  slots : List Nat := []
  seen : List (Nat × Nat × Nat) := []
  /-- Slots summed so far, and the running pass: the slots after it, and whether it is FINAL (R332). -/
  summed : Nat := 0
  pass : Option (Nat × Bool) := none
  /-- What the FINAL pass ended with: its status code, NONFIN, RES0 and WCLIP (R334). -/
  fin : Option (Nat × Bool × Word × Nat) := none
  res : Table ShardRes := []
  /-- The deadline of the own shard is armed (R339); another rank was heard since. -/
  armed : Bool := false
  heard : Bool := false
  /-- Pair-first: own encodings of led shards and the twin's contributions, by shard, with NONFIN (R333); led shards already sent. -/
  mine : Table (List Byte × Bool) := []
  twins : Table (List Byte × Bool) := []
  led : List Nat := []
  done : Bool := false
  deriving DecidableEq, Repr

/-- The collective engine beside its registers (R315–R347). -/
structure CollS where
  buckets : Table CBucket := []
  /-- Posts held until STATE reads READY and the hem is past IDLE and INPLACE (R310, R326). -/
  held : List Nat := []
  /-- Whether a commit has taken place since ARM (R330). -/
  committed : Bool := false
  /-- Voids counted against each rank (R341). -/
  counts : Table Nat := []
  /-- Whether a malformed message and a drift have been recorded in this generation (R329, R343). -/
  badRecorded : Bool := false
  /-- Roll call (R318–R321): the entries that rank 0 has, chunks held, chunks awaiting an acknowledgement. -/
  joined : Table (List Byte) := []
  chunks : List Nat := []
  unacked : List (Nat × Nat) := []
  /-- The entry that this rank's JOIN carries (R318): every repeat carries the same. -/
  joinSent : Option (List Byte) := none
  /-- The RC queue pairs that are open, by QPN (R315, R318). -/
  qps : List Nat := []
  /-- Job messages that wait: for the hem to leave INPLACE (R310), or for a path to return (R316): port, rank, message. -/
  waits : List (Nat × Nat × Msg) := []
  /-- Times on the IO die's counter: entry to COLLECT, own last post, last resolution (R345, R346). -/
  collectAt : Word := 0
  postAt : Word := 0
  resAt : Word := 0
  /-- COLL_PACE and COLL_DLINE as they stood when the generation began (R347). -/
  paceUse : Word := 0
  dlineUse : Word := regReset .collDline
  /-- The contribution that completed last: rank, word 0 of its header, time (R345). -/
  last : Option (Nat × Word × Word) := none
  deriving DecidableEq, Repr

/-! ## Power (R432–R452) -/

/-- The power controller beside its registers. The tables are those of the applied image's POWER section (R452, log 7). -/
structure PowerS where
  /-- MHz and VNOM of each step; P10 and P100 of each channel, the package's last. -/
  vf : List (Nat × Nat) := []
  peak : List (Nat × Nat) := []
  avgwin : Nat := 0
  shed : List Nat := []
  throt : Nat := 0
  trip : Nat := 0
  eol : Nat := 0
  base : Nat := 0
  vmax : Nat := 0
  /-- The highest step that each cause allows a region: key 16 × region + cause, 15 when it does not bind (R439). -/
  lim : Table Nat := []
  /-- By region the region whose move forced its neighbour hold (R439). -/
  forcedBy : Table Nat := []
  /-- Stacks that were in MAINT when stage 5 took them into self-refresh (R447). -/
  inMaint : List Nat := []
  /-- Increments by which each channel's lever is pulled; 16 is the package (R435). -/
  levers : Table Nat := []
  /-- Blocks whose detector stretches its region's clock (R443). -/
  stretched : List Nat := []
  /-- The part is shut down until power is cycled (R448); step 1 is held with SHUTDOWN# asserted (R484). -/
  down : Bool := false
  railHold : Bool := false
  deriving DecidableEq, Repr

/-! ## Clocks, block memory and the stacks beside their registers -/

/-- Region clocks (R18, R23): PLLs that have started and not locked; regions whose switch to PLL b is under way. -/
structure ClkS where
  starting : List Nat := []
  switching : List Nat := []
  deriving DecidableEq, Repr

/-- Block-memory banks (R218, R219): key block × 32 + bank: the scrubber's line, the rows replaced, in the order of their spares. -/
structure BmS where
  ptr : Table Nat := []
  spares : Table (List Nat) := []
  deriving DecidableEq, Repr

/-- The stacks (R246–R258): each channel's scrub line, flagged lanes and generator stop, retired spares of a bank, pages offlined, the regulators' buckets in half bursts (guarantee, ceiling). -/
structure HbmS where
  ptr : Table Nat := []
  flag : Table (List Nat) := []
  stop : List Nat := []
  retired : Table (List Nat) := []
  offlined : List Nat := []
  buckets : Table (Nat × Nat) := []
  /-- By stack the half bursts that the DRAM core and the external interface have carried in this ac (R255). -/
  used : Table (Nat × Nat) := []
  /-- By bank the row open now, and the number below which a request has waited 1 µs (R257). -/
  rows : Table Nat := []
  aged : Table Nat := []
  /-- By stack the partition that the DRAM served last without a guarantee (R255). -/
  turn : Table Nat := []
  /-- By channel the HBM_TGCTL word with which the generator's run began (R258). -/
  runs : Table Word := []
  deriving DecidableEq, Repr

/-! ## The repair record (R425, R426) -/

/-- An entry: its kind, its unit (two numbers), its data. -/
structure RepairEnt where
  kind : Nat
  unit : Nat
  site : Nat
  data : Word := 0
  deriving DecidableEq, Repr

/-- A flash copy of the record: SEQ and the entries; none: its signature does not verify. -/
structure RepairCopy where
  seq : Nat
  ents : List RepairEnt
  deriving DecidableEq, Repr

/-- The record as firmware holds it, what has still to be written, the two flash copies, and the copy loaded at boot. -/
structure RepairS where
  ents : List RepairEnt := []
  dirty : Bool := false
  copy0 : Option RepairCopy := none
  copy1 : Option RepairCopy := none
  loaded : Option RepairCopy := none
  deriving DecidableEq, Repr

/-! ## Links -/

/-- The links beside their registers: root links whose device has taken its window (R380) and whose drive offers a Controller Memory Buffer (R403); whether the host link is up; BAR2's size in GiB (R374); whether step 8 has started the links (R393); the Seam lanes that passed EQUALISE, whether the Seam link has trained since boot, the base of the partner's TWINAREA (R392); the DOE Error bit (R373). -/
structure LinksS where
  claims : List Nat := []
  cmb : List Nat := []
  hostUp : Bool := false
  bar2Gib : Nat := 1
  started : Bool := false
  seamGood : BitVec 18 := 0
  seamTrained : Bool := false
  twinArea : Word := 0
  doeError : Bool := false
  /-- Configuration space beside that (R373): Max Payload Size, Max Read Request Size, the Completion Timeout Value, AER's status registers. -/
  maxPayload : Nat := 128
  maxRead : Nat := 512
  timeout : Nat := 0
  aerCor : BitVec 32 := 0
  aerUnc : BitVec 32 := 0
  /-- The Seam link retrains with its traffic held (R390, R392), and that traffic. -/
  seamHold : Bool := false
  seamWait : List Out := []
  /-- Bytes sent and received over the Seam link, which number its codewords (R389, R390). -/
  seamTx : Nat := 0
  seamRx : Nat := 0
  /-- Die-to-die links whose retrain has failed (R457). -/
  dead : List LinkId := []
  deriving DecidableEq, Repr

/-- An LLDP neighbour (R388): chassis ID, port ID, TTL. -/
structure Nbr where
  chassis : List Byte
  port : List Byte
  ttl : BitVec 16
  /-- When it was heard, on the IO die's counter. -/
  heardAt : Word
  deriving DecidableEq, Repr

/-- A packet that waits for its priority on a port, or for its next hop's address (R384, R386): the destination's GID, empty for an answer to a packet's sender. -/
structure NetWait where
  port : Nat
  prio : Nat
  gid : List Byte
  out : Out
  deriving DecidableEq, Repr

/-- The Ethernet ports beside their registers: addresses, prefix lengths, gateways and resolved peers of a port (R384); neighbours (R388); the RoCE and CNP priorities and the VLAN of the image; PFC asserted and received, key 8 × port + priority (R386); queue-pair rates as a fraction n / 2^k of line rate, and the times of the last CNP taken and sent, by QPN (R387). -/
structure NetS where
  /-- GID of each port, 16 bytes in wire order; none: not set. -/
  gids : Table (List Byte) := []
  prefixes : Table Nat := []
  gateways : Table (List Byte) := []
  peers : Table (List (List Byte × BitVec 48)) := []
  nbrs : Table Nbr := []
  rpri : Nat := 3
  cpri : Nat := 6
  vlan : Nat := 0
  pfcTx : List Nat := []
  pfcRx : Table Nat := []
  rates : Table (Nat × Nat) := []
  cnpAt : Table Word := []
  ceAt : Table Word := []
  /-- The GID at the other end of each open queue pair, by QPN (R384); packets that wait; when each port's FECUNC was last read, on the IO die's counter (R388). -/
  hops : Table (List Byte) := []
  wait : List NetWait := []
  fecAt : Table Word := []
  deriving DecidableEq, Repr

/-! ## The Mantle (R394–R411) -/

/-- A plan entry (R400). -/
structure PlanEnt where
  trig : Nat
  action : Nat
  target : Nat
  wpeg : Nat
  wval : Nat
  value : Nat
  deriving DecidableEq, Repr

/-- A Feed stream (R401, R402): its descriptor's fields, the slots given to the DMA channel so far, the batch counter B, the cursor snapshot C. -/
structure Feed where
  src : Nat
  ch : Nat
  peg : Nat
  slotBytes : Nat
  nslot : Nat
  per : Nat
  link : Nat
  ring : Nat
  srcBase : Nat
  srcLen : Nat
  cursor : Nat
  stat : Nat
  filled : Nat := 0
  b : Nat := 0
  c : Nat := 0
  /-- The slot that CURSOR names, and the slots whose reads a drive has been given (R403, R411). -/
  first : Nat := 0
  asked : Nat := 0
  deriving DecidableEq, Repr

/-- A checkpoint (R404): its mailbox slot, its half of the drives, its manifest; once a commit has started the drain, the frames of each range (2 MiB pages), the active drives, how many chunks are stored, the chunks of this rank's stripe still to store, commits since, what the header holds. -/
structure Ckpt where
  box : Nat
  half : Nat
  manifest : List Byte
  ranges : List (Nat × Nat × Nat)
  taken : Bool := false
  frames : List Nat := []
  drives : List Nat := []
  k : Nat := 0
  todo : List Nat := []
  commits : Nat := 0
  paired : Bool := false
  step : Word := 0
  /-- Commits made before the command that the Runner has still to hear of (R404). -/
  skip : Nat := 0
  deriving DecidableEq, Repr

/-- A half of a drive's namespace 1 as stored (R406): the header's fields and digests, and the chunks with their numbers. -/
structure Stored where
  valid : Bool := false
  damaged : Bool := false
  jobid : Word := 0
  step : Word := 0
  stripe : Nat := 0
  nr : Nat := 0
  index : Nat := 0
  count : Nat := 0
  bytes : Nat := 0
  onDrive : Nat := 0
  manifest : BitVec 512 := 0
  numdig : List Byte := []
  digests : Table (BitVec 512) := []
  chunks : Table (List Byte) := []
  deriving DecidableEq, Repr

/-- What the Keeper has read of a drive's health (R407), and the tail of its I/O submission queue (R403). -/
structure Drive where
  used : Nat := 0
  spare : Nat := 0
  retired : Bool := false
  tail : Nat := 0
  deriving DecidableEq, Repr

/-- A RESTORE in progress (R408): its mailbox slot, its half, the physical frames of the manifest's 4-KiB pages, the chunks still to be verified and written, how many are written. -/
structure Restore where
  box : Nat
  half : Nat
  frames : List Nat
  todo : List (Nat × Nat)
  count : Nat := 0
  deriving DecidableEq, Repr

/-- The Mantle services (R394–R411): mailbox bytes (offset 0–4095), doorbells in order, the core each service runs on (Runner, Feed, Keeper, Health), the plan and STOPSTEP, entries triggered and not yet started, Feed streams, the USER block, the checkpoint in progress, drives by link, what the drives hold (key 2 × link + half), the twin record's SEQ and whether one is due, the twin copy in progress (mailbox slot, sender), core sites in use, watchdog events. -/
structure MantleS where
  box : Table Byte := []
  queue : List Nat := []
  home : List Nat := [0, 1, 2, 3]
  plan : List PlanEnt := []
  stop : Nat := 0
  waiting : List PlanEnt := []
  feeds : Table Feed := []
  user : List Byte := List.replicate 128 0
  ckpt : Option Ckpt := none
  drives : Table Drive := []
  stored : Table Stored := []
  twinSeq : Nat := 0
  twinDue : Bool := false
  /-- Streams' B and C from the lost part's record, for the FEEDCFG to come (R411). -/
  resume : Table (Nat × Nat) := []
  copy : Option (Nat × Bool) := none
  sites : List Nat := []
  events : Nat := 0
  /-- The step and DEV_EPOCH of each commit that the Runner has still to hear of (R400, R404). -/
  commits : List (BitVec 48 × Word) := []
  /-- A RESTORE in progress: its slot, its half, the frames, the chunks that its Keeper has still to verify, those written (R408). -/
  restore : Option Restore := none
  /-- Whether MANTLE_NONCE has taken a value since reset (R397, R398). -/
  nonced : Bool := false
  /-- The SRAM (R394): an unlisted byte reads 0 (log 130). Core sites found lost (R395). -/
  sram : Table Byte := []
  lostSites : List Nat := []
  /-- SRAM words with an error left in them (R394). -/
  sramBad : List Nat := []
  /-- When the fault of a cell site was last cleared with no spare left (R16, R457): key 16 × block + site, on the IO die's counter. -/
  cleared : Table Word := []
  deriving DecidableEq, Repr

/-! ## Start-up and trust (R412–R431) -/

/-- What boot has loaded (R412–R428): whether power is applied, the core site that runs the ROM, the slot that booted, the applied image and the firmware package as measured, the image's MEMORY, FABRIC, SECURITY and STRUCT fields that no register shows, the fused owner key and minimum SVN, the flash buffer. -/
structure BootS where
  powered : Bool := false
  romSites : BitVec 5 := 0
  image : List Byte := []
  fw : List Byte := []
  twinArea : Nat := 0
  mresv : Nat := 0
  mresvLen : Nat := 0
  kpeg : Option Nat := none
  vcw : List Nat := []
  partner : Nat := 0
  serials : List Nat := []
  mincells : Nat := 0
  mineng : Nat := 0
  reqstacks : Nat := 0
  engSites : List Nat := []
  coreSites : Nat := 0
  owner : Option (BitVec 256) := none
  minSvn : Nat := 0
  flbuf : Table Byte := []
  deriving DecidableEq, Repr

/-! ## The machine -/

/-- The machine. -/
structure State where
  pending : List Instr := []
  threads : Table Thread := []
  cells : Table CellS := []
  ms : MemS := {}
  /-- MMIO register words: key 65536 × register + instance. -/
  mmio : Table Word := []
  /-- Per-agent select registers (R487): key 65536 × register + agent. -/
  sel : Table Word := []
  err : ErrS := {}
  pegs : PegS := {}
  tasks : TaskS := {}
  dma : Table DmaChan := []
  /-- The channel of each DMA engine that moved the last burst (R372). -/
  dmaLast : Table Nat := []
  hem : HemS := {}
  /-- The stacks' task queues and engines. -/
  lining : Table LStack := []
  coll : CollS := {}
  power : PowerS := {}
  net : NetS := {}
  links : LinksS := {}
  mantle : MantleS := {}
  boot : BootS := {}
  repair : RepairS := {}
  clk : ClkS := {}
  bm : BmS := {}
  hbm : HbmS := {}
  /-- The flash on the board: an unlisted byte reads 0xFF, as erased (R414, log 22). -/
  flash : Table Byte := []
  /-- MSI-X table words (R375): key 2 × vector for the address, 2 × vector + 1 for the data and the mask. -/
  msix : Table Word := []
  pba : BitVec 256 := 0
  /-- Vectors posted whose messages have still to leave (R375). -/
  msixDue : List Nat := []
  /-- MSI-X Enable and Function Mask of the capability (R375). -/
  msixEn : Bool := false
  msixMask : Bool := false
  /-- The thirteen local counters (R465): regions 0–11, then the IO die. -/
  lc : List Word := List.replicate 13 0
  out : List Out := []
  /-- How many free values have been drawn (log 4). -/
  freeCtr : Nat := 0
  deriving DecidableEq, Repr

/-- The machine right after reset (R412, log 6). -/
def State.reset : State := {}

end Sys2Proof.Machine
end

