-- ==== Sys2Proof/Machine/Ops.lean ====
section
/-! DEFINITION. The shared operations over State: threads, cells, MMIO words, the physical address map, the homes of memory, error notes, free values. -/

namespace Sys2Proof.Machine

/-! ## Threads and cells -/

/-- The core a thread belongs to (R12, R394). -/
def cellOf (t : Tid) : Nat := if t.val < 6144 then t.val / 8 else 768 + (t.val - 6144) / 4

/-- A thread's number in its core. -/
def thrOf (t : Tid) : Nat := if t.val < 6144 then t.val % 8 else (t.val - 6144) % 4

/-- The thread of a core, by number. -/
def tidOf (c : Nat) (j : Nat) : Tid :=
  if c < 768 then Fin.ofNat 6160 (8 * c + j % 8) else Fin.ofNat 6160 (6144 + 4 * (c - 768) + j % 4)

/-- Threads of a core (R11, R394). -/
def thrCount (c : Nat) : Nat := if c < 768 then 8 else 4

/-- All threads of a core. -/
def tidsOf (c : Nat) : List Tid := (List.range (thrCount c)).map (tidOf c)

/-- Whether a core is a Mantle core. -/
def isMantle (c : Nat) : Bool := decide (768 ≤ c)

/-- The region of a cell. -/
def regionOf (c : Nat) : Nat := c / 64

/-- The state of a thread that nothing has changed since reset: a Mantle core's thread runs at M (R61, log 6). -/
def threadReset (t : Nat) : Thread := if t < 6144 then {} else { st := .ready, level := 2 }

/-- The state of a cell that nothing has changed since reset: logical cell c of a block on site c (R13). -/
def cellReset (c : Nat) : CellS :=
  { site := if c < 768 then BitVec.ofNat 4 (c % 8) else BitVec.ofNat 4 (c - 768) }

/-- A thread's state. -/
def thread (s : State) (t : Tid) : Thread := tget (threadReset t.val) s.threads t.val

/-- A thread's state replaced. -/
def setThread (s : State) (t : Tid) (th : Thread) : State := { s with threads := tins t.val th s.threads }

/-- A thread's state changed. -/
def modThread (s : State) (t : Tid) (f : Thread → Thread) : State := setThread s t (f (thread s t))

/-- A core's state. -/
def cell (s : State) (c : Nat) : CellS := tget (cellReset c) s.cells c

/-- A core's state replaced. -/
def setCell (s : State) (c : Nat) (x : CellS) : State := { s with cells := tins c x s.cells }

/-- A core's state changed. -/
def modCell (s : State) (c : Nat) (f : CellS → CellS) : State := setCell s c (f (cell s c))

/-- A scalar register: s0 reads zero (R35). -/
def xget (th : Thread) (r : Reg) : Word := if r = 0 then 0 else tget 0 th.regs r.toNat

/-- A scalar register written: a write to s0 is discarded (R35). -/
def xset (th : Thread) (r : Reg) (v : Word) : Thread :=
  if r = 0 then th else { th with regs := tset 0 th.regs r.toNat v }

/-- A thread's scalar register. -/
def rx (s : State) (t : Tid) (r : Reg) : Word := xget (thread s t) r

/-- A thread's scalar register written. -/
def wx (s : State) (t : Tid) (r : Reg) (v : Word) : State := modThread s t (fun th => xset th r v)

/-- A free value (log 4): the spec fixes none, nothing constrains it. -/
def drawFree (s : State) : Word × State := (Config.freeValue s.freeCtr, { s with freeCtr := s.freeCtr + 1 })

/-- An output or answer appended. -/
def emit (s : State) (o : Out) : State := { s with out := s.out ++ [o] }

/-! ## MMIO register words -/

/-- The key of a register instance. -/
def regKey (r : RegName) (i : Nat) : Nat := 65536 * regIdx r + i

/-- The word of a register instance. -/
def reg (s : State) (r : RegName) (i : Nat := 0) : Word := tget (regReset r) s.mmio (regKey r i)

/-- The word of a register instance replaced. -/
def setReg (s : State) (r : RegName) (i : Nat) (v : Word) : State :=
  { s with mmio := tset (regReset r) s.mmio (regKey r i) v }

/-- A field of a register instance. -/
def rf (s : State) (r : RegName) (f : Fld) (i : Nat := 0) : Nat := fget (reg s r i) f

/-- A field of a register instance replaced. -/
def setRf (s : State) (r : RegName) (f : Fld) (v : Nat) (i : Nat := 0) : State :=
  setReg s r i (fput (reg s r i) f v)

/-- Bytes that a packet puts on the Seam link: a header of 64, which a job message's own bytes hold, and its data (R391). -/
def seamSize : Out → Nat
  | .seam _ _ bs => max 64 bs.length
  | .seamWrite _ bs _ => bs.length
  | .seamCopy _ _ _ => 64 + 0xF00000000
  | _ => 0

/-- A packet put on the Seam link, which counts its bytes (R389). -/
def seamPut (s : State) (o : Out) : State := emit { s with links := { s.links with seamTx := s.links.seamTx + seamSize o } } o

/-- A packet for the Seam partner: it waits while the link retrains with its traffic held (R390, R392), and none leaves unless the link is ACTIVE. -/
def seamEmit (s : State) (o : Out) : State :=
  if s.links.seamHold then { s with links := { s.links with seamWait := s.links.seamWait ++ [o] } }
  else if rf s .seamStat F.seamStatState = 5 then seamPut s o
  else s

/-- Packets received over the Seam link while it is ACTIVE: a header and its data (R389, R391). -/
def seamGot (s : State) (n : Nat) : State :=
  if rf s .seamStat F.seamStatState = 5 then { s with links := { s.links with seamRx := s.links.seamRx + 64 + n } } else s

/-- A packet of a kind for the Seam partner. -/
def seamSend (s : State) (kind : String) (w : Word) (bs : List Byte) : State := seamEmit s (.seam kind w bs)

/-- A counting field moved up, staying at its greatest value (the RC counters of the register maps). -/
def bumpRf (s : State) (r : RegName) (f : Fld) (n : Nat := 1) (i : Nat := 0) : State :=
  let top := 2 ^ (f.hi + 1 - f.lo) - 1
  setRf s r f (min top (rf s r f i + n)) i

/-- The number of an agent's own selections (R487): the host, each Mantle core, each cell thread. -/
def agentIdx : Agent → Nat
  | .host => 0
  | .mantle c _ => 1 + c.val
  | .thread t => if t.val < 6144 then 16 + t.val else 1 + (t.val - 6144) / 4

/-- An agent's copy of a select register. -/
def selWord (s : State) (a : Agent) (r : RegName) : Word := tget (regReset r) s.sel (regKey r (agentIdx a))

/-- An agent's copy of a select register replaced. -/
def setSel (s : State) (a : Agent) (r : RegName) (v : Word) : State :=
  { s with sel := tset (regReset r) s.sel (regKey r (agentIdx a)) v }

/-- An agent's selection. -/
def selF (s : State) (a : Agent) (r : RegName) (f : Fld) : Nat := fget (selWord s a r) f

/-- The level of an agent's access (R490): none for the host. -/
def agentLevel (s : State) : Agent → BitVec 2
  | .host => 2
  | .mantle c j => (thread s (tidOf (768 + c.val) j.val)).level
  | .thread t => (thread s t).level

/-- Whether the agent is the Mantle: one of its cores. -/
def agentMantle : Agent → Bool
  | .host => false
  | .mantle _ _ => true
  | .thread t => decide (6144 ≤ t.val)

/-- The Mantle or the host through BAR0. -/
def agentTrusted (a : Agent) : Bool := decide (a = .host) || agentMantle a

/-- The agent a thread is. -/
def agentOfTid (t : Tid) : Agent :=
  if t.val < 6144 then .thread t else .mantle (Fin.ofNat 4 ((t.val - 6144) / 4)) (Fin.ofNat 4 ((t.val - 6144) % 4))

/-- The trusted agents, and a cell thread at a level or above (R488). -/
def agentAtLeast (s : State) (a : Agent) (l : BitVec 2) : Bool := agentTrusted a || decide (l ≤ agentLevel s a)

/-- The agent code of R490 for the three kinds of MMIO agent. -/
def agentCode (s : State) : Agent → Word
  | .host => 0
  | .mantle c j => pack [(0, 1), (4, (agentLevel s (.mantle c j)).toNat), (8, c.val), (16, j.val)]
  | .thread t =>
    if t.val < 6144 then
      pack [(0, 2), (4, (thread s t).level.toNat), (8, cellOf t / 8), (16, cellOf t % 8), (19, thrOf t)]
    else pack [(0, 1), (4, (thread s t).level.toNat), (8, cellOf t - 768), (16, thrOf t)]

/-! ## Errors and events -/

/-- The class that R456 gives a cause; the two that depend on the occurrence take the class named by the caller. -/
def causeClass (c : BitVec 8) : BitVec 2 :=
  let n := c.toNat
  if [0x10, 0x12, 0x20, 0x30, 0x32, 0x33, 0x38, 0x40, 0x54, 0x82].contains n then 0
  else if [0x02, 0x11, 0x13, 0x14, 0x21, 0x34, 0x36, 0x41, 0x50, 0x51, 0x52, 0x80, 0x83].contains n then 1
  else if [0x31, 0x37, 0x39, 0x71, 0x72, 0x81].contains n then 2
  else 3

/-- The level that R456 gives a cause. -/
def causeLevel (c : BitVec 8) : BitVec 2 :=
  let n := c.toNat
  if [0x02, 0x10, 0x11, 0x12, 0x13, 0x14].contains n then 0
  else if [0x15, 0x20, 0x21, 0x22].contains n then 1
  else if [0x32, 0x33, 0x34, 0x35, 0x36, 0x37, 0x38, 0x39].contains n then 2
  else 3

/-- An error record with the class and level of its cause. -/
def mkErr (cause : BitVec 8) (unit inst sub : Nat) (addr : Word := 0) (d0 : Word := 0) (d1 : Word := 0) (d2 : Word := 0) : ErrRec :=
  { cause := cause, cls := causeClass cause, level := causeLevel cause, unit := BitVec.ofNat 8 unit,
    inst := BitVec.ofNat 8 inst, sub := BitVec.ofNat 8 sub, addr := addr, d0 := d0, d1 := d1, d2 := d2 }

/-- An error or event detected: it waits for acceptance (R460). -/
def report (s : State) (r : ErrRec) : State := { s with err := { s.err with detected := s.err.detected ++ [r] } }

/-- A record that a thread causes names its cell, site and thread (R492). -/
def reportThread (s : State) (t : Tid) (cause : BitVec 8) (addr : Word) (d0 : Word := 0) (d1 : Word := 0) (d2 : Word := 0) : State :=
  let c := cellOf t
  let r := if isMantle c then mkErr cause 1 0 (cell s c).site.toNat addr d0 d1 d2
    else mkErr cause 0x20 (c / 8) (cell s c).site.toNat addr d0 d1 d2
  report s { r with threadV := true, thread := BitVec.ofNat 3 (thrOf t) }

/-- The number of the MMIO unit that holds an offset, in the order of R81. -/
def unitOf (off : Nat) : Nat :=
  if off < 0x010000 then 0 else if off < 0x020000 then 1 else if off < 0x100000 then 2
  else if off < 0x110000 then 3 else if off < 0x120000 then 4 else if off < 0x130000 then 5
  else if off < 0x200000 then 6 else if off < 0x300000 then 7 else if off < 0x400000 then 8
  else if off < 0x500000 then 9 else if off < 0x600000 then 10 else if off < 0x700000 then 11
  else if off < 0x800000 then 12 else if off < 0x900000 then 13 else if off < 0xA00000 then 14
  else if off < 0xB00000 then 15 else if off < 0xC00000 then 16 else 0xFF

/-- The base of the MMIO range (R78). -/
def mmioBase : Nat := 0x20000000000

/-- An access error (R9, R82): the access is discarded or reads zero, and is recorded. -/
def accessError (s : State) (a : Agent) (off : Nat) : State :=
  report s (mkErr 0x01 (unitOf off) 0 0 (wd (mmioBase + off)) (agentCode s a))

/-- The same of a host access through another BAR (R490). -/
def accessErrorBar (s : State) (bar off : Nat) : State :=
  report s (mkErr 0x01 (unitOf off) 0 0 (wd (mmioBase + off)) (pack [(8, bar)]))

/-- Whether a register offset is served in the short state (stage 10) or under the recovery image (stage 11) (R415, R421). -/
def mmioServed (stage off : Nat) : Bool :=
  (decide (0xB00000 ≤ off) && decide (off < 0xC00000))
    || [0x000, 0x010, 0x100, 0x108, 0x110, 0x118, 0x300].contains (off / 8 * 8)
    || (decide (0x8000 ≤ off) && decide (off < 0x9020))
    || (decide (stage = 10) && ((decide (0x10000 ≤ off) && decide (off < 0x10030)) || (decide (0x11000 ≤ off) && decide (off < 0x12000))))

/-- Whether it accepts writes there (R421). -/
def mmioAccepts (stage off : Nat) : Bool :=
  mmioServed stage off && !([0x000, 0x100, 0x110, 0x118, 0x300].contains (off / 8 * 8))

/-- A register write as far as the part's state admits it: none once the part has stopped (R448); in the short state others than those of R421 are discarded and recorded, under the recovery image discarded (R415). -/
def mmioGate (s : State) (a : Agent) (off : Nat) (f : State → State) : State :=
  let stage := rf s .devBoot F.devBootStage
  if s.power.down then s
  else if stage = 10 ∧ mmioAccepts stage off = false then accessError s a off
  else if stage = 11 ∧ mmioAccepts stage off = false then s
  else f s

/-- Whether a push of an agent is held in the fabric: the agent's later MMIO accesses wait behind it (R45, R264, R349). -/
def agentHeld (s : State) (a : Agent) : Bool :=
  s.tasks.held.any (fun p => decide (p.agent = some a)) || s.lining.any (fun p => p.2.held.any (fun e => decide (e.agent = some a)))

/-- Whether an agent is a thread that runs a SPEC task. -/
def agentSpec (s : State) : Agent → Bool
  | .host => false
  | .mantle _ _ => false
  | .thread t => (thread s t).spec.isSome

/-- Whether an MMIO offset is one of those a SPEC thread may write (R300): DMA_CHSEL and DMA_PI of the four units, LINING_STACKSEL and LINING_QPUSH. -/
def specMayWrite (off : Nat) : Bool :=
  let o := off / 8 * 8
  decide (o = (regPlace .liningStacksel).1) || decide (o = (regPlace .liningQpush).1)
    || [0x100000, 0x110000, 0x120000, 0x130000].any (fun b => decide (o = b) || decide (o = b + 0x10))

/-- Whether an agent's register access waits: behind its held push (R45, R264, R349), or, of a SPEC thread, for the verdict (R300). -/
def accessWaits (s : State) (a : Agent) (off : Nat) (wr : Bool) : Bool := agentHeld s a || (agentSpec s a && !(wr && specMayWrite off))

/-- A register write that a command names. One that must wait is not made: its agent presents it again (log 109). -/
def mmioCmd (s : State) (a : Agent) (off : Nat) (f : State → State) : State :=
  if accessWaits s a off true then s else mmioGate s a off f

/-- Whether a register read returns the register's value; otherwise zero. -/
def mmioReads (s : State) (off : Nat) : Bool :=
  let stage := rf s .devBoot F.devBootStage
  !s.power.down && (!(decide (stage = 10) || decide (stage = 11)) || mmioServed stage off)

/-! ## The physical address map (R78, R79) -/

/-- What a physical address reaches. -/
inductive Phys where
  | hbm
  | block (b : Nat) (off : Nat)
  | mmio (off : Nat)
  | window
  | hole
  deriving DecidableEq, Repr

/-- Ways of a region's blocks given to the region cache (R213). -/
def rcWays (s : State) (region : Nat) : Nat := bits (reg s .devBmcfg) (4 * region + 3) (4 * region)

/-- Bytes of scratch in a block of a region (R213). -/
def scratchSize (s : State) (region : Nat) : Nat := (12 - rcWays s region) * 0x400000

/-- What a physical address reaches (R78, R79, R213); the outbound range past the three windows is a hole (R377). -/
def physAt (s : State) (pa : Nat) : Phys :=
  if pa < 0xF000000000 then .hbm
  else if pa < 0x10000000000 then .hole
  else if pa < 0x10120000000 then
    let b := (pa - 0x10000000000) / 0x3000000
    let o := (pa - 0x10000000000) % 0x3000000
    if o < scratchSize s (b / 8) then .block b o else .hole
  else if pa < mmioBase then .hole
  else if pa < 0x20100000000 then .mmio (pa - mmioBase)
  else if pa < 0x40000000000 then .hole
  else if pa < 0x100000000000 then .window
  else .hole

/-- Whether an address is memory: HBM or block memory. -/
def isMemory (s : State) (pa : Nat) : Bool :=
  match physAt s pa with
  | .hbm => true
  | .block _ _ => true
  | _ => false

/-- Whether a physical address lies in HBM (R78). -/
def inHbm (pa : Nat) : Bool := decide (pa < 0xF000000000)

/-- The window an outbound address lies in (R377): 0 host, 1 and 2 the root ports. -/
def windowKind (pa : Nat) : Nat := if pa < 0x80000000000 then 0 else if pa < 0xC0000000000 then 1 else 2

/-- The bus address of an outbound host-window access (R377). -/
def hostBus (s : State) (pa : Nat) : Nat := rf s .devHostxlat F.devHostxlatBase * 2 ^ 42 + (pa - 0x40000000000)

/-- The root link whose space holds an address of a port window (R381): the upper link is absent while the port is unsplit. -/
def windowLink (s : State) (pa : Nat) : Nat :=
  let p := windowKind pa - 1
  let o := (pa - 0x80000000000) % 0x40000000000
  if rf s .rootLinkstat F.rootLinkstatState (2 * p + 1) = 5 || decide (o < 0x20000000000) then 2 * p else 2 * p + 1

/-- Whether a window address has a target now: the host, or a root link that is up and has taken its window (R380, R381). -/
def windowUp (s : State) (pa : Nat) : Bool :=
  if windowKind pa = 0 then true
  else decide (rf s .rootLinkstat F.rootLinkstatState (windowLink s pa) = 3) && s.links.claims.contains (windowLink s pa)

/-! ## HBM places (R243, R244) -/

/-- Where an HBM address lies. -/
structure HbmPlace where
  stack : Nat
  chan : Nat
  pc : Nat
  bank : Nat
  row : Nat
  lineRow : Nat
  burst : Nat
  deriving DecidableEq, Repr

/-- The place of a physical HBM address, for interleave granule g bytes (R243, R244). -/
def hbmPlace (g a : Nat) : HbmPlace :=
  let o := a / (12 * g) * g + a % g
  let l := o >>> 7
  let f (hi lo : Nat) : Nat := (l >>> lo) % 2 ^ (hi + 1 - lo)
  { stack := a / g % 12, chan := f 4 0 ^^^ f 19 15, pc := f 5 5 ^^^ f 20 20, lineRow := f 8 6,
    bank := f 14 9 ^^^ f 26 21, row := l >>> 15, burst := (o >>> 5) % 4 }

/-- The die of an address: 0 W, 1 E, 2 IO (R2, R78). -/
def dieOf (s : State) (pa : Nat) : Nat :=
  match physAt s pa with
  | .hbm => if (hbmPlace s.ms.gran pa).stack < 6 then 0 else 1
  | .block b _ => if b < 48 then 0 else 1
  | .mmio _ => 2
  | .window => 2
  | .hole => 2

/-- The die of a core, or of an engine that translates (the regions' DMA engines from 1004 on, the stacks' walkers from 2000 on): the Mantle, the collective engine and the DMA engines of the links are on the IO die. -/
def dieOfCore (c : Nat) : Nat :=
  if c < 384 then 0 else if c < 768 then 1
  else if c < 1004 then 2 else if c < 1010 then 0 else if c < 1016 then 1
  else if c < 2000 then 2 else if c < 2006 then 0 else 1

/-- Whether a request between two dies would cross a link that is out of service (R457). -/
def crossDead (s : State) (a b : Nat) : Bool :=
  !s.links.dead.isEmpty && decide (a ≠ b)
    && s.links.dead.contains (if a + b = 1 then .wToE else if a = 0 || b = 0 then .wToIo else .eToIo)

/-- The key of a channel's registers. -/
def chKey (stack ch : Nat) : Nat := stack * 32 + ch

/-- A tick of the always-on clock (R20): every local counter of a region and of the IO die counts one (R465, log 2). -/
def tick (s : State) : State := { s with lc := s.lc.map (fun c => c + 1) }

end Sys2Proof.Machine
end

