-- ==== Sys2Proof/Machine/Mem.lean ====
section
/-! DEFINITION. Memory at its homes: bytes, lines, poison, latent errors, the region caches and the DRAM behind them (R211–R221, R247–R249). -/

namespace Sys2Proof.Machine

/-- n bytes of a byte memory from an address, as a little-endian number; an unlisted byte reads 0 (R214, R412). -/
def rdMem (m : List Host.Cell) (base n : Nat) : Nat :=
  m.foldl (fun acc p => if base ≤ p.1 ∧ p.1 < base + n then acc ||| (p.2.toNat <<< (8 * (p.1 - base))) else acc) 0

/-- A byte of memory. -/
def memByte (m : List Host.Cell) (a : Nat) : Byte := tget 0#8 m a

/-- Bytes written to memory in order; the canonical form lists no zero byte. -/
def wrMem (m : List Host.Cell) : Nat → List Byte → List Host.Cell
  | _, [] => m
  | a, b :: t => wrMem (tset 0#8 m a b) (a + 1) t

/-- The canonical form of memory: addresses strictly rising, no byte equal to what an unlisted address reads as. -/
def Memory.wf (m : List Host.Cell) : Bool := tcanon 0#8 m

/-- Address of the first byte of a line. -/
def lineBase (l : Nat) : Nat := 128 * l

/-- Whether a line is one of HBM. -/
def lineHbm (l : Nat) : Bool := decide (lineBase l < 0xF000000000)

/-- Word marks from the four burst flags of a line (R249). -/
def burstsToWords (b : BitVec 4) : BitVec 16 :=
  BitVec.ofNat 16 ((List.range 4).foldl (fun a i => if bit b i then a ||| (15 <<< (4 * i)) else a) 0)

/-- Burst flags from the word marks of a line (R249). -/
def wordsToBursts (w : BitVec 16) : BitVec 4 :=
  BitVec.ofNat 4 ((List.range 4).foldl (fun a i => if bits w (4 * i + 3) (4 * i) = 0 then a else a ||| (1 <<< i)) 0)

/-- The channel of an HBM line is failed (R247). -/
def chanDead (s : State) (l : Nat) : Bool :=
  let p := hbmPlace s.ms.gran (lineBase l)
  lineHbm l && decide (rf s .hbmChstat F.hbmChstatState (chKey p.stack p.chan) = 3)

/-- The channel of an HBM line is failed, or its stack is in MAINT, which answers all but the engines as a failed channel (R247, R258). -/
def lineDead (s : State) (l : Nat) : Bool :=
  let p := hbmPlace s.ms.gran (lineBase l)
  chanDead s l || (lineHbm l && decide (rf s .hbmStkstat F.hbmStkstatState p.stack = 3))

/-- The free line of a channel that a generator run has destroyed (R258), else zero. -/
def junkMask (s : State) (l : Nat) : BitVec 1024 :=
  if s.ms.junk.isEmpty || !lineHbm l then 0
  else
    let p := hbmPlace s.ms.gran (lineBase l)
    match tget? s.ms.junk (chKey p.stack p.chan) with
    | some n => Config.freeLine n l
    | none => 0

/-- A line as the DRAM or the block-memory bank holds it; dead: the line's channel does not answer. -/
def storedLineIf (dead : Bool) (s : State) (l : Nat) : Line :=
  if dead then { data := 0, poison := 0xFFFF }
  else { data := BitVec.ofNat 1024 (rdMem s.ms.mem (lineBase l) 128) ^^^ junkMask s l,
         poison := if lineHbm l then burstsToWords (tget 0 s.ms.hbmPoison l) else tget 0 s.ms.bmPoison l }

/-- A line as every agent but the lining engines finds it stored. -/
def storedLine (s : State) (l : Nat) : Line := storedLineIf (lineDead s l) s l

/-! ## The region caches' ways (R220) -/

/-- The set that a line goes to: its slice by address bits 9:7 and 17:15, its place in the slice by bits 24:10, of which 14:10 are the bank (DESIGN CHOICE for 24:15, log 10). -/
def rcKey (s : State) (l : Nat) : Nat :=
  let a := lineBase l
  (8 * (hbmPlace s.ms.gran a).stack + ((a >>> 7) % 8 ^^^ (a >>> 15) % 8)) * 32768 + (a >>> 10) % 32768

/-- The ways that a line's region gives its cache. -/
def rcWaysOf (s : State) (l : Nat) : Nat := rcWays s (hbmPlace s.ms.gran (lineBase l)).stack

/-- The tree pseudo-LRU victim of seven bits (R223). -/
def treeVictim (b : BitVec 7) : Nat :=
  let x := (List.range 3).foldl (fun x _ => 2 * x + 1 + (bit b x).toNat) 0
  x - 7

/-- The seven bits after a touch of way w (R223): each node on the path points away from it. -/
def treeTouch (b : BitVec 7) (w : Nat) : BitVec 7 :=
  ((List.range 3).foldl (fun (p : BitVec 7 × Nat) _ =>
    let q := (p.2 - 1) / 2
    (setBit p.1 q (decide (p.2 = 2 * q + 1)), q)) (b, w + 7)).1

/-- The victim in a set of k ways: a side of the tree without ways is passed by (DESIGN CHOICE, log 10). -/
def treeVictimIn (k : Nat) (b : BitVec 7) : Nat :=
  ([4, 2, 1].foldl (fun (p : Nat × Nat) h => if bit b p.1 && decide (p.2 + h < k) then (2 * p.1 + 2, p.2 + h) else (2 * p.1 + 1, p.2)) (0, 0)).2

/-- Whether a line stands in a way of its region's cache; those of a dead channel are not served from there (log 10). -/
def rcHit (s : State) (l : Nat) : Bool :=
  lineHbm l && !lineDead s l && (tget {} s.ms.rcSets (rcKey s l)).ways.contains (some l)

/-- A line accessed at its home takes a way, if it has none: a free one, else that of the line which the tree points at, whose write back then waits if it is dirty (R220). -/
def rcTouch (s : State) (l : Nat) : State :=
  let k := rcWaysOf s l
  if !lineHbm l || lineDead s l || k = 0 then s
  else
    let key := rcKey s l
    let x := tget {} s.ms.rcSets key
    let w := (x.ways.findIdx? (fun o => decide (o = some l))).getD
      (((List.range k).find? (fun w => (x.ways.getD w none).isNone)).getD (treeVictimIn k x.tree))
    let old := x.ways.getD w none
    let ways := (List.range k).map (fun i => if i = w then some l else x.ways.getD i none)
    let out := s.ms.rcOut.filter (fun o => decide (o ≠ l))
    let out := match old with
      | some o => if o ≠ l ∧ (tget? s.ms.rc o).isSome then out ++ [o] else out
      | none => out
    { s with ms := { s.ms with rcSets := tset {} s.ms.rcSets key { ways := ways, tree := treeTouch x.tree w }, rcOut := out } }

/-- A line's way given up. -/
def rcDrop (s : State) (l : Nat) : State :=
  let x := tget {} s.ms.rcSets (rcKey s l)
  { s with ms := { s.ms with rcSets := tset {} s.ms.rcSets (rcKey s l) { x with ways := x.ways.map (fun o => if o = some l then none else o) } } }

/-- A line as its home serves it: a dirty line of the region cache, else the stored line (R220); a dead channel's lines are not served from the cache (R247, R258, log 10). -/
def homeLine (s : State) (l : Nat) : Line := if lineDead s l then storedLine s l else (tget? s.ms.rc l).getD (storedLine s l)

/-- A line stored in DRAM or block memory whole; a dead channel discards it (R247). -/
def storeLineIf (dead : Bool) (s : State) (l : Nat) (x : Line) : State :=
  if dead then s
  else
    let ms := s.ms
    let m := wrMem ms.mem (lineBase l) (leBytes (x.data ^^^ junkMask s l).toNat 128)
    if lineHbm l then { s with ms := { ms with mem := m, hbmPoison := tset 0 ms.hbmPoison l (wordsToBursts x.poison) } }
    else { s with ms := { ms with mem := m, bmPoison := tset 0 ms.bmPoison l x.poison } }

/-- A line stored by every agent but the lining engines. -/
def storeLine (s : State) (l : Nat) (x : Line) : State := storeLineIf (lineDead s l) s l x

/-- A read or write that reaches a dead channel is recorded (R247). -/
def touchDeadIf (dead : Bool) (s : State) (l : Nat) : State :=
  if dead then
    let p := hbmPlace s.ms.gran (lineBase l)
    report s { mkErr 0x34 7 p.stack p.chan (wd (lineBase l)) with level := 3 }
  else s

/-- An access of any agent but the lining engines that reaches a dead channel is recorded. -/
def touchDead (s : State) (l : Nat) : State := touchDeadIf (lineDead s l) s l

/-- A dirty line of a region cache written back with its marks (R220, R249); a dead channel discards it, on record (R247, R258). -/
def writeBack (s : State) (l : Nat) : State :=
  match tget? s.ms.rc l with
  | none => s
  | some x => let s := storeLine (touchDead s l) l x; { s with ms := { s.ms with rc := tdel l s.ms.rc } }

/-- Bytes laid over a line at an offset: a write that covers a word sets or clears its mark, a narrower one leaves it or sets it (R217, R249). -/
def overlay (x : Line) (off : Nat) (bs : List Byte) (mark : Bool) : Line :=
  let n := bs.length
  let msk := (2 ^ (8 * n) - 1) <<< (8 * off)
  let d := (x.data &&& ~~~(BitVec.ofNat 1024 msk)) ||| BitVec.ofNat 1024 (ofLE bs <<< (8 * off))
  let p := (List.range 16).foldl (fun (p : BitVec 16) i =>
    let touched := decide (off < 8 * i + 8) && decide (8 * i < off + n)
    let whole := decide (off ≤ 8 * i) && decide (8 * i + 8 ≤ off + n)
    if touched && mark then setBit p i true else if whole then setBit p i false else p) x.poison
  { data := d, poison := p }

/-- The bytes of a line at an offset. -/
def lineBytes (x : Line) (off n : Nat) : List Byte := leBytes (x.data.toNat >>> (8 * off)) n

/-- Whether a word of the line under these bytes is poisoned. -/
def linePoison (x : Line) (off n : Nat) : Bool :=
  (List.range 16).any (fun i => decide (off < 8 * i + 8) && decide (8 * i < off + n) && bit x.poison i)

/-- The first poisoned word of the line under these bytes, as a byte offset. -/
def linePoisonAt (x : Line) (off n : Nat) : Nat :=
  8 * ((List.range 16).find? (fun i => decide (off < 8 * i + 8) && decide (8 * i < off + n) && bit x.poison i)).getD 0

/-- A run of bytes cut at line boundaries: (line, offset, bytes). -/
def cutLines (pa : Nat) (bs : List Byte) : List (Nat × Nat × List Byte) :=
  let first := 128 - pa % 128
  let n := bs.length
  if n ≤ first then [(pa / 128, pa % 128, bs)]
  else (pa / 128, pa % 128, bs.take first) ::
    (List.range ((n - first + 127) / 128)).map (fun i => (pa / 128 + 1 + i, 0, (bs.drop (first + 128 * i)).take 128))

/-! ## Latent errors (R464): an injected error is found by the next read of its word or burst -/

/-- Where block-memory words lie: block, bank and row (R211). A way's 128 KiB in a bank is 1,024 lines. -/
def bmPlace (pa : Nat) : Nat × Nat × Nat :=
  let o := (pa - 0x10000000000) % 0x3000000
  ((pa - 0x10000000000) / 0x3000000, (o >>> 7) % 32, o >>> 15)

/-- A row in which an error has been found (R219, R250): its spare is due when the error calls for it at once or is the second in the present scrub pass. -/
def noteRow (s : State) (key row : Nat) (atOnce : Bool) : State :=
  let put (t : Table (List Nat)) : Table (List Nat) := tset [] t key (row :: (tget [] t key).filter (fun r => decide (r ≠ row)))
  if atOnce || (tget [] s.err.ceRows key).contains row then { s with err := { s.err with due := put s.err.due } }
  else { s with err := { s.err with ceRows := put s.err.ceRows } }

/-- A scrub pass ended: its corrected errors count no further. -/
def passEnded (s : State) (key : Nat) : State := { s with err := { s.err with ceRows := tdel key s.err.ceRows } }

/-- Whether a row's replacement is due. -/
def rowDue (s : State) (key row : Nat) : Bool := (tget [] s.err.due key).contains row

/-- A due row dealt with. -/
def rowDone (s : State) (key row : Nat) : State :=
  { s with err := { s.err with due := tset [] s.err.due key ((tget [] s.err.due key).filter (fun r => decide (r ≠ row))) } }

/-- The key of a block-memory bank's rows, and a row of a stack's channel as one number. -/
def bmRowKey (b bank : Nat) : Nat := 1000 + b * 32 + bank
def hbmRow (pc bank row : Nat) : Nat := (pc * 64 + bank) * 20480 + row

/-- An error that a read of a word finds: a single one is corrected and recorded, a double one poisons (R216, R217, R248). -/
def touchLatent (s : State) (l : Nat) (i : Nat) : State :=
  match tget? s.err.latent (16 * l + i) with
  | none => s
  | some k =>
    let pa := lineBase l + 8 * i
    let s := { s with err := { s.err with latent := tdel (16 * l + i) s.err.latent } }
    if lineHbm l then
      let p := hbmPlace s.ms.gran pa
      let burst := pa / 32 * 32
      let s := noteRow s (chKey p.stack p.chan) (hbmRow p.pc p.bank p.row) (decide (k ≠ 1))
      if k = 1 then
        report (bumpRf s .hbmChstat F.hbmChstatCe 1 (chKey p.stack p.chan))
          (mkErr 0x32 7 p.stack p.chan (wd burst) (pack [(0, p.chan), (8, 0xFF)]))
      else
        let f := tget 0 s.ms.hbmPoison l
        let s := { s with ms := { s.ms with hbmPoison := tset 0 s.ms.hbmPoison l (setBit f p.burst true) } }
        report s (mkErr 0x34 7 p.stack p.chan (wd burst))
    else
      let p := bmPlace pa
      let s := noteRow s (bmRowKey p.1 p.2.1) p.2.2 (decide (k ≠ 1))
      if k = 1 then report s (mkErr 0x20 0x21 p.1 p.2.1 (wd pa))
      else
        let f := tget 0 s.ms.bmPoison l
        let s := { s with ms := { s.ms with bmPoison := tset 0 s.ms.bmPoison l (setBit f i true) } }
        report s (mkErr 0x21 0x21 p.1 p.2.1 (wd pa))

/-- The latent errors of a line that a read of its stored copy meets. A line held in the region cache is not read from the stack. -/
def touchLine (s : State) (l : Nat) : State :=
  if s.err.latent.isEmpty || (tget? s.ms.rc l).isSome || rcHit s l then s
  else (List.range 16).foldl (fun s i => touchLatent s l i) s

/-- A line read at its home, with what the read finds on the way; a line of HBM is allocated in the region cache (R220). -/
def readLine (s : State) (l : Nat) : Line × State :=
  let s := touchDead (touchLine s l) l
  (homeLine s l, rcTouch s l)

/-- Bytes read at their home: with the address of the first poisoned word under them, if any. -/
def homeRead (s : State) (pa n : Nat) : (List Byte × Option Nat) × State :=
  (cutLines pa (List.replicate n 0)).foldl
    (fun (acc : (List Byte × Option Nat) × State) (c : Nat × Nat × List Byte) =>
      let (x, s) := readLine acc.2 c.1
      let k := c.2.2.length
      let bad := if linePoison x c.2.1 k then some (lineBase c.1 + linePoisonAt x c.2.1 k) else none
      ((acc.1.1 ++ lineBytes x c.2.1 k, acc.1.2.or bad), s)) (([], none), s)

/-- A latent error whose word a write covers is gone with the word. -/
def dropLatent (s : State) (l off n : Nat) : State :=
  if s.err.latent.isEmpty then s
  else (List.range 16).foldl (fun s i =>
    if off ≤ 8 * i ∧ 8 * i + 8 ≤ off + n then { s with err := { s.err with latent := tdel (16 * l + i) s.err.latent } } else s) s

/-- The injected error that a write to the armed word stores with it (R464): in HBM the line leaves the region cache, so that the burst holds it (log 10). -/
def storeInjected (s : State) (l off n : Nat) : State :=
  let w := reg s .errInj
  let pa := 8 * fget w F.errInjAddr
  if s.err.armed && decide (lineBase l + off < pa + 8) && decide (pa < lineBase l + off + n) then
    let s := { s with err := { s.err with armed := false, latent := tins (pa / 8) (1 + fget w F.errInjKind) s.err.latent } }
    setRf (rcDrop (writeBack s l) l) .errInj F.errInjGo 0
  else s

/-- A line as a requester on a die finds it at its home: poisoned when a dead link lies between (R457). -/
def readLineFrom (s : State) (d l : Nat) : Line × State :=
  if crossDead s d (dieOf s (lineBase l)) then ({ data := 0, poison := 0xFFFF }, s) else readLine s l

/-- Bytes read at their home by a requester on a die (R457). -/
def homeReadFrom (s : State) (d pa n : Nat) : (List Byte × Option Nat) × State :=
  if crossDead s d (dieOf s pa) then ((List.replicate n 0, some (pa / 8 * 8)), s) else homeRead s pa n

/-- Bytes written within one line at its home: an HBM line is allocated dirty in the region cache, a block-memory word goes to its bank (R217, R220). -/
def homeWriteLine (s : State) (l off : Nat) (bs : List Byte) (mark : Bool) : State :=
  if lineDead s l then touchDead s l
  else
    let s := if lineHbm l && decide (bs.length < 128) then touchLine s l else s
    let x := overlay (homeLine s l) off bs mark
    let s := if lineHbm l then { s with ms := { s.ms with rc := tins l x s.ms.rc } } else storeLine s l x
    storeInjected (dropLatent (rcTouch s l) l off bs.length) l off bs.length

/-- Bytes written at their home. -/
def homeWrite (s : State) (pa : Nat) (bs : List Byte) (mark : Bool := false) : State :=
  if bs.isEmpty then s
  else (cutLines pa bs).foldl (fun s c => homeWriteLine s c.1 c.2.1 c.2.2 mark) s

/-- Bytes written at their home by a requester on a die: a request that a dead link would carry does not arrive (R457). -/
def homeWriteFrom (s : State) (d pa : Nat) (bs : List Byte) (mark : Bool := false) : State :=
  if crossDead s d (dieOf s pa) then s else homeWrite s pa bs mark

/-- A line read from DRAM by a lining engine, past the region cache (R221). -/
def dramLine (s : State) (l : Nat) : Line × State :=
  let s := touchDeadIf (chanDead s l) ((List.range 16).foldl (fun s i => touchLatent s l i) s) l
  (storedLineIf (chanDead s l) s l, s)

/-- A line stored to DRAM by a lining engine, past the region cache (R221); n bytes at an offset are new. -/
def dramStore (s : State) (l off n : Nat) (x : Line) : State :=
  storeInjected (dropLatent (storeLineIf (chanDead s l) (touchDeadIf (chanDead s l) s l) l x) l off n) l off n

/-- Dirty lines of the region caches within a range written back (R221). -/
def writeBackRange (s : State) (pa n : Nat) : State :=
  (s.ms.rc.filter (fun p => decide (pa < lineBase p.1 + 128) && decide (lineBase p.1 < pa + n))).foldl
    (fun s p => writeBack s p.1) s

/-- Lines of the region caches within a range dropped (R221). -/
def rcInvalidateRange (s : State) (pa n : Nat) : State :=
  let within (l : Nat) : Bool := decide (pa < lineBase l + 128) && decide (lineBase l < pa + n)
  { s with ms := { s.ms with
      rc := s.ms.rc.filter (fun p => !within p.1), rcOut := s.ms.rcOut.filter (fun l => !within l),
      rcSets := s.ms.rcSets.map (fun p => (p.1, { p.2 with ways := p.2.ways.map (fun o => if o.any within then none else o) })) } }

/-- The bank an HBM line lies in, as one number (R230, R244). -/
def bankOf (s : State) (l : Nat) : Nat :=
  let p := hbmPlace s.ms.gran (lineBase l)
  ((p.stack * 32 + p.chan) * 2 + p.pc) * 64 + p.bank

/-- The replaced lines of a DRAM bank written back (R220). -/
def rcDrain (s : State) (bank : Nat) : State :=
  let s := (s.ms.rcOut.filter (fun l => decide (bankOf s l = bank))).foldl writeBack s
  { s with ms := { s.ms with rcOut := s.ms.rcOut.filter (fun l => decide (bankOf s l ≠ bank)) } }

end Sys2Proof.Machine
end

