-- ==== Sys2Proof/Machine/Perf.lean ====
section
/-! DEFINITION. Region clocks (R18, R23), MSI-X posts (R375), wakes and interrupt posts (R22, R70), performance counters and deadlines (R465–R476). -/

namespace Sys2Proof.Machine

/-- The MSI-X mask bit of a vector: set at reset (R375). -/
def msixWord (s : State) (k : Nat) : Word := tget (if k % 2 = 1 then 0x100000000#64 else 0#64) s.msix k

/-- Whether a vector is masked: its own mask, or Function Mask (R375). -/
def msixMasked (s : State) (vec : Nat) : Bool := s.msixMask || bit (msixWord s (2 * vec + 1)) 32

/-- A vector's message leaves. -/
def msixOut (s : State) (vec : Nat) : State :=
  emit s (.msix (BitVec.ofNat 8 vec) (msixWord s (2 * vec)) (wd (bits (msixWord s (2 * vec + 1)) 31 0)))

/-- A post to an MSI-X vector (R375): dropped while MSI-X is not enabled, kept in the PBA while masked, merged while pending; else its message is due. -/
def msixPost (s : State) (vec : Nat) : State :=
  if !s.msixEn || s.msixDue.contains vec || bit s.pba vec then s
  else if msixMasked s vec then { s with pba := setBit s.pba vec true }
  else { s with msixDue := s.msixDue ++ [vec] }

/-- The message of a vector whose PBA bit is set leaves once nothing masks it (R375). -/
def msixFlush (s : State) (vec : Nat) : State :=
  if s.msixEn && bit s.pba vec && !msixMasked s vec then msixOut { s with pba := setBit s.pba vec false } vec else s

/-- The message of a vector that is due leaves; one masked meanwhile is kept in the PBA, one of MSI-X disabled meanwhile is dropped (R375). -/
def msixSend (s : State) (vec : Nat) : State :=
  if !s.msixDue.contains vec then msixFlush s vec
  else
    let s := { s with msixDue := s.msixDue.filter (fun v => decide (v ≠ vec)) }
    if !s.msixEn then s
    else if msixMasked s vec then { s with pba := setBit s.pba vec true }
    else msixOut s vec

/-- Whether a cell's region is clocked (R23); the Mantle is always clocked. -/
def clocked (s : State) (c : Nat) : Bool := isMantle c || bit (reg s .devClk) (16 + regionOf c)

/-- A bit of a DEV_CLK field. -/
def clkBit (s : State) (f : Fld) (r : Nat) : Bool := (rf s .devClk f).testBit r
def setClkBit (s : State) (f : Fld) (r : Nat) (b : Bool) : State :=
  let v := rf s .devClk f
  setRf s .devClk f (if b then v ||| (1 <<< r) else v &&& (0xFFF - (1 <<< r)))

/-- A region's PLL set starting, unless it runs, starts, switches or is stopped for good. -/
def pllGo (s : State) (r : Nat) : State :=
  if clkBit s F.devClkRunning r || clkBit s F.devClkStopped r || s.clk.starting.contains r || s.clk.switching.contains r then s
  else { s with clk := { s.clk with starting := r :: s.clk.starting } }

/-- A wake event for a cell (R22): a cell that runs needs none; a region whose PLL is stopped starts it (R23). -/
def wakeCell (s : State) (c : Nat) : State :=
  if (cell s c).power = .run then s
  else
    let s := if clocked s c then s else pllGo s (regionOf c)
    modCell s c (fun x => { x with wakeReq := true })

/-- Whether an upd.* of a thread waits for the hem, as on a peg (R307). -/
def hemWaits (th : Thread) : Bool :=
  th.vq.any (fun e => !e.resolved && e.at'.isSome && (match e.instr with | .updSgdm _ _ => true | .updAdamw _ _ => true | .updLion _ _ => true | _ => false))

/-- The cells in which an upd.* waits for the hem are woken: it has entered UPDATE or INPLACE (R20, R307). -/
def wakeHemWaiters (s : State) : State :=
  (List.range 772).foldl (fun s c => if (tidsOf c).any (fun t => hemWaits (thread s t)) then wakeCell s c else s) s

/-- An interrupt posted to a thread: its pending bit is set and its cell wakes (R22, R70). -/
def postInt (s : State) (t : Tid) (n : Nat) : State :=
  wakeCell (modThread s t (fun th => { th with pend := setBit th.pend n true })) (cellOf t)

/-- The instance key of a performance counter: eight per cell site (R470). -/
def perfKey (s : State) (c j : Nat) : Nat := ((c / 8) * 9 + (cell s c).site.toNat) * 8 + j

/-- Whether a counter counts an event charged to a thread (R471, R473, R475); none counts while its cell is gated (R470). -/
def perfCounts (s : State) (c j ev : Nat) (thr : Option Nat) : Bool :=
  let w := reg s .perfEvt (perfKey s c j)
  decide ((cell s c).power = .run) && decide (rf s .perfCfg F.perfCfgFreeze = 0) && decide (fget w F.perfEvtEn = 1) && decide (fget w F.perfEvtEvent = ev)
    && (match thr with | some t => bit w (8 + t) | none => true)

/-- A counter that counts: it stops at its largest value and sets OVF (R474). -/
def perfBump (s : State) (c j n : Nat) : State :=
  let k := perfKey s c j
  let old := rf s .perfCnt F.perfCntCount k
  let top := 2 ^ 48 - 1
  if old = top then setRf s .perfEvt F.perfEvtOvf 1 k
  else
    let s := setRf s .perfCnt F.perfCntCount (min top (old + n)) k
    if old + n < top then s
    else
      let w := reg s .perfEvt k
      let s := setRf s .perfEvt F.perfEvtOvf 1 k
      if fget w F.perfEvtInten = 0 then s
      else
        let s := emit s (.mantle "counter" (wd k))
        if rf s .perfCfg F.perfCfgMsixEn = 1 then msixPost s (rf s .perfCfg F.perfCfgVec) else s

/-- An event counted at a cell, n times, charged to a thread or to none (R471–R473). -/
def perfEvent (s : State) (c : Nat) (ev : Nat) (thr : Option Nat) (n : Nat := 1) : State :=
  if isMantle c || n = 0 then s
  else (List.range 8).foldl (fun s j => if perfCounts s c j ev thr then perfBump s c j n else s) s

/-- The code of a stall of engine e by cause k (R471). -/
def stallCode (e k : Nat) : Nat := 0x80 + 16 * e + k

/-- The local counter of a region, 12 for the IO die (R465). -/
def lcount (s : State) (n : Nat) : Word := s.lc.getD n 0

/-- The local counter a thread reads as LCOUNT: its region's, the IO die's on a Mantle core (R466). -/
def lcountOf (s : State) (t : Tid) : Word := lcount s (if isMantle (cellOf t) then 12 else regionOf (cellOf t))

/-- COUNTER_OVERFLOW (R474): the counter's largest value is reached by its next event. -/
def execCounterOverflow (c : Cid) (j : Fin 8) (s : State) : Host.Outcome State Fault Refusal :=
  let k := perfKey s c.val j.val
  let w := reg s .perfEvt k
  .next (if !isMantle c.val && decide ((cell s c.val).power = .run) && decide (fget w F.perfEvtEn = 1) && decide (rf s .perfCfg F.perfCfgFreeze = 0)
            && decide (fget w F.perfEvtEvent ≠ 0) && decide (rf s .perfCnt F.perfCntCount k ≥ 2 ^ 48 - 2)
         then perfBump s c.val j.val 1 else s)

/-- DEADLINE_FIRE (R468): the armed count is reached, interrupt 12 is posted, the deadline disarms. -/
def execDeadlineFire (t : Tid) (s : State) : Host.Outcome State Fault Refusal :=
  let d := (thread s t).deadline
  .next (if d ≠ 0 && decide (d ≤ lcountOf s t) then
      postInt (modThread s t (fun th => { th with deadline := 0 })) t 12
    else s)

end Sys2Proof.Machine
end

