-- ==== Sys2Proof/Machine/Stack.lean ====
section
/-! DEFINITION. What a request meets on its way to its home: the region's clock (R18, R23), the channel's retrain (R246), the bandwidth regulator (R255), the bank queue (R257). -/

namespace Sys2Proof.Machine

/-! ## A region's crossing (R18, R23) -/

/-- The region through whose fabric a line is reached: that of its region cache or of its block; none on the IO die. -/
def homeRegion (s : State) (l : Nat) : Option Nat :=
  match physAt s (lineBase l) with
  | .hbm => some (hbmPlace s.ms.gran (lineBase l)).stack
  | .block b _ => some (b / 8)
  | .mmio _ => none
  | .window => none
  | .hole => none

/-- Whether the home of a line is clocked, so that a request is not held at its region's crossing (R18, R23). -/
def homeClocked (s : State) (l : Nat) : Bool :=
  match homeRegion s l with
  | some r => clkBit s F.devClkRunning r
  | none => true

/-- A request that finds its home's PLL stopped starts it (R23). -/
def startHome (s : State) (l : Nat) : State :=
  match homeRegion s l with
  | some r => pllGo s r
  | none => s

/-! ## The stack's queues (R246, R255, R257) -/

/-- Whether a read of a line goes to the DRAM: an HBM line that its region cache does not hold (R220). -/
def goesToDram (s : State) (l : Nat) : Bool := lineHbm l && (tget? s.ms.rc l).isNone && !rcHit s l

/-- The partition of the requests of a core or of an engine that translates (R24): P0 for cells and the regions' DMA engines, P4 for the Mantle and host DMA, P2 for the collective engine and Seam DMA, P3 for storage DMA, P1 for the stacks' walkers. -/
def corePart (c : Nat) : Nat :=
  if c < 768 then 0 else if c < 1000 then 4 else if c = 1000 || c = 1003 then 2 else if c = 1001 then 4 else if c = 1002 then 3 else if c < 2000 then 0 else 1

/-- A core's request that waits to be served: its line, its number, its partition. -/
structure Req where
  line : Nat
  no : Nat
  part : Nat
  deriving DecidableEq, Repr

/-- The requests of the part that wait to be served. -/
def waitingLines (s : State) : List Req :=
  s.cells.flatMap (fun p => (p.2.mshrs.filter (fun (m : Mshr) => m.served.isNone)).map (fun m => { line := m.line, no := m.no, part := corePart p.1 })
    ++ (p.2.slots.filter (fun (m : TileSlot) => m.served.isNone && !m.held)).map (fun m => { line := m.line, no := m.no, part := corePart p.1 })
    ++ p.2.atomics.map (fun m => { line := m.line, no := m.no, part := corePart p.1 }))

/-- The number that a new request takes: above those of all that wait. -/
def nextNo (s : State) : Nat :=
  1 + s.cells.foldl (fun a p => p.2.atomics.foldl (fun a (m : AtomReq) => max a m.no)
    (p.2.slots.foldl (fun a (m : TileSlot) => max a m.no) (p.2.mshrs.foldl (fun a (m : Mshr) => max a m.no) a))) 0

/-- Whether the bank queue lets a request pass now (R257): none before it has waited 1 µs, and it hits the open row or no request does. -/
def bankServes (s : State) (l no : Nat) : Bool :=
  let b := bankOf s l
  let rowOf (k : Nat) : Nat := (hbmPlace s.ms.gran (lineBase k)).row
  let ws := (waitingLines s).filter (fun q => goesToDram s q.line && decide (bankOf s q.line = b))
  !ws.any (fun q => decide (q.no < tget 0 s.hbm.aged b) && decide (q.no < no))
    && (decide (no < tget 0 s.hbm.aged b) ||
      (match tget? s.hbm.rows b with
        | some r => decide (rowOf l = r) || !ws.any (fun q => decide (rowOf q.line = r))
        | none => true))

/-- The key of a regulator. -/
def partKey (k p : Nat) : Nat := k * 5 + p

/-- Half bursts of a line's four bursts (R241, R255). -/
def lineTokens : Nat := 8

/-- Half bursts that the DRAM core of a stack delivers in an ac, and those that its external interface carries (R255): 5.12 and 2.56 TB/s. -/
def coreRate : Nat := 12800
def extRate : Nat := 6400

/-- Whether a stack has n half bursts left in this ac for a partition: of its DRAM core, and, but for P1, of its external interface (R255). -/
def rateLeft (s : State) (k p n : Nat) : Bool :=
  let u := tget (0, 0) s.hbm.used k
  decide (u.1 + n ≤ coreRate) && (decide (p = 1) || decide (u.2 + n ≤ extRate))

/-- Whether a partition's ceiling bucket holds n half bursts, and the stack can deliver them in this ac (R255). -/
def tokensOf (s : State) (k p n : Nat) : Bool := decide (n ≤ (tget (0, 0) s.hbm.buckets (partKey k p)).2) && rateLeft s k p n

/-- Whether a partition's ceiling bucket holds a line's bursts (R255). -/
def tokensFor (s : State) (k p : Nat) : Bool := tokensOf s k p lineTokens

/-- Whether a partition's next line would be guaranteed (R255). -/
def guaranteed (s : State) (k p : Nat) : Bool := tokensFor s k p && decide (lineTokens ≤ (tget (0, 0) s.hbm.buckets (partKey k p)).1)

/-- The state of the channel that a line lies on (R259). -/
def lineChan (s : State) (l : Nat) : Nat :=
  let p := hbmPlace s.ms.gran (lineBase l)
  rf s .hbmChstat F.hbmChstatState (chKey p.stack p.chan)

/-- Whether the DRAM takes a partition's request next (R255): guaranteed ones first, the others round-robin among the partitions, of the requests that nothing else holds. -/
def partServes (s : State) (k p : Nat) : Bool :=
  let others := (waitingLines s).filter (fun q => goesToDram s q.line && decide ((hbmPlace s.ms.gran (lineBase q.line)).stack = k) && decide (q.part ≠ p)
    && tokensFor s k q.part && decide (lineChan s q.line ≠ 2) && bankServes s q.line q.no)
  guaranteed s k p || (!others.any (fun q => guaranteed s k q.part) && (others.isEmpty || decide (tget? s.hbm.turn k ≠ some p)))

/-- A line's bursts drawn (R255): from the ceiling bucket, and from the guarantee bucket when it holds as many; counted in the stack's ac. -/
def drawTokens (s : State) (k p : Nat) : State :=
  let b := tget (0, 0) s.hbm.buckets (partKey k p)
  let b' := (if lineTokens ≤ b.1 then b.1 - lineTokens else b.1, b.2 - lineTokens)
  let u := tget (0, 0) s.hbm.used k
  { s with hbm := { s.hbm with buckets := tset (0, 0) s.hbm.buckets (partKey k p) b',
                               used := tset (0, 0) s.hbm.used k (u.1 + lineTokens, if p = 1 then u.2 else u.2 + lineTokens) } }

/-- Whether the stack takes a partition's request for a line now: its channel does not retrain (R246), the stack is out of self-refresh (R242), the partition has tokens and its turn (R255), the bank queue lets it pass (R257). A dead channel answers at once (R247). -/
def stackTakes (s : State) (part l no : Nat) : Bool :=
  if !goesToDram s l || lineDead s l then true
  else
    let p := hbmPlace s.ms.gran (lineBase l)
    decide (lineChan s l ≠ 2) && decide (rf s .hbmStkstat F.hbmStkstatState p.stack ≠ 5) && tokensFor s p.stack part && partServes s p.stack part && bankServes s l no

/-- What a request taken leaves at the stack: its tokens drawn, its partition's turn taken, its row open, its aging ended. -/
def stackTaken (s : State) (part l no : Nat) : State :=
  if !goesToDram s l || lineDead s l then s
  else
    let p := hbmPlace s.ms.gran (lineBase l)
    let b := bankOf s l
    let turn := if guaranteed s p.stack part then s.hbm.turn else tins p.stack part s.hbm.turn
    let s := drawTokens s p.stack part
    { s with hbm := { s.hbm with turn := turn, rows := tins b p.row s.hbm.rows,
                                 aged := if no < tget 0 s.hbm.aged b then tdel b s.hbm.aged else s.hbm.aged } }

/-- A core's request at the stack. -/
def stackServes (s : State) (c l no : Nat) : Bool := stackTakes s (corePart c) l no
def stackServed (s : State) (c l no : Nat) : State := stackTaken s (corePart c) l no

/-! ## Requests that are made and taken in one command -/

/-- Whether a core's request for a line would be taken at once: its home's region is clocked, and the stack takes it. -/
def lineOpen (s : State) (c l : Nat) : Bool := homeClocked s l && stackServes s c l (nextNo s)

/-- What such a request leaves at the stack (R24, R255). A stack's walker draws on P1 of its own stack (R262). -/
def lineTaken (s : State) (c l : Nat) : State :=
  if 2000 ≤ c then (if goesToDram s l && !lineDead s l then drawTokens s (c - 2000) 1 else s) else stackServed s c l (nextNo s)

/-- The lines of a run of bytes. -/
def linesOf (pa n : Nat) : List Nat := (List.range ((pa + n + 127) / 128 - pa / 128)).map (fun i => pa / 128 + i)

/-- Requests for lines that wait start the PLLs that they find stopped (R23). -/
def startLines (s : State) (ls : List Nat) : State := ls.foldl (fun s l => if homeClocked s l then s else startHome s l) s

/-- Bytes read at their home for a core (R24, R255, R457). -/
def coreRead (s : State) (c pa n : Nat) : (List Byte × Option Nat) × State :=
  homeReadFrom ((linesOf pa n).foldl (fun s l => lineTaken s c l) s) (dieOfCore c) pa n

/-- A line read at its home for a core. -/
def coreLine (s : State) (c l : Nat) : Line × State := readLineFrom (lineTaken s c l) (dieOfCore c) l

/-- Whether a run of bytes touches a channel in a state (R246, R247). -/
def touchesChan (s : State) (pa n st : Nat) : Bool := inHbm pa && (linesOf pa n).any (fun l => decide (lineChan s l = st))

/-- Whether an access to a run of bytes waits at its stack: a retraining channel or self-refresh (R246, R242). -/
def stackWaits (s : State) (pa n : Nat) : Bool :=
  inHbm pa && (decide (rf s .hbmStkstat F.hbmStkstatState (hbmPlace s.ms.gran pa).stack = 5) || touchesChan s pa n 2)

/-- The most half bursts that a partition's bucket holds (R255). -/
def bucketTop (s : State) (k p : Nat) : Nat := 64 * fget (reg s .hbmPart (partKey k p)) F.hbmPartDepth

/-- Whether a partition's regulators let a request's lines pass (R255): each stack that it reaches has the tokens of its bursts there, as far as a bucket and an ac hold as many; the partition has its turn, and each line passes its bank queue (R257). -/
def regulated (s : State) (part : Nat) (ls : List Nat) : Bool :=
  let ls := ls.filter (fun l => goesToDram s l && !lineDead s l)
  let at' (l : Nat) : Nat := (hbmPlace s.ms.gran (lineBase l)).stack
  ls.all (fun l =>
    let k := at' l
    let n := lineTokens * (ls.filter (fun o => decide (at' o = k))).length
    tokensOf s k part (max lineTokens (min n (min (bucketTop s k part) extRate))) && partServes s k part && bankServes s l (nextNo s))

/-- Whether a request of an engine or of the host for a run of bytes of memory is held: at the crossing of a region that is not clocked (R18, R23), at the stack (R242, R246), at its regulators and bank queues (R255, R257). -/
def accessHeld (s : State) (part pa n : Nat) : Bool :=
  isMemory s pa && (!(linesOf pa n).all (homeClocked s) || stackWaits s pa n || !regulated s part (linesOf pa n))

/-- What a held request does meanwhile: it starts the PLL that it waits for (R23). -/
def accessStarts (s : State) (pa n : Nat) : State := (linesOf pa n).foldl startHome s

/-- The lines of a request taken by their stacks (R255, R257); of a request larger than a bucket, the lines past what it holds have waited for refills within the command (log 11). -/
def accessDraws (s : State) (part pa n : Nat) : State := (linesOf pa n).foldl (fun s l => stackTaken s part l (nextNo s)) s

/-- A lining task of a stack that enters MAINT (R258, R285): it starts no further chunk and ends with MAINT once those that run have finished. -/
def LTask.maint (tk : LTask) : LTask := if tk.code = 0 && decide (tk.done < tk.total) then { tk with code := 7, failAt := some tk.next } else tk

/-- MAINT entered by a ready stack that has been asked for it, once its queued requests have drained (R259). -/
def maintEnter (s : State) (k : Nat) : State :=
  if rf s .hbmStkstat F.hbmStkstatMaint k = 1 && decide (rf s .hbmStkstat F.hbmStkstatState k = 2)
      && !(waitingLines s).any (fun q => goesToDram s q.line && decide ((hbmPlace s.ms.gran (lineBase q.line)).stack = k)) then
    setRf { s with lining := s.lining.map (fun (p : Nat × LStack) =>
      if p.1 = k then (p.1, { p.2 with active := p.2.active.map (fun (q : Nat × LTask) => (q.1, q.2.maint)) }) else p) } .hbmStkstat F.hbmStkstatState 3 k
  else s

/-! ## Activities (R24, R27) -/

/-- The part's concurrent activities (R24). -/
inductive Activity where
  | cells
  | lining
  | gradient
  | twin
  | storage
  | host
  | mantle
  deriving DecidableEq, Repr

/-- The partition to which an activity's requests are charged (R24). -/
def Activity.part : Activity → Nat
  | .cells => 0
  | .lining => 1
  | .gradient => 2
  | .twin => 2
  | .storage => 3
  | .host => 4
  | .mantle => 4

/-- The virtual channels of an activity's requests and responses (R24). -/
def Activity.vcs : Activity → List Nat
  | .cells => [0, 1]
  | .lining => [2]
  | .gradient => [3]
  | .twin => [3]
  | .storage => [4]
  | .host => [5]
  | .mantle => [6]

/-- The weight of a virtual channel at a busy port, in sixteenths of the image's sum: the image's, raised to the floor of 1 slot in 16 (R26, R27). -/
def vcWeight (s : State) (vc : Nat) : Nat := max (16 * s.boot.vcw.getD vc 1) s.boot.vcw.sum

/-- BANK_QUEUE_AGING (R257): the oldest request waiting in the bank queue has waited 1 µs; the write backs in it go (R220). -/
def execBankQueueAging (k : Fin 12) (ch : Fin 32) (pc : Fin 2) (bank : Fin 64) (s : State) : Host.Outcome State Fault Refusal :=
  let b := ((k.val * 32 + ch.val) * 2 + pc.val) * 64 + bank.val
  let s := rcDrain s b
  .next (match ((waitingLines s).filter (fun q => goesToDram s q.line && decide (bankOf s q.line = b))).map (fun q => q.no) with
    | [] => s
    | n :: ns => { s with hbm := { s.hbm with aged := tins b (ns.foldl min n + 1) s.hbm.aged } })

end Sys2Proof.Machine
end

