-- ==== Sys2Proof/Machine/Xlat.lean ====
section
/-! DEFINITION. Address translation: page-table walks, TLBs, paired pages and their faults (R80–R103). -/

namespace Sys2Proof.Machine

/-- A synchronous exception: cause code, DETAIL and XVAL (R64). -/
structure Exc where
  code : Nat
  detail : Nat := 0
  val : Word := 0
  deriving DecidableEq, Repr

/-- Who translates: address space, level, whether it runs as a SPEC task, the EPOCH bit it latched (R83, R91, R93), and whether it writes as an update, in paired and unpaired address spaces alike (R91, R96). -/
structure XCtx where
  asid : BitVec 6
  level : BitVec 2
  spec : Bool
  epoch : Bool
  upd : Bool := false
  deriving DecidableEq, Repr

/-- Whether a translation serves an address of an address space. -/
def TlbEnt.hits (e : TlbEnt) (asid : BitVec 6) (va : Nat) : Bool :=
  decide (e.asid = asid) && decide (va >>> e.size = e.vpn >>> (e.size - 12))

/-- The cause code of a translation fault of each kind (R87). -/
def xlatCode : Access → Nat
  | .fetch => 3
  | .load => 4
  | .store => 5
  | .atomic => 5

/-- A translation fault: DETAIL holds the reason and the level (R87). -/
def xlatFault (k : Access) (reason lvl : Nat) (va : Word) : Exc :=
  { code := xlatCode k, detail := 16 * reason + lvl, val := va }

/-- The set of the second-level TLB that a page number chooses: its low 8 bits (log 9). -/
def l2Index (vpn : Nat) : Nat := vpn % 256

/-- An entry moved to the front of a least-recently-used list of a bounded length. -/
def lruPut {α : Type} (n : Nat) (same : α → Bool) (e : α) (l : List α) : List α :=
  (e :: l.filter (fun x => !same x)).take n

/-- A first-level TLB filled (R98). -/
def fillFirst (k : Access) (e : TlbEnt) (x : CellS) : CellS :=
  let same (o : TlbEnt) : Bool := decide (o.asid = e.asid) && decide (o.vpn = e.vpn) && decide (o.size = e.size)
  match k with
  | .fetch => { x with itlb := lruPut 32 same e x.itlb }
  | .load => { x with dtlb := lruPut 64 same e x.dtlb }
  | .store => { x with dtlb := lruPut 64 same e x.dtlb }
  | .atomic => { x with dtlb := lruPut 64 same e x.dtlb }

/-- The second-level TLB filled: an invalid way first, else the tree's way (R98, R223). -/
def fillSecond (e : TlbEnt) (x : CellS) : CellS :=
  let i := l2Index e.vpn
  let st := tget {} x.l2tlb i
  let w := (st.ways.findIdx? (fun o => o.isNone)).getD (treeVictim st.tree)
  { x with l2tlb := tins i { ways := st.ways.set w (some e), tree := treeTouch st.tree w } x.l2tlb }

/-- A translation found in the TLBs of a core, with the replacement state it leaves (R98). -/
def tlbLookup (x : CellS) (k : Access) (asid : BitVec 6) (va : Nat) : Option (TlbEnt × CellS) :=
  let first := match k with | .fetch => x.itlb | .load => x.dtlb | .store => x.dtlb | .atomic => x.dtlb
  match first.find? (fun e => e.hits asid va) with
  | some e => some (e, fillFirst k e x)
  | none =>
    -- an entry of any page size: the page's own number chose its set
    let tryIdx (sz : Nat) : Option (TlbEnt × Nat × Nat) :=
      let i := l2Index (va >>> sz <<< (sz - 12))
      let st := tget {} x.l2tlb i
      match st.ways.findIdx? (fun o => match o with | some e => e.hits asid va && decide (e.size = sz) | none => false) with
      | some w => match st.ways.getD w none with | some e => some (e, i, w) | none => none
      | none => none
    match [12, 16, 21, 30].findSome? tryIdx with
    | some (e, i, w) =>
      let st := tget {} x.l2tlb i
      some (e, fillFirst k e { x with l2tlb := tins i { st with tree := treeTouch st.tree w } x.l2tlb })
    | none => none

/-- The address-space entry of an ASID as a core's walker reads it (R84): UNPAIRED and the root, or the reason of the fault, with level 3. -/
def asEntry (s : State) (c : Nat) (asid : BitVec 6) : Except Nat (Bool × Nat) × State :=
  let base := 4096 * rf s .devAstbase F.devAstbaseBase
  if !inHbm base then (.error 7, s)
  else
    let ((bs, bad), s) := coreRead s c (base + 32 * asid.toNat) 32
    let w0 := wd (ofLE (bs.take 8))
    let root := 4096 * bits w0 51 12
    if bad.isSome then
      (.error 6, s)
    else if !bit w0 0 || bits w0 11 2 ≠ 0 || bits w0 63 52 ≠ 0 || (bs.drop 8).any (fun b => decide (b ≠ 0)) || !inHbm root then
      (.error 7, s)
    else (.ok (bit w0 1, root), s)

/-- A page-table entry read for the walker of a core, through its cache of table entries of levels 3–1 (R88, R99). The cache takes every entry with T = 1 that it reads, one that then fails its checks too (DESIGN CHOICE, log 117). -/
def readPte (s : State) (c : Nat) (pa : Nat) (lvl : Nat) : Option Word × State :=
  match (cell s c).walker.find? (fun p => p.1 = pa && decide (lvl ≠ 0)) with
  | some p => (some p.2, modCell s c (fun x => { x with walker := lruPut 64 (fun o => o.1 = pa) p x.walker }))
  | none =>
    let ((bs, bad), s) := coreRead s c pa 8
    let w := wd (ofLE bs)
    if bad.isSome then (none, s)
    else if lvl ≠ 0 && bit w 1 then
      (some w, modCell s c (fun x => { x with walker := lruPut 64 (fun o => o.1 = pa) (pa, w) x.walker }))
    else (some w, s)

/-- Whether a leaf entry is malformed at its level (R86, R87, R89, R90). -/
def leafMalformed (w : Word) (lvl : Nat) (unp : Bool) : Bool :=
  let pair := bit w 7
  let c64 := bit w 8
  let f0 := bits w 39 21
  let f1 := bits w 63 45
  decide (lvl = 3)
  || (bit w 3 && !bit w 2)
  || (pair && decide (lvl ≠ 1))
  || (pair && bit w 4)
  || (c64 && decide (lvl ≠ 0))
  || (if pair then decide (bits w 20 9 ≠ 0) || decide (bits w 44 40 ≠ 0) || (!unp && decide (f0 = f1))
      else decide (bits w 11 9 ≠ 0) || decide (bits w 63 52 ≠ 0)
        || (decide (lvl = 1) && decide (bits w 20 12 ≠ 0)) || (decide (lvl = 2) && decide (bits w 29 12 ≠ 0)))

/-- The translation a well-formed leaf gives (R86, R89, R90). -/
def leafEnt (w : Word) (lvl : Nat) (asid : BitVec 6) (unp : Bool) (va : Nat) : TlbEnt :=
  let sz := if lvl = 0 then (if bit w 8 then 16 else 12) else if lvl = 1 then 21 else 30
  let frame := 4096 * bits w 51 12
  { asid := asid, vpn := (va >>> sz) <<< (sz - 12), size := sz,
    frame0 := if bit w 7 then bits w 39 21 <<< 21 else frame >>> sz <<< sz,
    frame1 := if bit w 7 then bits w 63 45 <<< 21 else 0,
    pair := bit w 7, unp := unp, r := bit w 2, w := bit w 3, x := bit w 4, u := bit w 5, ns := bit w 6 }

/-- A walk from a table at a level: the translation, or the reason and level of the fault (R86, R87). -/
def walkFrom (c : Nat) (asid : BitVec 6) (unp : Bool) (va : Nat) : Nat → Nat → State → Except (Nat × Nat) TlbEnt × State
  | lvl, table, s =>
    match readPte s c (table + 8 * ((va >>> (12 + 9 * lvl)) % 512)) lvl with
    | (none, s) => (.error (6, lvl), s)
    | (some w, s) =>
      if !bit w 0 then (.error (1, lvl), s)
      else if bit w 1 then
        let next := 4096 * bits w 51 12
        match lvl with
        | 0 => (.error (2, 0), s)
        | l + 1 =>
          if bits w 8 2 ≠ 0 || bits w 11 9 ≠ 0 || bits w 63 52 ≠ 0 || !inHbm next then (.error (2, l + 1), s)
          else walkFrom c asid unp va l next s
      else if leafMalformed w lvl unp then (.error (2, lvl), s)
      else
        let e := leafEnt w lvl asid unp va
        if e.pair && (decide (bits w 39 21 ≥ 0x78000) || (!unp && decide (bits w 63 45 ≥ 0x78000))) then (.error (5, lvl), s)
        else (.ok e, s)

/-- The level at which a page of a size is a leaf, for DETAIL (R87). -/
def sizeLevel (sz : Nat) : Nat := if sz = 30 then 2 else if sz = 21 then 1 else 0

/-- The frame that an access to a paired page reaches (R91, R96). -/
def pairFrame (x : XCtx) (e : TlbEnt) : Nat :=
  if !e.pair || e.unp then e.frame0
  else if x.spec = x.epoch then e.frame0 else e.frame1

/-- The lines that a walk for an address reads next at their homes, of those that it may read: none when the TLBs or the walker's cache answer; a walk ends at the first that is not open (R99). -/
def walkNeeds (c : Nat) (va : Nat) : Nat → Nat → State → List Nat
  | lvl, table, s =>
    let pa := table + 8 * ((va >>> (12 + 9 * lvl)) % 512)
    let cached := (cell s c).walker.any (fun p => decide (p.1 = pa) && decide (lvl ≠ 0))
    let here := if cached then [] else [pa / 128]
    match lvl with
    | 0 => here
    | l + 1 =>
      if !here.all (lineOpen s c) then here
      else
        match (readPte s c pa (l + 1)).1 with
        | some w => if bit w 0 && bit w 1 && inHbm (4096 * bits w 51 12) then here ++ walkNeeds c va l (4096 * bits w 51 12) s else here
        | none => here

/-- The lines that translating an address reads at their homes: none at M, for an address that is not canonical, or where a TLB holds it. -/
def xlatNeeds (s : State) (c : Nat) (x : XCtx) (va : Word) (k : Access) : List Nat :=
  if x.level = 2 || decide (bits va 63 48 ≠ 0) || (tlbLookup (cell s c) k x.asid va.toNat).isSome then []
  else
    let base := 4096 * rf s .devAstbase F.devAstbaseBase + 32 * x.asid.toNat
    if !inHbm base then []
    else if !lineOpen s c (base / 128) then [base / 128]
    else
      match (asEntry s c x.asid).1 with
      | .ok (_, root) => (base / 128) :: walkNeeds c va.toNat 3 root s
      | .error _ => [base / 128]

/-- Whether translating an address must wait: for a region's crossing, or for the stack that holds a table (R18, R23, R246, R255). -/
def xlatHeld (s : State) (c : Nat) (x : XCtx) (va : Word) (k : Access) : Bool := !(xlatNeeds s c x va k).all (lineOpen s c)

/-- The checks on a translation after the walk, in the order of R87, then the paired-page rule (R91, R92, R96). -/
def useEnt (s : State) (x : XCtx) (va : Word) (k : Access) (e : TlbEnt) : Except Exc Nat :=
  let pa := pairFrame x e + va.toNat % 2 ^ e.size
  let f (r : Nat) : Exc := xlatFault k r (sizeLevel e.size) va
  if physAt s pa = .hole then .error (f 5)
  else if x.level = 0 && !e.u then .error (f 3)
  else
    let perm := match k with | .fetch => e.x | .load => e.r | .store => e.w | .atomic => e.r && e.w
    if !perm then .error (f 4)
    else
      let writes := match k with | .fetch => false | .load => false | .store => true | .atomic => true
      if writes && e.pair && (!x.spec || e.unp) && !x.upd then .error { code := 6, val := va }
      else .ok pa

/-- A walk from the address-space table down (R86, R87). -/
def walk (s : State) (c : Nat) (asid : BitVec 6) (va : Nat) : Except (Nat × Nat) TlbEnt × State :=
  match asEntry s c asid with
  | (.error r, s) => (.error (r, 3), s)
  | (.ok (unp, root), s) => walkFrom c asid unp va 3 root s

/-- The translation of an address for a core: through the TLBs, else by a walk (R86, R98); whether it was walked for. -/
def findEnt (s : State) (c : Nat) (asid : BitVec 6) (va : Word) (k : Access) : Except (Nat × Nat) (TlbEnt × Bool) × State :=
  if bits va 63 48 ≠ 0 then (.error (0, 3), s)
  else
    match tlbLookup (cell s c) k asid va.toNat with
    | some (e, x) => (.ok (e, false), setCell s c x)
    | none =>
      match walk s c asid va.toNat with
      | (.error r, s) => (.error r, s)
      | (.ok e, s) => (.ok (e, true), s)

/-- A walk's result kept in the TLBs, unless the walk ends in a translation fault (R98, R99, R100). -/
def fillTlbs (s : State) (c : Nat) (k : Access) (e : TlbEnt) (r : Except Exc Nat) : State :=
  match r with
  | .ok _ => modCell s c (fun x => fillFirst k e (fillSecond e x))
  | .error f => if f.code = 6 then modCell s c (fun x => fillFirst k e (fillSecond e x)) else s

/-- An address translated for an access: physical at M (R83), else through the address space; the fault is the exception of R87 or R92. -/
def translate (s : State) (c : Nat) (x : XCtx) (va : Word) (k : Access) : Except Exc Nat × State :=
  if x.level = 2 then
    (if physAt s va.toNat = .hole then .error (xlatFault k 5 3 va) else .ok va.toNat, s)
  else
    match findEnt s c x.asid va k with
    | (.error (r, l), s) => (.error (xlatFault k r l va), s)
    | (.ok (e, walked), s) =>
      let r := useEnt s x va k e
      (r, if walked then fillTlbs s c k e r else s)

/-- The EPOCH bit of an address space as a core has applied it (R94). -/
def epochBit (s : State) (c : Nat) (asid : BitVec 6) : Bool := bit (cell s c).epoch asid.toNat

/-- How a thread translates now (R91). -/
def ctxOf (s : State) (t : Tid) : XCtx :=
  let th := thread s t
  { asid := th.asid, level := th.level, spec := th.spec.isSome, epoch := epochBit s (cellOf t) th.asid }

/-- A thread's context with another level, for accesses made with the permissions of that level. -/
def ctxAt (s : State) (t : Tid) (l : BitVec 2) : XCtx := { ctxOf s t with level := l }

/-- Whether a translation of the requested scope is one an invalidation removes (R101). -/
def inScope (asid scope vpn : Nat) (e : TlbEnt) : Bool :=
  match scope with
  | 0 => decide (e.asid.toNat = asid) && decide ((vpn <<< 12) >>> e.size = e.vpn >>> (e.size - 12))
  | 1 => decide (e.asid.toNat = asid)
  | _ => true

/-- A core's TLBs without the entries of a scope; its cache of table entries is emptied (R101). -/
def tlbDrop (p : TlbEnt → Bool) (x : CellS) : CellS :=
  { x with itlb := x.itlb.filter (fun e => !p e), dtlb := x.dtlb.filter (fun e => !p e),
           l2tlb := x.l2tlb.map (fun q => (q.1, { q.2 with ways := q.2.ways.map (fun o =>
             match o with | some e => if p e then none else some e | none => none) })),
           walker := [] }

/-- A core's TLBs and walker cache all invalid (R98). -/
def tlbFlush (x : CellS) : CellS := { x with itlb := [], dtlb := [], l2tlb := [], walker := [] }

end Sys2Proof.Machine
end

