-- ==== Sys2Proof/Machine/CacheBase.lean ====
section
/-! DEFINITION. The L1 data cache, the victim cache and their flash invalidation (R222–R228). -/

namespace Sys2Proof.Machine

/-- The L1 set of a line: 128 sets (R222; log 9). -/
def l1Index (l : Nat) : Nat := l % 128

/-- The way of an L1 set that holds a line. -/
def l1Way (st : L1Set) (l : Nat) : Option Nat :=
  st.ways.findIdx? (fun o => match o with | some x => decide (x.line = l) | none => false)

/-- The thread of a prefetch stream, which its events are charged to (R473). -/
def streamThr (x : CellS) (id : Nat) : Option Nat := (x.streams.find? (fun st => decide (st.id = id))).map (fun st => st.thr.val)

/-- A line marked P that leaves was early (R238): the event, and the stream's count (R234). -/
def earlyIf (s : State) (c : Nat) (x : CLine) : State :=
  match x.pmark with
  | none => s
  | some id => modCell (perfEvent s c 0x63 (streamThr (cell s c) id)) c (fun y =>
      { y with streams := y.streams.map (fun st => if st.id = id then { st with early := st.early + 1 } else st) })

/-- A demand hit on a line marked P was useful (R238). -/
def usefulIf (s : State) (c : Nat) (x : CLine) (demand : Bool) : State :=
  match x.pmark with
  | none => s
  | some id => if demand then perfEvent s c 0x61 (streamThr (cell s c) id) else s

/-- A line put into the victim cache: first in, first out, 8 entries (R227). -/
def victimPut (s : State) (c : Nat) (x : CLine) : State :=
  let v := (cell s c).victim ++ [x]
  if v.length ≤ 8 then modCell s c (fun y => { y with victim := v })
  else
    let s := modCell s c (fun y => { y with victim := v.drop 1 })
    match v.head? with
    | some old => earlyIf s c old
    | none => s

/-- A line filled into the L1: an invalid way first, else the tree's way, whose line goes to the victim cache (R223, R227). -/
def l1Fill (s : State) (c : Nat) (x : CLine) : State :=
  let i := l1Index x.line
  let st := tget {} (cell s c).l1 i
  let w := ((l1Way st x.line).or (st.ways.findIdx? (fun o => o.isNone))).getD (treeVictim st.tree)
  let old := st.ways.getD w none
  let s := modCell s c (fun y => { y with l1 := tins i { ways := st.ways.set w (some x), tree := treeTouch st.tree w } y.l1 })
  match old with
  | some o => if o.line = x.line then s else victimPut s c o
  | none => s

/-- A line looked up in the L1 and then the victim cache, with the changes of a hit: the way is touched, the mark P clears and counts useful, a victim hit returns the line to the L1 (R223, R227, R238). -/
def l1Lookup (s : State) (c : Nat) (l : Nat) (demand : Bool) : Option Line × State :=
  let i := l1Index l
  let st := tget {} (cell s c).l1 i
  match l1Way st l with
  | some w =>
    match st.ways.getD w none with
    | some x =>
      let x' := { x with pmark := if demand then none else x.pmark }
      let s := usefulIf s c x demand
      (some x.body, modCell s c (fun y => { y with l1 := tins i { ways := st.ways.set w (some x'), tree := treeTouch st.tree w } y.l1 }))
    | none => (none, s)
  | none =>
    match (cell s c).victim.find? (fun x => decide (x.line = l)) with
    | some x =>
      let s := usefulIf s c x demand
      let s := modCell s c (fun y => { y with victim := y.victim.filter (fun z => decide (z.line ≠ l)) })
      (some x.body, l1Fill s c { x with pmark := if demand then none else x.pmark })
    | none => (none, s)

/-- The 32-bit words of a line under n bytes at an offset, and those wholly under them (R222). -/
def wordsUnder (off n : Nat) : BitVec 32 := BitVec.ofNat 32 ((2 ^ ((off + n + 3) / 4 - off / 4) - 1) <<< (off / 4))
def wordsCovered (off n : Nat) : BitVec 32 := BitVec.ofNat 32 ((2 ^ ((off + n) / 4 - (off + 3) / 4) - 1) <<< ((off + 3) / 4))

/-- The cell's own copy of a line, in the L1 or the victim cache. -/
def l1Copy (x : CellS) (l : Nat) : Option CLine :=
  let st := tget {} x.l1 (l1Index l)
  ((l1Way st l).bind (fun w => st.ways.getD w none)) <|> (x.victim.find? (fun y => decide (y.line = l)))

/-- A store's bytes laid over the cell's own copy of the line, in the L1 or the victim cache (R224); a demand access, it makes a prefetched line useful (R238). -/
def l1Store (s : State) (c : Nat) (l off : Nat) (bs : List Byte) : State :=
  let i := l1Index l
  let st := tget {} (cell s c).l1 i
  let put (x : CLine) : CLine := { x with body := overlay x.body off bs false, bad := x.bad &&& ~~~wordsCovered off bs.length, pmark := none }
  match l1Way st l with
  | some w =>
    match st.ways.getD w none with
    | some x =>
      let st' : L1Set := { ways := st.ways.set w (some (put x)), tree := treeTouch st.tree w }
      modCell (usefulIf s c x true) c (fun y => { y with l1 := tins i st' y.l1 })
    | none => s
  | none =>
    match (cell s c).victim.find? (fun x => decide (x.line = l)) with
    | some x => modCell (usefulIf s c x true) c (fun y => { y with victim := y.victim.map (fun x => if x.line = l then put x else x) })
    | none => s

/-- A line dropped from the L1 and the victim cache (R48, R172). -/
def l1Drop (s : State) (c : Nat) (l : Nat) : State :=
  let i := l1Index l
  let st := tget {} (cell s c).l1 i
  let st' : L1Set := { st with ways := st.ways.map (fun o => match o with | some x => if x.line = l then none else some x | none => none) }
  modCell s c (fun y =>
    let y := if (l1Way st l).isSome then { y with l1 := tins i st' y.l1 } else y
    { y with victim := y.victim.filter (fun z => decide (z.line ≠ l)) })

/-- The key of a cell's site. -/
def siteKey (s : State) (c : Nat) : Nat := 16 * (c / 8) + (cell s c).site.toNat

/-- A corrected error counted at its cell site (R457): the times of the last 64. -/
def countCellCe (s : State) (c : Nat) : State :=
  if isMantle c then s else { s with err := { s.err with cellCe := tmod [] s.err.cellCe (siteKey s c) (fun l => (lcount s 12 :: l).take 64) } }

/-- An hour on the always-on clock (R286, R457). -/
def hourTicks : Nat := 3600 * 25000000

/-- Whether a cell site has had 64 corrected errors within a powered hour (R457). -/
def cellCeDue (s : State) (c : Nat) : Bool :=
  let l := tget [] s.err.cellCe (siteKey s c)
  decide (l.length = 64) && decide ((l.getD 0 0 - l.getD 63 0).toNat ≤ hourTicks)

/-- A corrected error that a core detects in itself: its unit, block and site (R492); it counts at a cell's site (R457). -/
def coreErr (s : State) (c : Nat) (cause : BitVec 8) (addr : Word) : State :=
  report (countCellCe s c) (if isMantle c then mkErr cause 1 0 (cell s c).site.toNat addr else mkErr cause 0x20 (c / 8) (cell s c).site.toNat addr)

/-- A read of n bytes of a cached line that meets a parity error: the line goes, the error is recorded, and the access is a miss (R222). -/
def l1Parity (s : State) (c l off n : Nat) : State :=
  match l1Copy (cell s c) l with
  | some x => if x.bad &&& wordsUnder off n = 0 then s else coreErr (l1Drop s c l) c 0x10 (wd (lineBase l))
  | none => s

/-- The lines of a cell's caches that carry the mark P. -/
def markedLines (x : CellS) : List CLine :=
  (x.l1.flatMap (fun st => st.2.ways.filterMap (fun o => match o with | some y => if y.pmark.isSome then some y else none | none => none)))
    ++ x.victim.filter (fun y => y.pmark.isSome)

/-- A flash invalidation of the L1 and the victim cache: fills in flight install no line (R223, R228); lines marked P count early (R238). -/
def flash (s : State) (c : Nat) : State :=
  let s := (markedLines (cell s c)).foldl (fun s y => earlyIf s c y) s
  modCell s c (fun y => { y with l1 := [], victim := [], mshrs := y.mshrs.map (fun m => { m with install := false }) })

/-- An acquire by a thread of the cell (R50). -/
def acquire (s : State) (c : Nat) : State := flash s c

/-- The update of a commit or a discard as a cell applies it: EPOCH, the flash invalidation, the prefetch streams (R94, R228). -/
def applyUpdateTo (s : State) (c : Nat) (u : HemUpdate) : State :=
  let s := flash s c
  modCell s c (fun y => { y with epoch := u.epoch, streams := [], updates := y.updates.drop 1 })

/-- What going back to an instruction boundary takes from a thread's accesses: the loads numbered from there on, the requests still held, the atomics not yet performed, the lines its vector pipe waits for. -/
def dropLoads (thr mark : Nat) (x : CellS) : CellS :=
  let keep (l : LoadReq) : Bool := decide (l.thr.val ≠ thr) || decide (l.seq < mark)
  { x with mshrs := x.mshrs.map (fun (m : Mshr) => { m with loads := m.loads.filter keep, pipes := m.pipes.filter (fun j => decide (j.val ≠ thr)) }),
           loads := x.loads.filter keep, held := x.held.filter (fun (h : HeldMiss) => decide (h.load.thr.val ≠ thr)),
           atomics := x.atomics.filter (fun (m : AtomReq) => decide (m.thr.val ≠ thr)) }

end Sys2Proof.Machine
end

