-- ==== Sys2Proof/Machine/Peg.lean ====
section
/-! DEFINITION. Pegs (R365–R371): values, saturating adds, waits, barrier waves, the MMIO peg registers. -/

namespace Sys2Proof.Machine

/-- Who adds to a peg (R367): the agent code, the source of the record (R492), and the thread that receives interrupt 14. -/
structure Adder where
  code : Word
  unit : Nat
  inst : Nat := 0
  sub : Nat := 0
  tid : Option Tid := none
  thr : Option Nat := none

/-- Whether a push of a thread is held in the fabric: its later MMIO accesses wait behind it (R264, R349). -/
def pushHeld (s : State) (t : Tid) : Bool := agentHeld s (agentOfTid t)

/-- A peg's value (R365). -/
def pegVal (s : State) (p : Nat) : Nat := (tget 0 s.pegs.vals p).toNat

/-- The greatest value of a peg. -/
def pegTop : Nat := 2 ^ 63 - 1

/-- Whether a waiting state is satisfied by a peg's value (R366, R369). -/
def waitMet (w : Wait) (p v : Nat) : Bool :=
  match w with
  | .peg q x eq _ => decide (q = p) && (if eq then decide (v = x) else decide (x ≤ v))
  | .arrive q target _ _ => decide (q = p) && decide (target ≤ v)
  | .pause _ => false
  | .released _ _ => false
  | .fetch => false
  | .miss => false
  | .store => false
  | .home => false
  | .held => false

/-- A barrier waiter resumes (R369): rd takes the value it read, PRESUME clears, its acquire is made, its cell wakes. -/
def finishArrive (s : State) (t : Tid) : State :=
  match (thread s t).st with
  | .waiting (.arrive _ _ old rd) =>
    let s := modThread s t (fun th => { xset th rd (wd old) with
      st := .ready, pc := th.pc + 4, sr := tset 0 th.sr 7 0 })
    wakeCell (acquire s (cellOf t)) (cellOf t)
  | _ => s

/-- A satisfied `peg.wait` resumes with the value that satisfied it (R366). -/
def finishWait (s : State) (t : Tid) : State :=
  match (thread s t).st with
  | .waiting (.released v rd) =>
    let s := modThread s t (fun th => { xset th rd (wd v) with st := .ready, pc := th.pc + 4 })
    acquire s (cellOf t)
  | _ => s

/-- Distinct values in order of first appearance. -/
def distinct (l : List Nat) : List Nat := l.foldl (fun a x => if a.contains x then a else a ++ [x]) []

/-- The threads whose barrier wait a value meets and that no wave holds yet, in ascending order (R370). -/
def arriversMet (s : State) (p v : Nat) : List Tid :=
  (s.threads.filter (fun (q : Nat × Thread) => match q.2.st with
    | .waiting (.arrive a b c d) => waitMet (.arrive a b c d) p v && !s.pegs.waves.any (fun c => c.any (fun w => w.any (fun t => decide (t.val = q.1))))
    | _ => false)).map (fun q => Fin.ofNat 6160 q.1)

/-- The waves of a release (R370): 32 cells each, in ascending order of cells. -/
def wavesOf (ts : List Tid) : List (List Tid) :=
  let cs := distinct (ts.map cellOf)
  (List.range ((cs.length + 31) / 32)).map (fun w =>
    let own := (cs.drop (32 * w)).take 32
    ts.filter (fun t => own.contains (cellOf t)))

/-- A thread that leaves its barrier wait unreleased, by an interrupt or because its task ends: no wave holds it any longer (R301, R369). -/
def leaveWaves (s : State) (t : Tid) : State :=
  { s with pegs := { s.pegs with waves := s.pegs.waves.map (fun c => c.map (fun w => w.filter (fun u => decide (u ≠ t)))) } }

/-- What a value change sets going: waits met stay met, barrier waiters are released in waves, engines' watches are met (R366, R370, R489). -/
def pegNotify (s : State) (p v : Nat) : State :=
  let s : State := { s with threads := s.threads.map (fun (q : Nat × Thread) =>
    match q.2.st with
    | .waiting (.peg a x eq rd) => if waitMet (.peg a x eq rd) p v then (q.1, { q.2 with st := .waiting (.released v rd) }) else q
    | _ => q) }
  let s := (s.threads.filter (fun (q : Nat × Thread) => match q.2.st with | .waiting (.released _ _) => true | _ => false)).foldl
    (fun s (q : Nat × Thread) => wakeCell s (cellOf (Fin.ofNat 6160 q.1))) s
  let s : State := { s with pegs := { s.pegs with watches := s.pegs.watches.map (fun (q : Nat × Watch) =>
    if q.2.peg = p ∧ (if q.2.up then q.2.value ≤ v else v ≤ q.2.value) then (q.1, { q.2 with met := true }) else q) } }
  let ws := wavesOf (arriversMet s p v)
  let s := (ws.headD []).foldl finishArrive s
  if (ws.drop 1).isEmpty then s else { s with pegs := { s.pegs with waves := s.pegs.waves ++ [ws.drop 1] } }

/-- A peg takes a value (R366 `peg.set`). -/
def pegPut (s : State) (p v : Nat) : State :=
  pegNotify { s with pegs := { s.pegs with vals := tset 0 s.pegs.vals p (BitVec.ofNat 63 v) } } p v

/-- A saturating add (R366, R367): the old value and the state after; a saturation is recorded, shown in PEG_SAT, and interrupts a thread adder. -/
def pegAddTo (s : State) (p : Nat) (d : Int) (who : Adder) : Nat × State :=
  let old := pegVal s p
  let x := (old : Int) + d
  let v := (clampI 0 (pegTop : Int) x).toNat
  let s := pegPut s p v
  if (v : Int) = x then (old, s)
  else
    let s := setRf (setRf s .pegSat F.pegSatPeg p) .pegSat F.pegSatValid 1
    let s := bumpRf s .pegSat F.pegSatCount
    let e := mkErr 0x03 who.unit who.inst who.sub 0 (wd p ||| (who.code <<< 32)) (wd old) (BitVec.ofInt 64 d)
    let e := match who.thr with | some j => { e with threadV := true, thread := BitVec.ofNat 3 j } | none => e
    match who.tid with
    | some t => (old, postInt (report s e) t 14)
    | none => (old, report s e)

/-- A thread as an adder (R367, R492). -/
def adderThread (s : State) (t : Tid) : Adder :=
  let c := cellOf t
  if isMantle c then { code := agentCode s (agentOfTid t), unit := 1, sub := c - 768, thr := some (thrOf t) }
  else { code := agentCode s (.thread t), unit := 0x20, inst := c / 8, sub := (cell s c).site.toNat, tid := some t, thr := some (thrOf t) }

/-- The agent of a PEG_VAL or PEG_ADD write as an adder (R367, R492). -/
def adderAgent (s : State) (a : Agent) : Adder :=
  match a with
  | .host => { code := 0, unit := 0 }
  | .mantle c j => { code := agentCode s (.mantle c j), unit := 1, sub := c.val, thr := some j.val }
  | .thread t => adderThread s t

/-- A watch set on a peg for an engine (R489): met at once when its condition holds. -/
def watchPeg (s : State) (key p : Nat) (up : Bool) (x : Nat) : State :=
  let v := pegVal s p
  { s with pegs := { s.pegs with watches := tins key { peg := p, up := up, value := x, met := if up then decide (x ≤ v) else decide (v ≤ x) } s.pegs.watches } }

/-- Whether an engine's watch has been met. -/
def watchMet (s : State) (key : Nat) : Bool := match tget? s.pegs.watches key with | some w => w.met | none => false

/-- An engine's watch dropped. -/
def unwatch (s : State) (key : Nat) : State := { s with pegs := { s.pegs with watches := tdel key s.pegs.watches } }

/-- Whether an agent may write PEG_VAL and PEG_ADD (R371): the Mantle, the host, threads at S or above. -/
def pegWriter (s : State) (a : Agent) : Bool := agentAtLeast s a 1

/-- A PEG_VAL write: `peg.set` of the selected peg; a half keeps the other half; bit 63 set is discarded and recorded (R371). -/
def pegValWrite (s : State) (a : Agent) (h : Half) (v : Word) : State :=
  let p := selF s a .pegSel F.pegSelPeg
  if !pegWriter s a then accessError s a 0x020008
  else
    let old := wd (pegVal s p)
    let w := match h with
      | .full => v
      | .low => setBits old 31 0 (bits v 31 0)
      | .high => setBits old 63 32 (bits v 31 0)
    if bit w 63 then accessError s a 0x020008 else pegPut s p w.toNat

/-- A PEG_VAL read: `peg.rd` of the selected peg (R371). -/
def pegValRead (s : State) (a : Agent) : Word := wd (pegVal s (selF s a .pegSel F.pegSelPeg))

/-- A PEG_ADD write: a signed add; a half is taken as signed, the upper one times 2³² (R371). -/
def pegAddWrite (s : State) (a : Agent) (h : Half) (v : Word) : State :=
  if !pegWriter s a then accessError s a 0x020010
  else
    let d : Int := match h with
      | .full => v.toInt
      | .low => sval 32 (bits v 31 0)
      | .high => sval 32 (bits v 31 0) * 2 ^ 32
    (pegAddTo s (selF s a .pegSel F.pegSelPeg) d (adderAgent s a)).2

/-- PEG_WAIT_SATISFIED (R366): a satisfied wait resumes. -/
def execPegWaitSatisfied (t : Tid) (s : State) : Host.Outcome State Fault Refusal := .next (finishWait s t)

/-- BARRIER_WAVE_RELEASE (R370): the next wave of barrier waiters is released. Each value change's waves are RAMP_STEP apart from the change on, so that of several changes the next waves go in turn (log 119). -/
def execBarrierWaveRelease (s : State) : Host.Outcome State Fault Refusal :=
  .next (match s.pegs.waves with
    | [] => s
    | c :: rest =>
      let later := if (c.drop 1).isEmpty then rest else rest ++ [c.drop 1]
      (c.headD []).foldl finishArrive { s with pegs := { s.pegs with waves := later } })

end Sys2Proof.Machine
end

