-- ==== Sys2Proof/Machine/Task.lean ====
section
/-! DEFINITION. Region task queues, dispatch and completion (R349–R354), tile ownership at dispatch (R166), SPEC eligibility (R299), the per-cell update of a verdict (R94, R301). -/

namespace Sys2Proof.Machine

/-- The site of a logical cell in DEV_BLKMAP; 15 when it has none (R16). -/
def siteOf (s : State) (c : Nat) : Nat := bits (reg s .devBlkmap (c / 8)) (4 * (c % 8) + 3) (4 * (c % 8))

/-- Whether a logical cell has no site. -/
def cellRetired (s : State) (c : Nat) : Bool := decide (siteOf s c = 15)

/-- The fields of a task descriptor's word 1 (R350). -/
def tdNtm1 (w : Word) : Nat := bits w 2 0
def tdSpec (w : Word) : Bool := bit w 3
def tdAsid (w : Word) : BitVec 6 := BitVec.ofNat 6 (bits w 9 4)
def tdCell (w : Word) : Nat := bits w 15 10
def tdAny (w : Word) : Bool := bit w 16
def tdPegen (w : Word) : Bool := bit w 17
def tdPeg (w : Word) : Nat := bits w 31 18
def tdMine (w : Word) : BitVec 16 := BitVec.ofNat 16 (bits w 47 32)

/-- A descriptor's word. -/
def dw (ws : List Word) (i : Nat) : Word := ws.getD i 0

/-- Whether a descriptor breaks a must-be-zero rule (R350). -/
def tdMalformed (ws : List Word) : Bool :=
  decide (bits (dw ws 0) 1 0 ≠ 0) || decide (bits (dw ws 0) 63 48 ≠ 0) || decide (bits (dw ws 1) 63 48 ≠ 0)
    || decide (bits (dw ws 2) 63 48 ≠ 0) || (!tdSpec (dw ws 1) && decide (bits (dw ws 2) 47 0 ≠ 0))

/-- The queue of a key (64 × region + queue). -/
def tqueue (s : State) (k : Nat) : List TqEnt := tget [] s.tasks.queues k

/-- A queue replaced. -/
def setQueue (s : State) (k : Nat) (q : List TqEnt) : State :=
  { s with tasks := { s.tasks with queues := tset [] s.tasks.queues k q } }

/-- Pushes held in the fabric enter their queue as entries free (R349). -/
def admitHeld (s : State) (k : Nat) : State :=
  match s.tasks.held.find? (fun p => p.key = k) with
  | some p =>
    if (tqueue s k).length < 128 then
      let s := { s with tasks := { s.tasks with held := s.tasks.held.erase p } }
      setQueue s k (tqueue s k ++ [{ desc := p.desc }])
    else s
  | none => s

/-- A push to a queue, by an MMIO agent or a unit: held in the fabric while it holds 128 or more (R349). A region whose PLL is stopped starts it (R23). -/
def taskPush (s : State) (k desc : Nat) (agent : Option Agent := none) : State :=
  let s := pllGo s (k / 64)
  if (tqueue s k).length < 128 then setQueue s k (tqueue s k ++ [{ desc := desc }])
  else { s with tasks := { s.tasks with held := s.tasks.held ++ [{ key := k, desc := desc, agent := agent }] } }

/-- The thread that an agent is. -/
def agentThread : Agent → Option Tid
  | .host => none
  | .mantle c j => some (tidOf (768 + c.val) j.val)
  | .thread t => some t

/-- DEV_TQPUSH written (R349, R350). -/
def tqpushWrite (s : State) (a : Agent) (v : Word) : State :=
  if !agentAtLeast s a 1 || decide (bits v 5 0 ≠ 0) || decide (bits v 63 52 ≠ 0) || !inHbm (64 * bits v 51 6) then accessError s a 0x508
  else taskPush s (64 * selF s a .devTqsel F.devTqselRegion + selF s a .devTqsel F.devTqselQueue) (64 * bits v 51 6) (some a)

/-- The dispatcher of a region as an adder (R367, R492). -/
def adderDispatcher (r : Nat) : Adder := { code := pack [(0, 7), (8, r)], unit := 0x25, inst := r }

/-- A task's end (R354): STATUS is written, then the peg is signalled with release semantics, and the queue's DONE counts it. -/
def taskEnd (s : State) (k desc code cellNo : Nat) (pegen : Bool) (peg : Nat) : State :=
  let s := homeWrite s (desc + 56) (leBytes (code ||| (cellNo <<< 8)) 8)
  let s := bumpRf s .devTqstat F.devTqstatDone 1 k
  if pegen then (pegAddTo s peg 1 (adderDispatcher (k / 64))).2 else s

/-- How a SPEC descriptor may be dispatched now (R299): as an ordinary task, as a SPEC task, or not yet. -/
inductive Elig where
  | ordinary
  | spec
  | held
  deriving DecidableEq, Repr

/-- The dispatch rule of R299, for a region's task unit; shedding stage 1 closes SPEC dispatch (R444). -/
def eligible (s : State) (k : Nat) (ws : List Word) : Elig :=
  let w := dw ws 1
  let st := bits (dw ws 2) 47 0
  let unp := match (asEntry s (64 * k) (tdAsid w)).1 with | .ok (u, _) => u | .error _ => true
  if !tdSpec w || decide (st ≤ s.hem.step.toNat) then .ordinary
  else if st = s.hem.step.toNat + 1 && decide (rf s .devHemctl F.devHemctlState = 2)
      && bit (reg s .devHemasid) (tdAsid w).toNat && !unp && decide (rf s .powerShed F.powerShedStage = 0) then .spec
  else .held

/-- Idle threads of a cell, lowest first. -/
def idleThreads (s : State) (c : Nat) : List Tid := (tidsOf c).filter (fun t => decide ((thread s t).st = .idle))

/-- Whether a cell can take a task of n threads now (R351). -/
def cellTakes (s : State) (c n : Nat) : Bool := !cellRetired s c && decide (n ≤ (idleThreads s c).length)

/-- The target of a task in a queue (R351): the named cell, or the lowest-numbered cell of the mask with idle threads. -/
def taskTarget (s : State) (k : Nat) (ws : List Word) : Option Nat :=
  let r := k / 64
  let w := dw ws 1
  let n := tdNtm1 w + 1
  if tdAny w then
    let m := reg s .devTqcfg k
    (findBelow 64 (fun i => (bit m i || decide (m = 0)) && cellTakes s (64 * r + i) n)).map (fun i => 64 * r + i)
  else if cellTakes s (64 * r + tdCell w) n then some (64 * r + tdCell w) else none

/-- The capo latches emptied when no thread holds their tile any longer (R183). -/
def capoHeld (s : State) (c : Nat) : State :=
  match (cell s c).capo with
  | some (k, _, _) => if (tidsOf c).any (fun t => bit (thread s t).mine k) then s else modCell s c (fun x => { x with capo := none })
  | none => s

/-- MINE given to a thread (R166): a tile gained from another address space loses its extent and takes the thread's tag. -/
def gainTiles (s : State) (t : Tid) (mine : BitVec 16) : State :=
  let th := thread s t
  let c := cellOf t
  let gained := (List.range 16).filter (fun i => bit mine i && !bit th.mine i)
  let s := gained.foldl (fun s i =>
    let a := tget {} (cell s c).tattr i
    if a.tag = th.asid then s
    else modCell s c (fun x => { x with
      tattr := tins i { tag := th.asid } x.tattr, tpoison := x.tpoison.filter (fun p => decide (p.1 / 64 ≠ i)), tparity := x.tparity.filter (fun p => decide (p.1 / 64 ≠ i)), opcache := x.opcache.filter (fun o => decide (o.1 ≠ i)),
      capo := x.capo.filter (fun o => decide (o.1 ≠ i)) })) s
  capoHeld (modThread s t (fun th => { th with mine := mine })) c

/-- One thread of a task set going (R353). -/
def startThread (s : State) (t : Tid) (ws : List Word) (desc idx job : Nat) (spec : Option (BitVec 48)) : State :=
  let th := thread s t
  let asid := tdAsid (dw ws 1)
  let regs : Table Word := [(10, dw ws 3), (11, dw ws 4), (12, dw ws 5), (13, dw ws 6), (14, wd idx), (15, wd desc)].foldl
    (fun a p => tset 0 a p.1 p.2) []
  let sr := [0x11, 0x02, 0x05, 0x06, 0x07].foldl (fun a n => tdel n a) th.sr
  let keep := decide (th.asid = asid)
  let th' : Thread := { th with
    st := .ready, level := 0, pc := wd (4 * bits (dw ws 0) 47 2), regs := regs, busy := 0, sr := sr, asid := asid,
    spec := spec, deadline := 0, mine := 0, v := if keep then th.v else [], q := if keep then th.q else [],
    vq := [], tq := [], hold := [], younger := 0, yield := false, late := none, task := some job }
  gainTiles (setThread s t th') t (tdMine (dw ws 1))

/-- Dispatch of a checked head to a cell (R353). -/
def dispatchTo (s : State) (k : Nat) (e : TqEnt) (ws : List Word) (c : Nat) (sp : Bool) : State :=
  let w := dw ws 1
  let spec := if sp then some (BitVec.ofNat 48 (bits (dw ws 2) 47 0)) else none
  let ts := (idleThreads s c).take (tdNtm1 w + 1)
  let job := s.tasks.next
  let run : TaskRun := { desc := e.desc, queue := k, cell := c, threads := ts, left := ts.length, spec := spec, pegen := tdPegen w, peg := tdPeg w }
  let s := (ts.zip (List.range ts.length)).foldl (fun s p => startThread s p.1 ws e.desc p.2 job spec) s
  let s := modCell s c (fun x => { x with streams := x.streams.filter (fun m => !ts.any (fun t => decide (thrOf t = m.thr.val))) })
  let s := { s with tasks := { s.tasks with runs := tins job run s.tasks.runs, next := job + 1, rr := tins (k / 64) (k % 64) s.tasks.rr } }
  let s := admitHeld (setQueue s k ((tqueue s k).drop 1)) k
  wakeCell (acquire s c) c

/-- The head of a queue that can be dispatched now, with its target (R351). -/
def dispatchable (s : State) (k : Nat) : Option (TqEnt × List Word × Nat × Bool) :=
  match tqueue s k with
  | [] => none
  | e :: _ =>
    match e.words with
    | none => none
    | some ws =>
      match eligible s (k / 64) ws, taskTarget s k ws with
      | .ordinary, some c => some (e, ws, c, false)
      | .spec, some c => some (e, ws, c, true)
      | _, _ => none

/-- TASK_DISPATCH (R351, R353), in a region that is clocked (R18, R23): round-robin among the region's queues whose heads can be dispatched, from the queue after the one that dispatched last. -/
def execTaskDispatch (r : Fin 12) (s : State) : Host.Outcome State Fault Refusal :=
  let last := tget 63 s.tasks.rr r.val
  let keys := (List.range 64).map (fun i => 64 * r.val + (last + 1 + i) % 64)
  .next (if !clkBit s F.devClkRunning r.val then s
    else
      match keys.findSome? (fun k => (dispatchable s k).map (fun d => (k, d))) with
      | some (k, e, ws, c, sp) => dispatchTo s k e ws c sp
      | none => s)

/-- The cell that a checked head waits for set waking beside the PLL of its region, in a region that is not yet clocked (R23). -/
def wakeTarget (s : State) (k : Nat) (ws : List Word) : State :=
  if clkBit s F.devClkRunning (k / 64) then s
  else
    match taskTarget s k ws with
    | some c => wakeCell s c
    | none => s

/-- A head that completes without running (R352): its status, its peg, and the next descriptor comes to the head. -/
def headDone (s : State) (k desc code : Nat) (w : Word) (peg : Bool) : State :=
  admitHeld (setQueue (taskEnd s k desc code 0 (peg && tdPegen w) (tdPeg w)) k ((tqueue s k).drop 1)) k

/-- Whether a descriptor names a cell of region r that is retired. -/
def headGone (s : State) (r : Nat) (w : Word) : Bool := !tdAny w && cellRetired s (64 * r + tdCell w)

/-- A checked head that waits for a cell retired meanwhile completes with NOCELL (R352). -/
def loseHead (s : State) (k : Nat) : State :=
  match tqueue s k with
  | e :: _ =>
    match e.words with
    | some ws => if headGone s (k / 64) (dw ws 1) then headDone s k e.desc 3 (dw ws 1) true else s
    | none => s
  | [] => s

/-- Every head of a region that waits for a retired cell completed (R352). -/
def loseHeads (s : State) (r : Nat) : State := (List.range 64).foldl (fun s q => loseHead s (64 * r + q)) s

/-- DESCRIPTOR_HEAD_CHECK (R352): the head is read through the region cache and checked; a head already checked whose cell has since been retired completes with NOCELL. R23's figures have the power-up of the target start with the PLL, so the check does not wait for the region's clock (log 101). -/
def execDescriptorHeadCheck (r : Fin 12) (qn : Fin 64) (s : State) : Host.Outcome State Fault Refusal :=
  let k := 64 * r.val + qn.val
  .next (match tqueue s k with
    | [] => s
    | e :: rest =>
      match e.words with
      | some ws => if headGone s r.val (dw ws 1) then headDone s k e.desc 3 (dw ws 1) true else s
      | none =>
        let ((bs, bad), s1) := homeRead s e.desc 64
        let ws := (List.range 8).map (fun i => wd (ofLE ((bs.drop (8 * i)).take 8)))
        let w := dw ws 1
        match bad with
        | some p => headDone s1 k e.desc 2 w (!(decide (e.desc + 8 ≤ p) && decide (p < e.desc + 16)) && !linePoison (homeLine s1 (e.desc / 128)) (e.desc % 128 + 8) 8)
        | none =>
          match asEntry s1 (64 * r.val) (tdAsid w) with
          | (.error _, s2) => headDone s2 k e.desc 2 w true
          | (.ok _, s2) =>
            if tdMalformed ws then headDone s2 k e.desc 2 w true
            else if headGone s r.val w then headDone s2 k e.desc 3 w true
            else wakeTarget (setQueue s2 k ({ e with words := some ws } :: rest)) k ws)

/-- TASK_COMPLETE (R354): a task whose threads have all ended writes STATUS OK and signals. -/
def execTaskComplete (j : Nat) (s : State) : Host.Outcome State Fault Refusal :=
  .next (match tget? s.tasks.runs j with
    | some run =>
      if run.left = 0 then
        let s := { s with tasks := { s.tasks with runs := tdel j s.tasks.runs } }
        taskEnd s run.queue run.desc 1 (run.cell % 64) run.pegen run.peg
      else s
    | none => s)

/-- A thread of a task stopped: idle, no tile held, nothing of its window, of a held action or of an outstanding load kept; what its units have resolved has been done (R301). -/
def stopThread (s : State) (t : Tid) : State :=
  let s := modThread (leaveWaves s t) t (fun th => { th with
    st := .idle, mine := 0, spec := none, task := none, hold := [], younger := 0, busy := 0, vq := [], tq := [], late := none })
  capoHeld (modCell s (cellOf t) (dropLoads (thrOf t) 0)) (cellOf t)

/-- A commit's tasks, ordinary from now on (R293): those of the step that becomes the one in progress. -/
def commitRuns (s : State) (step : BitVec 48) : State :=
  { s with tasks := { s.tasks with runs := s.tasks.runs.map (fun (p : Nat × TaskRun) =>
      (p.1, if p.2.spec = some step then { p.2 with spec := none } else p.2)) } }

/-- SPEC tasks of the job aborted by a discard (R294, R301): each descriptor returns to the head of its queue in the original order; the cells stop the threads when they apply the update (R94). -/
def requeueSpec (s : State) : State :=
  let spec := s.tasks.runs.filter (fun p => p.2.spec.isSome)
  spec.reverse.foldl (fun s p =>
    let s := { s with tasks := { s.tasks with runs := tdel p.1 s.tasks.runs } }
    setQueue s p.2.queue ({ desc := p.2.desc } :: tqueue s p.2.queue)) s

/-- DEV_TQPUSH (R349, R350). -/
def execDevTqpush (a : Agent) (v : Word) (s : State) : Host.Outcome State Fault Refusal := .next (mmioCmd s a 0x508 (fun s => tqpushWrite s a v))

end Sys2Proof.Machine
end

