-- ==== Sys2Proof/Machine/Engine.lean ====
section
/-! DEFINITION. What the part's engines share: translation over spans (R86–R96), memory accesses with poison marks, the CRC-64 of R281, the stacks' task queues (R264, R287). -/

namespace Sys2Proof.Machine

/-! ## Spans -/

/-- The pseudo-core whose TLBs stand for those of the collective engine, of a DMA engine, of a stack's walker. -/
def collCore : Nat := 1000
def dmaCore (e : Nat) : Nat := 1001 + e
def stackCore (k : Nat) : Nat := 2000 + k

/-- EPOCH of an address space as the hem holds it (R94). -/
def hemEpoch (s : State) (asid : BitVec 6) : Bool := bit (reg s .devEpoch) asid.toNat

/-- A span of virtual addresses translated page by page: physical pieces, or the fault of the first page that has one. Every page must be memory. -/
def mapSpanFrom (c : Nat) (x : XCtx) (k : Access) : Nat → Nat → Nat → State → Except Exc (List (Nat × Nat)) × State
  | 0, _, _, s => (.ok [], s)
  | f + 1, va, n, s =>
    if n = 0 then (.ok [], s)
    else
      let m := min n (4096 - va % 4096)
      match translate s c x (wd va) k with
      | (.error e, s) => (.error e, s)
      | (.ok pa, s) =>
        if !isMemory s pa then (.error (xlatFault k 5 0 (wd va)), s)
        else
          match mapSpanFrom c x k f (va + m) (n - m) s with
          | (.error e, s) => (.error e, s)
          | (.ok l, s) => (.ok ((pa, m) :: l), s)

/-- A whole span translated. -/
def mapSpan (s : State) (c : Nat) (x : XCtx) (k : Access) (va n : Nat) : Except Exc (List (Nat × Nat)) × State :=
  mapSpanFrom c x k (n / 4096 + 2) va n s

/-! ## Bytes with their poison marks -/

/-- The marks of the words under some bytes of a line. -/
def lineMarks (x : Line) (off n : Nat) : List Bool := (List.range n).map (fun i => bit x.poison ((off + i) / 8))

/-- Bytes read at their home by a requester on a die, each with the mark of its word. -/
def readMarked (s : State) (d pa n : Nat) : List (Byte × Bool) × State :=
  (cutLines pa (List.replicate n 0)).foldl (fun (a : List (Byte × Bool) × State) c =>
    let (x, s) := readLineFrom a.2 d c.1
    let k := c.2.2.length
    (a.1 ++ (lineBytes x c.2.1 k).zip (lineMarks x c.2.1 k), s)) ([], s)

/-- Marked bytes cut at 8-byte words: (address, bytes, mark). -/
def cutWords : Nat → Nat → List (Byte × Bool) → List (Nat × List Byte × Bool)
  | 0, _, _ => []
  | f + 1, pa, l =>
    if l.isEmpty then []
    else
      let k := 8 - pa % 8
      (pa, (l.take k).map (fun p => p.1), (l.take k).any (fun p => p.2)) :: cutWords f (pa + k) (l.drop k)

/-- Marked bytes written at their home by a requester on a die, word by word. -/
def writeMarked (s : State) (d pa : Nat) (l : List (Byte × Bool)) : State :=
  (cutWords (l.length / 8 + 2) pa l).foldl (fun s p => homeWriteFrom s d p.1 p.2.1 p.2.2) s

/-- The bytes of some pieces, in order. -/
def readPieces (d : Nat) (ps : List (Nat × Nat)) (s : State) : List (Byte × Bool) × State :=
  ps.foldl (fun (a : List (Byte × Bool) × State) p => let (l, s) := readMarked a.2 d p.1 p.2; (a.1 ++ l, s)) ([], s)

/-- Bytes laid over some pieces, in order. -/
def writePieces (d : Nat) : List (Nat × Nat) → List (Byte × Bool) → State → State
  | [], _, s => s
  | (pa, n) :: t, l, s => writePieces d t (l.drop n) (writeMarked s d pa (l.take n))

/-- Bytes with no mark. -/
def clean (l : List Byte) : List (Byte × Bool) := l.map (fun b => (b, false))

/-- The collective engine's requests for some pieces drawn from the stacks' tokens: its partition is that of the gradient exchange (R24, R255). -/
def drawPieces (s : State) (ps : List (Nat × Nat)) : State :=
  ps.foldl (fun s p => accessDraws s Activity.gradient.part p.1 p.2) s

/-- A span read by the collective engine: marked bytes, or the fault. -/
def spanRead (s : State) (c : Nat) (x : XCtx) (va n : Nat) : Except Exc (List (Byte × Bool)) × State :=
  match mapSpan s c x .load va n with
  | (.error e, s) => (.error e, s)
  | (.ok ps, s) => let (l, s) := readPieces (dieOfCore c) ps (drawPieces s ps); (.ok l, s)

/-- A span written by the collective engine, or the fault with nothing written. -/
def spanWrite (s : State) (c : Nat) (x : XCtx) (va : Nat) (l : List (Byte × Bool)) : Option Exc × State :=
  match mapSpan s c x .store va l.length with
  | (.error e, s) => (some e, s)
  | (.ok ps, s) => (none, writePieces (dieOfCore c) ps l (drawPieces s ps))

/-! ## CRC-64 (R281) -/

/-- One byte taken most significant bit first. -/
def crcByte (c : Word) (b : Byte) : Word :=
  (List.range 8).foldl (fun (c : Word) _ => if bit c 63 then (c <<< 1) ^^^ 0x42F0E1EBA9EA3693#64 else c <<< 1) (c ^^^ (b.setWidth 64 <<< 56))

/-- The CRC of a byte string from a value. -/
def crc64 (l : List Byte) (c : Word := 0) : Word := l.foldl crcByte c

/-- The fold of a written range of a chunk: its bytes, then its first virtual address. -/
def foldOf (l : List Byte) (va : Nat) : Word := crc64 (leBytes va 8) (crc64 l)

/-! ## The stacks' queues (R264–R266) -/

/-- A stack's lining state. -/
def lstack (s : State) (k : Nat) : LStack := tget {} s.lining k

/-- A stack's lining state changed. -/
def modLstack (s : State) (k : Nat) (f : LStack → LStack) : State := { s with lining := tmod {} s.lining k f }

/-- An entry put into a stack's queue; past 256 it is held in the IO fabric, and its thread's later MMIO accesses wait behind it (R264). -/
def lpush (s : State) (k : Nat) (e : LEnt) : State :=
  modLstack s k (fun x => if x.queue.length < 256 then { x with queue := x.queue ++ [e] } else { x with held := x.held ++ [e] })

/-- Held pushes enter the queue as entries free. -/
def ladmit (x : LStack) : LStack :=
  let n := 256 - x.queue.length
  { x with queue := x.queue ++ x.held.take n, held := x.held.drop n }

/-- A LINING_QPUSH write (R264, R265): from a SPEC thread the task runs as SPEC (R300). -/
def qpushWrite (s : State) (a : Agent) (v : Word) : State :=
  let desc := 64 * bits v 51 6
  if !agentAtLeast s a 1 || !inHbm desc then accessError s a 0x300008
  else
    let spec := match a with
      | .thread t => (thread s t).spec.isSome
      | .mantle _ _ => false
      | .host => false
    lpush s (selF s a .liningStacksel F.liningStackselStack) { desc := desc, spec := spec, agent := some a }

/-- LINING_QPUSH (R264, R265). -/
def execLiningQpush (a : Agent) (v : Word) (s : State) : Host.Outcome State Fault Refusal := .next (mmioCmd s a 0x300008 (fun s => qpushWrite s a v))

/-! ### Descriptor fields (R266) -/

def ldKind (ws : List Word) : Nat := bits (dw ws 0) 3 0
def ldSpec (ws : List Word) : Bool := bit (dw ws 0) 4
def ldEss (ws : List Word) : Bool := bit (dw ws 0) 5 || decide (ldKind ws = 1) || decide (ldKind ws = 3)
def ldOrder (ws : List Word) : Bool := bit (dw ws 0) 6
def ldDig (ws : List Word) : Bool := bit (dw ws 0) 7
def ldAsid (ws : List Word) : BitVec 6 := BitVec.ofNat 6 (bits (dw ws 0) 13 8)
def ldPegen (ws : List Word) : Bool := bit (dw ws 0) 14
def ldStep (ws : List Word) : Word := wd (bits (dw ws 0) 63 16)
def ldN (ws : List Word) : Nat := bits (dw ws 1) 39 0
def ldPeg (ws : List Word) : Nat := bits (dw ws 1) 53 40
def ldA (ws : List Word) (i : Nat) : Nat := (dw ws (2 + i)).toNat
def ldParam (ws : List Word) : Nat := (dw ws 6).toNat
def ldResult (ws : List Word) : Nat := (dw ws 7).toNat

/-- Whether a completion record can be written at RESULT (R269). -/
def resultOk (ws : List Word) : Bool := decide (ldResult ws % 64 = 0) && inHbm (ldResult ws)

/-- The eight words of a descriptor in memory, read for a partition (R24), and whether one is poisoned. -/
def readWords8 (s : State) (part pa : Nat) : (List Word × Bool) × State :=
  let ((bs, bad), s) := homeRead (accessDraws s part pa 64) pa 64
  (((List.range 8).map (fun i => wd (ofLE ((bs.drop (8 * i)).take 8))), bad.isSome), s)

/-- The adder of a stack (R367, R492). -/
def adderLining (k e : Nat) : Adder := { code := pack [(0, 3), (8, k), (16, e)], unit := 8, inst := k, sub := e }

/-- The error record of a task that has ended other than OK, or whose RESULT is unusable (R456). -/
def liningErr (k desc code elem : Nat) : ErrRec := mkErr 0x41 8 k 0 (wd desc) (wd code) (wd elem)

/-- What a task that ends leaves besides its writes (R269, R274, R275, R281): the record, the peg, the count, the error record of a status other than OK. -/
def liningEnd (s : State) (k : Nat) (desc : Nat) (ws : List Word) (code : Nat) (elem : Nat) (record : List Byte) (eng : Nat) : State :=
  let ok := resultOk ws
  let s := if ok then homeWrite (accessDraws s Activity.lining.part (ldResult ws) 64) (ldResult ws) record else s
  let s := if code = 0 && ok then s else report s (liningErr k desc code elem)
  let s := bumpRf s .liningQstat F.liningQstatDone 1 k
  if ldPegen ws then (pegAddTo s (ldPeg ws) 1 (adderLining k eng)).2 else s

/-- A record that holds a status code alone (R275). -/
def bareRecord (code elem : Nat) : List Byte := leBytes (code ||| (elem <<< 24)) 8 ++ List.replicate 56 0

/-- A discard ends every queued and active task of the job with SPEC set (R287): a queued one at once, an active one at its next chunk boundary. -/
def discardLining (s : State) : State :=
  (List.range 12).foldl (fun s k =>
    let x := lstack s k
    let run := x.queue ++ x.held
    let r := run.foldl (fun (a : List LEnt × State) e =>
      match e.own with
      | some _ => (a.1 ++ [e], a.2)
      | none =>
        let ((ws, _), s) := readWords8 a.2 Activity.lining.part e.desc
        if e.spec || ldSpec ws then (a.1, liningEnd s k e.desc ws 8 0 (bareRecord 8 0) 0) else (a.1 ++ [e], s)) (([] : List LEnt), s)
    modLstack r.2 k (fun x => { x with
      queue := r.1.take 256, held := r.1.drop 256,
      active := x.active.map (fun (p : Nat × LTask) => if p.2.spec && decide (p.2.code = 0) then (p.1, { p.2 with code := 8 }) else p) })) s

end Sys2Proof.Machine
end

