-- ==== Sys2Proof/Machine/Net.lean ====
section
/-! DEFINITION. The Ethernet ports as senders (R384, R386, R387): addresses and next hops, tags, priorities that PFC stops, packets that wait. -/

namespace Sys2Proof.Machine

/-- Whether a port has link. -/
def portUp (s : State) (p : Nat) : Bool := decide (rf s .ethPortstat F.ethPortstatState p = 3)

/-- A port's MAC address (R384). -/
def portMac (p : Nat) : BitVec 48 := Config.macBase + BitVec.ofNat 48 p

/-- Bytes in network order. -/
def beBytes (v n : Nat) : List Byte := (leBytes v n).reverse

/-! ## Next hops (R384) -/

/-- Whether an address is an IPv4 address in IPv4-mapped form. -/
def isV4 (a : List Byte) : Bool := decide (a.take 12 = List.replicate 10 0 ++ [0xFF, 0xFF])

/-- Whether two addresses agree in their prefix of a length. -/
def samePrefix (n : Nat) (a b : List Byte) : Bool := decide (ofLE a.reverse / 2 ^ (128 - n) = ofLE b.reverse / 2 ^ (128 - n))

/-- The address that a packet from a port to a GID goes to first: that GID on the port's own prefix or where no gateway is set, else the gateway (PRESUMED, as IP has it, log 126). -/
def nextHop (s : State) (p : Nat) (gid : List Byte) : List Byte :=
  match tget? s.net.gids p, tget? s.net.gateways p with
  | some own, some gw =>
    let n := tget 0 s.net.prefixes p + (if isV4 own then 96 else 0)
    if samePrefix n own gid || gw.all (fun b => decide (b = 0)) then gid else gw
  | _, _ => gid

/-- The MAC address of a packet's next hop, if it is resolved. -/
def hopMac (s : State) (p : Nat) (gid : List Byte) : Option (BitVec 48) :=
  ((tget [] s.net.peers p).find? (fun e => decide (e.1 = nextHop s p gid))).map (fun e => e.2)

/-- Whether a packet to a GID can be addressed: an answer to a packet's sender always can. -/
def hopKnown (s : State) (p : Nat) (gid : List Byte) : Bool := gid.isEmpty || (hopMac s p gid).isSome

/-- A request for the next hop's address, by ARP or Neighbour Discovery (R384). -/
def askHop (s : State) (p : Nat) (gid : List Byte) : State :=
  emit s (.frame p "address request" (nextHop s p gid ++ beBytes (portMac p).toNat 6 ++ tget (List.replicate 16 0) s.net.gids p))

/-! ## Priorities (R386) -/

/-- The key of a priority of a port. -/
def prioKey (p prio : Nat) : Nat := 8 * p + prio

/-- Whether the partner has paused a priority on a port (R386). -/
def prioPaused (s : State) (p prio : Nat) : Bool := (tget? s.net.pfcRx (prioKey p prio)).isSome

/-- Whether the part asserts PFC for a priority on a port: its buffer is high, or shedding stage 4 is in force (R386). -/
def pfcAsserted (s : State) (p prio : Nat) : Bool := s.net.pfcTx.contains (prioKey p prio) || decide (4 ≤ rf s .powerShed F.powerShedStage)

/-- PFC_RX and PFC_TX of a port as they stand for RPRI. -/
def pfcShow (s : State) (p : Nat) : State :=
  setRf (setRf s .ethPortstat F.ethPortstatPfcRx (prioPaused s p s.net.rpri).toNat p) .ethPortstat F.ethPortstatPfcTx (pfcAsserted s p s.net.rpri).toNat p

/-- A pause frame for a priority, with quanta 0xFFFF. -/
def pfcFrame (s : State) (p prio : Nat) : State := emit s (.frame p "PFC pause" (BitVec.ofNat 8 prio :: beBytes 0xFFFF 2))

/-- PFC shown on every port after a change of the shedding stage; where stage 4 now asserts it, the first pause frames go out. -/
def pfcStage (s : State) (assert : Bool) : State :=
  (List.range 4).foldl (fun s p =>
    let s := pfcShow s p
    if assert && portUp s p then pfcFrame (pfcFrame s p s.net.rpri) p s.net.cpri else s) s

/-! ## Packets -/

/-- How a packet to a GID leaves on a port at a priority (R384, R387). -/
def tagOf (s : State) (p prio : Nat) (gid : List Byte) : NetTag := { dmac := if gid.isEmpty then none else hopMac s p gid, vlan := s.net.vlan, pcp := prio }

/-- A packet with its tag. -/
def Out.withTag (o : Out) (t : NetTag) : Out :=
  match o with
  | .net p r m _ => .net p r m t
  | .datagram p g q k m _ => .datagram p g q k m t
  | .packet p k d _ => .packet p k d t
  | o => o

/-- A packet sent, or put with those that wait for their priority or their next hop (R384, R386). -/
def netTry (s : State) (w : NetWait) : State :=
  if prioPaused s w.port w.prio || !hopKnown s w.port w.gid then { s with net := { s.net with wait := s.net.wait ++ [w] } }
  else emit s (w.out.withTag (tagOf s w.port w.prio w.gid))

/-- A new packet: its next hop's address is asked for where it is not known. -/
def netSend (s : State) (p prio : Nat) (gid : List Byte) (o : Out) : State :=
  let s := netTry s { port := p, prio := prio, gid := gid, out := o }
  if hopKnown s p gid then s else askHop s p gid

/-- The packets that wait are tried again, in their order. -/
def releaseNet (s : State) : State := s.net.wait.foldl netTry { s with net := { s.net with wait := [] } }

end Sys2Proof.Machine
end

