-- ==== Sys2Proof/Machine/Power.lean ====
section
/-! DEFINITION. The power controller (R432–R453): the causes that limit a region's step, peak and average limits, temperature, droop, shedding, the tuners, shutdown. -/

namespace Sys2Proof.Machine

/-! ## Steps (R433, R439) -/

/-- The bytes of a record (R459). -/
def recordBytes (r : ErrRec) (seq count : Nat) (merged : Bool) (time : Word) (step : BitVec 48) : List Byte :=
  let w0 := pack [(0, r.cause.toNat), (8, r.cls.toNat), (10, r.level.toNat), (12, r.threadV.toNat), (13, merged.toNat),
    (16, min count 65535), (32, seq % 2 ^ 32)]
  let w2 := pack [(0, r.unit.toNat), (8, r.inst.toNat), (16, r.sub.toNat), (24, r.thread.toNat)]
  [w0, time, w2, r.addr, r.d0, r.d1, r.d2, step.setWidth 64].flatMap (fun w => leBytes w.toNat 8)

/-- MHz and VNOM of a step. -/
def stepMhz (s : State) (k : Nat) : Nat := (s.power.vf.getD k (0, 0)).1
def stepMv (s : State) (k : Nat) : Nat := (s.power.vf.getD k (0, 0)).2

/-- A region's present step, its trim in mV, its effective voltage at a step (R433). -/
def stepNow (s : State) (r : Nat) : Nat := rf s .powerRegstat F.powerRegstatStep r
def trimMv (s : State) (r : Nat) : Nat := 5 * rf s .powerRegstat F.powerRegstatTrim r
def effMv (s : State) (r k : Nat) : Nat := stepMv s k + trimMv s r

/-- The limit that a cause sets on a region: 1 thermal, 2 average, 3 peak, 5 pace-follow, 6 ageing, 7 neighbour, 8 stage 3, 9 neighbour temperature. -/
def limOf (s : State) (r c : Nat) : Nat := tget 15 s.power.lim (16 * r + c)

/-- A limit replaced. -/
def setLim (s : State) (r c v : Nat) : State := { s with power := { s.power with lim := tset 15 s.power.lim (16 * r + c) v } }

/-- The causes by their codes (R344, R439), with the step each allows. -/
def causes (s : State) (r : Nat) : List (Nat × Nat) :=
  [(0, s.power.base), (1, limOf s r 1), (2, limOf s r 2), (3, min (limOf s r 3) (limOf s r 8)),
   (4, rf s .powerRegstat F.powerRegstatCap r), (5, limOf s r 5), (6, limOf s r 6), (7, min (limOf s r 7) (limOf s r 9))]

/-- The step that every cause allows. -/
def allowed (s : State) (r : Nat) : Nat := (causes s r).foldl (fun a p => min a p.2) 15

/-- REASON of every region: the cause that allows the lowest step, ties to the lowest code (R439). -/
def refreshReasons (s : State) : State :=
  (List.range 12).foldl (fun s r =>
    let a := allowed s r
    setRf s .powerRegstat F.powerRegstatReason (((causes s r).find? (fun p => decide (p.2 = a))).map (fun p => p.1) |>.getD 0) r) s

/-- The neighbours of a region (R440). -/
def neighbours (r : Nat) : List Nat :=
  ([(0, 1), (1, 2), (3, 4), (4, 5), (0, 3), (1, 4), (2, 5), (6, 7), (7, 8), (9, 10), (10, 11), (6, 9), (7, 10), (8, 11), (2, 6), (5, 9)]).filterMap
    (fun p => if p.1 = r then some p.2 else if p.2 = r then some p.1 else none)

/-- Whether two regions at two steps keep the voltage and clock limits (R440). -/
def nbOk (s : State) (r a n b : Nat) : Bool :=
  let x := effMv s r a
  let y := effMv s n b
  decide (x ≤ y + 80) && decide (y ≤ x + 80) && decide (stepMhz s a ≤ 2 * stepMhz s b) && decide (stepMhz s b ≤ 2 * stepMhz s a)

/-- The highest step up to a bound with a property; 0 when none has it. -/
def highestStep (top : Nat) (p : Nat → Bool) : Nat := ((List.range (top + 1)).reverse.find? p).getD 0

/-- The region whose move forced a region's neighbour hold (R439): kept by region. -/
def setForced (s : State) (r by' : Nat) : State := { s with power := { s.power with forcedBy := tins r by' s.power.forcedBy } }

/-- A region lowered to a step by another's move, or its own: each neighbour that would break a limit is lowered too, and the check goes outward (R441). -/
def lowerFrom : Nat → Nat → Nat → Nat → State → State
  | 0, _, r, k, s => setRf s .powerRegstat F.powerRegstatStep k r
  | f + 1, root, r, k, s =>
    (neighbours r).foldl (fun s n =>
      if nbOk s r k n (stepNow s n) then s
      else
        let t := highestStep (stepNow s n) (fun t => nbOk s r k n t)
        lowerFrom f root n t (setForced (setLim s n 7 t) n root)) (setRf s .powerRegstat F.powerRegstatStep k r)

/-- A region brought down to what its causes allow now. Downward changes are never refused (R437). -/
def settleDown (s : State) (r : Nat) : State :=
  let a := allowed s r
  refreshReasons (if a < stepNow s r then lowerFrom 12 r r a s else s)

/-- The highest step that the neighbours' present steps admit. -/
def nbMax (s : State) (r : Nat) : Nat := highestStep 15 (fun k => (neighbours r).all (fun n => nbOk s r k n (stepNow s n)))

/-- The limit that the neighbours' present steps set on a region, held by the first neighbour whose limit the next step would break. -/
def nbLimit (s : State) (r : Nat) : State :=
  let k := nbMax s r
  match (if k = 15 then none else (neighbours r).find? (fun n => !nbOk s r (k + 1) n (stepNow s n))) with
  | some n => setForced (setLim s r 7 k) r n
  | none => setLim s r 7 k

/-- The reason that a region's pace carries: of a neighbour hold, that of the region whose move forced it (R439). -/
def paceReason (s : State) : Nat → Nat → Nat
  | 0, _ => 7
  | f + 1, r =>
    let why := rf s .powerRegstat F.powerRegstatReason r
    if why = 7 then (match tget? s.power.forcedBy r with | some n => paceReason s f n | none => 7) else why

/-- The aggregates a region belongs to (R436): the package, its die. -/
def aggregates (r : Nat) : List (Fld × Fld) :=
  [(F.powerAvgPkg, F.powerAvglimPkg), if r < 6 then (F.powerAvgDiew, F.powerAvglimDiew) else (F.powerAvgDiee, F.powerAvglimDiee)]

/-- Whether an upward change keeps every power limit, by the estimate of R437 from the region's measured power. -/
def powerAdmits (s : State) (r k watts : Nat) : Bool :=
  let f := stepMhz s (stepNow s r)
  let v := effMv s r (stepNow s r)
  let num := watts * stepMhz s k * effMv s r k ^ 2
  let den := f * v ^ 2
  let p100 := (s.power.peak.getD r (0, 0)).2
  decide (100 * num ≤ 95 * p100 * den)
    && (aggregates r).all (fun p => decide (num + rf s .powerAvg p.1 * den ≤ rf s .powerAvglim p.2 * den + watts * den))

/-- A region raised as far as its causes allow, unless R437 refuses: then the change stays pending. -/
def tryRise (s : State) (r watts : Nat) : State :=
  let s := nbLimit s r
  let a := allowed s r
  refreshReasons (if stepNow s r < a && powerAdmits s r a watts then setRf s .powerRegstat F.powerRegstatStep a r else s)

/-- A region's measured power: the 100 ms average of its rail. -/
def railWatts (s : State) (r : Nat) : Nat := rf s .powerChstat F.powerChstatP100 r

/-- STEP_CHANGE (R434, R437): down at once with the neighbours' changes; up only as the causes allow. -/
def execStepChange (r : Fin 12) (target : BitVec 4) (watts : Nat) (s : State) : Host.Outcome State Fault Refusal :=
  .next (if target.toNat < stepNow s r.val then refreshReasons (lowerFrom 12 r.val r.val target.toNat s)
    else
      let s := nbLimit s r.val
      let k := min target.toNat (allowed s r.val)
      refreshReasons (if stepNow s r.val < k && powerAdmits s r.val k watts then setRf s .powerRegstat F.powerRegstatStep k r.val else s))

/-- UPWARD_CHANGE_RETRY (R437): a pending change is tried again. -/
def execUpwardChangeRetry (r : Fin 12) (watts : Nat) (s : State) : Host.Outcome State Fault Refusal := .next (tryRise s r.val watts)

/-! ## Peak and average limits (R435, R436) -/

/-- POWER_SAMPLE (R435): a channel's averages as measured. -/
def execPowerSample (ch : Fin 16) (p10 p100 : BitVec 16) (s : State) : Host.Outcome State Fault Refusal :=
  .next (setRf (setRf s .powerChstat F.powerChstatP10 p10.toNat ch.val) .powerChstat F.powerChstatP100 p100.toNat ch.val)

/-- The averages of a channel; of the package, their sum. -/
def avgOf (s : State) (f : Fld) (ch : Nat) : Nat :=
  if ch < 16 then rf s .powerChstat f ch else (List.range 16).foldl (fun a c => a + rf s .powerChstat f c) 0

/-- The regions that a channel's lever moves (R432, R435). -/
def leverRegions (ch : Nat) : List Nat :=
  if ch < 12 then [ch] else if ch = 12 then [0, 1, 2, 3, 4, 5] else if ch = 13 then [6, 7, 8, 9, 10, 11]
  else if ch = 16 then List.range 12 else []

/-- A channel's lever count. -/
def leverOf (s : State) (ch : Nat) : Nat := tget 0 s.power.levers ch

/-- A lever count replaced, with LIMITED. -/
def setLever (s : State) (ch n : Nat) : State :=
  let s := { s with power := { s.power with levers := tset 0 s.power.levers ch n } }
  if ch < 16 then setRf s .powerChstat F.powerChstatLimited (if n = 0 then 0 else 1) ch else s

/-- PEAK_LEVER (R435): a channel at 95 % of a limit pulls its lever by one increment: regions drop one step; the rate of the IO engines, or every CEIL, halves once more. -/
def execPeakLever (ch : Fin 17) (s : State) : Host.Outcome State Fault Refusal :=
  let (l10, l100) := s.power.peak.getD ch.val (0, 0)
  .next (if 95 * l10 ≤ 100 * avgOf s F.powerChstatP10 ch.val ∨ 95 * l100 ≤ 100 * avgOf s F.powerChstatP100 ch.val then
      (leverRegions ch.val).foldl (fun s r => settleDown (setLim s r 3 (stepNow s r - 1)) r) (setLever s ch.val (leverOf s ch.val + 1))
    else s)

/-- PEAK_RELEASE (R435): below 90 % the lever goes back one increment, its regions upward under R437. -/
def execPeakRelease (ch : Fin 17) (s : State) : Host.Outcome State Fault Refusal :=
  let (l10, l100) := s.power.peak.getD ch.val (0, 0)
  .next (if leverOf s ch.val ≠ 0 && decide (100 * avgOf s F.powerChstatP10 ch.val < 90 * l10) && decide (100 * avgOf s F.powerChstatP100 ch.val < 90 * l100) then
      let s := setLever s ch.val (leverOf s ch.val - 1)
      (leverRegions ch.val).foldl (fun s r =>
        let free := (List.range 17).all (fun c => decide (leverOf s c = 0) || !(leverRegions c).contains r)
        tryRise (setLim s r 3 (if free then 15 else min 15 (limOf s r 3 + 1))) r (railWatts s r)) s
    else s)

/-- An aggregate's mean, its limit, its regions (R436). -/
def aggOf (g : Nat) : Fld × Fld × List Nat :=
  if g = 0 then (F.powerAvgPkg, F.powerAvglimPkg, List.range 12)
  else if g = 1 then (F.powerAvgDiew, F.powerAvglimDiew, List.range 6)
  else (F.powerAvgDiee, F.powerAvglimDiee, (List.range 6).map (· + 6))

/-- The first region of a list that no other beats. -/
def bestRegion (better : Nat → Nat → Bool) : List Nat → Option Nat
  | [] => none
  | r :: t => match bestRegion better t with
    | none => some r
    | some x => if better x r then some x else some r

/-- AVERAGE_LIMIT_DROP (R436): at or above its limit, one region of the aggregate drops a step: the highest step, then the hottest, then the lowest-numbered. -/
def execAverageLimitDrop (g : Fin 3) (mean : BitVec 16) (s : State) : Host.Outcome State Fault Refusal :=
  let (fm, fl, rs) := aggOf g.val
  let s := setRf s .powerAvg fm mean.toNat
  let temp (r : Nat) : Nat := rf s .powerRegstat F.powerRegstatTemp r
  .next (if mean.toNat < rf s .powerAvglim fl then s
    else
      match bestRegion (fun x r => decide (stepNow s r < stepNow s x) || (decide (stepNow s r = stepNow s x) && decide (temp r < temp x))) rs with
      | some r => settleDown (setLim s r 2 (stepNow s r - 1)) r
      | none => s)

/-- AVERAGE_LIMIT_RAISE (R436): below 97 % of its limit, one region is raised, of those whose step the average limit holds (log 140): the lowest step, then the coolest, then the lowest-numbered. -/
def execAverageLimitRaise (g : Fin 3) (mean : BitVec 16) (s : State) : Host.Outcome State Fault Refusal :=
  let (fm, fl, rs) := aggOf g.val
  let s := setRf s .powerAvg fm mean.toNat
  let temp (r : Nat) : Nat := rf s .powerRegstat F.powerRegstatTemp r
  .next (if 97 * rf s .powerAvglim fl ≤ 100 * mean.toNat then s
    else
      match bestRegion (fun x r => decide (stepNow s x < stepNow s r) || (decide (stepNow s r = stepNow s x) && decide (temp x < temp r)))
          (rs.filter (fun r => decide (limOf s r 2 < 15))) with
      | some r => tryRise (setLim s r 2 (limOf s r 2 + 1)) r (railWatts s r)
      | none => s)

/-! ## Shutdown (R448, R484, R485) -/

/-- The flash control sector's offset of the shutdown record (R448). -/
def shutdownOff : Nat := 0x8000

/-- Bytes of the flash. -/
def flashBytes (s : State) (a n : Nat) : List Byte := (List.range n).map (fun i => tget 0xFF s.flash (a + i))

/-- Bytes programmed into the flash: programming clears bits and sets none. -/
def flashProg (s : State) (at' : Nat) (bs : List Byte) : State :=
  { s with flash := (bs.zip (List.range bs.length)).foldl (fun m p => tset 0xFF m (at' + p.2) (tget 0xFF m (at' + p.2) &&& p.1)) s.flash }

/-- Bytes that firmware stores in the control sector, which it rewrites as it needs (R414, R448). -/
def flashStore (s : State) (at' : Nat) (bs : List Byte) : State :=
  { s with flash := (bs.zip (List.range bs.length)).foldl (fun m p => tset 0xFF m (at' + p.2) p.1) s.flash }

/-- Stage 5 takes the stacks in service into self-refresh (R447). -/
def enterRefresh (s : State) : State :=
  (List.range 12).foldl (fun s k =>
    let st := rf s .hbmStkstat F.hbmStkstatState k
    if st = 2 then setRf s .hbmStkstat F.hbmStkstatState 5 k
    else if st = 3 then { setRf s .hbmStkstat F.hbmStkstatState 5 k with power := { s.power with inMaint := k :: s.power.inMaint } }
    else s) s

/-- The part stops until power is cycled: HBM enters self-refresh, SHUTDOWN# is driven (R447, R448); no register answers any more, no link is up, no start-up goes on. -/
def stopPart (s : State) : State :=
  let s := enterRefresh s
  let s := (List.range 4).foldl (fun s k => setRf (setRf s .ethPortstat F.ethPortstatState 0 k) .rootLinkstat F.rootLinkstatState 0 k) s
  let s := setRf (setRf (setRf s .seamStat F.seamStatState 0) .powerShed F.powerShedStage 5) .devBoot F.devBootStage 0
  let s := { s with links := { bar2Gib := s.links.bar2Gib } }
  emit { s with power := { s.power with down := true } } (.pin "SHUTDOWN#" false)

/-- An orderly shutdown: the record is made, written to the flash, and the part stops (R448). -/
def shutdown (s : State) (cause : BitVec 8) (d0 : Nat) : State :=
  if s.power.down then s
  else
    let r := mkErr cause 13 d0 0 0 (wd d0)
    let s := report s r
    stopPart (flashStore s shutdownOff (recordBytes r s.err.seq 1 false (s.lc.getD 12 0) s.hem.step))

/-! ## Temperature (R438, R441) -/

/-- A region's temperature as measured. -/
def setTemp (s : State) (r t : Nat) : State := setRf s .powerRegstat F.powerRegstatTemp t r

/-- THERMAL_THROTTLE (R438): at THROT the region drops one step. -/
def execThermalThrottle (r : Fin 12) (temp : BitVec 7) (s : State) : Host.Outcome State Fault Refusal :=
  let s := setTemp s r.val temp.toNat
  .next (if temp.toNat < s.power.throt then s else settleDown (setLim s r.val 1 (stepNow s r.val - 1)) r.val)

/-- THERMAL_RECOVERY (R438): below THROT − 3 °C the region may rise one step. -/
def execThermalRecovery (r : Fin 12) (temp : BitVec 7) (s : State) : Host.Outcome State Fault Refusal :=
  let s := setTemp s r.val temp.toNat
  .next (if temp.toNat + 3 < s.power.throt then tryRise (setLim s r.val 1 (min 15 (limOf s r.val 1 + 1))) r.val (railWatts s r.val) else s)

/-- THERMAL_TRIP (R438): at TRIP the part shuts down. -/
def execThermalTrip (r : Fin 12) (temp : BitVec 7) (s : State) : Host.Outcome State Fault Refusal :=
  let s := setTemp s r.val temp.toNat
  .next (if temp.toNat < s.power.trip then s else shutdown s 0x72 r.val)

/-- NEIGHBOUR_TEMPERATURE_DROP (R441): of two neighbours more than 30 °C apart the hotter drops a step; at 28 °C or less the rule lets go. -/
def execNeighbourTemperatureDrop (r n : Fin 12) (tr tn : BitVec 7) (s : State) : Host.Outcome State Fault Refusal :=
  let s := setTemp (setTemp s r.val tr.toNat) n.val tn.toNat
  let (hot, hi, lo) := if tn.toNat ≤ tr.toNat then (r.val, tr.toNat, tn.toNat) else (n.val, tn.toNat, tr.toNat)
  .next (if !(neighbours r.val).contains n.val then s
    else if lo + 30 < hi || (decide (lo + 28 < hi) && decide (limOf s hot 9 < 15)) then settleDown (setForced (setLim s hot 9 (stepNow s hot - 1)) hot (if hot = r.val then n.val else r.val)) hot
    else if hi ≤ lo + 28 then tryRise (setLim s hot 9 15) hot (railWatts s hot)
    else s)

/-! ## Droop and shedding (R443–R447) -/

/-- DROOP_STRETCH (R443): the clock of a block's region is stretched and the event counted. -/
def execDroopStretch (b : Fin 96) (s : State) : Host.Outcome State Fault Refusal :=
  .next (if s.power.stretched.contains b.val then s
    else bumpRf { s with power := { s.power with stretched := b.val :: s.power.stretched } } .powerRegstat F.powerRegstatStretch 1 (b.val / 8))

/-- DROOP_RECOVERY (R443). -/
def execDroopRecovery (b : Fin 96) (s : State) : Host.Outcome State Fault Refusal :=
  .next { s with power := { s.power with stretched := s.power.stretched.filter (fun x => decide (x ≠ b.val)) } }

/-- The present shedding stage. -/
def shedStage (s : State) : Nat := rf s .powerShed F.powerShedStage

/-- The stage that a sag calls for (R444). -/
def stageFor (s : State) (sag : Nat) : Nat := (s.power.shed.filter (fun t => decide (t ≤ sag))).length

/-- The stacks leave self-refresh (R447): one that was in MAINT and is still asked for it is in MAINT again. -/
def leaveRefresh (s : State) : State :=
  let was := s.power.inMaint
  (List.range 12).foldl (fun s k =>
    if rf s .hbmStkstat F.hbmStkstatState k ≠ 5 then s
    else if was.contains k ∧ rf s .hbmStkstat F.hbmStkstatMaint k = 1 then setRf s .hbmStkstat F.hbmStkstatState 3 k
    else maintEnter (setRf s .hbmStkstat F.hbmStkstatState 2 k) k) { s with power := { s.power with inMaint := [] } }

/-- A stage entered from a lower one, with the actions of the stages between (R386, R444, R445, R447, R448). -/
def enterStage (s : State) (ch sag k : Nat) : State :=
  let old := shedStage s
  if k ≤ old then s
  else
    let s := if old = 0 then bumpRf (setRf s .powerShed F.powerShedHigh 0) .powerShed F.powerShedEntries else s
    let s := setRf s .powerShed F.powerShedStage (min k 5)
    let s := setRf s .powerShed F.powerShedHigh (max (rf s .powerShed F.powerShedHigh) k)
    let s := if 3 ≤ k then report s (mkErr 0x70 13 ch 0 0 (pack [(0, k), (8, ch), (16, sag)])) else s
    let s := if old < 3 ∧ 3 ≤ k then (List.range 12).foldl (fun s r => settleDown (setLim s r 8 (stepNow s r - 2)) r) s else s
    let s := if old < 4 ∧ 4 ≤ k then pfcStage s true else s
    let s := if 5 ≤ k then enterRefresh s else s
    if 6 ≤ k then shutdown s 0x71 ch else s

/-- SHED_STAGE_ENTER (R444): the stage follows the worst channel. -/
def execShedStageEnter (ch : Fin 16) (sag : BitVec 10) (s : State) : Host.Outcome State Fault Refusal :=
  let s := setRf s .powerChstat F.powerChstatSag sag.toNat ch.val
  .next (enterStage s ch.val sag.toNat (stageFor s sag.toNat))

/-- SHED_STAGE_CLEAR (R445): the top stage clears once the worst sag is a percentage point below its threshold. -/
def execShedStageClear (sag : BitVec 10) (s : State) : Host.Outcome State Fault Refusal :=
  let k := shedStage s
  .next (if k = 0 ∨ s.power.down ∨ s.power.shed.getD (k - 1) 0 ≤ sag.toNat + 10 then s
    else
      let s := setRf s .powerShed F.powerShedStage (k - 1)
      let s := if k = 5 then leaveRefresh s else s
      let s := if k = 4 then pfcStage s false else s
      if k = 3 then (List.range 12).foldl (fun s r => tryRise (setLim s r 8 15) r (railWatts s r)) s else s)

/-- AVS_NO_ACK (R482): the channel is treated as stage 6. -/
def execAvsNoAck (ch : Fin 16) (s : State) : Host.Outcome State Fault Refusal :=
  .next (enterStage s ch.val (rf s .powerChstat F.powerChstatSag ch.val) 6)

/-- PWRGD_DEASSERT (R484): the part stops as in stage 6 without the shutdown record. -/
def execPwrgdDeassert (s : State) : Host.Outcome State Fault Refusal := .next (if s.power.down then s else stopPart s)

/-- AONCLK_LOSS (R485): the part stops as in stage 6. -/
def execAonclkLoss (s : State) : Host.Outcome State Fault Refusal := .next (if s.power.down then s else shutdown s 0x71 0)

/-- RAIL_OUT_OF_RANGE (R484): in step 1 the part stays there with SHUTDOWN# asserted, which a part that has shut down drives already. -/
def execRailOutOfRange (s : State) : Host.Outcome State Fault Refusal :=
  .next (if rf s .devBoot F.devBootStage = 1 ∧ !s.power.railHold ∧ !s.power.down then
      emit { s with power := { s.power with railHold := true } } (.pin "SHUTDOWN#" false) else s)

/-- RAIL_BACK_IN_RANGE (R484): the part resumes by itself. -/
def execRailBackInRange (s : State) : Host.Outcome State Fault Refusal :=
  .next (if s.power.railHold then emit { s with power := { s.power with railHold := false } } (.pin "SHUTDOWN#" true) else s)

/-! ## The tuners (R425, R426, R451) -/

/-- An entry added to the repair record (R17, R425, R426): one of kind 3 or 6 takes the place of its unit's older one; a full record sets RECFULL. -/
def addRepair (s : State) (r : RepairEnt) : State :=
  let ents := if r.kind = 3 || r.kind = 6 then s.repair.ents.filter (fun o => !(decide (o.kind = r.kind) && decide (o.unit = r.unit) && decide (o.site = r.site))) else s.repair.ents
  if 8184 ≤ ents.length then setRf s .devBoot F.devBootRecfull 1
  else { s with repair := { s.repair with ents := ents ++ [r], dirty := true } }

/-- The ageing limit of a region from its trim, and the job's base step (R439, R451). -/
def applyAgeing (s : State) (r : Nat) : State :=
  let top := if s.power.vf.isEmpty then 15 else highestStep 15 (fun k => decide (effMv s r k ≤ s.power.vmax))
  let s := setLim s r 6 top
  setRf s .collPace F.collPaceBase ((List.range 12).foldl (fun a r => min a (limOf s r 6)) s.power.base)

/-- A region's trim for the repair record (R426 kind 6, R451). -/
def recordTrim (s : State) (r t : Nat) : State := addRepair s { kind := 6, unit := r, site := 0, data := wd t }

/-- TUNER_REPLAN (R451): a re-plan while the part runs raises the trim by at most 5 mV; the new trim goes into the repair record, and one that reaches EOL is recorded; the region keeps its neighbours' limits at its new voltage (R440, R441). -/
def execTunerReplan (r : Fin 12) (slackFails slowOsc : Bool) (s : State) : Host.Outcome State Fault Refusal :=
  let t := rf s .powerRegstat F.powerRegstatTrim r.val
  .next (if slackFails || slowOsc then
      let s := setRf s .powerRegstat F.powerRegstatTrim (min 63 (t + 1)) r.val
      let s := if t < 63 then recordTrim s r.val (t + 1) else s
      let s := if t + 1 = s.power.eol then report s (mkErr 0x73 13 r.val 0 0 (pack [(0, r.val), (8, t + 1)])) else s
      settleDown (nbLimit (applyAgeing s r.val) r.val) r.val
    else s)

end Sys2Proof.Machine
end

