-- ==== Sys2Proof/Machine/Coll.lean ====
section
/-! DEFINITION. The collective engine (R315–R347): buckets and holding areas, contributions, ordered sums, allgathers, deadlines and voids, the receive rules, pace. -/

namespace Sys2Proof.Machine

/-! ## The job -/

def nRanks (s : State) : Nat := rf s .collJob F.collJobNrm1 + 1
def myRank (s : State) : Nat := rf s .collJob F.collJobMyrank
def nBuckets (s : State) : Nat := rf s .collJob F.collJobNbm1 + 1
def genOf (s : State) : Nat := rf s .collGen F.collGenGen
def collState (s : State) : Nat := rf s .collCtl F.collCtlState
def pairFirst (s : State) : Bool := decide (rf s .collNum F.collNumOrder = 1)
def hemState (s : State) : Nat := rf s .devHemctl F.devHemctlState

/-- The time of the IO die's counter (R465). -/
def ioNow (s : State) : Word := s.lc.getD 12 0

/-- Slots of a shard: one per rank, or one per twin pair (R325). -/
def slotsOf (s : State) : Nat := if pairFirst s then nRanks s / 2 else nRanks s

/-- The slot of a rank. -/
def slotOf (s : State) (r : Nat) : Nat := if pairFirst s then r / 2 else r

/-- The rank that a slot of the own shard waits for: in pair-first order the pair's leader for the shard (R333). -/
def rankOfSlot (s : State) (k : Nat) : Nat := if pairFirst s then 2 * k + myRank s % 2 else k

/-- A bucket's state in this generation. -/
def cbucket (s : State) (b : Nat) : CBucket := tget {} s.coll.buckets b

/-- A bucket's state changed. -/
def modCb (s : State) (b : Nat) (f : CBucket → CBucket) : State := { s with coll := { s.coll with buckets := tmod {} s.coll.buckets b f } }

/-- An event counted in COLL_CNT (R347): 0 WCLIP, 1 STALE, 2 DUP, 3 LATE, 4 MALFORMED, 5 BADJOB, 6 RETRY, 7 RNR. -/
def collCount (s : State) (ev : Nat) (n : Nat := 1) : State := bumpRf s .collCnt F.collCntCount n ev

/-- A collective fault (0x65): kind 1 translation, 2 ORDSUM, 3 malformed, 4 generation skew (R491). -/
def collFault (s : State) (b kind shard rank : Nat) : State :=
  report s (mkErr 0x65 9 0 0 0 (pack [(0, b), (12, kind), (16, shard), (32, rank)]))

/-- The collective engine and the hem as adders (R367, R492). -/
def adderColl : Adder := { code := 5, unit := 9 }
def adderHem : Adder := { code := 6, unit := 0x26 }

/-! ## The bucket table (R323, R324) -/

/-- A bucket table entry. -/
structure BtEnt where
  shard : Nat
  gfmt : Nat
  rfmt : Nat
  asid : BitVec 6
  peg : Nat
  pegen : Bool
  grad : Nat
  red : Nat
  hold : Nat
  scale : Nat
  ok : Bool

/-- The entry of a bucket, with the checks of R324. -/
def btEnt (s : State) (b : Nat) : BtEnt × State :=
  let ((ws, bad), s) := readWords8 s Activity.gradient.part (4096 * rf s .collBtbase F.collBtbaseBase + 64 * b)
  let w := dw ws 0
  let e : BtEnt := {
    shard := bits w 23 0, gfmt := bits w 27 24, rfmt := bits w 31 28, asid := BitVec.ofNat 6 (bits w 37 32), peg := bits w 51 38,
    pegen := bit w 52, grad := (dw ws 1).toNat, red := (dw ws 2).toNat, hold := (dw ws 3).toNat, scale := (dw ws 4).toNat,
    ok := !bad && decide (bits w 23 0 % 256 = 0) && decide (4096 ≤ bits w 23 0) && decide (bits w 23 0 ≤ 16776960)
      && decide (bits w 27 24 ≤ 2) && decide (bits w 31 28 ≤ 2) && bit (reg s .devHemasid) (bits w 37 32)
      && decide (bits w 63 53 = 0) && decide ((dw ws 3).toNat % 65536 = 0) && (ws.drop 5).all (fun x => decide (x = 0)) }
  (e, s)

/-- Bytes of an element of a format. -/
def fmtBytes (c : Nat) : Nat := fmtBits c / 8

/-- ⌈x / 64 KiB⌉ × 64 KiB. -/
def up64k (x : Nat) : Nat := (x + 65535) / 65536 * 65536

/-- The holding area's places (R325). -/
def holdAcc (e : BtEnt) : Nat := e.hold + 0x10000
def holdOut (e : BtEnt) : Nat := holdAcc e + up64k (4 * e.shard)
def holdHdr (e : BtEnt) : Nat := holdOut e + up64k e.shard
def holdPay (s : State) (e : BtEnt) : Nat := holdHdr e + up64k (64 * slotsOf s)

/-- How the engine translates: current frames, or the draft as the update path (R91, R337). -/
def collX (s : State) (e : BtEnt) (upd : Bool := false) : XCtx :=
  { asid := e.asid, level := 1, spec := upd, epoch := hemEpoch s e.asid, upd := upd }

/-- A translation fault stops the engine's work on a bucket for this generation (R324). -/
def stopBucket (s : State) (b shard : Nat) : State := modCb (collFault s b 1 shard 0xFFFF) b (fun c => { c with stopped := true })

/-! ## W8 (R142, R143) -/

/-- Elements of w bytes, each with its mark. -/
def elsOf (w : Nat) : Nat → List (Byte × Bool) → List (Nat × Bool)
  | 0, _ => []
  | f + 1, l => if l.isEmpty then [] else (ofLE ((l.take w).map (fun p => p.1)), (l.take w).any (fun p => p.2)) :: elsOf w f (l.drop w)

/-- The scale code of x_init (R142). -/
def initScale (s : State) : Nat := (sval 8 (rf s .collNum F.collNumXinit) + 127).toNat

/-- The scale codes of a shard's blocks: x_init until the first commit, then SCALE's current frame (R142, R330). -/
def shardScales (s : State) (e : BtEnt) (i : Nat) : Except Exc (List Nat) × State :=
  if !s.coll.committed then (.ok (List.replicate (e.shard / 256) (initScale s)), s)
  else
    match spanRead s collCore (collX s e) (e.scale + i * (e.shard / 256)) (e.shard / 256) with
    | (.error x, s) => (.error x, s)
    | (.ok l, s) => (.ok (l.map (fun p => if p.2 then 0xFF else p.1.toNat)), s)

/-- Values encoded to W8: the bytes, the clips, whether any is non-finite. -/
def encodeW8 (scales : List Nat) (vs : List FV) : List Byte × Nat × Bool :=
  (vs.zip (List.range vs.length)).foldl (fun a p =>
    let (c, clip, nf) := w8Enc (scales.getD (p.2 / 256) 0xFF) p.1
    (a.1 ++ [BitVec.ofNat 8 c], a.2.1 + clip.toNat, a.2.2 || nf)) ([], 0, false)

/-- W8 bytes decoded (R143). -/
def decodeW8 (scales : List Nat) (bs : List Byte) : List FV :=
  (bs.zip (List.range bs.length)).map (fun p => w8Dec (scales.getD (p.2 / 256) 0xFF) p.1.toNat)

/-- The own gradient of a shard encoded (R330); a poisoned element is encoded as 0x7F (R458). -/
def encodeShard (s : State) (e : BtEnt) (i : Nat) : Except Exc (List Byte × Nat × Bool) × State :=
  let w := fmtBytes e.gfmt
  match shardScales s e i with
  | (.error x, s) => (.error x, s)
  | (.ok sc, s) =>
    match spanRead s collCore (collX s e) (e.grad + i * e.shard * w) (e.shard * w) with
    | (.error x, s) => (.error x, s)
    | (.ok l, s) => (.ok (encodeW8 sc ((elsOf w e.shard l).map (fun p => if p.2 then .nan false else edec e.gfmt p.1))), s)

/-! ## Messages (R327) -/

/-- VFSTEP, REASON and THROTTLED of the sender (R344, R439): the lowest pinned region's, or the lowest of all; a neighbour hold carries the reason of the region that forced it. -/
def paceFields (s : State) : Nat × Nat × Bool :=
  let pin := rf s .devClk F.devClkPin
  let rs := if pin = 0 then List.range 12 else (List.range 12).filter (fun r => pin.testBit r)
  match bestRegion (fun x r => decide (stepNow s x < stepNow s r) || (decide (stepNow s x = stepNow s r) && decide (x < r))) rs with
  | none => (0, 0, false)
  | some r =>
    let why := paceReason s 12 r
    (stepNow s r, why, !(decide (why = 0) || decide (why = 5)))

/-- The DEV_HEMDIG that every message carries. -/
def hemDig (s : State) : Word := reg s .devHemdig

/-- Whether NONFIN has been posted in COLLECT: later messages carry it (R291). -/
def nonfinPosted (s : State) : Bool := decide (hemState s = 1) && decide (rf s .devHemctl F.devHemctlNonfin = 1)

/-- What a job message says beside the fields every message of this rank fills alike. -/
structure MsgArgs where
  type : Nat
  bucket : Nat := 0
  shard : Nat := 0
  nonfin : Bool := false
  void : Bool := false
  isolated : Bool := false
  pair : Bool := false
  voidrank : Nat := 0
  missing : Nat := 0
  partialSum : Word := 0
  wclip : Nat := 0
  chunk : Option Nat := none
  payload : List Byte := []

/-- A message of this rank (R327). In roll call STEP holds the chunk number and LEN is zero. -/
def mkMsg (s : State) (a : MsgArgs) : Msg :=
  let (vf, why, thr) := paceFields s
  let job := a.type < 0x10
  { w0 := pack [(0, a.type), (8, 1), (12, a.nonfin.toNat), (13, thr.toNat), (14, a.void.toNat), (15, a.isolated.toNat),
      (16, a.pair.toNat), (20, vf), (24, why % 8), (32, genOf s)],
    w1 := if job then pack [(0, s.hem.step.toNat), (48, a.bucket)] else wd (a.chunk.getD 0),
    w2 := pack [(0, myRank s), (16, a.shard), (32, a.voidrank), (48, min a.missing 65535)],
    w3 := hemDig s, w4 := a.partialSum,
    w5 := pack [(0, if job then a.payload.length else 0), (32, min a.wclip (2 ^ 32 - 1))],
    w6 := reg s .collJobid, w7 := 0, payload := a.payload }

def mType (m : Msg) : Nat := bits m.w0 7 0
def mNonfin (m : Msg) : Bool := bit m.w0 12
def mVoid (m : Msg) : Bool := bit m.w0 14
def mIsolated (m : Msg) : Bool := bit m.w0 15
def mPair (m : Msg) : Bool := bit m.w0 16
def mGen (m : Msg) : Nat := bits m.w0 63 32
def mStep (m : Msg) : Nat := bits m.w1 47 0
def mBucket (m : Msg) : Nat := bits m.w1 59 48
def mSrc (m : Msg) : Nat := bits m.w2 15 0
def mShard (m : Msg) : Nat := bits m.w2 31 16
def mVoidrank (m : Msg) : Nat := bits m.w2 47 32
def mMissing (m : Msg) : Nat := bits m.w2 63 48
def mLen (m : Msg) : Nat := bits m.w5 31 0

/-- The 64 bytes of a message's header. -/
def hdrBytes (m : Msg) : List Byte := [m.w0, m.w1, m.w2, m.w3, m.w4, m.w5, m.w6, m.w7].flatMap (fun w => leBytes w.toNat 8)

/-- The number of the RC queue pair for a rank on a port (R315). -/
def qpnOf (rank port : Nat) : Nat := 0x40000 + 4 * rank + port

/-- The GID at the other end of a queue pair (R384). -/
def qpGid (s : State) (qpn : Nat) : List Byte := tget [] s.net.hops qpn

/-- Whether a path to a rank is up: the port has link, the queue pair is open on it (R316), its next hop is resolved (R384). -/
def pathUp (s : State) (rank port : Nat) : Bool :=
  portUp s port && s.coll.qps.contains (qpnOf rank port) && hopKnown s port (qpGid s (qpnOf rank port))

/-- A job message sent to a rank from a port on (R310, R316): in INPLACE, while every path to the rank is down, and while the RoCE priority is paused on its port (R386), it waits; on another port than its own it carries RETRY, and each change of port is counted. -/
def sendOn (s : State) (port dst : Nat) (m : Msg) : State :=
  match (if hemState s = 3 then none else (List.range 4).find? (fun j => pathUp s dst ((port + j) % 4))) with
  | none => { s with coll := { s.coll with waits := s.coll.waits ++ [(port, dst, m)] } }
  | some j =>
    let p := (port + j) % 4
    let m := if j = 0 then m else { m with w0 := setBit m.w0 17 true }
    let s := collCount s 6 j
    if prioPaused s p s.net.rpri then { s with coll := { s.coll with waits := s.coll.waits ++ [(p, dst, m)] } }
    else emit s (.net p dst m (tagOf s p s.net.rpri (qpGid s (qpnOf dst p))))

/-- A job message sent to a rank, from its own port on (R316). -/
def sendTo (s : State) (dst : Nat) (m : Msg) : State := sendOn s ((myRank s + dst + mBucket m) % 4) dst m

/-- The messages that wait are sent, with DEV_HEMDIG as it now stands (R327); those that still cannot go wait on, in their order. -/
def releaseSends (s : State) : State :=
  s.coll.waits.foldl (fun s w => sendOn s w.1 w.2.1 { w.2.2 with w3 := hemDig s }) { s with coll := { s.coll with waits := [] } }

/-- Everything that waits to leave on the Ethernet ports, tried again. -/
def releaseAll (s : State) : State := releaseNet (releaseSends s)

/-- A job message sent to every other rank. -/
def sendAll (s : State) (m : Msg) : State :=
  ((List.range (nRanks s)).filter (fun d => decide (d ≠ myRank s))).foldl (fun s d => sendTo s d m) s

/-- A message sent again on the port after one, with RETRY set (R316). -/
def sendNext (s : State) (port rank : Nat) (m : Msg) : State := collCount (sendOn s ((port + 1) % 4) rank { m with w0 := setBit m.w0 17 true }) 6

/-- RETRY_EXHAUSTED (R316, R386): the message goes again on the next port: the j-th output, or past those the j-th of the messages that wait, whose transport timers run on. -/
def execRetryExhausted (j : Nat) (s : State) : Host.Outcome State Fault Refusal :=
  .next (match s.out[j]? with
    | some (.net port rank m _) => sendNext s port rank m
    | some _ => s
    | none =>
      match s.coll.waits[j - s.out.length]? with
      | some (port, rank, m) => sendNext { s with coll := { s.coll with waits := s.coll.waits.eraseIdx (j - s.out.length) } } port rank m
      | none => s)

/-! ## Resolution (R334–R336) -/

/-- The reduced gradient of a shard written from its W8 bytes (R335): the fault, if any, and whether a value lay beyond RFMT's range. -/
def redValues (rfmt : Nat) (vs : List FV) : List Byte × Bool :=
  vs.foldl (fun a v =>
    let (c, fl) := eenc rfmt false rne false v
    (a.1 ++ leBytes (posZero rfmt c) (fmtBytes rfmt), a.2 || (v.isFin && decide (fl &&& fOF ≠ 0)))) ([], false)

/-- RED written for a shard. -/
def redWrite (s : State) (e : BtEnt) (i : Nat) (bs : List Byte) : Option Exc × State :=
  match shardScales s e i with
  | (.error x, s) => (some x, s)
  | (.ok sc, s) => spanWrite s collCore (collX s e) (e.red + i * e.shard * fmtBytes e.rfmt) (clean (redValues e.rfmt (decodeW8 sc bs)).1)

/-- Whether every shard of a bucket is resolved. -/
def resolvedIn (s : State) (c : CBucket) : Bool := (List.range (nRanks s)).all (fun i => (tget? c.res i).isSome)

/-- A bucket whose every shard is resolved signals DONEPEG, unless a RED write failed (R326). -/
def bucketDone (s : State) (b : Nat) (e : BtEnt) : State :=
  let c := cbucket s b
  if c.done || !resolvedIn s c then s
  else
    let s := modCb s b (fun c => { c with done := true })
    if e.pegen && !c.stopped then (pegAddTo s e.peg 1 adderColl).2 else s

/-- A shard marked resolved. -/
def markShard (s : State) (b i : Nat) (e : BtEnt) (r : ShardRes) : State :=
  let s := modCb s b (fun c => { c with res := tins i r c.res })
  bucketDone { s with coll := { s.coll with resAt := ioNow s } } b e

/-- Whether the own shard of a bucket is resolved. -/
def ownResolved (s : State) (b : Nat) : Bool := (tget? (cbucket s b).res (myRank s)).isSome

/-- The default NaN of FP64 (R137). -/
def nan64 : Word := wd (fnanCode f64)

/-- The own shard resolved and announced to every other rank (R334); clips: the saturated elements of its payload (R327). -/
def resolveOwn (s : State) (b : Nat) (e : BtEnt) (r : ShardRes) (payload : List Byte) (clips : Nat := 0) : State :=
  if ownResolved s b then s
  else
    let me := myRank s
    let a : MsgArgs := { type := 2, bucket := b, shard := me }
    let m := match r with
      | .gathered p => mkMsg s { a with partialSum := p, payload := payload, wclip := clips }
      | .nonfinite => mkMsg s { a with nonfin := true, partialSum := nan64 }
      | .void rank missing iso =>
        mkMsg s { a with
          void := true, nonfin := nonfinPosted s, isolated := iso, voidrank := rank, missing := missing,
          partialSum := if nonfinPosted s then nan64 else 0 }
    markShard (sendAll s m) b me e r

/-- An allgathered own shard: RED is written first; a value beyond RFMT's range, or a post of NONFIN, makes it non-finite (R291, R334). -/
def gatherOwn (s : State) (b : Nat) (e : BtEnt) (res0 : Word) (clips : Nat) : State :=
  match spanRead s collCore (collX s e) (holdOut e) e.shard, nonfinPosted s with
  | (.error _, s), _ => stopBucket s b (myRank s)
  | (.ok _, s), true => resolveOwn s b e .nonfinite []
  | (.ok l, s), false =>
    let bs := l.map (fun p => p.1)
    match shardScales s e (myRank s) with
    | (.error _, s) => stopBucket s b (myRank s)
    | (.ok sc, s) =>
      if (redValues e.rfmt (decodeW8 sc bs)).2 then resolveOwn s b e .nonfinite []
      else
        match redWrite s e (myRank s) bs with
        | (some _, s) => stopBucket s b (myRank s)
        | (none, s) => resolveOwn s b e (.gathered res0) bs clips

/-- S (R336): the chains in bucket and rank order, FP64 rounded to nearest even. -/
def sumS (s : State) : FV :=
  (List.range (nBuckets s)).foldl (fun a b =>
    add64 a ((List.range (nRanks s)).foldl (fun x i =>
      match tget? (cbucket s b).res i with
      | some (.gathered p) => add64 x (fdec f64 p.toNat)
      | _ => x) (.fin false 0 0))) (.fin false 0 0)

/-- Whether every shard of every bucket is resolved. -/
def allResolved (s : State) : Bool := (List.range (nBuckets s)).all (fun b => resolvedIn s (cbucket s b))

/-- Every resolution of the generation. -/
def allRes (s : State) : List (Nat × ShardRes) := s.coll.buckets.flatMap (fun p => p.2.res)

/-! ## Contributions (R329–R333) -/

/-- A contribution placed in its slot of the own shard: header and payload (R325). -/
def placeSlot (s : State) (b : Nat) (e : BtEnt) (k : Nat) (m : Msg) : State :=
  match spanWrite s collCore (collX s e) (holdHdr e + 64 * k) (clean (hdrBytes m)) with
  | (some _, s) => stopBucket s b (myRank s)
  | (none, s) =>
    match spanWrite s collCore (collX s e) (holdPay s e + k * e.shard) (clean m.payload) with
    | (some _, s) => stopBucket s b (myRank s)
    | (none, s) => s

/-- A contribution for the own shard accepted: it arms the deadline, fills its slot unless the engine's work on the bucket has stopped (R324), and resolves the shard at once when it is non-finite or void (R329, R334, R339, R345). -/
def takeContrib (s : State) (b : Nat) (e : BtEnt) (src : Nat) (m : Msg) : State :=
  let late := ownResolved s b
  let s := if late then collCount s 3 else s
  let k := slotOf s src
  let keep := !mVoid m && !(cbucket s b).stopped
  let s := if keep then placeSlot s b e k m else s
  if late then s
  else
    let me := myRank s
    let s := modCb s b (fun c => { c with
      armed := true, heard := c.heard || decide (src ≠ me),
      slots := if !keep || c.slots.contains k then c.slots else c.slots ++ [k] })
    let s := { s with coll := { s.coll with last := some (src, m.w0, ioNow s) } }
    if mNonfin m then resolveOwn s b e .nonfinite []
    else if mVoid m then resolveOwn s b e (.void (mVoidrank m) 1 false) []
    else s

/-- Whether this rank leads a shard in pair-first order (R333). -/
def leads (s : State) (i : Nat) : Bool := decide (i % 2 = myRank s % 2)

/-- The rank's twin in pair-first order. -/
def twinOf (s : State) : Nat := if myRank s % 2 = 0 then myRank s + 1 else myRank s - 1

/-- A led shard whose two encodings are present: the pair sum goes to the owner (R331, R333). -/
def tryPair (s : State) (b : Nat) (e : BtEnt) (i : Nat) : State :=
  let c := cbucket s b
  match tget? c.mine i, tget? c.twins i with
  | some (x, nx), some (y, ny) =>
    if c.led.contains i || c.stopped then s
    else
      match shardScales s e i with
      | (.error _, s) => stopBucket s b i
      | (.ok sc, s) =>
        let (lo, hi) := if myRank s % 2 = 0 then (x, y) else (y, x)
        let p := ((decodeW8 sc lo).zip (decodeW8 sc hi)).map (fun q => add32 (add32 (.fin false 0 0) q.1) q.2)
        let (bs, clips, nf) := encodeW8 sc p
        let s := collCount (modCb s b (fun c => { c with led := i :: c.led })) 0 clips
        let m := mkMsg s { type := 1, bucket := b, shard := i, nonfin := nf || nx || ny || nonfinPosted s, pair := true, wclip := clips, payload := bs }
        if i = myRank s then takeContrib s b e i m else sendTo s i m
  | _, _ => s

/-- A shard's contribution made and sent (R330, R333). -/
def contribute (s : State) (b : Nat) (e : BtEnt) (i : Nat) : State :=
  if (cbucket s b).stopped then s
  else
    match encodeShard s e i with
    | (.error _, s) => stopBucket s b i
    | (.ok (bs, clips, nf), s) =>
      let s := collCount s 0 clips
      let nf := nf || nonfinPosted s
      let m := mkMsg s { type := 1, bucket := b, shard := i, nonfin := nf, wclip := clips, payload := bs }
      if pairFirst s then
        if leads s i then tryPair (modCb s b (fun c => { c with mine := tins i (bs, nf) c.mine })) b e i
        else seamSend s "job message" (wd i) (hdrBytes m ++ bs)
      else if i = myRank s then takeContrib s b e i m
      else sendTo s i m

/-- A post performed (R326, R330). -/
def runPost (s : State) (b : Nat) : State :=
  if nBuckets s ≤ b || (cbucket s b).posted then collCount s 4
  else
    let s := { s with coll := { s.coll with postAt := ioNow s } }
    let s := modCb s b (fun c => { c with posted := true })
    let (e, s) := btEnt s b
    (List.range (nRanks s)).foldl (fun s i => contribute s b e i) s

/-- Whether posts are performed now: STATE is READY, and the hem has left IDLE and INPLACE (R310, R326). -/
def postsOpen (s : State) : Bool := decide (collState s = 5) && decide (hemState s ≠ 0) && decide (hemState s ≠ 3)

/-- Posts held until now performed in order. -/
def releasePosts (s : State) : State :=
  if postsOpen s then s.coll.held.foldl runPost { s with coll := { s.coll with held := [] } } else s

/-- A COLL_POST write (R326, R347). -/
def collPostWrite (s : State) (a : Agent) (v : Word) : State :=
  let b := bits v 11 0
  if !agentAtLeast s a 1 then accessError s a 0x400050
  else if postsOpen s then runPost s b
  else { s with coll := { s.coll with held := s.coll.held ++ [b] } }

/-- COLL_POST (R326). -/
def execCollPost (a : Agent) (v : Word) (s : State) : Host.Outcome State Fault Refusal := .next (mmioCmd s a 0x400050 (fun s => collPostWrite s a v))

/-! ## Receiving (R329) -/

/-- What the receive rules decide. -/
inductive Recv where
  | accept
  | drop (ctr : Nat)
  | malformed
  | skew
  | rnr
  | dup
  deriving DecidableEq

/-- Whether a header breaks rule 2 for a message of a type; over the Seam the shard is one that this rank leads. -/
def badHeader (s : State) (type : Nat) (seam : Bool) (e : BtEnt) (m : Msg) : Bool :=
  let data := (decide (type = 1) && !mVoid m) || (decide (type = 2) && !mVoid m && !mNonfin m)
  decide (bits m.w0 11 8 ≠ 1) || decide (mType m ≠ type) || decide (bits m.w0 19 18 ≠ 0) || decide (bits m.w0 31 28 ≠ 0)
    || decide (bits m.w1 63 60 ≠ 0) || decide (m.w7 ≠ 0) || decide (nBuckets s ≤ mBucket m) || decide (nRanks s ≤ mSrc m)
    || decide (mLen m ≠ if data then e.shard else 0) || decide (m.payload.length ≠ mLen m)
    || (decide (type = 1) && (if seam then !leads s (mShard m) else decide (mShard m ≠ myRank s)))

/-- The rules of R329 in order. -/
def recvRule (s : State) (type : Nat) (seam : Bool) (e : BtEnt) (m : Msg) : Recv :=
  let g := genOf s
  if m.w6 ≠ reg s .collJobid then .drop 5
  else if badHeader s type seam e m then .malformed
  else if mGen m < g then .drop 1
  else if mGen m = g + 1 then .rnr
  else if g + 1 < mGen m then .skew
  else if mStep m ≠ s.hem.step.toNat then .drop 4
  else if (cbucket s (mBucket m)).seen.contains (type, mSrc m, mShard m) then .dup
  else .accept

/-- The first drift of a generation becomes the hem's drift input (R343). -/
def noteDrift (s : State) (m : Msg) : State :=
  if m.w3 = hemDig s || s.hem.drift.isSome then s
  else
    let r := mSrc m
    let s := { s with hem := { s.hem with drift := some (BitVec.ofNat 16 r) } }
    let s := setReg s .devHemrank 0 (pack [(0, r), (16, 1)])
    report s (mkErr 0x60 9 0 0 0 (wd r))

/-- Whether a message can arrive on a port, or over the Seam link: it is up (R385, R392). -/
def arrives (s : State) (port : Option Nat) : Bool :=
  match port with
  | some p => decide (rf s .ethPortstat F.ethPortstatState p = 3)
  | none => decide (rf s .seamStat F.seamStatState = 5)

/-- A message of another rank was accepted: every armed own shard has heard one (R340). -/
def heardFrom (s : State) : State :=
  { s with coll := { s.coll with buckets := s.coll.buckets.map (fun (p : Nat × CBucket) =>
      if p.2.armed then (p.1, { p.2 with heard := true }) else p) } }

/-- A message run through R329; what follows an acceptance is the caller's. Outside READY nothing is received. -/
def receive (s : State) (type : Nat) (port : Option Nat) (m : Msg) (k : BtEnt → State → State) : State :=
  if collState s ≠ 5 || !arrives s port then s
  else
    let (e, s) := btEnt s (mBucket m)
    match recvRule s type port.isNone e m with
    | .drop c => collCount s c
    | .malformed =>
      let s := collCount s 4
      if s.coll.badRecorded then s
      else collFault { s with coll := { s.coll with badRecorded := true } } (mBucket m) 3 (mShard m) (mSrc m)
    | .skew => collFault (collCount s 4) (mBucket m) 4 (mShard m) (mSrc m)
    | .rnr => match port with | some p => netSend (collCount s 7) p s.net.rpri (qpGid s (qpnOf (mSrc m) p)) (.packet p "RNR NAK" [] {}) | none => seamSend (collCount s 7) "RNR NAK" 0 []
    | .dup => collCount s 2
    | .accept =>
      let s := modCb (heardFrom s) (mBucket m) (fun c => { c with seen := (type, mSrc m, mShard m) :: c.seen })
      k e (noteDrift s m)

/-- CONTRIB (R329, R334). -/
def execContrib (port : Fin 4) (m : Msg) (s : State) : Host.Outcome State Fault Refusal :=
  .next (receive s 1 (some port.val) m (fun e s => takeContrib s (mBucket m) e (mSrc m) m))

/-- An accepted ALLGATHER (R335, R340): its shard is resolved; a bucket on which the engine has stopped takes no data (R324). -/
def takeAllgather (s : State) (e : BtEnt) (m : Msg) : State :=
  let b := mBucket m
  let i := mShard m
  if mVoid m then markShard s b i e (.void (mVoidrank m) (mMissing m) (mIsolated m))
  else if mNonfin m then markShard s b i e .nonfinite
  else if (cbucket s b).stopped then markShard s b i e (.gathered m.w4)
  else
    match redWrite s e i m.payload with
    | (some _, s) => markShard (stopBucket s b i) b i e (.gathered m.w4)
    | (none, s) => markShard s b i e (.gathered m.w4)

/-- ALLGATHER (R335). -/
def execAllgather (port : Fin 4) (m : Msg) (s : State) : Host.Outcome State Fault Refusal :=
  .next (receive s 2 (some port.val) m (fun e s => takeAllgather s e m))

/-- PACE (R339): the owner has heard its sender; the deadline's move is its timer's. -/
def execPace (port : Fin 4) (m : Msg) (s : State) : Host.Outcome State Fault Refusal :=
  .next (receive s 3 (some port.val) m (fun _ s => s))

/-- Whether a contribution of this rank has gone to an owner in this generation: one made and not waiting; in pair-first order, one that this rank led (DEDUCED, log 128: what has gone is accepted). -/
def contributed (s : State) (d : Nat) : Bool :=
  s.coll.buckets.any (fun p =>
    (if pairFirst s then p.2.led.contains d else p.2.posted && !p.2.stopped)
      && !s.coll.waits.any (fun w => decide (w.2.1 = d) && decide (mType w.2.2 = 1) && decide (mBucket w.2.2 = p.1)))

/-- PACE_SEND (R339): in COLLECT, to every owner to whom no contribution of this rank has gone in the generation. -/
def execPaceSend (s : State) : Host.Outcome State Fault Refusal :=
  .next (if hemState s ≠ 1 || collState s ≠ 5 then s
    else ((List.range (nRanks s)).filter (fun d => decide (d ≠ myRank s) && !contributed s d)).foldl (fun s d =>
      sendTo s d (mkMsg s { type := 3, shard := d })) s)

/-- SEAM_MSG (R333): the twin's contribution for a shard that this rank leads. -/
def execSeamMsg (m : Msg) (s : State) : Host.Outcome State Fault Refusal :=
  .next (receive (seamGot s m.payload.length) 1 none m (fun e s =>
    let b := mBucket m
    tryPair (modCb s b (fun c => { c with twins := tins (mShard m) (m.payload, mNonfin m) c.twins })) b e (mShard m)))

/-- PAIR_DEADLINE_EXPIRY (R333): a led shard whose twin's contribution is missing is voided to its owner. -/
def execPairDeadlineExpiry (b : BitVec 12) (shard : BitVec 16) (s : State) : Host.Outcome State Fault Refusal :=
  let i := shard.toNat
  let c := cbucket s b.toNat
  .next (if !pairFirst s || !leads s i || (tget? c.mine i).isNone || (tget? c.twins i).isSome || c.led.contains i then s
    else
      let (e, s) := btEnt s b.toNat
      let s := modCb s b.toNat (fun c => { c with led := i :: c.led })
      let m := mkMsg s { type := 1, bucket := b.toNat, shard := i, void := true, pair := true, voidrank := twinOf s, nonfin := nonfinPosted s }
      if i = myRank s then takeContrib s b.toNat e i m else sendTo s i m)

/-! ## Passes (R332, R334) -/

/-- The complete prefix of arrived slots. -/
def prefixOf (s : State) (c : CBucket) : Nat :=
  let k := slotsOf s
  ((List.range k).find? (fun i => !c.slots.contains i)).getD k

/-- The parameter block of a pass (R332). -/
def passParam (first count k : Nat) (start final : Bool) : List Byte :=
  leBytes first 4 ++ leBytes count 4 ++ leBytes (start.toNat + 2 * final.toNat) 8 ++ leBytes k 4 ++ List.replicate 44 0

/-- ORDSUM_PASS_START (R332): one pass at a time, once the prefix has grown by PASSMIN or is complete, through the engine's own port to the stack that holds HOLD. -/
def execOrdsumPassStart (b : BitVec 12) (s : State) : Host.Outcome State Fault Refusal :=
  let c := cbucket s b.toNat
  let n := prefixOf s c
  let k := slotsOf s
  .next (if c.pass.isSome || c.fin.isSome || c.stopped || ownResolved s b.toNat || decide (n = c.summed)
        || (decide (n < k) && decide (n < c.summed + max 1 (fget s.coll.dlineUse F.collDlinePassmin))) then s
    else
      let (e, s) := btEnt s b.toNat
      match translate s collCore (collX s e) (wd e.hold) .store with
      | (.error _, s) => stopBucket s b.toNat (myRank s)
      | (.ok pa, s) =>
        let final := decide (n = k)
        let ws : List Word := [pack [(0, 3), (8, e.asid.toNat)], wd e.shard, wd (holdPay s e), wd (holdAcc e), wd e.hold, wd (holdOut e), 0, 0]
        let s := modCb s b.toNat (fun c => { c with pass := some (n, final) })
        lpush s (hbmPlace s.ms.gran pa).stack
          { desc := 0, own := some (ws, passParam c.summed (n - c.summed) k (decide (c.summed = 0)) final, genOf s * 4096 + b.toNat) })

/-- A pass that failed: recorded; the shard counts as missing its lowest unsummed slot (R334). -/
def passFailed (s : State) (b : Nat) : State :=
  modCb (collFault s b 2 (myRank s) 0xFFFF) b (fun c => { c with pass := none, fin := none, slots := c.slots.filter (fun k => decide (k ≠ c.summed)) })

/-- A pass has ended on its stack: a FINAL one waits for FINAL_PASS_COMPLETE. -/
def passEnd (s : State) (key code : Nat) (nonfin : Bool) (res0 : Word) (wclip : Nat) : State :=
  let b := key % 4096
  if key / 4096 ≠ genOf s then s
  else
    match (cbucket s b).pass with
    | none => s
    | some (n, final) =>
      if (cbucket s b).stopped then modCb s b (fun c => { c with pass := none })
      else if final then modCb s b (fun c => { c with pass := none, fin := some (code, nonfin, res0, wclip) })
      else if code = 0 then modCb s b (fun c => { c with pass := none, summed := n })
      else if code = 5 then
        let (e, s) := btEnt s b
        resolveOwn (modCb s b (fun c => { c with pass := none })) b e .nonfinite []
      else passFailed s b

/-- FINAL_PASS_COMPLETE (R334): not in a bucket on which the engine has stopped (R324). -/
def execFinalPassComplete (b : BitVec 12) (s : State) : Host.Outcome State Fault Refusal :=
  .next (match (if (cbucket s b.toNat).stopped then none else (cbucket s b.toNat).fin) with
    | none => s
    | some (code, nonfin, res0, wclip) =>
      let (e, s) := btEnt s b.toNat
      if code ≠ 0 && code ≠ 5 then passFailed s b.toNat
      else
        let s := collCount (modCb s b.toNat (fun c => { c with fin := none, summed := slotsOf s })) 0 wclip
        if code = 5 || nonfin then resolveOwn s b.toNat e .nonfinite [] else gatherOwn s b.toNat e res0 wclip)

/-- SHARD_DEADLINE_EXPIRY (R339, R340): an armed shard with a slot missing is voided. -/
def execShardDeadlineExpiry (b : BitVec 12) (s : State) : Host.Outcome State Fault Refusal :=
  let c := cbucket s b.toNat
  let miss := (List.range (slotsOf s)).filter (fun k => !c.slots.contains k)
  .next (if !c.armed || ownResolved s b.toNat || (miss.isEmpty && !c.stopped) then s
    else
      let (e, s) := btEnt s b.toNat
      let k := if miss.isEmpty then min c.summed (slotsOf s - 1) else miss.headD 0
      resolveOwn s b.toNat e (.void (rankOfSlot s k) (max 1 miss.length) (!c.heard)) [])

/-! ## Verdicts (R328, R337, R341, R345, R346) -/

/-- Each rank that the generation's voids count against gains 1; at 2 it is a suspect (R341). -/
def countVoids (s : State) : State :=
  let against := distinct ((allRes s).filterMap (fun p => match p.2 with
    | .void rank _ iso => some (if iso then p.1 else rank)
    | .nonfinite => none
    | .gathered _ => none))
  ((List.range (nRanks s)).filter (fun r => against.contains r)).foldl (fun s r =>
    let n := tget 0 s.coll.counts r + 1
    let s := { s with coll := { s.coll with counts := tins r n s.coll.counts } }
    if n = 2 then
      report (setReg s .collSuspect 0 (pack [(0, r), (16, 1)])) (mkErr 0x64 9 0 0 0 (wd r))
    else s) s

/-- COLL_LAST (R345): written when every own shard of the generation was allgathered. -/
def recordLast (s : State) : State :=
  let own := (List.range (nBuckets s)).map (fun b => tget? (cbucket s b).res (myRank s))
  let ok := own.all (fun o => match o with | some (.gathered _) => true | _ => false)
  match s.coll.last with
  | some (rank, w0, t) =>
    if !ok then s
    else
      let lag := if t.toNat < s.coll.postAt.toNat then 0 else (t.toNat - s.coll.postAt.toNat) / 1024
      setReg s .collLast 0 (pack [(0, rank), (16, bits w0 23 20), (20, bits w0 27 24), (24, (bit w0 13).toNat), (25, 1), (32, min lag (2 ^ 32 - 1))])
  | none => s

/-- Pace-follow at a commit (R346): the step asked for, and the limit it sets on the job's regions. -/
def paceFollow (s : State) : State :=
  let base := rf s .collPace F.collPaceBase
  let pin := rf s .devClk F.devClkPin
  let rs := (List.range 12).filter (fun r => pin.testBit r)
  let s :=
    if fget s.coll.paceUse F.collPaceEn = 0 then s
    else
      let busy := (s.coll.postAt - s.coll.collectAt).toNat
      let wait := (s.coll.resAt - s.coll.postAt).toNat
      let cur := (paceFields s).1
      let ok (k : Nat) : Bool := decide (17 * stepMhz s cur * busy ≤ 16 * stepMhz s k * (busy + wait))
      let want := if 16 * wait < busy then base
        else ((List.range 16).find? (fun k => decide (fget s.coll.paceUse F.collPaceFloor ≤ k) && ok k)).getD base
      setRf s .collPace F.collPaceTarget (min want base)
  let lim := if fget s.coll.paceUse F.collPaceEn = 0 ∨ rf s .collPace F.collPaceTarget = base then 15 else rf s .collPace F.collPaceTarget
  rs.foldl (fun s r => let s := settleDown (setLim s r 5 lim) r; tryRise s r (railWatts s r)) s

/-- COLL_PACE and COLL_DLINE take effect from the next generation (R347). -/
def latchColl (s : State) : State := { s with coll := { s.coll with paceUse := reg s .collPace, dlineUse := reg s .collDline } }

/-- The next generation (R328): nothing of the old one is kept. -/
def nextGen (s : State) : State :=
  let s := setRf s .collGen F.collGenGen (genOf s + 1)
  { latchColl s with coll := { (latchColl s).coll with buckets := [], badRecorded := false, last := none }, hem := { s.hem with drift := none } }

/-- The owner's copy of its scales, refreshed from the current frame at the start of a generation (R325). -/
def refreshScales (s : State) : State :=
  if collState s ≠ 5 then s
  else (List.range (nBuckets s)).foldl (fun s b =>
    let (e, s) := btEnt s b
    match shardScales s e (myRank s) with
    | (.error _, s) => stopBucket s b (myRank s)
    | (.ok sc, s) =>
      match spanWrite s collCore (collX s e) e.hold (clean (sc.map (BitVec.ofNat 8))) with
      | (some _, s) => stopBucket s b (myRank s)
      | (none, s) => s) s

/-- The next scales of a bucket's shard from RED (R142). -/
def nextScales (rfmt init : Nat) (cur : List Nat) (vals : List FV) : List Byte :=
  (cur.zip (List.range cur.length)).map (fun p => BitVec.ofNat 8 (w8NextScale ((vals.drop (256 * p.2)).take 256) p.1 init))

/-- On entry to UPDATE or INPLACE the scales of every block are derived and written as the update path writes (R337). -/
def updateScales (s : State) : State :=
  if collState s ≠ 5 then s
  else (List.range (nBuckets s)).foldl (fun s b =>
    let (e, s) := btEnt s b
    (List.range (nRanks s)).foldl (fun s i =>
      let w := fmtBytes e.rfmt
      match shardScales s e i with
      | (.error _, s) => stopBucket s b i
      | (.ok cur, s) =>
        match spanRead s collCore (collX s e) (e.red + i * e.shard * w) (e.shard * w) with
        | (.error _, s) => stopBucket s b i
        | (.ok l, s) =>
          let vals := (elsOf w e.shard l).map (fun p => if p.2 then FV.nan false else edec e.rfmt p.1)
          match spanWrite s collCore (collX s e true) (e.scale + i * (e.shard / 256)) (clean (nextScales e.rfmt (initScale s) cur vals)) with
          | (some _, s) => stopBucket s b i
          | (none, s) => s) s) s

end Sys2Proof.Machine
end

