-- ==== Sys2Proof/Machine/Feed.lean ====
section
/-! DEFINITION. What the Mantle's services give the drives and the DMA channels: NVMe commands (R403), a Feed stream's slots (R401, R402). -/

namespace Sys2Proof.Machine

/-- Bytes that a service reads or writes at their home, charged to the Mantle (R24). -/
def mantleRead (s : State) (pa n : Nat) : (List Byte × Option Nat) × State := homeRead (accessDraws s Activity.mantle.part pa n) pa n
def mantleWrite (s : State) (pa : Nat) (bs : List Byte) : State := homeWrite (accessDraws s Activity.mantle.part pa bs.length) pa bs

/-! ## NVMe commands (R403) -/

/-- Where the model's firmware keeps a drive's I/O queue pair in Mantle-reserved HBM (log 34): after the streams' areas. -/
def queueArea (s : State) (l : Nat) : Nat := s.boot.mresv + 0x900000 + 0x20000 * l

/-- Entries of a queue (R403). -/
def queueSize : Nat := 1024

/-- An address in the window of a link: its Controller Memory Buffer lies at the base (R381, R403, log 34). -/
def cmbAddr (l o : Nat) : Nat := 0x80000000000 + (l / 2) * 0x40000000000 + (l % 2) * 0x20000000000 + o

/-- The Controller Memory Buffer that the model's firmware counts on (R403). -/
def cmbBytes : Nat := 0x1000000

/-- A submission entry: opcode, command identifier, namespace 1, data pointer, first LBA, blocks less one (PRESUMED, as NVMe lays it out, log 34). -/
def nvmeEntry (op cid prp slba nlb : Nat) : List Byte :=
  leBytes (op ||| (cid <<< 16)) 4 ++ leBytes 1 4 ++ List.replicate 16 0 ++ leBytes prp 8 ++ List.replicate 8 0 ++ leBytes slba 8 ++ leBytes (nlb - 1) 2
    ++ List.replicate 14 0

/-- A command put into a drive's queue and rung: its entry in HBM, the tail, and what the drive is told, for bytes of its namespace from an address. -/
def nvmeCmd (s : State) (l op : Nat) (kind : String) (prp at' n : Nat) (data : List Byte) : State :=
  let d := tget {} s.mantle.drives l
  let s := mantleWrite s (queueArea s l + 64 * (d.tail % queueSize)) (nvmeEntry op (d.tail % queueSize) prp (at' / 4096) ((n + 4095) / 4096))
  emit { s with mantle := { s.mantle with drives := tins l { d with tail := (d.tail + 1) % queueSize } s.mantle.drives } } (.drive l kind at' data)

/-- Read, Write and Flush. -/
def nvmeRead (s : State) (l prp at' n : Nat) : State := nvmeCmd s l 2 "read" prp at' n []
def nvmeWrite (s : State) (l at' : Nat) (data : List Byte) : State := nvmeCmd s l 1 "write" (cmbAddr l 0) at' data.length data
def nvmeFlush (s : State) (l : Nat) : State := nvmeCmd s l 0 "flush" 0 0 0 []

/-! ## A stream's slots (R401, R402) -/

/-- The channel of a stream, among the channels of all units. -/
def feedChan (f : Feed) : Nat := if f.src = 0 then f.ch else 32 + f.ch

/-- Where the model's firmware keeps a stream's ring and lists in Mantle-reserved HBM (log 34): a MiB each, after the first. -/
def feedArea (s : State) (i : Nat) : Nat := s.boot.mresv + 0x100000 * (i + 1)

/-- The offset into the source of a slot, counted from batch 0; reading wraps at the end. -/
def slotCursor (f : Feed) (n : Nat) : Nat := (f.cursor + (n - f.first) * f.slotBytes) % f.srcLen

/-- The pieces of the source that fill a slot: two where it wraps. -/
def slotPieces (f : Feed) (n : Nat) : List (Nat × Nat) :=
  let off := slotCursor f n
  if off + f.slotBytes ≤ f.srcLen then [(off, f.slotBytes)] else [(off, f.srcLen - off), (0, f.slotBytes - (f.srcLen - off))]

/-- The place in the Controller Memory Buffer of a slot of an NVMe stream (R403): as many as it holds are used in turn. -/
def cmbPlaces (f : Feed) : Nat := max 1 (cmbBytes / f.slotBytes)
def slotPlace (f : Feed) (n : Nat) : Nat := cmbAddr f.link (n % cmbPlaces f * f.slotBytes)

/-- Where a slot is read from: pieces of the host window, or its place in the drive's window (R377, R403). -/
def slotSource (s : State) (f : Feed) (n : Nat) : List (Nat × Nat) :=
  if f.src = 0 then (slotPieces f n).map (fun p => (0x40000000000 + (f.srcBase + p.1 - rf s .devHostxlat F.devHostxlatBase * 2 ^ 42), p.2))
  else [(slotPlace f n, f.slotBytes)]

/-- Descriptors of a channel that are pending. -/
def chanPending (s : State) (ch : Nat) : Nat := (rf s .dmaPi F.dmaPiPi ch + 65536 - rf s .dmaCi F.dmaCiCi ch) % 65536

/-- One slot given to the channel: a descriptor with PEGEN, PEGADD +1 (R402). -/
def feedSlot (s : State) (i : Nat) (f : Feed) : State :=
  let ch := feedChan f
  let pi := rf s .dmaPi F.dmaPiPi ch
  let list := feedArea s i + 0x40000 + 64 * (pi % 4096)
  let src := slotSource s f f.filled
  let entry (p : Nat × Nat) : List Byte := leBytes p.1 8 ++ leBytes p.2 8
  let s := mantleWrite s list ((src ++ [(f.ring + f.filled % f.nslot * f.slotBytes, f.slotBytes)]).flatMap entry)
  let words := [pack [(9, 1), (10, f.peg), (32, 1)], wd list, pack [(0, src.length), (32, 1)], wd (list + 16 * src.length), 0, 0, 0, 0]
  let s := mantleWrite s (feedArea s i + 64 * (pi % 4096)) (words.flatMap (fun w => leBytes w.toNat 8))
  let s := setRf s .dmaPi F.dmaPiPi (pi + 1) ch
  { s with mantle := { s.mantle with feeds := tins i { f with filled := f.filled + 1, asked := max f.asked (f.filled + 1) } s.mantle.feeds } }

/-- The reads of one slot given to a stream's drive (R403). -/
def feedAsk (s : State) (i : Nat) (f : Feed) : State :=
  let s := ((slotPieces f f.asked).foldl (fun (a : State × Nat) p => (nvmeRead a.1 f.link (slotPlace f f.asked + a.2) (4096 * f.srcBase + p.1) p.2, a.2 + p.2)) (s, 0)).1
  { s with mantle := { s.mantle with feeds := tins i { f with asked := f.asked + 1 } s.mantle.feeds } }

/-- The slots that a stream may fill now: those of the ring that no batch still to be consumed holds. -/
def feedLimit (f : Feed) : Nat := f.b * f.per + f.nslot

/-- A stream's work: slots of the host are given to the channel as far as its ring has room, those of a drive are read as far as its Controller Memory Buffer and its queue have. -/
def feedFill : Nat → Nat → State → State
  | 0, _, s => s
  | n + 1, i, s =>
    match tget? s.mantle.feeds i with
    | none => s
    | some f =>
      let busy := chanPending s (feedChan f)
      if f.src = 0 then (if f.filled < feedLimit f ∧ busy < 4096 then feedFill n i (feedSlot s i f) else s)
      else if f.asked < feedLimit f ∧ f.asked + busy < f.filled + cmbPlaces f ∧ f.asked < f.filled + queueSize / 2 then feedFill n i (feedAsk s i f)
      else s

/-- A stream goes on. -/
def feedNext (s : State) (i : Nat) : State := match tget? s.mantle.feeds i with | some f => feedFill f.nslot i s | none => s

/-- The streams of a channel go on: one of its descriptors has completed. -/
def feedDone (s : State) (ch : Nat) : State :=
  (List.range 8).foldl (fun s i => match tget? s.mantle.feeds i with | some f => if feedChan f = ch then feedNext s i else s | none => s) s

/-- A drive has read a slot: the descriptor that copies it is given to the channel (R403). Of the streams of a link, the lowest-numbered that waits for one (DESIGN CHOICE, log 129). -/
def feedRead (s : State) (l : Nat) : State :=
  match (List.range 8).findSome? (fun i => match tget? s.mantle.feeds i with
      | some f => if f.src = 1 && decide (f.link = l) && decide (f.filled < f.asked) then some (i, f) else none
      | none => none) with
  | some (i, f) => if chanPending s (feedChan f) < 4096 then feedNext (feedSlot s i f) i else s
  | none => s

/-- A stream begins: its channel's ring and pacing are set (R402), its slots go to it. -/
def feedStart (s : State) (i : Nat) (f : Feed) : State :=
  let ch := feedChan f
  let s := { s with mantle := { s.mantle with feeds := tins i f s.mantle.feeds } }
  let s := setReg s .dmaRing ch (pack [(0, 12), (12, feedArea s i / 4096)])
  let s := setReg s .dmaPace ch (pack [(0, 1), (2, f.peg), (16, f.nslot - f.per), (40, f.nslot)])
  let s := setRf s .dmaChctl F.dmaChctlEn 1 ch
  feedNext s i

end Sys2Proof.Machine
end

