-- ==== Sys2Proof/Machine/Dma.lean ====
section
/-! DEFINITION. The DMA engines (R355–R364): rings, descriptors, bursts, pacing, SPEC transfers, abort and bus errors. -/

namespace Sys2Proof.Machine

/-! ## Channels -/

/-- Channels of the four units in one row: 32 host, 16 storage, 16 Seam, 16 of each region. Engines: 0 host, 1 storage, 2 Seam, 3 + region. -/
def engineOf (ch : Nat) : Nat := if ch < 32 then 0 else if ch < 48 then 1 else if ch < 64 then 2 else 3 + (ch - 64) / 16

/-- The die of an engine. -/
def dieOfEngine (e : Nat) : Nat := if e < 3 then 2 else if e < 9 then 0 else 1

/-- The channels of an engine. -/
def chansOf (e : Nat) : List Nat :=
  if e = 0 then List.range 32 else if e = 1 then (List.range 16).map (· + 32) else if e = 2 then (List.range 16).map (· + 48)
  else (List.range 16).map (· + (64 + 16 * (e - 3)))

/-- The unit code of an engine (R459). -/
def dmaUnitCode (e : Nat) : Nat := if e < 3 then 3 + e else 6

/-- A channel's number within its engine. -/
def chanNo (ch : Nat) : Nat := if ch < 32 then ch else ch % 16

/-- The region of a region engine, otherwise 0. -/
def engineRegion (e : Nat) : Nat := e - 3

/-- A unit's place among the four, and its base in the MMIO range (R81). -/
def unitNo : DmaUnit → Nat
  | .host => 0
  | .stor => 1
  | .seam => 2
  | .reg => 3
def unitBase : DmaUnit → Nat
  | .host => 0x100000
  | .stor => 0x110000
  | .seam => 0x120000
  | .reg => 0x130000

/-- An agent's copy of a unit's DMA_CHSEL (R361). -/
def dmaSelKey (u : DmaUnit) (a : Agent) : Nat := regKey .dmaChsel (agentIdx a + 16384 * unitNo u)
def dmaSel (s : State) (u : DmaUnit) (a : Agent) : Word := tget 0 s.sel (dmaSelKey u a)
def setDmaSel (s : State) (u : DmaUnit) (a : Agent) (v : Word) : State := { s with sel := tset 0 s.sel (dmaSelKey u a) v }

/-- The channel an agent has selected on a unit. -/
def dmaSelected (s : State) (u : DmaUnit) (a : Agent) : Nat :=
  let w := dmaSel s u a
  match u with
  | .host => fget w F.dmaChselCh
  | .stor => 32 + fget w F.dmaChselCh % 16
  | .seam => 48 + fget w F.dmaChselCh % 16
  | .reg => 64 + 16 * fget w F.dmaChselRegion + fget w F.dmaChselCh % 16

/-- The engine an agent has selected on a unit. -/
def dmaSelEngine (s : State) (u : DmaUnit) (a : Agent) : Nat :=
  match u with
  | .host => 0
  | .stor => 1
  | .seam => 2
  | .reg => 3 + fget (dmaSel s u a) F.dmaChselRegion

/-- A channel beside its registers. -/
def dmaChan (s : State) (ch : Nat) : DmaChan := tget {} s.dma ch

/-- A channel changed. -/
def modChan (s : State) (ch : Nat) (f : DmaChan → DmaChan) : State := { s with dma := tmod {} s.dma ch f }

/-- A channel's STATE. -/
def chState (s : State) (ch : Nat) : Nat := rf s .dmaChctl F.dmaChctlState ch
def setChState (s : State) (ch v : Nat) : State := setRf s .dmaChctl F.dmaChctlState v ch

/-- The watch of a channel's pace peg. -/
def paceKey (ch : Nat) : Nat := 1000 + ch

/-! ## Descriptors (R356) -/

def ddSpec (ws : List Word) : Bool := bit (dw ws 0) 0
def ddVsrc (ws : List Word) : Bool := bit (dw ws 0) 1
def ddVdst (ws : List Word) : Bool := bit (dw ws 0) 2
def ddAsid (ws : List Word) : BitVec 6 := BitVec.ofNat 6 (bits (dw ws 0) 8 3)
def ddPegen (ws : List Word) : Bool := bit (dw ws 0) 9
def ddPeg (ws : List Word) : Nat := bits (dw ws 0) 23 10
def ddIrq (ws : List Word) : Bool := bit (dw ws 0) 24
def ddPegadd (ws : List Word) : Int := sval 32 (bits (dw ws 0) 63 32)
def ddSrc (ws : List Word) : Nat := (dw ws 1).toNat
def ddSrcN (ws : List Word) : Nat := bits (dw ws 2) 31 0
def ddDstN (ws : List Word) : Nat := bits (dw ws 2) 63 32
def ddDst (ws : List Word) : Nat := (dw ws 3).toNat

/-- What a physical address is to a DMA engine: memory, a window by kind, or nothing it may use. -/
inductive DClass where
  | mem
  | win (k : Nat)
  | none
  deriving DecidableEq, Repr

/-- The class of an address. -/
def dclassAt (s : State) (pa : Nat) : DClass :=
  match physAt s pa with
  | .hbm => .mem
  | .block _ _ => .mem
  | .window => .win (windowKind pa)
  | .mmio _ => .none
  | .hole => .none

/-- The class of a range: one class throughout, else none. Block memory has its holes at multiples of 4 MiB. -/
def dclass (s : State) (pa n : Nat) : DClass :=
  let c := dclassAt s pa
  let last := pa + n - 1
  if dclassAt s last ≠ c then .none
  else if pa < 0xF000000000 then (if last < 0xF000000000 then c else .none)
  else if c = .mem && !((List.range (n / 0x400000 + 1)).all (fun i => decide (dclassAt s (min last (pa + i * 0x400000)) = .mem))) then .none
  else c

/-- The windows that an engine reaches (R355, R377): host DMA every outbound one, storage DMA the root ports'. -/
def engineWin (e : Nat) (c : DClass) : Bool :=
  match c with
  | .win k => decide (e = 0) || (decide (e = 1) && decide (k ≠ 0))
  | .mem => false
  | .none => false

/-- Whether source and destination classes suit an engine (R355). A Seam destination is the twin's memory, of the same map. -/
def classesOk (e : Nat) (src dst : DClass) : Bool :=
  if e < 2 then (engineWin e src && decide (dst = .mem)) || (decide (src = .mem) && engineWin e dst)
  else decide (src = .mem) && decide (dst = .mem)

/-- Whether one side's class can suit an engine whatever the other side turns out to be. -/
def classMay (e : Nat) (c : DClass) : Bool := decide (c = .mem) || engineWin e c

/-- A list read: its entries, and whether an entry is malformed or unreadable. -/
def readEntries (s : State) : Nat → Nat → List (Nat × Nat) × Bool × State
  | _, 0 => ([], false, s)
  | pa, n + 1 =>
    let ((bs, bad), s) := homeRead s pa 16
    let a := ofLE (bs.take 8)
    let l := ofLE ((bs.drop 8).take 4)
    let (t, b, s) := readEntries s (pa + 16) n
    ((a, l) :: t, b || bad.isSome || decide (l = 0) || decide (ofLE (bs.drop 12) ≠ 0), s)

/-- A list read for a partition (R24). -/
def readList (s : State) (part pa n : Nat) : List (Nat × Nat) × Bool × State := readEntries (accessDraws s part pa (16 * n)) pa n

/-- Whether a list lies in HBM, aligned (R356). -/
def listOk (pa n : Nat) : Bool := decide (pa % 16 = 0) && decide (1 ≤ n) && decide (n ≤ 65535) && inHbm pa && inHbm (pa + 16 * n - 1)

/-- The bytes of a list. -/
def listLen (l : List (Nat × Nat)) : Nat := (l.map (fun p => p.2)).sum

/-- Whether a descriptor's fields break R356. -/
def ddBad (e : Nat) (ws : List Word) : Bool :=
  decide (bits (dw ws 0) 31 25 ≠ 0) || decide (dw ws 4 ≠ 0) || decide (dw ws 5 ≠ 0) || decide (dw ws 6 ≠ 0)
    || !listOk (ddSrc ws) (ddSrcN ws) || !listOk (ddDst ws) (ddDstN ws) || (decide (e = 2) && ddVdst ws)

/-- Whether the physical lists have the classes of R355 when the descriptor starts. -/
def ddClasses (s : State) (e : Nat) (ws : List Word) (src dst : List (Nat × Nat)) : Bool :=
  let cs := src.map (fun p => dclass s p.1 p.2)
  let cd := dst.map (fun p => dclass s p.1 p.2)
  if ddVsrc ws && ddVdst ws then true
  else if ddVsrc ws then cd.all (classMay e) && decide ((distinct (cd.map (fun c => if c = .mem then 0 else 1))).length ≤ 1)
  else if ddVdst ws then cs.all (classMay e) && decide ((distinct (cs.map (fun c => if c = .mem then 0 else 1))).length ≤ 1)
  else cs.all (fun a => cd.all (fun b => classesOk e a b))

/-- Whether a transfer that runs as SPEC is held before its first write (R360). -/
def heldSpec (ch : Nat) (r : DmaRun) : Bool := r.spec && !(decide (64 ≤ ch) && ddVdst r.words)

/-- The context of an engine's translations (R358). -/
def dmaCtx (r : DmaRun) : XCtx := { asid := ddAsid r.words, level := 1, spec := r.spec, epoch := r.epoch }

/-! ## Completion (R357, R364) -/

/-- The partition of a DMA engine's requests (R24). -/
def enginePart (e : Nat) : Nat := (if e = 0 then Activity.host else if e = 1 then .storage else if e = 2 then .twin else .cells).part

/-- A DMA channel as an adder (R367, R490, R492). -/
def adderDma (ch : Nat) : Adder :=
  let e := engineOf ch
  { code := pack [(0, 4), (8, dmaUnitCode e), (16, chanNo ch), (24, engineRegion e)], unit := dmaUnitCode e, inst := engineRegion e, sub := chanNo ch }

/-- A completion: CODE and RESIDUE written, then the peg, then the interrupt, then the error record (R357, R364, R491). -/
def dmaFinish (s : State) (ch : Nat) (r : DmaRun) (code residue : Nat) : State :=
  let e := engineOf ch
  let s := homeWrite (accessDraws s (enginePart e) (r.desc + 56) 8) (r.desc + 56) (leBytes (code ||| (residue <<< 8)) 8)
  let s := if ddPegen r.words then (pegAddTo s (ddPeg r.words) (ddPegadd r.words) (adderDma ch)).2 else s
  let s :=
    if ddIrq r.words || [4, 5, 6].contains code then
      let s := emit s (.mantle "dma" (pack [(0, dmaUnitCode e), (8, chanNo ch), (16, code), (24, engineRegion e)]))
      if e = 0 && decide (rf s .dmaChctl F.dmaChctlMsixEn ch = 1) then msixPost s (rf s .dmaChctl F.dmaChctlVec ch) else s
    else s
  if [3, 5, 7].contains code then
    report s (mkErr 0x50 (dmaUnitCode e) (engineRegion e) (chanNo ch) (reg s .dmaErraddr e)
      (pack [(0, dmaUnitCode e), (8, chanNo ch), (16, code), (24, engineRegion e)]))
  else s

/-- CI moved past the descriptor. -/
def ciNext (s : State) (ch : Nat) : State := setRf s .dmaCi F.dmaCiCi (rf s .dmaCi F.dmaCiCi ch + 1) ch

/-- A descriptor that has ended: completed, off the channel, CI past it. -/
def dmaEnd (s : State) (ch : Nat) (r : DmaRun) (code residue st : Nat) : State :=
  setChState (ciNext (modChan (dmaFinish s ch r code residue) ch (fun c => { c with run := none })) ch) ch st

/-! ## Starting a descriptor (R355–R360) -/

/-- Whether a channel must pause before a descriptor (R359). -/
def mustPause (s : State) (ch : Nat) : Bool :=
  let w := reg s .dmaPace ch
  let v := pegVal s (fget w F.dmaPacePpeg)
  decide (fget w F.dmaPaceEn = 1) && !(dmaChan s ch).paced
    && (if fget w F.dmaPaceDir = 0 then decide (fget w F.dmaPaceHigh ≤ v) else decide (v ≤ fget w F.dmaPaceLow))

/-- A channel paused: its engine watches for the other watermark. -/
def pauseChan (s : State) (ch : Nat) : State :=
  let w := reg s .dmaPace ch
  let up := decide (fget w F.dmaPaceDir = 1)
  setChState (watchPeg s (paceKey ch) (fget w F.dmaPacePpeg) up (if up then fget w F.dmaPaceHigh else fget w F.dmaPaceLow)) ch 2

/-- The address of the descriptor at CI. -/
def descAt (s : State) (ch : Nat) : Nat :=
  4096 * rf s .dmaRing F.dmaRingBase ch + 64 * (rf s .dmaCi F.dmaCiCi ch % 2 ^ rf s .dmaRing F.dmaRingLog2n ch)

/-- The reads that starting a descriptor takes: its own, then its lists, as far as its fields name any. -/
def descReads (s : State) (ch : Nat) : List (Nat × Nat) :=
  let e := engineOf ch
  let ws := (readWords8 s (enginePart e) (descAt s ch)).1.1
  let list (pa n : Nat) : List (Nat × Nat) := if listOk pa n then [(pa, 16 * n)] else []
  (descAt s ch, 64) :: (list (ddSrc ws) (ddSrcN ws) ++ if ddBad e ws then [] else list (ddDst ws) (ddDstN ws))

/-- The reads of a descriptor that are held on their way (R18, R23, R246, R255). -/
def descHeld (s : State) (ch : Nat) : List (Nat × Nat) :=
  (descReads s ch).filter (fun p => accessHeld s (enginePart (engineOf ch)) p.1 p.2)

/-- The descriptor at CI, checked and set running: malformed ones carry their code; a discard's leavings are dropped (R355–R357, R360). -/
def startDesc (s : State) (ch : Nat) : State :=
  let e := engineOf ch
  let ci := rf s .dmaCi F.dmaCiCi ch
  let desc := descAt s ch
  let c := dmaChan s ch
  let part := enginePart e
  let ((ws, bad), s) := readWords8 s part desc
  let base : DmaRun := { desc := desc, words := ws, src := [], dst := [], total := 0 }
  let put (s : State) (r : DmaRun) (st : Nat) : State :=
    setChState (modChan s ch (fun c => { c with
      run := some r, paced := false, specIdx := c.specIdx.filter (fun i => decide (i ≠ ci)), dropIdx := c.dropIdx.filter (fun i => decide (i ≠ ci)) })) ch st
  if bad || ddBad e ws then
    let (src, _, s) := if bad || !listOk (ddSrc ws) (ddSrcN ws) then ([], false, s) else readList s part (ddSrc ws) (ddSrcN ws)
    put s { base with code := 2, residue := listLen src % 2 ^ 40 } 1
  else
    let (src, b1, s) := readList s part (ddSrc ws) (ddSrcN ws)
    let (dst, b2, s) := readList s part (ddDst ws) (ddDstN ws)
    let total := listLen src
    let r : DmaRun := {
      base with src := src, dst := dst, total := total, epoch := hemEpoch s (ddAsid ws), spec := ddSpec ws || c.specIdx.contains ci }
    if b1 || b2 || decide (total ≠ listLen dst) || decide (2 ^ 40 ≤ total) || !ddClasses s e ws src dst then
      put s { r with code := 2, residue := total % 2 ^ 40 } 1
    else if c.dropIdx.contains ci then put s { r with code := 8, residue := total } 1
    else put s r (if heldSpec ch r then 3 else 1)

/-- Whether an engine is clocked: a region's runs on its region's clock (R18). -/
def engineClocked (s : State) (e : Nat) : Bool := decide (e < 3) || clkBit s F.devClkRunning (engineRegion e)

/-- DMA_DESCRIPTOR_START (R355–R360): an enabled, idle channel with a pending descriptor checks its pacing and starts it, unless something holds a read of it on its way. -/
def execDmaDescriptorStart (ch : Fin 256) (s : State) : Host.Outcome State Fault Refusal :=
  let k := ch.val
  .next (if !engineClocked s (engineOf k) || rf s .dmaChctl F.dmaChctlEn k = 0 || chState s k ≠ 0 || (dmaChan s k).run.isSome
        || decide (rf s .dmaPi F.dmaPiPi k = rf s .dmaCi F.dmaCiCi k) then s
    else if mustPause s k then pauseChan s k
    else
      match descHeld s k with
      | [] => startDesc s k
      | ps => ps.foldl (fun s p => accessStarts s p.1 p.2) s)

/-! ## Bursts (R357) -/

/-- The entry and the offset at a position of a list. -/
def listAt : List (Nat × Nat) → Nat → Option (Nat × Nat)
  | [], _ => none
  | (a, n) :: t, p => if p < n then some (a + p, n - p) else listAt t (p - n)

/-- The next burst: source, destination, length (R357). -/
def nextBurst (r : DmaRun) : Option (Nat × Nat × Nat) :=
  match listAt r.src r.moved, listAt r.dst r.moved with
  | some (a, m), some (b, n) => some (a, b, min (min m n) (min (4096 - a % 4096) (4096 - b % 4096)))
  | _, _ => none

/-- One side's physical address. -/
def dmaAddr (s : State) (ch : Nat) (r : DmaRun) (virt : Bool) (a : Nat) (k : Access) : Except Exc Nat × State :=
  if virt then translate s (dmaCore (engineOf ch)) (dmaCtx r) (wd a) k else (.ok a, s)

/-- A channel's run changed. -/
def modRun (s : State) (ch : Nat) (f : DmaRun → DmaRun) : State := modChan s ch (fun c => { c with run := c.run.map f })

/-- The poisoned 8-byte words of marked bytes (R458). -/
def markedWords (l : List (Byte × Bool)) : List Nat := (List.range ((l.length + 7) / 8)).filter (fun i => ((l.drop (8 * i)).take 8).any (fun b => b.2))

/-- The bus address of a window address (R377). -/
def busOf (s : State) (pa : Nat) : Nat := if windowKind pa = 0 then hostBus s pa else pa

/-- Bytes from a position of a list up to where its addresses stop being contiguous. -/
def runLen : List (Nat × Nat) → Nat → Nat
  | [], _ => 0
  | (a, n) :: t, p =>
    if n ≤ p then runLen t (p - n)
    else n - p + (match t with | (b, _) :: _ => if b = a + n then runLen t 0 else 0 | [] => 0)

/-- Bytes delivered to one side: memory, the host or a drive, the twin: there a header of the contiguous run goes before its first bytes (R391). -/
def dmaPut (s : State) (ch : Nat) (r : DmaRun) (pa : Nat) (l : List (Byte × Bool)) : State :=
  if engineOf ch = 2 then
    let s := if r.sent = some pa then s else seamSend s "WRITE" (wd pa) (leBytes (runLen r.dst r.moved) 8)
    seamEmit s (.seamWrite (wd pa) (l.map (fun b => b.1)) (markedWords l))
  else
    match physAt s pa with
    | .window => emit s (.hostWrite (busOf s pa) (l.map (fun b => b.1)) (l.any (fun b => b.2)))
    | _ => writeMarked s (dieOfEngine (engineOf ch)) pa l

/-! ### Bus errors (R363) -/

/-- A channel stopped by a bus error: the failing one with BUSERR, others in progress with STOPPED, the rest silently; each keeps its progress. -/
def busStop (s : State) (failed : Option Nat) (ch : Nat) : State :=
  let s := modChan s ch (fun c => { c with paced := false })
  let s := match (dmaChan s ch).run with
    | some r => if chState s ch = 1 then dmaFinish s ch r (if failed = some ch then 5 else 6) (r.total - r.moved) else s
    | none => s
  setChState (modRun s ch (fun r => { r with sent := none })) ch 5

/-- A bus error of an engine (R363). -/
def dmaBusErr (s : State) (e : Nat) (failed : Option Nat) (cause : Nat) (addr : Option Nat) : State :=
  let s := setReg s .dmaEngstat e (pack [(0, 1), (1, (failed.map chanNo).getD 0), (6, cause)])
  let s := match addr with | some a => setReg s .dmaErraddr e (wd a) | none => s
  (chansOf e).foldl (fun s ch => busStop s failed ch) s

/-- The physical address of a burst's failing side (R363): the window's or the twin's, else the source's. -/
def burstAddr (s : State) (ch : Nat) (r : DmaRun) : Option Nat × State :=
  match nextBurst r with
  | none => (none, s)
  | some (a, b, _) =>
    match dmaAddr s ch r (ddVsrc r.words) a .load with
    | (.error _, s) => (none, s)
    | (.ok pa, s) =>
      match dmaAddr s ch r (ddVdst r.words) b .store with
      | (.error _, s) => (some pa, s)
      | (.ok pb, s) => (some (if engineOf ch = 2 || dclassAt s pb ≠ .mem then pb else pa), s)

/-- Whether a channel is in the middle of a descriptor with a burst to move. -/
def bursting (s : State) (ch : Nat) : Bool :=
  decide (chState s ch = 1) && (match (dmaChan s ch).run with | some r => decide (r.code = 0) && (nextBurst r).isSome | none => false)

/-- The channel of an engine whose burst meets the loss of a path, and the burst's address: the lowest-numbered one of those whose next burst goes there (DESIGN CHOICE, log 124). -/
def failing (s : State) (e : Nat) (lost : Nat → Bool) : Option (Nat × Nat) :=
  (chansOf e).findSome? (fun ch =>
    match (dmaChan s ch).run with
    | some r => if bursting s ch then ((burstAddr s ch r).1.filter lost).map (fun a => (ch, a)) else none
    | none => none)

/-- A path lost (R363): a bus error of an engine, with the burst that met it. -/
def dmaPathLost (s : State) (e cause : Nat) (lost : Nat → Bool) : State :=
  match failing s e lost with
  | some (ch, a) => dmaBusErr s e (some ch) cause (some a)
  | none => dmaBusErr s e none cause none

/-- The channel of an engine whose turn a burst is (R372): the next running one after that of the last burst. -/
def burstTurn (s : State) (e : Nat) : Option Nat :=
  let l := chansOf e
  let n := match tget? s.dmaLast e with | some ch => (l.findIdx? (fun c => decide (c = ch))).getD 0 + 1 | none => 0
  (l.drop n ++ l.take n).find? (bursting s)

/-- A channel's turn taken. -/
def tookTurn (s : State) (ch : Nat) : State := { s with dmaLast := tins (engineOf ch) ch s.dmaLast }

/-- DMA_BUS_ERROR (R363): the channel's burst meets a failure of the path. -/
def execDmaBusError (ch : Fin 256) (cause : BitVec 3) (s : State) : Host.Outcome State Fault Refusal :=
  .next (match (dmaChan s ch.val).run with
    | some r =>
      if chState s ch.val = 1 && decide (r.code = 0) && decide (1 ≤ cause.toNat) && decide (cause.toNat ≤ 5) then
        let (a, s) := burstAddr s ch.val r
        dmaBusErr s (engineOf ch.val) (some ch.val) cause.toNat a
      else s
    | none => s)

/-- DMA_BURST_COMPLETE (R357, R358, R363, R372): the next burst of the running channel whose turn it is; one that something holds on its way (R18, R23, R246, R255) lets the turn go by; what a window read returns arrives with the command (log 3). -/
def execDmaBurstComplete (ch : Fin 256) (arrived : List Byte) (poisoned : Bool) (s : State) : Host.Outcome State Fault Refusal :=
  let k := ch.val
  .next (match (dmaChan s k).run with
    | none => s
    | some r =>
      if !engineClocked s (engineOf k) || burstTurn s (engineOf k) ≠ some k || (decide (engineOf k = 2) && s.links.seamHold) then s
      else
        match nextBurst r with
        | none => s
        | some (a, b, n) =>
          let rest := r.total - r.moved
          let part := enginePart (engineOf k)
          let fail (s : State) (c res : Nat) : State := modRun s k (fun r => { r with code := c, residue := res })
          match dmaAddr s k r (ddVsrc r.words) a .load with
          | (.error _, s) => fail s 3 rest
          | (.ok pa, s) =>
            match dmaAddr s k r (ddVdst r.words) b .store with
            | (.error _, s) => fail s 3 rest
            | (.ok pb, s) =>
              let ca := dclass s pa n
              let cb := dclass s pb n
              if !classesOk (engineOf k) ca cb then fail s 2 r.total
              else if (ca ≠ .mem && !windowUp s pa) || (cb ≠ .mem && !windowUp s pb) then
                let w := if ca = .mem then pb else pa
                dmaBusErr s (engineOf k) (some k) (if windowKind w = 0 then 1 else 3) (some w)
              else if crossDead s (dieOfEngine (engineOf k)) (dieOf s pa) || (engineOf k ≠ 2 && crossDead s (dieOfEngine (engineOf k)) (dieOf s pb)) then
                dmaBusErr s (engineOf k) (some k) 5 (some (if engineOf k = 2 || cb ≠ .mem then pb else pa))
              else if engineOf k = 2 && rf s .seamStat F.seamStatState ≠ 5 then dmaBusErr s 2 (some k) 4 (some pb)
              else if decide (ca = .mem) && accessHeld s part pa n then tookTurn (accessStarts s pa n) k
              else if decide (cb = .mem) && engineOf k ≠ 2 && accessHeld s part pb n then tookTurn (accessStarts s pb n) k
              else if decide (ca ≠ .mem) && decide (arrived.length ≠ n) then s
              else
                let s := if ca = .mem then accessDraws s part pa n else s
                let s := if cb = .mem && engineOf k ≠ 2 then accessDraws s part pb n else s
                let (l, s) := if ca = .mem then readMarked s (dieOfEngine (engineOf k)) pa n
                  else (arrived.map (fun x => (x, poisoned)), emit s (.hostRead (busOf s pa) n))
                let s := dmaPut (tookTurn s k) k r pb l
                modRun s k (fun r => { r with moved := r.moved + n, sent := some (pb + n), poison := r.poison || l.any (fun x => x.2) }))

/-- DMA_DESCRIPTOR_COMPLETE (R357): all bytes moved, or an end met; a fault stops its channel. A Feed stream of the channel goes on (R402). -/
def execDmaDescriptorComplete (ch : Fin 256) (s : State) : Host.Outcome State Fault Refusal :=
  let k := ch.val
  .next (match (dmaChan s k).run with
    | none => s
    | some r =>
      if !engineClocked s (engineOf k) || chState s k ≠ 1 then s
      else if r.code ≠ 0 then feedDone (dmaEnd s k r r.code r.residue (if r.code = 3 then 4 else 0)) k
      else if r.total ≤ r.moved then feedDone (dmaEnd s k r (if r.poison then 7 else 1) 0 0) k
      else s)

/-! ## Registers (R356, R359, R362, R363) -/

/-- Whether an agent may write DMA registers (R361). -/
def dmaWriter (s : State) (a : Agent) : Bool := agentAtLeast s a 1

/-- The indices pending after a write of PI: as many from CI on. Those marked SPEC or for a drop beyond them are pending no longer; a SPEC thread marks those that its write has added (R360). -/
def markPending (c : DmaChan) (ci was now : Nat) (spec : Bool) : DmaChan :=
  let keep (l : List Nat) : List Nat := l.filter (fun i => decide ((i + 65536 - ci) % 65536 < min was now))
  let added := (List.range (now - was)).map (fun i => (ci + was + i) % 65536)
  { c with specIdx := keep c.specIdx ++ (if spec then added else []), dropIdx := keep c.dropIdx }

/-- A write of PI (R356, R360): the doorbell, which starts a region's stopped PLL (R23); indices that a SPEC thread makes pending run as SPEC. A refused one through BAR4 is recorded with its BAR (R490). -/
def piWrite (s : State) (a : Agent) (u : DmaUnit) (page : Option (Fin 32)) (v : Word) : State :=
  let ch := match page with | some p => p.val | none => dmaSelected s u a
  let off := unitBase u + 0x10
  if !dmaWriter s a || (page.isSome && decide (a ≠ .host)) then accessError s a off
  else
    let ci := rf s .dmaCi F.dmaCiCi ch
    let was := (rf s .dmaPi F.dmaPiPi ch + 65536 - ci) % 65536
    let now := (bits v 15 0 + 65536 - ci) % 65536
    if 2 ^ rf s .dmaRing F.dmaRingLog2n ch < now then (if page.isSome then accessErrorBar s 4 off else accessError s a off)
    else
      let s := setRf (if u = .reg then pllGo s (engineRegion (engineOf ch)) else s) .dmaPi F.dmaPiPi (bits v 15 0) ch
      modChan s ch (fun c => markPending c ci was now (agentSpec s a))

/-- DMA_PI_DOORBELL (R356): through the register, or a host channel's page of BAR4, whose refusal names that BAR (R374, R490). -/
def execDmaPiDoorbell (a : Agent) (u : DmaUnit) (page : Option (Fin 32)) (v : Word) (s : State) : Host.Outcome State Fault Refusal :=
  .next (if page.isSome && decide (a = .host) && decide (rf s .devBoot F.devBootStage = 10) && !s.power.down && !agentHeld s a then
      accessErrorBar s 4 (unitBase u + 0x10)
    else mmioCmd s a (unitBase u + 0x10) (fun s => piWrite s a u page v))

/-- A write of DMA_PACE (R359): refused with ERR when LOW ≥ HIGH; a paused channel evaluates its condition anew. -/
def paceWrite (s : State) (a : Agent) (u : DmaUnit) (v : Word) : State :=
  let ch := dmaSelected s u a
  if !dmaWriter s a then accessError s a (unitBase u + 0x28)
  else if fget v F.dmaPaceHigh ≤ fget v F.dmaPaceLow then setRf s .dmaChctl F.dmaChctlErr 1 ch
  else
    let s := modChan (setReg s .dmaPace ch v) ch (fun c => { c with paced := false })
    if chState s ch ≠ 2 then s else if fget v F.dmaPaceEn = 0 then setChState (unwatch s (paceKey ch)) ch 0 else pauseChan s ch

/-- DMA_PACE_WRITE (R359). -/
def execDmaPaceWrite (a : Agent) (u : DmaUnit) (v : Word) (s : State) : Host.Outcome State Fault Refusal := .next (mmioCmd s a (unitBase u + 0x28) (fun s => paceWrite s a u v))

/-- DMA_PACE_RESUME (R359): a paused channel whose peg has met the other watermark goes on. -/
def execDmaPaceResume (ch : Fin 256) (s : State) : Host.Outcome State Fault Refusal :=
  .next (if chState s ch.val = 2 && watchMet s (paceKey ch.val) then
      setChState (modChan (unwatch s (paceKey ch.val)) ch.val (fun c => { c with paced := true })) ch.val 0
    else s)

/-- ABORT of a channel, or EN cleared (R362). -/
def abortChan (s : State) (ch : Nat) : State :=
  let st := chState s ch
  if st = 4 || st = 5 then s
  else
    let s := modChan s ch (fun c => { c with paced := false })
    match (dmaChan s ch).run with
    | some r => dmaEnd s ch r (if r.code = 0 then 4 else r.code) (if st = 3 then r.total else if r.code = 0 then r.total - r.moved else r.residue) 4
    | none => setChState (unwatch s (paceKey ch)) ch 4

/-- RESTART of a channel (R362, R363): from ERRSTOP a stopped descriptor goes on where it stopped. -/
def restartChan (s : State) (ch : Nat) : State :=
  let st := chState s ch
  if st = 4 then setChState s ch 0
  else if st = 5 then
    setChState s ch (match (dmaChan s ch).run with | some r => if heldSpec ch r then 3 else 1 | none => 0)
  else s

/-- DMA_ABORT (R362). -/
def execDmaAbort (a : Agent) (u : DmaUnit) (s : State) : Host.Outcome State Fault Refusal :=
  .next (mmioCmd s a (unitBase u + 0x20) (fun s => if dmaWriter s a then abortChan s (dmaSelected s u a) else accessError s a (unitBase u + 0x20)))

/-- DMA_RESTART (R363). -/
def execDmaRestart (a : Agent) (u : DmaUnit) (s : State) : Host.Outcome State Fault Refusal :=
  .next (mmioCmd s a (unitBase u + 0x20) (fun s => if dmaWriter s a then restartChan s (dmaSelected s u a) else accessError s a (unitBase u + 0x20)))

/-- A write of DMA_CHCTL: EN, MSIX_EN and VEC taken, ERR cleared, a cleared EN and ABORT stop the channel, RESTART leaves a stop (R361–R364). -/
def chctlWrite (s : State) (a : Agent) (u : DmaUnit) (v : Word) : State :=
  let ch := dmaSelected s u a
  if !dmaWriter s a then accessError s a (unitBase u + 0x20)
  else
    let was := rf s .dmaChctl F.dmaChctlEn ch
    let s := setRf (setRf s .dmaChctl F.dmaChctlEn (fget v F.dmaChctlEn) ch) .dmaChctl F.dmaChctlVec (fget v F.dmaChctlVec) ch
    let s := if u = .host then setRf s .dmaChctl F.dmaChctlMsixEn (fget v F.dmaChctlMsixEn) ch else s
    let s := if fget v F.dmaChctlErr = 1 then setRf s .dmaChctl F.dmaChctlErr 0 ch else s
    let s := if fget v F.dmaChctlAbort = 1 || (decide (was = 1) && decide (fget v F.dmaChctlEn = 0)) then abortChan s ch else s
    if fget v F.dmaChctlRestart = 1 then restartChan s ch else s

/-- A write of DMA_RING (R356): BASE only in IDLE or STOPPED; a reserved LOG2N leaves its field. -/
def ringWrite (s : State) (a : Agent) (u : DmaUnit) (v : Word) : State :=
  let ch := dmaSelected s u a
  if !dmaWriter s a then accessError s a (unitBase u + 0x08)
  else
    let n := fget v F.dmaRingLog2n
    let s := if 4 ≤ n ∧ n ≤ 12 then setRf s .dmaRing F.dmaRingLog2n n ch else s
    if chState s ch = 0 || chState s ch = 4 then setRf s .dmaRing F.dmaRingBase (fget v F.dmaRingBase) ch else s

/-! ## The verdict (R360) -/

/-- What a verdict does to one channel: a commit makes a held descriptor and pending SPEC indices ordinary, a discard completes a held one with DROPPED and marks the pending ones for it. -/
def chanVerdict (commit : Bool) (s : State) (ch : Nat) : State :=
  let c := dmaChan s ch
  let s := modChan s ch (fun c => { c with specIdx := [], dropIdx := if commit then c.dropIdx else c.dropIdx ++ c.specIdx })
  match c.run with
  | none => s
  | some r =>
    if !heldSpec ch r then s
    else if commit then
      let s := modRun s ch (fun r => { r with spec := false, epoch := hemEpoch s (ddAsid r.words) })
      if chState s ch = 3 then setChState s ch 1 else s
    else dmaEnd s ch r 8 r.total (if chState s ch = 5 then 5 else 0)

/-- The DMA channels at a verdict. -/
def dmaVerdict (s : State) (commit : Bool) : State := (s.dma.map (fun p => p.1)).foldl (chanVerdict commit) s

end Sys2Proof.Machine
end

