-- ==== Sys2Proof/Machine/Hem.lean ====
section
/-! DEFINITION. The hem (R290–R314): ARM, the check points, commit and discard, the gradient factor, digests and the twin. -/

namespace Sys2Proof.Machine

/-! ## Scales and digests -/

/-- LSEXP and CLEAN as a commit sets them (R296): CLEAN counts and stays at its greatest value; at GROW the exponent grows up to LSMAX. -/
def afterCommit (s : State) : BitVec 8 × BitVec 16 :=
  let grow := rf s .devHemcfg F.devHemcfgGrow
  let clean := if s.hem.clean = 0xFFFF then s.hem.clean else s.hem.clean + 1
  if grow ≠ 0 ∧ grow ≤ clean.toNat then
    let m : BitVec 8 := BitVec.ofNat 8 (rf s .devHemcfg F.devHemcfgLsmax)
    (if (s.hem.lsexp.toInt + 1) ≤ m.toInt then s.hem.lsexp + 1 else m, 0)
  else (s.hem.lsexp, clean)

/-- The gradient factor of a norm square (R298). -/
def gradFactor (maxnorm : FV) (lsexp : Int) (sq : FV) : FV :=
  let n := sqrt64 sq
  let lim := maxnorm.scale lsexp
  let c := if maxnorm.isZero || decide (FV.cmp n lim ≤ 0) then FV.fin false 1 0 else div64 lim n
  (fround f32 rne (c.scale (-lsexp))).1

/-- The pending step digest, and the accumulators cleared (R311). -/
def takeDigest (s : State) : Word × State :=
  let d := (List.range 12).foldl (fun a k => a ^^^ reg s .liningSdig k) s.hem.xdig
  (d, { (List.range 12).foldl (fun s k => setReg s .liningSdig k 0) s with hem := { s.hem with xdig := 0 } })

/-! ## What every verdict does -/

/-- Every cell is sent the hem's change (R94). -/
def sendUpdate (s : State) (step : BitVec 48) (discard : Bool) : State :=
  (List.range 772).foldl (fun s c =>
    modCell s c (fun x => { x with updates := x.updates ++ [{ epoch := reg s .devEpoch, step := step, discard := discard }] })) s

/-- The thread that DEV_HEMNOTIFY names. -/
def hemNotifyTid (s : State) : Tid :=
  tidOf (64 * rf s .devHemnotify F.devHemnotifyRegion + 8 * rf s .devHemnotify F.devHemnotifyBlock + rf s .devHemnotify F.devHemnotifyCell)
    (rf s .devHemnotify F.devHemnotifyThread)

/-- DEV_HEMVERD and the notifications of a verdict (R293): VPEG, interrupt 13, the Mantle, with the step and DEV_EPOCH of a commit (R400, R404); the non-finite post clears, a late one is recorded (R291). -/
def verdictNotify (s : State) (kind : Nat) : State :=
  let s := setReg s .devHemverd 0 (pack [(0, s.hem.step.toNat), (48, kind)])
  let s := if rf s .devHemupd F.devHemupdVpegen = 1 then (pegAddTo s (rf s .devHemupd F.devHemupdVpeg) 1 adderHem).2 else s
  let s := if rf s .devHemnotify F.devHemnotifyEn = 1 then postInt s (hemNotifyTid s) 13 else s
  let s := if s.hem.latePost then report s (mkErr 0x61 0x26 0 0) else s
  let s := setRf s .devHemctl F.devHemctlNonfin 0
  let s := if kind = 1 then { s with mantle := { s.mantle with commits := s.mantle.commits ++ [(s.hem.step, reg s .devEpoch)] } } else s
  emit { s with hem := { s.hem with notes := s.hem.notes ++ [kind], latePost := false, updNonfin := false, twin := none, twinWait := false } }
    (.mantle "verdict" (wd kind))

/-- A notification to the Mantle that a state is entered (R400): 16 COLLECT, 17 UPDATE or INPLACE, 18 HALT. A verdict's is its KIND. -/
def hemNote (s : State) (n : Nat) : State := { s with hem := { s.hem with notes := s.hem.notes ++ [n] } }

/-- COLLECT entered: its time, the sends held, the owner's scales, the posts held (R290, R310, R325, R346). -/
def enterCollect (s : State) : State :=
  let s := hemNote (setRf s .devHemctl F.devHemctlState 1) 16
  releasePosts (refreshScales (releaseSends { s with coll := { s.coll with collectAt := ioNow s } }))

/-- HALT entered, for a reason (R290); sends that INPLACE held go (R310). -/
def enterHalt (s : State) (kind : Nat) : State :=
  releaseSends (setRf (hemNote (setRf s .devHemctl F.devHemctlState 4) 18) .devHemctl F.devHemctlHaltr kind)

/-! ## Commit and discard (R293, R294) -/

/-- The watch of the hem's wait on UPDPEG (R489). -/
def updKey : Nat := 2

/-- Whether the updates are complete (R291, R489): UPDPEG has reached the target at some operation since the state was entered. -/
def updMet (s : State) : Bool :=
  watchMet s updKey || decide ((reg s .devHemtgt).toNat ≤ pegVal s (rf s .devHemcfg F.devHemcfgUpdpeg))

/-- A commit (R293): EPOCH of the job's paired spaces flips, STEP counts, the scale changes; the cells, the collective engine and the DMA engines are told. What follows it, by the caller, is COLLECT or INPLACE. -/
def commit (s : State) : State :=
  let (e, c) := afterCommit s
  let s := if s.hem.paired then setReg (setReg s .devEpoch 0 (reg s .devEpoch ^^^ reg s .devHemasid)) .devHemdig 0 s.hem.digest else s
  let s := { s with hem := { s.hem with step := s.hem.step + 1, lsexp := e, clean := c } }
  let s := commitRuns (sendUpdate s s.hem.step false) s.hem.step
  let s := recordLast (dmaVerdict s true)
  let s := nextGen (paceFollow { s with coll := { s.coll with committed := true, counts := [] } })
  verdictNotify s 1

/-- A discard (R294): SPEC work is aborted, the digests are dropped, the scale falls after a non-finite step (R296), voids are counted (R341). -/
def discard (s : State) (kind : Nat) : State :=
  let s := discardLining (requeueSpec (setRf (unwatch s updKey) .devHemctl F.devHemctlState 0))
  let s := sendUpdate (dmaVerdict s false) s.hem.step true
  let s := (takeDigest s).2
  let s :=
    if kind ≠ 3 then s
    else
      let low : BitVec 8 := BitVec.ofNat 8 (rf s .devHemcfg F.devHemcfgLsmin)
      if s.hem.lsexp.toInt ≤ low.toInt then report { s with hem := { s.hem with clean := 0 } } (mkErr 0x62 0x26 0 0)
      else { s with hem := { s.hem with lsexp := s.hem.lsexp - 1, clean := 0 } }
  let s := if kind = 2 then countVoids s else s
  verdictNotify (nextGen (recordLast s)) kind

/-- A discard that goes on with the same step, or that halts. -/
def discardCollect (s : State) (kind : Nat) : State := enterCollect (discard s kind)
def discardHalt (s : State) (kind : Nat) : State := enterHalt (discard s kind) kind

/-! ## The check points (R292) -/

/-- UPDATE or INPLACE entered: the gradient factor, the target and the watch for it, the scales (R298, R337). -/
def enterUpdate (s : State) (st : Nat) (gf : FV) : State :=
  let s := setRf s .devHemclip F.devHemclipGf (fenc f32 rne false gf).1
  let s := setReg s .devHemtgt 0 (reg s .devHemtgt + wd (rf s .devHemupd F.devHemupdUpdinc))
  let s := watchPeg s updKey (rf s .devHemcfg F.devHemcfgUpdpeg) true (reg s .devHemtgt).toNat
  let s := hemNote (setRf s .devHemctl F.devHemctlState st) 17
  wakeHemWaiters (updateScales s)

/-- COLLECT_END (R292): the first row of the table whose condition holds. -/
def collectEnd (s : State) : State :=
  if hemState s ≠ 1 || collState s ≠ 5 || !allResolved s then s
  else
    let res := allRes s
    let void := res.any (fun p => match p.2 with | .void _ _ _ => true | _ => false)
    let bad := res.any (fun p => match p.2 with | .nonfinite => true | _ => false)
    let sq := sumS s
    let s := setReg s .devHemnorm 0 (wd (if void || bad then fnanCode f64 else (fenc f64 rne false sq).1))
    let posted := decide (rf s .devHemctl F.devHemctlNonfin = 1) && !s.hem.latePost
    if s.hem.drift.isSome then discardHalt s 6
    else if void then discardCollect s 2
    else if bad || !sq.isFin || posted then discardCollect s 3
    else
      let gf := gradFactor (fdec f32 (rf s .devHemclip F.devHemclipMaxnorm)) s.hem.lsexp.toInt sq
      if s.hem.paired then enterUpdate s 2 gf
      else
        let old := s.coll.committed
        let s := commit s
        let s := enterUpdate { s with coll := { s.coll with committed := old } } 3 gf
        { s with coll := { s.coll with committed := true } }

/-- COLLECT_END (R292). -/
def execCollectEnd (s : State) : Host.Outcome State Fault Refusal := .next (collectEnd s)

/-- A commit in paired mode, then COLLECT for the new step. -/
def commitCollect (s : State) : State := enterCollect (commit s)

/-- The twin's digest compared, after an update fault that has come meanwhile (R292, R312). -/
def twinDecide (s : State) : State :=
  match s.hem.twin with
  | some (st, d) =>
    if st ≠ s.hem.step.setWidth 64 then s
    else if s.hem.updNonfin then discardHalt s 4
    else if d = s.hem.digest then commitCollect s
    else discardHalt (setReg s .devHemrank 0 (pack [(17, 1)])) 6
  | none => s

/-- UPDATE_COMPLETE (R292, R311): UPDPEG has reached the target. -/
def updateComplete (s : State) : State :=
  let st := hemState s
  if (st ≠ 2 && st ≠ 3) || s.hem.twinWait || !updMet s then s
  else
    let (d, s) := takeDigest (unwatch s updKey)
    let s := { s with hem := { s.hem with digest := d } }
    let s := if st = 3 then setReg s .devHemdig 0 d else s
    if s.hem.updNonfin then (if st = 2 then discardHalt s 4 else enterHalt (verdictNotify s 4) 4)
    else if st = 3 then enterCollect s
    else if rf s .devHemcfg F.devHemcfgTwin = 1 then
      let s := seamSend { s with hem := { s.hem with twinWait := true } } "twin digest" (s.hem.step.setWidth 64) (leBytes d.toNat 8)
      twinDecide s
    else commitCollect s

/-- UPDATE_COMPLETE (R292). -/
def execUpdateComplete (s : State) : Host.Outcome State Fault Refusal := .next (updateComplete s)

/-- TWIN_DIGEST_ARRIVE (R312): over a Seam link that is ACTIVE (R392). -/
def execTwinDigestArrive (step digest : Word) (s : State) : Host.Outcome State Fault Refusal :=
  .next (if rf s .seamStat F.seamStatState ≠ 5 then s
    else
      let s := { seamGot s 0 with hem := { s.hem with twin := some (step, digest) } }
      if s.hem.twinWait then twinDecide s else s)

/-- TWIN_TIMEOUT (R312): the hem commits, unless an update fault has come meanwhile (R292), clears TWIN and records it. -/
def execTwinTimeout (s : State) : Host.Outcome State Fault Refusal :=
  .next (if s.hem.twinWait then
      report ((if s.hem.updNonfin then (discardHalt · 4) else commitCollect) (setRf s .devHemcfg F.devHemcfgTwin 0)) (mkErr 0x63 0x26 0 0)
    else s)

/-! ## The control register (R290, R292, R295) -/

/-- Whether an address space is unpaired, if its entry is valid. -/
def spaceMode (s : State) (a : Nat) : Option Bool := match (asEntry s collCore (BitVec.ofNat 6 a)).1 with | .ok (u, _) => some u | .error _ => none

/-- ARM (R295, R328). -/
def hemArm (s : State) : State :=
  if hemState s ≠ 0 then s
  else
    let lo : BitVec 8 := BitVec.ofNat 8 (rf s .devHemcfg F.devHemcfgLsmin)
    let hi : BitVec 8 := BitVec.ofNat 8 (rf s .devHemcfg F.devHemcfgLsmax)
    let e : BitVec 8 := BitVec.ofNat 8 (rf s .devHeminit F.devHeminitLsexp0)
    let ids := (List.range 64).filter (fun a => bit (reg s .devHemasid) a)
    let modes := ids.filterMap (spaceMode s)
    if hi.toInt < lo.toInt || e.toInt < lo.toInt || hi.toInt < e.toInt || ids.isEmpty || (modes.contains true && modes.contains false) then
      setRf s .devHemctl F.devHemctlErr 1
    else
      let s := if genOf s = 0 then s else nextGen s
      let s := latchColl (setRf s .collGen F.collGenGen 0)
      let s := { s with
        hem := { s.hem with step := BitVec.ofNat 48 (rf s .devHeminit F.devHeminitStep0), lsexp := e, clean := 0, paired := !modes.contains true },
        coll := { s.coll with committed := false } }
      let s := setReg (setReg s .devHemdig 0 0) .devHemtgt 0 (wd (pegVal s (rf s .devHemcfg F.devHemcfgUpdpeg)))
      enterCollect s

/-- DISARM (R295): a discard with KIND 7, then IDLE. -/
def hemDisarm (s : State) : State :=
  if hemState s = 0 then s else releaseSends (setRf (discard s 7) .devHemctl F.devHemctlState 0)

/-- RESUME (R295, R455): HALT to COLLECT for the same step, unless FATAL is set. -/
def hemResume (s : State) : State := if hemState s = 4 ∧ rf s .errStat F.errStatFatal = 0 then enterCollect s else s

/-- Whether this rank has sent its last message of the step (R291): every bucket posted, every own shard resolved, every led shard sent. -/
def sentAll (s : State) : Bool :=
  (List.range (nBuckets s)).all (fun b =>
    let c := cbucket s b
    c.posted && ownResolved s b && (!pairFirst s || (List.range (nRanks s)).all (fun i => !leads s i || c.led.contains i)))

/-- NONFIN (R291): in COLLECT, after the rank's last message, the post is late; in UPDATE and INPLACE it is an update fault. -/
def hemNonfin (s : State) : State :=
  let fresh := decide (rf s .devHemctl F.devHemctlNonfin = 0)
  let s' := setRf s .devHemctl F.devHemctlNonfin 1
  if fresh && decide (hemState s = 1) && decide (collState s = 5) && sentAll s then { s' with hem := { s'.hem with latePost := true } }
  else if hemState s = 2 || hemState s = 3 then { s' with hem := { s'.hem with updNonfin := true } }
  else s'

/-- ABORT and HALTREQ (R292): a discard, then HALT, in any state but IDLE and HALT. -/
def hemStop (s : State) (kind : Nat) : State := if hemState s = 0 || hemState s = 4 then s else discardHalt s kind

/-- The offset of DEV_HEMCTL. -/
def hemctlOff : Nat := 0x400

/-- An action bit that only the Mantle and the host may write. -/
def hemAction (s : State) (a : Agent) (f : State → State) : State := if agentTrusted a then f s else accessError s a hemctlOff

/-- ARM (R295). -/
def execArm (a : Agent) (s : State) : Host.Outcome State Fault Refusal := .next (mmioCmd s a hemctlOff (fun s => hemAction s a hemArm))

/-- DISARM (R295). -/
def execDisarm (a : Agent) (s : State) : Host.Outcome State Fault Refusal := .next (mmioCmd s a hemctlOff (fun s => hemAction s a hemDisarm))

/-- RESUME (R295). -/
def execResume (a : Agent) (s : State) : Host.Outcome State Fault Refusal := .next (mmioCmd s a hemctlOff (fun s => hemAction s a hemResume))

/-- NONFIN_POST (R291, R314): also by threads at S or above. -/
def execNonfinPost (a : Agent) (s : State) : Host.Outcome State Fault Refusal :=
  .next (mmioCmd s a hemctlOff (fun s => if agentAtLeast s a 1 then hemNonfin s else accessError s a hemctlOff))

/-- ABORT (R292). -/
def execAbort (a : Agent) (s : State) : Host.Outcome State Fault Refusal := .next (mmioCmd s a hemctlOff (fun s => hemAction s a (fun s => hemStop s 5)))

/-- HALTREQ (R292). -/
def execHaltreq (a : Agent) (s : State) : Host.Outcome State Fault Refusal := .next (mmioCmd s a hemctlOff (fun s => hemAction s a (fun s => hemStop s 7)))

/-- DEV_HEMXDIG written (R311, R314). -/
def hemxdigWrite (s : State) (a : Agent) (v : Word) : State :=
  if agentAtLeast s a 1 then { s with hem := { s.hem with xdig := s.hem.xdig ^^^ v } } else accessError s a 0x450

/-- HEMXDIG_WRITE (R311). -/
def execHemxdigWrite (a : Agent) (v : Word) (s : State) : Host.Outcome State Fault Refusal := .next (mmioCmd s a 0x450 (fun s => hemxdigWrite s a v))

/-- A write of the whole control word (R314): NONFIN, ABORT, HALTREQ, DISARM, ARM, RESUME in that order, then ERR's clear. A thread may write NONFIN alone: with another field of its own it is ignored whole (R314). -/
def hemctlWrite (s : State) (a : Agent) (v : Word) : State :=
  let on (f : Fld) : Bool := decide (fget v f = 1)
  let more := [F.devHemctlArm, F.devHemctlDisarm, F.devHemctlResume, F.devHemctlAbort, F.devHemctlHaltreq, F.devHemctlErr].any on
  if !(agentTrusted a || (agentAtLeast s a 1 && !more)) then accessError s a hemctlOff
  else
    let s := if on F.devHemctlNonfin then hemNonfin s else s
    let s := if on F.devHemctlAbort then hemStop s 5 else s
    let s := if on F.devHemctlHaltreq then hemStop s 7 else s
    let s := if on F.devHemctlDisarm then hemDisarm s else s
    let s := if on F.devHemctlErr then setRf s .devHemctl F.devHemctlErr 0 else s
    let s := if on F.devHemctlArm then hemArm s else s
    if on F.devHemctlResume then hemResume s else s

end Sys2Proof.Machine
end

