-- ==== Sys2Proof/Machine/Roll.lean ====
section
/-! DEFINITION. Roll call (R315–R322): the join entries, their checks, the rank table's chunks, and the states of COLL_CTL. -/

namespace Sys2Proof.Machine

/-! ## Entries (R319, R320) -/

/-- The SERIAL of a public key: the first 8 bytes of its SHA-512 (R319, R427, log 5). -/
def serialOf (key : List Byte) : List Byte := (leBytes (Config.sha512 key).toNat 64).take 8

/-- The identity public key's bytes. -/
def identityBytes : List Byte := leBytes Config.identityKey.toNat 32

/-- The GID of a port; all zero when the port has no link or no address (R319). -/
def portGid (s : State) (p : Nat) : List Byte :=
  if rf s .ethPortstat F.ethPortstatState p = 3 then tget (List.replicate 16 0) s.net.gids p else List.replicate 16 0

/-- This part's rank-table entry, TWIN still open (R319). -/
def ownEntry (s : State) : List Byte :=
  let ports := (List.range 4).foldl (fun a p => if rf s .ethPortstat F.ethPortstatState p = 3 then a ||| (1 <<< p) else a) 0
  (List.range 4).flatMap (portGid s) ++ [0xFF, 0xFF] ++ [BitVec.ofNat 8 ports] ++ List.replicate 5 0
    ++ serialOf identityBytes ++ leBytes (reg s .seamPeer).toNat 8 ++ List.replicate 40 0

/-- Fields of an entry. -/
def entTwin (e : List Byte) : Nat := ofLE ((e.drop 64).take 2)
def entSerial (e : List Byte) : Nat := ofLE ((e.drop 72).take 8)
def entTwinser (e : List Byte) : Nat := ofLE ((e.drop 80).take 8)

/-- An entry with TWIN set. -/
def withTwin (e : List Byte) (t : Nat) : List Byte := e.take 64 ++ leBytes t 2 ++ e.drop 66

/-- The first port whose GID in an entry is not zero. -/
def firstPort (e : List Byte) : Nat := ((List.range 4).find? (fun p => ((e.drop (16 * p)).take 16).any (fun b => decide (b ≠ 0)))).getD 0

/-- SHAPE (R320): the CRC-64 of the job's shape. -/
def shapeOf (s : State) : Word × State :=
  let base := [rf s .collJob F.collJobNrm1, rf s .collJob F.collJobNbm1, rf s .collNum F.collNumOrder]
  let r := (List.range (nBuckets s)).foldl (fun (a : List Nat × State) b =>
    let (e, s) := btEnt a.2 b; (a.1 ++ [e.shard ||| (e.rfmt <<< 24)], s)) (base, s)
  (crc64 (r.1.flatMap (fun w => leBytes w 8)), r.2)

/-- The numeric configuration digest's bytes (R424). -/
def numDigest (s : State) : List Byte := (List.range 8).flatMap (fun i => leBytes (reg s .trustNumdig i).toNat 8)

/-- The check block of a JOIN (R320). -/
def checkBlock (s : State) : List Byte × State :=
  let (sh, s) := shapeOf s
  ((numDigest s).take 32 ++ leBytes sh.toNat 8 ++ leBytes (rf s .collJob F.collJobNrm1) 2
    ++ [BitVec.ofNat 8 (rf s .collNum F.collNumOrder)] ++ List.replicate 21 0, s)

/-! ## States (R318) -/

/-- STATE of COLL_CTL replaced. -/
def setColl (s : State) (st : Nat) : State := setRf s .collCtl F.collCtlState st

/-- FAILED with a reason. -/
def rollFail (s : State) (reason : Nat) : State := setRf (setColl s 6) .collCtl F.collCtlReason reason

/-- Whether STATE is one of those that roll call passes through. -/
def rolling (s : State) : Bool := [1, 2, 3, 4].contains (collState s)

/-- The rank table's address of an entry. -/
def rtAddr (s : State) (r : Nat) : Nat := 4096 * rf s .collRtbase F.collRtbaseBase + 128 * r

/-- An entry of the rank table. -/
def rtEntry (s : State) (r : Nat) : List Byte × State := let ((bs, _), s) := homeRead (accessDraws s Activity.gradient.part (rtAddr s r) 128) (rtAddr s r) 128; (bs, s)

/-- Chunks of the table (R321). -/
def nChunks (s : State) : Nat := (nRanks s + 15) / 16

/-- The UD queue pair of every port, and its Q_Key (R315). -/
def udQpn : Nat := 2
def udKey : Nat := 0x5E1A0001

/-- The GID of a port in an entry. -/
def entGid (e : List Byte) (p : Nat) : List Byte := (e.drop (16 * p)).take 16

/-- A datagram of roll call to a GID, from a port, at the RoCE priority (R315, R386). -/
def sendGid (s : State) (port : Nat) (gid : List Byte) (a : MsgArgs) : State :=
  netSend s port s.net.rpri gid (.datagram port gid udQpn udKey (mkMsg s a) {})

/-- A datagram of roll call to the rank whose entry this is, at its first GID that is not zero (R321). -/
def sendRoll (s : State) (e : List Byte) (a : MsgArgs) : State := sendGid s (firstPort e) (entGid e (firstPort e)) a

/-- Entries that a chunk holds of the table (R321): the last chunk may reach past it. -/
def chunkEntries (s : State) (c : Nat) : Nat := min 16 (nRanks s - 16 * c)

/-- A chunk sent to a child (R321): 2,048 bytes; past the table's end they are zero (DESIGN CHOICE, log 104). -/
def sendChunk (s : State) (c dst : Nat) : State :=
  let (e, s) := rtEntry s dst
  let n := chunkEntries s c
  let ((bs, _), s) := homeRead (accessDraws s Activity.gradient.part (rtAddr s (16 * c)) (128 * n)) (rtAddr s (16 * c)) (128 * n)
  sendRoll s e { type := 0x11, chunk := some c, payload := bs ++ List.replicate (128 * (16 - n)) 0 }

/-- The chunks of a list sent, each to its child, as far as the child's own entry is held: its GID is known only then (R321). -/
def sendKnown (s : State) (l : List (Nat × Nat)) : State :=
  l.foldl (fun s p => if s.coll.chunks.contains (p.2 / 16) then sendChunk s p.1 p.2 else s) s

/-- The children of a rank in the tree (R321). -/
def children (s : State) : List Nat := [2 * myRank s + 1, 2 * myRank s + 2].filter (fun d => decide (d < nRanks s))

/-- A chunk newly held goes to every child whose entry is held, and so does every earlier chunk to a child whose entry it brings (R321). -/
def forwardChunk (s : State) (c : Nat) : State :=
  let s := { s with coll := { s.coll with unacked := s.coll.unacked ++ (children s).map (fun d => (c, d)) } }
  sendKnown s (s.coll.unacked.filter (fun p => decide (p.1 = c) || decide (p.2 / 16 = c)))

/-- Roll call's start at rank 0 needs its own entry too; the others join. -/
def refuseAll (s : State) (rank reason : Nat) : State :=
  let s := s.coll.joined.foldl (fun s (p : Nat × List Byte) =>
    if p.1 = myRank s then s else sendRoll s p.2 { type := 0x13, voidrank := rank, missing := reason }) s
  rollFail s reason

/-- Rank 0 with every entry: twins are set, the pair-first rule is checked, the table is built and its chunks go out (R320, R321). -/
def buildTable (s : State) : State :=
  let js := s.coll.joined
  let twin (e : List Byte) : Nat :=
    ((js.find? (fun q => decide (entSerial q.2 = entTwinser e) && decide (entSerial e = entTwinser q.2) && decide (entSerial q.2 ≠ 0))).map (fun q => q.1)).getD 0xFFFF
  let js' := js.map (fun p => (p.1, withTwin p.2 (twin p.2)))
  match (if pairFirst s then js'.find? (fun p => decide (entTwin p.2 ≠ p.1 ^^^ 1)) else none) with
  | some p => refuseAll s p.1 5
  | none =>
    let s := js'.foldl (fun s p => homeWrite (accessDraws s Activity.gradient.part (rtAddr s p.1) 128) (rtAddr s p.1) p.2) s
    let s := { s with coll := { s.coll with joined := js', chunks := List.range (nChunks s) } }
    let s := { s with coll := { s.coll with unacked := (List.range (nChunks s)).flatMap (fun c => (children s).map (fun d => (c, d))) } }
    sendKnown (setColl s 4) s.coll.unacked

/-- Rank 0 takes an entry (R320): none of the refusals but the last depends on the others. -/
def takeJoin (s : State) (rank : Nat) (entry check : List Byte) : State :=
  match tget? s.coll.joined rank with
  | some e => if entSerial e = entSerial entry then s else refuseAll s rank 4
  | none =>
    let (own, s) := checkBlock s
    let s := { s with coll := { s.coll with joined := tins rank entry s.coll.joined } }
    if check.take 32 ≠ own.take 32 then refuseAll s rank 2
    else if (check.drop 32).take 8 ≠ (own.drop 32).take 8 then refuseAll s rank 3
    else if s.coll.joined.length = nRanks s then buildTable s else s

/-- ROLLCALL accepted (R317): the old table and its pairs are gone; the own configuration is checked first. -/
def startRollcall (s : State) : State :=
  let s := { s with coll := { s.coll with joined := [], chunks := [], unacked := [], joinSent := none, qps := [], waits := [] }, net := { s.net with hops := [], wait := [] } }
  let s := setRf (setRf s .collCtl F.collCtlReason 0) .collCtl F.collCtlMissing 0
  let r := (List.range (nBuckets s)).foldl (fun (a : Bool × State) b => let (e, s) := btEnt a.2 b; (a.1 && e.ok, s)) (true, s)
  let s := r.2
  if myRank s > rf s .collJob F.collJobNrm1 || !r.1 || (pairFirst s && decide (rf s .collJob F.collJobNrm1 % 2 = 0)) then rollFail s 6
  else if myRank s = 0 then
    let (own, s) := checkBlock (setColl s 2)
    takeJoin s 0 (ownEntry s) own
  else setColl s 1

/-- ROLLCALL written (R317): any write of it that is not accepted is recorded. -/
def rollcallWrite (s : State) (a : Agent) : State :=
  if agentTrusted a && decide (hemState s = 0) && !rolling s then startRollcall s else accessError s a 0x400000

/-- CANCEL written (R318, R347): every queue pair is closed, with what waits on it; ignored while the hem is out of IDLE. IDLE holds no cause (DEDUCED, log 37). -/
def cancelWrite (s : State) (a : Agent) : State :=
  if !agentTrusted a then accessError s a 0x400000
  else if hemState s = 0 then
    let s := setRf (setColl s 0) .collCtl F.collCtlReason 0
    { s with coll := { s.coll with qps := [], waits := [] }, net := { s.net with hops := [], wait := [] } }
  else s

/-- ROLLCALL (R317). -/
def execRollcall (a : Agent) (s : State) : Host.Outcome State Fault Refusal :=
  .next (mmioCmd s a 0x400000 (fun s => rollcallWrite s a))

/-- CANCEL (R318, R347). -/
def execCancel (a : Agent) (s : State) : Host.Outcome State Fault Refusal :=
  .next (mmioCmd s a 0x400000 (fun s => cancelWrite s a))

/-- COLL_ROOTGID0/1: rank 0's GID (R318, R347). -/
def rootGid (s : State) : List Byte := leBytes (reg s .collRootgid 0).toNat 8 ++ leBytes (reg s .collRootgid 1).toNat 8

/-- The entry that this rank's JOIN carries: as it stood at the first (DEDUCED, log 103). -/
def joinEntry (s : State) : List Byte := s.coll.joinSent.getD (ownEntry s)

/-- JOIN_SEND (R318, R320): while JOINING, the entry and the check block go to rank 0. -/
def execJoinSend (s : State) : Host.Outcome State Fault Refusal :=
  .next (if collState s ≠ 1 then s
    else
      let (chk, s) := checkBlock s
      let e := joinEntry s
      let s := { s with coll := { s.coll with joinSent := some e } }
      sendGid s (firstPort e) (rootGid s) { type := 0x10, payload := e ++ chk })

/-- A job other than this one's: counted BADJOB (R320, R329). -/
def ourJob (s : State) (m : Msg) : Bool := decide (m.w6 = reg s .collJobid)

/-- Whether a roll-call message of a type and length breaks rule 2 of R329; NRM1 stands for both: a JOIN of another is BADJOB (R320). -/
def badRoll (s : State) (type len : Nat) (m : Msg) : Bool :=
  decide (bits m.w0 11 8 ≠ 1) || decide (mType m ≠ type) || decide (bits m.w0 19 18 ≠ 0) || decide (bits m.w0 31 28 ≠ 0)
    || decide (bits m.w1 63 48 ≠ 0) || decide (m.w7 ≠ 0) || decide (nRanks s ≤ mSrc m) || decide (mLen m ≠ 0) || decide (m.payload.length ≠ len)

/-- A malformed message: counted, recorded once in a generation (R329). -/
def malformed (s : State) (m : Msg) : State :=
  let s := collCount s 4
  if s.coll.badRecorded then s
  else collFault { s with coll := { s.coll with badRecorded := true } } (mBucket m) 3 (mShard m) (mSrc m)

/-- A roll-call message run through R320 and the rules of R329 that concern it; a part in IDLE or FAILED takes none. -/
def rollMsg (s : State) (type len : Nat) (m : Msg) (k : State → State) : State :=
  if !ourJob s m then collCount s 5 else if badRoll s type len m then malformed s m else k s

/-- JOIN (R320): only rank 0 gathers. -/
def execJoin (m : Msg) (s : State) : Host.Outcome State Fault Refusal :=
  .next (if collState s ≠ 2 then s
    else if decide (m.payload.length = 192) && decide (ofLE ((m.payload.drop 168).take 2) ≠ rf s .collJob F.collJobNrm1) then collCount s 5
    else rollMsg s 0x10 192 m (fun s => takeJoin s (mSrc m) (m.payload.take 128) (m.payload.drop 128)))

/-- REFUSE (R320): the receiver fails with the reason carried. -/
def execRefuse (m : Msg) (s : State) : Host.Outcome State Fault Refusal :=
  .next (rollMsg s 0x13 0 m (fun s => if rolling s then rollFail s (mMissing m % 16) else s))

/-- Once every chunk is held, the own entry must match the JOIN, TWIN aside (R318). -/
def rosterDone (s : State) : State :=
  if s.coll.chunks.length < nChunks s then s
  else
    let (e, s) := rtEntry s (myRank s)
    let j := joinEntry s
    if e.take 64 ++ e.drop 66 = j.take 64 ++ j.drop 66 then setColl s 4 else rollFail s 4

/-- ROSTER (R321): a chunk is acknowledged; a new one is kept, forwarded, and may complete the table. -/
def execRoster (m : Msg) (s : State) : Host.Outcome State Fault Refusal :=
  let c := bits m.w1 47 0
  .next (rollMsg s 0x11 2048 m (fun s =>
    if !([1, 3, 4, 5].contains (collState s)) || decide (nChunks s ≤ c) then s
    else
      let new := [1, 3].contains (collState s) && !s.coll.chunks.contains c
      let s := if collState s = 1 then setColl s 3 else s
      let put (s : State) : State := homeWrite (accessDraws s Activity.gradient.part (rtAddr s (16 * c)) 2048) (rtAddr s (16 * c)) (m.payload.take (128 * chunkEntries s c))
      let s := if new then put { s with coll := { s.coll with chunks := s.coll.chunks ++ [c] } } else s
      let s := sendGid s (firstPort (joinEntry s)) [] { type := 0x12, chunk := some c }
      if new then rosterDone (forwardChunk s c) else s))

/-- ACK (R321). -/
def execAck (m : Msg) (s : State) : Host.Outcome State Fault Refusal :=
  .next (rollMsg s 0x12 0 m (fun s => { s with coll := { s.coll with unacked := s.coll.unacked.filter (fun p => decide (p ≠ (bits m.w1 47 0, mSrc m))) } }))

/-- ROSTER_RESEND (R321): chunks not acknowledged go again. -/
def execRosterResend (s : State) : Host.Outcome State Fault Refusal :=
  .next (if [2, 3, 4, 5].contains (collState s) then sendKnown s s.coll.unacked else s)

/-- ROLLCALL_TIMEOUT (R318). -/
def execRollcallTimeout (s : State) : Host.Outcome State Fault Refusal :=
  .next (if !rolling s then s
    else
      let s := if myRank s = 0 then setRf s .collCtl F.collCtlMissing (nRanks s - s.coll.joined.length) else s
      rollFail s 1)

/-- The next hops of the open queue pairs that are not resolved are asked for, on the ports that are up (R384). -/
def askHops (s : State) (ports : List Nat := List.range 4) : State :=
  s.net.hops.foldl (fun s q => if ports.contains (q.1 % 4) && portUp s (q.1 % 4) && !hopKnown s (q.1 % 4) q.2 then askHop s (q.1 % 4) q.2 else s) s

/-- Every RC queue pair opened: to each other rank, on each port that has a GID in both entries (R315, R319). -/
def openQps (s : State) : State :=
  let r := (List.range (nRanks s)).foldl (fun (a : List (Nat × List Byte) × State) d => let (e, s) := rtEntry a.2 d; (a.1 ++ [(d, e)], s)) ([], s)
  let set (e : List Byte) (p : Nat) : Bool := (entGid e p).any (fun b => decide (b ≠ 0))
  let own := tget [] r.1 (myRank s)
  let ends := r.1.flatMap (fun x =>
    if x.1 = myRank s then [] else ((List.range 4).filter (fun p => set own p && set x.2 p)).map (fun p => (qpnOf x.1 p, entGid x.2 p)))
  askHops { r.2 with
    coll := { r.2.coll with qps := ends.map (fun q => q.1) },
    net := { r.2.net with hops := ends.foldl (fun t q => tins q.1 q.2 t) [] } }

/-- CONNECTING_DONE (R318): READY; a generation that runs already takes its scales (R325), and the posts held until now are performed (R326). -/
def execConnectingDone (s : State) : Host.Outcome State Fault Refusal :=
  .next (if collState s ≠ 4 then s
    else
      let s := openQps (setColl s 5)
      releasePosts (if hemState s = 0 then s else refreshScales s))

/-- RDMA_NONSEND_REQUEST (R315): answered with a NAK and counted. -/
def execRdmaNonsendRequest (p : Fin 4) (qpn : BitVec 24) (s : State) : Host.Outcome State Fault Refusal :=
  .next (collCount (netSend s p.val s.net.rpri (qpGid s qpn.toNat) (.packet p.val "NAK invalid request" (leBytes qpn.toNat 3) {})) 4)

end Sys2Proof.Machine
end

