-- ==== Sys2Proof/Machine/Region.lean ====
section
/-! DEFINITION. What the units share outside the cells: region clocks (R18, R23), the cell map (R28), the repair record (R425, R426), the start of an invalidation of translations (R101, R102). -/

namespace Sys2Proof.Machine

/-- The stack's state. -/
def stackState (s : State) (k : Nat) : Nat := rf s .hbmStkstat F.hbmStkstatState k

/-! ## Region clocks (R18, R23) -/

/-- A list without a number. -/
def without (r : Nat) (l : List Nat) : List Nat := l.filter (fun x => decide (x ≠ r))

/-- PLL_START (R23); before the image has been applied DEV_CLK reads as its reset value (R29). -/
def execPllStart (r : Fin 12) (s : State) : Host.Outcome State Fault Refusal :=
  .next (if rf s .devBoot F.devBootImage = 0 then s else pllGo s r.val)

/-- PLL_LOCK (R23): the region is clocked. -/
def execPllLock (r : Fin 12) (s : State) : Host.Outcome State Fault Refusal :=
  .next (if s.clk.starting.contains r.val && decide (rf s .devBoot F.devBootImage ≠ 0) then
      setClkBit { s with clk := { s.clk with starting := without r.val s.clk.starting } } F.devClkRunning r.val true
    else s)

/-- Whether a region's crossbar carries no request (R23): none of any core that its home has still to serve, none of its own DMA engine. -/
def crossbarIdle (s : State) (r : Nat) : Bool :=
  let here (l : Nat) : Bool := decide (homeRegion s l = some r)
  s.cells.all (fun p => !p.2.mshrs.any (fun m => m.served.isNone && here m.line) && !p.2.slots.any (fun m => m.served.isNone && here m.line)
      && !p.2.loads.any (fun l => here (l.pa / 128)) && !p.2.atomics.any (fun m => here m.line) && !p.2.wb.any (fun e => here e.line))
    && (chansOf (3 + r)).all (fun ch => ((tget? s.dma ch).bind (fun d => d.run)).isNone)

/-- PLL_IDLE_STOP (R23): every cell power-gated, the crossbar idle, no region DMA channel enabled, no pin. -/
def execPllIdleStop (r : Fin 12) (s : State) : Host.Outcome State Fault Refusal :=
  .next (if clkBit s F.devClkRunning r.val && !clkBit s F.devClkPin r.val
        && (List.range 64).all (fun i => cellRetired s (64 * r.val + i) || decide ((cell s (64 * r.val + i)).power = .off))
        && crossbarIdle s r.val && (chansOf (3 + r.val)).all (fun ch => decide (rf s .dmaChctl F.dmaChctlEn ch = 0)) then
      setClkBit s F.devClkRunning r.val false
    else s)

/-- A second PLL failure stops the region (R18). R459 and R492 give a PLL no unit number: its records name 0xFF, with INST the region (log 100). -/
def regionStop (s : State) (r : Nat) : State :=
  let s := { s with clk := { starting := without r s.clk.starting, switching := without r s.clk.switching } }
  report (setClkBit (setClkBit s F.devClkRunning r false) F.devClkStopped r true) (mkErr 0x39 0xFF r 0)

/-- PLL_LOCK_LOSS (R18): the first failure starts the switch to PLL b. Before the image is applied DEV_CLK keeps its reset value (R29). -/
def execPllLockLoss (r : Fin 12) (s : State) : Host.Outcome State Fault Refusal :=
  .next (if rf s .devBoot F.devBootImage = 0 then s
    else if clkBit s F.devClkRunning r.val || s.clk.starting.contains r.val then
      if clkBit s F.devClkSparePll r.val then regionStop s r.val
      else
        report (setClkBit { s with clk := { starting := without r.val s.clk.starting, switching := r.val :: s.clk.switching } } F.devClkRunning r.val false)
          (mkErr 0x38 0xFF r.val 0)
    else s)

/-- PLL_SWITCH_END (R18): PLL b has locked, or has failed. -/
def execPllSwitchEnd (r : Fin 12) (locked : Bool) (s : State) : Host.Outcome State Fault Refusal :=
  .next (if rf s .devBoot F.devBootImage = 0 || !s.clk.switching.contains r.val then s
    else if locked then
      setClkBit (setClkBit { s with clk := { s.clk with switching := without r.val s.clk.switching } } F.devClkRunning r.val true) F.devClkSparePll r.val true
    else regionStop s r.val)

/-- Whether an agent may write DEV_CLK (R29): not a thread at U, of a cell or of the Mantle. -/
def clkWriter (s : State) (a : Agent) : Bool := decide (1 ≤ agentLevel s a)

/-- A write of DEV_CLK.PIN (R29): ignored from U and before the image is applied; a bit set starts the PLL. -/
def clkWrite (s : State) (a : Agent) (v : Word) : State :=
  if !clkWriter s a || decide (rf s .devBoot F.devBootImage = 0) then s
  else
    let s := setRf s .devClk F.devClkPin (fget v F.devClkPin)
    (List.range 12).foldl (fun s r => if clkBit s F.devClkPin r then pllGo s r else s) s

/-- DEV_CLK_PIN_WRITE (R29). -/
def execDevClkPinWrite (a : Agent) (v : Word) (s : State) : Host.Outcome State Fault Refusal := .next (mmioCmd s a 0x118 (fun s => clkWrite s a v))

/-! ## Banks of block memory (R211) -/

/-- The key of a bank. -/
def bankKey (b bank : Nat) : Nat := b * 32 + bank

/-- Rows in use in a bank, and its spare rows (R211). -/
def bmRows : Nat := 1536
def bmSpareRows : Nat := 32

/-- Spare rows in use in a bank. -/
def sparesUsed (s : State) (b bank : Nat) : List Nat := tget [] s.bm.spares (bankKey b bank)

/-! ## The cell map (R28) -/

/-- Active cells of a block. -/
def activeIn (s : State) (b : Nat) : Nat := ((List.range 8).filter (fun i => decide (siteOf s (8 * b + i) ≠ 15))).length

/-- DEV_ACTIVE's counts of cells and of degraded blocks. -/
def recountCells (s : State) : State :=
  let n := (List.range 96).map (activeIn s)
  setRf (setRf s .devActive F.devActiveCells n.sum) .devActive F.devActiveDegraded (n.filter (fun x => decide (x < 8))).length

/-- A logical cell's site in DEV_BLKMAP. -/
def setSite (s : State) (c v : Nat) : State :=
  let b := c / 8
  let s := setReg s .devBlkmap b (setBits (reg s .devBlkmap b) (4 * (c % 8) + 3) (4 * (c % 8)) v)
  setRf s .devBlkmap F.devBlkmapDead (rf s .devBlkmap F.devBlkmapDead b + 1) b

/-! ## The repair record (R425, R426) -/

/-- A copy as the flash holds it (R425, R426): header, entries, signature. -/
def repairImage (c : RepairCopy) : List Byte :=
  let body := [0x52#8, 0x50#8, 0x52#8, 0x31#8] ++ leBytes c.seq 8 ++ leBytes c.ents.length 4 ++ List.replicate 48 0
    ++ (c.ents.map (fun e => BitVec.ofNat 8 e.kind :: leBytes (Config.repairBytes e.kind e.unit e.site e.data).toNat 15)).flatten
  body ++ leBytes (Config.identitySign body).toNat 64

/-- The flash range of a copy (R414). -/
def copyBase (i : Fin 2) : Nat := if i = 0 then 0x10000 else 0x30000

/-- The contents of a copy, if its signature verifies: the flash still holds what was written (R414, R425). -/
def repairCopy (s : State) (i : Fin 2) : Option RepairCopy :=
  (if i = 0 then s.repair.copy0 else s.repair.copy1).bind (fun c =>
    if flashBytes s (copyBase i) (repairImage c).length = repairImage c then some c else none)

/-- The copy with the greater SEQ, if any. -/
def newestCopy (s : State) : Option (Fin 2) :=
  match repairCopy s 0, repairCopy s 1 with
  | some a, some b => some (if a.seq < b.seq then 1 else 0)
  | some _, none => some 0
  | none, some _ => some 1
  | none, none => none

/-- The flash erased from an address. -/
def flashErase (s : State) (a n : Nat) : State := { s with flash := s.flash.filter (fun p => !(decide (a ≤ p.1) && decide (p.1 < a + n))) }

/-- Whether a Mantle core has halted on a double fault (R66, R395). -/
def coreHalted (s : State) (c : Nat) : Bool := (tidsOf (768 + c)).any (fun t => decide ((thread s t).st = .halted))

/-- Whether a Mantle core runs (R395): it is live and has not halted. -/
def coreLive (s : State) (c : Nat) : Bool := (rf s .mantleCores F.mantleCoresLive).testBit c && !coreHalted s c

/-- Whether the core that a service runs on does: 0 Runner and mailbox, 1 Feed, 2 Keeper, 3 Health. -/
def homeLive (s : State) (i : Nat) : Bool := coreLive s (s.mantle.home.getD i 0)

/-- REPAIR_RECORD_WRITE (R17, R409, R425): what has gathered is written by Health to the copy that is not the newest. -/
def execRepairRecordWrite (s : State) : Host.Outcome State Fault Refusal :=
  .next (if !s.repair.dirty || !homeLive s 3 then s
    else
      let i : Fin 2 := match newestCopy s with | some j => if j = 0 then 1 else 0 | none => 0
      let seq := ((newestCopy s).bind (repairCopy s)).elim 0 (fun c => c.seq)
      let c : RepairCopy := { seq := seq + 1, ents := s.repair.ents }
      let s := { s with repair := { s.repair with dirty := false, copy0 := if i = 0 then some c else s.repair.copy0, copy1 := if i = 0 then s.repair.copy1 else some c } }
      flashProg (flashErase s (copyBase i) 0x20000) (copyBase i) (repairImage c))

/-! ## Invalidation of translations (R101, R102) -/

/-- The scope of DEV_TLBINV as it stands. -/
def tlbScope (s : State) (e : TlbEnt) : Bool :=
  inScope (rf s .devTlbinv F.devTlbinvAsid) (rf s .devTlbinv F.devTlbinvScope) (rf s .devTlbinv F.devTlbinvVpn) e

/-- The pseudo-cores of the engines' TLBs. -/
def engineCores : List Nat := collCore :: ((List.range 15).map dmaCore ++ (List.range 12).map stackCore)

/-- A write of DEV_TLBINV (R101, R102): ignored from U; lost while GO reads 1; GO starts the invalidation, which empties the engines' TLBs and marks the chunks that used a removed entry. -/
def tlbinvWrite (s : State) (a : Agent) (v : Word) : State :=
  if !agentAtLeast s a 1 then s
  else if rf s .devTlbinv F.devTlbinvGo = 1 then setRf s .devTlbstat F.devTlbstatLost 1
  else
    let s := setRf (setRf s .devTlbinv F.devTlbinvAsid (fget v F.devTlbinvAsid)) .devTlbinv F.devTlbinvVpn (fget v F.devTlbinvVpn)
    let s := if fget v F.devTlbinvScope = 3 then s else setRf s .devTlbinv F.devTlbinvScope (fget v F.devTlbinvScope)
    if fget v F.devTlbinvGo = 0 then s
    else
      let s := setRf s .devTlbinv F.devTlbinvGo 1
      let s := engineCores.foldl (fun s c => modCell s c (tlbDrop (tlbScope s))) s
      { s with lining := s.lining.map (fun (p : Nat × LStack) => (p.1, { p.2 with runs := p.2.runs.map (fun (q : Nat × LRun) =>
          (q.1, if q.2.ents.any (tlbScope s) then { q.2 with inv := true } else q.2)) })) }

/-- TLB_INVALIDATE (R101). -/
def execTlbInvalidate (a : Agent) (v : Word) (s : State) : Host.Outcome State Fault Refusal := .next (mmioCmd s a 0x210 (fun s => tlbinvWrite s a v))

end Sys2Proof.Machine
end

