-- ==== Sys2Proof/Machine/Hbm.lean ====
section
/-! DEFINITION. The HBM stacks beside data (R241–R259): scrub, lane repair and retrain, row repair and offlining, the bandwidth regulators, MAINT, the traffic generators. -/

namespace Sys2Proof.Machine

/-! ## Places (R243, R244) -/

/-- The physical address of a place: the inverse of R243 and R244. -/
def hbmAddr (g : Nat) (p : HbmPlace) : Nat :=
  let ch := p.chan ^^^ (p.row % 32)
  let pc := p.pc ^^^ (p.row / 32 % 2)
  let bank := p.bank ^^^ (p.row / 64 % 64)
  let l := p.row * 32768 + bank * 512 + p.lineRow * 64 + pc * 32 + ch
  let o := l * 128 + p.burst * 32
  (o / g * 12 + p.stack) * g + o % g

/-- Usable lines of a channel (R250). -/
def chanLines : Nat := 20971520

/-- The i-th usable line of a channel in the scrubber's order. -/
def scrubPlace (k ch i : Nat) : HbmPlace :=
  { stack := k, chan := ch, pc := i / 10485760, bank := i / 163840 % 64, row := i / 8 % 20480, lineRow := i % 8, burst := 0 }

/-- The lane argument of a record: all ones when unknown (R491). -/
def laneOf (e : Ecc) : Nat := match e with | .corrected l => l % 256 | .clean => 0xFF | .uncorrectable => 0xFF

/-- A corrected symbol counted by lane (R246): the times of the last 32. -/
def countLane (s : State) (ck lane : Nat) : State :=
  { s with err := { s.err with lanes := tmod [] s.err.lanes (128 * ck + lane) (fun l => (lcount s 12 :: l).take 32) } }

/-- Whether a lane has had 32 corrected symbols within 1 s (R246). -/
def laneDue (s : State) (ck lane : Nat) : Bool :=
  let l := tget [] s.err.lanes (128 * ck + lane)
  decide (l.length = 32) && decide ((l.getD 0 0 - l.getD 31 0).toNat ≤ 25000000)

/-- Whether a lane of a channel is flagged: its retrain is due, or it found no spare (R246). -/
def flagged (s : State) (ck lane : Nat) : Bool := (tget [] s.hbm.flag ck).contains lane

/-- What a scrub finds in a burst (R246, R248, R250): a corrected symbol counts for its lane and, unless that is flagged, for its row; an uncorrectable burst is poisoned. -/
def hbmFinding (s : State) (p : HbmPlace) (pa : Nat) (e : Ecc) : State :=
  let ck := chKey p.stack p.chan
  let row := hbmRow p.pc p.bank p.row
  match e with
  | .clean => s
  | .corrected lane =>
    let s := countLane (if flagged s ck (lane % 256) then s else noteRow s ck row false) ck (lane % 256)
    report (bumpRf s .hbmChstat F.hbmChstatCe 1 ck) (mkErr 0x32 7 p.stack p.chan (wd pa) (pack [(0, p.chan), (8, laneOf e)]))
  | .uncorrectable =>
    let l := pa / 128
    let s := noteRow s ck row true
    report { s with ms := { s.ms with hbmPoison := tset 0 s.ms.hbmPoison l (setBit (tget 0 s.ms.hbmPoison l) p.burst true) } }
      (mkErr 0x34 7 p.stack p.chan (wd pa))

/-- HBM_SCRUB (R250, R248): the channel's next line; the finding lies in one of its bursts. -/
def execHbmScrub (k : Fin 12) (ch : Fin 32) (burst : Fin 4) (e : Ecc) (s : State) : Host.Outcome State Fault Refusal :=
  let ck := chKey k.val ch.val
  let i := tget 0 s.hbm.ptr ck
  let p : HbmPlace := { scrubPlace k.val ch.val i with burst := burst.val }
  let pa := hbmAddr s.ms.gran p
  let s := { s with hbm := { s.hbm with ptr := tset 0 s.hbm.ptr ck ((i + 1) % chanLines) } }
  let s := (List.range 16).foldl (fun s j => touchLatent s (pa / 128) j) s
  let s := hbmFinding s p pa e
  .next (if i + 1 = chanLines then passEnded s ck else s)

/-! ## Lanes (R245–R247) -/

/-- A channel failed (R247): the stack reads failed and the error is recorded. -/
def chanFail (s : State) (k ch : Nat) : State :=
  let s := setRf s .hbmChstat F.hbmChstatState 3 (chKey k ch)
  report (setRf s .hbmStkstat F.hbmStkstatState 4 k) (mkErr 0x37 7 k ch 0 (wd ch))

/-- LANE_FLAGGED (R246): a lane with 32 corrected symbols within 1 s; the channel retrains. The lane flagged last heads the channel's list. -/
def execLaneFlagged (k : Fin 12) (ch : Fin 32) (lane : Nat) (s : State) : Host.Outcome State Fault Refusal :=
  let ck := chKey k.val ch.val
  .next (if laneDue s ck lane && rf s .hbmChstat F.hbmChstatState ck = 1 && decide (lane < 72) && !flagged s ck lane then
      setRf { s with hbm := { s.hbm with flag := tset [] s.hbm.flag ck (lane :: tget [] s.hbm.flag ck) } } .hbmChstat F.hbmChstatState 2 ck
    else s)

/-- A lane replaced by the next spare of its channel (R245). -/
def spareLane (s : State) (ck lane : Nat) : State :=
  let n := rf s .hbmChstat F.hbmChstatDqSpared ck
  setRf (setRf s .hbmChstat (if n = 0 then F.hbmChstatLane0 else F.hbmChstatLane1) lane ck) .hbmChstat F.hbmChstatDqSpared (n + 1) ck

/-- A channel's training (R245, R247): bad DQ and ECC lanes and bad command lanes take spares; more than the spares fail the channel. -/
def trainChan (s : State) (k ch : Nat) (bad : List Nat) (cmdBad : Nat) : Bool × State :=
  let ck := chKey k ch
  let lanes := (distinct bad).filter (fun l => decide (l < 72))
  let cmdUsed := rf s .hbmChstat F.hbmChstatCmdSpared ck
  if 2 < lanes.length + rf s .hbmChstat F.hbmChstatDqSpared ck || decide (1 < cmdBad + cmdUsed) then (false, chanFail s k ch)
  else
    let s := lanes.foldl (fun s l => spareLane s ck l) s
    let s := if cmdBad = 0 then s else setRf s .hbmChstat F.hbmChstatCmdSpared 1 ck
    (true, setRf s .hbmChstat F.hbmChstatState 1 ck)

/-- Flagged lanes of a channel that the given ones leave: those have taken spares. -/
def unflag (s : State) (ck : Nat) (lanes : List Nat) : State :=
  { s with hbm := { s.hbm with flag := tset [] s.hbm.flag ck ((tget [] s.hbm.flag ck).filter (fun l => !lanes.contains l)) } }

/-- CHANNEL_RETRAIN (R246): the retrain ends; bad names the lanes that fail its tests; the lane flagged last takes a spare, or stays in service flagged, as those before it do. -/
def execChannelRetrain (k : Fin 12) (ch : Fin 32) (bad : List Nat) (cmdBad : Nat) (s : State) : Host.Outcome State Fault Refusal :=
  let ck := chKey k.val ch.val
  .next (if rf s .hbmChstat F.hbmChstatState ck ≠ 2 then s
    else
      let s := bumpRf s .hbmChstat F.hbmChstatRetrains 1 ck
      let lane := (tget [] s.hbm.flag ck).head?
      let (ok, s) := trainChan s k.val ch.val bad cmdBad
      if !ok then s
      else
        match lane with
        | none => s
        | some l =>
          let taken := bad.contains l
          let room := decide (rf s .hbmChstat F.hbmChstatDqSpared ck < 2)
          let s := if taken then s else if room then spareLane s ck l else setRf s .hbmChstat F.hbmChstatFlagged 1 ck
          let none' := !taken && !room
          let s := unflag s ck (if none' then bad else l :: bad)
          report s (mkErr 0x33 7 k.val ch.val 0 (pack [(0, ch.val), (8, l), (16, 1), (17, none'.toNat)])))

/-! ## Row repair (R251–R253) -/

/-- Entries of a stack's remap table. -/
def rmKeys (k : Nat) : List Nat := (List.range 512).map (fun e => k * 512 + e)

/-- An entry that names a row of a bank, any row when none is given. -/
def rmNames (w : Word) (ch pc bank : Nat) (row : Option Nat) : Bool :=
  decide (fget w F.hbmRmentValid = 1) && decide (fget w F.hbmRmentCh = ch) && decide (fget w F.hbmRmentPc = pc) && decide (fget w F.hbmRmentBank = bank)
    && (match row with | some r => decide (fget w F.hbmRmentRow = r) | none => true)

/-- The key of a bank of a stack. -/
def rmBank (k ch pc bank : Nat) : Nat := ((k * 32 + ch) * 2 + pc) * 64 + bank

/-- The remap counts of HBM_STKSTAT. -/
def recountRm (s : State) (k : Nat) : State :=
  let n := ((rmKeys k).filter (fun e => decide (rf s .hbmRment F.hbmRmentValid e = 1))).length
  setRf (setRf s .hbmStkstat F.hbmStkstatRmUsed n k) .hbmStkstat F.hbmStkstatRmFull (if n = 512 then 1 else 0) k

/-- The 2 MiB page that holds a row. -/
def rowPage (s : State) (k ch pc bank row : Nat) : Nat :=
  hbmAddr s.ms.gran { stack := k, chan := ch, pc := pc, bank := bank, row := row, lineRow := 0, burst := 0 } / 0x200000 * 0x200000

/-- A row that cannot be repaired: its page is reported once per boot (R253). -/
def offline (s : State) (k ch pc bank row : Nat) : State :=
  let p := rowPage s k ch pc bank row
  if s.hbm.offlined.contains p then s
  else report (bumpRf { s with hbm := { s.hbm with offlined := p :: s.hbm.offlined } } .hbmStkstat F.hbmStkstatOfflined 1 k) (mkErr 0x36 7 k ch (wd p))

/-- A row read for its copy: correctable data is corrected, poison goes along (R251). -/
def touchRow (s : State) (k ch pc bank row : Nat) : State :=
  (List.range 8).foldl (fun s i =>
    let l := hbmAddr s.ms.gran { stack := k, chan := ch, pc := pc, bank := bank, row := row, lineRow := i, burst := 0 } / 128
    (List.range 16).foldl (fun s j => touchLatent s l j) s) s

/-- ROW_REPAIR (R250–R253): of a row for which R250 calls for one. -/
def execRowRepair (k : Fin 12) (ch : Fin 32) (pc : Fin 2) (bank : Fin 64) (row : Nat) (s : State) : Host.Outcome State Fault Refusal :=
  let bk := rmBank k.val ch.val pc.val bank.val
  let keys := rmKeys k.val
  let at' (e : Nat) : Word := reg s .hbmRment e
  let named := keys.find? (fun e => rmNames (at' e) ch.val pc.val bank.val (some row))
  let entry := named <|> keys.find? (fun e => decide (fget (at' e) F.hbmRmentValid = 0))
  let inUse := (keys.filter (fun e => rmNames (at' e) ch.val pc.val bank.val none)).map (fun e => fget (at' e) F.hbmRmentSpare)
  let gone := tget [] s.hbm.retired bk
  let spare := (List.range 16).find? (fun n => !inUse.contains n && !gone.contains n)
  let due := hbmRow pc.val bank.val row
  .next (if decide (20480 ≤ row) || !rowDue s (chKey k.val ch.val) due then s
    else
      let s := rowDone s (chKey k.val ch.val) due
      match entry, spare with
      | some e, some n =>
        let old := at' e
        let s := touchRow s k.val ch.val pc.val bank.val row
        let s := if named.isSome then { s with hbm := { s.hbm with retired := tset [] s.hbm.retired bk (gone ++ [fget old F.hbmRmentSpare]) } } else s
        let rep := if named.isSome then min 255 (fget old F.hbmRmentRepoints + 1) else 0
        let w := pack [(0, 1), (1, ch.val), (6, pc.val), (7, bank.val), (13, row), (28, n), (32, rep)]
        let s := recountRm (setReg s .hbmRment e w) k.val
        addRepair (report s (mkErr 0x35 7 k.val ch.val 0 w)) { kind := 3, unit := k.val, site := e % 512, data := w }
      | _, _ => offline s k.val ch.val pc.val bank.val row)

/-! ## Bandwidth regulators (R255–R257) -/

/-- A regulator's word as R256 applies it: CEIL and DEPTH of at least 1, CEIL of at least GUAR. -/
def partApplied (v : Word) : Word :=
  let g := fget v F.hbmPartGuar
  pack [(0, g), (16, max (max 1 (fget v F.hbmPartCeil)) g), (32, max 1 (fget v F.hbmPartDepth))]

/-- Whether a setting keeps the sums of R256: all partitions within 512, those outside P1 within 256. -/
def partFits (gs : List Nat) : Bool := decide (gs.sum ≤ 512) && decide (gs.getD 0 0 + gs.getD 2 0 + gs.getD 3 0 + gs.getD 4 0 ≤ 256)

/-- Buckets cut to a new depth. -/
def cutBucket (s : State) (k p : Nat) : State :=
  let d := 64 * rf s .hbmPart F.hbmPartDepth (partKey k p)
  let b := tget (0, 0) s.hbm.buckets (partKey k p)
  { s with hbm := { s.hbm with buckets := tset (0, 0) s.hbm.buckets (partKey k p) (min b.1 d, min b.2 d) } }

/-- A regulator set on a stack, or refused whole with ERR (R256). -/
def setPart (s : State) (k p : Nat) (v : Word) : State :=
  let gs := (List.range 5).map (fun q => if q = p then fget v F.hbmPartGuar else rf s .hbmPart F.hbmPartGuar (partKey k q))
  if partFits gs && decide (fget v F.hbmPartCeil ≤ 512) then cutBucket (setReg s .hbmPart (partKey k p) (partApplied v)) k p
  else setRf s .hbmStkstat F.hbmStkstatErr 1 k

/-- The stack and the channel an agent has selected. -/
def selStack (s : State) (a : Agent) : Nat := selF s a .hbmStacksel F.hbmStackselStack
def selChan (s : State) (a : Agent) : Nat := chKey (selStack s a) (selF s a .hbmChsel F.hbmChselCh)

/-- A write that only the Mantle and the host may make (R259, R383, R431). -/
def trustedWrite (s : State) (a : Agent) (off : Nat) (f : State → State) : State := if agentTrusted a then f s else accessError s a off

/-- HBM_PART_WRITE (R256). -/
def execHbmPartWrite (a : Agent) (p : Fin 5) (v : Word) (s : State) : Host.Outcome State Fault Refusal :=
  .next (mmioCmd s a (0x200100 + 8 * p.val) (fun s => trustedWrite s a (0x200100 + 8 * p.val) (fun s => setPart s (selStack s a) p.val v)))

/-- The CEIL in force: halved by each increment of the stack group's lever (R435), and never below GUAR (R256). -/
def ceilNow (s : State) (w : Word) : Nat := max (fget w F.hbmPartGuar) (max 1 (fget w F.hbmPartCeil >>> tget 0 s.power.levers 15))

/-- TOKEN_REFILL (R255), once per ac: every bucket takes 12.5 bursts per unit of its rate, up to DEPTH KiB, and the stacks' bandwidth of the ac is there again; a stack that has drained enters the MAINT asked for (R259). -/
def execTokenRefill (s : State) : Host.Outcome State Fault Refusal :=
  let s : State := { s with hbm := { s.hbm with used := [] } }
  .next ((List.range 12).foldl maintEnter <| (List.range 60).foldl (fun s k =>
    let w := reg s .hbmPart k
    let d := 64 * fget w F.hbmPartDepth
    let b := tget (0, 0) s.hbm.buckets k
    let b' := (min d (b.1 + 25 * fget w F.hbmPartGuar), min d (b.2 + 25 * ceilNow s w))
    { s with hbm := { s.hbm with buckets := tset (0, 0) s.hbm.buckets k b' } }) s)

/-! ## MAINT and the traffic generators (R258) -/

/-- MAINT written for a stack (R259): entered once a ready stack has drained, left for ready. -/
def setMaint (s : State) (k : Nat) (on : Bool) : State :=
  let s := setRf s .hbmStkstat F.hbmStkstatMaint on.toNat k
  if !on && decide (stackState s k = 3) then setRf s .hbmStkstat F.hbmStkstatState 2 k else maintEnter s k

/-- MAINT_REQUEST (R258). -/
def execMaintRequest (a : Agent) (on : Bool) (s : State) : Host.Outcome State Fault Refusal :=
  .next (mmioCmd s a 0x200010 (fun s => trustedWrite s a 0x200010 (fun s => setMaint s (selStack s a) on)))

/-- A run started, with its settings as they stand, or refused when full scope is asked for outside MAINT (R258). -/
def tgGo (s : State) (ck : Nat) : State :=
  if rf s .hbmTgctl F.hbmTgctlGo ck = 1 then s
  else if rf s .hbmTgctl F.hbmTgctlScope ck = 1 && decide (stackState s (ck / 32) ≠ 3) then setRf s .hbmTgstat F.hbmTgstatRefused 1 ck
  else
    let s := setRf s .hbmTgctl F.hbmTgctlGo 1 ck
    { s with hbm := { s.hbm with runs := tins ck (reg s .hbmTgctl ck) s.hbm.runs } }

/-- A run asked to end after its burst. -/
def tgStop (s : State) (ck : Nat) : State :=
  if rf s .hbmTgctl F.hbmTgctlGo ck = 1 then { s with hbm := { s.hbm with stop := ck :: s.hbm.stop.filter (fun x => decide (x ≠ ck)) } } else s

/-- A write of HBM_TGCTL: its fields, which a run under way does not follow (log 69), then STOP, then GO. -/
def tgctlWrite (s : State) (ck : Nat) (v : Word) : State :=
  let s := setRf (setRf s .hbmTgctl F.hbmTgctlScope (fget v F.hbmTgctlScope) ck) .hbmTgctl F.hbmTgctlPasses (fget v F.hbmTgctlPasses) ck
  let s := if fget v F.hbmTgctlOp = 3 then s else setRf s .hbmTgctl F.hbmTgctlOp (fget v F.hbmTgctlOp) ck
  let s := if 4 ≤ fget v F.hbmTgctlPattern then s else setRf s .hbmTgctl F.hbmTgctlPattern (fget v F.hbmTgctlPattern) ck
  let s := if fget v F.hbmTgctlStop = 1 then tgStop s ck else s
  if fget v F.hbmTgctlGo = 1 then tgGo s ck else s

/-- TRAFFIC_GENERATOR_GO (R258): a write of HBM_TGCTL with GO. -/
def execTrafficGeneratorGo (a : Agent) (v : Word) (s : State) : Host.Outcome State Fault Refusal :=
  .next (mmioCmd s a 0x200300 (fun s => trustedWrite s a 0x200300 (fun s => tgctlWrite s (selChan s a) (setBit v 0 true))))

/-- TRAFFIC_GENERATOR_STOP (R258). -/
def execTrafficGeneratorStop (a : Agent) (s : State) : Host.Outcome State Fault Refusal :=
  .next (mmioCmd s a 0x200300 (fun s => trustedWrite s a 0x200300 (fun s => tgStop s (selChan s a))))

/-- A channel's contents destroyed (R258): what is stored is free; its poison and latent errors go with it. -/
def wipeChan (s : State) (ck : Nat) : State :=
  let mine (l : Nat) : Bool := lineHbm l && (let p := hbmPlace s.ms.gran (lineBase l); decide (chKey p.stack p.chan = ck))
  let poison := s.ms.hbmPoison.filter (fun p => !mine p.1)
  let latent := s.err.latent.filter (fun p => !mine (p.1 / 16))
  { s with
    ms := { s.ms with junk := tins ck (s.freeCtr + 1) s.ms.junk, hbmPoison := poison },
    err := { s.err with latent := latent }, freeCtr := s.freeCtr + 1 }

/-- TRAFFIC_GENERATOR_END (R258): the run ends; a run without end only after STOP. A run of reserved scope is charged to P4, whose buckets its bursts have drawn empty (log 11). -/
def execTrafficGeneratorEnd (k : Fin 12) (ch : Fin 32) (errors : Nat) (lane : Nat) (s : State) : Host.Outcome State Fault Refusal :=
  let ck := chKey k.val ch.val
  let w := tget 0 s.hbm.runs ck
  .next (if rf s .hbmTgctl F.hbmTgctlGo ck = 0 || (decide (fget w F.hbmTgctlPasses = 0) && !s.hbm.stop.contains ck) then s
    else
      let s := { s with hbm := { s.hbm with stop := s.hbm.stop.filter (fun x => decide (x ≠ ck)), runs := tdel ck s.hbm.runs } }
      let s := if fget w F.hbmTgctlScope = 0 then { s with hbm := { s.hbm with buckets := tdel (partKey k.val 4) s.hbm.buckets } } else s
      let s := if fget w F.hbmTgctlScope = 1 && decide (fget w F.hbmTgctlOp ≠ 1) then wipeChan s ck else s
      let s := setRf s .hbmTgctl F.hbmTgctlGo 0 ck
      if errors = 0 || fget w F.hbmTgctlOp = 2 then s
      else setRf (bumpRf (setRf s .hbmTgstat F.hbmTgstatFail 1 ck) .hbmTgstat F.hbmTgstatErrors errors ck) .hbmTgstat F.hbmTgstatFirstLane (lane % 128) ck)

end Sys2Proof.Machine
end

