-- ==== Sys2Proof/Machine/Links.lean ====
section
/-! DEFINITION. The external links (R373–R393): the host endpoint and its BARs, the outbound windows, root ports, Ethernet ports, the Seam link; the CRC of internal links (R457). -/

namespace Sys2Proof.Machine

/-- An access error at an address outside BAR0's registers, by a requester's code (R9, R492). -/
def farError (s : State) (addr : Nat) (code : Word) : State :=
  report s (mkErr 0x01 (if mmioBase ≤ addr ∧ addr < mmioBase + 0x100000000 then unitOf (addr - mmioBase) else 0xFF) 0 0 (wd addr) code)

/-- Whether n bytes from an address are memory throughout: HBM, or existing block memory (R78, R213). -/
def memRange (s : State) (pa n : Nat) : Bool := decide (dclass s pa (max 1 n) = .mem)

/-! ## The host endpoint (R373–R376) -/

/-- PERST_DEASSERT (R376): the host link trains. -/
def execPerstDeassert (s : State) : Host.Outcome State Fault Refusal := .next { s with links := { s.links with hostUp := true } }

/-- BAR2's size changed: BAR2BASE is rounded down to a multiple of it (R374). -/
def setBar2 (s : State) (gib : Nat) : State :=
  let s := { s with links := { s.links with bar2Gib := gib } }
  setRf s .devPciewin F.devPciewinBar2base (rf s .devPciewin F.devPciewinBar2base / gib * gib)

/-- HOT_RESET (R376): configuration space, BAR sizes and MSI-X are reset, host DMA stops with a bus error. -/
def execHotReset (s : State) : Host.Outcome State Fault Refusal :=
  let links := { s.links with doeError := false, maxPayload := 128, maxRead := 512, timeout := 0, aerCor := 0, aerUnc := 0 }
  let s := setBar2 { s with msix := [], pba := 0, msixDue := [], msixEn := false, msixMask := false, links := links } 1
  .next (dmaPathLost s 0 2 (fun a => decide (dclassAt s a = .win 0)))

/-- BAR2_ACCESS (R374, R249): HBM at BAR2BASE plus the offset; beyond HBM an Unsupported Request, recorded. -/
def execBar2Access (off : Nat) (n : Nat) (data : Option (List Byte)) (s : State) : Host.Outcome State Fault Refusal :=
  let pa := rf s .devPciewin F.devPciewinBar2base * 2 ^ 30 + off
  let n := match data with | some d => d.length | none => n
  .next (if n = 0 || decide (s.links.bar2Gib * 2 ^ 30 < off + n) then s
    else if 0xF000000000 < pa + n then emit (farError s pa (pack [(8, 2)])) (.reply "unsupported request" [])
    else
      if accessHeld s Activity.host.part pa n then accessStarts s pa n
      else
        let s := accessDraws s Activity.host.part pa n
        match data with
        | some d => homeWriteFrom s 2 pa d
        | none => let ((bs, bad), s) := homeReadFrom s 2 pa n; emit s (.bar2 bs bad.isSome))

/-- MSIX_SEND (R375). -/
def execMsixSend (vec : BitVec 8) (s : State) : Host.Outcome State Fault Refusal := .next (msixSend s vec.toNat)

/-- The sizes of the Resizable BAR (R374). -/
def bar2Sizes : List Nat := [1, 2, 4, 8, 16, 32, 64, 128, 256, 512, 1024]

/-- Whether Device Control settings are among those that R373 names: Max Payload Size up to 512, Max Read Request Size up to 4,096, ranges A–D of the Completion Timeout Value (their codes PRESUMED, as PCIe has them, log 125). -/
def controlOk (payload readSize timeout : Nat) : Bool :=
  [128, 256, 512].contains payload && [128, 256, 512, 1024, 2048, 4096].contains readSize && [0, 1, 2, 5, 6, 9, 10, 13, 14].contains timeout

/-- The objects that DOE Discovery names (R373): the vendor ID, the object's type, the next index (PRESUMED, as PCIe has them, log 125): Discovery itself, then CMA, which carries SPDM. -/
def doeObject (i : Nat) : Nat × Nat × Nat := if i = 0 then (1, 0, 1) else if i = 1 then (1, 1, 0) else (0xFFFF, 0xFF, 0)

/-- A PCIe error that AER logs at the endpoint (R373, R456, R491): its record names the unit of the endpoint's registers (log 125). -/
def aerLog (s : State) (unc : Bool) (status : BitVec 32) : State :=
  let links := if unc then { s.links with aerUnc := s.links.aerUnc ||| status } else { s.links with aerCor := s.links.aerCor ||| status }
  report { s with links := links } { mkErr 0x51 0xFF 0 0 0 (pack [(0, 0xFF), (8, unc.toNat), (32, status.toNat)]) with cls := if unc then 1 else 0 }

/-- CONFIG_REQUEST (R373, R376, R413): Request Retry Status until the image has been applied. What configuration space holds beside the settings, objects and errors of R373, BAR2's size and the MSI-X bits is PCIe's: a read answers a free value (log 4). -/
def execConfigRequest (q : ConfigReq) (s : State) : Host.Outcome State Fault Refusal :=
  .next (if rf s .devBoot F.devBootImage = 0 then emit s (.reply "request retry status" [])
    else
      match q with
      | .read _ => let (v, s) := drawFree s; emit s (.reply "configuration read" (leBytes v.toNat 4))
      | .write _ _ => emit s (.reply "configuration write" [])
      | .resizeBar2 gib => emit (if bar2Sizes.contains gib then setBar2 s gib else s) (.reply "configuration write" [])
      | .msix en mask => (List.range 256).foldl msixFlush (emit { s with msixEn := en, msixMask := mask } (.reply "configuration write" []))
      | .control p r t =>
        emit (if controlOk p r t then { s with links := { s.links with maxPayload := p, maxRead := r, timeout := t } } else s) (.reply "configuration write" [])
      | .controlRead => emit s (.reply "configuration read" (leBytes s.links.maxPayload 2 ++ leBytes s.links.maxRead 2 ++ leBytes s.links.timeout 1))
      | .doeDiscovery i =>
        let (vendor, type, next) := doeObject i.toNat
        emit s (.reply "DOE discovery" (leBytes vendor 2 ++ leBytes type 1 ++ leBytes next 1))
      | .doeStatus => emit s (.reply "configuration read" [BitVec.ofNat 8 s.links.doeError.toNat])
      | .doeAbort => emit { s with links := { s.links with doeError := false } } (.reply "configuration write" [])
      | .error unc status => aerLog s unc status
      | .aerStatus unc clear =>
        let was := if unc then s.links.aerUnc else s.links.aerCor
        let links := if unc then { s.links with aerUnc := was &&& ~~~clear } else { s.links with aerCor := was &&& ~~~clear }
        emit { s with links := links } (.reply "AER status" (leBytes was.toNat 4)))

/-! ## Root ports (R379–R383) -/

/-- A field of a link's status. -/
def linkF (s : State) (f : Fld) (l : Nat) : Nat := rf s .rootLinkstat f l
def setLinkF (s : State) (f : Fld) (v l : Nat) : State := setRf s .rootLinkstat f v l

/-- A board pin of a link. -/
def linkPin (name : String) (l : Nat) : String := name ++ toString l

/-- The sequence of R383 begins: the drive is present, POWER is set, the link exists and is not in use. -/
def linkPower (s : State) (l : Nat) : State :=
  if s.links.started && decide (linkF s F.rootLinkstatPower l = 1) && decide (linkF s F.rootLinkstatPresent l = 1)
      && (decide (linkF s F.rootLinkstatState l = 0) || decide (linkF s F.rootLinkstatState l = 4)) then
    emit (setLinkF s F.rootLinkstatState 1 l) (.pin (linkPin "PWREN" l) true)
  else s

/-- A link's claims and what it trained to are gone; its power is off. -/
def linkOff (s : State) (l : Nat) : State :=
  let s := { s with links := { s.links with claims := without l s.links.claims, cmb := without l s.links.cmb } }
  let s := setLinkF (setLinkF (setLinkF s F.rootLinkstatState 0 l) F.rootLinkstatRate 0 l) F.rootLinkstatWidth 0 l
  emit (emit s (.pin (linkPin "PWREN" l) false)) (.pin (linkPin "ROOT_PERST#" l) false)

/-- POWER written (R383): 0 powers the link off, 1 after a 0 runs the sequence. -/
def linkPowerWrite (s : State) (l v : Nat) : State :=
  let was := linkF s F.rootLinkstatPower l
  let s := setLinkF s F.rootLinkstatPower v l
  if linkF s F.rootLinkstatState l = 5 || decide (v = was) then s
  else if v = 0 then (if linkF s F.rootLinkstatState l = 0 then s else linkOff s l)
  else linkPower s l

/-- PRSNT_DEBOUNCE (R383): PRSNT# is asserted and stable. -/
def execPrsntDebounce (l : Fin 4) (s : State) : Host.Outcome State Fault Refusal :=
  .next (if linkF s F.rootLinkstatState l.val = 5 then s else linkPower (setLinkF s F.rootLinkstatPresent 1 l.val) l.val)

/-- POWER_SETTLE (R383). -/
def execPowerSettle (l : Fin 4) (s : State) : Host.Outcome State Fault Refusal :=
  .next (if linkF s F.rootLinkstatState l.val = 1 then
      emit (setLinkF s F.rootLinkstatState 2 l.val) (.pin (linkPin "ROOT_PERST#" l.val) true)
    else s)

/-- The lanes of a link (R379): eight, or four where its port is split. -/
def linkLanes (s : State) (l : Nat) : Nat := if linkF s F.rootLinkstatState (l / 2 * 2 + 1) = 5 then 8 else 4

/-- Whether a link can train to a rate and a width (R379): any rate, and a power of two of its lanes (PRESUMED, as PCIe has them, log 124). -/
def trains (s : State) (l rate width : Nat) : Bool := decide (rate ≠ 0) && [1, 2, 4, 8].contains width && decide (width ≤ linkLanes s l)

/-- ROOT_LINK_UP (R379, R380, R383, R403): a device that is no NVMe controller takes no window; a drive without a Controller Memory Buffer is left unused; both are recorded. The Keeper enumerates the rest. -/
def execRootLinkUp (l : Fin 4) (rate : BitVec 3) (width : BitVec 4) (cls : BitVec 24) (cmb : Bool) (s : State) : Host.Outcome State Fault Refusal :=
  let k := l.val
  .next (if decide (linkF s F.rootLinkstatState k ≠ 2) || !trains s k rate.toNat width.toNat then s
    else
      let s := setLinkF (setLinkF (setLinkF s F.rootLinkstatState 3 k) F.rootLinkstatRate rate.toNat k) F.rootLinkstatWidth width.toNat k
      let bad := mkErr 0x53 11 k 0 0 (wd k)
      if cls ≠ 0x010802 then report s bad
      else
        let s := { s with links := { s.links with claims := k :: without k s.links.claims } }
        if cmb then { s with
          links := { s.links with cmb := k :: without k s.links.cmb },
          mantle := { s.mantle with drives := tins k {} s.mantle.drives } }
        else report s bad)

/-- ROOT_LINK_TRAINING_FAILED (R383). -/
def execRootLinkTrainingFailed (l : Fin 4) (s : State) : Host.Outcome State Fault Refusal :=
  .next (if linkF s F.rootLinkstatState l.val = 2 then setLinkF s F.rootLinkstatState 4 l.val else s)

/-- The transfers in flight on a link lost (R363, R383): all storage DMA stops with a bus error, and host DMA where one of its bursts goes there. -/
def linkTransfersLost (s : State) (k : Nat) : State :=
  let lost (a : Nat) : Bool := (decide (dclassAt s a = .win 1) || decide (dclassAt s a = .win 2)) && decide (windowLink s a = k)
  let s := dmaPathLost s 1 3 lost
  if (failing s 0 lost).isSome then dmaPathLost s 0 3 lost else s

/-- SURPRISE_REMOVAL (R383): of a link that is up, power off, REMOVED, its transfers stopped with a bus error, the loss logged; whether PRSNT# still reads asserted is not said there: a free bit (log 4). Before it is up, PRSNT# has deasserted and the sequence ends. -/
def execSurpriseRemoval (l : Fin 4) (s : State) : Host.Outcome State Fault Refusal :=
  let k := l.val
  let st := linkF s F.rootLinkstatState k
  .next (if st = 5 then s
    else if st ≠ 3 then setLinkF (if st = 0 then s else linkOff s k) F.rootLinkstatPresent 0 k
    else
      let (v, s) := drawFree s
      let s := setLinkF (setLinkF (linkOff s k) F.rootLinkstatRemoved 1 k) F.rootLinkstatPresent (v.toNat % 2) k
      report (linkTransfersLost s k) { mkErr 0x51 11 k 0 0 (pack [(0, k), (8, 1), (37, 1)]) with cls := 1 })

/-- A Type 0 request (R383): none is a request that completes as Unsupported Request, Retry Status or timeout. A link that is not up answers nothing. -/
def rootCfg (s : State) (a : Agent) (wr : Option (BitVec 32)) (resp : Option (BitVec 32)) : State :=
  let l := selF s a .rootLinksel F.rootLinkselLink
  let resp := if linkF s F.rootLinkstatState l = 3 then resp else none
  match wr with
  | some v =>
    if !agentTrusted a then s
    else
      match resp with
      | some _ => emit s (.drive l "configuration write" (reg s .rootCfgaddr 0).toNat (leBytes v.toNat 4))
      | none => setLinkF s F.rootLinkstatCfgerr 1 l
  | none =>
    match resp with
    | some v => emit s (.value a 0x600018 (v.setWidth 64))
    | none => emit (setLinkF s F.rootLinkstatCfgerr 1 l) (.value a 0x600018 0xFFFFFFFF)

/-- ROOT_CFGDATA_ACCESS (R383). -/
def execRootCfgdataAccess (a : Agent) (wr : Option (BitVec 32)) (resp : Option (BitVec 32)) (s : State) : Host.Outcome State Fault Refusal :=
  .next (if wr.isSome then mmioCmd s a 0x600018 (fun s => rootCfg s a wr resp)
    else if accessWaits s a 0x600018 false then s
    else if mmioReads s 0x600018 then rootCfg s a wr resp else emit s (.value a 0x600018 0))

/-- A root interrupt posted to the Mantle (R382). -/
def postRoot (s : State) (data : Nat) : State := emit s (.mantle "root interrupt" (wd (data % 64)))

/-- ROOT_MSI (R382, R403): a root interrupt; where a Feed stream waits for the drive's reads, its next slot has been read. -/
def execRootMsi (l : Fin 4) (data : BitVec 32) (s : State) : Host.Outcome State Fault Refusal :=
  .next (if linkF s F.rootLinkstatState l.val = 3 then feedRead (postRoot s data.toNat) l.val else s)

/-- INBOUND_DRIVE_REQUEST (R382): HBM and the aperture are served, charged to P3, ROOT_MSI posts, anything else is an Unsupported Request, recorded. -/
def execInboundDriveRequest (l : Fin 4) (addr : Nat) (n : Nat) (data : Option (List Byte)) (s : State) : Host.Outcome State Fault Refusal :=
  let n := match data with | some d => d.length | none => n
  .next (if linkF s F.rootLinkstatState l.val ≠ 3 || decide (n = 0) then s
    else if memRange s addr n then
      if accessHeld s Activity.storage.part addr n then accessStarts s addr n
      else
      let s := accessDraws s Activity.storage.part addr n
      match data with
      | some d => homeWriteFrom s 2 addr d
      | none =>
        let ((bs, bad), s) := homeReadFrom s 2 addr n
        emit s (.drive l.val (if bad.isSome then "completion poisoned" else "completion") addr bs)
    else if addr = mmioBase + 0x60F000 ∧ n = 4 ∧ data.isSome then feedRead (postRoot s (ofLE (data.getD []))) l.val
    else emit (farError s addr (pack [(0, 9), (8, l.val)])) (.drive l.val "unsupported request" addr []))

/-! ## Ethernet ports (R384–R388) -/

/-- ETH_LINK_UP (R384, R393): negotiation and training have ended (log 124); the next hops of the port's queue pairs are asked for, and messages that waited for a path go (R316). -/
def execEthLinkUp (p : Fin 4) (s : State) : Host.Outcome State Fault Refusal :=
  .next (if s.links.started then releaseAll (askHops (setRf s .ethPortstat F.ethPortstatState 3 p.val) [p.val]) else s)

/-- ETH_LINK_LOST (R384): counted and recorded; the port starts over. -/
def execEthLinkLost (p : Fin 4) (s : State) : Host.Outcome State Fault Refusal :=
  .next (if portUp s p.val then
      report (bumpRf (setRf s .ethPortstat F.ethPortstatState 1 p.val) .ethPortstat F.ethPortstatFlaps 1 p.val) (mkErr 0x56 10 p.val 0 0 (wd p.val))
    else s)

/-- A priority that PFC applies to (R386). -/
def pfcPrio (s : State) (prio : Nat) : Bool := decide (prio = s.net.rpri) || decide (prio = s.net.cpri)

/-- PFC_PAUSE_RECEIVED (R386): the priority stops on the port; quanta of zero let it go, and what waited with it. -/
def execPfcPauseReceived (p : Fin 4) (prio : BitVec 3) (quanta : BitVec 16) (s : State) : Host.Outcome State Fault Refusal :=
  let k := prioKey p.val prio.toNat
  .next (if portUp s p.val && pfcPrio s prio.toNat then
      releaseAll (pfcShow { s with net := { s.net with pfcRx := if quanta = 0 then tdel k s.net.pfcRx else tins k quanta.toNat s.net.pfcRx } } p.val)
    else s)

/-- PFC_PAUSE_EXPIRY (R386). -/
def execPfcPauseExpiry (p : Fin 4) (prio : BitVec 3) (s : State) : Host.Outcome State Fault Refusal :=
  .next (releaseAll (pfcShow { s with net := { s.net with pfcRx := tdel (prioKey p.val prio.toNat) s.net.pfcRx } } p.val))

/-- PFC_ASSERT (R386): a priority's buffer as it stands: asserted from 6 MiB until it is at 4 MiB or less, and in shedding stage 4 and above; a pause frame goes out while it is. -/
def execPfcAssert (p : Fin 4) (prio : BitVec 3) (fill : Nat) (s : State) : Host.Outcome State Fault Refusal :=
  let k := prioKey p.val prio.toNat
  let on := decide (0x600000 ≤ fill) || (s.net.pfcTx.contains k && decide (0x400000 < fill))
  .next (if !portUp s p.val || !pfcPrio s prio.toNat then s
    else
      let s := pfcShow { s with net := { s.net with pfcTx := if on then k :: without k s.net.pfcTx else without k s.net.pfcTx } } p.val
      if pfcAsserted s p.val prio.toNat then pfcFrame s p.val prio.toNat else s)

/-- Whether a number is one of the engine's RC queue pairs that are open (R315). -/
def isQp (s : State) (qpn : Nat) : Bool := s.coll.qps.contains qpn

/-- A rate, as a part n / 2^k of line rate (R387). -/
def rateOf (s : State) (q : Nat) : Nat × Nat := tget (1, 0) s.net.rates q

/-- Seven eighths of a rate, not below a sixty-fourth. -/
def rateDown (r : Nat × Nat) : Nat × Nat := if 2 ^ (r.2 + 3) ≤ 64 * (7 * r.1) then (7 * r.1, r.2 + 3) else (1, 6)

/-- A sixteenth of line rate more, up to line rate. -/
def rateUp (r : Nat × Nat) : Nat × Nat := if 16 * r.1 + 2 ^ r.2 < 16 * 2 ^ r.2 then (16 * r.1 + 2 ^ r.2, r.2 + 4) else (1, 0)

/-- 50 µs of the always-on clock (R20, R387). -/
def cnpGap : Nat := 1250

/-- Whether 50 µs have passed since a time that was kept. -/
def gapOver (s : State) (t : Option Word) : Bool := match t with | some x => decide (cnpGap ≤ (ioNow s - x).toNat) | none => true

/-- CNP_RECEIVED (R387): the rate falls, at most once per 50 µs. -/
def execCnpReceived (qpn : BitVec 24) (s : State) : Host.Outcome State Fault Refusal :=
  let q := qpn.toNat
  .next (if isQp s q && gapOver s (tget? s.net.cnpAt q) then
      { s with net := { s.net with rates := tset (1, 0) s.net.rates q (rateDown (rateOf s q)), cnpAt := tins q (ioNow s) s.net.cnpAt } }
    else s)

/-- RATE_RECOVERY (R387): 100 µs without a CNP. -/
def execRateRecovery (qpn : BitVec 24) (s : State) : Host.Outcome State Fault Refusal :=
  let q := qpn.toNat
  .next (if isQp s q then { s with net := { s.net with rates := tset (1, 0) s.net.rates q (rateUp (rateOf s q)) } } else s)

/-- The port on which a queue pair's packets arrive (R315): of the UD pair, which every port has, the lowest-numbered that is up (DESIGN CHOICE, log 126). -/
def qpPort (s : State) (q : Nat) : Nat := if q = udQpn then ((List.range 4).find? (portUp s)).getD 0 else q % 4

/-- CE_MARK_RECEIVED (R387): a CNP, at most once per 50 µs for the queue pair, which waits while its priority is paused on the port (R386). -/
def execCeMarkReceived (qpn : BitVec 24) (s : State) : Host.Outcome State Fault Refusal :=
  let q := qpn.toNat
  .next (if (isQp s q || decide (q = udQpn)) && portUp s (qpPort s q) && gapOver s (tget? s.net.ceAt q) then
      netSend { s with net := { s.net with ceAt := tins q (ioNow s) s.net.ceAt } } (qpPort s q) s.net.cpri (qpGid s q) (.packet (qpPort s q) "CNP" (beBytes q 3) {})
    else s)

/-- A TLV of IEEE 802.1AB: seven bits of type, nine of length. -/
def tlv (type : Nat) (v : List Byte) : List Byte := beBytes (type * 512 + v.length) 2 ++ v

/-- "N12 port k". -/
def portName (p : Nat) : List Byte := [0x4E, 0x31, 0x32, 0x20, 0x70, 0x6F, 0x72, 0x74, 0x20, BitVec.ofNat 8 (0x30 + p)]

/-- The LLDPDU of a port (R388). -/
def lldpdu (p : Nat) : List Byte :=
  tlv 1 (4 :: beBytes (portMac 0).toNat 6) ++ tlv 2 (3 :: beBytes (portMac p).toNat 6) ++ tlv 3 (beBytes 120 2) ++ tlv 4 (portName p) ++ tlv 0 []

/-- LLDP_SEND (R388). -/
def execLldpSend (p : Fin 4) (s : State) : Host.Outcome State Fault Refusal :=
  .next (if portUp s p.val then emit s (.frame p.val "LLDP" (lldpdu p.val)) else s)

/-- A change of neighbour sets NBRCHG and notifies the Mantle (R388). -/
def neighbourChanged (s : State) (p : Nat) : State :=
  let s := setRf s .ethPortstat F.ethPortstatNbr (tget? s.net.nbrs p).isSome.toNat p
  emit (setRf s .ethPortstat F.ethPortstatNbrchg 1 p) (.mantle "neighbour" (wd p))

/-- A neighbour removed (R388). -/
def neighbourGone (s : State) (p : Nat) : State :=
  if (tget? s.net.nbrs p).isSome then neighbourChanged { s with net := { s.net with nbrs := tdel p s.net.nbrs } } p else s

/-- LLDP_RECEIVE (R388): the last neighbour heard is kept; a TTL of zero has already run out. -/
def execLldpReceive (p : Fin 4) (chassis port : List Byte) (ttl : BitVec 16) (s : State) : Host.Outcome State Fault Refusal :=
  let old := tget? s.net.nbrs p.val
  let same := match old with | some n => decide (n.chassis = chassis) && decide (n.port = port) | none => false
  .next (if !portUp s p.val then s
    else if ttl = 0 then neighbourGone s p.val
    else
      let s := { s with net := { s.net with nbrs := tins p.val { chassis := chassis, port := port, ttl := ttl, heardAt := ioNow s } s.net.nbrs } }
      if same then s else neighbourChanged s p.val)

/-- LLDP_EXPIRE (R388). -/
def execLldpExpire (p : Fin 4) (s : State) : Host.Outcome State Fault Refusal := .next (neighbourGone s p.val)

/-- ADDRESS_RESOLUTION_FRAME (R384): a request for the port's own address is answered; the sender's address is learnt, and what waited for it goes. -/
def execAddressResolutionFrame (p : Fin 4) (target sender : List Byte) (mac : BitVec 48) (request : Bool) (s : State) : Host.Outcome State Fault Refusal :=
  .next (if !portUp s p.val then s
    else
      let known := (tget [] s.net.peers p.val).filter (fun e => decide (e.1 ≠ sender))
      let s := { s with net := { s.net with peers := tins p.val (known ++ [(sender, mac)]) s.net.peers } }
      releaseAll <| if request && decide (tget? s.net.gids p.val = some target) then
        emit s (.frame p.val "address resolution" (target ++ beBytes (portMac p.val).toNat 6 ++ sender ++ beBytes mac.toNat 6))
      else s)

/-! ## The Seam link (R389–R392) -/

/-- STATE of SEAM_STAT. -/
def seamState (s : State) : Nat := rf s .seamStat F.seamStatState
def setSeam (s : State) (st : Nat) : State := setRf s .seamStat F.seamStatState st

/-- SEAM_POLL (R392): DOWN polls; the partner's answer starts DETECT. -/
def execSeamPoll (s : State) : Host.Outcome State Fault Refusal :=
  .next (if s.links.started && decide (seamState s = 0) then setSeam (emit s (.seam "poll" 0 [])) 1 else s)

/-- The lanes of a mask, ascending. -/
def goodLanes (m : BitVec 18) : List Nat := (List.range 18).filter (fun i => bit m i)

/-- LANEMAP (R392): the lowest 16 good lanes are in use, the rest are spares. -/
def laneMap (s : State) (m : BitVec 18) : State :=
  let used := (goodLanes m).take 16
  let s := { s with links := { s.links with seamGood := m } }
  setRf (setRf s .seamStat F.seamStatGood (used.foldl (fun a i => a ||| (1 <<< i)) 0)) .seamStat F.seamStatSpares ((goodLanes m).length - 16)

/-- Whether the security policy accepts a partner (R423). -/
def partnerOk (s : State) (serial : Word) : Bool := decide (s.boot.partner = 0) || s.boot.serials.contains serial.toNat

/-- The link down (R392, R363): Seam DMA stops with a bus error; traffic held is lost. -/
def seamDown (s : State) : State :=
  let active := decide (seamState s = 5) || s.links.seamHold
  let s := setReg (setRf (setRf (setSeam s 0) .seamStat F.seamStatGood 0) .seamStat F.seamStatSpares 0) .seamPeer 0 0
  let s := { s with links := { s.links with seamGood := 0, twinArea := 0, seamHold := false, seamWait := [] } }
  if active then report (dmaPathLost s 2 4 (fun _ => true)) (mkErr 0x55 12 0 0) else s

/-- Training again with the traffic held (R390, R392): on the lanes left. -/
def seamRetrain (s : State) (good : BitVec 18) : State :=
  setSeam (bumpRf { s with links := { s.links with seamGood := good, seamHold := true } } .seamStat F.seamStatRetrains) 2

/-- The held traffic goes on (R392). -/
def seamResume (s : State) : State :=
  s.links.seamWait.foldl seamPut (setSeam { s with links := { s.links with seamHold := false, seamWait := [] } } 5)

/-- EQUALISE (R392): every physical lane has been tested; of a link that retrains, those that it had left. Fewer than 16 good lanes take the link to DOWN. -/
def seamEqualise (s : State) (good : BitVec 18) : State :=
  let m := if s.links.seamHold then good &&& s.links.seamGood else good
  if (goodLanes m).length < 16 then seamDown s
  else setSeam { s with links := { s.links with seamGood := m } } 3

/-- LANEMAP (R392): a link that retrains is ACTIVE again; a new one sends its identity. -/
def seamMap (s : State) : State :=
  let s := laneMap s s.links.seamGood
  if s.links.seamHold then seamResume s
  else
    let s := if s.links.seamTrained then bumpRf s .seamStat F.seamStatRetrains else s
    let s := { s with links := { s.links with seamTrained := true, seamTx := 0, seamRx := 0 } }
    setSeam (emit s (.seam "ident" (wd (ofLE (serialOf identityBytes))) (leBytes s.boot.twinArea 8))) 4

/-- SEAM_TRAINING (R392): the next stage of training: DETECT, EQUALISE with the lanes that tested good, LANEMAP, IDENT with the partner's SERIAL and TWINAREA, which the policy accepts or refuses. -/
def execSeamTraining (good : BitVec 18) (serial twinArea : Word) (s : State) : Host.Outcome State Fault Refusal :=
  .next (match seamState s with
    | 1 => setSeam s 2
    | 2 => seamEqualise s good
    | 3 => seamMap s
    | 4 => setSeam (setReg { s with links := { s.links with twinArea := twinArea } } .seamPeer 0 serial) (if partnerOk s serial then 5 else 6)
    | _ => s)

/-- A record of the Seam link. -/
def seamRecord (s : State) (cause : BitVec 8) (lane : Nat) : State := report s (mkErr cause 12 0 lane 0 (wd lane))

/-- Payload bytes of a codeword (R389). -/
def codeword : Nat := 640

/-- The control field of the next codeword (R389): SEQ, the SEQ last received in order, KIND. -/
def seamControl (s : State) (kind : Nat) : Word :=
  pack [(0, s.links.seamTx / codeword % 256), (8, (s.links.seamRx / codeword + 255) % 256), (16, kind)]

/-- SEAM_NAK (R389, R390): a codeword that FEC cannot correct is dropped; the NAK names the SEQ expected next, which is the receiver's own count and no choice of the sender's: the command's operand is what the damaged codeword seemed to carry, and is not used. -/
def execSeamNak (_seq : BitVec 8) (s : State) : Host.Outcome State Fault Refusal :=
  .next (if seamState s = 5 then emit s (.seam "nak" (seamControl s 2) (leBytes (s.links.seamRx / codeword % 256) 1)) else s)

/-- SEAM_REPLAY (R390): n codewords from SEQ are sent again; more than the buffer of 256 cannot be, and the link retrains with its traffic held. -/
def execSeamReplay (seq : BitVec 8) (n : Nat) (s : State) : Host.Outcome State Fault Refusal :=
  .next (if seamState s ≠ 5 || decide (n = 0) then s
    else if 256 < n then seamRetrain s s.links.seamGood
    else seamRecord (bumpRf (emit s (.seam "replay" (seq.setWidth 64) (leBytes n 2))) .seamStat F.seamStatReplays n) 0x54 0)

/-- SEAM_LANE_REPLACE (R392): a lane in use gives way to a spare through EQUALISE and LANEMAP, with the traffic held; with none left it stays. -/
def execSeamLaneReplace (lane : Fin 18) (s : State) : Host.Outcome State Fault Refusal :=
  let used := (rf s .seamStat F.seamStatGood).testBit lane.val
  .next (if decide (seamState s = 5) && used && decide (0 < rf s .seamStat F.seamStatSpares) then
      seamRecord (seamRetrain s (setBit s.links.seamGood lane.val false)) 0x54 lane.val
    else s)

/-- Whether an address range lies in this part's own TWINAREA (R391, R410). -/
def inTwinArea (s : State) (a n : Nat) : Bool :=
  decide (s.boot.twinArea ≠ 0) && decide (s.boot.twinArea ≤ a) && decide (a + n ≤ s.boot.twinArea + 0x200000)

/-- SEAM_WRITE (R391, R458): performed, charged to P2, in TWINAREA always, elsewhere while ACCEPT is set; otherwise discarded and recorded. Poisoned words arrive with their marks. -/
def execSeamWrite (addr : Nat) (data : List Byte) (marks : List Nat) (s : State) : Host.Outcome State Fault Refusal :=
  .next (if seamState s ≠ 5 || data.isEmpty then s
    else
    if (inTwinArea s addr data.length || decide (rf s .seamStat F.seamStatAccept = 1)) && memRange s addr data.length then
      if accessHeld s Activity.twin.part addr data.length then accessStarts s addr data.length
      else writeMarked (accessDraws (seamGot s data.length) Activity.twin.part addr data.length) 2 addr ((data.zip (List.range data.length)).map (fun p => (p.1, marks.contains (p.2 / 8))))
    else farError (seamGot s data.length) addr (wd 10))

/-! ## Crossbar and die-to-die links (R457) -/

/-- How a link is named in a record. -/
def linkErr (cause : BitVec 8) (l : LinkId) : ErrRec :=
  match l with
  | .crossbar r seg => { mkErr cause 0x22 r.val seg 0 (wd seg) with level := 2 }
  | .wToE => { mkErr cause 0x23 0 0 0 0 with level := 3 }
  | .wToIo => { mkErr cause 0x23 1 0 0 1 with level := 3 }
  | .eToIo => { mkErr cause 0x23 2 0 0 2 with level := 3 }

/-- LINK_CRC_FAILURE (R457): each failure is retried and recorded; after 8 in a row the link retrains; a retrain that fails stops the region, or takes the die-to-die link out of service. -/
def execLinkCrcFailure (l : LinkId) (fails : Nat) (retrainOk : Bool) (s : State) : Host.Outcome State Fault Refusal :=
  let s := (List.range (min fails 8)).foldl (fun s _ => report s (linkErr 0x30 l)) s
  .next (if fails < 8 || retrainOk then s
    else
      let s := report s (linkErr 0x31 l)
      let out (s : State) : State := if s.links.dead.contains l then s else { s with links := { s.links with dead := l :: s.links.dead } }
      match l with
      | .crossbar r _ => regionStop s r.val
      | .wToE => out s
      | .wToIo => out s
      | .eToIo => out s)

end Sys2Proof.Machine
end

