-- ==== Sys2Proof/Machine/Boot.lean ====
section
/-! DEFINITION. Start-up, the Emsel image and trust (R412–R431, R484): the eight steps, slot verification, the image's sections, self-test, flash commands, enrolment, attestation. -/

namespace Sys2Proof.Machine

/-! ## Cold boot (R412, R484) -/

/-- STAGE of DEV_BOOT. -/
def bootStage (s : State) : Nat := rf s .devBoot F.devBootStage
def setStage (s : State) (n : Nat) : State := setRf s .devBoot F.devBootStage n

/-- What lasts through a cold boot: the flash and its repair-record copies, fuses, the drives' contents, retired spare rows, the core sites that the supervisor saw lost (R395); and what lies outside the part: the queue, the outputs, the free values drawn. -/
def coldState (s : State) : State :=
  let z := State.reset
  let k := { z with
    pending := s.pending, out := s.out, freeCtr := s.freeCtr, flash := s.flash,
    repair := { copy0 := s.repair.copy0, copy1 := s.repair.copy1 },
    hbm := { z.hbm with retired := s.hbm.retired },
    mantle := { z.mantle with stored := s.mantle.stored, lostSites := s.mantle.lostSites },
    boot := { z.boot with owner := s.boot.owner, minSvn := s.boot.minSvn } }
  let k := (List.range 4).foldl (fun k i => setReg k .trustIdkey i (wd (Config.identityKey.toNat >>> (64 * i)))) k
  setRf k .devBoot F.devBootOwner s.boot.owner.isSome.toNat

/-- A new nonce (R397): a free value (log 4). -/
def newNonce (s : State) : State :=
  let (v, s) := drawFree s
  setReg { s with mantle := { s.mantle with nonced := true } } .mantleNonce 0 (wd (v.toNat % 2 ^ 32))

/-! ## The mailbox (R396, R397) -/

/-- Bytes of a slot. -/
def boxBytes (s : State) (slot o n : Nat) : List Byte := (List.range n).map (fun i => tget 0 s.mantle.box (256 * slot + o + i))
def boxF (s : State) (slot o n : Nat) : Nat := ofLE (boxBytes s slot o n)

/-- The 8-byte argument i of a command (log 33): arguments stand in the order R398 lists them, 8 bytes each. -/
def boxArg (s : State) (slot i : Nat) : Nat := boxF s slot (16 + 8 * i) 8

/-- Fields of a request. -/
def boxOp (s : State) (slot : Nat) : Nat := boxF s slot 0 2
def boxSigned (s : State) (slot : Nat) : Bool := decide (boxF s slot 2 1 % 2 = 1)
def boxArgLen (s : State) (slot : Nat) : Nat := boxF s slot 12 4

/-- Bytes written into the mailbox. -/
def boxPut (s : State) (at' : Nat) (bs : List Byte) : State :=
  { s with mantle := { s.mantle with
    box := (bs.zip (List.range bs.length)).foldl (fun m p => tset 0 m (at' + p.2) p.1) s.mantle.box } }

/-- BUSY and DONE bits. -/
def boxBusy (s : State) (slot : Nat) : Bool := (rf s .mantleMbstat F.mantleMbstatBusy).testBit slot
def setBoxBit (s : State) (f : Fld) (slot : Nat) (on : Bool) : State :=
  let v := rf s .mantleMbstat f
  setRf s .mantleMbstat f (if on then v ||| (1 <<< slot) else v &&& (0xFFFF - (1 <<< slot)))

/-- STATUS codes (R396). -/
def stOk : Nat := 0
def stBadOp : Nat := 1
def stBadArg : Nat := 2
def stDenied : Nat := 3
def stBusy : Nat := 4
def stRetry : Nat := 5
def stFailed : Nat := 6

/-- The response written over a request; DONE set, BUSY cleared, the interrupt (R396). -/
def respond (s : State) (slot st : Nat) (res : List Byte := []) : State :=
  let res := res.take 176
  let bs := boxBytes s slot 0 2 ++ [BitVec.ofNat 8 st, 0] ++ boxBytes s slot 4 4 ++ List.replicate 4 0 ++ leBytes res.length 4
    ++ res ++ List.replicate (240 - res.length) 0
  let s := boxPut s (256 * slot) bs
  let s := { s with mantle := { s.mantle with queue := s.mantle.queue.filter (fun q => decide (q ≠ slot)) } }
  let s := setBoxBit (setBoxBit s F.mantleMbstatDone slot true) F.mantleMbstatBusy slot false
  if rf s .mantleMbcfg F.mantleMbcfgEn = 1 then msixPost s (rf s .mantleMbcfg F.mantleMbcfgVec) else s

/-- Whether the mailbox answers (R412, R415, R421): from the end of step 5; not under the recovery image. -/
def boxServes (s : State) : Bool := decide (6 ≤ bootStage s) && decide (bootStage s ≤ 10)

/-- The reserved values of OP (R398). -/
def reservedOp (op : Nat) : Bool := decide (op = 0) || decide (0x0E < op)

/-- Requests with a reserved OP complete with BADOP once the mailbox answers (R398): they are addressed to no service and wait for none. -/
def answerReserved (s : State) : State :=
  if boxServes s && homeLive s 0 then
    (s.mantle.queue.filter (fun q => reservedOp (boxOp s q))).foldl (fun s q => respond (if boxSigned s q then newNonce s else s) q stBadOp) s
  else s

/-! ## Start-up -/

/-- Step 1 begins (R412, R467): the counters start, within 4 ac of one another. -/
def startBoot (s : State) (skew : List Nat) : State :=
  let s := newNonce (coldState s)
  setStage { s with boot := { s.boot with powered := true }, lc := (List.range 13).map (fun i => wd (skew.getD i 0 % 5)) } 1

/-- POWER_UP (R412). -/
def execPowerUp (skew : List Nat) (s : State) : Host.Outcome State Fault Refusal := .next (startBoot s skew)

/-- RESET_IN_ASSERT (R484): everything but the always-on island, with its counters, is lost; all pegs read 0 (R365); the shutdown state lasts until power is cycled. MANTLE_NONCE takes a random value (R398). -/
def execResetInAssert (s : State) : Host.Outcome State Fault Refusal :=
  .next (newNonce { coldState s with lc := s.lc, power := { State.reset.power with down := s.power.down } })

/-- A little-endian field of a byte string. -/
def fieldAt (bs : List Byte) (o n : Nat) : Nat := ofLE ((bs.drop o).take n)

/-- The slot that the control sector prefers (log 22): its first byte, 1 for slot 1. -/
def prefSlot (s : State) : Nat := if tget 0xFF s.flash 0 = 1 then 1 else 0

/-- BOOT_ROM_START (R412, R425): the core sites are tested, the control sector and the newest repair record are read; no core that passes, and the part goes no further. -/
def execBootRomStart (good : BitVec 5) (s : State) : Host.Outcome State Fault Refusal :=
  .next (if bootStage s ≠ 1 || s.power.railHold || s.power.down then s
    else
      let s := setStage { s with boot := { s.boot with romSites := good } } 2
      if good = 0 then s
      else
        let s := setRf s .trustPref F.trustPrefSlot (prefSlot s)
        let c := (newestCopy s).bind (repairCopy s)
        let s := { s with repair := { s.repair with loaded := c, ents := c.elim [] (fun x => x.ents) } }
        let s := if c.isNone then { setRf s .devBoot F.devBootRprlost 1 with hbm := { s.hbm with retired := [] } } else s
        setStage s 3)

/-! ## Slots (R414–R418) -/

/-- Where a slot begins. -/
def slotBase (i : Nat) : Nat := 0x100000 + i * 0x1000000

/-- Whether bytes are zero. -/
def zeroAt (bs : List Byte) (o n : Nat) : Bool := decide (fieldAt bs o n = 0)

/-- A firmware package's failure code (R415, R416); 0: it verifies. -/
def fwCode (s : State) (i : Nat) : Nat :=
  let h := flashBytes s (slotBase i) 64
  let len := fieldAt h 8 4
  if fieldAt h 0 4 ≠ 0x3157464D || decide (63 < fieldAt h 4 2) || decide (1 < fieldAt h 6 1) || decide (len < 128) || decide (0xF00000 < len) then 1
  else
    let all := flashBytes s (slotBase i) len
    if !Config.ed25519Verify Config.rootKey (all.take (len - 64)) (BitVec.ofNat 512 (ofLE (all.drop (len - 64)))) then 2
    else if fieldAt h 4 2 < s.boot.minSvn then 3 else 0

/-- The bytes of a slot's image, cut at its own LENGTH; at most 1 MiB. -/
def slotImage (s : State) (i : Nat) : List Byte :=
  let a := slotBase i + 0xF00000
  flashBytes s a (min 0x100000 (fieldAt (flashBytes s (a + 8) 4) 0 4))

/-- Entry e of the section table: type, offset, size. -/
def sectEntry (img : List Byte) (e : Nat) : Nat × Nat × Nat :=
  let o := 32 + 16 * e
  (fieldAt img o 2, fieldAt img (o + 4) 4, fieldAt img (o + 8) 4)

/-- The bytes of a section. -/
def sect (img : List Byte) (t : Nat) : List Byte :=
  match ((List.range 9).map (sectEntry img)).find? (fun e => decide (e.1 = t)) with
  | some e => (img.drop e.2.1).take e.2.2
  | none => []

/-- Sites that a block's word names, and its spare. -/
def blkSites (w : Nat) : List Nat := (List.range 9).map (fun c => (w >>> (4 * c)) % 16)

/-- STRUCT within its limits (R419). -/
def structOk (b : List Byte) : Bool :=
  (List.range 96).all (fun i =>
    let w := fieldAt b (8 * i) 8
    let named := (blkSites w).filter (fun x => decide (x ≠ 15))
    decide (w < 2 ^ 36) && named.all (fun x => decide (x ≤ 8)) && decide (named = distinct named))
  && (List.range 12).all (fun i => decide (fieldAt b (768 + 4 * i) 4 < 2 ^ 17))
  && decide (0 < fieldAt b 816 1) && decide (fieldAt b 816 1 < 32)
  && decide (1 ≤ fieldAt b 817 1) && decide (fieldAt b 817 1 ≤ 8) && decide (1 ≤ fieldAt b 818 1) && decide (fieldAt b 818 1 ≤ 16)
  && zeroAt b 819 1 && decide (fieldAt b 820 2 < 4096) && zeroAt b 822 2

/-- MEMORY within its limits (R422). -/
def memoryOk (b : List Byte) : Bool :=
  let t := fieldAt b 16 8
  let m := fieldAt b 24 8
  let n := fieldAt b 32 8
  decide (fieldAt b 12 1 ≤ 2) && zeroAt b 13 3 && decide (t % 0x200000 = 0) && decide (t + 0x200000 ≤ 0xF000000000)
    && decide (m % 0x200000 = 0) && decide (n % 0x200000 = 0) && decide (m + n ≤ 0xF000000000)
    && (decide (t = 0) || decide (n = 0) || decide (t + 0x200000 ≤ m) || decide (m + n ≤ t))
    && decide (fieldAt b 40 2 < 16384) && zeroAt b 42 6

/-- FABRIC within its limits (R27, R422). -/
def fabricOk (b : List Byte) : Bool := (List.range 7).all (fun i => decide (fieldAt b i 1 ≤ 15)) && zeroAt b 7 1

/-- CLOCK within its limits. -/
def clockOk (b : List Byte) : Bool := decide (fieldAt b 0 2 < 4096) && zeroAt b 3 5

/-- Strictly rising, or rising. -/
def rising (strict : Bool) : List Nat → Bool
  | a :: b :: t => (if strict then decide (a < b) else decide (a ≤ b)) && rising strict (b :: t)
  | [_] => true
  | [] => true

/-- Fields of POWER (R452). -/
def powMhz (b : List Byte) : List Nat := (List.range 16).map (fun i => fieldAt b (4 * i) 2)
def powMv (b : List Byte) : List Nat := (List.range 16).map (fun i => fieldAt b (4 * i + 2) 2)
def powPeak (b : List Byte) : List (Nat × Nat) := (List.range 17).map (fun i => (fieldAt b (64 + 4 * i) 2, fieldAt b (66 + 4 * i) 2))
def powShed (b : List Byte) : List Nat := (List.range 6).map (fun i => fieldAt b (140 + i) 1)

/-- POWER within its limits (R452). -/
def powerOk (b : List Byte) : Bool :=
  rising true (powMhz b) && (powMhz b).all (fun x => decide (400 ≤ x) && decide (x ≤ 1100))
    && rising false (powMv b) && (powMv b).all (fun x => decide (500 ≤ x) && decide (x ≤ 950))
    && (powPeak b).all (fun p => decide (1 ≤ p.2) && decide (p.2 ≤ p.1)) && decide (fieldAt b 128 2 ≤ 3600)
    && [132, 134, 136].all (fun o => decide (100 ≤ fieldAt b o 2) && decide (fieldAt b o 2 ≤ 3600))
    && decide (1 ≤ fieldAt b 138 2) && decide (fieldAt b 138 2 ≤ 600)
    && rising true (powShed b) && (powShed b).all (fun x => decide (x ≤ 200))
    && decide (60 ≤ fieldAt b 146 1) && decide (fieldAt b 146 1 < fieldAt b 147 1) && decide (fieldAt b 147 1 ≤ 105)
    && decide (1 ≤ fieldAt b 148 1) && decide (fieldAt b 148 1 ≤ 40) && decide (fieldAt b 149 1 ≤ 15)
    && decide ((powMv b).getD 15 0 ≤ fieldAt b 150 2) && decide (fieldAt b 150 2 ≤ 950) && zeroAt b 152 8

/-- LINKS within its limits. -/
def linksOk (b : List Byte) : Bool :=
  decide (fieldAt b 0 1 < 16) && decide (fieldAt b 1 1 ≤ 7) && decide (fieldAt b 2 1 ≤ 7) && decide (fieldAt b 1 1 ≠ fieldAt b 2 1)
    && decide (fieldAt b 3 2 ≤ 4094) && decide (fieldAt b 5 1 < 4) && decide (fieldAt b 6 1 < 16) && decide (fieldAt b 7 1 < 2) && zeroAt b 8 8

/-- SECURITY within its limits (R423). -/
def securityOk (b : List Byte) : Bool := decide (fieldAt b 0 1 ≤ 2) && decide (fieldAt b 1 1 ≤ 1) && decide (fieldAt b 2 1 ≤ 4) && zeroAt b 3 5

/-- A CFG entry within the limits of R304 (R424); FMT_V counts for AdamW alone. -/
def cfgOk (b : List Byte) : Bool :=
  let x (i : Nat) : Nat := fieldAt b i 1
  decide (x 0 % 16 ≤ 1) && decide (x 0 / 16 ≤ 2) && decide (x 1 % 16 ≤ 1) && (decide (x 1 / 16 ≤ 1) || decide (x 2 / 16 % 4 ≠ 1))
    && decide (x 2 % 4 ≠ 3) && decide (x 2 / 4 % 4 ≠ 3) && decide (x 2 / 16 ≤ 2) && zeroAt b 3 5

/-- NUMERIC within its limits. -/
def numericOk (b : List Byte) : Bool :=
  let n := fieldAt b 2 1
  decide (fieldAt b 0 1 ≠ 0x80) && decide (fieldAt b 1 1 ≤ 1) && decide (1 ≤ n) && decide (n ≤ 16) && zeroAt b 3 5
    && (List.range n).all (fun i => cfgOk ((b.drop (8 + 8 * i)).take 8))

/-- The size that each section must have (R418, R422). -/
def sectSize (img : List Byte) (t : Nat) : Nat :=
  if t = 1 then 824 else if t = 2 then 48 else if t = 3 then 48 else if t = 4 then 8 else if t = 5 then 160
  else if t = 6 then 16 else if t = 7 then 40 else if t = 8 then 8 + 8 * fieldAt (sect img 8) 2 1 else 8

/-- The sections' places and fields (R418). -/
def sectionsOk (img : List Byte) : Bool :=
  let es := (List.range 9).map (sectEntry img)
  (List.range 9).all (fun i => decide (((es.filter (fun e => decide (e.1 = i + 1))).length = 1)))
    && (List.range 9).all (fun i => zeroAt img (32 + 16 * i + 2) 2 && zeroAt img (32 + 16 * i + 12) 4)
    && es.all (fun e => decide (176 ≤ e.2.1) && decide (e.2.1 + e.2.2 + 72 ≤ img.length) && decide (e.2.2 = sectSize img e.1))
    && es.all (fun e => es.all (fun d => decide (e.1 = d.1) || decide (e.2.1 + e.2.2 ≤ d.2.1) || decide (d.2.1 + d.2.2 ≤ e.2.1)))
    && structOk (sect img 1) && memoryOk (sect img 2) && fabricOk (sect img 3) && clockOk (sect img 4) && powerOk (sect img 5)
    && linksOk (sect img 6) && securityOk (sect img 7) && numericOk (sect img 8) && zeroAt (sect img 9) 0 8

/-- An Emsel image's failure code (R415, R417, R418). -/
def imageCode (s : State) (i : Nat) : Nat :=
  let img := slotImage s i
  let len := img.length
  if fieldAt img 0 4 ≠ 0x4C534D45 || decide (fieldAt img 4 2 ≠ 1) || decide (fieldAt img 6 2 ≠ 9) || decide (len < 248)
      || decide (fieldAt img 8 4 ≠ len) || !zeroAt img 12 4 || !zeroAt img 24 8 then 1
  else
    let key := fieldAt img (len - 72) 8
    let sig : BitVec 512 := BitVec.ofNat 512 (ofLE (img.drop (len - 64)))
    let ok := match s.boot.owner with
      | none => decide (key = 0) && Config.ed25519Verify Config.rootKey (img.take (len - 64)) sig
      | some k => decide (key = 1) && Config.ed25519Verify k (img.take (len - 64)) sig
    if !ok then 2 else if !sectionsOk img then 4 else 0

/-- A slot's failure code: its firmware, then its image. -/
def slotCode (s : State) (i : Nat) : Nat := let c := fwCode s i; if c = 0 then imageCode s i else c

/-- A slot that boots: its firmware and image as measured. -/
def takeSlot (s : State) (i : Nat) : State :=
  let h := flashBytes s (slotBase i) 64
  let s := { s with boot := { s.boot with image := slotImage s i, fw := flashBytes s (slotBase i) (fieldAt h 8 4 - 64) } }
  setStage (setRf (setRf s .devBoot F.devBootSlot i) .devBoot F.devBootSvn (fieldAt h 4 2)) 5

/-- A slot's code shown in DEV_BOOT. -/
def setFail (s : State) (i c : Nat) : State := setRf s .devBoot (if i = 0 then F.devBootFail0 else F.devBootFail1) c

/-- SLOT_VERIFY (R415): the preferred slot, then the other, then the recovery image. -/
def execSlotVerify (s : State) : Host.Outcome State Fault Refusal :=
  .next (if bootStage s ≠ 3 then s
    else
      let p := rf s .trustPref F.trustPrefSlot
      let q := 1 - p
      let s := setFail s p (slotCode s p)
      if slotCode s p = 0 then takeSlot s p
      else
        let s := setFail s q (slotCode s q)
        if slotCode s q = 0 then setRf (takeSlot s q) .devBoot F.devBootFallback 1
        else setStage (setRf s .devBoot F.devBootImage 2) 11)

/-! ## Applying the image (R412 step 5, R422) -/

/-- The builder's partitions (R256), as HBM_PARTp words. -/
def partDefaults : List Word :=
  [pack [(0, 160), (16, 256), (32, 64)], pack [(0, 256), (16, 512), (32, 64)], pack [(0, 48), (16, 128), (32, 64)],
   pack [(0, 16), (16, 64), (32, 64)], pack [(0, 8), (16, 64), (32, 16)]]

/-- The partitions of an image (R256): while the sums over all five break its limits, the entries are refused in turn from P0, and a refused one stays at its default. -/
def imageParts (b : List Byte) : List (Word × Bool) :=
  let own (p : Nat) : Word × Bool :=
    let v := wd (fieldAt b (8 + 8 * p) 8)
    if fget v F.hbmPartCeil ≤ 512 then (partApplied v, true) else (partDefaults.getD p 0, false)
  (List.range 5).foldl (fun acc p => if partFits (acc.map (fun x => fget x.1 F.hbmPartGuar)) then acc else acc.set p (partDefaults.getD p 0, false))
    ((List.range 5).map own)

/-- STRUCT applied: the cell map as the image gives it. -/
def applyStruct (s : State) (b : List Byte) : State :=
  let s := (List.range 96).foldl (fun s i =>
    let w := fieldAt b (8 * i) 8
    let named := ((blkSites w).filter (fun x => decide (x ≠ 15))).length
    setReg s .devBlkmap i (pack [(0, w), (36, 9 - named)])) s
  recountCells { s with boot := { s.boot with
    mincells := fieldAt b 817 1, mineng := fieldAt b 818 1, reqstacks := fieldAt b 820 2,
    engSites := (List.range 12).map (fun i => fieldAt b (768 + 4 * i) 4), coreSites := fieldAt b 816 1 } }

/-- The interleave granule of R243: the whole stack when linear. -/
def granOf (g : Nat) : Nat := if g = 0 then 0x10000 else if g = 1 then 0x200000 else 0x1400000000

/-- MEMORY applied; KPEG stands open (R405). -/
def applyMemory (s : State) (b : List Byte) : State :=
  let ways := (List.range 12).foldl (fun a i => a ||| (clampN 1 8 (fieldAt b i 1) <<< (4 * i))) 0
  let s := setRf s .devBmcfg F.devBmcfgRcWays ways
  let s := { s with
    ms := { s.ms with gran := granOf (fieldAt b 12 1) },
    boot := { s.boot with twinArea := fieldAt b 16 8, mresv := fieldAt b 24 8, mresvLen := fieldAt b 32 8, kpeg := some (fieldAt b 40 2) } }
  pegPut s (fieldAt b 40 2) pegTop

/-- FABRIC applied to every stack (R27, R256). -/
def applyFabric (s : State) (b : List Byte) : State :=
  let ps := imageParts b
  let s := { s with boot := { s.boot with vcw := (List.range 7).map (fun i => max 1 (fieldAt b i 1)) } }
  (List.range 12).foldl (fun s k =>
    let s := (List.range 5).foldl (fun s p => setReg s .hbmPart (partKey k p) (ps.getD p (0, true)).1) s
    if ps.all (fun x => x.2) then s else setRf s .hbmStkstat F.hbmStkstatErr 1 k) s

/-- POWER applied (R452). -/
def applyPower (s : State) (b : List Byte) : State :=
  let s := { s with power := { s.power with
    vf := (powMhz b).zip (powMv b), peak := powPeak b, avgwin := fieldAt b 138 2, shed := powShed b,
    throt := fieldAt b 146 1, trip := fieldAt b 147 1, eol := fieldAt b 148 1, base := fieldAt b 149 1, vmax := fieldAt b 150 2 } }
  setReg s .powerAvglim 0 (pack [(0, fieldAt b 132 2), (16, fieldAt b 134 2), (32, fieldAt b 136 2)])

/-- LINKS applied: modes, priorities, bifurcation, power of the root links, ACCEPT. -/
def applyLinks (s : State) (b : List Byte) : State :=
  let s := (List.range 4).foldl (fun s p => setRf s .ethPortstat F.ethPortstatMode (fieldAt b 0 1 >>> p % 2) p) s
  let s := (List.range 4).foldl (fun s l =>
    let s := setLinkF s F.rootLinkstatPower (fieldAt b 6 1 >>> l % 2) l
    if l % 2 = 1 && !(fieldAt b 5 1).testBit (l / 2) then setLinkF s F.rootLinkstatState 5 l else s) s
  let s := setRf s .seamStat F.seamStatAccept (fieldAt b 7 1)
  { s with net := { s.net with rpri := fieldAt b 1 1, cpri := fieldAt b 2 1, vlan := fieldAt b 3 2 } }

/-- SECURITY applied (R423). -/
def applySecurity (s : State) (b : List Byte) : State :=
  setRf { s with boot := { s.boot with
    partner := fieldAt b 1 1, serials := (List.range (fieldAt b 2 1)).map (fun i => fieldAt b (8 + 8 * i) 8) } }
    .devBoot F.devBootDebug (fieldAt b 0 1)

/-- NUMERIC applied: COLL_NUM and the digest of the section's bytes (R424). -/
def applyNumeric (s : State) (b : List Byte) : State :=
  let d := Config.sha512 b
  let s := setReg s .collNum 0 (pack [(0, fieldAt b 0 1), (8, fieldAt b 1 1)])
  (List.range 8).foldl (fun s i => setReg s .trustNumdig i (wd (d.toNat >>> (64 * i)))) s

/-- CLOCK applied (R422): pinned regions' PLLs start (R29). -/
def applyClock (s : State) (b : List Byte) : State :=
  let s := setRf s .pegRamp F.pegRampRampStep (fieldAt b 2 1)
  let s := setRf s .devClk F.devClkPin (fieldAt b 0 2)
  (List.range 12).foldl (fun s r => if (fieldAt b 0 2).testBit r then pllGo s r else s) s

/-- APPLY_EMSEL_IMAGE (R412 step 5). -/
def execApplyEmselImage (s : State) : Host.Outcome State Fault Refusal :=
  .next (if bootStage s ≠ 5 then s
    else
      let b (t : Nat) : List Byte := sect s.boot.image t
      let s := applyMemory (applyStruct s (b 1)) (b 2)
      let s := applyPower (applyClock (applyFabric s (b 3)) (b 4)) (b 5)
      let s := applyNumeric (applySecurity (applyLinks s (b 6)) (b 7)) (b 8)
      answerReserved (setStage (setRf s .devBoot F.devBootImage 1) 6))

/-! ## Self-test (R412 step 6, R420) -/

/-- Whether the repair record names a unit. -/
def recorded (s : State) (kind unit site : Nat) : Bool := s.repair.ents.any (fun e => decide (e.kind = kind) && decide (e.unit = unit) && decide (e.site = site))

/-- A block settled (R420): each logical cell keeps a live site, else takes the live spare, else is retired. -/
def settleBlock (live : Nat → Bool) (sites : List Nat) (spare : Nat) : List Nat × Nat :=
  let ok (x : Nat) : Bool := decide (x ≠ 15) && live x
  let r := sites.foldl (fun (a : List Nat × Nat) x =>
    if ok x then (a.1 ++ [x], a.2) else if ok a.2 then (a.1 ++ [a.2], 15) else (a.1 ++ [15], a.2)) ([], spare)
  (r.1, if ok r.2 then r.2 else 15)

/-- Sites of a block found bad and not yet in the record are put there. -/
def retireSites (s : State) (kind unit : Nat) (bad : List Nat) : State :=
  bad.foldl (fun s x => if recorded s kind unit x then s else addRepair s { kind := kind, unit := unit, site := x }) s

/-- Self-test of the cells. A bad site is coded 16 × block + site. -/
def testCells (s : State) (bad : List Nat) : State :=
  recountCells ((List.range 96).foldl (fun s b =>
    let w := (reg s .devBlkmap b).toNat
    let named := blkSites (w % 2 ^ 36)
    let fails := (List.range 9).filter (fun x => bad.contains (16 * b + x))
    let s := retireSites s 1 b (fails.filter (fun x => named.contains x))
    let (sites, spare) := settleBlock (fun x => !recorded s 1 b x && !fails.contains x) (named.take 8) (named.getD 8 15)
    let n := ((sites ++ [spare]).filter (fun x => decide (x ≠ 15))).length
    let s := setReg s .devBlkmap b (pack ((List.range 8).map (fun c => (4 * c, sites.getD c 15)) ++ [(32, spare), (36, 9 - n)]))
    (List.range 8).foldl (fun s c => modCell s (8 * b + c) (fun x => { x with site := BitVec.ofNat 4 (sites.getD c 15) })) s) s)

/-- Self-test of the lining engines: engines take the lowest live sites, the next is the spare. A bad site is coded 32 × stack + site. -/
def testEngines (s : State) (bad : List Nat) : State :=
  (List.range 12).foldl (fun s k =>
    let mask := s.boot.engSites.getD k 0
    let s := retireSites s 4 k ((List.range 17).filter (fun x => mask.testBit x && bad.contains (32 * k + x)))
    let live := (List.range 17).filter (fun x => mask.testBit x && !recorded s 4 k x && !bad.contains (32 * k + x))
    let s := (List.range 16).foldl (fun s e =>
      setReg s .liningEngstat (16 * k + e) (match live[e]? with | some x => pack [(0, x)] | none => pack [(0, 0x1F), (5, 3)])) s
    let s := modLstack s k (fun x => { x with spare := live[16]? })
    let spared := live.contains 16 && live[16]?.isNone
    let v := rf s .devActive F.devActiveEngineSpared
    setRf s .devActive F.devActiveEngineSpared (if spared then v ||| (1 <<< k) else v)) s

/-- The live core that runs the fewest services, the lowest-numbered on a tie (R395). -/
def idlestCore (s : State) : Option Nat :=
  let live := (List.range 4).filter (coreLive s)
  let load (c : Nat) : Nat := (s.mantle.home.filter (fun h => decide (h = c))).length
  live.foldl (fun (a : Option Nat) c => match a with | none => some c | some b => if load c < load b then some c else some b) none

/-- Services on a core that is not live move to the idlest live core, in order (R395). -/
def rehome (s : State) : State :=
  (List.range 4).foldl (fun s i =>
    let h := s.mantle.home.getD i 0
    if coreLive s h then s
    else
      match idlestCore s with
      | some c => { s with mantle := { s.mantle with home := s.mantle.home.set i c } }
      | none => s) s

/-- Self-test of the Mantle cores: a site that was lost counts as bad (R395). -/
def testCores (s : State) (bad : List Nat) : State :=
  let named := (List.range 5).filter (fun x => s.boot.coreSites.testBit x)
  let fails (x : Nat) : Bool := bad.contains x || !bit s.boot.romSites x || s.mantle.lostSites.contains x
  let s := retireSites s 5 0 (named.filter fails)
  let live := named.filter (fun x => !recorded s 5 0 x && !fails x)
  let n := min 4 live.length
  let s := setRf s .mantleCores F.mantleCoresLive (2 ^ n - 1)
  let s := setRf s .devActive F.devActiveMantleSpared ((live.take 4).contains 4).toNat
  let s := (List.range n).foldl (fun s c => modCell s (768 + c) (fun x => { x with site := BitVec.ofNat 4 (live.getD c 0) })) s
  rehome { s with mantle := { s.mantle with sites := live.take 4 } }

/-- A row of block memory moved to the next spare row of its bank. -/
def spareRow (s : State) (k row : Nat) : State :=
  let used := tget [] s.bm.spares k
  if used.contains row || decide (bmSpareRows ≤ used.length) then s else { s with bm := { s.bm with spares := tset [] s.bm.spares k (used ++ [row]) } }

/-- Self-test of block memory (R214, R420): recorded rows and those found bad take spares; every scratch byte reads zero. A bad row is coded (32 × block + bank) × 1,536 + row. -/
def testRows (s : State) (bad : List Nat) : State :=
  let s := s.repair.ents.foldl (fun s e => if e.kind = 2 then spareRow s (bankKey e.unit e.site) (bits e.data 15 0) else s) s
  let s := bad.foldl (fun s x =>
    let k := x / bmRows
    let n := (tget [] s.bm.spares k).length
    let s' := spareRow s k (x % bmRows)
    if (tget [] s'.bm.spares k).length = n then s
    else addRepair s' { kind := 2, unit := k / 32, site := k % 32, data := pack [(0, x % bmRows), (16, n)] }) s
  let most := s.bm.spares.foldl (fun a p => max a p.2.length) 0
  let s := setRf s .devBmcfg F.devBmcfgSpareMin (bmSpareRows - most)
  { s with ms := { s.ms with mem := s.ms.mem.filter (fun c => decide (c.1 < 0xF000000000)), bmPoison := [] } }

/-- The tuners plan every region's trim (R451): it never falls below the record's; a new trim goes into the record, and at EOL an error record is written. -/
def planTrims (s : State) (trims : List Nat) : State :=
  (List.range 12).foldl (fun s r =>
    let old := (s.repair.ents.find? (fun e => decide (e.kind = 6) && decide (e.unit = r))).elim 0 (fun e => e.data.toNat)
    let t := min 63 (max old (trims.getD r 0))
    let s := setRf s .powerRegstat F.powerRegstatTrim t r
    let s := if old < t then recordTrim s r t else s
    let s := if old < s.power.eol && decide (s.power.eol ≤ t) then report s (mkErr 0x73 13 r 0 0 (pack [(0, r), (8, t)])) else s
    applyAgeing s r) s

/-- Engines of a stack in service. -/
def enginesOf (s : State) (k : Nat) : Nat := ((List.range 16).filter (fun e => decide (rf s .liningEngstat F.liningEngstatSite (16 * k + e) ≠ 0x1F))).length

/-- Whether the part is short after self-test (R421). -/
def shortTest (s : State) : Bool :=
  (List.range 96).any (fun b => decide (activeIn s b < s.boot.mincells)) || (List.range 12).any (fun k => decide (enginesOf s k < s.boot.mineng))
    || decide (rf s .mantleCores F.mantleCoresLive = 0)

/-- BUILT_IN_SELF_TEST (R412 step 6, R420, R421, R451): what the tests find arrives with the command (log 3); the stacks' training follows (R259). -/
def execBuiltInSelfTest (badCells badEngines badCores : List Nat) (badRows : List Nat) (trims : List Nat) (s : State) : Host.Outcome State Fault Refusal :=
  .next (if bootStage s ≠ 6 then s
    else
      let s := testCores (testEngines (testCells s badCells) badEngines) badCores
      let s := planTrims (testRows s badRows) trims
      if shortTest s then setStage s 10 else (List.range 12).foldl (fun s k => setRf s .hbmStkstat F.hbmStkstatState 1 k) (setStage s 7))

/-! ## HBM training (R412 step 7, R245, R254) -/

/-- The bank group that a remap entry's row lies in (R244): channel, pseudo-channel, stack ID and bank group. -/
def bankGroup (e : RepairEnt) : Nat := (fget e.data F.hbmRmentCh * 2 + fget e.data F.hbmRmentPc) * 16 + fget e.data F.hbmRmentBank / 4

/-- A stack's remap entries from the record (R254): in each bank group some, lowest first, are converted into hard repairs; for how many the standard's resources last is the stack's own: a free value (log 4). -/
def loadRemaps (s : State) (k : Nat) : State :=
  let es := s.repair.ents.filter (fun e => decide (e.kind = 3) && decide (e.unit = k))
  let es := (List.range 512).filterMap (fun i => es.find? (fun e => decide (e.site = i)))
  let (gone, s) := (distinct (es.map bankGroup)).foldl (fun (a : List RepairEnt × State) g =>
    let mine := es.filter (fun e => decide (bankGroup e = g))
    let (v, s) := drawFree a.2
    (a.1 ++ mine.take (v.toNat % (mine.length + 1)), s)) ([], s)
  let s := (es.filter (fun e => !gone.contains e)).foldl (fun s e => setReg s .hbmRment (k * 512 + e.site) e.data) s
  let s := if gone.isEmpty then s else { s with repair := { s.repair with ents := s.repair.ents.filter (fun e => !gone.contains e), dirty := true } }
  recountRm s k

/-- A stack's training: every channel takes its spares; bad is (stack, channel, lane), lanes from 72 are command lanes. -/
def trainStack (s : State) (k : Nat) (bad : List (Nat × Nat × Nat)) : State :=
  let s := setRf s .hbmStkstat F.hbmStkstatState 2 k
  let s := (List.range 32).foldl (fun s ch =>
    let mine := (bad.filter (fun p => decide (p.1 = k) && decide (p.2.1 = ch))).map (fun p => p.2.2)
    (trainChan s k ch (mine.filter (fun l => decide (l < 72))) (mine.filter (fun l => decide (72 ≤ l))).length).2) s
  maintEnter (loadRemaps s k) k

/-- HBM_TRAINING (R412 step 7, R421): the stacks train, HBM is zeroed, a required stack that has failed leaves the part short. -/
def execHbmTraining (bad : List (Nat × Nat × Nat)) (s : State) : Host.Outcome State Fault Refusal :=
  .next (if bootStage s ≠ 7 then s
    else
      let s := (List.range 12).foldl (fun s k => trainStack s k bad) s
      let s := { s with ms := { s.ms with mem := s.ms.mem.filter (fun c => decide (0xF000000000 ≤ c.1)), hbmPoison := [], rc := [], rcSets := [], rcOut := [], junk := [] } }
      let short := (List.range 12).any (fun k => s.boot.reqstacks.testBit k && decide (stackState s k = 4))
      setStage s (if short then 10 else 8))

/-! ## Links and services (R412 step 8) -/

/-- The error ring's place in Mantle-reserved HBM (R462): its start; the model's firmware gives each Feed stream the MiB after it. -/
def ringOn (s : State) : State :=
  if s.boot.mresvLen = 0 then s else setReg s .errRing 0 (pack [(0, 8), (5, 1), (12, s.boot.mresv / 4096)])

/-- LINKS_START (R412 step 8, R393, R416): Ethernet, Seam and root links start, the services start, the part is ready; a package with LOCKSVN raises the minimum SVN. -/
def execLinksStart (s : State) : Host.Outcome State Fault Refusal :=
  .next (if bootStage s ≠ 8 then s
    else
      let s := { s with links := { s.links with started := true } }
      let s := (List.range 4).foldl (fun s p => setRf s .ethPortstat F.ethPortstatState 1 p) s
      let s := (List.range 4).foldl linkPower s
      let lock := decide (fieldAt s.boot.fw 6 1 % 2 = 1)
      let s := if lock then { s with boot := { s.boot with minSvn := max s.boot.minSvn (fieldAt s.boot.fw 4 2) } } else s
      let s := flashStore s 1 [BitVec.ofNat 8 s.boot.minSvn]
      setStage (ringOn s) 9)

/-! ## Flash commands (R414, R431) -/

/-- Whether a command is refused (R431): by its address, its range, the host's reach, the slot that booted. -/
def flRefused (s : State) (a : Agent) (cmd addr : Nat) : Bool :=
  let slot := if 0x100000 ≤ addr ∧ addr < 0x2100000 then some ((addr - 0x100000) / 0x1000000) else none
  let write := decide (cmd = 1) || decide (cmd = 2)
  decide (addr % (if cmd = 2 then 0x10000 else 0x1000) ≠ 0)
    || (write && decide (0x50000 ≤ addr) && decide (addr < 0x100000))
    || (write && decide (a = .host) && decide (addr < 0x50000))
    || (write && decide (rf s .devBoot F.devBootImage ≠ 2) && decide (slot = some (rf s .devBoot F.devBootSlot)))

/-- REBOOT's condition (R431). -/
def rebootOk (s : State) : Bool := decide (bootStage s = 10) || decide (bootStage s = 11)

/-- The effect of a command; its time is GO's (log 11). -/
def flRun (s : State) (cmd addr : Nat) : State :=
  if cmd = 0 then
    { s with boot := { s.boot with flbuf := (List.range 4096).foldl (fun t i => tset 0 t i (tget 0xFF s.flash (addr + i))) [] } }
  else if cmd = 1 then flashProg s addr ((List.range 4096).map (fun i => tget 0 s.boot.flbuf i))
  else if cmd = 2 then flashErase s addr 0x10000
  else s

/-- A command with GO (R431): discarded while one runs, refused with ERR, or run. -/
def flCommand (s : State) (a : Agent) (cmd addr : Nat) : State :=
  if !agentTrusted a then accessError s a 0xB00000
  else if rf s .trustFlctl F.trustFlctlGo = 1 then s
  else
    let s := setRf (setRf s .trustFlctl F.trustFlctlAddr addr) .trustFlctl F.trustFlctlCmd cmd
    if cmd = 3 then (if rebootOk s then startBoot s [] else setRf s .trustFlctl F.trustFlctlErr 1)
    else if flRefused s a cmd addr then setRf s .trustFlctl F.trustFlctlErr 1
    else setRf (flRun s cmd addr) .trustFlctl F.trustFlctlGo 1

/-- FLASH_READ (R431). -/
def execFlashRead (a : Agent) (addr : BitVec 26) (s : State) : Host.Outcome State Fault Refusal := .next (mmioCmd s a 0xB00000 (fun s => flCommand s a 0 addr.toNat))

/-- FLASH_PROGRAM (R431). -/
def execFlashProgram (a : Agent) (addr : BitVec 26) (s : State) : Host.Outcome State Fault Refusal := .next (mmioCmd s a 0xB00000 (fun s => flCommand s a 1 addr.toNat))

/-- FLASH_ERASE (R431). -/
def execFlashErase (a : Agent) (addr : BitVec 26) (s : State) : Host.Outcome State Fault Refusal := .next (mmioCmd s a 0xB00000 (fun s => flCommand s a 2 addr.toNat))

/-- REBOOT (R431). -/
def execReboot (a : Agent) (s : State) : Host.Outcome State Fault Refusal := .next (mmioCmd s a 0xB00000 (fun s => flCommand s a 3 (rf s .trustFlctl F.trustFlctlAddr)))

/-- FLASH_COMMAND_DONE (R431): GO reads 0. -/
def execFlashCommandDone (s : State) : Host.Outcome State Fault Refusal := .next (setRf s .trustFlctl F.trustFlctlGo 0)

/-- A write of TRUST_FLCTL: the fields and W1C of ERR, then GO. -/
def flctlWrite (s : State) (a : Agent) (v : Word) : State :=
  if !agentTrusted a then accessError s a 0xB00000
  else
    let s := if fget v F.trustFlctlErr = 1 then setRf s .trustFlctl F.trustFlctlErr 0 else s
    if rf s .trustFlctl F.trustFlctlGo = 1 then s else
    let cmd := if fget v F.trustFlctlCmd ≤ 3 then fget v F.trustFlctlCmd else rf s .trustFlctl F.trustFlctlCmd
    if fget v F.trustFlctlGo = 1 then flCommand s a cmd (fget v F.trustFlctlAddr)
    else setRf (setRf s .trustFlctl F.trustFlctlAddr (fget v F.trustFlctlAddr)) .trustFlctl F.trustFlctlCmd cmd

/-- TRUST_PREF written (R414): the slot is stored in the control sector. -/
def prefWrite (s : State) (a : Agent) (v : Word) : State :=
  if !agentTrusted a then accessError s a 0xB00008
  else
    let k := fget v F.trustPrefSlot
    setRf { s with flash := tset 0xFF s.flash 0 (BitVec.ofNat 8 k) } .trustPref F.trustPrefSlot k

/-- TRUST_PREF_WRITE (R414). -/
def execTrustPrefWrite (a : Agent) (v : Word) (s : State) : Host.Outcome State Fault Refusal := .next (mmioCmd s a 0xB00008 (fun s => prefWrite s a v))

/-- Enrolment (R428): fused once, when the key's own signature over key and SERIAL verifies. -/
def enrollWrite (s : State) (a : Agent) (v : Word) : State :=
  if !agentTrusted a then accessError s a 0xB00010
  else
    let s := if fget v F.trustEnrollErr = 1 then setRf s .trustEnroll F.trustEnrollErr 0 else s
    if fget v F.trustEnrollMagic ≠ 0x454E524C then s
    else
      let buf := (List.range 96).map (fun i => tget 0 s.boot.flbuf i)
      let key : BitVec 256 := BitVec.ofNat 256 (fieldAt buf 0 32)
      if s.boot.owner.isNone && Config.ed25519Verify key (buf.take 32 ++ serialOf identityBytes) (BitVec.ofNat 512 (fieldAt buf 32 64)) then
        setRf { s with boot := { s.boot with owner := some key } } .devBoot F.devBootOwner 1
      else setRf s .trustEnroll F.trustEnrollErr 1

/-- TRUST_ENROLL (R428). -/
def execTrustEnroll (a : Agent) (v : Word) (s : State) : Host.Outcome State Fault Refusal := .next (mmioCmd s a 0xB00010 (fun s => enrollWrite s a v))

/-! ## Attestation (R429, R430) -/

/-- The bytes of a digest. -/
def digestBytes (d : BitVec 512) : List Byte := leBytes d.toNat 64

/-- The digest of a repair-record copy. -/
def copyDigest (c : Option RepairCopy) : List Byte :=
  match c with
  | some c => digestBytes (Config.sha512 (repairImage c))
  | none => List.replicate 64 0

/-- The measurements 1–7 (R430). -/
def measurements (s : State) : List (List Byte) :=
  let applied := decide (rf s .devBoot F.devBootImage = 1)
  [digestBytes Config.romDigest, digestBytes (Config.sha512 s.boot.fw),
   if applied then digestBytes (Config.sha512 (s.boot.image.take (s.boot.image.length - 64))) else List.replicate 64 0,
   (List.range 8).flatMap (fun i => leBytes (reg s .trustNumdig i).toNat 8),
   copyDigest s.repair.loaded, copyDigest ((newestCopy s).bind (repairCopy s)),
   leBytes (bits (reg s .devBoot 0) 15 0) 2 ++ [BitVec.ofNat 8 (rf s .devBoot F.devBootSvn), BitVec.ofNat 8 s.boot.minSvn] ++ List.replicate 4 0]

/-- A piece of the certificate chain in the factory area (R414, R429). -/
def chainBytes (s : State) (off n : Nat) : List Byte := flashBytes s (0x50000 + off) (min n (0xB0000 - off))

/-- DOE_SPDM_REQUEST (R373, R429): from the end of step 5; an object that is too long sets the DOE Error bit; an unsupported request answers ERROR. The request's code is its second byte, as SPDM has it. -/
def execDoeSpdmRequest (req : List Byte) (s : State) : Host.Outcome State Fault Refusal :=
  let slot := fieldAt req 2 1 % 16
  .next (if rf s .devBoot F.devBootImage = 0 then s
    else if 16384 < req.length then { s with links := { s.links with doeError := true } }
    else
      let unsupported := emit s (.reply "SPDM ERROR UnsupportedRequest" [])
      match fieldAt req 1 1 with
      | 0x84 => emit s (.reply "SPDM VERSION" [0x13])
      | 0xE1 => emit s (.reply "SPDM CAPABILITIES" [])
      | 0xE3 => emit s (.reply "SPDM ALGORITHMS Ed25519 SHA-512" [])
      | 0x81 => emit s (.reply "SPDM DIGESTS" (digestBytes (Config.sha512 (chainBytes s 0 0xB0000))))
      | 0x82 => if slot = 0 then emit s (.reply "SPDM CERTIFICATE" (chainBytes s (fieldAt req 4 2) (fieldAt req 6 2))) else unsupported
      | 0x83 => if slot = 0 then emit s (.reply "SPDM CHALLENGE_AUTH" (digestBytes (Config.identitySign req))) else unsupported
      | 0xE0 => emit s (.reply "SPDM MEASUREMENTS" ((measurements s).flatten ++ digestBytes (Config.identitySign (req ++ (measurements s).flatten))))
      | _ => unsupported)

end Sys2Proof.Machine
end

