-- ==== Sys2Proof/Machine/Mantle.lean ====
section
/-! DEFINITION. The services on the Mantle (R394–R411): the mailbox and its commands, Runner, Feed, Keeper, Health, the twin record and the copy to a replacement. -/

namespace Sys2Proof.Machine

/-! ## Commands (R396–R398) -/

/-- The service that runs a command: 0 Runner and mailbox, 1 Feed, 2 Keeper, 3 Health; a reserved OP has none. -/
def serviceOf (op : Nat) : Nat := if op = 6 then 1 else if [0x08, 0x09, 0x0A].contains op then 2 else if op = 0x0E then 3 else if reservedOp op then 4 else 0

/-- Whether a slot's command is the next of its service, in doorbell order, and the service's core runs (R395, R396). A command in progress stays the next until its response; `ahead`: the command does not wait for it. -/
def boxNext (s : State) (slot op : Nat) (ahead : Bool := false) : Bool :=
  boxBusy s slot && decide (boxOp s slot = op)
    && (ahead || decide (s.mantle.queue.find? (fun q => decide (serviceOf (boxOp s q) = serviceOf op)) = some slot))
    && homeLive s (serviceOf op)

/-- MANTLE_NONCE as it reads (R398): until it has taken a value, the free value of power-on. -/
def nonceNow (s : State) : Nat := if s.mantle.nonced then rf s .mantleNonce F.mantleNonceNonce else Config.resetNonce.toNat

/-- A signed command's conditions (R397). -/
def signedOk (s : State) (slot : Nat) : Bool :=
  boxSigned s slot && decide (boxF s slot 8 4 = nonceNow s)
    && (match s.boot.owner with
        | some k => Config.ed25519Verify k (boxBytes s slot 0 192 ++ serialOf identityBytes) (BitVec.ofNat 512 (boxF s slot 192 64))
        | none => false)

/-- A command taken up: BUSY until the part is ready, but for INFO, HEALTH and RESET; the signature; the arguments' length; then the command itself. -/
def command (s : State) (slot : Fin 16) (op : Nat) (signed : Bool) (lens : List Nat) (run : State → State) (ahead : Bool := false) : State :=
  let k := slot.val
  if !boxServes s || !boxNext s k op ahead then s
  else
    let ok := !signed || signedOk s k
    let s := if boxSigned s k then newNonce s else s
    if bootStage s ≠ 9 && !([0x01, 0x02, 0x0E].contains op) then respond s k stBusy
    else if !ok then respond s k stDenied
    else if !lens.contains (boxArgLen s k) || decide (1 < boxF s k 2 1) || decide (boxF s k 3 1 ≠ 0) then respond s k stBadArg
    else run s

/-- MANTLE_MBDOOR (R396, R398): a doorbell for a busy slot is recorded; a reserved OP completes with BADOP. -/
def doorbell (s : State) (slot : Nat) : State :=
  if boxBusy s slot then accessError s .host 0x10000
  else
    let s := setBoxBit s F.mantleMbstatBusy slot true
    answerReserved { s with mantle := { s.mantle with queue := s.mantle.queue ++ [slot] } }

/-- MANTLE_MBDOOR (R396). -/
def execMantleMbdoor (slot : Fin 16) (s : State) : Host.Outcome State Fault Refusal := .next (mmioCmd s .host 0x10000 (fun s => doorbell s slot.val))

/-- INFO (R398). -/
def execInfo (slot : Fin 16) (s : State) : Host.Outcome State Fault Refusal :=
  .next (command s slot 0x01 false [0] (fun s =>
    respond s slot.val stOk (leBytes (reg s .devIdent 0).toNat 8 ++ (s.boot.fw.drop 24).take 40
      ++ List.replicate (40 - ((s.boot.fw.drop 24).take 40).length) 0 ++ leBytes (rf s .devBoot F.devBootSlot) 8
      ++ leBytes (rf s .mantleCores F.mantleCoresLive) 8)))

/-- RESET (R398): the response first, then a cold boot. -/
def execReset (slot : Fin 16) (s : State) : Host.Outcome State Fault Refusal :=
  .next (command s slot 0x02 true [0] (fun s => startBoot (respond s slot.val stOk) []))

/-- NETADDR (R384, R398): port, address (16 bytes), prefix length, gateway (16 bytes). -/
def execNetaddr (slot : Fin 16) (s : State) : Host.Outcome State Fault Refusal :=
  let k := slot.val
  .next (command s slot 0x03 false [48] (fun s =>
    let p := boxArg s k 0
    let addr := boxBytes s k 24 16
    let pre := boxF s k 40 8
    if 3 < p ∨ (if isV4 addr then 32 else 128) < pre then respond s k stBadArg
    else respond { s with net := { s.net with
      gids := tins p addr s.net.gids, prefixes := tins p pre s.net.prefixes, gateways := tins p (boxBytes s k 48 16) s.net.gateways } } k stOk))

/-- A byte string with its length before it, in n bytes. -/
def counted (b : List Byte) (n : Nat) : List Byte := leBytes (min b.length n) 2 ++ b.take n ++ List.replicate (n - b.length) 0

/-- LLDPNBR (R388, R398): chassis ID, port ID, seconds of TTL left. -/
def execLldpnbr (slot : Fin 16) (s : State) : Host.Outcome State Fault Refusal :=
  let k := slot.val
  .next (command s slot 0x04 false [8] (fun s =>
    if 3 < boxArg s k 0 then respond s k stBadArg
    else
      match tget? s.net.nbrs (boxArg s k 0) with
      | none => respond s k stFailed
      | some n =>
        let left := n.ttl.toNat - (ioNow s - n.heardAt).toNat / 25000000
        respond s k stOk (counted n.chassis 80 ++ counted n.port 80 ++ leBytes left 2)))

/-! ## Runner (R400) -/

/-- A plan entry from its 32 bytes. -/
def planEnt (b : List Byte) : PlanEnt :=
  { trig := fieldAt b 0 1, action := fieldAt b 1 1, target := fieldAt b 2 2, wpeg := fieldAt b 4 2, wval := fieldAt b 8 8, value := fieldAt b 16 8 }

/-- Whether an entry keeps the limits of R400. -/
def planOk (b : List Byte) : Bool :=
  let e := planEnt b
  let t := e.target
  decide (e.trig ≤ 4) && decide (e.action ≤ 3) && decide (e.wpeg < 16384) && zeroAt b 6 2 && zeroAt b 24 8
    && (if e.action = 0 then decide (t % 16 < 12) && decide (t < 1024) else if e.action = 1 then decide (t < 12)
        else if e.action = 2 then decide (t < 16384) else decide (t < 4096))

/-- The watch of the entry that the Runner waits with (R489). -/
def runnerKey : Nat := 3

/-- The entries of a plan in memory. -/
def readPlan (s : State) : Nat → Nat → List (List Byte) × State
  | _, 0 => ([], s)
  | pa, n + 1 =>
    let ((b, _), s) := mantleRead s pa 32
    let (t, s) := readPlan s (pa + 32) n
    (b :: t, s)

/-- RUNPLAN (R398, R400). -/
def execRunplan (slot : Fin 16) (s : State) : Host.Outcome State Fault Refusal :=
  let k := slot.val
  .next (command s slot 0x05 false [24] (fun s =>
    let a := boxArg s k 0
    let n := boxArg s k 1
    if hemState s ≠ 0 then respond s k stBusy
    else if 0xF000000000 < a + 32 * n ∨ 2 ^ 48 ≤ boxArg s k 2 then respond s k stBadArg
    else
      let (es, s) := readPlan s a n
      if es.all planOk then
        respond { unwatch s runnerKey with mantle := { s.mantle with plan := es.map planEnt, stop := boxArg s k 2, waiting := [] } } k stOk
      else respond s k stBadArg))

/-- The Runner as an agent: a thread of its core. -/
def runner (s : State) : Agent := .mantle (Fin.ofNat 4 (s.mantle.home.getD 0 0)) 0

/-- An entry's action. -/
def runEntry (s : State) (e : PlanEnt) : State :=
  if e.action = 0 then
    if e.value % 64 = 0 ∧ e.value < 0xF000000000 then taskPush s (64 * (e.target % 16) + e.target / 16) e.value (some (runner s)) else accessError s (runner s) 0x508
  else if e.action = 1 then
    if e.value % 64 = 0 ∧ e.value < 0xF000000000 then lpush s e.target { desc := e.value, agent := some (runner s) } else accessError s (runner s) 0x300008
  else if e.action = 2 then
    if e.value < 2 ^ 63 then pegPut s e.target e.value else accessError s (runner s) 0x20008
  else collPostWrite s (runner s) (wd e.target)

/-- The wait of the first waiting entry, watched from when it is its turn (R400, R489). -/
def runnerWatch (s : State) (e : PlanEnt) : State :=
  if (tget? s.pegs.watches runnerKey).isSome then s else watchPeg s runnerKey e.wpeg true e.wval

/-- Waiting entries start from the first, each once its peg has been there (R400, R489) and no push of the Runner is held (R349). -/
def runWaiting : Nat → State → State
  | 0, s => s
  | n + 1, s =>
    match s.mantle.waiting with
    | [] => s
    | e :: rest =>
      let s := runnerWatch s e
      if !watchMet s runnerKey || agentHeld s (runner s) then s
      else runWaiting n (runEntry { unwatch s runnerKey with mantle := { s.mantle with waiting := rest } } e)

/-- Entries of a trigger put behind those that wait. -/
def trigger (s : State) (t : Nat) : State :=
  { s with mantle := { s.mantle with waiting := s.mantle.waiting ++ s.mantle.plan.filter (fun e => decide (e.trig = t)) } }

/-- RUNNER_ENTRY_START (R400, R489). -/
def execRunnerEntryStart (s : State) : Host.Outcome State Fault Refusal :=
  .next (if homeLive s 0 then runWaiting s.mantle.waiting.length s else s)

/-! ## Feed (R401–R403) -/

/-- A stream from its descriptor, if it keeps the limits of R401. -/
def feedOf (b : List Byte) : Option Feed :=
  let f : Feed := {
    src := fieldAt b 0 1, ch := fieldAt b 1 1, peg := fieldAt b 2 2, slotBytes := fieldAt b 4 4, nslot := fieldAt b 8 2, per := fieldAt b 10 2,
    link := fieldAt b 12 1, ring := fieldAt b 16 8, srcBase := fieldAt b 24 8, srcLen := fieldAt b 32 8, cursor := fieldAt b 40 8, stat := fieldAt b 48 8,
    c := fieldAt b 40 8 }
  if f.src ≤ 1 && decide (f.ch < if f.src = 0 then 32 else 16) && decide (f.peg < 16384) && decide (0 < f.slotBytes) && decide (f.slotBytes % 4096 = 0)
      && decide (f.slotBytes ≤ 0x4000000) && decide (2 * f.per ≤ f.nslot) && decide (1 ≤ f.per) && (decide (f.src = 0) || decide (f.link < 4))
      && decide (f.ring % 4096 = 0) && decide (f.ring + f.nslot * f.slotBytes ≤ 0xF000000000) && decide (0 < f.srcLen)
      && decide (f.srcLen % f.slotBytes = 0) && decide (f.cursor < f.srcLen) && decide (f.stat + 64 ≤ 0xF000000000) && decide (f.stat % 64 = 0)
      && zeroAt b 13 3 && zeroAt b 56 8
  then some f else none

/-- FEEDCFG (R398, R401): stream and descriptor address, or an address of all ones for "off". -/
def execFeedcfg (slot : Fin 16) (s : State) : Host.Outcome State Fault Refusal :=
  let k := slot.val
  .next (command s slot 0x06 false [16] (fun s =>
    let i := boxArg s k 0
    let a := boxArg s k 1
    if hemState s ≠ 0 then respond s k stBusy
    else if 7 < i then respond s k stBadArg
    else if a = 2 ^ 64 - 1 then
      let s := match tget? s.mantle.feeds i with | some f => setRf s .dmaChctl F.dmaChctlEn 0 (feedChan f) | none => s
      respond { s with mantle := { s.mantle with feeds := tdel i s.mantle.feeds } } k stOk
    else if 0xF000000000 < a + 64 then respond s k stBadArg
    else
      let ((b, _), s) := mantleRead s a 64
      match feedOf b with
      | none => respond s k stBadArg
      | some f =>
        if f.src = 1 ∧ !s.links.cmb.contains f.link then respond s k stFailed
        else
          let f := match tget? s.mantle.resume i with
            | some (b, c) => { f with cursor := c, c := c, b := b, filled := b * f.per, first := b * f.per, asked := b * f.per }
            | none => f
          respond (feedStart { s with mantle := { s.mantle with resume := tdel i s.mantle.resume } } i f) k stOk))

/-- The cursor of batch B. -/
def batchCursor (f : Feed) : Nat := slotCursor f (f.b * f.per)

/-- A batch consumed (R402): the peg falls by PER, B counts, C is the new batch's cursor; freed slots are filled again. -/
def feedAdvance (s : State) (i : Nat) : State :=
  match tget? s.mantle.feeds i with
  | none => s
  | some f =>
    let s := (pegAddTo s f.peg (-(f.per : Int)) (adderAgent s (runner s))).2
    let f := { f with b := f.b + 1 }
    feedNext { s with mantle := { s.mantle with feeds := tins i { f with c := batchCursor f } s.mantle.feeds } } i

/-- STAT at an entry to COLLECT (R402). -/
def feedStat (s : State) (i : Nat) : State :=
  match tget? s.mantle.feeds i with
  | none => s
  | some f => mantleWrite s f.stat (leBytes f.b 8 ++ leBytes (f.b * f.per % f.nslot) 8 ++ leBytes ((f.b + 1) * f.per % f.nslot) 8 ++ leBytes f.c 8)

/-- Every stream. -/
def feedAll (s : State) (g : State → Nat → State) : State := (List.range 8).foldl g s

/-! ## Keeper (R403–R408) -/

/-- Drives that take writes: links up with a usable drive that is not retired. -/
def activeDrives (s : State) : List Nat :=
  (List.range 4).filter (fun l => decide (linkF s F.rootLinkstatState l = 3) && s.links.cmb.contains l && !(tget {} s.mantle.drives l).retired)

/-- A range of a manifest: virtual address, length, ASID (R404). -/
def rangeOf (b : List Byte) : Nat × Nat × Nat := (fieldAt b 0 8, fieldAt b 8 6, fieldAt b 14 1)

/-- A manifest's ranges, if they keep the limits of R404. -/
def rangesOf (b : List Byte) : Option (List (Nat × Nat × Nat)) :=
  let rs := (List.range (b.length / 16)).map (fun i => (b.drop (16 * i)).take 16)
  if rs.all (fun r => decide (fieldAt r 8 6 % 0x200000 = 0) && decide (0 < fieldAt r 8 6) && decide (fieldAt r 14 1 < 64) && zeroAt r 15 1) then
    some (rs.map rangeOf)
  else none

/-- The 4 KiB pages that a manifest's ranges name: (ASID, address). -/
def manifestPages (rs : List (Nat × Nat × Nat)) : List (Nat × Nat) :=
  rs.flatMap (fun r => (List.range (r.2.1 / 4096)).map (fun i => (r.2.2, r.1 + 4096 * i)))

/-- The physical frames that are current under an EPOCH, page by page; none when one does not translate. -/
def currentFrames (epoch : Word) (s : State) : List (Nat × Nat) → Option (List Nat) × State
  | [] => (some [], s)
  | (asid, va) :: t =>
    let x : XCtx := { asid := BitVec.ofNat 6 asid, level := 1, spec := false, epoch := bit epoch asid }
    match translate s (768 + s.mantle.home.getD 2 0) x (wd va) .load with
    | (.error _, s) => (none, s)
    | (.ok pa, s) =>
      match currentFrames epoch s t with
      | (some l, s) => (some (pa :: l), s)
      | (none, s) => (none, s)

/-- Whether every rank's twin is its neighbour (R404). -/
def pairMode (s : State) : Bool × State :=
  (List.range (nRanks s)).foldl (fun (a : Bool × State) r => let (e, s) := rtEntry a.2 r; (a.1 && decide (entTwin e = r ^^^ 1), s)) (true, s)

/-- Stripes and this rank's stripe. -/
def stripes (s : State) : (Nat × Nat) × State :=
  let (p, s) := pairMode s
  if p then ((max 1 (nRanks s / 2), myRank s / 2), s) else ((nRanks s, myRank s), s)

/-- KPEG (R405): the cursor in MiB while the next update writes the frame being drained, else all ones. The commit that starts the drain counts as the first (log 35). -/
def kpegUpdate (s : State) : State :=
  match s.boot.kpeg with
  | none => s
  | some p =>
    match s.mantle.ckpt with
    | some c => pegPut s p (if c.taken && decide ((if c.paired then 2 else 1) ≤ c.commits) then (match c.todo with | x :: _ => 4 * x | [] => pegTop) else pegTop)
    | none => if pegVal s p = pegTop then s else pegPut s p pegTop

/-- The checkpoint in progress ends with a status. -/
def ckptEnd (s : State) (c : Ckpt) (st : Nat) : State := kpegUpdate (respond { s with mantle := { s.mantle with ckpt := none } } c.box st)

/-- CKPT (R404, R407): the commits made before it do not start it. One that arrives while another is in progress does not wait: it gives BUSY. -/
def execCkpt (slot : Fin 16) (s : State) : Host.Outcome State Fault Refusal :=
  let k := slot.val
  .next (if (s.mantle.ckpt.map (fun c => c.box)) = some k then s
    else command s slot 0x08 false [24] (ahead := s.mantle.ckpt.isSome) (fun s =>
    let a := boxArg s k 0
    let n := boxArg s k 1
    let h := boxArg s k 2
    if s.mantle.ckpt.isSome then respond s k stBusy
    else if n = 0 ∨ 256 < n ∨ 0xF000000000 < a + 16 * n ∨ 1 < h then respond s k stBadArg
    else
      let ((b, _), s) := mantleRead s a (16 * n)
      match rangesOf b with
      | none => respond s k stBadArg
      | some rs =>
        if (activeDrives s).isEmpty then respond s k stFailed
        else { s with mantle := { s.mantle with
          ckpt := some { box := k, half := h, manifest := b, ranges := rs, skip := s.mantle.commits.length } } }))

/-- Bytes of a state stream, its chunks. -/
def streamLen (rs : List (Nat × Nat × Nat)) : Nat := (rs.map (fun r => r.2.1)).sum
def ckptChunks (n : Nat) : Nat := (n + 0x3FFFFF) / 0x400000

/-- A half of a drive. -/
def storedAt (s : State) (l half : Nat) : Stored := tget {} s.mantle.stored (2 * l + half)
def modStored (s : State) (l half : Nat) (f : Stored → Stored) : State :=
  { s with mantle := { s.mantle with stored := tmod {} s.mantle.stored (2 * l + half) f } }

/-- Where a half begins on its drive, and its chunk c (R406): the header, the digest table, the chunks, each from a multiple of 4 KiB. The k-th chunk of the stripe is chunk k / D of its drive. -/
def halfBase (l half : Nat) : Nat := half * (Config.driveBytes l / 2)
def chunkPlace (x : Stored) (l half c : Nat) : Nat :=
  halfBase l half + 4096 + (64 * x.onDrive + 4095) / 4096 * 4096 + 0x400000 * (c / x.nr / x.count)

/-- The header of a half (R406). -/
def headerBytes (x : Stored) (valid : Bool) : List Byte :=
  [0x4B, 0x50, 0x52, 0x31, BitVec.ofNat 8 valid.toNat, 0, 0, 0] ++ leBytes x.jobid.toNat 8 ++ leBytes x.step.toNat 8 ++ leBytes x.stripe 2 ++ leBytes x.nr 2
    ++ [BitVec.ofNat 8 x.index, BitVec.ofNat 8 x.count, 0, 0] ++ leBytes x.bytes 8 ++ leBytes x.onDrive 4 ++ List.replicate 20 0
    ++ leBytes x.manifest.toNat 64 ++ x.numdig.take 64 ++ List.replicate (3968 - (x.numdig.take 64).length) 0

/-- The digest table of a half: the SHA-512 of each chunk, in order (R406). -/
def tableBytes (x : Stored) : List Byte := x.digests.flatMap (fun p => leBytes p.2.toNat 64)

/-- The commit taken starts the drain (R404, R406): frames are resolved under its EPOCH, the half's VALID is cleared on every active drive. A range that does not translate fails the command. -/
def ckptStart (s : State) (c : Ckpt) (step : BitVec 48) (epoch : Word) : State :=
  match currentFrames epoch s (manifestPages c.ranges) with
  | (none, s) => ckptEnd s c stFailed
  | (some fs, s) =>
    let ds := activeDrives s
    let ((nr, mine), s) := stripes s
    let todo := (List.range (ckptChunks (streamLen c.ranges))).filter (fun x => decide (x % nr = mine))
    if ds.isEmpty then ckptEnd s c stFailed
    else
      let s := (ds.zip (List.range ds.length)).foldl (fun s p =>
        let x : Stored := {
          jobid := reg s .collJobid, step := step.setWidth 64, stripe := mine, nr := nr, index := p.2, count := ds.length,
          bytes := streamLen c.ranges, onDrive := (todo.length + ds.length - 1 - p.2) / ds.length, manifest := Config.sha512 c.manifest, numdig := numDigest s }
        modStored (nvmeWrite s p.1 (halfBase p.1 c.half) (headerBytes x false)) p.1 c.half (fun _ => x)) s
      { s with mantle := { s.mantle with ckpt := some { c with
        taken := true, frames := fs, drives := ds, todo := todo, commits := 1, paired := s.hem.paired, step := step.setWidth 64, skip := 0 } } }

/-- The Keeper at a commit (R404, R405), with its step and EPOCH. -/
def keeperCommit (s : State) (step : BitVec 48) (epoch : Word) : State :=
  kpegUpdate (match s.mantle.ckpt with
    | none => s
    | some c =>
      if c.taken then { s with mantle := { s.mantle with ckpt := some { c with commits := c.commits + 1 } } }
      else if 0 < c.skip then { s with mantle := { s.mantle with ckpt := some { c with skip := c.skip - 1 } } }
      else ckptStart s c step epoch)

/-- The bytes of a chunk of a state stream, read frame by frame by storage DMA (R24). -/
def readFrames (s : State) : List Nat → List Byte × State
  | [] => ([], s)
  | pa :: t =>
    let ((b, _), s) := homeRead (accessDraws s Activity.storage.part pa 4096) pa 4096
    let (r, s) := readFrames s t
    (b ++ r, s)

/-- The end of a drain (R404, R406): each drive's digest table is written, the drives flush, VALID is written last. -/
def ckptFinish (s : State) (c : Ckpt) : State :=
  ckptEnd (c.drives.foldl (fun s l =>
    let x := storedAt s l c.half
    let s := nvmeFlush (nvmeWrite s l (halfBase l c.half + 4096) (tableBytes x)) l
    modStored (nvmeWrite s l (halfBase l c.half) (headerBytes x true)) l c.half (fun x => { x with valid := true })) s) c stOk

/-- KEEPER_CHUNK_STORE (R404, R405): the next chunk of the stripe goes to its drive; the last one ends the checkpoint. A drive that has gone ends it with FAILED. -/
def execKeeperChunkStore (s : State) : Host.Outcome State Fault Refusal :=
  .next (match s.mantle.ckpt with
    | none => s
    | some c =>
      if !c.taken || !homeLive s 2 then s
      else
        match c.todo with
        | [] => ckptFinish s c
        | x :: rest =>
          let l := c.drives.getD (c.k % c.drives.length) 0
          if !(activeDrives s).contains l then ckptEnd s c stFailed
          else
            let (b, s) := readFrames s ((c.frames.drop (1024 * x)).take 1024)
            let s := nvmeWrite s l (chunkPlace (storedAt s l c.half) l c.half x) b
            let s := modStored s l c.half (fun y => { y with digests := tins x (Config.sha512 b) y.digests, chunks := tins x b y.chunks })
            let c := { c with todo := rest, k := c.k + 1 }
            let s := { s with mantle := { s.mantle with ckpt := some c } }
            if rest.isEmpty then ckptFinish s c else kpegUpdate s)

/-- A slot marked damaged, and recorded (R407). -/
def slotDamaged (s : State) (l half : Nat) : State :=
  report (modStored s l half (fun x => { x with damaged := true })) (mkErr 0x53 11 l 0 0 (wd l))

/-- Whether the twin's Keeper can be asked for a chunk (R407): in pair mode, over the Seam link. -/
def twinServes (s : State) : Bool × State := let (p, s) := pairMode s; (p && decide (seamState s = 5), s)

/-- KEEPER_SCRUB (R407): a chunk that reads badly comes from the twin in pair mode and is rewritten if it checks; otherwise the slot is damaged and recorded. -/
def execKeeperScrub (l : Fin 4) (half : Fin 2) (r : ScrubResult) (s : State) : Host.Outcome State Fault Refusal :=
  let x := storedAt s l.val half.val
  let put (s : State) (c : Nat) (b : List Byte) : State :=
    modStored (nvmeWrite s l.val (chunkPlace x l.val half.val c) b) l.val half.val (fun x => { x with chunks := tins c b x.chunks })
  .next (if !x.valid || decide (linkF s F.rootLinkstatState l.val ≠ 3) || !homeLive s 2 then s
    else
      match r with
      | .good => s
      | .logged c => (match tget? x.chunks c with | some b => put s c b | none => s)
      | .bad c copy =>
        let (t, s) := twinServes s
        if t then
          let s := seamSend s "chunk wanted" (wd c) []
          match copy with
          | some b => if tget? x.digests c = some (Config.sha512 b) then put s c b else slotDamaged s l.val half.val
          | none => slotDamaged s l.val half.val
        else slotDamaged s l.val half.val)

/-- SMART_CHECK (R407): a worn drive is retired; temperature is bit 1 of the Critical Warning, as NVMe has it. -/
def execSmartCheck (l : Fin 4) (used spare threshold : BitVec 8) (warn : BitVec 8) (s : State) : Host.Outcome State Fault Refusal :=
  .next (if decide (linkF s F.rootLinkstatState l.val = 3) && s.links.cmb.contains l.val && homeLive s 2 then
      let bad := decide (95 ≤ used.toNat) || decide (spare.toNat < threshold.toNat) || decide (warn &&& 0xFD ≠ 0)
      let ds := tmod {} s.mantle.drives l.val (fun (d : Drive) => { d with used := used.toNat, spare := spare.toNat, retired := d.retired || bad })
      { s with mantle := { s.mantle with drives := ds } }
    else s)

/-- Whether a stored half may be restored for a job and manifest. -/
def restorable (s : State) (x : Stored) (m : BitVec 512) : Bool :=
  x.valid && !x.damaged && decide (x.jobid = reg s .collJobid) && decide (x.manifest = m)

/-- Bytes written to frames, page by page, by storage DMA (R24). -/
def writeFrames (s : State) : List Nat → List Byte → State
  | [], _ => s
  | pa :: t, b => writeFrames (homeWrite (accessDraws s Activity.storage.part pa 4096) pa (b.take 4096)) t (b.drop 4096)

/-- The drives that can be read and hold a half that may be restored. -/
def heldDrives (s : State) (m : BitVec 512) (h : Nat) : List Nat :=
  (List.range 4).filter (fun l => decide (linkF s F.rootLinkstatState l = 3) && restorable s (storedAt s l h) m)

/-- Half h of the drives that can be read: the step it holds, if any drive has it. -/
def halfStep (s : State) (m : BitVec 512) (h : Nat) : Option Nat := ((heldDrives s m h).map (fun l => (storedAt s l h).step.toNat)).head?

/-- This rank's stripe of a half, chunk by chunk with the drive that has it, as its headers say (R404, R406); 4 where no drive that can be read has it. -/
def restoreList (s : State) (m : BitVec 512) (h : Nat) : List (Nat × Nat) :=
  match heldDrives s m h with
  | [] => []
  | l0 :: ls =>
    let x := storedAt s l0 h
    ((List.range (ckptChunks x.bytes)).filter (fun c => decide (c % x.nr = x.stripe))).map (fun c =>
      (((l0 :: ls).find? (fun l => decide ((storedAt s l h).index = c / x.nr % x.count) && decide ((storedAt s l h).step = x.step))).getD 4, c))

/-- The restore in progress ends with a status (R408): the chunk count, then the frames of the manifest, one per 2 MiB, as many as a result holds. -/
def restoreEnd (s : State) (r : Restore) (st : Nat) : State :=
  let pages := (List.range (min 21 (r.frames.length / 512))).map (fun i => r.frames.getD (512 * i) 0)
  respond { s with mantle := { s.mantle with restore := none } } r.box st (if st = stOk then leBytes r.count 8 ++ pages.flatMap (fun pa => leBytes pa 8) else [])

/-- The restore goes on (R407, R408): each chunk is read, verified and written. One that does not verify is asked of the twin, and the restore waits for its rewriting; where the twin does not serve, or the slot is damaged, or a drive has gone, it fails. -/
def restoreGo : Nat → State → State
  | 0, s => s
  | n + 1, s =>
    match s.mantle.restore with
    | none => s
    | some r =>
      match r.todo with
      | [] => restoreEnd s r stOk
      | (l, c) :: rest =>
        let x := storedAt s l r.half
        if 4 ≤ l || x.damaged || decide (linkF s F.rootLinkstatState l ≠ 3) then restoreEnd s r stFailed
        else
          let b := (tget? x.chunks c).getD []
          let s := nvmeRead s l (cmbAddr l 0) (chunkPlace x l r.half c) b.length
          if (tget? x.chunks c).isSome && decide (tget? x.digests c = some (Config.sha512 b)) then
            let s := writeFrames s ((r.frames.drop (1024 * c)).take 1024) b
            restoreGo n { s with mantle := { s.mantle with restore := some { r with todo := rest, count := r.count + 1 } } }
          else
            let (t, s) := twinServes s
            if t then seamSend s "chunk wanted" (wd c) [] else restoreEnd (slotDamaged s l r.half) r stFailed

/-- RESTORE (R398, R408): the newest slot that matches, or the one named; each chunk is verified and written to the current frames. Taken again for the slot in progress, it goes on. -/
def execRestore (slot : Fin 16) (s : State) : Host.Outcome State Fault Refusal :=
  let k := slot.val
  let go (s : State) : State := restoreGo ((s.mantle.restore.elim 0 (fun r => r.todo.length)) + 1) s
  .next (if (s.mantle.restore.map (fun r => r.box)) = some k then (if homeLive s 2 then go s else s)
    else command s slot 0x09 false [16, 24] (fun s =>
    let a := boxArg s k 0
    let n := boxArg s k 1
    let named := if boxArgLen s k = 24 then some (boxArg s k 2) else none
    if hemState s ≠ 0 ∧ hemState s ≠ 4 then respond s k stBusy
    else if n = 0 ∨ 256 < n ∨ 0xF000000000 < a + 16 * n ∨ 1 < named.getD 0 then respond s k stBadArg
    else
      let ((b, _), s) := mantleRead s a (16 * n)
      match rangesOf b with
      | none => respond s k stBadArg
      | some rs =>
        let m := Config.sha512 b
        let half := match named with
          | some h => if (halfStep s m h).isSome then some h else none
          | none =>
            match halfStep s m 0, halfStep s m 1 with
            | some x, some y => some (if x < y then 1 else 0)
            | some _, none => some 0
            | none, some _ => some 1
            | none, none => none
        match half with
        | none => respond s k stFailed
        | some h =>
          match currentFrames (reg s .devEpoch) s (manifestPages rs) with
          | (none, s) => respond s k stFailed
          | (some fs, s) => go { s with mantle := { s.mantle with restore := some { box := k, half := h, frames := fs, todo := restoreList s m h } } }))

/-- DRIVES (R398): for each link its state, Percentage Used, available spare, whether retired. -/
def execDrives (slot : Fin 16) (s : State) : Host.Outcome State Fault Refusal :=
  .next (command s slot 0x0A false [0] (fun s =>
    respond s slot.val stOk ((List.range 4).flatMap (fun l =>
      let d := tget {} s.mantle.drives l
      [BitVec.ofNat 8 (linkF s F.rootLinkstatState l), BitVec.ofNat 8 d.used, BitVec.ofNat 8 d.spare, BitVec.ofNat 8 d.retired.toNat]))))

/-- USERSTATE (R398). -/
def execUserstate (slot : Fin 16) (s : State) : Host.Outcome State Fault Refusal :=
  .next (command s slot 0x07 false [128] (fun s =>
    respond { s with mantle := { s.mantle with user := boxBytes s slot.val 16 128 } } slot.val stOk))

/-- POWERAVG (R398, R436): package, die W, die E. -/
def execPoweravg (slot : Fin 16) (s : State) : Host.Outcome State Fault Refusal :=
  let k := slot.val
  .next (command s slot 0x0B true [24] (fun s =>
    let vs := (List.range 3).map (boxArg s k)
    if vs.all (fun v => decide (100 ≤ v) && decide (v ≤ 3600)) then
      respond (setReg s .powerAvglim 0 (pack [(0, vs.getD 0 0), (16, vs.getD 1 0), (32, vs.getD 2 0)])) k stOk
    else respond s k stBadArg))

/-! ## Health (R395, R409) -/

/-- Whether the pair is protected: the twin reports a TWINAREA (R410). -/
def protected' (s : State) : Bool := decide (seamState s = 5) && decide (s.links.twinArea ≠ 0)

/-- HEALTH (R398, R410, R411): core states, watchdog events, records in the ring, tuner margins, whether the pair is protected, USER, the first 8 bytes of the last shutdown record (R448), all ones when there is none. -/
def execHealth (slot : Fin 16) (s : State) : Host.Outcome State Fault Refusal :=
  .next (command s slot 0x0E false [0] (fun s =>
    respond s slot.val stOk (leBytes (reg s .mantleCores 0).toNat 8 ++ leBytes s.mantle.events 8
      ++ leBytes ((rf s .errWp F.errWpWp + 2 ^ 32 - rf s .errRp F.errRpRp) % 2 ^ 32) 8
      ++ (List.range 12).map (fun r => BitVec.ofNat 8 (rf s .powerRegstat F.powerRegstatTrim r)) ++ [BitVec.ofNat 8 (protected' s).toNat] ++ s.mantle.user
      ++ flashBytes s shutdownOff 8)))

/-- Bytes of the Mantle's SRAM (R394), read and written. -/
def sramBytes : Nat := 0x1000000
def sramGet (s : State) (a n : Nat) : List Byte := (List.range n).map (fun i => tget 0 s.mantle.sram (a + i))
def sramPut (s : State) (a : Nat) (bs : List Byte) : State :=
  { s with mantle := { s.mantle with sram := (bs.zip (List.range bs.length)).foldl (fun m p => tset 0 m (a + p.2) p.1) s.mantle.sram } }

/-- MANTLE_HEART_TICK (R409, R462): Health counts, and has processed the records that the ring holds. -/
def execMantleHeartTick (s : State) : Host.Outcome State Fault Refusal :=
  .next (if homeLive s 3 then setRf (setReg s .mantleHeart 0 (reg s .mantleHeart + 1)) .errRp F.errRpRp (rf s .errWp F.errWpWp) else s)

/-- Slots whose commands a lost core was running: the next of each of its services. -/
def runningOn (s : State) (core : Nat) : List Nat :=
  let mine := (List.range 4).filter (fun i => decide (s.mantle.home.getD i 0 = core))
  mine.filterMap (fun i => s.mantle.queue.find? (fun q => decide (serviceOf (boxOp s q) = i)))

/-- HEARTBEAT_LOSS (R395): the core is lost, its site is recorded so that the next boot brings in the spare, its commands complete with RETRY, its services restart on the idlest live core; with none left the mailbox falls silent. -/
def execHeartbeatLoss (core : Fin 4) (s : State) : Host.Outcome State Fault Refusal :=
  let live := rf s .mantleCores F.mantleCoresLive
  .next (if !live.testBit core.val then s
    else
      let site := s.mantle.sites.getD core.val core.val
      let slots := runningOn s core.val
      let keeper := decide (s.mantle.home.getD 2 0 = core.val)
      let s := setRf s .mantleCores F.mantleCoresLive (live &&& (15 - (1 <<< core.val)))
      let s := setRf s .mantleCores F.mantleCoresLost (rf s .mantleCores F.mantleCoresLost ||| (1 <<< core.val))
      let s := { s with mantle := { s.mantle with events := s.mantle.events + 1, lostSites := site :: without site s.mantle.lostSites } }
      let s := retireSites s 5 0 [site]
      if live = 1 <<< core.val then report (report s (mkErr 0x80 1 0 site 0 (wd site))) (mkErr 0x81 1 0 site 0 (wd site))
      else
        let s := slots.foldl (fun s k => respond s k stRetry) s
        let s := if s.mantle.home.getD 0 0 = core.val then { s with mantle := { s.mantle with copy := none } } else s
        let s := if keeper then kpegUpdate { s with mantle := { s.mantle with ckpt := none, restore := none } } else s
        answerReserved (rehome (report s (mkErr 0x80 1 0 site 0 (wd site)))))

/-- MANTLE_SRAM_SCRUB (R394, R409): Health reads an 8-byte word of the 16 MiB; an uncorrectable error leaves it a free value (log 130). -/
def execMantleSramScrub (addr : Nat) (e : Ecc) (s : State) : Host.Outcome State Fault Refusal :=
  let off (x : Nat) : Bool := decide (x ≠ addr)
  .next (if sramBytes ≤ addr || decide (addr % 8 ≠ 0) || !homeLive s 3 then s
    else
      match e with
      | .clean => { s with mantle := { s.mantle with sramBad := s.mantle.sramBad.filter off } }
      | .corrected _ => report { s with mantle := { s.mantle with sramBad := s.mantle.sramBad.filter off } } (mkErr 0x82 1 0 0 (wd addr))
      | .uncorrectable =>
        let (v, s) := drawFree s
        report { sramPut s addr (leBytes v.toNat 8) with mantle := { (sramPut s addr (leBytes v.toNat 8)).mantle with sramBad := addr :: s.mantle.sramBad.filter off } }
          (mkErr 0x83 1 0 0 (wd addr)))

/-- The interrupt-post interface (R399): interrupts 1–11 of a live cell's thread, and its wake. -/
def irqpost (s : State) (a : Agent) (v : Word) : State :=
  let r := fget v F.mantleIrqpostRegion
  let n := fget v F.mantleIrqpostNum
  let c := 64 * r + 8 * fget v F.mantleIrqpostBlock + fget v F.mantleIrqpostCell
  if !agentTrusted a || decide (n = 0) || decide (11 < n) || decide (11 < r) || cellRetired s c then accessError s a 0x10030
  else postInt s (tidOf c (fget v F.mantleIrqpostThread)) n

/-- MANTLE_IRQPOST (R399). -/
def execMantleIrqpost (a : Agent) (v : Word) (s : State) : Host.Outcome State Fault Refusal := .next (mmioCmd s a 0x10030 (fun s => irqpost s a v))

/-! ## Notifications (R400) -/

/-- The step and the EPOCH of the commit that the Runner hears of next (R400, R404). -/
def commitHeard (s : State) : (BitVec 48 × Word) × State :=
  match s.mantle.commits with
  | c :: rest => (c, { s with mantle := { s.mantle with commits := rest } })
  | [] => ((s.hem.step, reg s .devEpoch), s)

/-- STOPSTEP (R400): DISARM, before the COLLECT entries, which then do not run. -/
def runnerStop (s : State) (step : BitVec 48) : State :=
  if s.mantle.stop ≠ 0 ∧ step.toNat = s.mantle.stop then hemDisarm { s with hem := { s.hem with notes := s.hem.notes.filter (fun n => decide (n ≠ 16)) } } else s

/-- What the Runner does with a notification: a verdict's batch handling, cursor and entries; STOPSTEP's DISARM; an entry to a state. -/
def notify (s : State) (n : Nat) : State :=
  if n = 16 then trigger (feedAll s feedStat) 0
  else if n = 17 then trigger s 1
  else if n = 18 then trigger s 4
  else if n = 1 then
    let (c, s) := commitHeard s
    let s := keeperCommit (feedAll s feedAdvance) c.1 c.2
    runnerStop (trigger { s with mantle := { s.mantle with twinDue := true } } 2) c.1
  else if n = 4 ∧ !s.hem.paired then s
  else trigger (if n = 3 then feedAll s feedAdvance else s) 3

/-- RUNNER_NOTIFY (R400, R402, R405): the oldest notification. -/
def execRunnerNotify (s : State) : Host.Outcome State Fault Refusal :=
  .next (match s.hem.notes with
    | [] => s
    | n :: rest =>
      if !homeLive s 0 then s
      else
        let s := notify { s with hem := { s.hem with notes := rest } } n
        runWaiting s.mantle.waiting.length s)

/-! ## The twin (R410, R411) -/

/-- The per-device record (R410). -/
def twinRecord (s : State) (seq : Nat) : List Byte :=
  let feed (i : Nat) : Nat := match tget? s.mantle.feeds i with | some f => f.b % 65536 + f.c / 4096 % 2 ^ 48 * 65536 | none => 0
  let body := [0x54, 0x57, 0x52, 0x31] ++ List.replicate 4 0 ++ leBytes seq 8 ++ leBytes s.hem.step.toNat 8 ++ leBytes (reg s .devEpoch).toNat 8
    ++ (List.range 8).flatMap (fun i => leBytes (feed i) 8) ++ s.mantle.user.take 128 ++ leBytes (myRank s) 2 ++ List.replicate 6 0
    ++ leBytes (reg s .collJobid).toNat 8 ++ [BitVec.ofNat 8 s.hem.lsexp.toNat] ++ leBytes s.hem.clean.toNat 2 ++ List.replicate 5 0 ++ List.replicate 200 0
  body ++ leBytes (Config.sha512 body).toNat 64

/-- A WRITE sent to the twin by the Mantle: its header, then its bytes (R391). -/
def twinWrite (s : State) (at' : Word) (bs : List Byte) : State := seamEmit (seamSend s "WRITE" at' (leBytes bs.length 8)) (.seamWrite at' bs [])

/-- TWIN_RECORD_WRITE (R410): after a commit, to the half of the twin's TWINAREA record that SEQ names. -/
def execTwinRecordWrite (s : State) : Host.Outcome State Fault Refusal :=
  .next (if !s.mantle.twinDue || !homeLive s 0 then s
    else
      let s := { s with mantle := { s.mantle with twinDue := false } }
      if !protected' s then s
      else
        let seq := s.mantle.twinSeq + 1
        twinWrite { s with mantle := { s.mantle with twinSeq := seq } } (s.links.twinArea + wd (512 * (seq % 2))) (twinRecord s seq))

/-- HBM copied to the twin by the 16 Seam DMA channels, 60 GiB each (R411). -/
def sendHbm (s : State) : State :=
  let n := 0xF00000000
  (List.range 16).foldl (fun s ch =>
    let mine (a : Nat) : Bool := decide (a / n = ch)
    seamEmit s (.seamCopy ch (s.ms.mem.filter (fun c => mine c.1)) (s.ms.hbmPoison.filter (fun p => mine (lineBase p.1))))) s

/-- TWINSEND (R411): taken once, it starts the copy; taken again for the slot in progress, the copy is complete: all of HBM has gone, then DEV_EPOCH. -/
def execTwinsend (slot : Fin 16) (s : State) : Host.Outcome State Fault Refusal :=
  let k := slot.val
  .next (if s.mantle.copy = some (k, true) then
      if !homeLive s 0 then s
      else
        let s := s.ms.rc.foldl (fun s p => if lineHbm p.1 then writeBack s p.1 else s) s
        let s := seamSend (sendHbm s) "epoch" (reg s .devEpoch) []
        respond { s with mantle := { s.mantle with copy := none } } k stOk
    else command s slot 0x0C true [0] (fun s =>
      if hemState s ≠ 0 || s.mantle.copy.isSome then respond s k stBusy
      else if seamState s ≠ 5 then respond s k stFailed
      else { s with mantle := { s.mantle with copy := some (k, true) } }))

/-- The record that this part's TWINAREA holds: the copy with the greater SEQ whose digest checks (R410). -/
def heldRecord (s : State) : Option (List Byte) × State :=
  let ((a, _), s) := mantleRead s s.boot.twinArea 512
  let ((b, _), s) := mantleRead s (s.boot.twinArea + 512) 512
  let good (r : List Byte) : Bool := decide (fieldAt r 0 4 = 0x31525754) && decide (fieldAt r 448 64 = (Config.sha512 (r.take 448)).toNat)
  (if s.boot.twinArea = 0 then none
   else if good a && (!good b || decide (fieldAt b 8 8 < fieldAt a 8 8)) then some a else if good b then some b else none, s)

/-- The lost part's record applied (R411 step 6): USER, and each stream's B and C. -/
def applyRecord (s : State) : State :=
  match heldRecord s with
  | (none, s) => s
  | (some r, s) =>
    { s with mantle := { s.mantle with
      user := (r.drop 96).take 128,
      resume := (List.range 8).foldl (fun t i =>
        let w := fieldAt r (32 + 8 * i) 8
        if w = 0 then t else tins i (w % 65536, w / 65536 * 4096) t) [] } }

/-- TWINRECV (R411): taken first, it sets ACCEPT; with the survivor's EPOCH, at the end of the copy, the EPOCH is loaded, the record applied, ACCEPT cleared. -/
def execTwinrecv (slot : Fin 16) (epoch : Option Word) (s : State) : Host.Outcome State Fault Refusal :=
  let k := slot.val
  .next (match epoch with
    | some e =>
      if s.mantle.copy = some (k, false) && decide (hemState s = 0) && homeLive s 0 then
        let s := sendUpdate (setReg s .devEpoch 0 e) s.hem.step false
        let s := setRf (applyRecord s) .seamStat F.seamStatAccept 0
        respond { s with mantle := { s.mantle with copy := none } } k stOk
      else s
    | none =>
      if s.mantle.copy = some (k, false) then s
      else command s slot 0x0D true [0] (fun s =>
        if hemState s ≠ 0 || collState s ≠ 0 || !s.mantle.feeds.isEmpty || s.mantle.ckpt.isSome || s.mantle.restore.isSome || s.mantle.copy.isSome then respond s k stBusy
        else
          let s := setRf s .seamStat F.seamStatAccept 1
          { s with mantle := { s.mantle with copy := some (k, false) } }))

/-- SEAM_LINK_LOSS (R392, R411): the link goes down; a copy in progress completes with FAILED. -/
def execSeamLinkLoss (s : State) : Host.Outcome State Fault Refusal :=
  .next (if seamState s = 0 then s
    else
      let s := seamDown s
      match s.mantle.copy with
      | some (k, _) => respond { s with mantle := { s.mantle with copy := none } } k stFailed
      | none => s)

end Sys2Proof.Machine
end

