-- ==== Sys2Proof/Machine/Err.lean ====
section
/-! DEFINITION. The error unit (R455, R459–R464): acceptance, merging, the ring, the hold, notification, injection; and the register writes of the counters (R468, R474–R476). -/

namespace Sys2Proof.Machine

/-- Whether a class merges: CE or EVENT (R461). -/
def mergeable (c : BitVec 2) : Bool := decide (c = 0) || decide (c = 3)

/-- Whether two records are of one cause and one source (R461). -/
def sameSource (a b : ErrRec) : Bool :=
  decide (a.cause = b.cause) && decide (a.unit = b.unit) && decide (a.inst = b.inst) && decide (a.sub = b.sub)
    && decide (a.threadV = b.threadV) && decide (a.thread = b.thread)

/-- A record in place among others, in SEQ order (R462). -/
def insSeq (x : Accepted) : List Accepted → List Accepted
  | [] => [x]
  | y :: t => if x.seq < y.seq then x :: y :: t else y :: insSeq x t

/-- The hold replaced; HOLD shows how many it has. -/
def setHold (s : State) (h : List Accepted) : State :=
  setRf { s with err := { s.err with hold := h } } .errStat F.errStatHold h.length

/-- Records in the ring that have not been consumed (R462). -/
def ringUsed (s : State) : Nat := (rf s .errWp F.errWpWp + 2 ^ 32 - rf s .errRp F.errRpRp) % 2 ^ 32

/-- Whether the ring is full (R462). -/
def ringFull (s : State) : Bool := decide (2 ^ rf s .errRing F.errRingLog2n ≤ ringUsed s)

/-- Notification of a record written or held (R463). -/
def notifyRecord (s : State) (x : Accepted) : State :=
  let k := x.er.cls.toNat
  let s := emit s (.mantle "record" (wd x.seq))
  let w := reg s .errMsix
  if bit w (16 * k + 8) then msixPost s (bits w (16 * k + 7) (16 * k)) else s

/-- The 64 bytes of an accepted record (R459). -/
def acceptedBytes (x : Accepted) : List Byte := recordBytes x.er x.seq x.count x.merged x.time x.step

/-- The place of the next record in the ring (R462). -/
def ringSlot (s : State) : Nat :=
  4096 * rf s .errRing F.errRingBase + 64 * (rf s .errWp F.errWpWp % 2 ^ rf s .errRing F.errRingLog2n)

/-- A record written to the ring, charged to P4; WP then increments (R24, R462). -/
def ringPut (s : State) (x : Accepted) : State :=
  let s := mantleWrite s (ringSlot s) (acceptedBytes x)
  setRf s .errWp F.errWpWp ((rf s .errWp F.errWpWp + 1) % 2 ^ 32)

/-- A record that is dropped is counted (R462). -/
def loseRecord (s : State) : State := bumpRf s .errStat F.errStatLost

/-- A record that waits in the 64-entry hold, or finds it full (R462). -/
def holdPut (s : State) (x : Accepted) : State :=
  if s.err.hold.length < 64 then notifyRecord (setHold s (insSeq x s.err.hold)) x else loseRecord s

/-- An accepted record goes to the ring or the hold, or is dropped (R462, R463). -/
def writeRecord (s : State) (x : Accepted) : State :=
  if rf s .errRing F.errRingEn = 0 then holdPut s x
  else if mergeable x.er.cls then
    if ringFull s then loseRecord s else notifyRecord (ringPut s x) x
  else if ringFull s || !s.err.hold.isEmpty then holdPut s x
  else notifyRecord (ringPut s x) x

/-- A FATAL record acts as HALTREQ and sets FATAL; FCAUSE keeps the first cause (R455). -/
def acceptFatal (s : State) (c : BitVec 8) : State :=
  let s := if rf s .errStat F.errStatFatal = 0 then setRf s .errStat F.errStatFcause c.toNat else s
  hemStop (setRf s .errStat F.errStatFatal 1) 7

/-- An occurrence merged into the first open merge of its cause and source (R461). -/
def mergeInto (e : ErrRec) : List Accepted → Option (List Accepted)
  | [] => none
  | m :: t => if sameSource m.er e then some ({ m with count := min 65535 (m.count + 1) } :: t) else (mergeInto e t).map (m :: ·)

/-- One detected error accepted (R455, R460, R461). -/
def acceptRecord (s : State) (e : ErrRec) : State :=
  match (if mergeable e.cls then mergeInto e s.err.merges else none) with
  | some ms => { s with err := { s.err with merges := ms } }
  | none =>
    let x : Accepted := { er := e, seq := s.err.seq, time := ioNow s, step := s.hem.step }
    let s := { s with err := { s.err with seq := (s.err.seq + 1) % 2 ^ 32 } }
    let s := if mergeable e.cls && decide (s.err.merges.length < 32) then
        { s with err := { s.err with merges := s.err.merges ++ [x] } }
      else writeRecord s x
    if e.cls = 2 then acceptFatal s e.cause else s

/-- RECORD_ACCEPT (R460): the error detected first is accepted. -/
def execRecordAccept (s : State) : Host.Outcome State Fault Refusal :=
  .next (match s.err.detected with
    | [] => s
    | e :: t => acceptRecord { s with err := { s.err with detected := t } } e)

/-- MERGE_EXPIRY (R461): the oldest open merge is written with MERGED set. -/
def execMergeExpiry (s : State) : Host.Outcome State Fault Refusal :=
  .next (match s.err.merges with
    | [] => s
    | m :: t => writeRecord { s with err := { s.err with merges := t } } { m with merged := true })

/-- HOLD_DRAIN (R462): the record of the lowest SEQ in the hold enters the ring as space frees; it was notified when it entered the hold. -/
def execHoldDrain (s : State) : Host.Outcome State Fault Refusal :=
  .next (match s.err.hold with
    | [] => s
    | x :: t => if rf s .errRing F.errRingEn = 0 || ringFull s then s else ringPut (setHold s t) x)

/-- Every bit of a word. -/
def allMask : Word := BitVec.allOnes 64

/-- A write of ERR_RING (R464): BASE and LOG2N accept it only while EN is 0; the ring must lie in HBM. -/
def errRingWr (s : State) (a : Agent) (v mask : Word) : State :=
  if !agentTrusted a then accessError s a 0x900000
  else
    let old := reg s .errRing
    let new := if fget old F.errRingEn = 0 then regWriteWord .errRing old v mask else fwrite v mask old F.errRingEn
    if 4096 * fget new F.errRingBase + 64 * 2 ^ fget new F.errRingLog2n ≤ 0xF000000000 then setReg s .errRing 0 new
    else accessError s a 0x900000

/-- ERR_RING_WRITE (R464). -/
def execErrRingWrite (a : Agent) (v : Word) (s : State) : Host.Outcome State Fault Refusal := .next (mmioCmd s a 0x900000 (fun s => errRingWr s a v allMask))

/-- Whether an injection may be armed (R464): the debug policy is not 0 and ADDR lies in the target. -/
def injOk (s : State) (w : Word) : Bool :=
  decide (rf s .devBoot F.devBootDebug ≠ 0) &&
    (match physAt s (8 * fget w F.errInjAddr) with
      | .hbm => decide (fget w F.errInjTarget = 1)
      | .block _ _ => decide (fget w F.errInjTarget = 0)
      | _ => false)

/-- A write of ERR_INJ (R464; log 141): GO arms injection or sets REFUSED; a half with GO takes zero for the other half (R9). -/
def errInjWr (s : State) (a : Agent) (v mask : Word) : State :=
  if !agentTrusted a then accessError s a 0x900028
  else
    let old := reg s .errInj
    let v := v &&& mask
    let mask := if bit v 0 then allMask else mask
    let new := setBit (regWriteWord .errInj old v mask) 0 (bit old 0)
    if bit v 0 then
      if injOk s new then
        setReg { s with err := { s.err with armed := true } } .errInj 0 (setBit new 0 true)
      else setReg s .errInj 0 (setBit new 62 true)
    else setReg s .errInj 0 new

/-- ERR_INJ_GO (R464). -/
def execErrInjGo (a : Agent) (v : Word) (s : State) : Host.Outcome State Fault Refusal := .next (mmioCmd s a 0x900028 (fun s => errInjWr s a v allMask))

/-- INJECTED_ERROR_STORE (R464): the next write to the word stores it with the error. -/
def execInjectedErrorStore (data : Word) (s : State) : Host.Outcome State Fault Refusal :=
  .next (if s.err.armed then homeWrite s (8 * rf s .errInj F.errInjAddr) (leBytes data.toNat 8) else s)

/-! ## The counters' registers -/

/-- The core that PERF_CELLSEL selects for an agent. -/
def perfCell (s : State) (a : Agent) : Nat :=
  8 * selF s a .perfCellsel F.perfCellselBlock + selF s a .perfCellsel F.perfCellselCell

/-- The key of the counter that an agent has selected. -/
def perfSel (s : State) (a : Agent) : Nat := perfKey s (perfCell s a) (selF s a .perfCntsel F.perfCntselCnt)

/-- The event codes that R471 lists; a write of another leaves EVENT unchanged. -/
def eventCode (e : Nat) : Bool :=
  decide (e ≤ 3) || (decide (0x60 ≤ e) && decide (e ≤ 0x64)) || (decide (0x90 ≤ e) && decide (e ≤ 0xDF) && decide (e % 16 ≤ 12))

/-- A write of PERF_CNT or PERF_EVT (R476). -/
def perfWr (s : State) (a : Agent) (r : RegName) (off : Nat) (v mask : Word) : State :=
  if !agentAtLeast s a 1 then accessError s a off
  else if cellRetired s (perfCell s a) then s
  else
    let k := perfSel s a
    let old := reg s r k
    let new := regWriteWord r old v mask
    setReg s r k (if r = .perfEvt && !eventCode (fget new F.perfEvtEvent) then fput new F.perfEvtEvent (fget old F.perfEvtEvent) else new)

/-- PERF_CNT_WRITE (R474): the value is set, and counting resumes from it. -/
def execPerfCntWrite (a : Agent) (v : Word) (s : State) : Host.Outcome State Fault Refusal :=
  .next (mmioCmd s a 0xA00018 (fun s => perfWr s a .perfCnt 0xA00018 v allMask))

/-- A write of PERF_CFG (R475, R476). -/
def perfCfgWr (s : State) (a : Agent) (v mask : Word) : State :=
  if agentAtLeast s a 1 then setReg s .perfCfg 0 (regWriteWord .perfCfg (reg s .perfCfg) v mask) else accessError s a 0xA00020

/-- FREEZE (R475): every counter of the part stops, or restarts. -/
def execFreeze (a : Agent) (v : Word) (s : State) : Host.Outcome State Fault Refusal := .next (mmioCmd s a 0xA00020 (fun s => perfCfgWr s a v allMask))

/-- A write of PERF_DEADLINE (R468): a cell thread's own deadline; 0 disarms it. -/
def deadlineWr (s : State) (a : Agent) (v mask : Word) : State :=
  match a with
  | .thread t =>
    if t.val < 6144 then modThread s t (fun th => { th with deadline := (th.deadline &&& ~~~mask) ||| (v &&& mask) })
    else accessError s a 0xA00038
  | _ => accessError s a 0xA00038

/-- PERF_DEADLINE_WRITE (R468). -/
def execPerfDeadlineWrite (a : Agent) (v : Word) (s : State) : Host.Outcome State Fault Refusal := .next (mmioCmd s a 0xA00038 (fun s => deadlineWr s a v allMask))

end Sys2Proof.Machine
end

