-- ==== Sys2Proof/Machine/Mmio.lean ====
section
/-! DEFINITION. MMIO accesses (R7–R10, R81, R82, R487): width and alignment, the register an offset reaches, the instance a selection names, what a read returns, who may write, the action of a write. -/

namespace Sys2Proof.Machine

/-- Whether a register is a select register that every agent holds a copy of (R487). -/
def isSelect (r : RegName) : Bool :=
  [RegName.liningStacksel, .liningEngsel, .pegSel, .devTqsel, .rootLinksel, .ethPortsel, .powerRegsel,
   .powerChsel, .perfCellsel, .perfCntsel, .perfLcsel].contains r

/-- The two that the Mantle cores and the host alone hold (R259, R487). -/
def isHbmSelect (r : RegName) : Bool := decide (r = .hbmStacksel) || decide (r = .hbmChsel)

/-- The DMA unit of an offset (R355). -/
def dmaUnitOf (off : Nat) : DmaUnit :=
  if off < 0x110000 then .host else if off < 0x120000 then .stor else if off < 0x130000 then .seam else .reg

/-- The task queue that an agent has selected. -/
def tqSel (s : State) (a : Agent) : Nat := 64 * selF s a .devTqsel F.devTqselRegion + selF s a .devTqsel F.devTqselQueue

/-- The instance of a register that an access reaches: the selection of the agent, or the number in an array of registers. -/
def regInst (s : State) (a : Agent) (u : DmaUnit) (r : RegName) (j : Nat) : Nat :=
  match r with
  | .devBlkmap => rf s .devBlksel F.devBlkselBlock
  | .hbmStkstat => selStack s a
  | .hbmChstat => selChan s a
  | .hbmTgctl => selChan s a
  | .hbmTgstat => selChan s a
  | .hbmPart => partKey (selStack s a) j
  | .hbmRment => selStack s a * 512 + rf s .hbmRmsel F.hbmRmselEntry
  | .liningQstat => selF s a .liningStacksel F.liningStackselStack
  | .liningSdig => selF s a .liningStacksel F.liningStackselStack
  | .liningEngstat => 16 * selF s a .liningStacksel F.liningStackselStack + selF s a .liningEngsel F.liningEngselEngine
  | .dmaRing => dmaSelected s u a
  | .dmaPi => dmaSelected s u a
  | .dmaCi => dmaSelected s u a
  | .dmaChctl => dmaSelected s u a
  | .dmaPace => dmaSelected s u a
  | .dmaEngstat => dmaSelEngine s u a
  | .dmaErraddr => dmaSelEngine s u a
  | .pegGrp => selF s a .pegSel F.pegSelPeg / 64
  | .devTqstat => tqSel s a
  | .devTqcfg => tqSel s a
  | .rootLinkstat => selF s a .rootLinksel F.rootLinkselLink
  | .ethPortstat => selF s a .ethPortsel F.ethPortselPort
  | .powerRegstat => selF s a .powerRegsel F.powerRegselRegion
  | .powerChstat => selF s a .powerChsel F.powerChselChan
  | .collCnt => rf s .collCntsel F.collCntselEvent
  | .perfEvt => perfSel s a
  | .perfCnt => perfSel s a
  | _ => j

/-! ## Reads -/

/-- DEV_TQSTAT of a queue: QUEUED, HELD and BLOCKED as the queue stands (R349, R351). -/
def tqstatWord (s : State) (k : Nat) : Word :=
  let q := tqueue s k
  let w := setBits (reg s .devTqstat k) 7 0 (min 255 q.length)
  match q.head?.bind (fun e => e.words) with
  | some ws =>
    let held := decide (eligible s (k / 64) ws = .held)
    setBit (setBit w 8 held) 9 (!held && (taskTarget s k ws).isNone)
  | none => w

/-- LINING_QSTAT of a stack: QUEUED, ACTIVE, ENGINES and SHED as the stack stands (R289, R446). -/
def qstatWord (s : State) (k : Nat) : Word :=
  let x := lstack s k
  setBit (setBits (setBits (setBits (reg s .liningQstat k) 8 0 (min 256 x.queue.length)) 12 9 x.active.length) 20 16 (enginesOf s k))
    21 (decide (4 ≤ rf s .powerShed F.powerShedStage))

/-- HBM_STKSTAT of a stack: TEMP as its sensor reads once the stack has trained (R259). -/
def stkstatWord (s : State) (k : Nat) : Word :=
  if stackState s k < 2 then reg s .hbmStkstat k else setBits (reg s .hbmStkstat k) 22 16 (Config.dramTemp k (lcount s 12)).toNat

/-- FECUNC of a port: what its receiver has counted since the last read of the field, a free value (R388, log 4); none at the moment of that read itself (R10). -/
def fecCount (s : State) (p : Nat) : Nat :=
  match tget? s.net.fecAt p with
  | some t => if t = lcount s 12 then 0 else (Config.fecErrors p t (lcount s 12)).toNat
  | none => (Config.fecErrors p 0 (lcount s 12)).toNat

/-- ETH_PORTSTAT of a port: FECUNC counts once the ports have started (R388). -/
def portstatWord (s : State) (p : Nat) : Word :=
  if s.links.started then setBits (reg s .ethPortstat p) 63 32 (fecCount s p) else reg s .ethPortstat p

/-- SEAM_PEER: the partner's SERIAL while the link has it, else 0 (R392). -/
def seamPeerWord (s : State) : Word := if 4 ≤ seamState s ∧ seamState s ≤ 6 then reg s .seamPeer else 0

/-- The word that a read of a register returns, before its write-only fields are cleared. A cell thread holds no copy of the HBM selections (R487): it reads 0 from them, and through them stack 0 and channel 0 (log 102). -/
def readWord (s : State) (a : Agent) (u : DmaUnit) (r : RegName) (i : Nat) : Word :=
  match r with
  | .dmaChsel => dmaSel s u a
  | .devTqstat => tqstatWord s i
  | .liningQstat => qstatWord s i
  | .hbmStkstat => stkstatWord s i
  | .ethPortstat => portstatWord s i
  | .seamPeer => seamPeerWord s
  | .mantleNonce => wd (nonceNow s)
  | .pegVal => pegValRead s a
  | .perfEvt => if cellRetired s (perfCell s a) then 0 else reg s r i
  | .perfCnt => if cellRetired s (perfCell s a) then 0 else reg s r i
  | .perfLcount => lcount s (selF s a .perfLcsel F.perfLcselCtr)
  | .perfDeadline => match a with | .thread t => (if t.val < 6144 then (thread s t).deadline else 0) | _ => 0
  | _ => if isSelect r then selWord s a r
    else if isHbmSelect r then (if agentTrusted a then selWord s a r else 0)
    else reg s r i

/-- A configuration read through ROOT_CFGDATA: the device's answer is not the part's to fix: a free one (log 4). -/
def cfgRead (s : State) (a : Agent) : Word × State :=
  let (f, s) := drawFree s
  let l := selF s a .rootLinksel F.rootLinkselLink
  if linkF s F.rootLinkstatState l = 3 && bit f 32 then (wd (f.toNat % 2 ^ 32), s)
  else (0xFFFFFFFF, setLinkF s F.rootLinkstatCfgerr 1 l)

/-- The bits of a 64-bit register that an access covers. -/
def halfMask (off bytes : Nat) : Word :=
  if bytes = 8 then allMask else if off % 8 = 0 then 0xFFFFFFFF else 0xFFFFFFFF00000000

/-- The value of an access's half. -/
def halfOf (off bytes : Nat) (w : Word) : Word :=
  if bytes = 8 then w else if off % 8 = 0 then wd (bits w 31 0) else wd (bits w 63 32)

/-- The bytes of a byte array under an access. -/
def bufWord (t : Table Byte) (off bytes : Nat) : Word := wd (ofLE ((List.range bytes).map (fun i => tget 0 t (off + i))))

/-- A byte array with an access's bytes written. -/
def bufPut (t : Table Byte) (off bytes : Nat) (v : Word) : Table Byte :=
  ((leBytes v.toNat bytes).zip (List.range bytes)).foldl (fun m p => tset 0 m (off + p.2) p.1) t

/-- What a read of a half clears that no register word holds: FECUNC counts from now on (R10, R388). -/
def fecRead (s : State) (r : RegName) (i : Nat) (mask : Word) : State :=
  if r = .ethPortstat && bit mask 32 && s.links.started then { s with net := { s.net with fecAt := tins i (lcount s 12) s.net.fecAt } } else s

/-- A read of a register (R7, R9, R10): its fields, RC fields of the half cleared with it. -/
def regRead (s : State) (a : Agent) (off bytes : Nat) (r : RegName) (j : Nat) : Word × State :=
  if r = .rootCfgdata then (let (w, s) := cfgRead s a; (halfOf off bytes w, s))
  else
    let u := dmaUnitOf off
    let i := regInst s a u r j
    let w := regReadWord r (readWord s a u r i)
    let old := reg s r i
    let new := regReadClear r old (halfMask off bytes)
    (halfOf off bytes w, fecRead (if new = old then s else setReg s r i new) r i (halfMask off bytes))

/-- Where the offsets of the host's accesses go on with BAR4 (R374, log 127): above those of BAR0. -/
def bar4Base : Nat := 0x4000000
def inBar4 (a : Agent) (off : Nat) : Bool := decide (a = .host) && decide (bar4Base ≤ off) && decide (off < bar4Base + 0x20000)

/-- The register that BAR4's pages show at offset 0: DMA_PI of the host channels (R356, R374). -/
def bar4Reg : Nat := unitBase .host + 0x10

/-- A BAR4 read: DMA_PI of the page's channel, zero elsewhere (R374). -/
def bar4Read (s : State) (o bytes : Nat) : Word × State :=
  if (bytes ≠ 4 ∧ bytes ≠ 8) ∨ o % bytes ≠ 0 then (0, accessErrorBar s 4 bar4Reg)
  else if o % 4096 = 0 ∧ mmioReads s bar4Reg then (halfOf o bytes (regReadWord .dmaPi (reg s .dmaPi (o / 4096))), s)
  else (0, s)

/-- The value an MMIO read returns. -/
def mmioRead (a : Agent) (off bytes : Nat) (s : State) : Word × State :=
  if inBar4 a off then bar4Read s (off - bar4Base) bytes
  else if (bytes ≠ 4 ∧ bytes ≠ 8) ∨ off % bytes ≠ 0 then (0, accessError s a off)
  else if !mmioReads s off then (0, s)
  else if 0x8000 ≤ off ∧ off < 0x9000 then (halfOf off bytes (msixWord s ((off - 0x8000) / 8)), s)
  else if 0x9000 ≤ off ∧ off < 0x9020 then (wd ((s.pba.toNat >>> (8 * (off - 0x9000))) % 2 ^ (8 * bytes)), s)
  else if 0x11000 ≤ off ∧ off < 0x12000 then (if a = .host then bufWord s.mantle.box (off - 0x11000) bytes else 0, s)
  else if 0xB01000 ≤ off ∧ off < 0xB02000 then (bufWord s.boot.flbuf (off - 0xB01000) bytes, s)
  else
    match regAt (off / 8 * 8) with
    | some (r, j) => regRead s a off bytes r j
    | none => (0, accessError s a off)

/-! ## Writes -/

/-- What the rules say of a write by an agent: performed, ignored, or discarded and recorded as an access error. -/
inductive WriteRule where
  | allow
  | ignore
  | record
  deriving DecidableEq, Repr

/-- Allowed or recorded. -/
def allowIf (b : Bool) : WriteRule := if b then .allow else .record

/-- Allowed or ignored. -/
def ignoreIf (b : Bool) : WriteRule := if b then .allow else .ignore

/-- What the spec says of a plain write of a register by an agent: R85, R102, R259, R289, R314, R347, R361, R371, R383, R399, R431, R453, R464, R476. A register that only the part writes ignores it (R7). -/
def writeRule (s : State) (a : Agent) (r : RegName) : WriteRule :=
  match r with
  | .devIdent | .devActive | .devBlkmap | .devEpoch | .devBmcfg => .ignore
  | .devBlksel | .mantleCores => .allow
  | .devAstbase => ignoreIf (agentTrusted a)
  | .devTlbstat => ignoreIf (agentAtLeast s a 1)
  | .liningQstat | .liningSdig | .liningEngstat => .ignore
  | .dmaCi | .dmaEngstat | .dmaErraddr => allowIf (agentAtLeast s a 1)
  | .devTqstat | .powerChstat | .powerAvg | .powerShed | .perfLcount => .record
  | .rootLinkstat | .rootCfgaddr | .ethPortstat | .seamStat | .seamPeer => ignoreIf (agentTrusted a)
  | .mantleMbstat | .mantleMbcfg => ignoreIf (decide (a = .host))
  | .mantleNonce | .mantleHeart => .ignore
  | .powerAvglim => allowIf (agentMantle a)
  | _ => allowIf (agentTrusted a)

/-- What remains open of a plain write that the agent may make: fields the hem or the collective engine holds fixed (R314, R347), BAR2's base (R374). -/
def holdsFixed (s : State) (r : RegName) (new : Word) : Bool :=
  match r with
  | .devHemcfg | .devHemasid | .devHeminit => decide (hemState s ≠ 0)
  | .collJob | .collJobid | .collRootgid | .collRtbase | .collBtbase => decide (collState s ≠ 0) && decide (collState s ≠ 6)
  | .devPciewin => decide (fget new F.devPciewinBar2base % s.links.bar2Gib ≠ 0)
  | _ => false

/-- A plain write of a register's fields (R7, R8). -/
def plainWrite (s : State) (a : Agent) (off : Nat) (r : RegName) (i : Nat) (v mask : Word) : State :=
  match writeRule s a r with
  | .ignore => s
  | .record => accessError s a off
  | .allow =>
    let new := regWriteWord r (reg s r i) v mask
    if holdsFixed s r new then s else setReg s r i new

/-- The bits of a register's RW fields. -/
def rwBits (r : RegName) : Word := (regFields r).foldl (fun m f => if f.acc = .rw then m ||| fmask 64 f.hi f.lo else m) 0#64

/-- The full word that a write of a half stands for when it starts no action (R9): an RW field of the other half keeps its value. -/
def mergeWord (r : RegName) (old v mask : Word) : Word := (v &&& mask) ||| (old &&& rwBits r &&& ~~~mask)

/-- A write of COLL_CTL: ROLLTO, then CANCEL, then ROLLCALL. -/
def collCtlWrite (s : State) (a : Agent) (v mask : Word) : State :=
  if !agentTrusted a then accessError s a 0x400000
  else
    let s := setReg s .collCtl 0 (regWriteWord .collCtl (reg s .collCtl) v mask)
    let s := if fget (v &&& mask) F.collCtlCancel = 1 then cancelWrite s a else s
    if fget (v &&& mask) F.collCtlRollcall = 1 then rollcallWrite s a else s

/-- A write of HBM_STKSTAT: ERR's clear, MAINT. -/
def stkstatWrite (s : State) (a : Agent) (w : Word) : State :=
  trustedWrite s a 0x200010 (fun s =>
    let s := if fget w F.hbmStkstatErr = 1 then setRf s .hbmStkstat F.hbmStkstatErr 0 (selStack s a) else s
    setMaint s (selStack s a) (decide (fget w F.hbmStkstatMaint = 1)))

/-- A write of ROOT_LINKSTAT: the W1C bits, POWER (R383). -/
def linkstatWrite (s : State) (a : Agent) (l : Nat) (v mask w : Word) : State :=
  if agentTrusted a then
    linkPowerWrite (setReg s .rootLinkstat l (regWriteWord .rootLinkstat (reg s .rootLinkstat l) (v &&& ~~~1#64) mask)) l (fget w F.rootLinkstatPower)
  else s

/-- A write of CAP (R439, R453): the region comes down to it at once. -/
def capWrite (s : State) (a : Agent) (r : Nat) (v mask : Word) : State :=
  if agentTrusted a then settleDown (setReg s .powerRegstat r (regWriteWord .powerRegstat (reg s .powerRegstat r) v mask)) r
  else accessError s a 0x800008

/-- A configuration write through ROOT_CFGDATA: whether the device takes it is free (log 4). -/
def cfgWrite (s : State) (a : Agent) (v : Word) : State :=
  let (f, s) := drawFree s
  rootCfg s a (some (BitVec.ofNat 32 v.toNat)) (if bit f 0 then some 0 else none)

/-- The half of a 64-bit register that an access reaches. -/
def accessHalf (off bytes : Nat) : Half := if bytes = 8 then .full else if off % 8 = 0 then .low else .high

/-- A DMA_CHSEL written: CH 16–31 is reserved on every unit but the host's, and leaves the field (R8, R361). -/
def chselWord (u : DmaUnit) (old new : Word) : Word :=
  if decide (u ≠ .host) && decide (16 ≤ fget new F.dmaChselCh) then fput new F.dmaChselCh (fget old F.dmaChselCh) else new

/-- A write of a register: its action, with the other half of the value taken as zero (R9), or its fields. -/
def regWrite (s : State) (a : Agent) (off bytes : Nat) (r : RegName) (j : Nat) (v : Word) : State :=
  let u := dmaUnitOf off
  let i := regInst s a u r j
  let mask := halfMask off bytes
  let v64 := (if bytes = 4 ∧ off % 8 ≠ 0 then v <<< 32 else v) &&& mask
  let w := mergeWord r (reg s r i) v64 mask
  match r with
  | .dmaChsel => setDmaSel s u a (chselWord u (dmaSel s u a) (regWriteWord .dmaChsel (dmaSel s u a) v64 mask))
  | .liningQpush => qpushWrite s a v64
  | .devHemctl => hemctlWrite s a v64
  | .devHemxdig => hemxdigWrite s a v64
  | .collCtl => collCtlWrite s a v64 mask
  | .collPost => collPostWrite s a v64
  | .dmaRing => ringWrite s a u w
  | .dmaPi => piWrite s a u none v64
  | .dmaChctl => chctlWrite s a u w
  | .dmaPace => paceWrite s a u w
  | .pegVal => pegValWrite s a (accessHalf off bytes) v
  | .pegAdd => pegAddWrite s a (accessHalf off bytes) v
  | .devTqpush => tqpushWrite s a v64
  | .devClk => clkWrite s a w
  | .devTlbinv => tlbinvWrite s a (if fget v64 F.devTlbinvGo = 1 then v64 else w)
  | .hbmStkstat => stkstatWrite s a w
  | .hbmPart => trustedWrite s a off (fun s => setPart s (selStack s a) j w)
  | .hbmTgctl => trustedWrite s a off (fun s => tgctlWrite s (selChan s a) (if fget v64 F.hbmTgctlGo = 1 then v64 else w))
  | .rootLinkstat => linkstatWrite s a i v64 mask w
  | .rootCfgdata => cfgWrite s a v64
  | .mantleMbdoor => if a = .host then doorbell s (fget v64 F.mantleMbdoorSlot) else s
  | .mantleIrqpost => irqpost s a v64
  | .trustFlctl => flctlWrite s a w
  | .trustPref => prefWrite s a w
  | .trustEnroll => enrollWrite s a v64
  | .powerRegstat => capWrite s a i v64 mask
  | .errRing => errRingWr s a v64 mask
  | .errInj => errInjWr s a v64 mask
  | .perfEvt => perfWr s a .perfEvt off v64 mask
  | .perfCnt => perfWr s a .perfCnt off v64 mask
  | .perfCfg => perfCfgWr s a v64 mask
  | .perfDeadline => deadlineWr s a v64 mask
  | _ =>
    if isSelect r then setSel s a r (regWriteWord r (selWord s a r) v64 mask)
    else if isHbmSelect r then
      (if agentTrusted a then setSel s a r (regWriteWord r (selWord s a r) v64 mask) else accessError s a off)
    else plainWrite s a off r i v64 mask

/-- A write of the MSI-X table (R375): address and data words, the mask bit; a message waiting leaves as the mask clears. -/
def msixWrite (s : State) (a : Agent) (off bytes : Nat) (v : Word) : State :=
  if a ≠ .host then s
  else
    let k := (off - 0x8000) / 8
    let mask := halfMask off bytes &&& (if k % 2 = 1 then 0x1FFFFFFFF else ~~~3#64)
    let v64 := if bytes = 4 ∧ off % 8 ≠ 0 then v <<< 32 else v
    let d : Word := if k % 2 = 1 then 0x100000000 else 0
    msixFlush { s with msix := tset d s.msix k ((msixWord s k &&& ~~~mask) ||| (v64 &&& mask)) } (k / 2)

/-- An MMIO write that the part's state admits. -/
def mmioPut (s : State) (a : Agent) (off bytes : Nat) (v : Word) : State :=
  if 0x8000 ≤ off ∧ off < 0x9000 then msixWrite s a off bytes v
  else if 0x9000 ≤ off ∧ off < 0x9020 then s
  else if 0x11000 ≤ off ∧ off < 0x12000 then
    (if a = .host then { s with mantle := { s.mantle with box := bufPut s.mantle.box (off - 0x11000) bytes v } } else s)
  else if 0xB01000 ≤ off ∧ off < 0xB02000 then
    trustedWrite s a off (fun s => { s with boot := { s.boot with flbuf := bufPut s.boot.flbuf (off - 0xB01000) bytes v } })
  else
    match regAt (off / 8 * 8) with
    | some (r, j) => regWrite s a off bytes r j v
    | none => accessError s a off

/-- A BAR4 write: the doorbell of the page's channel, discarded elsewhere; a refused one names the BAR (R356, R374, R421). -/
def bar4Write (s : State) (o bytes : Nat) (v : Word) : State :=
  if (bytes ≠ 4 ∧ bytes ≠ 8) ∨ o % bytes ≠ 0 then accessErrorBar s 4 bar4Reg
  else if o % 4096 ≠ 0 ∨ s.power.down then s
  else if rf s .devBoot F.devBootStage = 10 then accessErrorBar s 4 bar4Reg
  else mmioGate s .host bar4Reg (fun s => piWrite s .host .host (some (Fin.ofNat 32 (o / 4096))) v)

/-- An MMIO write. Where R421 limits writes, the one field of DEV_BOOT that a write changes is RECFULL. -/
def mmioWrite (a : Agent) (off bytes : Nat) (v : Word) (s : State) : State :=
  if inBar4 a off then bar4Write s (off - bar4Base) bytes v
  else if (bytes ≠ 4 ∧ bytes ≠ 8) ∨ off % bytes ≠ 0 then accessError s a off
  else mmioGate s a off (fun s => mmioPut s a off bytes v)

end Sys2Proof.Machine
end

