-- ==== Sys2Proof/Machine/CellMem.lean ====
section
/-! DEFINITION. A cell's accesses to memory: the write buffer, the miss registers, loads and stores, their performing at the home, releases (R43–R53, R222–R238). -/

namespace Sys2Proof.Machine

/-- The byte mask of n bytes at an offset of a line. -/
def byteMask (off n : Nat) : BitVec 128 := BitVec.ofNat 128 ((2 ^ n - 1) <<< off)

/-- The n bytes at an offset of a write-buffer entry. -/
def wbBytes (e : WbEnt) (off n : Nat) : List Byte := leBytes (e.data.toNat >>> (8 * off)) n

/-- The maximal runs of valid bytes of a write-buffer entry: (offset, bytes), one byte each run piece. -/
def wbRuns (e : WbEnt) : List (Nat × List Byte) :=
  ((List.range 128).foldr (fun i (acc : List (Nat × List Byte)) =>
    if bit e.mask i then
      match acc with
      | (o, bs) :: rest => if o = i + 1 then (i, wbBytes e i 1 ++ bs) :: rest else (i, wbBytes e i 1) :: acc
      | [] => [(i, wbBytes e i 1)]
    else acc) [])

/-- A thread as the agent of an MMIO access made by a core's thread. -/
def coreAgent (c : Nat) (thr : Fin 8) : Agent := agentOfTid (tidOf c thr.val)

/-- A failed outbound access of a core: recorded, with the root link whose window it names (R378, R459). -/
def outboundFailed (s : State) (pa : Nat) : State :=
  report s (if windowKind pa = 0 then mkErr 0x52 0xFF 0 0 (wd pa) else mkErr 0x52 11 (windowLink s pa) 0 (wd pa))

/-- An access of a thread made at a level it had then (R488). -/
def atLevel {α : Type} (t : Tid) (l : BitVec 2) (f : State → α × State) (s : State) : α × State :=
  let old := (thread s t).level
  if old = l then f s
  else
    let (v, s) := f (modThread s t (fun th => { th with level := l }))
    (v, if (thread s t).level = l then modThread s t (fun th => { th with level := old }) else s)

/-- An access of a thread made in the SPEC state that its instruction latched (R93, R300). -/
def asSpec (t : Tid) (sp : Option (BitVec 48)) (f : State → State) (s : State) : State :=
  let old := (thread s t).spec
  if old = sp then f s
  else
    let s := f (modThread s t (fun th => { th with spec := sp }))
    if (thread s t).spec = sp then modThread s t (fun th => { th with spec := old }) else s

/-- A write-buffer entry performed at its home or its target (R50): the register of an MMIO store, the window, or the line. -/
def performEnt (s : State) (c : Nat) (e : WbEnt) : State :=
  (wbRuns e).foldl (fun s (r : Nat × List Byte) =>
    let pa := lineBase e.line + r.1
    match physAt s pa with
    | .mmio off => asSpec (tidOf c e.owner.val) e.spec (fun s =>
        (atLevel (tidOf c e.owner.val) e.level (fun s => ((), mmioWrite (coreAgent c e.owner) off r.2.length (wd (ofLE r.2)) s)) s).2) s
    | .window => if windowUp s pa then emit s (.hostWrite (busOf s pa) r.2 false) else outboundFailed s pa
    | .hbm => homeWriteFrom s (dieOfCore c) pa r.2
    | .block _ _ => homeWriteFrom s (dieOfCore c) pa r.2
    | .hole => s) s

/-- Whether a load covers a byte of an entry. -/
def loadMeets (e : WbEnt) (l : LoadReq) : Bool :=
  decide (l.thr = e.owner) && decide (l.pa / 128 = e.line) && decide (byteMask (l.pa % 128) l.bytes &&& e.mask ≠ 0)

/-- Whether an earlier access of the same thread to bytes of the entry has not been served (R49 rule 1): a load, or a line that its vector or tile pipe waits for, on its way or held. -/
def olderLoad (x : CellS) (e : WbEnt) : Bool :=
  x.mshrs.any (fun m => m.loads.any (fun l => l.got.isNone && loadMeets e l)
      || (decide (m.line = e.line) && m.served.isNone && m.pipes.contains e.owner))
    || x.loads.any (fun l => l.got.isNone && loadMeets e l)
    || x.slots.any (fun m => decide (m.line = e.line) && m.served.isNone && decide (m.thr = e.owner))
    || x.held.any (fun h => decide (h.kind = .element) && decide (h.line = e.line) && decide (h.load.thr = e.owner))

/-- A freed write-buffer entry lets the stores that wait for one go on (R225). -/
def wakeStores (s : State) (c : Nat) : State :=
  (tidsOf c).foldl (fun s t => if (thread s t).st = .waiting .store then modThread s t (fun th => { th with st := .ready }) else s) s

/-- The bytes of a write-buffer entry laid over a line. -/
def layEntry (e : WbEnt) (b : Line) : Line := (wbRuns e).foldl (fun b r => overlay b r.1 r.2 false) b

/-- The i-th write-buffer entry performed and freed (R50, R225). A line that the cell has been served and has still to install takes its bytes too (R226). -/
def performAt (s : State) (c i : Nat) : State :=
  match (cell s c).wb[i]? with
  | some e =>
    let s := modCell s c (fun x => { x with
      wb := x.wb.eraseIdx i, mshrs := x.mshrs.map (fun m => if m.line = e.line then { m with served := m.served.map (layEntry e) } else m) })
    performEnt (wakeStores s c) c e
  | none => s

/-- Whether a register is PEG_VAL or PEG_ADD: a thread's write of it is a release, and its read of PEG_VAL an acquire (R366, R371). -/
def isPegReg (off : Nat) : Bool := decide (off / 8 * 8 = 0x20008) || decide (off / 8 * 8 = 0x20010)

/-- Whether a write-buffer entry is such a write. -/
def relEnt (s : State) (e : WbEnt) : Bool :=
  e.device && (wbRuns e).any (fun r => match physAt s (lineBase e.line + r.1) with | .mmio off => isPegReg off | _ => false)

/-! ## Loads arriving -/

/-- A load's value from the bytes at its place (R43). -/
def loadValue (l : LoadReq) (bs : List Byte) : Word :=
  if l.signed then sext (8 * l.bytes) (ofLE bs) else wd (ofLE bs)

/-- A checkpoint that an arriving older result reaches too (R33). -/
def DecEntry.takeReg (rd : Reg) (v : Word) (e : DecEntry) : DecEntry :=
  if bit e.busy rd.toNat then
    { e with regs := if rd = 0 then e.regs else tset 0 e.regs rd.toNat v, busy := setBit e.busy rd.toNat false }
  else e

/-- A result written to its register, which is no longer busy (R32). -/
def arriveReg (th : Thread) (rd : Reg) (v : Word) : Thread :=
  { xset th rd v with
    busy := setBit th.busy rd.toNat false, vq := th.vq.map (DecEntry.takeReg rd v), tq := th.tq.map (DecEntry.takeReg rd v) }

/-- The unresolved decoupled instruction of a thread: the point the window goes back to (R33, R71). A younger decoupled instruction waits for it (R33), so there is at most one. -/
def oldestUnresolved (th : Thread) : Option DecEntry := (th.vq ++ th.tq).find? (fun e => !e.resolved)

/-- A thread that waits for a miss register no more, since its request is gone. -/
def unheld (th : Thread) : Thread := if th.st = .waiting .miss then { th with st := .ready } else th

/-- The thread as it stood before its oldest unresolved decoupled instruction: registers, marks and pc of that issue, an empty window, none of the loads that came after it (R33, R71). With none, requests still held for a miss register are dropped. -/
def rollBack (s : State) (t : Tid) : State :=
  match oldestUnresolved (thread s t) with
  | some e =>
    let s := modThread s t (fun th => unheld { th with
      regs := e.regs, busy := e.busy, pc := e.pc, hold := [], younger := 0, late := none,
      vq := th.vq.filter (fun o => o.resolved), tq := th.tq.filter (fun o => o.resolved) })
    modCell s (cellOf t) (dropLoads (thrOf t) e.mark)
  | none => modCell (modThread s t unheld) (cellOf t) (fun x => dropLoads (thrOf t) x.accNo x)

/-- Of a thread's poison faults the one of the older load (R33). -/
def olderFault (a : Option LateFault) (b : LateFault) : LateFault :=
  match a with
  | some x => if x.seq ≤ b.seq then x else b
  | none => b

/-- A load that reads a poisoned word (R44): its register stays and is no longer busy; its exception waits for its boundary (log 15). -/
def poisonReg (th : Thread) (l : LoadReq) : Thread :=
  let free (e : DecEntry) : DecEntry := { e with busy := setBit e.busy l.rd.toNat false }
  { th with busy := setBit th.busy l.rd.toNat false, late := some (olderFault th.late { seq := l.seq, pc := l.pc, va := l.va &&& ~~~7#64 }),
            vq := th.vq.map free, tq := th.tq.map free }

/-- Whether a load of a thread numbered below n has not delivered its value. -/
def loadsBefore (s : State) (t : Tid) (n : Nat) : Bool :=
  let mine (l : LoadReq) : Bool := decide (l.thr.val = thrOf t) && decide (l.seq < n)
  (cell s (cellOf t)).mshrs.any (fun m => m.loads.any mine) || (cell s (cellOf t)).loads.any mine

/-- Whether an entry of a thread may be made now: every load before the boundary has delivered its value or met its own fault, since the oldest exception is the one reported (R33, R44), and s2, which the entry exchanges, awaits no result (R32, R67). -/
def entryReady (s : State) (t : Tid) : Bool :=
  match oldestUnresolved (thread s t) with
  | some e => !loadsBefore s t e.mark && !bit e.busy 2
  | none => !loadsBefore s t (cell s (cellOf t)).accNo && !bit (thread s t).busy 2

/-- A load's value written to its register. -/
def deliver (s : State) (c : Nat) (l : LoadReq) (v : Word) : State :=
  modThread s (tidOf c l.thr.val) (fun th => arriveReg th l.rd v)

/-- A load takes its bytes from a line as its home served it, or meets its poison (R44, R50): one older than the unresolved instruction takes that back too (R33). -/
def deliverLine (s : State) (c : Nat) (l : LoadReq) (b : Line) : State :=
  let t := tidOf c l.thr.val
  if linePoison b (l.pa % 128) l.bytes then
    let s := if (oldestUnresolved (thread s t)).elim false (fun e => decide (l.seq < e.mark)) then rollBack s t else s
    modThread s t (fun th => poisonReg th l)
  else deliver s c l (loadValue l (lineBytes b (l.pa % 128) l.bytes))

/-- A miss register served by its home now: its loads that no earlier moment has served take this one (R50). -/
def serveMiss (s : State) (c i : Nat) : State :=
  match (cell s c).mshrs[i]? with
  | some m =>
    if m.served.isSome then s
    else
      let (x, s) := readLineFrom s (dieOfCore c) m.line
      modCell s c (fun y => { y with mshrs := y.mshrs.set i { m with
        served := some x, loads := m.loads.map (fun l => { l with got := l.got.or (some x) }) } })
  | none => s

/-- An uncached load of memory served by its home now (R50). -/
def serveLoad (s : State) (c i : Nat) : State :=
  match (cell s c).loads[i]? with
  | some l =>
    if l.device || l.got.isSome then s
    else
      let (x, s) := readLineFrom s (dieOfCore c) (l.pa / 128)
      modCell s c (fun y => { y with loads := y.loads.set i { l with got := some x } })
  | none => s

/-- A slot of the tile memory pipe served by its home now (R233). -/
def serveSlot (s : State) (c i : Nat) : State :=
  match (cell s c).slots[i]? with
  | some m =>
    if m.served.isSome then s
    else
      let (x, s) := readLineFrom s (dieOfCore c) m.line
      modCell s c (fun y => { y with slots := y.slots.set i { m with served := some x } })
  | none => s

/-- The bytes of a cell's open entries for a line laid over it before it becomes readable (R226). -/
def applyOpen (x : CellS) (l : Nat) (b : Line) : Line :=
  (x.wb.filter (fun e => decide (e.line = l) && !e.device)).foldl (fun b e => layEntry e b) b

/-- A line handed to the instructions of a thread's vector pipe that have begun, or to the tile instruction that asked for it (R229, R233). -/
def takeLine (p : DecEntry → Bool) (l : Nat) (b : Line) (q : List DecEntry) : List DecEntry :=
  q.map (fun e => if e.at'.isSome && p e then { e with lines := tins l b e.lines } else e)

/-- A served miss register's fill (R226, R228, R230): the loads and the vector pipes that wait take the line as served, the L1 takes it with the open entries' bytes, unless a flash invalidation has passed; `bad` names the words whose parity will be wrong (R222). The register is freed. -/
def fillMiss (s : State) (c i : Nat) (bad : BitVec 32) : State :=
  match (cell s c).mshrs[i]? with
  | some m =>
    match m.served with
    | some b =>
      let s := modCell s c (fun y => { y with mshrs := y.mshrs.eraseIdx i })
      let s := m.loads.foldl (fun s l => deliverLine s c l (l.got.getD b)) s
      let s := m.pipes.foldl (fun s j => modThread s (tidOf c j.val) (fun th => { th with vq := takeLine (fun _ => true) m.line b th.vq })) s
      if m.install then
        l1Fill s c { line := m.line, body := applyOpen (cell s c) m.line b, pmark := if m.loads.isEmpty && m.pipes.isEmpty then m.stream else none, bad := bad }
      else s
    | none => s
  | none => s

/-- A served slot's line arrives in the tile memory pipe, and the slot is free (R233). -/
def fillSlot (s : State) (c i : Nat) : State :=
  match (cell s c).slots[i]? with
  | some m =>
    match m.served with
    | some b =>
      let s := modCell s c (fun y => { y with slots := y.slots.eraseIdx i })
      modThread s (tidOf c m.thr.val) (fun th => { th with tq := takeLine (fun e => decide (e.ask = m.mark)) m.line b th.tq })
    | none => s
  | none => s

/-- An outstanding load of the aperture, the MMIO range or a window performed at its target and delivered (R45, R50). -/
def performLoad (s : State) (c i : Nat) : State :=
  match (cell s c).loads[i]? with
  | some l =>
    let s := modCell s c (fun y => { y with loads := y.loads.eraseIdx i })
    match physAt s l.pa with
    | .mmio off =>
      let (v, s) := atLevel (tidOf c l.thr.val) l.level (mmioRead (coreAgent c l.thr) off l.bytes) s
      let s := if off / 8 * 8 = 0x20008 then acquire s c else s
      deliver s c l (loadValue l (leBytes v.toNat l.bytes))
    | .window =>
      if windowUp s l.pa then
        let (v, s) := drawFree (emit s (.hostRead (busOf s l.pa) l.bytes))
        deliver s c l (loadValue l (leBytes v.toNat l.bytes))
      else deliver (outboundFailed s l.pa) c l (loadValue l (List.replicate l.bytes 0xFF))
    | _ =>
      match l.got with
      | some b => deliverLine s c l b
      | none => let (b, s) := readLineFrom s (dieOfCore c) (l.pa / 128); deliverLine s c l b
  | none => s

/-! ## Loads served ahead of their moment -/

/-- The loads of a kind that wait, served by their homes, and the lines of the same kind that the tile pipe waits for. -/
def serveLoads (s : State) (c : Nat) (p : Nat → Nat → Bool) : State :=
  let x := cell s c
  let s := (List.range x.mshrs.length).foldl (fun s i =>
    match (cell s c).mshrs[i]? with
    | some m => if m.served.isNone && (m.loads.any (fun l => l.got.isNone && p l.thr.val m.line) || m.pipes.any (fun j => p j.val m.line)) then serveMiss (stackServed s c m.line m.no) c i else s
    | none => s) s
  let s := (List.range x.loads.length).foldl (fun s i =>
    match (cell s c).loads[i]? with
    | some l => if p l.thr.val (l.pa / 128) then serveLoad s c i else s
    | none => s) s
  (List.range x.slots.length).foldl (fun s i =>
    match (cell s c).slots[i]? with
    | some m => if p m.thr.val m.line && m.served.isNone then serveSlot (stackServed s c m.line m.no) c i else s
    | none => s) s

/-! ## Device accesses in program order (R45) -/

/-- Whether a device access of a thread waits for an earlier one. -/
def deviceWaits (s : State) (c : Nat) (thr : Fin 8) (n : Nat) : Bool :=
  let x := cell s c
  x.loads.any (fun l => l.device && decide (l.thr = thr) && decide (l.seq < n))
    || x.wb.any (fun e => e.device && decide (e.owner = thr) && decide (e.seq < n)) || pushHeld s (tidOf c thr.val)

/-- The j-th entry performed, a device's; for one that is a release the thread's accesses before it are performed first (R49 rule 4, R371). -/
def performDevice (s : State) (c j : Nat) : State :=
  match (cell s c).wb[j]? with
  | some e =>
    if relEnt s e then
      let s := serveLoads s c (fun k _ => decide (k = e.owner.val))
      let n := ((cell s c).wb.take j).foldl (fun n (o : WbEnt) => if o.owner = e.owner then n + 1 else n) 0
      performAt ((List.range n).foldl (fun s _ =>
        match (cell s c).wb.findIdx? (fun o => decide (o.owner = e.owner)) with
        | some i => performAt s c i
        | none => s) s) c (j - n)
    else performAt s c j
  | none => s

/-- The first device access of a thread performed, if it comes before number n. -/
def deviceStep (s : State) (c thr n : Nat) : State :=
  let x := cell s c
  let l := x.loads.findIdx? (fun l => l.device && decide (l.thr.val = thr) && decide (l.seq < n))
  let e := x.wb.findIdx? (fun e => e.device && decide (e.owner.val = thr) && decide (e.seq < n))
  match l, e with
  | some i, some j =>
    if ((x.loads[i]?).elim 0 (fun l => l.seq)) < ((x.wb[j]?).elim 0 (fun e => e.seq)) then performLoad s c i else performDevice s c j
  | some i, none => performLoad s c i
  | none, some j => performDevice s c j
  | none, none => s

/-- The device accesses of a thread before number n performed in program order. -/
def finishDevices (s : State) (c thr n : Nat) : State :=
  (List.range ((cell s c).loads.length + (cell s c).wb.length)).foldl (fun s _ => deviceStep s c thr n) s

/-! ## Waiting for a home (R18, R23, R246, R255, R257) -/

/-- Every store of a thread drained and performed, oldest first (R50, R225). -/
def settleStores (s : State) (c : Nat) (thr : Nat) : State :=
  (List.range (cell s c).wb.length).foldl (fun s _ =>
    match (cell s c).wb.findIdx? (fun e => decide (e.owner.val = thr)) with
    | some i => performAt s c i
    | none => s) s

/-- Stores of a thread to one line performed, after its earlier loads of the line (R49 rule 1, R226). -/
def settleLine (s : State) (c thr l : Nat) : State :=
  (List.range (cell s c).wb.length).foldl (fun s _ =>
    match (cell s c).wb.findIdx? (fun e => decide (e.owner.val = thr) && decide (e.line = l)) with
    | some i => performAt s c i
    | none => s) (serveLoads s c (fun j k => decide (j = thr) && decide (k = l)))

/-- A thread's access whose home or stack does not take it yet: it starts the PLLs that its lines find stopped (R23), and the thread waits. -/
def waitHome (s : State) (t : Tid) (ls : List Nat) : State := modThread (startLines s ls) t (fun th => { th with st := .waiting .home })

/-- The threads of a core that wait for a home try again. -/
def wakeHomes (s : State) (c : Nat) : State :=
  (tidsOf c).foldl (fun s t => if (thread s t).st = .waiting .home then modThread s t (fun th => { th with st := .ready }) else s) s

/-- The lines of a thread's accesses that a release waits for and that their homes do not take now: its stores at a crossing that is not clocked, its loads there or at the stack (R18, R23, R246, R255). -/
def releaseNeeds (s : State) (t : Tid) : List Nat :=
  let x := cell s (cellOf t)
  let own (j : Fin 8) : Bool := decide (j.val = thrOf t)
  let waits (l no : Nat) : Bool := !homeClocked s l || !stackServes s (cellOf t) l no
  ((x.wb.filter (fun e => own e.owner && !e.device && !homeClocked s e.line)).map (fun e => e.line))
    ++ ((x.mshrs.filter (fun m => m.served.isNone && (m.loads.any (fun l => own l.thr && l.got.isNone) || m.pipes.any own) && waits m.line m.no)).map (fun m => m.line))
    ++ ((x.loads.filter (fun l => own l.thr && !l.device && l.got.isNone && !homeClocked s (l.pa / 128))).map (fun l => l.pa / 128))
    ++ ((x.slots.filter (fun m => own m.thr && m.served.isNone && waits m.line m.no)).map (fun m => m.line))

/-- Whether everything a release waits for can be performed now: no push held, no resolved instruction of a unit still at work (R180, R205, R264), no access that its home does not take. -/
def releaseReady (s : State) (t : Tid) : Bool :=
  !pushHeld s t && !((thread s t).vq ++ (thread s t).tq).any (fun e => e.runs) && (releaseNeeds s t).isEmpty

/-- A release that waits (R225): its thread's entries drain, and the PLLs that its accesses find stopped start; where nothing but homes holds it, the thread waits for them. -/
def releaseWait (s : State) (t : Tid) : Option State :=
  if (releaseNeeds s t).isEmpty then none
  else
    let s' := modCell s (cellOf t) (fun x => { x with wb := x.wb.map (fun e => if e.owner.val = thrOf t then { e with drained := true } else e) })
    some (waitHome s' t (releaseNeeds s t))

/-- A release by a thread: every access before it is performed, its device accesses in program order (R45, R49 rule 4, R50). -/
def release (s : State) (t : Tid) : State :=
  let c := cellOf t
  let s := serveLoads s c (fun j _ => decide (j = thrOf t))
  settleStores (finishDevices s c (thrOf t) (cell s c).accNo) c (thrOf t)

/-! ## Stores -/

/-- Whether a thread's store to a line merges into an open entry (R225). -/
def storeMerges (x : CellS) (thr l : Nat) : Option Nat :=
  x.wb.findIdx? (fun e => decide (e.owner.val = thr) && decide (e.line = l) && !e.device && !e.drained)

/-- A new entry's room: with 16 in use the oldest drains and is performed first (R225), after what must come before it (R45, R49 rule 1). -/
def makeRoom (s : State) (c : Nat) : State :=
  if (cell s c).wb.length < 16 then s
  else
    match (cell s c).wb with
    | [] => s
    | e :: _ =>
      if e.device then finishDevices s c e.owner.val (e.seq + 1)
      else performAt (serveLoads s c (fun j k => decide (j = e.owner.val) && decide (k = e.line))) c 0

/-- Whether a scalar store finds its entry: a merge or a free one (R225). -/
def storeRoom (x : CellS) (thr l : Nat) (device : Bool) : Bool :=
  decide (x.wb.length < 16) || (!device && (storeMerges x thr l).isSome)

/-- The oldest entry of a full buffer drains (R225). -/
def drainOldest (s : State) (c : Nat) : State :=
  modCell s c (fun x => { x with wb := match x.wb with | e :: r => { e with drained := true } :: r | [] => [] })

/-- A store that finds all 16 entries in use waits, and the oldest drains (R225). -/
def storeWaits (s : State) (t : Tid) : State :=
  modThread (drainOldest s (cellOf t)) t (fun th => { th with st := .waiting .store })

/-- Whether stores of a thread to lines would wait for entries that cannot be freed now (R225): they do not all find entries, and an entry of the buffer, or one of theirs, waits at a crossing that is not clocked, or behind a push that is held. -/
def storesBlocked (s : State) (c thr : Nat) (ls : List Nat) : Bool :=
  let x := cell s c
  let new := (distinct ls).filter (fun l => (storeMerges x thr l).isNone)
  decide (16 < x.wb.length + new.length)
    && (((x.wb.map (fun e => e.line)) ++ new).any (fun l => !homeClocked s l) || x.wb.any (fun e => e.device && pushHeld s (tidOf c e.owner.val)))

/-- What stores that wait so do meanwhile: the oldest entry drains, and the PLLs that the entries find stopped start (R23). -/
def storesWait (s : State) (c : Nat) : State := startLines (drainOldest s c) ((cell s c).wb.map (fun e => e.line))

/-- Bytes of a thread's store within one line put into the write buffer, a tile store's among them; a full entry drains (R224, R225, R233). -/
def wbPut (s : State) (c thr l off : Nat) (bs : List Byte) (tile : Bool := false) : State :=
  let m := byteMask off bs.length
  let lay (d : BitVec 1024) : BitVec 1024 := (overlay { data := d } off bs false).data
  match storeMerges (cell s c) thr l with
  | some i =>
    match (cell s c).wb[i]? with
    | some e =>
      let e' := { e with data := lay e.data, mask := e.mask ||| m, tile := e.tile || tile }
      modCell s c (fun x => { x with wb := x.wb.set i { e' with drained := decide (e'.mask = BitVec.allOnes 128) } })
    | none => s
  | none =>
    let s := makeRoom s c
    let e : WbEnt := { line := l, data := lay 0, mask := m, owner := Fin.ofNat 8 thr, drained := decide (m = BitVec.allOnes 128), tile := tile }
    modCell s c (fun x => { x with wb := x.wb ++ [e] })

/-- A store to the MMIO range or an outbound window: an entry alone, drained as soon as it is made (R225), with its place in the thread's program order and the level it is made at. -/
def wbDevice (s : State) (c thr pa : Nat) (bs : List Byte) : State :=
  let s := makeRoom s c
  let e : WbEnt := { line := pa / 128, data := (overlay {} (pa % 128) bs false).data, mask := byteMask (pa % 128) bs.length,
                     owner := Fin.ofNat 8 thr, device := true, drained := true,
                     seq := (cell s c).accNo, level := (thread s (tidOf c thr)).level, spec := (thread s (tidOf c thr)).spec }
  modCell s c (fun x => { x with wb := x.wb ++ [e], accNo := x.accNo + 1 })

/-- A store of a thread at a physical place: the cell's own copy is updated, the bytes enter the write buffer (R45, R50, R224, R225). -/
def cellStore (s : State) (c thr pa : Nat) (bs : List Byte) : State :=
  match physAt s pa with
  | .mmio _ => wbDevice s c thr pa bs
  | .window => wbDevice s c thr pa bs
  | .hole => s
  | .hbm => (cutLines pa bs).foldl (fun s p => wbPut (l1Store s c p.1 p.2.1 p.2.2) c thr p.1 p.2.1 p.2.2) s
  | .block _ _ => (cutLines pa bs).foldl (fun s p => wbPut s c thr p.1 p.2.1 p.2.2) s

/-! ## Prefetch (R234–R238) -/

/-- A demand access as a prefetch stream sees it: the virtual line, its page's size in bits, whether the page's translation passes the prefetcher's test (R235). -/
structure Demand where
  line : Nat
  size : Nat
  ok : Bool

/-- A thread's demand access at an address, by the translation just used (R235). -/
def demandAt (s : State) (t : Tid) (va : Word) : Demand :=
  match tlbLookup (cell s (cellOf t)) .load (thread s t).asid va.toNat with
  | some (e, _) => { line := va.toNat / 128, size := e.size, ok := e.r && !e.ns && (decide ((thread s t).level ≠ 0) || e.u) }
  | none => { line := va.toNat / 128, size := 12, ok := false }

/-- Whether a line lies in the page of a demand access. -/
def Demand.holds (d : Demand) (p : Int) : Bool := decide (0 ≤ p) && decide ((128 * p.toNat) >>> d.size = (128 * d.line) >>> d.size)

/-- Whether a line is one of an armed stream's: the line of its last demand access, or one of the next D lines (R234; how far ahead: DESIGN CHOICE, log 118). -/
def Stream.has (st : Stream) (line : Nat) : Bool :=
  let d := (line : Int) - st.last
  decide (d % st.stride = 0) && decide (0 ≤ d / st.stride) && decide (d / st.stride ≤ st.depth)

/-- A stream paused at a page resumes from the line after a demand access that touches the page, when the page passes R235 (R236). -/
def Stream.resumed (dm : Demand) (st : Stream) : Stream :=
  match st.paused with
  | some p => if dm.ok && dm.holds p then { st with paused := none, last := dm.line, next := (dm.line : Int) + st.stride } else st
  | none => st

/-- Prefetch streams see a demand access of a thread (R234, R236): those paused at its page resume; an armed stream follows it along its lines; a miss trains the thread's stream, which arms at the third consecutive one of a stride. -/
def trainStreams (s : State) (c thr : Nat) (dm : Demand) (miss : Bool) : State :=
  let s := modCell s c (fun y => { y with streams := y.streams.map (fun st => if st.thr.val = thr ∧ st.armed = true then st.resumed dm else st) })
  let x := cell s c
  let d (st : Stream) : Int := (dm.line : Int) - st.last
  let put (s : State) (st : Stream) : State :=
    modCell s c (fun y => { y with streams := (st :: y.streams.filter (fun o => decide (o.id ≠ st.id))) })
  match x.streams.find? (fun st => decide (st.thr.val = thr) && st.armed && st.has dm.line) with
  | some st => put s { st with last := dm.line }
  | none =>
    if !miss then s
    else
      match x.streams.find? (fun st => decide (st.thr.val = thr) && !st.armed) with
      | some st =>
        if d st = 0 then s
        else if (d st).natAbs ≤ 32 then
          let run := if st.run = 1 || decide (d st ≠ st.stride) then 2 else st.run + 1
          put s { st with last := dm.line, stride := d st, run := run, armed := decide (3 ≤ run), next := (dm.line : Int) + d st }
        else put s { st with last := dm.line, stride := 0, run := 1 }
      | none =>
        let st : Stream := { id := x.streamNo, thr := Fin.ofNat 8 thr, last := dm.line, stride := 0, run := 1, armed := false, depth := 4,
                             next := 0, paused := none, issued := 0, late := 0, early := 0 }
        modCell s c (fun y => { y with streams := (st :: y.streams).take 16, streamNo := y.streamNo + 1 })

/-- The size in bits of the page that a faulting address lies in: its leaf's, or what the entry that ends its walk covers. -/
def faultSize (s : State) (c : Nat) (asid : BitVec 6) (va : Word) (k : Access) : Nat :=
  match (findEnt s c asid va k).1 with
  | .ok (e, _) => e.size
  | .error (_, l) => if l < 3 then 12 + 9 * l else 12

/-- A stream paused at a page whose demand access faults is released (R236). -/
def releaseStreams (s : State) (t : Tid) (va : Word) (k : Access) : State :=
  let c := cellOf t
  let dm : Demand := { line := va.toNat / 128, size := faultSize s c (thread s t).asid va k, ok := false }
  if (cell s c).streams.isEmpty then s
  else modCell s c (fun y => { y with streams := y.streams.filter (fun st =>
    !(decide (st.thr.val = thrOf t) && (match st.paused with | some p => dm.holds p | none => false))) })

/-- A demand that merges into a prefetch still in flight was late (R238): the event, and the stream's count (R234). -/
def lateIf (s : State) (c : Nat) (m : Mshr) : State :=
  match m.stream with
  | some id => modCell (perfEvent s c 0x62 (streamThr (cell s c) id)) c (fun y =>
      { y with streams := y.streams.map (fun st => if st.id = id then { st with late := st.late + 1 } else st) })
  | none => s

/-! ## Loads of a thread -/

/-- What a load does at issue. -/
inductive LoadOut where
  /-- Its value is there. -/
  | value (v : Word)
  /-- It is outstanding: its register is busy. -/
  | pending
  /-- It waits for a miss register (R231). -/
  | held
  /-- Its line's register has eight secondary misses: it waits and tries again (R229). -/
  | retry
  /-- The word is poisoned in the cell's own copy: its address (R44). -/
  | poison (pa : Nat)
  deriving DecidableEq, Repr

/-- The atomics that occupy a miss register: those to HBM (R229). -/
def hbmAtomics (x : CellS) : List AtomReq := x.atomics.filter (fun m => lineHbm m.line)

/-- Whether a primary miss may take a miss register now (R230), with the stall cause when it may not (R231). -/
def missGrant (s : State) (c l : Nat) : Option Nat :=
  let x := cell s c
  let b := bankOf s l
  let here := (x.mshrs.filter (fun m => decide (bankOf s m.line = b))).length + ((hbmAtomics x).filter (fun m => decide (bankOf s m.line = b))).length
  let free := 48 - (x.mshrs.length + (hbmAtomics x).length)
  if 16 ≤ here then some 4
  else if free = 0 then some 5
  else if 8 < free ∨ here = 0 then none
  else some 5

/-- A miss register taken for a line (R229, R230). -/
def takeMiss (s : State) (c : Nat) (m : Mshr) : State :=
  modCell s c (fun x => { x with mshrs := x.mshrs ++ [{ m with no := nextNo s }] })

/-- A demand merged into the i-th miss register as a secondary miss: its home serves the line once more, for it (R229, R50). -/
def mergeMiss (s : State) (c i : Nat) (f : Mshr → Mshr) : State :=
  match (cell s c).mshrs[i]? with
  | some m => modCell (lateIf s c m) c (fun x => { x with mshrs := x.mshrs.set i { f m with merged := m.merged + 1, stream := none, served := none } })
  | none => s

/-- Whether entries of the thread hold a byte of an access and none holds them all: the access waits for them (R226). -/
def ownPart (x : CellS) (thr l off n : Nat) : Bool :=
  x.wb.any (fun e => decide (e.owner.val = thr) && decide (e.line = l) && decide (e.mask &&& byteMask off n ≠ 0))

/-- The thread's newest write-buffer entry with a byte of an access, if it holds all of them (R226). -/
def ownFull (x : CellS) (thr l off n : Nat) : Option WbEnt :=
  match (x.wb.filter (fun e => decide (e.owner.val = thr) && decide (e.line = l) && decide (e.mask &&& byteMask off n ≠ 0))).getLast? with
  | some e => if e.mask &&& byteMask off n = byteMask off n then some e else none
  | none => none

/-- The thread's entries with a byte of an access performed, where no one of them serves it (R226). -/
def ownSettle (s : State) (c thr l off n : Nat) : State :=
  if ownPart (cell s c) thr l off n then settleLine s c thr l else s

/-- Whether a vector load of a thread that has resolved has still lines to come: a younger scalar access waits, so that accesses to one byte keep program order (R49, R232). -/
def loadRuns (th : Thread) : Bool := th.vq.any (fun e => e.runs)

/-- Whether an access waits for the home of its line, where such entries have to be performed first (R18, R23, R226). -/
def ownWaits (s : State) (c thr l off n : Nat) : Bool :=
  (ownFull (cell s c) thr l off n).isNone && ownPart (cell s c) thr l off n && !lineOpen s c l

/-- An uncached load queued, with its number in its thread's program order (R45). -/
def queueLoad (s : State) (c : Nat) (r : LoadReq) (device : Bool) : State :=
  modCell s c (fun x => { x with loads := x.loads ++ [{ r with seq := x.accNo, device := device }], accNo := x.accNo + 1 })

/-- A load that misses the L1 and the victim cache: it merges, takes a register, or is held (R229–R231). -/
def loadMiss (s : State) (c : Nat) (dm : Demand) (r : LoadReq) : LoadOut × State :=
  let l := r.pa / 128
  let r := { r with seq := (cell s c).accNo }
  let count (s : State) : State := modCell s c (fun x => { x with accNo := x.accNo + 1 })
  match (cell s c).mshrs.findIdx? (fun m => decide (m.line = l)) with
  | some i =>
    if ((cell s c).mshrs[i]?).elim false (fun m => decide (m.merged < 8)) then
      (.pending, count (mergeMiss (trainStreams s c r.thr.val dm true) c i (fun m => { m with loads := m.loads ++ [r] })))
    else (.retry, s)
  | none =>
    let s := trainStreams s c r.thr.val dm true
    match missGrant s c l with
    | none => (.pending, count (takeMiss s c { line := l, loads := [r] }))
    | some _ => (.held, count (modCell s c (fun x => { x with held := x.held ++ [{ line := l, load := r }] })))

/-- A load issued by a thread at a physical place (R45, R226, R227, R229). -/
def cellLoad (s : State) (c : Nat) (dm : Demand) (r : LoadReq) : LoadOut × State :=
  let l := r.pa / 128
  let off := r.pa % 128
  match physAt s r.pa with
  | .hole => (.value 0, s)
  | .mmio _ => (.pending, queueLoad s c r true)
  | .window => (.pending, queueLoad s c r true)
  | .block _ _ =>
    match ownFull (cell s c) r.thr.val l off r.bytes with
    | some e => (.value (loadValue r (wbBytes e off r.bytes)), s)
    | none => (.pending, queueLoad (ownSettle s c r.thr.val l off r.bytes) c r false)
  | .hbm =>
    match ownFull (cell s c) r.thr.val l off r.bytes with
    | some e => (.value (loadValue r (wbBytes e off r.bytes)), s)
    | none =>
      match l1Lookup (l1Parity (ownSettle s c r.thr.val l off r.bytes) c l off r.bytes) c l true with
      | (some b, s) =>
        let s := trainStreams s c r.thr.val dm false
        if linePoison b off r.bytes then (.poison (lineBase l + linePoisonAt b off r.bytes), s)
        else (.value (loadValue r (lineBytes b off r.bytes)), s)
      | (none, s) => loadMiss s c dm r

/-- A line read for a thread all at once, where its caches do not hold it: through the register that tracks it, if one does, else from its home into the L1 (R50, R229). -/
def lineNow (s : State) (c l : Nat) : Line × State :=
  match (if lineHbm l then (cell s c).mshrs.findIdx? (fun m => decide (m.line = l)) else none) with
  | some i =>
    let s := mergeMiss s c i (fun m => m)
    let s := serveMiss (lineTaken s c l) c i
    ((((cell s c).mshrs[i]?).bind (fun m => m.served)).getD {}, s)
  | none =>
    let (b, s) := coreLine s c l
    if lineHbm l then (b, l1Fill s c { line := l, body := applyOpen (cell s c) l b }) else (b, s)

/-- Bytes read for a thread all at once through the cell's caches: own entries first, the L1, the victim cache, then the home (R50, R226): vector accesses, vector tables, descriptors and frames. -/
def threadRead (s : State) (c thr pa n : Nat) : (List Byte × Option Nat) × State :=
  (cutLines pa (List.replicate n 0)).foldl
    (fun (acc : (List Byte × Option Nat) × State) (q : Nat × Nat × List Byte) =>
      let k := q.2.2.length
      let off := q.2.1
      let s := acc.2
      match ownFull (cell s c) thr q.1 off k with
      | some e => ((acc.1.1 ++ wbBytes e off k, acc.1.2), s)
      | none =>
        let s := ownSettle s c thr q.1 off k
        let (b, s) := match (if lineHbm q.1 then l1Lookup (l1Parity s c q.1 off k) c q.1 true else (none, s)) with
          | (some b, s) => (b, s)
          | (none, s) => lineNow s c q.1
        let bad := if linePoison b off k then some (lineBase q.1 + linePoisonAt b off k) else none
        ((acc.1.1 ++ lineBytes b off k, acc.1.2.or bad), s)) (([], none), s)

/-- Whether a line can be read for a thread all at once: it needs no home, or its home takes it now and a miss register may track it (R18, R23, R229, R246, R255). -/
def lineReady (s : State) (c thr l off k : Nat) : Bool :=
  let x := cell s c
  if (ownFull x thr l off k).isSome then true
  else if !ownPart x thr l off k && lineHbm l && (l1Copy x l).isSome then true
  else lineOpen s c l && (!lineHbm l ||
    (match x.mshrs.find? (fun m => decide (m.line = l)) with
      | some m => decide (m.merged < 8)
      | none => (missGrant s c l).isNone))

/-- The lines of a run of bytes that a thread cannot read now. -/
def readNeeds (s : State) (c thr pa n : Nat) : List Nat :=
  if isMemory s pa then ((cutLines pa (List.replicate n 0)).filter (fun q => !lineReady s c thr q.1 q.2.1 q.2.2.length)).map (fun q => q.1) else []

/-! ## The rows of the memory path -/

/-- WRITE_BUFFER_DRAIN (R225): an entry is sent to its home. -/
def execWriteBufferDrain (c : Cid) (k : Nat) (s : State) : Host.Outcome State Fault Refusal :=
  .next (modCell s c.val (fun x => match x.wb[k]? with
    | some e => { x with wb := x.wb.set k { e with drained := true } }
    | none => x))

/-- WRITE_BUFFER_TIMEOUT (R225): 32 cc have passed since an entry opened, and it drains. -/
def execWriteBufferTimeout (c : Cid) (k : Nat) (s : State) : Host.Outcome State Fault Refusal :=
  .next (modCell s c.val (fun x => match x.wb[k]? with
    | some e => if e.device then x else { x with wb := x.wb.set k { e with drained := true } }
    | none => x))

/-- Whether an entry that is a release waits for its thread's accesses before it: earlier entries, earlier loads and pipes not yet served, resolved instructions still at work (R49 rule 4, R180, R205, R371). -/
def releaseBehind (s : State) (c k : Nat) (e : WbEnt) : Bool :=
  let x := cell s c
  let t := tidOf c e.owner.val
  relEnt s e && ((x.wb.take k).any (fun o => decide (o.owner = e.owner))
    || x.mshrs.any (fun m => m.loads.any (fun l => decide (l.thr = e.owner) && decide (l.seq < e.seq) && l.got.isNone) || (m.served.isNone && m.pipes.contains e.owner))
    || x.loads.any (fun l => decide (l.thr = e.owner) && decide (l.seq < e.seq) && l.got.isNone)
    || x.slots.any (fun m => decide (m.thr = e.owner) && m.served.isNone)
    || ((thread s t).vq ++ (thread s t).tq).any (fun o => o.runs))

/-- Whether a drained entry may be performed now: accesses of a thread to one byte, and its device accesses, keep program order (R45, R49). -/
def mayPerform (s : State) (c k : Nat) (e : WbEnt) : Bool :=
  let x := cell s c
  e.drained && !((x.wb.take k).any (fun o => decide (o.owner = e.owner) && decide (o.line = e.line))) && !olderLoad x e
    && !(e.device && deviceWaits s c e.owner e.seq) && !releaseBehind s c k e

/-- STORE_PERFORMED (R50): a drained entry reaches its home; one for a region whose PLL is stopped starts it and is held (R23). -/
def execStorePerformed (c : Cid) (k : Nat) (s : State) : Host.Outcome State Fault Refusal :=
  .next (match (cell s c.val).wb[k]? with
    | some e =>
      if !mayPerform s c.val k e then s
      else if homeClocked s e.line then performAt s c.val k else startHome s e.line
    | none => s)

/-- Whether a line is one an armed stream wants next: from its next line up to L + D × s (R234). -/
def streamWants (st : Stream) (line : Nat) : Bool :=
  st.armed && decide ((line : Int) = st.next) && decide (((line : Int) - st.last).natAbs ≤ st.depth * st.stride.natAbs)
    && decide (0 ≤ ((line : Int) - st.last) * st.stride)

/-- A stream after one more prefetch: D changes after every 16 (R234). -/
def streamIssued (st : Stream) : Stream :=
  let n := st.issued + 1
  if n < 16 then { st with issued := n, next := st.next + st.stride }
  else
    let depth := if 4 ≤ st.late then min 16 (2 * st.depth) else if 4 ≤ st.early then max 2 (st.depth / 2) else st.depth
    { st with issued := 0, next := st.next + st.stride, depth := depth, late := 0, early := 0 }

/-- PREFETCH_ISSUE (R234–R237): a stream of the thread offers its next line: dropped at a page that may not be prefetched, not issued while registers are short, else issued. -/
def execPrefetchIssue (t : Tid) (line : Nat) (s : State) : Host.Outcome State Fault Refusal :=
  let c := cellOf t
  let x := cell s c
  let th := thread s t
  let va := 128 * line
  let put (s : State) (st : Stream) : State :=
    modCell s c (fun y => { y with streams := y.streams.map (fun o => if o.id = st.id then st else o) })
  .next (match x.streams.find? (fun st => decide (st.thr.val = thrOf t) && streamWants st line) with
    | none => s
    | some st =>
      if !clocked s c || decide (x.power ≠ .run) || decide (1 ≤ rf s .powerShed F.powerShedStage) then s
      else
        let drop := put (perfEvent s c 0x64 (some (thrOf t)))
          { st with paused := st.paused.or (some st.next), next := st.next + st.stride }
        match tlbLookup x .load th.asid va with
        | none => drop
        | some (e, _) =>
          if !e.r || e.ns || (decide (th.level = 0) && !e.u) then drop
          else if st.paused.isSome then s
          else
            let pa := pairFrame (ctxOf s t) e + va % 2 ^ e.size
            let l := pa / 128
            let here := (x.mshrs.filter (fun m => decide (bankOf s m.line = bankOf s l))).length + ((hbmAtomics x).filter (fun m => decide (bankOf s m.line = bankOf s l))).length
            if !inHbm pa || x.mshrs.any (fun m => decide (m.line = l)) || (l1Copy x l).isSome then
              put s { st with next := st.next + st.stride }
            else if 48 - (x.mshrs.length + (hbmAtomics x).length) ≤ 16 ∨ 8 ≤ here then s
            else
              takeMiss (put (perfEvent s c 0x60 (some (thrOf t))) (streamIssued st)) c { line := l, loads := [], stream := some st.id })

/-! ## Register accesses as commands -/

/-- What a thread's write of PEG_VAL or PEG_ADD does first: its release; none while that waits (R371). -/
def pegRelease (s : State) (a : Agent) (off : Nat) : Option State :=
  match agentThread a with
  | none => some s
  | some t => if !isPegReg off then some s else if releaseReady s t then some (release s t) else none

/-- What a thread's read of PEG_VAL does after: its acquire (R371). -/
def pegAcquire (s : State) (a : Agent) (off : Nat) : State :=
  match agentThread a with
  | none => s
  | some t => if off / 8 * 8 = 0x20008 then acquire s (cellOf t) else s

/-- A register access of an agent as a command: a write of a peg register by a thread is a release. -/
def pegCmd (s : State) (a : Agent) (off : Nat) (f : State → State) : State :=
  if accessWaits s a off true then s
  else
    match pegRelease s a off with
    | some s => f s
    | none => s

/-- REGISTER_WRITE (R7–R9). -/
def execRegisterWrite (a : Agent) (off : Nat) (bytes : Nat) (v : Word) (s : State) : Host.Outcome State Fault Refusal :=
  .next (pegCmd s a off (mmioWrite a off bytes v))

/-- An MMIO read that a command names: the value goes to the agent; it waits as a write does (R45, R300). -/
def mmioReadCmd (s : State) (a : Agent) (off : Nat) (f : State → Word × State) : State :=
  if accessWaits s a off false then s
  else
    let (v, s) := f s
    pegAcquire (emit s (.value a off v)) a off

/-- READ_CLEAR (R10): a read of a register, whose value goes to the agent; its RC fields are cleared with it. -/
def execReadClear (a : Agent) (off : Nat) (bytes : Nat) (s : State) : Host.Outcome State Fault Refusal :=
  .next (mmioReadCmd s a off (mmioRead a off bytes))

/-- PEG_VAL_WRITE (R371). -/
def execPegValWrite (a : Agent) (h : Half) (v : Word) (s : State) : Host.Outcome State Fault Refusal :=
  .next (pegCmd s a 0x20008 (fun s => mmioGate s a 0x20008 (fun s => pegValWrite s a h v)))

/-- PEG_VAL_READ (R371): the value goes to the agent. -/
def execPegValRead (a : Agent) (h : Half) (s : State) : Host.Outcome State Fault Refusal :=
  .next (mmioReadCmd s a 0x020008 (fun s =>
    let w := if mmioReads s 0x20008 then pegValRead s a else 0
    (match h with | .full => w | .low => wd (bits w 31 0) | .high => wd (bits w 63 32), s)))

/-- PEG_ADD_WRITE (R371). -/
def execPegAddWrite (a : Agent) (h : Half) (v : Word) (s : State) : Host.Outcome State Fault Refusal :=
  .next (pegCmd s a 0x20010 (fun s => mmioGate s a 0x20010 (fun s => pegAddWrite s a h v)))

end Sys2Proof.Machine
end

