-- ==== Sys2Proof/Machine/Except.lean ====
section
/-! DEFINITION. System registers (R55–R58), exceptions, interrupts, gates and returns (R61–R76). -/

namespace Sys2Proof.Machine

/-! ## The registers of a level -/

/-- The number of a level's register k (0 XPC, 1 XSTATUS, 2 XCAUSE, 3 XVAL, 4 XVBASE, 5 XSP; R58). -/
def lvlReg (l : Nat) (k : Nat) : Nat := 0x400 * l + 0x10 + k

/-- The reset value of a thread's system register (R61); mantle chooses XCEIL's. -/
def srReset (mantle : Bool) (n : Nat) : Word :=
  if n = 0x011 then 0x1010
  else if n = 0x411 ∨ n = 0x811 then 0x101F
  else if n = 0x800 then (if mantle then 2 else 1)
  else 0

/-- The bits of a thread's system register that a write reaches (R58, R7). -/
def srMask (n : Nat) : Word :=
  match n with
  | 0x001 => fmask 64 1 0
  | 0x002 => fmask 64 8 0
  | 0x003 => BitVec.allOnes 64
  | 0x004 => fmask 64 15 0
  | 0x005 => fmask 64 15 0
  | 0x006 => fmask 64 15 15 ||| fmask 64 6 0
  | 0x007 => BitVec.allOnes 64
  | 0x011 => fmask 64 4 4 ||| fmask 64 14 12
  | 0x400 => fmask 64 15 0
  | 0x401 => fmask 64 47 0
  | 0x800 => fmask 64 1 0
  | _ =>
    match n % 0x400 with
    | 0x10 => fmask 64 47 2
    | 0x11 => fmask 64 4 0 ||| fmask 64 14 8
    | 0x12 => fmask 64 5 0 ||| fmask 64 15 8 ||| fmask 64 63 62
    | 0x13 => BitVec.allOnes 64
    | 0x14 => fmask 64 47 9
    | 0x15 => BitVec.allOnes 64
    | _ => 0

/-- A thread's system register as it is kept. -/
def srAt (s : State) (t : Tid) (n : Nat) : Word := tget (srReset (isMantle (cellOf t)) n) (thread s t).sr n

/-- A thread's system register put whole. -/
def srPut (s : State) (t : Tid) (n : Nat) (v : Word) : State :=
  modThread s t (fun th => { th with sr := tset (srReset (isMantle (cellOf t)) n) th.sr n v })

/-- A field of a thread's system register put. -/
def srPutF (s : State) (t : Tid) (n hi lo v : Nat) : State := srPut s t n (setBits (srAt s t n) hi lo v)

/-- Whether a number is an assigned system register (R58). -/
def srAssigned (n : Nat) : Bool :=
  [0x001, 0x002, 0x003, 0x004, 0x005, 0x006, 0x007, 0x010, 0x011, 0x012, 0x013, 0x014, 0x015, 0x200, 0x201, 0x202, 0x203,
   0x204, 0x205, 0x400, 0x401, 0x410, 0x411, 0x412, 0x413, 0x414, 0x415, 0x800, 0x810, 0x811, 0x812, 0x813, 0x814, 0x815].contains n

/-- CELLID of a thread (R58). -/
def cellId (s : State) (t : Tid) : Word :=
  let c := cellOf t
  if isMantle c then pack [(0, c - 768), (3, (cell s c).site.toNat), (15, 1)]
  else pack [(0, c % 8), (3, (cell s c).site.toNat), (7, c / 8 % 8), (10, regionOf c), (14, if regionOf c < 6 then 0 else 1)]

/-- EPOCH as a thread reads it (R95). -/
def epochReg (s : State) (t : Tid) : Word :=
  let th := thread s t
  let unp := match (asEntry s (cellOf t) th.asid).1 with | .ok (u, _) => u | .error _ => false
  pack [(0, (epochBit s (cellOf t) th.asid).toNat), (1, th.spec.isSome.toNat), (2, unp.toNat), (8, th.asid.toNat)]

/-- LOSS_SCALE of an exponent and a count: VALUE is the FP32 code of 2^LSEXP (R295). -/
def lossScaleWord (e : BitVec 8) (clean : BitVec 16) : Word :=
  pack [(0, e.toNat), (8, clean.toNat), (32, ((e.toInt + 127).toNat % 256) <<< 23)]

/-- LOSS_SCALE as a thread reads it: a SPEC thread reads it as a commit would set it (R297). -/
def lossScale (s : State) (spec : Bool) : Word :=
  if spec then lossScaleWord (afterCommit s).1 (afterCommit s).2 else lossScaleWord s.hem.lsexp s.hem.clean

/-- STEP as a thread reads it (R295, R297). -/
def stepReg (s : State) (spec : Bool) : Word := (if spec then s.hem.step + 1 else s.hem.step).setWidth 64

/-- Tiles that other threads of the cell hold (R164). -/
def tileOthers (s : State) (t : Tid) : BitVec 16 :=
  ((tidsOf (cellOf t)).filter (fun u => decide (u ≠ t))).foldl (fun a u => a ||| (thread s u).mine) 0

/-- The value a read of a system register gives (R56–R58). -/
def srRead (s : State) (t : Tid) (n : Nat) : Word :=
  let th := thread s t
  match n with
  | 0x200 => wd (thrOf t)
  | 0x201 => cellId s t
  | 0x202 => lcountOf s t
  | 0x203 => stepReg s th.spec.isSome
  | 0x204 => lossScale s th.spec.isSome
  | 0x205 => epochReg s t
  | 0x400 => th.mine.setWidth 64 ||| ((tileOthers s t).setWidth 64 <<< 16)
  | _ => if n % 0x400 = 0x11 then setBits (srAt s t n) 17 16 th.level.toNat else srAt s t n

/-- A system register written (R57): reserved bits are dropped, a reserved value leaves its field (R8). -/
def srWrite (s : State) (t : Tid) (n : Nat) (v : Word) : State :=
  let old := srAt s t n
  let v := v &&& srMask n
  let keep (hi lo : Nat) (v : Word) (bad : Nat → Bool) : Word := if bad (bits v hi lo) then setBits v hi lo (bits old hi lo) else v
  let v := if n = 0x001 then keep 1 0 v (fun x => decide (x = 3))
    else if n = 0x800 then keep 1 0 v (fun x => decide (x = 3))
    else if n % 0x400 = 0x11 then keep 14 13 v (fun x => decide (x = 3))
    else v
  srPut s t n v

/-! ## Irrevocable actions of a SPEC thread (R300) -/

/-- Whether an access made at a level is an irrevocable action of a SPEC thread (R300). -/
def irrevocableAt (s : State) (t : Tid) (l : BitVec 2) (pa : Nat) (wr : Bool) : Bool :=
  (thread s t).spec.isSome &&
    (match physAt s pa with
      | .mmio off => !(wr && specMayWrite off)
      | .window => true
      | .hbm => wr && decide (l = 2)
      | .block _ _ => false
      | .hole => false)

/-- Whether an access is an irrevocable action of a SPEC thread (R300). -/
def irrevocable (s : State) (t : Tid) (pa : Nat) (wr : Bool) : Bool := irrevocableAt s t (thread s t).level pa wr

/-- An irrevocable action held: the thread waits for the verdict (R300). -/
def holdAction (s : State) (t : Tid) : State := modThread s t (fun th => { th with st := .waiting .held })

/-! ## Entry (R63–R68) -/

/-- The lowest level of a cause's target (R64). -/
def lowestLevel (code : Nat) : Nat := if [0x02, 0x03, 0x04, 0x05, 0x06, 0x07, 0x0A].contains code then 1 else 0

/-- FM of a level. -/
def fmOf (s : State) (t : Tid) (l : Nat) : Bool := bit (srAt s t (lvlReg l 1)) 4

/-- A double fault (R66): the thread halts as it is, the fault is recorded and reported to the Mantle firmware; a Mantle core halts whole. -/
def doubleFault (s : State) (t : Tid) (pc : Word) (e : Exc) (esc : Bool) : State :=
  let s := reportThread s t 0x02 pc (pack [(0, e.code), (8, e.detail), (62, esc.toNat)]) e.val
  let s := emit s (.mantle "double fault" (wd t.val))
  let ts := if isMantle (cellOf t) then tidsOf (cellOf t) else [t]
  ts.foldl (fun s u => modThread s u (fun th => { th with st := .halted })) s

/-- Bytes read for a thread at a physical address whatever it reaches: memory, an MMIO register, a window, whose answer the spec does not fix. -/
def threadReadAny (s : State) (t : Tid) (pa n : Nat) : (List Byte × Option Nat) × State :=
  match physAt s pa with
  | .mmio off => let (v, s) := mmioRead (agentOfTid t) off n s; ((leBytes v.toNat n, none), s)
  | .window => let (v, s) := drawFree s; ((leBytes v.toNat n, none), s)
  | .hole => ((leBytes 0 n, none), s)
  | _ => threadRead s (cellOf t) (thrOf t) pa n

/-- Whether a read by the part on a SPEC thread's behalf, with the permissions of a level, is an irrevocable action: it waits for the verdict (R300). -/
def asHeld (s : State) (t : Tid) (l : BitVec 2) (va : Word) : Bool :=
  (thread s t).spec.isSome &&
    (match (translate s (cellOf t) (ctxAt s t l) va .load).1 with
      | .ok pa => irrevocableAt s t l pa false
      | .error _ => false)

/-- A thread's read of an address with the permissions of a level, of bytes within a page (R68, R73, R75). -/
def readAs (s : State) (t : Tid) (l : BitVec 2) (va : Word) (n : Nat) : Except Exc (List Byte) × State :=
  match translate s (cellOf t) (ctxAt s t l) va .load with
  | (.error e, s) => (.error e, s)
  | (.ok pa, s) =>
    match threadReadAny s t pa n with
    | ((_, some p), s) => (.error { code := 7, val := (va &&& ~~~7#64) + wd (p - pa / 8 * 8) }, s)
    | ((bs, none), s) => (.ok bs, s)

/-- Aligned 8-byte words from an address, each read on its own; a misaligned address is the misaligned access of R44 (log 36). -/
def readWordsAs (t : Tid) (l : BitVec 2) : Nat → Word → State → Except Exc (List Word) × State
  | 0, _, s => (.ok [], s)
  | n + 1, va, s =>
    if va.toNat % 8 ≠ 0 then (.error { code := 1, val := va }, s)
    else
      match readAs s t l va 8 with
      | (.error e, s) => (.error e, s)
      | (.ok bs, s) =>
        match readWordsAs t l n (va + 8) s with
        | (.error e, s) => (.error e, s)
        | (.ok ws, s) => (.ok (wd (ofLE bs) :: ws), s)

/-- The lines that such a read of n bytes needs and that their homes do not take now: tables of the walk, then the bytes (R18, R23, R246, R255). -/
def readAsNeeds (s : State) (t : Tid) (l : BitVec 2) (va : Word) (n : Nat) : List Nat :=
  let c := cellOf t
  match (xlatNeeds s c (ctxAt s t l) va .load).filter (fun k => !lineOpen s c k) with
  | [] =>
    match (translate s c (ctxAt s t l) va .load).1 with
    | .ok pa => readNeeds s c (thrOf t) pa n
    | .error _ => []
  | ls => ls

/-- The register changes of an entry at level l (R67). -/
def enterRegs (s : State) (t : Tid) (l : Nat) (pc : Word) (e : Exc) (esc : Bool) (prio : Option Nat) : State :=
  let cur := (thread s t).level.toNat
  let st := srAt s t (lvlReg l 1)
  let s := srPut s t (lvlReg l 0) (pc &&& fmask 64 47 2)
  let s := srPut s t (lvlReg l 2) (pack [(0, e.code), (8, e.detail), (62, esc.toNat), (63, prio.isSome.toNat)])
  let s := srPut s t (lvlReg l 3) e.val
  let st' := setBits (setBits (setBits (setBits st 14 13 cur) 11 8 (bits st 3 0)) 12 12 (bits st 4 4)) 4 4 1
  let st' := match prio with | some p => if l = 0 then st' else setBits st' 3 0 p | none => st'
  let s := srPut s t (lvlReg l 1) st'
  let sp := srAt s t (lvlReg l 5)
  let s := srPut s t (lvlReg l 5) (rx s t 2)
  modThread (wx s t 2 sp) t (fun th => { th with level := BitVec.ofNat 2 l, st := .ready })

/-- The address of a cause's entry in a level's vector table (R63). -/
def vectorAddr (s : State) (t : Tid) (l code : Nat) : Word := (srAt s t (lvlReg l 4) &&& fmask 64 47 9) + wd (8 * code)

/-- The handler's address taken from the vector table (R63, R67), or the fault of reading it. -/
def vectorRead (s : State) (t : Tid) (l code : Nat) : Except Exc Word × State :=
  let va := vectorAddr s t l code
  match readAs s t (BitVec.ofNat 2 l) va 8 with
  | (.ok bs, s) => (.ok (wd (ofLE bs) &&& ~~~3#64), s)
  | (.error e, s) => (.error { e with val := va }, s)

/-- Entry at a level, with the escalations of R66 and R68: `force` enters whatever FM holds. The count bounds the levels still above. -/
def enterAt (t : Tid) (pc : Word) : Nat → State → Nat → Exc → Bool → Option Nat → Bool → State
  | 0, s, _, e, esc, _, _ => doubleFault s t pc e esc
  | k + 1, s, l, e, esc, prio, force =>
    if l > 2 then doubleFault s t pc e esc
    else if prio.isNone && !force && fmOf s t l then enterAt t pc k s (l + 1) e true none false
    else
      let s := enterRegs s t l pc e esc prio
      if asHeld s t (BitVec.ofNat 2 l) (vectorAddr s t l e.code) then holdAction s t
      else
        match readAsNeeds s t (BitVec.ofNat 2 l) (vectorAddr s t l e.code) 8 with
        | [] =>
          match vectorRead s t l (e.code) with
          | (.ok h, s) => modThread s t (fun th => { th with pc := h })
          | (.error f, s) => enterAt t pc k s (l + 1) f true none false
        | ls => waitHome s t ls

/-- What an instruction leaves that has not issued after all, since an access that the part makes for it waits: for the verdict (R300), for its home (R18, R23, R246, R255), for a write-buffer entry (R225). Nothing else of it has happened. -/
def unlessWaits (s : State) (t : Tid) (s' : State) : State :=
  match (thread s' t).st with
  | .waiting .held => holdAction s t
  | .waiting .home => modThread { s with clk := s'.clk } t (fun th => { th with st := .waiting .home })
  | .waiting .store => storeWaits s t
  | _ => s'

/-- What an entry leaves that comes from outside the thread's instruction, when its vector read waits so: it has not been made, and is made later. -/
def orStay (s : State) (t : Tid) (s' : State) : State :=
  match (thread s' t).st with
  | .waiting .held => s
  | .waiting .home => { s with clk := s'.clk }
  | _ => s'

/-- A synchronous exception of the instruction at pc taken (R64–R68). -/
def takeExc (s : State) (t : Tid) (pc : Word) (e : Exc) : State :=
  enterAt t pc 4 s (max (thread s t).level.toNat (lowestLevel e.code)) e false none false

/-- An exception of the thread's current instruction. -/
def raise (s : State) (t : Tid) (e : Exc) : State := takeExc s t (thread s t).pc e

/-- Illegal instruction (R39): XVAL would name word 0, which a command given by its fields does not carry; callers pass it. -/
def illegal (s : State) (t : Tid) (w : Word) : State := raise s t { code := 0, val := w }

/-- An illegal return (R74): only XCAUSE, XVAL and FM of the current level change; then the handler's address is read. -/
def illegalReturn (s0 : State) (t : Tid) (l : Nat) : State :=
  let s := s0
  let pc := (thread s t).pc
  let cur := (thread s t).level.toNat
  let s := srPut s t (lvlReg cur 2) (pack [(0, 0x0B), (8, l)])
  let s := srPut s t (lvlReg cur 3) pc
  let s' := srPutF s t (lvlReg cur 1) 4 4 1
  if asHeld s' t (BitVec.ofNat 2 cur) (vectorAddr s' t cur 0x0B) then holdAction s0 t
  else
    match readAsNeeds s' t (BitVec.ofNat 2 cur) (vectorAddr s' t cur 0x0B) 8 with
    | [] =>
      match vectorRead s' t cur 0x0B with
      | (.ok h, s) => modThread s t (fun th => { th with pc := h })
      | (.error f, s) => enterAt t pc 3 s (cur + 1) f true none false
    | ls => waitHome s0 t ls

/-! ## Interrupts (R69–R71) -/

/-- The target level of an interrupt (R69). -/
def intTarget (n : Nat) : Nat := if n = 15 then 2 else 1

/-- Whether a pending interrupt is takeable now (R70). -/
def takeable (s : State) (t : Tid) (n : Nat) : Bool :=
  let l := intTarget n
  decide (1 ≤ n) && bit (thread s t).pend n && decide ((thread s t).level.toNat ≤ l) && decide (bits (srAt s t (lvlReg l 1)) 3 0 < n)

/-- The highest-priority takeable interrupt (R71). -/
def nextInterrupt (s : State) (t : Tid) : Option Nat := (List.range 16).reverse.find? (fun n => takeable s t n)

/-- Where an interrupted flow resumes (R71): an interrupted `pause` is not executed again; a load whose poison fault has still to be taken is. -/
def interruptPc (th : Thread) : Word :=
  match th.late, th.st with
  | some f, _ => f.pc
  | none, .waiting (.pause _) => th.pc + 4
  | none, _ => th.pc

/-- An interrupted `peg.arrive` keeps what it read in PRESUME, so that it is not added again (R369). -/
def keepArrive (s : State) (t : Tid) : State :=
  match (thread s t).st with
  | .waiting (.arrive _ _ old _) => srPut s t 0x007 (setBits (wd old) 63 63 1)
  | _ => s

/-- The loads of a thread numbered from n on dropped, with the registers that they made busy (R33, R71). -/
def dropFrom (s : State) (t : Tid) (n : Nat) : State :=
  let x := cell s (cellOf t)
  let mine (l : LoadReq) : Bool := decide (l.thr.val = thrOf t) && decide (n ≤ l.seq)
  let rs := ((x.mshrs.flatMap (fun m => m.loads) ++ x.loads).filter mine).map (fun l => l.rd.toNat)
  modCell (modThread s t (fun th => unheld { th with busy := rs.foldl (fun b r => setBit b r false) th.busy })) (cellOf t) (dropLoads (thrOf t) n)

/-- An interrupt taken (R67, R71) at a boundary that has been reached: loads before it have delivered their values. -/
def takeInterrupt (s : State) (t : Tid) (n : Nat) : State :=
  let s1 := leaveWaves (keepArrive s t) t
  let s1 := rollBack s1 t
  let pc := interruptPc (thread s1 t)
  enterAt t pc 4 (modThread s1 t (fun th => { th with pend := setBit th.pend n false, yield := false, late := none }))
    (intTarget n) { code := 0x20 + n } false (some n) true

/-- A load's poison fault taken once no older instruction is unresolved, every older load has delivered its value or met its own fault, and no interrupt goes first (R33, R44, R71, log 15). -/
def takeLate (s : State) (t : Tid) : State :=
  let th := thread s t
  match th.late with
  | none => s
  | some f =>
    if th.st = .idle || th.st = .halted || (oldestUnresolved th).isSome || (nextInterrupt s t).isSome || loadsBefore s t f.seq then s
    else
      let s1 := dropFrom (leaveWaves (keepArrive s t) t) t f.seq
      if bit (thread s1 t).busy 2 then s
      else orStay s t (takeExc (modThread s1 t (fun th => { th with late := none })) t f.pc { code := 7, val := f.va })

/-- The poison faults that a core's threads have met taken. -/
def takeLates (s : State) (c : Nat) : State := (tidsOf c).foldl takeLate s

/-! ## Gates (R72–R75) -/

/-- Whether an address reaches a device: the MMIO range or a window (R45). -/
def isDevice (s : State) (pa : Nat) : Bool :=
  match physAt s pa with
  | .mmio _ => true
  | .window => true
  | .hbm => false
  | .block _ _ => false
  | .hole => false

/-- The check code of argument s(10+k) in a gate descriptor's word 2 (R72). -/
def argChk (w : Word) (k : Nat) : Nat := bits w (9 + 2 * k) (8 + 2 * k)

/-- Whether a gate descriptor is malformed (R73 step 3). -/
def gateMalformed (w0 w1 w2 : Word) : Bool :=
  !bit w2 2 || decide (bits w0 1 0 ≠ 0) || decide (bits w0 63 48 ≠ 0) || decide (bits w1 5 0 ≠ 0) || decide (bits w1 63 48 ≠ 0)
    || bit w2 3 || bit w2 7 || decide (bits w2 63 25 ≠ 0) || decide (bits w2 24 20 = 31)
    || decide (2 ≤ argChk w2 5)
    || (List.range 5).any (fun k => decide (2 ≤ argChk w2 k) && decide (argChk w2 (k + 1) ≠ 1))

/-- The end of the part of a buffer one check covers: the next 4-KiB boundary, or its end. -/
def pageEnd (a hi : Nat) : Nat := min hi ((a / 4096 + 1) * 4096)

/-- What the check of a gate's arguments gives: a fault's DETAIL and XVAL, or a walk that waits for the homes of its tables. -/
inductive ArgOut where
  | pass (s : State)
  | fault (detail : Nat) (val : Word) (s : State)
  | wait (lines : List Nat) (s : State)

/-- A range checked at the caller's level (R73 step 6): one translation a page, fuel pages; the first byte that fails is the fault's. -/
def checkRange (t : Tid) (d : Nat) (k : Access) (x : XCtx) : Nat → Nat → Nat → State → ArgOut
  | 0, _, _, s => .pass s
  | fuel + 1, a, hi, s =>
    if hi ≤ a then .pass s
    else if 2 ^ 64 ≤ a then .fault d (wd a) s
    else
      match (xlatNeeds s (cellOf t) x (wd a) k).filter (fun l => !lineOpen s (cellOf t) l) with
      | l :: ls => .wait (l :: ls) s
      | [] =>
        match translate s (cellOf t) x (wd a) k with
        | (.ok _, s) => checkRange t d k x fuel (pageEnd a hi) hi s
        | (.error _, s) => .fault d (wd a) s

/-- One gate argument checked (R73 step 6). -/
def checkArg (s : State) (t : Tid) (w2 : Word) (k : Nat) : ArgOut :=
  if argChk w2 k < 2 then .pass s
  else
    let a := (rx s t (BitVec.ofNat 5 (10 + k))).toNat
    let n := (rx s t (BitVec.ofNat 5 (11 + k))).toNat
    if 2 ^ bits w2 24 20 < n then .fault (0x20 + k) (wd n) s
    else checkRange t (0x10 + k) (if argChk w2 k = 3 then .store else .load) (ctxOf s t) (n / 4096 + 2) a (a + n) s

/-- The arguments checked in order. -/
def checkArgs (t : Tid) (w2 : Word) : List Nat → State → ArgOut
  | [], s => .pass s
  | k :: ks, s =>
    match checkArg s t w2 k with
    | .pass s => checkArgs t w2 ks s
    | o => o

/-- The frame's bytes (R73). -/
def gateFrame (pc s2 : Word) (lvl n : Nat) : List Byte :=
  leBytes (pc + 4).toNat 8 ++ leBytes s2.toNat 8 ++ leBytes (lvl ||| (n <<< 2)) 8 ++ List.replicate 40 0

/-- Steps 7 and 8 of a gate (R73). -/
def gateEnter (s : State) (t : Tid) (n : Nat) (w0 w1 w2 : Word) : State :=
  let th := thread s t
  let tl := bits w2 1 0
  let f := if th.level.toNat < tl then wd (bits w1 47 6 <<< 6) - 64 else (rx s t 2 - 64) &&& ~~~63#64
  match (xlatNeeds s (cellOf t) (ctxAt s t (BitVec.ofNat 2 tl)) f .store).filter (fun k => !lineOpen s (cellOf t) k) with
  | k :: ks => waitHome s t (k :: ks)
  | [] =>
  match translate s (cellOf t) (ctxAt s t (BitVec.ofNat 2 tl)) f .store with
  | (.error _, s') => enterAt t th.pc 3 s' (tl + 1) { code := 0x0A, detail := 7, val := f } true none true
  | (.ok pa, s) =>
    if irrevocableAt s t (BitVec.ofNat 2 tl) pa true then holdAction s t
    else if !storeRoom (cell s (cellOf t)) (thrOf t) (pa / 128) (isDevice s pa) then storeWaits s t
    else
    let s := cellStore s (cellOf t) (thrOf t) pa (gateFrame th.pc (rx s t 2) th.level.toNat n)
    let s := (List.range 6).foldl (fun s k => if argChk w2 k = 0 then wx s t (BitVec.ofNat 5 (10 + k)) 0 else s) s
    modThread (wx s t 2 f) t (fun th => { th with level := BitVec.ofNat 2 tl, pc := wd (bits w0 47 2 <<< 2) })

/-- `gate n` (R73). -/
def doGate (s : State) (t : Tid) (n : Nat) : State :=
  let th := thread s t
  let g := srAt s t 0x401
  let fault (s : State) (d : Nat) (v : Word) : State := raise s t { code := 0x0A, detail := d, val := v }
  if bits g 11 0 ≤ n then fault s 1 (wd n)
  else
    let da := wd (bits g 47 12 <<< 12) + wd (32 * n)
    let lv : BitVec 2 := if th.level = 2 then 2 else 1
    if asHeld s t lv da then holdAction s t
    else
    match readAsNeeds s t lv da 32 with
    | k :: ks => waitHome s t (k :: ks)
    | [] =>
    match readAs s t lv da 32 with
    | (.error _, s) => fault s 2 da
    | (.ok bs, s) =>
      let w (i : Nat) : Word := wd (ofLE ((bs.drop (8 * i)).take 8))
      let w2 := w 2
      if gateMalformed (w 0) (w 1) w2 then fault s 3 0
      else if !bit w2 (4 + th.level.toNat) then fault s 4 0
      else if bits w2 1 0 = 3 || decide (bits w2 1 0 < th.level.toNat) || decide (bits (srAt s t 0x800) 1 0 < bits w2 1 0) then fault s 5 0
      else
        match checkArgs t w2 (List.range 6) s with
        | .wait ls s => waitHome s t ls
        | .fault d v s => fault s d v
        | .pass s => gateEnter s t n (w 0) (w 1) w2

/-- `xret` (R74). -/
def doXret (s : State) (t : Tid) : State :=
  let th := thread s t
  let cur := th.level.toNat
  let st := srAt s t (lvlReg cur 1)
  let l := bits st 14 13
  if cur < l ∨ bits (srAt s t 0x800) 1 0 < l then illegalReturn s t l
  else
    let pc := srAt s t (lvlReg cur 0)
    let s := srPut s t (lvlReg cur 1) (setBits (setBits st 3 0 (bits st 11 8)) 4 4 (bits st 12 12))
    let sp := srAt s t (lvlReg cur 5)
    let s := srPut s t (lvlReg cur 5) (rx s t 2)
    modThread (wx s t 2 sp) t (fun th => { th with level := BitVec.ofNat 2 l, pc := pc })

/-- `xret.g` (R75): the frame is read with the permissions of the current level. -/
def doXretG (s : State) (t : Tid) : State :=
  let th := thread s t
  let cur := th.level.toNat
  if (List.range 3).any (fun i => asHeld s t th.level (rx s t 2 + wd (8 * i))) then holdAction s t
  else
  match (List.range 3).flatMap (fun i => readAsNeeds s t th.level (rx s t 2 + wd (8 * i)) 8) with
  | k :: ks => waitHome s t (k :: ks)
  | [] =>
  match readWordsAs t th.level 3 (rx s t 2) s with
  | (.error e, s) => raise s t e
  | (.ok ws, s) =>
    let l := bits (ws.getD 2 0) 1 0
    if cur < l ∨ bits (srAt s t 0x800) 1 0 < l then illegalReturn s t l
    else modThread (wx s t 2 (ws.getD 1 0)) t (fun th => { th with level := BitVec.ofNat 2 l, pc := ws.getD 0 0 })

end Sys2Proof.Machine
end

