-- ==== Sys2Proof/Machine/Scalar.lean ====
section
/-! DEFINITION. Issue of a thread's instruction (R30–R33) and the scalar instructions: integer, loads and stores, branches and jumps (R41–R46). -/

namespace Sys2Proof.Machine

/-! ## Issue -/

/-- Whether shedding keeps a thread from issuing: stage 1 holds SPEC threads, stage 5 every cell, a shutdown all (R444, R447). -/
def shedStops (s : State) (t : Tid) : Bool :=
  s.power.down || (!isMantle (cellOf t) && (decide (5 ≤ rf s .powerShed F.powerShedStage)
    || ((thread s t).spec.isSome && decide (1 ≤ rf s .powerShed F.powerShedStage))))

/-- Whether a thread can issue its next instruction now (R30): Ready, its cell powered and clocked, no update of the hem left to apply (R94), no interrupt and no load's poison fault to take first (R44, R71). -/
def canIssue (s : State) (t : Tid) : Bool :=
  decide ((thread s t).st = .ready) && decide ((cell s (cellOf t)).power = .run) && clocked s (cellOf t)
    && (cell s (cellOf t)).updates.isEmpty && (nextInterrupt s t).isNone && (thread s t).late.isNone && !shedStops s t

/-- Whether none of these registers awaits a result (R32). -/
def regsFree (th : Thread) (rs : List Reg) : Bool := rs.all (fun r => !bit th.busy r.toNat)

/-- Whether a younger scalar instruction may issue past the unresolved one: at most four (R33). -/
def windowRoom (th : Thread) : Bool := (oldestUnresolved th).isNone || decide (th.younger < 4)

/-- Whether a thread's instruction may issue: one that may stand in the retire window, or one that waits until every decoupled instruction has resolved (R33). -/
def mayIssue (s : State) (t : Tid) (young : Bool) (rs : List Reg) : Bool :=
  canIssue s t && regsFree (thread s t) rs
    && (if young then windowRoom (thread s t) else (oldestUnresolved (thread s t)).isNone)

/-- What every issue changes: the cell's last thread (R31), the yields used up (R59), the window's count (R33), the cycle, the instruction and the busy engine counted (R471). -/
def issued (s : State) (t : Tid) : State :=
  let c := cellOf t
  let s := modCell s c (fun x => { x with last := Fin.ofNat 8 (thrOf t) })
  let s := (tidsOf c).foldl (fun s u => if (thread s u).yield then modThread s u (fun th => { th with yield := false }) else s) s
  let s := if (oldestUnresolved (thread s t)).isSome then modThread s t (fun th => { th with younger := th.younger + 1 }) else s
  perfEvent (perfEvent (perfEvent s c 0x01 none) c 0x02 (some (thrOf t))) c (stallCode 1 0) (some (thrOf t))

/-! An instruction that may not issue now gives none: its thread waits. -/

/-- The pc moved past a 32-bit instruction. -/
def nextPc (s : State) (t : Tid) : State := modThread s t (fun th => { th with pc := th.pc + 4 })

/-- A result written and the pc moved on. -/
def writeNext (s : State) (t : Tid) (rd : Reg) (v : Word) : State :=
  modThread s t (fun th => { xset th rd v with pc := th.pc + 4 })

/-- Whether a thread's instruction has issued: it waits neither for a miss register (R231) nor for a write-buffer entry (R225), for its home, or for the verdict (R300). -/
def tookIssue (s : State) (t : Tid) : Bool :=
  match (thread s t).st with
  | .waiting .miss => (cell s (cellOf t)).atomics.any (fun m => decide (m.thr.val = thrOf t))
  | .waiting .store => false
  | .waiting .home => false
  | .waiting .held => false
  | _ => true

/-- Whether an instruction's exception can be reported now: no older decoupled instruction is unresolved, since only the oldest exception is reported, and the entry can be made (R33). -/
def mayRaise (s : State) (t : Tid) : Bool := (oldestUnresolved (thread s t)).isNone && entryReady s t

/-- An exception raised by an instruction that has its turn: its thread waits while an older one's could still come (R33). -/
def raiseScalar (s0 s : State) (t : Tid) (e : Exc) : Option State :=
  if mayRaise s0 t then some (unlessWaits s t (raise (issued s t) t e)) else none

/-- An access whose translation waits for the homes of its tables (R18, R23, R246, R255). -/
def xlatWait (s : State) (t : Tid) (x : XCtx) (va : Word) (k : Access) : State :=
  waitHome s t ((xlatNeeds s (cellOf t) x va k).filter (fun l => !lineOpen s (cellOf t) l))

/-! ## Integer instructions (R41, R42) -/

/-- An integer instruction: its thread, destination, sources, and result from the thread's registers and pc. -/
structure AluForm where
  t : Tid
  rd : Reg
  srcs : List Reg
  val : Thread → Word

/-- Two register sources. -/
def alu2 (t : Tid) (rd a b : Reg) (f : Word → Word → Word) : Option AluForm :=
  some { t := t, rd := rd, srcs := [a, b], val := fun th => f (xget th a) (xget th b) }

/-- One register source. -/
def alu1 (t : Tid) (rd a : Reg) (f : Word → Word) : Option AluForm :=
  some { t := t, rd := rd, srcs := [a], val := fun th => f (xget th a) }

/-- A 32-bit result sign-extended from bit 31 (R41). -/
def wRes (v : BitVec 32) : Word := v.signExtend 64

/-- Bits [31:0]. -/
def lo32 (v : Word) : BitVec 32 := v.setWidth 32

/-- A truth value as 0 or 1. -/
def bool64 (b : Bool) : Word := if b then 1 else 0

/-- The high half of a product of exact values (R41). -/
def mulHigh (a b : Int) : Word := BitVec.ofInt 64 (a * b / 2 ^ 64)

/-- Signed division with the cases of R42. -/
def divS {w : Nat} (a b : BitVec w) : BitVec w := if b = 0 then BitVec.allOnes w else a.sdiv b

/-- Unsigned division with the cases of R42. -/
def divU {w : Nat} (a b : BitVec w) : BitVec w := if b = 0 then BitVec.allOnes w else a / b

/-- Signed remainder with the cases of R42. -/
def remS {w : Nat} (a b : BitVec w) : BitVec w := if b = 0 then a else a.srem b

/-- Unsigned remainder with the cases of R42. -/
def remU {w : Nat} (a b : BitVec w) : BitVec w := if b = 0 then a else a % b

/-- The integer instructions (R41). -/
def aluForm : Instr → Option AluForm
  | .add t rd a b => alu2 t rd a b (fun x y => x + y)
  | .sub t rd a b => alu2 t rd a b (fun x y => x - y)
  | .and t rd a b => alu2 t rd a b (fun x y => x &&& y)
  | .or t rd a b => alu2 t rd a b (fun x y => x ||| y)
  | .xor t rd a b => alu2 t rd a b (fun x y => x ^^^ y)
  | .sll t rd a b => alu2 t rd a b (fun x y => x <<< (y.toNat % 64))
  | .srl t rd a b => alu2 t rd a b (fun x y => x >>> (y.toNat % 64))
  | .sra t rd a b => alu2 t rd a b (fun x y => x.sshiftRight (y.toNat % 64))
  | .slt t rd a b => alu2 t rd a b (fun x y => bool64 (x.slt y))
  | .sltu t rd a b => alu2 t rd a b (fun x y => bool64 (x.ult y))
  | .min t rd a b => alu2 t rd a b (fun x y => if x.slt y then x else y)
  | .max t rd a b => alu2 t rd a b (fun x y => if x.slt y then y else x)
  | .minu t rd a b => alu2 t rd a b (fun x y => if x.ult y then x else y)
  | .maxu t rd a b => alu2 t rd a b (fun x y => if x.ult y then y else x)
  | .clz t rd a => alu1 t rd a (fun x => wd (clzN 64 x.toNat))
  | .ctz t rd a => alu1 t rd a (fun x => wd (ctzN 64 x.toNat))
  | .popc t rd a => alu1 t rd a (fun x => wd (popN 64 x.toNat))
  | .addi t rd a i => alu1 t rd a (fun x => x + i.signExtend 64)
  | .slti t rd a i => alu1 t rd a (fun x => bool64 (x.slt (i.signExtend 64)))
  | .sltiu t rd a i => alu1 t rd a (fun x => bool64 (x.ult (i.signExtend 64)))
  | .xori t rd a i => alu1 t rd a (fun x => x ^^^ i.signExtend 64)
  | .ori t rd a i => alu1 t rd a (fun x => x ||| i.signExtend 64)
  | .andi t rd a i => alu1 t rd a (fun x => x &&& i.signExtend 64)
  | .slli t rd a n => alu1 t rd a (fun x => x <<< n.toNat)
  | .srli t rd a n => alu1 t rd a (fun x => x >>> n.toNat)
  | .srai t rd a n => alu1 t rd a (fun x => x.sshiftRight n.toNat)
  | .addW t rd a b => alu2 t rd a b (fun x y => wRes (lo32 x + lo32 y))
  | .subW t rd a b => alu2 t rd a b (fun x y => wRes (lo32 x - lo32 y))
  | .sllW t rd a b => alu2 t rd a b (fun x y => wRes (lo32 x <<< (y.toNat % 32)))
  | .srlW t rd a b => alu2 t rd a b (fun x y => wRes (lo32 x >>> (y.toNat % 32)))
  | .sraW t rd a b => alu2 t rd a b (fun x y => wRes ((lo32 x).sshiftRight (y.toNat % 32)))
  | .addiW t rd a i => alu1 t rd a (fun x => wRes (lo32 x + i.signExtend 32))
  | .slliW t rd a n => alu1 t rd a (fun x => wRes (lo32 x <<< n.toNat))
  | .srliW t rd a n => alu1 t rd a (fun x => wRes (lo32 x >>> n.toNat))
  | .sraiW t rd a n => alu1 t rd a (fun x => wRes ((lo32 x).sshiftRight n.toNat))
  | .mul t rd a b => alu2 t rd a b (fun x y => x * y)
  | .mulh t rd a b => alu2 t rd a b (fun x y => mulHigh x.toInt y.toInt)
  | .mulhu t rd a b => alu2 t rd a b (fun x y => mulHigh x.toNat y.toNat)
  | .mulhsu t rd a b => alu2 t rd a b (fun x y => mulHigh x.toInt y.toNat)
  | .mulW t rd a b => alu2 t rd a b (fun x y => wRes (lo32 x * lo32 y))
  | .div t rd a b => alu2 t rd a b (fun x y => divS x y)
  | .divu t rd a b => alu2 t rd a b (fun x y => divU x y)
  | .rem t rd a b => alu2 t rd a b (fun x y => remS x y)
  | .remu t rd a b => alu2 t rd a b (fun x y => remU x y)
  | .divW t rd a b => alu2 t rd a b (fun x y => wRes (divS (lo32 x) (lo32 y)))
  | .divuW t rd a b => alu2 t rd a b (fun x y => wRes (divU (lo32 x) (lo32 y)))
  | .remW t rd a b => alu2 t rd a b (fun x y => wRes (remS (lo32 x) (lo32 y)))
  | .remuW t rd a b => alu2 t rd a b (fun x y => wRes (remU (lo32 x) (lo32 y)))
  | .lui t rd i => some { t := t, rd := rd, srcs := [], val := fun _ => i.signExtend 64 <<< 12 }
  | .auipc t rd i => some { t := t, rd := rd, srcs := [], val := fun th => th.pc + (i.signExtend 64 <<< 12) }
  | _ => none

/-- The cycles for which a division occupies its cell's divider (R60); none for the other instructions. -/
def divCycles : Instr → Nat
  | .div _ _ _ _ => 36
  | .divu _ _ _ _ => 36
  | .rem _ _ _ _ => 36
  | .remu _ _ _ _ => 36
  | .divW _ _ _ _ => 20
  | .divuW _ _ _ _ => 20
  | .remW _ _ _ _ => 20
  | .remuW _ _ _ _ => 20
  | _ => 0

/-! ### The divider (R42): a cycle is an ISSUE_SELECT of its cell -/

/-- Whether the cell's divider is free for an instruction that needs it. -/
def divFree (x : CellS) (i : Instr) : Bool := decide (divCycles i = 0) || decide (x.div = 0)

/-- The divider taken by a division. -/
def divTake (s : State) (c : Nat) (i : Instr) : State :=
  if divCycles i = 0 then s else modCell s c (fun x => { x with div := divCycles i })

/-- An integer instruction issued (R41). A division waits until every older decoupled instruction has resolved (R33) and the divider is free (R42). -/
def runAlu (i : Instr) (s : State) : Option State :=
  match aluForm i with
  | some f =>
    if mayIssue s f.t (decide (divCycles i = 0)) (f.rd :: f.srcs) && divFree (cell s (cellOf f.t)) i then
      some (divTake (writeNext (issued s f.t) f.t f.rd (f.val (thread s f.t))) (cellOf f.t) i)
    else none
  | none => none

/-! ## Branches and jumps (R46) -/

/-- A branch: its thread, sources, offset in words and condition. -/
structure BranchForm where
  t : Tid
  a : Reg
  b : Reg
  off : BitVec 12
  cond : Word → Word → Bool

/-- The branches (R46). -/
def branchForm : Instr → Option BranchForm
  | .beq t a b o => some ⟨t, a, b, o, fun x y => decide (x = y)⟩
  | .bne t a b o => some ⟨t, a, b, o, fun x y => decide (x ≠ y)⟩
  | .blt t a b o => some ⟨t, a, b, o, fun x y => x.slt y⟩
  | .bge t a b o => some ⟨t, a, b, o, fun x y => !x.slt y⟩
  | .bltu t a b o => some ⟨t, a, b, o, fun x y => x.ult y⟩
  | .bgeu t a b o => some ⟨t, a, b, o, fun x y => !x.ult y⟩
  | _ => none

/-- A branch issued (R46): the offset counts words from the branch. -/
def runBranch (i : Instr) (s : State) : Option State :=
  match branchForm i with
  | some f =>
    if mayIssue s f.t true [f.a, f.b] then
      let th := thread s f.t
      let d : Word := if f.cond (xget th f.a) (xget th f.b) then f.off.signExtend 64 <<< 2 else 4
      some (modThread (issued s f.t) f.t (fun th => { th with pc := th.pc + d }))
    else none
  | none => none

/-- A jump issued: the link is written and the pc takes the target (R46). -/
def runJump (s : State) (t : Tid) (rd : Reg) (srcs : List Reg) (target : Thread → Word) : Option State :=
  if mayIssue s t true (rd :: srcs) then
    let th := thread s t
    some (modThread (issued s t) t (fun th' => { xset th' rd (th.pc + 4) with pc := target th }))
  else none

/-- `jal` (R46). -/
def jalTarget (imm : BitVec 20) (th : Thread) : Word := th.pc + (imm.signExtend 64 <<< 2)

/-- `jalr` (R46). -/
def jalrTarget (rs1 : Reg) (imm : BitVec 12) (th : Thread) : Word := (xget th rs1 + imm.signExtend 64) &&& ~~~3#64

/-! ## Loads and stores (R43–R45) -/

/-- A scalar load or store: its thread, data register, base, offset, size, and whether a load sign-extends. -/
structure MemForm where
  t : Tid
  r : Reg
  rs1 : Reg
  imm : BitVec 12
  bytes : Nat
  signed : Bool

/-- The loads (R43). -/
def loadForm : Instr → Option MemForm
  | .ldB t rd a i => some ⟨t, rd, a, i, 1, true⟩
  | .ldH t rd a i => some ⟨t, rd, a, i, 2, true⟩
  | .ldW t rd a i => some ⟨t, rd, a, i, 4, true⟩
  | .ldD t rd a i => some ⟨t, rd, a, i, 8, false⟩
  | .ldBu t rd a i => some ⟨t, rd, a, i, 1, false⟩
  | .ldHu t rd a i => some ⟨t, rd, a, i, 2, false⟩
  | .ldWu t rd a i => some ⟨t, rd, a, i, 4, false⟩
  | _ => none

/-- The stores (R43). -/
def storeForm : Instr → Option MemForm
  | .stB t rs a i => some ⟨t, rs, a, i, 1, false⟩
  | .stH t rs a i => some ⟨t, rs, a, i, 2, false⟩
  | .stW t rs a i => some ⟨t, rs, a, i, 4, false⟩
  | .stD t rs a i => some ⟨t, rs, a, i, 8, false⟩
  | _ => none

/-- The address of a scalar access (R43). -/
def MemForm.addr (f : MemForm) (th : Thread) : Word := xget th f.rs1 + f.imm.signExtend 64

/-- Whether an address lies in a no-speculate page, by the translation just used (R103). -/
def nsPage (s : State) (t : Tid) (va : Word) : Bool :=
  decide ((thread s t).level ≠ 2) &&
    (match tlbLookup (cell s (cellOf t)) .load (thread s t).asid va.toNat with
      | some (e, _) => e.ns
      | none => false)

/-- The bytes that the newest overlapping held store gives a load of its own thread: all of them, or the load waits (R33, R49). -/
def holdForward (th : Thread) (pa n : Nat) : Option (Option (List Byte)) :=
  match th.hold.reverse.find? (fun h => decide (h.pa < pa + n) && decide (pa < h.pa + h.data.length)) with
  | none => none
  | some h =>
    if h.pa ≤ pa ∧ pa + n ≤ h.pa + h.data.length then some (some ((h.data.drop (pa - h.pa)).take n)) else some none

/-- The instructions of the vector and tile units that access memory. -/
def unitMem : Instr → Bool
  | .vLd _ _ => true
  | .vLdS _ _ => true
  | .vLdX _ _ => true
  | .vLdSeg _ _ => true
  | .vSt _ _ => true
  | .vStS _ _ => true
  | .vStX _ _ => true
  | .vStSeg _ _ => true
  | .tLd _ _ => true
  | .tSt _ _ => true
  | .updSgdm _ _ => true
  | .updAdamw _ _ => true
  | .updLion _ _ => true
  | _ => false

/-- Whether an older instruction of a unit accesses memory still: a load behind it waits, so that accesses to one byte keep program order (R49). -/
def olderAccess (th : Thread) : Bool := (oldestUnresolved th).elim false (fun e => unitMem e.instr) || loadRuns th

/-- What a thread does with a load's outcome. One that is held has not issued: the thread waits (R31, R231). -/
def loadDone (s0 s : State) (t : Tid) (rd : Reg) (va : Word) (o : LoadOut) : Option State :=
  match o with
  | .value v => some (writeNext (issued s t) t rd v)
  | .pending =>
    some (modThread (issued s t) t (fun th =>
      { th with busy := if rd = 0 then th.busy else setBit th.busy rd.toNat true, pc := th.pc + 4 }))
  | .held => some (modThread s t (fun th => { th with st := .waiting .miss }))
  | .retry => none
  | .poison _ => raiseScalar s0 s t { code := 7, val := va &&& ~~~7#64 }

/-- A load issued (R43–R45). -/
def runLoad (i : Instr) (s : State) : Option State :=
  match loadForm i with
  | none => none
  | some f =>
    if !mayIssue s f.t true [f.r, f.rs1] || olderAccess (thread s f.t) then none
    else
      let th := thread s f.t
      let va := f.addr th
      let c := cellOf f.t
      if va.toNat % f.bytes ≠ 0 then raiseScalar s s f.t { code := 1, val := va }
      else if xlatHeld s c (ctxOf s f.t) va .load then some (xlatWait s f.t (ctxOf s f.t) va .load)
      else
        match translate s c (ctxOf s f.t) va .load with
        | (.error e, s') => raiseScalar s (releaseStreams s' f.t va .load) f.t e
        | (.ok pa, s') =>
          if (isDevice s pa || nsPage s' f.t va) && (oldestUnresolved th).isSome then none
          else if irrevocable s f.t pa false then some (holdAction s' f.t)
          else
            let r : LoadReq := { thr := Fin.ofNat 8 (thrOf f.t), rd := f.r, pa := pa, bytes := f.bytes, signed := f.signed,
                                 va := va, pc := th.pc, level := th.level }
            match holdForward th pa f.bytes with
            | some (some bs) => some (writeNext (issued s' f.t) f.t f.r (loadValue r bs))
            | some none => none
            | none =>
              if ownWaits s' c (thrOf f.t) (pa / 128) (pa % 128) f.bytes then some (waitHome s' f.t [pa / 128])
              else
              let (o, s') := cellLoad s' c (demandAt s' f.t va) r
              loadDone s s' f.t f.r va o

/-- A store issued (R43–R45): behind an unresolved instruction it is held in the retire window (R33); one that finds no write-buffer entry waits (R225). -/
def runStore (i : Instr) (s : State) : Option State :=
  match storeForm i with
  | none => none
  | some f =>
    if !mayIssue s f.t true [f.r, f.rs1] then none
    else
      let th := thread s f.t
      let va := f.addr th
      let c := cellOf f.t
      if va.toNat % f.bytes ≠ 0 then raiseScalar s s f.t { code := 1, val := va }
      else if xlatHeld s c (ctxOf s f.t) va .store then some (xlatWait s f.t (ctxOf s f.t) va .store)
      else
        match translate s c (ctxOf s f.t) va .store with
        | (.error e, s') => raiseScalar s (releaseStreams s' f.t va .store) f.t e
        | (.ok pa, s') =>
          let bs := leBytes (xget th f.r).toNat f.bytes
          let seen (s : State) : State := if inHbm pa then trainStreams s c (thrOf f.t) (demandAt s f.t va) false else s
          if isDevice s pa && (oldestUnresolved th).isSome then none
          else if irrevocable s f.t pa true then some (holdAction s' f.t)
          else if (oldestUnresolved th).isSome then
            some (nextPc (issued (modThread (seen s') f.t (fun th => { th with hold := th.hold ++ [{ pa := pa, data := bs }] })) f.t) f.t)
          else if !storeRoom (cell s' c) (thrOf f.t) (pa / 128) (isDevice s pa) then some (storeWaits s' f.t)
          else some (nextPc (cellStore (issued (seen s') f.t) c (thrOf f.t) pa bs) f.t)

/-! ## The rows -/

/-- ADD (R41). -/
def execAdd (t : Tid) (rd rs1 rs2 : Reg) (s : State) : Host.Outcome State Fault Refusal := .next ((runAlu (.add t rd rs1 rs2) s).getD s)

/-- SUB (R41). -/
def execSub (t : Tid) (rd rs1 rs2 : Reg) (s : State) : Host.Outcome State Fault Refusal := .next ((runAlu (.sub t rd rs1 rs2) s).getD s)

/-- AND (R41). -/
def execAnd (t : Tid) (rd rs1 rs2 : Reg) (s : State) : Host.Outcome State Fault Refusal := .next ((runAlu (.and t rd rs1 rs2) s).getD s)

/-- OR (R41). -/
def execOr (t : Tid) (rd rs1 rs2 : Reg) (s : State) : Host.Outcome State Fault Refusal := .next ((runAlu (.or t rd rs1 rs2) s).getD s)

/-- XOR (R41). -/
def execXor (t : Tid) (rd rs1 rs2 : Reg) (s : State) : Host.Outcome State Fault Refusal := .next ((runAlu (.xor t rd rs1 rs2) s).getD s)

/-- SLL (R41). -/
def execSll (t : Tid) (rd rs1 rs2 : Reg) (s : State) : Host.Outcome State Fault Refusal := .next ((runAlu (.sll t rd rs1 rs2) s).getD s)

/-- SRL (R41). -/
def execSrl (t : Tid) (rd rs1 rs2 : Reg) (s : State) : Host.Outcome State Fault Refusal := .next ((runAlu (.srl t rd rs1 rs2) s).getD s)

/-- SRA (R41). -/
def execSra (t : Tid) (rd rs1 rs2 : Reg) (s : State) : Host.Outcome State Fault Refusal := .next ((runAlu (.sra t rd rs1 rs2) s).getD s)

/-- SLT (R41). -/
def execSlt (t : Tid) (rd rs1 rs2 : Reg) (s : State) : Host.Outcome State Fault Refusal := .next ((runAlu (.slt t rd rs1 rs2) s).getD s)

/-- SLTU (R41). -/
def execSltu (t : Tid) (rd rs1 rs2 : Reg) (s : State) : Host.Outcome State Fault Refusal := .next ((runAlu (.sltu t rd rs1 rs2) s).getD s)

/-- MIN (R41). -/
def execMin (t : Tid) (rd rs1 rs2 : Reg) (s : State) : Host.Outcome State Fault Refusal := .next ((runAlu (.min t rd rs1 rs2) s).getD s)

/-- MAX (R41). -/
def execMax (t : Tid) (rd rs1 rs2 : Reg) (s : State) : Host.Outcome State Fault Refusal := .next ((runAlu (.max t rd rs1 rs2) s).getD s)

/-- MINU (R41). -/
def execMinu (t : Tid) (rd rs1 rs2 : Reg) (s : State) : Host.Outcome State Fault Refusal := .next ((runAlu (.minu t rd rs1 rs2) s).getD s)

/-- MAXU (R41). -/
def execMaxu (t : Tid) (rd rs1 rs2 : Reg) (s : State) : Host.Outcome State Fault Refusal := .next ((runAlu (.maxu t rd rs1 rs2) s).getD s)

/-- CLZ (R41). -/
def execClz (t : Tid) (rd rs1 : Reg) (s : State) : Host.Outcome State Fault Refusal := .next ((runAlu (.clz t rd rs1) s).getD s)

/-- CTZ (R41). -/
def execCtz (t : Tid) (rd rs1 : Reg) (s : State) : Host.Outcome State Fault Refusal := .next ((runAlu (.ctz t rd rs1) s).getD s)

/-- POPC (R41). -/
def execPopc (t : Tid) (rd rs1 : Reg) (s : State) : Host.Outcome State Fault Refusal := .next ((runAlu (.popc t rd rs1) s).getD s)

/-- ADDI (R41). -/
def execAddi (t : Tid) (rd rs1 : Reg) (imm : BitVec 12) (s : State) : Host.Outcome State Fault Refusal := .next ((runAlu (.addi t rd rs1 imm) s).getD s)

/-- SLTI (R41). -/
def execSlti (t : Tid) (rd rs1 : Reg) (imm : BitVec 12) (s : State) : Host.Outcome State Fault Refusal := .next ((runAlu (.slti t rd rs1 imm) s).getD s)

/-- SLTIU (R41). -/
def execSltiu (t : Tid) (rd rs1 : Reg) (imm : BitVec 12) (s : State) : Host.Outcome State Fault Refusal := .next ((runAlu (.sltiu t rd rs1 imm) s).getD s)

/-- XORI (R41). -/
def execXori (t : Tid) (rd rs1 : Reg) (imm : BitVec 12) (s : State) : Host.Outcome State Fault Refusal := .next ((runAlu (.xori t rd rs1 imm) s).getD s)

/-- ORI (R41). -/
def execOri (t : Tid) (rd rs1 : Reg) (imm : BitVec 12) (s : State) : Host.Outcome State Fault Refusal := .next ((runAlu (.ori t rd rs1 imm) s).getD s)

/-- ANDI (R41). -/
def execAndi (t : Tid) (rd rs1 : Reg) (imm : BitVec 12) (s : State) : Host.Outcome State Fault Refusal := .next ((runAlu (.andi t rd rs1 imm) s).getD s)

/-- SLLI (R41). -/
def execSlli (t : Tid) (rd rs1 : Reg) (sh : BitVec 6) (s : State) : Host.Outcome State Fault Refusal := .next ((runAlu (.slli t rd rs1 sh) s).getD s)

/-- SRLI (R41). -/
def execSrli (t : Tid) (rd rs1 : Reg) (sh : BitVec 6) (s : State) : Host.Outcome State Fault Refusal := .next ((runAlu (.srli t rd rs1 sh) s).getD s)

/-- SRAI (R41). -/
def execSrai (t : Tid) (rd rs1 : Reg) (sh : BitVec 6) (s : State) : Host.Outcome State Fault Refusal := .next ((runAlu (.srai t rd rs1 sh) s).getD s)

/-- ADD_W (R41). -/
def execAddW (t : Tid) (rd rs1 rs2 : Reg) (s : State) : Host.Outcome State Fault Refusal := .next ((runAlu (.addW t rd rs1 rs2) s).getD s)

/-- SUB_W (R41). -/
def execSubW (t : Tid) (rd rs1 rs2 : Reg) (s : State) : Host.Outcome State Fault Refusal := .next ((runAlu (.subW t rd rs1 rs2) s).getD s)

/-- SLL_W (R41). -/
def execSllW (t : Tid) (rd rs1 rs2 : Reg) (s : State) : Host.Outcome State Fault Refusal := .next ((runAlu (.sllW t rd rs1 rs2) s).getD s)

/-- SRL_W (R41). -/
def execSrlW (t : Tid) (rd rs1 rs2 : Reg) (s : State) : Host.Outcome State Fault Refusal := .next ((runAlu (.srlW t rd rs1 rs2) s).getD s)

/-- SRA_W (R41). -/
def execSraW (t : Tid) (rd rs1 rs2 : Reg) (s : State) : Host.Outcome State Fault Refusal := .next ((runAlu (.sraW t rd rs1 rs2) s).getD s)

/-- ADDI_W (R41). -/
def execAddiW (t : Tid) (rd rs1 : Reg) (imm : BitVec 12) (s : State) : Host.Outcome State Fault Refusal := .next ((runAlu (.addiW t rd rs1 imm) s).getD s)

/-- SLLI_W (R41). -/
def execSlliW (t : Tid) (rd rs1 : Reg) (sh : BitVec 5) (s : State) : Host.Outcome State Fault Refusal := .next ((runAlu (.slliW t rd rs1 sh) s).getD s)

/-- SRLI_W (R41). -/
def execSrliW (t : Tid) (rd rs1 : Reg) (sh : BitVec 5) (s : State) : Host.Outcome State Fault Refusal := .next ((runAlu (.srliW t rd rs1 sh) s).getD s)

/-- SRAI_W (R41). -/
def execSraiW (t : Tid) (rd rs1 : Reg) (sh : BitVec 5) (s : State) : Host.Outcome State Fault Refusal := .next ((runAlu (.sraiW t rd rs1 sh) s).getD s)

/-- MUL (R41). -/
def execMul (t : Tid) (rd rs1 rs2 : Reg) (s : State) : Host.Outcome State Fault Refusal := .next ((runAlu (.mul t rd rs1 rs2) s).getD s)

/-- MULH (R41). -/
def execMulh (t : Tid) (rd rs1 rs2 : Reg) (s : State) : Host.Outcome State Fault Refusal := .next ((runAlu (.mulh t rd rs1 rs2) s).getD s)

/-- MULHU (R41). -/
def execMulhu (t : Tid) (rd rs1 rs2 : Reg) (s : State) : Host.Outcome State Fault Refusal := .next ((runAlu (.mulhu t rd rs1 rs2) s).getD s)

/-- MULHSU (R41). -/
def execMulhsu (t : Tid) (rd rs1 rs2 : Reg) (s : State) : Host.Outcome State Fault Refusal := .next ((runAlu (.mulhsu t rd rs1 rs2) s).getD s)

/-- MUL_W (R41). -/
def execMulW (t : Tid) (rd rs1 rs2 : Reg) (s : State) : Host.Outcome State Fault Refusal := .next ((runAlu (.mulW t rd rs1 rs2) s).getD s)

/-- DIV (R42). -/
def execDiv (t : Tid) (rd rs1 rs2 : Reg) (s : State) : Host.Outcome State Fault Refusal := .next ((runAlu (.div t rd rs1 rs2) s).getD s)

/-- DIVU (R42). -/
def execDivu (t : Tid) (rd rs1 rs2 : Reg) (s : State) : Host.Outcome State Fault Refusal := .next ((runAlu (.divu t rd rs1 rs2) s).getD s)

/-- REM (R42). -/
def execRem (t : Tid) (rd rs1 rs2 : Reg) (s : State) : Host.Outcome State Fault Refusal := .next ((runAlu (.rem t rd rs1 rs2) s).getD s)

/-- REMU (R42). -/
def execRemu (t : Tid) (rd rs1 rs2 : Reg) (s : State) : Host.Outcome State Fault Refusal := .next ((runAlu (.remu t rd rs1 rs2) s).getD s)

/-- DIV_W (R42). -/
def execDivW (t : Tid) (rd rs1 rs2 : Reg) (s : State) : Host.Outcome State Fault Refusal := .next ((runAlu (.divW t rd rs1 rs2) s).getD s)

/-- DIVU_W (R42). -/
def execDivuW (t : Tid) (rd rs1 rs2 : Reg) (s : State) : Host.Outcome State Fault Refusal := .next ((runAlu (.divuW t rd rs1 rs2) s).getD s)

/-- REM_W (R42). -/
def execRemW (t : Tid) (rd rs1 rs2 : Reg) (s : State) : Host.Outcome State Fault Refusal := .next ((runAlu (.remW t rd rs1 rs2) s).getD s)

/-- REMU_W (R42). -/
def execRemuW (t : Tid) (rd rs1 rs2 : Reg) (s : State) : Host.Outcome State Fault Refusal := .next ((runAlu (.remuW t rd rs1 rs2) s).getD s)

/-- LUI (R41). -/
def execLui (t : Tid) (rd : Reg) (imm : BitVec 20) (s : State) : Host.Outcome State Fault Refusal := .next ((runAlu (.lui t rd imm) s).getD s)

/-- AUIPC (R41). -/
def execAuipc (t : Tid) (rd : Reg) (imm : BitVec 20) (s : State) : Host.Outcome State Fault Refusal := .next ((runAlu (.auipc t rd imm) s).getD s)

/-- BEQ (R46). -/
def execBeq (t : Tid) (rs1 rs2 : Reg) (off : BitVec 12) (s : State) : Host.Outcome State Fault Refusal := .next ((runBranch (.beq t rs1 rs2 off) s).getD s)

/-- BNE (R46). -/
def execBne (t : Tid) (rs1 rs2 : Reg) (off : BitVec 12) (s : State) : Host.Outcome State Fault Refusal := .next ((runBranch (.bne t rs1 rs2 off) s).getD s)

/-- BLT (R46). -/
def execBlt (t : Tid) (rs1 rs2 : Reg) (off : BitVec 12) (s : State) : Host.Outcome State Fault Refusal := .next ((runBranch (.blt t rs1 rs2 off) s).getD s)

/-- BGE (R46). -/
def execBge (t : Tid) (rs1 rs2 : Reg) (off : BitVec 12) (s : State) : Host.Outcome State Fault Refusal := .next ((runBranch (.bge t rs1 rs2 off) s).getD s)

/-- BLTU (R46). -/
def execBltu (t : Tid) (rs1 rs2 : Reg) (off : BitVec 12) (s : State) : Host.Outcome State Fault Refusal := .next ((runBranch (.bltu t rs1 rs2 off) s).getD s)

/-- BGEU (R46). -/
def execBgeu (t : Tid) (rs1 rs2 : Reg) (off : BitVec 12) (s : State) : Host.Outcome State Fault Refusal := .next ((runBranch (.bgeu t rs1 rs2 off) s).getD s)

/-- JAL (R46). -/
def execJal (t : Tid) (rd : Reg) (imm : BitVec 20) (s : State) : Host.Outcome State Fault Refusal := .next ((runJump s t rd [] (jalTarget imm)).getD s)

/-- JALR (R46). -/
def execJalr (t : Tid) (rd rs1 : Reg) (imm : BitVec 12) (s : State) : Host.Outcome State Fault Refusal := .next ((runJump s t rd [rs1] (jalrTarget rs1 imm)).getD s)

/-- LD_B (R43). -/
def execLdB (t : Tid) (rd rs1 : Reg) (imm : BitVec 12) (s : State) : Host.Outcome State Fault Refusal := .next ((runLoad (.ldB t rd rs1 imm) s).getD s)

/-- LD_H (R43). -/
def execLdH (t : Tid) (rd rs1 : Reg) (imm : BitVec 12) (s : State) : Host.Outcome State Fault Refusal := .next ((runLoad (.ldH t rd rs1 imm) s).getD s)

/-- LD_W (R43). -/
def execLdW (t : Tid) (rd rs1 : Reg) (imm : BitVec 12) (s : State) : Host.Outcome State Fault Refusal := .next ((runLoad (.ldW t rd rs1 imm) s).getD s)

/-- LD_D (R43). -/
def execLdD (t : Tid) (rd rs1 : Reg) (imm : BitVec 12) (s : State) : Host.Outcome State Fault Refusal := .next ((runLoad (.ldD t rd rs1 imm) s).getD s)

/-- LD_BU (R43). -/
def execLdBu (t : Tid) (rd rs1 : Reg) (imm : BitVec 12) (s : State) : Host.Outcome State Fault Refusal := .next ((runLoad (.ldBu t rd rs1 imm) s).getD s)

/-- LD_HU (R43). -/
def execLdHu (t : Tid) (rd rs1 : Reg) (imm : BitVec 12) (s : State) : Host.Outcome State Fault Refusal := .next ((runLoad (.ldHu t rd rs1 imm) s).getD s)

/-- LD_WU (R43). -/
def execLdWu (t : Tid) (rd rs1 : Reg) (imm : BitVec 12) (s : State) : Host.Outcome State Fault Refusal := .next ((runLoad (.ldWu t rd rs1 imm) s).getD s)

/-- ST_B (R43). -/
def execStB (t : Tid) (rs2 rs1 : Reg) (imm : BitVec 12) (s : State) : Host.Outcome State Fault Refusal := .next ((runStore (.stB t rs2 rs1 imm) s).getD s)

/-- ST_H (R43). -/
def execStH (t : Tid) (rs2 rs1 : Reg) (imm : BitVec 12) (s : State) : Host.Outcome State Fault Refusal := .next ((runStore (.stH t rs2 rs1 imm) s).getD s)

/-- ST_W (R43). -/
def execStW (t : Tid) (rs2 rs1 : Reg) (imm : BitVec 12) (s : State) : Host.Outcome State Fault Refusal := .next ((runStore (.stW t rs2 rs1 imm) s).getD s)

/-- ST_D (R43). -/
def execStD (t : Tid) (rs2 rs1 : Reg) (imm : BitVec 12) (s : State) : Host.Outcome State Fault Refusal := .next ((runStore (.stD t rs2 rs1 imm) s).getD s)

end Sys2Proof.Machine
end

