-- ==== Sys2Proof/Machine/Vector.lean ====
section
/-! DEFINITION. Vector registers and predicates, the 32-bit vector instructions and the long forms `v.cvt`, `v.mfma`, `v.stat`, `v.stat.merge` (R104–R133). -/

namespace Sys2Proof.Machine

/-! ## Registers, groups, predicates (R104–R107) -/

/-- A vector register as a number. -/
def vget (th : Thread) (r : Nat) : Nat := (tget 0 th.v r).toNat

/-- A vector register written. -/
def vset (th : Thread) (r : Nat) (v : Nat) : Thread := { th with v := tset 0 th.v r (BitVec.ofNat 8192 v) }

/-- A predicate: q0 reads all ones (R104). -/
def qget (th : Thread) (q : Nat) : Nat := if q = 0 then 2 ^ 1024 - 1 else (tget 0 th.q q).toNat

/-- A predicate written: a write to q0 is discarded (R104). -/
def qset (th : Thread) (q : Nat) (v : Nat) : Thread := if q = 0 then th else { th with q := tset 0 th.q q (BitVec.ofNat 1024 v) }

/-- Registers from r on as one bit string, k of them. -/
def groupVal (th : Thread) (r k : Nat) : Nat := (List.range k).foldr (fun j acc => vget th (r + j) + acc <<< 8192) 0

/-- The first n elements of w bits of a bit string (R105). -/
def elems (v w n : Nat) : List Nat := (List.range n).map (fun i => (v >>> (w * i)) % 2 ^ w)

/-- Registers that n elements of w bits take. -/
def regsOf (w n : Nat) : Nat := (w * n + 8191) / 8192

/-- The n elements of w bits of the group at register r. -/
def groupEls (th : Thread) (r w n : Nat) : List Nat := elems (groupVal th r (regsOf w n)) w n

/-- Elements of w bits as a bit string. -/
def ofElems (w : Nat) (l : List Nat) : Nat := l.foldr (fun x acc => x % 2 ^ w + acc <<< w) 0

/-- Elements written over the low bits of the group at register r; bits above them keep their values. -/
def putGroup (th : Thread) (r w : Nat) (l : List Nat) : Thread :=
  let k := regsOf w l.length
  let old := groupVal th r k
  let v := (old >>> (w * l.length)) <<< (w * l.length) + ofElems w l
  (List.range k).foldl (fun th j => vset th (r + j) ((v >>> (8192 * j)) % 2 ^ 8192)) th

/-- The governing bit of element i of w bits in a group of g (R107). -/
def govBit (w g i : Nat) : Nat := i * w / (8 * g)

/-- Whether element i is active under a predicate. -/
def active (q w g i : Nat) : Bool := q.testBit (govBit w g i)

/-- Bits of an integer or memory element type (R109). -/
def etBits (et : BitVec 3) : Option Nat :=
  match et.toNat with
  | 0 => some 8
  | 1 => some 16
  | 2 => some 32
  | 3 => some 64
  | 4 => some 4
  | _ => none

/-- The floating format code of an element type (R109). -/
def etFloat (et : BitVec 3) : Option Nat :=
  match et.toNat with
  | 1 => some 2
  | 2 => some 0
  | 3 => some 0xD
  | 5 => some 1
  | _ => none

/-- The group size of a GRP field (R108). -/
def grpSize (g : BitVec 2) : Nat := 2 ^ g.toNat

/-- The layout of a floating format code that has one. -/
def ffmtD (c : Nat) : FFmt := (ffmt c).getD f32

/-! ## What an instruction leaves -/

/-- What a vector or tile instruction reads at issue (R32, R93, R149): its scalar operands, its context, the step of its random bits, its pc. -/
structure DCtx where
  a : Word
  b : Word
  d : Word
  more : List Word
  x : XCtx
  step : Word
  pc : Word
  word : Word
  /-- What the element numbers of a program's vector instructions count from (R278). -/
  base : Word := 0

/-- What a register-only vector instruction leaves: illegal, or the thread's registers, flags and the scalar result. -/
inductive VOut where
  | illegal
  | ok (th : Thread) (flags : Nat) (res : Option Word)

/-- The random-bit context of an instruction (R149). -/
def srCtx (th : Thread) (d : DCtx) : SrCtx := { seed := tget 0 th.sr 3, stream := tget 0 th.sr 4, step := d.step, base := d.base }

/-- The rounding mode FRM selects (R145). -/
def frm (th : Thread) : Nat := (tget 0 th.sr 1).toNat % 4

/-- The mode of an RM field (R146). -/
def rmOf (th : Thread) (rm : Nat) : Nat := if rm = 3 then frm th else rm

/-! ## Element operations -/

/-- A value saturated to a signed w-bit element, with QSAT. -/
def satS (w : Nat) (v : Int) : Fl Nat :=
  let c := clampI (-(2 ^ (w - 1) : Int)) (2 ^ (w - 1) - 1) v
  ((BitVec.ofInt w c).toNat, if c = v then 0 else fQSAT)

/-- A value saturated to an unsigned w-bit element, with QSAT. -/
def satU (w : Nat) (v : Int) : Fl Nat :=
  let c := clampI 0 (2 ^ w - 1) v
  (c.toNat, if c = v then 0 else fQSAT)

/-- A value taken modulo 2^w. -/
def modW (w : Nat) (v : Int) : Nat := (BitVec.ofInt w v).toNat

/-- An arithmetic right shift rounded half up, or to even on a tie (R116). -/
def shiftRound (even : Bool) (v : Int) (s : Nat) : Int :=
  let r := v >>> s
  let rem := v - r * 2 ^ s
  if 2 * rem > 2 ^ s ∨ (2 * rem = 2 ^ s ∧ s ≠ 0 ∧ (!even ∨ r % 2 ≠ 0)) then r + 1 else r

/-- The two-operand integer operations on w-bit elements (R115). -/
def intOp : Instr → Option (Tid × VForm × (Nat → Nat → Nat → Fl Nat))
  | .vAdd t f => some (t, f, fun w a b => ((a + b) % 2 ^ w, 0))
  | .vSub t f => some (t, f, fun w a b => ((2 ^ w + a - b) % 2 ^ w, 0))
  | .vMul t f => some (t, f, fun w a b => (a * b % 2 ^ w, 0))
  | .vMulh t f => some (t, f, fun w a b => (modW w ((sval w a * sval w b) >>> w), 0))
  | .vMulhu t f => some (t, f, fun w a b => (a * b / 2 ^ w, 0))
  | .vMulhsu t f => some (t, f, fun w a b => (modW w ((sval w a * b) >>> w), 0))
  | .vMin t f => some (t, f, fun w a b => (if sval w a < sval w b then a else b, 0))
  | .vMax t f => some (t, f, fun w a b => (if sval w a < sval w b then b else a, 0))
  | .vMinu t f => some (t, f, fun _ a b => (if a < b then a else b, 0))
  | .vMaxu t f => some (t, f, fun _ a b => (if a < b then b else a, 0))
  | .vAnd t f => some (t, f, fun _ a b => (a &&& b, 0))
  | .vOr t f => some (t, f, fun _ a b => (a ||| b, 0))
  | .vXor t f => some (t, f, fun _ a b => (a ^^^ b, 0))
  | .vAndn t f => some (t, f, fun w a b => (a &&& (2 ^ w - 1 - b), 0))
  | .vSll t f => some (t, f, fun w a b => ((a <<< (b % w)) % 2 ^ w, 0))
  | .vSrl t f => some (t, f, fun w a b => (a >>> (b % w), 0))
  | .vSra t f => some (t, f, fun w a b => (modW w (sval w a >>> (b % w)), 0))
  | .vSrar t f => some (t, f, fun w a b => (modW w (shiftRound false (sval w a) (b % w)), 0))
  | .vSadd t f => some (t, f, fun w a b => satS w (sval w a + sval w b))
  | .vSsub t f => some (t, f, fun w a b => satS w (sval w a - sval w b))
  | .vSaddu t f => some (t, f, fun w a b => satU w ((a : Int) + b))
  | .vSsubu t f => some (t, f, fun w a b => satU w ((a : Int) - b))
  | .vQmul t f => some (t, f, fun w a b => satS w (shiftRound false (sval w a * sval w b) (w - 1)))
  | .vQmulRne t f => some (t, f, fun w a b => satS w (shiftRound true (sval w a * sval w b) (w - 1)))
  | _ => none

/-- Whether an integer operation excludes 4-bit elements (R110). -/
def excludes4 : Instr → Bool
  | .vQmul _ _ => true
  | .vQmulRne _ _ => true
  | _ => false

/-- Whether a group register number is a multiple of its group size (R106, R111). -/
def aligned (r : Reg) (g : Nat) : Bool := decide (r.toNat % g = 0)

/-- Elements mapped over an old list: active ones take the result, the others stay; flags are joined (R112). -/
def mapActive (q w g : Nat) (old : List Nat) (f : Nat → Nat → Fl Nat) : Fl (List Nat) :=
  let r := (old.zip (List.range old.length)).map (fun p => if active q w g p.2 then f p.2 p.1 else (p.1, 0))
  (r.map (fun x => x.1), r.foldl (fun a x => a ||| x.2) 0)

/-- A two-operand instruction on a group (R112–R116). -/
def vInt (i : Instr) (f : VForm) (op : Nat → Nat → Nat → Fl Nat) (th : Thread) : VOut :=
  let g := grpSize f.grp
  match etBits f.et with
  | none => .illegal
  | some w =>
    if 12 ≤ f.qp.toNat || (excludes4 i && decide (w = 4)) || !aligned f.vd g || !aligned f.vs1 g || !aligned f.vs2 g then .illegal
    else
      let n := g * 8192 / w
      let a := groupEls th f.vs1.toNat w n
      let b := groupEls th f.vs2.toNat w n
      let (l, fl) := mapActive (qget th f.qp.toNat) w g (groupEls th f.vd.toNat w n) (fun k _ => op w (a.getD k 0) (b.getD k 0))
      .ok (putGroup th f.vd.toNat w l) fl none

/-- The narrowing instructions: whether the result is signed, whether ties go to even (R116). -/
def narrowOp : Instr → Option (Tid × VForm × Bool × Bool)
  | .vNarrowS t f => some (t, f, true, false)
  | .vNarrowU t f => some (t, f, false, false)
  | .vNarrowSRne t f => some (t, f, true, true)
  | .vNarrowURne t f => some (t, f, false, true)
  | _ => none

/-- A narrowing instruction (R116). -/
def vNarrow (f : VForm) (sgn even : Bool) (th : Thread) : VOut :=
  let g := grpSize f.grp
  match etBits f.et with
  | none => .illegal
  | some w =>
    if 12 ≤ f.qp.toNat || decide (w = 64) || decide (g = 8) || !aligned f.vd g || !aligned f.vs1 (2 * g) || !aligned f.vs2 (2 * g) then .illegal
    else
      let n := g * 8192 / w
      let a := groupEls th f.vs1.toNat (2 * w) n
      let b := groupEls th f.vs2.toNat (2 * w) n
      let op (k : Nat) (_ : Nat) : Fl Nat :=
        let r := shiftRound even (sval (2 * w) (a.getD k 0)) (b.getD k 0 % (2 * w))
        if sgn then satS w r else satU w r
      let (l, fl) := mapActive (qget th f.qp.toNat) w g (groupEls th f.vd.toNat w n) op
      .ok (putGroup th f.vd.toNat w l) fl none

/-- minimumNumber and maximumNumber (R117): a NaN loses to a number, −0 orders below +0. -/
def fMinMax (mx : Bool) (a b : FV) : Fl FV :=
  let fl := nanFlags [a, b]
  match a.isNan, b.isNan with
  | true, true => (.nan false, fl)
  | true, false => (b, fl)
  | false, true => (a, fl)
  | false, false =>
    let c := FV.cmp a b
    let less := if c = 0 then (match a with | .fin n _ _ => n | .inf n => n | .nan _ => false) else decide (c < 0)
    (if less = mx then b else a, fl)

/-- The floating operations on exact values a, b and the old destination (R117). -/
def floatOp : Instr → Option (Tid × VForm × (FV → FV → FV → Fl FV))
  | .vFadd t f => some (t, f, fun a b _ => FV.add a b)
  | .vFsub t f => some (t, f, fun a b _ => FV.add a b.neg)
  | .vFmul t f => some (t, f, fun a b _ => FV.mul a b)
  | .vFdiv t f => some (t, f, fun a b _ => FV.div a b)
  | .vFma t f => some (t, f, fun a b d => FV.fma a b d)
  | .vFnma t f => some (t, f, fun a b d => FV.fma a.neg b d)
  | .vFmin t f => some (t, f, fun a b _ => fMinMax false a b)
  | .vFmax t f => some (t, f, fun a b _ => fMinMax true a b)
  | _ => none

/-- A two-operand floating instruction (R117): each result is rounded once by FRM. -/
def vFloat (f : VForm) (op : FV → FV → FV → Fl FV) (th : Thread) (d : DCtx) : VOut :=
  let g := grpSize f.grp
  match etFloat f.et with
  | none => .illegal
  | some c =>
    if 12 ≤ f.qp.toNat || !aligned f.vd g || !aligned f.vs1 g || !aligned f.vs2 g then .illegal
    else
      let w := fmtBits c
      let n := g * 8192 / w
      let a := groupEls th f.vs1.toNat w n
      let b := groupEls th f.vs2.toNat w n
      let (l, fl) := mapActive (qget th f.qp.toNat) w g (groupEls th f.vd.toNat w n) (fun k old =>
        let (v, f1) := op (edec c (a.getD k 0)) (edec c (b.getD k 0)) (edec c old)
        let (r, f2) := fenc (ffmtD c) (rndAt (frm th) (srCtx th d) (wd k)) false v
        (r, f1 ||| f2))
      .ok (putGroup th f.vd.toNat w l) fl none

/-- A one-operand floating instruction on codes: format, rounding, element. -/
def vUnary (f : VForm) (op : Nat → Rnd → Nat → Fl Nat) (th : Thread) (d : DCtx) : VOut :=
  let g := grpSize f.grp
  match etFloat f.et with
  | none => .illegal
  | some c =>
    if 12 ≤ f.qp.toNat || !aligned f.vd g || !aligned f.vs1 g then .illegal
    else
      let w := fmtBits c
      let n := g * 8192 / w
      let a := groupEls th f.vs1.toNat w n
      let (l, fl) := mapActive (qget th f.qp.toNat) w g (groupEls th f.vd.toNat w n)
        (fun k _ => op c (rndAt (frm th) (srCtx th d) (wd k)) (a.getD k 0))
      .ok (putGroup th f.vd.toNat w l) fl none

/-- The unary floating operations (R117). -/
def unaryOp : Instr → Option (Tid × VForm × (Nat → Rnd → Nat → Fl Nat))
  | .vFsqrt t f => some (t, f, fun c r a =>
      let (v, f1) := FV.sqrt (edec c a)
      let (x, f2) := fenc (ffmtD c) r false v
      (x, f1 ||| f2))
  | .vFabs t f => some (t, f, fun c _ a => (a % 2 ^ (fmtBits c - 1), 0))
  | .vFneg t f => some (t, f, fun c _ a => (a ^^^ 2 ^ (fmtBits c - 1), 0))
  | _ => none

/-- The integer compares (R118). -/
def cmpOp : Instr → Option (Tid × VForm × (Nat → Nat → Nat → Bool))
  | .vCmpEq t f => some (t, f, fun _ a b => decide (a = b))
  | .vCmpNe t f => some (t, f, fun _ a b => decide (a ≠ b))
  | .vCmpLt t f => some (t, f, fun w a b => decide (sval w a < sval w b))
  | .vCmpLe t f => some (t, f, fun w a b => decide (sval w a ≤ sval w b))
  | .vCmpGt t f => some (t, f, fun w a b => decide (sval w b < sval w a))
  | .vCmpGe t f => some (t, f, fun w a b => decide (sval w b ≤ sval w a))
  | .vCmpLtu t f => some (t, f, fun _ a b => decide (a < b))
  | .vCmpLeu t f => some (t, f, fun _ a b => decide (a ≤ b))
  | _ => none

/-- The floating compares, with their flags (R118). -/
def fcmpOp : Instr → Option (Tid × VForm × (FV → FV → Bool × Nat))
  | .vFcmpEq t f => some (t, f, fun a b => (!a.isNan && !b.isNan && decide (FV.cmp a b = 0), nanFlags [a, b]))
  | .vFcmpLt t f => some (t, f, fun a b => (!a.isNan && !b.isNan && decide (FV.cmp a b < 0), if a.isNan || b.isNan then fNV else 0))
  | .vFcmpLe t f => some (t, f, fun a b => (!a.isNan && !b.isNan && decide (FV.cmp a b ≤ 0), if a.isNan || b.isNan then fNV else 0))
  | .vFcmpUn t f => some (t, f, fun a b => (a.isNan || b.isNan, nanFlags [a, b]))
  | _ => none

/-- A predicate written from the truth of each active element (R113). -/
def predFrom (q w g n : Nat) (p : Nat → Bool × Nat) : Nat × Nat :=
  (List.range n).foldl (fun acc k =>
    if active q w g k then
      let (b, fl) := p k
      (if b then acc.1 ||| (1 <<< govBit w g k) else acc.1, acc.2 ||| fl)
    else acc) (0, 0)

/-- The destination predicate of a compare. `v.pwhile` ignores bit [24], to which R108 gives a meaning in compares and predicate logic only (DESIGN CHOICE, log 105). -/
def qdOf (f : VForm) : Nat := f.vd.toNat % 16

/-- A compare of groups of w-bit elements (R113, R118). -/
def vCompare (f : VForm) (w : Nat) (p : Nat → Nat → Bool × Nat) (th : Thread) : VOut :=
  let g := grpSize f.grp
  if 12 ≤ f.qp.toNat || decide (12 ≤ qdOf f) || decide (w < 8 * g) || !aligned f.vs1 g || !aligned f.vs2 g then .illegal
  else
    let n := g * 8192 / w
    let a := groupEls th f.vs1.toNat w n
    let b := groupEls th f.vs2.toNat w n
    let (v, fl) := predFrom (qget th f.qp.toNat) w g n (fun k => p (a.getD k 0) (b.getD k 0))
    .ok (qset th (qdOf f) v) fl none

/-- The predicate logic instructions (R119). -/
def predOp : Instr → Option (Tid × VForm × (Nat → Nat → Nat))
  | .vPand t f => some (t, f, fun a b => a &&& b)
  | .vPor t f => some (t, f, fun a b => a ||| b)
  | .vPxor t f => some (t, f, fun a b => a ^^^ b)
  | .vPandn t f => some (t, f, fun a b => a &&& (2 ^ 1024 - 1 - b))
  | _ => none

/-- Predicate logic (R110, R119). Source numbers 12–15, of which R110 says nothing, are refused as those of QP and qd are (DESIGN CHOICE, log 105). -/
def vPred (f : VForm) (op : Nat → Nat → Nat) (th : Thread) : VOut :=
  if f.et ≠ 0 || f.grp ≠ 0 || f.qp ≠ 0 || decide (12 ≤ qdOf f) || decide (12 ≤ f.vs1.toNat) || decide (12 ≤ f.vs2.toNat) then .illegal
  else .ok (qset th (qdOf f) (op (qget th f.vs1.toNat) (qget th f.vs2.toNat))) 0 none

/-! ## Reductions (R128) -/

/-- The lanes and the pairwise fold of R128. -/
def foldPairs {α : Type} (comb : α → α → α) : Nat → List (Option α) → Option α
  | 0, l => l.headD none
  | k + 1, l =>
    if l.length ≤ 1 then l.headD none
    else
      let both (a b : Option α) : Option α :=
        match a, b with
        | some x, some y => some (comb x y)
        | some x, none => some x
        | none, y => y
      let half := (List.range (l.length / 2)).map (fun j => both (l.getD (2 * j) none) (l.getD (2 * j + 1) none))
      foldPairs comb k half

/-- The elements of lane k of l lanes folded in ascending order. -/
def laneFold {β α : Type} (xs : List (Option β)) (l k : Nat) (first : β → α) (step : α → β → α) : Option α :=
  (List.range ((xs.length + l - 1 - k) / l)).foldl (fun (acc : Option α) j =>
    match xs.getD (k + j * l) none with
    | none => acc
    | some x => match acc with | none => some (first x) | some a => some (step a x)) none

/-- All active elements reduced in the order of R128. -/
def reduce {β α : Type} (lanes : Nat) (xs : List (Option β)) (first : β → α) (step : α → β → α) (comb : α → α → α) : Option α :=
  foldPairs comb 7 ((List.range lanes).map (fun k => laneFold xs lanes k first step))

/-- The elements of a group, none where inactive. -/
def activeEls (th : Thread) (q r w g n : Nat) : List (Option Nat) :=
  (groupEls th r w n).zip (List.range n) |>.map (fun p => if active q w g p.2 then some p.1 else none)

/-- Element 0 of a register replaced. -/
def putEl0 (th : Thread) (r w v : Nat) : Thread := putGroup th r w [v]

/-- The integer reductions: entry of an element, combination of partial results, on 64-bit values (R128). -/
def redOp : Instr → Option (Tid × VForm × Bool × (Word → Word) × (Word → Word → Word))
  | .vRedSum t f => some (t, f, true, (fun x => x), fun a b => a + b)
  | .vRedSumsq t f => some (t, f, true, (fun x => x * x), fun a b => a + b)
  | .vRedMax t f => some (t, f, true, (fun x => x), fun a b => if a.slt b then b else a)
  | .vRedMin t f => some (t, f, true, (fun x => x), fun a b => if b.slt a then b else a)
  | .vRedMaxu t f => some (t, f, false, (fun x => x), fun a b => if a.ult b then b else a)
  | .vRedMinu t f => some (t, f, false, (fun x => x), fun a b => if b.ult a then b else a)
  | _ => none

/-- An integer reduction (R128). -/
def vRed (f : VForm) (sgn : Bool) (enter : Word → Word) (comb : Word → Word → Word) (th : Thread) : VOut :=
  let g := grpSize f.grp
  match etBits f.et with
  | none => .illegal
  | some w =>
    if 12 ≤ f.qp.toNat || !aligned f.vs1 g then .illegal
    else
      let n := g * 8192 / w
      let xs := (activeEls th (qget th f.qp.toNat) f.vs1.toNat w g n).map (fun o => o.map (fun x => enter (if sgn then sext w x else wd x)))
      match reduce 32 xs (fun x => x) comb comb with
      | none => .ok th 0 none
      | some p => .ok (putEl0 th f.vd.toNat 64 (comb (wd ((groupEls th f.vd.toNat 64 1).headD 0)) p).toNat) 0 none

/-- The floating reductions: entry, step and combination of exact values, in the accumulator's format (R128). -/
def fredOp : Instr → Option (Tid × VForm × (FFmt → FV → Fl FV) × (FFmt → FV → FV → Fl FV) × (FFmt → FV → FV → Fl FV))
  | .vFredSum t f => some (t, f, (fun _ x => (x, 0)), (fun m a x => fop m rne (FV.add a x)), fun m a b => fop m rne (FV.add a b))
  | .vFredSumsq t f => some (t, f, (fun m x => fop m rne (FV.mul x x)), (fun m a x => fop m rne (FV.fma x x a)), fun m a b => fop m rne (FV.add a b))
  | .vFredMax t f => some (t, f, (fun _ x => (x, 0)), (fun _ a x => fMinMax true a x), fun _ a b => fMinMax true a b)
  | .vFredMin t f => some (t, f, (fun _ x => (x, 0)), (fun _ a x => fMinMax false a x), fun _ a b => fMinMax false a b)
  | _ => none

/-- An operation on values that carry flags. -/
def flStep (op : FV → FV → Fl FV) (a : Fl FV) (b : Fl FV) : Fl FV := let (v, fl) := op a.1 b.1; (v, a.2 ||| b.2 ||| fl)

/-- A floating reduction (R128). -/
def vFred (f : VForm) (enter : FFmt → FV → Fl FV) (step comb : FFmt → FV → FV → Fl FV) (th : Thread) : VOut :=
  let g := grpSize f.grp
  match etFloat f.et with
  | none => .illegal
  | some c =>
    if 12 ≤ f.qp.toNat || !aligned f.vs1 g then .illegal
    else
      let w := fmtBits c
      let n := g * 8192 / w
      let acc := if c = 0xD then f64 else f32
      let aw := if c = 0xD then 64 else 32
      let xs := (activeEls th (qget th f.qp.toNat) f.vs1.toNat w g n).map (fun o => o.map (fun x => edec c x))
      let st (a : Fl FV) (x : FV) : Fl FV := flStep (step acc) a (x, 0)
      match reduce (if c = 0xD then 32 else 64) xs (enter acc) st (flStep (comb acc)) with
      | none => .ok th 0 none
      | some p =>
        let old := fdec acc ((groupEls th f.vd.toNat aw 1).headD 0)
        let (v, fl) := flStep (comb acc) (old, 0) p
        let (r, f2) := fenc acc rne false v
        .ok (putEl0 th f.vd.toNat aw r) (fl ||| f2) none

/-! ## Moves and the other register instructions (R119, R120) -/

/-- `v.pwhile`, `v.pcount` and the moves (R119, R120). `v.pcount` ignores its vs2 field, which the form does not use; its source numbers 12–15 are refused (DESIGN CHOICE, log 105). -/
def vMove (i : Instr) (th : Thread) (d : DCtx) : Option (Tid × VOut) :=
  match i with
  | .vPwhile t f =>
    let g := grpSize f.grp
    some (t, match etBits f.et with
      | none => .illegal
      | some w =>
        if 12 ≤ f.qp.toNat || decide (12 ≤ qdOf f) || decide (w = 4) || decide (w < 8 * g) then .illegal
        else .ok (qset th (qdOf f) (predFrom (qget th f.qp.toNat) w g (g * 8192 / w) (fun k => (decide (d.a.toNat + k < d.b.toNat), 0))).1) 0 none)
  | .vPcount t f =>
    let g := grpSize f.grp
    some (t, match etBits f.et with
      | none => .illegal
      | some w =>
        if f.qp ≠ 0 || decide (12 ≤ f.vs1.toNat) then .illegal
        else
          let q := qget th f.vs1.toNat
          .ok th 0 (some (wd ((List.range (g * 8192 / w)).filter (fun k => active q w g k)).length)))
  | .vSplat t f =>
    let g := grpSize f.grp
    some (t, match etBits f.et with
      | none => .illegal
      | some w =>
        if 12 ≤ f.qp.toNat || f.vs2 ≠ 0 || !aligned f.vd g then .illegal
        else
          let n := g * 8192 / w
          .ok (putGroup th f.vd.toNat w (mapActive (qget th f.qp.toNat) w g (groupEls th f.vd.toNat w n) (fun _ _ => (d.a.toNat % 2 ^ w, 0))).1) 0 none)
  | .vSel t f =>
    let g := grpSize f.grp
    some (t, match etBits f.et with
      | none => .illegal
      | some w =>
        if 12 ≤ f.qp.toNat || !aligned f.vd g || !aligned f.vs1 g || !aligned f.vs2 g then .illegal
        else
          let n := g * 8192 / w
          let a := groupEls th f.vs1.toNat w n
          .ok (putGroup th f.vd.toNat w (mapActive (qget th f.qp.toNat) w g (groupEls th f.vs2.toNat w n) (fun k _ => (a.getD k 0, 0))).1) 0 none)
  | .vExt t f =>
    let g := grpSize f.grp
    some (t, match etBits f.et with
      | none => .illegal
      | some w =>
        if f.qp ≠ 0 || !aligned f.vs1 g then .illegal
        else
          let n := g * 8192 / w
          .ok th 0 (some (if d.b.toNat < n then sext w ((groupEls th f.vs1.toNat w n).getD d.b.toNat 0) else 0)))
  | .vIns t f =>
    let g := grpSize f.grp
    some (t, match etBits f.et with
      | none => .illegal
      | some w =>
        if f.qp ≠ 0 || !aligned f.vd g then .illegal
        else
          let n := g * 8192 / w
          if d.b.toNat < n then .ok (putGroup th f.vd.toNat w ((groupEls th f.vd.toNat w n).set d.b.toNat (d.a.toNat % 2 ^ w))) 0 none
          else .ok th 0 none)
  | _ => none

/-- The 32-bit vector instructions that stay in the registers. -/
def vReg (i : Instr) (th : Thread) (d : DCtx) : Option (Tid × VOut) :=
  ((intOp i).map (fun p => (p.1, vInt i p.2.1 p.2.2 th)))
  <|> ((narrowOp i).map (fun p => (p.1, vNarrow p.2.1 p.2.2.1 p.2.2.2 th)))
  <|> ((floatOp i).map (fun p => (p.1, vFloat p.2.1 p.2.2 th d)))
  <|> ((unaryOp i).map (fun p => (p.1, vUnary p.2.1 p.2.2 th d)))
  <|> ((cmpOp i).map (fun p => (p.1, match etBits p.2.1.et with
      | none => .illegal
      | some w => if w = 4 then .illegal else vCompare p.2.1 w (fun a b => (p.2.2 w a b, 0)) th)))
  <|> ((fcmpOp i).map (fun p => (p.1, match etFloat p.2.1.et with
      | none => .illegal
      | some c => vCompare p.2.1 (fmtBits c) (fun a b => p.2.2 (edec c a) (edec c b)) th)))
  <|> ((predOp i).map (fun p => (p.1, vPred p.2.1 p.2.2 th)))
  <|> ((redOp i).map (fun p => (p.1, vRed p.2.1 p.2.2.1 p.2.2.2.1 p.2.2.2.2 th)))
  <|> ((fredOp i).map (fun p => (p.1, vFred p.2.1 p.2.2.1 p.2.2.2.1 p.2.2.2.2 th)))
  <|> vMove i th d

/-! ## Long forms (R129–R132) -/

/-- Fields of word 1 (R38). -/
def w1Rows (w : Word) : Nat := bits w 6 0
def w1Cols (w : Word) : Nat := bits w 15 7
def w1Depth (w : Word) : Nat := bits w 24 16
def w1FmtD (w : Word) : Nat := bits w 28 25
def w1FmtA (w : Word) : Nat := bits w 32 29
def w1FmtB (w : Word) : Nat := bits w 36 33
def w1Rm (w : Word) : Nat := bits w 38 37
def w1Flags (w : Word) : Nat := bits w 46 39
def w1Src3 (w : Word) : Nat := bits w 51 47

/-- Whether word 1 of a vector long form is well formed whatever its OP: no shape, no reserved bit, no refused format (R129). -/
def longOk (w : Word) : Bool :=
  decide (bits w 24 0 = 0) && decide (bits w 63 52 = 0) && decide (w1Flags w < 8)
    && decide (w1FmtD w < 0xE) && decide (w1FmtA w < 0xE) && decide (w1FmtB w < 0xE)

/-- Whether an operand's register number suits its width wn in a group g of elements of width ww (R129). A group whose first register suits it but that would run past v31 is an illegal instruction (DESIGN CHOICE, log 133). -/
def longAligned (r : Reg) (g wn ww : Nat) : Bool :=
  decide (g * wn < ww) || (decide (r.toNat * ww % (g * wn) = 0) && decide (r.toNat + regsOf wn (g * 8192 / ww) ≤ 32))

/-- Scale byte k of a register (R130). -/
def scaleByte (th : Thread) (r k : Nat) : Nat := (vget th r >>> (8 * k)) % 256

/-- A source element as an exact value, under its block's scale when the operand is scaled (R130, R139). -/
def srcVal (th : Thread) (blk : Bool) (c src3 k x : Nat) : FV :=
  if blk && isMx c then mxDec c x (scaleByte th src3 (k / 32)) else edec c x

/-- `v.cvt` (R130). The scale bytes are written last, over the elements where SRC3 lies inside the destination group (DESIGN CHOICE, log 105). An operand narrower than the widest format holds all n elements from its low bits on, where R129's own byte count gives fewer, and n is rounded down where a 6-bit format is the widest (DESIGN CHOICE, log 133). -/
def vCvt (f : LForm) (th : Thread) (d : DCtx) : VOut :=
  let w := f.w1
  let fd := w1FmtD w
  let fa := w1FmtA w
  let sat := (w1Flags w).testBit 0
  let blk := (w1Flags w).testBit 1
  let ww := max (fmtBits fd) (fmtBits fa)
  let g := grpSize f.grp
  let n := g * 8192 / ww
  let src3 := w1Src3 w
  if !longOk w || 12 ≤ f.qp.toNat || f.rs2 ≠ 0 || decide (w1FmtB w ≠ 0) || (w1Flags w).testBit 2 || (!blk && decide (src3 ≠ 0))
      || (blk && !isMx fd && !isMx fa) || !longAligned f.rd g (fmtBits fd) ww || !longAligned f.rs1 g (fmtBits fa) ww then .illegal
  else
    let q := qget th f.qp.toNat
    let a := groupEls th f.rs1.toNat (fmtBits fa) n
    let vals := (List.range n).map (fun k => srcVal th blk fa src3 k (a.getD k 0))
    let x := srCtx th d
    let rm := rmOf th (w1Rm w)
    let narrow := narrows fa fd && !(blk && isMx fa)
    let old := groupEls th f.rd.toNat (fmtBits fd) n
    if blk && isMx fd then
      let scales := (List.range ((n + 31) / 32)).map (fun b =>
        mxScale fd ((List.range 32).filterMap (fun j => let k := 32 * b + j; if k < n && active q ww g k then vals[k]? else none)))
      let (l, fl) := mapActive q ww g old (fun k _ =>
        let (c, fl) := mxEnc fd (rndAt rm x (wd k)) (scales.getD (k / 32) 0) (vals.getD k (.fin false 0 0))
        (posZero fd c, fl))
      let th := putGroup th f.rd.toNat (fmtBits fd) l
      .ok (putGroup th src3 8 scales) fl none
    else
      let (l, fl) := mapActive q ww g old (fun k _ =>
        let (c, fl) := eenc fd narrow (rndAt rm x (wd k)) sat (vals.getD k (.fin false 0 0))
        (posZero fd c, fl))
      .ok (putGroup th f.rd.toNat (fmtBits fd) l) fl none

/-- The product and sum of `v.mfma` outside the FP64 datapath (R131, R145). -/
def mfmaVal (a b c : FV) : Fl FV :=
  let (p, fl) := FV.mul a b
  let (v, f2) := FV.add p c
  (v, fl ||| (if a.isNan || b.isNan then fNV else 0) ||| f2)

/-- `v.mfma` (R131). -/
def vMfma (f : LForm) (th : Thread) (d : DCtx) : VOut :=
  let w := f.w1
  let fd := w1FmtD w
  let fa := w1FmtA w
  let fb := w1FmtB w
  let srcs := [0, 1, 2, 3, 4, 0xD]
  let wdd := fmtBits fd
  let g := grpSize f.grp
  let n := g * 8192 / wdd
  if !longOk w || 12 ≤ f.qp.toNat || decide (w1Flags w ≠ 0) || decide (w1Src3 w ≠ 0) || !srcs.contains fa || !srcs.contains fb
      || !([0, 1, 2, 0xD].contains fd) || decide (wdd < fmtBits fa) || decide (wdd < fmtBits fb)
      || !longAligned f.rd g wdd wdd || !longAligned f.rs1 g (fmtBits fa) wdd || !longAligned f.rs2 g (fmtBits fb) wdd then .illegal
  else
    let a := groupEls th f.rs1.toNat (fmtBits fa) n
    let b := groupEls th f.rs2.toNat (fmtBits fb) n
    let x := srCtx th d
    let rm := rmOf th (w1Rm w)
    let wide := decide (fa = 0xD) || decide (fb = 0xD)
    let (l, fl) := mapActive (qget th f.qp.toNat) wdd g (groupEls th f.rd.toNat wdd n) (fun k old =>
      let (v, f1) := (if wide then FV.fma else mfmaVal) (edec fa (a.getD k 0)) (edec fb (b.getD k 0)) (edec fd old)
      let (c, f2) := fenc (ffmtD fd) (rndAt rm x (wd k)) false v
      (posZero fd c, f1 ||| f2))
    .ok (putGroup th f.rd.toNat wdd l) fl none

/-- A triple of `v.stat` with the flags its steps have set. -/
structure Triple where
  n : FV
  m : FV
  q : FV
  fl : Nat

/-- One rounded step in a format, flags collected. -/
def stepF (m : FFmt) (x : Fl FV) (fl : Nat) : FV × Nat := let (v, f) := fop m rne x; (v, fl ||| f)

/-- The merge of two triples (R132). -/
def statMerge (m : FFmt) (a b : Triple) : Triple :=
  if a.n.isZero then { b with fl := a.fl ||| b.fl }
  else if b.n.isZero then { a with fl := a.fl ||| b.fl }
  else
    let fl := a.fl ||| b.fl
    let (n, fl) := stepF m (FV.add a.n b.n) fl
    let (d, fl) := stepF m (FV.add b.m a.m.neg) fl
    let (x, fl) := stepF m (FV.mul d b.n) fl
    let (x, fl) := stepF m (FV.div x n) fl
    let (mean, fl) := stepF m (FV.add a.m x) fl
    let (y, fl) := stepF m (FV.mul d d) fl
    let (y, fl) := stepF m (FV.mul y a.n) fl
    let (y, fl) := stepF m (FV.mul y b.n) fl
    let (y, fl) := stepF m (FV.div y n) fl
    let (z, fl) := stepF m (FV.add a.q b.q) fl
    let (q, fl) := stepF m (FV.add z y) fl
    { n := n, m := mean, q := q, fl := fl }

/-- One element taken into a triple (R132). -/
def welford (m : FFmt) (t : Triple) (x : FV) : Triple :=
  let (n, fl) := stepF m (FV.add t.n (.fin false 1 0)) t.fl
  let (d, fl) := stepF m (FV.add x t.m.neg) fl
  let (y, fl) := stepF m (FV.div d n) fl
  let (mean, fl) := stepF m (FV.add t.m y) fl
  let (e, fl) := stepF m (FV.add x mean.neg) fl
  let (p, fl) := stepF m (FV.mul d e) fl
  let (q, fl) := stepF m (FV.add t.q p) fl
  { n := n, m := mean, q := q, fl := fl }

/-- The empty triple. -/
def zeroTriple : Triple := { n := .fin false 0 0, m := .fin false 0 0, q := .fin false 0 0, fl := 0 }

/-- A triple read from elements 0–2 of a register. -/
def readTriple (th : Thread) (r c : Nat) : Triple :=
  let l := groupEls th r (fmtBits c) 3
  { n := edec c (l.getD 0 0), m := edec c (l.getD 1 0), q := edec c (l.getD 2 0), fl := 0 }

/-- A triple written to elements 0–2 of a register; −0 is written +0 (R154). -/
def writeTriple (th : Thread) (r c : Nat) (t : Triple) : Thread × Nat :=
  let e (v : FV) : Fl Nat := let (x, fl) := fenc (ffmtD c) rne false v; (posZero c x, fl)
  let (a, f1) := e t.n
  let (b, f2) := e t.m
  let (q, f3) := e t.q
  (putGroup th r (fmtBits c) [a, b, q], t.fl ||| f1 ||| f2 ||| f3)

/-- `v.stat` (R132). A non-zero RM field is refused as an unused one (R38, R129), and vd, which holds three elements and no group, may be any register (DESIGN CHOICE, log 105). -/
def vStat (f : LForm) (th : Thread) : VOut :=
  let w := f.w1
  let fd := w1FmtD w
  let fa := w1FmtA w
  let fresh := (w1Flags w).testBit 2
  let ww := max (fmtBits fd) (fmtBits fa)
  let g := grpSize f.grp
  let n := g * 8192 / ww
  if !longOk w || 12 ≤ f.qp.toNat || f.rs2 ≠ 0 || decide (w1FmtB w ≠ 0) || decide (w1Rm w ≠ 0) || decide (w1Flags w % 4 ≠ 0)
      || decide (w1Src3 w ≠ 0) || !([0, 1, 2, 0xD].contains fa) || !([0, 0xD].contains fd) || !longAligned f.rs1 g (fmtBits fa) ww then .illegal
  else
    let q := qget th f.qp.toNat
    let xs := ((groupEls th f.rs1.toNat (fmtBits fa) n).zip (List.range n)).map (fun p => if active q ww g p.2 then some (edec fa p.1) else none)
    let m := ffmtD fd
    match reduce (if fa = 0xD then 32 else 64) xs (welford m zeroTriple) (welford m) (statMerge m) with
    | none => .ok th 0 none
    | some r =>
      let (th, fl) := writeTriple th f.rd.toNat fd (if fresh then r else statMerge m (readTriple th f.rd.toNat fd) r)
      .ok th fl none

/-- `v.stat.merge` (R132). -/
def vStatMerge (f : LForm) (th : Thread) : VOut :=
  let w := f.w1
  let fd := w1FmtD w
  if !longOk w || f.qp ≠ 0 || f.grp ≠ 0 || decide (w1Rm w ≠ 0) || decide (w1Flags w ≠ 0) || decide (w1Src3 w ≠ 0)
      || !([0, 0xD].contains fd) || decide (w1FmtA w ≠ fd) || decide (w1FmtB w ≠ fd) then .illegal
  else
    let r := statMerge (ffmtD fd) (readTriple th f.rs1.toNat fd) (readTriple th f.rs2.toNat fd)
    let (th, fl) := writeTriple th f.rd.toNat fd r
    .ok th fl none

/-- A register-only vector instruction of either length: its thread and what it leaves. -/
def vPure (i : Instr) (th : Thread) (d : DCtx) : Option (Tid × VOut) :=
  match i with
  | .vCvt t f => some (t, vCvt f th d)
  | .vMfma t f => some (t, vMfma f th d)
  | .vStat t f => some (t, vStat f th)
  | .vStatMerge t f => some (t, vStatMerge f th)
  | _ => vReg i th d

/-! ## Vector memory instructions (R121–R127) -/

/-- What a check answers for an access that cannot be made yet and waits: no exception of the part has this code. -/
def waitExc : Exc := { code := 0xFF }

/-- Whether a check's answer is that. -/
def Exc.waits (e : Exc) : Bool := decide (e.code = 0xFF)

/-- How an agent's vector accesses reach memory: the checks of an address, a read, a write, whether a write must be held (R300), and whether there is room for writes to places (R225, R233). -/
structure VAcc where
  check : State → Word → Nat → Bool → Except Exc Nat × State
  load : State → Nat → Nat → (List Byte × Option Nat) × State
  store : State → Nat → List Byte → State
  held : State → Nat → Bool
  room : State → List Nat → Bool := fun _ _ => true

/-- The shape of a vector memory instruction. -/
inductive VAddr where
  | unit
  | stride
  | index
  | seg
  deriving DecidableEq

/-- The vector memory instructions: store or load, and the address form (R110, R122). -/
def vMemOp : Instr → Option (Tid × VForm × Bool × VAddr)
  | .vLd t f => some (t, f, false, .unit)
  | .vLdS t f => some (t, f, false, .stride)
  | .vLdX t f => some (t, f, false, .index)
  | .vLdSeg t f => some (t, f, false, .seg)
  | .vSt t f => some (t, f, true, .unit)
  | .vStS t f => some (t, f, true, .stride)
  | .vStX t f => some (t, f, true, .index)
  | .vStSeg t f => some (t, f, true, .seg)
  | _ => none

/-- The rank of a cause in the precedence of R64. -/
def causeRank (c : Nat) : Nat :=
  ([0x03, 0x02, 0x00, 0x0A, 0x0B, 0x08, 0x09, 0x01, 0x04, 0x05, 0x06, 0x0C, 0x07].findIdx? (fun x => decide (x = c))).getD 99

/-- Of two exceptions the one of higher precedence, the first on a tie. -/
def worse (a b : Option Exc) : Option Exc :=
  match a, b with
  | some x, some y => if causeRank y.code < causeRank x.code then some y else some x
  | some x, none => some x
  | none, y => y

/-- Whether the operands of a vector memory instruction break R111 or R122. -/
def vMemIllegal (f : VForm) (st : Bool) (k : VAddr) : Bool :=
  let g := grpSize f.grp
  match etBits f.et with
  | none => true
  | some w =>
    let gx := max 1 (g * 32 / w)
    12 ≤ f.qp.toNat || !aligned f.vd g || (decide (k ≠ .unit) && decide (w = 4))
      || (match k with
        | .seg => !([2, 3, 4].contains f.vs2.toNat) || decide (8 < f.vs2.toNat * g) || decide (32 < f.vd.toNat + f.vs2.toNat * g)
        | .index => decide (8 < g * 32 / w) || !aligned f.vs2 gx
            || (!st && decide (f.vd.toNat < f.vs2.toNat + gx) && decide (f.vs2.toNat < f.vd.toNat + g))
        | .unit => false
        | .stride => false)

/-- What a vector memory instruction leaves: the state, the loaded elements by (field, element), where it stopped and why, or a held write. -/
structure VMemRun where
  s : State
  got : Table Nat := []
  stop : Option (Nat × Exc) := none
  hold : Bool := false

/-- The address of field fl of element i (R122). -/
def vAddrOf (f : VForm) (k : VAddr) (w : Nat) (d : DCtx) (idx : List Nat) (i fl : Nat) : Word :=
  match k with
  | .unit => d.a + wd (i * w / 8)
  | .stride => d.a + wd i * d.b
  | .index => d.a + wd (idx.getD i 0)
  | .seg => d.a + wd ((i * f.vs2.toNat + fl) * (w / 8))

/-- One element or structure checked and accessed (R123, R124). -/
def vMemEl (acc : VAcc) (f : VForm) (st : Bool) (k : VAddr) (w : Nat) (d : DCtx) (idx : List Nat) (data : List (List Nat)) (i : Nat) (r : VMemRun) : VMemRun :=
  let nf := if k = .seg then f.vs2.toNat else 1
  let b := max 1 (w / 8)
  -- checks of every field, the state threaded through the translations
  let chk := (List.range nf).foldl (fun (a : (Option Exc × List Nat) × State) fl =>
    let va := vAddrOf f k w d idx i fl
    match acc.check a.2 va b st with
    | (.error e, s) => ((worse a.1.1 (some e), a.1.2 ++ [0]), s)
    | (.ok pa, s) => ((a.1.1, a.1.2 ++ [pa]), s)) ((none, []), r.s)
  match chk with
  | ((some e, _), s) => { r with s := s, stop := some (i, e) }
  | ((none, pas), s) =>
    if st then
      if pas.any (fun pa => acc.held s pa) then { r with s := s, hold := true }
      else if !acc.room s pas then { r with s := s, stop := some (i, waitExc) }
      else
        { r with s := (List.range nf).foldl (fun s fl =>
            let x := (data.getD fl []).getD i 0
            let pa := pas.getD fl 0
            if w = 4 then
              let ((bs, _), s) := acc.load s pa 1
              let old := ofLE bs
              acc.store s pa (leBytes (if i % 2 = 0 then old / 16 * 16 + x else old % 16 + 16 * x) 1)
            else acc.store s pa (leBytes x b)) s }
    else
      let rd := (List.range nf).foldl (fun (a : (Option Exc × Table Nat) × State) fl =>
        let va := vAddrOf f k w d idx i fl
        let ((bs, bad), s) := acc.load a.2 (pas.getD fl 0) b
        let v := if w = 4 then (ofLE bs >>> (4 * (i % 2))) % 16 else ofLE bs
        match bad with
        | some _ => ((a.1.1.or (some { code := 7, val := va &&& ~~~7#64 }), a.1.2), s)
        | none => ((a.1.1, tins (fl * 65536 + i) v a.1.2), s)) ((none, r.got), s)
      match rd with
      | ((some e, _), s) => { r with s := s, stop := some (i, e) }
      | ((none, got), s) => { r with s := s, got := got }

/-- The active elements from the start on, in ascending order, until one stops the instruction (R124). -/
def vMemRun (acc : VAcc) (f : VForm) (st : Bool) (k : VAddr) (w : Nat) (d : DCtx) (th : Thread) (start : Nat) (s : State) : VMemRun :=
  let g := grpSize f.grp
  let n := g * 8192 / w
  let q := qget th f.qp.toNat
  let idx := if k = .index then groupEls th f.vs2.toNat 32 n else []
  let nf := if k = .seg then f.vs2.toNat else 1
  let data := if st then (List.range nf).map (fun fl => groupEls th (f.vd.toNat + fl * g) w n) else []
  (List.range n).foldl (fun r i =>
    if i < start || r.stop.isSome || r.hold || !active q w g i then r
    else vMemEl acc f st k w d idx data i r) { s := s }

/-- Loaded elements written to the destination group or groups. -/
def vMemPut (f : VForm) (k : VAddr) (w : Nat) (got : Table Nat) (th : Thread) : Thread :=
  let g := grpSize f.grp
  let n := g * 8192 / w
  let nf := if k = .seg then f.vs2.toNat else 1
  (List.range nf).foldl (fun th fl =>
    let r := f.vd.toNat + fl * g
    let old := groupEls th r w n
    putGroup th r w ((List.range n).map (fun i => (tget? got (fl * 65536 + i)).getD (old.getD i 0)))) th

end Sys2Proof.Machine
end

