-- ==== Sys2Proof/Machine/Update.lean ====
section
/-! DEFINITION. The optimizer arithmetic (R304–R306), shared by the `upd.*` instructions and the UPDATE tasks of the lining engines. -/

namespace Sys2Proof.Machine

/-- A parameter block (R304). -/
structure UpdBlk where
  seed : Word
  stream : Word
  fp : Nat
  fg : Nat
  fm : Nat
  fv : Nat
  rmp : Nat
  rms : Nat
  hemgf : Bool
  nest : Bool
  opt : Nat
  idx : Word
  tstep : Nat
  lr : FV
  b1 : FV
  b2 : FV
  eps : FV
  wdc : FV
  gf : FV
  frozen : Word

/-- Whether an FP32 value is finite and not below 0. -/
def nonNeg (v : FV) : Bool := v.isFin && decide (0 ≤ FV.cmp v (.fin false 0 0))

/-- Whether an FP32 value lies in [0, 1). -/
def unitRange (v : FV) : Bool := nonNeg v && decide (FV.cmp v (.fin false 1 0) < 0)

/-- A parameter block read from its 64 bytes; none when it lies outside the limits of R304. OPT and FMT_V are checked by the caller that uses them. -/
def parseUpd (bs : List Byte) (adamw : Bool) : Option UpdBlk :=
  let w (o n : Nat) : Nat := ofLE ((bs.drop o).take n)
  let f (o : Nat) : FV := fdec f32 (w o 4)
  let b : UpdBlk := {
    seed := wd (w 0 8), stream := wd (w 8 2), fp := w 10 1 % 16, fg := w 10 1 / 16, fm := w 11 1 % 16, fv := w 11 1 / 16,
    rmp := w 12 1 % 4, rms := w 12 1 / 4 % 4, hemgf := (w 12 1).testBit 4, nest := (w 12 1).testBit 5, opt := w 12 1 / 64,
    idx := wd (w 16 8), tstep := w 24 4, lr := f 28, b1 := f 32, b2 := f 36, eps := f 40, wdc := f 44, gf := f 48, frozen := wd (w 56 8) }
  if [0, 1].contains b.fp && [0, 1, 2].contains b.fg && [0, 1].contains b.fm && (!adamw || [0, 1].contains b.fv)
      && decide (b.rmp ≠ 3) && decide (b.rms ≠ 3) && decide (w 13 3 = 0) && decide (w 52 4 = 0) && decide (1 ≤ b.tstep)
      && nonNeg b.lr && unitRange b.b1 && unitRange b.b2 && nonNeg b.eps && nonNeg b.wdc && (b.hemgf || b.gf.isFin)
  then some b else none

/-- Square-and-multiply from bit 0 of t upward, in FP64 (R305). -/
def powFrom : Nat → Nat → FV → FV → FV
  | 0, _, _, acc => acc
  | k + 1, t, b, acc => if t = 0 then acc else powFrom k (t / 2) (mul64 b b) (if t % 2 = 1 then mul64 acc b else acc)

/-- pw(b, t) (R305). -/
def pw (b : FV) (t : Nat) : FV := powFrom 32 t b (.fin false 1 0)

/-- A value rounded once to FP32. -/
def to32 (v : FV) : FV := (fround f32 rne v).1

/-- The step constants (R305). -/
structure UpdConst where
  a : FV
  e : FV
  dw : FV
  o1 : FV
  o2 : FV

/-- One. -/
def fone : FV := .fin false 1 0

/-- The step constants of a block: computed in FP64, rounded once to FP32, setting no flag (R305). -/
def updConst (b : UpdBlk) : UpdConst :=
  let c1 := sub64 fone (pw b.b1 b.tstep)
  let c2 := sub64 fone (pw b.b2 b.tstep)
  { a := to32 (div64 (mul64 b.lr (sqrt64 c2)) c1), e := to32 (mul64 b.eps (sqrt64 c2)), dw := to32 (mul64 b.lr b.wdc),
    o1 := to32 (sub64 fone b.b1), o2 := to32 (sub64 fone b.b2) }

/-- The sign of a value (R305). -/
def fsignum (v : FV) : FV :=
  match v with
  | .nan _ => .nan false
  | .inf n => .fin n 1 0
  | .fin n m _ => if m = 0 then .fin false 0 0 else .fin n 1 0

/-- One element's p, m, v and the flags of its operations (R305). Optimizer: 0 SGDM, 1 AdamW, 2 Lion. -/
def updStep (opt : Nat) (b : UpdBlk) (c : UpdConst) (gf g p m v : FV) : (FV × FV × FV) × Nat :=
  let st := stepF f32
  let (g, fl) := st (FV.mul g gf) 0
  match opt with
  | 1 =>
    let (x, fl) := st (FV.mul c.o1 g) fl
    let (m, fl) := st (FV.fma b.b1 m x) fl
    let (y, fl) := st (FV.mul g g) fl
    let (y, fl) := st (FV.mul c.o2 y) fl
    let (v, fl) := st (FV.fma b.b2 v y) fl
    let (r, fl) := st (FV.sqrt v) fl
    let (r, fl) := st (FV.add r c.e) fl
    let (u, fl) := st (FV.div m r) fl
    let (q, fl) := st (FV.fma c.dw.neg p p) fl
    let (p, fl) := st (FV.fma c.a.neg u q) fl
    ((p, m, v), fl)
  | 0 =>
    let (g, fl) := st (FV.fma b.wdc p g) fl
    let (m, fl) := st (FV.fma b.b1 m g) fl
    let (u, fl) := if b.nest then st (FV.fma b.b1 m g) fl else (m, fl)
    let (p, fl) := st (FV.fma b.lr.neg u p) fl
    ((p, m, v), fl)
  | _ =>
    let (x, fl) := st (FV.mul c.o1 g) fl
    let (y, fl) := st (FV.fma b.b1 m x) fl
    let u := fsignum y
    let (z, fl) := st (FV.mul c.o2 g) fl
    let (m, fl) := st (FV.fma b.b2 m z) fl
    let (q, fl) := st (FV.fma c.dw.neg p p) fl
    let (p, fl) := st (FV.fma b.lr.neg u q) fl
    ((p, m, v), fl)

/-- What an element's update writes: the codes of p, m, v, its flags, and whether a written value is not finite. -/
structure UpdOut where
  p : Nat
  m : Nat
  v : Nat
  fl : Nat
  nonfin : Bool

/-- One element updated (R305): index IDXBASE + i, stream SRSTREAM xor k, −0 written +0. -/
def updElem (opt : Nat) (b : UpdBlk) (c : UpdConst) (gf : FV) (seed stream step : Word) (i : Word) (p g m v : Nat) : UpdOut :=
  let ((p', m', v'), fl) := updStep opt b c gf (edec b.fg g) (edec b.fp p) (edec b.fm m) (edec b.fv v)
  let x (k : Nat) : SrCtx := { seed := seed, stream := (stream ^^^ wd k) &&& 0xFFFF#64, step := step }
  let put (f rm k : Nat) (y : FV) : Fl Nat :=
    let (z, fz) := fenc (ffmtD f) (rndAt rm (x k) (b.idx + i)) false y
    (posZero f z, fz)
  let (pc, f1) := put b.fp b.rmp 0 p'
  let (mc, f2) := put b.fm b.rms 1 m'
  let (vc, f3) := if opt = 1 then put b.fv b.rms 2 v' else (v, 0)
  { p := pc, m := mc, v := vc, fl := fl ||| f1 ||| f2 ||| f3,
    nonfin := !(edec b.fp pc).isFin || !(edec b.fm mc).isFin || (decide (opt = 1) && !(edec b.fv vc).isFin) }

/-- The optimizer of an update instruction. -/
def updOp : Instr → Option (Tid × LForm × Nat)
  | .updSgdm t f => some (t, f, 0)
  | .updAdamw t f => some (t, f, 1)
  | .updLion t f => some (t, f, 2)
  | _ => none

/-- Whether an update instruction breaks the table of R303. -/
def updIllegal (f : LForm) (block : Word) (lvl : BitVec 2) : Bool :=
  decide (lvl = 2) || decide (f.w1 ≠ 0) || decide (12 ≤ f.qp.toNat) || decide (f.rs2.toNat % 4 ≠ 0) || decide (f.rs2 = 0)
    || decide (block.toNat % 64 ≠ 0)

/-- The widest format of an update in bits. -/
def updWide (b : UpdBlk) (opt : Nat) : Nat :=
  max (max (fmtBits b.fp) (fmtBits b.fg)) (max (fmtBits b.fm) (if opt = 1 then fmtBits b.fv else 0))

/-- GF as the hem publishes it, or the block's (R304). -/
def updGf (s : State) (b : UpdBlk) : FV := if b.hemgf then fdec f32 (rf s .devHemclip F.devHemclipGf) else b.gf

/-- Whether the hem is in UPDATE or INPLACE (R307, R309). -/
def hemUpdating (s : State) : Bool := decide (rf s .devHemctl F.devHemctlState = 2) || decide (rf s .devHemctl F.devHemctlState = 3)

end Sys2Proof.Machine
end

