-- ==== Sys2Proof/Machine/Tile.lean ====
section
/-! DEFINITION. Tiles, tile loads, stores and moves (R160–R183). -/

namespace Sys2Proof.Machine

/-! ## The tile file (R160–R163) -/

/-- A tile's attributes. -/
def tileAttr (x : CellS) (t : Nat) : TileAttr := tget {} x.tattr t

/-- Row r of a tile as a number. -/
def tileRow (x : CellS) (t r : Nat) : Nat := (tget 0 x.tiles (64 * t + r)).toNat

/-- Bytes of a row of n elements of a format (R161). -/
def rowBytes (n f : Nat) : Nat := (n * fmtBits f + 7) / 8

/-- Element c of row r of a tile in a format, through the written extent (R163). -/
def tileEl (x : CellS) (t f r c : Nat) : Nat :=
  let w := fmtBits f
  let a := tileAttr x t
  if a.rows ≤ r ∨ a.colBytes ≤ (w * c + w - 1) / 8 then 0 else (tileRow x t r >>> (w * c)) % 2 ^ w

/-- Whether a read of rows × n elements of a format reaches beyond the extent (R163). -/
def beyond (x : CellS) (t rows n f : Nat) : Bool :=
  let a := tileAttr x t
  decide (a.rows < rows) || decide (a.colBytes < rowBytes n f)

/-- Whether a read of a row of a tile meets its poison mark: a row beyond the extent reads as zero and carries none (R163, R204). -/
def rowPoison (x : CellS) (t r : Nat) : Bool := decide (r < (tileAttr x t).rows) && tget false x.tpoison (64 * t + r)

/-- Whether a read of bits lo to hi − 1 of a row of a tile meets its poison mark, or a word of wrong parity (R163, R204). -/
def bitsBad (x : CellS) (t r lo hi : Nat) : Bool :=
  decide (r < (tileAttr x t).rows) && decide (lo < hi)
    && (tget false x.tpoison (64 * t + r) || (List.range 64).any (fun w => bit (tget 0 x.tparity (64 * t + r)) w && decide (lo < 32 * (w + 1)) && decide (32 * w < hi)))

/-- The low bytes of a tile row written. -/
def putTileRow (x : CellS) (t r width v : Nat) (poison : Bool) : CellS :=
  let old := tileRow x t r
  let k := 64 * t + r
  { x with tiles := tset 0 x.tiles k (BitVec.ofNat 2048 ((old >>> (8 * width)) <<< (8 * width) + v % 2 ^ (8 * width))),
           tpoison := tset false x.tpoison k poison,
           tparity := tset 0 x.tparity k ((tget 0 x.tparity k >>> ((width + 3) / 4)) <<< ((width + 3) / 4)) }

/-- The extent of a tile replaced (R162). -/
def putExtent (x : CellS) (t rows width : Nat) : CellS :=
  { x with tattr := tins t { tileAttr x t with rows := rows, colBytes := width } x.tattr }

/-- A tile written: no slice of it and no latch of it stays (R182, R183). -/
def tileWritten (x : CellS) (t : Nat) : CellS :=
  { x with opcache := x.opcache.filter (fun o => decide (o.1 ≠ t)), capo := x.capo.filter (fun o => decide (o.1 ≠ t)) }

/-- The lowest-numbered tile of a list that a mask does not hold (R165). -/
def notHeld (mine : BitVec 16) (ts : List Nat) : Option Nat := (List.range 16).find? (fun t => ts.contains t && !bit mine t)

/-- The flags that tile and harp instructions may set (R155). -/
def tileFlags (fl : Nat) : Nat := fl &&& (fOF ||| fNV ||| fQSAT ||| fSCALE ||| fNANLOST ||| fTSHAPE)

/-! ## Shape checks (R169, R170) -/

/-- Whether an element count breaks the packing of a format (R170, reason 4). -/
def packBad (n f : Nat) : Bool := (decide (fmtBits f = 4) && decide (n % 2 ≠ 0)) || (decide (fmtBits f = 6) && decide (n % 4 ≠ 0))

/-- Whether a format is one of those a tile memory instruction accepts (R169). -/
def tileFmt (f : Nat) : Bool := decide (f ≤ 0xC)

/-- Whether a format may stand in the tile under BLK (R170). -/
def blkTile (f : Nat) : Bool := decide (f ≤ 2)

/-- An illegal-shape exception: operand and reason in DETAIL, word 1 in XVAL (R170). -/
def shapeExc (op reason : Nat) (w1 : Word) : Exc := { code := 8, detail := op * 16 + reason, val := w1 }

/-- The first reason of a list whose condition holds, for an operand. -/
def firstReason (op : Nat) (l : List (Nat × Bool)) : Option (Nat × Nat) := (l.find? (fun p => p.2)).map (fun p => (op, p.1))

/-- The kind of a tile instruction. -/
inductive TKind where
  | ld
  | st
  | mov
  deriving DecidableEq

/-- The shape check of `t.ld`, `t.st` and `t.mov`: operand and reason (R170). Conditions that no one operand breaks are reported with the destination (log 20). -/
def tShape (k : TKind) (w : Word) : Option (Nat × Nat) :=
  let rows := w1Rows w
  let cols := w1Cols w
  let fd := w1FmtD w
  let fa := w1FmtA w
  let blk := (w1Flags w).testBit 1
  let tr := (w1Flags w).testBit 2
  let mem := match k with | .ld => fa | .st => fd | .mov => 0
  let mixed := (tr && blk) || (decide (k ≠ .mov) && tr && decide (fmtBits mem < 8))
    || (blk && (match k with
      | .ld => !isMx fa || !blkTile fd
      | .st => !isMx fd || !blkTile fa
      | .mov => true))
  let trSrc := decide (k = .mov) && tr
  (firstReason 0 [(1, decide (rows = 0) || decide (64 < rows)), (2, decide (cols = 0) || decide (256 < cols)),
    (3, decide (k ≠ .st) && decide (256 < rowBytes cols fd)), (4, packBad cols fd), (5, !tileFmt fd), (6, mixed)])
  <|> (firstReason 1 [(1, trSrc && decide (64 < cols)), (3, decide (k ≠ .ld) && decide (256 < rowBytes (if trSrc then rows else cols) fa)),
    (4, packBad (if trSrc then rows else cols) fa), (5, !tileFmt fa)])

/-- Whether a tile instruction of this chapter has a field that must be zero (R168). -/
def tIllegal (k : TKind) (f : TForm) : Bool :=
  let w := f.w1
  decide (f.sub ≠ 0) || bit f.rd 4 || decide (bits w 63 52 ≠ 0) || decide (w1Depth w ≠ 0) || decide (w1FmtB w ≠ 0) || decide (8 ≤ w1Flags w)
    || (match k with
      | .mov => bit f.rs1 4 || decide (f.rs2 ≠ 0) || decide (w1Src3 w ≠ 0)
      | .ld => !(w1Flags w).testBit 1 && decide (w1Src3 w ≠ 0)
      | .st => !(w1Flags w).testBit 1 && decide (w1Src3 w ≠ 0))

/-! ## Tile loads and stores (R171–R178) -/

/-- What a tile or update instruction leaves: the state, the flags, where it stopped and why, or a held write. -/
structure TRun where
  s : State
  fl : Nat := 0
  stop : Option (Nat × Exc) := none
  hold : Bool := false

/-- The virtual address of the first byte of element (r, c) (R171). -/
def tAddr (d : DCtx) (dense tr : Bool) (rows cols fm r c : Nat) : Word :=
  let wm := fmtBits fm
  let width := if tr then rowBytes rows fm else rowBytes cols fm
  let stride : Word := if dense then wd width else d.b
  if tr then d.a + wd c * stride + wd (r * (wm / 8)) else d.a + wd r * stride + wd (c * wm / 8)

/-- The bytes that hold element c of a plain row beyond its first, or of an element of whole bytes. -/
def tSpan (tr : Bool) (fm c : Nat) : Nat :=
  let w := fmtBits fm
  if 8 ≤ w then w / 8 else if tr then 1 else (w * c + w - 1) / 8 - w * c / 8 + 1

/-- The pieces of an element that are checked and accessed: (address, bytes); an element narrower than a byte may lie in two bytes, and a fault on the second of them names that byte's address (DESIGN CHOICE, log 136). -/
def tPieces (va : Word) (fm n : Nat) : List (Word × Nat) :=
  if 8 ≤ fmtBits fm then [(va, n)] else (List.range n).map (fun i => (va + wd i, 1))

/-- Every piece of a row checked: the worst exception, and the physical places in order (R176). -/
def tCheck (acc : VAcc) (wr : Bool) (ps : List (Word × Nat)) (s : State) : (Option Exc × List Nat) × State :=
  ps.foldl (fun (a : (Option Exc × List Nat) × State) p =>
    match acc.check a.2 p.1 p.2 wr with
    | (.error e, s) => ((worse a.1.1 (some e), a.1.2 ++ [0]), s)
    | (.ok pa, s) => ((a.1.1, a.1.2 ++ [pa]), s)) ((none, []), s)

/-- The scale byte's address of row r, block k (R175). -/
def tScaleAddr (d : DCtx) (cols r k : Nat) : Word := d.d + wd (r * ((cols + 31) / 32) + k)

/-- The pieces of row r of a `t.ld`: of each element in order, then its scale bytes (R171, R175). -/
def tLoadEls (f : TForm) (d : DCtx) (r : Nat) : List (List (Word × Nat)) :=
  let w := f.w1
  let fa := w1FmtA w
  let tr := (w1Flags w).testBit 2
  (List.range (w1Cols w)).map (fun k => tPieces (tAddr d (f.rs2 = 0) tr (w1Rows w) (w1Cols w) fa r k) fa (tSpan tr fa k))

/-- The scale bytes of row r of a `t.ld` (R175). They are checked after all elements of the row: in a tie of one cause between an element and a scale byte of a row, on which R176's order of element numbers says nothing, the element is named (DESIGN CHOICE, log 136). -/
def tLoadScales (f : TForm) (d : DCtx) (r : Nat) : List (Word × Nat) :=
  let cols := w1Cols f.w1
  if (w1Flags f.w1).testBit 1 then (List.range ((cols + 31) / 32)).map (fun k => (tScaleAddr d cols r k, 1)) else []

/-- One row of a `t.ld` (R171–R176). The poison fault of a scale byte names the byte (R175). -/
def tLoadRow (acc : VAcc) (c t : Nat) (f : TForm) (d : DCtx) (th : Thread) (r : Nat) (q : TRun) : TRun :=
  let w := f.w1
  let cols := w1Cols w
  let fa := w1FmtA w
  let fd := w1FmtD w
  let blk := (w1Flags w).testBit 1
  let els := tLoadEls f d r
  let flat := els.flatten
  let ps := flat ++ tLoadScales f d r
  match tCheck acc false ps q.s with
  | ((some e, _), s) => { q with s := s, stop := some (r, e) }
  | ((none, pas), s) =>
    let rd := ((ps.zip pas).zip (List.range ps.length)).foldl (fun (a : (Option Exc × List Nat) × State) (p : ((Word × Nat) × Nat) × Nat) =>
      let ((bs, bad), s) := acc.load a.2 p.1.2 p.1.1.2
      let va := if p.2 < flat.length then p.1.1.1 &&& ~~~7#64 else p.1.1.1
      ((a.1.1.or (bad.map (fun _ => { code := 7, val := va })), a.1.2 ++ [ofLE bs]), s)) ((none, []), s)
    match rd with
    | ((some e, _), s) => { q with s := s, stop := some (r, e) }
    | ((none, vals), s) =>
      -- the element's bits out of its bytes
      let codes := (List.range cols).map (fun k =>
        let before := ((els.take k).map (fun l => l.length)).sum
        let n := (els.getD k []).length
        let v := (List.range n).foldr (fun i a => vals.getD (before + i) 0 + a <<< 8) 0
        let wm := fmtBits fa
        (if 8 ≤ wm then v else v >>> (wm * k % 8)) % 2 ^ wm)
      let base := ((els.map (fun l => l.length)).sum)
      let x := srCtx th d
      let rm := rmOf th (w1Rm w)
      let conv := (codes.zip (List.range cols)).map (fun p =>
        let v := if blk then mxDec fa p.1 (vals.getD (base + p.2 / 32) 0) else edec fa p.1
        let (z, fl) := eenc fd (narrows fa fd && !blk) (rndAt rm x (wd (r * 256 + p.2))) ((w1Flags w).testBit 0) v
        (posZero fd z, fl))
      let row := ofElems (fmtBits fd) (conv.map (fun p => p.1))
      { q with s := modCell s c (fun y => putTileRow y t r (rowBytes cols fd) row false),
               fl := q.fl ||| tileFlags (conv.foldl (fun a p => a ||| p.2) 0) }

/-- One row of a `t.st` (R171–R176): checked as `tLoadScales` says, and stored block by block, each block's scale byte before its elements (R175). -/
def tStoreRow (acc : VAcc) (c t : Nat) (f : TForm) (d : DCtx) (th : Thread) (r : Nat) (q : TRun) : TRun :=
  let w := f.w1
  let cols := w1Cols w
  let fa := w1FmtA w
  let fd := w1FmtD w
  let blk := (w1Flags w).testBit 1
  let tr := (w1Flags w).testBit 2
  let x := cell q.s c
  let nb := (cols + 31) / 32
  let vals := (List.range cols).map (fun k => edec fa (tileEl x t fa r k))
  let scales := (List.range nb).map (fun b => mxScale fd ((vals.drop (32 * b)).take 32))
  let sx := srCtx th d
  let rm := rmOf th (w1Rm w)
  let conv := (vals.zip (List.range cols)).map (fun p =>
    let rd := rndAt rm sx (wd (r * 256 + p.2))
    let (z, fl) := if blk then mxEnc fd rd (scales.getD (p.2 / 32) 0) p.1
      else eenc fd (narrows fa fd) rd ((w1Flags w).testBit 0) p.1
    (posZero fd z, fl))
  let addr (k : Nat) : Word := tAddr d (f.rs2 = 0) tr (w1Rows w) cols fd r k
  let wm := fmtBits fd
  let row := ofElems wm (conv.map (fun p => p.1))
  -- what is written: whole elements, or the bytes of a packed row; and the scales
  let bytes : List ((Word × Nat) × Nat) :=
    if 8 ≤ wm then (conv.zip (List.range cols)).map (fun p => ((addr p.2, wm / 8), p.1.1))
    else (List.range (rowBytes cols fd)).map (fun i => ((addr 0 + wd i, 1), (row >>> (8 * i)) % 256))
  let scs : List ((Word × Nat) × Nat) := if blk then (scales.zip (List.range nb)).map (fun p => ((tScaleAddr d cols r p.2, 1), p.1)) else []
  let ps := bytes ++ scs
  -- how many of `bytes` the elements below k take
  let upTo (k : Nat) : Nat := if 8 ≤ wm then min k cols else rowBytes (min k cols) fd
  match tCheck acc true (ps.map (fun p => p.1)) q.s with
  | ((some e, _), s) => { q with s := s, stop := some (r, e) }
  | ((none, pas), s) =>
    if rowPoison x t r then { q with s := s, stop := some (r, { code := 7, val := addr 0 }) }
    else if pas.any (fun pa => acc.held s pa) then { q with s := s, hold := true }
    else if !acc.room s pas then { q with s := s, stop := some (r, waitExc) }
    else
      -- R175: block by block, each block's scale before its elements
      let all := ps.zip pas
      let els := all.take bytes.length
      let order := if blk then (List.range nb).flatMap (fun b =>
        ((all.drop (bytes.length + b)).take 1) ++ ((els.take (upTo (32 * b + 32))).drop (upTo (32 * b)))) else els
      { q with s := order.foldl (fun s p => acc.store s p.2 (leBytes p.1.2 p.1.1.2)) s,
               fl := q.fl ||| tileFlags (conv.foldl (fun a p => a ||| p.2) 0)
                 ||| (if beyond x t (r + 1) cols fa then fTSHAPE else 0) }

/-- `t.ld` and `t.st` from a start row, stopping at the first row that fails (R176). -/
def tMemRun (acc : VAcc) (k : TKind) (c : Nat) (f : TForm) (d : DCtx) (th : Thread) (start : Nat) (s : State) : TRun :=
  let t := f.rd.toNat
  let rows := w1Rows f.w1
  let q := (List.range rows).foldl (fun q r =>
    if r < start || q.stop.isSome || q.hold then q
    else if k = .ld then tLoadRow acc c t f d th r q else tStoreRow acc c t f d th r q) ({ s := s } : TRun)
  if k = .ld then
    let width := rowBytes (w1Cols f.w1) (w1FmtD f.w1)
    match q.stop with
    | some (e, _) =>
      if e = 0 then q
      else { q with s := modCell q.s c (fun x => putExtent (tileWritten x t) t e width) }
    | none => { q with s := modCell q.s c (fun x => putExtent (tileWritten x t) t rows width) }
  else q

/-! ## Moves (R181) -/

/-- `t.mov`: the destination's rows, with the flags (R173, R181). No rule names `t.mov` a consumer of a poisoned row: the mark goes with the row, and under TR, where every destination row takes an element of every source row, to every destination row (DESIGN CHOICE, log 137). -/
def tMovRun (c : Nat) (f : TForm) (d : DCtx) (th : Thread) (s : State) : TRun :=
  let w := f.w1
  let x := cell s c
  let td := f.rd.toNat
  let ts := f.rs1.toNat
  let fa := w1FmtA w
  let fd := w1FmtD w
  let tr := (w1Flags w).testBit 2
  let rows := w1Rows w
  let cols := w1Cols w
  let sx := srCtx th d
  let rm := rmOf th (w1Rm w)
  let conv := (List.range rows).map (fun r => (List.range cols).map (fun k =>
    let v := edec fa (if tr then tileEl x ts fa k r else tileEl x ts fa r k)
    let (z, fl) := eenc fd (narrows fa fd) (rndAt rm sx (wd (r * 256 + k))) ((w1Flags w).testBit 0) v
    (posZero fd z, fl)))
  let fl := conv.foldl (fun a row => row.foldl (fun a p => a ||| p.2) a) 0
  let shape := if tr then beyond x ts cols rows fa else beyond x ts rows cols fa
  let width := rowBytes cols fd
  let srcBad (r : Nat) : Bool := if tr then (List.range cols).any (fun k => rowPoison x ts k) else rowPoison x ts r
  let x' := (List.range rows).foldl (fun y r =>
    putTileRow y td r width (ofElems (fmtBits fd) ((conv.getD r []).map (fun p => p.1))) (srcBad r)) x
  { s := setCell s c (putExtent (tileWritten x' td) td rows width),
    fl := tileFlags fl ||| (if shape then fTSHAPE else 0) }

end Sys2Proof.Machine
end

