-- ==== Sys2Proof/Machine/Harp.lean ====
section
/-! DEFINITION. The harp: `mx.mma`, its checks and checksums (R185–R205). -/

namespace Sys2Proof.Machine

/-! ## The harp (R185–R205) -/

/-- The terms of a multiplicand in the internal form (R144): FP32 gives two, a zero one left out beside another (R145). -/
def mxTerms (f code : Nat) (v : FV) : List FV :=
  if f = 0 then
    match fdec f32 code with
    | .fin n m e =>
      if m % 4096 = 0 then [.fin n m e] else if m / 4096 = 0 then [.fin n m e] else [.fin n (m / 4096 * 4096) e, .fin n (m % 4096) e]
    | .inf n => [.inf n]
    | .nan s => [.nan s]
  else [v]

/-- A product as it enters the FP32 accumulator, with its flags (R145). -/
def mxProduct (a b : FV) : Fl FV :=
  let (p, fl) := FV.mul a b
  match p with
  | .nan _ => (.nan false, fNV)
  | .inf n => (.inf n, fl)
  | .fin n m e =>
    if m = 0 then (.fin n 0 0, 0)
    else if 128 ≤ p.lead then (.inf n, fSCALE)
    else if p.lead < -126 then
      let k := roundInt rne false m (e + 149)
      (.fin n k.1.natAbs (-149), fSCALE)
    else (p, 0)

/-- The exact sum of values, infinities and NaN included. -/
def fvSum (l : List (Fl FV)) : Fl FV := l.foldl (fun a x => let (v, fl) := FV.add a.1 x.1; (v, a.2 ||| x.2 ||| fl)) (.fin false 0 0, 0)

/-- A partial sum: a value, and in split mode its low part. -/
structure PSum where
  hi : FV
  lo : FV := .fin false 0 0
  fl : Nat := 0

/-- One array cell's step (R196, R198). -/
def mxStep (split : Bool) (a : PSum) (x : Fl FV) : PSum :=
  let (t, f1) := FV.add a.hi x.1
  let (s, f2) := fround f32 rne t
  if split then
    if !s.isFin then { hi := s, fl := a.fl ||| x.2 ||| f1 ||| f2 }
    else
      let e := (fround f32 rne (FV.add t s.neg).1).1
      { hi := s, lo := if a.hi.isFin then (fround f32 rne (FV.add a.lo e).1).1 else .fin false 0 0, fl := a.fl ||| x.2 ||| f1 ||| f2 }
  else { hi := s, fl := a.fl ||| x.2 ||| f1 ||| f2 }

/-- p of the operand formats (R192). -/
def mxP (tr : Bool) (fa fb : Nat) : Nat :=
  if tr then 1
  else
    let m := max (fmtBits fa) (fmtBits fb)
    if 16 ≤ m then 1 else if m = 8 then 2 else 4

/-- The largest DEPTH (R192). -/
def mxDepthMax (tr : Bool) (fa fb : Nat) : Nat := 64 * mxP tr fa fb

/-- Whether a format is one of the integer formats. -/
def isInt (f : Nat) : Bool := (ifmt f).isSome

/-- The fields of an `mx.mma`. -/
structure MxF where
  td : Nat
  ta : Nat
  tb : Nat
  tc : Nat
  rows : Nat
  cols : Nat
  depth : Nat
  fd : Nat
  fa : Nat
  fb : Nat
  sat : Bool
  blk : Bool
  tr : Bool
  pre : Bool
  bc : Bool
  acc : Bool
  split : Bool
  src3 : Nat

/-- The fields read out of the words (R189, R190). -/
def mxFields (f : TForm) : MxF :=
  let w := f.w1
  let g := w1Flags w
  { td := f.rd.toNat, ta := f.rs1.toNat, tb := f.rs2.toNat, tc := f.sub.toNat, rows := w1Rows w, cols := w1Cols w, depth := w1Depth w,
    fd := w1FmtD w, fa := w1FmtA w, fb := w1FmtB w, sat := g.testBit 0, blk := g.testBit 1, tr := g.testBit 2, pre := g.testBit 3,
    bc := g.testBit 4, acc := g.testBit 5, split := g.testBit 6, src3 := w1Src3 w }

/-- Whether an `mx.mma` has a non-zero field that must be zero (R189, R190). -/
def mxIllegal (f : TForm) : Bool :=
  let m := mxFields f
  bit f.rd 4 || bit f.rs1 4 || bit f.rs2 4 || (!m.pre && decide (f.sub ≠ 0)) || (w1Flags f.w1).testBit 7
    || decide (bits f.w1 63 52 ≠ 0) || (if m.blk then decide (16 ≤ m.src3) else decide (m.src3 ≠ 0))

/-- The companions of A and of B (R195). -/
def mxCompanions (m : MxF) : Option Nat × Option Nat :=
  if !m.blk then (none, none)
  else match isMx m.fa, isMx m.fb with
    | true, true => (some m.src3, some (m.src3 + 1))
    | true, false => (some m.src3, none)
    | false, true => (none, some m.src3)
    | false, false => (none, none)

/-- The shape check of `mx.mma` (R193): operand and reason. Reasons 7 and 8 are reported with the destination (log 20). -/
def mxShape (m : MxF) : Option (Nat × Nat) :=
  let bRows := if m.tr then m.depth else m.cols
  let bEls := if m.tr then m.cols else m.depth
  let limits := decide (64 < m.cols) || decide (m.depth = 0) || (m.tr && decide (64 < m.depth))
    || (decide (m.fa ≤ 0xA) && decide (m.fb ≤ 0xA) && decide (mxDepthMax m.tr m.fa m.fb < m.depth))
  let combos := (decide (m.fd = 0xC) && ((ffmt m.fa).isSome || (ffmt m.fb).isSome || m.blk || m.split))
    || (m.blk && !isMx m.fa && !isMx m.fb) || (m.blk && m.tr) || (m.pre && m.acc) || (m.bc && !m.pre)
    || (m.blk && isMx m.fa && isMx m.fb && decide (m.src3 = 15))
  (firstReason 0 [(1, decide (m.rows = 0) || decide (64 < m.rows)), (2, decide (m.cols = 0) || decide (256 < m.cols)),
    (3, decide (256 < rowBytes m.cols m.fd)), (4, packBad m.cols m.fd), (5, !([0, 1, 2, 0xC].contains m.fd)), (7, limits), (8, combos)])
  <|> (firstReason 1 [(3, decide (256 < rowBytes m.depth m.fa)), (4, packBad m.depth m.fa), (5, decide (0xA < m.fa))])
  <|> (firstReason 2 [(1, decide (64 < bRows)), (3, decide (256 < rowBytes bEls m.fb)), (4, packBad bEls m.fb), (5, decide (0xA < m.fb))])

/-- Every tile that an `mx.mma` names (R194). -/
def mxTiles (m : MxF) : List Nat :=
  let (ca, cb) := mxCompanions m
  [m.td, m.ta, m.tb] ++ (if m.pre then [m.tc] else []) ++ ca.toList ++ cb.toList

/-- An operand element as an exact value, with its scale (R139, R144). -/
def mxEl (x : CellS) (t f : Nat) (comp : Option Nat) (row el scRow scEl : Nat) : List FV :=
  let code := tileEl x t f row el
  match comp with
  | some ct =>
    match e8m0 (tileEl x ct 9 scRow (scEl / 32)) with
    | none => [.nan false]
    | some sc => (mxTerms f code (edec f code)).map (fun v => v.scale (sc + (if f = 8 then -6 else 0)))
  | none => mxTerms f code (edec f code)

/-- The element a(m, k). -/
def mxA (x : CellS) (m : MxF) (r k : Nat) : List FV := mxEl x m.ta m.fa (mxCompanions m).1 r k r k

/-- The element b(k, n) (R186). -/
def mxB (x : CellS) (m : MxF) (k n : Nat) : List FV :=
  if m.tr then mxEl x m.tb m.fb (mxCompanions m).2 k n n k else mxEl x m.tb m.fb (mxCompanions m).2 n k n k

/-- The preload of a result (R199), as a code of FMT_D. -/
def mxPre (x : CellS) (m : MxF) (r n : Nat) : Nat :=
  if m.pre then tileEl x m.tc m.fd (if m.bc then 0 else r) n else if m.acc then tileEl x m.td m.fd r n else 0

/-- One result in floating accumulation (R196, R198, R199). -/
def mxDot (x : CellS) (m : MxF) (r n : Nat) : PSum :=
  let p := mxP m.tr m.fa m.fb
  (List.range ((m.depth + p - 1) / p)).foldl (fun a j =>
    let prods := (List.range p).flatMap (fun i =>
      let k := p * j + i
      if k < m.depth then (mxA x m r k).flatMap (fun u => (mxB x m k n).map (fun v => mxProduct u v)) else [])
    mxStep m.split a (fvSum prods)) { hi := (fround f32 rne (edec m.fd (mxPre x m r n))).1 }

/-- One result in integer accumulation (R197). -/
def mxDotInt (x : CellS) (m : MxF) (r n : Nat) : Int :=
  let val (f c : Nat) : Int := match ifmt f with | some (w, true) => sval w c | some (w, false) => ((c % 2 ^ w : Nat) : Int) | none => 0
  (List.range m.depth).foldl (fun a k =>
    a + val m.fa (tileEl x m.ta m.fa r k) * val m.fb (if m.tr then tileEl x m.tb m.fb k n else tileEl x m.tb m.fb n k)) (sval 32 (mxPre x m r n))

/-- A result as it leaves the bottom of its column: the sum in floating or in integer accumulation, with its flags (R185). -/
structure MxOut where
  sum : PSum := { hi := .fin false 0 0 }
  int : Int := 0

/-- The result of row r in column n (R196–R198). -/
def mxOut (x : CellS) (m : MxF) (r n : Nat) : MxOut := if m.fd = 0xC then { int := mxDotInt x m r n } else { sum := mxDot x m r n }

/-- The drained code of a result, with its flags (R199). -/
def drainOut (m : MxF) (sx : SrCtx) (rm r n : Nat) (o : MxOut) : Fl Nat :=
  if m.fd = 0xC then satS 32 o.int
  else
    let a := o.sum
    if m.fd = 0 && !m.split then (posZero 0 (fenc f32 rne false a.hi).1, a.fl)
    else
      let v := if m.split && a.hi.isFin then (FV.add a.hi a.lo).1 else a.hi
      let (c, fl) := fenc (ffmtD m.fd) (rndAt rm sx (wd (r * 256 + n))) m.sat v
      (posZero m.fd c, a.fl ||| fl)

/-- The drained code of one result of a sound array. -/
def mxDrain (x : CellS) (m : MxF) (sx : SrCtx) (rm r n : Nat) : Fl Nat := drainOut m sx rm r n (mxOut x m r n)

/-- Whether a read of `mx.mma` reaches beyond an extent (R163). -/
def mxBeyond (x : CellS) (m : MxF) : Bool :=
  let nb := (m.depth + 31) / 32
  beyond x m.ta m.rows m.depth m.fa
    || (if m.tr then beyond x m.tb m.depth m.cols m.fb else beyond x m.tb m.cols m.depth m.fb)
    || (match (mxCompanions m).1 with | some t => beyond x t m.rows nb 9 | none => false)
    || (match (mxCompanions m).2 with | some t => beyond x t m.cols nb 9 | none => false)
    || (m.pre && beyond x m.tc (if m.bc then 1 else m.rows) m.cols m.fd) || (m.acc && beyond x m.td m.rows m.cols m.fd)

/-- The bits of a row that n elements of a format take. -/
def elBits (n f : Nat) : Nat := n * fmtBits f

/-- The bad places of the operands that every destination row depends on: tile and row (R204). -/
def mxBadAll (x : CellS) (m : MxF) : List (Nat × Nat) :=
  let rows (t n w : Nat) : List (Nat × Nat) := ((List.range n).filter (fun r => bitsBad x t r 0 w)).map (fun r => (t, r))
  (if m.tr then rows m.tb m.depth (elBits m.cols m.fb) else rows m.tb m.cols (elBits m.depth m.fb))
    ++ (match (mxCompanions m).2 with | some t => rows t m.cols (8 * ((m.depth + 31) / 32)) | none => [])
    ++ (if m.pre && m.bc then rows m.tc 1 (elBits m.cols m.fd) else [])

/-- The bad places of the operands that destination row r alone depends on (R204). -/
def mxBadRow (x : CellS) (m : MxF) (r : Nat) : List (Nat × Nat) :=
  let one (t w : Nat) : List (Nat × Nat) := if bitsBad x t r 0 w then [(t, r)] else []
  one m.ta (elBits m.depth m.fa)
    ++ (match (mxCompanions m).1 with | some t => one t (8 * ((m.depth + 31) / 32)) | none => [])
    ++ (if m.pre && !m.bc then one m.tc (elBits m.cols m.fd) else if m.acc then one m.td (elBits m.cols m.fd) else [])

/-- Whether destination row r depends on a word with a parity error or a poison mark (R204). -/
def mxPoison (x : CellS) (m : MxF) (r : Nat) : Bool := !(mxBadRow x m r).isEmpty || !(mxBadAll x m).isEmpty

/-- Every tile row that an instruction finds bad, once each (R204). -/
def mxBadPlaces (x : CellS) (m : MxF) : List (Nat × Nat) :=
  ((List.range m.rows).flatMap (mxBadRow x m) ++ mxBadAll x m).foldl (fun a p => if a.contains p then a else a ++ [p]) []

/-- Whether the check of column n includes a bad word (R201, R204): of any row of A and its companion, of B's and its companion's row of the column or the column's part of B's rows, of the column's part of the preloads. -/
def mxBadCol (x : CellS) (m : MxF) (n : Nat) : Bool :=
  let at' (t r f : Nat) : Bool := bitsBad x t r (elBits n f) (elBits (n + 1) f)
  (List.range m.rows).any (fun r => bitsBad x m.ta r 0 (elBits m.depth m.fa)
      || (match (mxCompanions m).1 with | some t => bitsBad x t r 0 (8 * ((m.depth + 31) / 32)) | none => false)
      || (if m.pre then at' m.tc (if m.bc then 0 else r) m.fd else m.acc && at' m.td r m.fd))
    || (if m.tr then (List.range m.depth).any (fun k => at' m.tb k m.fb) else bitsBad x m.tb n 0 (elBits m.depth m.fb))
    || (match (mxCompanions m).2 with | some t => bitsBad x t n 0 (8 * ((m.depth + 31) / 32)) | none => false)

/-! ### The checksums (R200, R201) -/

/-- An operand element's value, its terms together. -/
def elVal (l : List FV) : FV := (fvSum (l.map (fun v => (v, 0)))).1

/-- A sum rounded after each addition to FP32 by RNE (R200). -/
def rneSum (l : List FV) : FV := l.foldl (fun a v => (fround f32 rne (FV.add a v).1).1) (.fin false 0 0)

/-- The preload of a result as it enters a column. -/
def preVal (x : CellS) (m : MxF) (r n : Nat) : FV := (fround f32 rne (edec m.fd (mxPre x m r n))).1

/-- w(k) and s(k): the checksum column's weights, the checksum row (R200). -/
def chkW (x : CellS) (m : MxF) (k : Nat) : FV := rneSum ((List.range m.cols).map (fun n => elVal (mxB x m k n)))
def chkS (x : CellS) (m : MxF) (k : Nat) : FV := rneSum ((List.range m.rows).map (fun r => elVal (mxA x m r k)))

/-- An FP32 value's terms. -/
def f32Terms (v : FV) : List FV := mxTerms 0 (fenc f32 rne false v).1 v

/-- A result as one value: hi + lo rounded by RNE in split mode (R201). -/
def outVal (m : MxF) (a : PSum) : FV := if m.split then (fround f32 rne (FV.add a.hi a.lo).1).1 else a.hi

/-- A column of the array with a preload and given multiplicands per depth, as each cell steps (R196, R198; log 96). -/
def chkDot (m : MxF) (pre : FV) (u v : Nat → List FV) : FV :=
  let p := mxP m.tr m.fa m.fb
  outVal m ((List.range ((m.depth + p - 1) / p)).foldl (fun a j =>
    mxStep m.split a (fvSum ((List.range p).flatMap (fun i =>
      let k := p * j + i
      if k < m.depth then (u k).flatMap (fun y => (v k).map (fun z => mxProduct y z)) else [])))) { hi := pre })

/-- The magnitudes of the products and the preload of one result (R201). -/
def chkMag (x : CellS) (m : MxF) (r n : Nat) : FV :=
  (fvSum (((preVal x m r n).abs, 0) :: (List.range m.depth).flatMap (fun k =>
    (mxA x m r k).flatMap (fun u => (mxB x m k n).map (fun v => ((mxProduct u v).1.abs, 0)))))).1

/-- Whether a check of floating sums fails: beyond 2⁻¹² × M + 2⁻¹⁴⁰, and not made when one of the three is not finite (R201). -/
def chkFails (x y mag : FV) : Bool :=
  x.isFin && y.isFin && mag.isFin
    && decide (0 < FV.cmp (FV.add x y.neg).1.abs (FV.add (mag.scale (-12)) (.fin false 1 (-140))).1)

/-- The exact value of an integer operand element. -/
def intVal (f c : Nat) : Int := match ifmt f with | some (w, true) => sval w c | some (w, false) => ((c % 2 ^ w : Nat) : Int) | none => 0
def intA (x : CellS) (m : MxF) (r k : Nat) : Int := intVal m.fa (tileEl x m.ta m.fa r k)
def intB (x : CellS) (m : MxF) (k n : Nat) : Int := intVal m.fb (if m.tr then tileEl x m.tb m.fb k n else tileEl x m.tb m.fb n k)
def intSum (l : List Int) : Int := l.foldl (fun a v => a + v) 0
def intPre (x : CellS) (m : MxF) (r n : Nat) : Int := sval 32 (mxPre x m r n)

/-- Bits flipped in a floating value as FP32 holds it, or in an integer of 40 bits (R197). -/
def flipF (b : BitVec 40) (v : FV) : FV := if b = 0 then v else fdec f32 ((fenc f32 rne false v).1 ^^^ (b.toNat % 2 ^ 32))
def flipI (b : BitVec 40) (v : Int) : Int := if b = 0 then v else (BitVec.ofInt 40 v ^^^ b).toInt

/-- What a fault of the array flips in the output of a place (row 64: the checksum row; column 64: the checksum column). -/
def hitAt (h : Option HarpHit) (r n : Nat) : BitVec 40 :=
  match h with
  | some h => if h.row.val = r ∧ h.col.val = n then h.flip else 0
  | none => 0

/-- One attempt of an instruction: its results, and the lowest row and column whose check fails (R201). -/
structure HarpTry where
  outs : List (List MxOut)
  row : Option Nat
  col : Option Nat

/-- The check of row r: Σ of its results against the checksum column's output; not made when it includes poison (R201, R204). -/
def rowFails (x : CellS) (m : MxF) (h : Option HarpHit) (outs : List MxOut) (r : Nat) : Bool :=
  if mxPoison x m r then false
  else if m.fd = 0xC then
    decide (intSum (outs.map (fun o => o.int)) ≠ flipI (hitAt h r 64)
      (intSum ((List.range m.cols).map (fun n => intPre x m r n)) +
        intSum ((List.range m.depth).map (fun k => intA x m r k * intSum ((List.range m.cols).map (fun n => intB x m k n))))))
  else
    chkFails (elVal (outs.map (fun o => outVal m o.sum)))
      (flipF (hitAt h r 64) (chkDot m (rneSum ((List.range m.cols).map (fun n => preVal x m r n))) (fun k => mxA x m r k) (fun k => f32Terms (chkW x m k))))
      (elVal ((List.range m.cols).map (fun n => chkMag x m r n)))

/-- The check of column n: Σ of its results against the checksum row's output; not made when it includes a bad word (R201, R204). -/
def colFails (x : CellS) (m : MxF) (h : Option HarpHit) (outs : List MxOut) (n : Nat) : Bool :=
  if mxBadCol x m n then false
  else if m.fd = 0xC then
    decide (intSum (outs.map (fun o => o.int)) ≠ flipI (hitAt h 64 n)
      (intSum ((List.range m.rows).map (fun r => intPre x m r n)) +
        intSum ((List.range m.depth).map (fun k => intSum ((List.range m.rows).map (fun r => intA x m r k)) * intB x m k n))))
  else
    chkFails (elVal (outs.map (fun o => outVal m o.sum)))
      (flipF (hitAt h 64 n) (chkDot m (rneSum ((List.range m.rows).map (fun r => preVal x m r n))) (fun k => f32Terms (chkS x m k)) (fun k => mxB x m k n)))
      (elVal ((List.range m.rows).map (fun r => chkMag x m r n)))

/-- One attempt: every result, with what a fault of the array does to it, and the checks (R199–R201). -/
def harpTry (x : CellS) (m : MxF) (h : Option HarpHit) : HarpTry :=
  let outs := (List.range m.rows).map (fun r => (List.range m.cols).map (fun n =>
    let o := mxOut x m r n
    let b := hitAt h r n
    { sum := { o.sum with hi := flipF b o.sum.hi }, int := flipI b o.int : MxOut }))
  { outs := outs,
    row := (List.range m.rows).find? (fun r => rowFails x m h (outs.getD r []) r),
    col := (List.range m.cols).find? (fun n => colFails x m h (outs.map (fun l => l.getD n {})) n) }

/-- Whether an attempt passes its checks. -/
def HarpTry.passes (a : HarpTry) : Bool := a.row.isNone && a.col.isNone

/-- A row of free values (R204: its values are undefined). -/
def freeRow (s : State) (width : Nat) : Nat × State :=
  (List.range ((width + 7) / 8)).foldl (fun (a : Nat × State) i =>
    let (v, s) := drawFree a.2
    (a.1 + v.toNat <<< (64 * i), s)) (0, s)

/-- The tags left in the operand cache by a streaming operand (R182). -/
def opcachePut (t rows width : Nat) (l : List (Nat × Nat × Nat)) : List (Nat × Nat × Nat) :=
  if width ≤ 64 then ((t, rows, width) :: l.filter (fun o => decide (o ≠ (t, rows, width)) && decide (o.2.2 ≤ 64))).take 2
  else if width ≤ 128 then [(t, rows, width)]
  else l

/-- What the harp holds after an attempt (R185, R200): the stationary values by column, the weights, and the results in a drain buffer. -/
def harpHolds (x : CellS) (m : MxF) (outs : List (List MxOut)) : HarpS :=
  let code (v : FV) : Word := wd (fenc f32 rne false v).1
  let d := outs.map (fun l => l.map (fun o => if m.fd = 0xC then (BitVec.ofInt 64 o.int, 0) else (code o.sum.hi, if m.split then code o.sum.lo else 0)))
  { stat := (List.range m.cols).map (fun n => (n, (List.range m.depth).map (fun k => wd (if m.tr then tileEl x m.tb m.fb k n else tileEl x m.tb m.fb n k)))),
    weights := (List.range m.depth).map (fun k =>
      if m.fd = 0xC then BitVec.ofInt 64 (intSum ((List.range m.cols).map (fun n => intB x m k n))) else code (chkW x m k)),
    drain0 := if x.harp.second then x.harp.drain0 else d, drain1 := if x.harp.second then d else x.harp.drain1, second := !x.harp.second }

/-- An attempt that passes its checks completed: its results written, flags, latches and slices; rows that depend on a bad word take free values and marks, each bad tile row is recorded, and the thread receives interrupt 14 (R199, R204). -/
def mxPut (t : Tid) (f : TForm) (d : DCtx) (th : Thread) (outs : List (List MxOut)) (s : State) : TRun :=
  let c := cellOf t
  let x := cell s c
  let m := mxFields f
  let sx := srCtx th d
  let rm := rmOf th (w1Rm f.w1)
  let width := rowBytes m.cols m.fd
  let rows := (List.range m.rows).map (fun r => (mxPoison x m r, ((outs.getD r []).zip (List.range m.cols)).map (fun q => drainOut m sx rm r q.2 q.1)))
  let fl := rows.foldl (fun a p => if p.1 then a else p.2.foldl (fun a q => a ||| q.2) a) 0
  let s := (rows.zip (List.range m.rows)).foldl (fun s p =>
    match p.1.1 with
    | true => let (v, s) := freeRow s width; modCell s c (fun y => putTileRow y m.td p.2 width v true)
    | false => modCell s c (fun y => putTileRow y m.td p.2 width (ofElems (fmtBits m.fd) (p.1.2.map (fun q => q.1))) false)) s
  let s := modCell s c (fun y =>
    let y := { y with opcache := opcachePut m.ta m.rows (rowBytes m.depth m.fa) y.opcache,
                      capo := some (m.tb, f.w1, d.x.asid), harp := harpHolds x m outs }
    putExtent (tileWritten y m.td) m.td m.rows width)
  let bad := mxBadPlaces x m
  let s := bad.foldl (fun s p => reportThread s t 0x14 0 (pack [(0, p.1), (8, p.2)])) s
  let s := if bad.isEmpty then s else postInt s t 14
  { s := s, fl := (fl &&& (fOF ||| fNV ||| fQSAT ||| fSCALE)) ||| (if mxBeyond x m then fTSHAPE else 0) }

/-- A failed attempt thrown away (R202): its drain buffer, the capo latches, the slices it streamed from; the retry is recorded. -/
def harpRetry (s : State) (c : Nat) (f : TForm) (pc : Word) : State :=
  modCell (coreErr s c 0x12 pc) c (fun x => { x with capo := none, opcache := x.opcache.filter (fun o => decide (o.1 ≠ f.rs1.toNat)) })

/-- `mx.mma` run in the harp (R199–R203): an attempt that fails a check is thrown away and made again; when that fails too the harp stops, everything is as it was, and the cell fault is recorded with the lowest row and column that failed. None: it has not completed. -/
def mxRun (t : Tid) (f : TForm) (d : DCtx) (th : Thread) (first again : Option HarpHit) (s : State) : Option TRun × State :=
  let c := cellOf t
  let m := mxFields f
  let a := harpTry (cell s c) m first
  if a.passes then (some (mxPut t f d th a.outs s), s)
  else
    let s1 := harpRetry s c f d.pc
    let b := harpTry (cell s1 c) m again
    if b.passes then (some (mxPut t f d th b.outs s1), s1)
    else
      let s2 := modCell s1 c (fun x => { x with harpStopped := true, capo := (cell s c).capo })
      (none, reportThread s2 t 0x13 d.pc (pack [(0, b.row.getD 64), (8, b.col.getD 64)]))

end Sys2Proof.Machine
end

