-- ==== Sys2Proof/Machine/IsaCode.lean ====
section
/-! DEFINITION. The encodings of the thread instructions (R36–R40, R108–R110, R129, R168, R189): words written from an instruction and instructions read from words. -/

namespace Sys2Proof.Machine

/-- An R-form word (R37). -/
def rForm (major unit : Nat) (rd rs1 rs2 : Reg) (func : Nat) : BitVec 32 :=
  BitVec.ofNat 5 major ++ BitVec.ofNat 2 unit ++ rd ++ rs1 ++ rs2 ++ BitVec.ofNat 10 func

/-- An I-, S- or B-form word (R37). -/
def iForm (major unit : Nat) (a b : Reg) (func3 : Nat) (imm : BitVec 12) : BitVec 32 :=
  BitVec.ofNat 5 major ++ BitVec.ofNat 2 unit ++ a ++ b ++ BitVec.ofNat 3 func3 ++ imm

/-- A U- or J-form word (R37). -/
def uForm (major : Nat) (rd : Reg) (imm : BitVec 20) : BitVec 32 := BitVec.ofNat 5 major ++ 0#2 ++ rd ++ imm

/-- func10 of an atomic (R47). -/
def amoFunc (op : Nat) (d aq rl : Bool) : Nat := aq.toNat * 512 + rl.toNat * 256 + op * 16 + d.toNat

/-- A 32-bit vector word (R108). -/
def vForm (major x : Nat) (f : VForm) : BitVec 32 :=
  BitVec.ofNat 5 major ++ 1#2 ++ f.vd ++ f.vs1 ++ f.vs2 ++ f.qp ++ f.et ++ f.grp ++ BitVec.ofNat 1 x

/-- Word 0 of a vector long form (R129). -/
def lForm (op : Nat) (f : LForm) : BitVec 32 := 0x1F#5 ++ 1#2 ++ f.rd ++ f.rs1 ++ f.rs2 ++ f.qp ++ f.grp ++ BitVec.ofNat 4 op

/-- Word 0 of a tile or harp instruction (R168). -/
def tForm (op : Nat) (f : TForm) : BitVec 32 := 0x1F#5 ++ 2#2 ++ f.rd ++ f.rs1 ++ f.rs2 ++ BitVec.ofNat 6 op ++ f.sub

/-- Word 0 of a thread instruction; 0 for the commands that are none. -/
def word0 : Instr → BitVec 32
  | .add _ rd rs1 rs2 => rForm 0x00 0 rd rs1 rs2 0x000
  | .sub _ rd rs1 rs2 => rForm 0x00 0 rd rs1 rs2 0x001
  | .and _ rd rs1 rs2 => rForm 0x00 0 rd rs1 rs2 0x002
  | .or _ rd rs1 rs2 => rForm 0x00 0 rd rs1 rs2 0x003
  | .xor _ rd rs1 rs2 => rForm 0x00 0 rd rs1 rs2 0x004
  | .sll _ rd rs1 rs2 => rForm 0x00 0 rd rs1 rs2 0x005
  | .srl _ rd rs1 rs2 => rForm 0x00 0 rd rs1 rs2 0x006
  | .sra _ rd rs1 rs2 => rForm 0x00 0 rd rs1 rs2 0x007
  | .slt _ rd rs1 rs2 => rForm 0x00 0 rd rs1 rs2 0x008
  | .sltu _ rd rs1 rs2 => rForm 0x00 0 rd rs1 rs2 0x009
  | .min _ rd rs1 rs2 => rForm 0x00 0 rd rs1 rs2 0x00A
  | .max _ rd rs1 rs2 => rForm 0x00 0 rd rs1 rs2 0x00B
  | .minu _ rd rs1 rs2 => rForm 0x00 0 rd rs1 rs2 0x00C
  | .maxu _ rd rs1 rs2 => rForm 0x00 0 rd rs1 rs2 0x00D
  | .clz _ rd rs1 => rForm 0x00 0 rd rs1 0 0x010
  | .ctz _ rd rs1 => rForm 0x00 0 rd rs1 0 0x011
  | .popc _ rd rs1 => rForm 0x00 0 rd rs1 0 0x012
  | .addi _ rd rs1 imm => iForm 0x01 0 rd rs1 0 imm
  | .slti _ rd rs1 imm => iForm 0x01 0 rd rs1 1 imm
  | .sltiu _ rd rs1 imm => iForm 0x01 0 rd rs1 2 imm
  | .xori _ rd rs1 imm => iForm 0x01 0 rd rs1 3 imm
  | .ori _ rd rs1 imm => iForm 0x01 0 rd rs1 4 imm
  | .andi _ rd rs1 imm => iForm 0x01 0 rd rs1 5 imm
  | .slli _ rd rs1 sh => iForm 0x01 0 rd rs1 6 (BitVec.ofNat 12 (0 * 1024 + sh.toNat))
  | .srli _ rd rs1 sh => iForm 0x01 0 rd rs1 6 (BitVec.ofNat 12 (1 * 1024 + sh.toNat))
  | .srai _ rd rs1 sh => iForm 0x01 0 rd rs1 6 (BitVec.ofNat 12 (2 * 1024 + sh.toNat))
  | .addW _ rd rs1 rs2 => rForm 0x02 0 rd rs1 rs2 0x000
  | .subW _ rd rs1 rs2 => rForm 0x02 0 rd rs1 rs2 0x001
  | .sllW _ rd rs1 rs2 => rForm 0x02 0 rd rs1 rs2 0x005
  | .srlW _ rd rs1 rs2 => rForm 0x02 0 rd rs1 rs2 0x006
  | .sraW _ rd rs1 rs2 => rForm 0x02 0 rd rs1 rs2 0x007
  | .addiW _ rd rs1 imm => iForm 0x03 0 rd rs1 0 imm
  | .slliW _ rd rs1 sh => iForm 0x03 0 rd rs1 6 (BitVec.ofNat 12 (0 * 1024 + sh.toNat))
  | .srliW _ rd rs1 sh => iForm 0x03 0 rd rs1 6 (BitVec.ofNat 12 (1 * 1024 + sh.toNat))
  | .sraiW _ rd rs1 sh => iForm 0x03 0 rd rs1 6 (BitVec.ofNat 12 (2 * 1024 + sh.toNat))
  | .mul _ rd rs1 rs2 => rForm 0x04 0 rd rs1 rs2 0x000
  | .mulh _ rd rs1 rs2 => rForm 0x04 0 rd rs1 rs2 0x001
  | .mulhu _ rd rs1 rs2 => rForm 0x04 0 rd rs1 rs2 0x002
  | .mulhsu _ rd rs1 rs2 => rForm 0x04 0 rd rs1 rs2 0x003
  | .div _ rd rs1 rs2 => rForm 0x04 0 rd rs1 rs2 0x004
  | .divu _ rd rs1 rs2 => rForm 0x04 0 rd rs1 rs2 0x005
  | .rem _ rd rs1 rs2 => rForm 0x04 0 rd rs1 rs2 0x006
  | .remu _ rd rs1 rs2 => rForm 0x04 0 rd rs1 rs2 0x007
  | .mulW _ rd rs1 rs2 => rForm 0x04 0 rd rs1 rs2 0x008
  | .divW _ rd rs1 rs2 => rForm 0x04 0 rd rs1 rs2 0x00C
  | .divuW _ rd rs1 rs2 => rForm 0x04 0 rd rs1 rs2 0x00D
  | .remW _ rd rs1 rs2 => rForm 0x04 0 rd rs1 rs2 0x00E
  | .remuW _ rd rs1 rs2 => rForm 0x04 0 rd rs1 rs2 0x00F
  | .lui _ rd imm => uForm 0x05 rd imm
  | .auipc _ rd imm => uForm 0x06 rd imm
  | .ldB _ rd rs1 imm => iForm 0x07 0 rd rs1 0 imm
  | .ldH _ rd rs1 imm => iForm 0x07 0 rd rs1 1 imm
  | .ldW _ rd rs1 imm => iForm 0x07 0 rd rs1 2 imm
  | .ldD _ rd rs1 imm => iForm 0x07 0 rd rs1 3 imm
  | .ldBu _ rd rs1 imm => iForm 0x07 0 rd rs1 4 imm
  | .ldHu _ rd rs1 imm => iForm 0x07 0 rd rs1 5 imm
  | .ldWu _ rd rs1 imm => iForm 0x07 0 rd rs1 6 imm
  | .stB _ rs2 rs1 imm => iForm 0x08 0 rs2 rs1 0 imm
  | .stH _ rs2 rs1 imm => iForm 0x08 0 rs2 rs1 1 imm
  | .stW _ rs2 rs1 imm => iForm 0x08 0 rs2 rs1 2 imm
  | .stD _ rs2 rs1 imm => iForm 0x08 0 rs2 rs1 3 imm
  | .beq _ rs1 rs2 off => iForm 0x09 0 rs2 rs1 0 off
  | .bne _ rs1 rs2 off => iForm 0x09 0 rs2 rs1 1 off
  | .blt _ rs1 rs2 off => iForm 0x09 0 rs2 rs1 4 off
  | .bge _ rs1 rs2 off => iForm 0x09 0 rs2 rs1 5 off
  | .bltu _ rs1 rs2 off => iForm 0x09 0 rs2 rs1 6 off
  | .bgeu _ rs1 rs2 off => iForm 0x09 0 rs2 rs1 7 off
  | .jal _ rd imm => uForm 0x0A rd imm
  | .jalr _ rd rs1 imm => iForm 0x0B 0 rd rs1 0 imm
  | .amoSwap _ rd rs1 rs2 d aq rl => rForm 0x0C 0 rd rs1 rs2 (amoFunc 0 d aq rl)
  | .amoAdd _ rd rs1 rs2 d aq rl => rForm 0x0C 0 rd rs1 rs2 (amoFunc 1 d aq rl)
  | .amoAnd _ rd rs1 rs2 d aq rl => rForm 0x0C 0 rd rs1 rs2 (amoFunc 2 d aq rl)
  | .amoOr _ rd rs1 rs2 d aq rl => rForm 0x0C 0 rd rs1 rs2 (amoFunc 3 d aq rl)
  | .amoXor _ rd rs1 rs2 d aq rl => rForm 0x0C 0 rd rs1 rs2 (amoFunc 4 d aq rl)
  | .amoMin _ rd rs1 rs2 d aq rl => rForm 0x0C 0 rd rs1 rs2 (amoFunc 5 d aq rl)
  | .amoMax _ rd rs1 rs2 d aq rl => rForm 0x0C 0 rd rs1 rs2 (amoFunc 6 d aq rl)
  | .amoMinu _ rd rs1 rs2 d aq rl => rForm 0x0C 0 rd rs1 rs2 (amoFunc 7 d aq rl)
  | .amoMaxu _ rd rs1 rs2 d aq rl => rForm 0x0C 0 rd rs1 rs2 (amoFunc 8 d aq rl)
  | .amoCas _ rd rs1 rs2 d aq rl => rForm 0x0C 0 rd rs1 rs2 (amoFunc 9 d aq rl)
  | .fenceAcq _ => iForm 0x0D 0 0 0 1 0
  | .fenceRel _ => iForm 0x0D 0 0 0 2 0
  | .fenceAr _ => iForm 0x0D 0 0 0 3 0
  | .fenceI _ => iForm 0x0D 0 0 0 4 0
  | .srRw _ rd rs1 num => iForm 0x10 3 rd rs1 1 num
  | .srSet _ rd rs1 num => iForm 0x10 3 rd rs1 2 num
  | .srClr _ rd rs1 num => iForm 0x10 3 rd rs1 3 num
  | .gate _ imm => iForm 0x11 3 0 0 0 imm
  | .xret _ => iForm 0x11 3 0 0 1 0
  | .xretG _ => iForm 0x11 3 0 0 2 0
  | .pegRd _ rd rs1 => rForm 0x12 3 rd rs1 0 0
  | .pegAdd _ rd rs1 rs2 => rForm 0x12 3 rd rs1 rs2 0x001
  | .pegSet _ rd rs1 rs2 => rForm 0x12 3 rd rs1 rs2 0x002
  | .pegWaitGe _ rd rs1 rs2 => rForm 0x12 3 rd rs1 rs2 0x003
  | .pegWaitEq _ rd rs1 rs2 => rForm 0x12 3 rd rs1 rs2 0x004
  | .pegArrive _ rd rs1 rs2 => rForm 0x12 3 rd rs1 rs2 0x005
  | .yield _ => iForm 0x13 3 0 0 0 0
  | .pause _ imm => iForm 0x13 3 0 0 1 imm
  | .tend _ => iForm 0x13 3 0 0 2 0
  | .vAdd _ f => vForm 0x00 0 f
  | .vSub _ f => vForm 0x00 1 f
  | .vMul _ f => vForm 0x01 0 f
  | .vMulh _ f => vForm 0x01 1 f
  | .vMulhu _ f => vForm 0x02 0 f
  | .vMulhsu _ f => vForm 0x02 1 f
  | .vMin _ f => vForm 0x03 0 f
  | .vMax _ f => vForm 0x03 1 f
  | .vMinu _ f => vForm 0x04 0 f
  | .vMaxu _ f => vForm 0x04 1 f
  | .vAnd _ f => vForm 0x05 0 f
  | .vOr _ f => vForm 0x05 1 f
  | .vXor _ f => vForm 0x06 0 f
  | .vAndn _ f => vForm 0x06 1 f
  | .vSll _ f => vForm 0x07 0 f
  | .vSrl _ f => vForm 0x07 1 f
  | .vSra _ f => vForm 0x08 0 f
  | .vSrar _ f => vForm 0x08 1 f
  | .vSadd _ f => vForm 0x09 0 f
  | .vSsub _ f => vForm 0x09 1 f
  | .vSaddu _ f => vForm 0x0A 0 f
  | .vSsubu _ f => vForm 0x0A 1 f
  | .vQmul _ f => vForm 0x0B 0 f
  | .vQmulRne _ f => vForm 0x0B 1 f
  | .vNarrowS _ f => vForm 0x0C 0 f
  | .vNarrowU _ f => vForm 0x0C 1 f
  | .vNarrowSRne _ f => vForm 0x0D 0 f
  | .vNarrowURne _ f => vForm 0x0D 1 f
  | .vFadd _ f => vForm 0x0E 0 f
  | .vFsub _ f => vForm 0x0E 1 f
  | .vFmul _ f => vForm 0x0F 0 f
  | .vFdiv _ f => vForm 0x0F 1 f
  | .vFma _ f => vForm 0x10 0 f
  | .vFnma _ f => vForm 0x10 1 f
  | .vFmin _ f => vForm 0x11 0 f
  | .vFmax _ f => vForm 0x11 1 f
  | .vPwhile _ f => vForm 0x17 0 f
  | .vPcount _ f => vForm 0x17 1 f
  | .vLd _ f => vForm 0x19 0 f
  | .vLdS _ f => vForm 0x19 1 f
  | .vLdX _ f => vForm 0x1A 0 f
  | .vLdSeg _ f => vForm 0x1A 1 f
  | .vSt _ f => vForm 0x1B 0 f
  | .vStS _ f => vForm 0x1B 1 f
  | .vStX _ f => vForm 0x1C 0 f
  | .vStSeg _ f => vForm 0x1C 1 f
  | .vSplat _ f => vForm 0x1D 0 f
  | .vSel _ f => vForm 0x1D 1 f
  | .vExt _ f => vForm 0x1E 0 f
  | .vIns _ f => vForm 0x1E 1 f
  | .vFsqrt _ f => vForm 0x12 0 { f with vs2 := 0 }
  | .vFabs _ f => vForm 0x12 0 { f with vs2 := 1 }
  | .vFneg _ f => vForm 0x12 0 { f with vs2 := 2 }
  | .vCmpEq _ f => vForm 0x13 0 { f with vd := setBit f.vd 4 false }
  | .vCmpNe _ f => vForm 0x13 1 { f with vd := setBit f.vd 4 false }
  | .vCmpLt _ f => vForm 0x13 0 { f with vd := setBit f.vd 4 true }
  | .vCmpLe _ f => vForm 0x13 1 { f with vd := setBit f.vd 4 true }
  | .vCmpGt _ f => vForm 0x14 0 { f with vd := setBit f.vd 4 false }
  | .vCmpGe _ f => vForm 0x14 1 { f with vd := setBit f.vd 4 false }
  | .vCmpLtu _ f => vForm 0x14 0 { f with vd := setBit f.vd 4 true }
  | .vCmpLeu _ f => vForm 0x14 1 { f with vd := setBit f.vd 4 true }
  | .vFcmpEq _ f => vForm 0x15 0 { f with vd := setBit f.vd 4 false }
  | .vFcmpLt _ f => vForm 0x15 1 { f with vd := setBit f.vd 4 false }
  | .vFcmpLe _ f => vForm 0x15 0 { f with vd := setBit f.vd 4 true }
  | .vFcmpUn _ f => vForm 0x15 1 { f with vd := setBit f.vd 4 true }
  | .vPand _ f => vForm 0x16 0 { f with vd := setBit f.vd 4 false }
  | .vPor _ f => vForm 0x16 1 { f with vd := setBit f.vd 4 false }
  | .vPxor _ f => vForm 0x16 0 { f with vd := setBit f.vd 4 true }
  | .vPandn _ f => vForm 0x16 1 { f with vd := setBit f.vd 4 true }
  | .vRedSum _ f => vForm 0x18 0 { f with vs2 := 0 }
  | .vRedSumsq _ f => vForm 0x18 0 { f with vs2 := 1 }
  | .vRedMax _ f => vForm 0x18 0 { f with vs2 := 2 }
  | .vRedMin _ f => vForm 0x18 0 { f with vs2 := 3 }
  | .vRedMaxu _ f => vForm 0x18 0 { f with vs2 := 4 }
  | .vRedMinu _ f => vForm 0x18 0 { f with vs2 := 5 }
  | .vFredSum _ f => vForm 0x18 1 { f with vs2 := 0 }
  | .vFredSumsq _ f => vForm 0x18 1 { f with vs2 := 1 }
  | .vFredMax _ f => vForm 0x18 1 { f with vs2 := 2 }
  | .vFredMin _ f => vForm 0x18 1 { f with vs2 := 3 }
  | .vCvt _ f => lForm 0x0 f
  | .vMfma _ f => lForm 0x1 f
  | .vStat _ f => lForm 0x2 f
  | .vStatMerge _ f => lForm 0x3 f
  | .updSgdm _ f => lForm 0x8 f
  | .updAdamw _ f => lForm 0x9 f
  | .updLion _ f => lForm 0xA f
  | .tLd _ f => tForm 0x00 f
  | .tSt _ f => tForm 0x01 f
  | .tMov _ f => tForm 0x02 f
  | .tClr _ f => tForm 0x03 f
  | .tExt _ f => tForm 0x04 f
  | .mxMma _ f => tForm 0x10 f
  | _ => 0

/-- A field of a word as a register number. -/
def fld (n : Nat) (w : BitVec 32) (lo : Nat) : BitVec n := (w >>> lo).setWidth n

/-- The vector fields of a word (R108). -/
def vFields (w : BitVec 32) : VForm :=
  { vd := fld 5 w 20, vs1 := fld 5 w 15, vs2 := fld 5 w 10, qp := fld 4 w 6, et := fld 3 w 3, grp := fld 2 w 1 }

/-- Unit 00 (R40–R54). -/
def decodeScalar (t : Tid) (w : BitVec 32) : Option Instr :=
  let rd : Reg := fld 5 w 20
  let rs1 : Reg := fld 5 w 15
  let rs2 : Reg := fld 5 w 10
  let func := bits w 9 0
  let f3 := bits w 14 12
  let imm : BitVec 12 := fld 12 w 0
  let imm20 : BitVec 20 := fld 20 w 0
  match bits w 31 27 with
  | 0x00 => match func with
    | 0x0 => some (.add t rd rs1 rs2)
    | 0x1 => some (.sub t rd rs1 rs2)
    | 0x2 => some (.and t rd rs1 rs2)
    | 0x3 => some (.or t rd rs1 rs2)
    | 0x4 => some (.xor t rd rs1 rs2)
    | 0x5 => some (.sll t rd rs1 rs2)
    | 0x6 => some (.srl t rd rs1 rs2)
    | 0x7 => some (.sra t rd rs1 rs2)
    | 0x8 => some (.slt t rd rs1 rs2)
    | 0x9 => some (.sltu t rd rs1 rs2)
    | 0xa => some (.min t rd rs1 rs2)
    | 0xb => some (.max t rd rs1 rs2)
    | 0xc => some (.minu t rd rs1 rs2)
    | 0xd => some (.maxu t rd rs1 rs2)
    | 0x10 => if rs2 = 0 then some (.clz t rd rs1) else none
    | 0x11 => if rs2 = 0 then some (.ctz t rd rs1) else none
    | 0x12 => if rs2 = 0 then some (.popc t rd rs1) else none
    | _ => none
  | 0x01 => match f3 with
    | 0 => some (.addi t rd rs1 imm)
    | 1 => some (.slti t rd rs1 imm)
    | 2 => some (.sltiu t rd rs1 imm)
    | 3 => some (.xori t rd rs1 imm)
    | 4 => some (.ori t rd rs1 imm)
    | 5 => some (.andi t rd rs1 imm)
    | 6 => if bits imm 9 6 ≠ 0 then none else
      match bits imm 11 10 with
      | 0 => some (.slli t rd rs1 (imm.setWidth 6))
      | 1 => some (.srli t rd rs1 (imm.setWidth 6))
      | 2 => some (.srai t rd rs1 (imm.setWidth 6))
      | _ => none
    | _ => none
  | 0x02 => match func with
    | 0x0 => some (.addW t rd rs1 rs2)
    | 0x1 => some (.subW t rd rs1 rs2)
    | 0x5 => some (.sllW t rd rs1 rs2)
    | 0x6 => some (.srlW t rd rs1 rs2)
    | 0x7 => some (.sraW t rd rs1 rs2)
    | _ => none
  | 0x03 => match f3 with
    | 0 => some (.addiW t rd rs1 imm)
    | 6 => if bits imm 9 5 ≠ 0 then none else
      match bits imm 11 10 with
      | 0 => some (.slliW t rd rs1 (imm.setWidth 5))
      | 1 => some (.srliW t rd rs1 (imm.setWidth 5))
      | 2 => some (.sraiW t rd rs1 (imm.setWidth 5))
      | _ => none
    | _ => none
  | 0x04 => match func with
    | 0x0 => some (.mul t rd rs1 rs2)
    | 0x1 => some (.mulh t rd rs1 rs2)
    | 0x2 => some (.mulhu t rd rs1 rs2)
    | 0x3 => some (.mulhsu t rd rs1 rs2)
    | 0x4 => some (.div t rd rs1 rs2)
    | 0x5 => some (.divu t rd rs1 rs2)
    | 0x6 => some (.rem t rd rs1 rs2)
    | 0x7 => some (.remu t rd rs1 rs2)
    | 0x8 => some (.mulW t rd rs1 rs2)
    | 0xc => some (.divW t rd rs1 rs2)
    | 0xd => some (.divuW t rd rs1 rs2)
    | 0xe => some (.remW t rd rs1 rs2)
    | 0xf => some (.remuW t rd rs1 rs2)
    | _ => none
  | 0x05 => some (.lui t rd imm20)
  | 0x06 => some (.auipc t rd imm20)
  | 0x07 => match f3 with
    | 0 => some (.ldB t rd rs1 imm)
    | 1 => some (.ldH t rd rs1 imm)
    | 2 => some (.ldW t rd rs1 imm)
    | 3 => some (.ldD t rd rs1 imm)
    | 4 => some (.ldBu t rd rs1 imm)
    | 5 => some (.ldHu t rd rs1 imm)
    | 6 => some (.ldWu t rd rs1 imm)
    | _ => none
  | 0x08 => match f3 with
    | 0 => some (.stB t rd rs1 imm)
    | 1 => some (.stH t rd rs1 imm)
    | 2 => some (.stW t rd rs1 imm)
    | 3 => some (.stD t rd rs1 imm)
    | _ => none
  | 0x09 => match f3 with
    | 0 => some (.beq t rs1 rd imm)
    | 1 => some (.bne t rs1 rd imm)
    | 4 => some (.blt t rs1 rd imm)
    | 5 => some (.bge t rs1 rd imm)
    | 6 => some (.bltu t rs1 rd imm)
    | 7 => some (.bgeu t rs1 rd imm)
    | _ => none
  | 0x0A => some (.jal t rd imm20)
  | 0x0B => if f3 = 0 then some (.jalr t rd rs1 imm) else none
  | 0x0C => if bits w 3 1 ≠ 0 then none else
    let d := bit w 0
    let rl := bit w 8
    let aq := bit w 9
    match bits w 7 4 with
    | 0x0 => some (.amoSwap t rd rs1 rs2 d aq rl)
    | 0x1 => some (.amoAdd t rd rs1 rs2 d aq rl)
    | 0x2 => some (.amoAnd t rd rs1 rs2 d aq rl)
    | 0x3 => some (.amoOr t rd rs1 rs2 d aq rl)
    | 0x4 => some (.amoXor t rd rs1 rs2 d aq rl)
    | 0x5 => some (.amoMin t rd rs1 rs2 d aq rl)
    | 0x6 => some (.amoMax t rd rs1 rs2 d aq rl)
    | 0x7 => some (.amoMinu t rd rs1 rs2 d aq rl)
    | 0x8 => some (.amoMaxu t rd rs1 rs2 d aq rl)
    | 0x9 => some (.amoCas t rd rs1 rs2 d aq rl)
    | _ => none
  | 0x0D => if rd ≠ 0 ∨ rs1 ≠ 0 ∨ imm ≠ 0 then none else
    match f3 with
    | 1 => some (.fenceAcq t)
    | 2 => some (.fenceRel t)
    | 3 => some (.fenceAr t)
    | 4 => some (.fenceI t)
    | _ => none
  | _ => none

/-- Unit 01, majors 0x00–0x1E (R110). -/
def decodeVector (t : Tid) (w : BitVec 32) : Option Instr :=
  let f := vFields w
  let x := bit w 0
  let pick (a b : Instr) : Option Instr := some (if x then b else a)
  let four (a b c d : Instr) : Option Instr := some (if bit f.vd 4 then (if x then d else c) else (if x then b else a))
  match bits w 31 27 with
  | 0x00 => pick (.vAdd t f) (.vSub t f)
  | 0x01 => pick (.vMul t f) (.vMulh t f)
  | 0x02 => pick (.vMulhu t f) (.vMulhsu t f)
  | 0x03 => pick (.vMin t f) (.vMax t f)
  | 0x04 => pick (.vMinu t f) (.vMaxu t f)
  | 0x05 => pick (.vAnd t f) (.vOr t f)
  | 0x06 => pick (.vXor t f) (.vAndn t f)
  | 0x07 => pick (.vSll t f) (.vSrl t f)
  | 0x08 => pick (.vSra t f) (.vSrar t f)
  | 0x09 => pick (.vSadd t f) (.vSsub t f)
  | 0x0A => pick (.vSaddu t f) (.vSsubu t f)
  | 0x0B => pick (.vQmul t f) (.vQmulRne t f)
  | 0x0C => pick (.vNarrowS t f) (.vNarrowU t f)
  | 0x0D => pick (.vNarrowSRne t f) (.vNarrowURne t f)
  | 0x0E => pick (.vFadd t f) (.vFsub t f)
  | 0x0F => pick (.vFmul t f) (.vFdiv t f)
  | 0x10 => pick (.vFma t f) (.vFnma t f)
  | 0x11 => pick (.vFmin t f) (.vFmax t f)
  | 0x12 => if x then none else
    match f.vs2.toNat with
    | 0 => some (.vFsqrt t f)
    | 1 => some (.vFabs t f)
    | 2 => some (.vFneg t f)
    | _ => none
  | 0x13 => four (.vCmpEq t f) (.vCmpNe t f) (.vCmpLt t f) (.vCmpLe t f)
  | 0x14 => four (.vCmpGt t f) (.vCmpGe t f) (.vCmpLtu t f) (.vCmpLeu t f)
  | 0x15 => four (.vFcmpEq t f) (.vFcmpLt t f) (.vFcmpLe t f) (.vFcmpUn t f)
  | 0x16 => four (.vPand t f) (.vPor t f) (.vPxor t f) (.vPandn t f)
  | 0x18 => if x then
      match f.vs2.toNat with
      | 0 => some (.vFredSum t f)
      | 1 => some (.vFredSumsq t f)
      | 2 => some (.vFredMax t f)
      | 3 => some (.vFredMin t f)
      | _ => none
    else
      match f.vs2.toNat with
      | 0 => some (.vRedSum t f)
      | 1 => some (.vRedSumsq t f)
      | 2 => some (.vRedMax t f)
      | 3 => some (.vRedMin t f)
      | 4 => some (.vRedMaxu t f)
      | 5 => some (.vRedMinu t f)
      | _ => none
  | 0x17 => pick (.vPwhile t f) (.vPcount t f)
  | 0x19 => pick (.vLd t f) (.vLdS t f)
  | 0x1A => pick (.vLdX t f) (.vLdSeg t f)
  | 0x1B => pick (.vSt t f) (.vStS t f)
  | 0x1C => pick (.vStX t f) (.vStSeg t f)
  | 0x1D => pick (.vSplat t f) (.vSel t f)
  | 0x1E => pick (.vExt t f) (.vIns t f)
  | _ => none

/-- Vector long forms (R129, R303). -/
def decodeLong (t : Tid) (w : BitVec 32) (w1 : Word) : Option Instr :=
  let f : LForm := { rd := fld 5 w 20, rs1 := fld 5 w 15, rs2 := fld 5 w 10, qp := fld 4 w 6, grp := fld 2 w 4, w1 := w1 }
  match bits w 3 0 with
  | 0x0 => some (.vCvt t f)
  | 0x1 => some (.vMfma t f)
  | 0x2 => some (.vStat t f)
  | 0x3 => some (.vStatMerge t f)
  | 0x8 => some (.updSgdm t f)
  | 0x9 => some (.updAdamw t f)
  | 0xa => some (.updLion t f)
  | _ => none

/-- Tile and harp instructions (R168, R189). -/
def decodeTile (t : Tid) (w : BitVec 32) (w1 : Word) : Option Instr :=
  let f : TForm := { rd := fld 5 w 20, rs1 := fld 5 w 15, rs2 := fld 5 w 10, sub := fld 4 w 0, w1 := w1 }
  match bits w 9 4 with
  | 0x0 => some (.tLd t f)
  | 0x1 => some (.tSt t f)
  | 0x2 => some (.tMov t f)
  | 0x3 => some (.tClr t f)
  | 0x4 => some (.tExt t f)
  | 0x10 => some (.mxMma t f)
  | _ => none

/-- Unit 11 (R40, R55, R59, R76, R366). R59 gives imm12 no use in `yield` and `tend` and does not say that it must be zero: any imm12 decodes to them (DESIGN CHOICE, log 132). -/
def decodeSystem (t : Tid) (w : BitVec 32) : Option Instr :=
  let rd : Reg := fld 5 w 20
  let rs1 : Reg := fld 5 w 15
  let rs2 : Reg := fld 5 w 10
  let f3 := bits w 14 12
  let imm : BitVec 12 := fld 12 w 0
  match bits w 31 27 with
  | 0x10 => match f3 with
    | 1 => some (.srRw t rd rs1 imm)
    | 2 => some (.srSet t rd rs1 imm)
    | 3 => some (.srClr t rd rs1 imm)
    | _ => none
  | 0x11 => if rd ≠ 0 ∨ rs1 ≠ 0 then none else
    match f3 with
    | 0 => some (.gate t imm)
    | 1 => if imm = 0 then some (.xret t) else none
    | 2 => if imm = 0 then some (.xretG t) else none
    | _ => none
  | 0x12 => match bits w 9 0 with
    | 0 => if rs2 = 0 then some (.pegRd t rd rs1) else none
    | 1 => some (.pegAdd t rd rs1 rs2)
    | 2 => some (.pegSet t rd rs1 rs2)
    | 3 => some (.pegWaitGe t rd rs1 rs2)
    | 4 => some (.pegWaitEq t rd rs1 rs2)
    | 5 => some (.pegArrive t rd rs1 rs2)
    | _ => none
  | 0x13 => if rd ≠ 0 ∨ rs1 ≠ 0 then none else
    match f3 with
    | 0 => some (.yield t)
    | 1 => some (.pause t imm)
    | 2 => some (.tend t)
    | _ => none
  | _ => none

/-- Whether a word is word 0 of a long form (R38–R40). -/
def isLong (w : BitVec 32) : Bool := decide (bits w 31 27 = 0x1F) && (decide (bits w 26 25 = 1) || decide (bits w 26 25 = 2))

/-- The instruction that words spell for a thread (R39); none is an illegal one. -/
def decodeInstr (t : Tid) (w : BitVec 32) (w1 : Word) : Option Instr :=
  match bits w 26 25 with
  | 0 => decodeScalar t w
  | 1 => if bits w 31 27 = 0x1F then decodeLong t w w1 else decodeVector t w
  | 2 => if bits w 31 27 = 0x1F then decodeTile t w w1 else none
  | _ => decodeSystem t w

end Sys2Proof.Machine
end

