-- ==== Sys2Proof/Machine/System.lean ====
section
/-! DEFINITION. Atomics, fences, system-register, thread-control, privilege and peg instructions (R47–R59, R72–R76, R366–R369). -/

namespace Sys2Proof.Machine

/-- An illegal instruction raised by an instruction that issues alone (R39): XVAL is its word 0. -/
def illegalNow (s : State) (t : Tid) (w : BitVec 32) : Option State := raiseScalar s s t { code := 0, val := w.setWidth 64 }

/-- Whether every earlier instruction of a thread has completed (R57): no result awaited, nothing left in the units. -/
def drained (s : State) (t : Tid) : Bool :=
  let th := thread s t
  let x := cell s (cellOf t)
  let j := thrOf t
  th.vq.isEmpty && th.tq.isEmpty && decide (th.busy = 0) && th.hold.isEmpty
    && !x.mshrs.any (fun (m : Mshr) => m.loads.any (fun (l : LoadReq) => decide (l.thr.val = j)))
    && !x.loads.any (fun (l : LoadReq) => decide (l.thr.val = j)) && !x.held.any (fun (h : HeldMiss) => decide (h.load.thr.val = j))

/-! ## System registers (R55–R58) -/

/-- The operation of an `sr.*` instruction on a register's old value and rs1. -/
inductive SrOp where
  | rw
  | set
  | clr
  deriving DecidableEq

/-- The value an `sr.*` writes (R55). -/
def SrOp.val : SrOp → Word → Word → Word
  | .rw, _, x => x
  | .set, o, x => o ||| x
  | .clr, o, x => o &&& ~~~x

/-- Whether the level, the number or the read-only bit makes an `sr.*` illegal (R56). -/
def srIllegal (lvl : Nat) (n : Nat) (writes : Bool) : Bool :=
  decide (n / 0x400 = 3) || decide (lvl < n / 0x400) || !srAssigned n || (writes && decide (n / 0x200 % 2 = 1))

/-- A system register written by its thread: TILEOWN gives and takes tiles (R166), the others take their fields (R57). -/
def srWriteBy (s : State) (t : Tid) (n : Nat) (v : Word) : State :=
  if n = 0x400 then gainTiles s t (v.setWidth 16) else srWrite s t n v

/-- An `sr.*` instruction (R55–R57): a write, and a read of FFLAGS (R156), wait until every earlier instruction of the thread has completed. -/
def runSr (s : State) (t : Tid) (op : SrOp) (rd rs1 : Reg) (num : BitVec 12) (w : BitVec 32) : Option State :=
  let n := num.toNat
  let writes := decide (op = .rw) || decide (rs1 ≠ 0)
  if !mayIssue s t false [rd, rs1] then none
  else if srIllegal (thread s t).level.toNat n writes then illegalNow s t w
  else if (writes || decide (n = 2)) && !drained s t then none
  else
    let old := srRead s t n
    let x := rx s t rs1
    let s := issued s t
    let s := if writes then srWriteBy s t n (op.val old x) else s
    some (writeNext s t rd old)

/-! ## Fences (R54) -/

/-- A fence: its release, then its acquire; its release waits for what the thread's units have still to do (R180, R205) and for a push that is held (R264). -/
def runFence (s : State) (t : Tid) (rel acq : Bool) : Option State :=
  if !mayIssue s t false [] then none
  else if rel && !releaseReady s t then releaseWait s t
  else
    let s := issued s t
    let s := if rel then release s t else s
    let s := if acq then acquire s (cellOf t) else s
    some (nextPc s t)

/-- `fence.i`: the cell's instruction cache is emptied (R53). -/
def runFenceI (s : State) (t : Tid) : Option State :=
  if !mayIssue s t false [] then none
  else some (nextPc (modCell (issued s t) (cellOf t) (fun x => { x with icache := [] })) t)

/-! ## Thread control (R59) -/

/-- `yield` (R59): the thread's own issue uses up an older yield. -/
def runYield (s : State) (t : Tid) : Option State :=
  if !mayIssue s t false [] then none
  else some (modThread (issued s t) t (fun th => { th with yield := true, pc := th.pc + 4 }))

/-- `pause` (R59): a count of 0 or less acts as `yield`. -/
def runPause (s : State) (t : Tid) (imm : BitVec 12) : Option State :=
  if imm.toInt ≤ 0 then runYield s t
  else if !mayIssue s t false [] then none
  else some (modThread (issued s t) t (fun th => { th with st := .waiting (.pause imm.toNat) }))

/-- `tend` (R59, R166, R354): the thread's earlier instructions have completed; its accesses are performed before the completion it may signal. -/
def runTend (s : State) (t : Tid) : Option State :=
  if !mayIssue s t false [] || !drained s t then none
  else if !releaseReady s t then releaseWait s t
  else
    let job := (thread s t).task
    let s := release (issued s t) t
    let s := modThread s t (fun th => { th with st := .idle, mine := 0, spec := none, task := none, pc := th.pc + 4 })
    let s := capoHeld s (cellOf t)
    some (match job with
      | some j => { s with tasks := { s.tasks with runs := s.tasks.runs.map (fun (p : Nat × TaskRun) =>
          if p.1 = j then (p.1, { p.2 with left := p.2.left - 1 }) else p) } }
      | none => s)

/-! ## Privilege (R72–R76) -/

/-- An instruction that changes the level, issued: it waits for the registers that it reads and writes (R32), and for older loads, whose faults belong to the level before it (R33, R44). -/
def runLevel (s : State) (t : Tid) (rs : List Reg) (f : State → State) : Option State :=
  if !mayIssue s t false rs || !entryReady s t then none else some (unlessWaits s t (f (issued s t)))

/-- The registers of a gate: s2 and the arguments s10–s15 (R72, R73). -/
def gateRegs : List Reg := [2, 10, 11, 12, 13, 14, 15]

/-- `gate` (R73). -/
def runGate (s : State) (t : Tid) (imm : BitVec 12) : Option State := runLevel s t gateRegs (fun s => doGate s t imm.toNat)

/-- `xret` (R74). -/
def runXret (s : State) (t : Tid) : Option State := runLevel s t [2] (fun s => doXret s t)

/-- `xret.g` (R75). -/
def runXretG (s : State) (t : Tid) : Option State := runLevel s t [2] (fun s => doXretG s t)

/-! ## Atomics (R47, R48) -/

/-- What memory becomes: the old value, rs2 and rd before the instruction, in an operand's width (R47). -/
def amoFun {w : Nat} (op : Nat) (old b d : BitVec w) : BitVec w :=
  match op with
  | 0 => b
  | 1 => old + b
  | 2 => old &&& b
  | 3 => old ||| b
  | 4 => old ^^^ b
  | 5 => if old.slt b then old else b
  | 6 => if old.slt b then b else old
  | 7 => if old.ult b then old else b
  | 8 => if old.ult b then b else old
  | _ => if old = d then b else old

/-- The bytes an atomic stores (R47). -/
def amoBytes (op n : Nat) (old : Nat) (b d : Word) : List Byte :=
  if n = 8 then leBytes (amoFun op (wd old) b d).toNat 8
  else leBytes (amoFun op (BitVec.ofNat 32 old) (lo32 b) (lo32 d)).toNat 4

/-- Every outstanding access of the thread to a line performed, so that accesses to the same byte keep program order (R49). -/
def settleFor (s : State) (t : Tid) (l : Nat) : State := settleLine s (cellOf t) (thrOf t) l

/-- An atomic held for a miss register: its thread waits (R229, R231). -/
def amoHold (s : State) (t : Tid) (i : Instr) (pa : Nat) : State :=
  let r : LoadReq := { thr := Fin.ofNat 8 (thrOf t), rd := 0, pa := pa, bytes := 0, signed := false, seq := (cell s (cellOf t)).accNo }
  modThread (modCell s (cellOf t) (fun x => { x with held := x.held ++ [{ line := pa / 128, load := r, kind := .atomic, instr := some i }] }))
    t (fun th => { th with st := .waiting .miss })

/-- A line's fill that its home has served, which another access of the cell has overtaken since: it installs nothing (R49 rule 1). -/
def staleFills (s : State) (c l : Nat) : State :=
  modCell s c (fun x => { x with mshrs := x.mshrs.map (fun m => if m.line = l && m.served.isSome then { m with install := false } else m) })

/-- An atomic performed at its home (R48), after the thread's own accesses to the line (R49). -/
def amoAt (s : State) (t : Tid) (op n : Nat) (rd rs1 rs2 : Reg) (pa : Nat) (aq : Bool) : State :=
  let va := rx s t rs1
  let b := rx s t rs2
  let d := rx s t rd
  let ((bs, bad), s2) := coreRead (settleFor s t (pa / 128)) (cellOf t) pa n
  match bad with
  | some _ => raise s2 t { code := 7, val := va }
  | none =>
    let s3 := staleFills s2 (cellOf t) (pa / 128)
    let s4 := homeWriteFrom (l1Drop s3 (cellOf t) (pa / 128)) (dieOfCore (cellOf t)) pa (amoBytes op n (ofLE bs) b d)
    let s5 := writeNext s4 t rd (sext (8 * n) (ofLE bs))
    if aq then acquire s5 (cellOf t) else s5

/-- Whether the leaf of an address, whose frame is known though the access fails its checks, reaches a device (R64, R87). -/
def leafDevice (s : State) (t : Tid) (va : Word) : Bool :=
  decide ((thread s t).level ≠ 2) &&
    (match (findEnt s (cellOf t) (thread s t).asid va .atomic).1 with
      | .ok (e, _) => isDevice s (pairFrame (ctxOf s t) e + va.toNat % 2 ^ e.size)
      | .error _ => false)

/-- An atomic sent whose home or stack does not take it yet: it goes when they do (R18, R23, R246, R255), and to HBM it occupies a miss register meanwhile (R229). -/
def amoSend (s : State) (t : Tid) (i : Instr) (pa : Nat) : State :=
  let m : AtomReq := { thr := Fin.ofNat 8 (thrOf t), line := pa / 128, pa := pa, instr := i, no := nextNo s }
  modThread (startLines (modCell s (cellOf t) (fun x => { x with atomics := x.atomics ++ [m] })) [pa / 128]) t (fun th => { th with st := .waiting .miss })

/-- An atomic instruction (R47, R48): its faults in the order of R64, then its release, then its access; one to HBM needs a miss register (R229). -/
def runAmo (i : Instr) (s : State) (t : Tid) (op : Nat) (rd rs1 rs2 : Reg) (d aq rl : Bool) : Option State :=
  if !mayIssue s t false [rd, rs1, rs2] then none
  else
    let n := if d then 8 else 4
    let va := rx s t rs1
    let c := cellOf t
    let mis := decide (va.toNat % n ≠ 0)
    if xlatHeld s c (ctxOf s t) va .atomic then some (xlatWait s t (ctxOf s t) va .atomic)
    else
      match translate s c (ctxOf s t) va .atomic with
      | (.error e, s') =>
        raiseScalar s (releaseStreams s' t va .atomic) t
          (if leafDevice s' t va then { code := 2, val := va } else if mis then { code := 1, val := va } else e)
      | (.ok pa, s') =>
        if isDevice s pa then raiseScalar s s' t { code := 2, val := va }
        else if mis then raiseScalar s s' t { code := 1, val := va }
        else if irrevocable s t pa true then some (holdAction s' t)
        else if !entryReady s t then none
        else if rl && !releaseReady s t then releaseWait s t
        else
          let go (s : State) : State := issued (if rl then release s t else s) t
          let s' := if inHbm pa then trainStreams s' c (thrOf t) (demandAt s' t va) false else s'
          if inHbm pa && (missGrant s' c (pa / 128)).isSome then some (amoHold s' t i pa)
          else if lineOpen s' c (pa / 128) then some (unlessWaits s' t (amoAt (go s') t op n rd rs1 rs2 pa aq))
          else some (amoSend (go s') t i pa)

/-! ## Pegs (R365–R369) -/

/-- The instance of PEG_GRP that holds a peg's group (R371). -/
def pegGroup (p : Nat) : Nat := p / 64

/-- Whether a thread at U may not use a peg's group (R368). -/
def pegDenied (s : State) (t : Tid) (p : Nat) : Bool :=
  let th := thread s t
  decide (th.level = 0) && (decide (rf s .pegGrp F.pegGrpUen (pegGroup p) = 0)
    || decide (rf s .pegGrp F.pegGrpAsid (pegGroup p) ≠ th.asid.toNat))

/-- The kinds of peg instruction (R366). -/
inductive PegOp where
  | rd
  | add
  | set
  | waitGe
  | waitEq
  | arrive
  deriving DecidableEq

/-- The DETAIL of the peg fault a peg instruction raises, if any, in the order of R368. -/
def pegFault (s : State) (t : Tid) (op : PegOp) (p v : Word) : Option Nat :=
  if 16384 ≤ p.toNat then some 1
  else if (decide (op = .set) || decide (op = .waitGe) || decide (op = .waitEq)) && bit v 63 then some 2
  else if pegDenied s t p.toNat then some 3
  else if op = .arrive && decide (v = 0) then some 4
  else none

/-- A wait set, or satisfied at once (R366). -/
def pegWait (s : State) (t : Tid) (p v : Nat) (eq : Bool) (rd : Reg) : State :=
  let x := pegVal s p
  if waitMet (.peg p v eq rd) p x then acquire (writeNext s t rd (wd x)) (cellOf t)
  else modThread s t (fun th => { th with st := .waiting (.peg p v eq rd) })

/-- `peg.arrive` (R369): the add unless PRESUME holds the value of an interrupted arrival, then the wait for the target. -/
def pegArriveAt (s : State) (t : Tid) (p n : Nat) (rd : Reg) : State :=
  let pre := srAt s t 0x007
  let valid := bit pre 63
  let old := if valid then bits pre 62 0 else pegVal s p
  let target := (old / n + 1) * n
  let s := if valid then s else release s t
  let s := modThread s t (fun th => { th with st := .waiting (.arrive p target old rd) })
  if valid then (if target ≤ pegVal s p then finishArrive s t else s)
  else (pegAddTo s p 1 (adderThread s t)).2

/-- A peg instruction's operation once its checks have passed (R366). -/
def pegDo (s : State) (t : Tid) (op : PegOp) (rd : Reg) (p : Nat) (v : Word) : State :=
  match op with
  | .rd => acquire (writeNext s t rd (wd (pegVal s p))) (cellOf t)
  | .add =>
    let s := release s t
    let (old, s) := pegAddTo s p v.toInt (adderThread s t)
    writeNext s t rd (wd old)
  | .set =>
    let s := release s t
    let old := pegVal s p
    writeNext (pegPut s p v.toNat) t rd (wd old)
  | .waitGe => pegWait s t p v.toNat false rd
  | .waitEq => pegWait s t p v.toNat true rd
  | .arrive => pegArriveAt s t p v.toNat rd

/-- Whether a peg instruction releases (R366, R369): an arrival that an interrupt broke off has released already. -/
def PegOp.releases (s : State) (t : Tid) : PegOp → Bool
  | .rd => false
  | .add => true
  | .set => true
  | .waitGe => false
  | .waitEq => false
  | .arrive => !bit (srAt s t 0x007) 63

/-- A peg instruction issued (R366–R369). -/
def runPeg (s : State) (t : Tid) (op : PegOp) (rd rs1 rs2 : Reg) : Option State :=
  if !mayIssue s t false [rd, rs1, rs2] then none
  else
    let p := rx s t rs1
    let v := rx s t rs2
    match pegFault s t op p v with
    | some k => raiseScalar s s t { code := 0x0C, detail := k, val := p }
    | none => if op.releases s t && !releaseReady s t then releaseWait s t else some (pegDo (issued s t) t op rd p.toNat v)

/-! ## The rows -/

/-- AMO_SWAP (R47). -/
def execAmoSwap (t : Tid) (rd rs1 rs2 : Reg) (d aq rl : Bool) (s : State) : Host.Outcome State Fault Refusal := .next ((runAmo (.amoSwap t rd rs1 rs2 d aq rl) s t 0 rd rs1 rs2 d aq rl).getD s)

/-- AMO_ADD (R47). -/
def execAmoAdd (t : Tid) (rd rs1 rs2 : Reg) (d aq rl : Bool) (s : State) : Host.Outcome State Fault Refusal := .next ((runAmo (.amoAdd t rd rs1 rs2 d aq rl) s t 1 rd rs1 rs2 d aq rl).getD s)

/-- AMO_AND (R47). -/
def execAmoAnd (t : Tid) (rd rs1 rs2 : Reg) (d aq rl : Bool) (s : State) : Host.Outcome State Fault Refusal := .next ((runAmo (.amoAnd t rd rs1 rs2 d aq rl) s t 2 rd rs1 rs2 d aq rl).getD s)

/-- AMO_OR (R47). -/
def execAmoOr (t : Tid) (rd rs1 rs2 : Reg) (d aq rl : Bool) (s : State) : Host.Outcome State Fault Refusal := .next ((runAmo (.amoOr t rd rs1 rs2 d aq rl) s t 3 rd rs1 rs2 d aq rl).getD s)

/-- AMO_XOR (R47). -/
def execAmoXor (t : Tid) (rd rs1 rs2 : Reg) (d aq rl : Bool) (s : State) : Host.Outcome State Fault Refusal := .next ((runAmo (.amoXor t rd rs1 rs2 d aq rl) s t 4 rd rs1 rs2 d aq rl).getD s)

/-- AMO_MIN (R47). -/
def execAmoMin (t : Tid) (rd rs1 rs2 : Reg) (d aq rl : Bool) (s : State) : Host.Outcome State Fault Refusal := .next ((runAmo (.amoMin t rd rs1 rs2 d aq rl) s t 5 rd rs1 rs2 d aq rl).getD s)

/-- AMO_MAX (R47). -/
def execAmoMax (t : Tid) (rd rs1 rs2 : Reg) (d aq rl : Bool) (s : State) : Host.Outcome State Fault Refusal := .next ((runAmo (.amoMax t rd rs1 rs2 d aq rl) s t 6 rd rs1 rs2 d aq rl).getD s)

/-- AMO_MINU (R47). -/
def execAmoMinu (t : Tid) (rd rs1 rs2 : Reg) (d aq rl : Bool) (s : State) : Host.Outcome State Fault Refusal := .next ((runAmo (.amoMinu t rd rs1 rs2 d aq rl) s t 7 rd rs1 rs2 d aq rl).getD s)

/-- AMO_MAXU (R47). -/
def execAmoMaxu (t : Tid) (rd rs1 rs2 : Reg) (d aq rl : Bool) (s : State) : Host.Outcome State Fault Refusal := .next ((runAmo (.amoMaxu t rd rs1 rs2 d aq rl) s t 8 rd rs1 rs2 d aq rl).getD s)

/-- AMO_CAS (R47). -/
def execAmoCas (t : Tid) (rd rs1 rs2 : Reg) (d aq rl : Bool) (s : State) : Host.Outcome State Fault Refusal := .next ((runAmo (.amoCas t rd rs1 rs2 d aq rl) s t 9 rd rs1 rs2 d aq rl).getD s)

/-- FENCE_ACQ (R54). -/
def execFenceAcq (t : Tid) (s : State) : Host.Outcome State Fault Refusal := .next ((runFence s t false true).getD s)

/-- FENCE_REL (R54). -/
def execFenceRel (t : Tid) (s : State) : Host.Outcome State Fault Refusal := .next ((runFence s t true false).getD s)

/-- FENCE_AR (R54). -/
def execFenceAr (t : Tid) (s : State) : Host.Outcome State Fault Refusal := .next ((runFence s t true true).getD s)

/-- FENCE_I (R53). -/
def execFenceI (t : Tid) (s : State) : Host.Outcome State Fault Refusal := .next ((runFenceI s t).getD s)


/-- SR_RW (R55). -/
def execSrRw (t : Tid) (rd rs1 : Reg) (num : BitVec 12) (s : State) : Host.Outcome State Fault Refusal := .next ((runSr s t .rw rd rs1 num (iForm 0x10 3 rd rs1 1 num)).getD s)

/-- SR_SET (R55). -/
def execSrSet (t : Tid) (rd rs1 : Reg) (num : BitVec 12) (s : State) : Host.Outcome State Fault Refusal := .next ((runSr s t .set rd rs1 num (iForm 0x10 3 rd rs1 2 num)).getD s)

/-- SR_CLR (R55). -/
def execSrClr (t : Tid) (rd rs1 : Reg) (num : BitVec 12) (s : State) : Host.Outcome State Fault Refusal := .next ((runSr s t .clr rd rs1 num (iForm 0x10 3 rd rs1 3 num)).getD s)

/-- YIELD (R59). -/
def execYield (t : Tid) (s : State) : Host.Outcome State Fault Refusal := .next ((runYield s t).getD s)

/-- PAUSE (R59). -/
def execPause (t : Tid) (imm : BitVec 12) (s : State) : Host.Outcome State Fault Refusal := .next ((runPause s t imm).getD s)

/-- TEND (R59). -/
def execTend (t : Tid) (s : State) : Host.Outcome State Fault Refusal := .next ((runTend s t).getD s)

/-- GATE (R73). -/
def execGate (t : Tid) (imm : BitVec 12) (s : State) : Host.Outcome State Fault Refusal := .next ((runGate s t imm).getD s)

/-- XRET (R74). -/
def execXret (t : Tid) (s : State) : Host.Outcome State Fault Refusal := .next ((runXret s t).getD s)

/-- XRET_G (R75). -/
def execXretG (t : Tid) (s : State) : Host.Outcome State Fault Refusal := .next ((runXretG s t).getD s)

/-- PEG_RD (R366). -/
def execPegRd (t : Tid) (rd rs1 : Reg) (s : State) : Host.Outcome State Fault Refusal := .next ((runPeg s t .rd rd rs1 0).getD s)

/-- PEG_ADD (R366). -/
def execPegAdd (t : Tid) (rd rs1 rs2 : Reg) (s : State) : Host.Outcome State Fault Refusal := .next ((runPeg s t .add rd rs1 rs2).getD s)

/-- PEG_SET (R366). -/
def execPegSet (t : Tid) (rd rs1 rs2 : Reg) (s : State) : Host.Outcome State Fault Refusal := .next ((runPeg s t .set rd rs1 rs2).getD s)

/-- PEG_WAIT_GE (R366). -/
def execPegWaitGe (t : Tid) (rd rs1 rs2 : Reg) (s : State) : Host.Outcome State Fault Refusal := .next ((runPeg s t .waitGe rd rs1 rs2).getD s)

/-- PEG_WAIT_EQ (R366). -/
def execPegWaitEq (t : Tid) (rd rs1 rs2 : Reg) (s : State) : Host.Outcome State Fault Refusal := .next ((runPeg s t .waitEq rd rs1 rs2).getD s)

/-- PEG_ARRIVE (R369). -/
def execPegArrive (t : Tid) (rd rs1 rs2 : Reg) (s : State) : Host.Outcome State Fault Refusal := .next ((runPeg s t .arrive rd rs1 rs2).getD s)

/-- PAUSE_EXPIRY (R59): the cycles of a `pause` have passed. -/
def execPauseExpiry (t : Tid) (s : State) : Host.Outcome State Fault Refusal :=
  .next (match (thread s t).st with
    | .waiting (.pause _) => modThread s t (fun th => { th with st := .ready, pc := th.pc + 4 })
    | _ => s)

/-- Whether a thread's next instruction boundary can be an interrupt's (R71): it is ready or waiting, on a cell that runs and has no update left to apply. -/
def atBoundary (s : State) (t : Tid) : Bool :=
  let live := match (thread s t).st with
    | .ready => true
    | .waiting _ => true
    | .idle => false
    | .halted => false
  live && decide ((cell s (cellOf t)).power = .run) && clocked s (cellOf t) && (cell s (cellOf t)).updates.isEmpty

/-- STOP_REQUEST (R69): the Mantle posts interrupt 15. -/
def execStopRequest (t : Tid) (s : State) : Host.Outcome State Fault Refusal := .next (postInt s t 15)

/-- HALTED_THREAD_RESUME (R30): the Mantle resumes a halted thread. -/
def execHaltedThreadResume (t : Tid) (s : State) : Host.Outcome State Fault Refusal :=
  .next (if (thread s t).st = .halted then takeLate (modThread s t (fun th => { th with st := .ready })) t else s)

end Sys2Proof.Machine
end

