-- ==== Sys2Proof/Machine/Decoupled.lean ====
section
/-! DEFINITION. Decoupled instructions (R32, R33): their queues, their pipes, their checks, what they do, their results; the vector, update, tile and harp rows. -/

namespace Sys2Proof.Machine

/-! ## What an instruction reads and writes -/

/-- A decoupled instruction: its thread, its unit, its length, the scalar registers it reads at issue, the scalar register it writes. -/
structure DecForm where
  t : Tid
  tile : Bool := false
  long : Bool := false
  a : Reg := 0
  b : Reg := 0
  d : Reg := 0
  more : List Reg := []
  dst : Option Reg := none

/-- The 32-bit vector instructions that read no scalar register: their thread. -/
def vecPlain (i : Instr) : Option Tid :=
  ((intOp i).map (fun p => p.1)) <|> ((narrowOp i).map (fun p => p.1)) <|> ((floatOp i).map (fun p => p.1))
  <|> ((unaryOp i).map (fun p => p.1)) <|> ((cmpOp i).map (fun p => p.1)) <|> ((fcmpOp i).map (fun p => p.1))
  <|> ((predOp i).map (fun p => p.1)) <|> ((redOp i).map (fun p => p.1)) <|> ((fredOp i).map (fun p => p.1))

/-- The scalar registers of each decoupled instruction (R110, R119–R122, R129, R168, R189, R303). -/
def decForm (i : Instr) : Option DecForm :=
  match i with
  | .vPwhile t f => some { t := t, a := f.vs1, b := f.vs2 }
  | .vPcount t f => some { t := t, dst := some f.vd }
  | .vSplat t f => some { t := t, a := f.vs1 }
  | .vSel t _ => some { t := t }
  | .vExt t f => some { t := t, b := f.vs2, dst := some f.vd }
  | .vIns t f => some { t := t, a := f.vs1, b := f.vs2 }
  | .vCvt t _ => some { t := t, long := true }
  | .vMfma t _ => some { t := t, long := true }
  | .vStat t _ => some { t := t, long := true }
  | .vStatMerge t _ => some { t := t, long := true }
  | .tLd t f => some { t := t, tile := true, long := true, a := f.rs1, b := f.rs2, d := if (w1Flags f.w1).testBit 1 then BitVec.ofNat 5 (w1Src3 f.w1) else 0 }
  | .tSt t f => some { t := t, tile := true, long := true, a := f.rs1, b := f.rs2, d := if (w1Flags f.w1).testBit 1 then BitVec.ofNat 5 (w1Src3 f.w1) else 0 }
  | .tMov t _ => some { t := t, tile := true, long := true }
  | .tClr t _ => some { t := t, tile := true, long := true }
  | .tExt t f => some { t := t, tile := true, long := true, dst := some f.rd }
  | .mxMma t _ => some { t := t, tile := true, long := true }
  | _ =>
    match vMemOp i, updOp i with
    | some (t, f, _, k), _ => some { t := t, a := f.vs1, b := if k = .stride then f.vs2 else 0 }
    | none, some (t, f, _) => some { t := t, long := true, a := f.rs1, d := f.rd, more := [f.rs2, f.rs2 + 1, f.rs2 + 2, f.rs2 + 3] }
    | none, none => (vecPlain i).map (fun t => { t := t })

/-- Every scalar register a decoupled instruction touches. -/
def DecForm.regs (f : DecForm) : List Reg := [f.a, f.b, f.d] ++ f.more ++ f.dst.toList

/-! ## Issue (R32, R93) -/

/-- A decoupled instruction put into its unit's queue: its scalar operands, EPOCH and SPEC are read now, its result register is marked busy, the pc moves past its words. -/
def enqueue (s : State) (f : DecForm) (i : Instr) : State :=
  let th := thread s f.t
  let x := ctxOf s f.t
  let e : DecEntry := {
    instr := i, pc := th.pc, word := (word0 i).setWidth 64, a := xget th f.a, b := xget th f.b, d := xget th f.d,
    more := f.more.map (xget th), epoch := x.epoch, spec := th.spec, step := stepReg s th.spec.isSome,
    regs := th.regs, busy := th.busy, level := th.level, resolved := false, result := none, mark := (cell s (cellOf f.t)).accNo }
  let s := issued s f.t
  modThread s f.t (fun th => { th with
    pc := th.pc + (if f.long then 12 else 4),
    busy := match f.dst with | some r => if r = 0 then th.busy else setBit th.busy r.toNat true | none => th.busy,
    vq := if f.tile then th.vq else th.vq ++ [e], tq := if f.tile then th.tq ++ [e] else th.tq })

/-! ## Checking and running (R33) -/

/-- What a unit makes of an instruction: done with its flags and scalar result, an exception, an action held for a verdict, a wait, or past its checks with work still to do. -/
inductive DRes where
  | done (s : State) (fl : Nat) (res : Option Word)
  | exc (s : State) (e : Exc)
  | hold (s : State)
  | wait (s : State)
  | part (s : State)

/-- The context an entry's accesses are translated in: the level, EPOCH and SPEC of its issue (R91, R93, R180). -/
def entCtx (s : State) (t : Tid) (e : DecEntry) : XCtx :=
  { ctxOf s t with level := e.level, spec := e.spec.isSome, epoch := e.epoch }

/-- What a unit reads with an entry. -/
def entD (s : State) (t : Tid) (e : DecEntry) : DCtx :=
  { a := e.a, b := e.b, d := e.d, more := e.more, x := entCtx s t e, step := e.step, pc := e.pc, word := e.word }

/-- The checks of one element address (R121, R123, R64): access fault, alignment, translation. -/
def elCheck (t : Tid) (x : XCtx) (s : State) (va : Word) (n : Nat) (wr : Bool) : Except Exc Nat × State :=
  let mis := decide (va.toNat % n ≠ 0)
  match translate s (cellOf t) x va (if wr then .store else .load) with
  | (.error e, s) => (.error (if mis then { code := 1, val := va } else e), s)
  | (.ok pa, s) =>
    if isDevice s pa then (.error { code := 2, val := va }, s)
    else if mis then (.error { code := 1, val := va }, s)
    else (.ok pa, s)

/-- The same for an access that waits until its translation can be made: the homes of the tables take their reads (R18, R23, R246, R255). -/
def elWait (t : Tid) (x : XCtx) (s : State) (va : Word) (n : Nat) (wr : Bool) : Except Exc Nat × State :=
  let c := cellOf t
  match (xlatNeeds s c x va (if wr then .store else .load)).filter (fun l => !lineOpen s c l) with
  | [] => elCheck t x s va n wr
  | ls => (.error waitExc, startLines s ls)

/-- Whether an access of a decoupled instruction is an irrevocable action of the SPEC state and level that it latched (R93, R300). -/
def entHeld (x : XCtx) (s : State) (pa : Nat) : Bool := x.spec && decide (x.level = 2) && inHbm pa

/-- Bytes read at their home after the thread's own stores to the line (R172, R307). -/
def tileRead (t : Tid) (s : State) (pa n : Nat) : (List Byte × Option Nat) × State :=
  coreRead (settleLine s (cellOf t) (thrOf t) (pa / 128)) (cellOf t) pa n

/-- Bytes stored past the L1: its lines are invalidated, the bytes enter the write buffer (R172, R307); a tile store's line takes a slot of the tile memory pipe (R233). -/
def tileWrite (t : Tid) (tile : Bool) (s : State) (pa : Nat) (bs : List Byte) : State :=
  (cutLines pa bs).foldl (fun s p => wbPut (l1Drop s (cellOf t) p.1) (cellOf t) (thrOf t) p.1 p.2.1 p.2.2 tile) s

/-- Whether the tile memory pipe's slots let it ask for a line (R233): fewer than 32 requests, fewer than 16 of them to the line's bank; its stores in the write buffer are among them. -/
def slotLines (x : CellS) : List Nat := (x.slots.filter (fun m => !m.held)).map (fun m => m.line) ++ (x.wb.filter (fun e => e.tile)).map (fun e => e.line)
def bankFull (s : State) (c l : Nat) : Bool :=
  lineHbm l && decide (16 ≤ ((slotLines (cell s c)).filter (fun k => lineHbm k && decide (bankOf s k = bankOf s l))).length)
def slotFree (s : State) (c l : Nat) : Bool := decide ((slotLines (cell s c)).length < 32) && !bankFull s c l

/-- Whether stores to places find entries of the write buffer, or entries that can be freed for them now (R225). -/
def storeFits (t : Tid) (s : State) (pas : List Nat) : Bool := !storesBlocked s (cellOf t) (thrOf t) (pas.map (fun pa => pa / 128))

/-- Whether a tile store's lines find slots too (R233): one of a line in an entry already needs none; one that the full buffer's entries hold back is freed with them. -/
def slotsFit (t : Tid) (s : State) (pas : List Nat) : Bool :=
  let c := cellOf t
  let new := (distinct (pas.map (fun pa => pa / 128))).filter (fun l => (storeMerges (cell s c) (thrOf t) l).isNone)
  storeFits t s pas && new.all (fun l => slotFree s c l || (cell s c).wb.any (fun e => e.tile))

/-- The checks of an element of a vector access, and what the prefetch streams see of it (R234–R236). -/
def vecSee (t : Tid) (x : XCtx) (s : State) (va : Word) (k : Nat) (wr : Bool) : Except Exc Nat × State :=
  let c := cellOf t
  match elWait t x s va k wr with
  | (.error e, s) => (.error e, if e.waits then s else releaseStreams s t va (if wr then .store else .load))
  | (.ok pa, s) => (.ok pa, if inHbm pa then trainStreams s c (thrOf t) (demandAt s t va) (!wr && (l1Copy (cell s c) (pa / 128)).isNone) else s)

/-- The checks of an element that is accessed at once: it waits, too, where its line cannot be read now (R18, R23, R229–R231, R246, R255), or may not be before the instruction has resolved (R103). -/
def vecNow (t : Tid) (x : XCtx) (s : State) (va : Word) (k : Nat) (wr : Bool) : Except Exc Nat × State :=
  match vecSee t x s va k wr with
  | (.error e, s) => (.error e, s)
  | (.ok pa, s) =>
    if !wr && (nsPage s t va || !(readNeeds s (cellOf t) (thrOf t) pa k).isEmpty) then (.error waitExc, s) else (.ok pa, s)

/-- Vector accesses (R121), each made at once. -/
def vecAcc (t : Tid) (x : XCtx) : VAcc :=
  { check := vecNow t x, load := fun s pa n => threadRead s (cellOf t) (thrOf t) pa n,
    store := fun s pa bs => cellStore s (cellOf t) (thrOf t) pa bs, held := entHeld x, room := storeFits t }

/-- Whether the home of a line takes a read of the tile or update pipe now, and may: not of a no-speculate page before the instruction has resolved (R103). -/
def tileNow (t : Tid) (x : XCtx) (s : State) (va : Word) (n : Nat) (wr : Bool) : Except Exc Nat × State :=
  match elWait t x s va n wr with
  | (.error e, s) => (.error e, s)
  | (.ok pa, s) =>
    if !wr && (nsPage s t va || !(linesOf pa n).all (lineOpen s (cellOf t))) then (.error waitExc, startLines s (linesOf pa n)) else (.ok pa, s)

/-- Tile accesses (R172), each made at once. -/
def tileAcc (t : Tid) (x : XCtx) : VAcc :=
  { check := tileNow t x, load := tileRead t, store := tileWrite t true, held := entHeld x, room := slotsFit t }

/-- An illegal instruction found by a unit (R39, R111). -/
def dIllegal (s : State) (e : DecEntry) : DRes := .exc s { code := 0, val := e.word }

/-- The pipe of an instruction: 0 vector arithmetic, 1 vector memory, 2 tile memory, 3 tile move, 4 harp. -/
def pipeOf (i : Instr) : Nat :=
  match i with
  | .tLd _ _ => 2
  | .tSt _ _ => 2
  | .tMov _ _ => 3
  | .tClr _ _ => 3
  | .tExt _ _ => 3
  | .mxMma _ _ => 4
  | i => if unitMem i then 1 else 0

/-- The place at which a resumed memory instruction starts (R126, R176). -/
def resumeAt (w : Word) (hi : Nat) : Nat := if bit w 15 then bits w hi 0 else 0

/-- The place that an instruction goes on from: that at which it stopped to wait, else the one at which it starts. -/
def startAt (s : State) (t : Tid) (e : DecEntry) : Nat := e.at'.getD (if pipeOf e.instr = 2 then resumeAt (srAt s t 0x006) 6 else resumeAt (srAt s t 0x005) 14)

/-- An entry of a thread's queues, by the number it took when it began, changed. -/
def modEntry (s : State) (t : Tid) (n : Nat) (f : DecEntry → DecEntry) : State :=
  let g (e : DecEntry) : DecEntry := if e.at'.isSome && decide (e.ask = n) then f e else e
  modThread s t (fun th => { th with vq := th.vq.map g, tq := th.tq.map g })

/-- An instruction that waits at an element or a row: it goes on from there. -/
def waitAt (s : State) (t : Tid) (e : DecEntry) (k : Nat) : DRes := .wait (modEntry s t e.ask (fun e => { e with at' := some k }))

/-- A vector memory instruction (R121–R127), its elements accessed one after the other. A store that must wait goes on from its element; a load that must starts again. -/
def runVMem (s : State) (t : Tid) (e : DecEntry) (f : VForm) (st : Bool) (k : VAddr) : DRes :=
  if vMemIllegal f st k then dIllegal s e
  else
    let w := (etBits f.et).getD 8
    let d := entD s t e
    let r := vMemRun (vecAcc t d.x) f st k w d (thread s t) (startAt s t e) s
    let s' := if st then r.s else modThread r.s t (vMemPut f k w r.got)
    match r.stop with
    | some (el, x) => if x.waits then (if st then waitAt (storesWait s' (cellOf t)) t e el else .wait s) else .exc (srPut s' t 0x005 (wd (0x8000 + el))) x
    | none => if r.hold then .hold s' else .done (srPut s' t 0x005 0) 0 none

/-- A tile load or store (R171–R178), its rows accessed one after the other. -/
def runTMem (s : State) (t : Tid) (e : DecEntry) (f : TForm) (k : TKind) : DRes :=
  if tIllegal k f then dIllegal s e
  else
    match tShape k f.w1 with
    | some (op, r) => .exc s (shapeExc op r f.w1)
    | none =>
      match notHeld (thread s t).mine [f.rd.toNat] with
      | some n => .exc s { code := 9, detail := n }
      | none =>
        let d := entD s t e
        let q := tMemRun (tileAcc t d.x) k (cellOf t) f d (thread s t) (startAt s t e) s
        let flagged (s : State) : State := srPutF s t 0x002 8 0 (bits (srAt s t 0x002) 8 0 ||| q.fl)
        match q.stop with
        | some (row, x) =>
          if x.waits then (if k = .ld then .wait s else waitAt (flagged (storesWait q.s (cellOf t))) t e row)
          else .exc (flagged (srPut q.s t 0x006 (wd (0x8000 + row)))) x
        | none => if q.hold then .hold q.s else .done (srPut q.s t 0x006 0) q.fl none

/-- `t.mov` (R181). -/
def runTMov (s : State) (t : Tid) (e : DecEntry) (f : TForm) : DRes :=
  if tIllegal .mov f then dIllegal s e
  else
    match tShape .mov f.w1 with
    | some (op, r) => .exc s (shapeExc op r f.w1)
    | none =>
      match notHeld (thread s t).mine [f.rd.toNat, f.rs1.toNat] with
      | some n => .exc s { code := 9, detail := n }
      | none =>
        let d := entD s t e
        let q := tMovRun (cellOf t) f d (thread s t) s
        .done q.s q.fl none

/-- `t.clr` (R181): the extent becomes empty; no slice or latch of the tile stays. -/
def runTClr (s : State) (t : Tid) (e : DecEntry) (f : TForm) : DRes :=
  if f.sub ≠ 0 || bit f.rd 4 || decide (f.rs1 ≠ 0) || decide (f.rs2 ≠ 0) || decide (f.w1 ≠ 0) then dIllegal s e
  else
    match notHeld (thread s t).mine [f.rd.toNat] with
    | some n => .exc s { code := 9, detail := n }
    | none => .done (modCell s (cellOf t) (fun x => putExtent (tileWritten x f.rd.toNat) f.rd.toNat 0 0)) 0 none

/-- `t.ext` (R181): the extent of a tile. -/
def runTExt (s : State) (t : Tid) (e : DecEntry) (f : TForm) : DRes :=
  if f.sub ≠ 0 || bit f.rs1 4 || decide (f.rs2 ≠ 0) || decide (f.w1 ≠ 0) then dIllegal s e
  else
    match notHeld (thread s t).mine [f.rs1.toNat] with
    | some n => .exc s { code := 9, detail := n }
    | none =>
      let a := tileAttr (cell s (cellOf t)) f.rs1.toNat
      .done s 0 (some (pack [(0, a.rows), (8, a.colBytes)]))

/-- The checks of an `mx.mma` (R189–R194): none, or the exception. -/
def mxCheck (s : State) (t : Tid) (e : DecEntry) (f : TForm) : Option Exc :=
  if mxIllegal f then some { code := 0, val := e.word }
  else
    let m := mxFields f
    match mxShape m with
    | some (op, r) => some (shapeExc op r f.w1)
    | none => (notHeld (thread s t).mine (mxTiles m)).map (fun n => { code := 9, detail := n })

/-- `mx.mma` (R189–R205) with a sound array, run at once: past its checks it has resolved, and one that a cell fault keeps from completing waits with the harp (R203). -/
def runMx (s : State) (t : Tid) (e : DecEntry) (f : TForm) : DRes :=
  match mxCheck s t e f with
  | some x => .exc s x
  | none =>
    if (cell s (cellOf t)).harpStopped then .part s
    else
      match mxRun t f (entD s t e) (thread s t) none none s with
      | (some q, _) => .done q.s q.fl none
      | (none, s) => .part s

/-! ### Update instructions (R303–R307) -/

/-- The tensors of an update element: their format codes in the order parameters, gradient, first and second moment (R303). -/
def updFmts (b : UpdBlk) (opt : Nat) : List Nat := [b.fp, b.fg, b.fm] ++ (if opt = 1 then [b.fv] else [])

/-- How an update reads the current frame, and how it writes the draft frame (R307). -/
def updRead (x : XCtx) : XCtx := { x with spec := false }
def updWrite (x : XCtx) : XCtx := { x with spec := true, upd := true }

/-- How an agent's update reaches memory: the checks of a read and of a write, a read, a write. -/
structure UAcc where
  rd : State → Word → Nat → Except Exc Nat × State
  wr : State → Word → Nat → Except Exc Nat × State
  load : State → Nat → Nat → (List Byte × Option Nat) × State
  store : State → Nat → List Byte → State
  room : State → List Nat → Bool := fun _ _ => true

/-- What an update instruction leaves so far. -/
structure UpdRun where
  s : State
  fl : Nat := 0
  nonfin : Bool := false
  stop : Option (Nat × Exc) := none
  hold : Bool := false

/-- Every address of an element checked: reads of each tensor and of the bitmap, writes of all but the gradient (R307). -/
def updCheck (acc : UAcc) (fs : List Nat) (vas : List Word) (bm : Option Word) (s : State) : (Option Exc × List Nat × List Nat × Nat) × State :=
  let one (a : (Option Exc × List Nat) × State) (c : State → Word → Nat → Except Exc Nat × State) (va : Word) (n : Nat) : (Option Exc × List Nat) × State :=
    match c a.2 va n with
    | (.error e, s) => ((worse a.1.1 (some e), a.1.2 ++ [0]), s)
    | (.ok pa, s) => ((a.1.1, a.1.2 ++ [pa]), s)
  let ps := fs.zip vas
  let r := ps.foldl (fun a p => one a acc.rd p.2 (fmtBits p.1 / 8)) (((none, []) : Option Exc × List Nat), s)
  let w := (ps.zip (List.range ps.length)).foldl (fun (a : (Option Exc × List Nat) × State) p =>
    if p.2 = 1 then ((a.1.1, a.1.2 ++ [0]), a.2) else one a acc.wr p.1.2 (fmtBits p.1.1 / 8)) ((r.1.1, []), r.2)
  match bm with
  | none => ((w.1.1, r.1.2, w.1.2, 0), w.2)
  | some va =>
    let b := one ((w.1.1, []), w.2) acc.rd va 1
    ((b.1.1, r.1.2, w.1.2, b.1.2.headD 0), b.2)

/-- One element of an update instruction (R305–R307). -/
def updEl (acc : UAcc) (opt : Nat) (b : UpdBlk) (c : UpdConst) (gf : FV) (d : DCtx) (th : Thread) (held : Bool) (k : Nat) (q : UpdRun) : UpdRun :=
  let fs := updFmts b opt
  let i := d.d + wd k
  let vas := (fs.zip d.more).map (fun p => p.2 + wd (k * (fmtBits p.1 / 8)))
  let bm := if b.frozen = 0 then none else some (b.frozen + i >>> 3)
  match updCheck acc fs vas bm q.s with
  | ((some e, _), s) => { q with s := s, stop := some (k, e) }
  | ((none, rp, wp, bp), s) =>
    if held then { q with s := s, hold := true }
    else if !acc.room s wp then { q with s := s, stop := some (k, waitExc) }
    else
      let rd := ((fs.zip rp).zip vas).foldl (fun (a : (Option Exc × List Nat) × State) p =>
        let ((bs, bad), s) := acc.load a.2 p.1.2 (fmtBits p.1.1 / 8)
        ((a.1.1.or (bad.map (fun _ => { code := 7, val := p.2 &&& ~~~7#64 })), a.1.2 ++ [ofLE bs]), s)) ((none, []), s)
      let ((bb, bad), s) := if bm.isSome then acc.load rd.2 bp 1 else (([], none), rd.2)
      match rd.1.1.or (bad.map (fun _ => { code := 7, val := (bm.getD 0) &&& ~~~7#64 })) with
      | some e => { q with s := s, stop := some (k, e) }
      | none =>
        let v (j : Nat) : Nat := rd.1.2.getD j 0
        let frozen := bm.isSome && (ofLE bb).testBit (i.toNat % 8)
        let o : UpdOut := if frozen then { p := v 0, m := v 2, v := v 3, fl := 0, nonfin := false }
          else updElem opt b c gf (tget 0 th.sr 3) (tget 0 th.sr 4) d.step i (v 0) (v 1) (v 2) (v 3)
        let s := [(0, o.p), (2, o.m), (3, o.v)].foldl (fun s p =>
          if p.1 < fs.length then acc.store s (wp.getD p.1 0) (leBytes p.2 (fmtBits (fs.getD p.1 0) / 8)) else s) s
        { q with s := s, fl := q.fl ||| o.fl, nonfin := q.nonfin || o.nonfin }

/-- The active elements of an update from a start on, until one stops it (R307, R124). -/
def updRun (acc : UAcc) (opt : Nat) (b : UpdBlk) (gf : FV) (f : LForm) (d : DCtx) (th : Thread) (held : Bool) (start : Nat) (s : State) : UpdRun :=
  let g := grpSize f.grp
  let w := updWide b opt
  let q := qget th f.qp.toNat
  let c := updConst b
  (List.range (g * 8192 / w)).foldl (fun (r : UpdRun) k =>
    if k < start || r.stop.isSome || r.hold || !active q w g k then r
    else updEl acc opt b c gf d th held k r) ({ s := s } : UpdRun)

/-- A cell's update accesses (R307). -/
def updAcc (t : Tid) (x : XCtx) : UAcc :=
  { rd := fun s va n => tileNow t (updRead x) s va n false, wr := fun s va n => elWait t (updWrite x) s va n true,
    load := tileRead t, store := tileWrite t false, room := fun s pas => storeFits t s (pas.filter (fun pa => decide (pa ≠ 0))) }

/-- An update instruction (R303–R307): the block, then the active elements from VRESUME. -/
def runUpd (s : State) (t : Tid) (e : DecEntry) (f : LForm) (opt : Nat) : DRes :=
  if updIllegal f e.a (thread s t).level then dIllegal s e
  else
    let d := entD s t e
    match tileNow t (updRead d.x) s e.a 64 false with
    | (.error x, s) => if x.waits then .wait s else .exc s { x with val := e.a }
    | (.ok pa, s) =>
      match tileRead t s pa 64 with
      | ((_, some _), s) => .exc s { code := 7, val := e.a }
      | ((bs, none), s) =>
        match parseUpd bs (decide (opt = 1)) with
        | none => dIllegal s e
        | some b =>
          if b.hemgf && !hemUpdating s then .wait s
          else
            let th := thread s t
            let r := updRun (updAcc t d.x) opt b (updGf s b) f d th e.spec.isSome (startAt s t e) s
            if e.spec.isSome && r.stop.isNone then .hold r.s
            else
            match r.stop with
            | some (k, x) =>
              if x.waits then waitAt (storesWait (srPutF r.s t 0x002 8 0 (bits (srAt r.s t 0x002) 8 0 ||| r.fl)) (cellOf t)) t e k
              else .exc (srPutF (srPut r.s t 0x005 (wd (0x8000 + k))) t 0x002 8 0 (bits (srAt r.s t 0x002) 8 0 ||| r.fl)) x
            | none => if r.hold then .hold r.s else .done (srPut r.s t 0x005 0) r.fl none

/-- A register-only vector instruction (R111–R120, R128–R132). -/
def runVPure (s : State) (t : Tid) (e : DecEntry) : DRes :=
  match vPure e.instr (thread s t) (entD s t e) with
  | some (_, .ok th fl res) => .done (setThread s t th) fl res
  | some (_, .illegal) => dIllegal s e
  | none => .wait s

/-- A decoupled instruction checked and run in its unit. A Mantle core has no such unit (R394). -/
def dRun (s : State) (t : Tid) (e : DecEntry) : DRes :=
  if isMantle (cellOf t) then dIllegal s e
  else
    match e.instr with
    | .tLd _ f => runTMem s t e f .ld
    | .tSt _ f => runTMem s t e f .st
    | .tMov _ f => runTMov s t e f
    | .tClr _ f => runTClr s t e f
    | .tExt _ f => runTExt s t e f
    | .mxMma _ f => runMx s t e f
    | i =>
      match vMemOp i, updOp i with
      | some (_, f, st, k), _ => runVMem s t e f st k
      | none, some (_, f, opt) => runUpd s t e f opt
      | none, none => runVPure s t e

/-! ## Resolution and results (R32, R33) -/

/-- The stores of the retire window enter the write buffer in program order (R33). -/
def commitWindow (s : State) (t : Tid) : State :=
  let h := (thread s t).hold
  let s := h.foldl (fun s x => cellStore s (cellOf t) (thrOf t) x.pa x.data) s
  modThread s t (fun th => { th with hold := [], younger := 0 })

/-- Whether the stores of the retire window wait for entries that cannot be freed now (R225): the instruction that they wait behind does not resolve before them. -/
def windowBlocked (s : State) (t : Tid) : Bool := storesBlocked s (cellOf t) (thrOf t) ((thread s t).hold.map (fun h => h.pa / 128))

/-- Flags of an instruction that completes (R155, R156). -/
def setFlags (s : State) (t : Tid) (fl : Nat) : State := srPutF s t 0x002 8 0 (bits (srAt s t 0x002) 8 0 ||| fl)

/-- The scalar register an instruction writes. -/
def dstOf (i : Instr) : Reg := match decForm i with | some f => f.dst.getD 0 | none => 0

/-- The first instruction of a unit's queue that is complete leaves it, its result written (R32). -/
def arrive (s : State) (t : Tid) (tile : Bool) : State :=
  let th := thread s t
  let q := if tile then th.tq else th.vq
  match q.findIdx? (fun e => e.resolved && !e.runs) with
  | none => s
  | some i =>
    let th := if tile then { th with tq := q.eraseIdx i } else { th with vq := q.eraseIdx i }
    setThread s t (match (q[i]?).bind (fun e => e.result) with | some (r, v) => arriveReg th r v | none => th)

/-! ## The pipes (R126, R134, R177, R180, R184, R205, R229–R233): how a queued instruction starts and goes on -/

/-- The tiles that a tile-unit instruction reads, and those that it writes. -/
def tilesRead (i : Instr) : List Nat :=
  match i with
  | .tSt _ f => [f.rd.toNat]
  | .tMov _ f => [f.rs1.toNat]
  | .tExt _ f => [f.rs1.toNat]
  | .mxMma _ f => (mxTiles (mxFields f)).drop 1 ++ (if (mxFields f).acc then [f.rd.toNat] else [])
  | _ => []
def tilesWritten (i : Instr) : List Nat :=
  match i with
  | .tLd _ f => [f.rd.toNat]
  | .tMov _ f => [f.rd.toNat]
  | .tClr _ f => [f.rd.toNat]
  | .mxMma _ f => [f.rd.toNat]
  | _ => []

/-- Whether a harp instruction continues the one before it: its preload tile is that one's destination, of equal shape (R205). -/
def mxChained (o i : Instr) : Bool :=
  match o, i with
  | .mxMma _ g, .mxMma _ f =>
    let a := mxFields g
    let b := mxFields f
    ((b.acc && decide (b.td = a.td)) || (b.pre && decide (b.tc = a.td))) && decide (a.rows = b.rows) && decide (a.cols = b.cols) && decide (a.fd = b.fd)
      && !([b.ta, b.tb] ++ (mxCompanions b).1.toList ++ (mxCompanions b).2.toList).contains a.td
      && !(([a.ta, a.tb] ++ (mxCompanions a).1.toList ++ (mxCompanions a).2.toList ++ (if a.pre then [a.tc] else [])).contains b.td && decide (b.td ≠ a.td))
  | _, _ => false

/-- Whether an instruction must wait for an earlier one of its thread to complete (R205); `last` tells that no harp instruction lies between them. -/
def tileWaits (last : Bool) (o i : Instr) : Bool :=
  ((tilesWritten o).any (fun x => (tilesRead i ++ tilesWritten i).contains x) || (tilesRead o).any (fun x => (tilesWritten i).contains x))
    && !(last && mxChained o i)

/-- Whether an instruction at place k of a tile queue waits for one before it that is not complete. -/
def behindTile (q : List DecEntry) (k : Nat) : Bool :=
  match q[k]? with
  | none => false
  | some e => (List.range k).any (fun j =>
      match q[j]? with
      | some o => (o.runs || !o.resolved)
          && tileWaits (!((q.take k).drop (j + 1)).any (fun z => decide (pipeOf z.instr = 4))) o.instr e.instr
      | none => false)

/-- Whether a thread's unresolved instruction could start in a pipe now, had the pipe the choice (R134, R184, R203, R205). -/
def couldStart (s : State) (t : Tid) (p : Nat) : Bool :=
  let th := thread s t
  match th.tq.findIdx? (fun e => !e.resolved), th.vq.find? (fun e => !e.resolved) with
  | some k, _ => (th.tq[k]?).elim false (fun e => decide (pipeOf e.instr = p) && e.at'.isNone) && !behindTile th.tq k
      && !(decide (p = 4) && (cell s (cellOf t)).harpStopped)
  | none, some e => decide (pipeOf e.instr = p) && e.at'.isNone && !th.vq.any (fun o => o.runs)
  | none, none => false

/-- Whether a pipe chooses a thread next: the first that could start, from the thread after the one it started last (R31, R134). -/
def hasTurn (s : State) (t : Tid) (p : Nat) : Bool :=
  let c := cellOf t
  let n := thrCount c
  let last := (tget 7 (cell s c).pipeLast p).val
  decide (((List.range n).map (fun i => tidOf c ((last + 1 + i) % n))).find? (fun u => couldStart s u p) = some t)

/-- The elements that a vector memory instruction has. -/
def memElems (i : Instr) : Nat :=
  match vMemOp i with
  | some (_, f, _, _) => grpSize f.grp * 8192 / (etBits f.et).getD 8
  | none => 0

/-- Whether a pipe is kept by another thread's instruction: the vector memory pipe by one that has stopped at an element (R231), the tile memory pipe by one that has still rows to ask for (R233). -/
def pipeKept (s : State) (t : Tid) (p : Nat) : Bool :=
  let c := cellOf t
  (decide (p = 1) && ((cell s c).held.any (fun h => decide (h.kind = .element) && decide (h.load.thr.val ≠ thrOf t))
      || (tidsOf c).any (fun u => decide (u ≠ t) && (thread s u).vq.any (fun e => !e.resolved && e.at'.isSome && decide (pipeOf e.instr = 1) && decide (e.next < memElems e.instr)))))
    || (decide (p = 2) && (tidsOf c).any (fun u => decide (u ≠ t) && (thread s u).tq.any (fun e => !e.resolved && e.at'.isSome)))

/-- An instruction begun in its pipe: the place it starts from, its number, the pipe's last thread. -/
def beginEntry (s : State) (t : Tid) (e : DecEntry) : State :=
  let start := startAt s t e
  let n := (cell s (cellOf t)).accNo
  let s := modCell s (cellOf t) (fun x => { x with accNo := x.accNo + 1, pipeLast := tins (pipeOf e.instr) (Fin.ofNat 8 (thrOf t)) x.pipeLast })
  modThread s t (fun th =>
    let g (e : DecEntry) : DecEntry := if e.resolved then e else { e with at' := some start, next := start, ask := n }
    { th with vq := th.vq.map g, tq := th.tq.map g })

/-! ### Vector loads (R229–R232) -/

/-- The lines that an instruction's requests have brought. -/
def entLines (s : State) (t : Tid) (n : Nat) : List (Nat × Line) :=
  (((thread s t).vq ++ (thread s t).tq).find? (fun e => e.at'.isSome && decide (e.ask = n))).elim [] (fun e => e.lines)

/-- A line kept with the instruction that asked for it. -/
def keepLine (s : State) (t : Tid) (n l : Nat) (b : Line) : State := modEntry s t n (fun e => { e with lines := tins l b e.lines })

/-- Whether the vector memory pipe of a thread waits for a miss register (R231). -/
def vecHeld (x : CellS) (thr : Nat) : Bool := x.held.any (fun h => decide (h.kind = .element) && decide (h.load.thr.val = thr))

/-- An element's request held for a miss register (R231). -/
def vecHold (l : Nat) (r : LoadReq) : HeldMiss := { line := l, load := r, kind := .element }

/-- Whether a line is on its way to the vector memory pipe of a thread, or held. -/
def vecAsked (x : CellS) (thr l : Nat) : Bool :=
  x.mshrs.any (fun m => decide (m.line = l) && m.pipes.any (fun j => decide (j.val = thr)))
    || x.held.any (fun h => decide (h.kind = .element) && decide (h.line = l) && decide (h.load.thr.val = thr))

/-- A vector load's request for an HBM line that the caches do not hold: it merges, takes a miss register, or is held (R229–R231). None: the line's register has eight secondary misses, and the pipe waits (R229). -/
def vecAsk (s : State) (t : Tid) (l : Nat) : Option State :=
  let c := cellOf t
  let thr : Fin 8 := Fin.ofNat 8 (thrOf t)
  match (cell s c).mshrs.findIdx? (fun m => decide (m.line = l)) with
  | some i =>
    if ((cell s c).mshrs[i]?).elim false (fun m => decide (m.merged < 8)) then some (mergeMiss s c i (fun m => { m with pipes := m.pipes ++ [thr] })) else none
  | none =>
    match missGrant s c l with
    | none => some (takeMiss s c { line := l, loads := [], pipes := [thr] })
    | some _ => some (modCell s c (fun x => { x with held := x.held ++ [vecHold l { thr := thr, rd := 0, pa := 128 * l, bytes := 0, signed := false, seq := x.accNo }] }))

/-- A line that an element of a vector load lies in made sure of: it has come, it is on its way, or it is asked for, after the thread's own stores to it (R226); the prefetch streams see its first access (R234). Whether the pipe may go on. -/
def vecLine (t : Tid) (n : Nat) (va : Word) (pa k : Nat) (s : State) : Bool × State :=
  let c := cellOf t
  let l := pa / 128
  if (tget? (entLines s t n) l).isSome || vecAsked (cell s c) (thrOf t) l then (true, s)
  else
    let own := (cell s c).wb.any (fun e => decide (e.owner.val = thrOf t) && decide (e.line = l) && !e.device)
    if own && !lineOpen s c l then (false, startLines s [l])
    else
      let s := if own then settleLine s c (thrOf t) l else s
      if !lineHbm l then
        if homeClocked s l then (let (b, s) := coreLine s c l; (true, keepLine s t n l b)) else (false, startHome s l)
      else
        let seen (miss : Bool) (s : State) : State := trainStreams s c (thrOf t) (demandAt s t va) miss
        match l1Lookup (l1Parity s c l (pa % 128) k) c l true with
        | (some b, s) => (true, keepLine (seen false s) t n l b)
        | (none, s) =>
          match vecAsk (seen true s) t l with
          | some s => (true, s)
          | none => (false, s)

/-- A vector load in its pipe: the first element that has not passed its checks, whether the pipe has stopped, the exception of the element there. -/
structure VPipe where
  s : State
  next : Nat
  halt : Bool := false
  stop : Option (Nat × Exc) := none

/-- The key of field fl of element i. -/
def elKey (i fl : Nat) : Nat := fl * 65536 + i

/-- One element of a vector load in its pipe (R121–R124, R229–R232): its fields pass their checks, then their lines are asked for, but those of a no-speculate page, which wait until the instruction has resolved (R103); an entry of the write buffer that holds a field gives it (R226). The pipe stops at an element that is held. -/
def vPipeEl (t : Tid) (n : Nat) (x : XCtx) (f : VForm) (k : VAddr) (w : Nat) (d : DCtx) (idx : List Nat) (i : Nat) (q : VPipe) : VPipe :=
  let c := cellOf t
  let nf := if k = .seg then f.vs2.toNat else 1
  let b := max 1 (w / 8)
  let va (fl : Nat) : Word := vAddrOf f k w d idx i fl
  let chk := (List.range nf).foldl (fun (a : (Option Exc × List Nat) × State) fl =>
    match elWait t x a.2 (va fl) b false with
    | (.error e, s) => ((worse a.1.1 (some e), a.1.2 ++ [0]), if e.waits then s else releaseStreams s t (va fl) .load)
    | (.ok pa, s) => ((a.1.1, a.1.2 ++ [pa]), s)) ((none, []), q.s)
  match chk with
  | ((some e, _), s) => if e.waits then { q with s := s, halt := true } else { q with s := s, stop := some (i, e) }
  | ((none, pas), s) =>
    let r := (List.range nf).foldl (fun (a : Bool × State) fl =>
      let pa := pas.getD fl 0
      let s := modEntry a.2 t n (fun e => { e with pas := tins (elKey i fl) pa e.pas })
      match ownFull (cell s c) (thrOf t) (pa / 128) (pa % 128) b with
      | some e => (a.1, modEntry s t n (fun o => { o with got := tins (elKey i fl) (ofLE (wbBytes e (pa % 128) b)) o.got }))
      | none =>
        if !a.1 || nsPage s t (va fl) then (a.1, s) else vecLine t n (va fl) pa b s) (true, s)
    if r.1 then { q with s := r.2, next := i + 1, halt := vecHeld (cell r.2 c) (thrOf t) } else { q with s := r.2, halt := true }

/-- What has come of a vector load's elements. -/
inductive VCome where
  | all
  | missing
  | poison (i : Nat) (va : Word)

/-- The fields of the active elements below a place that have come, in element order up to the first whose line has not, or that meets poison (R124). -/
def vCome (e : DecEntry) (f : VForm) (k : VAddr) (w : Nat) (d : DCtx) (idx : List Nat) (act : Nat → Bool) (upto : Nat) : VCome × Table Nat :=
  let nf := if k = .seg then f.vs2.toNat else 1
  let b := max 1 (w / 8)
  let num (i v : Nat) : Nat := if w = 4 then (v >>> (4 * (i % 2))) % 16 else v
  let field (i fl : Nat) : Option (Option Nat) :=
    match tget? e.got (elKey i fl), tget? e.pas (elKey i fl) with
    | some v, _ => some (some (num i v))
    | none, some pa => (tget? e.lines (pa / 128)).map (fun l => if linePoison l (pa % 128) b then none else some (num i (ofLE (lineBytes l (pa % 128) b))))
    | none, none => none
  (List.range upto).foldl (fun (a : VCome × Table Nat) i =>
    match a.1 with
    | .all =>
      if i < e.at'.getD 0 || !act i then a
      else
        let vs := (List.range nf).map (fun fl => (fl, field i fl))
        if vs.any (fun p => p.2.isNone) then (.missing, a.2)
        else
          match vs.find? (fun p => decide (p.2 = some none)) with
          | some p => (.poison i (vAddrOf f k w d idx i p.1 &&& ~~~7#64), a.2)
          | none => (.all, vs.foldl (fun m p => tins (elKey i p.1) ((p.2.bind (fun o => o)).getD 0) m) a.2)
    | _ => a) (.all, [])

/-- The lines of a vector load that have neither come nor been asked for: those of no-speculate pages (R103). -/
def vecLeft (x : CellS) (thr : Nat) (e : DecEntry) : List (Nat × Nat) :=
  e.pas.filter (fun p => (tget? e.got p.1).isNone && (tget? e.lines (p.2 / 128)).isNone && !vecAsked x thr (p.2 / 128))

/-- Whether every line of a vector load that has not come is held for a miss register, or still to be asked for: then the last of its checks has been passed (R124, R232). -/
def vecOnlyHeld (x : CellS) (thr : Nat) (e : DecEntry) : Bool :=
  e.pas.all (fun p => (tget? e.got p.1).isSome || (tget? e.lines (p.2 / 128)).isSome
    || !x.mshrs.any (fun m => decide (m.line = p.2 / 128) && m.pipes.any (fun j => decide (j.val = thr))))

/-- The entry of a thread's queues by its number. -/
def entryAt (s : State) (t : Tid) (e : DecEntry) : DecEntry :=
  (((thread s t).vq ++ (thread s t).tq).find? (fun o => o.at'.isSome && decide (o.ask = e.ask))).getD e

/-- A vector load that its pipe runs (R124–R127, R229–R232): its elements pass their checks in order and their lines are asked for; what has come up to a fault or to poison is written. It has resolved once its last element has passed its checks, poison on the lines that have come among them, whether or not the request of another is held (R33, R232; log 120); its no-speculate lines are asked for then (R103). -/
def pipeVLd (s : State) (t : Tid) (e : DecEntry) (f : VForm) (k : VAddr) : DRes :=
  if vMemIllegal f false k then dIllegal s e
  else
    let c := cellOf t
    let w := (etBits f.et).getD 8
    let g := grpSize f.grp
    let n := g * 8192 / w
    let d := entD s t e
    let th := thread s t
    let q0 := qget th f.qp.toNat
    let idx := if k = .index then groupEls th f.vs2.toNat 32 n else []
    let act (i : Nat) : Bool := active q0 w g i
    let q := if vecHeld (cell s c) (thrOf t) then ({ s := s, next := e.next, halt := true } : VPipe)
      else (List.range n).foldl (fun (q : VPipe) i =>
        if i < q.next || q.halt || q.stop.isSome then q
        else if !act i then { q with next := i + 1 }
        else vPipeEl t e.ask d.x f k w d idx i q) ({ s := s, next := e.next } : VPipe)
    let s := modEntry q.s t e.ask (fun e => { e with next := q.next })
    let e := entryAt s t e
    let put (got : Table Nat) (s : State) : State := modThread s t (vMemPut f k w got)
    match vCome e f k w d idx act q.next, q.stop with
    | (.poison i va, got), _ => .exc (srPut (put got s) t 0x005 (wd (0x8000 + i))) { code := 7, val := va }
    | (.all, got), some (i, x) => .exc (srPut (put got s) t 0x005 (wd (0x8000 + i))) x
    | (.all, got), none => if n ≤ q.next then .done (srPut (put got s) t 0x005 0) 0 none else .wait s
    | (.missing, _), some _ => .wait s
    | (.missing, _), none =>
      if q.next < n || !vecOnlyHeld (cell s c) (thrOf t) e then .wait s
      else
        let left := vecLeft (cell s c) (thrOf t) e
        if left.any (fun p => !homeClocked s (p.2 / 128) || (cell s c).mshrs.any (fun m => decide (m.line = p.2 / 128) && decide (8 ≤ m.merged))) then
          .wait (startLines s (left.map (fun p => p.2 / 128)))
        else
          .part (srPut (left.foldl (fun s p => (vecLine t e.ask (vAddrOf f k w d idx (p.1 % 65536) (p.1 / 65536)) p.2 (max 1 (w / 8)) s).2) s) t 0x005 0)

/-- A vector load that has resolved goes on: written once all has come, up to poison, which is an error event now (R34, R232). The fields still to come, if any. -/
def vecRest (s : State) (t : Tid) (e : DecEntry) (f : VForm) (k : VAddr) : Option State :=
  let w := (etBits f.et).getD 8
  let g := grpSize f.grp
  let n := g * 8192 / w
  let th := thread s t
  let idx := if k = .index then groupEls th f.vs2.toNat 32 n else []
  match vCome e f k w (entD s t e) idx (active (qget th f.qp.toNat) w g) n with
  | (.missing, _) => none
  | (.all, got) => some (modThread s t (vMemPut f k w got))
  | (.poison _ _, got) => some (postInt (modThread s t (vMemPut f k w got)) t 14)

/-! ### Tile loads (R176–R180, R233) -/

/-- The held requests of the tile memory pipe take slots as far as there are any, in their order (R233). -/
def slotGrant (s : State) (c : Nat) : State :=
  (List.range (cell s c).slots.length).foldl (fun s i =>
    match (cell s c).slots[i]? with
    | some m =>
      if m.held && slotFree s c m.line && !((cell s c).slots.take i).any (fun o => o.held) then
        modCell s c (fun x => { x with slots := x.slots.set i { m with held := false, no := nextNo s } })
      else s
    | none => s) s

/-- A line asked for by the tile memory pipe, after the thread's own stores to it (R172, R233): whether the pipe may go on, holding no request. -/
def tileAsk (t : Tid) (n : Nat) (a : Bool × State) (l : Nat) : Bool × State :=
  let c := cellOf t
  let s := a.2
  if (tget? (entLines s t n) l).isSome then a
  else
    match (cell s c).slots.find? (fun m => decide (m.line = l) && decide (m.mark = n)) with
    | some m => (a.1 && !m.held, s)
    | none =>
      let own := (cell s c).wb.any (fun e => decide (e.owner.val = thrOf t) && decide (e.line = l) && !e.device)
      if own && !lineOpen s c l then (false, startLines s [l])
      else
      let ok := a.1 && slotFree s c l
      let s := if own then settleLine s c (thrOf t) l else s
      (ok, modCell s c (fun x => { x with slots := x.slots ++ [{ thr := Fin.ofNat 8 (thrOf t), line := l, mark := n, no := nextNo s, held := !ok }] }))

/-- Bytes out of the lines that a tile load's requests have brought. -/
def tileGet (t : Tid) (n : Nat) (s : State) (pa k : Nat) : (List Byte × Option Nat) × State :=
  let r := (cutLines pa (List.replicate k 0)).foldl (fun (a : List Byte × Option Nat) (q : Nat × Nat × List Byte) =>
    let b := tget {} (entLines s t n) q.1
    let m := q.2.2.length
    (a.1 ++ lineBytes b q.2.1 m, a.2.or (if linePoison b q.2.1 m then some (lineBase q.1 + linePoisonAt b q.2.1 m) else none))) ([], none)
  (r, s)

/-- A tile load in its pipe: the rows written so far, the rows checked, whether it may still ask for lines, its flags, where it stopped and why. -/
structure TPipe where
  s : State
  next : Nat
  checked : Nat := 0
  asks : Bool := true
  fl : Nat := 0
  stop : Option (Nat × Exc) := none

/-- One row of a tile load in its pipe: checked, its lines asked for, and written once they are all there and every row below it is written (R176, R233). A row with a no-speculate page waits with its requests until the load has resolved (R103). -/
def tPipeRow (acc : VAcc) (t : Tid) (n : Nat) (resolved : Bool) (f : TForm) (d : DCtx) (th : Thread) (r : Nat) (q : TPipe) : TPipe :=
  if q.stop.isSome || !q.asks || r < q.next then q
  else
    let ps := (tLoadEls f d r).flatten ++ tLoadScales f d r
    match tCheck acc false ps q.s with
    | ((some e, _), s) => if q.next = r && !e.waits then { q with s := s, stop := some (r, e) } else { q with s := s, asks := false }
    | ((none, pas), s) =>
      if !resolved && ps.any (fun p => nsPage s t p.1) then { q with s := s, checked := r + 1 }
      else
      let ls := distinct (pas.map (fun pa => pa / 128))
      let (ok, s) := ls.foldl (tileAsk t n) (true, s)
      let q := { q with s := s, checked := r + 1, asks := ok }
      if q.next = r && ls.all (fun l => (tget? (entLines s t n) l).isSome) then
        let z := tLoadRow acc (cellOf t) f.rd.toNat f d th r { s := s, fl := q.fl }
        { q with s := z.s, fl := z.fl, stop := z.stop, next := if z.stop.isSome then r else r + 1 }
      else q

/-- The extent that a tile load leaves with rows below e written (R177). -/
def tCut (s : State) (c : Nat) (f : TForm) (e : Nat) : State :=
  if e = 0 then s else modCell s c (fun x => putExtent (tileWritten x f.rd.toNat) f.rd.toNat e (rowBytes (w1Cols f.w1) (w1FmtD f.w1)))

/-- A tile load that its pipe runs (R176–R180, R233): TRESUME clears as it resolves, since another may begin from then on (log 121). Past its checks it goes on, and a fault then is an error event with the tile cut at its row (R34, R180). -/
def pipeTLd (s : State) (t : Tid) (e : DecEntry) (f : TForm) : DRes :=
  if tIllegal .ld f then dIllegal s e
  else
    match tShape .ld f.w1 with
    | some (op, r) => .exc s (shapeExc op r f.w1)
    | none =>
      match notHeld (thread s t).mine [f.rd.toNat] with
      | some n => .exc s { code := 9, detail := n }
      | none =>
        let d := entD s t e
        let rows := w1Rows f.w1
        let acc : VAcc := { tileAcc t d.x with check := elWait t d.x, load := tileGet t e.ask }
        let q := (List.range rows).foldl (fun q r => tPipeRow acc t e.ask e.resolved f d (thread s t) r q) ({ s := slotGrant s (cellOf t), next := e.at'.getD 0 } : TPipe)
        let s := setFlags (modEntry q.s t e.ask (fun e => { e with at' := some q.next })) t q.fl
        match q.stop with
        | some (row, x) =>
          let s := tCut s (cellOf t) f row
          if e.resolved then .done (postInt s t 14) 0 none else .exc (srPut s t 0x006 (wd (0x8000 + row))) x
        | none =>
          let past (s : State) : State := if e.resolved then s else srPut s t 0x006 0
          if rows ≤ q.next then .done (past (tCut s (cellOf t) f rows)) 0 none
          else if rows ≤ q.checked then .part (past s) else .wait s

/-! ### Starting, going on, stopping -/

/-- A source register read with a parity error (R133): the poison fault of an instruction that reads registers, with the record; its XVAL is a free value (log 97). -/
def regParity (s : State) (t : Tid) (e : DecEntry) : DRes :=
  let s := reportThread s t 0x11 e.pc
  let (v, s) := drawFree s
  .exc s { code := 7, val := v }

/-- A queued instruction run by its pipe as far as it gets now. -/
def dPipe (s : State) (t : Tid) (e : DecEntry) : DRes :=
  if isMantle (cellOf t) then dIllegal s e
  else
    match e.instr with
    | .vLd _ f => pipeVLd s t e f .unit
    | .vLdS _ f => pipeVLd s t e f .stride
    | .vLdX _ f => pipeVLd s t e f .index
    | .vLdSeg _ f => pipeVLd s t e f .seg
    | .tLd _ f => pipeTLd s t e f
    | .mxMma _ f => (match mxCheck s t e f with | some x => .exc s x | none => .part s)
    | _ => dRun s t e

/-- A thread whose unresolved memory instruction stops at an element or a row (R71, R126, R177): a tile load that has begun leaves its extent as far as it has come. -/
def stopUnits (s : State) (t : Tid) : State :=
  match oldestUnresolved (thread s t) with
  | none => s
  | some e =>
    match e.instr with
    | .tLd _ f => srPut (if e.at'.isSome then tCut s (cellOf t) f (startAt s t e) else s) t 0x006 (wd (0x8000 + startAt s t e))
    | .tSt _ _ => srPut s t 0x006 (wd (0x8000 + startAt s t e))
    | i => if unitMem i then srPut s t 0x005 (wd (0x8000 + startAt s t e)) else s

/-- INTERRUPT_TAKE's effect where the boundary has been reached: the interrupt is taken, an unresolved memory instruction stopped at its element or row. -/
def interruptNow (s : State) (t : Tid) (n : Nat) : State :=
  if entryReady s t then orStay s t (takeInterrupt (stopUnits s t) t n) else s

/-- An exception of the unresolved instruction, unless an interrupt is takeable at its boundary, which goes first (R71): `s0` is the state before the instruction met it. Where the entry must wait the instruction stays unresolved, and meets it again. -/
def unitExc (s0 s : State) (t : Tid) (e : DecEntry) (x : Exc) : State :=
  match (if atBoundary s t then nextInterrupt s t else none) with
  | some n => interruptNow s0 t n
  | none => if entryReady s t then orStay s0 t (takeExc (rollBack s t) t e.pc x) else s0

/-- The unresolved instruction of a thread past its checks (R33): complete, or still at work in its pipe; the window commits. -/
def passUnit (s : State) (t : Tid) (e : DecEntry) (runs : Bool) (res : Option Word) : State :=
  let r := res.map (fun v => (dstOf e.instr, v))
  let g (o : DecEntry) : DecEntry := if o.resolved then o else { o with resolved := true, result := r, runs := runs }
  commitWindow (modThread s t (fun th => { th with vq := th.vq.map g, tq := th.tq.map g })) t

/-- An instruction that starts now run as far as it gets: at once where every line that it reads is there to be had, else by its pipe. -/
def dNow (s : State) (t : Tid) (e : DecEntry) : DRes :=
  match dRun s t e with
  | .wait s' => if (match e.instr with | .tLd _ _ => true | i => (vMemOp i).elim false (fun p => !p.2.2.1)) then dPipe s t e else .wait s'
  | r => r

/-- The unresolved instruction of a thread started by its pipe, or going on in it (R134, R184, R205): an irrevocable action is held for the verdict, and one that a commit has released meanwhile issues again (R300); `now`: by a command of its own. The stores of the retire window need their entries first (R225). -/
def startUnit (now : Bool) (s : State) (t : Tid) (h : UnitFinding) : State :=
  match oldestUnresolved (thread s t) with
  | none => s
  | some e0 =>
    let p := pipeOf e0.instr
    if pipeKept s t p || (e0.at'.isNone && !hasTurn s t p) then s
    else if windowBlocked s t then storesWait s (cellOf t)
    else
      let s := if e0.at'.isNone then beginEntry s t e0 else s
      match oldestUnresolved (thread s t) with
      | none => s
      | some e =>
        match (if h = .register ∧ p ≤ 1 ∧ e0.at'.isNone then regParity s t e else if now then dNow s t e else dPipe s t e) with
        | .wait s => s
        | .part s => passUnit s t e true none
        | .done s fl res => passUnit (setFlags s t fl) t e false res
        | .exc s' x => unitExc s s' t e x
        | .hold s =>
          let s := rollBack s t
          if (thread s t).spec.isSome then holdAction s t else s

/-- A decoupled instruction issued (R32): a full queue makes the thread wait. Run by a command of its own, with its unit's queue empty, it starts where its pipe takes it (R134, R184, R205), and the result of one that completes arrives. -/
def runDecoupled (now : Bool) (i : Instr) (s : State) : Option State :=
  match decForm i with
  | none => none
  | some f =>
    let q := if f.tile then (thread s f.t).tq else (thread s f.t).vq
    if !mayIssue s f.t false f.regs || decide (4 ≤ q.length) then none
    else
      let s' := enqueue s f i
      some (if now && q.isEmpty then arrive (startUnit true s' f.t .clean) f.t f.tile else s')

/-- A resolved instruction complete. -/
def endRun (s : State) (t : Tid) (n : Nat) : State := modEntry s t n (fun e => { e with runs := false })

/-- What a finding says of the harp's two attempts. -/
def findingHits : UnitFinding → Option HarpHit × Option HarpHit
  | .array a b => (a, b)
  | _ => (none, none)

/-- A resolved instruction that goes on (R180, R203–R205, R232): a vector load as its lines come, a tile load as far as its lines let it, a harp instruction to its end unless the harp is stopped. -/
def goOn (s : State) (t : Tid) (h : UnitFinding) (e : DecEntry) : State :=
  match e.instr with
  | .vLd _ f => (vecRest s t e f .unit).elim s (fun s => endRun s t e.ask)
  | .vLdS _ f => (vecRest s t e f .stride).elim s (fun s => endRun s t e.ask)
  | .vLdX _ f => (vecRest s t e f .index).elim s (fun s => endRun s t e.ask)
  | .vLdSeg _ f => (vecRest s t e f .seg).elim s (fun s => endRun s t e.ask)
  | .tLd _ f =>
    (match pipeTLd s t e f with
    | .done s _ _ => endRun s t e.ask
    | .part s => s
    | .wait s => s
    | .hold s => s
    | .exc s _ => endRun (postInt s t 14) t e.ask)
  | .mxMma _ f =>
    if (cell s (cellOf t)).harpStopped then s
    else
      let s := match h with
        | .tileRow b r w => modCell s (cellOf t) (fun x => { x with tparity := tmod 0 x.tparity (64 * b.val + r.val) (fun m => setBit m w.val true) })
        | _ => s
      (match mxRun t f (entD s t e) (thread s t) (findingHits h).1 (findingHits h).2 s with
      | (some q, _) => endRun (setFlags q.s t q.fl) t e.ask
      | (none, s) => s)
  | _ => s

/-- The resolved instructions of a thread's units go on: the first of each of these pipes, since none has started behind one it waits for. -/
def runOn (ps : List Nat) (s : State) (t : Tid) (h : UnitFinding) : State :=
  ps.foldl (fun s p =>
    let q := (thread s t).vq ++ (thread s t).tq
    (q.find? (fun e => e.runs && decide (pipeOf e.instr = p))).elim s (goOn s t h)) s

/-- A vector element's held request goes on: it merges into the register that tracks its line by now, or takes one (R229, R230). -/
def grantElement (s : State) (c i : Nat) : State :=
  match (cell s c).held[i]? with
  | none => s
  | some h =>
    let s := modCell s c (fun x => { x with held := x.held.eraseIdx i })
    let f (m : Mshr) : Mshr := { m with pipes := m.pipes ++ [h.load.thr] }
    match (cell s c).mshrs.findIdx? (fun m => decide (m.line = h.line)) with
    | some j => mergeMiss s c j f
    | none => takeMiss s c (f { line := h.line, loads := [] })

/-- What a thread's units have still to do done at once: every line it waits for served and delivered, every resolved instruction run (R15, R101). A stopped harp keeps its own. -/
def finishUnits (s : State) (t : Tid) : State :=
  let c := cellOf t
  if !((thread s t).vq ++ (thread s t).tq).any (fun e => e.runs) then s
  else
    (List.range (64 * ((thread s t).tq.length + (thread s t).vq.length))).foldl (fun s _ =>
      let s := ((cell s c).held.findIdx? (fun h => decide (h.kind = .element) && decide (h.load.thr.val = thrOf t))).elim s (grantElement s c)
      let s := serveLoads s c (fun j _ => decide (j = thrOf t))
      let s := (List.range (cell s c).mshrs.length).foldl (fun s _ =>
        match (cell s c).mshrs.findIdx? (fun m => m.pipes.any (fun j => decide (j.val = thrOf t)) && m.served.isSome) with
        | some i => fillMiss s c i 0
        | none => s) s
      let s := (List.range (cell s c).slots.length).foldl (fun s _ =>
        match (cell s c).slots.findIdx? (fun m => decide (m.thr.val = thrOf t) && m.served.isSome) with
        | some i => fillSlot s c i
        | none => s) s
      runOn [1, 2, 4] s t .clean) s

/-! ## The rows -/

/-- Whether a thread's units run: its cell is powered and clocked (R18, R21). -/
def unitsRun (s : State) (t : Tid) : Bool := decide ((cell s (cellOf t)).power = .run) && clocked s (cellOf t)

/-- INSTRUCTION_RESOLVE (R33, R134, R184, R205): a unit of a thread goes on with what it runs and starts or resolves the unresolved instruction; the command carries what goes wrong meanwhile. -/
def execInstructionResolve (t : Tid) (tile : Bool) (h : UnitFinding) (s : State) : Host.Outcome State Fault Refusal :=
  .next (if !unitsRun s t then s
    else
      let s := runOn (if tile then [2, 4] else [1]) s t h
      let s := if (if tile then (thread s t).tq else (thread s t).vq).any (fun e => !e.resolved) then startUnit false s t h else s
      takeLate s t)

/-- DECOUPLED_RESULT_ARRIVE (R32). A poison fault that waited for the result is taken. -/
def execDecoupledResultArrive (t : Tid) (tile : Bool) (s : State) : Host.Outcome State Fault Refusal := .next (takeLate (arrive s t tile) t)

/-- INTERRUPT_TAKE (R71): the highest-priority takeable interrupt is taken; an unresolved memory instruction stops at its element or row. -/
def execInterruptTake (t : Tid) (s : State) : Host.Outcome State Fault Refusal :=
  .next (if atBoundary s t then (match nextInterrupt s t with | some n => interruptNow s t n | none => s) else s)

/-- V_ADD (R115). -/
def execVAdd (t : Tid) (f : VForm) (s : State) : Host.Outcome State Fault Refusal := .next ((runDecoupled true (.vAdd t f) s).getD s)

/-- V_SUB (R115). -/
def execVSub (t : Tid) (f : VForm) (s : State) : Host.Outcome State Fault Refusal := .next ((runDecoupled true (.vSub t f) s).getD s)

/-- V_MUL (R115). -/
def execVMul (t : Tid) (f : VForm) (s : State) : Host.Outcome State Fault Refusal := .next ((runDecoupled true (.vMul t f) s).getD s)

/-- V_MULH (R115). -/
def execVMulh (t : Tid) (f : VForm) (s : State) : Host.Outcome State Fault Refusal := .next ((runDecoupled true (.vMulh t f) s).getD s)

/-- V_MULHU (R115). -/
def execVMulhu (t : Tid) (f : VForm) (s : State) : Host.Outcome State Fault Refusal := .next ((runDecoupled true (.vMulhu t f) s).getD s)

/-- V_MULHSU (R115). -/
def execVMulhsu (t : Tid) (f : VForm) (s : State) : Host.Outcome State Fault Refusal := .next ((runDecoupled true (.vMulhsu t f) s).getD s)

/-- V_MIN (R115). -/
def execVMin (t : Tid) (f : VForm) (s : State) : Host.Outcome State Fault Refusal := .next ((runDecoupled true (.vMin t f) s).getD s)

/-- V_MAX (R115). -/
def execVMax (t : Tid) (f : VForm) (s : State) : Host.Outcome State Fault Refusal := .next ((runDecoupled true (.vMax t f) s).getD s)

/-- V_MINU (R115). -/
def execVMinu (t : Tid) (f : VForm) (s : State) : Host.Outcome State Fault Refusal := .next ((runDecoupled true (.vMinu t f) s).getD s)

/-- V_MAXU (R115). -/
def execVMaxu (t : Tid) (f : VForm) (s : State) : Host.Outcome State Fault Refusal := .next ((runDecoupled true (.vMaxu t f) s).getD s)

/-- V_AND (R115). -/
def execVAnd (t : Tid) (f : VForm) (s : State) : Host.Outcome State Fault Refusal := .next ((runDecoupled true (.vAnd t f) s).getD s)

/-- V_OR (R115). -/
def execVOr (t : Tid) (f : VForm) (s : State) : Host.Outcome State Fault Refusal := .next ((runDecoupled true (.vOr t f) s).getD s)

/-- V_XOR (R115). -/
def execVXor (t : Tid) (f : VForm) (s : State) : Host.Outcome State Fault Refusal := .next ((runDecoupled true (.vXor t f) s).getD s)

/-- V_ANDN (R115). -/
def execVAndn (t : Tid) (f : VForm) (s : State) : Host.Outcome State Fault Refusal := .next ((runDecoupled true (.vAndn t f) s).getD s)

/-- V_SLL (R115). -/
def execVSll (t : Tid) (f : VForm) (s : State) : Host.Outcome State Fault Refusal := .next ((runDecoupled true (.vSll t f) s).getD s)

/-- V_SRL (R115). -/
def execVSrl (t : Tid) (f : VForm) (s : State) : Host.Outcome State Fault Refusal := .next ((runDecoupled true (.vSrl t f) s).getD s)

/-- V_SRA (R115). -/
def execVSra (t : Tid) (f : VForm) (s : State) : Host.Outcome State Fault Refusal := .next ((runDecoupled true (.vSra t f) s).getD s)

/-- V_SRAR (R115). -/
def execVSrar (t : Tid) (f : VForm) (s : State) : Host.Outcome State Fault Refusal := .next ((runDecoupled true (.vSrar t f) s).getD s)

/-- V_SADD (R115). -/
def execVSadd (t : Tid) (f : VForm) (s : State) : Host.Outcome State Fault Refusal := .next ((runDecoupled true (.vSadd t f) s).getD s)

/-- V_SSUB (R115). -/
def execVSsub (t : Tid) (f : VForm) (s : State) : Host.Outcome State Fault Refusal := .next ((runDecoupled true (.vSsub t f) s).getD s)

/-- V_SADDU (R115). -/
def execVSaddu (t : Tid) (f : VForm) (s : State) : Host.Outcome State Fault Refusal := .next ((runDecoupled true (.vSaddu t f) s).getD s)

/-- V_SSUBU (R115). -/
def execVSsubu (t : Tid) (f : VForm) (s : State) : Host.Outcome State Fault Refusal := .next ((runDecoupled true (.vSsubu t f) s).getD s)

/-- V_QMUL (R116). -/
def execVQmul (t : Tid) (f : VForm) (s : State) : Host.Outcome State Fault Refusal := .next ((runDecoupled true (.vQmul t f) s).getD s)

/-- V_QMUL_RNE (R116). -/
def execVQmulRne (t : Tid) (f : VForm) (s : State) : Host.Outcome State Fault Refusal := .next ((runDecoupled true (.vQmulRne t f) s).getD s)

/-- V_NARROW_S (R116). -/
def execVNarrowS (t : Tid) (f : VForm) (s : State) : Host.Outcome State Fault Refusal := .next ((runDecoupled true (.vNarrowS t f) s).getD s)

/-- V_NARROW_U (R116). -/
def execVNarrowU (t : Tid) (f : VForm) (s : State) : Host.Outcome State Fault Refusal := .next ((runDecoupled true (.vNarrowU t f) s).getD s)

/-- V_NARROW_S_RNE (R116). -/
def execVNarrowSRne (t : Tid) (f : VForm) (s : State) : Host.Outcome State Fault Refusal := .next ((runDecoupled true (.vNarrowSRne t f) s).getD s)

/-- V_NARROW_U_RNE (R116). -/
def execVNarrowURne (t : Tid) (f : VForm) (s : State) : Host.Outcome State Fault Refusal := .next ((runDecoupled true (.vNarrowURne t f) s).getD s)

/-- V_FADD (R117). -/
def execVFadd (t : Tid) (f : VForm) (s : State) : Host.Outcome State Fault Refusal := .next ((runDecoupled true (.vFadd t f) s).getD s)

/-- V_FSUB (R117). -/
def execVFsub (t : Tid) (f : VForm) (s : State) : Host.Outcome State Fault Refusal := .next ((runDecoupled true (.vFsub t f) s).getD s)

/-- V_FMUL (R117). -/
def execVFmul (t : Tid) (f : VForm) (s : State) : Host.Outcome State Fault Refusal := .next ((runDecoupled true (.vFmul t f) s).getD s)

/-- V_FDIV (R117). -/
def execVFdiv (t : Tid) (f : VForm) (s : State) : Host.Outcome State Fault Refusal := .next ((runDecoupled true (.vFdiv t f) s).getD s)

/-- V_FMA (R117). -/
def execVFma (t : Tid) (f : VForm) (s : State) : Host.Outcome State Fault Refusal := .next ((runDecoupled true (.vFma t f) s).getD s)

/-- V_FNMA (R117). -/
def execVFnma (t : Tid) (f : VForm) (s : State) : Host.Outcome State Fault Refusal := .next ((runDecoupled true (.vFnma t f) s).getD s)

/-- V_FMIN (R117). -/
def execVFmin (t : Tid) (f : VForm) (s : State) : Host.Outcome State Fault Refusal := .next ((runDecoupled true (.vFmin t f) s).getD s)

/-- V_FMAX (R117). -/
def execVFmax (t : Tid) (f : VForm) (s : State) : Host.Outcome State Fault Refusal := .next ((runDecoupled true (.vFmax t f) s).getD s)

/-- V_FSQRT (R117). -/
def execVFsqrt (t : Tid) (f : VForm) (s : State) : Host.Outcome State Fault Refusal := .next ((runDecoupled true (.vFsqrt t f) s).getD s)

/-- V_FABS (R117). -/
def execVFabs (t : Tid) (f : VForm) (s : State) : Host.Outcome State Fault Refusal := .next ((runDecoupled true (.vFabs t f) s).getD s)

/-- V_FNEG (R117). -/
def execVFneg (t : Tid) (f : VForm) (s : State) : Host.Outcome State Fault Refusal := .next ((runDecoupled true (.vFneg t f) s).getD s)

/-- V_CMP_EQ (R118). -/
def execVCmpEq (t : Tid) (f : VForm) (s : State) : Host.Outcome State Fault Refusal := .next ((runDecoupled true (.vCmpEq t f) s).getD s)

/-- V_CMP_NE (R118). -/
def execVCmpNe (t : Tid) (f : VForm) (s : State) : Host.Outcome State Fault Refusal := .next ((runDecoupled true (.vCmpNe t f) s).getD s)

/-- V_CMP_LT (R118). -/
def execVCmpLt (t : Tid) (f : VForm) (s : State) : Host.Outcome State Fault Refusal := .next ((runDecoupled true (.vCmpLt t f) s).getD s)

/-- V_CMP_LE (R118). -/
def execVCmpLe (t : Tid) (f : VForm) (s : State) : Host.Outcome State Fault Refusal := .next ((runDecoupled true (.vCmpLe t f) s).getD s)

/-- V_CMP_GT (R118). -/
def execVCmpGt (t : Tid) (f : VForm) (s : State) : Host.Outcome State Fault Refusal := .next ((runDecoupled true (.vCmpGt t f) s).getD s)

/-- V_CMP_GE (R118). -/
def execVCmpGe (t : Tid) (f : VForm) (s : State) : Host.Outcome State Fault Refusal := .next ((runDecoupled true (.vCmpGe t f) s).getD s)

/-- V_CMP_LTU (R118). -/
def execVCmpLtu (t : Tid) (f : VForm) (s : State) : Host.Outcome State Fault Refusal := .next ((runDecoupled true (.vCmpLtu t f) s).getD s)

/-- V_CMP_LEU (R118). -/
def execVCmpLeu (t : Tid) (f : VForm) (s : State) : Host.Outcome State Fault Refusal := .next ((runDecoupled true (.vCmpLeu t f) s).getD s)

/-- V_FCMP_EQ (R118). -/
def execVFcmpEq (t : Tid) (f : VForm) (s : State) : Host.Outcome State Fault Refusal := .next ((runDecoupled true (.vFcmpEq t f) s).getD s)

/-- V_FCMP_LT (R118). -/
def execVFcmpLt (t : Tid) (f : VForm) (s : State) : Host.Outcome State Fault Refusal := .next ((runDecoupled true (.vFcmpLt t f) s).getD s)

/-- V_FCMP_LE (R118). -/
def execVFcmpLe (t : Tid) (f : VForm) (s : State) : Host.Outcome State Fault Refusal := .next ((runDecoupled true (.vFcmpLe t f) s).getD s)

/-- V_FCMP_UN (R118). -/
def execVFcmpUn (t : Tid) (f : VForm) (s : State) : Host.Outcome State Fault Refusal := .next ((runDecoupled true (.vFcmpUn t f) s).getD s)

/-- V_PAND (R119). -/
def execVPand (t : Tid) (f : VForm) (s : State) : Host.Outcome State Fault Refusal := .next ((runDecoupled true (.vPand t f) s).getD s)

/-- V_POR (R119). -/
def execVPor (t : Tid) (f : VForm) (s : State) : Host.Outcome State Fault Refusal := .next ((runDecoupled true (.vPor t f) s).getD s)

/-- V_PXOR (R119). -/
def execVPxor (t : Tid) (f : VForm) (s : State) : Host.Outcome State Fault Refusal := .next ((runDecoupled true (.vPxor t f) s).getD s)

/-- V_PANDN (R119). -/
def execVPandn (t : Tid) (f : VForm) (s : State) : Host.Outcome State Fault Refusal := .next ((runDecoupled true (.vPandn t f) s).getD s)

/-- V_PWHILE (R119). -/
def execVPwhile (t : Tid) (f : VForm) (s : State) : Host.Outcome State Fault Refusal := .next ((runDecoupled true (.vPwhile t f) s).getD s)

/-- V_PCOUNT (R119). -/
def execVPcount (t : Tid) (f : VForm) (s : State) : Host.Outcome State Fault Refusal := .next ((runDecoupled true (.vPcount t f) s).getD s)

/-- V_RED_SUM (R128). -/
def execVRedSum (t : Tid) (f : VForm) (s : State) : Host.Outcome State Fault Refusal := .next ((runDecoupled true (.vRedSum t f) s).getD s)

/-- V_RED_SUMSQ (R128). -/
def execVRedSumsq (t : Tid) (f : VForm) (s : State) : Host.Outcome State Fault Refusal := .next ((runDecoupled true (.vRedSumsq t f) s).getD s)

/-- V_RED_MAX (R128). -/
def execVRedMax (t : Tid) (f : VForm) (s : State) : Host.Outcome State Fault Refusal := .next ((runDecoupled true (.vRedMax t f) s).getD s)

/-- V_RED_MIN (R128). -/
def execVRedMin (t : Tid) (f : VForm) (s : State) : Host.Outcome State Fault Refusal := .next ((runDecoupled true (.vRedMin t f) s).getD s)

/-- V_RED_MAXU (R128). -/
def execVRedMaxu (t : Tid) (f : VForm) (s : State) : Host.Outcome State Fault Refusal := .next ((runDecoupled true (.vRedMaxu t f) s).getD s)

/-- V_RED_MINU (R128). -/
def execVRedMinu (t : Tid) (f : VForm) (s : State) : Host.Outcome State Fault Refusal := .next ((runDecoupled true (.vRedMinu t f) s).getD s)

/-- V_FRED_SUM (R128). -/
def execVFredSum (t : Tid) (f : VForm) (s : State) : Host.Outcome State Fault Refusal := .next ((runDecoupled true (.vFredSum t f) s).getD s)

/-- V_FRED_SUMSQ (R128). -/
def execVFredSumsq (t : Tid) (f : VForm) (s : State) : Host.Outcome State Fault Refusal := .next ((runDecoupled true (.vFredSumsq t f) s).getD s)

/-- V_FRED_MAX (R128). -/
def execVFredMax (t : Tid) (f : VForm) (s : State) : Host.Outcome State Fault Refusal := .next ((runDecoupled true (.vFredMax t f) s).getD s)

/-- V_FRED_MIN (R128). -/
def execVFredMin (t : Tid) (f : VForm) (s : State) : Host.Outcome State Fault Refusal := .next ((runDecoupled true (.vFredMin t f) s).getD s)

/-- V_LD (R124). -/
def execVLd (t : Tid) (f : VForm) (s : State) : Host.Outcome State Fault Refusal := .next ((runDecoupled true (.vLd t f) s).getD s)

/-- V_LD_S (R124). -/
def execVLdS (t : Tid) (f : VForm) (s : State) : Host.Outcome State Fault Refusal := .next ((runDecoupled true (.vLdS t f) s).getD s)

/-- V_LD_X (R124). -/
def execVLdX (t : Tid) (f : VForm) (s : State) : Host.Outcome State Fault Refusal := .next ((runDecoupled true (.vLdX t f) s).getD s)

/-- V_LD_SEG (R124). -/
def execVLdSeg (t : Tid) (f : VForm) (s : State) : Host.Outcome State Fault Refusal := .next ((runDecoupled true (.vLdSeg t f) s).getD s)

/-- V_ST (R124). -/
def execVSt (t : Tid) (f : VForm) (s : State) : Host.Outcome State Fault Refusal := .next ((runDecoupled true (.vSt t f) s).getD s)

/-- V_ST_S (R124). -/
def execVStS (t : Tid) (f : VForm) (s : State) : Host.Outcome State Fault Refusal := .next ((runDecoupled true (.vStS t f) s).getD s)

/-- V_ST_X (R124). -/
def execVStX (t : Tid) (f : VForm) (s : State) : Host.Outcome State Fault Refusal := .next ((runDecoupled true (.vStX t f) s).getD s)

/-- V_ST_SEG (R124). -/
def execVStSeg (t : Tid) (f : VForm) (s : State) : Host.Outcome State Fault Refusal := .next ((runDecoupled true (.vStSeg t f) s).getD s)

/-- V_SPLAT (R120). -/
def execVSplat (t : Tid) (f : VForm) (s : State) : Host.Outcome State Fault Refusal := .next ((runDecoupled true (.vSplat t f) s).getD s)

/-- V_SEL (R120). -/
def execVSel (t : Tid) (f : VForm) (s : State) : Host.Outcome State Fault Refusal := .next ((runDecoupled true (.vSel t f) s).getD s)

/-- V_EXT (R120). -/
def execVExt (t : Tid) (f : VForm) (s : State) : Host.Outcome State Fault Refusal := .next ((runDecoupled true (.vExt t f) s).getD s)

/-- V_INS (R120). -/
def execVIns (t : Tid) (f : VForm) (s : State) : Host.Outcome State Fault Refusal := .next ((runDecoupled true (.vIns t f) s).getD s)

/-- V_CVT (R130). -/
def execVCvt (t : Tid) (f : LForm) (s : State) : Host.Outcome State Fault Refusal := .next ((runDecoupled true (.vCvt t f) s).getD s)

/-- V_MFMA (R131). -/
def execVMfma (t : Tid) (f : LForm) (s : State) : Host.Outcome State Fault Refusal := .next ((runDecoupled true (.vMfma t f) s).getD s)

/-- V_STAT (R132). -/
def execVStat (t : Tid) (f : LForm) (s : State) : Host.Outcome State Fault Refusal := .next ((runDecoupled true (.vStat t f) s).getD s)

/-- V_STAT_MERGE (R132). -/
def execVStatMerge (t : Tid) (f : LForm) (s : State) : Host.Outcome State Fault Refusal := .next ((runDecoupled true (.vStatMerge t f) s).getD s)

/-- UPD_SGDM (R305). -/
def execUpdSgdm (t : Tid) (f : LForm) (s : State) : Host.Outcome State Fault Refusal := .next ((runDecoupled true (.updSgdm t f) s).getD s)

/-- UPD_ADAMW (R305). -/
def execUpdAdamw (t : Tid) (f : LForm) (s : State) : Host.Outcome State Fault Refusal := .next ((runDecoupled true (.updAdamw t f) s).getD s)

/-- UPD_LION (R305). -/
def execUpdLion (t : Tid) (f : LForm) (s : State) : Host.Outcome State Fault Refusal := .next ((runDecoupled true (.updLion t f) s).getD s)

/-- T_LD (R176). -/
def execTLd (t : Tid) (f : TForm) (s : State) : Host.Outcome State Fault Refusal := .next ((runDecoupled true (.tLd t f) s).getD s)

/-- T_ST (R176). -/
def execTSt (t : Tid) (f : TForm) (s : State) : Host.Outcome State Fault Refusal := .next ((runDecoupled true (.tSt t f) s).getD s)

/-- T_MOV (R181). -/
def execTMov (t : Tid) (f : TForm) (s : State) : Host.Outcome State Fault Refusal := .next ((runDecoupled true (.tMov t f) s).getD s)

/-- T_CLR (R181). -/
def execTClr (t : Tid) (f : TForm) (s : State) : Host.Outcome State Fault Refusal := .next ((runDecoupled true (.tClr t f) s).getD s)

/-- T_EXT (R181). -/
def execTExt (t : Tid) (f : TForm) (s : State) : Host.Outcome State Fault Refusal := .next ((runDecoupled true (.tExt t f) s).getD s)

/-- MX_MMA (R199). -/
def execMxMma (t : Tid) (f : TForm) (s : State) : Host.Outcome State Fault Refusal := .next ((runDecoupled true (.mxMma t f) s).getD s)

end Sys2Proof.Machine
end

