-- ==== Sys2Proof/Machine/Issue.lean ====
section
/-! DEFINITION. Fetch, decode and the issue selector of a cell (R31, R36, R39, R53, R64), and the walker's row (R99). -/

namespace Sys2Proof.Machine

/-! ## Running a decoded instruction -/

/-- An atomic's fields (R47). -/
structure AmoForm where
  t : Tid
  op : Nat
  rd : Reg
  rs1 : Reg
  rs2 : Reg
  d : Bool
  aq : Bool
  rl : Bool

/-- The atomics (R47). -/
def amoForm : Instr → Option AmoForm
  | .amoSwap t rd a b d aq rl => some ⟨t, 0, rd, a, b, d, aq, rl⟩
  | .amoAdd t rd a b d aq rl => some ⟨t, 1, rd, a, b, d, aq, rl⟩
  | .amoAnd t rd a b d aq rl => some ⟨t, 2, rd, a, b, d, aq, rl⟩
  | .amoOr t rd a b d aq rl => some ⟨t, 3, rd, a, b, d, aq, rl⟩
  | .amoXor t rd a b d aq rl => some ⟨t, 4, rd, a, b, d, aq, rl⟩
  | .amoMin t rd a b d aq rl => some ⟨t, 5, rd, a, b, d, aq, rl⟩
  | .amoMax t rd a b d aq rl => some ⟨t, 6, rd, a, b, d, aq, rl⟩
  | .amoMinu t rd a b d aq rl => some ⟨t, 7, rd, a, b, d, aq, rl⟩
  | .amoMaxu t rd a b d aq rl => some ⟨t, 8, rd, a, b, d, aq, rl⟩
  | .amoCas t rd a b d aq rl => some ⟨t, 9, rd, a, b, d, aq, rl⟩
  | _ => none

/-- The instructions of unit 11, the fences and the jumps. -/
def runSystem (i : Instr) (s : State) : Option State :=
  match i with
  | .jal t rd imm => runJump s t rd [] (jalTarget imm)
  | .jalr t rd rs1 imm => runJump s t rd [rs1] (jalrTarget rs1 imm)
  | .fenceAcq t => runFence s t false true
  | .fenceRel t => runFence s t true false
  | .fenceAr t => runFence s t true true
  | .fenceI t => runFenceI s t
  | .srRw t rd rs1 num => runSr s t .rw rd rs1 num (word0 i)
  | .srSet t rd rs1 num => runSr s t .set rd rs1 num (word0 i)
  | .srClr t rd rs1 num => runSr s t .clr rd rs1 num (word0 i)
  | .yield t => runYield s t
  | .pause t imm => runPause s t imm
  | .tend t => runTend s t
  | .gate t imm => runGate s t imm
  | .xret t => runXret s t
  | .xretG t => runXretG s t
  | .pegRd t rd rs1 => runPeg s t .rd rd rs1 0
  | .pegAdd t rd rs1 rs2 => runPeg s t .add rd rs1 rs2
  | .pegSet t rd rs1 rs2 => runPeg s t .set rd rs1 rs2
  | .pegWaitGe t rd rs1 rs2 => runPeg s t .waitGe rd rs1 rs2
  | .pegWaitEq t rd rs1 rs2 => runPeg s t .waitEq rd rs1 rs2
  | .pegArrive t rd rs1 rs2 => runPeg s t .arrive rd rs1 rs2
  | _ => none

/-- A decoded instruction issued: none while its thread waits for an operand, a unit or older instructions. -/
def runInstr (i : Instr) (s : State) : Option State :=
  match amoForm i with
  | some f => runAmo i s f.t f.op f.rd f.rs1 f.rs2 f.d f.aq f.rl
  | none =>
    (runAlu i s) <|> (runBranch i s) <|> (runLoad i s) <|> (runStore i s) <|> (runSystem i s) <|> (runDecoupled false i s)

/-! ## Fetch (R36, R53) -/

/-- What the fetch of an instruction gives: the word, a miss, an exception, or a walk that waits for the homes of its tables. -/
inductive Fetch where
  | word (w : BitVec 32)
  | miss (line : Nat)
  | exc (e : Exc)
  | wait (lines : List Nat)

/-- The aligned word at an address, through the instruction TLB and the instruction cache (R36, R64, R87). R64 names no fetch from an outbound window and R458 none of a poisoned word: they give the access fault and the poison fault (log 99). -/
def fetchAligned (s : State) (t : Tid) (va : Word) : Fetch × State :=
  let c := cellOf t
  match (xlatNeeds s c (ctxOf s t) va .fetch).filter (fun l => !lineOpen s c l) with
  | l :: ls => (.wait (l :: ls), s)
  | [] =>
  match translate s c (ctxOf s t) va .fetch with
  | (.error e, s) => (.exc e, s)
  | (.ok pa, s) =>
    if !inHbm pa then (.exc { code := 2, val := va }, s)
    else
      match (cell s c).icache.find? (fun p => decide (p.1 = pa / 128)) with
      | none => (.miss (pa / 128), s)
      | some p =>
        if linePoison p.2 (pa % 128) 4 then (.exc { code := 7, val := va &&& ~~~7#64 }, s)
        else
          let s := modCell s c (fun x => { x with icache := lruPut 512 (fun o => decide (o.1 = p.1)) p x.icache })
          (.word (BitVec.ofNat 32 (ofLE (lineBytes p.2 (pa % 128) 4))), s)

/-- The four bytes at an address: a pc that is not 4-byte aligned, of which R75 says nothing, takes them out of two words (log 99). -/
def fetchWord (s : State) (t : Tid) (va : Word) : Fetch × State :=
  let lo := va &&& ~~~3#64
  if va = lo then fetchAligned s t va
  else
    match fetchAligned s t lo with
    | (.word a, s) =>
      match fetchAligned s t (lo + 4) with
      | (.word b, s) => (.word (((b ++ a : BitVec 64) >>> (8 * (va - lo).toNat)).setWidth 32), s)
      | r => r
    | r => r

/-- A thread's instruction at its pc: both words of a long form (R36), the miss that the thread waits for, or the exception. A fault on word 1 names its address. -/
inductive Fetched where
  | ok (w : BitVec 32) (w1 : Word)
  | miss
  | exc (e : Exc)
  | wait (lines : List Nat)

/-- The eight bytes of word 1 at an address: two words, each fetched. -/
def fetchInstr (s : State) (t : Tid) : Fetched × State :=
  let pc := (thread s t).pc
  match fetchWord s t pc with
  | (.exc e, s) => (.exc e, s)
  | (.miss _, s) => (.miss, s)
  | (.wait ls, s) => (.wait ls, s)
  | (.word w, s) =>
    if !isLong w then (.ok w 0, s)
    else
      match fetchWord s t (pc + 4) with
      | (.exc e, s) => (.exc { e with val := pc + 4 }, s)
      | (.miss _, s) => (.miss, s)
      | (.wait ls, s) => (.wait ls, s)
      | (.word a, s) =>
        match fetchWord s t (pc + 8) with
        | (.exc e, s) => (.exc { e with val := pc + 4 }, s)
        | (.miss _, s) => (.miss, s)
        | (.wait ls, s) => (.wait ls, s)
        | (.word b, s) => (.ok w (b ++ a), s)

/-- The line that a thread's instruction misses in the instruction cache, if any: of word 0, else of word 1. -/
def missingLine (s : State) (t : Tid) : Option Nat × State :=
  let pc := (thread s t).pc
  let next (s : State) (va : Word) (k : State → Option Nat × State) : Option Nat × State :=
    match fetchWord s t va with
    | (.miss l, s) => (some l, s)
    | (.word _, s) => k s
    | (.exc _, s) => (none, s)
    | (.wait _, s) => (none, s)
  match fetchWord s t pc with
  | (.miss l, s) => (some l, s)
  | (.exc _, s) => (none, s)
  | (.wait _, s) => (none, s)
  | (.word w, s) =>
    if !isLong w then (none, s)
    else next s (pc + 4) (fun s => next s (pc + 8) (fun s => (none, s)))

/-! ## The issue selector (R31) -/

/-- One candidate of the selector: its instruction fetched, decoded and run. None when the thread waits; the state then keeps what the attempt left. -/
def tryIssue (s : State) (t : Tid) : Bool × State :=
  if !canIssue s t then (false, s)
  else
    let ran (s0 : State) (o : Option State) : Bool × State := match o with | some s => (tookIssue s t, s) | none => (false, s0)
    match fetchInstr s t with
    | (.miss, s) => (false, modThread s t (fun th => { th with st := .waiting .fetch }))
    | (.wait ls, s) => (false, waitHome s t ls)
    | (.exc e, s') => ran s' (raiseScalar s s' t e)
    | (.ok w w1, s') =>
      match decodeInstr t w w1 with
      | none => ran s' (raiseScalar s s' t { code := 0, val := w.setWidth 64 })
      | some i => ran s' (runInstr i s')

/-- The order in which the selector searches (R31): from the thread after the one that issued last. -/
def issueOrder (s : State) (c : Nat) : List Tid :=
  let n := thrCount c
  (List.range n).map (fun i => tidOf c (((cell s c).last.val + 1 + i) % n))

/-- The first candidate that issues. -/
def issueFirst : List Tid → State → Bool × State
  | [], s => (false, s)
  | t :: ts, s =>
    match tryIssue s t with
    | (true, s) => (true, s)
    | (false, s) => issueFirst ts s

/-! ### Stalls (R471, R472) -/

/-- The instruction at a thread's pc as its instruction cache holds it now, if it does. -/
def nextInstr (s : State) (t : Tid) : Option Instr :=
  match (fetchInstr s t).1 with
  | .ok w w1 => decodeInstr t w w1
  | _ => none

/-- The scalar registers an instruction names. -/
def namedRegs (i : Instr) : List Reg :=
  match amoForm i, decForm i with
  | some f, _ => [f.rd, f.rs1, f.rs2]
  | none, some f => f.regs
  | none, none =>
    match aluForm i, branchForm i, loadForm i, storeForm i with
    | some f, _, _, _ => f.rd :: f.srcs
    | none, some f, _, _ => [f.a, f.b]
    | none, none, some f, _ => [f.r, f.rs1]
    | none, none, none, some f => [f.r, f.rs1]
    | none, none, none, none =>
      match i with
      | .jal _ rd _ => [rd]
      | .jalr _ rd rs1 _ => [rd, rs1]
      | .srRw _ rd rs1 _ => [rd, rs1]
      | .srSet _ rd rs1 _ => [rd, rs1]
      | .srClr _ rd rs1 _ => [rd, rs1]
      | .pegRd _ rd rs1 => [rd, rs1]
      | .pegAdd _ rd a b => [rd, a, b]
      | .pegSet _ rd a b => [rd, a, b]
      | .pegWaitGe _ rd a b => [rd, a, b]
      | .pegWaitEq _ rd a b => [rd, a, b]
      | .pegArrive _ rd a b => [rd, a, b]
      | .gate _ _ => gateRegs
      | .xret _ => [2]
      | .xretG _ => [2]
      | _ => []

/-- Why a held request waits: the 16 misses to its bank (4), or the reserve (5) (R231). -/
def heldCause (s : State) (c : Nat) (h : HeldMiss) : Nat := (missGrant s c h.line).getD 5

/-- Whether an instruction of a thread waits for its release (R45, R49, R54, R366, R369). -/
def waitsRelease (s : State) (t : Tid) (i : Instr) : Bool :=
  (match i with
    | .fenceRel _ => true
    | .fenceAr _ => true
    | .tend _ => true
    | .pegAdd _ _ _ _ => true
    | .pegSet _ _ _ _ => true
    | .pegArrive _ _ _ _ => PegOp.releases s t .arrive
    | _ => (amoForm i).elim false (fun f => f.rl)) && !releaseReady s t

/-- Why a thread does not issue, as a stall cause of the scalar engine (R472): the lowest-numbered cause that holds. R471 names no cause for a paused thread, for a full retire window, for an instruction that waits until an older one has resolved, for a register write that waits until earlier instructions have completed, nor for a level change that waits for older loads: each counts as 1 (DESIGN CHOICE, log 98). -/
def stallOf (s : State) (t : Tid) : Nat :=
  let th := thread s t
  let c := cellOf t
  match th.st with
  | .waiting (.pause _) => 1
  | .waiting (.peg _ _ _ _) => 9
  | .waiting (.arrive _ _ _ _) => 9
  | .waiting (.released _ _) => 9
  | .waiting .fetch => 3
  | .waiting .miss => ((cell s c).held.find? (fun h => decide (h.load.thr.val = thrOf t))).elim 3 (heldCause s c)
  | .waiting .store => 3
  | .waiting .home => (match nextInstr s t with | some i => if waitsRelease s t i then 8 else 3 | none => 3)
  | .waiting .held => 9
  | .idle => 1
  | .halted => 1
  | .ready =>
    match nextInstr s t with
    | none => if shedStops s t then 11 else 1
    | some i =>
      if !regsFree th (namedRegs i) then 1
      else if (match decForm i with | some f => decide (4 ≤ (if f.tile then th.tq else th.vq).length) | none => false) then 2
      else if (loadForm i).isSome && (oldestUnresolved th).isNone && !shedStops s t then 3
      else if waitsRelease s t i then 8
      else if hemWaits th then 9
      else if !divFree (cell s c) i then 10
      else if shedStops s t then 11
      else 1

/-- A cycle with no issue counted (R31, R471, R472): charged to the first thread that is not idle. -/
def noIssue (s : State) (c : Nat) (order : List Tid) : State :=
  let s := perfEvent s c 0x01 none
  match order.find? (fun t => decide ((thread s t).st ≠ .idle)) with
  | some t => perfEvent (perfEvent s c 0x03 (some (thrOf t))) c (stallCode 1 (stallOf s t)) (some (thrOf t))
  | none => perfEvent s c 0x03 none

/-- What an engine of a cell does in a cycle (R472): the cause it counts, and the thread; none where no instruction is with it. Its busy instruction, else the oldest that waits. -/
def unitCause (s : State) (c : Nat) (p : DecEntry → Bool) (busy : Tid → DecEntry → Option Nat) : Option (Nat × Tid) :=
  let es := (tidsOf c).flatMap (fun t => (((thread s t).vq ++ (thread s t).tq).filter (fun e => p e && (!e.resolved || e.runs))).map (fun e => (t, e)))
  match es.find? (fun q => busy q.1 q.2 = some 0) with
  | some q => some (0, q.1)
  | none =>
    match es with
    | [] => none
    | q :: r =>
      let o := r.foldl (fun a b => if b.2.mark < a.2.mark then b else a) q
      some ((busy o.1 o.2).getD 1, o.1)

/-- The vector engine: a load under way is busy, unless its element is held (R231); an upd.* may wait for the hem. -/
def vecCause (s : State) (c : Nat) : Option (Nat × Tid) :=
  unitCause s c (fun e => decide (pipeOf e.instr ≤ 1)) (fun t e =>
    if e.at'.isNone then none
    else match (cell s c).held.find? (fun h => decide (h.kind = .element) && decide (h.load.thr.val = thrOf t)) with
      | some h => some (heldCause s c h)
      | none => if hemWaits (thread s t) then some 9 else some 0)

/-- The tile engine: an instruction under way is busy, unless a request of its waits for a slot: bank-saturated when 16 are to its bank, else waiting on memory (R233). -/
def tileCause (s : State) (c : Nat) : Option (Nat × Tid) :=
  unitCause s c (fun e => decide (pipeOf e.instr = 2) || decide (pipeOf e.instr = 3)) (fun _ e =>
    if e.at'.isNone then none
    else match (cell s c).slots.find? (fun m => m.held && decide (m.mark = e.ask)) with
      | some m => if bankFull s c m.line then some 4 else some 3
      | none => some 0)

/-- The harp: at work unless it is stopped. -/
def harpCause (s : State) (c : Nat) : Option (Nat × Tid) :=
  unitCause s c (fun e => decide (pipeOf e.instr = 4)) (fun _ e => if e.runs && !(cell s c).harpStopped then some 0 else none)

/-- The cause of a region's DMA engine (R472): busy while a channel of its sixteen moves data, 12 while one is pending and none moves. -/
def dmaCause (s : State) (r : Nat) : Option Nat :=
  let chans := (List.range 16).map (· + (64 + 16 * r))
  let runs (k : Nat) : Bool := (tget {} s.dma k).run.isSome
  if chans.any (fun k => runs k && decide (rf s .dmaChctl F.dmaChctlState k = 1)) then some 0
  else if chans.any (fun k => runs k || (decide (rf s .dmaChctl F.dmaChctlEn k = 1) && decide (rf s .dmaPi F.dmaPiPi k ≠ rf s .dmaCi F.dmaCiCi k))) then some 12
  else none

/-- A cycle of a cell counted for its vector, tile and harp engines and its region's DMA engine; the divider counts down (R42, R471–R473). -/
def cycle (s : State) (c : Nat) : State :=
  let count (s : State) (n : Nat) (o : Option (Nat × Tid)) : State :=
    match o with
    | some (k, t) => perfEvent s c (stallCode n k) (some (thrOf t))
    | none => s
  let s1 := count (count (count s 2 (vecCause s c)) 3 (tileCause s c)) 4 (harpCause s c)
  let s1 := (dmaCause s1 (regionOf c)).elim s1 (fun k => perfEvent s1 c (stallCode 5 k) none)
  if (cell s1 c).div = 0 then s1 else modCell s1 c (fun x => { x with div := x.div - 1 })

/-- ISSUE_SELECT (R31, R59): one cycle: one instruction of the first ready thread; a thread that yielded comes after the others. -/
def execIssueSelect (c : Cid) (s : State) : Host.Outcome State Fault Refusal :=
  .next (if (cell s c.val).power ≠ .run || !clocked s c.val then s
    else
      let s := takeLates (wakeHomes (cycle s c.val) c.val) c.val
      let order := issueOrder s c.val
      let first := order.filter (fun t => !(thread s t).yield)
      let last := order.filter (fun t => (thread s t).yield)
      match issueFirst (first ++ last) s with
      | (true, s) => s
      | (false, s) => noIssue s c.val order)

/-! ## Loads, fills and grants -/

/-- An atomic on its way performed at its home, once that and its stack take it (R18, R23, R48, R246, R255). -/
def performAtom (s : State) (c i : Nat) : State :=
  match (cell s c).atomics[i]? with
  | none => s
  | some m =>
    if !homeClocked s m.line then startHome s m.line
    else if !stackServes s c m.line m.no then s
    else
      match amoForm m.instr with
      | none => s
      | some f =>
        let s1 := modThread (modCell s c (fun x => { x with atomics := x.atomics.eraseIdx i })) f.t (fun th => { th with st := .ready })
        orStay s f.t (amoAt s1 f.t f.op (if f.d then 8 else 4) f.rd f.rs1 f.rs2 m.pa f.aq)

/-- LOAD_PERFORMED (R50): the k-th request that a core has outstanding is served by its home: of its miss registers, then its uncached loads, then its tile slots, then its atomics. An access to a region whose PLL is stopped starts it and is held (R23); a stack may let it wait (R246, R255, R257); a device access keeps its thread's order, a load that of its thread's loads of the same bytes (R45, R49). -/
def execLoadPerformed (c : Cid) (k : Nat) (s : State) : Host.Outcome State Fault Refusal :=
  let x := cell s c.val
  let n := x.mshrs.length
  let m := x.loads.length
  let at' (s : State) (l no : Nat) (f : State → State) : State :=
    if !homeClocked s l then startHome s l else if !stackServes s c.val l no then s else f (stackServed s c.val l no)
  .next (if k < n then
      (x.mshrs[k]?).elim s (fun r => if r.served.isSome then s else at' s r.line r.no (fun s => serveMiss s c.val k))
    else if k < n + m then
      (x.loads[k - n]?).elim s (fun l =>
        if l.device then (if deviceWaits s c.val l.thr l.seq then s else performLoad s c.val (k - n))
        else if (x.loads.take (k - n)).any (fun o => decide (o.thr = l.thr) && decide (o.pa < l.pa + l.bytes) && decide (l.pa < o.pa + o.bytes)) then s
        else if !homeClocked s (l.pa / 128) then startHome s (l.pa / 128)
        else takeLates (performLoad s c.val (k - n)) c.val)
    else if k < n + m + x.slots.length then
      (x.slots[k - n - m]?).elim s (fun r => if r.served.isSome || r.held then s else at' s r.line r.no (fun s => serveSlot s c.val (k - n - m)))
    else performAtom s c.val (k - n - m - x.slots.length))

/-- CACHE_FILL (R226, R228–R230): the line of a served miss register arrives, or after them that of a served tile slot, with the parity that the cache will hold of it (R222). -/
def execCacheFill (c : Cid) (k : Fill) (s : State) : Host.Outcome State Fault Refusal :=
  let n := (cell s c.val).mshrs.length
  .next (takeLates (if k.place < n then fillMiss s c.val k.place k.bad else fillSlot s c.val (k.place - n)) c.val)

/-- Whether a held request may go on now: one whose line a register tracks by now merges into it unless that has eight secondary misses (R229), any other needs a register (R230). -/
def mayGrant (s : State) (c : Nat) (h : HeldMiss) : Bool :=
  match (if h.kind = .atomic then none else (cell s c).mshrs.find? (fun m => decide (m.line = h.line))) with
  | some m => decide (m.merged < 8)
  | none => (missGrant s c h.line).isNone

/-- The held request that a core grants next: the one that waited longest of those that may go on. -/
def nextHeld (s : State) (c : Nat) : Option Nat := (cell s c).held.findIdx? (mayGrant s c)

/-- A held request granted (R229–R231): a load and a vector element take a register, or merge into the one that tracks their line by now; an atomic is executed. -/
def grantHeld (s : State) (c i : Nat) : State :=
  match (cell s c).held[i]? with
  | none => s
  | some h =>
    let t := tidOf c h.load.thr.val
    let s0 := s
    let s := modCell s c (fun x => { x with held := x.held.eraseIdx i })
    let into (f : Mshr → Mshr) : State :=
      match (cell s c).mshrs.findIdx? (fun m => decide (m.line = h.line)) with
      | some j => mergeMiss s c j f
      | none => takeMiss s c (f { line := h.line, loads := [] })
    match h.kind with
    | .element => grantElement s0 c i
    | .load =>
      modThread (perfEvent (into (fun m => { m with loads := m.loads ++ [h.load] })) c 0x02 (some (thrOf t))) t (fun th =>
        { th with st := .ready, pc := th.pc + 4, younger := if (oldestUnresolved th).isSome then th.younger + 1 else th.younger, busy := if h.load.rd = 0 then th.busy else setBit th.busy h.load.rd.toNat true })
    | .atomic =>
      let s := modThread s t (fun th => { th with st := .ready })
      ((h.instr.bind (fun i => runInstr i s)).getD s)

/-- MISS_REGISTER_GRANT (R230, R231): a held request goes on. -/
def execMissRegisterGrant (c : Cid) (s : State) : Host.Outcome State Fault Refusal :=
  .next ((nextHeld s c.val).elim s (grantHeld s c.val))

/-- INSTRUCTION_FETCH_RETURN (R53): the line that a waiting thread misses comes from its home into the instruction cache, once that and its stack take the request (R18, R23, R246, R255), and the thread may issue; a fault is the instruction's own, at its issue. -/
def execInstructionFetchReturn (t : Tid) (s : State) : Host.Outcome State Fault Refusal :=
  .next (if (thread s t).st ≠ .waiting .fetch then s
    else
      let c := cellOf t
      match missingLine s t with
      | (some l, s) =>
        if !lineOpen s c l then startLines s [l]
        else
          let (b, s) := coreLine s c l
          modThread (modCell s c (fun x => { x with icache := lruPut 512 (fun o => decide (o.1 = l)) (l, b) x.icache })) t (fun th => { th with st := .ready })
      | (none, s) => modThread s t (fun th => { th with st := .ready }))

/-- PAGE_WALK (R99, R100): a walk in the address space of a thread fills the TLBs; its failure becomes an exception only of an instruction. -/
def execPageWalk (t : Tid) (va : Word) (k : Access) (s : State) : Host.Outcome State Fault Refusal :=
  .next (if (thread s t).level = 2 || decide (bits va 63 48 ≠ 0) then s
    else if xlatHeld s (cellOf t) (ctxOf s t) va k then startLines s (xlatNeeds s (cellOf t) (ctxOf s t) va k)
    else
      match walk s (cellOf t) (thread s t).asid va.toNat with
      | (.ok e, s) => fillTlbs s (cellOf t) k e (useEnt s (ctxOf s t) va k e)
      | (.error _, s) => s)

end Sys2Proof.Machine
end

