-- ==== Sys2Proof/Machine/Lining.lean ====
section
/-! DEFINITION. The lining engines (R260–R289): dispatch of tasks, chunks and their translations, every task kind, programs, completion, faults and spares. -/

namespace Sys2Proof.Machine

/-! ## Parameter blocks -/

/-- A little-endian field of a block. -/
def pw' (bs : List Byte) (o n : Nat) : Nat := ofLE ((bs.drop o).take n)

/-- PROGRAM (R278): the code's address and length, and each range's mode and element width. -/
def pgCode (p : List Byte) : Nat := pw' p 24 8
def pgLen (p : List Byte) : Nat := pw' p 32 4
def pgRead (p : List Byte) (i : Nat) : Bool := (pw' p 36 1).testBit (2 * i)
def pgWrite (p : List Byte) (i : Nat) : Bool := (pw' p 36 1).testBit (2 * i + 1)
def pgWidth (p : List Byte) (i : Nat) : Nat := 2 ^ ((pw' p 37 1 >>> (2 * i)) % 4)

/-- ORDSUM (R332). -/
def osFirst (p : List Byte) : Nat := pw' p 0 4
def osCount (p : List Byte) : Nat := pw' p 4 4
def osStart (p : List Byte) : Bool := (pw' p 8 1).testBit 0
def osFinal (p : List Byte) : Bool := (pw' p 8 1).testBit 1
def osK (p : List Byte) : Nat := pw' p 16 4

/-- BOW (R282). -/
def bowCols (p : List Byte) : Nat := pw' p 4 4
def bowB (p : List Byte) : Nat := pw' p 8 1
def bowFw (p : List Byte) : Nat := pw' p 9 1 % 16
def bowFx (p : List Byte) : Nat := pw' p 9 1 / 16
def bowFy (p : List Byte) : Nat := pw' p 10 1 % 16
def bowBlk (p : List Byte) : Bool := (pw' p 10 1).testBit 4
def bowStride (p : List Byte) : Nat := pw' p 16 8

/-- FMT of SUMSQ, STAT and BLKMAX (R267). -/
def lnFmt (p : List Byte) : Nat := pw' p 0 1 % 16

/-- The parameter block of an UPDATE task (R304). -/
def lnUpd (p : List Byte) : Option UpdBlk := parseUpd p (decide (pw' p 12 1 / 64 = 1))

/-! ## Dispatch (R264, R269) -/

/-- The addresses that a kind does not use (R267). -/
def ldUnused (ws : List Word) (p : List Byte) : List Nat :=
  match ldKind ws with
  | 1 => []
  | 2 => (List.range 4).filter (fun i => !pgRead p i && !pgWrite p i)
  | 3 => []
  | 6 => [2, 3]
  | 8 => if bowBlk p then [] else [3]
  | _ => [1, 2, 3]

/-- Whether a kind's parameters lie outside their limits (R269). -/
def ldParamBad (s : State) (ws : List Word) (p : List Byte) (sp : Bool) : Bool :=
  match ldKind ws with
  | 1 =>
    match lnUpd p with
    | none => true
    | some b => sp || decide (b.opt = 3) || decide ((ldA ws 3 = 0) ↔ (b.opt = 1)) || (b.hemgf && !hemUpdating s)
  | 2 => decide (pgCode p % 4 ≠ 0) || decide (pgLen p < 4) || decide (65536 < pgLen p) || decide (pgLen p % 4 ≠ 0)
  | 3 => decide (osCount p = 0) || decide (osK p < osFirst p + osCount p) || decide (pw' p 9 7 ≠ 0) || decide (pw' p 20 44 ≠ 0)
  | 7 => false
  | 8 => decide (pw' p 0 4 ≠ ldN ws) || decide (bowCols p = 0) || decide (65536 < bowCols p) || decide (bowB p = 0) || decide (8 < bowB p)
      || decide (32768 < bowB p * bowCols p) || decide (0xA < bowFw p) || !([0, 1, 2, 3, 4, 8].contains (bowFx p))
      || !([0, 1, 2].contains (bowFy p)) || (bowBlk p && !isMx (bowFw p)) || decide (bowStride p < rowBytes (bowCols p) (bowFw p))
  | _ => !([0, 1, 2, 3, 4].contains (lnFmt p))

/-- Whether a descriptor is malformed apart from its parameter block (R266, R267, R269). -/
def ldHeadBad (ws : List Word) (own : Bool) : Bool :=
  let k := ldKind ws
  decide (k = 0) || decide (8 < k) || (ldDig ws && decide (k ≠ 2)) || bit (dw ws 0) 15 || decide (bits (dw ws 1) 63 54 ≠ 0)
    || decide (ldN ws = 0) || (List.range 4).any (fun i => decide (2 ^ 48 ≤ ldA ws i))
    || (!own && (if k = 7 then decide (ldParam ws ≠ 0) else decide (ldParam ws = 0) || decide (ldParam ws % 64 ≠ 0) || !inHbm (ldParam ws)))

/-- How a task translates (R91, R93, R268): at S, with its own SPEC and EPOCH; UPDATE reads current frames and writes draft frames (R267). -/
def lnCtx (tk : LTask) (wr : Bool) : XCtx :=
  let upd := decide (ldKind tk.words = 1)
  { asid := ldAsid tk.words, level := 1, spec := if upd then wr else tk.spec, epoch := tk.epoch, upd := upd && wr }

/-- The bytes of a chunking element (R270): of A1 for ORDSUM, else of A0. -/
def chunkWidth (ws : List Word) (p : List Byte) : Nat :=
  match ldKind ws with
  | 1 => match lnUpd p with | some b => fmtBits b.fp / 8 | none => 1
  | 2 => pgWidth p 0
  | 3 => 4
  | 7 => 1
  | _ => fmtBits (lnFmt p) / 8

/-- The first address of the chunking range. -/
def chunkBase (ws : List Word) : Nat := if ldKind ws = 3 then ldA ws 1 else ldA ws 0

/-- Elements of chunk 0, if there were no end (R270). -/
def chunk0 (ws : List Word) (p : List Byte) : Nat :=
  if ldKind ws = 8 then 64 else max 1 ((65536 - chunkBase ws % 65536) / chunkWidth ws p)

/-- Elements of every other full chunk. -/
def chunkFull (ws : List Word) (p : List Byte) : Nat := if ldKind ws = 8 then 64 else max 1 (65536 / chunkWidth ws p)

/-- Chunks of a task (R270). -/
def chunkTotal (ws : List Word) (p : List Byte) : Nat :=
  let n := ldN ws
  let a := chunk0 ws p
  if n ≤ a then 1 else 1 + (n - a + chunkFull ws p - 1) / chunkFull ws p

/-- The first element of chunk c. -/
def chunkFirst (ws : List Word) (p : List Byte) (c : Nat) : Nat := if c = 0 then 0 else chunk0 ws p + (c - 1) * chunkFull ws p

/-- The element count of chunk c. -/
def chunkCount (ws : List Word) (p : List Byte) (c : Nat) : Nat :=
  min (if c = 0 then chunk0 ws p else chunkFull ws p) (ldN ws - chunkFirst ws p c)

/-- A status given to a task; the first one stays, and ELEM names the lowest failing chunk (R285). A discarded task stays so (R287). -/
def lnStop (tk : LTask) (code : Nat) (c : Nat) (addr : Word) : LTask :=
  if tk.code = 8 then tk else
  match tk.failAt with
  | some f => if c < f then { tk with code := code, failAt := some c, addr := addr } else tk
  | none => { tk with code := code, failAt := some c, addr := addr }

/-- ADDR of a fault (R275): the address with DETAIL in bits [63:56]. -/
def faultAddr (e : Exc) : Word := setBits e.val 63 56 e.detail

/-- The stack of a line. -/
def lineStack (s : State) (l : Nat) : Nat := (hbmPlace s.ms.gran (lineBase l)).stack

/-- An engine line charged to P1 (R255, R262); what the bucket does not hold has been waited for within the chunk (log 11). -/
def chargeEng (s : State) (k : Nat) : State := drawTokens s k Activity.lining.part

/-- The kind of an engine's access. -/
def engAccess (wr : Bool) : Access := if wr then .store else .load

/-- The 64-KiB page that a translation gives for an access to an address in it (R268): its physical base, or the status with its ADDR. -/
def entPage (s : State) (k : Nat) (x : XCtx) (wr : Bool) (a : Nat) (e : TlbEnt) : Except (Nat × Word) Nat :=
  if e.size < 16 then .error (2, wd a)
  else
    match useEnt s x (wd a) (engAccess wr) e with
    | .error f => .error (1, faultAddr f)
    | .ok pa =>
      let base := pa - a % 65536
      if (List.range 16).all (fun i => inHbm (base + 4096 * i) && decide (lineStack s ((base + 4096 * i) / 128) = k)) then .ok base else .error (2, wd a)

/-- A 64-KiB page translated by the stack's walker (R268), whose reads are charged to P1 (R262): its base with the TLB entry, or the status with its ADDR. -/
def mapPage (s : State) (k : Nat) (x : XCtx) (wr : Bool) (a : Nat) : Except (Nat × Word) (Nat × TlbEnt) × State :=
  match findEnt s (stackCore k) x.asid (wd a) (engAccess wr) with
  | (.error (r, l), s) => (.error (1, faultAddr (xlatFault (engAccess wr) r l (wd a))), s)
  | (.ok (e, walked), s) =>
    let s := if walked then fillTlbs s (stackCore k) (engAccess wr) e (useEnt s x (wd a) (engAccess wr) e) else s
    match entPage s k x wr a e with
    | .error r => (.error r, s)
    | .ok b => (.ok (b, e), s)

/-! ## Engine accesses to the DRAM (R221, R284) -/

/-- Marked bytes read from the DRAM. -/
def engRead (s : State) (ps : List (Nat × Nat)) : List (Byte × Bool) × State :=
  ps.foldl (fun (a : List (Byte × Bool) × State) p =>
    (cutLines p.1 (List.replicate p.2 0)).foldl (fun (a : List (Byte × Bool) × State) c =>
      let (x, s) := dramLine (chargeEng a.2 (lineStack a.2 c.1)) c.1
      let n := c.2.2.length
      (a.1 ++ (lineBytes x c.2.1 n).zip (lineMarks x c.2.1 n), s)) a) ([], s)

/-- Marked bytes written to the DRAM within one line, word by word. -/
def engWriteLine (s : State) (l off : Nat) (bs : List (Byte × Bool)) : State :=
  let s := chargeEng s (lineStack s l)
  let (x, s) := if bs.length = 128 then (({} : Line), s) else dramLine s l
  let x := (cutWords (bs.length / 8 + 2) off bs).foldl (fun x p => overlay x p.1 p.2.1 p.2.2) x
  dramStore s l off bs.length x

/-- Marked bytes written to the DRAM. -/
def engWritePiece (s : State) (pa : Nat) (bs : List (Byte × Bool)) : State :=
  ((cutLines pa (bs.map (fun b => b.1))).foldl (fun (a : State × List (Byte × Bool)) c =>
    (engWriteLine a.1 c.1 c.2.1 (a.2.take c.2.2.length), a.2.drop c.2.2.length)) (s, bs)).1

/-- Marked bytes laid over pieces. -/
def engWrite : List (Nat × Nat) → List (Byte × Bool) → State → State
  | [], _, s => s
  | (pa, n) :: t, bs, s => engWrite t (bs.drop n) (if bs.isEmpty then s else engWritePiece s pa (bs.take n))

/-- The dirty lines of a stack's region cache written back before a task of the stack starts (R221), charged to P1 (R262). Those outside the task's ranges go too: a region cache may write a line back at any time (log 10). -/
def writeBackStack (s : State) (k : Nat) : State :=
  (s.ms.rc.filter (fun p => decide (lineStack s p.1 = k))).foldl (fun s p => writeBack (chargeEng s k) p.1) s

/-- A program's code as an engine copies it, page by page of its own stack (R262, R278): marked bytes, or the status with its ADDR. -/
def codeRead (k : Nat) (x : XCtx) : Nat → Nat → Nat → State → Except (Nat × Word) (List (Byte × Bool)) × State
  | 0, _, _, s => (.ok [], s)
  | f + 1, va, n, s =>
    if n = 0 then (.ok [], s)
    else
      match mapPage s k x false va with
      | (.error e, s) => (.error e, s)
      | (.ok (pa, _), s) =>
        let m := min n (65536 - va % 65536)
        let (l, s) := engRead s [(pa + va % 65536, m)]
        match codeRead k x f (va + m) (n - m) s with
        | (.error e, s) => (.error e, s)
        | (.ok r, s) => (.ok (l ++ r), s)

/-- A task made active (R264): its stack's region cache is written back (R221), a program's code is copied into the store; the EPOCH bit is latched (R93). -/
def lnActivate (s : State) (k : Nat) (e : LEnt) (ws : List Word) (p : List Byte) : State :=
  let tk : LTask := {
    desc := e.desc, words := ws, param := p, spec := e.spec || ldSpec ws, epoch := hemEpoch s (ldAsid ws),
    bucket := e.own.map (fun o => o.2.2), total := chunkTotal ws p }
  let s := writeBackStack s k
  let (tk, s) :=
    if ldKind ws ≠ 2 then (tk, s)
    else
      match codeRead k (lnCtx tk false) 3 (pgCode p) (pgLen p) s with
      | (.error (code, a), s) => (lnStop tk code 0 a, s)
      | (.ok l, s) => ({ tk with prog := l.map (fun b => b.1), met := l.any (fun b => b.2) }, s)
  modLstack s k (fun x => { x with active := tins x.next tk x.active, next := x.next + 1 })

/-- The head of a stack's queue leaves it. -/
def lnPop (s : State) (k : Nat) : State := modLstack s k (fun x => ladmit { x with queue := x.queue.drop 1 })

/-- The end of a pass of the collective engine's own port (R334): counted and recorded as any task's (R289, R456), and the engine is told. -/
def ownEnd (s : State) (k desc key code elem : Nat) (nonfin : Bool) (res0 : Word) (wclip : Nat) : State :=
  let s := if code = 0 then s else report s (liningErr k desc code elem)
  passEnd (bumpRf s .liningQstat F.liningQstatDone 1 k) key code nonfin res0 wclip

/-- A head that is malformed ends at once (R269): a pass of the collective engine's own tells it. -/
def lnMalformed (s : State) (k : Nat) (e : LEnt) (ws : List Word) : State :=
  match e.own with
  | some o => ownEnd s k e.desc o.2.2 3 0 false 0 0
  | none => liningEnd s k e.desc ws 3 0 (bareRecord 3 0) 0

/-- Whether an address-space entry is invalid (R84, R269), as the stack's walker reads it; a poisoned one is a fault of the first translation (R87). -/
def spaceBad (s : State) (k : Nat) (asid : BitVec 6) : Bool × State :=
  match asEntry s (stackCore k) asid with
  | (.ok _, s) => (false, s)
  | (.error r, s) => (decide (r ≠ 6), s)

/-- LINING_TASK_DISPATCH (R264, R265, R269): the oldest push is read, checked and made active. -/
def execLiningTaskDispatch (k : Fin 12) (s : State) : Host.Outcome State Fault Refusal :=
  let x := lstack s k.val
  .next (match x.queue with
    | [] => s
    | e :: _ =>
      let ((ws, bad), s1) := match e.own with
        | some o => ((o.1, false), s)
        | none => readWords8 s Activity.lining.part e.desc
      if decide (8 ≤ x.active.length) || (ldOrder ws && !x.active.isEmpty) then s
      else
        let head := bad || ldHeadBad ws e.own.isSome
        let (space, s1) := if head then (false, s1) else spaceBad s1 k.val (ldAsid ws)
        if head || space then lnMalformed (lnPop s1 k.val) k.val e ws
        else
          let ((p, pbad), s2) := match e.own with
            | some o => ((o.2.1, none), s1)
            | none => if ldKind ws = 7 then (([], none), s1) else homeRead (accessDraws s1 Activity.lining.part (ldParam ws) 64) (ldParam ws) 64
          if pbad.isSome || ldParamBad s2 ws p (e.spec || ldSpec ws) || (ldUnused ws p).any (fun i => decide (ldA ws i ≠ 0 ∧ ldKind ws ≠ 1)) then
            lnMalformed (lnPop s2 k.val) k.val e ws
          else lnActivate (lnPop s2 k.val) k.val e ws p)

/-! ## Ranges and translations (R268, R271) -/

/-- A chunk's part of a range: its key, address, bytes, element width, and whether it is read and written. -/
structure LRange where
  key : Nat
  va : Nat
  n : Nat
  width : Nat
  rd : Bool
  wr : Bool

/-- The part of range i for elements of a width. -/
def partOf (ws : List Word) (i w first cnt : Nat) (rd wr : Bool) : LRange :=
  { key := i, va := ldA ws i + first * w, n := cnt * w, width := w, rd := rd, wr := wr }

/-- The blocks of 256 that begin in a chunk (R280). -/
def blocksOf (first cnt : Nat) : Nat × Nat := ((first + 255) / 256, (first + cnt + 255) / 256)

/-- The elements that a BLKMAX chunk reads: every block that begins in it, whole. -/
def blkSpan (ws : List Word) (first cnt : Nat) : Nat × Nat :=
  let (a, b) := blocksOf first cnt
  (256 * a, min (256 * b) (ldN ws) - 256 * a)

/-- The ranges of a chunk (R267, R270, R304, R332, R282). -/
def chunkRanges (tk : LTask) (c : Nat) : List LRange :=
  let ws := tk.words
  let p := tk.param
  let f := chunkFirst ws p c
  let n := chunkCount ws p c
  match ldKind ws with
  | 1 =>
    match lnUpd p with
    | none => []
    | some b =>
      [partOf ws 0 (fmtBits b.fp / 8) f n true true, partOf ws 1 (fmtBits b.fg / 8) f n true false, partOf ws 2 (fmtBits b.fm / 8) f n true true]
        ++ (if b.opt = 1 then [partOf ws 3 (fmtBits b.fv / 8) f n true true] else [])
        ++ (if b.frozen = 0 then [] else
          [{ key := 4, va := b.frozen.toNat + f / 8, n := (f + n + 7) / 8 - f / 8, width := 1, rd := true, wr := false }])
  | 2 => ((List.range 4).filter (fun i => pgRead p i || pgWrite p i)).map (fun i => partOf ws i (pgWidth p i) f n (pgRead p i) (pgWrite p i))
  | 3 =>
    (List.range (osCount p)).map (fun j => { key := 8 + osFirst p + j, va := ldA ws 0 + (osFirst p + j) * ldN ws + f, n := n, width := 1, rd := true, wr := false })
      ++ [{ key := 1, va := ldA ws 1 + 4 * f, n := 4 * n, width := 4, rd := !osStart p, wr := true },
          { key := 2, va := ldA ws 2 + f / 256, n := (f + n + 255) / 256 - f / 256, width := 1, rd := true, wr := false }]
      ++ (if osFinal p then [partOf ws 3 1 f n false true] else [])
  | 6 =>
    let w := fmtBits (lnFmt p) / 8
    let (bf, bn) := blkSpan ws f n
    let (a, b) := blocksOf f n
    [partOf ws 0 w bf bn true false, { key := 1, va := ldA ws 1 + 4 * a, n := 4 * (b - a), width := 4, rd := false, wr := true }]
  | 7 => [partOf ws 0 1 f n true false]
  | 8 =>
    let rb := rowBytes (bowCols p) (bowFw p)
    let xb := rowBytes (bowCols p) (bowFx p)
    let yw := fmtBits (bowFy p) / 8
    let sb := (bowCols p + 31) / 32
    (List.range n).map (fun r =>
      { key := 100 + r, va := ldA ws 0 + (f + r) * bowStride p, n := rb, width := max 1 (fmtBits (bowFw p) / 8), rd := true, wr := false }) ++
    [{ key := 1, va := ldA ws 1, n := bowB p * xb, width := fmtBits (bowFx p) / 8, rd := true, wr := false }]
      ++ (List.range (bowB p)).map (fun j => { key := 8 + j, va := ldA ws 2 + (j * ldN ws + f) * yw, n := n * yw, width := yw, rd := false, wr := true })
      ++ (if bowBlk p then [{ key := 3, va := ldA ws 3 + f * sb, n := n * sb, width := 1, rd := true, wr := false }] else [])
  | _ => [partOf ws 0 (fmtBits (lnFmt p) / 8) f n true false]

/-- A chunk's translations so far: the pages, their entries, or why it failed. -/
structure LMap where
  s : State
  maps : List (Nat × Nat × Nat) := []
  ents : List TlbEnt := []
  err : Option (Nat × Word) := none

/-- How phase 1 translates (R271): a program's written ranges as an update operation writes them, to the draft frames, since each of its stores is checked on its own (R276, R278) and no other store of it reaches a paired page (R92). -/
def mapCtx (tk : LTask) (wr : Bool) : XCtx := if ldKind tk.words = 2 then { lnCtx tk wr with upd := wr, spec := wr || tk.spec } else lnCtx tk wr

/-- The pages of a range translated for one kind of access: key 2 × range + (1 when written). -/
def mapRange (k : Nat) (tk : LTask) (r : LRange) (wr : Bool) (m : LMap) : LMap :=
  if r.n = 0 then m
  else
    (List.range ((r.va + r.n - 1) / 65536 - r.va / 65536 + 1)).foldl (fun (m : LMap) i =>
      if m.err.isSome then m
      else
        match mapPage m.s k (mapCtx tk wr) wr (max r.va (65536 * (r.va / 65536 + i))) with
        | (.error e, s) => { m with s := s, err := some e }
        | (.ok (pa, e), s) => { m with s := s, maps := m.maps ++ [(2 * r.key + wr.toNat, r.va / 65536 + i, pa)], ents := m.ents ++ [e] }) m

/-- Phase 1 of a chunk (R271): every range; an element address that is no multiple of its width gives RANGE (R268). -/
def mapChunk (s : State) (k : Nat) (tk : LTask) (c : Nat) : LMap :=
  (chunkRanges tk c).foldl (fun (m : LMap) r =>
    if m.err.isSome then m
    else if r.va % r.width ≠ 0 then { m with err := some (2, wd r.va) }
    else
      let m := if r.rd then mapRange k tk r false m else m
      if r.wr then mapRange k tk r true m else m) ({ s := s } : LMap)

/-- The physical pieces of a span under a key. -/
def piecesFrom (maps : List (Nat × Nat × Nat)) (key : Nat) : Nat → Nat → Nat → List (Nat × Nat)
  | 0, _, _ => []
  | f + 1, va, n =>
    if n = 0 then []
    else
      let m := min n (65536 - va % 65536)
      match maps.find? (fun p => decide (p.1 = key) && decide (p.2.1 = va / 65536)) with
      | some p => (p.2.2 + va % 65536, m) :: piecesFrom maps key f (va + m) (n - m)
      | none => []

/-- The pieces of a whole span. -/
def piecesOf (maps : List (Nat × Nat × Nat)) (key va n : Nat) : List (Nat × Nat) := piecesFrom maps key (n / 65536 + 2) va n

/-- Elements of a width, each with whether any of its bytes is poisoned. -/
def elemsOf (w : Nat) (bs : List (Byte × Bool)) : List (Nat × Bool) :=
  (List.range (bs.length / w)).map (fun i =>
    let b := (bs.drop (i * w)).take w
    (ofLE (b.map (fun p => p.1)), b.any (fun p => p.2)))

/-- Marked bytes of elements of a width. -/
def bytesOf (w : Nat) (es : List (Nat × Bool)) : List (Byte × Bool) := (es.map (fun e => (leBytes e.1 w).map (fun b => (b, e.2)))).flatten

/-! ## Chunk results -/

/-- What a chunk leaves: its writes as (key, virtual address, marked bytes), its result, flags, marks. -/
structure LOut where
  writes : List (Nat × Nat × List (Byte × Bool)) := []
  /-- Spans whose fold enters DIGEST without a write: (virtual address, marked bytes). -/
  folds : List (Nat × List (Byte × Bool)) := []
  res : Option LRes := none
  flags : Nat := 0
  nonfin : Bool := false
  met : Bool := false
  wclip : Nat := 0

/-- A triple's codes in FP64. -/
def c64 (v : FV) : Word := wd (fenc f64 rne false v).1

/-- One fused step of a sum of squares in FP64 (R272). -/
def sumSqStep (a : Fl FV) (v : FV) : Fl FV := let (x, fl) := stepF f64 (FV.fma v v a.1) a.2; (x, fl)

/-- The sum of squares of a chunk in the fixed order (R272), from +0 in every lane. -/
def sumSqChunk (vs : List FV) : Fl FV :=
  (reduce 32 (vs.map some) (fun v => sumSqStep (.fin false 0 0, 0) v) sumSqStep
    (fun a b => let (x, fl) := stepF f64 (FV.add a.1 b.1) (a.2 ||| b.2); (x, fl))).getD (.fin false 0 0, 0)

/-- The statistics of a chunk in the fixed order (R272). -/
def statChunk (vs : List FV) : Triple :=
  (reduce 32 (vs.map some) (welford f64 zeroTriple) (welford f64) (statMerge f64)).getD zeroTriple

/-- Values of a reduction: a poisoned element is a NaN (R284). -/
def redVals (fmt : Nat) (es : List (Nat × Bool)) : List FV := es.map (fun e => if e.2 then .nan false else edec fmt e.1)

/-- Whether a value is not finite. -/
def notFin (v : FV) : Bool := !v.isFin

/-- The block maximum of some values (R280). -/
def blkMax (vs : List FV) : FV := if vs.any FV.isNan then .nan false else amaxOf vs

/-- An ORDSUM contribution decoded into FP32 (R279). -/
def ordDec (scale b : Nat) : Fl FV :=
  let v := w8Dec scale b
  let (x, fl) := fround f32 rne v
  if v.isFin && !x.isFin then (x, fSCALE) else (x, fl)

/-- What chunk reads hold. -/
abbrev LGet := Nat → List (Byte × Bool)

/-- An UPDATE chunk (R276, R304–R306, R284). -/
def updChunk (s : State) (tk : LTask) (rs : List LRange) (get : LGet) (first n : Nat) : LOut :=
  match lnUpd tk.param with
  | none => {}
  | some b =>
    let c := updConst b
    let gf := updGf s b
    let col (i f : Nat) : List (Nat × Bool) := elemsOf (fmtBits f / 8) (get i)
    let ps := col 0 b.fp
    let gs := col 1 b.fg
    let ms := col 2 b.fm
    let vs := if b.opt = 1 then col 3 b.fv else []
    let bm := get 4
    let z : Nat × Bool := (0, false)
    let out := (List.range n).map (fun j =>
      let i := first + j
      let fb : Byte × Bool := bm.getD (i / 8 - first / 8) (0, false)
      let (p, g, m, v) := (ps.getD j z, gs.getD j z, ms.getD j z, vs.getD j z)
      let bad := p.2 || g.2 || m.2 || v.2 || fb.2
      let o : UpdOut := if decide (b.frozen ≠ 0) && bit fb.1 (i % 8) then { p := p.1, m := m.1, v := v.1, fl := 0, nonfin := false }
        else updElem b.opt b c gf b.seed b.stream (ldStep tk.words) (wd i) p.1 g.1 m.1 v.1
      (o, bad))
    let at' (k : Nat) : Nat := ((rs.find? (fun r => decide (r.key = k))).map (fun r => r.va)).getD 0
    { writes := [(0, at' 0, bytesOf (fmtBits b.fp / 8) (out.map (fun o => (o.1.p, o.2)))),
                 (2, at' 2, bytesOf (fmtBits b.fm / 8) (out.map (fun o => (o.1.m, o.2))))]
        ++ (if b.opt = 1 then [(3, at' 3, bytesOf (fmtBits b.fv / 8) (out.map (fun o => (o.1.v, o.2))))] else []),
      flags := out.foldl (fun a o => a ||| o.1.fl) 0,
      nonfin := out.any (fun o => o.1.nonfin || o.2), met := out.any (fun o => o.2) }

/-- An ORDSUM chunk (R279, R331, R332). -/
def ordChunk (tk : LTask) (get : LGet) (first n : Nat) : LOut :=
  let p := tk.param
  let ws := tk.words
  let sc := get 2
  let acc0 := elemsOf 4 (get 1)
  let slots := (List.range (osCount p)).map (fun j => get (8 + osFirst p + j))
  let els := (List.range n).map (fun i =>
    let s : Byte × Bool := sc.getD ((first + i) / 256 - first / 256) (0, false)
    let a0 : (Fl FV) × Bool := if osStart p then ((.fin false 0 0, 0), false) else let e := acc0.getD i (0, false); ((fdec f32 e.1, 0), e.2)
    let r := slots.foldl (fun (a : (Fl FV) × Bool) sl =>
      let b : Byte × Bool := sl.getD i (0, false)
      let d := ordDec s.1.toNat b.1.toNat
      let (x, fl) := stepF f32 (FV.add a.1.1 d.1) (a.1.2 ||| d.2)
      ((x, fl), a.2 || b.2)) a0
    let (code, clip, _) := w8Enc s.1.toNat r.1.1
    let ef := if r.1.1.isFin then (match e8m0 s.1.toNat with | some x => (fenc fe4m3 rne true (r.1.1.scale (-x))).2 | none => 0) else 0
    ((r.1.1, r.1.2 ||| (if osFinal p then ef else 0), code, clip, w8Dec s.1.toNat code), r.2 || s.2))
  let vals := els.map (fun e => if e.2 then FV.nan false else e.1.2.2.2.2)
  let sq := sumSqChunk vals
  { writes := [(1, ldA ws 1 + 4 * first, bytesOf 4 (els.map (fun e => ((fenc f32 rne false e.1.1).1, e.2))))]
      ++ (if osFinal p then [(3, ldA ws 3 + first, bytesOf 1 (els.map (fun e => (e.1.2.2.1, e.2))))] else []),
    res := if osFinal p then some { a := c64 sq.1 } else none,
    flags := els.foldl (fun a e => a ||| e.1.2.1) (if osFinal p then sq.2 else 0),
    nonfin := els.any (fun e => notFin e.1.1 || e.2) || (osFinal p && vals.any notFin),
    met := els.any (fun e => e.2), wclip := if osFinal p then (els.filter (fun e => e.1.2.2.2.1)).length else 0 }

/-- A BLKMAX chunk (R280): the maxima of the blocks that begin in it. -/
def maxChunk (tk : LTask) (get : LGet) (first n : Nat) : LOut :=
  let fm := lnFmt tk.param
  let es := elemsOf (fmtBits fm / 8) (get 0)
  let (a, b) := blocksOf first n
  let ms := (List.range (b - a)).map (fun j =>
    let blk := (es.drop (256 * j)).take 256
    (blkMax (redVals fm blk), blk.any (fun e => e.2)))
  { writes := [(1, ldA tk.words 1 + 4 * a, bytesOf 4 (ms.map (fun m => ((fenc f32 rne false m.1).1, m.2))))],
    nonfin := ms.any (fun m => notFin m.1), met := ms.any (fun m => m.2) }

/-- An element of a packed row of a format: its value, its code, whether it is poisoned. -/
def packedEl (fm : Nat) (row : List (Byte × Bool)) (i : Nat) : Nat × Bool :=
  let w := fmtBits fm
  let lo := i * w / 8
  let b := (row.drop lo).take ((i * w + w + 7) / 8 - lo)
  ((ofLE (b.map (fun p => p.1)) >>> (i * w % 8)) % 2 ^ w, b.any (fun p => p.2))

/-- One row of W against one vector (R282): the sum and its flags. -/
def bowDot (p : List Byte) (w : Nat → List FV × Bool) (x : Nat → List FV × Bool) : (Fl FV) × Bool :=
  let cols := bowCols p
  (List.range ((cols + 7) / 8)).foldl (fun (a : (Fl FV) × Bool) s =>
    let ks := (List.range 8).map (fun j => 8 * s + j) |>.filter (fun k => decide (k < cols))
    let t := fvSum (ks.map (fun k => (w k).1.map (fun u => (x k).1.map (fun v => mxProduct u v)))).flatten.flatten
    let (v, fl) := stepF f32 (FV.add a.1.1 t.1) (a.1.2 ||| t.2)
    ((v, fl), a.2 || ks.any (fun k => (w k).2 || (x k).2))) ((.fin false 0 0, 0), false)

/-- A BOW chunk (R282): a band of rows. -/
def bowChunk (tk : LTask) (get : LGet) (first n : Nat) : LOut :=
  let p := tk.param
  let ws := tk.words
  let fw := bowFw p
  let fx := bowFx p
  let fy := bowFy p
  let yw := fmtBits fy / 8
  let xb := rowBytes (bowCols p) fx
  let sb := (bowCols p + 31) / 32
  let wEl (r k : Nat) : List FV × Bool :=
    let e := packedEl fw (get (100 + r)) k
    let s : Byte × Bool := if bowBlk p then (get 3).getD (r * sb + k / 32) (0, false) else (0, false)
    (if bowBlk p then [mxDec fw e.1 s.1.toNat] else mxTerms fw e.1 (edec fw e.1), e.2 || s.2)
  let xEl (j k : Nat) : List FV × Bool :=
    let e := packedEl fx ((get 1).drop (j * xb)) k
    (mxTerms fx e.1 (edec fx e.1), e.2)
  let ys := (List.range (bowB p)).map (fun j => (List.range n).map (fun r =>
    let d := bowDot p (wEl r) (xEl j)
    let (c, fl) := eenc fy false rne false d.1.1
    (posZero fy c, d.1.2 ||| fl, d.2)))
  { writes := (List.range (bowB p)).map (fun j =>
      (8 + j, ldA ws 2 + (j * ldN ws + first) * yw, bytesOf yw ((ys.getD j []).map (fun y => (y.1, y.2.2))))),
    flags := ys.flatten.foldl (fun a y => a ||| y.2.1) 0,
    nonfin := ys.flatten.any (fun y => notFin (edec fy y.1)), met := ys.flatten.any (fun y => y.2.2) }

/-- What a chunk of any kind but PROGRAM computes from what it has read. -/
def chunkOut (s : State) (tk : LTask) (c : Nat) (get : LGet) : LOut :=
  let ws := tk.words
  let f := chunkFirst ws tk.param c
  let n := chunkCount ws tk.param c
  let fm := lnFmt tk.param
  match ldKind ws with
  | 1 => updChunk s tk (chunkRanges tk c) get f n
  | 3 => ordChunk tk get f n
  | 4 =>
    let vs := redVals fm (elemsOf (fmtBits fm / 8) (get 0))
    let r := sumSqChunk vs
    { res := some { a := c64 r.1 }, flags := r.2, nonfin := vs.any notFin, met := (get 0).any (fun b => b.2) }
  | 5 =>
    let vs := redVals fm (elemsOf (fmtBits fm / 8) (get 0))
    let t := statChunk vs
    { res := some { a := c64 t.n, b := c64 t.m, c := c64 t.q }, flags := t.fl, nonfin := vs.any notFin, met := (get 0).any (fun b => b.2) }
  | 6 => maxChunk tk get f n
  | 7 => { folds := [(ldA ws 0 + f, get 0)], met := (get 0).any (fun b => b.2) }
  | 8 => bowChunk tk get f n
  | _ => {}

/-! ## Programs (R263, R277, R278) -/

/-- A program's chunk as it runs. -/
structure PRun where
  s : State
  th : Thread
  bad : Bool := false
  nonfin : Bool := false
  /-- Ended: none while it runs, some none at `tend`, some of the status and ADDR otherwise. -/
  fin : Option (Option (Nat × Word)) := none
  /-- A wait for the hem (R307). -/
  wait : Bool := false

/-- The key of a running chunk. -/
def runKey (e th : Nat) : Nat := 4 * e + th

/-- A running chunk changed. -/
def modLrun (s : State) (k key : Nat) (f : LRun → LRun) : State :=
  modLstack s k (fun x => match tget? x.runs key with | some r => { x with runs := tins key (f r) x.runs } | none => x)

/-- The writes that a program's chunk has staged (R271). -/
def staged (s : State) (k key : Nat) : List (Nat × List (Byte × Bool)) := ((tget? (lstack s k).runs key).map (fun r => r.stores)).getD []

/-- Bytes as a chunk sees them that has staged writes over them: the newest wins. -/
def overStaged (st : List (Nat × List (Byte × Bool))) (pa : Nat) (bs : List (Byte × Bool)) : List (Byte × Bool) :=
  (List.range bs.length).map (fun i =>
    match st.reverse.find? (fun p => decide (p.1 ≤ pa + i) && decide (pa + i < p.1 + p.2.length)) with
    | some p => p.2.getD (pa + i - p.1) (0, false)
    | none => bs.getD i (0, false))

/-- A program's read. -/
def progRead (k key : Nat) (s : State) (pa n : Nat) : List (Byte × Bool) × State :=
  let st := staged s k key
  let (l, s) := engRead s [(pa, n)]
  (overStaged st pa l, s)

/-- The translation that phase 1 made for an address of a running chunk's ranges (R271). -/
def phaseEnt (s : State) (k key a : Nat) : Option TlbEnt :=
  (tget? (lstack s k).runs key).bind (fun r => ((r.maps.zip r.ents).find? (fun q => decide (q.1.2.1 = a / 65536))).map (fun q => q.2))

/-- The page of a program's access: as phase 1 translated it; outside the chunk's part of its ranges it is translated now (DESIGN CHOICE, log 131). -/
def progPage (k key : Nat) (x : XCtx) (s : State) (wr : Bool) (a : Nat) : Except (Nat × Word) Nat × State :=
  match phaseEnt s k key a with
  | some e => (entPage s k x wr a e, s)
  | none =>
    match mapPage s k x wr a with
    | (.error r, s) => (.error r, s)
    | (.ok (b, _), s) => (.ok b, s)

/-- The checks of a program's access (R278): alignment, then the ranges and MODE, where no entry is read (R87), then the translation; RANGE stands as a fault of no cause. -/
def progCheck (k key : Nat) (tk : LTask) (x : XCtx) (s : State) (va : Word) (n : Nat) (wr : Bool) : Except Exc Nat × State :=
  let a := va.toNat
  let inside := (List.range 4).any (fun i =>
    (if wr then pgWrite tk.param i else pgRead tk.param i) && decide (ldA tk.words i ≤ a) && decide (a + n ≤ ldA tk.words i + ldN tk.words * pgWidth tk.param i))
  let acc := if wr then Access.store else Access.load
  if a % n ≠ 0 then (.error { code := 1, val := va }, s)
  else if !inside then (.error (xlatFault acc 4 3 va), s)
  else
    match progPage k key x s wr a with
    | (.error (1, d), s) => (.error { code := if wr then 5 else 4, detail := bits d 63 56, val := va }, s)
    | (.error _, s) => (.error { code := 99, val := va }, s)
    | (.ok b, s) => (.ok (b + a % 65536), s)

/-- The end of a program that an exception stops (R278): FAULT for a translation fault of R87 or R92, else ILLEGAL at the instruction. -/
def progStop (r : PRun) (e : Exc) : PRun :=
  { r with fin := some (some (if e.code = 4 || e.code = 5 || e.code = 6 then (1, faultAddr e) else if e.code = 99 then (2, e.val) else (4, r.th.pc))) }

/-- A read that tells poison, and one that does not. -/
def progLoad (k key : Nat) (tell : Bool) (s : State) (pa n : Nat) : (List Byte × Option Nat) × State :=
  let (l, s) := progRead k key s pa n
  ((l.map (fun b => b.1), if tell && l.any (fun b => b.2) then some pa else none), s)

/-- A program's write, staged until the chunk's third phase (R271), marked once it has met poison (R284). -/
def progStore (k key : Nat) (bad : Bool) (s : State) (pa : Nat) (bs : List Byte) : State :=
  modLrun s k key (fun r => { r with stores := r.stores ++ [(pa, bs.map (fun b => (b, bad)))] })

/-- A program's vector accesses. -/
def progAcc (k key : Nat) (tk : LTask) (tell bad : Bool) : VAcc :=
  { check := progCheck k key tk (lnCtx tk false), load := progLoad k key tell, store := progStore k key bad, held := fun _ _ => false }

/-- A program's update accesses (R276, R307): reads of current frames, writes of draft frames, in an unpaired space of frame 0 (R96). -/
def progUpd (k key : Nat) (tk : LTask) (tell bad : Bool) : UAcc :=
  { rd := fun s va n => progCheck k key tk { lnCtx tk false with spec := false } s va n false,
    wr := fun s va n => progCheck k key tk { lnCtx tk true with spec := true, upd := true } s va n true, load := progLoad k key tell, store := progStore k key bad }

/-- A system register of an engine thread (R263). -/
def progSr (th : Thread) (thr n : Nat) : Option Word :=
  if n = 0x200 then some (wd thr) else if [1, 2, 3, 4, 5].contains n then some (tget 0 th.sr n) else none

/-- A system register of an engine thread written. -/
def progSrPut (th : Thread) (n : Nat) (v : Word) : Thread :=
  let v := v &&& srMask n
  if n = 1 && decide (bits v 1 0 = 3) then th else { th with sr := tset 0 th.sr n v }

/-- `sr.*` in a program. -/
def progSrOp (r : PRun) (thr : Nat) (op : SrOp) (rd rs1 : Reg) (num : BitVec 12) : PRun :=
  let n := num.toNat
  let writes := decide (op = .rw) || decide (rs1 ≠ 0)
  match progSr r.th thr n with
  | none => progStop r { code := 0 }
  | some old =>
    if writes && decide (n = 0x200) then progStop r { code := 0 }
    else
      let x := xget r.th rs1
      let th := if writes then progSrPut r.th n (op.val old x) else r.th
      { r with th := { xset th rd old with pc := r.th.pc + 4 } }

/-- Flags set in an engine thread's FFLAGS. -/
def progFlags (th : Thread) (fl : Nat) : Thread := { th with sr := tset 0 th.sr 2 (tget 0 th.sr 2 ||| wd fl) }

/-- A vector instruction of a program. Its element j counts as chunk element s10 + j for stochastic rounding (R278). -/
def progVec (k key : Nat) (tk : LTask) (i : Instr) (form : DecForm) (w : BitVec 32) (r : PRun) : PRun :=
  let th := r.th
  let len : Word := if form.long then 12 else 4
  let d : DCtx := {
    a := xget th form.a, b := xget th form.b, d := xget th form.d, more := form.more.map (xget th),
    x := lnCtx tk false, step := ldStep tk.words, pc := th.pc, word := w.setWidth 64,
    base := wd (pw' tk.param 16 8) + xget th 10 }
  let done (r : PRun) (fl : Nat) (res : Option Word) : PRun :=
    let th := progFlags { r.th with sr := r.th.sr } fl
    let th := match form.dst, res with | some x, some v => xset th x v | _, _ => th
    { r with th := { th with pc := th.pc + len } }
  match vMemOp i, updOp i with
  | some (_, f, st, ka), _ =>
    if vMemIllegal f st ka then progStop r { code := 0 }
    else
      let ew := (etBits f.et).getD 8
      let start := resumeAt (tget 0 th.sr 5) 14
      let probe := if st then false else (match (vMemRun (progAcc k key tk true r.bad) f st ka ew d th start r.s).stop with | some (_, x) => decide (x.code = 7) | none => false)
      let q := vMemRun (progAcc k key tk false r.bad) f st ka ew d th start r.s
      let r := { r with s := q.s, bad := r.bad || probe }
      match q.stop with
      | some (_, x) => progStop r x
      | none => done { r with th := { (if st then th else vMemPut f ka ew q.got th) with sr := tset 0 th.sr 5 0 } } 0 none
  | none, some (_, f, opt) =>
    if updIllegal f d.a 0 then progStop r { code := 0 }
    else
      match progCheck k key tk { lnCtx tk false with spec := false } r.s d.a 64 false with
      | (.error x, s) => progStop { r with s := s } x
      | (.ok pa, s) =>
        let (l, s) := progRead k key s pa 64
        let r := { r with s := s, bad := r.bad || l.any (fun b => b.2) }
        match parseUpd (l.map (fun b => b.1)) (decide (opt = 1)) with
        | none => progStop r { code := 0 }
        | some b =>
          if b.hemgf && !hemUpdating s then { r with wait := true }
          else
            let start := resumeAt (tget 0 th.sr 5) 14
            let gf := updGf s b
            let probe := match (updRun (progUpd k key tk true r.bad) opt b gf f d th false start s).stop with | some (_, x) => decide (x.code = 7) | none => false
            let q := updRun (progUpd k key tk false (r.bad || probe)) opt b gf f d th false start s
            let r := { r with s := q.s, bad := r.bad || probe, nonfin := r.nonfin || q.nonfin }
            match q.stop with
            | some (_, x) => progStop { r with th := progFlags r.th q.fl } x
            | none => done { r with th := { th with sr := tset 0 th.sr 5 0 } } q.fl none
  | none, none =>
    match vPure i th d with
    | some (_, .ok th' fl res) => done { r with th := th' } fl res
    | some (_, .illegal) => progStop r { code := 0 }
    | none => progStop r { code := 0 }

/-- One instruction of a program's chunk on an engine thread (R263). -/
def progStep (k key : Nat) (tk : LTask) (r : PRun) : PRun :=
  let th := r.th
  let off := th.pc.toNat - pgCode tk.param
  let word (o : Nat) : BitVec 32 := BitVec.ofNat 32 (pw' tk.prog o 4)
  if th.pc.toNat < pgCode tk.param || decide (pgLen tk.param < off + 4) then progStop r { code := 0 }
  else
    let w := word off
    if isLong w && decide (pgLen tk.param < off + 12) then progStop r { code := 0 }
    else
      match decodeInstr 0 w (if isLong w then word (off + 8) ++ word (off + 4) else 0) with
      | none => progStop r { code := 0 }
      | some i =>
        let next (th : Thread) : PRun := { r with th := { th with pc := th.pc + 4 } }
        match aluForm i, branchForm i, loadForm i, storeForm i with
        | some f, _, _, _ => next (xset th f.rd (f.val th))
        | none, some f, _, _ =>
          { r with th := { th with pc := th.pc + (if f.cond (xget th f.a) (xget th f.b) then f.off.signExtend 64 <<< 2 else 4) } }
        | none, none, some f, _ =>
          match progCheck k key tk (lnCtx tk false) r.s (f.addr th) f.bytes false with
          | (.error e, s) => progStop { r with s := s } e
          | (.ok pa, s) =>
            let (l, s) := progRead k key s pa f.bytes
            let v := ofLE (l.map (fun b => b.1))
            let x := if f.signed then sext (8 * f.bytes) v else wd v
            { r with s := s, bad := r.bad || l.any (fun b => b.2), th := { xset th f.r x with pc := th.pc + 4 } }
        | none, none, none, some f =>
          match progCheck k key tk (lnCtx tk false) r.s (f.addr th) f.bytes true with
          | (.error e, s) => progStop { r with s := s } e
          | (.ok pa, s) => { r with s := progStore k key r.bad s pa (leBytes (xget th f.r).toNat f.bytes), th := { th with pc := th.pc + 4 } }
        | none, none, none, none =>
          match i with
          | .jal _ rd imm => { r with th := { xset th rd (th.pc + 4) with pc := jalTarget imm th } }
          | .jalr _ rd rs1 imm => { r with th := { xset th rd (th.pc + 4) with pc := jalrTarget rs1 imm th } }
          | .srRw _ rd rs1 num => progSrOp r (key % 4) .rw rd rs1 num
          | .srSet _ rd rs1 num => progSrOp r (key % 4) .set rd rs1 num
          | .srClr _ rd rs1 num => progSrOp r (key % 4) .clr rd rs1 num
          | .tend _ => { r with fin := some none }
          | i =>
            match decForm i with
            | some form => if form.tile then progStop r { code := 0 } else progVec k key tk i form w r
            | none => progStop r { code := 0 }

/-- The registers with which an engine thread starts a chunk of a program (R278). -/
def progThread (tk : LTask) (c : Nat) : Thread :=
  let p := tk.param
  let f := chunkFirst tk.words p c
  let a (i : Nat) : Word := if pgRead p i || pgWrite p i then wd (ldA tk.words i + f * pgWidth p i) else 0
  let regs : Table Word := [(10, wd f), (11, wd (chunkCount tk.words p c)), (12, a 0), (13, a 1), (14, a 2), (15, a 3),
    (16, wd (pw' p 40 8)), (17, wd (pw' p 48 8)), (18, wd (pw' p 56 8))].foldl (fun t q => tset 0 t q.1 q.2) []
  { st := .ready, pc := wd (pgCode p), regs := regs, sr := tset 0 (tset 0 [] 3 (wd (pw' p 0 8))) 4 (wd (pw' p 8 2)), asid := ldAsid tk.words }

/-! ## Chunks (R270, R271, R285–R287) -/

/-- The chunk that an engine may take of a task next: one to run again first, lowest first, but not on the engine that erred with it (R286). A task that has been stopped starts no further chunk; those that ran when it stopped finish (R285), but for a discarded task's (R287). -/
def nextChunk (tk : LTask) (e : Nat) : Option Nat :=
  match (if tk.code = 8 then [] else tk.again.filter (fun c => !tk.erred.contains (c, e))) with
  | c :: t => some (t.foldl min c)
  | [] => if tk.code = 0 ∧ tk.next < tk.total then some tk.next else none

/-- A task with a chunk taken. -/
def takeChunk (tk : LTask) (c : Nat) : LTask :=
  if tk.again.contains c then { tk with again := tk.again.filter (fun x => decide (x ≠ c)) } else { tk with next := tk.next + 1 }

/-- Whether a task may start a chunk on an engine now (R285, R287). -/
def mayStart (s : State) (e : Nat) (tk : LTask) : Bool :=
  (nextChunk tk e).isSome && (ldEss tk.words || decide (rf s .powerShed F.powerShedStage < 4))

/-- A task of a stack changed. -/
def modTask (s : State) (k j : Nat) (f : LTask → LTask) : State :=
  modLstack s k (fun x => match tget? x.active j with | some tk => { x with active := tins j (f tk) x.active } | none => x)

/-- The pieces of memory that a chunk's ranges lie in, under its translations. -/
def chunkPieces (maps : List (Nat × Nat × Nat)) (tk : LTask) (c : Nat) : List (Nat × Nat) :=
  (chunkRanges tk c).flatMap (fun r => piecesOf maps (2 * r.key) r.va r.n ++ piecesOf maps (2 * r.key + 1) r.va r.n)

/-- Whether a chunk touches a channel in a state (R285): 2 retraining, 3 failed. -/
def chunkTouches (s : State) (maps : List (Nat × Nat × Nat)) (tk : LTask) (c st : Nat) : Bool :=
  (chunkPieces maps tk c).any (fun p => touchesChan s p.1 p.2 st)

/-- CHUNK_START (R271): a free thread takes the lowest chunk of the oldest active task that may start one, and makes its translations. An engine that is being substituted takes none (R286). -/
def execChunkStart (k : Fin 12) (e : Fin 16) (th : Fin 4) (s : State) : Host.Outcome State Fault Refusal :=
  let x := lstack s k.val
  let ek := 16 * k.val + e.val
  .next (
    if (tget? x.runs (runKey e.val th.val)).isSome || decide (rf s .liningEngstat F.liningEngstatSite ek = 0x1F)
      || decide (rf s .liningEngstat F.liningEngstatState ek = 2) then s
    else
      match x.active.find? (fun p => mayStart s e.val p.2) with
      | none => s
      | some (j, tk) =>
        let c := (nextChunk tk e.val).getD 0
        if stackState s k.val = 3 && !tk.again.contains c then modTask s k.val j (fun tk => lnStop tk 7 c 0)
        else if stackState s k.val = 2 || stackState s k.val = 3 || stackState s k.val = 4 then
          let m := mapChunk s k.val tk c
          match m.err with
          | some (code, addr) => modTask m.s k.val j (fun tk => lnStop (takeChunk tk c) code c addr)
          | none =>
            if chunkTouches m.s m.maps tk c 3 then modTask m.s k.val j (fun tk => lnStop (takeChunk tk c) 6 c 0)
            else if chunkTouches m.s m.maps tk c 2 then m.s
            else
              let run : LRun := {
                task := j, chunk := c, maps := m.maps, ents := m.ents,
                thread := if ldKind tk.words = 2 then some (progThread tk c) else none, bad := tk.met }
              let s := modTask m.s k.val j (fun tk => takeChunk tk c)
              let s := modLstack s k.val (fun x => { x with runs := tins (runKey e.val th.val) run x.runs })
              setRf s .liningEngstat F.liningEngstatState 1 ek
        else s)

/-- A running chunk off its thread; the engine's STATE follows. -/
def freeRun (s : State) (k e th : Nat) : State :=
  let s := modLstack s k (fun x => { x with runs := tdel (runKey e th) x.runs })
  let busy := (List.range 4).any (fun j => (tget? (lstack s k).runs (runKey e j)).isSome)
  if busy || decide (rf s .liningEngstat F.liningEngstatState (16 * k + e) ≠ 1) then s else setRf s .liningEngstat F.liningEngstatState 0 (16 * k + e)

/-- The fold of some marked bytes, none when one is poisoned (R281, R284). -/
def foldMarked (va : Nat) (bs : List (Byte × Bool)) : Word × Bool := (foldOf (bs.map (fun b => b.1)) va, !bs.any (fun b => b.2))

/-- What a finished chunk adds to its task. -/
def addChunk (c : Nat) (o : LOut) (wrote : List (Nat × Nat)) (fs : List (Word × Bool)) (tk : LTask) : LTask :=
  { tk with
    done := tk.done + 1, flags := tk.flags ||| (o.flags % 256), nonfin := tk.nonfin || o.nonfin, met := tk.met || o.met,
    poisoned := tk.poisoned || o.writes.any (fun w => w.2.2.any (fun b => b.2)), wclip := tk.wclip + o.wclip,
    res := match o.res with | some r => tins c r tk.res | none => tk.res, wrote := tk.wrote ++ wrote,
    digest := fs.foldl (fun a f => a ^^^ f.1) tk.digest, dvalid := tk.dvalid && fs.all (fun f => f.2) }

/-- A finished chunk: its task, its engine's count, its thread. -/
def chunkEnd (s : State) (k e th j : Nat) (f : LTask → LTask) : State :=
  freeRun (bumpRf (modTask s k j f) .liningEngstat F.liningEngstatChunks 1 (16 * k + e)) k e th

/-- A chunk of any kind but PROGRAM after its second phase (R271): what it leaves, and its writes as pieces with their bytes. -/
def chunkReads (s : State) (run : LRun) (tk : LTask) : (LOut × List (List (Nat × Nat) × List (Byte × Bool))) × State :=
  let rs := (chunkRanges tk run.chunk).filter (fun r => r.rd)
  let (got, s) := rs.foldl (fun (a : Table (List (Byte × Bool)) × State) r =>
    let (l, s) := engRead a.2 (piecesOf run.maps (2 * r.key) r.va r.n)
    (tins r.key l a.1, s)) ([], s)
  let o := chunkOut s tk run.chunk (fun i => tget [] got i)
  ((o, o.writes.map (fun w => (piecesOf run.maps (2 * w.1 + 1) w.2.1 w.2.2.length, w.2.2))), s)

/-- A chunk of any kind but PROGRAM: its reads, then its writes (R271). -/
def chunkRun (s : State) (k e th : Nat) (run : LRun) (tk : LTask) : State :=
  let ((o, ps), s) := chunkReads s run tk
  let s := ps.foldl (fun s p => engWrite p.1 p.2 s) s
  let digests := decide (ldKind tk.words = 1)
  let fs := (if digests then o.writes.map (fun w => foldMarked w.2.1 w.2.2) else []) ++ o.folds.map (fun w => foldMarked w.1 w.2)
  chunkEnd s k e th run.task (addChunk run.chunk o (ps.map (fun p => p.1)).flatten fs)

/-- What a program's chunk adds to its task's marks. -/
def progNote (th : Thread) (bad nonfin : Bool) (tk : LTask) : LTask :=
  { tk with flags := tk.flags ||| ((tget 0 th.sr 2).toNat % 256), nonfin := tk.nonfin || nonfin, met := tk.met || bad }

/-- The registers that a program leaves in its engine thread. -/
def keepThread (s : State) (k key : Nat) (th : Thread) : State := modLstack s k (fun x => { x with threads := tins key th x.threads })

/-- A program's chunk that has reached `tend`: its third phase, its folds under DIG (R271, R278, R281). -/
def progDone (s : State) (k e th : Nat) (run : LRun) (tk : LTask) (t : Thread) : State :=
  let stores := staged s k (runKey e th)
  let s := stores.foldl (fun s p => engWritePiece s p.1 p.2) s
  let (fs, s) := if ldDig tk.words then
      ((chunkRanges tk run.chunk).filter (fun q => q.wr)).foldl (fun (a : List (Word × Bool) × State) q =>
        let (l, s) := engRead a.2 (piecesOf run.maps (2 * q.key + 1) q.va q.n)
        (a.1 ++ [foldMarked q.va l], s)) ([], s)
    else ([], s)
  let marked := stores.any (fun p => p.2.any (fun b => b.2))
  chunkEnd (keepThread s k (runKey e th) t) k e th run.task (fun tk =>
    { addChunk run.chunk {} (stores.map (fun p => (p.1, p.2.length))) fs tk with poisoned := tk.poisoned || marked })

/-- What one instruction of a program leaves: its thread goes on, its chunk ends, or its task ends with what it had staged unwritten (R285). -/
def progPut (k e th : Nat) (run : LRun) (tk : LTask) (r : PRun) : State :=
  let key := runKey e th
  let nf := run.nonfin || r.nonfin
  match r.fin with
  | none => modLrun r.s k key (fun q => { q with thread := some r.th, bad := r.bad, nonfin := nf })
  | some (some (code, addr)) =>
    freeRun (keepThread (modTask r.s k run.task (fun tk => lnStop (progNote r.th r.bad nf tk) code run.chunk addr)) k key r.th) k e th
  | some none => progDone (modTask r.s k run.task (progNote r.th r.bad nf)) k e th run tk r.th

/-- A running chunk that touches a failed channel ends its task (R247, R285). -/
def chunkDead (s : State) (k e th : Nat) (run : LRun) : State := freeRun (modTask s k run.task (fun tk => lnStop tk 6 run.chunk 0)) k e th

/-- Thread j of an engine issues (R260): none when it runs no program, its chunk touches a retraining channel (R285), or its instruction waits. -/
def progIssue (s : State) (k e j : Nat) : Option State :=
  match tget? (lstack s k).runs (runKey e j) with
  | none => none
  | some run =>
    match run.thread, tget? (lstack s k).active run.task with
    | some t, some tk =>
      if chunkTouches s run.maps tk run.chunk 2 then none
      else if chunkTouches s run.maps tk run.chunk 3 then some (chunkDead s k e j run)
      else
        let r := progStep k (runKey e j) tk { s := s, th := t, bad := run.bad }
        if r.wait then none else some (progPut k e j run tk r)
    | _, _ => none

/-- A cycle of an engine's sequencer (R260): one instruction of a ready thread, round-robin. -/
def engineCycle (s : State) (k e : Nat) : State :=
  let last := tget 3 (lstack s k).last e
  match ((List.range 4).map (fun i => (last + 1 + i) % 4)).findSome? (fun j => (progIssue s k e j).map (fun n => (j, n))) with
  | some (j, n) => modLstack n k (fun x => { x with last := tset 3 x.last e j })
  | none => s

/-- At most n cycles of an engine, while a thread of it runs a program. -/
def engineRun (k e th : Nat) : Nat → State → State
  | 0, s => s
  | n + 1, s =>
    match (tget? (lstack s k).runs (runKey e th)).bind (fun r => r.thread) with
    | some _ => engineRun k e th n (engineCycle s k e)
    | none => s

/-- CHUNK_COMPLETE (R271): the reads and the writes of a running chunk; for a program, the engine runs for some of its cycles. A chunk that touches a retraining channel waits, one that touches a failed channel ends its task (R285). -/
def execChunkComplete (k : Fin 12) (e : Fin 16) (th : Fin 4) (cycles : Nat) (s : State) : Host.Outcome State Fault Refusal :=
  .next (
    match tget? (lstack s k.val).runs (runKey e.val th.val) with
    | none => s
    | some run =>
      match tget? (lstack s k.val).active run.task with
      | none => s
      | some tk =>
        if stackState s k.val = 5 || chunkTouches s run.maps tk run.chunk 2 then s
        else if chunkTouches s run.maps tk run.chunk 3 then chunkDead s k.val e.val th.val run
        else
          match run.thread with
          | some _ => engineRun k.val e.val th.val cycles s
          | none => chunkRun s k.val e.val th.val run tk)

/-! ## Completion (R274, R275) -/

/-- The task's result from its chunks, ascending (R272). -/
def taskResult (tk : LTask) : LRes :=
  let d (w : Word) : FV := fdec f64 w.toNat
  let kind := ldKind tk.words
  let comb (a b : LRes) : LRes :=
    if kind = 5 then
      let t := statMerge f64 { n := d a.a, m := d a.b, q := d a.c, fl := 0 } { n := d b.a, m := d b.b, q := d b.c, fl := 0 }
      { a := c64 t.n, b := c64 t.m, c := c64 t.q }
    else { a := c64 (add64 (d a.a) (d b.a)) }
  match tk.res with
  | [] => { a := 0 }
  | (_, r) :: t => t.foldl (fun a p => comb a p.2) r

/-- The completion record (R275). -/
def taskRecord (tk : LTask) (code elem : Nat) : List Byte :=
  let r := taskResult tk
  let w0 := pack [(0, code), (8, tk.flags), (16, tk.nonfin.toNat), (17, tk.poisoned.toNat), (18, tk.dvalid.toNat), (24, elem)]
  (leBytes w0.toNat 8) ++ (leBytes tk.addr.toNat 8) ++ (leBytes tk.digest.toNat 8) ++ (leBytes r.a.toNat 8) ++ (leBytes r.b.toNat 8)
    ++ (leBytes r.c.toNat 8) ++ (leBytes tk.done 8) ++ (leBytes tk.wclip 8)

/-- Whether a task computes a digest (R281). -/
def taskDigests (tk : LTask) : Bool := decide (ldKind tk.words = 1) || decide (ldKind tk.words = 7) || ldDig tk.words

/-- The parts of a span that lie in its 64-KiB pages: (address, bytes). -/
def pagesOf (va n : Nat) : List (Nat × Nat) :=
  if n = 0 then []
  else (List.range ((va + n - 1) / 65536 - va / 65536 + 1)).map (fun i =>
    let a := max va (65536 * (va / 65536 + i))
    (a, min (va + n) (65536 * (va / 65536 + i + 1)) - a))

/-- The write ranges of a task, page by page (R267). -/
def writePages (tk : LTask) : List (Nat × Nat) :=
  (List.range tk.total).flatMap (fun c => ((chunkRanges tk c).filter (fun r => r.wr)).flatMap (fun r => pagesOf r.va r.n))

/-- The region cache invalidates every line of a task's write ranges (R221, R274): what its chunks have written, and what its ranges reach under the walker's translations; a page that does not translate has no line. -/
def invalWrites (s : State) (k : Nat) (tk : LTask) : State :=
  (writePages tk).foldl (fun s p =>
    match mapPage s k (mapCtx tk true) true p.1 with
    | (.ok (b, _), s) => rcInvalidateRange s (b + p.1 % 65536) p.2
    | (.error _, s) => s) (tk.wrote.foldl (fun s p => rcInvalidateRange s p.1 p.2) s)

/-- LINING_TASK_COMPLETE (R274, R275, R281, R309): no chunk runs and none will. -/
def execLiningTaskComplete (k : Fin 12) (j : Nat) (s : State) : Host.Outcome State Fault Refusal :=
  let x := lstack s k.val
  .next (match tget? x.active j with
    | none => s
    | some tk =>
      if x.runs.any (fun r => decide (r.2.task = j)) || (decide (tk.code = 0) && decide (tk.done < tk.total)) || (decide (tk.code ≠ 8) && !tk.again.isEmpty) then s
      else
        let code := if tk.code ≠ 0 then tk.code else if tk.met then 5 else 0
        let elem := if code = 0 || code = 5 then 0
          else chunkFirst tk.words tk.param (tk.failAt.getD tk.next)
        let tk := { tk with dvalid := tk.dvalid && taskDigests tk && decide (tk.done = tk.total) }
        let s := modLstack s k.val (fun x => { x with active := tdel j x.active })
        -- the record, then the invalidation, then the peg (R274)
        let s := if code = 0 && (decide (ldKind tk.words = 1) || ldDig tk.words) then
            setReg s .liningSdig k.val (reg s .liningSdig k.val ^^^ tk.digest) else s
        let s := if decide (ldKind tk.words = 1) && tk.nonfin && bit (reg s .devHemasid) (ldAsid tk.words).toNat && hemUpdating s then
            { s with hem := { s.hem with updNonfin := true } } else s
        match tk.bucket with
        | some key => ownEnd (invalWrites s k.val tk) k.val tk.desc key code elem tk.nonfin (taskResult tk).a tk.wclip
        | none =>
          let s := if resultOk tk.words then homeWrite (accessDraws s Activity.lining.part (ldResult tk.words) 64) (ldResult tk.words) (taskRecord tk code elem) else s
          let s := invalWrites s k.val tk
          let s := if code = 0 && resultOk tk.words then s else report s (liningErr k.val tk.desc code elem)
          let s := bumpRf s .liningQstat F.liningQstatDone 1 k.val
          if ldPegen tk.words then (pegAddTo s (ldPeg tk.words) 1 (adderLining k.val 0)).2 else s)

/-! ## Faults and spares (R286) -/

/-- A running chunk put back to run again. -/
def chunkAgain (s : State) (k e th : Nat) : State :=
  match tget? (lstack s k).runs (runKey e th) with
  | none => s
  | some run => freeRun (modTask s k run.task (fun tk => { tk with again := tk.again ++ [run.chunk] })) k e th

/-- Whether a chunk that has made a write may not run again: that of an UPDATE in an unpaired job (R310). -/
def onceOnly (s : State) (tk : LTask) : Bool :=
  decide (ldKind tk.words = 1) && !s.hem.paired && bit (reg s .devHemasid) (ldAsid tk.words).toNat

/-- Whether pieces overlap what a chunk reads. -/
def overReads (run : LRun) (tk : LTask) (ps : List (Nat × Nat)) : Bool :=
  let rs := ((chunkRanges tk run.chunk).filter (fun r => r.rd)).flatMap (fun r => piecesOf run.maps (2 * r.key) r.va r.n)
  ps.any (fun p => rs.any (fun r => decide (p.1 < r.1 + r.2) && decide (r.1 < p.1 + p.2)))

/-- What a chunk has written when an error is found in it (R286): of the writes of any kind but PROGRAM a free number (log 28), of a program, whose writes are staged, none. The reads of a chunk that runs again are unchanged (R286), so writes over them are not among those made. -/
def partWrites (s : State) (run : LRun) (tk : LTask) : Bool × State :=
  if run.thread.isSome then (false, s)
  else
    let (v, s) := drawFree s
    let ((_, ps), s') := chunkReads s run tk
    let ps := ps.filter (fun p => onceOnly s tk || !overReads run tk p.1)
    let n := v.toNat % (ps.length + 1)
    if n = 0 then (false, s) else (true, (ps.take n).foldl (fun s p => engWrite p.1 p.2 s) s')

/-- An error of an engine counted (R286); the second within one hour begins its substitution: it takes no new chunk. -/
def countFault (s : State) (k e : Nat) : State :=
  let ek := 16 * k + e
  let again := match tget? (lstack s k).errAt e with | some w => decide ((lcount s 12 - w).toNat ≤ hourTicks) | none => false
  let s := bumpRf s .liningEngstat F.liningEngstatFaults 1 ek
  let s := modLstack s k (fun x => { x with errAt := tins e (lcount s 12) x.errAt })
  if again then setRf s .liningEngstat F.liningEngstatState 2 ek else s

/-- ENGINE_PARITY_ERROR (R286): counted and recorded; the chunk runs again elsewhere once, and a second error on it ends the task. -/
def execEngineParityError (k : Fin 12) (e : Fin 16) (th : Fin 4) (s : State) : Host.Outcome State Fault Refusal :=
  let site := rf s .liningEngstat F.liningEngstatSite (16 * k.val + e.val)
  .next (
    match tget? (lstack s k.val).runs (runKey e.val th.val) with
    | none => s
    | some run =>
      let s := countFault s k.val e.val
      match tget? (lstack s k.val).active run.task with
      | none => freeRun s k.val e.val th.val
      | some tk =>
        let (wrote, s) := partWrites s run tk
        if tk.erred.any (fun p => decide (p.1 = run.chunk)) || (wrote && onceOnly s tk) then
          freeRun (modTask s k.val run.task (fun tk => lnStop tk 9 run.chunk 0)) k.val e.val th.val
        else chunkAgain (modTask (report s (mkErr 0x40 0x24 k.val site 0 (wd site))) k.val run.task (fun tk => { tk with erred := (run.chunk, e.val) :: tk.erred })) k.val e.val th.val)

/-- ENGINE_SUBSTITUTION (R286), of an engine that takes no new chunk: its chunks run again elsewhere, the logical number moves to the spare site, or the site is retired with none left. -/
def execEngineSubstitution (k : Fin 12) (e : Fin 16) (s : State) : Host.Outcome State Fault Refusal :=
  let ek := 16 * k.val + e.val
  let site := rf s .liningEngstat F.liningEngstatSite ek
  .next (
    if decide (site = 0x1F) || decide (rf s .liningEngstat F.liningEngstatState ek ≠ 2) then s
    else
      let s := (List.range 4).foldl (fun s j => chunkAgain s k.val e.val j) s
      let sp := (lstack s k.val).spare
      let s := match sp with
        | some n => setRf (setRf s .liningEngstat F.liningEngstatSite n ek) .liningEngstat F.liningEngstatState 0 ek
        | none => setRf (setRf s .liningEngstat F.liningEngstatSite 0x1F ek) .liningEngstat F.liningEngstatState 3 ek
      let s := modLstack s k.val (fun x => { x with spare := none, errAt := tdel e.val x.errAt })
      let s := if sp.isSome then setRf s .devActive F.devActiveEngineSpared (rf s .devActive F.devActiveEngineSpared ||| (1 <<< k.val)) else s
      addRepair (report s (mkErr 0x42 0x24 k.val site 0 (wd site))) { kind := 4, unit := k.val, site := site })

end Sys2Proof.Machine
end

