-- ==== Sys2Proof/Machine/Cells.lean ====
section
/-! DEFINITION. Cell power states (R20–R22), cell substitution and retirement (R15, R16), the end of an invalidation (R101), block-memory scrub and row spares (R218, R219), outbound failures (R378). -/

namespace Sys2Proof.Machine

/-! ## Threads brought to an end (R94, R301, R354) -/

/-- Whether what threads of a core have outstanding cannot all be performed now: a push of theirs is held (R264, R349), or a home does not take an access (R18, R23, R246, R255). The PLLs that their accesses find stopped start meanwhile. -/
def settleWait (s : State) (ts : List Tid) : Option State :=
  if ts.any (pushHeld s) then some s
  else
    match ts.flatMap (releaseNeeds s) with
    | [] => none
    | l :: ls => some (startLines s (l :: ls))

/-- A thread of a SPEC task that a discard aborted stopped (R301): what its units have resolved completes; a register write that has not reached its register goes with the task (log 122). -/
def discardThread (s : State) (t : Tid) : State :=
  let s := stopThread (finishUnits s t) t
  modCell s (cellOf t) (fun x => { x with wb := x.wb.filter (fun e => !(decide (e.owner.val = thrOf t) && e.device && e.spec.isSome)) })

/-- A thread whose SPEC task a commit made ordinary (R293, R300): its buffered register writes are an ordinary task's too, and a held action issues again. -/
def ordinaryThread (s : State) (t : Tid) : State :=
  let s := modCell s (cellOf t) (fun x => { x with wb := x.wb.map (fun e => if e.owner.val = thrOf t then { e with spec := none } else e) })
  modThread s t (fun th => { th with spec := none, st := if th.st = .waiting .held then .ready else th.st })

/-- Whether a thread runs a SPEC task that a discard has aborted: one dispatched since is another. -/
def isAborted (s : State) (t : Tid) : Bool :=
  (thread s t).spec.isSome && ((thread s t).task.bind (fun j => tget? s.tasks.runs j)).isNone

/-- A cell applies the oldest update the hem has sent it (R94): EPOCH, and the SPEC state of its threads: a commit makes them ordinary and lets their held actions issue again, a discard stops them. -/
def applyUpdate (s : State) (c : Nat) : State :=
  match (cell s c).updates with
  | [] => s
  | u :: _ =>
    let s := applyUpdateTo s c u
    (tidsOf c).foldl (fun s t =>
      if u.discard then (if isAborted s t then discardThread s t else s)
      else if (thread s t).spec = some u.step then ordinaryThread s t else s) s

/-- Every update a cell has still to apply, before its first instruction after waking (R94). -/
def applyAll (s : State) (c : Nat) : State := (List.range (cell s c).updates.length).foldl (fun s _ => applyUpdate s c) s

/-- EPOCH_UPDATE_APPLY (R94). -/
def execEpochUpdateApply (c : Cid) (s : State) : Host.Outcome State Fault Refusal := .next (applyUpdate s c.val)

/-- A thread of a task that is ended from outside: what its units have resolved completes, its accesses are performed, as the release before the peg add has it (R354), and it becomes idle. -/
def killThread (s : State) (t : Tid) : State := stopThread (release (finishUnits s t) t) t

/-- A running task taken off, with the status that its end writes (R354). -/
def loseRun (s : State) (j code : Nat) (run : TaskRun) : State :=
  taskEnd { s with tasks := { s.tasks with runs := tdel j s.tasks.runs } } run.queue run.desc code (run.cell % 64) run.pegen run.peg

/-- TASK_KILL (R354): the Mantle ends a task; its threads become idle and STATUS is KILLED. It waits until their accesses can be performed (log 122). -/
def execTaskKill (j : Nat) (s : State) : Host.Outcome State Fault Refusal :=
  .next (match tget? s.tasks.runs j with
    | some run =>
      let ts := run.threads.filter (fun t => decide ((thread s t).task = some j))
      match settleWait s ts with
      | some s => s
      | none => loseRun (ts.foldl killThread s) j 5 run
    | none => s)

/-- Running tasks of a cell ended because the cell was retired (R16, R354). -/
def loseTasks (s : State) (c : Nat) : State :=
  (s.tasks.runs.filter (fun p => decide (p.2.cell = c))).foldl (fun s p => loseRun (p.2.threads.foldl killThread s) p.1 4 p.2) s

/-! ## Cell power (R20–R22) -/

/-- Whether a thread lets its cell be idle (R20): it waits on a peg, on a verdict or for the hem as on a peg (R300, R307), on a task, or on nothing. -/
def threadRests (s : State) (t : Tid) : Bool :=
  match (thread s t).st with
  | .idle => true
  | .halted => true
  | .ready => hemWaits (thread s t)
  | .waiting (.peg _ _ _ _) => true
  | .waiting (.arrive _ _ _ _) => true
  | .waiting .held => true
  | .waiting (.released _ _) => false
  | .waiting (.pause _) => false
  | .waiting .fetch => false
  | .waiting .miss => false
  | .waiting .store => false
  | .waiting .home => false

/-- Whether a cell is idle (R20). -/
def cellIdle (s : State) (c : Nat) : Bool :=
  let x := cell s c
  (tidsOf c).all (fun t => threadRests s t && ((thread s t).vq.isEmpty || hemWaits (thread s t)) && (thread s t).tq.isEmpty)
    && x.mshrs.isEmpty && x.held.isEmpty && x.loads.isEmpty && x.atomics.isEmpty && x.wb.isEmpty && x.slots.isEmpty

/-- A cell's power state set. -/
def setPower (s : State) (c : Nat) (p : CellPower) : State := modCell s c (fun x => { x with power := p })

/-- A cell that runs again applies what the hem has sent it before its first instruction (R94). -/
def runAgain (s : State) (c : Nat) : State := applyAll (modCell s c (fun x => { x with power := .run, wakeReq := false })) c

/-- CLOCK_GATE (R21): an idle cell. -/
def execClockGate (c : Cid) (s : State) : Host.Outcome State Fault Refusal :=
  .next (if !isMantle c.val && decide ((cell s c.val).power = .run) && cellIdle s c.val then setPower s c.val .gated else s)

/-- POWER_GATE (R21): a clock-gated cell with no wake pending. -/
def execPowerGate (c : Cid) (s : State) : Host.Outcome State Fault Refusal :=
  .next (if decide ((cell s c.val).power = .gated) && !(cell s c.val).wakeReq then setPower s c.val .entering else s)

/-- POWER_SWITCH_OPEN (R21, R98): the caches, by a flash invalidation (R228), the operand cache, the capo latches and the TLBs are lost. -/
def execPowerSwitchOpen (c : Cid) (s : State) : Host.Outcome State Fault Refusal :=
  .next (if decide ((cell s c.val).power = .entering) && !(cell s c.val).wakeReq then
      modCell (flash s c.val) c.val (fun x => tlbFlush { x with power := .off, icache := [], opcache := [], capo := none, harp := {}, streams := [] })
    else s)

/-- CELL_WAKE (R22, R23): before the switch has opened the cell runs again; after it, power-up starts, on the always-on clock. -/
def execCellWake (c : Cid) (s : State) : Host.Outcome State Fault Refusal :=
  .next (if !(cell s c.val).wakeReq then s
    else
      match (cell s c.val).power with
      | .gated => runAgain s c.val
      | .entering => runAgain s c.val
      | .off => setPower s c.val .waking
      | .waking => s
      | .run => runAgain s c.val)

/-- CELL_POWERED (R21). -/
def execCellPowered (c : Cid) (s : State) : Host.Outcome State Fault Refusal :=
  .next (if (cell s c.val).power = .waking then runAgain s c.val else s)

/-! ## Substitution and retirement (R15, R16) -/

/-- Every load of a thread performed and its value written (R49). -/
def settleLoads (s : State) (c thr : Nat) : State :=
  let s := finishDevices (serveLoads s c (fun j _ => decide (j = thr))) c thr (cell s c).accNo
  let s := (List.range (cell s c).mshrs.length).foldl (fun s _ =>
    match (cell s c).mshrs.findIdx? (fun m => m.served.isSome && m.loads.any (fun l => decide (l.thr.val = thr))) with
    | some i => fillMiss s c i 0
    | none => s) s
  (List.range (cell s c).loads.length).foldl (fun s _ =>
    match (cell s c).loads.findIdx? (fun l => decide (l.thr.val = thr)) with
    | some i => performLoad s c i
    | none => s) s

/-- A thread brought to an instruction boundary (R15, R71): an unresolved instruction is stopped before it, what its units have resolved completes, its accesses are performed. -/
def toBoundary (s : State) (t : Tid) : State :=
  let s := finishUnits (rollBack (stopUnits s t) t) t
  let n := (thread s t).vq.length + (thread s t).tq.length
  let s := (List.range n).foldl (fun s _ => arrive (arrive s t false) t true) s
  takeLate (settleStores (settleLoads s (cellOf t) (thrOf t)) (cellOf t) (thrOf t)) t

/-- What a site change leaves behind: the caches, TLBs, operand cache, capo latches and the harp's values (R15). -/
def coldCell (x : CellS) : CellS :=
  tlbFlush { x with icache := [], l1 := [], victim := [], opcache := [], capo := none, harp := {}, streams := [], mshrs := [], slots := [], held := [], atomics := [],
                    div := 0, harpStopped := false }

/-- Whether the Mantle has cause to substitute a cell (R15, R457): its harp's fault, or 64 corrected errors at its site within an hour. -/
def cellFaulted (s : State) (c : Nat) : Bool := (cell s c).harpStopped || cellCeDue s c

/-- CELL_SUBSTITUTION (R15, R457): a faulted cell's threads at a boundary, registers and tiles kept, the logical number moved to the spare site, the old site retired in the repair record. -/
def execCellSubstitution (c : Cid) (s : State) : Host.Outcome State Fault Refusal :=
  let b := c.val / 8
  let sp := rf s .devBlkmap F.devBlkmapSpare b
  .next (if isMantle c.val || cellRetired s c.val || decide (sp = 15) || !cellFaulted s c.val then s
    else
      match settleWait s (tidsOf c.val) with
      | some s => s
      | none =>
      let old := siteOf s c.val
      let s := (tidsOf c.val).foldl toBoundary s
      let s := modCell s c.val (fun x => { coldCell x with site := BitVec.ofNat 4 sp })
      let s := setRf (setSite s c.val sp) .devBlkmap F.devBlkmapSpare 15 b
      addRepair (report s (mkErr 0x15 0x20 b old 0 (pack [(0, old), (4, sp)]))) { kind := 1, unit := b, site := old })

/-- A day on the always-on clock (R16, R20): 24 powered hours. -/
def dayTicks : Nat := 24 * 3600 * 25000000

/-- Whether a cell's fault is the second at its site within 24 powered hours (R16, R457). -/
def faultAgain (s : State) (c : Nat) : Bool :=
  match tget? s.mantle.cleared (16 * (c / 8) + siteOf s c) with
  | some w => decide ((lcount s 12 - w).toNat < dayTicks)
  | none => false

/-- Whether a faulted cell has no spare to go to (R16). -/
def faultNoSpare (s : State) (c : Nat) : Bool :=
  !isMantle c && !cellRetired s c && decide (rf s .devBlkmap F.devBlkmapSpare (c / 8) = 15) && (cell s c).harpStopped

/-- CELL_FAULT_CLEAR (R16): a faulted cell with no unused spare goes on once on its own site, from the harp instruction that failed (R203). -/
def execCellFaultClear (c : Cid) (s : State) : Host.Outcome State Fault Refusal :=
  .next (if !faultNoSpare s c.val || faultAgain s c.val then s
    else
      let s1 := modCell s c.val (fun x => { x with harpStopped := false })
      { s1 with mantle := { s1.mantle with cleared := tins (16 * (c.val / 8) + siteOf s c.val) (lcount s 12) s1.mantle.cleared } })

/-- CELL_RETIREMENT (R16): at its second fault within 24 powered hours the logical cell loses its site and its tasks end (R354), heads that wait for it with NOCELL (R352). -/
def execCellRetirement (c : Cid) (s : State) : Host.Outcome State Fault Refusal :=
  let b := c.val / 8
  .next (if !faultNoSpare s c.val || !faultAgain s c.val then s
    else
      match settleWait s (tidsOf c.val) with
      | some s => s
      | none =>
      let old := siteOf s c.val
      let s := loseTasks s c.val
      let s := (tidsOf c.val).foldl stopThread s
      let s := loseHeads (recountCells (setSite (modCell s c.val coldCell) c.val 15)) (regionOf c.val)
      addRepair (report s (mkErr 0x15 0x20 b old 0 (pack [(0, old), (4, 15)]))) { kind := 1, unit := b, site := old })

/-! ## Invalidation of translations (R101, R102) -/

/-- Every access that a core has outstanding performed: prefetches, loads, the lines its units wait for, buffered stores. -/
def settleCore (s : State) (c : Nat) : State :=
  let s := (List.range (cell s c).mshrs.length).foldl (fun s i => serveMiss s c i) s
  let s := serveLoads s c (fun _ _ => true)
  (tidsOf c).foldl (fun s t => settleStores (settleLoads (finishUnits s t) c (thrOf t)) c (thrOf t)) s

/-- Whether a core still has a translated access that it has not sent: one in a retire window, or held for a miss register. -/
def unsent (s : State) (c : Nat) : Bool := !(cell s c).held.isEmpty || (tidsOf c).any (fun t => !(thread s t).hold.isEmpty)

/-- The prefetches of a core that their homes do not take now. -/
def prefetchNeeds (s : State) (c : Nat) : List Nat :=
  ((cell s c).mshrs.filter (fun m => m.served.isNone && (!homeClocked s m.line || !stackServes s c m.line m.no))).map (fun m => m.line)

/-- Whether cores cannot perform all that they have translated now: a push of a thread is held, or a home does not take an access (R18, R23, R50, R264, R349). -/
def coresWait (s : State) (cores : List Nat) : Option State :=
  match settleWait s (cores.flatMap tidsOf) with
  | some s => some s
  | none =>
    match cores.flatMap (prefetchNeeds s) ++ (cores.flatMap (fun c => (cell s c).atomics)).map (fun m => m.line) with
    | [] => none
    | l :: ls => some (startLines s (l :: ls))

/-- TLB_INVALIDATE_DONE (R101): every access that a cell translated is performed, no core keeps an entry of the scope, and no chunk that used one still runs. A cell that is clock-gated or power-gated marks all its TLBs invalid. -/
def execTlbInvalidateDone (s : State) : Host.Outcome State Fault Refusal :=
  let cores := (s.cells.map (fun p => p.1)).filter (fun c => decide (c < 772))
  .next (if rf s .devTlbinv F.devTlbinvGo = 0 || s.lining.any (fun p => p.2.runs.any (fun q => q.2.inv)) || cores.any (unsent s) then s
    else
      match coresWait s cores with
      | some s => s
      | none =>
      let s := cores.foldl settleCore s
      let s := cores.foldl (fun s c => modCell s c (fun x => if x.power = .run then tlbDrop (tlbScope s) x else tlbFlush x)) s
      setRf s .devTlbinv F.devTlbinvGo 0)

/-! ## Block memory: scrub and spares (R218, R219) -/

/-- The aperture line of line i of a bank (R211). -/
def bmLine (b bank i : Nat) : Nat := (0x10000000000 + b * 0x3000000 + i * 4096 + bank * 128) / 128

/-- The line that stands in place i of a bank, in a way that its region gives to its cache (R213, R220). -/
def rcAt (s : State) (b bank i : Nat) : Option Nat :=
  let first := 12 - rcWays s (b / 8)
  if i / 1024 < first then none
  else ((tget {} s.ms.rcSets (b * 32768 + i % 1024 * 32 + bank)).ways.getD (i / 1024 - first) none).filter (rcHit s)

/-- What a scrub finds in a word of a line of block memory: a corrected error is recorded, an uncorrectable one poisons the word (R216, R217). A word in a way of the region cache is one of the line that stands there. -/
def bmFinding (s : State) (b bank l w : Nat) (e : Ecc) : State :=
  let pa := lineBase l + 8 * w
  match e with
  | .clean => s
  | .corrected _ => report (noteRow s (bmRowKey b bank) (bmPlace pa).2.2 false) (mkErr 0x20 0x21 b bank (wd pa))
  | .uncorrectable =>
    let s := match physAt s pa with
      | .block _ _ => { s with ms := { s.ms with bmPoison := tset 0 s.ms.bmPoison l (setBit (tget 0 s.ms.bmPoison l) w true) } }
      | _ =>
        match rcAt s b bank ((pa - 0x10000000000) % 0x3000000 / 4096) with
        | some c => { s with ms := { s.ms with rc := tins c (let x := homeLine s c; { x with poison := setBit x.poison w true }) s.ms.rc } }
        | none => s
    report (noteRow s (bmRowKey b bank) (bmPlace pa).2.2 true) (mkErr 0x21 0x21 b bank (wd pa))

/-- BLOCK_MEMORY_SCRUB (R218): the next line of the bank, spare rows included; word w of it is where the finding lies. -/
def execBlockMemoryScrub (b : Fin 96) (bank : Fin 32) (w : Fin 16) (e : Ecc) (s : State) : Host.Outcome State Fault Refusal :=
  let k := bankKey b.val bank.val
  let i := tget 0 s.bm.ptr k
  let s := { s with bm := { s.bm with ptr := tset 0 s.bm.ptr k ((i + 1) % (8 * (bmRows + bmSpareRows))) } }
  -- a spare row in use holds the row it replaces; an unused one holds nothing
  let row := if i / 8 < bmRows then some (i / 8) else (sparesUsed s b.val bank.val)[i / 8 - bmRows]?
  let s := match row with
    | some r =>
      let l := bmLine b.val bank.val (8 * r + i % 8)
      let s := touchLine s l
      bmFinding s b.val bank.val l w.val e
    | none => s
  .next (if i + 1 = 8 * (bmRows + bmSpareRows) then passEnded s (bmRowKey b.val bank.val) else s)

/-- ROW_SPARE (R219): a row for which R219 calls for it moves to a spare row of its bank; with none left it stays. Contents and marks move with it. -/
def execRowSpare (b : Fin 96) (bank : Fin 32) (row : Nat) (s : State) : Host.Outcome State Fault Refusal :=
  let k := bankKey b.val bank.val
  let used := sparesUsed s b.val bank.val
  .next (if decide (bmRows ≤ row) || !rowDue s (bmRowKey b.val bank.val) row then s
    else
      let s := rowDone s (bmRowKey b.val bank.val) row
      if used.length < bmSpareRows then
      let s := { s with bm := { s.bm with spares := tset [] s.bm.spares k (used ++ [row]) } }
      let left := bmSpareRows - (used.length + 1)
      let s := setRf s .devBmcfg F.devBmcfgSpareMin (min (rf s .devBmcfg F.devBmcfgSpareMin) left)
      addRepair (report s (mkErr 0x22 0x21 b.val bank.val 0 (pack [(0, bank.val), (16, row)])))
        { kind := 2, unit := b.val, site := bank.val, data := pack [(0, row), (16, used.length)] }
    else report s (mkErr 0x22 0x21 b.val bank.val 0 (pack [(0, bank.val), (16, row), (31, 1)])))

/-! ## Outbound failures (R378) -/

/-- Whether a load or a buffered store goes out through a window. -/
def isWindow (s : State) (pa : Nat) : Bool := decide (physAt s pa = .window)

/-- OUTBOUND_FAILURE (R378): the k-th outstanding load returns all ones, or the k-th buffered store is discarded; the failure is recorded. -/
def execOutboundFailure (c : Cid) (k : Nat) (store : Bool) (s : State) : Host.Outcome State Fault Refusal :=
  let x := cell s c.val
  .next (if store then
      match x.wb[k]? with
      | some e =>
        if isWindow s (lineBase e.line) then
          let pa := ((wbRuns e).map (fun r => lineBase e.line + r.1)).headD (lineBase e.line)
          outboundFailed (setCell s c.val { x with wb := x.wb.eraseIdx k }) pa
        else s
      | none => s
    else
      match x.loads[k]? with
      | some l =>
        if isWindow s l.pa then
          deliver (outboundFailed (setCell s c.val { x with loads := x.loads.eraseIdx k }) l.pa) c.val l (loadValue l (List.replicate l.bytes 0xFF))
        else s
      | none => s)

end Sys2Proof.Machine
end

