-- ==== Sys2Proof/Machine/Debug.lean ====
section
/-! DEFINITION. The Mantle's debug port (R22, R30, R423). -/

namespace Sys2Proof.Machine

/-- Whether the policy in force lets the port do something (R423): at 1 cells may be halted, stepped and read; at 2 everything. -/
def debugAllows (s : State) (c : Nat) (op : DebugOp) : Bool :=
  let d := rf s .devBoot F.devBootDebug
  if s.power.down then false
  else if d = 2 then true
  else if d = 1 then
    !isMantle c &&
      (match op with
        | .halt _ => true
        | .step _ => true
        | .readReg _ _ => true
        | .readMem _ _ => true
        | .writeReg _ _ _ => false
        | .writeMem _ _ => false)
  else false

/-- A thread stopped where an interrupt would leave it (R71): Halted until the Mantle resumes it (R30). -/
def stopHere (s : State) (t : Tid) : State :=
  modThread (leaveWaves (keepArrive s t) t) t (fun th => { th with st := if th.st = .idle then .idle else .halted, pc := interruptPc th })

/-- A halt of a thread: it comes to an instruction boundary first. -/
def debugHalt (s : State) (t : Tid) : State :=
  if (thread s t).st = .idle ∨ (thread s t).st = .halted then s else stopHere (toBoundary (finishWait s t) t) t

/-- One instruction of a halted thread; it then stands halted again, or idle. -/
def debugStep (s : State) (t : Tid) : State :=
  if (thread s t).st = .halted then stopHere (tryIssue (modThread s t (fun th => { th with st := .ready })) t).2 t else s

/-- Whether an address of the port names the Mantle's SRAM (R394, R423): the first 16 MiB, seen from a Mantle core (DESIGN CHOICE, log 130). -/
def debugSram (c addr n : Nat) : Bool := isMantle c && decide (addr + n ≤ sramBytes)

/-- The port's access performed; a read is answered. -/
def debugRun (s : State) (c : Nat) (op : DebugOp) : State :=
  match op with
  | .halt j => debugHalt s (tidOf c j.val)
  | .step j => debugStep s (tidOf c j.val)
  | .readReg j r => emit s (.reply "debug" (leBytes (rx s (tidOf c j.val) r).toNat 8))
  | .readMem addr n =>
    if debugSram c addr n then emit s (.reply "debug" (sramGet s addr n))
    else if isMemory s addr then (let (x, s) := homeRead s addr n; emit s (.reply "debug" x.1)) else emit s (.reply "debug" (leBytes 0 n))
  | .writeReg j r v => wx s (tidOf c j.val) r v
  | .writeMem addr bs => if debugSram c addr bs.length then sramPut s addr bs else if isMemory s addr then homeWrite s addr bs else s

/-- DEBUG_PORT_ACCESS (R22, R423): the access wakes the cell. -/
def execDebugPortAccess (c : Cid) (op : DebugOp) (s : State) : Host.Outcome State Fault Refusal :=
  .next (if debugAllows s c.val op then debugRun (wakeCell s c.val) c.val op else s)

end Sys2Proof.Machine
end

