-- ==== Sys2Proof/Machine/Dispatch.lean ====
section
/-! DEFINITION. The meaning of every command: one arm per constructor of Instr. -/

namespace Sys2Proof.Machine

/-- The effect of a command on everything but the queue. -/
def exec (i : Instr) (s : State) : Host.Outcome State Fault Refusal :=
  match i with
  | .registerWrite a off bytes v => Sys2Proof.Machine.execRegisterWrite a off bytes v s
  | .readClear a off bytes => Sys2Proof.Machine.execReadClear a off bytes s
  | .issueSelect c => Sys2Proof.Machine.execIssueSelect c s
  | .decoupledResultArrive t tile => Sys2Proof.Machine.execDecoupledResultArrive t tile s
  | .instructionResolve t tile h => Sys2Proof.Machine.execInstructionResolve t tile h s
  | .add t rd rs1 rs2 => Sys2Proof.Machine.execAdd t rd rs1 rs2 s
  | .sub t rd rs1 rs2 => Sys2Proof.Machine.execSub t rd rs1 rs2 s
  | .and t rd rs1 rs2 => Sys2Proof.Machine.execAnd t rd rs1 rs2 s
  | .or t rd rs1 rs2 => Sys2Proof.Machine.execOr t rd rs1 rs2 s
  | .xor t rd rs1 rs2 => Sys2Proof.Machine.execXor t rd rs1 rs2 s
  | .sll t rd rs1 rs2 => Sys2Proof.Machine.execSll t rd rs1 rs2 s
  | .srl t rd rs1 rs2 => Sys2Proof.Machine.execSrl t rd rs1 rs2 s
  | .sra t rd rs1 rs2 => Sys2Proof.Machine.execSra t rd rs1 rs2 s
  | .slt t rd rs1 rs2 => Sys2Proof.Machine.execSlt t rd rs1 rs2 s
  | .sltu t rd rs1 rs2 => Sys2Proof.Machine.execSltu t rd rs1 rs2 s
  | .min t rd rs1 rs2 => Sys2Proof.Machine.execMin t rd rs1 rs2 s
  | .max t rd rs1 rs2 => Sys2Proof.Machine.execMax t rd rs1 rs2 s
  | .minu t rd rs1 rs2 => Sys2Proof.Machine.execMinu t rd rs1 rs2 s
  | .maxu t rd rs1 rs2 => Sys2Proof.Machine.execMaxu t rd rs1 rs2 s
  | .clz t rd rs1 => Sys2Proof.Machine.execClz t rd rs1 s
  | .ctz t rd rs1 => Sys2Proof.Machine.execCtz t rd rs1 s
  | .popc t rd rs1 => Sys2Proof.Machine.execPopc t rd rs1 s
  | .addi t rd rs1 imm => Sys2Proof.Machine.execAddi t rd rs1 imm s
  | .slti t rd rs1 imm => Sys2Proof.Machine.execSlti t rd rs1 imm s
  | .sltiu t rd rs1 imm => Sys2Proof.Machine.execSltiu t rd rs1 imm s
  | .xori t rd rs1 imm => Sys2Proof.Machine.execXori t rd rs1 imm s
  | .ori t rd rs1 imm => Sys2Proof.Machine.execOri t rd rs1 imm s
  | .andi t rd rs1 imm => Sys2Proof.Machine.execAndi t rd rs1 imm s
  | .slli t rd rs1 sh => Sys2Proof.Machine.execSlli t rd rs1 sh s
  | .srli t rd rs1 sh => Sys2Proof.Machine.execSrli t rd rs1 sh s
  | .srai t rd rs1 sh => Sys2Proof.Machine.execSrai t rd rs1 sh s
  | .addW t rd rs1 rs2 => Sys2Proof.Machine.execAddW t rd rs1 rs2 s
  | .subW t rd rs1 rs2 => Sys2Proof.Machine.execSubW t rd rs1 rs2 s
  | .sllW t rd rs1 rs2 => Sys2Proof.Machine.execSllW t rd rs1 rs2 s
  | .srlW t rd rs1 rs2 => Sys2Proof.Machine.execSrlW t rd rs1 rs2 s
  | .sraW t rd rs1 rs2 => Sys2Proof.Machine.execSraW t rd rs1 rs2 s
  | .addiW t rd rs1 imm => Sys2Proof.Machine.execAddiW t rd rs1 imm s
  | .slliW t rd rs1 sh => Sys2Proof.Machine.execSlliW t rd rs1 sh s
  | .srliW t rd rs1 sh => Sys2Proof.Machine.execSrliW t rd rs1 sh s
  | .sraiW t rd rs1 sh => Sys2Proof.Machine.execSraiW t rd rs1 sh s
  | .mul t rd rs1 rs2 => Sys2Proof.Machine.execMul t rd rs1 rs2 s
  | .mulh t rd rs1 rs2 => Sys2Proof.Machine.execMulh t rd rs1 rs2 s
  | .mulhu t rd rs1 rs2 => Sys2Proof.Machine.execMulhu t rd rs1 rs2 s
  | .mulhsu t rd rs1 rs2 => Sys2Proof.Machine.execMulhsu t rd rs1 rs2 s
  | .mulW t rd rs1 rs2 => Sys2Proof.Machine.execMulW t rd rs1 rs2 s
  | .div t rd rs1 rs2 => Sys2Proof.Machine.execDiv t rd rs1 rs2 s
  | .divu t rd rs1 rs2 => Sys2Proof.Machine.execDivu t rd rs1 rs2 s
  | .rem t rd rs1 rs2 => Sys2Proof.Machine.execRem t rd rs1 rs2 s
  | .remu t rd rs1 rs2 => Sys2Proof.Machine.execRemu t rd rs1 rs2 s
  | .divW t rd rs1 rs2 => Sys2Proof.Machine.execDivW t rd rs1 rs2 s
  | .divuW t rd rs1 rs2 => Sys2Proof.Machine.execDivuW t rd rs1 rs2 s
  | .remW t rd rs1 rs2 => Sys2Proof.Machine.execRemW t rd rs1 rs2 s
  | .remuW t rd rs1 rs2 => Sys2Proof.Machine.execRemuW t rd rs1 rs2 s
  | .lui t rd imm => Sys2Proof.Machine.execLui t rd imm s
  | .auipc t rd imm => Sys2Proof.Machine.execAuipc t rd imm s
  | .ldB t rd rs1 imm => Sys2Proof.Machine.execLdB t rd rs1 imm s
  | .ldH t rd rs1 imm => Sys2Proof.Machine.execLdH t rd rs1 imm s
  | .ldW t rd rs1 imm => Sys2Proof.Machine.execLdW t rd rs1 imm s
  | .ldD t rd rs1 imm => Sys2Proof.Machine.execLdD t rd rs1 imm s
  | .ldBu t rd rs1 imm => Sys2Proof.Machine.execLdBu t rd rs1 imm s
  | .ldHu t rd rs1 imm => Sys2Proof.Machine.execLdHu t rd rs1 imm s
  | .ldWu t rd rs1 imm => Sys2Proof.Machine.execLdWu t rd rs1 imm s
  | .stB t rs2 rs1 imm => Sys2Proof.Machine.execStB t rs2 rs1 imm s
  | .stH t rs2 rs1 imm => Sys2Proof.Machine.execStH t rs2 rs1 imm s
  | .stW t rs2 rs1 imm => Sys2Proof.Machine.execStW t rs2 rs1 imm s
  | .stD t rs2 rs1 imm => Sys2Proof.Machine.execStD t rs2 rs1 imm s
  | .loadPerformed c k => Sys2Proof.Machine.execLoadPerformed c k s
  | .cacheFill c k => Sys2Proof.Machine.execCacheFill c k s
  | .writeBufferDrain c k => Sys2Proof.Machine.execWriteBufferDrain c k s
  | .writeBufferTimeout c k => Sys2Proof.Machine.execWriteBufferTimeout c k s
  | .storePerformed c k => Sys2Proof.Machine.execStorePerformed c k s
  | .missRegisterGrant c => Sys2Proof.Machine.execMissRegisterGrant c s
  | .beq t rs1 rs2 off => Sys2Proof.Machine.execBeq t rs1 rs2 off s
  | .bne t rs1 rs2 off => Sys2Proof.Machine.execBne t rs1 rs2 off s
  | .blt t rs1 rs2 off => Sys2Proof.Machine.execBlt t rs1 rs2 off s
  | .bge t rs1 rs2 off => Sys2Proof.Machine.execBge t rs1 rs2 off s
  | .bltu t rs1 rs2 off => Sys2Proof.Machine.execBltu t rs1 rs2 off s
  | .bgeu t rs1 rs2 off => Sys2Proof.Machine.execBgeu t rs1 rs2 off s
  | .jal t rd imm => Sys2Proof.Machine.execJal t rd imm s
  | .jalr t rd rs1 imm => Sys2Proof.Machine.execJalr t rd rs1 imm s
  | .amoSwap t rd rs1 rs2 d aq rl => Sys2Proof.Machine.execAmoSwap t rd rs1 rs2 d aq rl s
  | .amoAdd t rd rs1 rs2 d aq rl => Sys2Proof.Machine.execAmoAdd t rd rs1 rs2 d aq rl s
  | .amoAnd t rd rs1 rs2 d aq rl => Sys2Proof.Machine.execAmoAnd t rd rs1 rs2 d aq rl s
  | .amoOr t rd rs1 rs2 d aq rl => Sys2Proof.Machine.execAmoOr t rd rs1 rs2 d aq rl s
  | .amoXor t rd rs1 rs2 d aq rl => Sys2Proof.Machine.execAmoXor t rd rs1 rs2 d aq rl s
  | .amoMin t rd rs1 rs2 d aq rl => Sys2Proof.Machine.execAmoMin t rd rs1 rs2 d aq rl s
  | .amoMax t rd rs1 rs2 d aq rl => Sys2Proof.Machine.execAmoMax t rd rs1 rs2 d aq rl s
  | .amoMinu t rd rs1 rs2 d aq rl => Sys2Proof.Machine.execAmoMinu t rd rs1 rs2 d aq rl s
  | .amoMaxu t rd rs1 rs2 d aq rl => Sys2Proof.Machine.execAmoMaxu t rd rs1 rs2 d aq rl s
  | .amoCas t rd rs1 rs2 d aq rl => Sys2Proof.Machine.execAmoCas t rd rs1 rs2 d aq rl s
  | .fenceAcq t => Sys2Proof.Machine.execFenceAcq t s
  | .fenceRel t => Sys2Proof.Machine.execFenceRel t s
  | .fenceAr t => Sys2Proof.Machine.execFenceAr t s
  | .fenceI t => Sys2Proof.Machine.execFenceI t s
  | .srRw t rd rs1 num => Sys2Proof.Machine.execSrRw t rd rs1 num s
  | .srSet t rd rs1 num => Sys2Proof.Machine.execSrSet t rd rs1 num s
  | .srClr t rd rs1 num => Sys2Proof.Machine.execSrClr t rd rs1 num s
  | .yield t => Sys2Proof.Machine.execYield t s
  | .pause t imm => Sys2Proof.Machine.execPause t imm s
  | .pauseExpiry t => Sys2Proof.Machine.execPauseExpiry t s
  | .tend t => Sys2Proof.Machine.execTend t s
  | .gate t imm => Sys2Proof.Machine.execGate t imm s
  | .xret t => Sys2Proof.Machine.execXret t s
  | .xretG t => Sys2Proof.Machine.execXretG t s
  | .interruptTake t => Sys2Proof.Machine.execInterruptTake t s
  | .vAdd t f => Sys2Proof.Machine.execVAdd t f s
  | .vSub t f => Sys2Proof.Machine.execVSub t f s
  | .vMul t f => Sys2Proof.Machine.execVMul t f s
  | .vMulh t f => Sys2Proof.Machine.execVMulh t f s
  | .vMulhu t f => Sys2Proof.Machine.execVMulhu t f s
  | .vMulhsu t f => Sys2Proof.Machine.execVMulhsu t f s
  | .vMin t f => Sys2Proof.Machine.execVMin t f s
  | .vMax t f => Sys2Proof.Machine.execVMax t f s
  | .vMinu t f => Sys2Proof.Machine.execVMinu t f s
  | .vMaxu t f => Sys2Proof.Machine.execVMaxu t f s
  | .vAnd t f => Sys2Proof.Machine.execVAnd t f s
  | .vOr t f => Sys2Proof.Machine.execVOr t f s
  | .vXor t f => Sys2Proof.Machine.execVXor t f s
  | .vAndn t f => Sys2Proof.Machine.execVAndn t f s
  | .vSll t f => Sys2Proof.Machine.execVSll t f s
  | .vSrl t f => Sys2Proof.Machine.execVSrl t f s
  | .vSra t f => Sys2Proof.Machine.execVSra t f s
  | .vSrar t f => Sys2Proof.Machine.execVSrar t f s
  | .vSadd t f => Sys2Proof.Machine.execVSadd t f s
  | .vSsub t f => Sys2Proof.Machine.execVSsub t f s
  | .vSaddu t f => Sys2Proof.Machine.execVSaddu t f s
  | .vSsubu t f => Sys2Proof.Machine.execVSsubu t f s
  | .vQmul t f => Sys2Proof.Machine.execVQmul t f s
  | .vQmulRne t f => Sys2Proof.Machine.execVQmulRne t f s
  | .vNarrowS t f => Sys2Proof.Machine.execVNarrowS t f s
  | .vNarrowU t f => Sys2Proof.Machine.execVNarrowU t f s
  | .vNarrowSRne t f => Sys2Proof.Machine.execVNarrowSRne t f s
  | .vNarrowURne t f => Sys2Proof.Machine.execVNarrowURne t f s
  | .vFadd t f => Sys2Proof.Machine.execVFadd t f s
  | .vFsub t f => Sys2Proof.Machine.execVFsub t f s
  | .vFmul t f => Sys2Proof.Machine.execVFmul t f s
  | .vFdiv t f => Sys2Proof.Machine.execVFdiv t f s
  | .vFma t f => Sys2Proof.Machine.execVFma t f s
  | .vFnma t f => Sys2Proof.Machine.execVFnma t f s
  | .vFmin t f => Sys2Proof.Machine.execVFmin t f s
  | .vFmax t f => Sys2Proof.Machine.execVFmax t f s
  | .vFsqrt t f => Sys2Proof.Machine.execVFsqrt t f s
  | .vFabs t f => Sys2Proof.Machine.execVFabs t f s
  | .vFneg t f => Sys2Proof.Machine.execVFneg t f s
  | .vCmpEq t f => Sys2Proof.Machine.execVCmpEq t f s
  | .vCmpNe t f => Sys2Proof.Machine.execVCmpNe t f s
  | .vCmpLt t f => Sys2Proof.Machine.execVCmpLt t f s
  | .vCmpLe t f => Sys2Proof.Machine.execVCmpLe t f s
  | .vCmpGt t f => Sys2Proof.Machine.execVCmpGt t f s
  | .vCmpGe t f => Sys2Proof.Machine.execVCmpGe t f s
  | .vCmpLtu t f => Sys2Proof.Machine.execVCmpLtu t f s
  | .vCmpLeu t f => Sys2Proof.Machine.execVCmpLeu t f s
  | .vFcmpEq t f => Sys2Proof.Machine.execVFcmpEq t f s
  | .vFcmpLt t f => Sys2Proof.Machine.execVFcmpLt t f s
  | .vFcmpLe t f => Sys2Proof.Machine.execVFcmpLe t f s
  | .vFcmpUn t f => Sys2Proof.Machine.execVFcmpUn t f s
  | .vPand t f => Sys2Proof.Machine.execVPand t f s
  | .vPor t f => Sys2Proof.Machine.execVPor t f s
  | .vPxor t f => Sys2Proof.Machine.execVPxor t f s
  | .vPandn t f => Sys2Proof.Machine.execVPandn t f s
  | .vPwhile t f => Sys2Proof.Machine.execVPwhile t f s
  | .vPcount t f => Sys2Proof.Machine.execVPcount t f s
  | .vRedSum t f => Sys2Proof.Machine.execVRedSum t f s
  | .vRedSumsq t f => Sys2Proof.Machine.execVRedSumsq t f s
  | .vRedMax t f => Sys2Proof.Machine.execVRedMax t f s
  | .vRedMin t f => Sys2Proof.Machine.execVRedMin t f s
  | .vRedMaxu t f => Sys2Proof.Machine.execVRedMaxu t f s
  | .vRedMinu t f => Sys2Proof.Machine.execVRedMinu t f s
  | .vFredSum t f => Sys2Proof.Machine.execVFredSum t f s
  | .vFredSumsq t f => Sys2Proof.Machine.execVFredSumsq t f s
  | .vFredMax t f => Sys2Proof.Machine.execVFredMax t f s
  | .vFredMin t f => Sys2Proof.Machine.execVFredMin t f s
  | .vLd t f => Sys2Proof.Machine.execVLd t f s
  | .vLdS t f => Sys2Proof.Machine.execVLdS t f s
  | .vLdX t f => Sys2Proof.Machine.execVLdX t f s
  | .vLdSeg t f => Sys2Proof.Machine.execVLdSeg t f s
  | .vSt t f => Sys2Proof.Machine.execVSt t f s
  | .vStS t f => Sys2Proof.Machine.execVStS t f s
  | .vStX t f => Sys2Proof.Machine.execVStX t f s
  | .vStSeg t f => Sys2Proof.Machine.execVStSeg t f s
  | .vSplat t f => Sys2Proof.Machine.execVSplat t f s
  | .vSel t f => Sys2Proof.Machine.execVSel t f s
  | .vExt t f => Sys2Proof.Machine.execVExt t f s
  | .vIns t f => Sys2Proof.Machine.execVIns t f s
  | .vCvt t f => Sys2Proof.Machine.execVCvt t f s
  | .vMfma t f => Sys2Proof.Machine.execVMfma t f s
  | .vStat t f => Sys2Proof.Machine.execVStat t f s
  | .vStatMerge t f => Sys2Proof.Machine.execVStatMerge t f s
  | .updSgdm t f => Sys2Proof.Machine.execUpdSgdm t f s
  | .updAdamw t f => Sys2Proof.Machine.execUpdAdamw t f s
  | .updLion t f => Sys2Proof.Machine.execUpdLion t f s
  | .tLd t f => Sys2Proof.Machine.execTLd t f s
  | .tSt t f => Sys2Proof.Machine.execTSt t f s
  | .tMov t f => Sys2Proof.Machine.execTMov t f s
  | .tClr t f => Sys2Proof.Machine.execTClr t f s
  | .tExt t f => Sys2Proof.Machine.execTExt t f s
  | .mxMma t f => Sys2Proof.Machine.execMxMma t f s
  | .pegRd t rd rs1 => Sys2Proof.Machine.execPegRd t rd rs1 s
  | .pegAdd t rd rs1 rs2 => Sys2Proof.Machine.execPegAdd t rd rs1 rs2 s
  | .pegSet t rd rs1 rs2 => Sys2Proof.Machine.execPegSet t rd rs1 rs2 s
  | .pegWaitGe t rd rs1 rs2 => Sys2Proof.Machine.execPegWaitGe t rd rs1 rs2 s
  | .pegWaitEq t rd rs1 rs2 => Sys2Proof.Machine.execPegWaitEq t rd rs1 rs2 s
  | .pegArrive t rd rs1 rs2 => Sys2Proof.Machine.execPegArrive t rd rs1 rs2 s
  | .pegWaitSatisfied t => Sys2Proof.Machine.execPegWaitSatisfied t s
  | .barrierWaveRelease => Sys2Proof.Machine.execBarrierWaveRelease s
  | .pegValWrite a h v => Sys2Proof.Machine.execPegValWrite a h v s
  | .pegValRead a h => Sys2Proof.Machine.execPegValRead a h s
  | .pegAddWrite a h v => Sys2Proof.Machine.execPegAddWrite a h v s
  | .clockGate c => Sys2Proof.Machine.execClockGate c s
  | .powerGate c => Sys2Proof.Machine.execPowerGate c s
  | .powerSwitchOpen c => Sys2Proof.Machine.execPowerSwitchOpen c s
  | .cellWake c => Sys2Proof.Machine.execCellWake c s
  | .cellPowered c => Sys2Proof.Machine.execCellPowered c s
  | .pllStart r => Sys2Proof.Machine.execPllStart r s
  | .pllLock r => Sys2Proof.Machine.execPllLock r s
  | .pllIdleStop r => Sys2Proof.Machine.execPllIdleStop r s
  | .pllLockLoss r => Sys2Proof.Machine.execPllLockLoss r s
  | .pllSwitchEnd r locked => Sys2Proof.Machine.execPllSwitchEnd r locked s
  | .cellSubstitution c => Sys2Proof.Machine.execCellSubstitution c s
  | .cellRetirement c => Sys2Proof.Machine.execCellRetirement c s
  | .repairRecordWrite => Sys2Proof.Machine.execRepairRecordWrite s
  | .epochUpdateApply c => Sys2Proof.Machine.execEpochUpdateApply c s
  | .pageWalk t va k => Sys2Proof.Machine.execPageWalk t va k s
  | .tlbInvalidate a v => Sys2Proof.Machine.execTlbInvalidate a v s
  | .tlbInvalidateDone => Sys2Proof.Machine.execTlbInvalidateDone s
  | .prefetchIssue t line => Sys2Proof.Machine.execPrefetchIssue t line s
  | .blockMemoryScrub b bank w e => Sys2Proof.Machine.execBlockMemoryScrub b bank w e s
  | .rowSpare b bank row => Sys2Proof.Machine.execRowSpare b bank row s
  | .hbmScrub k ch burst e => Sys2Proof.Machine.execHbmScrub k ch burst e s
  | .laneFlagged k ch lane => Sys2Proof.Machine.execLaneFlagged k ch lane s
  | .channelRetrain k ch bad cmdBad => Sys2Proof.Machine.execChannelRetrain k ch bad cmdBad s
  | .rowRepair k ch pc bank row => Sys2Proof.Machine.execRowRepair k ch pc bank row s
  | .tokenRefill => Sys2Proof.Machine.execTokenRefill s
  | .bankQueueAging k ch pc bank => Sys2Proof.Machine.execBankQueueAging k ch pc bank s
  | .hbmPartWrite a p v => Sys2Proof.Machine.execHbmPartWrite a p v s
  | .maintRequest a on => Sys2Proof.Machine.execMaintRequest a on s
  | .trafficGeneratorGo a v => Sys2Proof.Machine.execTrafficGeneratorGo a v s
  | .trafficGeneratorStop a => Sys2Proof.Machine.execTrafficGeneratorStop a s
  | .trafficGeneratorEnd k ch errors lane => Sys2Proof.Machine.execTrafficGeneratorEnd k ch errors lane s
  | .liningQpush a v => Sys2Proof.Machine.execLiningQpush a v s
  | .liningTaskDispatch k => Sys2Proof.Machine.execLiningTaskDispatch k s
  | .chunkStart k e th => Sys2Proof.Machine.execChunkStart k e th s
  | .chunkComplete k e th cycles => Sys2Proof.Machine.execChunkComplete k e th cycles s
  | .liningTaskComplete k j => Sys2Proof.Machine.execLiningTaskComplete k j s
  | .engineParityError k e th => Sys2Proof.Machine.execEngineParityError k e th s
  | .engineSubstitution k e => Sys2Proof.Machine.execEngineSubstitution k e s
  | .arm a => Sys2Proof.Machine.execArm a s
  | .disarm a => Sys2Proof.Machine.execDisarm a s
  | .resume a => Sys2Proof.Machine.execResume a s
  | .nonfinPost a => Sys2Proof.Machine.execNonfinPost a s
  | .abort a => Sys2Proof.Machine.execAbort a s
  | .haltreq a => Sys2Proof.Machine.execHaltreq a s
  | .hemxdigWrite a v => Sys2Proof.Machine.execHemxdigWrite a v s
  | .collectEnd => Sys2Proof.Machine.execCollectEnd s
  | .updateComplete => Sys2Proof.Machine.execUpdateComplete s
  | .twinDigestArrive step digest => Sys2Proof.Machine.execTwinDigestArrive step digest s
  | .twinTimeout => Sys2Proof.Machine.execTwinTimeout s
  | .devTqpush a v => Sys2Proof.Machine.execDevTqpush a v s
  | .descriptorHeadCheck r qn => Sys2Proof.Machine.execDescriptorHeadCheck r qn s
  | .taskDispatch r => Sys2Proof.Machine.execTaskDispatch r s
  | .taskComplete j => Sys2Proof.Machine.execTaskComplete j s
  | .dmaPiDoorbell a u page v => Sys2Proof.Machine.execDmaPiDoorbell a u page v s
  | .dmaDescriptorStart ch => Sys2Proof.Machine.execDmaDescriptorStart ch s
  | .dmaBurstComplete ch arrived poisoned => Sys2Proof.Machine.execDmaBurstComplete ch arrived poisoned s
  | .dmaDescriptorComplete ch => Sys2Proof.Machine.execDmaDescriptorComplete ch s
  | .dmaPaceResume ch => Sys2Proof.Machine.execDmaPaceResume ch s
  | .dmaPaceWrite a u v => Sys2Proof.Machine.execDmaPaceWrite a u v s
  | .dmaAbort a u => Sys2Proof.Machine.execDmaAbort a u s
  | .dmaRestart a u => Sys2Proof.Machine.execDmaRestart a u s
  | .dmaBusError ch cause => Sys2Proof.Machine.execDmaBusError ch cause s
  | .rollcall a => Sys2Proof.Machine.execRollcall a s
  | .cancel a => Sys2Proof.Machine.execCancel a s
  | .joinSend => Sys2Proof.Machine.execJoinSend s
  | .join m => Sys2Proof.Machine.execJoin m s
  | .refuse m => Sys2Proof.Machine.execRefuse m s
  | .roster m => Sys2Proof.Machine.execRoster m s
  | .ack m => Sys2Proof.Machine.execAck m s
  | .rosterResend => Sys2Proof.Machine.execRosterResend s
  | .rollcallTimeout => Sys2Proof.Machine.execRollcallTimeout s
  | .connectingDone => Sys2Proof.Machine.execConnectingDone s
  | .collPost a v => Sys2Proof.Machine.execCollPost a v s
  | .contrib port m => Sys2Proof.Machine.execContrib port m s
  | .allgather port m => Sys2Proof.Machine.execAllgather port m s
  | .pace port m => Sys2Proof.Machine.execPace port m s
  | .paceSend => Sys2Proof.Machine.execPaceSend s
  | .retryExhausted j => Sys2Proof.Machine.execRetryExhausted j s
  | .ordsumPassStart b => Sys2Proof.Machine.execOrdsumPassStart b s
  | .finalPassComplete b => Sys2Proof.Machine.execFinalPassComplete b s
  | .shardDeadlineExpiry b => Sys2Proof.Machine.execShardDeadlineExpiry b s
  | .perstDeassert => Sys2Proof.Machine.execPerstDeassert s
  | .hotReset => Sys2Proof.Machine.execHotReset s
  | .bar2Access off n data => Sys2Proof.Machine.execBar2Access off n data s
  | .msixSend vec => Sys2Proof.Machine.execMsixSend vec s
  | .doeSpdmRequest req => Sys2Proof.Machine.execDoeSpdmRequest req s
  | .outboundFailure c k store => Sys2Proof.Machine.execOutboundFailure c k store s
  | .prsntDebounce l => Sys2Proof.Machine.execPrsntDebounce l s
  | .powerSettle l => Sys2Proof.Machine.execPowerSettle l s
  | .rootLinkUp l rate width cls cmb => Sys2Proof.Machine.execRootLinkUp l rate width cls cmb s
  | .surpriseRemoval l => Sys2Proof.Machine.execSurpriseRemoval l s
  | .rootCfgdataAccess a wr resp => Sys2Proof.Machine.execRootCfgdataAccess a wr resp s
  | .rootMsi l data => Sys2Proof.Machine.execRootMsi l data s
  | .inboundDriveRequest l addr n data => Sys2Proof.Machine.execInboundDriveRequest l addr n data s
  | .ethLinkUp p => Sys2Proof.Machine.execEthLinkUp p s
  | .ethLinkLost p => Sys2Proof.Machine.execEthLinkLost p s
  | .pfcPauseReceived p prio quanta => Sys2Proof.Machine.execPfcPauseReceived p prio quanta s
  | .pfcAssert p prio fill => Sys2Proof.Machine.execPfcAssert p prio fill s
  | .cnpReceived qpn => Sys2Proof.Machine.execCnpReceived qpn s
  | .ceMarkReceived qpn => Sys2Proof.Machine.execCeMarkReceived qpn s
  | .rateRecovery qpn => Sys2Proof.Machine.execRateRecovery qpn s
  | .lldpSend p => Sys2Proof.Machine.execLldpSend p s
  | .lldpReceive p chassis port ttl => Sys2Proof.Machine.execLldpReceive p chassis port ttl s
  | .lldpExpire p => Sys2Proof.Machine.execLldpExpire p s
  | .seamPoll => Sys2Proof.Machine.execSeamPoll s
  | .seamTraining good serial twinArea => Sys2Proof.Machine.execSeamTraining good serial twinArea s
  | .seamNak seq => Sys2Proof.Machine.execSeamNak seq s
  | .seamReplay seq n => Sys2Proof.Machine.execSeamReplay seq n s
  | .seamLaneReplace lane => Sys2Proof.Machine.execSeamLaneReplace lane s
  | .seamLinkLoss => Sys2Proof.Machine.execSeamLinkLoss s
  | .seamWrite addr data marks => Sys2Proof.Machine.execSeamWrite addr data marks s
  | .seamMsg m => Sys2Proof.Machine.execSeamMsg m s
  | .mantleMbdoor slot => Sys2Proof.Machine.execMantleMbdoor slot s
  | .info slot => Sys2Proof.Machine.execInfo slot s
  | .reset slot => Sys2Proof.Machine.execReset slot s
  | .netaddr slot => Sys2Proof.Machine.execNetaddr slot s
  | .lldpnbr slot => Sys2Proof.Machine.execLldpnbr slot s
  | .runplan slot => Sys2Proof.Machine.execRunplan slot s
  | .feedcfg slot => Sys2Proof.Machine.execFeedcfg slot s
  | .userstate slot => Sys2Proof.Machine.execUserstate slot s
  | .ckpt slot => Sys2Proof.Machine.execCkpt slot s
  | .restore slot => Sys2Proof.Machine.execRestore slot s
  | .drives slot => Sys2Proof.Machine.execDrives slot s
  | .poweravg slot => Sys2Proof.Machine.execPoweravg slot s
  | .twinsend slot => Sys2Proof.Machine.execTwinsend slot s
  | .twinrecv slot epoch => Sys2Proof.Machine.execTwinrecv slot epoch s
  | .health slot => Sys2Proof.Machine.execHealth slot s
  | .mantleIrqpost a v => Sys2Proof.Machine.execMantleIrqpost a v s
  | .heartbeatLoss core => Sys2Proof.Machine.execHeartbeatLoss core s
  | .mantleHeartTick => Sys2Proof.Machine.execMantleHeartTick s
  | .runnerNotify => Sys2Proof.Machine.execRunnerNotify s
  | .runnerEntryStart => Sys2Proof.Machine.execRunnerEntryStart s
  | .keeperChunkStore => Sys2Proof.Machine.execKeeperChunkStore s
  | .keeperScrub l half r => Sys2Proof.Machine.execKeeperScrub l half r s
  | .smartCheck l used spare threshold warn => Sys2Proof.Machine.execSmartCheck l used spare threshold warn s
  | .twinRecordWrite => Sys2Proof.Machine.execTwinRecordWrite s
  | .powerUp skew => Sys2Proof.Machine.execPowerUp skew s
  | .bootRomStart good => Sys2Proof.Machine.execBootRomStart good s
  | .slotVerify => Sys2Proof.Machine.execSlotVerify s
  | .applyEmselImage => Sys2Proof.Machine.execApplyEmselImage s
  | .builtInSelfTest badCells badEngines badCores badRows trims => Sys2Proof.Machine.execBuiltInSelfTest badCells badEngines badCores badRows trims s
  | .hbmTraining bad => Sys2Proof.Machine.execHbmTraining bad s
  | .linksStart => Sys2Proof.Machine.execLinksStart s
  | .flashRead a addr => Sys2Proof.Machine.execFlashRead a addr s
  | .flashProgram a addr => Sys2Proof.Machine.execFlashProgram a addr s
  | .flashErase a addr => Sys2Proof.Machine.execFlashErase a addr s
  | .reboot a => Sys2Proof.Machine.execReboot a s
  | .flashCommandDone => Sys2Proof.Machine.execFlashCommandDone s
  | .trustPrefWrite a v => Sys2Proof.Machine.execTrustPrefWrite a v s
  | .trustEnroll a v => Sys2Proof.Machine.execTrustEnroll a v s
  | .resetInAssert => Sys2Proof.Machine.execResetInAssert s
  | .pwrgdDeassert => Sys2Proof.Machine.execPwrgdDeassert s
  | .aonclkLoss => Sys2Proof.Machine.execAonclkLoss s
  | .railOutOfRange => Sys2Proof.Machine.execRailOutOfRange s
  | .avsNoAck ch => Sys2Proof.Machine.execAvsNoAck ch s
  | .powerSample ch p10 p100 => Sys2Proof.Machine.execPowerSample ch p10 p100 s
  | .peakLever ch => Sys2Proof.Machine.execPeakLever ch s
  | .peakRelease ch => Sys2Proof.Machine.execPeakRelease ch s
  | .averageLimitDrop g mean => Sys2Proof.Machine.execAverageLimitDrop g mean s
  | .averageLimitRaise g mean => Sys2Proof.Machine.execAverageLimitRaise g mean s
  | .upwardChangeRetry r watts => Sys2Proof.Machine.execUpwardChangeRetry r watts s
  | .stepChange r target watts => Sys2Proof.Machine.execStepChange r target watts s
  | .thermalThrottle r temp => Sys2Proof.Machine.execThermalThrottle r temp s
  | .thermalRecovery r temp => Sys2Proof.Machine.execThermalRecovery r temp s
  | .thermalTrip r temp => Sys2Proof.Machine.execThermalTrip r temp s
  | .droopStretch b => Sys2Proof.Machine.execDroopStretch b s
  | .shedStageEnter ch sag => Sys2Proof.Machine.execShedStageEnter ch sag s
  | .shedStageClear sag => Sys2Proof.Machine.execShedStageClear sag s
  | .tunerReplan r slackFails slowOsc => Sys2Proof.Machine.execTunerReplan r slackFails slowOsc s
  | .recordAccept => Sys2Proof.Machine.execRecordAccept s
  | .mergeExpiry => Sys2Proof.Machine.execMergeExpiry s
  | .holdDrain => Sys2Proof.Machine.execHoldDrain s
  | .errRingWrite a v => Sys2Proof.Machine.execErrRingWrite a v s
  | .errInjGo a v => Sys2Proof.Machine.execErrInjGo a v s
  | .injectedErrorStore data => Sys2Proof.Machine.execInjectedErrorStore data s
  | .perfDeadlineWrite a v => Sys2Proof.Machine.execPerfDeadlineWrite a v s
  | .deadlineFire t => Sys2Proof.Machine.execDeadlineFire t s
  | .counterOverflow c j => Sys2Proof.Machine.execCounterOverflow c j s
  | .perfCntWrite a v => Sys2Proof.Machine.execPerfCntWrite a v s
  | .freeze a v => Sys2Proof.Machine.execFreeze a v s
  | .devClkPinWrite a v => Sys2Proof.Machine.execDevClkPinWrite a v s
  | .debugPortAccess c op => Sys2Proof.Machine.execDebugPortAccess c op s
  | .haltedThreadResume t => Sys2Proof.Machine.execHaltedThreadResume t s
  | .taskKill j => Sys2Proof.Machine.execTaskKill j s
  | .cellFaultClear c => Sys2Proof.Machine.execCellFaultClear c s
  | .stopRequest t => Sys2Proof.Machine.execStopRequest t s
  | .pairDeadlineExpiry b shard => Sys2Proof.Machine.execPairDeadlineExpiry b shard s
  | .neighbourTemperatureDrop r n tr tn => Sys2Proof.Machine.execNeighbourTemperatureDrop r n tr tn s
  | .pfcPauseExpiry p prio => Sys2Proof.Machine.execPfcPauseExpiry p prio s
  | .rootLinkTrainingFailed l => Sys2Proof.Machine.execRootLinkTrainingFailed l s
  | .configRequest q => Sys2Proof.Machine.execConfigRequest q s
  | .mantleSramScrub addr e => Sys2Proof.Machine.execMantleSramScrub addr e s
  | .linkCrcFailure l fails retrainOk => Sys2Proof.Machine.execLinkCrcFailure l fails retrainOk s
  | .droopRecovery b => Sys2Proof.Machine.execDroopRecovery b s
  | .railBackInRange => Sys2Proof.Machine.execRailBackInRange s
  | .addressResolutionFrame p target sender mac request => Sys2Proof.Machine.execAddressResolutionFrame p target sender mac request s
  | .rdmaNonsendRequest p qpn => Sys2Proof.Machine.execRdmaNonsendRequest p qpn s
  | .instructionFetchReturn t => Sys2Proof.Machine.execInstructionFetchReturn t s

end Sys2Proof.Machine
end

