-- ==== Sys2Proof/Safety.lean ====
section
/-! DEFINITION. What counts as a safe state and a safe step, and the frames that the statements name. -/

namespace Sys2Proof.Safety

open Sys2Proof.Machine

/-- The bytes of memory stand in their one canonical form, and the region caches hold lines of HBM alone (R220). -/
def memorySafe (s : State) : Prop := Memory.wf s.ms.mem = true ∧ ∀ l, lineHbm l = false → tget? s.ms.rc l = none

/-- Every register word and every selection stands in its one canonical form. -/
def registersSafe (s : State) : Prop := tsortedFrom none s.mmio = true ∧ tsortedFrom none s.sel = true

/-- A step that answers a next state. -/
def stepsOn (s : State) : Prop := ∃ t, step s = .next t

/-! ## Frames -/

/-- A byte of memory as its home serves it. -/
def byteAt (s : State) (a : Nat) : Byte := (homeLine s (a / 128)).data.extractLsb' (8 * (a % 128)) 8

/-- Every byte of memory reads as before. -/
def bytesKept (s n : State) : Prop := ∀ a, byteAt n a = byteAt s a

/-- Every MMIO register word but those of the registers named reads as before. -/
def regsKept (but : List RegName) (s n : State) : Prop := ∀ r i, i < 65536 → r ∉ but → reg n r i = reg s r i

/-- What the issue of an instruction of thread t leaves alone (R31, R59, R471): all but that thread, the last thread that its cell issued from and the marks of `yield` in its cell, the performance counters with their overflow's notices. -/
def issueFrame (t : Tid) (s n : State) : Prop :=
  n = { s with threads := n.threads, cells := n.cells, mmio := n.mmio, out := n.out, pba := n.pba, msixDue := n.msixDue }
  ∧ (∀ u, u ≠ t → thread n u = { thread s u with yield := (thread n u).yield })
  ∧ (∀ c, cell n c = { cell s c with last := (cell n c).last })
  ∧ regsKept [.perfCnt, .perfEvt] s n
  ∧ bytesKept s n

/-- The stacks' queues between s and n: tokens, turns, open rows and aging may differ, nothing else of the stacks (R255, R257). -/
def queued (s n : State) : HbmS := { s.hbm with buckets := n.hbm.buckets, used := n.hbm.used, turn := n.hbm.turn, rows := n.hbm.rows, aged := n.hbm.aged }

/-- What a translation leaves alone (R86, R98, R99): all but the core's TLBs and its cache of table entries, and what reading the tables finds and leaves: errors noted, counted and marked, ways of the region caches taken (R220), tokens drawn and rows opened (R255, R257). -/
def walkFrame (c : Nat) (s n : State) : Prop :=
  n = { s with cells := n.cells, err := n.err, ms := { s.ms with hbmPoison := n.ms.hbmPoison, bmPoison := n.ms.bmPoison, rcSets := n.ms.rcSets, rcOut := n.ms.rcOut }, mmio := n.mmio, hbm := queued s n }
  ∧ (∀ d, d ≠ c → cell n d = cell s d)
  ∧ (let x := cell n c
     x = { cell s c with itlb := x.itlb, dtlb := x.dtlb, l2tlb := x.l2tlb, walker := x.walker })
  ∧ regsKept [.hbmChstat] s n
  ∧ bytesKept s n

/-- What issue leaves alone where an access also went through the cell's caches and its write buffer. -/
def pathFrame (t : Tid) (s n : State) : Prop :=
  n = { s with threads := n.threads, cells := n.cells, mmio := n.mmio, out := n.out, pba := n.pba, msixDue := n.msixDue }
  ∧ (∀ u, u ≠ t → thread n u = { thread s u with yield := (thread n u).yield })
  ∧ (∀ c, c ≠ cellOf t → cell n c = cell s c)
  ∧ (let x := cell n (cellOf t)
     x = { cell s (cellOf t) with last := x.last, l1 := x.l1, victim := x.victim, wb := x.wb, streams := x.streams, streamNo := x.streamNo })
  ∧ regsKept [.perfCnt, .perfEvt] s n
  ∧ bytesKept s n

/-- rd took v (s0 stays zero), the pc moved to p, every other scalar register and all else of the thread but its yield mark and its window's count stay. -/
def regDone (s n : State) (t : Tid) (rd : Reg) (v p : Word) : Prop :=
  rx n t rd = (if rd = 0 then 0 else v)
  ∧ (∀ r, r ≠ rd → rx n t r = rx s t r)
  ∧ thread n t = { thread s t with regs := (thread n t).regs, pc := p, yield := (thread n t).yield, younger := (thread n t).younger }

/-- An instruction of thread t has completed between s and n: its register took its result, and all that `issueFrame` names stays. -/
def scalarDone (s n : State) (t : Tid) (rd : Reg) (v p : Word) : Prop := regDone s n t rd v p ∧ issueFrame t s n

/-- Instruction i of thread t answers a next state in which it has completed. -/
def scalarGives (i : Instr) (s : State) (t : Tid) (rd : Reg) (v p : Word) : Prop :=
  ∃ n, exec i s = .next n ∧ scalarDone s n t rd v p

/-- A division of thread t gives v within the cycles for which its cell's divider is then occupied (R42, R60): as `scalarGives`, but the divider. -/
def divideGives (i : Instr) (cycles : Nat) (s : State) (t : Tid) (rd : Reg) (v : Word) : Prop :=
  ∃ n, exec i s = .next n ∧ regDone s n t rd v ((thread s t).pc + 4)
    ∧ n = { s with threads := n.threads, cells := n.cells, mmio := n.mmio, out := n.out, pba := n.pba, msixDue := n.msixDue }
    ∧ (∀ u, u ≠ t → thread n u = { thread s u with yield := (thread n u).yield })
    ∧ (∀ c, c ≠ cellOf t → cell n c = { cell s c with last := (cell n c).last })
    ∧ cell n (cellOf t) = { cell s (cellOf t) with last := (cell n (cellOf t)).last, div := cycles }
    ∧ regsKept [.perfCnt, .perfEvt] s n
    ∧ bytesKept s n

/-! ## Loads and stores -/

/-- The k bytes at an offset of a line, least significant first (R4), zero-extended or sign-extended (R43). -/
def lineValue (d : BitVec 1024) (off k : Nat) (signed : Bool) : Word :=
  let v := d.toNat / 2 ^ (8 * off) % 2 ^ (8 * k)
  if signed ∧ 2 ^ (8 * k - 1) ≤ v then BitVec.ofInt 64 ((v : Int) - 2 ^ (8 * k)) else BitVec.ofNat 64 v

/-- The write-buffer entries of thread t that hold a byte of an access of k bytes at pa. -/
def ownEntries (s : State) (t : Tid) (pa k : Nat) : List WbEnt :=
  (cell s (cellOf t)).wb.filter (fun e => decide (e.owner = Fin.ofNat 8 (thrOf t)) && decide (e.line = pa / 128)
    && decide (e.mask &&& byteMask (pa % 128) k ≠ 0))

/-- The line of the cell's L1 that holds pa, if a way does. -/
def l1Line (s : State) (c pa : Nat) : Option CLine :=
  let st := tget {} (cell s c).l1 (l1Index (pa / 128))
  (l1Way st (pa / 128)).bind (fun w => st.ways.getD w none)

/-- A load of k bytes of thread t at the HBM address pa, which translation left the state s1 for: the thread's newest own entry with one of its bytes gives them if it holds them all; without such an entry the L1's line does, unless it is poisoned or its parity is wrong (R222, R226). -/
def loadGives (i : Instr) (k : Nat) (signed : Bool) (s s1 : State) (t : Tid) (rd : Reg) (pa : Nat) : Prop :=
  let gives (d : BitVec 1024) : Prop :=
    ∃ n, exec i s = .next n ∧ regDone s n t rd (lineValue d (pa % 128) k signed) ((thread s t).pc + 4) ∧ pathFrame t s1 n
  (∀ e, (ownEntries s1 t pa k).getLast? = some e → e.mask &&& byteMask (pa % 128) k = byteMask (pa % 128) k → gives e.data)
  ∧ (∀ y, ownEntries s1 t pa k = [] → l1Line s1 (cellOf t) pa = some y → linePoison y.body (pa % 128) k = false →
        y.bad &&& wordsUnder (pa % 128) k = 0 → gives y.body.data)

/-- The k low bytes of v laid over a line's bytes at an offset, least significant first (R4). -/
def laidOver (old new : BitVec 1024) (off k : Nat) (v : Word) : Prop :=
  ∀ b, b < 128 → new.extractLsb' (8 * b) 8 = if off ≤ b ∧ b < off + k then v.extractLsb' (8 * (b - off)) 8 else old.extractLsb' (8 * b) 8

/-- A store of the k low bytes of v by thread t at the HBM address pa, which translation left the state s1 for: the bytes go into the open entry of the thread and the line, else into a new one; the L1's copy of the line takes them too, with their parity (R222), and is no longer marked as prefetched (R238); nothing else but the pc changes (R224, R225). -/
def storeGives (i : Instr) (k : Nat) (s s1 : State) (t : Tid) (v : Word) (pa : Nat) : Prop :=
  let c := cellOf t
  let wb := (cell s1 c).wb
  let off := pa % 128
  let grown (e e' : WbEnt) : Prop :=
    e' = { e with data := e'.data, mask := e.mask ||| byteMask off k, drained := decide (e.mask ||| byteMask off k = BitVec.allOnes 128) }
    ∧ laidOver e.data e'.data off k v
  let done (n : State) : Prop :=
    exec i s = .next n ∧ regDone s n t 0 0 ((thread s t).pc + 4) ∧ pathFrame t s1 n
    ∧ (∀ y, l1Line s1 c pa = some y → ∃ d, l1Line n c pa = some { y with body := d, bad := y.bad &&& ~~~wordsCovered off k, pmark := none } ∧ laidOver y.body.data d.data off k v)
  (∀ j e, storeMerges (cell s1 c) (thrOf t) (pa / 128) = some j → wb[j]? = some e →
      ∃ n e', done n ∧ grown e e' ∧ (cell n c).wb = wb.set j e')
  ∧ (storeMerges (cell s1 c) (thrOf t) (pa / 128) = none → wb.length < 16 →
      ∃ n e', done n ∧ grown { line := pa / 128, data := 0, mask := 0, owner := Fin.ofNat 8 (thrOf t) } e' ∧ (cell n c).wb = wb ++ [e'])

/-! ## Atomics, exceptions and returns -/

/-- Nothing of the cell of thread t waits to be performed: no open store, no outstanding load, no atomic, no request of its tile pipe; s2 awaits no result. -/
def quiet (s : State) (t : Tid) : Prop :=
  (cell s (cellOf t)).wb = [] ∧ (cell s (cellOf t)).mshrs = [] ∧ (cell s (cellOf t)).loads = [] ∧ (cell s (cellOf t)).slots = []
  ∧ (cell s (cellOf t)).atomics = [] ∧ bit (thread s t).busy 2 = false

/-- The k bytes of memory at an address as a little-endian number (R4). -/
def wordAt (s : State) (pa k : Nat) : Nat := ofLE ((List.range k).map (fun i => byteAt s (pa + i)))

/-- What an access of thread t at a home leaves alone: other threads but their yield marks, other cells, its own cell but its caches, every register but those that count events and corrected errors and the armed injection, the stacks but their queues, and all of memory but the bytes that the statement names. -/
def homeFrame (t : Tid) (s n : State) : Prop :=
  n = { s with threads := n.threads, cells := n.cells, ms := { s.ms with mem := n.ms.mem, rc := n.ms.rc, rcSets := n.ms.rcSets, rcOut := n.ms.rcOut, hbmPoison := n.ms.hbmPoison, bmPoison := n.ms.bmPoison },
               mmio := n.mmio, err := n.err, out := n.out, pba := n.pba, msixDue := n.msixDue, hbm := queued s n }
  ∧ (∀ u, u ≠ t → thread n u = { thread s u with yield := (thread n u).yield })
  ∧ (∀ c, c ≠ cellOf t → cell n c = cell s c)
  ∧ (let x := cell n (cellOf t)
     x = { cell s (cellOf t) with last := x.last, l1 := x.l1, victim := x.victim, mshrs := x.mshrs, streams := x.streams, streamNo := x.streamNo })
  ∧ regsKept [.perfCnt, .perfEvt, .hbmChstat, .errInj] s n

/-- An atomic of thread t at pa, which translation left the state s1 for: rd takes the old value, sign-extended, and memory f of the old value, rs2 and rd (R47); no other byte changes. -/
def atomicGives (i : Instr) (d : Bool) (s s1 : State) (t : Tid) (rd b : Reg) (pa : Nat) (f : (w : Nat) → BitVec w → BitVec w → BitVec w → BitVec w) : Prop :=
  let k := if d then 8 else 4
  let old := wordAt s pa k
  let new := if d then (f 64 (BitVec.ofNat 64 old) (rx s t b) (rx s t rd)).toNat
    else (f 32 (BitVec.ofNat 32 old) ((rx s t b).setWidth 32) ((rx s t rd).setWidth 32)).toNat
  ∃ n, exec i s = .next n
    ∧ regDone s n t rd (if d then BitVec.ofNat 64 old else (BitVec.ofNat 32 old).signExtend 64) ((thread s t).pc + 4)
    ∧ (∀ x, byteAt n x = if pa ≤ x ∧ x < pa + k then BitVec.ofNat 8 (new / 2 ^ (8 * (x - pa))) else byteAt s x)
    ∧ homeFrame t s1 n

/-- Between s and n thread t has entered level l (R67): where it was, the cause and its value stand in the level's registers, its status is stacked, s2 and XSP are exchanged; no other register of the thread changes. -/
def entered (s n : State) (t : Tid) (l : Nat) (pc cause val : Word) (prio : Option Nat) : Prop :=
  let old := srAt s t (lvlReg l 1)
  let new := srAt n t (lvlReg l 1)
  srAt n t (lvlReg l 0) = pc &&& fmask 64 47 2
  ∧ srAt n t (lvlReg l 2) = cause
  ∧ srAt n t (lvlReg l 3) = val
  ∧ bits new 14 13 = (thread s t).level.toNat ∧ bits new 11 8 = bits old 3 0 ∧ bits new 12 12 = bits old 4 4 ∧ bits new 4 4 = 1
  ∧ bits new 3 0 = prio.getD (bits old 3 0)
  ∧ rx n t 2 = srAt s t (lvlReg l 5) ∧ srAt n t (lvlReg l 5) = rx s t 2
  ∧ (∀ r, r ≠ 2 → rx n t r = rx s t r)
  ∧ (∀ m, (∀ k, k < 6 → k ≠ 4 → m ≠ lvlReg l k) → srAt n t m = srAt s t m)
  ∧ (thread n t).level = BitVec.ofNat 2 l ∧ (thread n t).st = .ready

/-- The vector table of level l holds h for a cause, in HBM, as thread t finds it in state s (R63): its read waits for no home. -/
def handlerAt (s : State) (t : Tid) (l code : Nat) (h : Word) : Prop :=
  (∃ pa s', translate s (cellOf t) (ctxAt s t (BitVec.ofNat 2 l)) ((srAt s t (lvlReg l 4) &&& fmask 64 47 9) + wd (8 * code)) .load = (.ok pa, s') ∧ pa < 0xF000000000)
  ∧ readAsNeeds s t (BitVec.ofNat 2 l) (vectorAddr s t l code) 8 = []
  ∧ (vectorRead s t l code).1 = .ok h

/-- Instruction i of thread t takes a synchronous exception to level l: it enters there and goes on at the handler; no byte of memory changes, no other thread but in its yield mark. -/
def traps (i : Instr) (s : State) (t : Tid) (l : Nat) (e : Exc) : Prop :=
  ∀ h, handlerAt (enterRegs (issued s t) t l (thread s t).pc e false none) t l e.code h →
    ∃ n, exec i s = .next n ∧ entered s n t l (thread s t).pc (BitVec.ofNat 64 (e.code + 256 * e.detail)) e.val none
      ∧ (thread n t).pc = h ∧ bytesKept s n ∧ (∀ u, u ≠ t → thread n u = { thread s u with yield := (thread n u).yield })

/-! ## System registers and returns -/

/-- Thread t has gone on to p between s and n with its general registers as they were. -/
def wentOn (s n : State) (t : Tid) (p : Word) : Prop := regDone s n t 0 0 p

/-- What an instruction leaves alone that changes system registers, the level and scalar registers of thread t alone. -/
def privFrame (t : Tid) (s n : State) : Prop :=
  thread n t = { thread s t with level := (thread n t).level, pc := (thread n t).pc, regs := (thread n t).regs, sr := (thread n t).sr,
                                 yield := (thread n t).yield, younger := (thread n t).younger }
  ∧ issueFrame t s n

/-- An `sr.*` of thread t on register m other than TILEOWN, writing v when it writes: rd takes the value read, the register the bits of v that exist, a reserved value leaves its field (R8, R55); no other system register changes. -/
def srGives (i : Instr) (s : State) (t : Tid) (rd : Reg) (m : Nat) (v : Word) (writes : Bool) : Prop :=
  ∃ n, exec i s = .next n
    ∧ rx n t rd = (if rd = 0 then 0 else srRead s t m) ∧ (∀ r, r ≠ rd → rx n t r = rx s t r)
    ∧ (thread n t).pc = (thread s t).pc + 4 ∧ (thread n t).level = (thread s t).level
    ∧ (∀ k, k ≠ m → srAt n t k = srAt s t k)
    ∧ (writes = false → srAt n t m = srAt s t m)
    ∧ (writes = true → ∀ j, j < 64 →
        let held := (m = 0x001 ∨ m = 0x800) ∧ j < 2 ∧ bits v 1 0 = 3 ∨ m % 0x400 = 0x11 ∧ (j = 13 ∨ j = 14) ∧ bits v 14 13 = 3
        bit (srAt n t m) j = if held then bit (srAt s t m) j else bit v j && bit (srMask m) j)
    ∧ privFrame t s n

/-- The register changes of an illegal return to level l by thread t at level cur (R74): the cause, the value and FM of cur. -/
def illegalEntry (s : State) (t : Tid) (cur l : Nat) : State :=
  srPutF (srPut (srPut s t (lvlReg cur 2) (pack [(0, 0x0B), (8, l)])) t (lvlReg cur 3) (thread s t).pc) t (lvlReg cur 1) 4 4 1

/-- An illegal return to level l (R74): only XCAUSE, XVAL and FM of the current level change; the thread goes on at the handler of cause 0x0B. -/
def illegalReturns (i : Instr) (s : State) (t : Tid) (l : Nat) : Prop :=
  let cur := (thread s t).level.toNat
  ∀ h, handlerAt (illegalEntry (issued s t) t cur l) t cur 0x0B h →
    ∃ n, exec i s = .next n
      ∧ srAt n t (lvlReg cur 2) = BitVec.ofNat 64 (0x0B + 256 * l) ∧ srAt n t (lvlReg cur 3) = (thread s t).pc
      ∧ (∀ j, j < 64 → bit (srAt n t (lvlReg cur 1)) j = (decide (j = 4) || bit (srAt s t (lvlReg cur 1)) j))
      ∧ (∀ m, (∀ k, 1 ≤ k → k ≤ 3 → m ≠ lvlReg cur k) → srAt n t m = srAt s t m)
      ∧ (∀ r, rx n t r = rx s t r) ∧ (thread n t).level = (thread s t).level ∧ (thread n t).pc = h
      ∧ bytesKept s n ∧ (∀ u, u ≠ t → thread n u = { thread s u with yield := (thread n u).yield })

/-- The same for an instruction whose reads left the state u before its return was found illegal (R75): beside what vectoring reads, only XCAUSE, XVAL and FM of the current level differ from u. -/
def illegalReturnsAfter (i : Instr) (s u : State) (t : Tid) (l : Nat) : Prop :=
  let cur := (thread s t).level.toNat
  ∀ h, handlerAt (illegalEntry u t cur l) t cur 0x0B h →
    ∃ n, exec i s = .next n
      ∧ srAt n t (lvlReg cur 2) = BitVec.ofNat 64 (0x0B + 256 * l) ∧ srAt n t (lvlReg cur 3) = (thread s t).pc
      ∧ (∀ j, j < 64 → bit (srAt n t (lvlReg cur 1)) j = (decide (j = 4) || bit (srAt s t (lvlReg cur 1)) j))
      ∧ (∀ m, (∀ k, 1 ≤ k → k ≤ 3 → m ≠ lvlReg cur k) → srAt n t m = srAt s t m)
      ∧ (∀ r, rx n t r = rx s t r) ∧ (thread n t).level = (thread s t).level ∧ (thread n t).pc = h
      ∧ bytesKept u n ∧ (∀ x, x ≠ t → thread n x = thread u x)

/-! ## Vector instructions -/

/-- Element i of w bits of the group of vector registers that begins at r: bits [w × i + w − 1 : w × i] of the group, which may reach into the next register (R105). -/
def vEl (v : Table (BitVec 8192)) (w r i : Nat) : BitVec w :=
  let k := r + w * i / 8192
  let off := w * i % 8192
  BitVec.ofNat w ((tget 0 v k).toNat / 2 ^ off + (tget 0 v (k + 1)).toNat * 2 ^ (8192 - off))

/-- Element i of w bits of a group of g registers is active under a predicate; q0 reads all ones (R104, R107, R112). -/
def vActive (th : Thread) (qp w g i : Nat) : Prop := qp = 0 ∨ (tget 0 th.q qp).getLsbD (i * w / (8 * g)) = true

/-- v / 2^s rounded to the nearest integer, a half upwards (R115, R116). -/
def roundHalfUp (v : Int) (s : Nat) : Int := (2 * v + 2 ^ s) / 2 ^ (s + 1)

/-- v / 2^s rounded to the nearest integer, a half to the even one (R116). -/
def roundHalfEven (v : Int) (s : Nat) : Int :=
  let h := roundHalfUp v s
  if (2 * v + 2 ^ s) % 2 ^ (s + 1) = 0 ∧ h % 2 ≠ 0 then h - 1 else h

/-- A decoupled instruction of thread t that touches the scalar registers named may issue into empty queues of a compute cell, and its pipe takes it at once: no other thread of the cell has an instruction in its queues or an element that waits for a miss register, and no more entries are open than the write buffer has (R32, R33, R134, R225, R231). -/
def decReady (s : State) (t : Tid) (rs : List Reg) : Prop :=
  mayIssue s t false (0 :: rs) = true ∧ isMantle (cellOf t) = false ∧ (thread s t).vq = [] ∧ (thread s t).tq = [] ∧ (thread s t).hold = []
  ∧ (∀ u, cellOf u = cellOf t → u ≠ t → (thread s u).vq = [] ∧ (thread s u).tq = [])
  ∧ (cell s (cellOf t)).held = [] ∧ (cell s (cellOf t)).wb.length ≤ 16

/-- What a decoupled instruction that stays in its thread's registers leaves alone: what an issue does, and the pipe that took it with the number that it took (R31, R134). -/
def unitFrame (t : Tid) (s n : State) : Prop :=
  n = { s with threads := n.threads, cells := n.cells, mmio := n.mmio, out := n.out, pba := n.pba, msixDue := n.msixDue }
  ∧ (∀ u, u ≠ t → thread n u = { thread s u with yield := (thread n u).yield })
  ∧ (∀ c, c ≠ cellOf t → cell n c = cell s c)
  ∧ (let x := cell n (cellOf t)
     x = { cell s (cellOf t) with last := x.last, accNo := x.accNo, pipeLast := x.pipeLast })
  ∧ regsKept [.perfCnt, .perfEvt] s n
  ∧ bytesKept s n

/-- FFLAGS gained the flags of a set, no other bit and no other system register changed (R155). -/
def flagsGained (s n : State) (t : Tid) (fl : Nat → Prop) : Prop :=
  (∀ m, m ≠ 0x002 → srAt n t m = srAt s t m)
  ∧ (∀ j, j < 64 → (bit (srAt n t 0x002) j = true ↔ bit (srAt s t 0x002) j = true ∨ (j < 9 ∧ fl j)))

/-- A decoupled instruction of thread t has issued, resolved and delivered between s and n: the pc moved to p, and of the thread only what is named else may differ. -/
def decDone (s n : State) (t : Tid) (p : Word) : Prop :=
  thread n t = { thread s t with v := (thread n t).v, q := (thread n t).q, sr := (thread n t).sr, regs := (thread n t).regs, pc := p,
                                 yield := (thread n t).yield, younger := (thread n t).younger }
  ∧ unitFrame t s n

/-- Every vector register but those of a group stays. -/
def vRest (s n : State) (t : Tid) (vd k : Nat) : Prop := ∀ r, r < vd ∨ vd + k ≤ r → tget 0 (thread n t).v r = tget 0 (thread s t).v r

/-- Instruction i of thread t, with its pc moved to p, gives each active element of its destination group a new value and flags, from its number and its old value; the other elements, registers, predicates and scalar registers stay. -/
def vecGives (i : Instr) (s : State) (t : Tid) (p : Word) (w g vd qp : Nat) (el : Nat → BitVec w → BitVec w × Nat) : Prop :=
  let old (k : Nat) : BitVec w := vEl (thread s t).v w vd k
  let act (k : Nat) : Prop := k < g * 8192 / w ∧ vActive (thread s t) qp w g k
  ∃ n, exec i s = .next n ∧ decDone s n t p
    ∧ (∀ k, k < g * 8192 / w → (act k → vEl (thread n t).v w vd k = (el k (old k)).1) ∧ (¬act k → vEl (thread n t).v w vd k = old k))
    ∧ vRest s n t vd g ∧ (thread n t).q = (thread s t).q ∧ (thread n t).regs = (thread s t).regs
    ∧ flagsGained s n t (fun j => ∃ k, act k ∧ (el k (old k)).2.testBit j = true)

/-- What the random bits of an instruction that thread t issues now come from: SRSEED, SRSTREAM and the step (R148, R149). -/
def randomOf (s : State) (t : Tid) : SrCtx := { seed := srAt s t 3, stream := srAt s t 4, step := stepReg s (thread s t).spec.isSome }

/-- A bit of a predicate; q0 reads all ones (R104). -/
def qBit (th : Thread) (q j : Nat) : Bool := decide (q = 0) || (tget 0 th.q q).getLsbD j

/-- Instruction i of thread t writes all bits of the predicate qd, unless that is q0, and gains flags; the other predicates, the vector registers and the scalar registers stay. -/
def predGives (i : Instr) (s : State) (t : Tid) (qd : Nat) (bits : Nat → Prop) (fl : Nat → Prop) : Prop :=
  ∃ n, exec i s = .next n ∧ decDone s n t ((thread s t).pc + 4)
    ∧ (∀ j, j < 1024 → qd ≠ 0 → ((tget 0 (thread n t).q qd).getLsbD j = true ↔ bits j))
    ∧ (∀ q, q ≠ qd ∨ q = 0 → tget 0 (thread n t).q q = tget 0 (thread s t).q q)
    ∧ (thread n t).v = (thread s t).v ∧ (thread n t).regs = (thread s t).regs
    ∧ flagsGained s n t fl

/-- Instruction i of thread t writes the first n elements of w bits of the group at vd and gains flags; every other bit of a vector register, the predicates and the scalar registers stay. -/
def elGives (i : Instr) (s : State) (t : Tid) (w vd n : Nat) (el : Nat → BitVec w) (len : Word) (fl : Nat) : Prop :=
  ∃ m, exec i s = .next m ∧ decDone s m t ((thread s t).pc + len)
    ∧ (∀ k, k < n → vEl (thread m t).v w vd k = el k)
    ∧ (∀ r b, b < 8192 → r < vd ∨ w * n ≤ 8192 * (r - vd) + b → (tget 0 (thread m t).v r).getLsbD b = (tget 0 (thread s t).v r).getLsbD b)
    ∧ (thread m t).q = (thread s t).q ∧ (thread m t).regs = (thread s t).regs
    ∧ flagsGained s m t (fun j => fl.testBit j = true)

/-- Instruction i of thread t writes a scalar register and nothing else but the pc. -/
def scalarFrom (i : Instr) (s : State) (t : Tid) (rd : Reg) (x : Word) : Prop :=
  ∃ n, exec i s = .next n ∧ decDone s n t ((thread s t).pc + 4)
    ∧ rx n t rd = (if rd = 0 then 0 else x) ∧ (∀ r, r ≠ rd → rx n t r = rx s t r)
    ∧ (thread n t).v = (thread s t).v ∧ (thread n t).q = (thread s t).q ∧ ∀ m, srAt n t m = srAt s t m

/-- A long instruction i of thread t gives each active element of w bits, of n at vd, a code and flags, and writes scale bytes to a register if it is told; every other bit of a vector register, the predicates and the scalar registers stay. -/
def convGives (i : Instr) (s : State) (t : Tid) (w vd n : Nat) (act : Nat → Bool) (el : Nat → Fl Nat) (scales : Option (Nat × Nat × (Nat → Nat))) : Prop :=
  let scaled (r b : Nat) : Prop := ∃ q c f, scales = some (q, c, f) ∧ (r - q) * 8192 + b < 8 * c ∧ q ≤ r
  ∃ m, exec i s = .next m ∧ decDone s m t ((thread s t).pc + 12)
    ∧ (∀ k, k < n → vEl (thread m t).v w vd k = if act k then BitVec.ofNat w (el k).1 else vEl (thread s t).v w vd k)
    ∧ (∀ q c f, scales = some (q, c, f) → ∀ b, b < c → vEl (thread m t).v 8 q b = BitVec.ofNat 8 (f b))
    ∧ (∀ r b, b < 8192 → r < vd ∨ w * n ≤ 8192 * (r - vd) + b → ¬scaled r b → (tget 0 (thread m t).v r).getLsbD b = (tget 0 (thread s t).v r).getLsbD b)
    ∧ (thread m t).q = (thread s t).q ∧ (thread m t).regs = (thread s t).regs
    ∧ flagsGained s m t (fun j => ∃ k, k < n ∧ act k = true ∧ (el k).2.testBit j = true)

/-! ## Decoupled instructions with memory or tiles -/

/-- The queue entry of an instruction issued now and begun at once by its pipe, at an element or a row. -/
def entryOf (s : State) (f : DecForm) (i : Instr) (start : Nat := 0) : DecEntry :=
  { instr := i, pc := (thread s f.t).pc, word := (word0 i).setWidth 64, a := rx s f.t f.a, b := rx s f.t f.b, d := rx s f.t f.d,
    more := f.more.map (rx s f.t), epoch := (ctxOf s f.t).epoch, spec := (thread s f.t).spec, step := stepReg s (thread s f.t).spec.isSome,
    regs := (thread s f.t).regs, busy := (thread s f.t).busy, level := (thread s f.t).level, resolved := false, result := none,
    mark := (cell s (cellOf f.t)).accNo, at' := some start, next := start, ask := (cell s (cellOf f.t)).accNo }

/-- The state in which the pipe of an instruction issued now has begun it (R32, R134). -/
def begun (s : State) (f : DecForm) (i : Instr) : State :=
  let s := enqueue s f i
  match oldestUnresolved (thread s f.t) with
  | some e => beginEntry s f.t e
  | none => s

/-- Instruction i of thread t has issued, its unit has left the state u with these flags (R32, R33, R155): nothing but the thread differs from u, its queues and its window are empty. -/
def unitGives (i : Instr) (s : State) (t : Tid) (u : State) (fl : Nat) (also : State → Prop) : Prop :=
  ∃ n, exec i s = .next n
    ∧ n = { u with threads := n.threads } ∧ (∀ x, x ≠ t → thread n x = thread u x)
    ∧ thread n t = { thread u t with v := (thread n t).v, sr := (thread n t).sr, regs := (thread n t).regs, busy := (thread s t).busy,
                                     vq := [], tq := [], hold := [], younger := 0 }
    ∧ flagsGained u n t (fun j => fl.testBit j = true) ∧ also n

/-- A tile instruction of thread t has completed between s and n: but for the thread and what issue changes, only the cell's tiles, their marks and extents, the operand cache, the latches and the harp's buffers may differ; the scalar registers and the vector state stay. -/
def tileDone (s n : State) (t : Tid) : Prop :=
  thread n t = { thread s t with sr := (thread n t).sr, regs := (thread n t).regs, pc := (thread s t).pc + 12,
                                 yield := (thread n t).yield, younger := (thread n t).younger }
  ∧ (∀ u, u ≠ t → thread n u = { thread s u with yield := (thread n u).yield })
  ∧ n = { s with threads := n.threads, cells := n.cells, mmio := n.mmio, out := n.out, pba := n.pba, msixDue := n.msixDue }
  ∧ (∀ c, c ≠ cellOf t → cell n c = cell s c)
  ∧ (let x := cell n (cellOf t)
     x = { cell s (cellOf t) with last := x.last, accNo := x.accNo, pipeLast := x.pipeLast, tiles := x.tiles, tpoison := x.tpoison, tparity := x.tparity,
                                  tattr := x.tattr, opcache := x.opcache, capo := x.capo, harp := x.harp })
  ∧ regsKept [.perfCnt, .perfEvt] s n
  ∧ bytesKept s n

/-- Tile td of the cell of thread t takes rows × cols elements of format fd, and no other tile's row, mark or extent changes. -/
def tileTakes (s n : State) (t : Tid) (td rows cols fd : Nat) (el : Nat → Nat → Nat) : Prop :=
  let x := cell s (cellOf t)
  let y := cell n (cellOf t)
  (∀ r k, r < rows → k < cols → tileEl y td fd r k = el r k % 2 ^ fmtBits fd)
  ∧ tileAttr y td = { tileAttr x td with rows := rows, colBytes := rowBytes cols fd }
  ∧ (∀ u, u ≠ td → tileAttr y u = tileAttr x u)
  ∧ (∀ k, (k < 64 * td ∨ 64 * td + rows ≤ k) → tget 0 y.tiles k = tget 0 x.tiles k ∧ tget false y.tpoison k = tget false x.tpoison k)

/-! ## Pegs and registers -/

/-- The part serves its registers whole: it has not stopped, and its boot is in neither of the stages that serve a few (R415, R421, R448). -/
def serving (s : State) : Prop := s.power.down = false ∧ rf s .devBoot F.devBootStage ≠ 10 ∧ rf s .devBoot F.devBootStage ≠ 11

/-- A register access of an agent is made now: no push of it is held in the fabric, and it runs no SPEC task (R45, R264, R300, R349). -/
def mayAccess (s : State) (a : Agent) : Prop := agentHeld s a = false ∧ agentSpec s a = false

/-- The part takes the agent's register accesses now. -/
def takes (s : State) (a : Agent) : Prop := serving s ∧ mayAccess s a

/-- No thread waits at peg p for a barrier's target that v reaches. -/
def noBarrierMet (s : State) (p v : Nat) : Prop := ∀ q ∈ s.threads, ∀ x o r, q.2.st = .waiting (.arrive p x o r) → v < x

/-- Between s and n peg p took the value v and no other peg changed; every `peg.wait` on p whose condition v meets is satisfied by v, and of the threads that the statement does not name nothing else changed (R366). -/
def pegTook (s n : State) (p v : Nat) (but : Tid → Prop) : Prop :=
  pegVal n p = v ∧ (∀ q, q ≠ p → pegVal n q = pegVal s q)
  ∧ ∀ u, ¬but u → thread n u = { thread s u with
      yield := (thread n u).yield
      st := match (thread s u).st with
        | .waiting (.peg q x eq rd) => if q = p ∧ (if eq = true then v = x else x ≤ v) then .waiting (.released v rd) else .waiting (.peg q x eq rd)
        | w => w }

/-- What a peg operation leaves alone but threads and the peg's value: the cells but their caches, marks of waking and of the last issue, the PLLs that a wake starts, every register but the performance counters, every byte of memory. -/
def pegFrame (s n : State) : Prop :=
  n = { s with threads := n.threads, cells := n.cells, mmio := n.mmio, out := n.out, pba := n.pba, msixDue := n.msixDue, clk := { s.clk with starting := n.clk.starting },
               pegs := { s.pegs with vals := n.pegs.vals, watches := n.pegs.watches } }
  ∧ (∀ c, let x := cell n c
     x = { cell s c with last := x.last, l1 := x.l1, victim := x.victim, mshrs := x.mshrs, streams := x.streams, wakeReq := x.wakeReq })
  ∧ regsKept [.perfCnt, .perfEvt] s n ∧ bytesKept s n

/-- The L1 and the victim cache of core c hold nothing, and no fill in flight will install its line (R50, R228). -/
def flushed (s : State) (c : Nat) : Prop := (cell s c).l1 = [] ∧ (cell s c).victim = [] ∧ ∀ m ∈ (cell s c).mshrs, m.install = false

/-! ## Frames of the commands outside the cells -/

/-- Between s and n register words alone have changed, of the registers named. -/
def mmioFrame (but : List RegName) (s n : State) : Prop := n = { s with mmio := n.mmio } ∧ regsKept but s n

/-- Between s and n nothing has changed but the state of core c. -/
def cellFrame (c : Nat) (s n : State) : Prop := n = { s with cells := n.cells } ∧ ∀ d, d ≠ c → cell n d = cell s d

/-- Instance i of register r keeps every bit but those of the fields named. -/
def fieldsKept (r : RegName) (i : Nat) (but : List Fld) (s n : State) : Prop :=
  ∀ j, j < 64 → (∀ f ∈ but, j < f.lo ∨ f.hi < j) → bit (reg n r i) j = bit (reg s r i) j

/-- The error notes of n are those of s and this one (R459). -/
def noted (s n : State) (e : ErrRec) : Prop := n.err = { s.err with detected := s.err.detected ++ [e] }

/-- Bytes bs stand at pa in n, every other byte of memory as in s. -/
def bytesAt (s n : State) (pa : Nat) (bs : List Byte) : Prop :=
  ∀ a, byteAt n a = if pa ≤ a ∧ a < pa + bs.length then bs.getD (a - pa) 0 else byteAt s a

/-- Every instance of register r but instance i reads as before. -/
def instKept (r : RegName) (i : Nat) (s n : State) : Prop := ∀ j, j < 65536 → j ≠ i → reg n r j = reg s r j

/-- What a lining engine leaves alone (R221, R255, R262, R268): all but the lining's queues and tasks, memory and the region caches as the statement names them, the errors that its reads meet, the tokens it draws and the TLBs of its stack's walker. -/
def engineFrame (c : Nat) (s n : State) : Prop :=
  n = { s with lining := n.lining, cells := n.cells, err := n.err, mmio := n.mmio, hbm := queued s n
               ms := { s.ms with mem := n.ms.mem, rc := n.ms.rc, rcSets := n.ms.rcSets, rcOut := n.ms.rcOut, hbmPoison := n.ms.hbmPoison, bmPoison := n.ms.bmPoison } }
  ∧ ∀ d, d ≠ c → cell n d = cell s d

/-- A packet's tag as the part sends it (R315, R384, R387): the VLAN of the image, the priority's PCP, ECT(0), UDP port 4791. -/
def tagged (s : State) (prio : Nat) (tag : NetTag) : Prop := tag.vlan = s.net.vlan ∧ tag.pcp = prio ∧ tag.ecn = 2 ∧ tag.udp = 4791

/-- A message of this rank with a property has left for another rank between s and n, or waits (R310, R316, R386): it leaves, tagged, where the hem is not in INPLACE, a path to the rank is up, and no port's RoCE priority is paused. -/
def sentTo (s n : State) (dst : Nat) (P : Msg → Prop) : Prop :=
  ∃ port m tag, P m ∧ tagged s s.net.rpri tag ∧ (.net port dst m tag ∈ n.out ∨ (port, dst, m) ∈ n.coll.waits)
    ∧ (hemState s ≠ 3 → (∃ p, p < 4 ∧ pathUp s dst p = true) → (∀ p, p < 4 → prioPaused s p s.net.rpri = false) → .net port dst m tag ∈ n.out)

/-- The messages that waited have been sent again, as far as they can go, with DEV_HEMDIG as it stands (R310, R316, R327). -/
def released (s n : State) : Prop :=
  ∀ w ∈ s.coll.waits, sentTo n n w.2.1 (fun m => m = { w.2.2 with w0 := m.w0, w3 := reg s .devHemdig })

/-- A roll-call datagram has left for a GID, or waits for its priority or its next hop (R315, R384, R386): it leaves, tagged, where neither holds it. -/
def rolled (n : State) (gid : List Byte) (P : Msg → Prop) : Prop :=
  ∃ port m, P m
    ∧ ((∃ tag, tagged n n.net.rpri tag ∧ .datagram port gid 2 0x5E1A0001 m tag ∈ n.out) ∨ ∃ w ∈ n.net.wait, w.port = port ∧ w.gid = gid ∧ w.out = .datagram port gid 2 0x5E1A0001 m {})
    ∧ (prioPaused n port n.net.rpri = false → hopKnown n port gid = true → ∃ tag, .datagram port gid 2 0x5E1A0001 m tag ∈ n.out)

/-- Between s and n a new packet for a GID was sent at a priority of a port (R384, R386, R387): it leaves, tagged, or waits; it leaves where its priority runs and its next hop is known. -/
def left (s n : State) (port prio : Nat) (gid : List Byte) (o : NetTag → Out) : Prop :=
  ((∃ tag, tagged s prio tag ∧ o tag ∈ n.out) ∨ ∃ w ∈ n.net.wait, w.port = port ∧ w.prio = prio ∧ w.gid = gid ∧ w.out = o {})
  ∧ (prioPaused s port prio = false → hopKnown s port gid = true → n.net.wait = s.net.wait ∧ n.out = s.out ++ [o (tagOf s port prio gid)])

/-- The packets that waited in s have left in n, as far as their priorities run and their next hops are known. -/
def unheld (s n : State) : Prop :=
  ∀ w ∈ s.net.wait, prioPaused n w.port w.prio = false → hopKnown n w.port w.gid = true → w.out.withTag (tagOf n w.port w.prio w.gid) ∈ n.out

/-! ## Verdicts of the hem (R293, R294, R296) -/

/-- Between s and n the hem gave a verdict of this KIND, for the step that n stands at: it is recorded and notified, then the states named in `after` are; what waited for the verdict is cleared (R291–R294). -/
def verdict (s n : State) (kind : Nat) (after : List Nat) : Prop :=
  reg n .devHemverd = pack [(0, n.hem.step.toNat), (48, kind)] ∧ rf n .devHemctl F.devHemctlNonfin = 0
  ∧ n.hem.updNonfin = false ∧ n.hem.latePost = false ∧ n.hem.twin = none ∧ n.hem.twinWait = false
  ∧ n.hem.notes = s.hem.notes ++ kind :: after ∧ .mantle "verdict" (wd kind) ∈ n.out
  ∧ n.mantle.commits = s.mantle.commits ++ (if kind = 1 then [(n.hem.step, reg n .devEpoch)] else [])
  ∧ n.hem.paired = s.hem.paired ∧ ∀ r ∈ [RegName.devHemasid, .devHeminit, .devHemupd, .devHemnotify, .devAstbase], reg n r = reg s r

/-- Between s and n the hem discarded the step (R94, R294, R296, R311): STEP and EPOCH stay, the digests' accumulators are clear, every core is told, LSEXP falls after a non-finite step alone. -/
def discarded (s n : State) (kind : Nat) (after : List Nat) : Prop :=
  verdict s n kind after ∧ n.hem.step = s.hem.step ∧ reg n .devEpoch = reg s .devEpoch ∧ reg n .devHemdig = reg s .devHemdig ∧ reg n .devHemtgt = reg s .devHemtgt
  ∧ n.hem.xdig = 0 ∧ (∀ k, k < 12 → reg n .liningSdig k = 0)
  ∧ (kind ≠ 3 → n.hem.lsexp = s.hem.lsexp ∧ n.hem.clean = s.hem.clean)
  ∧ (kind = 3 → n.hem.clean = 0 ∧ n.hem.lsexp.toInt = (let low := (BitVec.ofNat 8 (rf s .devHemcfg F.devHemcfgLsmin)).toInt
      if s.hem.lsexp.toInt ≤ low then s.hem.lsexp.toInt else s.hem.lsexp.toInt - 1))
  ∧ ∀ c, c < 772 → (cell n c).updates = (cell s c).updates ++ [{ epoch := reg s .devEpoch, step := s.hem.step, discard := true }]

/-- Between s and n the hem committed the step (R94, R293, R296): STEP counts, EPOCH of a paired job's spaces flips and DEV_HEMDIG takes d, LSEXP grows after GROW clean steps, every core is told. -/
def committed (s n : State) (d : Word) (after : List Nat) : Prop :=
  let clean := min 65535 (s.hem.clean.toNat + 1)
  let grows : Prop := rf s .devHemcfg F.devHemcfgGrow ≠ 0 ∧ rf s .devHemcfg F.devHemcfgGrow ≤ clean
  let epoch := if s.hem.paired = true then reg s .devEpoch ^^^ reg s .devHemasid else reg s .devEpoch
  verdict s n 1 after ∧ n.hem.step = s.hem.step + 1 ∧ reg n .devEpoch = epoch ∧ reg n .devHemdig = (if s.hem.paired = true then d else reg s .devHemdig)
  ∧ (grows → n.hem.clean = 0 ∧ n.hem.lsexp.toInt = min (s.hem.lsexp.toInt + 1) (BitVec.ofNat 8 (rf s .devHemcfg F.devHemcfgLsmax)).toInt)
  ∧ (¬grows → n.hem.clean.toNat = clean ∧ n.hem.lsexp = s.hem.lsexp)
  ∧ ∀ c, c < 772 → (cell n c).updates = (cell s c).updates ++ [{ epoch := epoch, step := s.hem.step + 1, discard := false }]

/-! ## The mailbox (R396) -/

/-- Slot k holds in n the response to the request that it held in s (R396): OP and TAG stay, then the status and the result's length, the result, zeros; its BUSY is clear and its DONE set, the interrupt is posted; every other slot stays. -/
def answered (s n : State) (k st : Nat) (res : List Byte) : Prop :=
  let old (o : Nat) : Byte := tget 0 s.mantle.box (256 * k + o)
  let new (o : Nat) : Byte := tget 0 n.mantle.box (256 * k + o)
  let busy (q : State) : Nat := rf q .mantleMbstat F.mantleMbstatBusy
  let done (q : State) : Nat := rf q .mantleMbstat F.mantleMbstatDone
  let vec := rf s .mantleMbcfg F.mantleMbcfgVec
  new 2 = BitVec.ofNat 8 st ∧ new 3 = 0 ∧ (∀ o, o < 2 ∨ 4 ≤ o ∧ o < 8 → new o = old o) ∧ (∀ o, 8 ≤ o → o < 12 → new o = 0)
  ∧ (∀ o, o < 4 → new (12 + o) = (leBytes (min 176 res.length) 4).getD o 0) ∧ (∀ o, o < 240 → new (16 + o) = (res.take 176).getD o 0)
  ∧ (∀ a, a < 256 * k ∨ 256 * k + 256 ≤ a → tget 0 n.mantle.box a = tget 0 s.mantle.box a)
  ∧ n.mantle.queue = s.mantle.queue.filter (fun q => decide (q ≠ k))
  ∧ (∀ j, j < 16 → ((busy n).testBit j = true ↔ j ≠ k ∧ (busy s).testBit j = true) ∧ ((done n).testBit j = true ↔ j = k ∨ (done s).testBit j = true))
  ∧ (rf s .mantleMbcfg F.mantleMbcfgEn = 0 → n.pba = s.pba ∧ n.msixDue = s.msixDue)
  ∧ (rf s .mantleMbcfg F.mantleMbcfgEn = 1 → s.msixEn = true → vec ∈ n.msixDue ∨ bit n.pba vec = true)

/-- Between s and n nothing has changed but the mailbox, MANTLE_MBSTAT and what the interrupt sends. -/
def boxFrame (s n : State) : Prop :=
  n = { s with mantle := { s.mantle with box := n.mantle.box, queue := n.mantle.queue }, mmio := n.mmio, out := n.out, pba := n.pba, msixDue := n.msixDue } ∧ regsKept [.mantleMbstat] s n

/-- Slot k of the mailbox shows a response with this status (R396). -/
def statusIs (n : State) (k st : Nat) : Prop :=
  tget 0 n.mantle.box (256 * k + 2) = BitVec.ofNat 8 st ∧ (rf n .mantleMbstat F.mantleMbstatBusy).testBit k = false ∧ (rf n .mantleMbstat F.mantleMbstatDone).testBit k = true

/-- Between s and n thread t gained a pending interrupt, and its cell, unless it runs, a request to wake, which starts a PLL that is stopped (R22, R23, R399). -/
def interrupted (s n : State) (t : Tid) (k : Nat) : Prop :=
  n = { s with threads := n.threads, cells := n.cells, clk := { s.clk with starting := n.clk.starting } } ∧ thread n t = { thread s t with pend := setBit (thread s t).pend k true } ∧ (∀ u, u ≠ t → thread n u = thread s u)
  ∧ ∀ c, cell n c = if c = cellOf t ∧ (cell s c).power ≠ .run then { cell s c with wakeReq := true } else cell s c

/-! ## Cold boots and shutdowns (R412, R447, R448, R484) -/

/-- After a cold boot what lasts is the flash with its repair-record copies, the fuses, the drives' contents, retired spare rows and the sites of lost Mantle cores; all pegs read 0; MANTLE_NONCE has taken a value; the queue, the outputs and the count of free values lie outside the part; but for the registers named, every register reads as after power-on. -/
def coldBoot (s n : State) (but : List RegName) : Prop :=
  n = { State.reset with
    pending := s.pending, out := s.out, freeCtr := n.freeCtr, flash := s.flash, repair := { copy0 := s.repair.copy0, copy1 := s.repair.copy1 }
    hbm := { retired := s.hbm.retired }, mantle := { stored := s.mantle.stored, lostSites := s.mantle.lostSites, nonced := true }
    boot := { owner := s.boot.owner, minSvn := s.boot.minSvn, powered := n.boot.powered }
    mmio := n.mmio, lc := n.lc, power := { down := n.power.down } }
  ∧ regsKept but State.reset n ∧ rf n .devBoot F.devBootOwner = (if s.boot.owner = none then 0 else 1)
  ∧ ∀ f ∈ [F.devBootSlot, F.devBootFallback, F.devBootImage, F.devBootRprlost, F.devBootRecfull, F.devBootDebug, F.devBootFail0, F.devBootFail1, F.devBootSvn], rf n .devBoot f = 0

/-- Between s and n the part has stopped until power is cycled: SHUTDOWN# is driven, the stacks refresh themselves, no link is up. -/
def stopped (s n : State) : Prop :=
  n = { s with mmio := n.mmio, links := { bar2Gib := s.links.bar2Gib }, power := { s.power with down := true, inMaint := n.power.inMaint }, out := s.out ++ [.pin "SHUTDOWN#" false] }
  ∧ regsKept [.hbmStkstat, .ethPortstat, .rootLinkstat, .seamStat, .powerShed, .devBoot] s n
  ∧ (∀ k, k < 12 → rf n .hbmStkstat F.hbmStkstatState k = if rf s .hbmStkstat F.hbmStkstatState k = 2 ∨ rf s .hbmStkstat F.hbmStkstatState k = 3 then 5 else rf s .hbmStkstat F.hbmStkstatState k)
  ∧ (∀ k, k < 4 → rf n .ethPortstat F.ethPortstatState k = 0 ∧ rf n .rootLinkstat F.rootLinkstatState k = 0)
  ∧ rf n .seamStat F.seamStatState = 0 ∧ rf n .powerShed F.powerShedStage = 5 ∧ rf n .devBoot F.devBootStage = 0

/-- The flash with a shutdown record of 64 bytes programmed at 0x8000 (R448). -/
def shutdownLogged (s n : State) (rec' : List Byte) : Prop :=
  rec'.length = 64 ∧ ∀ a, tget 0xFF n.flash a = if 0x8000 ≤ a ∧ a < 0x8040 then rec'.getD (a - 0x8000) 0 else tget 0xFF s.flash a

end Sys2Proof.Safety
end

