-- ==== Sys2Proof/Certificates/Slice0/Obligations.lean ====
section
/-! DEFINITION. The statements for the provers: what the rules of the spec say of the commands, their results and their frames. -/

open Sys2Proof Sys2Proof.Machine Sys2Proof.Safety

/-! ## Scalar instructions (R35, R41, R42, R46) -/

/-- R41: the integer instructions that add, compare, choose and combine bits, on every operand; the constants of `lui` and `auipc`. -/
def Obligations.IntegerResults : Prop :=
  ∀ (s : State) (t : Tid) (rd a b : Reg) (i : BitVec 12) (j : BitVec 20), mayIssue s t true [rd, a, b] = true →
    let x := rx s t a
    let y := rx s t b
    let k : Word := i.signExtend 64
    let p := (thread s t).pc
    scalarGives (.add t rd a b) s t rd (x + y) (p + 4)
    ∧ scalarGives (.sub t rd a b) s t rd (x - y) (p + 4)
    ∧ scalarGives (.and t rd a b) s t rd (x &&& y) (p + 4)
    ∧ scalarGives (.or t rd a b) s t rd (x ||| y) (p + 4)
    ∧ scalarGives (.xor t rd a b) s t rd (x ^^^ y) (p + 4)
    ∧ scalarGives (.slt t rd a b) s t rd (if x.toInt < y.toInt then 1 else 0) (p + 4)
    ∧ scalarGives (.sltu t rd a b) s t rd (if x.toNat < y.toNat then 1 else 0) (p + 4)
    ∧ scalarGives (.min t rd a b) s t rd (BitVec.ofInt 64 (min x.toInt y.toInt)) (p + 4)
    ∧ scalarGives (.max t rd a b) s t rd (BitVec.ofInt 64 (max x.toInt y.toInt)) (p + 4)
    ∧ scalarGives (.minu t rd a b) s t rd (BitVec.ofNat 64 (min x.toNat y.toNat)) (p + 4)
    ∧ scalarGives (.maxu t rd a b) s t rd (BitVec.ofNat 64 (max x.toNat y.toNat)) (p + 4)
    ∧ scalarGives (.addi t rd a i) s t rd (x + k) (p + 4)
    ∧ scalarGives (.slti t rd a i) s t rd (if x.toInt < i.toInt then 1 else 0) (p + 4)
    ∧ scalarGives (.sltiu t rd a i) s t rd (if x.toNat < k.toNat then 1 else 0) (p + 4)
    ∧ scalarGives (.xori t rd a i) s t rd (x ^^^ k) (p + 4)
    ∧ scalarGives (.ori t rd a i) s t rd (x ||| k) (p + 4)
    ∧ scalarGives (.andi t rd a i) s t rd (x &&& k) (p + 4)
    ∧ scalarGives (.lui t rd j) s t rd (BitVec.ofInt 64 (j.toInt * 4096)) (p + 4)
    ∧ scalarGives (.auipc t rd j) s t rd (p + BitVec.ofInt 64 (j.toInt * 4096)) (p + 4)

/-- R41: shifts, counts and the 32-bit forms, whose results are sign-extended from bit 31. -/
def Obligations.ShiftCountAndWordResults : Prop :=
  ∀ (s : State) (t : Tid) (rd a b : Reg) (i : BitVec 12) (n : BitVec 6) (m : BitVec 5), mayIssue s t true [rd, a, b] = true →
    let x := rx s t a
    let y := rx s t b
    let w (v : Int) : Word := (BitVec.ofInt 32 v).signExtend 64
    let p := (thread s t).pc + 4
    scalarGives (.sll t rd a b) s t rd (BitVec.ofNat 64 (x.toNat * 2 ^ (y.toNat % 64))) p
    ∧ scalarGives (.srl t rd a b) s t rd (BitVec.ofNat 64 (x.toNat / 2 ^ (y.toNat % 64))) p
    ∧ scalarGives (.sra t rd a b) s t rd (BitVec.ofInt 64 (x.toInt / 2 ^ (y.toNat % 64))) p
    ∧ scalarGives (.slli t rd a n) s t rd (BitVec.ofNat 64 (x.toNat * 2 ^ n.toNat)) p
    ∧ scalarGives (.srli t rd a n) s t rd (BitVec.ofNat 64 (x.toNat / 2 ^ n.toNat)) p
    ∧ scalarGives (.srai t rd a n) s t rd (BitVec.ofInt 64 (x.toInt / 2 ^ n.toNat)) p
    ∧ (∃ k, k ≤ 64 ∧ x.toNat < 2 ^ (64 - k) ∧ (k < 64 → 2 ^ (63 - k) ≤ x.toNat) ∧ scalarGives (.clz t rd a) s t rd (BitVec.ofNat 64 k) p)
    ∧ (∃ k, k ≤ 64 ∧ (∀ l, l < k → x.getLsbD l = false) ∧ (k < 64 → x.getLsbD k = true) ∧ scalarGives (.ctz t rd a) s t rd (BitVec.ofNat 64 k) p)
    ∧ scalarGives (.popc t rd a) s t rd (BitVec.ofNat 64 (Finset.univ.filter (fun l : Fin 64 => x.getLsbD l = true)).card) p
    ∧ scalarGives (.addW t rd a b) s t rd (w (x.toInt + y.toInt)) p
    ∧ scalarGives (.subW t rd a b) s t rd (w (x.toInt - y.toInt)) p
    ∧ scalarGives (.addiW t rd a i) s t rd (w (x.toInt + i.toInt)) p
    ∧ scalarGives (.sllW t rd a b) s t rd (w (x.toNat * 2 ^ (y.toNat % 32))) p
    ∧ scalarGives (.srlW t rd a b) s t rd (w ((x.toNat % 2 ^ 32) / 2 ^ (y.toNat % 32))) p
    ∧ scalarGives (.sraW t rd a b) s t rd (w ((x.setWidth 32).toInt / 2 ^ (y.toNat % 32))) p
    ∧ scalarGives (.slliW t rd a m) s t rd (w (x.toNat * 2 ^ m.toNat)) p
    ∧ scalarGives (.srliW t rd a m) s t rd (w ((x.toNat % 2 ^ 32) / 2 ^ m.toNat)) p
    ∧ scalarGives (.sraiW t rd a m) s t rd (w ((x.setWidth 32).toInt / 2 ^ m.toNat)) p

/-- R41, R42: products; quotients truncated toward zero and remainders where the cell's divider is free, which they then occupy for 36 cycles, in the 32-bit forms 20; a zero divisor gives all ones and the dividend; the most negative value ÷ −1 wraps. -/
def Obligations.ProductAndQuotientResults : Prop :=
  ∀ (s : State) (t : Tid) (rd a b : Reg),
    let x := rx s t a
    let y := rx s t b
    let xw := x.setWidth 32
    let yw := y.setWidth 32
    let w (v : Int) : Word := (BitVec.ofInt 32 v).signExtend 64
    let p := (thread s t).pc + 4
    (mayIssue s t true [rd, a, b] = true →
      scalarGives (.mul t rd a b) s t rd (BitVec.ofInt 64 (x.toInt * y.toInt)) p
      ∧ scalarGives (.mulh t rd a b) s t rd (BitVec.ofInt 64 (x.toInt * y.toInt / 2 ^ 64)) p
      ∧ scalarGives (.mulhu t rd a b) s t rd (BitVec.ofNat 64 (x.toNat * y.toNat / 2 ^ 64)) p
      ∧ scalarGives (.mulhsu t rd a b) s t rd (BitVec.ofInt 64 (x.toInt * y.toNat / 2 ^ 64)) p
      ∧ scalarGives (.mulW t rd a b) s t rd (w (x.toInt * y.toInt)) p)
    ∧ (mayIssue s t false [rd, a, b] = true → (cell s (cellOf t)).div = 0 →
      divideGives (.div t rd a b) 36 s t rd (if y = 0 then -1 else BitVec.ofInt 64 (x.toInt.tdiv y.toInt))
      ∧ divideGives (.divu t rd a b) 36 s t rd (if y = 0 then -1 else BitVec.ofNat 64 (x.toNat / y.toNat))
      ∧ divideGives (.rem t rd a b) 36 s t rd (if y = 0 then x else BitVec.ofInt 64 (x.toInt.tmod y.toInt))
      ∧ divideGives (.remu t rd a b) 36 s t rd (if y = 0 then x else BitVec.ofNat 64 (x.toNat % y.toNat))
      ∧ divideGives (.divW t rd a b) 20 s t rd (w (if yw = 0 then -1 else xw.toInt.tdiv yw.toInt))
      ∧ divideGives (.divuW t rd a b) 20 s t rd (w (if yw = 0 then -1 else xw.toNat / yw.toNat))
      ∧ divideGives (.remW t rd a b) 20 s t rd (w (if yw = 0 then xw.toInt else xw.toInt.tmod yw.toInt))
      ∧ divideGives (.remuW t rd a b) 20 s t rd (w (if yw = 0 then xw.toNat else xw.toNat % yw.toNat)))

/-- R46: where branches and jumps go, counting words from the instruction; the link of a jump; a jump's target loses bits [1:0]. -/
def Obligations.BranchesAndJumps : Prop :=
  ∀ (s : State) (t : Tid) (rd a b : Reg) (o : BitVec 12) (j : BitVec 20),
    let x := rx s t a
    let y := rx s t b
    let p := (thread s t).pc
    let dest (taken : Prop) [Decidable taken] : Word := if taken then p + BitVec.ofInt 64 (o.toInt * 4) else p + 4
    (mayIssue s t true [a, b] = true →
      scalarGives (.beq t a b o) s t 0 0 (dest (x = y))
      ∧ scalarGives (.bne t a b o) s t 0 0 (dest (x ≠ y))
      ∧ scalarGives (.blt t a b o) s t 0 0 (dest (x.toInt < y.toInt))
      ∧ scalarGives (.bge t a b o) s t 0 0 (dest (y.toInt ≤ x.toInt))
      ∧ scalarGives (.bltu t a b o) s t 0 0 (dest (x.toNat < y.toNat))
      ∧ scalarGives (.bgeu t a b o) s t 0 0 (dest (y.toNat ≤ x.toNat)))
    ∧ (mayIssue s t true [rd] = true → scalarGives (.jal t rd j) s t rd (p + 4) (p + BitVec.ofInt 64 (j.toInt * 4)))
    ∧ (mayIssue s t true [rd, a] = true →
      scalarGives (.jalr t rd a o) s t rd (p + 4) (BitVec.ofNat 64 ((x + o.signExtend 64).toNat / 4 * 4)))


/-! ## Loads, stores and the cell's memory path (R43–R50, R222–R238) -/

/-- R43, R50, R222, R225: a load of HBM returns the bytes of its thread's own write-buffer entry, else of the L1; its address is translated, its value extended; memory stays. -/
def Obligations.LoadsReturnTheirBytes : Prop :=
  ∀ (s s1 : State) (t : Tid) (rd a : Reg) (o : BitVec 12) (pa : Nat),
    mayIssue s t true [rd, a] = true → oldestUnresolved (thread s t) = none → (thread s t).hold = [] → loadRuns (thread s t) = false →
    let va := rx s t a + o.signExtend 64
    xlatHeld s (cellOf t) (ctxOf s t) va .load = false →
    translate s (cellOf t) (ctxOf s t) va .load = (.ok pa, s1) → pa < 0xF000000000 →
    loadGives (.ldB t rd a o) 1 true s s1 t rd pa
    ∧ loadGives (.ldBu t rd a o) 1 false s s1 t rd pa
    ∧ (va.toNat % 2 = 0 → loadGives (.ldH t rd a o) 2 true s s1 t rd pa ∧ loadGives (.ldHu t rd a o) 2 false s s1 t rd pa)
    ∧ (va.toNat % 4 = 0 → loadGives (.ldW t rd a o) 4 true s s1 t rd pa ∧ loadGives (.ldWu t rd a o) 4 false s s1 t rd pa)
    ∧ (va.toNat % 8 = 0 → loadGives (.ldD t rd a o) 8 false s s1 t rd pa)

/-- R43, R224, R225: a store to HBM enters the write buffer and the L1's own copy; memory itself stays until the entry is performed. -/
def Obligations.StoresEnterTheWriteBuffer : Prop :=
  ∀ (s s1 : State) (t : Tid) (r a : Reg) (o : BitVec 12) (pa : Nat),
    mayIssue s t true [r, a] = true → oldestUnresolved (thread s t) = none →
    let va := rx s t a + o.signExtend 64
    xlatHeld s (cellOf t) (ctxOf s t) va .store = false →
    translate s (cellOf t) (ctxOf s t) va .store = (.ok pa, s1) → pa < 0xF000000000 →
    ((thread s t).spec = none ∨ (thread s t).level ≠ 2) → pa % 4096 = va.toNat % 4096 →
    storeGives (.stB t r a o) 1 s s1 t (rx s t r) pa
    ∧ (va.toNat % 2 = 0 → storeGives (.stH t r a o) 2 s s1 t (rx s t r) pa)
    ∧ (va.toNat % 4 = 0 → storeGives (.stW t r a o) 4 s s1 t (rx s t r) pa)
    ∧ (va.toNat % 8 = 0 → storeGives (.stD t r a o) 8 s s1 t (rx s t r) pa)

/-! ## Atomics, exceptions, system registers, privilege and thread control (R44–R76) -/

/-- R47, R48: every atomic, on words and doublewords, with any ordering: the old value goes to rd, the new one to memory at its home, and no other byte changes. -/
def Obligations.AtomicResults : Prop :=
  ∀ (s s1 : State) (t : Tid) (rd a b : Reg) (d aq rl : Bool) (pa : Nat),
    mayIssue s t false [rd, a, b] = true →
    let va := rx s t a
    let k := if d then 8 else 4
    xlatHeld s (cellOf t) (ctxOf s t) va .atomic = false → lineOpen s1 (cellOf t) (pa / 128) = true →
    translate s (cellOf t) (ctxOf s t) va .atomic = (.ok pa, s1) → isMemory s pa = true → va.toNat % k = 0 → pa % 4096 = va.toNat % 4096 →
    ((thread s t).spec = none ∨ (thread s t).level ≠ 2) → quiet s t → (rl = true → releaseReady s t = true) → memorySafe s → lineDead s (pa / 128) = false →
    crossDead s1 (dieOfCore (cellOf t)) (dieOf s1 pa) = false → (homeRead s1 pa k).1.2 = none →
    let gives (i : Instr) (f : (w : Nat) → BitVec w → BitVec w → BitVec w → BitVec w) : Prop := atomicGives i d s s1 t rd b pa f
    gives (.amoSwap t rd a b d aq rl) (fun _ _ y _ => y)
    ∧ gives (.amoAdd t rd a b d aq rl) (fun _ x y _ => x + y)
    ∧ gives (.amoAnd t rd a b d aq rl) (fun _ x y _ => x &&& y)
    ∧ gives (.amoOr t rd a b d aq rl) (fun _ x y _ => x ||| y)
    ∧ gives (.amoXor t rd a b d aq rl) (fun _ x y _ => x ^^^ y)
    ∧ gives (.amoMin t rd a b d aq rl) (fun w x y _ => BitVec.ofInt w (min x.toInt y.toInt))
    ∧ gives (.amoMax t rd a b d aq rl) (fun w x y _ => BitVec.ofInt w (max x.toInt y.toInt))
    ∧ gives (.amoMinu t rd a b d aq rl) (fun w x y _ => BitVec.ofNat w (min x.toNat y.toNat))
    ∧ gives (.amoMaxu t rd a b d aq rl) (fun w x y _ => BitVec.ofNat w (max x.toNat y.toNat))
    ∧ gives (.amoCas t rd a b d aq rl) (fun _ x y z => if x = z then y else x)

/-- R44, R64, R67: a scalar load or store whose address is not a multiple of its size takes a misaligned-access exception at the thread's level, with XVAL the address. -/
def Obligations.MisalignedAccessesTrap : Prop :=
  ∀ (s : State) (t : Tid) (r a : Reg) (o : BitVec 12),
    mayIssue s t true [r, a] = true → oldestUnresolved (thread s t) = none →
    let va := rx s t a + o.signExtend 64
    let l := (thread s t).level.toNat
    let trap (i : Instr) : Prop := traps i s t l { code := 1, val := va }
    l ≠ 3 → fmOf s t l = false → quiet s t →
    (va.toNat % 2 ≠ 0 → trap (.ldH t r a o) ∧ trap (.ldHu t r a o) ∧ trap (.stH t r a o))
    ∧ (va.toNat % 4 ≠ 0 → trap (.ldW t r a o) ∧ trap (.ldWu t r a o) ∧ trap (.stW t r a o))
    ∧ (va.toNat % 8 ≠ 0 → trap (.ldD t r a o) ∧ trap (.stD t r a o))

/-- R55, R57, R58: `sr.rw`, `sr.set` and `sr.clr` on every assigned register but TILEOWN, from its level or above, once the thread's earlier instructions have completed; `sr.set` and `sr.clr` with rs1 = s0 write nothing. -/
def Obligations.SystemRegisterAccess : Prop :=
  ∀ (s : State) (t : Tid) (rd a : Reg) (num : BitVec 12),
    mayIssue s t false [rd, a] = true → drained s t = true →
    let m := num.toNat
    srAssigned m = true → m / 0x400 ≤ (thread s t).level.toNat → m ≠ 0x400 →
    let old := srRead s t m
    let x := rx s t a
    (m / 0x200 % 2 = 0 → srGives (.srRw t rd a num) s t rd m x true)
    ∧ (m / 0x200 % 2 = 0 ∨ a = 0 → srGives (.srSet t rd a num) s t rd m (old ||| x) (decide (a ≠ 0)))
    ∧ (m / 0x200 % 2 = 0 ∨ a = 0 → srGives (.srClr t rd a num) s t rd m (old &&& ~~~x) (decide (a ≠ 0)))

/-- R56: an `sr.*` from below the register's level, one that would write a read-only register, one on a number that is not assigned or has [11:10] = 11, raises an illegal-instruction exception at the current level. -/
def Obligations.SystemRegisterTraps : Prop :=
  ∀ (s : State) (t : Tid) (rd a : Reg) (num : BitVec 12),
    mayIssue s t false [rd, a] = true → quiet s t →
    let m := num.toNat
    let l := (thread s t).level.toNat
    let bad (writes : Prop) : Prop := l < m / 0x400 ∨ (writes ∧ m / 0x200 % 2 = 1) ∨ srAssigned m = false ∨ m / 0x400 = 3
    let trap (i : Instr) : Prop := traps i s t l { code := 0, val := (word0 i).setWidth 64 }
    l ≠ 3 → fmOf s t l = false →
    (bad True → trap (.srRw t rd a num))
    ∧ (bad (a ≠ 0) → trap (.srSet t rd a num) ∧ trap (.srClr t rd a num))

/-- R74: a legal `xret` restores the status, exchanges s2 and XSP, and goes on at XPC in the level PL; an illegal one changes XCAUSE, XVAL and FM of its level alone and takes the handler of cause 0x0B. -/
def Obligations.ReturnFromAnEntry : Prop :=
  ∀ (s : State) (t : Tid), mayIssue s t false [2] = true → entryReady s t = true → (thread s t).level.toNat ≠ 3 →
    let cur := (thread s t).level.toNat
    let st := srAt s t (lvlReg cur 1)
    let l := bits st 14 13
    let ceil := bits (srAt s t 0x800) 1 0
    (l ≤ cur → l ≤ ceil → ∃ n, exec (.xret t) s = .next n
      ∧ (thread n t).level = BitVec.ofNat 2 l ∧ (thread n t).pc = srAt s t (lvlReg cur 0)
      ∧ (let st' := srAt n t (lvlReg cur 1)
         bits st' 3 0 = bits st 11 8 ∧ bits st' 4 4 = bits st 12 12 ∧ bits st' 63 5 = bits st 63 5)
      ∧ rx n t 2 = srAt s t (lvlReg cur 5) ∧ srAt n t (lvlReg cur 5) = rx s t 2
      ∧ (∀ r, r ≠ 2 → rx n t r = rx s t r) ∧ (∀ m, m ≠ lvlReg cur 1 → m ≠ lvlReg cur 5 → srAt n t m = srAt s t m)
      ∧ privFrame t s n)
    ∧ (cur < l ∨ ceil < l → quiet s t → illegalReturns (.xret t) s t l)

/-- R75: `xret.g` reads RET_PC, CALLER_S2 and INFO from the frame at s2, sets pc, s2 and the level, and changes nothing else of the thread; where INFO's level is not allowed as that of `xret`, only XCAUSE, XVAL and FM of the current level change and the thread goes on at the handler of cause 0x0B. -/
def Obligations.ReturnFromAGate : Prop :=
  ∀ (s s1 : State) (t : Tid) (pc s2 info : Word),
    mayIssue s t false [2] = true → (thread s t).level.toNat ≠ 3 → quiet s t →
    (∀ i, i < 3 → let va := rx s t 2 + BitVec.ofNat 64 (8 * i)
      asHeld (issued s t) t (thread s t).level va = false ∧ readAsNeeds (issued s t) t (thread s t).level va 8 = []) →
    readWordsAs t (thread s t).level 3 (rx s t 2) (issued s t) = (.ok [pc, s2, info], s1) →
    let l := bits info 1 0
    (thread s1 t = thread (issued s t) t → l ≤ (thread s t).level.toNat → l ≤ bits (srAt s t 0x800) 1 0 → ∃ n, exec (.xretG t) s = .next n
      ∧ rx n t 2 = s2 ∧ (∀ r, r ≠ 2 → rx n t r = rx s t r)
      ∧ thread n t = { thread s t with level := BitVec.ofNat 2 l, pc := pc, regs := (thread n t).regs,
                                       yield := (thread n t).yield, younger := (thread n t).younger }
      ∧ n = { s1 with threads := n.threads } ∧ (∀ u, u ≠ t → thread n u = thread s1 u))
    ∧ (thread s1 t = thread (issued s t) t → quiet s1 t → (thread s t).level.toNat < l ∨ bits (srAt s t 0x800) 1 0 < l →
      illegalReturnsAfter (.xretG t) s s1 t l)

/-- R73: a gate that nothing outstanding holds and whose descriptor, checks and frame address pass goes to TARGET_PC at TLEVEL with s2 the frame; registers coded "none" become zero, no system register changes, and the frame stands in the write buffer. -/
def Obligations.GateEntry : Prop :=
  ∀ (s s1 s2 s3 : State) (t : Tid) (k : BitVec 12) (d : List Byte) (pa : Nat),
    mayIssue s t false [2, 10, 11, 12, 13, 14, 15] = true → (thread s t).level.toNat ≠ 3 → quiet s t →
    let lvl := (thread s t).level
    let g := srAt s t 0x401
    let w (i : Nat) : Word := BitVec.ofNat 64 (ofLE ((d.drop (8 * i)).take 8))
    let tl := bits (w 2) 1 0
    let f : Word := if lvl.toNat < tl then BitVec.ofNat 64 (bits (w 1) 47 6 * 64) - 64 else (rx s t 2 - 64) &&& ~~~63#64
    let da : Word := BitVec.ofNat 64 (bits g 47 12 * 4096) + BitVec.ofNat 64 (32 * k.toNat)
    k.toNat < bits g 11 0 → asHeld (issued s t) t (if lvl = 2 then 2 else 1) da = false → readAsNeeds (issued s t) t (if lvl = 2 then 2 else 1) da 32 = [] →
    readAs (issued s t) t (if lvl = 2 then 2 else 1) da 32 = (.ok d, s1) →
    (cell s1 (cellOf t)).wb = [] → thread s1 t = thread (issued s t) t → bytesKept s s1 →
    gateMalformed (w 0) (w 1) (w 2) = false → bit (w 2) (4 + lvl.toNat) = true → tl ≠ 3 → lvl.toNat ≤ tl → tl ≤ bits (srAt s t 0x800) 1 0 →
    checkArgs t (w 2) (List.range 6) s1 = .pass s2 → xlatHeld s2 (cellOf t) (ctxAt s2 t (BitVec.ofNat 2 tl)) f .store = false →
    translate s2 (cellOf t) (ctxAt s2 t (BitVec.ofNat 2 tl)) f .store = (.ok pa, s3) → pa < 0xF000000000 → pa % 64 = 0 →
    ((thread s t).spec = none ∨ tl ≠ 2) →
    ∃ n e, exec (.gate t k) s = .next n
      ∧ (thread n t).level = BitVec.ofNat 2 tl ∧ (thread n t).pc = BitVec.ofNat 64 (bits (w 0) 47 2 * 4)
      ∧ rx n t 2 = f
      ∧ (∀ r, r ≠ 2 → rx n t r = if 10 ≤ r.toNat ∧ r.toNat ≤ 15 ∧ bits (w 2) (9 + 2 * (r.toNat - 10)) (8 + 2 * (r.toNat - 10)) = 0 then 0 else rx s t r)
      ∧ (∀ m, srAt n t m = srAt s t m)
      ∧ (cell n (cellOf t)).wb = [e] ∧ e.line = pa / 128 ∧ e.owner = Fin.ofNat 8 (thrOf t) ∧ e.mask = byteMask (pa % 128) 64
      ∧ (∀ b, b < 64 → e.data.extractLsb' (8 * (pa % 128 + b)) 8 =
          if b < 8 then ((thread s t).pc + 4).extractLsb' (8 * b) 8 else if b < 16 then (rx s t 2).extractLsb' (8 * (b - 8)) 8
          else if b < 24 then (BitVec.ofNat 64 (lvl.toNat + 4 * k.toNat)).extractLsb' (8 * (b - 16)) 8 else 0)
      ∧ bytesKept s3 n

/-- R67, R70, R71: the highest-priority takeable interrupt is taken at the boundary: its pending bit clears, and the level it targets is entered with the interrupt's code and IML its priority; an interrupted `pause` is not executed again. -/
def Obligations.InterruptEntry : Prop :=
  ∀ (s : State) (t : Tid) (k : Nat) (h : Word),
    atBoundary s t = true → nextInterrupt s t = some k → oldestUnresolved (thread s t) = none → (cell s (cellOf t)).wb = [] →
    (∀ p x o r, (thread s t).st ≠ .waiting (.arrive p x o r)) → (thread s t).late = none → entryReady s t = true →
    let l := if k = 15 then 2 else 1
    let pc := match (thread s t).st with | .waiting (.pause _) => (thread s t).pc + 4 | _ => (thread s t).pc
    let s1 := modThread (rollBack (leaveWaves s t) t) t (fun th => { th with pend := setBit th.pend k false, yield := false, late := none })
    handlerAt (enterRegs s1 t l pc { code := 0x20 + k } false (some k)) t l (0x20 + k) h →
    1 ≤ k ∧ k ≤ 15 ∧ (thread s t).level.toNat ≤ l ∧ bits (srAt s t (lvlReg l 1)) 3 0 < k ∧ bit (thread s t).pend k = true
    ∧ (∀ j, takeable s t j = true → j < 16 → j ≤ k)
    ∧ ∃ n, exec (.interruptTake t) s = .next n ∧ entered s n t l pc (BitVec.ofNat 64 (2 ^ 63 + 0x20 + k)) 0 (some k)
      ∧ (thread n t).pc = h ∧ (∀ j, j < 16 → bit (thread n t).pend j = (decide (j ≠ k) && bit (thread s t).pend j))
      ∧ bytesKept s n ∧ (∀ u, u ≠ t → thread n u = thread s u)

/-- R50, R53, R54, R59: acquires empty the L1 and the victim cache; a release leaves no store of the thread unperformed and no load of it unserved; `fence.i` empties the instruction cache; `yield`, `pause`, its end, and `tend`. -/
def Obligations.FencesAndThreadControl : Prop :=
  ∀ (s : State) (t : Tid) (k : BitVec 12),
    let c := cellOf t
    let x := cell s c
    let pc := (thread s t).pc
    let flat (n : State) : Prop := (cell n c).l1 = [] ∧ (cell n c).victim = [] ∧ ∀ m ∈ (cell n c).mshrs, m.install = false
    let own (j : Fin 8) : Prop := j.val = thrOf t
    let settled (n : State) : Prop := (cell n c).wb = x.wb.filter (fun e => !decide (e.owner.val = thrOf t))
      ∧ (∀ m ∈ (cell n c).mshrs, (∀ l ∈ m.loads, own l.thr → l.got.isSome = true ∨ m.served.isSome = true) ∧ (∀ j ∈ m.pipes, own j → m.served.isSome = true))
      ∧ (∀ l ∈ (cell n c).loads, own l.thr → l.got.isSome = true)
      ∧ (∀ m ∈ (cell n c).slots, own m.thr → m.served.isSome = true)
    let noDevice : Prop := (∀ l ∈ x.loads, own l.thr → l.device = false) ∧ ∀ e ∈ x.wb, own e.owner → e.device = false ∧ ∀ o, o < 128 → isMemory s (128 * e.line + o) = true
    (mayIssue s t false [] = true →
      (∃ n, exec (.fenceAcq t) s = .next n ∧ wentOn s n t (pc + 4) ∧ flat n ∧ bytesKept s n ∧ (cell n c).wb = x.wb)
      ∧ (releaseReady s t = true → noDevice →
        (∃ n, exec (.fenceRel t) s = .next n ∧ wentOn s n t (pc + 4) ∧ settled n)
        ∧ (∃ n, exec (.fenceAr t) s = .next n ∧ wentOn s n t (pc + 4) ∧ settled n ∧ flat n)
        ∧ (drained s t = true → ∃ n, exec (.tend t) s = .next n ∧ (thread n t).st = .idle ∧ (thread n t).mine = 0 ∧ (thread n t).spec = none
            ∧ (thread n t).task = none ∧ (∀ r, rx n t r = rx s t r) ∧ settled n
            ∧ (∀ j, (thread s t).task = some j → ∀ q, tget? s.tasks.runs j = some q → tget? n.tasks.runs j = some { q with left := q.left - 1 })))
      ∧ (∃ n, exec (.fenceI t) s = .next n ∧ wentOn s n t (pc + 4) ∧ (cell n c).icache = [] ∧ bytesKept s n)
      ∧ (∃ n, exec (.yield t) s = .next n ∧ wentOn s n t (pc + 4) ∧ (thread n t).yield = true ∧ issueFrame t s n)
      ∧ (k.toInt ≤ 0 → exec (.pause t k) s = exec (.yield t) s)
      ∧ (0 < k.toInt → ∃ n, exec (.pause t k) s = .next n ∧ (thread n t).st = .waiting (.pause k.toNat) ∧ (thread n t).pc = pc
          ∧ (∀ r, rx n t r = rx s t r) ∧ issueFrame t s n))
    ∧ (∀ j, (thread s t).st = .waiting (.pause j) → ∃ n, exec (.pauseExpiry t) s = .next n
        ∧ thread n t = { thread s t with st := .ready, pc := pc + 4 } ∧ n = { s with threads := n.threads } ∧ ∀ u, u ≠ t → thread n u = thread s u)

/-! ## Vector instructions (R104–R133) -/

/-- R105–R107, R112, R115: the integer operations, every element width, group size and predicate: each active element takes its result modulo 2^W, no other element, register or flag changes. -/
def Obligations.VectorIntegerResults : Prop :=
  ∀ (s : State) (t : Tid) (f : VForm) (w : Nat),
    decReady s t [] → etBits f.et = some w → f.qp.toNat < 12 →
    let g := 2 ^ f.grp.toNat
    (∀ r, r ∈ [f.vd, f.vs1, f.vs2] → r.toNat % g = 0) →
    let gives (i : Instr) (op : BitVec w → BitVec w → BitVec w) : Prop :=
      vecGives i s t ((thread s t).pc + 4) w g f.vd.toNat f.qp.toNat
        (fun k _ => (op (vEl (thread s t).v w f.vs1.toNat k) (vEl (thread s t).v w f.vs2.toNat k), 0))
    gives (.vAdd t f) (fun x y => x + y)
    ∧ gives (.vSub t f) (fun x y => x - y)
    ∧ gives (.vMul t f) (fun x y => x * y)
    ∧ gives (.vMulh t f) (fun x y => BitVec.ofInt w (x.toInt * y.toInt / 2 ^ w))
    ∧ gives (.vMulhu t f) (fun x y => BitVec.ofNat w (x.toNat * y.toNat / 2 ^ w))
    ∧ gives (.vMulhsu t f) (fun x y => BitVec.ofInt w (x.toInt * y.toNat / 2 ^ w))
    ∧ gives (.vMin t f) (fun x y => BitVec.ofInt w (min x.toInt y.toInt))
    ∧ gives (.vMax t f) (fun x y => BitVec.ofInt w (max x.toInt y.toInt))
    ∧ gives (.vMinu t f) (fun x y => BitVec.ofNat w (min x.toNat y.toNat))
    ∧ gives (.vMaxu t f) (fun x y => BitVec.ofNat w (max x.toNat y.toNat))
    ∧ gives (.vAnd t f) (fun x y => x &&& y)
    ∧ gives (.vOr t f) (fun x y => x ||| y)
    ∧ gives (.vXor t f) (fun x y => x ^^^ y)
    ∧ gives (.vAndn t f) (fun x y => x &&& ~~~y)
    ∧ gives (.vSll t f) (fun x y => x <<< (y.toNat % w))
    ∧ gives (.vSrl t f) (fun x y => x >>> (y.toNat % w))
    ∧ gives (.vSra t f) (fun x y => x.sshiftRight (y.toNat % w))
    ∧ gives (.vSrar t f) (fun x y => BitVec.ofInt w (roundHalfUp x.toInt (y.toNat % w)))

/-- R115, R116, R155: the saturating, Q-format and narrowing operations: each active result is clamped to its element's range, and QSAT is set when one was outside it. -/
def Obligations.VectorSaturatingResults : Prop :=
  ∀ (s : State) (t : Tid) (f : VForm) (w : Nat),
    decReady s t [] → etBits f.et = some w → f.qp.toNat < 12 →
    let g := 2 ^ f.grp.toNat
    let v := (thread s t).v
    let gives (i : Instr) (lo hi : Int) (op : Nat → Int) : Prop :=
      vecGives i s t ((thread s t).pc + 4) w g f.vd.toNat f.qp.toNat
        (fun k _ => (BitVec.ofInt w (max lo (min hi (op k))), if lo ≤ op k ∧ op k ≤ hi then 0 else 2 ^ 5))
    let low : Int := -2 ^ (w - 1)
    let high : Int := 2 ^ (w - 1) - 1
    let a (k : Nat) := vEl v w f.vs1.toNat k
    let b (k : Nat) := vEl v w f.vs2.toNat k
    let wide (k : Nat) : Int := (vEl v (2 * w) f.vs1.toNat k).toInt
    let by' (k : Nat) : Nat := (vEl v (2 * w) f.vs2.toNat k).toNat % (2 * w)
    ((∀ r, r ∈ [f.vd, f.vs1, f.vs2] → r.toNat % g = 0) →
      gives (.vSadd t f) low high (fun k => (a k).toInt + (b k).toInt)
      ∧ gives (.vSsub t f) low high (fun k => (a k).toInt - (b k).toInt)
      ∧ gives (.vSaddu t f) 0 (2 ^ w - 1) (fun k => (a k).toNat + (b k).toNat)
      ∧ gives (.vSsubu t f) 0 (2 ^ w - 1) (fun k => (a k).toNat - (b k).toNat)
      ∧ (w ≠ 4 → gives (.vQmul t f) low high (fun k => roundHalfUp ((a k).toInt * (b k).toInt) (w - 1))
        ∧ gives (.vQmulRne t f) low high (fun k => roundHalfEven ((a k).toInt * (b k).toInt) (w - 1))))
    ∧ (f.vd.toNat % g = 0 → f.vs1.toNat % (2 * g) = 0 → f.vs2.toNat % (2 * g) = 0 → w ≠ 64 → g ≠ 8 →
      gives (.vNarrowS t f) low high (fun k => roundHalfUp (wide k) (by' k))
      ∧ gives (.vNarrowU t f) 0 (2 ^ w - 1) (fun k => roundHalfUp (wide k) (by' k))
      ∧ gives (.vNarrowSRne t f) low high (fun k => roundHalfEven (wide k) (by' k))
      ∧ gives (.vNarrowURne t f) 0 (2 ^ w - 1) (fun k => roundHalfEven (wide k) (by' k)))

/-- R112, R117, R145, R149: the floating operations: each active result is exact, then rounded once by FRM with the element's own random bits; `v.fabs` and `v.fneg` touch only the sign bit and set no flag. -/
def Obligations.VectorFloatResults : Prop :=
  ∀ (s : State) (t : Tid) (f : VForm) (c : Nat),
    decReady s t [] → etFloat f.et = some c → f.qp.toNat < 12 →
    let g := 2 ^ f.grp.toNat
    let w := fmtBits c
    f.vd.toNat % g = 0 → f.vs1.toNat % g = 0 →
    let v := (thread s t).v
    let a (k : Nat) := edec c (vEl v w f.vs1.toNat k).toNat
    let b (k : Nat) := edec c (vEl v w f.vs2.toNat k).toNat
    let d (k : Nat) := edec c (vEl v w f.vd.toNat k).toNat
    let gives (i : Instr) (el : Nat → BitVec w × Nat) : Prop := vecGives i s t ((thread s t).pc + 4) w g f.vd.toNat f.qp.toNat (fun k _ => el k)
    let once (k : Nat) (x : Fl FV) : BitVec w × Nat :=
      let e := fenc (ffmtD c) (rndAt (bits (srAt s t 1) 1 0) (randomOf s t) (BitVec.ofNat 64 k)) false x.1
      (BitVec.ofNat w e.1, x.2 ||| e.2)
    (f.vs2.toNat % g = 0 →
      gives (.vFadd t f) (fun k => once k (FV.add (a k) (b k)))
      ∧ gives (.vFsub t f) (fun k => once k (FV.add (a k) (b k).neg))
      ∧ gives (.vFmul t f) (fun k => once k (FV.mul (a k) (b k)))
      ∧ gives (.vFdiv t f) (fun k => once k (FV.div (a k) (b k)))
      ∧ gives (.vFma t f) (fun k => once k (FV.fma (a k) (b k) (d k)))
      ∧ gives (.vFnma t f) (fun k => once k (FV.fma (a k).neg (b k) (d k)))
      ∧ gives (.vFmin t f) (fun k => once k (fMinMax false (a k) (b k)))
      ∧ gives (.vFmax t f) (fun k => once k (fMinMax true (a k) (b k))))
    ∧ gives (.vFsqrt t f) (fun k => once k (FV.sqrt (a k)))
    ∧ gives (.vFabs t f) (fun k => (vEl v w f.vs1.toNat k &&& ~~~BitVec.twoPow w (w - 1), 0))
    ∧ gives (.vFneg t f) (fun k => (vEl v w f.vs1.toNat k ^^^ BitVec.twoPow w (w - 1), 0))

/-- R112, R113, R118, R119: compares, predicate logic and `v.pwhile`: each bit of qd is the truth of the active element it governs, every other bit is zero; a write to q0 is discarded. -/
def Obligations.VectorComparesAndPredicates : Prop :=
  ∀ (s : State) (t : Tid) (f : VForm),
    let g := 2 ^ f.grp.toNat
    let v := (thread s t).v
    let qd := f.vd.toNat % 16
    let writes (i : Instr) (w : Nat) (p : Nat → Bool × Nat) : Prop :=
      predGives i s t qd (fun j => ∃ k, k < g * 8192 / w ∧ vActive (thread s t) f.qp.toNat w g k ∧ k * w / (8 * g) = j ∧ (p k).1 = true)
        (fun j => ∃ k, k < g * 8192 / w ∧ vActive (thread s t) f.qp.toNat w g k ∧ (p k).2.testBit j = true)
    f.qp.toNat < 12 → qd < 12 →
    (∀ w, decReady s t [] → etBits f.et = some w → w ≠ 4 → 8 * g ≤ w → f.vs1.toNat % g = 0 → f.vs2.toNat % g = 0 →
      let compares (i : Instr) (p : BitVec w → BitVec w → Bool) : Prop := writes i w (fun k => (p (vEl v w f.vs1.toNat k) (vEl v w f.vs2.toNat k), 0))
      compares (.vCmpEq t f) (fun x y => decide (x = y)) ∧ compares (.vCmpNe t f) (fun x y => decide (x ≠ y))
      ∧ compares (.vCmpLt t f) (fun x y => decide (x.toInt < y.toInt)) ∧ compares (.vCmpLe t f) (fun x y => decide (x.toInt ≤ y.toInt))
      ∧ compares (.vCmpGt t f) (fun x y => decide (y.toInt < x.toInt)) ∧ compares (.vCmpGe t f) (fun x y => decide (y.toInt ≤ x.toInt))
      ∧ compares (.vCmpLtu t f) (fun x y => decide (x.toNat < y.toNat)) ∧ compares (.vCmpLeu t f) (fun x y => decide (x.toNat ≤ y.toNat)))
    ∧ (∀ c, decReady s t [] → etFloat f.et = some c → 8 * g ≤ fmtBits c → f.vs1.toNat % g = 0 → f.vs2.toNat % g = 0 →
      let compares (i : Instr) (p : FV → FV → Bool) (quiet : Bool) : Prop := writes i (fmtBits c) (fun k =>
        let x := edec c (vEl v (fmtBits c) f.vs1.toNat k).toNat
        let y := edec c (vEl v (fmtBits c) f.vs2.toNat k).toNat
        (p x y, if (quiet && !x.isSig && !y.isSig) || (!x.isNan && !y.isNan) then 0 else 2 ^ 4))
      compares (.vFcmpEq t f) (fun x y => !x.isNan && !y.isNan && decide (FV.cmp x y = 0)) true
      ∧ compares (.vFcmpLt t f) (fun x y => !x.isNan && !y.isNan && decide (FV.cmp x y < 0)) false
      ∧ compares (.vFcmpLe t f) (fun x y => !x.isNan && !y.isNan && decide (FV.cmp x y ≤ 0)) false
      ∧ compares (.vFcmpUn t f) (fun x y => x.isNan || y.isNan) true)
    ∧ (∀ w, decReady s t [f.vs1, f.vs2] → etBits f.et = some w → w ≠ 4 → 8 * g ≤ w →
      writes (.vPwhile t f) w (fun k => (decide ((rx s t f.vs1).toNat + k < (rx s t f.vs2).toNat), 0)))
    ∧ (decReady s t [] → f.et = 0 → f.grp = 0 → f.qp = 0 → f.vs1.toNat < 12 → f.vs2.toNat < 12 →
      let logic (i : Instr) (op : Bool → Bool → Bool) : Prop :=
        predGives i s t qd (fun j => op (qBit (thread s t) f.vs1.toNat j) (qBit (thread s t) f.vs2.toNat j) = true) (fun _ => False)
      logic (.vPand t f) (fun x y => x && y) ∧ logic (.vPor t f) (fun x y => x || y) ∧ logic (.vPxor t f) (fun x y => x ^^ y)
      ∧ logic (.vPandn t f) (fun x y => x && !y))

/-- R128: the reductions: vd's element 0 takes its old value combined with every active element of vs1 (the integer ones in any order, modulo 2⁶⁴; the floating ones in the order of R128); with no active element it stays; every other element stays. -/
def Obligations.VectorReductions : Prop :=
  ∀ (s : State) (t : Tid) (f : VForm),
    let g := 2 ^ f.grp.toNat
    let v := (thread s t).v
    let vd := f.vd.toNat
    decReady s t [] → f.qp.toNat < 12 → f.vs1.toNat % g = 0 →
    (∀ w, etBits f.et = some w →
      let folds (i : Instr) (enter : BitVec w → Word) (op : Word → Word → Word) : Prop :=
        elGives i s t 64 vd 1 (fun _ => (List.range (g * 8192 / w)).foldl (fun acc k =>
          if qBit (thread s t) f.qp.toNat (k * w / (8 * g)) then op acc (enter (vEl v w f.vs1.toNat k)) else acc) (vEl v 64 vd 0)) 4 0
      folds (.vRedSum t f) (fun x => x.signExtend 64) (fun a x => a + x)
      ∧ folds (.vRedSumsq t f) (fun x => x.signExtend 64 * x.signExtend 64) (fun a x => a + x)
      ∧ folds (.vRedMax t f) (fun x => x.signExtend 64) (fun a x => BitVec.ofInt 64 (max a.toInt x.toInt))
      ∧ folds (.vRedMin t f) (fun x => x.signExtend 64) (fun a x => BitVec.ofInt 64 (min a.toInt x.toInt))
      ∧ folds (.vRedMaxu t f) (fun x => x.setWidth 64) (fun a x => BitVec.ofNat 64 (max a.toNat x.toNat))
      ∧ folds (.vRedMinu t f) (fun x => x.setWidth 64) (fun a x => BitVec.ofNat 64 (min a.toNat x.toNat)))
    ∧ (∀ c, etFloat f.et = some c →
      let w := fmtBits c
      let acc := if c = 0xD then 0xD else 0
      let m := ffmtD acc
      let xs : List (Option FV) := (List.range (g * 8192 / w)).map (fun k =>
        if qBit (thread s t) f.qp.toNat (k * w / (8 * g)) then some (edec c (vEl v w f.vs1.toNat k).toNat) else none)
      let folds (i : Instr) (enter : FV → Fl FV) (step comb : FV → FV → Fl FV) : Prop :=
        match reduce (if c = 0xD then 32 else 64) xs enter (fun a x => flStep step a (x, 0)) (flStep comb) with
        | none => elGives i s t (fmtBits acc) vd 0 (fun _ => 0) 4 0
        | some p =>
          let r := flStep comb (edec acc (vEl v (fmtBits acc) vd 0).toNat, 0) p
          let e := fenc m rne false r.1
          elGives i s t (fmtBits acc) vd 1 (fun _ => BitVec.ofNat (fmtBits acc) e.1) 4 (r.2 ||| e.2)
      folds (.vFredSum t f) (fun x => (x, 0)) (fun a x => fop m rne (FV.add a x)) (fun a b => fop m rne (FV.add a b))
      ∧ folds (.vFredSumsq t f) (fun x => fop m rne (FV.mul x x)) (fun a x => fop m rne (FV.fma x x a)) (fun a b => fop m rne (FV.add a b))
      ∧ folds (.vFredMax t f) (fun x => (x, 0)) (fMinMax true) (fMinMax true)
      ∧ folds (.vFredMin t f) (fun x => (x, 0)) (fMinMax false) (fMinMax false))

/-- R119, R120: `v.splat`, `v.sel`, `v.ext`, `v.ins` and `v.pcount`: the element or scalar they name and nothing else; an index at or past n reads as zero and writes nothing. -/
def Obligations.VectorMoves : Prop :=
  ∀ (s : State) (t : Tid) (f : VForm) (w : Nat),
    let g := 2 ^ f.grp.toNat
    let n := g * 8192 / w
    let v := (thread s t).v
    let pc := (thread s t).pc
    etBits f.et = some w →
    (decReady s t [f.vs1] → f.qp.toNat < 12 → f.vs2 = 0 → f.vd.toNat % g = 0 →
      vecGives (.vSplat t f) s t (pc + 4) w g f.vd.toNat f.qp.toNat (fun _ _ => ((rx s t f.vs1).setWidth w, 0)))
    ∧ (decReady s t [] → f.qp.toNat < 12 → f.vd.toNat % g = 0 → f.vs1.toNat % g = 0 → f.vs2.toNat % g = 0 →
      elGives (.vSel t f) s t w f.vd.toNat n (fun k => if qBit (thread s t) f.qp.toNat (k * w / (8 * g)) then vEl v w f.vs1.toNat k else vEl v w f.vs2.toNat k) 4 0)
    ∧ (decReady s t [f.vs2, f.vd] → f.qp = 0 → f.vs1.toNat % g = 0 →
      scalarFrom (.vExt t f) s t f.vd (let k := (rx s t f.vs2).toNat
        if k < n then (vEl v w f.vs1.toNat k).signExtend 64 else 0))
    ∧ (decReady s t [f.vs1, f.vs2] → f.qp = 0 → f.vd.toNat % g = 0 →
      elGives (.vIns t f) s t w f.vd.toNat n (fun k => if k = (rx s t f.vs2).toNat then (rx s t f.vs1).setWidth w else vEl v w f.vd.toNat k) 4 0)
    ∧ (decReady s t [f.vd] → f.qp = 0 → f.vs1.toNat < 12 →
      scalarFrom (.vPcount t f) s t f.vd (BitVec.ofNat 64 ((List.range n).countP (fun k => qBit (thread s t) f.vs1.toNat (k * w / (8 * g))))))

/-- R129–R132, R154: the long vector forms: conversion with or without block scales, fused multiply-add over mixed formats, and the merge of one-pass statistics; −0 results are written +0. -/
def Obligations.VectorLongForms : Prop :=
  ∀ (s : State) (t : Tid) (f : LForm),
    decReady s t [] → longOk f.w1 = true → f.qp.toNat < 12 →
    let w1 := f.w1
    let (fd, fa, fb) := (bits w1 28 25, bits w1 32 29, bits w1 36 33)
    let flags := bits w1 46 39
    let src3 := bits w1 51 47
    let rm := if bits w1 38 37 = 3 then bits (srAt s t 1) 1 0 else bits w1 38 37
    let rnd (k : Nat) : Rnd := rndAt rm (randomOf s t) (BitVec.ofNat 64 k)
    let g := 2 ^ f.grp.toNat
    let th := thread s t
    let rd := f.rd.toNat
    (let ww := max (fmtBits fd) (fmtBits fa)
      let n := g * 8192 / ww
      let act (k : Nat) : Bool := qBit th f.qp.toNat (k * ww / (8 * g))
      f.rs2 = 0 → fb = 0 → flags < 4 → longAligned f.rd g (fmtBits fd) ww = true → longAligned f.rs1 g (fmtBits fa) ww = true →
      (flags < 2 → src3 = 0) → (2 ≤ flags → isMx fd = true ∨ isMx fa = true) →
      let x (k : Nat) : FV := if 2 ≤ flags ∧ isMx fa = true then mxDec fa (vEl th.v (fmtBits fa) f.rs1.toNat k).toNat (vEl th.v 8 src3 (k / 32)).toNat
        else edec fa (vEl th.v (fmtBits fa) f.rs1.toNat k).toNat
      (flags < 2 ∨ isMx fd = false →
        convGives (.vCvt t f) s t (fmtBits fd) rd n act (fun k =>
          let e := eenc fd (decide (flags < 2 ∨ isMx fa = false) && narrows fa fd) (rnd k) (flags % 2 == 1) (x k)
          (posZero fd e.1, e.2)) none)
      ∧ (2 ≤ flags → isMx fd = true → (src3 < rd ∨ rd + regsOf (fmtBits fd) n ≤ src3) →
        let scale (b : Nat) : Nat := mxScale fd ((List.range 32).filterMap (fun j => if 32 * b + j < n ∧ act (32 * b + j) = true then some (x (32 * b + j)) else none))
        convGives (.vCvt t f) s t (fmtBits fd) rd n act (fun k =>
          let e := mxEnc fd (rnd k) (scale (k / 32)) (x k)
          (posZero fd e.1, e.2)) (some (src3, (n + 31) / 32, scale))))
    ∧ (let w := fmtBits fd
      flags = 0 → src3 = 0 → fa ∈ [0, 1, 2, 3, 4, 0xD] → fb ∈ [0, 1, 2, 3, 4, 0xD] → fd ∈ [0, 1, 2, 0xD] → fmtBits fa ≤ w → fmtBits fb ≤ w →
      longAligned f.rd g w w = true → longAligned f.rs1 g (fmtBits fa) w = true → longAligned f.rs2 g (fmtBits fb) w = true →
      vecGives (.vMfma t f) s t (th.pc + 12) w g rd f.qp.toNat (fun k old =>
        let r := (if fa = 0xD ∨ fb = 0xD then FV.fma else mfmaVal) (edec fa (vEl th.v (fmtBits fa) f.rs1.toNat k).toNat)
          (edec fb (vEl th.v (fmtBits fb) f.rs2.toNat k).toNat) (edec fd old.toNat)
        let e := fenc (ffmtD fd) (rnd k) false r.1
        (BitVec.ofNat w (posZero fd e.1), r.2 ||| e.2)))
    ∧ (let w := fmtBits fd
      let triple (r : Nat) : Triple := { n := edec fd (vEl th.v w r 0).toNat, m := edec fd (vEl th.v w r 1).toNat, q := edec fd (vEl th.v w r 2).toNat, fl := 0 }
      let code (x : FV) : Fl Nat := let e := fenc (ffmtD fd) rne false x; (posZero fd e.1, e.2)
      let putsTriple (i : Instr) (r : Triple) : Prop :=
        elGives i s t w rd 3 (fun k => BitVec.ofNat w (code (if k = 0 then r.n else if k = 1 then r.m else r.q)).1) 12 (r.fl ||| (code r.n).2 ||| (code r.m).2 ||| (code r.q).2)
      (fd = 0 ∨ fd = 0xD) → bits w1 38 37 = 0 → src3 = 0 →
      (flags = 0 → f.qp = 0 → f.grp = 0 → fa = fd → fb = fd → putsTriple (.vStatMerge t f) (statMerge (ffmtD fd) (triple f.rs1.toNat) (triple f.rs2.toNat)))
      ∧ (f.rs2 = 0 → fb = 0 → flags % 4 = 0 → fa ∈ [0, 1, 2, 0xD] →
        let ww := max (fmtBits fd) (fmtBits fa)
        longAligned f.rs1 g (fmtBits fa) ww = true →
        let xs : List (Option FV) := (List.range (g * 8192 / ww)).map (fun k =>
          if qBit th f.qp.toNat (k * ww / (8 * g)) then some (edec fa (vEl th.v (fmtBits fa) f.rs1.toNat k).toNat) else none)
        match reduce (if fa = 0xD then 32 else 64) xs (welford (ffmtD fd) zeroTriple) (welford (ffmtD fd)) (statMerge (ffmtD fd)) with
        | none => elGives (.vStat t f) s t w rd 0 (fun _ => 0) 12 0
        | some p => putsTriple (.vStat t f) (if 4 ≤ flags then p else statMerge (ffmtD fd) (triple rd) p)))

/-- R121–R124, R126: a vector load or store whose active elements, from VRESUME's on, all pass their checks completes: a loaded element takes what was read, every other element stays, a store changes no register, VRESUME becomes zero. -/
def Obligations.VectorLoadsAndStores : Prop :=
  ∀ (s : State) (t : Tid) (f : VForm) (w : Nat), etBits f.et = some w →
    let g := 2 ^ f.grp.toNat
    let n := g * 8192 / w
    let mem (i : Instr) (st : Bool) (k : VAddr) : Prop :=
      let df : DecForm := { t := t, a := f.vs1, b := if k = .stride then f.vs2 else 0 }
      let s1 := begun s df i
      let e := entryOf s df i (resumeAt (srAt s t 0x005) 14)
      let r := vMemRun (vecAcc t (entCtx s1 t e)) f st k w (entD s1 t e) (thread s1 t) (resumeAt (srAt s t 0x005) 14) s1
      decReady s t (if k = .stride then [f.vs1, f.vs2] else [f.vs1]) → vMemIllegal f st k = false → r.stop = none → r.hold = false → thread r.s t = thread s1 t →
      let fields := if k = .seg then f.vs2.toNat else 1
      unitGives i s t (srPut r.s t 0x005 0) 0 (fun m =>
        (thread m t).regs = (thread s t).regs ∧ (thread m t).pc = (thread s t).pc + 4
        ∧ (st = true → (thread m t).v = (thread s t).v)
        ∧ (st = false → (∀ j, j < fields → ∀ e, e < n → vEl (thread m t).v w (f.vd.toNat + j * g) e =
              match tget? r.got (j * 65536 + e) with | some x => BitVec.ofNat w x | none => vEl (thread s t).v w (f.vd.toNat + j * g) e)
            ∧ vRest s m t f.vd.toNat (fields * g)))
    mem (.vLd t f) false .unit ∧ mem (.vLdS t f) false .stride ∧ mem (.vLdX t f) false .index ∧ mem (.vLdSeg t f) false .seg
    ∧ mem (.vSt t f) true .unit ∧ mem (.vStS t f) true .stride ∧ mem (.vStX t f) true .index ∧ mem (.vStSeg t f) true .seg

/-- R45, R64, R121–R123: one element of a vector access made at once: the checks of its address, in the order of R64, then the bytes read or stored there, least significant first; two 4-bit elements share a byte. -/
def Obligations.VectorElementAccess : Prop :=
  ∀ (s s1 : State) (t : Tid) (x : XCtx) (f : VForm) (k : VAddr) (w e pa : Nat) (d : DCtx) (idx : List Nat) (data : List (List Nat)) (r : VMemRun),
    k ≠ .seg → w ∈ [4, 8, 16, 32, 64] → r.s = s →
    let c := cellOf t
    let size := if w = 4 then 1 else w / 8
    let va : Word := match k with
      | .stride => d.a + BitVec.ofNat 64 e * d.b
      | .index => d.a + BitVec.ofNat 64 (idx.getD e 0)
      | _ => d.a + BitVec.ofNat 64 (e * w / 8)
    (∀ (st : Bool) (s2 : State),
      let kind : Access := if st then .store else .load
      xlatHeld s c x va kind = false →
      (∀ y, translate s c x va kind = (.error y, s2) → (vecNow t x s va size st).1 = .error (if va.toNat % size = 0 then y else { code := 1, val := va }))
      ∧ (translate s c x va kind = (.ok pa, s2) →
        (isDevice s2 pa = true → (vecNow t x s va size st).1 = .error { code := 2, val := va })
        ∧ (isDevice s2 pa = false → va.toNat % size ≠ 0 → (vecNow t x s va size st).1 = .error { code := 1, val := va })
        ∧ (isDevice s2 pa = false → va.toNat % size = 0 →
          let s3 := if inHbm pa then trainStreams s2 c (thrOf t) (demandAt s2 t va) (!st && (l1Copy (cell s2 c) (pa / 128)).isNone) else s2
          (st = true ∨ nsPage s3 t va = false ∧ readNeeds s3 c (thrOf t) pa size = []) → vecNow t x s va size st = (.ok pa, s3))))
    ∧ (∀ s2 bs, vecNow t x s va size false = (.ok pa, s1) → threadRead s1 c (thrOf t) pa size = ((bs, none), s2) →
      vMemEl (vecAcc t x) f false k w d idx data e r =
        { r with s := s2, got := tins e (if w = 4 then ofLE bs / 16 ^ (e % 2) % 16 else ofLE bs) r.got })
    ∧ (∀ s2 bs j, vecNow t x s va size false = (.ok pa, s1) → threadRead s1 c (thrOf t) pa size = ((bs, some j), s2) →
      (vMemEl (vecAcc t x) f false k w d idx data e r).stop = some (e, { code := 7, val := va &&& ~~~7#64 }))
    ∧ (vecNow t x s va size true = (.ok pa, s1) → entHeld x s1 pa = false → storeFits t s1 [pa] = true → w ≠ 4 →
      vMemEl (vecAcc t x) f true k w d idx data e r =
        { r with s := cellStore s1 c (thrOf t) pa (leBytes ((data.getD 0 []).getD e 0) size) })
    ∧ (∀ s2 bs, vecNow t x s va size true = (.ok pa, s1) → entHeld x s1 pa = false → storeFits t s1 [pa] = true → w = 4 →
      threadRead s1 c (thrOf t) pa 1 = ((bs, none), s2) →
      let v := (data.getD 0 []).getD e 0
      vMemEl (vecAcc t x) f true k w d idx data e r =
        { r with s := cellStore s2 c (thrOf t) pa (leBytes (if e % 2 = 0 then ofLE bs / 16 * 16 + v else ofLE bs % 16 + 16 * v) 1) })

/-- R162, R165, R168, R173, R181: `t.clr` empties a tile's extent, `t.ext` reads one, `t.mov` converts every element of its source, or of its transpose, into the destination; the tiles they name must be held. -/
def Obligations.TileMovesAndExtents : Prop :=
  ∀ (s : State) (t : Tid) (f : TForm),
    let x := cell s (cellOf t)
    let held (k : Nat) : Prop := bit (thread s t).mine k = true
    (decReady s t [] → f.sub = 0 → f.rd.toNat < 16 → f.rs1 = 0 → f.rs2 = 0 → f.w1 = 0 → held f.rd.toNat →
      ∃ n, exec (.tClr t f) s = .next n ∧ tileDone s n t ∧ tileTakes s n t f.rd.toNat 0 0 0 (fun _ _ => 0)
        ∧ (thread n t).regs = (thread s t).regs ∧ flagsGained s n t (fun _ => False))
    ∧ (decReady s t [f.rd] → f.sub = 0 → f.rs1.toNat < 16 → f.rs2 = 0 → f.w1 = 0 → held f.rs1.toNat → (tileAttr x f.rs1.toNat).rows < 256 →
      ∃ n, exec (.tExt t f) s = .next n ∧ tileDone s n t
        ∧ rx n t f.rd = (if f.rd = 0 then 0 else BitVec.ofNat 64 ((tileAttr x f.rs1.toNat).rows + 256 * (tileAttr x f.rs1.toNat).colBytes))
        ∧ (∀ r, r ≠ f.rd → rx n t r = rx s t r) ∧ (∀ k, tileAttr (cell n (cellOf t)) k = tileAttr x k) ∧ (cell n (cellOf t)).tiles = x.tiles ∧ flagsGained s n t (fun _ => False))
    ∧ (let w := f.w1
      let (rows, cols, fd, fa) := (bits w 6 0, bits w 15 7, bits w 28 25, bits w 32 29)
      let flags := bits w 46 39
      let rm := if bits w 38 37 = 3 then bits (srAt s t 1) 1 0 else bits w 38 37
      let el (r k : Nat) : Fl Nat :=
        let e := eenc fd (narrows fa fd) (rndAt rm (randomOf s t) (BitVec.ofNat 64 (r * 256 + k))) (flags.testBit 0)
          (edec fa (if flags.testBit 2 then tileEl x f.rs1.toNat fa k r else tileEl x f.rs1.toNat fa r k))
        (posZero fd e.1, e.2)
      decReady s t [] → tIllegal .mov f = false → tShape .mov w = none → held f.rd.toNat → held f.rs1.toNat → f.rd.toNat < 16 → f.rs1.toNat < 16 →
      ∃ n, exec (.tMov t f) s = .next n ∧ tileDone s n t ∧ tileTakes s n t f.rd.toNat rows cols fd (fun r k => (el r k).1)
        ∧ (thread n t).regs = (thread s t).regs
        ∧ flagsGained s n t (fun j => (∃ r k, r < rows ∧ k < cols ∧ (el r k).2.testBit j = true ∧ Nat.testBit 0x1F4 j = true)
          ∨ (j = 8 ∧ (if flags.testBit 2 then beyond x f.rs1.toNat cols rows fa else beyond x f.rs1.toNat rows cols fa) = true)))

/-- R189–R201: `mx.mma` with nothing poisoned whose attempt passes its checks: every result of the tile is the drained sum of its preload and its products, its extent becomes ROWS × COLS, the flags are those of its results. -/
def Obligations.MatrixMultiply : Prop :=
  ∀ (s : State) (t : Tid) (f : TForm),
    let x := cell s (cellOf t)
    let m := mxFields f
    let rm := if bits f.w1 38 37 = 3 then bits (srAt s t 1) 1 0 else bits f.w1 38 37
    let el (r k : Nat) : Fl Nat := mxDrain x m (randomOf s t) rm r k
    decReady s t [] → mxIllegal f = false → mxShape m = none → (∀ k, k ∈ mxTiles m → k < 16 ∧ bit (thread s t).mine k = true) → x.harpStopped = false →
    (∀ r, r < m.rows → mxPoison x m r = false) → (harpTry x m none).passes = true →
    ∃ n, exec (.mxMma t f) s = .next n ∧ tileDone s n t ∧ tileTakes s n t m.td m.rows m.cols m.fd (fun r k => (el r k).1)
      ∧ (thread n t).regs = (thread s t).regs
      ∧ flagsGained s n t (fun j => (∃ r k, r < m.rows ∧ k < m.cols ∧ (el r k).2.testBit j = true ∧ Nat.testBit 0x74 j = true) ∨ (j = 8 ∧ mxBeyond x m = true))

/-- R171–R178: a `t.ld` or `t.st` whose rows, from TRESUME's on, all pass their checks completes: TRESUME becomes zero, a load's tile takes its extent, and no scalar or vector register changes. -/
def Obligations.TileLoadsAndStores : Prop :=
  ∀ (s : State) (t : Tid) (f : TForm),
    let mem (i : Instr) (k : TKind) : Prop :=
      let df : DecForm := { t := t, tile := true, long := true, a := f.rs1, b := f.rs2, d := if (bits f.w1 46 39).testBit 1 then BitVec.ofNat 5 (bits f.w1 51 47) else 0 }
      let s1 := begun s df i
      let e := entryOf s df i (resumeAt (srAt s t 0x006) 6)
      let r := tMemRun (tileAcc t (entCtx s1 t e)) k (cellOf t) f (entD s1 t e) (thread s1 t) (resumeAt (srAt s t 0x006) 6) s1
      decReady s t [f.rs1, f.rs2, df.d] → tIllegal k f = false → tShape k f.w1 = none → f.rd.toNat < 16 → bit (thread s t).mine f.rd.toNat = true →
      r.stop = none → r.hold = false → thread r.s t = thread s1 t →
      unitGives i s t (srPut r.s t 0x006 0) r.fl (fun n =>
        (thread n t).regs = (thread s t).regs ∧ (thread n t).v = (thread s t).v ∧ (thread n t).pc = (thread s t).pc + 12
        ∧ (k = .ld → (tileAttr (cell n (cellOf t)) f.rd.toNat).rows = bits f.w1 6 0
          ∧ (tileAttr (cell n (cellOf t)) f.rd.toNat).colBytes = rowBytes (bits f.w1 15 7) (bits f.w1 28 25)))
    mem (.tLd t f) .ld ∧ mem (.tSt t f) .st

/-- R303–R307: an update instruction whose block is well formed and whose elements pass their checks completes with VRESUME zero and the flags of its elements; each element's parameters and moments are R305's expressions, every step rounded in FP32. -/
def Obligations.UpdateInstructions : Prop :=
  (∀ (s s2 s3 : State) (t : Tid) (f : LForm) (pa : Nat) (bs : List Byte) (b : UpdBlk),
    let upd (i : Instr) (opt : Nat) : Prop :=
      let df : DecForm := { t := t, long := true, a := f.rs1, d := f.rd, more := [f.rs2, f.rs2 + 1, f.rs2 + 2, f.rs2 + 3] }
      let s1 := begun s df i
      let e := entryOf s df i (resumeAt (srAt s t 0x005) 14)
      let x := entCtx s1 t e
      let r := updRun (updAcc t x) opt b (updGf s3 b) f (entD s1 t e) (thread s3 t) false (resumeAt (srAt s t 0x005) 14) s3
      (thread s t).spec = none → decReady s t [f.rs1, f.rd, f.rs2, f.rs2 + 1, f.rs2 + 2, f.rs2 + 3] → updIllegal f (rx s t f.rs1) (thread s t).level = false →
      tileNow t (updRead x) s1 (rx s t f.rs1) 64 false = (.ok pa, s2) → tileRead t s2 pa 64 = ((bs, none), s3) →
      parseUpd bs (decide (opt = 1)) = some b → (b.hemgf = true → hemUpdating s3 = true) → r.stop = none → thread r.s t = thread s1 t →
      unitGives i s t (srPut r.s t 0x005 0) r.fl (fun n =>
        (thread n t).regs = (thread s t).regs ∧ (thread n t).v = (thread s t).v ∧ (thread n t).pc = (thread s t).pc + 12)
    upd (.updSgdm t f) 0 ∧ upd (.updAdamw t f) 1 ∧ upd (.updLion t f) 2)
  ∧ (∀ (b : UpdBlk) (c : UpdConst) (gf g p m v : FV),
    let rn (x : Fl FV) : FV := (fop f32 rne x).1
    let g1 := rn (FV.mul g gf)
    (let m' := rn (FV.fma b.b1 m (rn (FV.mul c.o1 g1)))
      let v' := rn (FV.fma b.b2 v (rn (FV.mul c.o2 (rn (FV.mul g1 g1)))))
      let u := rn (FV.div m' (rn (FV.add (rn (FV.sqrt v')) c.e)))
      (updStep 1 b c gf g p m v).1 = (rn (FV.fma c.a.neg u (rn (FV.fma c.dw.neg p p))), m', v'))
    ∧ (let g2 := rn (FV.fma b.wdc p g1)
      let m' := rn (FV.fma b.b1 m g2)
      (updStep 0 b c gf g p m v).1 = (rn (FV.fma b.lr.neg (if b.nest then rn (FV.fma b.b1 m' g2) else m') p), m', v))
    ∧ (let u := fsignum (rn (FV.fma b.b1 m (rn (FV.mul c.o1 g1))))
      (updStep 2 b c gf g p m v).1 = (rn (FV.fma b.lr.neg u (rn (FV.fma c.dw.neg p p))), rn (FV.fma b.b2 m (rn (FV.mul c.o2 g1))), v)))

/-! ## Issue, misses, stores on their way, pegs (R31–R33, R50, R225–R238, R365–R371) -/

/-- R31, R32, R33, R53, R134: the selector passes threads that cannot issue and runs the first decoded instruction that can; an unresolved instruction that its pipe chooses resolves with its flags and its result; a result arrives; a fetched line enters the instruction cache. -/
def Obligations.PipelineEvents : Prop :=
  (∀ (s s1 n : State) (c : Cid) (t : Tid) (before after : List Tid) (w : BitVec 32) (w1 : Word) (i : Instr),
    (cell s c.val).power = .run → clocked s c.val = true →
    let s0 := takeLates (wakeHomes (cycle s c.val) c.val) c.val
    (issueOrder s0 c.val).filter (fun u => !(thread s0 u).yield) ++ (issueOrder s0 c.val).filter (fun u => (thread s0 u).yield) = before ++ t :: after →
    (∀ u ∈ before, canIssue s0 u = false) → canIssue s0 t = true → fetchInstr s0 t = (.ok w w1, s1) → decodeInstr t w w1 = some i →
    runInstr i s1 = some n → tookIssue n t = true → exec (.issueSelect c) s = .next n)
  ∧ (∀ (s s2 : State) (t : Tid) (e : DecEntry) (fl : Nat) (res : Option Word),
    (cell s (cellOf t)).power = .run → clocked s (cellOf t) = true →
    (thread s t).vq = [e] → (thread s t).tq = [] → e.resolved = false → e.at' = none → e.runs = false → (thread s t).hold = [] → (cell s (cellOf t)).wb.length ≤ 16 →
    let p := pipeOf e.instr
    pipeKept s t p = false → hasTurn s t p = true →
    let place := if p = 2 then resumeAt (srAt s t 0x006) 6 else resumeAt (srAt s t 0x005) 14
    let e' : DecEntry := { e with at' := some place, next := place, ask := (cell s (cellOf t)).accNo }
    let s1 := beginEntry s t e
    dPipe s1 t e' = .done s2 fl res → (thread s2 t).vq = [e'] → (thread s2 t).tq = [] → (thread s2 t).hold = [] → (thread s2 t).late = none →
    ∃ n, exec (.instructionResolve t false .clean) s = .next n
      ∧ n = { s2 with threads := n.threads } ∧ (∀ u, u ≠ t → thread n u = thread s2 u)
      ∧ thread n t = { thread s2 t with sr := (thread n t).sr, younger := 0, vq := [{ e' with resolved := true, result := res.map (fun v => (dstOf e.instr, v)) }] }
      ∧ flagsGained s2 n t (fun j => fl.testBit j = true))
  ∧ (∀ (s : State) (t : Tid) (tile : Bool) (k : Nat) (e : DecEntry) (r : Reg) (v : Word),
    let q := if tile then (thread s t).tq else (thread s t).vq
    q[k]? = some e → e.resolved = true → e.runs = false → (∀ o ∈ q.take k, o.resolved = false ∨ o.runs = true) → e.result = some (r, v) → (thread s t).late = none →
    ∃ n, exec (.decoupledResultArrive t tile) s = .next n
      ∧ rx n t r = (if r = 0 then 0 else v) ∧ (∀ q, q ≠ r → rx n t q = rx s t q)
      ∧ thread n t = { thread s t with regs := (thread n t).regs, busy := setBit (thread s t).busy r.toNat false, vq := (thread n t).vq, tq := (thread n t).tq }
      ∧ (if tile then (thread n t).tq else (thread n t).vq).map (fun o => (o.instr, o.pc)) = (q.eraseIdx k).map (fun o => (o.instr, o.pc))
      ∧ n = { s with threads := n.threads } ∧ (∀ u, u ≠ t → thread n u = thread s u))
  ∧ (∀ (s s1 : State) (t : Tid) (l : Nat),
    (thread s t).st = .waiting .fetch → missingLine s t = (some l, s1) → lineOpen s1 (cellOf t) l = true → thread s1 t = thread s t → lineDead s1 l = false → crossDead s1 (dieOfCore (cellOf t)) (dieOf s1 (lineBase l)) = false →
    ∃ n b, exec (.instructionFetchReturn t) s = .next n ∧ (thread n t).st = .ready ∧ thread n t = { thread s t with st := .ready }
      ∧ b.data = (homeLine s1 l).data ∧ (cell n (cellOf t)).icache.head? = some (l, b) ∧ bytesKept s1 n
      ∧ (∀ u, u ≠ t → thread n u = thread s1 u) ∧ (∀ c, c ≠ cellOf t → cell n c = cell s1 c)
      ∧ (let x := cell n (cellOf t)
         x = { cell s1 (cellOf t) with icache := x.icache }))

/-- R43, R50, R226, R228–R231, R233–R237: a miss, an uncached load and a line of the tile pipe are served what their home holds; a line's return gives the waiting load its value, frees the register and fills the L1, with the open stores' bytes; a held request merges, or takes a register when its bank and the free registers allow; a stream's next line takes one. -/
def Obligations.MissesAndFills : Prop :=
  (∀ (s : State) (c : Cid) (k : Nat) (m : Mshr),
    let x := cell s c.val
    let s1 := stackServed s c.val m.line m.no
    x.mshrs[k]? = some m → m.served = none → homeClocked s m.line = true → stackServes s c.val m.line m.no = true →
    lineDead s m.line = false → crossDead s (dieOfCore c.val) (dieOf s (lineBase m.line)) = false →
    ∃ n b, exec (.loadPerformed c k) s = .next n ∧ b.data = (homeLine s m.line).data
      ∧ cell n c.val = { x with mshrs := x.mshrs.set k { m with served := some b, loads := m.loads.map (fun l => { l with got := l.got.or (some b) }) } }
      ∧ (∀ d, d ≠ c.val → cell n d = cell s d) ∧ (∀ t, thread n t = thread s t) ∧ n.hbm = s1.hbm ∧ regsKept [.hbmChstat] s n ∧ bytesKept s n)
  ∧ (∀ (s : State) (c : Cid) (j : Nat) (m : TileSlot),
    let x := cell s c.val
    x.slots[j]? = some m → m.served = none → m.held = false → homeClocked s m.line = true → stackServes s c.val m.line m.no = true →
    lineDead s m.line = false → crossDead s (dieOfCore c.val) (dieOf s (lineBase m.line)) = false →
    ∃ n b, exec (.loadPerformed c (x.mshrs.length + x.loads.length + j)) s = .next n ∧ b.data = (homeLine s m.line).data
      ∧ cell n c.val = { x with slots := x.slots.set j { m with served := some b } }
      ∧ (∀ d, d ≠ c.val → cell n d = cell s d) ∧ (∀ t, thread n t = thread s t) ∧ regsKept [.hbmChstat] s n ∧ bytesKept s n)
  ∧ (∀ (s s2 : State) (c : Cid) (j : Nat) (l : LoadReq) (b : Line),
    let x := cell s c.val
    let t := tidOf c.val l.thr.val
    x.loads[j]? = some l → l.device = false → l.got = none → l.bytes ∈ [1, 2, 4, 8] → isMemory s l.pa = true → homeClocked s (l.pa / 128) = true →
    (∀ o ∈ x.loads.take j, o.thr = l.thr → o.pa + o.bytes ≤ l.pa ∨ l.pa + l.bytes ≤ o.pa) →
    readLineFrom s (dieOfCore c.val) (l.pa / 128) = (b, s2) → linePoison b (l.pa % 128) l.bytes = false → (∀ u, (thread s u).late = none) →
    ∃ n, exec (.loadPerformed c (x.mshrs.length + j)) s = .next n ∧ (cell n c.val) = { x with loads := x.loads.eraseIdx j }
      ∧ rx n t l.rd = (if l.rd = 0 then 0 else lineValue b.data (l.pa % 128) l.bytes l.signed) ∧ (∀ r, r ≠ l.rd → rx n t r = rx s t r)
      ∧ (thread n t).busy = setBit (thread s t).busy l.rd.toNat false ∧ (thread n t).pc = (thread s t).pc ∧ (thread n t).st = (thread s t).st
      ∧ (∀ u, u ≠ t → thread n u = thread s u) ∧ (∀ d, d ≠ c.val → cell n d = cell s d) ∧ bytesKept s n)
  ∧ (∀ (s : State) (c : Cid) (k : Fill) (m : Mshr) (b : Line) (l : LoadReq),
    let x := cell s c.val
    let t := tidOf c.val l.thr.val
    x.mshrs[k.place]? = some m → m.served = some b → m.loads = [l] → m.pipes = [] → l.bytes ∈ [1, 2, 4, 8] → (tget {} x.l1 (l1Index m.line)).ways.length = 8 →
    let d := l.got.getD b
    linePoison d (l.pa % 128) l.bytes = false → (∀ u, (thread s u).late = none) →
    ∃ n, exec (.cacheFill c k) s = .next n ∧ (cell n c.val).mshrs = x.mshrs.eraseIdx k.place
      ∧ rx n t l.rd = (if l.rd = 0 then 0 else lineValue d.data (l.pa % 128) l.bytes l.signed) ∧ (∀ r, r ≠ l.rd → rx n t r = rx s t r)
      ∧ (thread n t).busy = setBit (thread s t).busy l.rd.toNat false ∧ (thread n t).pc = (thread s t).pc ∧ (thread n t).st = (thread s t).st
      ∧ (∀ u, u ≠ t → thread n u = thread s u) ∧ (∀ d, d ≠ c.val → cell n d = cell s d) ∧ bytesKept s n
      ∧ (m.install = true → l1Line n c.val (lineBase m.line) = some { line := m.line, body := applyOpen x m.line b, bad := k.bad })
      ∧ (m.install = false → (cell n c.val).l1 = x.l1 ∧ (cell n c.val).victim = x.victim))
  ∧ (∀ (s : State) (c : Cid) (before after : List HeldMiss) (h : HeldMiss),
    let x := cell s c.val
    x.held = before ++ h :: after → (∀ g ∈ before, mayGrant s c.val g = false) → mayGrant s c.val h = true →
    let t := tidOf c.val h.load.thr.val
    let asks (m : Mshr) : Mshr := if h.kind = .load then { m with loads := m.loads ++ [h.load] } else { m with pipes := m.pipes ++ [h.load.thr] }
    ∃ n, exec (.missRegisterGrant c) s = .next n
      ∧ (h.kind ≠ .atomic →
          n = { s with threads := n.threads, cells := n.cells, mmio := n.mmio, out := n.out, pba := n.pba, msixDue := n.msixDue } ∧ (cell n c.val).held = before ++ after
          ∧ ((∀ m ∈ x.mshrs, m.line ≠ h.line) → (cell n c.val).mshrs = x.mshrs ++ [{ asks { line := h.line, loads := [] } with no := nextNo s }])
          ∧ (∀ j m, x.mshrs[j]? = some m → m.line = h.line → (∀ o ∈ x.mshrs.take j, o.line ≠ h.line) →
              (cell n c.val).mshrs = x.mshrs.set j { asks m with merged := m.merged + 1, stream := none, served := none })
          ∧ (∀ d, d ≠ c.val → cell n d = cell s d) ∧ (∀ u, u ≠ t → thread n u = thread s u) ∧ (thread n t).regs = (thread s t).regs
          ∧ (h.kind = .element → thread n t = thread s t)
          ∧ (h.kind = .load → (thread n t).pc = (thread s t).pc + 4 ∧ (thread n t).st = .ready
              ∧ (h.load.rd ≠ 0 → (thread n t).busy = setBit (thread s t).busy h.load.rd.toNat true)))
      ∧ (∀ i, h.kind = .atomic → h.instr = some i →
          let s' := modThread (setCell s c.val { x with held := before ++ after }) t (fun th => { th with st := .ready })
          n = (runInstr i s').getD s'))
  ∧ (∀ (s : State) (t : Tid) (line : Nat) (st : Stream) (e : TlbEnt) (y : CellS),
    let c := cellOf t
    let x := cell s c
    x.streams.find? (fun o => decide (o.thr.val = thrOf t) && streamWants o line) = some st → clocked s c = true → x.power = .run → rf s .powerShed F.powerShedStage = 0 →
    tlbLookup x .load (thread s t).asid (128 * line) = some (e, y) → e.r = true → e.ns = false → ((thread s t).level = 0 → e.u = true) → st.paused = none →
    let pa := pairFrame (ctxOf s t) e + 128 * line % 2 ^ e.size
    inHbm pa = true → (∀ m ∈ x.mshrs, m.line ≠ pa / 128) → l1Copy x (pa / 128) = none → x.mshrs.length + (hbmAtomics x).length < 32 →
    (x.mshrs.filter (fun m => decide (bankOf s m.line = bankOf s (pa / 128)))).length + ((hbmAtomics x).filter (fun m => decide (bankOf s m.line = bankOf s (pa / 128)))).length < 8 →
    ∃ n, exec (.prefetchIssue t line) s = .next n ∧ (cell n c).mshrs = x.mshrs ++ [{ line := pa / 128, loads := [], stream := some st.id, no := nextNo s }]
      ∧ (∃ o ∈ (cell n c).streams, o.id = st.id ∧ o.next = st.next + st.stride)
      ∧ (∀ u, thread n u = thread s u) ∧ (∀ d, d ≠ c → cell n d = cell s d) ∧ regsKept [.perfCnt, .perfEvt] s n ∧ bytesKept s n)

/-- R50, R225: an entry told to drain, or 32 cc old, drains; a drained entry whose thread has no older entry for its line and no older unserved load of its bytes is performed: its bytes are in memory and in the lines that the cell has still to install, it is freed, a store that waited for an entry goes on, and no other byte changes. -/
def Obligations.StoresReachMemory : Prop :=
  ∀ (s : State) (c : Cid) (k : Nat) (e : WbEnt), (cell s c.val).wb[k]? = some e →
    let x := cell s c.val
    let drains (n : State) : Prop := n = setCell s c.val { x with wb := x.wb.set k { e with drained := true } }
    (∃ n, exec (.writeBufferDrain c k) s = .next n ∧ drains n)
    ∧ (e.device = false → ∃ n, exec (.writeBufferTimeout c k) s = .next n ∧ drains n)
    ∧ (e.drained = true → e.device = false → lineHbm e.line = true → memorySafe s → lineDead s e.line = false → (∀ j, j < 128 → crossDead s (dieOfCore c.val) (dieOf s (lineBase e.line + j)) = false) →
      (∀ o ∈ x.wb.take k, o.owner ≠ e.owner ∨ o.line ≠ e.line) → olderLoad x e = false → homeClocked s e.line = true →
      ∃ n, exec (.storePerformed c k) s = .next n
        ∧ cell n c.val = { x with wb := x.wb.eraseIdx k, mshrs := x.mshrs.map (fun m => if m.line = e.line then { m with served := m.served.map (layEntry e) } else m) }
        ∧ (∀ j, j < 128 → byteAt n (lineBase e.line + j) = if bit e.mask j then e.data.extractLsb' (8 * j) 8 else byteAt s (lineBase e.line + j))
        ∧ (∀ a, a / 128 ≠ e.line → byteAt n a = byteAt s a)
        ∧ (∀ t, thread n t = { thread s t with st := if cellOf t = c.val ∧ (thread s t).st = .waiting .store then .ready else (thread s t).st })
        ∧ (∀ d, d ≠ c.val → cell n d = cell s d) ∧ regsKept [.perfCnt, .perfEvt, .hbmChstat, .errInj] s n)

/-- R366, R367, R369: the peg instructions: rd takes the old value (a wait: the value that met it); an add that stays in range and a set change the peg; a wait or barrier that is not met waits; waiters that the new value meets are satisfied. -/
def Obligations.PegInstructions : Prop :=
  ∀ (s : State) (t : Tid) (rd a b : Reg),
    let p := (rx s t a).toNat
    let v := rx s t b
    let old := pegVal s p
    let me (u : Tid) : Prop := u = t
    let ready (op : PegOp) (r : Reg) : Prop := mayIssue s t false [rd, a, r] = true ∧ pegFault s t op (rx s t a) (rx s t r) = none ∧ quiet s t ∧ (op.releases s t = true → releaseReady s t = true)
    let got (n : State) (x : Nat) : Prop := regDone s n t rd (BitVec.ofNat 64 x) ((thread s t).pc + 4)
    let still (n : State) : Prop := (∀ q, pegVal n q = pegVal s q) ∧ ∀ u, u ≠ t → thread n u = { thread s u with yield := (thread n u).yield }
    (ready .rd 0 → ∃ n, exec (.pegRd t rd a) s = .next n ∧ got n old ∧ still n ∧ flushed n (cellOf t) ∧ pegFrame s n)
    ∧ (ready .add b → 0 ≤ (old : Int) + v.toInt → (old : Int) + v.toInt < 2 ^ 63 → noBarrierMet s p ((old : Int) + v.toInt).toNat →
        ∃ n, exec (.pegAdd t rd a b) s = .next n ∧ got n old ∧ pegTook s n p ((old : Int) + v.toInt).toNat me ∧ pegFrame s n)
    ∧ (ready .set b → noBarrierMet s p v.toNat → ∃ n, exec (.pegSet t rd a b) s = .next n ∧ got n old ∧ pegTook s n p v.toNat me ∧ pegFrame s n)
    ∧ (ready .waitGe b →
        (v.toNat ≤ old → ∃ n, exec (.pegWaitGe t rd a b) s = .next n ∧ got n old ∧ still n ∧ flushed n (cellOf t) ∧ pegFrame s n)
        ∧ (old < v.toNat → ∃ n, exec (.pegWaitGe t rd a b) s = .next n ∧ (thread n t).st = .waiting (.peg p v.toNat false rd) ∧ (thread n t).pc = (thread s t).pc
            ∧ (thread n t).regs = (thread s t).regs ∧ still n ∧ pegFrame s n))
    ∧ (ready .waitEq b →
        (old = v.toNat → ∃ n, exec (.pegWaitEq t rd a b) s = .next n ∧ got n old ∧ still n ∧ flushed n (cellOf t) ∧ pegFrame s n)
        ∧ (old ≠ v.toNat → ∃ n, exec (.pegWaitEq t rd a b) s = .next n ∧ (thread n t).st = .waiting (.peg p v.toNat true rd) ∧ (thread n t).pc = (thread s t).pc
            ∧ (thread n t).regs = (thread s t).regs ∧ still n ∧ pegFrame s n))
    ∧ (ready .arrive b →
        let pre := srAt s t 0x007
        let o := if bit pre 63 then bits pre 62 0 else old
        let target := (o / v.toNat + 1) * v.toNat
        (bit pre 63 = false → old + 1 < target → old + 1 < 2 ^ 63 → noBarrierMet s p (old + 1) →
          ∃ n, exec (.pegArrive t rd a b) s = .next n ∧ (thread n t).st = .waiting (.arrive p target old rd) ∧ (thread n t).pc = (thread s t).pc
            ∧ (thread n t).regs = (thread s t).regs ∧ pegTook s n p (old + 1) me ∧ pegFrame s n)
        ∧ (bit pre 63 = true → target ≤ old →
          ∃ n, exec (.pegArrive t rd a b) s = .next n ∧ (thread n t).st = .ready ∧ rx n t rd = (if rd = 0 then 0 else BitVec.ofNat 64 o) ∧ (∀ r, r ≠ rd → rx n t r = rx s t r)
            ∧ (thread n t).pc = (thread s t).pc + 4 ∧ srAt n t 0x007 = 0 ∧ still n ∧ flushed n (cellOf t) ∧ pegFrame s n))

/-- R366, R370, R371: a satisfied wait and a released barrier waiter resume with their value after an acquire; the peg registers read, set and add to the selected peg, for a half as R371 says, a thread's read of the value with an acquire; an add clamps. -/
def Obligations.PegRegistersAndReleases : Prop :=
  (∀ (s : State) (t : Tid) (v : Nat) (rd : Reg), (thread s t).st = .waiting (.released v rd) →
    ∃ n, exec (.pegWaitSatisfied t) s = .next n ∧ (thread n t).st = .ready ∧ (thread n t).pc = (thread s t).pc + 4
      ∧ rx n t rd = (if rd = 0 then 0 else BitVec.ofNat 64 v) ∧ (∀ r, r ≠ rd → rx n t r = rx s t r)
      ∧ flushed n (cellOf t) ∧ (∀ u, u ≠ t → thread n u = thread s u) ∧ n.pegs = s.pegs ∧ pegFrame s n)
  ∧ (∀ (s : State) (w : List Tid) (more : List (List Tid)) (rest : List (List (List Tid))), s.pegs.waves = (w :: more) :: rest → w.Nodup →
    -- the waves that follow of the same change come after the next wave of each other change (log 119)
    ∃ n, exec .barrierWaveRelease s = .next n ∧ n.pegs = { s.pegs with waves := if more = [] then rest else rest ++ [more] }
      ∧ (∀ t p x old rd, t ∈ w → (thread s t).st = .waiting (.arrive p x old rd) →
          (thread n t).st = .ready ∧ (thread n t).pc = (thread s t).pc + 4 ∧ rx n t rd = (if rd = 0 then 0 else BitVec.ofNat 64 old) ∧ (∀ r, r ≠ rd → rx n t r = rx s t r)
          ∧ srAt n t 0x007 = 0)
      ∧ (∀ u, u ∉ w → thread n u = thread s u) ∧ bytesKept s n)
  ∧ (∀ (s : State) (a : Agent) (h : Half) (v : Word), takes s a → agentAtLeast s a 1 = true →
    -- a thread's write is a release, which has nothing left to perform here
    (∀ t, agentThread a = some t → quiet s t ∧ releaseReady s t = true) →
    let p := selF s a .pegSel F.pegSelPeg
    let old := pegVal s p
    let w : Nat := match h with
      | .full => v.toNat
      | .low => old / 2 ^ 32 * 2 ^ 32 + v.toNat % 2 ^ 32
      | .high => v.toNat % 2 ^ 32 * 2 ^ 32 + old % 2 ^ 32
    let d : Int := match h with
      | .full => v.toInt
      | .low => (v.setWidth 32).toInt
      | .high => (v.setWidth 32).toInt * 2 ^ 32
    let sum : Nat := (min (max ((old : Int) + d) 0) (2 ^ 63 - 1)).toNat
    (w < 2 ^ 63 → noBarrierMet s p w → ∃ n, exec (.pegValWrite a h v) s = .next n ∧ pegTook s n p w (fun _ => False) ∧ pegFrame s n)
    ∧ (noBarrierMet s p sum → ∃ n, exec (.pegAddWrite a h v) s = .next n ∧ pegVal n p = sum ∧ (∀ q, q ≠ p → pegVal n q = pegVal s q)
        ∧ ((sum : Int) ≠ old + d → rf n .pegSat F.pegSatPeg = p ∧ rf n .pegSat F.pegSatValid = 1)
        ∧ ((sum : Int) = old + d → pegTook s n p sum (fun _ => False) ∧ pegFrame s n))
    ∧ ∃ n, exec (.pegValRead a h) s = .next n
        ∧ (let shown := emit s (.value a 0x020008 (match h with
              | .full => BitVec.ofNat 64 old
              | .low => BitVec.ofNat 64 (old % 2 ^ 32)
              | .high => BitVec.ofNat 64 (old / 2 ^ 32)))
           (agentThread a = none → n = shown) ∧ (∀ t, agentThread a = some t → flushed n (cellOf t) ∧ pegFrame shown n ∧ ∀ u, thread n u = thread s u)))

/-! ## Cells and region clocks (R18, R20–R23, R29, R94) -/

/-- R18, R21–R23, R29: a cell's power states (a wake applies the updates that waited, R94); a region's PLL starts on demand, locks, stops when nothing needs it; the first loss of lock switches to the spare PLL, the second stops the region with a chip-level error. -/
def Obligations.CellPowerAndRegionClocks : Prop :=
  (∀ (s : State) (c : Cid),
    let x := cell s c.val
    let goes (p : CellPower) : Host.Outcome State Fault Refusal := .next (setCell s c.val { x with power := p })
    -- a cell that waits for updates has left no instruction at work in its units
    let runs (i : Instr) : Prop := x.updates = [] ∨ (∀ t ∈ tidsOf c.val, ∀ e ∈ (thread s t).vq ++ (thread s t).tq, e.runs = false) →
      ∃ n, exec i s = .next n ∧ (cell n c.val).power = .run ∧ (cell n c.val).wakeReq = false ∧ (cell n c.val).updates = []
        ∧ (x.updates = [] → n = setCell s c.val { x with power := .run, wakeReq := false })
    (c.val < 768 → x.power = .run → cellIdle s c.val = true → exec (.clockGate c) s = goes .gated)
    ∧ (x.power = .gated → x.wakeReq = false → exec (.powerGate c) s = goes .entering)
    ∧ (x.power = .entering → x.wakeReq = false → ∃ n, exec (.powerSwitchOpen c) s = .next n
        ∧ n = { s with cells := n.cells, mmio := n.mmio, out := n.out, pba := n.pba, msixDue := n.msixDue } ∧ (∀ d, d ≠ c.val → cell n d = cell s d) ∧ regsKept [.perfCnt, .perfEvt] s n
        ∧ (markedLines x = [] → cellFrame c.val s n)
        ∧ (let y := cell n c.val
           y.power = .off ∧ y.icache = [] ∧ y.l1 = [] ∧ y.victim = [] ∧ y.opcache = [] ∧ y.capo = none ∧ y.harp = {} ∧ (∀ m ∈ y.mshrs, m.install = false)
           ∧ y.tiles = x.tiles ∧ y.tattr = x.tattr ∧ y.tpoison = x.tpoison ∧ y.updates = x.updates ∧ y.epoch = x.epoch ∧ y.site = x.site))
    ∧ (x.wakeReq = true → x.power = .gated ∨ x.power = .entering ∨ x.power = .run → runs (.cellWake c))
    ∧ (x.wakeReq = true → x.power = .off → exec (.cellWake c) s = goes .waking)
    ∧ (x.power = .waking → runs (.cellPowered c)))
  ∧ (∀ (s : State) (r : Fin 12),
    let on (q : State) (f : Fld) : Bool := (rf q .devClk f).testBit r.val
    let running := F.devClkRunning
    let idle : Prop := r.val ∉ s.clk.starting ∧ r.val ∉ s.clk.switching ∧ on s running = false ∧ on s F.devClkStopped = false
    -- what a step changes of the clocks: bit r of the fields named, and these two lists
    let step (n : State) (fs : List Fld) (starting switching : List Nat) : Prop :=
      n = { s with mmio := n.mmio, err := n.err, clk := { starting := starting, switching := switching } } ∧ regsKept [.devClk] s n
      ∧ fieldsKept .devClk 0 (fs.map (fun f => { f with hi := f.lo + r.val, lo := f.lo + r.val })) s n
    let start := r.val :: s.clk.starting
    let less (l : List Nat) : List Nat := l.filter (fun y => decide (y ≠ r.val))
    let stopped (i : Instr) : Prop := ∃ n, exec i s = .next n ∧ step n [running, F.devClkStopped] (less s.clk.starting) (less s.clk.switching)
      ∧ on n running = false ∧ on n F.devClkStopped = true ∧ noted s n (mkErr 0x39 0xFF r.val 0)
    let booted : Prop := rf s .devBoot F.devBootImage = 1
    (booted → idle → exec (.pllStart r) s = .next { s with clk := { s.clk with starting := start } })
    ∧ (booted → r.val ∈ s.clk.starting → ∃ n, exec (.pllLock r) s = .next n ∧ step n [running] (less s.clk.starting) s.clk.switching ∧ n.err = s.err ∧ on n running = true)
    ∧ (on s running = true → on s F.devClkPin = false → (∀ i, i < 64 → cellRetired s (64 * r.val + i) = true ∨ (cell s (64 * r.val + i)).power = .off) →
        (∀ ch ∈ chansOf (3 + r.val), rf s .dmaChctl F.dmaChctlEn ch = 0) → crossbarIdle s r.val = true →
        ∃ n, exec (.pllIdleStop r) s = .next n ∧ step n [running] s.clk.starting s.clk.switching ∧ n.err = s.err ∧ on n running = false)
    ∧ (booted → on s running = true ∨ r.val ∈ s.clk.starting →
        (on s F.devClkSparePll = false → ∃ n, exec (.pllLockLoss r) s = .next n ∧ step n [running] (less s.clk.starting) (r.val :: s.clk.switching)
            ∧ on n running = false ∧ noted s n (mkErr 0x38 0xFF r.val 0))
        ∧ (on s F.devClkSparePll = true → stopped (.pllLockLoss r)))
    ∧ (booted → r.val ∈ s.clk.switching →
        (∃ n, exec (.pllSwitchEnd r true) s = .next n ∧ step n [running, F.devClkSparePll] s.clk.starting (less s.clk.switching)
            ∧ on n running = true ∧ on n F.devClkSparePll = true ∧ n.err = s.err)
        ∧ stopped (.pllSwitchEnd r false)))
  ∧ (∀ (s : State) (a : Agent) (v : Word), takes s a → 1 ≤ (agentLevel s a).toNat → rf s .devBoot F.devBootImage = 1 →
    ∃ n, exec (.devClkPinWrite a v) s = .next n ∧ n = { s with mmio := n.mmio, clk := { s.clk with starting := n.clk.starting } } ∧ regsKept [.devClk] s n
      ∧ fieldsKept .devClk 0 [F.devClkPin] s n ∧ rf n .devClk F.devClkPin = v.toNat % 4096
      ∧ ∀ r, r < 12 → (v.getLsbD r = true → (rf s .devClk F.devClkRunning).testBit r = false → (rf s .devClk F.devClkStopped).testBit r = false → r ∉ s.clk.switching → r ∈ n.clk.starting)
          ∧ (v.getLsbD r = false → (r ∈ n.clk.starting ↔ r ∈ s.clk.starting)))

/-! ## Spares, retirement, the repair record (R15–R17, R219, R251–R253, R425) -/

/-- R15–R17, R219, R251–R253, R425, R457: a substitution of a cell whose harp has failed, or whose site has had 64 corrected errors within the hour, moves the logical cell to the spare site with its tiles and cold caches; without a spare the first fault is cleared and a second within 24 powered hours retires it; rows of block memory and HBM for which a repair is due take the lowest free spare; each is recorded and enters the repair record, which is written to the older copy. The row's layout in the record and the entry is the model's (log 6). -/
def Obligations.SparesAndRepairs : Prop :=
  (∀ (s : State) (c : Cid), c.val < 768 → cellRetired s c.val = false → s.repair.ents.length < 8184 →
    let b := c.val / 8
    let x := cell s c.val
    let sp := rf s .devBlkmap F.devBlkmapSpare b
    let moved (n : State) (site spare : Nat) : Prop :=
      siteOf n c.val = site ∧ rf n .devBlkmap F.devBlkmapSpare b = spare ∧ rf n .devBlkmap F.devBlkmapDead b = (rf s .devBlkmap F.devBlkmapDead b + 1) % 16
      ∧ (∀ d, d < 768 → d ≠ c.val → siteOf n d = siteOf s d) ∧ regsKept [.devBlkmap, .devActive] s n
      ∧ noted s n (mkErr 0x15 0x20 b (siteOf s c.val) 0 (pack [(0, siteOf s c.val), (4, site)]))
      ∧ n.repair = { s.repair with ents := s.repair.ents ++ [{ kind := 1, unit := b, site := siteOf s c.val }], dirty := true }
      ∧ (let y := cell n c.val
         y.icache = [] ∧ y.l1 = [] ∧ y.victim = [] ∧ y.opcache = [] ∧ y.capo = none ∧ y.itlb = [] ∧ y.dtlb = [] ∧ y.l2tlb = []
         ∧ y.tiles = x.tiles ∧ y.tattr = x.tattr ∧ y.tpoison = x.tpoison)
      ∧ (∀ d, d ≠ c.val → cell n d = cell s d)
    (x.harpStopped = false → cellCeDue s c.val = false → exec (.cellSubstitution c) s = .next s)
    ∧ (sp ≠ 15 → cellFaulted s c.val = true → (∀ t ∈ tidsOf c.val, (thread s t).vq = [] ∧ (thread s t).tq = [] ∧ (thread s t).late = none ∧ (thread s t).st ≠ .waiting .miss) →
      x.wb = [] → x.mshrs = [] → x.loads = [] → x.slots = [] → x.held = [] → (∀ t ∈ tidsOf c.val, pushHeld s t = false) →
      ∃ n, exec (.cellSubstitution c) s = .next n ∧ moved n sp 15 ∧ (cell n c.val).site = BitVec.ofNat 4 sp
      ∧ n = { s with threads := n.threads, cells := n.cells, mmio := n.mmio, err := n.err, repair := n.repair } ∧ ∀ t, thread n t = thread s t)
    ∧ (sp = 15 → x.harpStopped = true → faultAgain s c.val = false →
      exec (.cellFaultClear c) s = .next { setCell s c.val { x with harpStopped := false } with
        mantle := { s.mantle with cleared := tins (16 * b + siteOf s c.val) (lcount s 12) s.mantle.cleared } })
    ∧ (sp = 15 → x.harpStopped = true → faultAgain s c.val = true → (∀ p ∈ s.tasks.runs, p.2.cell ≠ c.val) → (∀ k e rest, tqueue s k = e :: rest → e.words = none) → settleWait s (tidsOf c.val) = none →
      ∃ n, exec (.cellRetirement c) s = .next n ∧ moved n 15 15
      ∧ (∀ t ∈ tidsOf c.val, (thread n t).st = .idle ∧ (thread n t).mine = 0) ∧ (∀ t, t ∉ tidsOf c.val → thread n t = thread s t)
      ∧ n = { s with threads := n.threads, cells := n.cells, mmio := n.mmio, err := n.err, repair := n.repair, pegs := { s.pegs with waves := n.pegs.waves } }))
  ∧ (∀ (s : State), s.repair.dirty = true → s.repair.ents.length ≤ 8184 → homeLive s 3 = true →
    -- the copy with the smaller SEQ, or the one that does not verify, is written (R425)
    let j : Fin 2 := match repairCopy s 0, repairCopy s 1 with
      | some a, some b => if a.seq < b.seq then 0 else 1
      | some _, none => 1
      | none, _ => 0
    let top := max ((repairCopy s 0).elim 0 (fun a => a.seq)) ((repairCopy s 1).elim 0 (fun a => a.seq))
    let new : RepairCopy := { seq := top + 1, ents := s.repair.ents }
    ∃ n, exec .repairRecordWrite s = .next n ∧ n = { s with repair := n.repair, flash := n.flash }
      ∧ n.repair = { s.repair with
          dirty := false
          copy0 := if j = 0 then some new else s.repair.copy0
          copy1 := if j = 0 then s.repair.copy1 else some new }
      ∧ (∀ k, k < (repairImage new).length → tget 0xFF n.flash (copyBase j + k) = (repairImage new).getD k 0)
      ∧ (∀ a, a < copyBase j ∨ copyBase j + 0x20000 ≤ a → tget 0xFF n.flash a = tget 0xFF s.flash a))
  ∧ (∀ (s : State) (b : Fin 96) (bank : Fin 32) (row : Nat), row < 1536 → s.repair.ents.length < 8184 →
    let used := sparesUsed s b.val bank.val
    let done := rowDone s (bmRowKey b.val bank.val) row
    (rowDue s (bmRowKey b.val bank.val) row = false → exec (.rowSpare b bank row) s = .next s)
    ∧ (rowDue s (bmRowKey b.val bank.val) row = true → used.length < 32 → ∃ n, exec (.rowSpare b bank row) s = .next n ∧ sparesUsed n b.val bank.val = used ++ [row]
      ∧ (∀ d k, bankKey d k ≠ bankKey b.val bank.val → sparesUsed n d k = sparesUsed s d k)
      ∧ rf n .devBmcfg F.devBmcfgSpareMin = min (rf s .devBmcfg F.devBmcfgSpareMin) (31 - used.length) ∧ fieldsKept .devBmcfg 0 [F.devBmcfgSpareMin] s n ∧ regsKept [.devBmcfg] s n
      ∧ noted done n (mkErr 0x22 0x21 b.val bank.val 0 (pack [(0, bank.val), (16, row)]))
      ∧ (∃ e, n.repair = { s.repair with ents := s.repair.ents ++ [e], dirty := true } ∧ e.kind = 2 ∧ e.unit = b.val)
      ∧ n = { s with bm := n.bm, mmio := n.mmio, err := n.err, repair := n.repair })
    ∧ (rowDue s (bmRowKey b.val bank.val) row = true → 32 ≤ used.length → ∃ n, exec (.rowSpare b bank row) s = .next n ∧ n = { s with err := n.err }
      ∧ noted done n (mkErr 0x22 0x21 b.val bank.val 0 (pack [(0, bank.val), (16, row), (31, 1)]))))
  ∧ (∀ (s : State) (k : Fin 12) (ch : Fin 32) (pc : Fin 2) (bank : Fin 64) (row : Nat), row < 20480 → s.repair.ents.length < 8184 →
    let ent (e : Nat) : Word := reg s .hbmRment (512 * k.val + e)
    let names (e : Nat) : Prop := rmNames (ent e) ch.val pc.val bank.val (some row) = true
    let free (e : Nat) : Prop := fget (ent e) F.hbmRmentValid = 0
    -- a spare of the bank that no entry points to and that no repair has retired
    let open' (m : Nat) : Prop := (∀ e, e < 512 → rmNames (ent e) ch.val pc.val bank.val none = true → fget (ent e) F.hbmRmentSpare ≠ m)
      ∧ m ∉ tget [] s.hbm.retired (rmBank k.val ch.val pc.val bank.val)
    let due : Prop := rowDue s (chKey k.val ch.val) (hbmRow pc.val bank.val row) = true
    let done := rowDone s (chKey k.val ch.val) (hbmRow pc.val bank.val row)
    (¬due → exec (.rowRepair k ch pc bank row) s = .next s)
    ∧ (due → ∀ e m, e < 512 → (names e ∧ (∀ d, d < e → ¬names d) ∨ (∀ d, d < 512 → ¬names d) ∧ free e ∧ ∀ d, d < e → ¬free d) →
        m < 16 → open' m → (∀ d, d < m → ¬open' d) →
      ∃ n, exec (.rowRepair k ch pc bank row) s = .next n
        ∧ (let w := reg n .hbmRment (512 * k.val + e)
           fget w F.hbmRmentValid = 1 ∧ fget w F.hbmRmentCh = ch.val ∧ fget w F.hbmRmentPc = pc.val ∧ fget w F.hbmRmentBank = bank.val
           ∧ fget w F.hbmRmentRow = row ∧ fget w F.hbmRmentSpare = m)
        ∧ (∀ d, d < 6144 → d ≠ 512 * k.val + e → reg n .hbmRment d = reg s .hbmRment d)
        ∧ tget [] n.hbm.retired (rmBank k.val ch.val pc.val bank.val) = tget [] s.hbm.retired (rmBank k.val ch.val pc.val bank.val)
            ++ (if rmNames (ent e) ch.val pc.val bank.val (some row) = true then [fget (ent e) F.hbmRmentSpare] else [])
        ∧ regsKept [.hbmRment, .hbmStkstat, .hbmChstat] s n ∧ bytesKept s n
        ∧ (∃ f, f.kind = 3 ∧ f.unit = k.val ∧ f.site = e ∧ f ∈ n.repair.ents) ∧ n.repair.dirty = true
        ∧ n = { s with hbm := n.hbm, mmio := n.mmio, err := n.err, repair := n.repair, ms := { s.ms with hbmPoison := n.ms.hbmPoison, bmPoison := n.ms.bmPoison } })
    ∧ (due → (∀ e, e < 512 → ¬names e ∧ ¬free e) ∨ (∀ m, m < 16 → ¬open' m) →
        let p := rowPage s k.val ch.val pc.val bank.val row
        (p ∈ s.hbm.offlined → exec (.rowRepair k ch pc bank row) s = .next done)
        ∧ (p ∉ s.hbm.offlined → ∃ n, exec (.rowRepair k ch pc bank row) s = .next n ∧ n = { s with hbm := { s.hbm with offlined := p :: s.hbm.offlined }, mmio := n.mmio, err := n.err }
          ∧ rf n .hbmStkstat F.hbmStkstatOfflined k.val = min 65535 (rf s .hbmStkstat F.hbmStkstatOfflined k.val + 1) ∧ regsKept [.hbmStkstat] s n
          ∧ noted done n (mkErr 0x36 7 k.val ch.val (wd p)))))

/-! ## Scrubs, lanes and outbound failures (R217, R218, R246–R250, R378, R394, R464) -/

/-- R217, R218, R246–R248, R250, R378, R394, R464: a scrub moves to its unit's next line and records what it finds there, a row's second corrected error of a pass or its first uncorrectable one calls for its repair, an uncorrectable burst or word is poisoned; a flagged lane starts a retrain, which assigns spares or fails the channel; an injected error is stored with the next write; an outbound failure gives all ones or drops the store. -/
def Obligations.ScrubsAndLanes : Prop :=
  (∀ (s : State) (k : Fin 12) (ch : Fin 32) (burst : Fin 4) (lane : Nat), s.err.latent = [] →
    let ck := chKey k.val ch.val
    let i := tget 0 s.hbm.ptr ck
    let pa := hbmAddr s.ms.gran { scrubPlace k.val ch.val i with burst := burst.val }
    let t : State := { s with hbm := { s.hbm with ptr := tset 0 s.hbm.ptr ck ((i + 1) % 20971520) } }
    let p := scrubPlace k.val ch.val i
    let row := hbmRow p.pc p.bank p.row
    let endPass (q : State) : State := if i + 1 = 20971520 then passEnded q ck else q
    exec (.hbmScrub k ch burst .clean) s = .next (endPass t)
    ∧ (∃ n, exec (.hbmScrub k ch burst (.corrected lane)) s = .next n ∧ n = { t with mmio := n.mmio, err := n.err } ∧ regsKept [.hbmChstat] s n
        ∧ (let flagged : Prop := lane % 256 ∈ tget [] s.hbm.flag ck
           noted (endPass (countLane (if flagged then t else noteRow t ck row false) ck (lane % 256))) n (mkErr 0x32 7 k.val ch.val (wd pa) (pack [(0, ch.val), (8, lane % 256)]))
           ∧ (rowDue n ck row = true ↔ rowDue s ck row = true ∨ ¬flagged ∧ row ∈ tget [] s.err.ceRows ck))
        ∧ rf n .hbmChstat F.hbmChstatCe ck = min (2 ^ 32 - 1) (rf s .hbmChstat F.hbmChstatCe ck + 1))
    ∧ (∃ n, exec (.hbmScrub k ch burst .uncorrectable) s = .next n ∧ n = { t with err := n.err, ms := { s.ms with hbmPoison := n.ms.hbmPoison } }
        ∧ bit (tget 0 n.ms.hbmPoison (pa / 128)) burst.val = true ∧ (∀ l, l ≠ pa / 128 → tget 0 n.ms.hbmPoison l = tget 0 s.ms.hbmPoison l)
        ∧ noted (endPass (noteRow t ck row true)) n (mkErr 0x34 7 k.val ch.val (wd pa)) ∧ rowDue n ck row = true))
  ∧ (∀ (s : State) (b : Fin 96) (bank : Fin 32) (w : Fin 16) (x : Nat), s.err.latent = [] →
    let key := bankKey b.val bank.val
    let i := tget 0 s.bm.ptr key
    let l := bmLine b.val bank.val i
    let t : State := { s with bm := { s.bm with ptr := tset 0 s.bm.ptr key ((i + 1) % 12544) } }
    let rows := bmRowKey b.val bank.val
    let row := (bmPlace (128 * l + 8 * w.val)).2.2
    exec (.blockMemoryScrub b bank w .clean) s = .next (if i + 1 = 12544 then passEnded t rows else t)
    ∧ (i < 12288 → exec (.blockMemoryScrub b bank w (.corrected x)) s = .next (report (noteRow t rows row false) (mkErr 0x20 0x21 b.val bank.val (wd (128 * l + 8 * w.val)))))
    ∧ (i < 12288 → (∃ d o, physAt s (128 * l + 8 * w.val) = .block d o) →
        ∃ n, exec (.blockMemoryScrub b bank w .uncorrectable) s = .next n ∧ n = { t with err := n.err, ms := { s.ms with bmPoison := n.ms.bmPoison } }
          ∧ bit (tget 0 n.ms.bmPoison l) w.val = true ∧ (∀ m, m ≠ l → tget 0 n.ms.bmPoison m = tget 0 s.ms.bmPoison m)
          ∧ noted (noteRow t rows row true) n (mkErr 0x21 0x21 b.val bank.val (wd (128 * l + 8 * w.val))) ∧ rowDue n rows row = true))
  ∧ (∀ (s : State) (addr x : Nat), addr < 0x1000000 → addr % 8 = 0 → homeLive s 3 = true →
    let good : State := { s with mantle := { s.mantle with sramBad := s.mantle.sramBad.filter (fun a => decide (a ≠ addr)) } }
    exec (.mantleSramScrub addr .clean) s = .next good
    ∧ exec (.mantleSramScrub addr (.corrected x)) s = .next (report good (mkErr 0x82 1 0 0 (wd addr)))
    ∧ ∃ n, exec (.mantleSramScrub addr .uncorrectable) s = .next n
        ∧ n = { s with err := n.err, freeCtr := n.freeCtr, mantle := { s.mantle with sram := n.mantle.sram, sramBad := n.mantle.sramBad } }
        ∧ (∀ a, a ∈ n.mantle.sramBad ↔ a = addr ∨ a ∈ s.mantle.sramBad) ∧ (∀ a, a < addr ∨ addr + 8 ≤ a → tget 0 n.mantle.sram a = tget 0 s.mantle.sram a)
        ∧ noted s n (mkErr 0x83 1 0 0 (wd addr)))
  ∧ (∀ (s : State) (k : Fin 12) (ch : Fin 32) (lane : Nat) (bad : List Nat) (cmdBad : Nat),
    let ck := chKey k.val ch.val
    let f (q : State) (g : Fld) : Nat := rf q .hbmChstat g ck
    let used := f s F.hbmChstatDqSpared
    let flags (q : State) : List Nat := tget [] q.hbm.flag ck
    (laneDue s ck lane = true → f s F.hbmChstatState = 1 → lane < 72 → lane ∉ flags s →
      exec (.laneFlagged k ch lane) s = .next (setRf { s with hbm := { s.hbm with flag := tset [] s.hbm.flag ck (lane :: flags s) } } .hbmChstat F.hbmChstatState 2 ck))
    ∧ (f s F.hbmChstatState = 2 → 2 < (distinct bad).countP (fun l => decide (l < 72)) + used ∨ 1 < cmdBad + f s F.hbmChstatCmdSpared →
      ∃ n, exec (.channelRetrain k ch bad cmdBad) s = .next n ∧ n = { s with mmio := n.mmio, err := n.err } ∧ regsKept [.hbmChstat, .hbmStkstat] s n
        ∧ f n F.hbmChstatState = 3 ∧ rf n .hbmStkstat F.hbmStkstatState k.val = 4 ∧ noted s n (mkErr 0x37 7 k.val ch.val 0 (wd ch.val)))
    ∧ (f s F.hbmChstatState = 2 → (flags s).head? = some lane → lane < 72 → f s F.hbmChstatCmdSpared ≤ 1 → used ≤ 2 →
      ∃ n, exec (.channelRetrain k ch [] 0) s = .next n ∧ n = { s with mmio := n.mmio, err := n.err, hbm := { s.hbm with flag := n.hbm.flag } } ∧ regsKept [.hbmChstat] s n
        ∧ f n F.hbmChstatState = 1 ∧ f n F.hbmChstatRetrains = min 255 (f s F.hbmChstatRetrains + 1)
        ∧ (used < 2 → f n F.hbmChstatDqSpared = used + 1 ∧ f n (if used = 0 then F.hbmChstatLane0 else F.hbmChstatLane1) = lane ∧ flags n = (flags s).filter (fun l => decide (l ≠ lane))
            ∧ noted s n (mkErr 0x33 7 k.val ch.val 0 (pack [(0, ch.val), (8, lane), (16, 1), (17, 0)])))
        ∧ (used = 2 → f n F.hbmChstatDqSpared = 2 ∧ f n F.hbmChstatFlagged = 1 ∧ flags n = flags s
            ∧ noted s n (mkErr 0x33 7 k.val ch.val 0 (pack [(0, ch.val), (8, lane), (16, 1), (17, 1)])))))
  ∧ (∀ (s : State) (data : Word), memorySafe s → s.err.armed = true →
    let pa := 8 * rf s .errInj F.errInjAddr
    isMemory s pa = true → lineDead s (pa / 128) = false →
    ∃ n, exec (.injectedErrorStore data) s = .next n ∧ n.err.armed = false ∧ tget? n.err.latent (pa / 8) = some (1 + rf s .errInj F.errInjKind) ∧ rf n .errInj F.errInjGo = 0
      ∧ (∀ a, byteAt n a = if pa ≤ a ∧ a < pa + 8 then BitVec.ofNat 8 (data.toNat / 2 ^ (8 * (a - pa))) else byteAt s a)
      ∧ n = { s with ms := n.ms, err := n.err, mmio := n.mmio })
  ∧ (∀ (s : State) (c : Cid) (k : Nat),
    let x := cell s c.val
    -- the host's windows lie first, then the root ports', whose link is named
    let lost (pa : Nat) : ErrRec := if pa < 0x80000000000 then mkErr 0x52 0xFF 0 0 (wd pa) else mkErr 0x52 11 (windowLink s pa) 0 (wd pa)
    (∀ l, x.loads[k]? = some l → physAt s l.pa = .window →
      ∃ n, exec (.outboundFailure c k false) s = .next n ∧ noted s n (lost l.pa) ∧ (cell n c.val).loads = x.loads.eraseIdx k
        ∧ (l.rd ≠ 0 → rx n (tidOf c.val l.thr.val) l.rd = if l.signed = true then sext (8 * l.bytes) (2 ^ (8 * l.bytes) - 1) else wd (2 ^ (8 * l.bytes) - 1))
        ∧ (∀ u, u ≠ tidOf c.val l.thr.val → thread n u = thread s u) ∧ n = { s with threads := n.threads, cells := n.cells, err := n.err })
    ∧ (∀ e, x.wb[k]? = some e → physAt s (128 * e.line) = .window →
      ∃ n a, exec (.outboundFailure c k true) s = .next n ∧ noted s n (lost a) ∧ 128 * e.line ≤ a ∧ a < 128 * e.line + 128
        ∧ n = { setCell s c.val { x with wb := x.wb.eraseIdx k } with err := n.err }))

/-! ## Regulators, MAINT and the traffic generators (R255–R258) -/

/-- R255–R258: a regulator takes a setting that keeps the sums, applied as R256 says, or keeps its value and sets ERR; a refill adds up to DEPTH, CEIL halved by the stack group's lever; an aged bank queue writes back its replaced lines and lets its oldest request go first; MAINT moves a ready stack that has drained; a generator starts, stops and ends, refused at full scope outside MAINT. -/
def Obligations.RegulatorsAndGenerators : Prop :=
  (∀ (s : State) (a : Agent) (p : Fin 5) (v : Word), takes s a → agentTrusted a = true →
    let k := selF s a .hbmStacksel F.hbmStackselStack
    let guar (q : Nat) : Nat := if q = p.val then bits v 9 0 else rf s .hbmPart F.hbmPartGuar (5 * k + q)
    let fits : Prop := guar 0 + guar 1 + guar 2 + guar 3 + guar 4 ≤ 512 ∧ guar 0 + guar 2 + guar 3 + guar 4 ≤ 256 ∧ bits v 25 16 ≤ 512
    (¬fits → exec (.hbmPartWrite a p v) s = .next (setRf s .hbmStkstat F.hbmStkstatErr 1 k))
    ∧ (fits → ∃ n, exec (.hbmPartWrite a p v) s = .next n ∧ n = { s with mmio := n.mmio, hbm := { s.hbm with buckets := n.hbm.buckets } } ∧ regsKept [.hbmPart] s n
        ∧ (∀ i, i < 65536 → i ≠ 5 * k + p.val → reg n .hbmPart i = reg s .hbmPart i)
        ∧ rf n .hbmPart F.hbmPartGuar (5 * k + p.val) = bits v 9 0
        ∧ rf n .hbmPart F.hbmPartCeil (5 * k + p.val) = max (max 1 (bits v 25 16)) (bits v 9 0)
        ∧ rf n .hbmPart F.hbmPartDepth (5 * k + p.val) = max 1 (bits v 39 32)
        ∧ (let b := tget (0, 0) s.hbm.buckets (5 * k + p.val)
           let d := 64 * max 1 (bits v 39 32)
           tget (0, 0) n.hbm.buckets (5 * k + p.val) = (min b.1 d, min b.2 d))))
  ∧ (∀ (s : State), ∃ n, exec .tokenRefill s = .next n ∧ n = { s with mmio := n.mmio, lining := n.lining, hbm := { s.hbm with buckets := n.hbm.buckets, used := [] } } ∧ regsKept [.hbmStkstat] s n
      ∧ (∀ i, i < 60 →
          let b := tget (0, 0) s.hbm.buckets i
          let d := 64 * rf s .hbmPart F.hbmPartDepth i
          let guar := rf s .hbmPart F.hbmPartGuar i
          let ceil := max guar (max 1 (rf s .hbmPart F.hbmPartCeil i / 2 ^ tget 0 s.power.levers 15))
          tget (0, 0) n.hbm.buckets i = (min d (b.1 + 25 * guar), min d (b.2 + 25 * ceil)))
      ∧ ∀ k, k < 12 →
          let st (q : State) : Nat := rf q .hbmStkstat F.hbmStkstatState k
          let asked : Prop := rf s .hbmStkstat F.hbmStkstatMaint k = 1 ∧ st s = 2
          (st n = st s ∨ asked ∧ st n = 3) ∧ (asked → waitingLines s = [] → st n = 3)
          -- the tasks of a stack that enters MAINT end with it (R285)
          ∧ lstack n k = (if st n = st s then lstack s k else { lstack s k with active := (lstack s k).active.map (fun q => (q.1, q.2.maint)) }))
  ∧ (∀ (s : State) (k : Fin 12) (ch : Fin 32) (pc : Fin 2) (bank : Fin 64),
    let b := ((k.val * 32 + ch.val) * 2 + pc.val) * 64 + bank.val
    let s1 := rcDrain s b
    let ws := (waitingLines s1).filter (fun q => goesToDram s1 q.line && decide (bankOf s1 q.line = b))
    ∃ n, exec (.bankQueueAging k ch pc bank) s = .next n
      ∧ (∀ l, l ∈ n.ms.rcOut ↔ l ∈ s.ms.rcOut ∧ bankOf s l ≠ b) ∧ (∀ l, l ∈ s.ms.rcOut → bankOf s l = b → tget? n.ms.rc l = none)
      ∧ (ws = [] → n = s1) ∧ (∀ q, q ∈ ws → (∀ o, o ∈ ws → q.no ≤ o.no) → n = { s1 with hbm := { s1.hbm with aged := tins b (q.no + 1) s1.hbm.aged } }))
  ∧ (∀ (s : State) (a : Agent) (on : Bool), takes s a → agentTrusted a = true →
    let k := selF s a .hbmStacksel F.hbmStackselStack
    let st := rf s .hbmStkstat F.hbmStkstatState k
    let drained : Prop := ∀ q ∈ waitingLines s, goesToDram s q.line = true → (hbmPlace s.ms.gran (lineBase q.line)).stack ≠ k
    ∃ n, exec (.maintRequest a on) s = .next n ∧ n = { s with mmio := n.mmio, lining := n.lining } ∧ regsKept [.hbmStkstat] s n ∧ rf n .hbmStkstat F.hbmStkstatMaint k = on.toNat
      ∧ rf n .hbmStkstat F.hbmStkstatState k = (if on = true ∧ st = 2 ∧ drained then 3 else if on = false ∧ st = 3 then 2 else st)
      ∧ (∀ i, i < 65536 → i ≠ k → reg n .hbmStkstat i = reg s .hbmStkstat i) ∧ (∀ j, j ≠ k → lstack n j = lstack s j)
      ∧ lstack n k = (if on = true ∧ st = 2 ∧ drained then { lstack s k with active := (lstack s k).active.map (fun q => (q.1, q.2.maint)) } else lstack s k))
  ∧ (∀ (s : State) (a : Agent) (v : Word), takes s a → agentTrusted a = true →
    let k := selF s a .hbmStacksel F.hbmStackselStack
    let ck := 32 * k + selF s a .hbmChsel F.hbmChselCh
    let go (q : State) : Nat := rf q .hbmTgctl F.hbmTgctlGo ck
    let full : Prop := v.getLsbD 1 = true
    (go s = 0 → bit v 40 = false → bits v 3 2 < 3 → bits v 6 4 < 4 →
      ∃ n, exec (.trafficGeneratorGo a v) s = .next n ∧ n = { s with mmio := n.mmio, hbm := { s.hbm with runs := n.hbm.runs } } ∧ regsKept [.hbmTgctl, .hbmTgstat] s n
        ∧ rf n .hbmTgctl F.hbmTgctlScope ck = bits v 1 1 ∧ rf n .hbmTgctl F.hbmTgctlOp ck = bits v 3 2 ∧ rf n .hbmTgctl F.hbmTgctlPattern ck = bits v 6 4 ∧ rf n .hbmTgctl F.hbmTgctlPasses ck = bits v 39 8
        ∧ (full ∧ rf s .hbmStkstat F.hbmStkstatState k ≠ 3 → go n = 0 ∧ rf n .hbmTgstat F.hbmTgstatRefused ck = 1 ∧ n.hbm.runs = s.hbm.runs)
        ∧ (¬full ∨ rf s .hbmStkstat F.hbmStkstatState k = 3 → go n = 1 ∧ n.hbm.runs = tins ck (reg n .hbmTgctl ck) s.hbm.runs ∧ ∀ i, i < 65536 → reg n .hbmTgstat i = reg s .hbmTgstat i))
    ∧ (go s = 1 → ∃ n, exec (.trafficGeneratorStop a) s = .next n ∧ n = { s with hbm := { s.hbm with stop := n.hbm.stop } } ∧ ∀ i, i ∈ n.hbm.stop ↔ i = ck ∨ i ∈ s.hbm.stop))
  ∧ (∀ (s : State) (k : Fin 12) (ch : Fin 32) (errors lane : Nat),
    let ck := chKey k.val ch.val
    -- the settings that the run started with
    let w := tget 0 s.hbm.runs ck
    rf s .hbmTgctl F.hbmTgctlGo ck = 1 → fget w F.hbmTgctlPasses ≠ 0 ∨ ck ∈ s.hbm.stop →
    let wipes : Prop := fget w F.hbmTgctlScope = 1 ∧ fget w F.hbmTgctlOp ≠ 1
    ∃ n, exec (.trafficGeneratorEnd k ch errors lane) s = .next n ∧ rf n .hbmTgctl F.hbmTgctlGo ck = 0 ∧ regsKept [.hbmTgctl, .hbmTgstat] s n
      ∧ (errors ≠ 0 → fget w F.hbmTgctlOp ≠ 2 → rf n .hbmTgstat F.hbmTgstatFail ck = 1 ∧ rf n .hbmTgstat F.hbmTgstatFirstLane ck = lane % 128
          ∧ rf n .hbmTgstat F.hbmTgstatErrors ck = min (2 ^ 32 - 1) (rf s .hbmTgstat F.hbmTgstatErrors ck + errors))
      ∧ (errors = 0 → ∀ i, i < 65536 → reg n .hbmTgstat i = reg s .hbmTgstat i)
      ∧ n.hbm.runs = tdel ck s.hbm.runs ∧ n.hbm.buckets = (if fget w F.hbmTgctlScope = 0 then tdel (5 * k.val + 4) s.hbm.buckets else s.hbm.buckets)
      ∧ (¬wipes → n = { s with mmio := n.mmio, hbm := { s.hbm with stop := n.hbm.stop, runs := n.hbm.runs, buckets := n.hbm.buckets } })
      ∧ (wipes → n.ms.mem = s.ms.mem ∧ tget? n.ms.junk ck = some (s.freeCtr + 1) ∧ (∀ i, i ≠ ck → tget? n.ms.junk i = tget? s.ms.junk i)
          ∧ n = { s with mmio := n.mmio, ms := n.ms, err := n.err, freeCtr := s.freeCtr + 1, hbm := { s.hbm with stop := n.hbm.stop, runs := n.hbm.runs, buckets := n.hbm.buckets } }))

/-! ## The block as a whole -/

/-- Log 2: a step takes the command at the front of the queue and runs it with the queue's rest; on an empty queue it is one tick, in which every local counter counts one. -/
def Obligations.StepRunsTheFrontCommand : Prop :=
  (∀ (s : State) (c : Instr) (rest : List Instr), step { s with pending := c :: rest } = exec c { s with pending := rest })
  ∧ (∀ (s : State), s.pending = [] → step s = .next { s with lc := s.lc.map (fun x => x + 1) })

/-- R61, R214, R365, R412: after reset no command waits, memory and pegs read zero, no cell thread runs, every register word holds its reset value, and the invariants of memory and registers hold. -/
def Obligations.ResetState : Prop :=
  State.reset.pending = [] ∧ memorySafe State.reset ∧ registersSafe State.reset
  ∧ (∀ a, byteAt State.reset a = 0) ∧ (∀ p, pegVal State.reset p = 0)
  ∧ (∀ (r : RegName) (i : Nat), reg State.reset r i = regReset r)
  ∧ (∀ t : Tid, t.val < 6144 → (thread State.reset t).st = .idle ∧ (thread State.reset t).level = 0 ∧ ∀ r, rx State.reset t r = 0)
  ∧ rf State.reset .hbmStkstat F.hbmStkstatState = 0 ∧ rf State.reset .devBoot F.devBootStage = 0

/-- R220 and the form of memory: from every state whose bytes stand in their one canonical form and whose region caches hold lines of HBM alone, every command that answers a next state leaves such a state. -/
def Obligations.EveryStepKeepsMemory : Prop :=
  ∀ s n : State, memorySafe s → step s = .next n → memorySafe n

/-- R36–R40, R47, R55, R108, R129, R168, R366: the instruction that words spell has that word 0 and no other, so no bit of an encoding is dropped and none is shared; the scalar and system instructions, the vector and the long forms read back from their words with every operand. -/
def Obligations.WordsAndInstructionsAgree : Prop :=
  (∀ (t : Tid) (w : BitVec 32) (w1 : Word) (i : Instr), decodeInstr t w w1 = some i → word0 i = w)
  ∧ (∀ (t : Tid) (rd a b : Reg) (i12 : BitVec 12) (i20 : BitVec 20) (h6 : BitVec 6) (h5 : BitVec 5) (d q l : Bool) (w1 : Word),
      ∀ i ∈ [Instr.add t rd a b, .sub t rd a b, .sll t rd a b, .sra t rd a b, .clz t rd a, .addi t rd a i12, .andi t rd a i12, .slli t rd a h6, .srai t rd a h6,
             .addW t rd a b, .sraiW t rd a h5, .mul t rd a b, .remu t rd a b, .lui t rd i20, .auipc t rd i20, .ldW t rd a i12, .ldD t rd a i12, .stD t b a i12,
             .amoAdd t rd a b d q l, .amoCas t rd a b d q l, .beq t a b i12, .bgeu t a b i12, .jal t rd i20, .jalr t rd a i12, .fenceI t,
             .srRw t rd a i12, .srClr t rd a i12, .gate t i12, .xret t, .xretG t, .pegRd t rd a, .pegAdd t rd a b, .pegArrive t rd a b, .pause t i12, .tend t],
        decodeInstr t (word0 i) w1 = some i)
  ∧ (∀ (t : Tid) (f : VForm) (w1 : Word), ∀ i ∈ [Instr.vAdd t f, .vSub t f, .vMulhsu t f, .vQmulRne t f, .vFma t f, .vFmax t f, .vPwhile t f, .vLd t f, .vLdSeg t f, .vStX t f, .vSel t f, .vIns t f],
        decodeInstr t (word0 i) w1 = some i)
  ∧ (∀ (t : Tid) (f : LForm), ∀ i ∈ [Instr.vCvt t f, .vMfma t f, .vStat t f, .vStatMerge t f, .updSgdm t f, .updAdamw t f, .updLion t f],
        decodeInstr t (word0 i) f.w1 = some i)
  ∧ (∀ (t : Tid) (f : TForm), ∀ i ∈ [Instr.tLd t f, .tSt t f, .tMov t f, .tClr t f, .tExt t f, .mxMma t f],
        decodeInstr t (word0 i) f.w1 = some i)

/-! ## Registers, counters and deadlines (R7–R10, R82, R468, R474–R476) -/

/-- R7–R10, R82: a plain write lays its bits over the RW fields it reaches; a read returns the readable fields and clears the RC fields it reaches; a wrong width, a misaligned offset or a writer that may not write is an access error. R474–R476: a counter's write, its overflow, the freeze. R468: a deadline's write and its firing. -/
def Obligations.RegistersAndCounters : Prop :=
  (∀ (s : State) (a : Agent) (off bytes : Nat) (v : Word),
    let bad : ErrRec := mkErr 0x01 (unitOf off) 0 0 (wd (0x20000000000 + off)) (agentCode s a)
    let lo := 8 * (off % 8)
    let wide : Prop := (bytes = 4 ∨ bytes = 8) ∧ off % bytes = 0
    (¬wide → mayAccess s a → inBar4 a off = false → isPegReg off = false → exec (.registerWrite a off bytes v) s = .next (report s bad) ∧ exec (.readClear a off bytes) s = .next (emit (report s bad) (.value a off 0)))
    ∧ (∀ r ∈ [RegName.devAstbase, .devHemupd, .devHostxlat, .pegRamp, .hbmRmsel, .collDline, .collPace, .rootCfgaddr, .errRp, .errMsix],
        takes s a → wide → off / 8 * 8 = (regPlace r).1 →
        (agentTrusted a = false → exec (.registerWrite a off bytes v) s = .next (if r = .devAstbase ∨ r = .rootCfgaddr then s else report s bad))
        ∧ (agentTrusted a = true → ∃ n, exec (.registerWrite a off bytes v) s = .next n ∧ mmioFrame [r] s n ∧ (∀ i, i < 65536 → i ≠ 0 → reg n r i = reg s r i)
            ∧ ∀ k, k < 64 → bit (reg n r) k = if lo ≤ k ∧ k < lo + 8 * bytes ∧ (∃ f ∈ regFields r, f.acc = .rw ∧ f.lo ≤ k ∧ k ≤ f.hi) then bit v (k - lo) else bit (reg s r) k))
    ∧ (∀ r ∈ [RegName.devBoot, .devAstbase, .devTlbstat, .devHostxlat, .pegSat, .hbmRmsel, .collDline, .collCtl, .seamStat, .powerShed, .errStat, .errInj, .perfCfg],
        takes s a → wide → off / 8 * 8 = (regPlace r).1 →
        ∃ n w, exec (.readClear a off bytes) s = .next n ∧ n = { s with mmio := n.mmio, out := s.out ++ [.value a off w] } ∧ regsKept [r] s n ∧ (∀ i, i < 65536 → i ≠ 0 → reg n r i = reg s r i)
          ∧ ∀ k, k < 64 →
              bit w k = (decide (k < 8 * bytes ∧ ∃ f ∈ regFields r, f.acc ≠ .wo ∧ f.lo ≤ lo + k ∧ lo + k ≤ f.hi) && bit (reg s r) (lo + k))
              ∧ bit (reg n r) k = (!decide (lo ≤ k ∧ k < lo + 8 * bytes ∧ ∃ f ∈ regFields r, f.acc = .rc ∧ f.lo ≤ k ∧ k ≤ f.hi) && bit (reg s r) k)))
  ∧ (∀ (s : State) (a : Agent) (v : Word), takes s a →
    let bad (off : Nat) : ErrRec := mkErr 0x01 15 0 0 (wd (0x20000000000 + off)) (agentCode s a)
    (agentAtLeast s a 1 = false → exec (.perfCntWrite a v) s = .next (report s (bad 0xA00018)) ∧ exec (.freeze a v) s = .next (report s (bad 0xA00020)))
    ∧ (agentAtLeast s a 1 = true →
      (cellRetired s (perfCell s a) = true → exec (.perfCntWrite a v) s = .next s)
      ∧ (cellRetired s (perfCell s a) = false → ∃ n, exec (.perfCntWrite a v) s = .next n ∧ mmioFrame [.perfCnt] s n
          ∧ rf n .perfCnt F.perfCntCount (perfSel s a) = v.toNat % 2 ^ 48 ∧ ∀ i, i < 65536 → i ≠ perfSel s a → reg n .perfCnt i = reg s .perfCnt i)
      ∧ (∃ n, exec (.freeze a v) s = .next n ∧ mmioFrame [.perfCfg] s n ∧ fieldsKept .perfCfg 0 [F.perfCfgFreeze, F.perfCfgMsixEn, F.perfCfgVec] s n ∧ ∀ f ∈ [F.perfCfgFreeze, F.perfCfgMsixEn, F.perfCfgVec], rf n .perfCfg f = fget v f))
    ∧ (∀ t : Tid, a = .thread t → t.val < 6144 → exec (.perfDeadlineWrite a v) s = .next (setThread s t { thread s t with deadline := v }))
    ∧ (agentTrusted a = true → exec (.perfDeadlineWrite a v) s = .next (report s (bad 0xA00038))))
  ∧ (∀ (s : State) (t : Tid), let th := thread s t
    let due : Prop := th.deadline ≠ 0 ∧ th.deadline ≤ lcountOf s t
    (¬due → exec (.deadlineFire t) s = .next s)
    ∧ (due → ∃ n, exec (.deadlineFire t) s = .next n ∧ n = { s with threads := n.threads, cells := n.cells, clk := { s.clk with starting := n.clk.starting } } ∧ thread n t = { th with deadline := 0, pend := th.pend ||| 0x1000 }
        ∧ (∀ u, u ≠ t → thread n u = thread s u) ∧ ∀ c, cell n c = if c = cellOf t ∧ (cell s c).power ≠ .run then { cell s c with wakeReq := true } else cell s c))
  ∧ (∀ (s : State) (c : Cid) (j : Fin 8), c.val < 768 →
    let k := perfKey s c.val j.val
    let f (q : State) (g : Fld) : Nat := rf q .perfEvt g k
    let top := 2 ^ 48 - 1
    ((cell s c.val).power ≠ .run → exec (.counterOverflow c j) s = .next s)
    ∧ ((cell s c.val).power = .run → f s F.perfEvtEn = 1 → f s F.perfEvtEvent ≠ 0 → rf s .perfCfg F.perfCfgFreeze = 0 → top - 1 ≤ rf s .perfCnt F.perfCntCount k →
    ∃ n, exec (.counterOverflow c j) s = .next n ∧ n = { s with mmio := n.mmio, out := n.out, pba := n.pba, msixDue := n.msixDue } ∧ regsKept [.perfCnt, .perfEvt] s n
      ∧ rf n .perfCnt F.perfCntCount k = top ∧ f n F.perfEvtOvf = 1
      ∧ (∀ i, i < 65536 → i ≠ k → reg n .perfCnt i = reg s .perfCnt i ∧ reg n .perfEvt i = reg s .perfEvt i)
      ∧ (f s F.perfEvtInten = 1 → rf s .perfCnt F.perfCntCount k < top → n.out = s.out ++ [.mantle "counter" (wd k)])
      ∧ (f s F.perfEvtInten = 0 ∨ rf s .perfCnt F.perfCntCount k = top → n.out = s.out ∧ n.pba = s.pba ∧ n.msixDue = s.msixDue)))

/-! ## Translations and their invalidation (R94, R98–R102) -/

/-- R98–R100: a walk fills its core's TLBs with what it finds, unless it ends in a translation fault, and raises nothing. R101, R102: DEV_TLBINV takes a request, which empties the engines' TLBs of its scope, or sets LOST; it is done once no core keeps an entry of the scope. R94: a cell applies the oldest update of the hem. -/
def Obligations.TranslationsAndInvalidation : Prop :=
  (∀ (s : State) (t : Tid) (va : Word) (k : Access),
    let c := cellOf t
    let skips : Prop := (thread s t).level = 2 ∨ bits va 63 48 ≠ 0
    (skips → exec (.pageWalk t va k) s = .next s)
    ∧ (¬skips → xlatHeld s c (ctxOf s t) va k = false → ∃ n, exec (.pageWalk t va k) s = .next n ∧ walkFrame c s n
        ∧ (∀ e s1, walk s c (thread s t).asid va.toNat = (.ok e, s1) → (match useEnt s1 (ctxOf s1 t) va k e with | .ok _ => True | .error f => f.code = 6) →
            e ∈ (if k = .fetch then (cell n c).itlb else (cell n c).dtlb) ∧ e.asid = (thread s t).asid ∧ va.toNat / 2 ^ e.size = e.vpn / 2 ^ (e.size - 12)
            ∧ ((tget {} (cell s c).l2tlb (e.vpn % 256)).ways.length = 8 → some e ∈ (tget {} (cell n c).l2tlb (e.vpn % 256)).ways))
        ∧ (∀ r s1, walk s c (thread s t).asid va.toNat = (r, s1) → (∀ e, r = .ok e → ∃ f, useEnt s1 (ctxOf s1 t) va k e = .error f ∧ f.code ≠ 6) →
            (cell n c).itlb = (cell s c).itlb ∧ (cell n c).dtlb = (cell s c).dtlb ∧ (cell n c).l2tlb = (cell s c).l2tlb)))
  ∧ (∀ (s : State) (a : Agent) (v : Word), takes s a →
    let g (q : State) (f : Fld) : Nat := rf q .devTlbinv f
    let scope (e : TlbEnt) : Bool := inScope (fget v F.devTlbinvAsid) (fget v F.devTlbinvScope) (fget v F.devTlbinvVpn) e
    (agentAtLeast s a 1 = false → exec (.tlbInvalidate a v) s = .next s)
    ∧ (agentAtLeast s a 1 = true → g s F.devTlbinvGo = 1 → exec (.tlbInvalidate a v) s = .next (setRf s .devTlbstat F.devTlbstatLost 1))
    ∧ (agentAtLeast s a 1 = true → g s F.devTlbinvGo = 0 → fget v F.devTlbinvGo = 1 → fget v F.devTlbinvScope ≠ 3 →
        ∃ n, exec (.tlbInvalidate a v) s = .next n ∧ n = { s with mmio := n.mmio, cells := n.cells, lining := n.lining } ∧ regsKept [.devTlbinv] s n
          ∧ g n F.devTlbinvGo = 1 ∧ (∀ f ∈ [F.devTlbinvAsid, F.devTlbinvVpn, F.devTlbinvScope], g n f = fget v f)
          ∧ (∀ c, c ∉ engineCores → cell n c = cell s c)
          ∧ (∀ c ∈ engineCores, let x := cell n c
              x = { cell s c with itlb := x.itlb, dtlb := x.dtlb, l2tlb := x.l2tlb, walker := [] }
              ∧ ∀ e, (e ∈ x.itlb ↔ e ∈ (cell s c).itlb ∧ scope e = false) ∧ (e ∈ x.dtlb ↔ e ∈ (cell s c).dtlb ∧ scope e = false))
          ∧ n.lining = s.lining.map (fun p => (p.1, { p.2 with runs := p.2.runs.map (fun q => (q.1, { q.2 with inv := q.2.inv || q.2.ents.any scope })) }))))
  ∧ (∀ (s : State), rf s .devTlbinv F.devTlbinvGo = 1 → (∀ p ∈ s.lining, ∀ q ∈ p.2.runs, q.2.inv = false) →
    (∀ c, c < 772 → (cell s c).wb = [] ∧ (cell s c).mshrs = [] ∧ (cell s c).loads = [] ∧ (cell s c).slots = [] ∧ (cell s c).held = [] ∧ (cell s c).atomics = []) →
    (∀ t, (thread s t).hold = [] ∧ pushHeld s t = false ∧ ∀ e ∈ (thread s t).vq ++ (thread s t).tq, e.runs = false) →
    let scope (e : TlbEnt) : Bool := inScope (rf s .devTlbinv F.devTlbinvAsid) (rf s .devTlbinv F.devTlbinvScope) (rf s .devTlbinv F.devTlbinvVpn) e
    ∃ n, exec .tlbInvalidateDone s = .next n ∧ n = { s with mmio := n.mmio, cells := n.cells } ∧ regsKept [.devTlbinv] s n ∧ fieldsKept .devTlbinv 0 [F.devTlbinvGo] s n
      ∧ rf n .devTlbinv F.devTlbinvGo = 0
      ∧ ∀ c, c < 772 → let x := cell n c
          x = { cell s c with itlb := x.itlb, dtlb := x.dtlb, l2tlb := x.l2tlb, walker := x.walker }
          ∧ ((cell s c).power = .run → ∀ e, (e ∈ x.itlb ↔ e ∈ (cell s c).itlb ∧ scope e = false) ∧ (e ∈ x.dtlb ↔ e ∈ (cell s c).dtlb ∧ scope e = false))
          ∧ ((cell s c).power ≠ .run → x.itlb = [] ∧ x.dtlb = [] ∧ x.l2tlb = [])
          ∧ ∀ p ∈ x.l2tlb, ∀ e, some e ∈ p.2.ways → scope e = false)
  ∧ (∀ (s : State) (c : Cid),
    ((cell s c.val).updates = [] → exec (.epochUpdateApply c) s = .next s)
    ∧ (∀ u rest, (cell s c.val).updates = u :: rest → (∀ t ∈ tidsOf c.val, ∀ e ∈ (thread s t).vq ++ (thread s t).tq, e.runs = false) →
      ∃ n, exec (.epochUpdateApply c) s = .next n ∧ (cell n c.val).epoch = u.epoch ∧ (cell n c.val).updates = rest ∧ (cell n c.val).streams = [] ∧ flushed n c.val
        ∧ n = { s with threads := n.threads, cells := n.cells, mmio := n.mmio, out := n.out, pba := n.pba, msixDue := n.msixDue, pegs := { s.pegs with waves := n.pegs.waves } }
        ∧ (∀ d, d ≠ c.val → cell n d = cell s d) ∧ regsKept [.perfCnt, .perfEvt] s n ∧ bytesKept s n
        -- a discard stops the threads whose tasks it aborted; a commit makes those of its step ordinary
        ∧ ∀ t, thread n t =
            if t ∈ tidsOf c.val ∧ (thread s t).spec.isSome = true then
              (if u.discard = true then
                 (if isAborted s t = true then { thread s t with st := .idle, mine := 0, spec := none, task := none, hold := [], younger := 0, busy := 0, vq := [], tq := [], late := none }
                  else thread s t)
               else if (thread s t).spec = some u.step then { thread s t with spec := none, st := if (thread s t).st = .waiting .held then .ready else (thread s t).st }
               else thread s t)
            else thread s t))

/-! ## The lining engines (R221, R264–R275, R281, R284–R286, R300) -/

/-- R264, R265, R269–R272, R274, R275, R281, R285, R286, R300: a push enters the stack's queue; dispatch writes the stack's region cache back and makes the oldest active, or ends it with status 3; a free thread starts the lowest chunk of the oldest task, unless a channel it touches retrains or has failed; a chunk ends with its task's count and result, a program's only at `tend`, nothing of it written before; a finished task leaves its record; an engine's error runs the chunk again once, a faulty engine moves to the spare site. -/
def Obligations.LiningQueuesAndEngines : Prop :=
  -- a SPEC thread may push (R300)
  (∀ (s : State) (a : Agent) (v : Word), serving s → accessWaits s a 0x300008 true = false →
    let desc := 64 * bits v 51 6
    let k := selF s a .liningStacksel F.liningStackselStack
    let e : LEnt := { desc := desc, spec := agentSpec s a, agent := some a }
    let x := lstack s k
    (agentAtLeast s a 1 = false ∨ 0xF000000000 ≤ desc → exec (.liningQpush a v) s = .next (report s (mkErr 0x01 8 0 0 0x20000300008 (agentCode s a))))
    ∧ (agentAtLeast s a 1 = true → desc < 0xF000000000 → ∃ n, exec (.liningQpush a v) s = .next n ∧ n = { s with lining := n.lining } ∧ (∀ j, j ≠ k → lstack n j = lstack s j)
        ∧ lstack n k = if x.queue.length < 256 then { x with queue := x.queue ++ [e] } else { x with held := x.held ++ [e] }))
  ∧ (∀ (s : State) (k : Fin 12),
    let x := lstack s k.val
    (x.queue = [] → exec (.liningTaskDispatch k) s = .next s)
    ∧ (∀ e rest, x.queue = e :: rest → e.own = none →
      let w := readWords8 s Activity.lining.part e.desc
      let ws := w.1.1
      -- the address space's entry, then the parameter block; a poisoned entry is a fault of the first translation (R87, R269)
      let space := spaceBad w.2 k.val (ldAsid ws)
      let blk := if ldKind ws = 7 then (([], none), space.2) else homeRead (accessDraws space.2 Activity.lining.part (ldParam ws) 64) (ldParam ws) 64
      let p := blk.1.1
      let bad : Prop := w.1.2 = true ∨ ldHeadBad ws false = true ∨ space.1 = true ∨ blk.1.2 ≠ none
        ∨ ldParamBad blk.2 ws p (e.spec || ldSpec ws) = true ∨ ∃ i ∈ ldUnused ws p, ldA ws i ≠ 0 ∧ ldKind ws ≠ 1
      let next (y : LStack) : Prop := y = { x with queue := rest ++ x.held.take (256 - rest.length), held := x.held.drop (256 - rest.length), active := y.active, next := y.next }
      (8 ≤ x.active.length ∨ (ldOrder ws = true ∧ x.active ≠ []) → exec (.liningTaskDispatch k) s = .next s)
      ∧ (x.active.length < 8 → ¬(ldOrder ws = true ∧ x.active ≠ []) →
        (¬bad → ∃ n tk, exec (.liningTaskDispatch k) s = .next n ∧ next (lstack n k.val) ∧ (lstack n k.val).active = tins x.next tk x.active ∧ (lstack n k.val).next = x.next + 1
            ∧ (∀ j, j ≠ k.val → lstack n j = lstack s j) ∧ engineFrame (stackCore k.val) s n ∧ regsKept [.hbmChstat] s n
            ∧ (memorySafe s → (∀ l, (tget? s.ms.rc l).isSome = true → lineDead s l = false) → bytesKept s n)
            ∧ (∀ l, (hbmPlace s.ms.gran (128 * l)).stack = k.val → (tget? n.ms.rc l) = none)
            ∧ tk = { desc := e.desc, words := ws, param := p, spec := e.spec || ldSpec ws, epoch := hemEpoch s (ldAsid ws), total := chunkTotal ws p
                     prog := tk.prog, met := tk.met, code := tk.code, failAt := tk.failAt, addr := tk.addr }
            ∧ (ldKind ws ≠ 2 → tk.code = 0 ∧ tk.failAt = none ∧ tk.met = false) ∧ (tk.code = 0 → tk.failAt = none) ∧ (tk.code ≠ 0 → (tk.code = 1 ∨ tk.code = 2) ∧ tk.failAt = some 0)
            ∧ (ldKind ws = 2 → tk.code = 0 → tk.prog.length = pgLen p))
        ∧ (bad → ∃ n, exec (.liningTaskDispatch k) s = .next n ∧ next (lstack n k.val) ∧ (lstack n k.val).active = x.active
            ∧ rf n .liningQstat F.liningQstatDone k.val = min (2 ^ 32 - 1) (rf s .liningQstat F.liningQstatDone k.val + 1)
            ∧ mkErr 0x41 8 k.val 0 (wd e.desc) 3 0 ∈ n.err.detected)))
    ∧ ∀ (e : Fin 16) (th : Fin 4),
      let ek := 16 * k.val + e.val
      let key := 4 * e.val + th.val
      let est (q : State) (f : Fld) : Nat := rf q .liningEngstat f ek
      let others (n : State) : Prop := (∀ j, j ≠ k.val → lstack n j = lstack s j) ∧ instKept .liningEngstat ek s n
      -- a chunk starts
      (∀ j tk c, x.active.find? (fun p => mayStart s e.val p.2) = some (j, tk) → nextChunk tk e.val = some c → tget? x.runs key = none
        → est s F.liningEngstatSite ≠ 31 → est s F.liningEngstatState ≠ 2 →
        let m := mapChunk s k.val tk c
        let stops (n : State) (y : LTask) : Prop := (∀ i, i ≠ k.val → lstack n i = lstack s i) ∧ lstack n k.val = { x with active := (lstack n k.val).active }
          ∧ (tget? x.active j = some tk → tget? (lstack n k.val).active j = some y) ∧ ∀ i, i ≠ j → tget? (lstack n k.val).active i = tget? x.active i
        (stackState s k.val = 3 → c ∉ tk.again → ∃ n, exec (.chunkStart k e th) s = .next n ∧ stops n (lnStop tk 7 c 0) ∧ n = { s with lining := n.lining })
        ∧ (stackState s k.val ≠ 2 → stackState s k.val ≠ 3 → stackState s k.val ≠ 4 → exec (.chunkStart k e th) s = .next s)
        ∧ (stackState s k.val = 2 ∨ stackState s k.val = 4 ∨ stackState s k.val = 3 ∧ c ∈ tk.again →
          (∀ code addr, m.err = some (code, addr) → ∃ n, exec (.chunkStart k e th) s = .next n ∧ stops n (lnStop (takeChunk tk c) code c addr)
              ∧ engineFrame (stackCore k.val) s n ∧ regsKept [.hbmChstat] s n ∧ bytesKept s n)
          ∧ (m.err = none → chunkTouches m.s m.maps tk c 3 = true → ∃ n, exec (.chunkStart k e th) s = .next n ∧ stops n (lnStop (takeChunk tk c) 6 c 0)
              ∧ engineFrame (stackCore k.val) s n ∧ regsKept [.hbmChstat] s n ∧ bytesKept s n)
          ∧ (m.err = none → chunkTouches m.s m.maps tk c 3 = false → chunkTouches m.s m.maps tk c 2 = true → exec (.chunkStart k e th) s = .next m.s)
          ∧ (m.err = none → chunkTouches m.s m.maps tk c 3 = false → chunkTouches m.s m.maps tk c 2 = false →
            ∃ n r, exec (.chunkStart k e th) s = .next n ∧ tget? (lstack n k.val).runs key = some r
              ∧ r = { task := j, chunk := c, maps := m.maps, ents := m.ents, thread := if ldKind tk.words = 2 then some (progThread tk c) else none, bad := tk.met }
              ∧ (∀ i, i ≠ key → tget? (lstack n k.val).runs i = tget? x.runs i) ∧ (tget? x.active j = some tk → tget? (lstack n k.val).active j = some (takeChunk tk c))
              ∧ (lstack n k.val).queue = x.queue ∧ est n F.liningEngstatState = 1 ∧ others n ∧ engineFrame (stackCore k.val) s n ∧ bytesKept s n ∧ regsKept [.liningEngstat, .hbmChstat] s n)))
      -- a chunk that touches a channel of its own waits or ends with it
      ∧ (∀ run tk cycles, tget? x.runs key = some run → tget? x.active run.task = some tk →
          (stackState s k.val = 5 ∨ chunkTouches s run.maps tk run.chunk 2 = true → exec (.chunkComplete k e th cycles) s = .next s)
          ∧ (stackState s k.val ≠ 5 → chunkTouches s run.maps tk run.chunk 2 = false → chunkTouches s run.maps tk run.chunk 3 = true →
              ∃ n, exec (.chunkComplete k e th cycles) s = .next n ∧ n = { s with lining := n.lining, mmio := n.mmio } ∧ others n ∧ regsKept [.liningEngstat] s n
                ∧ lstack n k.val = { x with runs := tdel key x.runs, active := tins run.task (lnStop tk 6 run.chunk 0) x.active }))
      -- a chunk of any kind but PROGRAM ends
      ∧ (∀ run tk, tget? x.runs key = some run → tget? x.active run.task = some tk → run.thread = none → stackState s k.val ≠ 5
          → chunkTouches s run.maps tk run.chunk 2 = false → chunkTouches s run.maps tk run.chunk 3 = false → ∀ cycles,
          let el : List (Nat × Bool) := elemsOf (fmtBits (lnFmt tk.param) / 8) (engRead s (piecesOf run.maps 0 (ldA tk.words 0 + chunkFirst tk.words tk.param run.chunk * (fmtBits (lnFmt tk.param) / 8))
            (chunkCount tk.words tk.param run.chunk * (fmtBits (lnFmt tk.param) / 8)))).1
          ∃ n y, exec (.chunkComplete k e th cycles) s = .next n ∧ engineFrame (stackCore k.val) s n ∧ others n ∧ regsKept [.liningEngstat, .hbmChstat, .errInj] s n
            ∧ lstack n k.val = { x with runs := tdel key x.runs, active := tins run.task y x.active }
            ∧ y = { tk with done := tk.done + 1, flags := y.flags, nonfin := y.nonfin, met := y.met, poisoned := y.poisoned, wclip := y.wclip, res := y.res, wrote := y.wrote, digest := y.digest, dvalid := y.dvalid }
            ∧ (ldKind tk.words = 4 → y.res = tins run.chunk { a := c64 (sumSqChunk (redVals (lnFmt tk.param) el)).1 } tk.res)
            ∧ (ldKind tk.words = 5 → let t := statChunk (redVals (lnFmt tk.param) el)
                y.res = tins run.chunk { a := c64 t.n, b := c64 t.m, c := c64 t.q } tk.res)
            ∧ est n F.liningEngstatChunks = min (2 ^ 32 - 1) (est s F.liningEngstatChunks + 1)
            ∧ (let last : Prop := est s F.liningEngstatState = 1 ∧ ∀ i, i < 4 → i ≠ th.val → tget? x.runs (4 * e.val + i) = none
               (last → est n F.liningEngstatState = 0) ∧ (¬last → est n F.liningEngstatState = est s F.liningEngstatState))
            ∧ (memorySafe s → s.err.armed = false → ∀ a, (∀ r ∈ chunkRanges tk run.chunk, r.wr = true → ∀ p ∈ piecesOf run.maps (2 * r.key + 1) r.va r.n, a < p.1 ∨ p.1 + p.2 ≤ a) → byteAt n a = byteAt s a))
      -- a program's chunk runs on, or ends: one cycle of its engine, of which it has the one running thread
      ∧ (∀ run tk t, tget? x.runs key = some run → tget? x.active run.task = some tk → run.thread = some t → stackState s k.val ≠ 5
          → chunkTouches s run.maps tk run.chunk 2 = false → chunkTouches s run.maps tk run.chunk 3 = false → (∀ i, i < 4 → i ≠ th.val → tget? x.runs (4 * e.val + i) = none) →
          let r := progStep k.val key tk { s := s, th := t, bad := run.bad }
          let nf := run.nonfin || r.nonfin
          (r.wait = true → exec (.chunkComplete k e th 1) s = .next s)
          ∧ (r.wait = false → ∃ n, exec (.chunkComplete k e th 1) s = .next n ∧ tget 3 (lstack n k.val).last e.val = th.val
            ∧ (r.fin = none → tget? (lstack n k.val).runs key = some { run with stores := staged r.s k.val key, thread := some r.th, bad := r.bad, nonfin := nf } ∧ bytesKept s n)
            ∧ (∀ code addr, r.fin = some (some (code, addr)) → tget? (lstack n k.val).runs key = none ∧ tget? (lstack n k.val).threads key = some r.th
                ∧ tget? (lstack n k.val).active run.task = some (lnStop (progNote r.th r.bad nf tk) code run.chunk addr) ∧ bytesKept s n)
            ∧ (r.fin = some none → tget? (lstack n k.val).runs key = none ∧ tget? (lstack n k.val).threads key = some r.th
                ∧ (tget? (lstack n k.val).active run.task).map (fun y => y.done) = some (tk.done + 1))))
      -- an engine's errors
      ∧ (∀ run tk, tget? x.runs key = some run → tget? x.active run.task = some tk →
          let erred := tk.erred.any (fun p => decide (p.1 = run.chunk))
          let base : LStack := { x with runs := tdel key x.runs, errAt := tins e.val (lcount s 12) x.errAt }
          let site := est s F.liningEngstatSite
          ∃ n, exec (.engineParityError k e th) s = .next n ∧ engineFrame (stackCore k.val) { s with freeCtr := n.freeCtr } n ∧ others n ∧ regsKept [.liningEngstat, .hbmChstat, .errInj] s n
            ∧ est n F.liningEngstatFaults = min 255 (est s F.liningEngstatFaults + 1)
            ∧ ((∃ w, tget? x.errAt e.val = some w ∧ (lcount s 12 - w).toNat ≤ hourTicks) → est n F.liningEngstatState = 2)
            ∧ (let stops : Prop := lstack n k.val = { base with active := tins run.task (lnStop tk 9 run.chunk 0) x.active }
               let again : Prop := mkErr 0x40 0x24 k.val site 0 (wd site) ∈ n.err.detected
                  ∧ ∃ y, lstack n k.val = { base with active := y } ∧ tget? y run.task = some { tk with erred := (run.chunk, e.val) :: tk.erred, again := tk.again ++ [run.chunk] }
                    ∧ ∀ i, i ≠ run.task → tget? y i = tget? x.active i
               (erred = true → stops) ∧ (erred = false → stops ∨ again) ∧ (erred = false → onceOnly s tk = false ∨ run.thread ≠ none → again)))
      ∧ (est s F.liningEngstatSite ≠ 31 → est s F.liningEngstatState = 2 → (∀ i, i < 4 → tget? x.runs (4 * e.val + i) = none) → s.repair.ents.length < 8184 →
          ∃ n, exec (.engineSubstitution k e) s = .next n ∧ n = { s with lining := n.lining, mmio := n.mmio, err := n.err, repair := n.repair } ∧ others n ∧ regsKept [.liningEngstat, .devActive] s n
            ∧ noted s n (mkErr 0x42 0x24 k.val (est s F.liningEngstatSite) 0 (wd (est s F.liningEngstatSite)))
            ∧ n.repair = { s.repair with ents := s.repair.ents ++ [{ kind := 4, unit := k.val, site := est s F.liningEngstatSite }], dirty := true } ∧ lstack n k.val = { x with spare := none, errAt := tdel e.val x.errAt }
            ∧ (∀ sp, x.spare = some sp → sp < 32 → est n F.liningEngstatSite = sp ∧ est n F.liningEngstatState = 0 ∧ (rf n .devActive F.devActiveEngineSpared).testBit k.val = true)
            ∧ (x.spare = none → est n F.liningEngstatSite = 31 ∧ est n F.liningEngstatState = 3 ∧ reg n .devActive = reg s .devActive)))
  ∧ (∀ (s : State) (k : Fin 12) (j : Nat) (tk : LTask),
    let x := lstack s k.val
    let code := if tk.code ≠ 0 then tk.code else if tk.met then 5 else 0
    let elem := if code = 0 ∨ code = 5 then 0 else chunkFirst tk.words tk.param (tk.failAt.getD tk.next)
    let valid := tk.dvalid && taskDigests tk && decide (tk.done = tk.total)
    let digests : Prop := code = 0 ∧ (ldKind tk.words = 1 ∨ ldDig tk.words = true)
    tget? x.active j = some tk → (∀ r ∈ x.runs, r.2.task ≠ j) → tk.code ≠ 0 ∨ tk.total ≤ tk.done → tk.code = 8 ∨ tk.again = [] → tk.bucket = none →
    ∃ n, exec (.liningTaskComplete k j) s = .next n ∧ lstack n k.val = { x with active := tdel j x.active }
      ∧ rf n .liningQstat F.liningQstatDone k.val = min (2 ^ 32 - 1) (rf s .liningQstat F.liningQstatDone k.val + 1)
      ∧ reg n .liningSdig k.val = (if digests then reg s .liningSdig k.val ^^^ tk.digest else reg s .liningSdig k.val)
      ∧ (code ≠ 0 ∨ resultOk tk.words = false → mkErr 0x41 8 k.val 0 (wd tk.desc) (wd code) (wd elem) ∈ n.err.detected)
      ∧ (ldPegen tk.words = true → pegVal s (ldPeg tk.words) < 2 ^ 63 - 1 → pegVal n (ldPeg tk.words) = pegVal s (ldPeg tk.words) + 1)
      ∧ (ldPegen tk.words = false → n = { s with lining := n.lining, cells := n.cells, ms := n.ms, mmio := n.mmio, err := n.err, hbm := queued s n, hem := { s.hem with updNonfin := n.hem.updNonfin } }
          ∧ (∀ d, d ≠ stackCore k.val → cell n d = cell s d) ∧ regsKept [.liningQstat, .liningSdig, .hbmChstat, .errInj] s n
          -- of its write ranges no line stays in the region cache (R221); without any, every byte but the record's stays
          ∧ (memorySafe s → tk.wrote = [] → writePages tk = [] → resultOk tk.words = true → lineDead s (ldResult tk.words / 128) = false → bytesAt s n (ldResult tk.words) (taskRecord { tk with dvalid := valid } code elem))
          ∧ (memorySafe s → tk.wrote = [] → writePages tk = [] → resultOk tk.words = false → bytesKept s n)))

/-! ## The hem (R290–R296, R298, R311, R312, R314) -/

/-- R290–R292, R294–R296, R311, R314, R455: ARM starts a job or sets ERR; DISARM, ABORT and HALTREQ discard; RESUME leaves HALT unless FATAL is set; NONFIN is posted; DEV_HEMXDIG gathers; who may not write them makes an access error. -/
def Obligations.HemControl : Prop :=
  ∀ (s : State) (a : Agent), takes s a →
    let st := hemState s
    let h (q : State) (f : Fld) : Nat := rf q .devHemctl f
    let bad (i : Instr) : Prop := exec i s = .next (report s (mkErr 0x01 0 0 0 0x20000000400 (agentCode s a)))
    let lo := (BitVec.ofNat 8 (rf s .devHemcfg F.devHemcfgLsmin)).toInt
    let hi := (BitVec.ofNat 8 (rf s .devHemcfg F.devHemcfgLsmax)).toInt
    let e : BitVec 8 := BitVec.ofNat 8 (rf s .devHeminit F.devHeminitLsexp0)
    let mode (k : Nat) : Option Bool := if bit (reg s .devHemasid) k = true then spaceMode s k else none
    let refused : Prop := hi < lo ∨ e.toInt < lo ∨ hi < e.toInt ∨ (∀ k, k < 64 → bit (reg s .devHemasid) k = false)
      ∨ (∃ j k, j < 64 ∧ k < 64 ∧ mode j = some true ∧ mode k = some false)
    let stops (i : Instr) (kind : Nat) : Prop :=
      (st = 0 ∨ st = 4 → exec i s = .next s)
      ∧ (st ≠ 0 → st ≠ 4 → ∃ n, exec i s = .next n ∧ discarded s n kind [18] ∧ h n F.devHemctlState = 4 ∧ h n F.devHemctlHaltr = kind)
    (agentTrusted a = false → bad (.arm a) ∧ bad (.disarm a) ∧ bad (.resume a) ∧ bad (.abort a) ∧ bad (.haltreq a))
    ∧ (agentTrusted a = true →
      (st ≠ 0 → exec (.arm a) s = .next s)
      ∧ (st = 0 → refused → exec (.arm a) s = .next (setRf s .devHemctl F.devHemctlErr 1))
      ∧ (st = 0 → ¬refused → ∃ n, exec (.arm a) s = .next n ∧ h n F.devHemctlState = 1 ∧ n.hem.step.toNat = rf s .devHeminit F.devHeminitStep0 ∧ n.hem.lsexp = e ∧ n.hem.clean = 0
          ∧ (n.hem.paired = false ↔ ∃ k, k < 64 ∧ mode k = some true) ∧ reg n .devHemdig = 0 ∧ reg n .devHemtgt = wd (pegVal s (rf s .devHemcfg F.devHemcfgUpdpeg))
          ∧ rf n .collGen F.collGenGen = 0 ∧ n.coll.committed = false ∧ n.hem.notes = s.hem.notes ++ [16] ∧ reg n .devEpoch = reg s .devEpoch
          ∧ ∀ r ∈ [RegName.devHemcfg, .devHemasid, .devHeminit, .devHemupd, .devHemnotify, .devAstbase], reg n r = reg s r)
      ∧ (st = 0 → exec (.disarm a) s = .next s)
      ∧ (st ≠ 0 → ∃ n, exec (.disarm a) s = .next n ∧ discarded s n 7 [] ∧ h n F.devHemctlState = 0)
      ∧ (st ≠ 4 ∨ rf s .errStat F.errStatFatal = 1 → exec (.resume a) s = .next s)
      ∧ (st = 4 → rf s .errStat F.errStatFatal = 0 → ∃ n, exec (.resume a) s = .next n ∧ h n F.devHemctlState = 1 ∧ n.hem = { s.hem with notes := s.hem.notes ++ [16] } ∧ reg n .devEpoch = reg s .devEpoch)
      ∧ stops (.abort a) 5 ∧ stops (.haltreq a) 7)
    ∧ (agentAtLeast s a 1 = false → bad (.nonfinPost a) ∧ ∀ v, exec (.hemxdigWrite a v) s = .next (report s (mkErr 0x01 0 0 0 0x20000000450 (agentCode s a))))
    ∧ (agentAtLeast s a 1 = true →
      exec (.nonfinPost a) s = .next (let t := setRf s .devHemctl F.devHemctlNonfin 1
        { t with hem := { s.hem with latePost := s.hem.latePost || decide (h s F.devHemctlNonfin = 0 ∧ st = 1 ∧ collState s = 5 ∧ sentAll s = true), updNonfin := s.hem.updNonfin || decide (st = 2 ∨ st = 3) } })
      ∧ ∀ v, exec (.hemxdigWrite a v) s = .next { s with hem := { s.hem with xdig := s.hem.xdig ^^^ v } })

/-- R290–R294, R298, R311, R312: where COLLECT and UPDATE end: a drift or a failed comparison halts, a void, a non-finite value or a post discards, else the draft is written and, once the update peg reaches its target, committed, by the twin's digest where TWIN is set. -/
def Obligations.HemCheckPoints : Prop :=
  ∀ (s : State),
    let st := hemState s
    let h (q : State) (f : Fld) : Nat := rf q .devHemctl f
    let halts (i : Instr) (kind : Nat) : Prop := ∃ n, exec i s = .next n ∧ discarded s n kind [18] ∧ h n F.devHemctlState = 4 ∧ h n F.devHemctlHaltr = kind
    let again (i : Instr) (kind : Nat) : Prop := ∃ n, exec i s = .next n ∧ discarded s n kind [16] ∧ h n F.devHemctlState = 1
    let commits (i : Instr) (d : Word) : Prop := ∃ n, exec i s = .next n ∧ committed s n d [16] ∧ h n F.devHemctlState = 1 ∧ reg n .devHemcfg = reg s .devHemcfg ∧ reg n .devHemtgt = reg s .devHemtgt
    let isVoid (r : ShardRes) : Prop := ∃ a b c, r = .void a b c
    let posted : Prop := h s F.devHemctlNonfin = 1 ∧ s.hem.latePost = false
    let gf := (fenc f32 rne false (gradFactor (fdec f32 (rf s .devHemclip F.devHemclipMaxnorm)) s.hem.lsexp.toInt (sumS s))).1
    let d := (List.range 12).foldl (fun x k => x ^^^ reg s .liningSdig k) s.hem.xdig
    (st ≠ 1 ∨ collState s ≠ 5 ∨ allResolved s = false → exec .collectEnd s = .next s)
    ∧ (st = 1 → collState s = 5 → allResolved s = true →
      let void : Prop := ∃ p ∈ allRes s, isVoid p.2
      let bad : Prop := (∃ p ∈ allRes s, p.2 = .nonfinite) ∨ (sumS s).isFin = false ∨ posted
      (s.hem.drift ≠ none → halts .collectEnd 6)
      ∧ (s.hem.drift = none → void → again .collectEnd 2)
      ∧ (s.hem.drift = none → ¬void → bad → again .collectEnd 3)
      ∧ (s.hem.drift = none → ¬void → ¬bad →
          ∃ n, exec .collectEnd s = .next n ∧ rf n .devHemclip F.devHemclipGf = gf % 2 ^ 32 ∧ reg n .devHemnorm = wd (fenc f64 rne false (sumS s)).1
            ∧ reg n .devHemtgt = reg s .devHemtgt + wd (rf s .devHemupd F.devHemupdUpdinc) ∧ h n F.devHemctlState = (if s.hem.paired = true then 2 else 3)
            ∧ (s.hem.paired = true → n.hem = { s.hem with notes := s.hem.notes ++ [17] } ∧ reg n .devEpoch = reg s .devEpoch ∧ reg n .devHemdig = reg s .devHemdig)
            ∧ (s.hem.paired = false → committed s n 0 [17] ∧ n.coll.committed = true)))
    -- the update peg has reached the target at some operation on it since UPDATE was entered (R489)
    ∧ (let met : Prop := watchMet s updKey = true ∨ (reg s .devHemtgt).toNat ≤ pegVal s (rf s .devHemcfg F.devHemcfgUpdpeg)
      ((st ≠ 2 ∧ st ≠ 3) ∨ s.hem.twinWait = true ∨ ¬met → exec .updateComplete s = .next s)
      ∧ (st = 2 ∨ st = 3 → s.hem.twinWait = false → met →
      let twin : Prop := rf s .devHemcfg F.devHemcfgTwin = 1
      let sent := seamSend s "twin digest" (s.hem.step.setWidth 64) (leBytes d.toNat 8)
      (s.hem.updNonfin = true → st = 2 → halts .updateComplete 4)
      ∧ (s.hem.updNonfin = true → st = 3 → ∃ n, exec .updateComplete s = .next n ∧ verdict s n 4 [18] ∧ h n F.devHemctlState = 4 ∧ h n F.devHemctlHaltr = 4 ∧ n.hem.step = s.hem.step ∧ reg n .devEpoch = reg s .devEpoch
          ∧ reg n .devHemdig = d ∧ n.hem.xdig = 0 ∧ ∀ k, k < 12 → reg n .liningSdig k = 0)
      ∧ (s.hem.updNonfin = false → st = 3 → ∃ n, exec .updateComplete s = .next n ∧ reg n .devHemdig = d ∧ h n F.devHemctlState = 1 ∧ (∀ k, k < 12 → reg n .liningSdig k = 0)
          ∧ n.hem = { s.hem with xdig := 0, digest := d, notes := s.hem.notes ++ [16] } ∧ reg n .devEpoch = reg s .devEpoch)
      ∧ (s.hem.updNonfin = false → st = 2 → ¬twin → commits .updateComplete d)
      ∧ (s.hem.updNonfin = false → st = 2 → twin →
          ((∀ t, s.hem.twin ≠ some (s.hem.step.setWidth 64, t)) → ∃ n, exec .updateComplete s = .next n ∧ n = { sent with mmio := n.mmio, hem := { s.hem with xdig := 0, digest := d, twinWait := true }, pegs := { s.pegs with watches := n.pegs.watches } }
              ∧ regsKept [.liningSdig] s n ∧ ∀ k, k < 12 → reg n .liningSdig k = 0)
          ∧ (s.hem.twin = some (s.hem.step.setWidth 64, d) → commits .updateComplete d)
          ∧ (∀ t, s.hem.twin = some (s.hem.step.setWidth 64, t) → t ≠ d → halts .updateComplete 6))))
    ∧ (∀ step x : Word,
      let t : State := { seamGot s 0 with hem := { s.hem with twin := some (step, x) } }
      (rf s .seamStat F.seamStatState ≠ 5 → exec (.twinDigestArrive step x) s = .next s)
      ∧ (rf s .seamStat F.seamStatState = 5 →
      (s.hem.twinWait = false ∨ step ≠ s.hem.step.setWidth 64 → exec (.twinDigestArrive step x) s = .next t)
      ∧ (s.hem.twinWait = true → step = s.hem.step.setWidth 64 → s.hem.updNonfin = true → halts (.twinDigestArrive step x) 4)
      ∧ (s.hem.twinWait = true → step = s.hem.step.setWidth 64 → s.hem.updNonfin = false → x = s.hem.digest → commits (.twinDigestArrive step x) x)
      ∧ (s.hem.twinWait = true → step = s.hem.step.setWidth 64 → s.hem.updNonfin = false → x ≠ s.hem.digest →
          ∃ n, exec (.twinDigestArrive step x) s = .next n ∧ discarded s n 6 [18] ∧ h n F.devHemctlState = 4 ∧ h n F.devHemctlHaltr = 6 ∧ reg n .devHemrank = 0x20000)))
    ∧ (s.hem.twinWait = false → exec .twinTimeout s = .next s)
    ∧ (s.hem.twinWait = true → ∃ n, exec .twinTimeout s = .next n ∧ rf n .devHemcfg F.devHemcfgTwin = 0 ∧ mkErr 0x63 0x26 0 0 ∈ n.err.detected
        ∧ (s.hem.updNonfin = false → committed s n s.hem.digest [16] ∧ h n F.devHemctlState = 1)
        ∧ (s.hem.updNonfin = true → discarded s n 4 [18] ∧ h n F.devHemctlState = 4 ∧ h n F.devHemctlHaltr = 4))

/-! ## Task queues, the debug port, halted threads (R22, R30, R69, R71, R299, R349–R354, R423) -/

/-- R349–R354: a push enters its queue; a head is checked, or ended with MALFORMED or NOCELL; the first queue in turn whose head can go is dispatched to its cell's idle threads; a finished or killed task leaves its status and counts. -/
def Obligations.TaskQueues : Prop :=
  (∀ (s : State) (a : Agent) (v : Word), takes s a →
    let k := tqSel s a
    let desc := 64 * bits v 51 6
    let ok : Prop := agentAtLeast s a 1 = true ∧ bits v 5 0 = 0 ∧ bits v 63 52 = 0 ∧ desc < 0xF000000000
    (¬ok → exec (.devTqpush a v) s = .next (report s (mkErr 0x01 0 0 0 0x20000000508 (agentCode s a))))
    ∧ (ok → ∃ n, exec (.devTqpush a v) s = .next n ∧ n = { s with tasks := { s.tasks with queues := n.tasks.queues, held := n.tasks.held }, clk := (pllGo s (k / 64)).clk } ∧ (∀ j, j ≠ k → tqueue n j = tqueue s j)
        ∧ ((tqueue s k).length < 128 → tqueue n k = tqueue s k ++ [{ desc := desc }] ∧ n.tasks.held = s.tasks.held)
        ∧ (128 ≤ (tqueue s k).length → tqueue n k = tqueue s k ∧ n.tasks.held = s.tasks.held ++ [{ key := k, desc := desc, agent := some a }])))
  ∧ (∀ (s : State) (r : Fin 12) (qn : Fin 64),
    let k := 64 * r.val + qn.val
    (tqueue s k = [] → exec (.descriptorHeadCheck r qn) s = .next s)
    ∧ (∀ e rest, tqueue s k = e :: rest → e.words = none →
      let w := homeRead s e.desc 64
      let ws := (List.range 8).map (fun i => wd (ofLE ((w.1.1.drop (8 * i)).take 8)))
      let d := dw ws 1
      let valid : Prop := ∃ x, (asEntry w.2 (64 * r.val) (tdAsid d)).1 = .ok x
      let gone : Prop := tdAny d = false ∧ cellRetired s (64 * r.val + tdCell d) = true
      let ends (code : Nat) : Prop := ∃ n, exec (.descriptorHeadCheck r qn) s = .next n ∧ (∀ j, j ≠ k → tqueue n j = tqueue s j) ∧ n.tasks.runs = s.tasks.runs
        ∧ ((∀ p ∈ s.tasks.held, p.key ≠ k) → tqueue n k = rest) ∧ rf n .devTqstat F.devTqstatDone k = min (2 ^ 32 - 1) (rf s .devTqstat F.devTqstatDone k + 1)
        ∧ (tdPegen d = false → regsKept [.devTqstat, .hbmChstat, .errInj] s n ∧ n = { s with tasks := n.tasks, ms := n.ms, mmio := n.mmio, err := n.err, hbm := queued s n }
            ∧ (memorySafe s → e.desc % 64 = 0 → lineDead s (e.desc / 128) = false → bytesAt s n (e.desc + 56) (leBytes code 8)))
        ∧ (tdPegen d = true → pegVal s (tdPeg d) < 2 ^ 63 - 1 → pegVal n (tdPeg d) = pegVal s (tdPeg d) + 1)
      w.1.2 = none →
        (valid → tdMalformed ws = false → ¬gone → ∃ n, exec (.descriptorHeadCheck r qn) s = .next n ∧ tqueue n k = { e with words := some ws } :: rest ∧ (∀ j, j ≠ k → tqueue n j = tqueue s j)
          ∧ n = { s with tasks := { s.tasks with queues := n.tasks.queues }, err := n.err, mmio := n.mmio, cells := n.cells, clk := { s.clk with starting := n.clk.starting }, hbm := queued s n
                         ms := { s.ms with hbmPoison := n.ms.hbmPoison, bmPoison := n.ms.bmPoison, rcSets := n.ms.rcSets, rcOut := n.ms.rcOut } }
          ∧ (clkBit s F.devClkRunning r.val = true → n.cells = s.cells ∧ n.clk = s.clk) ∧ (∀ c, cell n c = { cell s c with wakeReq := (cell n c).wakeReq })
          ∧ regsKept [.hbmChstat] s n ∧ bytesKept s n)
        ∧ (¬valid ∨ tdMalformed ws = true → ends 2)
        ∧ (valid → tdMalformed ws = false → gone → ends 3)))
  ∧ (∀ (s : State) (r : Fin 12),
    let last := tget 63 s.tasks.rr r.val
    let key (i : Nat) : Nat := 64 * r.val + (last + 1 + i) % 64
    (clkBit s F.devClkRunning r.val = false ∨ (∀ i, i < 64 → dispatchable s (key i) = none) → exec (.taskDispatch r) s = .next s)
    ∧ (clkBit s F.devClkRunning r.val = true → ∀ i e ws c sp, i < 64 → (∀ j, j < i → dispatchable s (key j) = none) → dispatchable s (key i) = some (e, ws, c, sp) →
      let d := dw ws 1
      let ts := (idleThreads s c).take (tdNtm1 d + 1)
      let spec := if sp then some (BitVec.ofNat 48 (bits (dw ws 2) 47 0)) else none
      ∃ n, exec (.taskDispatch r) s = .next n ∧ n = { s with threads := n.threads, cells := n.cells, tasks := n.tasks, mmio := n.mmio, out := n.out, pba := n.pba, msixDue := n.msixDue, clk := { s.clk with starting := n.clk.starting } }
        ∧ regsKept [.perfCnt, .perfEvt] s n ∧ bytesKept s n ∧ flushed n c
        ∧ ts.length = tdNtm1 d + 1 ∧ (∀ u, u ∉ ts → thread n u = thread s u)
        ∧ (∀ m t, ts[m]? = some t → let x := thread n t
            x.st = .ready ∧ x.level = 0 ∧ x.pc = wd (4 * bits (dw ws 0) 47 2) ∧ x.asid = tdAsid d ∧ x.spec = spec ∧ x.mine = tdMine d ∧ x.task = some s.tasks.next ∧ x.deadline = 0 ∧ x.busy = 0
            ∧ (∀ g : Reg, rx n t g = if g = 0 then 0 else if g = 10 then dw ws 3 else if g = 11 then dw ws 4 else if g = 12 then dw ws 5 else if g = 13 then dw ws 6 else if g = 14 then wd m else if g = 15 then wd e.desc else 0)
            ∧ (x.v = if (thread s t).asid = tdAsid d then (thread s t).v else []) ∧ (x.q = if (thread s t).asid = tdAsid d then (thread s t).q else []))
        ∧ n.tasks.runs = tins s.tasks.next { desc := e.desc, queue := key i, cell := c, threads := ts, left := ts.length, spec := spec, pegen := tdPegen d, peg := tdPeg d } s.tasks.runs
        ∧ n.tasks.next = s.tasks.next + 1 ∧ tget 63 n.tasks.rr r.val = key i % 64 ∧ (∀ j, j ≠ key i → tqueue n j = tqueue s j)
        ∧ ((∀ p ∈ s.tasks.held, p.key ≠ key i) → tqueue n (key i) = (tqueue s (key i)).drop 1)
        ∧ ((cell s c).power ≠ .run → (cell n c).wakeReq = true)))
  ∧ (∀ (s : State) (j : Nat),
    (tget? s.tasks.runs j = none → exec (.taskComplete j) s = .next s ∧ exec (.taskKill j) s = .next s)
    ∧ (∀ run, tget? s.tasks.runs j = some run →
      let ends (i : Instr) (code : Nat) (also : State → Prop) : Prop := ∃ n, exec i s = .next n ∧ n.tasks = { s.tasks with runs := tdel j s.tasks.runs } ∧ also n
        ∧ rf n .devTqstat F.devTqstatDone run.queue = min (2 ^ 32 - 1) (rf s .devTqstat F.devTqstatDone run.queue + 1)
        ∧ (run.pegen = false → regsKept [.devTqstat, .hbmChstat, .errInj] s n ∧ n = { s with threads := n.threads, cells := n.cells, tasks := n.tasks, ms := n.ms, mmio := n.mmio, err := n.err, pegs := { s.pegs with waves := n.pegs.waves } }
            ∧ (memorySafe s → run.desc % 64 = 0 → lineDead s (run.desc / 128) = false → bytesAt s n (run.desc + 56) (leBytes (code + 256 * (run.cell % 64)) 8)))
        ∧ (run.pegen = true → pegVal s run.peg < 2 ^ 63 - 1 → pegVal n run.peg = pegVal s run.peg + 1)
      run.queue < 768 →
      (run.left ≠ 0 → exec (.taskComplete j) s = .next s)
      ∧ (run.left = 0 → ends (.taskComplete j) 1 (fun n => run.pegen = false → n.threads = s.threads ∧ n.cells = s.cells))
      -- a kill waits for the accesses of the task's threads; here they have none outstanding
      ∧ (let own := run.threads.filter (fun t => decide ((thread s t).task = some j))
         (∀ w, settleWait s own = some w → exec (.taskKill j) s = .next w)
         ∧ ((∀ t ∈ own, quiet s t ∧ pushHeld s t = false ∧ ∀ e ∈ (thread s t).vq ++ (thread s t).tq, e.runs = false) →
        ends (.taskKill j) 5 (fun n => run.pegen = false →
          (∀ t ∈ run.threads, (thread s t).task = some j →
            thread n t = { thread s t with st := .idle, mine := 0, spec := none, task := none, hold := [], younger := 0, busy := 0, vq := [], tq := [], late := none })
          ∧ (∀ u, u ∉ run.threads ∨ (thread s u).task ≠ some j → thread n u = thread s u))))))

/-- R22, R30, R69, R71, R423: the debug port does what the policy allows and wakes its cell; a halted thread resumes; a stop request is interrupt 15. -/
def Obligations.DebugAndStops : Prop :=
  (∀ (s : State) (c : Cid) (op : DebugOp),
    let d := rf s .devBoot F.devBootDebug
    let reads : Prop := (∃ j, op = .halt j) ∨ (∃ j, op = .step j) ∨ (∃ j r, op = .readReg j r) ∨ ∃ p n, op = .readMem p n
    let allowed : Prop := s.power.down = false ∧ (d = 2 ∨ (d = 1 ∧ c.val < 768 ∧ reads))
    let w := wakeCell s c.val
    (cell w c.val).wakeReq = ((cell s c.val).wakeReq || decide ((cell s c.val).power ≠ .run))
    ∧ (¬allowed → exec (.debugPortAccess c op) s = .next s)
    ∧ (allowed →
      (∀ j r, op = .readReg j r → exec (.debugPortAccess c op) s = .next (emit w (.reply "debug" (leBytes (rx s (tidOf c.val j.val) r).toNat 8))))
      ∧ (∀ j r v, op = .writeReg j r v → ∃ n, exec (.debugPortAccess c op) s = .next n ∧ n = { w with threads := n.threads }
          ∧ ∀ u g, rx n u g = if u = tidOf c.val j.val ∧ g = r ∧ r ≠ 0 then v else rx s u g)
      ∧ (∀ p k, op = .readMem p k → debugSram c.val p k = true → exec (.debugPortAccess c op) s = .next (emit w (.reply "debug" (sramGet s p k))))
      ∧ (∀ p k, op = .readMem p k → debugSram c.val p k = false → isMemory s p = true → ∃ n bs, exec (.debugPortAccess c op) s = .next n ∧ n.out = s.out ++ [.reply "debug" bs] ∧ bs.length = k
          ∧ (∀ i, i < k → bs.getD i 0 = byteAt s (p + i)) ∧ bytesKept s n ∧ ∀ u, thread n u = thread s u)
      ∧ (∀ p bs, op = .writeMem p bs → debugSram c.val p bs.length = false → isMemory s p = true → memorySafe s → bs ≠ [] → (∀ l, p / 128 ≤ l → l ≤ (p + bs.length) / 128 → lineDead s l = false) →
          ∃ n, exec (.debugPortAccess c op) s = .next n ∧ bytesAt s n p bs ∧ ∀ u, thread n u = thread s u)
      ∧ (∀ j, op = .halt j → let t := tidOf c.val j.val
          ((thread s t).st = .idle ∨ (thread s t).st = .halted → exec (.debugPortAccess c op) s = .next w)
          ∧ ((thread s t).st = .ready → (thread s t).vq = [] → (thread s t).tq = [] → (thread s t).late = none → cellOf t = c.val → quiet s t →
              ∃ n, exec (.debugPortAccess c op) s = .next n ∧ thread n t = { thread s t with st := .halted } ∧ (∀ u, u ≠ t → thread n u = thread s u)
                ∧ n = { s with threads := n.threads, cells := n.cells, clk := { s.clk with starting := n.clk.starting }, pegs := { s.pegs with waves := n.pegs.waves } } ∧ ∀ e, e ≠ c.val → cell n e = cell s e))
      ∧ (∀ j, op = .step j → let t := tidOf c.val j.val
          ((thread s t).st ≠ .halted → exec (.debugPortAccess c op) s = .next w)
          ∧ ((thread s t).st = .halted → ∃ n, exec (.debugPortAccess c op) s = .next n ∧ ((thread n t).st = .halted ∨ (thread n t).st = .idle)))))
  ∧ (∀ (s : State) (t : Tid),
    ((thread s t).st = .halted → exec (.haltedThreadResume t) s = .next (setThread s t { thread s t with st := .ready }))
    ∧ ((thread s t).st ≠ .halted → exec (.haltedThreadResume t) s = .next s)
    ∧ ∃ n, exec (.stopRequest t) s = .next n ∧ n = { s with threads := n.threads, cells := n.cells, clk := { s.clk with starting := n.clk.starting } } ∧ thread n t = { thread s t with pend := (thread s t).pend ||| 0x8000 }
        ∧ (∀ u, u ≠ t → thread n u = thread s u) ∧ ∀ c, cell n c = if c = cellOf t ∧ (cell s c).power ≠ .run then { cell s c with wakeReq := true } else cell s c)

/-! ## The DMA engines (R355–R364) -/

/-- R356–R360, R372: a doorbell moves PI, by a SPEC thread as SPEC; a channel starts its next descriptor, with MALFORMED where R356 is broken, held where R360 says, or pauses for its pace peg; the channel whose turn it is moves a burst or ends its descriptor; an ended descriptor leaves its code and residue, moves CI and signals. -/
def Obligations.DmaTransfers : Prop :=
  (∀ (s : State) (a : Agent) (u : DmaUnit) (page : Option (Fin 32)) (v : Word), serving s → accessWaits s a (unitBase u + 0x10) true = false →
    let ch := match page with | some p => p.val | none => dmaSelected s u a
    let new := bits v 15 0
    let ci := rf s .dmaCi F.dmaCiCi ch
    let ahead (i : Nat) : Nat := (i + 65536 - ci) % 65536
    let was := ahead (rf s .dmaPi F.dmaPiPi ch)
    let may : Prop := agentAtLeast s a 1 = true ∧ (page ≠ none → a = .host)
    let fits : Prop := ahead new ≤ 2 ^ rf s .dmaRing F.dmaRingLog2n ch
    let bad (who : Word) : ErrRec := mkErr 0x01 (3 + unitNo u) 0 0 (wd (0x20000000000 + unitBase u + 0x10)) who
    let w : State := if u = .reg then pllGo s ((ch - 64) / 16) else s
    let pending (i : Nat) : Bool := decide (ahead i < min was (ahead new))
    (¬may → exec (.dmaPiDoorbell a u page v) s = .next (report s (bad (agentCode s a))))
    ∧ (may → ¬fits → exec (.dmaPiDoorbell a u page v) s = .next (report s (bad (if page = none then agentCode s a else 0x400))))
    ∧ (may → fits → ∃ n, exec (.dmaPiDoorbell a u page v) s = .next n ∧ n = { setRf w .dmaPi F.dmaPiPi new ch with dma := n.dma } ∧ (∀ k, k ≠ ch → dmaChan n k = dmaChan s k)
        ∧ dmaChan n ch = { dmaChan s ch with specIdx := (dmaChan n ch).specIdx, dropIdx := (dmaChan s ch).dropIdx.filter pending }
        ∧ ∀ i, i ∈ (dmaChan n ch).specIdx ↔ (i ∈ (dmaChan s ch).specIdx ∧ pending i = true) ∨ (agentSpec s a = true ∧ i < 65536 ∧ was ≤ ahead i ∧ ahead i < ahead new)))
  ∧ (∀ (s : State) (ch : Fin 256),
    let k := ch.val
    let ci := rf s .dmaCi F.dmaCiCi k
    let c := dmaChan s k
    let ready : Prop := engineClocked s (engineOf k) = true ∧ rf s .dmaChctl F.dmaChctlEn k = 1 ∧ chState s k = 0 ∧ c.run = none ∧ rf s .dmaPi F.dmaPiPi k ≠ ci
    let pace (q : State) (f : Fld) : Nat := rf q .dmaPace f k
    let watched := pegVal s (pace s F.dmaPacePpeg)
    let pauses : Prop := pace s F.dmaPaceEn = 1 ∧ c.paced = false ∧ (if pace s F.dmaPaceDir = 0 then pace s F.dmaPaceHigh ≤ watched else watched ≤ pace s F.dmaPaceLow)
    let desc := 4096 * rf s .dmaRing F.dmaRingBase k + 64 * (ci % 2 ^ rf s .dmaRing F.dmaRingLog2n k)
    let part := enginePart (engineOf k)
    let w := readWords8 s part desc
    let ws := w.1.1
    let src := readList w.2 part (ddSrc ws) (ddSrcN ws)
    let dst := readList src.2.2 part (ddDst ws) (ddDstN ws)
    let fields : Prop := w.1.2 = true ∨ ddBad (engineOf k) ws = true
    let lists : Prop := src.2.1 = true ∨ dst.2.1 = true ∨ listLen src.1 ≠ listLen dst.1 ∨ 2 ^ 40 ≤ listLen src.1 ∨ ddClasses dst.2.2 (engineOf k) ws src.1 dst.1 = false
    let base : DmaRun := { desc := desc, words := ws, src := [], dst := [], total := 0 }
    let full : DmaRun := { base with src := src.1, dst := dst.1, total := listLen src.1, epoch := hemEpoch s (ddAsid ws), spec := ddSpec ws || c.specIdx.contains ci }
    let runs (r : DmaRun) (st : Nat) : Prop := ∃ n, exec (.dmaDescriptorStart ch) s = .next n
      ∧ n = { s with dma := n.dma, mmio := n.mmio, err := n.err, hbm := queued s n, ms := { s.ms with hbmPoison := n.ms.hbmPoison, bmPoison := n.ms.bmPoison, rcSets := n.ms.rcSets, rcOut := n.ms.rcOut } }
      ∧ regsKept [.dmaChctl, .hbmChstat] s n ∧ instKept .dmaChctl k s n ∧ fieldsKept .dmaChctl k [F.dmaChctlState] s n ∧ bytesKept s n ∧ chState n k = st ∧ (∀ j, j ≠ k → dmaChan n j = dmaChan s j)
      ∧ dmaChan n k = { run := some r, specIdx := c.specIdx.filter (fun i => decide (i ≠ ci)), dropIdx := c.dropIdx.filter (fun i => decide (i ≠ ci)), paced := false }
    let goes : Prop := ready ∧ ¬pauses ∧ descHeld s k = []
    (¬ready → exec (.dmaDescriptorStart ch) s = .next s)
    ∧ (ready → ¬pauses → descHeld s k ≠ [] → ∃ n, exec (.dmaDescriptorStart ch) s = .next n ∧ n = { s with clk := { s.clk with starting := n.clk.starting } })
    ∧ (ready → pauses → ∃ n, exec (.dmaDescriptorStart ch) s = .next n ∧ chState n k = 2 ∧ n = { s with mmio := n.mmio, pegs := { s.pegs with watches := n.pegs.watches } }
        ∧ regsKept [.dmaChctl] s n ∧ instKept .dmaChctl k s n ∧ ∃ x, tget? n.pegs.watches (paceKey k) = some x ∧ x.peg = pace s F.dmaPacePpeg ∧ x.up = decide (pace s F.dmaPaceDir = 1)
          ∧ x.value = (if pace s F.dmaPaceDir = 1 then pace s F.dmaPaceHigh else pace s F.dmaPaceLow))
    ∧ (goes → fields → runs { base with code := 2, residue := if w.1.2 = true ∨ listOk (ddSrc ws) (ddSrcN ws) = false then 0 else listLen src.1 % 2 ^ 40 } 1)
    ∧ (goes → ¬fields → lists → runs { full with code := 2, residue := listLen src.1 % 2 ^ 40 } 1)
    ∧ (goes → ¬fields → ¬lists → ci ∈ c.dropIdx → runs { full with code := 8, residue := listLen src.1 } 1)
    ∧ (goes → ¬fields → ¬lists → ci ∉ c.dropIdx → runs full (if heldSpec k full = true then 3 else 1)))
  ∧ (∀ (s : State) (ch : Fin 256) (arrived : List Byte) (poisoned : Bool) (r : DmaRun),
    let k := ch.val
    let e := engineOf k
    (dmaChan s k).run = some r → chState s k = 1 → r.code = 0 →
    let stays : Prop := engineClocked s e = false ∨ burstTurn s e ≠ some k ∨ (e = 2 ∧ s.links.seamHold = true)
    (nextBurst r = none ∨ stays → exec (.dmaBurstComplete ch arrived poisoned) s = .next s)
    ∧ ∀ x y len, ¬stays → nextBurst r = some (x, y, len) →
      let one := dmaAddr s k r (ddVsrc r.words) x .load
      let two := dmaAddr one.2 k r (ddVdst r.words) y .store
      let t := two.2
      let now (n : State) (q : DmaRun) : Prop := dmaChan n k = { dmaChan s k with run := some q } ∧ ∀ j, j ≠ k → dmaChan n j = dmaChan s j
      let faults : Prop := (∃ f, one.1 = .error f) ∨ ∃ p f, one.1 = .ok p ∧ two.1 = .error f
      (faults → ∃ n, exec (.dmaBurstComplete ch arrived poisoned) s = .next n ∧ now n { r with code := 3, residue := r.total - r.moved } ∧ bytesKept s n)
      ∧ ∀ pa pb, one.1 = .ok pa → two.1 = .ok pb →
        let ca := dclass t pa len
        let cb := dclass t pb len
        let path : Prop := (ca = .mem ∨ windowUp t pa = true) ∧ (cb = .mem ∨ windowUp t pb = true) ∧ t.links.dead = [] ∧ (e = 2 → rf t .seamStat F.seamStatState = 5)
        let held : Prop := (ca = .mem ∧ accessHeld t (enginePart e) pa len = true) ∨ (cb = .mem ∧ e ≠ 2 ∧ accessHeld t (enginePart e) pb len = true)
        let open' : Prop := path ∧ ¬held
        (classesOk e ca cb = false → ∃ n, exec (.dmaBurstComplete ch arrived poisoned) s = .next n ∧ now n { r with code := 2, residue := r.total } ∧ bytesKept s n)
        ∧ (classesOk e ca cb = true → path → held → ∃ n, exec (.dmaBurstComplete ch arrived poisoned) s = .next n ∧ n = { t with clk := { s.clk with starting := n.clk.starting }, dmaLast := n.dmaLast } ∧ bytesKept s n)
        ∧ (classesOk e ca cb = true → open' → ca = .mem → cb = .mem → e ≠ 2 → memorySafe s → (∀ l, pb / 128 ≤ l → l ≤ (pb + len) / 128 → lineDead t l = false) →
            ∃ n p, exec (.dmaBurstComplete ch arrived poisoned) s = .next n ∧ now n { r with moved := r.moved + len, sent := some (pb + len), poison := p }
              ∧ ∀ a, byteAt n a = if pb ≤ a ∧ a < pb + len then byteAt s (pa + (a - pb)) else byteAt s a)
        ∧ (classesOk e ca cb = true → open' → ca ≠ .mem → cb = .mem → arrived.length = len → memorySafe s → (∀ l, pb / 128 ≤ l → l ≤ (pb + len) / 128 → lineDead t l = false) →
            ∃ n p, exec (.dmaBurstComplete ch arrived poisoned) s = .next n ∧ now n { r with moved := r.moved + len, sent := some (pb + len), poison := p } ∧ bytesAt s n pb arrived
              ∧ n.out = s.out ++ [.hostRead (if windowKind pa = 0 then hostBus s pa else pa) len])
        ∧ (classesOk e ca cb = true → open' → ca = .mem → cb ≠ .mem → e ≠ 2 →
            ∃ n p bs bad, exec (.dmaBurstComplete ch arrived poisoned) s = .next n ∧ now n { r with moved := r.moved + len, sent := some (pb + len), poison := p } ∧ bytesKept s n
              ∧ n.out = s.out ++ [.hostWrite (if windowKind pb = 0 then hostBus s pb else pb) bs bad] ∧ bs.length = len ∧ ∀ i, i < len → bs.getD i 0 = byteAt s (pa + i))
        ∧ (classesOk e ca cb = true → open' → e = 2 →
            ∃ n p bs bad, exec (.dmaBurstComplete ch arrived poisoned) s = .next n ∧ now n { r with moved := r.moved + len, sent := some (pb + len), poison := p } ∧ bytesKept s n
              ∧ n.out = s.out ++ (if r.sent = some pb then [] else [.seam "WRITE" (wd pb) (leBytes (runLen r.dst r.moved) 8)]) ++ [.seamWrite (wd pb) bs bad] ∧ bs.length = len ∧ ∀ i, i < len → bs.getD i 0 = byteAt s (pa + i)))
  ∧ (∀ (s : State) (ch : Fin 256) (r : DmaRun),
    let k := ch.val
    (dmaChan s k).run = some r → chState s k = 1 →
    (engineClocked s (engineOf k) = false ∨ (r.code = 0 ∧ r.moved < r.total) → exec (.dmaDescriptorComplete ch) s = .next s)
    ∧ (engineClocked s (engineOf k) = true → r.code ≠ 0 ∨ r.total ≤ r.moved → (∀ i g, tget? s.mantle.feeds i = some g → feedChan g ≠ k) →
      let code := if r.code ≠ 0 then r.code else if r.poison = true then 7 else 1
      let residue := if r.code ≠ 0 then r.residue else 0
      ∃ n, exec (.dmaDescriptorComplete ch) s = .next n ∧ dmaChan n k = { dmaChan s k with run := none } ∧ (∀ j, j ≠ k → dmaChan n j = dmaChan s j)
        ∧ rf n .dmaCi F.dmaCiCi k = (rf s .dmaCi F.dmaCiCi k + 1) % 65536 ∧ chState n k = (if r.code = 3 then 4 else 0)
        ∧ (ddPegen r.words = true → 0 ≤ (pegVal s (ddPeg r.words) : Int) + ddPegadd r.words → (pegVal s (ddPeg r.words) : Int) + ddPegadd r.words < 2 ^ 63 →
            (pegVal n (ddPeg r.words) : Int) = (pegVal s (ddPeg r.words) : Int) + ddPegadd r.words)
        ∧ (ddPegen r.words = false → code < 256 → memorySafe s → r.desc % 64 = 0 → lineDead s (r.desc / 128) = false → bytesAt s n (r.desc + 56) (leBytes (code + 256 * residue) 8))
        ∧ (ddPegen r.words = false → n = { s with dma := n.dma, ms := n.ms, mmio := n.mmio, err := n.err, out := n.out, pba := n.pba, msixDue := n.msixDue, hbm := queued s n } ∧ regsKept [.dmaCi, .dmaChctl, .hbmChstat, .errInj] s n)
        ∧ (ddIrq r.words = true ∨ code ∈ [4, 5, 6] → .mantle "dma" (pack [(0, dmaUnitCode (engineOf k)), (8, chanNo k), (16, code), (24, engineRegion (engineOf k))]) ∈ n.out)
        ∧ (code ∈ [3, 5, 7] → ∃ x ∈ n.err.detected, x.cause = 0x50 ∧ x.unit = BitVec.ofNat 8 (dmaUnitCode (engineOf k)) ∧ x.sub = BitVec.ofNat 8 (chanNo k))))

/-- R359, R362, R363: DMA_PACE is refused with ERR while LOW is not below HIGH, and a paused channel weighs it anew; a paused channel resumes when its peg has met the other watermark; ABORT stops a channel and completes its descriptor, a bus error stops every channel of its engine, RESTART goes on. -/
def Obligations.DmaControl : Prop :=
  (∀ (s : State) (a : Agent) (u : DmaUnit) (v : Word), takes s a →
    let k := dmaSelected s u a
    let st := chState s k
    let c := dmaChan s k
    let bad (off : Nat) : ErrRec := mkErr 0x01 (3 + unitNo u) 0 0 (wd (0x20000000000 + unitBase u + off)) (agentCode s a)
    let sets (i : Instr) (x : Nat) : Prop := exec i s = .next (setRf s .dmaChctl F.dmaChctlState x k)
    (agentAtLeast s a 1 = false → exec (.dmaPaceWrite a u v) s = .next (report s (bad 0x28)) ∧ exec (.dmaAbort a u) s = .next (report s (bad 0x20)) ∧ exec (.dmaRestart a u) s = .next (report s (bad 0x20)))
    ∧ (agentAtLeast s a 1 = true →
      (fget v F.dmaPaceHigh ≤ fget v F.dmaPaceLow → exec (.dmaPaceWrite a u v) s = .next (setRf s .dmaChctl F.dmaChctlErr 1 k))
      ∧ (fget v F.dmaPaceLow < fget v F.dmaPaceHigh → ∃ n, exec (.dmaPaceWrite a u v) s = .next n ∧ reg n .dmaPace k = v ∧ instKept .dmaPace k s n ∧ regsKept [.dmaPace, .dmaChctl] s n ∧ n = { s with mmio := n.mmio, dma := n.dma, pegs := { s.pegs with watches := n.pegs.watches } }
          ∧ dmaChan n k = { c with paced := false } ∧ (∀ j, j ≠ k → dmaChan n j = dmaChan s j)
          ∧ (st ≠ 2 → ∀ i, i < 65536 → reg n .dmaChctl i = reg s .dmaChctl i)
          ∧ (st = 2 → chState n k = (if fget v F.dmaPaceEn = 0 then 0 else 2)))
      ∧ (st = 4 ∨ st = 5 → exec (.dmaAbort a u) s = .next s)
      ∧ (st ≠ 4 → st ≠ 5 → c.run = none → ∃ n, exec (.dmaAbort a u) s = .next n ∧ chState n k = 4 ∧ n = { s with mmio := n.mmio, dma := n.dma, pegs := { s.pegs with watches := tdel (paceKey k) s.pegs.watches } } ∧ regsKept [.dmaChctl] s n
          ∧ dmaChan n k = { c with paced := false } ∧ ∀ j, j ≠ k → dmaChan n j = dmaChan s j)
      ∧ (∀ r, st ≠ 4 → st ≠ 5 → c.run = some r →
          let code := if r.code = 0 then 4 else r.code
          let residue := if st = 3 then r.total else if r.code = 0 then r.total - r.moved else r.residue
          ∃ n, exec (.dmaAbort a u) s = .next n ∧ dmaChan n k = { c with run := none, paced := false } ∧ rf n .dmaCi F.dmaCiCi k = (rf s .dmaCi F.dmaCiCi k + 1) % 65536 ∧ chState n k = 4
            ∧ (ddPegen r.words = false → code < 256 → memorySafe s → r.desc % 64 = 0 → lineDead s (r.desc / 128) = false → bytesAt s n (r.desc + 56) (leBytes (code + 256 * residue) 8)))
      ∧ (st = 4 → sets (.dmaRestart a u) 0)
      ∧ (st = 5 → sets (.dmaRestart a u) (match c.run with | some r => if heldSpec k r = true then 3 else 1 | none => 0))
      ∧ (st ≠ 4 → st ≠ 5 → exec (.dmaRestart a u) s = .next s)))
  ∧ (∀ (s : State) (ch : Fin 256),
    let k := ch.val
    let go : Prop := chState s k = 2 ∧ ∃ w, tget? s.pegs.watches (paceKey k) = some w ∧ w.met = true
    (¬go → exec (.dmaPaceResume ch) s = .next s)
    ∧ (go → ∃ n, exec (.dmaPaceResume ch) s = .next n ∧ chState n k = 0 ∧ dmaChan n k = { dmaChan s k with paced := true } ∧ (∀ j, j ≠ k → dmaChan n j = dmaChan s j)
        ∧ n = { s with mmio := n.mmio, dma := n.dma, pegs := { s.pegs with watches := tdel (paceKey k) s.pegs.watches } } ∧ regsKept [.dmaChctl] s n)
    ∧ ∀ cause : BitVec 3, ∀ r, (dmaChan s k).run = some r → chState s k = 1 → r.code = 0 → 1 ≤ cause.toNat → cause.toNat ≤ 5 →
      let e := engineOf k
      let at' := (burstAddr s k r).1
      ∃ n, exec (.dmaBusError ch cause) s = .next n ∧ reg n .dmaEngstat e = pack [(0, 1), (1, chanNo k), (6, cause.toNat)]
        ∧ (∀ p, at' = some p → reg n .dmaErraddr e = wd p) ∧ (at' = none → reg n .dmaErraddr e = reg s .dmaErraddr e)
        ∧ (∀ j ∈ chansOf e, chState n j = 5) ∧ (∀ j, j < 256 → j ∉ chansOf e → chState n j = chState s j ∧ dmaChan n j = dmaChan s j)
        ∧ (∀ j ∈ chansOf e, dmaChan n j = { dmaChan s j with paced := false, run := (dmaChan s j).run.map (fun q => { q with sent := none }) })
        ∧ .mantle "dma" (pack [(0, dmaUnitCode e), (8, chanNo k), (16, 5), (24, engineRegion e)]) ∈ n.out)

/-! ## Roll call (R317–R321) -/

/-- R317–R321, R326, R347: ROLLCALL starts gathering or joining, or fails on its own configuration; CANCEL returns to IDLE while the hem is there; rank 0 takes each entry once and refuses what differs; a chunk of the roster is kept and acknowledged; a refusal or the timeout fails; CONNECTING ends in READY. -/
def Obligations.RollCall : Prop :=
  let f (q : State) (g : Fld) : Nat := rf q .collCtl g
  let failed (s n : State) (reason : Nat) : Prop := f n F.collCtlState = 6 ∧ f n F.collCtlReason = reason ∧ instKept .collCtl 0 s n
  (∀ (s : State) (a : Agent), takes s a →
    let bad := report s (mkErr 0x01 9 0 0 0x20000400000 (agentCode s a))
    let good : Prop := myRank s < nRanks s ∧ (∀ b, b < nBuckets s → (btEnt s b).1.ok = true) ∧ ¬(pairFirst s = true ∧ nRanks s % 2 = 1)
    (agentTrusted a = false ∨ hemState s ≠ 0 ∨ rolling s = true → exec (.rollcall a) s = .next bad)
    ∧ (agentTrusted a = true → hemState s = 0 → rolling s = false → s.err.latent = [] →
        let fresh : CollS := { s.coll with joined := [], chunks := [], unacked := [], joinSent := none, qps := [], waits := [] }
        ∃ n, exec (.rollcall a) s = .next n ∧ (n.coll.qps = [] ∧ n.net = { s.net with hops := [], wait := [] }) ∧ (¬good → failed s n 6 ∧ n.coll = fresh)
          ∧ (good → myRank s ≠ 0 → f n F.collCtlState = 1 ∧ f n F.collCtlReason = 0 ∧ f n F.collCtlMissing = 0 ∧ n.coll = fresh ∧ n.out = s.out)
          ∧ (good → myRank s = 0 → 1 < nRanks s → f n F.collCtlState = 2 ∧ f n F.collCtlReason = 0 ∧ f n F.collCtlMissing = 0
              ∧ n.coll = { fresh with joined := [(0, ownEntry s)] } ∧ n.out = s.out)
          ∧ (good → myRank s = 0 → nRanks s = 1 → f n F.collCtlState = 4)
          ∧ (¬good ∨ 1 < nRanks s → bytesKept s n))
    ∧ (agentTrusted a = false → exec (.cancel a) s = .next bad)
    ∧ (agentTrusted a = true → hemState s ≠ 0 → exec (.cancel a) s = .next s)
    ∧ (agentTrusted a = true → hemState s = 0 → ∃ n, exec (.cancel a) s = .next n ∧ n = { s with mmio := n.mmio, coll := { s.coll with qps := [], waits := [] }, net := { s.net with hops := [], wait := [] } } ∧ regsKept [.collCtl] s n ∧ fieldsKept .collCtl 0 [F.collCtlState, F.collCtlReason] s n ∧ f n F.collCtlState = 0 ∧ f n F.collCtlReason = 0))
  ∧ (∀ (s : State),
    (collState s ≠ 1 → exec .joinSend s = .next s)
    ∧ (collState s = 1 → let e := s.coll.joinSent.getD (ownEntry s)
        ∃ n, exec .joinSend s = .next n ∧ rolled n (leBytes (reg s .collRootgid 0).toNat 8 ++ leBytes (reg s .collRootgid 1).toNat 8)
          (fun m => mType m = 0x10 ∧ mSrc m = myRank s ∧ m.w6 = reg s .collJobid ∧ m.payload = e ++ (checkBlock s).1)
        ∧ s.out <+: n.out ∧ n.coll = { s.coll with joinSent := some e } ∧ bytesKept s n)
    ∧ (rolling s = false → exec .rollcallTimeout s = .next s)
    ∧ (rolling s = true → ∃ n, exec .rollcallTimeout s = .next n ∧ mmioFrame [.collCtl] s n ∧ failed s n 1
        ∧ f n F.collCtlMissing = if myRank s = 0 then (nRanks s - s.coll.joined.length) % 65536 else f s F.collCtlMissing)
    ∧ (collState s ≠ 4 → exec .connectingDone s = .next s)
    ∧ (collState s = 4 → ∃ n, exec .connectingDone s = .next n ∧ collState n = 5 ∧ (∀ q ∈ n.coll.qps, ∃ d p, d < nRanks s ∧ d ≠ myRank s ∧ p < 4 ∧ q = 0x40000 + 4 * d + p)
        ∧ (hemState s = 0 → n.coll = { s.coll with qps := n.coll.qps } ∧ bytesKept s n ∧ regsKept [.collCtl, .hbmChstat] s n) ∧ (hemState s = 3 → n.coll.held = s.coll.held))
    ∧ (collState s = 4 → hemState s ≠ 0 → hemState s ≠ 3 → ∃ n, exec .connectingDone s = .next n ∧ collState n = 5 ∧ n.coll.held = []
        ∧ ∀ b, b ∈ s.coll.held → b < nBuckets s → (cbucket n b).posted = true)
    ∧ (collState s ∉ [2, 3, 4, 5] → exec .rosterResend s = .next s)
    ∧ (collState s ∈ [2, 3, 4, 5] → ∃ n, exec .rosterResend s = .next n ∧ n.coll = s.coll ∧ bytesKept s n ∧ s.out <+: n.out
        ∧ ∀ p ∈ s.coll.unacked, p.2 / 16 ∈ s.coll.chunks → ∃ gid, rolled n gid (fun m => mType m = 0x11 ∧ m.w1 = wd p.1 ∧ m.payload.length = 2048)))
  ∧ (∀ (s : State) (m : Msg),
    let ours : Prop := m.w6 = reg s .collJobid
    let other : State := bumpRf s .collCnt F.collCntCount 1 5
    let broken (type len : Nat) : Prop := bits m.w0 11 8 ≠ 1 ∨ mType m ≠ type ∨ bits m.w0 19 18 ≠ 0 ∨ bits m.w0 31 28 ≠ 0 ∨ bits m.w1 63 48 ≠ 0 ∨ m.w7 ≠ 0
      ∨ nRanks s ≤ mSrc m ∨ mLen m ≠ 0 ∨ m.payload.length ≠ len
    let bad : State := if s.coll.badRecorded = true then bumpRf s .collCnt F.collCntCount 1 4
      else report { bumpRf s .collCnt F.collCntCount 1 4 with coll := { s.coll with badRecorded := true } } (mkErr 0x65 9 0 0 0 (pack [(0, mBucket m), (12, 3), (16, mShard m), (32, mSrc m)]))
    let size := ofLE ((m.payload.drop 168).take 2)
    let rank := mSrc m
    let entry := m.payload.take 128
    let check := m.payload.drop 128
    (collState s ≠ 2 → exec (.join m) s = .next s)
    ∧ (collState s = 2 → ¬ours ∨ (m.payload.length = 192 ∧ size ≠ rf s .collJob F.collJobNrm1) → exec (.join m) s = .next other)
    ∧ (collState s = 2 → ours → (m.payload.length = 192 → size = rf s .collJob F.collJobNrm1) → broken 0x10 192 → exec (.join m) s = .next bad)
    ∧ (collState s = 2 → ours → size = rf s .collJob F.collJobNrm1 → ¬broken 0x10 192 →
      let own := (checkBlock s).1
      (∀ e, tget? s.coll.joined rank = some e → entSerial e = entSerial entry → exec (.join m) s = .next s)
      ∧ (∀ e, tget? s.coll.joined rank = some e → entSerial e ≠ entSerial entry → ∃ n, exec (.join m) s = .next n ∧ failed s n 4)
      ∧ (tget? s.coll.joined rank = none →
          (check.take 32 ≠ own.take 32 → ∃ n, exec (.join m) s = .next n ∧ failed s n 2 ∧ ∀ p ∈ s.coll.joined, p.1 ≠ myRank s →
            rolled n (entGid p.2 (firstPort p.2)) (fun x => mType x = 0x13 ∧ mVoidrank x = rank ∧ mMissing x = 2))
          ∧ (check.take 32 = own.take 32 → (check.drop 32).take 8 ≠ (own.drop 32).take 8 → ∃ n, exec (.join m) s = .next n ∧ failed s n 3)
          ∧ (check.take 32 = own.take 32 → (check.drop 32).take 8 = (own.drop 32).take 8 → (tins rank entry s.coll.joined).length ≠ nRanks s →
              ∃ n, exec (.join m) s = .next n ∧ n.coll = { s.coll with joined := tins rank entry s.coll.joined } ∧ f n F.collCtlState = 2 ∧ n.out = s.out ∧ bytesKept s n)
          ∧ (check.take 32 = own.take 32 → (check.drop 32).take 8 = (own.drop 32).take 8 → (tins rank entry s.coll.joined).length = nRanks s → pairFirst s = false →
              ∃ n, exec (.join m) s = .next n ∧ f n F.collCtlState = 4 ∧ n.coll.chunks = List.range (nChunks s))))
    ∧ (¬ours → exec (.refuse m) s = .next other ∧ exec (.roster m) s = .next other ∧ exec (.ack m) s = .next other)
    ∧ (ours → (broken 0x13 0 → exec (.refuse m) s = .next bad) ∧ (broken 0x11 2048 → exec (.roster m) s = .next bad) ∧ (broken 0x12 0 → exec (.ack m) s = .next bad))
    ∧ (ours → ¬broken 0x13 0 → rolling s = false → exec (.refuse m) s = .next s)
    ∧ (ours → ¬broken 0x13 0 → rolling s = true → ∃ n, exec (.refuse m) s = .next n ∧ mmioFrame [.collCtl] s n ∧ failed s n (mMissing m % 16) ∧ fieldsKept .collCtl 0 [F.collCtlState, F.collCtlReason] s n)
    ∧ (ours → ¬broken 0x12 0 → ∃ n, exec (.ack m) s = .next n ∧ n = { s with coll := { s.coll with unacked := n.coll.unacked } } ∧ ∀ p, p ∈ n.coll.unacked ↔ p ∈ s.coll.unacked ∧ p ≠ (bits m.w1 47 0, mSrc m))
    ∧ (let c := bits m.w1 47 0
       let st := collState s
       let fits : Prop := ¬broken 0x11 2048 ∧ c < nChunks s
       (ours → ¬broken 0x11 2048 → st ∉ [1, 3, 4, 5] ∨ nChunks s ≤ c → exec (.roster m) s = .next s)
       ∧ (ours → st ∈ [1, 3, 4, 5] → fits → memorySafe s → (∀ l, lineDead s l = false) →
           let new : Prop := (st = 1 ∨ st = 3) ∧ c ∉ s.coll.chunks
           ∃ n, exec (.roster m) s = .next n ∧ rolled n [] (fun x => mType x = 0x12 ∧ x.w1 = wd c)
             ∧ (¬new → n.coll = s.coll ∧ collState n = (if st = 1 then 3 else st) ∧ bytesKept s n)
             ∧ (new → n.coll.chunks = s.coll.chunks ++ [c] ∧ n.coll.joined = s.coll.joined ∧ bytesAt s n (rtAddr s (16 * c)) (m.payload.take (128 * min 16 (nRanks s - 16 * c)))
                 ∧ (s.coll.chunks.length + 1 < nChunks s → collState n = 3)
                 ∧ (nChunks s ≤ s.coll.chunks.length + 1 → collState n = 4 ∨ (collState n = 6 ∧ f n F.collCtlReason = 4))))))

/-! ## The collective engine (R316, R326–R341, R343, R345) -/

/-- R316, R326–R329, R334, R335, R339, R343: a post is performed or held; a message that arrives is judged by the rules in order and counted, or taken: a contribution fills its slot or resolves the shard, an allgather resolves its shard; a PACE goes to every owner to whom no contribution of this rank has gone; a message retried too often goes on the next port. -/
def Obligations.CollectiveMessages : Prop :=
  let counted (s : State) (ev : Nat) : State := bumpRf s .collCnt F.collCntCount 1 ev
  (∀ (s : State) (a : Agent) (v : Word), takes s a →
    let b := bits v 11 0
    (agentAtLeast s a 1 = false → exec (.collPost a v) s = .next (report s (mkErr 0x01 9 0 0 0x20000400050 (agentCode s a))))
    ∧ (agentAtLeast s a 1 = true →
      (postsOpen s = false → exec (.collPost a v) s = .next { s with coll := { s.coll with held := s.coll.held ++ [b] } })
      ∧ (postsOpen s = true → nBuckets s ≤ b ∨ (cbucket s b).posted = true → exec (.collPost a v) s = .next (counted s 4))
      ∧ (postsOpen s = true → b < nBuckets s → (cbucket s b).posted = false → ∃ n, exec (.collPost a v) s = .next n ∧ (cbucket n b).posted = true ∧ n.coll.postAt = ioNow s
          ∧ (∀ c, c ≠ b → cbucket n c = cbucket s c) ∧ n.coll.held = s.coll.held
          ∧ (pairFirst s = false → (cbucket n b).stopped = false → ∀ i, i < nRanks s → i ≠ myRank s → sentTo s n i (fun m => mType m = 1 ∧ mBucket m = b ∧ mShard m = i ∧ mSrc m = myRank s ∧ mStep m = s.hem.step.toNat ∧ mGen m = genOf s)))))
  ∧ (∀ (s : State) (port : Fin 4) (m : Msg) (type : Nat) (i : Instr), (type, i) ∈ [(1, Instr.contrib port m), (2, .allgather port m), (3, .pace port m)] →
    let b := mBucket m
    let e := (btEnt s b).1
    let t := (btEnt s b).2
    let g := genOf s
    let here : Prop := collState s = 5 ∧ rf s .ethPortstat F.ethPortstatState port.val = 3
    let ours : Prop := m.w6 = reg s .collJobid
    let good : Prop := badHeader t type false e m = false
    let drifts : Prop := m.w3 ≠ hemDig s ∧ s.hem.drift = none
    let seen : Prop := (type, mSrc m, mShard m) ∈ (cbucket s b).seen
    (¬here → exec i s = .next s)
    ∧ (here → ¬ours → exec i s = .next (counted t 5))
    ∧ (here → ours → ¬good → ∃ n, exec i s = .next n ∧ n.coll = { s.coll with badRecorded := true } ∧ rf n .collCnt F.collCntCount 4 = min (2 ^ 48 - 1) (rf s .collCnt F.collCntCount 4 + 1)
        ∧ n.err.detected = t.err.detected ++ (if s.coll.badRecorded = true then [] else [mkErr 0x65 9 0 0 0 (pack [(0, b), (12, 3), (16, mShard m), (32, mSrc m)])]))
    ∧ (here → ours → good →
      (mGen m < g → exec i s = .next (counted t 1))
      ∧ (mGen m = g + 1 →
          ∃ n, exec i s = .next n ∧ n = { counted t 7 with out := n.out, net := { s.net with wait := n.net.wait } }
            ∧ left s n port.val s.net.rpri (qpGid s (qpnOf (mSrc m) port.val)) (.packet port.val "RNR NAK" []))
      ∧ (g + 1 < mGen m → exec i s = .next (report (counted t 4) (mkErr 0x65 9 0 0 0 (pack [(0, b), (12, 4), (16, mShard m), (32, mSrc m)]))))
      ∧ (mGen m = g → mStep m ≠ s.hem.step.toNat → exec i s = .next (counted t 4))
      ∧ (mGen m = g → mStep m = s.hem.step.toNat → seen → exec i s = .next (counted t 2))
      ∧ (mGen m = g → mStep m = s.hem.step.toNat → ¬seen → ∃ n, exec i s = .next n
          ∧ (drifts → n.hem.drift = some (BitVec.ofNat 16 (mSrc m)) ∧ reg n .devHemrank = pack [(0, mSrc m), (16, 1)] ∧ mkErr 0x60 9 0 0 0 (wd (mSrc m)) ∈ n.err.detected)
          ∧ (¬drifts → n.hem = s.hem) ∧ (type, mSrc m, mShard m) ∈ (cbucket n b).seen
          ∧ (∀ c ∈ s.coll.buckets, c.2.armed = true → (cbucket n c.1).armed = true → tget? s.coll.buckets c.1 = some c.2 → (cbucket n c.1).heard = true)
          ∧ (type = 3 → (cbucket n b).res = (cbucket s b).res ∧ (cbucket n b).slots = (cbucket s b).slots ∧ n.out = s.out)
          ∧ (type = 1 → ownResolved s b = true → rf n .collCnt F.collCntCount 3 = min (2 ^ 48 - 1) (rf s .collCnt F.collCntCount 3 + 1) ∧ (cbucket n b).res = (cbucket s b).res ∧ (cbucket n b).slots = (cbucket s b).slots)
          ∧ (type = 1 → ownResolved s b = false → (cbucket n b).armed = true
              ∧ n.coll.last = some (mSrc m, m.w0, ioNow s)
              ∧ (mVoid m = false → (cbucket s b).stopped = false → slotOf s (mSrc m) ∈ (cbucket n b).slots)
              ∧ (mNonfin m = true → tget? (cbucket n b).res (myRank s) = some .nonfinite)
              ∧ (mNonfin m = false → mVoid m = true → tget? (cbucket n b).res (myRank s) = some (.void (mVoidrank m) 1 false))
              ∧ (mNonfin m = false → mVoid m = false → (cbucket n b).res = (cbucket s b).res))
          ∧ (type = 2 → tget? (cbucket n b).res (mShard m) = some (if mVoid m = true then .void (mVoidrank m) (mMissing m) (mIsolated m) else if mNonfin m = true then .nonfinite else .gathered m.w4)
              ∧ n.coll.resAt = ioNow s ∧ (cbucket n b).slots = (cbucket s b).slots))))
  ∧ (∀ (s : State),
    let open' : Prop := hemState s = 1 ∧ collState s = 5
    let owners := (List.range (nRanks s)).filter (fun d => decide (d ≠ myRank s) && !contributed s d)
    let said (d : Nat) : Msg := mkMsg s { type := 3, shard := d }
    (¬open' → exec .paceSend s = .next s)
    ∧ (open' → ∃ n, exec .paceSend s = .next n ∧ n = { s with mmio := n.mmio, out := n.out, coll := { s.coll with waits := n.coll.waits } } ∧ regsKept [.collCnt] s n
        ∧ (∀ d ∈ owners, sentTo s n d (fun m => m = { said d with w0 := m.w0 } ∧ m.w0 ||| 0x20000 = (said d).w0 ||| 0x20000))
        ∧ ((∀ d p, d ∈ owners → p < 4 → pathUp s d p = true ∧ prioPaused s p s.net.rpri = false) →
            n.out = s.out ++ owners.map (fun d => .net ((myRank s + d) % 4) d (said d) (tagOf s ((myRank s + d) % 4) s.net.rpri (qpGid s (qpnOf d ((myRank s + d) % 4))))))))
  ∧ (∀ (s : State) (j : Nat),
    let again (port rank : Nat) (m : Msg) (waits : List (Nat × Nat × Msg)) : Prop :=
      let p := (port + 1) % 4
      let m' : Msg := { m with w0 := m.w0 ||| 0x20000 }
      ∃ n, exec (.retryExhausted j) s = .next n ∧ n = { s with mmio := n.mmio, out := n.out, coll := { s.coll with waits := n.coll.waits } } ∧ regsKept [.collCnt] s n ∧ instKept .collCnt 6 s n
        ∧ sentTo s n rank (fun x => x = m') ∧ waits <+: n.coll.waits
        ∧ (hemState s ≠ 3 → pathUp s rank p = true → prioPaused s p s.net.rpri = false →
            n.out = s.out ++ [.net p rank m' (tagOf s p s.net.rpri (qpGid s (qpnOf rank p)))] ∧ n.coll.waits = waits ∧ rf n .collCnt F.collCntCount 6 = min (2 ^ 48 - 1) (rf s .collCnt F.collCntCount 6 + 1))
    let k := j - s.out.length
    (∀ port rank m tag, s.out[j]? = some (.net port rank m tag) → again port rank m s.coll.waits)
    ∧ (∀ port rank m, s.out[j]? = none → s.coll.waits[k]? = some (port, rank, m) → again port rank m (s.coll.waits.eraseIdx k))
    ∧ (s.out[j]? = none → s.coll.waits[k]? = none → exec (.retryExhausted j) s = .next s)
    ∧ (∀ o, s.out[j]? = some o → (∀ port rank m tag, o ≠ .net port rank m tag) → exec (.retryExhausted j) s = .next s))

/-- R332–R334, R339, R340: a pass starts once the prefix of arrived slots has grown enough; the end of the FINAL pass resolves the own shard, or counts a slot as missing; an armed shard's deadline voids it, a led shard's pair deadline voids it to its owner; the twin's contribution over the Seam is kept for the pair. -/
def Obligations.ShardsAndPasses : Prop :=
  ∀ (s : State),
    let me := myRank s
    (∀ b : BitVec 12,
      let k := b.toNat
      let c := cbucket s k
      let slots := slotsOf s
      let t := (btEnt s k).2
      let e := (btEnt s k).1
      let own (n : State) (r : ShardRes) : Prop := tget? (cbucket n k).res me = some r ∧ (∀ i, i ≠ me → tget? (cbucket n k).res i = tget? c.res i) ∧ (∀ d, d ≠ k → cbucket n d = cbucket s d)
        ∧ ∀ i, i < nRanks s → i ≠ me → sentTo s n i (fun m => mType m = 2 ∧ mBucket m = k ∧ mShard m = me ∧ mSrc m = me
            ∧ (mVoid m = true ↔ ∃ x y z, r = .void x y z) ∧ (r = .nonfinite → mNonfin m = true))
      let rest := (List.range slots).filter (fun i => decide (i ∉ c.slots))
      -- a pass starts
      (let arrived := prefixOf s c
       let due : Prop := c.pass = none ∧ c.fin = none ∧ c.stopped = false ∧ ownResolved s k = false ∧ arrived ≠ c.summed ∧ (arrived = slots ∨ c.summed + max 1 (fget s.coll.dlineUse F.collDlinePassmin) ≤ arrived ∨ slots < arrived)
       let pl := translate t collCore (collX t e) (wd e.hold) .store
       (¬due → exec (.ordsumPassStart b) s = .next s)
       ∧ (∀ x, due → pl.1 = .error x → ∃ n, exec (.ordsumPassStart b) s = .next n ∧ cbucket n k = { c with stopped := true } ∧ mkErr 0x65 9 0 0 0 (pack [(0, k), (12, 1), (16, me), (32, 0xFFFF)]) ∈ n.err.detected ∧ n.lining = s.lining)
       ∧ (∀ pa, due → pl.1 = .ok pa →
           let st := (hbmPlace s.ms.gran pa).stack
           let q := lstack s st
           ∃ n ws, exec (.ordsumPassStart b) s = .next n ∧ cbucket n k = { c with pass := some (arrived, decide (arrived = slots)) } ∧ (∀ d, d ≠ k → cbucket n d = cbucket s d)
             ∧ (∀ j, j ≠ st → lstack n j = lstack s j) ∧ bytesKept s n
             ∧ (let entry : LEnt := { desc := 0, own := some (ws, passParam c.summed (arrived - c.summed) slots (decide (c.summed = 0)) (decide (arrived = slots)), genOf s * 4096 + k) }
                lstack n st = if q.queue.length < 256 then { q with queue := q.queue ++ [entry] } else { q with held := q.held ++ [entry] })
             ∧ ldKind ws = 3 ∧ ldAsid ws = e.asid ∧ ldN ws = e.shard % 2 ^ 40 ∧ (ldA ws 0 = holdPay t e % 2 ^ 64 ∧ ldA ws 1 = holdAcc e % 2 ^ 64 ∧ ldA ws 2 = e.hold % 2 ^ 64 ∧ ldA ws 3 = holdOut e % 2 ^ 64)))
      -- the FINAL pass ends
      ∧ (c.fin = none ∨ c.stopped = true → exec (.finalPassComplete b) s = .next s)
      ∧ (∀ code nonfin res0 wclip, c.fin = some (code, nonfin, res0, wclip) → c.stopped = false →
          (code ≠ 0 → code ≠ 5 → ∃ n, exec (.finalPassComplete b) s = .next n ∧ cbucket n k = { c with pass := none, fin := none, slots := c.slots.filter (fun i => decide (i ≠ c.summed)) }
              ∧ mkErr 0x65 9 0 0 0 (pack [(0, k), (12, 2), (16, me), (32, 0xFFFF)]) ∈ n.err.detected ∧ n.out = s.out)
          ∧ (code = 5 ∨ (code = 0 ∧ nonfin = true) → ownResolved s k = false → ∃ n, exec (.finalPassComplete b) s = .next n ∧ own n .nonfinite ∧ (cbucket n k).fin = none ∧ (cbucket n k).summed = slots
              ∧ rf n .collCnt F.collCntCount 0 = min (2 ^ 48 - 1) (rf s .collCnt F.collCntCount 0 + wclip))
          ∧ (code = 0 → nonfin = false → ownResolved s k = false → ∃ n, exec (.finalPassComplete b) s = .next n ∧ (cbucket n k).fin = none ∧ (cbucket n k).summed = slots
              ∧ (own n (.gathered res0) ∨ own n .nonfinite ∨ ((cbucket n k).stopped = true ∧ (cbucket n k).res = c.res))))
      -- the deadline
      ∧ (let due : Prop := c.armed = true ∧ ownResolved s k = false ∧ (rest ≠ [] ∨ c.stopped = true)
         (¬due → exec (.shardDeadlineExpiry b) s = .next s)
         ∧ (due → ∃ n, exec (.shardDeadlineExpiry b) s = .next n
             ∧ own n (.void (rankOfSlot s (if rest = [] then min c.summed (slots - 1) else rest.headD 0)) (max 1 rest.length) (!c.heard))))
      ∧ ∀ shard : BitVec 16,
        let i := shard.toNat
        let due : Prop := pairFirst s = true ∧ leads s i = true ∧ tget? c.mine i ≠ none ∧ tget? c.twins i = none ∧ i ∉ c.led
        (¬due → exec (.pairDeadlineExpiry b shard) s = .next s)
        ∧ (due → i ≠ me → ∃ n, exec (.pairDeadlineExpiry b shard) s = .next n ∧ cbucket n k = { c with led := i :: c.led } ∧ bytesKept s n
            ∧ sentTo s n i (fun m => mType m = 1 ∧ mBucket m = k ∧ mShard m = i ∧ mVoid m = true ∧ mPair m = true ∧ mVoidrank m = twinOf s))
        ∧ (due → i = me → ownResolved s k = false → ∃ n, exec (.pairDeadlineExpiry b shard) s = .next n ∧ i ∈ (cbucket n k).led
            ∧ tget? (cbucket n k).res me = some (if nonfinPosted s = true then .nonfinite else .void (twinOf s) 1 false)))
    ∧ (∀ m : Msg,
      let b := mBucket m
      let got := seamGot s m.payload.length
      let e := (btEnt got b).1
      let t := (btEnt got b).2
      (rf s .seamStat F.seamStatState ≠ 5 → exec (.seamMsg m) s = .next s)
      ∧ (collState s ≠ 5 → exec (.seamMsg m) s = .next got)
      ∧ (collState s = 5 → rf s .seamStat F.seamStatState = 5 → m.w6 ≠ reg s .collJobid → exec (.seamMsg m) s = .next (bumpRf t .collCnt F.collCntCount 1 5))
      ∧ (collState s = 5 → rf s .seamStat F.seamStatState = 5 → recvRule t 1 true e m = .accept → tget? (cbucket s b).mine (mShard m) = none →
          ∃ n, exec (.seamMsg m) s = .next n ∧ tget? (cbucket n b).twins (mShard m) = some (m.payload, mNonfin m) ∧ (1, mSrc m, mShard m) ∈ (cbucket n b).seen ∧ (cbucket n b).res = (cbucket s b).res ∧ n.out = s.out ∧ bytesKept s n))

/-! ## The host endpoint and the root ports (R373–R383, R429) -/

/-- R374–R376, R382, R383, R429: the host link trains, a hot reset stops host DMA; a BAR2 access that nothing on its way holds reads or writes HBM at BAR2BASE, beyond HBM it is an Unsupported Request; a pending MSI-X vector leaves when it is sent; configuration requests retry until the image is applied; SPDM requests are answered; a root link is powered, settles, trains, fails, is removed; its requests are served or refused. -/
def Obligations.HostAndRootLinks : Prop :=
  let win (s : State) : Nat := rf s .devPciewin F.devPciewinBar2base
  let lf (s : State) (f : Fld) (l : Fin 4) : Nat := rf s .rootLinkstat f l.val
  let st (s : State) (l : Fin 4) : Nat := lf s F.rootLinkstatState l
  let pin (name : String) (l : Fin 4) (on : Bool) : Out := .pin (name ++ toString l.val) on
  let own (s n : State) (l : Fin 4) (but : List Fld) : Prop := regsKept [.rootLinkstat] s n ∧ instKept .rootLinkstat l.val s n ∧ fieldsKept .rootLinkstat l.val but s n
  let written (s n : State) (d pa : Nat) (bs : List Byte) : Prop := crossDead s d (dieOf s pa) = false → memorySafe s → bs ≠ [] → (∀ l, pa / 128 ≤ l → l ≤ (pa + bs.length) / 128 → lineDead s l = false) → bytesAt s n pa bs
  -- a path of an engine lost: its channels stop, the one whose burst met it named (R363)
  let lost (s n : State) (e cause : Nat) (met : Option (Nat × Nat)) : Prop :=
    reg n .dmaEngstat e = pack [(0, 1), (1, match met with | some p => chanNo p.1 | none => 0), (6, cause)]
    ∧ (∀ p, met = some p → reg n .dmaErraddr e = wd p.2) ∧ (met = none → reg n .dmaErraddr e = reg s .dmaErraddr e)
    ∧ (∀ j ∈ chansOf e, chState n j = 5 ∧ dmaChan n j = { dmaChan s j with paced := false, run := (dmaChan s j).run.map (fun q => { q with sent := none }) })
    ∧ ((e = 1 → ∀ j, j < 32 → chState s j ≠ 1) → ∀ j, j < 256 → j ∉ chansOf e → chState n j = chState s j ∧ dmaChan n j = dmaChan s j)
  let readsAs (s : State) (pa k : Nat) (bs : List Byte) : Prop := bs.length = k ∧ (crossDead s 2 (dieOf s pa) = false → ∀ i, i < k → bs.getD i 0 = byteAt s (pa + i))
  (∀ s : State, exec .perstDeassert s = .next { s with links := { s.links with hostUp := true } }
    ∧ ∃ n, exec .hotReset s = .next n ∧ n.msix = [] ∧ n.pba = 0 ∧ n.msixEn = false ∧ n.msixMask = false ∧ n.msixDue = [] ∧ win n = win s
      ∧ n.links = { s.links with bar2Gib := 1, doeError := false, maxPayload := 128, maxRead := 512, timeout := 0, aerCor := 0, aerUnc := 0 }
      ∧ lost s n 0 2 (failing s 0 (fun a => decide (dclassAt s a = .win 0))))
  ∧ (∀ (s : State) (off k : Nat) (data : Option (List Byte)),
    let pa := win s * 2 ^ 30 + off
    let len := match data with | some d => d.length | none => k
    (len = 0 ∨ s.links.bar2Gib * 2 ^ 30 < off + len → exec (.bar2Access off k data) s = .next s)
    ∧ (len ≠ 0 → off + len ≤ s.links.bar2Gib * 2 ^ 30 → s.links.bar2Gib ≤ 1024 →
      (0xF000000000 < pa + len → exec (.bar2Access off k data) s = .next (emit (report s (mkErr 0x01 0xFF 0 0 (wd pa) (pack [(8, 2)]))) (.reply "unsupported request" [])))
      ∧ (pa + len ≤ 0xF000000000 → accessHeld s 4 pa len = true → exec (.bar2Access off k data) s = .next (accessStarts s pa len))
      ∧ (∀ d, pa + len ≤ 0xF000000000 → accessHeld s 4 pa len = false → data = some d → ∃ n, exec (.bar2Access off k data) s = .next n ∧ written s n 2 pa d ∧ n.out = s.out)
      ∧ (pa + len ≤ 0xF000000000 → accessHeld s 4 pa len = false → data = none → ∃ n bs bad, exec (.bar2Access off k data) s = .next n ∧ n.out = s.out ++ [.bar2 bs bad] ∧ readsAs s pa k bs ∧ bytesKept s n)))
  ∧ (∀ (s : State) (v : BitVec 8),
    let k := v.toNat
    let masked : Prop := s.msixMask = true ∨ bit (msixWord s (2 * k + 1)) 32 = true
    let message : Out := .msix v (msixWord s (2 * k)) (wd (bits (msixWord s (2 * k + 1)) 31 0))
    let gone : State := { s with msixDue := s.msixDue.filter (fun x => decide (x ≠ k)) }
    (k ∉ s.msixDue → s.msixEn = false ∨ bit s.pba k = false ∨ masked → exec (.msixSend v) s = .next s)
    ∧ (k ∉ s.msixDue → s.msixEn = true → bit s.pba k = true → ¬masked → exec (.msixSend v) s = .next (emit { s with pba := setBit s.pba k false } message))
    ∧ (k ∈ s.msixDue → s.msixEn = false → exec (.msixSend v) s = .next gone)
    ∧ (k ∈ s.msixDue → s.msixEn = true → masked → exec (.msixSend v) s = .next { gone with pba := setBit s.pba k true })
    ∧ (k ∈ s.msixDue → s.msixEn = true → ¬masked → exec (.msixSend v) s = .next (emit gone message)))
  ∧ (∀ (s : State) (q : ConfigReq),
    (rf s .devBoot F.devBootImage = 0 → exec (.configRequest q) s = .next (emit s (.reply "request retry status" [])))
    ∧ (rf s .devBoot F.devBootImage ≠ 0 →
      (∀ a, q = .read a → ∃ bs, bs.length = 4 ∧ exec (.configRequest q) s = .next (emit { s with freeCtr := s.freeCtr + 1 } (.reply "configuration read" bs)))
      ∧ (∀ a v, q = .write a v → exec (.configRequest q) s = .next (emit s (.reply "configuration write" [])))
      ∧ (∀ g, q = .resizeBar2 g → g ∉ [1, 2, 4, 8, 16, 32, 64, 128, 256, 512, 1024] → exec (.configRequest q) s = .next (emit s (.reply "configuration write" [])))
      ∧ (∀ g, q = .resizeBar2 g → g ∈ [1, 2, 4, 8, 16, 32, 64, 128, 256, 512, 1024] → ∃ n, exec (.configRequest q) s = .next n ∧ n = { s with links := { s.links with bar2Gib := g }, mmio := n.mmio, out := s.out ++ [.reply "configuration write" []] }
          ∧ regsKept [.devPciewin] s n ∧ win n = win s / g * g)
      ∧ (∀ en mask, q = .msix en mask → ∃ n, exec (.configRequest q) s = .next n ∧ n = { s with msixEn := en, msixMask := mask, pba := n.pba, out := n.out } ∧ .reply "configuration write" [] ∈ n.out
          ∧ ∀ k, k < 256 → (bit n.pba k = true ↔ bit s.pba k = true ∧ (en = false ∨ mask = true ∨ bit (msixWord s (2 * k + 1)) 32 = true)))
      ∧ (let answers (t : State) (name : String) (bs : List Byte) : Prop := exec (.configRequest q) s = .next (emit t (.reply name bs))
         let links (x : LinksS) : State := { s with links := x }
         (∀ p r c, q = .control p r c → answers (if controlOk p r c = true then links { s.links with maxPayload := p, maxRead := r, timeout := c } else s) "configuration write" [])
         ∧ (q = .controlRead → answers s "configuration read" (leBytes s.links.maxPayload 2 ++ leBytes s.links.maxRead 2 ++ leBytes s.links.timeout 1))
         ∧ (∀ x, q = .doeDiscovery x → answers s "DOE discovery" (if x = 0 then [1, 0, 0, 1] else if x = 1 then [1, 0, 1, 0] else [0xFF, 0xFF, 0xFF, 0]))
         ∧ (q = .doeStatus → answers s "configuration read" [if s.links.doeError = true then 1 else 0])
         ∧ (q = .doeAbort → answers (links { s.links with doeError := false }) "configuration write" [])
         ∧ (∀ x clear, q = .aerStatus true clear → x = s.links.aerUnc → answers (links { s.links with aerUnc := x &&& ~~~clear }) "AER status" (leBytes x.toNat 4))
         ∧ (∀ x clear, q = .aerStatus false clear → x = s.links.aerCor → answers (links { s.links with aerCor := x &&& ~~~clear }) "AER status" (leBytes x.toNat 4))
         ∧ (∀ unc b, q = .error unc b → ∃ e : ErrRec, e.cause = 0x51 ∧ e.d0 = pack [(0, 0xFF), (8, unc.toNat), (32, b.toNat)] ∧ e.cls = (if unc = true then 1 else 0)
             ∧ exec (.configRequest q) s = .next (report (links (if unc = true then { s.links with aerUnc := s.links.aerUnc ||| b } else { s.links with aerCor := s.links.aerCor ||| b })) e)))))
  ∧ (∀ (s : State) (req : List Byte),
    let code := ofLE ((req.drop 1).take 1)
    let tells (name : String) (bs : List Byte) : Prop := exec (.doeSpdmRequest req) s = .next (emit s (.reply name bs))
    (rf s .devBoot F.devBootImage = 0 → exec (.doeSpdmRequest req) s = .next s)
    ∧ (rf s .devBoot F.devBootImage ≠ 0 → 16384 < req.length → exec (.doeSpdmRequest req) s = .next { s with links := { s.links with doeError := true } })
    ∧ (rf s .devBoot F.devBootImage ≠ 0 → req.length ≤ 16384 →
      (code = 0x84 → tells "SPDM VERSION" [0x13]) ∧ (code = 0xE1 → tells "SPDM CAPABILITIES" []) ∧ (code = 0xE3 → tells "SPDM ALGORITHMS Ed25519 SHA-512" [])
      ∧ (code = 0x81 → tells "SPDM DIGESTS" (leBytes (Config.sha512 (chainBytes s 0 0xB0000)).toNat 64))
      ∧ (code = 0x82 → ofLE ((req.drop 2).take 1) % 16 = 0 → tells "SPDM CERTIFICATE" (chainBytes s (ofLE ((req.drop 4).take 2)) (ofLE ((req.drop 6).take 2))))
      ∧ (code = 0x83 → ofLE ((req.drop 2).take 1) % 16 = 0 → tells "SPDM CHALLENGE_AUTH" (leBytes (Config.identitySign req).toNat 64))
      ∧ (code = 0x82 ∨ code = 0x83 → ofLE ((req.drop 2).take 1) % 16 ≠ 0 → tells "SPDM ERROR UnsupportedRequest" [])
      ∧ (code = 0xE0 → ∃ m, m = (measurements s).flatten ∧ (measurements s).length = 7 ∧ tells "SPDM MEASUREMENTS" (m ++ leBytes (Config.identitySign (req ++ m)).toNat 64))
      ∧ (code ∉ [0x81, 0x82, 0x83, 0x84, 0xE0, 0xE1, 0xE3] → tells "SPDM ERROR UnsupportedRequest" [])))
  ∧ (∀ (s : State) (l : Fin 4),
    let k := l.val
    let powers : Prop := s.links.started = true ∧ lf s F.rootLinkstatPower l = 1 ∧ (st s l = 0 ∨ st s l = 4)
    (st s l = 5 → exec (.prsntDebounce l) s = .next s)
    ∧ (st s l ≠ 5 → ¬powers → exec (.prsntDebounce l) s = .next (setRf s .rootLinkstat F.rootLinkstatPresent 1 k))
    ∧ (powers → exec (.prsntDebounce l) s = .next (emit (setRf (setRf s .rootLinkstat F.rootLinkstatPresent 1 k) .rootLinkstat F.rootLinkstatState 1 k) (pin "PWREN" l true)))
    ∧ (st s l ≠ 1 → exec (.powerSettle l) s = .next s)
    ∧ (st s l = 1 → exec (.powerSettle l) s = .next (emit (setRf s .rootLinkstat F.rootLinkstatState 2 k) (pin "ROOT_PERST#" l true)))
    ∧ (st s l ≠ 2 → exec (.rootLinkTrainingFailed l) s = .next s)
    ∧ (st s l = 2 → exec (.rootLinkTrainingFailed l) s = .next (setRf s .rootLinkstat F.rootLinkstatState 4 k))
    ∧ (∀ (rate : BitVec 3) (width : BitVec 4) (cls : BitVec 24) (cmb : Bool),
      let i := Instr.rootLinkUp l rate width cls cmb
      let fits : Prop := rate ≠ 0 ∧ width.toNat ∈ [1, 2, 4, 8] ∧ width.toNat ≤ (if rf s .rootLinkstat F.rootLinkstatState (k / 2 * 2 + 1) = 5 then 8 else 4)
      (st s l ≠ 2 ∨ ¬fits → exec i s = .next s)
      ∧ (st s l = 2 → fits → ∃ n, exec i s = .next n ∧ own s n l [F.rootLinkstatState, F.rootLinkstatRate, F.rootLinkstatWidth] ∧ st n l = 3 ∧ lf n F.rootLinkstatRate l = rate.toNat ∧ lf n F.rootLinkstatWidth l = width.toNat
          ∧ n = { s with mmio := n.mmio, err := n.err, links := n.links, mantle := n.mantle }
          ∧ n.err.detected = s.err.detected ++ (if cls = 0x010802 ∧ cmb = true then [] else [mkErr 0x53 11 k 0 0 (wd k)])
          ∧ (k ∈ n.links.claims ↔ k ∈ s.links.claims ∨ cls = 0x010802) ∧ (k ∈ n.links.cmb ↔ k ∈ s.links.cmb ∨ (cls = 0x010802 ∧ cmb = true))
          ∧ ∀ j, j ≠ k → (j ∈ n.links.claims ↔ j ∈ s.links.claims) ∧ (j ∈ n.links.cmb ↔ j ∈ s.links.cmb)))
    ∧ (st s l = 5 → exec (.surpriseRemoval l) s = .next s)
    ∧ (st s l = 0 → exec (.surpriseRemoval l) s = .next (setRf s .rootLinkstat F.rootLinkstatPresent 0 k))
    ∧ (st s l ∉ [0, 3, 5] → ∃ n, exec (.surpriseRemoval l) s = .next n ∧ own s n l [F.rootLinkstatState, F.rootLinkstatRate, F.rootLinkstatWidth, F.rootLinkstatPresent] ∧ st n l = 0 ∧ lf n F.rootLinkstatPresent l = 0
        ∧ n.out = s.out ++ [pin "PWREN" l false, pin "ROOT_PERST#" l false] ∧ n.err = s.err)
    ∧ (st s l = 3 → ∃ n, exec (.surpriseRemoval l) s = .next n ∧ st n l = 0 ∧ lf n F.rootLinkstatRate l = 0 ∧ lf n F.rootLinkstatWidth l = 0 ∧ lf n F.rootLinkstatRemoved l = 1 ∧ lf n F.rootLinkstatPower l = lf s F.rootLinkstatPower l
        ∧ k ∉ n.links.claims ∧ k ∉ n.links.cmb ∧ pin "PWREN" l false ∈ n.out ∧ pin "ROOT_PERST#" l false ∈ n.out
        ∧ lost s n 1 3 (failing s 1 (fun a => (decide (dclassAt s a = .win 1) || decide (dclassAt s a = .win 2)) && decide (windowLink s a = k)))
        ∧ ∃ e ∈ n.err.detected, e.cause = 0x51 ∧ e.unit = 11 ∧ e.inst = BitVec.ofNat 8 k ∧ e.cls = 1)
    ∧ (let unfed : Prop := ∀ j g, tget? s.mantle.feeds j = some g → g.src = 1 → g.link = k → g.asked ≤ g.filled
       let posts (i : Instr) (x : Nat) : Prop := (unfed → exec i s = .next (emit s (.mantle "root interrupt" (wd (x % 64)))))
         ∧ ∃ n, exec i s = .next n ∧ .mantle "root interrupt" (wd (x % 64)) ∈ n.out ∧ bytesKept s n
       (∀ data : BitVec 32, (st s l ≠ 3 → exec (.rootMsi l data) s = .next s) ∧ (st s l = 3 → posts (.rootMsi l data) data.toNat))
       ∧ ∀ d : List Byte, st s l = 3 → d.length = 4 → posts (.inboundDriveRequest l 0x2000060F000 0 (some d)) (ofLE d))
    ∧ (∀ (addr k : Nat) (data : Option (List Byte)),
      let i := Instr.inboundDriveRequest l addr k data
      let len := match data with | some d => d.length | none => k
      let msi : Prop := addr = 0x2000060F000 ∧ len = 4 ∧ data ≠ none
      (st s l ≠ 3 ∨ len = 0 → exec i s = .next s)
      ∧ (st s l = 3 → len ≠ 0 →
        (memRange s addr len = true → accessHeld s 3 addr len = true → exec i s = .next (accessStarts s addr len))
        ∧ (∀ d, memRange s addr len = true → accessHeld s 3 addr len = false → data = some d → ∃ n, exec i s = .next n ∧ written s n 2 addr d ∧ n.out = s.out)
        ∧ (memRange s addr len = true → accessHeld s 3 addr len = false → data = none → ∃ n bs name, exec i s = .next n ∧ n.out = s.out ++ [.drive l.val name addr bs] ∧ name ∈ ["completion", "completion poisoned"] ∧ readsAs s addr k bs ∧ bytesKept s n)
        ∧ (memRange s addr len = false → ¬msi → ∃ e, e.cause = 0x01 ∧ e.addr = wd addr ∧ e.d0 = pack [(0, 9), (8, l.val)] ∧ exec i s = .next (emit (report s e) (.drive l.val "unsupported request" addr []))))))
  ∧ (∀ (s : State) (a : Agent) (wr : Option (BitVec 32)) (resp : Option (BitVec 32)), takes s a →
    let k := selF s a .rootLinksel F.rootLinkselLink
    let answer := if rf s .rootLinkstat F.rootLinkstatState k = 3 then resp else none
    let failed : State := setRf s .rootLinkstat F.rootLinkstatCfgerr 1 k
    let i := Instr.rootCfgdataAccess a wr resp
    (∀ v, wr = some v → agentTrusted a = false → exec i s = .next s)
    ∧ (∀ v x, wr = some v → agentTrusted a = true → answer = some x → exec i s = .next (emit s (.drive k "configuration write" (reg s .rootCfgaddr 0).toNat (leBytes v.toNat 4))))
    ∧ (∀ v, wr = some v → agentTrusted a = true → answer = none → exec i s = .next failed)
    ∧ (∀ x, wr = none → answer = some x → exec i s = .next (emit s (.value a 0x600018 (x.setWidth 64))))
    ∧ (wr = none → answer = none → exec i s = .next (emit failed (.value a 0x600018 0xFFFFFFFF))))

/-! ## Ethernet, the Seam link, internal links (R384–R393, R457) -/

/-- R315, R384, R386–R388, R390–R392, R457: ports come up and are lost; PFC pauses, CNPs and LLDP neighbours are kept as the rules say; the Seam link polls, trains through its states with 16 lanes and a partner the policy accepts, replays, replaces lanes with its traffic held, is lost; a WRITE lands in TWINAREA or under ACCEPT; internal links that fail their CRC retry, retrain, stop. -/
def Obligations.EthernetAndSeam : Prop :=
  let pf (s : State) (f : Fld) (p : Fin 4) : Nat := rf s .ethPortstat f p.val
  let up (s : State) (p : Fin 4) : Prop := pf s F.ethPortstatState p = 3
  let sf (s : State) (f : Fld) : Nat := rf s .seamStat f
  let part (q : Nat × Nat) : ℚ := q.1 / 2 ^ q.2
  let mac (p : Nat) : List Byte := (leBytes (Config.macBase + BitVec.ofNat 48 p).toNat 6).reverse
  (∀ (s : State) (p : Fin 4),
    let k := p.val
    (s.links.started = false → exec (.ethLinkUp p) s = .next s)
    ∧ (s.links.started = true → ∃ n, exec (.ethLinkUp p) s = .next n ∧ n = { s with mmio := n.mmio, out := n.out, coll := { s.coll with waits := n.coll.waits }, net := { s.net with wait := n.net.wait } } ∧ regsKept [.ethPortstat, .collCnt] s n
        ∧ instKept .ethPortstat k s n ∧ fieldsKept .ethPortstat k [F.ethPortstatState] s n ∧ pf n F.ethPortstatState p = 3 ∧ released s n ∧ unheld s n
        ∧ (∀ q ∈ s.net.hops, q.1 % 4 = k → hopKnown s k q.2 = false → ∃ bs, .frame k "address request" bs ∈ n.out)
        ∧ (s.coll.waits = [] → s.net.wait = [] → (∀ q ∈ s.net.hops, q.1 % 4 = k → hopKnown s k q.2 = true) → n.out = s.out))
    ∧ (¬up s p → exec (.ethLinkLost p) s = .next s)
    ∧ (up s p → exec (.ethLinkLost p) s = .next (report (bumpRf (setRf s .ethPortstat F.ethPortstatState 1 k) .ethPortstat F.ethPortstatFlaps 1 k) (mkErr 0x56 10 k 0 0 (wd k))))
    ∧ (∀ (prio : BitVec 3) (quanta : BitVec 16) (fill : Nat),
      let key := 8 * k + prio.toNat
      let mine : Prop := up s p ∧ (prio.toNat = s.net.rpri ∨ prio.toNat = s.net.cpri)
      let sheds : Prop := 4 ≤ rf s .powerShed F.powerShedStage
      let shown (n : State) : Prop := regsKept [.ethPortstat, .collCnt] s n ∧ instKept .ethPortstat k s n ∧ fieldsKept .ethPortstat k [F.ethPortstatPfcRx, F.ethPortstatPfcTx] s n
        ∧ (pf n F.ethPortstatPfcRx p = 1 ↔ tget? n.net.pfcRx (8 * k + s.net.rpri) ≠ none) ∧ (pf n F.ethPortstatPfcTx p = 1 ↔ 8 * k + s.net.rpri ∈ n.net.pfcTx ∨ sheds)
      let on : Prop := 0x600000 ≤ fill ∨ (key ∈ s.net.pfcTx ∧ 0x400000 < fill)
      (¬mine → exec (.pfcPauseReceived p prio quanta) s = .next s ∧ exec (.pfcAssert p prio fill) s = .next s)
      ∧ (mine → ∃ n, exec (.pfcPauseReceived p prio quanta) s = .next n ∧ n = { s with mmio := n.mmio, out := n.out, coll := { s.coll with waits := n.coll.waits }, net := { s.net with pfcRx := n.net.pfcRx, wait := n.net.wait } } ∧ shown n ∧ released s n ∧ unheld s n
          ∧ ∀ j, tget? n.net.pfcRx j = if j = key then (if quanta = 0 then none else some quanta.toNat) else tget? s.net.pfcRx j)
      ∧ (∃ n, exec (.pfcPauseExpiry p prio) s = .next n ∧ n = { s with mmio := n.mmio, out := n.out, coll := { s.coll with waits := n.coll.waits }, net := { s.net with pfcRx := n.net.pfcRx, wait := n.net.wait } } ∧ shown n ∧ released s n ∧ unheld s n ∧ ∀ j, tget? n.net.pfcRx j = if j = key then none else tget? s.net.pfcRx j)
      ∧ (mine → ∃ n, exec (.pfcAssert p prio fill) s = .next n ∧ n = { s with mmio := n.mmio, out := n.out, net := { s.net with pfcTx := n.net.pfcTx } } ∧ shown n
          ∧ (∀ j, j ∈ n.net.pfcTx ↔ (j = key ∧ on) ∨ (j ≠ key ∧ j ∈ s.net.pfcTx))
          ∧ (on ∨ sheds → n.out = s.out ++ [.frame k "PFC pause" [BitVec.ofNat 8 prio.toNat, 0xFF, 0xFF]]) ∧ (¬on → ¬sheds → n.out = s.out)))
    ∧ (∀ qpn : BitVec 24,
      let q := qpn.toNat
      let ours : Prop := q ∈ s.coll.qps
      let late (t : Option Word) : Prop := ∀ x, t = some x → 1250 ≤ (ioNow s - x).toNat
      let rate (n : State) (r : ℚ) : Prop := part (tget (1, 0) n.net.rates q) = r ∧ ∀ j, j ≠ q → tget (1, 0) n.net.rates j = tget (1, 0) s.net.rates j
      let old := part (tget (1, 0) s.net.rates q)
      (¬(ours ∧ late (tget? s.net.cnpAt q)) → exec (.cnpReceived qpn) s = .next s)
      ∧ (ours → late (tget? s.net.cnpAt q) → ∃ n, exec (.cnpReceived qpn) s = .next n ∧ n = { s with net := { s.net with rates := n.net.rates, cnpAt := tins q (ioNow s) s.net.cnpAt } } ∧ rate n (max (7 / 8 * old) (1 / 64)))
      ∧ (¬ours → exec (.rateRecovery qpn) s = .next s)
      ∧ (ours → ∃ n, exec (.rateRecovery qpn) s = .next n ∧ n = { s with net := { s.net with rates := n.net.rates } } ∧ rate n (min (old + 1 / 16) 1))
      ∧ (let at' := qpPort s q
         let due : Prop := (ours ∨ q = 2) ∧ rf s .ethPortstat F.ethPortstatState at' = 3 ∧ late (tget? s.net.ceAt q)
         (¬due → exec (.ceMarkReceived qpn) s = .next s)
         ∧ (due → ∃ n, exec (.ceMarkReceived qpn) s = .next n ∧ n = { s with out := n.out, net := { s.net with ceAt := tins q (ioNow s) s.net.ceAt, wait := n.net.wait } }
             ∧ left s n at' s.net.cpri (qpGid s q) (.packet at' "CNP" (leBytes q 3).reverse)))
      ∧ (∃ n, exec (.rdmaNonsendRequest p qpn) s = .next (bumpRf n .collCnt F.collCntCount 1 4) ∧ n = { s with out := n.out, net := { s.net with wait := n.net.wait } }
          ∧ left s n k s.net.rpri (qpGid s q) (.packet k "NAK invalid request" (leBytes q 3))))
    ∧ (¬up s p → exec (.lldpSend p) s = .next s)
    ∧ (up s p → exec (.lldpSend p) s = .next (emit s (.frame k "LLDP" ([0x02, 0x07, 0x04] ++ mac 0 ++ [0x04, 0x07, 0x03] ++ mac k
        ++ [0x06, 0x02, 0x00, 0x78, 0x08, 0x0A, 0x4E, 0x31, 0x32, 0x20, 0x70, 0x6F, 0x72, 0x74, 0x20, BitVec.ofNat 8 (0x30 + k), 0x00, 0x00]))))
    ∧ (let changed (t : State) (there : Nat) : State := emit (setRf (setRf t .ethPortstat F.ethPortstatNbr there k) .ethPortstat F.ethPortstatNbrchg 1 k) (.mantle "neighbour" (wd k))
       let gone : State := if tget? s.net.nbrs k = none then s else changed { s with net := { s.net with nbrs := tdel k s.net.nbrs } } 0
       exec (.lldpExpire p) s = .next gone
       ∧ ∀ (chassis port : List Byte) (ttl : BitVec 16),
         let i := Instr.lldpReceive p chassis port ttl
         let t : State := { s with net := { s.net with nbrs := tins k { chassis := chassis, port := port, ttl := ttl, heardAt := ioNow s } s.net.nbrs } }
         let same : Prop := ∃ x, tget? s.net.nbrs k = some x ∧ x.chassis = chassis ∧ x.port = port
         (¬up s p → exec i s = .next s) ∧ (up s p → ttl = 0 → exec i s = .next gone) ∧ (up s p → ttl ≠ 0 → same → exec i s = .next t) ∧ (up s p → ttl ≠ 0 → ¬same → exec i s = .next (changed t 1)))
    ∧ ∀ (target sender : List Byte) (m : BitVec 48) (request : Bool),
      let i := Instr.addressResolutionFrame p target sender m request
      let t : State := { s with net := { s.net with peers := tins k ((tget [] s.net.peers k).filter (fun e => decide (e.1 ≠ sender)) ++ [(sender, m)]) s.net.peers } }
      let asked : Prop := request = true ∧ tget? s.net.gids k = some target
      let u : State := if asked then emit t (.frame k "address resolution" (target ++ mac k ++ sender ++ (leBytes m.toNat 6).reverse)) else t
      (¬up s p → exec i s = .next s)
      ∧ (up s p → ∃ n, exec i s = .next n ∧ n = { u with mmio := n.mmio, out := n.out, coll := { s.coll with waits := n.coll.waits }, net := { t.net with wait := n.net.wait } } ∧ regsKept [.collCnt] s n
          ∧ u.out <+: n.out ∧ released s n ∧ unheld s n ∧ (s.coll.waits = [] → s.net.wait = [] → n = u)))
  ∧ (∀ s : State,
    let st := sf s F.seamStatState
    let polls : Prop := s.links.started = true ∧ st = 0
    let lanes (n : State) (m : BitVec 18) : Prop := n.links.seamGood = m ∧ sf n F.seamStatSpares = ((List.range 18).filter (fun j => bit m j)).length - 16
      ∧ ∀ j, j < 18 → ((sf n F.seamStatGood).testBit j = true ↔ bit m j = true ∧ ((List.range j).filter (fun i => bit m i)).length < 16)
    let retrains (n : State) : Prop := sf n F.seamStatRetrains = min 255 (sf s F.seamStatRetrains + 1)
    let many (m : BitVec 18) := ((List.range 18).filter (fun j => bit m j)).length
    let met := failing s 2 (fun _ => true)
    let active : Prop := st = 5 ∨ s.links.seamHold = true
    let down (n : State) : Prop := sf n F.seamStatState = 0 ∧ sf n F.seamStatGood = 0 ∧ sf n F.seamStatSpares = 0 ∧ sf n F.seamStatAccept = sf s F.seamStatAccept ∧ reg n .seamPeer 0 = 0
      ∧ n.links = { s.links with seamGood := 0, twinArea := 0, seamHold := false, seamWait := [] }
      ∧ (¬active → n.dma = s.dma ∧ n.err = s.err ∧ ∀ j, j < 256 → chState n j = chState s j)
      ∧ (active → reg n .dmaEngstat 2 = pack [(0, 1), (1, match met with | some p => chanNo p.1 | none => 0), (6, 4)] ∧ mkErr 0x55 12 0 0 ∈ n.err.detected
          ∧ ∀ j, j < 256 → if 48 ≤ j ∧ j < 64 then chState n j = 5 ∧ dmaChan n j = { dmaChan s j with paced := false, run := (dmaChan s j).run.map (fun q => { q with sent := none }) }
              else chState n j = chState s j ∧ dmaChan n j = dmaChan s j)
    (¬polls → exec .seamPoll s = .next s)
    ∧ (polls → exec .seamPoll s = .next (setRf (emit s (.seam "poll" 0 [])) .seamStat F.seamStatState 1))
    ∧ (∀ (good : BitVec 18) (serial area : Word),
      let i := Instr.seamTraining good serial area
      let held := s.links.seamHold
      let m := if held = true then good &&& s.links.seamGood else good
      let accepts : Prop := s.boot.partner = 0 ∨ serial.toNat ∈ s.boot.serials
      let fields (n : State) (but : List Fld) : Prop := regsKept [.seamStat] s n ∧ fieldsKept .seamStat 0 but s n
      (st ∉ [1, 2, 3, 4] → exec i s = .next s)
      ∧ (st = 1 → exec i s = .next (setRf s .seamStat F.seamStatState 2))
      ∧ (st = 2 → many m < 16 → ∃ n, exec i s = .next n ∧ down n)
      ∧ (st = 2 → 16 ≤ many m → ∃ n, exec i s = .next n ∧ n = { s with mmio := n.mmio, links := { s.links with seamGood := m } } ∧ fields n [F.seamStatState] ∧ sf n F.seamStatState = 3)
      ∧ (st = 3 → held = true → ∃ n, exec i s = .next n ∧ n = { s with mmio := n.mmio, out := s.out ++ s.links.seamWait, links := { s.links with seamHold := false, seamWait := [], seamTx := n.links.seamTx } }
          ∧ fields n [F.seamStatState, F.seamStatGood, F.seamStatSpares] ∧ lanes n s.links.seamGood ∧ sf n F.seamStatState = 5)
      ∧ (st = 3 → held = false → ∃ n x, exec i s = .next n ∧ n = { s with mmio := n.mmio, out := s.out ++ [.seam "ident" x (leBytes s.boot.twinArea 8)], links := { s.links with seamTrained := true, seamTx := 0, seamRx := 0 } }
          ∧ fields n [F.seamStatState, F.seamStatGood, F.seamStatSpares, F.seamStatRetrains] ∧ lanes n s.links.seamGood ∧ sf n F.seamStatState = 4
          ∧ (s.links.seamTrained = true → retrains n) ∧ (s.links.seamTrained = false → sf n F.seamStatRetrains = sf s F.seamStatRetrains))
      ∧ (st = 4 → ∃ n, exec i s = .next n ∧ n = { s with mmio := n.mmio, links := { s.links with twinArea := area } } ∧ regsKept [.seamStat, .seamPeer] s n ∧ fieldsKept .seamStat 0 [F.seamStatState] s n
          ∧ reg n .seamPeer 0 = serial ∧ (accepts → sf n F.seamStatState = 5) ∧ (¬accepts → sf n F.seamStatState = 6)))
    ∧ (∀ (seq : BitVec 8) (k : Nat),
      let again (n : State) (m : BitVec 18) : Prop := n.links = { s.links with seamGood := m, seamHold := true } ∧ regsKept [.seamStat] s n ∧ fieldsKept .seamStat 0 [F.seamStatState, F.seamStatRetrains] s n ∧ retrains n ∧ sf n F.seamStatState = 2
      (st ≠ 5 → exec (.seamNak seq) s = .next s)
      ∧ (st = 5 → exec (.seamNak seq) s = .next (emit s (.seam "nak" (pack [(0, s.links.seamTx / 640 % 256), (8, (s.links.seamRx / 640 + 255) % 256), (16, 2)]) (leBytes (s.links.seamRx / 640 % 256) 1))))
      ∧ (st ≠ 5 ∨ k = 0 → exec (.seamReplay seq k) s = .next s)
      ∧ (st = 5 → 256 < k → ∃ n, exec (.seamReplay seq k) s = .next n ∧ n = { s with mmio := n.mmio, links := n.links } ∧ again n s.links.seamGood)
      ∧ (st = 5 → 1 ≤ k → k ≤ 256 → exec (.seamReplay seq k) s = .next (report (bumpRf (emit s (.seam "replay" (seq.setWidth 64) (leBytes k 2))) .seamStat F.seamStatReplays k) (mkErr 0x54 12 0 0 0 (wd 0))))
      ∧ ∀ lane : Fin 18,
        let spared : Prop := st = 5 ∧ (sf s F.seamStatGood).testBit lane.val = true ∧ 0 < sf s F.seamStatSpares
        (¬spared → exec (.seamLaneReplace lane) s = .next s)
        ∧ (spared → ∃ n m, exec (.seamLaneReplace lane) s = .next n ∧ n = { s with mmio := n.mmio, links := n.links, err := n.err } ∧ again n m ∧ noted s n (mkErr 0x54 12 0 lane.val 0 (wd lane.val))
            ∧ ∀ j, j < 18 → (bit m j = true ↔ bit s.links.seamGood j = true ∧ j ≠ lane.val)))
    ∧ (st = 0 → exec .seamLinkLoss s = .next s)
    ∧ (st ≠ 0 → ∃ n, exec .seamLinkLoss s = .next n ∧ down n ∧ n.mantle.copy = none
        ∧ (∀ k up', s.mantle.copy = some (k, up') → tget 0 n.mantle.box (256 * k + 2) = 6 ∧ (rf n .mantleMbstat F.mantleMbstatBusy).testBit k = false ∧ (k < 16 → (rf n .mantleMbstat F.mantleMbstatDone).testBit k = true))
        ∧ (s.mantle.copy = none → n.mantle = s.mantle))
    ∧ ∀ (addr : Nat) (data : List Byte) (marks : List Nat),
      let i := Instr.seamWrite addr data marks
      let twin : Prop := s.boot.twinArea ≠ 0 ∧ s.boot.twinArea ≤ addr ∧ addr + data.length ≤ s.boot.twinArea + 0x200000
      let taken : Prop := (twin ∨ sf s F.seamStatAccept = 1) ∧ memRange s addr data.length = true
      (st ≠ 5 ∨ data = [] → exec i s = .next s)
      ∧ (st = 5 → data ≠ [] → taken → accessHeld s 2 addr data.length = true → exec i s = .next (accessStarts s addr data.length))
      ∧ (st = 5 → data ≠ [] → taken → accessHeld s 2 addr data.length = false → s.links.dead = [] → memorySafe s → (∀ l, addr / 128 ≤ l → l ≤ (addr + data.length) / 128 → lineDead s l = false) → ∃ n, exec i s = .next n ∧ bytesAt s n addr data ∧ n.out = s.out)
      ∧ (st = 5 → data ≠ [] → ¬taken → ∃ e, e.cause = 0x01 ∧ e.addr = wd addr ∧ e.d0 = wd 10 ∧ exec i s = .next (report { s with links := { s.links with seamRx := s.links.seamRx + 64 + data.length } } e)))
  ∧ (∀ (s : State) (l : LinkId) (fails : Nat) (ok : Bool),
    let i := Instr.linkCrcFailure l fails ok
    ∃ e d : ErrRec, e.cause = 0x30 ∧ d.cause = 0x31 ∧ d.unit = e.unit ∧ d.inst = e.inst ∧ d.sub = e.sub ∧ (∀ r seg, l = .crossbar r seg → e.unit = 0x22 ∧ e.inst = BitVec.ofNat 8 r.val ∧ e.level = 2)
      ∧ ((∀ r seg, l ≠ .crossbar r seg) → e.unit = 0x23 ∧ e.level = 3 ∧ e.inst = (if l = .wToE then 0 else if l = .wToIo then 1 else 2))
      ∧ (fails < 8 ∨ ok = true → exec i s = .next { s with err := { s.err with detected := s.err.detected ++ List.replicate (min fails 8) e } })
      ∧ (8 ≤ fails → ok = false →
        let t : State := { s with err := { s.err with detected := s.err.detected ++ List.replicate 8 e ++ [d] } }
        ((∀ r seg, l ≠ .crossbar r seg) → exec i s = .next (if l ∈ s.links.dead then t else { t with links := { s.links with dead := l :: s.links.dead } }))
        ∧ (∀ r seg, l = .crossbar r seg → ∃ n, exec i s = .next n ∧ n = { t with mmio := n.mmio, err := n.err, clk := { starting := without r.val s.clk.starting, switching := without r.val s.clk.switching } } ∧ noted t n (mkErr 0x39 0xFF r.val 0)
            ∧ regsKept [.devClk] s n ∧ (rf n .devClk F.devClkRunning).testBit r.val = false ∧ (rf n .devClk F.devClkStopped).testBit r.val = true)))

/-! ## The mailbox (R396–R411) -/

/-- R395–R398, R400, R401, R404, R408, R410, R411: a doorbell makes a slot busy; a command is taken up in its service's turn, answered BUSY before the part is ready, DENIED without its signature, BADARG out of its limits; else it has its effect and answers. -/
def Obligations.MailboxCommands : Prop :=
  (∀ (s : State) (k : Fin 16), takes s .host →
    let reserved : Prop := boxServes s = true ∧ homeLive s 0 = true ∧ (boxOp s k.val = 0 ∨ 0x0E < boxOp s k.val)
    (boxBusy s k.val = true → exec (.mantleMbdoor k) s = .next (report s (mkErr 0x01 1 0 0 0x20000010000 (agentCode s .host))))
    ∧ (boxBusy s k.val = false → (∀ q ∈ s.mantle.queue, 1 ≤ boxOp s q ∧ boxOp s q ≤ 0x0E) →
      ∃ m, m = { s with mmio := m.mmio, mantle := { s.mantle with queue := s.mantle.queue ++ [k.val] } } ∧ regsKept [.mantleMbstat] s m ∧ fieldsKept .mantleMbstat 0 [F.mantleMbstatBusy] s m
        ∧ (∀ j, j < 16 → (boxBusy m j = true ↔ j = k.val ∨ boxBusy s j = true))
        ∧ (¬reserved → exec (.mantleMbdoor k) s = .next m) ∧ (reserved → let m' := if boxSigned s k.val = true then newNonce m else m; ∃ n, exec (.mantleMbdoor k) s = .next n ∧ answered m' n k.val 1 [] ∧ boxFrame m' n)))
  ∧ ∀ (s : State) (slot : Fin 16),
    let k := slot.val
    let stage := rf s .devBoot F.devBootStage
    let all : List (Instr × Nat × Bool × List Nat) := [(.info slot, 0x01, false, [0]), (.reset slot, 0x02, true, [0]), (.netaddr slot, 0x03, false, [48]), (.lldpnbr slot, 0x04, false, [8]), (.runplan slot, 0x05, false, [24]),
      (.feedcfg slot, 0x06, false, [16]), (.userstate slot, 0x07, false, [128]), (.ckpt slot, 0x08, false, [24]), (.restore slot, 0x09, false, [16, 24]), (.drives slot, 0x0A, false, [0]), (.poweravg slot, 0x0B, true, [24]),
      (.twinsend slot, 0x0C, true, [0]), (.twinrecv slot none, 0x0D, true, [0]), (.health slot, 0x0E, false, [0])]
    -- a second CKPT does not wait for the one in progress (R404)
    let turn (op : Nat) : Prop := 6 ≤ stage ∧ stage ≤ 10 ∧ boxNext s k op (decide (op = 0x08) && s.mantle.ckpt.isSome) = true
    let fresh : Prop := (∀ b, s.mantle.copy ≠ some (k, b)) ∧ (∀ c, s.mantle.ckpt = some c → c.box ≠ k) ∧ ∀ r, s.mantle.restore = some r → r.box ≠ k
    let open' (op : Nat) : Prop := stage = 9 ∨ op ∈ [0x01, 0x02, 0x0E]
    let proven : Prop := boxSigned s k = true ∧ boxF s k 8 4 = nonceNow s
      ∧ ∃ key, s.boot.owner = some key ∧ Config.ed25519Verify key (boxBytes s k 0 192 ++ serialOf identityBytes) (BitVec.ofNat 512 (boxF s k 192 64)) = true
    let t : State := if boxSigned s k = true then newNonce s else s
    let formed (lens : List Nat) : Prop := boxF s k 12 4 ∈ lens ∧ boxF s k 2 1 ≤ 1 ∧ boxF s k 3 1 = 0
    let arg (i : Nat) : Nat := boxF s k (16 + 8 * i) 8
    let does (i : Instr) (st : Nat) (res : List Byte) : Prop := ∃ n, exec i s = .next n ∧ answered t n k st res ∧ boxFrame t n
    -- a command that has read memory has left lines in the region caches (R220) and drawn tokens (R255)
    let caches (n : State) : State := { t with ms := { t.ms with rcSets := n.ms.rcSets, rcOut := n.ms.rcOut }, hbm := queued t n }
    let reads (i : Instr) (st : Nat) : Prop := ∃ n, exec i s = .next n ∧ answered t n k st [] ∧ boxFrame (caches n) n
    let read (a n : Nat) : List Byte := (List.range n).map (fun i => byteAt t (a + i))
    let sound (a n : Nat) : Prop := t.err.latent = [] ∧ ∀ l, a / 128 ≤ l → l ≤ (a + n) / 128 → lineDead t l = false
    let ready (i : Instr) : Prop := ∃ c ∈ all, c.1 = i ∧ turn c.2.1 ∧ open' c.2.1 ∧ (c.2.2.1 = true → proven) ∧ formed c.2.2.2
    -- what holds of every command
    (∀ c ∈ all, fresh →
      (¬turn c.2.1 → exec c.1 s = .next s)
      ∧ (turn c.2.1 → ¬open' c.2.1 → does c.1 4 [])
      ∧ (turn c.2.1 → open' c.2.1 → c.2.2.1 = true → ¬proven → does c.1 3 [])
      ∧ (turn c.2.1 → open' c.2.1 → (c.2.2.1 = true → proven) → ¬formed c.2.2.2 → does c.1 2 []))
    -- what each does
    ∧ (fresh →
      (ready (.info slot) → does (.info slot) 0 (leBytes (reg s .devIdent 0).toNat 8 ++ (List.range 40).map (fun i => s.boot.fw.getD (24 + i) 0)
        ++ leBytes (rf s .devBoot F.devBootSlot) 8 ++ leBytes (rf s .mantleCores F.mantleCoresLive) 8))
      ∧ (ready (.reset slot) → ∃ m, answered t m k 0 [] ∧ boxFrame t m ∧ exec (.reset slot) s = .next (startBoot m []))
      ∧ (ready (.netaddr slot) →
        let addr := boxBytes s k 24 16
        let top := if addr.take 12 = List.replicate 10 0 ++ [0xFF, 0xFF] then 32 else 128
        let bad : Prop := 3 < arg 0 ∨ top < boxF s k 40 8
        let set : NetS := { t.net with gids := tins (arg 0) addr t.net.gids, prefixes := tins (arg 0) (boxF s k 40 8) t.net.prefixes, gateways := tins (arg 0) (boxBytes s k 48 16) t.net.gateways }
        (bad → does (.netaddr slot) 2 [])
        ∧ (¬bad → ∃ n, exec (.netaddr slot) s = .next n ∧ answered t n k 0 [] ∧ boxFrame { t with net := set } n))
      ∧ (ready (.lldpnbr slot) →
        let padded (b : List Byte) : List Byte := leBytes (min b.length 80) 2 ++ (List.range 80).map (fun i => b.getD i 0)
        (3 < arg 0 → does (.lldpnbr slot) 2 []) ∧ (arg 0 ≤ 3 → tget? s.net.nbrs (arg 0) = none → does (.lldpnbr slot) 6 [])
        ∧ (∀ b, arg 0 ≤ 3 → tget? s.net.nbrs (arg 0) = some b → does (.lldpnbr slot) 0 (padded b.chassis ++ padded b.port ++ leBytes (b.ttl.toNat - (ioNow s - b.heardAt).toNat / 25000000) 2)))
      ∧ (ready (.runplan slot) →
        let es := (List.range (arg 1)).map (fun j => read (arg 0 + 32 * j) 32)
        let far : Prop := 0xF000000000 < arg 0 + 32 * arg 1 ∨ 2 ^ 48 ≤ arg 2
        (hemState s ≠ 0 → does (.runplan slot) 4 []) ∧ (hemState s = 0 → far → does (.runplan slot) 2 [])
        ∧ (hemState s = 0 → ¬far → sound (arg 0) (32 * arg 1) → (¬(∀ e ∈ es, planOk e = true) → reads (.runplan slot) 2)
          ∧ ((∀ e ∈ es, planOk e = true) → ∃ n, exec (.runplan slot) s = .next n ∧ answered t n k 0 [] ∧ boxFrame { caches n with mantle := { t.mantle with plan := es.map planEnt, stop := arg 2, waiting := [] }, pegs := { t.pegs with watches := tdel runnerKey t.pegs.watches } } n)))
      ∧ (ready (.feedcfg slot) →
        let i := arg 0
        let b := read (arg 1) 64
        let off : Prop := arg 1 = 2 ^ 64 - 1
        let ends (st : Nat) : Prop := does (.feedcfg slot) st []
        (hemState s ≠ 0 → ends 4) ∧ (hemState s = 0 → 7 < i → ends 2)
        ∧ (hemState s = 0 → i ≤ 7 → off → ∃ n, exec (.feedcfg slot) s = .next n ∧ answered t n k 0 [] ∧ (∀ j, tget? n.mantle.feeds j = if j = i then none else tget? s.mantle.feeds j)
            ∧ (∀ f, tget? s.mantle.feeds i = some f → rf n .dmaChctl F.dmaChctlEn (if f.src = 0 then f.ch else 32 + f.ch) = 0) ∧ bytesKept s n)
        ∧ (hemState s = 0 → i ≤ 7 → ¬off → 0xF000000000 < arg 1 + 64 → ends 2)
        ∧ (hemState s = 0 → i ≤ 7 → ¬off → arg 1 + 64 ≤ 0xF000000000 → sound (arg 1) 64 →
          (feedOf b = none → reads (.feedcfg slot) 2) ∧ (∀ f, feedOf b = some f → f.src = 1 → f.link ∉ s.links.cmb → reads (.feedcfg slot) 6)
          ∧ (∀ f, feedOf b = some f → f.src = 0 ∨ f.link ∈ s.links.cmb → ∃ n g, exec (.feedcfg slot) s = .next n ∧ answered t n k 0 [] ∧ tget? n.mantle.feeds i = some g
              ∧ (let ch := if f.src = 0 then f.ch else 32 + f.ch
                 reg n .dmaRing ch = pack [(0, 12), (12, (s.boot.mresv + 0x100000 * (i + 1)) / 4096)] ∧ reg n .dmaPace ch = pack [(0, 1), (2, f.peg), (16, f.nslot - f.per), (40, f.nslot)] ∧ rf n .dmaChctl F.dmaChctlEn ch = 1)
              ∧ (tget? s.mantle.resume i = none → g = { f with filled := g.filled, asked := g.asked })
              ∧ (∀ x c, tget? s.mantle.resume i = some (x, c) → g = { f with cursor := c, c := c, b := x, first := x * f.per, filled := g.filled, asked := g.asked } ∧ x * f.per ≤ g.filled)
              ∧ tget? n.mantle.resume i = none
              ∧ ∀ j, j ≠ i → tget? n.mantle.feeds j = tget? s.mantle.feeds j)))
      ∧ (ready (.userstate slot) → ∃ n, exec (.userstate slot) s = .next n ∧ answered t n k 0 [] ∧ boxFrame { t with mantle := { t.mantle with user := boxBytes s k 16 128 } } n)
      ∧ (ready (.ckpt slot) →
        let b := read (arg 0) (16 * arg 1)
        let bad : Prop := arg 1 = 0 ∨ 256 < arg 1 ∨ 0xF000000000 < arg 0 + 16 * arg 1 ∨ 1 < arg 2
        (s.mantle.ckpt ≠ none → does (.ckpt slot) 4 []) ∧ (s.mantle.ckpt = none → bad → does (.ckpt slot) 2 [])
        ∧ (s.mantle.ckpt = none → ¬bad → sound (arg 0) (16 * arg 1) →
          (rangesOf b = none → reads (.ckpt slot) 2) ∧ (∀ rs, rangesOf b = some rs → activeDrives s = [] → reads (.ckpt slot) 6)
          ∧ (∀ rs, rangesOf b = some rs → activeDrives s ≠ [] → ∃ n, exec (.ckpt slot) s = .next n ∧ n = { caches n with mantle := { t.mantle with ckpt := some { box := k, half := arg 2, manifest := b, ranges := rs, skip := s.mantle.commits.length } } })))
      ∧ (ready (.restore slot) →
        let b := read (arg 0) (16 * arg 1)
        let m := Config.sha512 b
        let named : Option Nat := if boxF s k 12 4 = 24 then some (arg 2) else none
        let bad : Prop := arg 1 = 0 ∨ 256 < arg 1 ∨ 0xF000000000 < arg 0 + 16 * arg 1 ∨ 1 < named.getD 0
        let idle : Prop := hemState s = 0 ∨ hemState s = 4
        (¬idle → does (.restore slot) 4 []) ∧ (idle → bad → does (.restore slot) 2 [])
        ∧ (idle → ¬bad → sound (arg 0) (16 * arg 1) → (rangesOf b = none → reads (.restore slot) 2)
          ∧ (∀ rs h, rangesOf b = some rs →
            let pages := manifestPages rs
            let fs := currentFrames (reg t .devEpoch) t pages
            let held (x : Nat) : Prop := halfStep t m x ≠ none
            let newest : Prop := held h ∧ (∀ x y, h < 2 → halfStep t m h = some x → halfStep t m (1 - h) = some y → y < x ∨ (x = y ∧ h = 0))
            let list := restoreList t m h
            -- the drive that the headers name can be read, and what it holds of the chunk matches its digest
            let sane (p : Nat × Nat) : Prop := p.1 < 4 ∧ (storedAt t p.1 h).damaged = false ∧ rf s .rootLinkstat F.rootLinkstatState p.1 = 3
              ∧ ∃ c, tget? (storedAt t p.1 h).chunks p.2 = some c ∧ tget? (storedAt t p.1 h).digests p.2 = some (Config.sha512 c)
            (named = none → ¬held 0 → ¬held 1 → reads (.restore slot) 6) ∧ (∀ y, named = some y → ¬held y → reads (.restore slot) 6)
            ∧ (h < 2 → (∀ y, named = some y → y = h ∧ held h) → (named = none → newest) →
              (fs.1 = none → ∃ n, exec (.restore slot) s = .next n ∧ answered t n k 6 [] ∧ bytesKept s n)
              ∧ (∀ ps, fs.1 = some ps → (∀ p ∈ list, sane p) → ∃ n, exec (.restore slot) s = .next n ∧ n.mantle.restore = none
                  ∧ answered t n k 0 (leBytes list.length 8 ++ ((List.range (min 21 (ps.length / 512))).map (fun i => ps.getD (512 * i) 0)).flatMap (fun pa => leBytes pa 8)))
              ∧ (∀ ps p rest, fs.1 = some ps → list = p :: rest → ¬sane p → p.1 = 4 ∨ rf s .seamStat F.seamStatState ≠ 5 →
                  ∃ n, exec (.restore slot) s = .next n ∧ n.mantle.restore = none ∧ answered t n k 6 [] ∧ (p.1 < 4 → (storedAt n p.1 h).damaged = true))))))
      ∧ (ready (.drives slot) → does (.drives slot) 0 ((List.range 4).flatMap (fun l => let d := tget {} s.mantle.drives l
          [BitVec.ofNat 8 (rf s .rootLinkstat F.rootLinkstatState l), BitVec.ofNat 8 d.used, BitVec.ofNat 8 d.spare, BitVec.ofNat 8 d.retired.toNat])))
      ∧ (ready (.poweravg slot) →
        let fits : Prop := ∀ i, i < 3 → 100 ≤ arg i ∧ arg i ≤ 3600
        (¬fits → does (.poweravg slot) 2 [])
        ∧ (fits → ∃ n, exec (.poweravg slot) s = .next n ∧ answered t n k 0 [] ∧ boxFrame (setReg t .powerAvglim 0 (pack [(0, arg 0), (16, arg 1), (32, arg 2)])) n))
      ∧ (ready (.health slot) → does (.health slot) 0 (leBytes (reg s .mantleCores 0).toNat 8 ++ leBytes s.mantle.events 8 ++ leBytes ((rf s .errWp F.errWpWp + 2 ^ 32 - rf s .errRp F.errRpRp) % 2 ^ 32) 8
          ++ (List.range 12).map (fun r => BitVec.ofNat 8 (rf s .powerRegstat F.powerRegstatTrim r)) ++ [if rf s .seamStat F.seamStatState = 5 ∧ s.links.twinArea ≠ 0 then 1 else 0] ++ s.mantle.user
          ++ (List.range 8).map (fun i => tget 0xFF s.flash (0x8000 + i))))
      ∧ (ready (.twinsend slot) →
        (hemState s ≠ 0 ∨ s.mantle.copy ≠ none → does (.twinsend slot) 4 []) ∧ (hemState s = 0 → s.mantle.copy = none → rf s .seamStat F.seamStatState ≠ 5 → does (.twinsend slot) 6 [])
        ∧ (hemState s = 0 → s.mantle.copy = none → rf s .seamStat F.seamStatState = 5 → exec (.twinsend slot) s = .next { t with mantle := { t.mantle with copy := some (k, true) } }))
      ∧ (ready (.twinrecv slot none) →
        let busy : Prop := hemState s ≠ 0 ∨ collState s ≠ 0 ∨ s.mantle.feeds ≠ [] ∨ s.mantle.ckpt ≠ none ∨ s.mantle.restore ≠ none ∨ s.mantle.copy ≠ none
        (busy → does (.twinrecv slot none) 4 [])
        ∧ (¬busy → exec (.twinrecv slot none) s = .next { setRf t .seamStat F.seamStatAccept 1 with mantle := { t.mantle with copy := some (k, false) } })))
    -- the end of a copy
    ∧ (s.mantle.copy = some (k, true) → homeLive s 0 = false → exec (.twinsend slot) s = .next s)
    ∧ (s.mantle.copy = some (k, true) → homeLive s 0 = true → ∃ n, exec (.twinsend slot) s = .next n ∧ answered s n k 0 [] ∧ n.mantle.copy = none ∧ (memorySafe s → (∀ l, lineDead s l = false) → n.ms.rc = [] ∧ bytesKept s n)
      ∧ (rf s .seamStat F.seamStatState = 5 → s.links.seamHold = false → .seam "epoch" (reg s .devEpoch) [] ∈ n.out
          ∧ ∀ j, j < 16 → .seamCopy j (n.ms.mem.filter (fun c => decide (c.1 / 0xF00000000 = j))) (n.ms.hbmPoison.filter (fun p => decide (lineBase p.1 / 0xF00000000 = j))) ∈ n.out))
    ∧ (s.mantle.copy = some (k, false) → exec (.twinrecv slot none) s = .next s
      ∧ ∀ e, (hemState s ≠ 0 ∨ homeLive s 0 = false → exec (.twinrecv slot (some e)) s = .next s)
        ∧ (hemState s = 0 → homeLive s 0 = true → ∃ n, exec (.twinrecv slot (some e)) s = .next n ∧ answered s n k 0 [] ∧ n.mantle.copy = none ∧ reg n .devEpoch = e ∧ rf n .seamStat F.seamStatAccept = 0
          ∧ ∀ c, c < 772 → (cell n c).updates = (cell s c).updates ++ [{ epoch := e, step := s.hem.step, discard := false }]))
    ∧ (s.mantle.copy ≠ some (k, false) → ∀ e, exec (.twinrecv slot (some e)) s = .next s)

/-! ## The services on the Mantle (R394–R411) -/

/-- R395, R399, R400, R402, R404–R407, R409, R410: the interrupt-post interface reaches a live cell's thread; Health's tick counts and reads the error ring; a lost core's commands end with RETRY and its services move; the Runner takes a notification, counts batches and starts entries in order, each once its peg has been where it waits for; the Keeper stores chunks with their table and header, scrubs, retires worn drives; the twin's record follows a commit. -/
def Obligations.MantleServices : Prop :=
  let live (s : State) : Nat := rf s .mantleCores F.mantleCoresLive
  (∀ (s : State) (a : Agent) (v : Word), takes s a →
    let f (x : Fld) : Nat := fget v x
    let c := 64 * f F.mantleIrqpostRegion + 8 * f F.mantleIrqpostBlock + f F.mantleIrqpostCell
    let num := f F.mantleIrqpostNum
    let ok : Prop := agentTrusted a = true ∧ 1 ≤ num ∧ num ≤ 11 ∧ f F.mantleIrqpostRegion ≤ 11 ∧ cellRetired s c = false
    (¬ok → exec (.mantleIrqpost a v) s = .next (report s (mkErr 0x01 1 0 0 0x20000010030 (agentCode s a))))
    ∧ (ok → ∃ n, exec (.mantleIrqpost a v) s = .next n ∧ interrupted s n (tidOf c (f F.mantleIrqpostThread)) num))
  ∧ (∀ s : State, (homeLive s 3 = false → exec .mantleHeartTick s = .next s)
    ∧ (homeLive s 3 = true → exec .mantleHeartTick s = .next (setRf (setReg s .mantleHeart 0 (reg s .mantleHeart + 1)) .errRp F.errRpRp (rf s .errWp F.errWpWp)))
    ∧ ∀ core : Fin 4,
      let k := core.val
      let i := Instr.heartbeatLoss core
      let site := s.mantle.sites.getD k k
      let lost (cause : BitVec 8) : ErrRec := mkErr cause 1 0 site 0 (wd site)
      let falls (n : State) : Prop := (∀ j, j < 4 → ((live n).testBit j = true ↔ j ≠ k ∧ (live s).testBit j = true)) ∧ (∀ j, j < 4 → ((rf n .mantleCores F.mantleCoresLost).testBit j = true ↔ j = k ∨ (rf s .mantleCores F.mantleCoresLost).testBit j = true))
        ∧ n.mantle.events = s.mantle.events + 1 ∧ n.mantle.lostSites = site :: s.mantle.lostSites.filter (fun x => decide (x ≠ site))
      ((live s).testBit k = false → exec i s = .next s)
      ∧ (live s = 2 ^ k → ∃ n, exec i s = .next n ∧ n = { s with mmio := n.mmio, err := n.err, repair := n.repair, mantle := { s.mantle with events := s.mantle.events + 1, lostSites := n.mantle.lostSites } } ∧ falls n ∧ n.err.detected = s.err.detected ++ [lost 0x80, lost 0x81])
      ∧ ((live s).testBit k = true → live s ≠ 2 ^ k → s.mantle.home.length = 4 → (∀ j, j < 4 → coreHalted s j = false) → ∃ n, exec i s = .next n ∧ falls n ∧ lost 0x80 ∈ n.err.detected
          ∧ (∀ q ∈ runningOn s k, q < 16 → statusIs n q 5) ∧ (∀ j, j < 4 → (live n).testBit (n.mantle.home.getD j 0) = true)
          ∧ (∀ j, j < 4 → (live n).testBit (s.mantle.home.getD j 0) = true → n.mantle.home.getD j 0 = s.mantle.home.getD j 0) ∧ (s.mantle.home.getD 2 0 = k → n.mantle.ckpt = none ∧ n.mantle.restore = none) ∧ (s.mantle.home.getD 0 0 = k → n.mantle.copy = none)))
  ∧ (∀ s : State,
    let starts (i : Instr) (due : List PlanEnt) : Prop := ∃ n, exec i s = .next n ∧ n.mantle.plan = s.mantle.plan ∧ n.mantle.waiting <:+ due ∧ (∀ e rest, n.mantle.waiting = e :: rest → watchMet n runnerKey = false ∨ agentHeld n (runner n) = true)
    (homeLive s 0 = false → exec .runnerEntryStart s = .next s ∧ exec .runnerNotify s = .next s)
    ∧ (homeLive s 0 = true → starts .runnerEntryStart s.mantle.waiting)
    ∧ (∀ e, homeLive s 0 = true → s.mantle.waiting = [e] → agentHeld s (runner s) = false →
      -- its peg has been where the entry waits for since its turn came
      (∃ w, tget? s.pegs.watches runnerKey = some w ∧ w.met = true) ∨ (tget? s.pegs.watches runnerKey = none ∧ e.wval ≤ pegVal s e.wpeg) →
      let out (also : State → Prop) : Prop := ∃ n, exec .runnerEntryStart s = .next n ∧ n.mantle = { s.mantle with waiting := [] } ∧ also n
      let placed : Prop := e.value % 64 = 0 ∧ e.value < 0xF000000000
      let key := 64 * (e.target % 16) + e.target / 16
      (e.action = 0 → placed → (tqueue s key).length < 128 → out (fun n => tqueue n key = tqueue s key ++ [{ desc := e.value }] ∧ ∀ j, j ≠ key → tqueue n j = tqueue s j))
      ∧ (e.action = 1 → placed → (lstack s e.target).queue.length < 256 → out (fun n => lstack n e.target = { lstack s e.target with queue := (lstack s e.target).queue ++ [{ desc := e.value, agent := some (runner s) }] } ∧ ∀ j, j ≠ e.target → lstack n j = lstack s j))
      ∧ (e.action = 0 ∨ e.action = 1 → ¬placed → out (fun n => ∃ x, x.cause = 0x01 ∧ x.unit = (if e.action = 0 then 0 else 8) ∧ noted s n x))
      ∧ (e.action = 2 → e.value < 2 ^ 63 → noBarrierMet s e.target e.value → out (fun n => pegVal n e.target = e.value ∧ ∀ p, p ≠ e.target → pegVal n p = pegVal s p))
      ∧ (e.action = 3 → postsOpen s = false → out (fun n => n.coll = { s.coll with held := s.coll.held ++ [bits (wd e.target) 11 0] })))
    ∧ (s.hem.notes = [] → exec .runnerNotify s = .next s)
    ∧ (∀ note rest, s.hem.notes = note :: rest → homeLive s 0 = true →
      let on : Option Nat := if note = 16 then some 0 else if note = 17 then some 1 else if note = 18 then some 4 else if note = 1 then some 2 else if note = 4 ∧ s.hem.paired = false then none else some 3
      let still : Prop := s.mantle.plan = [] ∧ s.mantle.waiting = []
      -- the step of the commit that this notification is about (R400)
      let step : BitVec 48 := match s.mantle.commits with | c :: _ => c.1 | [] => s.hem.step
      let stops : Prop := note = 1 ∧ s.mantle.stop ≠ 0 ∧ step.toNat = s.mantle.stop
      starts .runnerNotify (s.mantle.waiting ++ s.mantle.plan.filter (fun e => decide (some e.trig = on)))
      ∧ ∃ n, exec .runnerNotify s = .next n ∧ (¬stops → rest <+: n.hem.notes)
        ∧ (∀ i f, i < 8 → tget? s.mantle.feeds i = some f → ∃ g, tget? n.mantle.feeds i = some g
            ∧ (note = 1 ∨ note = 3 → g = { f with b := f.b + 1, c := (f.cursor + ((f.b + 1) * f.per - f.first) * f.slotBytes) % f.srcLen, filled := g.filled, asked := g.asked }) ∧ (note ≠ 1 → note ≠ 3 → g = f))
        ∧ (note = 1 → n.mantle.twinDue = true ∧ n.mantle.commits = s.mantle.commits.tail) ∧ (note ≠ 1 → n.mantle.twinDue = s.mantle.twinDue ∧ n.mantle.commits = s.mantle.commits)
        ∧ (stops → still → hemState n = 0)
        ∧ (∀ c, note = 1 → s.mantle.ckpt = some c → c.taken = true → n.mantle.ckpt = some { c with commits := c.commits + 1 })
        ∧ (∀ c, note = 1 → s.mantle.ckpt = some c → c.taken = false → 0 < c.skip → n.mantle.ckpt = some { c with skip := c.skip - 1 }) ∧ (note ≠ 1 → n.mantle.ckpt = s.mantle.ckpt)
        ∧ (∀ i f, note = 16 → still → s.mantle.feeds = [(i, f)] → i < 8 → memorySafe s → (∀ l, f.stat / 128 ≤ l → l ≤ (f.stat + 32) / 128 → lineDead s l = false) →
            bytesAt s n f.stat ([f.b, f.b * f.per % f.nslot, (f.b + 1) * f.per % f.nslot, f.c].flatMap (fun w => leBytes w 8)))))
  ∧ (∀ s : State,
    let quiet' : Prop := homeLive s 2 = false ∨ s.mantle.ckpt = none ∨ ∃ c, s.mantle.ckpt = some c ∧ c.taken = false
    (quiet' → exec .keeperChunkStore s = .next s)
    ∧ (∀ c, homeLive s 2 = true → s.mantle.ckpt = some c → c.taken = true →
      let valid (q : State) (l : Nat) : Prop := (storedAt q l c.half).valid = true
      (c.todo = [] → ∃ n, exec .keeperChunkStore s = .next n ∧ n.mantle.ckpt = none ∧ (c.box < 16 → statusIs n c.box 0) ∧ ∀ l ∈ c.drives, valid n l ∧ .drive l "flush" 0 [] ∈ n.out
          ∧ .drive l "write" (halfBase l c.half + 4096) (tableBytes (storedAt s l c.half)) ∈ n.out ∧ .drive l "write" (halfBase l c.half) (headerBytes (storedAt s l c.half) true) ∈ n.out)
      ∧ (∀ x rest, c.todo = x :: rest →
        let l := c.drives.getD (c.k % c.drives.length) 0
        let frames := (c.frames.drop (1024 * x)).take 1024
        (l ∉ activeDrives s → ∃ n, exec .keeperChunkStore s = .next n ∧ n.mantle.ckpt = none ∧ (c.box < 16 → statusIs n c.box 6) ∧ n.mantle.stored = s.mantle.stored)
        ∧ (l ∈ activeDrives s → ∃ n b, exec .keeperChunkStore s = .next n ∧ .drive l "write" (chunkPlace (storedAt s l c.half) l c.half x) b ∈ n.out
            -- of memory, the drives' submission queues alone have changed (R403)
            ∧ (memorySafe s → ∀ a, byteAt n a ≠ byteAt s a → ∃ d, queueArea s d ≤ a ∧ a < queueArea s d + 0x10000) ∧ b.length = 4096 * frames.length ∧ (∀ i, i < b.length → b.getD i 0 = byteAt s (frames.getD (i / 4096) 0 + i % 4096))
            ∧ tget? (storedAt n l c.half).chunks x = some b ∧ tget? (storedAt n l c.half).digests x = some (Config.sha512 b)
            ∧ (rest = [] → n.mantle.ckpt = none ∧ (c.box < 16 → statusIs n c.box 0) ∧ ∀ d ∈ c.drives, valid n d)
            ∧ (∀ y more, rest = y :: more → n.mantle.ckpt = some { c with todo := rest, k := c.k + 1 } ∧ n.mantle.box = s.mantle.box
                ∧ ∀ p, s.boot.kpeg = some p → y < 2 ^ 60 → pegVal n p = if (if c.paired = true then 2 else 1) ≤ c.commits then 4 * y else 2 ^ 63 - 1))))
    ∧ (∀ (l : Fin 4) (half : Fin 2),
      let k := l.val
      let h := half.val
      let x := storedAt s k h
      let readable : Prop := x.valid = true ∧ rf s .rootLinkstat F.rootLinkstatState k = 3 ∧ homeLive s 2 = true
      let asks : Prop := (pairMode s).1 = true ∧ rf s .seamStat F.seamStatState = 5
      let wanted (c : Nat) : List Out := if asks then [.seam "chunk wanted" (wd c) []] else []
      let place (c : Nat) := chunkPlace x k h c
      let others (n : State) : Prop := ∀ i j, j < 2 → 2 * i + j ≠ 2 * k + h → storedAt n i j = storedAt s i j
      let rewritten (i : Instr) (c : Nat) (b : List Byte) (first : List Out) : Prop := ∃ n, exec i s = .next n ∧ n.out = s.out ++ first ++ [.drive k "write" (place c) b]
        ∧ storedAt n k h = { x with chunks := tins c b x.chunks } ∧ others n
      let damaged (i : Instr) (c : Nat) : Prop := ∃ n, exec i s = .next n ∧ n.out = s.out ++ wanted c ∧ storedAt n k h = { x with damaged := true } ∧ others n ∧ mkErr 0x53 11 k 0 0 (wd k) ∈ n.err.detected
      exec (.keeperScrub l half .good) s = .next s
      ∧ (∀ r, ¬readable → exec (.keeperScrub l half r) s = .next s)
      ∧ (∀ c, readable → tget? x.chunks c = none → exec (.keeperScrub l half (.logged c)) s = .next s)
      ∧ (∀ c b, readable → tget? x.chunks c = some b → rewritten (.keeperScrub l half (.logged c)) c b [])
      ∧ (∀ c b, readable → s.links.seamHold = false → asks → tget? x.digests c = some (Config.sha512 b) → rewritten (.keeperScrub l half (.bad c (some b))) c b (wanted c))
      ∧ (∀ c copy, readable → s.links.seamHold = false → (asks → ∀ b, copy = some b → tget? x.digests c ≠ some (Config.sha512 b)) → damaged (.keeperScrub l half (.bad c copy)) c)
      ∧ ∀ (used spare threshold warn : BitVec 8),
        let i := Instr.smartCheck l used spare threshold warn
        let seen : Prop := rf s .rootLinkstat F.rootLinkstatState k = 3 ∧ k ∈ s.links.cmb ∧ homeLive s 2 = true
        let worn : Prop := 95 ≤ used.toNat ∨ spare.toNat < threshold.toNat ∨ ∃ j, j < 8 ∧ j ≠ 1 ∧ bit warn j = true
        let old := tget {} s.mantle.drives k
        let put (out : Bool) : State := { s with mantle := { s.mantle with drives := tins k { old with used := used.toNat, spare := spare.toNat, retired := out } s.mantle.drives } }
        (¬seen → exec i s = .next s) ∧ (seen → worn → exec i s = .next (put true)) ∧ (seen → ¬worn → exec i s = .next (put old.retired)))
    ∧ (s.mantle.twinDue = false ∨ homeLive s 0 = false → exec .twinRecordWrite s = .next s)
    ∧ (s.mantle.twinDue = true → homeLive s 0 = true →
      let none' : State := { s with mantle := { s.mantle with twinDue := false } }
      let guarded : Prop := rf s .seamStat F.seamStatState = 5 ∧ s.links.twinArea ≠ 0
      let seq := s.mantle.twinSeq + 1
      (¬guarded → exec .twinRecordWrite s = .next none')
      ∧ (guarded → s.mantle.user.length = 128 → s.links.seamHold = false →
        let at' := s.links.twinArea + wd (512 * (seq % 2))
        ∃ r : List Byte, exec .twinRecordWrite s = .next { none' with mantle := { none'.mantle with twinSeq := seq }, links := { s.links with seamTx := s.links.seamTx + 576 }, out := s.out ++ [.seam "WRITE" at' (leBytes 512 8), .seamWrite at' r []] }
          ∧ r.length = 512 ∧ r.take 4 = [0x54, 0x57, 0x52, 0x31] ∧ (r.drop 8).take 8 = leBytes seq 8 ∧ (r.drop 16).take 8 = leBytes s.hem.step.toNat 8 ∧ (r.drop 24).take 8 = leBytes (reg s .devEpoch).toNat 8
          ∧ (r.drop 96).take 128 = s.mantle.user ∧ (r.drop 224).take 2 = leBytes (myRank s) 2 ∧ r.drop 448 = leBytes (Config.sha512 (r.take 448)).toNat 64)))

/-! ## Start-up, flash, trust, stops (R412–R431, R447, R448, R484, R485) -/

/-- R412–R431, R448, R467, R484, R485: the eight steps of start-up in order, each from the stage before; only firmware and images that verify boot; a flash command, the slot preference and enrolment do what R414, R428 and R431 say and refuse the rest; a cold boot keeps what lasts; lost power good, clock or rails stop the part. -/
def Obligations.StartUpAndTrust : Prop :=
  let b (s : State) (f : Fld) : Nat := rf s .devBoot f
  let stage (s : State) : Nat := b s F.devBootStage
  let boots (s n : State) : Prop := coldBoot s n [.mantleNonce, .trustIdkey, .devBoot] ∧ stage n = 1 ∧ n.boot.powered = true ∧ n.freeCtr = s.freeCtr + 1 ∧ n.pegs.vals = [] ∧ n.power.down = false
    ∧ ∀ i, i < 4 → reg n .trustIdkey i = wd (Config.identityKey.toNat >>> (64 * i))
  (∀ (s : State) (skew : List Nat), ∃ n, exec (.powerUp skew) s = .next n ∧ boots s n ∧ n.lc = (List.range 13).map (fun i => wd (skew.getD i 0 % 5)))
  ∧ (∀ s : State, ∃ n, exec .resetInAssert s = .next n ∧ coldBoot s n [.mantleNonce, .trustIdkey, .devBoot] ∧ stage n = 0 ∧ n.boot.powered = false ∧ n.freeCtr = s.freeCtr + 1 ∧ n.lc = s.lc ∧ n.pegs.vals = [] ∧ n.power.down = s.power.down)
  ∧ (∀ (s : State) (good : BitVec 5),
    let i := Instr.bootRomStart good
    let goes : Prop := stage s = 1 ∧ s.power.railHold = false ∧ s.power.down = false
    (¬goes → exec i s = .next s)
    ∧ (goes → good = 0 → ∃ n, exec i s = .next n ∧ n = { s with mmio := n.mmio, boot := { s.boot with romSites := 0 } } ∧ regsKept [.devBoot] s n ∧ stage n = 2)
    ∧ (goes → good ≠ 0 → ∃ n, exec i s = .next n ∧ n.boot = { s.boot with romSites := good } ∧ stage n = 3 ∧ rf n .trustPref F.trustPrefSlot = (if tget 0xFF s.flash 0 = 1 then 1 else 0)
        ∧ n.repair = { s.repair with loaded := (newestCopy s).bind (repairCopy s), ents := ((newestCopy s).bind (repairCopy s)).elim [] (fun x => x.ents) }
        ∧ (newestCopy s = none → b n F.devBootRprlost = 1 ∧ n.hbm.retired = []) ∧ (newestCopy s ≠ none → b n F.devBootRprlost = b s F.devBootRprlost ∧ n.hbm = s.hbm) ∧ regsKept [.devBoot, .trustPref] s n))
  ∧ (∀ s : State,
    let p := rf s .trustPref F.trustPrefSlot
    let fails (i : Nat) : Fld := if i = 0 then F.devBootFail0 else F.devBootFail1
    let takes (n : State) (i : Nat) : Prop := stage n = 5 ∧ b n F.devBootSlot = i ∧ b n (fails i) = 0 ∧ n = { s with mmio := n.mmio, boot := { s.boot with image := n.boot.image, fw := n.boot.fw } } ∧ regsKept [.devBoot] s n
    (stage s ≠ 3 → exec .slotVerify s = .next s)
    ∧ (stage s = 3 → ∃ n, exec .slotVerify s = .next n
      ∧ (slotCode s p = 0 → takes n p ∧ b n F.devBootFallback = b s F.devBootFallback)
      ∧ (slotCode s p ≠ 0 → slotCode s (1 - p) = 0 → takes n (1 - p) ∧ b n F.devBootFallback = 1 ∧ b n (fails p) = slotCode s p % 256)
      ∧ (slotCode s p ≠ 0 → slotCode s (1 - p) ≠ 0 → stage n = 11 ∧ b n F.devBootImage = 2 ∧ b n (fails p) = slotCode s p % 256 ∧ b n (fails (1 - p)) = slotCode s (1 - p) % 256 ∧ n = { s with mmio := n.mmio })
      -- nothing boots that does not verify
      ∧ (stage n = 5 → ∃ i, i < 2 ∧ b n F.devBootSlot = i
        ∧ (let head := flashBytes s (0x100000 + i * 0x1000000) 64
           let all := flashBytes s (0x100000 + i * 0x1000000) (ofLE ((head.drop 8).take 4))
           Config.ed25519Verify Config.rootKey (all.take (all.length - 64)) (BitVec.ofNat 512 (ofLE (all.drop (all.length - 64)))) = true
           ∧ n.boot.fw = all.take (all.length - 64) ∧ s.boot.minSvn ≤ ofLE ((head.drop 4).take 2) ∧ b n F.devBootSvn = ofLE ((head.drop 4).take 2))
        ∧ (let img := n.boot.image
           Config.ed25519Verify (s.boot.owner.getD Config.rootKey) (img.take (img.length - 64)) (BitVec.ofNat 512 (ofLE (img.drop (img.length - 64)))) = true ∧ sectionsOk img = true))))
  ∧ (∀ s : State,
    let sec (t o k : Nat) : Nat := ofLE (((sect s.boot.image t).drop o).take k)
    (stage s ≠ 5 → exec .applyEmselImage s = .next s)
    ∧ (stage s = 5 → ∃ n, exec .applyEmselImage s = .next n ∧ stage n = 6 ∧ b n F.devBootImage = 1 ∧ b n F.devBootDebug = sec 7 0 1 % 4
      ∧ n.boot.mincells = sec 1 817 1 ∧ n.boot.mineng = sec 1 818 1 ∧ n.boot.reqstacks = sec 1 820 2 ∧ n.boot.coreSites = sec 1 816 1 ∧ (∀ i, i < 96 → rf n .devBlkmap F.devBlkmapSite i = sec 1 (8 * i) 8 % 2 ^ 32)
      ∧ n.boot.twinArea = sec 2 16 8 ∧ n.boot.mresv = sec 2 24 8 ∧ n.boot.mresvLen = sec 2 32 8 ∧ n.boot.kpeg = some (sec 2 40 2) ∧ pegVal n (sec 2 40 2) = 2 ^ 63 - 1
      ∧ n.ms.gran = (if sec 2 12 1 = 0 then 0x10000 else if sec 2 12 1 = 1 then 0x200000 else 0x1400000000)
      ∧ n.boot.vcw = (List.range 7).map (fun i => max 1 (sec 3 i 1)) ∧ rf n .pegRamp F.pegRampRampStep = sec 4 2 1 % 256 ∧ rf n .devClk F.devClkPin = sec 4 0 2 % 4096
      ∧ n.power.throt = sec 5 146 1 ∧ n.power.trip = sec 5 147 1 ∧ n.power.eol = sec 5 148 1 ∧ n.power.base = sec 5 149 1 ∧ n.power.vmax = sec 5 150 2 ∧ n.power.shed = (List.range 6).map (fun i => sec 5 (140 + i) 1)
      ∧ reg n .powerAvglim 0 = pack [(0, sec 5 132 2), (16, sec 5 134 2), (32, sec 5 136 2)]
      ∧ n.net = { s.net with rpri := sec 6 1 1, cpri := sec 6 2 1, vlan := sec 6 3 2 } ∧ rf n .seamStat F.seamStatAccept = sec 6 7 1 % 2
      ∧ n.boot.partner = sec 7 1 1 ∧ n.boot.serials = (List.range (sec 7 2 1)).map (fun i => sec 7 (8 + 8 * i) 8)
      ∧ reg n .collNum 0 = pack [(0, sec 8 0 1), (8, sec 8 1 1)] ∧ ∀ i, i < 8 → reg n .trustNumdig i = wd ((Config.sha512 (sect s.boot.image 8)).toNat >>> (64 * i))))
  ∧ (∀ (s : State) (cells engines cores rows trims : List Nat),
    let i := Instr.builtInSelfTest cells engines cores rows trims
    let live := (List.range 5).filter (fun x => s.boot.coreSites.testBit x && bit s.boot.romSites x && !cores.contains x && !s.mantle.lostSites.contains x && !recorded s 5 0 x)
    (stage s ≠ 6 → exec i s = .next s)
    ∧ (stage s = 6 → ∃ n, exec i s = .next n ∧ (stage n = 7 ∨ stage n = 10)
      ∧ (stage n = 10 ↔ (∃ k, k < 96 ∧ activeIn n k < s.boot.mincells) ∨ (∃ k, k < 12 ∧ enginesOf n k < s.boot.mineng) ∨ live = [])
      ∧ rf n .mantleCores F.mantleCoresLive = 2 ^ min 4 live.length - 1 ∧ n.mantle.sites = live.take 4
      ∧ (∀ c ∈ n.ms.mem, c.1 < 0xF000000000) ∧ n.ms.bmPoison = [] ∧ (stage n = 7 → ∀ k, k < 12 → rf n .hbmStkstat F.hbmStkstatState k = 1)
      ∧ (∀ r, r < 12 → let old := (s.repair.ents.find? (fun e => decide (e.kind = 6) && decide (e.unit = r))).elim 0 (fun e => e.data.toNat)
          rf n .powerRegstat F.powerRegstatTrim r = min 63 (max old (trims.getD r 0)))))
  ∧ (∀ (s : State) (bad : List (Nat × Nat × Nat)),
    (stage s ≠ 7 → exec (.hbmTraining bad) s = .next s)
    ∧ (stage s = 7 → ∃ n, exec (.hbmTraining bad) s = .next n ∧ (stage n = 8 ∨ stage n = 10) ∧ (stage n = 10 ↔ ∃ k, k < 12 ∧ s.boot.reqstacks.testBit k = true ∧ rf n .hbmStkstat F.hbmStkstatState k = 4)
      ∧ (∀ c ∈ n.ms.mem, 0xF000000000 ≤ c.1) ∧ n.ms.rc = [] ∧ n.ms.rcSets = [] ∧ n.ms.rcOut = [] ∧ n.ms.hbmPoison = [] ∧ n.ms.junk = []))
  ∧ (∀ s : State,
    let lock : Prop := ofLE ((s.boot.fw.drop 6).take 1) % 2 = 1
    (stage s ≠ 8 → exec .linksStart s = .next s)
    ∧ (stage s = 8 → ∃ n, exec .linksStart s = .next n ∧ stage n = 9 ∧ n.links = { s.links with started := true } ∧ (∀ p, p < 4 → rf n .ethPortstat F.ethPortstatState p = 1)
      ∧ n.boot = { s.boot with minSvn := n.boot.minSvn } ∧ tget 0xFF n.flash 1 = BitVec.ofNat 8 n.boot.minSvn ∧ (lock → n.boot.minSvn = max s.boot.minSvn (ofLE ((s.boot.fw.drop 4).take 2))) ∧ (¬lock → n.boot.minSvn = s.boot.minSvn)
      ∧ (∀ l, l < 4 → let f (g : Fld) : Nat := rf s .rootLinkstat g l
          rf n .rootLinkstat F.rootLinkstatState l = if f F.rootLinkstatPower = 1 ∧ f F.rootLinkstatPresent = 1 ∧ (f F.rootLinkstatState = 0 ∨ f F.rootLinkstatState = 4) then 1 else f F.rootLinkstatState)
      ∧ reg n .errRing 0 = (if s.boot.mresvLen = 0 then reg s .errRing 0 else pack [(0, 8), (5, 1), (12, s.boot.mresv / 4096)])))
  ∧ (∀ (s : State) (a : Agent), takes s a →
    let bad (off : Nat) (i : Instr) : Prop := exec i s = .next (report s (mkErr 0x01 16 0 0 (wd (0x20000000000 + off)) (agentCode s a)))
    let fl (q : State) (f : Fld) : Nat := rf q .trustFlctl f
    let at' (q : State) (x : Nat) : Byte := tget 0xFF q.flash x
    (∀ addr : BitVec 26,
      let x := addr.toNat
      let three : List (Nat × Instr) := [(0, .flashRead a addr), (1, .flashProgram a addr), (2, .flashErase a addr)]
      let slot (j : Nat) : Prop := 0x100000 + j * 0x1000000 ≤ x ∧ x < 0x1100000 + j * 0x1000000
      let refused (cmd : Nat) : Prop := x % (if cmd = 2 then 0x10000 else 0x1000) ≠ 0
        ∨ (cmd ≠ 0 ∧ ((0x50000 ≤ x ∧ x < 0x100000) ∨ (a = .host ∧ x < 0x50000) ∨ (b s F.devBootImage ≠ 2 ∧ slot (b s F.devBootSlot))))
      let shows (n : State) (cmd go err : Nat) : Prop := regsKept [.trustFlctl] s n ∧ fl n F.trustFlctlAddr = x ∧ fl n F.trustFlctlCmd = cmd ∧ fl n F.trustFlctlGo = go ∧ fl n F.trustFlctlErr = err
      ∀ c ∈ three,
        (agentTrusted a = false → bad 0xB00000 c.2)
        ∧ (agentTrusted a = true → fl s F.trustFlctlGo = 1 → exec c.2 s = .next s)
        ∧ (agentTrusted a = true → fl s F.trustFlctlGo = 0 → refused c.1 → ∃ n, exec c.2 s = .next n ∧ n = { s with mmio := n.mmio } ∧ shows n c.1 0 1)
        ∧ (agentTrusted a = true → fl s F.trustFlctlGo = 0 → ¬refused c.1 → ∃ n, exec c.2 s = .next n ∧ shows n c.1 1 (fl s F.trustFlctlErr)
          ∧ (c.1 = 0 → n = { s with mmio := n.mmio, boot := { s.boot with flbuf := n.boot.flbuf } } ∧ ∀ j, tget 0 n.boot.flbuf j = if j < 4096 then at' s (x + j) else 0)
          ∧ (c.1 = 1 → n = { s with mmio := n.mmio, flash := n.flash } ∧ ∀ y, at' n y = if x ≤ y ∧ y < x + 4096 then at' s y &&& tget 0 s.boot.flbuf (y - x) else at' s y)
          ∧ (c.1 = 2 → n = { s with mmio := n.mmio, flash := n.flash } ∧ ∀ y, at' n y = if x ≤ y ∧ y < x + 0x10000 then 0xFF else at' s y)))
    ∧ (agentTrusted a = false → bad 0xB00000 (.reboot a)) ∧ (agentTrusted a = true → fl s F.trustFlctlGo = 1 → exec (.reboot a) s = .next s)
    ∧ (agentTrusted a = true → fl s F.trustFlctlGo = 0 → ∃ n, exec (.reboot a) s = .next n ∧ n = { s with mmio := n.mmio } ∧ regsKept [.trustFlctl] s n ∧ fl n F.trustFlctlErr = 1)
    ∧ (∀ v : Word,
      (agentTrusted a = false → bad 0xB00008 (.trustPrefWrite a v) ∧ bad 0xB00010 (.trustEnroll a v))
      ∧ (agentTrusted a = true → ∃ n, exec (.trustPrefWrite a v) s = .next n ∧ n = { s with mmio := n.mmio, flash := n.flash } ∧ regsKept [.trustPref] s n ∧ rf n .trustPref F.trustPrefSlot = bits v 0 0
          ∧ ∀ y, at' n y = if y = 0 then BitVec.ofNat 8 (bits v 0 0) else at' s y)
      ∧ (agentTrusted a = true →
        let buf := (List.range 96).map (fun j => tget 0 s.boot.flbuf j)
        let key : BitVec 256 := BitVec.ofNat 256 (ofLE (buf.take 32))
        let magic : Prop := bits v 31 0 = 0x454E524C
        let proves : Prop := s.boot.owner = none ∧ Config.ed25519Verify key (buf.take 32 ++ serialOf identityBytes) (BitVec.ofNat 512 (ofLE ((buf.drop 32).take 64))) = true
        let err (n : State) : Nat := rf n .trustEnroll F.trustEnrollErr
        ∃ n, exec (.trustEnroll a v) s = .next n ∧ n = { s with mmio := n.mmio, boot := { s.boot with owner := n.boot.owner } } ∧ regsKept [.trustEnroll, .devBoot] s n
          ∧ (magic → proves → n.boot.owner = some key ∧ b n F.devBootOwner = 1 ∧ err n = if bit v 32 = true then 0 else err s)
          ∧ (¬(magic ∧ proves) → n.boot.owner = s.boot.owner ∧ reg n .devBoot 0 = reg s .devBoot 0) ∧ (magic → ¬proves → err n = 1) ∧ (¬magic → err n = if bit v 32 = true then 0 else err s))))
  ∧ (∀ (s : State) (a : Agent), s.power.down = false → mayAccess s a → stage s = 10 ∨ stage s = 11 → agentTrusted a = true → rf s .trustFlctl F.trustFlctlGo = 0 → ∃ n, exec (.reboot a) s = .next n ∧ boots s n)
  ∧ (∀ s : State,
    let holds : Prop := stage s = 1 ∧ s.power.railHold = false ∧ s.power.down = false
    exec .flashCommandDone s = .next (setRf s .trustFlctl F.trustFlctlGo 0)
    ∧ (s.power.down = true → exec .pwrgdDeassert s = .next s ∧ exec .aonclkLoss s = .next s)
    ∧ (s.power.down = false → (∃ n, exec .pwrgdDeassert s = .next n ∧ stopped s n)
      ∧ ∃ n m r, exec .aonclkLoss s = .next n ∧ m = { s with err := m.err, flash := m.flash } ∧ noted s m (mkErr 0x71 13 0 0 0 (wd 0)) ∧ shutdownLogged s m r ∧ stopped m n)
    ∧ (¬holds → exec .railOutOfRange s = .next s) ∧ (holds → exec .railOutOfRange s = .next (emit { s with power := { s.power with railHold := true } } (.pin "SHUTDOWN#" false)))
    ∧ (s.power.railHold = false → exec .railBackInRange s = .next s) ∧ (s.power.railHold = true → exec .railBackInRange s = .next (emit { s with power := { s.power with railHold := false } } (.pin "SHUTDOWN#" true))))

/-! ## The power controller (R432–R453) -/

/-- R433–R448, R451, R482: downward step changes are never refused and take their neighbours along, upward ones keep every limit; REASON names the cause of the lowest step; levers, averages, temperatures, droop and shedding act at their thresholds and let go; a trip or stage 6 shuts the part down; a re-plan raises the trim. -/
def Obligations.PowerControl : Prop :=
  let rg (s : State) (f : Fld) (r : Nat) : Nat := rf s .powerRegstat f r
  let step (s : State) (r : Nat) : Nat := rg s F.powerRegstatStep r
  let temp (s : State) (r : Nat) : Nat := rg s F.powerRegstatTemp r
  let lim (s : State) (r c : Nat) : Nat := tget 15 s.power.lim (16 * r + c)
  let falls (s n : State) : Prop := ∀ r, r < 12 → step n r ≤ step s r
  let rises (s n : State) : Prop := ∀ r, r < 12 → step s r ≤ step n r
  let reasons (n : State) : Prop := ∀ r, r < 12 → ∃ x, (rg n F.powerRegstatReason r, x) ∈ causes n r ∧ ∀ p ∈ causes n r, x ≤ p.2 ∧ (p.2 = x → rg n F.powerRegstatReason r ≤ p.1)
  let frame (s n : State) (but : List RegName) : Prop := n = { s with mmio := n.mmio, power := { s.power with lim := n.power.lim, forcedBy := n.power.forcedBy } } ∧ regsKept (.powerRegstat :: but) s n
    ∧ ∀ r, r < 12 → fieldsKept .powerRegstat r [F.powerRegstatStep, F.powerRegstatReason] s n
  -- one region lowered by a cause; one raised as far as its causes and R437 allow
  let lowered (s n : State) (r top : Nat) (but : List RegName) : Prop := falls s n ∧ step n r ≤ top ∧ reasons n ∧ frame s n but
  let raised (s n : State) (r watts : Nat) (but : List RegName) : Prop := (∀ q, q ≠ r → q < 12 → step n q = step s q) ∧ reasons n ∧ frame s n but
    ∧ (step n r = step s r ∨ (step s r < step n r ∧ step n r = allowed n r ∧ powerAdmits s r (step n r) watts = true))
  let took (s : State) (x : Nat) (r : Nat) : State := setRf s .powerRegstat F.powerRegstatTemp x r
  (∀ (s : State) (r : Fin 12) (target : BitVec 4) (watts : Nat),
    (target.toNat < step s r.val → ∃ n, exec (.stepChange r target watts) s = .next n ∧ lowered s n r.val target.toNat [])
    ∧ (step s r.val ≤ target.toNat → ∃ n, exec (.stepChange r target watts) s = .next n ∧ (∀ q, q ≠ r.val → q < 12 → step n q = step s q) ∧ reasons n ∧ frame s n [] ∧ rises s n ∧ step n r.val ≤ max (step s r.val) (min target.toNat (allowed n r.val))
        ∧ (step s r.val < step n r.val → powerAdmits s r.val (step n r.val) watts = true) ∧ ∀ j, lim n r.val 7 < j → j ≤ 15 → ∃ q ∈ neighbours r.val, nbOk s r.val j q (step s q) = false)
    ∧ ∃ n, exec (.upwardChangeRetry r watts) s = .next n ∧ raised s n r.val watts [])
  ∧ (∀ (s : State) (ch : Fin 16) (p10 p100 : BitVec 16),
    exec (.powerSample ch p10 p100) s = .next (setRf (setRf s .powerChstat F.powerChstatP10 p10.toNat ch.val) .powerChstat F.powerChstatP100 p100.toNat ch.val))
  ∧ (∀ (s : State) (ch : Fin 17),
    let k := ch.val
    let lv (q : State) : Nat := tget 0 q.power.levers k
    let avg (f : Fld) : Nat := if k < 16 then rf s .powerChstat f k else ((List.range 16).map (fun c => rf s .powerChstat f c)).sum
    let tops := s.power.peak.getD k (0, 0)
    let high : Prop := 95 * tops.1 ≤ 100 * avg F.powerChstatP10 ∨ 95 * tops.2 ≤ 100 * avg F.powerChstatP100
    let low : Prop := lv s ≠ 0 ∧ 100 * avg F.powerChstatP10 < 90 * tops.1 ∧ 100 * avg F.powerChstatP100 < 90 * tops.2
    let rs := if k < 12 then [k] else if k = 12 then [0, 1, 2, 3, 4, 5] else if k = 13 then [6, 7, 8, 9, 10, 11] else if k = 16 then List.range 12 else []
    let shown (n : State) (x : Nat) : Prop := lv n = x ∧ (∀ j, j ≠ k → tget 0 n.power.levers j = tget 0 s.power.levers j) ∧ (k < 16 → rf n .powerChstat F.powerChstatLimited k = if x = 0 then 0 else 1)
      ∧ n = { s with mmio := n.mmio, power := { s.power with lim := n.power.lim, forcedBy := n.power.forcedBy, levers := n.power.levers } } ∧ regsKept [.powerRegstat, .powerChstat] s n
    (¬high → exec (.peakLever ch) s = .next s)
    ∧ (high → ∃ n, exec (.peakLever ch) s = .next n ∧ shown n (lv s + 1) ∧ falls s n ∧ ∀ r ∈ rs, step n r ≤ step s r - 1)
    ∧ (¬low → exec (.peakRelease ch) s = .next s)
    ∧ (low → ∃ n, exec (.peakRelease ch) s = .next n ∧ shown n (lv s - 1) ∧ rises s n ∧ ∀ r, r < 12 → r ∉ rs → step n r = step s r))
  ∧ (∀ (s : State) (g : Fin 3) (mean : BitVec 16),
    let fm := if g = 0 then F.powerAvgPkg else if g = 1 then F.powerAvgDiew else F.powerAvgDiee
    let top := rf s .powerAvglim (if g = 0 then F.powerAvglimPkg else if g = 1 then F.powerAvglimDiew else F.powerAvglimDiee)
    let rs := (List.range 12).filter (fun r => decide (g = 0 ∨ (g = 1 ∧ r < 6) ∨ (g = 2 ∧ 6 ≤ r)))
    let t := setRf s .powerAvg fm mean.toNat
    let held (r : Nat) : Prop := r ∈ rs ∧ lim s r 2 < 15
    (mean.toNat < top → exec (.averageLimitDrop g mean) s = .next t)
    ∧ (top ≤ mean.toNat → ∃ n r, exec (.averageLimitDrop g mean) s = .next n ∧ r ∈ rs ∧ lowered t n r (step s r - 1) []
        ∧ ∀ q ∈ rs, step s q < step s r ∨ (step s q = step s r ∧ temp s q < temp s r) ∨ (step s q = step s r ∧ temp s q = temp s r ∧ r ≤ q))
    ∧ (97 * top ≤ 100 * mean.toNat ∨ (∀ r, ¬held r) → exec (.averageLimitRaise g mean) s = .next t)
    ∧ (100 * mean.toNat < 97 * top → (∃ r, held r) → ∃ n r, exec (.averageLimitRaise g mean) s = .next n ∧ held r ∧ raised t n r (rf s .powerChstat F.powerChstatP100 r) [] ∧ lim n r 2 = lim s r 2 + 1
        ∧ ∀ q, held q → step s r < step s q ∨ (step s r = step s q ∧ temp s r < temp s q) ∨ (step s q = step s r ∧ temp s q = temp s r ∧ r ≤ q)))
  ∧ (∀ (s : State) (r : Fin 12) (x : BitVec 7),
    let k := r.val
    let t := took s x.toNat k
    let watts := rf s .powerChstat F.powerChstatP100 k
    (x.toNat < s.power.throt → exec (.thermalThrottle r x) s = .next t)
    ∧ (s.power.throt ≤ x.toNat → ∃ n, exec (.thermalThrottle r x) s = .next n ∧ lowered t n k (step s k - 1) [])
    ∧ (s.power.throt ≤ x.toNat + 3 → exec (.thermalRecovery r x) s = .next t)
    ∧ (x.toNat + 3 < s.power.throt → ∃ n, exec (.thermalRecovery r x) s = .next n ∧ raised t n k watts [] ∧ lim n k 1 = min 15 (lim s k 1 + 1))
    ∧ (x.toNat < s.power.trip ∨ s.power.down = true → exec (.thermalTrip r x) s = .next t)
    ∧ (s.power.trip ≤ x.toNat → s.power.down = false → ∃ n m w, exec (.thermalTrip r x) s = .next n ∧ m = { t with err := m.err, flash := m.flash } ∧ noted t m (mkErr 0x72 13 k 0 0 (wd k)) ∧ shutdownLogged t m w ∧ stopped m n)
    ∧ ∀ (q : Fin 12) (y : BitVec 7),
      let u := took t y.toNat q.val
      let i := Instr.neighbourTemperatureDrop r q x y
      let hot := if y.toNat ≤ x.toNat then k else q.val
      let apart := max x.toNat y.toNat - min x.toNat y.toNat
      let drops : Prop := 30 < apart ∨ (28 < apart ∧ lim s hot 9 < 15)
      (q.val ∉ neighbours k → exec i s = .next u)
      ∧ (q.val ∈ neighbours k → drops → ∃ n, exec i s = .next n ∧ lowered u n hot (step s hot - 1) [])
      ∧ (q.val ∈ neighbours k → ¬drops → apart ≤ 28 → ∃ n, exec i s = .next n ∧ raised u n hot (rf s .powerChstat F.powerChstatP100 hot) [] ∧ lim n hot 9 = 15)
      ∧ (q.val ∈ neighbours k → ¬drops → 28 < apart → exec i s = .next u))
  ∧ (∀ (s : State) (b : Fin 96),
    (b.val ∈ s.power.stretched → exec (.droopStretch b) s = .next s)
    ∧ (b.val ∉ s.power.stretched → exec (.droopStretch b) s = .next (bumpRf { s with power := { s.power with stretched := b.val :: s.power.stretched } } .powerRegstat F.powerRegstatStretch 1 (b.val / 8)))
    ∧ exec (.droopRecovery b) s = .next { s with power := { s.power with stretched := s.power.stretched.filter (fun x => decide (x ≠ b.val)) } })
  ∧ (∀ (s : State) (ch : Fin 16) (sag : BitVec 10), s.power.shed.length = 6 →
    let shed (q : State) (f : Fld) : Nat := rf q .powerShed f
    let old := shed s F.powerShedStage
    let stk (q : State) (k : Nat) : Nat := rf q .hbmStkstat F.hbmStkstatState k
    let t := setRf s .powerChstat F.powerChstatSag sag.toNat ch.val
    -- the pause frames of both priorities on every port that is up
    let pauses : List Out := ((List.range 4).filter (portUp s)).flatMap (fun p => [s.net.rpri, s.net.cpri].map (fun prio => .frame p "PFC pause" [BitVec.ofNat 8 prio, 0xFF, 0xFF]))
    -- a stage entered, from the state q, for a channel at this sag
    let enters (i : Instr) (q : State) (k sg : Nat) : Prop := ∃ n, exec i s = .next n
      ∧ shed n F.powerShedStage = min k 5 ∧ shed n F.powerShedHigh = (if old = 0 then k else max (shed s F.powerShedHigh) k) ∧ shed n F.powerShedEntries = (if old = 0 then min (2 ^ 32 - 1) (shed s F.powerShedEntries + 1) else shed s F.powerShedEntries)
      ∧ falls s n ∧ (k < 3 ∨ 3 ≤ old → ∀ r, r < 12 → step n r = step s r) ∧ (old < 3 → 3 ≤ k → ∀ r, r < 12 → step n r ≤ step s r - 2)
      ∧ (k < 3 → n = { q with mmio := n.mmio }) ∧ (3 ≤ k → mkErr 0x70 13 ch.val 0 0 (pack [(0, k), (8, ch.val), (16, sg)]) ∈ n.err.detected)
      ∧ (∀ j, j < 12 → stk n j = if 5 ≤ k ∧ (stk s j = 2 ∨ stk s j = 3) then 5 else stk s j)
      ∧ (k < 6 → n.power.down = s.power.down ∧ n.links = s.links ∧ n.flash = s.flash ∧ n.out = s.out ++ (if old < 4 ∧ 4 ≤ k then pauses else []))
      ∧ (old < 4 → 4 ≤ k → ∀ p, p < 4 → rf n .ethPortstat F.ethPortstatPfcTx p = 1)
      ∧ (k = 6 → s.power.down = false → n.power.down = true ∧ .pin "SHUTDOWN#" false ∈ n.out ∧ rf n .devBoot F.devBootStage = 0 ∧ mkErr 0x71 13 ch.val 0 0 (wd ch.val) ∈ n.err.detected ∧ ∃ w, shutdownLogged s n w ∧ w.take 1 = [0x71])
    let k := (s.power.shed.filter (fun x => decide (x ≤ sag.toNat))).length
    (k ≤ old → exec (.shedStageEnter ch sag) s = .next t) ∧ (old < k → enters (.shedStageEnter ch sag) t k sag.toNat)
    ∧ (6 ≤ old → exec (.avsNoAck ch) s = .next s) ∧ (old < 6 → enters (.avsNoAck ch) s 6 (rf s .powerChstat F.powerChstatSag ch.val))
    ∧ (let stays : Prop := old = 0 ∨ s.power.down = true ∨ s.power.shed.getD (old - 1) 0 ≤ sag.toNat + 10
       let u := setRf s .powerShed F.powerShedStage (old - 1)
       (stays → exec (.shedStageClear sag) s = .next s)
       ∧ (¬stays → old ≠ 3 → old ≠ 4 → old ≠ 5 → exec (.shedStageClear sag) s = .next u)
       ∧ (¬stays → old = 4 → ∃ n, exec (.shedStageClear sag) s = .next n ∧ mmioFrame [.powerShed, .ethPortstat] s n ∧ shed n F.powerShedStage = 3 ∧ ∀ p, p < 4 →
           fieldsKept .ethPortstat p [F.ethPortstatPfcRx, F.ethPortstatPfcTx] s n ∧ rf n .ethPortstat F.ethPortstatPfcTx p = (s.net.pfcTx.contains (prioKey p s.net.rpri)).toNat)
       ∧ (¬stays → old = 5 → ∃ n, exec (.shedStageClear sag) s = .next n ∧ n = { s with mmio := n.mmio, lining := n.lining, power := { s.power with inMaint := [] } } ∧ regsKept [.powerShed, .hbmStkstat] s n ∧ fieldsKept .powerShed 0 [F.powerShedStage] s n ∧ shed n F.powerShedStage = 4
           ∧ ((∀ j, j < 12 → rf s .hbmStkstat F.hbmStkstatMaint j = 0) → n.lining = s.lining)
           -- a stack that MAINT was left for stage 5 goes back to it
           ∧ ∀ j, j < 12 → (stk s j ≠ 5 → stk n j = stk s j) ∧ (stk s j = 5 → rf s .hbmStkstat F.hbmStkstatMaint j = 0 → stk n j = 2)
             ∧ (stk s j = 5 → rf s .hbmStkstat F.hbmStkstatMaint j = 1 → j ∈ s.power.inMaint → stk n j = 3))
       ∧ (¬stays → old = 3 → ∃ n, exec (.shedStageClear sag) s = .next n ∧ frame s n [.powerShed] ∧ rises s n ∧ shed n F.powerShedStage = 2 ∧ ∀ r, r < 12 → lim n r 8 = 15)))
  ∧ ∀ (s : State) (r : Fin 12) (slack slow : Bool),
    let k := r.val
    let old := rg s F.powerRegstatTrim k
    (slack = false → slow = false → exec (.tunerReplan r slack slow) s = .next s)
    ∧ (slack = true ∨ slow = true → ∃ n, exec (.tunerReplan r slack slow) s = .next n ∧ rg n F.powerRegstatTrim k = min 63 (old + 1) ∧ (∀ q, q ≠ k → q < 12 → rg n F.powerRegstatTrim q = rg s F.powerRegstatTrim q) ∧ falls s n ∧ reasons n
        ∧ n.err.detected = s.err.detected ++ (if old + 1 = s.power.eol then [mkErr 0x73 13 k 0 0 (pack [(0, k), (8, old + 1)])] else [])
        ∧ n = { s with mmio := n.mmio, err := n.err, repair := n.repair, power := { s.power with lim := n.power.lim, forcedBy := n.power.forcedBy } } ∧ regsKept [.powerRegstat, .collPace, .devBoot] s n
        -- a new trim goes into the repair record (R426 kind 6)
        ∧ (let ents := s.repair.ents.filter (fun o => !decide (o.kind = 6 ∧ o.unit = k ∧ o.site = 0))
           (old < 63 → ents.length < 8184 → n.repair = { s.repair with ents := ents ++ [{ kind := 6, unit := k, site := 0, data := wd (old + 1) }], dirty := true })
           ∧ (63 ≤ old ∨ 8184 ≤ ents.length → n.repair = s.repair))
        ∧ (s.power.vf ≠ [] → ∀ j, lim n k 6 < j → j ≤ 15 → s.power.vmax < effMv n k j))

/-! ## The error unit (R455, R459–R464) -/

/-- R455, R460–R464: the error detected first is accepted: it merges with an open merge of its cause and source, or takes the next SEQ and opens one, or goes to the ring, the hold, or is lost; a FATAL one halts the hem; a merge that expires is written; the hold drains in SEQ order; ERR_RING and ERR_INJ accept what R464 allows. -/
def Obligations.ErrorRecords : Prop :=
  let st (s : State) (f : Fld) : Nat := rf s .errStat f
  let used (s : State) : Nat := (rf s .errWp F.errWpWp + 2 ^ 32 - rf s .errRp F.errRpRp) % 2 ^ 32
  let full (s : State) : Prop := 2 ^ rf s .errRing F.errRingLog2n ≤ used s
  let slot (s : State) : Nat := 4096 * rf s .errRing F.errRingBase + 64 * (rf s .errWp F.errWpWp % 2 ^ rf s .errRing F.errRingLog2n)
  let soft (e : ErrRec) : Prop := e.cls = 0 ∨ e.cls = 3
  let bytes (x : Accepted) : List Byte := recordBytes x.er x.seq x.count x.merged x.time x.step
  -- a record of x written to the ring between s and n; WP counts
  let inRing (s n : State) (x : Accepted) : Prop := rf n .errWp F.errWpWp = (rf s .errWp F.errWpWp + 1) % 2 ^ 32 ∧ (memorySafe s → lineDead s (slot s / 128) = false → bytesAt s n (slot s) (bytes x)) ∧ n.err.hold = s.err.hold ∧ n.err.merges = s.err.merges
    ∧ n.err.seq = s.err.seq ∧ regsKept [.errWp, .errInj, .hbmChstat] s n
  let told (n : State) (x : Accepted) : Prop := .mantle "record" (wd x.seq) ∈ n.out
  -- an accepted record goes where R462 says
  let written (s n : State) (x : Accepted) : Prop :=
    let on : Prop := rf s .errRing F.errRingEn = 1
    let toRing : Prop := on ∧ ¬full s ∧ (soft x.er ∨ s.err.hold = [])
    let lost : Prop := (on ∧ soft x.er ∧ full s) ∨ (¬toRing ∧ 64 ≤ s.err.hold.length)
    (toRing → inRing s n x ∧ told n x)
    ∧ (lost → n = bumpRf s .errStat F.errStatLost)
    ∧ (¬toRing → ¬lost → n.err = { s.err with hold := n.err.hold } ∧ st n F.errStatHold = s.err.hold.length + 1 ∧ bytesKept s n ∧ told n x ∧ regsKept [.errStat] s n ∧ fieldsKept .errStat 0 [F.errStatHold] s n
        ∧ ∃ u v, s.err.hold = u ++ v ∧ n.err.hold = u ++ x :: v ∧ (∀ y ∈ u, y.seq ≤ x.seq) ∧ ∀ y rest, v = y :: rest → x.seq < y.seq)
  (∀ s : State,
    (s.err.detected = [] → exec .recordAccept s = .next s)
    ∧ (∀ e rest, s.err.detected = e :: rest →
      let t : State := { s with err := { s.err with detected := rest } }
      let mine (m : Accepted) : Prop := soft e ∧ m.er.cause = e.cause ∧ m.er.unit = e.unit ∧ m.er.inst = e.inst ∧ m.er.sub = e.sub ∧ m.er.threadV = e.threadV ∧ m.er.thread = e.thread
      let x : Accepted := { er := e, seq := s.err.seq, time := ioNow s, step := s.hem.step }
      let t' : State := { t with err := { t.err with seq := (s.err.seq + 1) % 2 ^ 32 } }
      let opens : Prop := soft e ∧ s.err.merges.length < 32
      (∀ u m v, s.err.merges = u ++ m :: v → (∀ y ∈ u, ¬mine y) → mine m → exec .recordAccept s = .next { t with err := { t.err with merges := u ++ { m with count := min 65535 (m.count + 1) } :: v } })
      ∧ ((∀ m ∈ s.err.merges, ¬mine m) → opens → exec .recordAccept s = .next { t' with err := { t'.err with merges := s.err.merges ++ [x] } })
      ∧ ((∀ m ∈ s.err.merges, ¬mine m) → ¬opens → ∃ m, written t' m x ∧ (e.cls ≠ 2 → exec .recordAccept s = .next m)
          ∧ (e.cls = 2 → ∃ n, exec .recordAccept s = .next n ∧ st n F.errStatFatal = 1 ∧ st n F.errStatFcause = (if st s F.errStatFatal = 0 then e.cause.toNat else st s F.errStatFcause)
              ∧ (hemState s = 0 ∨ hemState s = 4 → hemState n = hemState s) ∧ (hemState s ≠ 0 → hemState n = 4)))))
  ∧ (∀ s : State,
    (s.err.merges = [] → exec .mergeExpiry s = .next s)
    ∧ (∀ m rest, s.err.merges = m :: rest → ∃ n, exec .mergeExpiry s = .next n ∧ written { s with err := { s.err with merges := rest } } n { m with merged := true })
    ∧ (s.err.hold = [] ∨ rf s .errRing F.errRingEn = 0 ∨ full s → exec .holdDrain s = .next s)
    ∧ (∀ x rest, s.err.hold = x :: rest → rf s .errRing F.errRingEn = 1 → ¬full s → rest.length ≤ 127 → ∃ n m, exec .holdDrain s = .next n ∧ m = { s with err := { s.err with hold := rest }, mmio := m.mmio } ∧ regsKept [.errStat] s m
        ∧ st m F.errStatHold = rest.length ∧ inRing m n x))
  ∧ ∀ (s : State) (a : Agent) (v : Word), takes s a →
    let bad (off : Nat) (i : Instr) : Prop := exec i s = .next (report s (mkErr 0x01 14 0 0 (wd (0x20000000000 + off)) (agentCode s a)))
    let r (f : Fld) : Nat := rf s .errRing f
    let closed : Prop := r F.errRingEn = 0
    let lg := bits v 4 0
    let fits (base log : Nat) : Prop := 4096 * base + 64 * 2 ^ log ≤ 0xF000000000
    (agentTrusted a = false → bad 0x900000 (.errRingWrite a v) ∧ bad 0x900028 (.errInjGo a v))
    ∧ (agentTrusted a = true →
      (closed → 8 ≤ lg → lg ≤ 16 → ¬fits (bits v 51 12) lg → bad 0x900000 (.errRingWrite a v))
      ∧ (closed → 8 ≤ lg → lg ≤ 16 → fits (bits v 51 12) lg → ∃ n, exec (.errRingWrite a v) s = .next n ∧ mmioFrame [.errRing] s n ∧ rf n .errRing F.errRingLog2n = lg ∧ rf n .errRing F.errRingBase = bits v 51 12 ∧ rf n .errRing F.errRingEn = bits v 5 5)
      ∧ (¬closed → fits (r F.errRingBase) (r F.errRingLog2n) → ∃ n, exec (.errRingWrite a v) s = .next n ∧ mmioFrame [.errRing] s n ∧ fieldsKept .errRing 0 [F.errRingEn] s n ∧ rf n .errRing F.errRingEn = bits v 5 5)
      ∧ (let w := reg s .errInj
         let go : Prop := bit v 0 = true
         let at' (q : State) : Nat := 8 * rf q .errInj F.errInjAddr
         let inside (q : State) : Prop := if rf q .errInj F.errInjTarget = 1 then at' q < 0xF000000000 else 0x10000000000 ≤ at' q ∧ isMemory q (at' q) = true
         let allows (q : State) : Prop := rf s .devBoot F.devBootDebug ≠ 0 ∧ inside q
         ∃ n, exec (.errInjGo a v) s = .next n ∧ n = { s with mmio := n.mmio, err := { s.err with armed := n.err.armed } } ∧ regsKept [.errInj] s n ∧ rf n .errInj F.errInjAddr = fget v F.errInjAddr
           ∧ (¬go → n.err.armed = s.err.armed ∧ bit (reg n .errInj) 0 = bit w 0)
           ∧ (go → (n.err.armed = true ∧ bit (reg n .errInj) 0 = true) ∨ (n.err.armed = s.err.armed ∧ bit (reg n .errInj) 62 = true ∧ bit (reg n .errInj) 0 = bit w 0))
           ∧ (go → allows n → n.err.armed = true ∧ bit (reg n .errInj) 0 = true) ∧ (go → ¬allows n → bit (reg n .errInj) 62 = true)))
end

