-- ==== Sys2Proof/Laws/Table.lean ====
section
/-! SUPPORT. Laws of the sparse tables: reading after writing, what a write leaves alone, the canonical form kept. -/

namespace Sys2Proof.Machine

variable {α : Type}

@[simp] theorem tget?_nil (k : Nat) : tget? ([] : Table α) k = none := rfl

theorem tget?_tins_same (k : Nat) (v : α) (t : Table α) : tget? (tins k v t) k = some v := by
  induction t with
  | nil => simp [tins, tget?]
  | cons p t ih =>
    obtain ⟨a, x⟩ := p
    simp only [tins]
    split
    · simp [tget?]
    · split
      · simp [tget?]
      · simp [tget?, *]

theorem tget?_tins_other {k j : Nat} (h : j ≠ k) (v : α) (t : Table α) : tget? (tins k v t) j = tget? t j := by
  induction t with
  | nil => simp [tins, tget?, Ne.symm h]
  | cons p t ih =>
    obtain ⟨a, x⟩ := p
    simp only [tins]
    split
    · simp [tget?, Ne.symm h]
    · split
      · subst_vars; simp [tget?, Ne.symm h]
      · simp [tget?, ih]

theorem tget?_tins (k j : Nat) (v : α) (t : Table α) : tget? (tins k v t) j = if j = k then some v else tget? t j := by
  split
  · subst_vars; exact tget?_tins_same ..
  · exact tget?_tins_other ‹_› ..

theorem tget_tins (d : α) (k j : Nat) (v : α) (t : Table α) : tget d (tins k v t) j = if j = k then v else tget d t j := by
  simp only [tget, tget?_tins]; split <;> simp

@[simp] theorem tget_tins_same (d : α) (k : Nat) (v : α) (t : Table α) : tget d (tins k v t) k = v := by simp [tget_tins]

theorem tget?_tdel (k j : Nat) (t : Table α) : tget? (tdel k t) j = if j = k then none else tget? t j := by
  induction t with
  | nil => simp [tdel, tget?]
  | cons p t ih =>
    obtain ⟨a, x⟩ := p
    simp only [tdel]
    by_cases h : a = k
    · simp only [h, if_true, ih, tget?]
      by_cases hj : j = k
      · simp [hj]
      · simp [hj, Ne.symm hj]
    · simp only [h, if_false, tget?, ih]
      by_cases hj : a = j
      · have : j ≠ k := hj ▸ h
        simp [hj, this]
      · simp [hj]

theorem tget_tdel (d : α) (k j : Nat) (t : Table α) : tget d (tdel k t) j = if j = k then d else tget d t j := by
  simp only [tget, tget?_tdel]; split <;> simp

/-- A read after a write: the written key gives the value, every other key what it gave. -/
theorem tget_tset [DecidableEq α] (d : α) (t : Table α) (k j : Nat) (v : α) :
    tget d (tset d t k v) j = if j = k then v else tget d t j := by
  unfold tset; split
  · rw [tget_tdel, ‹v = d›]
  · exact tget_tins ..

@[simp] theorem tget_tset_same [DecidableEq α] (d : α) (t : Table α) (k : Nat) (v : α) : tget d (tset d t k v) k = v := by
  simp [tget_tset]

theorem tget_tset_other [DecidableEq α] (d : α) (t : Table α) {k j : Nat} (h : j ≠ k) (v : α) :
    tget d (tset d t k v) j = tget d t j := by simp [tget_tset, h]

/-! ## The order of keys -/

theorem tsortedFrom_weaken {lo hi : Nat} (h : lo ≤ hi) {t : Table α} (ht : tsortedFrom (some hi) t = true) :
    tsortedFrom (some lo) t = true := by
  cases t with
  | nil => rfl
  | cons p t => simp [tsortedFrom] at ht ⊢; exact ⟨by omega, ht.2⟩

theorem tsortedFrom_none {lo : Option Nat} {t : Table α} (ht : tsortedFrom lo t = true) : tsortedFrom none t = true := by
  cases t with
  | nil => rfl
  | cons p t => simp [tsortedFrom] at ht ⊢; exact ht.2

theorem tins_sortedFrom (lo : Option Nat) (k : Nat) (v : α) (t : Table α) (ht : tsortedFrom lo t = true)
    (hk : ∀ l, lo = some l → l < k) : tsortedFrom lo (tins k v t) = true := by
  induction t generalizing lo with
  | nil => cases lo <;> simp_all [tins, tsortedFrom]
  | cons p t ih =>
    obtain ⟨a, x⟩ := p
    simp only [tsortedFrom, Bool.and_eq_true] at ht
    simp only [tins]
    split
    · simp only [tsortedFrom, Bool.and_eq_true]
      refine ⟨?_, by simpa using ‹k < a›, ht.2⟩
      cases lo <;> simp_all
    · split
      · subst_vars; simp only [tsortedFrom, Bool.and_eq_true]; exact ht
      · simp only [tsortedFrom, Bool.and_eq_true]
        exact ⟨ht.1, ih (some a) ht.2 (by intro l hl; cases hl; omega)⟩

/-- An entry written keeps the keys strictly rising. -/
theorem tins_sorted (k : Nat) (v : α) (t : Table α) (ht : tsortedFrom none t = true) : tsortedFrom none (tins k v t) = true :=
  tins_sortedFrom none k v t ht (by simp)

theorem tdel_sortedFrom (lo : Option Nat) (k : Nat) (t : Table α) (ht : tsortedFrom lo t = true) : tsortedFrom lo (tdel k t) = true := by
  induction t generalizing lo with
  | nil => simp [tdel, tsortedFrom]
  | cons p t ih =>
    obtain ⟨a, x⟩ := p
    simp only [tsortedFrom, Bool.and_eq_true] at ht
    simp only [tdel]
    split
    · apply ih
      cases lo with
      | none => exact tsortedFrom_none ht.2
      | some l => exact tsortedFrom_weaken (by have := ht.1; simp at this; omega) ht.2
    · simp only [tsortedFrom, Bool.and_eq_true]
      exact ⟨ht.1, ih (some a) ht.2⟩

/-- An entry removed keeps the keys strictly rising. -/
theorem tdel_sorted (k : Nat) (t : Table α) (ht : tsortedFrom none t = true) : tsortedFrom none (tdel k t) = true :=
  tdel_sortedFrom none k t ht

theorem tset_sorted [DecidableEq α] (d : α) (t : Table α) (k : Nat) (v : α) (ht : tsortedFrom none t = true) :
    tsortedFrom none (tset d t k v) = true := by
  unfold tset; split
  · exact tdel_sorted k t ht
  · exact tins_sorted k v t ht

theorem tfilter_sortedFrom (lo : Option Nat) (p : Nat × α → Bool) (t : Table α) (ht : tsortedFrom lo t = true) :
    tsortedFrom lo (t.filter p) = true := by
  induction t generalizing lo with
  | nil => simp [tsortedFrom]
  | cons q t ih =>
    obtain ⟨a, x⟩ := q
    simp only [tsortedFrom, Bool.and_eq_true] at ht
    rw [List.filter_cons]
    split
    · simp only [tsortedFrom, Bool.and_eq_true]; exact ⟨ht.1, ih (some a) ht.2⟩
    · apply ih
      cases lo with
      | none => exact tsortedFrom_none ht.2
      | some l => exact tsortedFrom_weaken (by have := ht.1; simp at this; omega) ht.2

/-- A filter keeps the keys strictly rising. -/
theorem tfilter_sorted (p : Nat × α → Bool) (t : Table α) (ht : tsortedFrom none t = true) : tsortedFrom none (t.filter p) = true :=
  tfilter_sortedFrom none p t ht

/-! ## The canonical form -/

theorem tins_all (p : Nat × α → Bool) (k : Nat) (v : α) (t : Table α) (ht : t.all p = true) (hv : p (k, v) = true) :
    (tins k v t).all p = true := by
  induction t with
  | nil => simp [tins, hv]
  | cons q t ih =>
    obtain ⟨a, x⟩ := q
    simp only [List.all_cons, Bool.and_eq_true] at ht
    simp only [tins]
    split
    · simp [hv, ht.1, ht.2]
    · split
      · subst_vars; simp [hv, ht.2]
      · simp [ht.1, ih ht.2]

theorem tdel_all (p : Nat × α → Bool) (k : Nat) (t : Table α) (ht : t.all p = true) : (tdel k t).all p = true := by
  induction t with
  | nil => simp [tdel]
  | cons q t ih =>
    obtain ⟨a, x⟩ := q
    simp only [List.all_cons, Bool.and_eq_true] at ht
    simp only [tdel]
    split
    · exact ih ht.2
    · simp [ht.1, ih ht.2]

/-- A written table keeps its canonical form. -/
theorem tset_canon [DecidableEq α] (d : α) (t : Table α) (k : Nat) (v : α) (ht : tcanon d t = true) : tcanon d (tset d t k v) = true := by
  simp only [tcanon, Bool.and_eq_true] at ht ⊢
  refine ⟨tset_sorted d t k v ht.1, ?_⟩
  unfold tset; split
  · exact tdel_all _ _ _ ht.2
  · exact tins_all _ _ _ _ ht.2 (by simpa using ‹¬v = d›)

/-- A filtered table keeps its canonical form. -/
theorem tfilter_canon [DecidableEq α] (d : α) (p : Nat × α → Bool) (t : Table α) (ht : tcanon d t = true) : tcanon d (t.filter p) = true := by
  simp only [tcanon, Bool.and_eq_true] at ht ⊢
  refine ⟨tfilter_sorted p t ht.1, ?_⟩
  simp only [List.all_eq_true] at ht ⊢
  intro x hx; exact ht.2 x (List.mem_of_mem_filter hx)

end Sys2Proof.Machine
end

