-- ==== Sys2Proof/Laws/State.lean ====
section
/-! SUPPORT. What each of the smallest operations over State leaves alone, one lemma a field; and what reading gives after them. -/

namespace Sys2Proof.Machine

@[simp] theorem setThread_pending (s : State) (t : Tid) (x : Thread) : (setThread s t x).pending = s.pending := rfl
@[simp] theorem setThread_cells (s : State) (t : Tid) (x : Thread) : (setThread s t x).cells = s.cells := rfl
@[simp] theorem setThread_ms (s : State) (t : Tid) (x : Thread) : (setThread s t x).ms = s.ms := rfl
@[simp] theorem setThread_mmio (s : State) (t : Tid) (x : Thread) : (setThread s t x).mmio = s.mmio := rfl
@[simp] theorem setThread_sel (s : State) (t : Tid) (x : Thread) : (setThread s t x).sel = s.sel := rfl
@[simp] theorem setThread_err (s : State) (t : Tid) (x : Thread) : (setThread s t x).err = s.err := rfl
@[simp] theorem setThread_pegs (s : State) (t : Tid) (x : Thread) : (setThread s t x).pegs = s.pegs := rfl
@[simp] theorem setThread_tasks (s : State) (t : Tid) (x : Thread) : (setThread s t x).tasks = s.tasks := rfl
@[simp] theorem setThread_dma (s : State) (t : Tid) (x : Thread) : (setThread s t x).dma = s.dma := rfl
@[simp] theorem setThread_dmaLast (s : State) (t : Tid) (x : Thread) : (setThread s t x).dmaLast = s.dmaLast := rfl
@[simp] theorem setThread_hem (s : State) (t : Tid) (x : Thread) : (setThread s t x).hem = s.hem := rfl
@[simp] theorem setThread_lining (s : State) (t : Tid) (x : Thread) : (setThread s t x).lining = s.lining := rfl
@[simp] theorem setThread_coll (s : State) (t : Tid) (x : Thread) : (setThread s t x).coll = s.coll := rfl
@[simp] theorem setThread_power (s : State) (t : Tid) (x : Thread) : (setThread s t x).power = s.power := rfl
@[simp] theorem setThread_net (s : State) (t : Tid) (x : Thread) : (setThread s t x).net = s.net := rfl
@[simp] theorem setThread_links (s : State) (t : Tid) (x : Thread) : (setThread s t x).links = s.links := rfl
@[simp] theorem setThread_mantle (s : State) (t : Tid) (x : Thread) : (setThread s t x).mantle = s.mantle := rfl
@[simp] theorem setThread_boot (s : State) (t : Tid) (x : Thread) : (setThread s t x).boot = s.boot := rfl
@[simp] theorem setThread_repair (s : State) (t : Tid) (x : Thread) : (setThread s t x).repair = s.repair := rfl
@[simp] theorem setThread_clk (s : State) (t : Tid) (x : Thread) : (setThread s t x).clk = s.clk := rfl
@[simp] theorem setThread_bm (s : State) (t : Tid) (x : Thread) : (setThread s t x).bm = s.bm := rfl
@[simp] theorem setThread_hbm (s : State) (t : Tid) (x : Thread) : (setThread s t x).hbm = s.hbm := rfl
@[simp] theorem setThread_flash (s : State) (t : Tid) (x : Thread) : (setThread s t x).flash = s.flash := rfl
@[simp] theorem setThread_msix (s : State) (t : Tid) (x : Thread) : (setThread s t x).msix = s.msix := rfl
@[simp] theorem setThread_pba (s : State) (t : Tid) (x : Thread) : (setThread s t x).pba = s.pba := rfl
@[simp] theorem setThread_msixDue (s : State) (t : Tid) (x : Thread) : (setThread s t x).msixDue = s.msixDue := rfl
@[simp] theorem setThread_msixEn (s : State) (t : Tid) (x : Thread) : (setThread s t x).msixEn = s.msixEn := rfl
@[simp] theorem setThread_msixMask (s : State) (t : Tid) (x : Thread) : (setThread s t x).msixMask = s.msixMask := rfl
@[simp] theorem setThread_lc (s : State) (t : Tid) (x : Thread) : (setThread s t x).lc = s.lc := rfl
@[simp] theorem setThread_out (s : State) (t : Tid) (x : Thread) : (setThread s t x).out = s.out := rfl
@[simp] theorem setThread_freeCtr (s : State) (t : Tid) (x : Thread) : (setThread s t x).freeCtr = s.freeCtr := rfl

@[simp] theorem modThread_pending (s : State) (t : Tid) (f : Thread → Thread) : (modThread s t f).pending = s.pending := rfl
@[simp] theorem modThread_cells (s : State) (t : Tid) (f : Thread → Thread) : (modThread s t f).cells = s.cells := rfl
@[simp] theorem modThread_ms (s : State) (t : Tid) (f : Thread → Thread) : (modThread s t f).ms = s.ms := rfl
@[simp] theorem modThread_mmio (s : State) (t : Tid) (f : Thread → Thread) : (modThread s t f).mmio = s.mmio := rfl
@[simp] theorem modThread_sel (s : State) (t : Tid) (f : Thread → Thread) : (modThread s t f).sel = s.sel := rfl
@[simp] theorem modThread_err (s : State) (t : Tid) (f : Thread → Thread) : (modThread s t f).err = s.err := rfl
@[simp] theorem modThread_pegs (s : State) (t : Tid) (f : Thread → Thread) : (modThread s t f).pegs = s.pegs := rfl
@[simp] theorem modThread_tasks (s : State) (t : Tid) (f : Thread → Thread) : (modThread s t f).tasks = s.tasks := rfl
@[simp] theorem modThread_dma (s : State) (t : Tid) (f : Thread → Thread) : (modThread s t f).dma = s.dma := rfl
@[simp] theorem modThread_dmaLast (s : State) (t : Tid) (f : Thread → Thread) : (modThread s t f).dmaLast = s.dmaLast := rfl
@[simp] theorem modThread_hem (s : State) (t : Tid) (f : Thread → Thread) : (modThread s t f).hem = s.hem := rfl
@[simp] theorem modThread_lining (s : State) (t : Tid) (f : Thread → Thread) : (modThread s t f).lining = s.lining := rfl
@[simp] theorem modThread_coll (s : State) (t : Tid) (f : Thread → Thread) : (modThread s t f).coll = s.coll := rfl
@[simp] theorem modThread_power (s : State) (t : Tid) (f : Thread → Thread) : (modThread s t f).power = s.power := rfl
@[simp] theorem modThread_net (s : State) (t : Tid) (f : Thread → Thread) : (modThread s t f).net = s.net := rfl
@[simp] theorem modThread_links (s : State) (t : Tid) (f : Thread → Thread) : (modThread s t f).links = s.links := rfl
@[simp] theorem modThread_mantle (s : State) (t : Tid) (f : Thread → Thread) : (modThread s t f).mantle = s.mantle := rfl
@[simp] theorem modThread_boot (s : State) (t : Tid) (f : Thread → Thread) : (modThread s t f).boot = s.boot := rfl
@[simp] theorem modThread_repair (s : State) (t : Tid) (f : Thread → Thread) : (modThread s t f).repair = s.repair := rfl
@[simp] theorem modThread_clk (s : State) (t : Tid) (f : Thread → Thread) : (modThread s t f).clk = s.clk := rfl
@[simp] theorem modThread_bm (s : State) (t : Tid) (f : Thread → Thread) : (modThread s t f).bm = s.bm := rfl
@[simp] theorem modThread_hbm (s : State) (t : Tid) (f : Thread → Thread) : (modThread s t f).hbm = s.hbm := rfl
@[simp] theorem modThread_flash (s : State) (t : Tid) (f : Thread → Thread) : (modThread s t f).flash = s.flash := rfl
@[simp] theorem modThread_msix (s : State) (t : Tid) (f : Thread → Thread) : (modThread s t f).msix = s.msix := rfl
@[simp] theorem modThread_pba (s : State) (t : Tid) (f : Thread → Thread) : (modThread s t f).pba = s.pba := rfl
@[simp] theorem modThread_msixDue (s : State) (t : Tid) (f : Thread → Thread) : (modThread s t f).msixDue = s.msixDue := rfl
@[simp] theorem modThread_msixEn (s : State) (t : Tid) (f : Thread → Thread) : (modThread s t f).msixEn = s.msixEn := rfl
@[simp] theorem modThread_msixMask (s : State) (t : Tid) (f : Thread → Thread) : (modThread s t f).msixMask = s.msixMask := rfl
@[simp] theorem modThread_lc (s : State) (t : Tid) (f : Thread → Thread) : (modThread s t f).lc = s.lc := rfl
@[simp] theorem modThread_out (s : State) (t : Tid) (f : Thread → Thread) : (modThread s t f).out = s.out := rfl
@[simp] theorem modThread_freeCtr (s : State) (t : Tid) (f : Thread → Thread) : (modThread s t f).freeCtr = s.freeCtr := rfl

@[simp] theorem wx_pending (s : State) (t : Tid) (r : Reg) (v : Word) : (wx s t r v).pending = s.pending := rfl
@[simp] theorem wx_cells (s : State) (t : Tid) (r : Reg) (v : Word) : (wx s t r v).cells = s.cells := rfl
@[simp] theorem wx_ms (s : State) (t : Tid) (r : Reg) (v : Word) : (wx s t r v).ms = s.ms := rfl
@[simp] theorem wx_mmio (s : State) (t : Tid) (r : Reg) (v : Word) : (wx s t r v).mmio = s.mmio := rfl
@[simp] theorem wx_sel (s : State) (t : Tid) (r : Reg) (v : Word) : (wx s t r v).sel = s.sel := rfl
@[simp] theorem wx_err (s : State) (t : Tid) (r : Reg) (v : Word) : (wx s t r v).err = s.err := rfl
@[simp] theorem wx_pegs (s : State) (t : Tid) (r : Reg) (v : Word) : (wx s t r v).pegs = s.pegs := rfl
@[simp] theorem wx_tasks (s : State) (t : Tid) (r : Reg) (v : Word) : (wx s t r v).tasks = s.tasks := rfl
@[simp] theorem wx_dma (s : State) (t : Tid) (r : Reg) (v : Word) : (wx s t r v).dma = s.dma := rfl
@[simp] theorem wx_dmaLast (s : State) (t : Tid) (r : Reg) (v : Word) : (wx s t r v).dmaLast = s.dmaLast := rfl
@[simp] theorem wx_hem (s : State) (t : Tid) (r : Reg) (v : Word) : (wx s t r v).hem = s.hem := rfl
@[simp] theorem wx_lining (s : State) (t : Tid) (r : Reg) (v : Word) : (wx s t r v).lining = s.lining := rfl
@[simp] theorem wx_coll (s : State) (t : Tid) (r : Reg) (v : Word) : (wx s t r v).coll = s.coll := rfl
@[simp] theorem wx_power (s : State) (t : Tid) (r : Reg) (v : Word) : (wx s t r v).power = s.power := rfl
@[simp] theorem wx_net (s : State) (t : Tid) (r : Reg) (v : Word) : (wx s t r v).net = s.net := rfl
@[simp] theorem wx_links (s : State) (t : Tid) (r : Reg) (v : Word) : (wx s t r v).links = s.links := rfl
@[simp] theorem wx_mantle (s : State) (t : Tid) (r : Reg) (v : Word) : (wx s t r v).mantle = s.mantle := rfl
@[simp] theorem wx_boot (s : State) (t : Tid) (r : Reg) (v : Word) : (wx s t r v).boot = s.boot := rfl
@[simp] theorem wx_repair (s : State) (t : Tid) (r : Reg) (v : Word) : (wx s t r v).repair = s.repair := rfl
@[simp] theorem wx_clk (s : State) (t : Tid) (r : Reg) (v : Word) : (wx s t r v).clk = s.clk := rfl
@[simp] theorem wx_bm (s : State) (t : Tid) (r : Reg) (v : Word) : (wx s t r v).bm = s.bm := rfl
@[simp] theorem wx_hbm (s : State) (t : Tid) (r : Reg) (v : Word) : (wx s t r v).hbm = s.hbm := rfl
@[simp] theorem wx_flash (s : State) (t : Tid) (r : Reg) (v : Word) : (wx s t r v).flash = s.flash := rfl
@[simp] theorem wx_msix (s : State) (t : Tid) (r : Reg) (v : Word) : (wx s t r v).msix = s.msix := rfl
@[simp] theorem wx_pba (s : State) (t : Tid) (r : Reg) (v : Word) : (wx s t r v).pba = s.pba := rfl
@[simp] theorem wx_msixDue (s : State) (t : Tid) (r : Reg) (v : Word) : (wx s t r v).msixDue = s.msixDue := rfl
@[simp] theorem wx_msixEn (s : State) (t : Tid) (r : Reg) (v : Word) : (wx s t r v).msixEn = s.msixEn := rfl
@[simp] theorem wx_msixMask (s : State) (t : Tid) (r : Reg) (v : Word) : (wx s t r v).msixMask = s.msixMask := rfl
@[simp] theorem wx_lc (s : State) (t : Tid) (r : Reg) (v : Word) : (wx s t r v).lc = s.lc := rfl
@[simp] theorem wx_out (s : State) (t : Tid) (r : Reg) (v : Word) : (wx s t r v).out = s.out := rfl
@[simp] theorem wx_freeCtr (s : State) (t : Tid) (r : Reg) (v : Word) : (wx s t r v).freeCtr = s.freeCtr := rfl

@[simp] theorem setCell_pending (s : State) (c : Nat) (x : CellS) : (setCell s c x).pending = s.pending := rfl
@[simp] theorem setCell_threads (s : State) (c : Nat) (x : CellS) : (setCell s c x).threads = s.threads := rfl
@[simp] theorem setCell_ms (s : State) (c : Nat) (x : CellS) : (setCell s c x).ms = s.ms := rfl
@[simp] theorem setCell_mmio (s : State) (c : Nat) (x : CellS) : (setCell s c x).mmio = s.mmio := rfl
@[simp] theorem setCell_sel (s : State) (c : Nat) (x : CellS) : (setCell s c x).sel = s.sel := rfl
@[simp] theorem setCell_err (s : State) (c : Nat) (x : CellS) : (setCell s c x).err = s.err := rfl
@[simp] theorem setCell_pegs (s : State) (c : Nat) (x : CellS) : (setCell s c x).pegs = s.pegs := rfl
@[simp] theorem setCell_tasks (s : State) (c : Nat) (x : CellS) : (setCell s c x).tasks = s.tasks := rfl
@[simp] theorem setCell_dma (s : State) (c : Nat) (x : CellS) : (setCell s c x).dma = s.dma := rfl
@[simp] theorem setCell_dmaLast (s : State) (c : Nat) (x : CellS) : (setCell s c x).dmaLast = s.dmaLast := rfl
@[simp] theorem setCell_hem (s : State) (c : Nat) (x : CellS) : (setCell s c x).hem = s.hem := rfl
@[simp] theorem setCell_lining (s : State) (c : Nat) (x : CellS) : (setCell s c x).lining = s.lining := rfl
@[simp] theorem setCell_coll (s : State) (c : Nat) (x : CellS) : (setCell s c x).coll = s.coll := rfl
@[simp] theorem setCell_power (s : State) (c : Nat) (x : CellS) : (setCell s c x).power = s.power := rfl
@[simp] theorem setCell_net (s : State) (c : Nat) (x : CellS) : (setCell s c x).net = s.net := rfl
@[simp] theorem setCell_links (s : State) (c : Nat) (x : CellS) : (setCell s c x).links = s.links := rfl
@[simp] theorem setCell_mantle (s : State) (c : Nat) (x : CellS) : (setCell s c x).mantle = s.mantle := rfl
@[simp] theorem setCell_boot (s : State) (c : Nat) (x : CellS) : (setCell s c x).boot = s.boot := rfl
@[simp] theorem setCell_repair (s : State) (c : Nat) (x : CellS) : (setCell s c x).repair = s.repair := rfl
@[simp] theorem setCell_clk (s : State) (c : Nat) (x : CellS) : (setCell s c x).clk = s.clk := rfl
@[simp] theorem setCell_bm (s : State) (c : Nat) (x : CellS) : (setCell s c x).bm = s.bm := rfl
@[simp] theorem setCell_hbm (s : State) (c : Nat) (x : CellS) : (setCell s c x).hbm = s.hbm := rfl
@[simp] theorem setCell_flash (s : State) (c : Nat) (x : CellS) : (setCell s c x).flash = s.flash := rfl
@[simp] theorem setCell_msix (s : State) (c : Nat) (x : CellS) : (setCell s c x).msix = s.msix := rfl
@[simp] theorem setCell_pba (s : State) (c : Nat) (x : CellS) : (setCell s c x).pba = s.pba := rfl
@[simp] theorem setCell_msixDue (s : State) (c : Nat) (x : CellS) : (setCell s c x).msixDue = s.msixDue := rfl
@[simp] theorem setCell_msixEn (s : State) (c : Nat) (x : CellS) : (setCell s c x).msixEn = s.msixEn := rfl
@[simp] theorem setCell_msixMask (s : State) (c : Nat) (x : CellS) : (setCell s c x).msixMask = s.msixMask := rfl
@[simp] theorem setCell_lc (s : State) (c : Nat) (x : CellS) : (setCell s c x).lc = s.lc := rfl
@[simp] theorem setCell_out (s : State) (c : Nat) (x : CellS) : (setCell s c x).out = s.out := rfl
@[simp] theorem setCell_freeCtr (s : State) (c : Nat) (x : CellS) : (setCell s c x).freeCtr = s.freeCtr := rfl

@[simp] theorem modCell_pending (s : State) (c : Nat) (f : CellS → CellS) : (modCell s c f).pending = s.pending := rfl
@[simp] theorem modCell_threads (s : State) (c : Nat) (f : CellS → CellS) : (modCell s c f).threads = s.threads := rfl
@[simp] theorem modCell_ms (s : State) (c : Nat) (f : CellS → CellS) : (modCell s c f).ms = s.ms := rfl
@[simp] theorem modCell_mmio (s : State) (c : Nat) (f : CellS → CellS) : (modCell s c f).mmio = s.mmio := rfl
@[simp] theorem modCell_sel (s : State) (c : Nat) (f : CellS → CellS) : (modCell s c f).sel = s.sel := rfl
@[simp] theorem modCell_err (s : State) (c : Nat) (f : CellS → CellS) : (modCell s c f).err = s.err := rfl
@[simp] theorem modCell_pegs (s : State) (c : Nat) (f : CellS → CellS) : (modCell s c f).pegs = s.pegs := rfl
@[simp] theorem modCell_tasks (s : State) (c : Nat) (f : CellS → CellS) : (modCell s c f).tasks = s.tasks := rfl
@[simp] theorem modCell_dma (s : State) (c : Nat) (f : CellS → CellS) : (modCell s c f).dma = s.dma := rfl
@[simp] theorem modCell_dmaLast (s : State) (c : Nat) (f : CellS → CellS) : (modCell s c f).dmaLast = s.dmaLast := rfl
@[simp] theorem modCell_hem (s : State) (c : Nat) (f : CellS → CellS) : (modCell s c f).hem = s.hem := rfl
@[simp] theorem modCell_lining (s : State) (c : Nat) (f : CellS → CellS) : (modCell s c f).lining = s.lining := rfl
@[simp] theorem modCell_coll (s : State) (c : Nat) (f : CellS → CellS) : (modCell s c f).coll = s.coll := rfl
@[simp] theorem modCell_power (s : State) (c : Nat) (f : CellS → CellS) : (modCell s c f).power = s.power := rfl
@[simp] theorem modCell_net (s : State) (c : Nat) (f : CellS → CellS) : (modCell s c f).net = s.net := rfl
@[simp] theorem modCell_links (s : State) (c : Nat) (f : CellS → CellS) : (modCell s c f).links = s.links := rfl
@[simp] theorem modCell_mantle (s : State) (c : Nat) (f : CellS → CellS) : (modCell s c f).mantle = s.mantle := rfl
@[simp] theorem modCell_boot (s : State) (c : Nat) (f : CellS → CellS) : (modCell s c f).boot = s.boot := rfl
@[simp] theorem modCell_repair (s : State) (c : Nat) (f : CellS → CellS) : (modCell s c f).repair = s.repair := rfl
@[simp] theorem modCell_clk (s : State) (c : Nat) (f : CellS → CellS) : (modCell s c f).clk = s.clk := rfl
@[simp] theorem modCell_bm (s : State) (c : Nat) (f : CellS → CellS) : (modCell s c f).bm = s.bm := rfl
@[simp] theorem modCell_hbm (s : State) (c : Nat) (f : CellS → CellS) : (modCell s c f).hbm = s.hbm := rfl
@[simp] theorem modCell_flash (s : State) (c : Nat) (f : CellS → CellS) : (modCell s c f).flash = s.flash := rfl
@[simp] theorem modCell_msix (s : State) (c : Nat) (f : CellS → CellS) : (modCell s c f).msix = s.msix := rfl
@[simp] theorem modCell_pba (s : State) (c : Nat) (f : CellS → CellS) : (modCell s c f).pba = s.pba := rfl
@[simp] theorem modCell_msixDue (s : State) (c : Nat) (f : CellS → CellS) : (modCell s c f).msixDue = s.msixDue := rfl
@[simp] theorem modCell_msixEn (s : State) (c : Nat) (f : CellS → CellS) : (modCell s c f).msixEn = s.msixEn := rfl
@[simp] theorem modCell_msixMask (s : State) (c : Nat) (f : CellS → CellS) : (modCell s c f).msixMask = s.msixMask := rfl
@[simp] theorem modCell_lc (s : State) (c : Nat) (f : CellS → CellS) : (modCell s c f).lc = s.lc := rfl
@[simp] theorem modCell_out (s : State) (c : Nat) (f : CellS → CellS) : (modCell s c f).out = s.out := rfl
@[simp] theorem modCell_freeCtr (s : State) (c : Nat) (f : CellS → CellS) : (modCell s c f).freeCtr = s.freeCtr := rfl

@[simp] theorem setReg_pending (s : State) (r : RegName) (i : Nat) (v : Word) : (setReg s r i v).pending = s.pending := rfl
@[simp] theorem setReg_threads (s : State) (r : RegName) (i : Nat) (v : Word) : (setReg s r i v).threads = s.threads := rfl
@[simp] theorem setReg_cells (s : State) (r : RegName) (i : Nat) (v : Word) : (setReg s r i v).cells = s.cells := rfl
@[simp] theorem setReg_ms (s : State) (r : RegName) (i : Nat) (v : Word) : (setReg s r i v).ms = s.ms := rfl
@[simp] theorem setReg_sel (s : State) (r : RegName) (i : Nat) (v : Word) : (setReg s r i v).sel = s.sel := rfl
@[simp] theorem setReg_err (s : State) (r : RegName) (i : Nat) (v : Word) : (setReg s r i v).err = s.err := rfl
@[simp] theorem setReg_pegs (s : State) (r : RegName) (i : Nat) (v : Word) : (setReg s r i v).pegs = s.pegs := rfl
@[simp] theorem setReg_tasks (s : State) (r : RegName) (i : Nat) (v : Word) : (setReg s r i v).tasks = s.tasks := rfl
@[simp] theorem setReg_dma (s : State) (r : RegName) (i : Nat) (v : Word) : (setReg s r i v).dma = s.dma := rfl
@[simp] theorem setReg_dmaLast (s : State) (r : RegName) (i : Nat) (v : Word) : (setReg s r i v).dmaLast = s.dmaLast := rfl
@[simp] theorem setReg_hem (s : State) (r : RegName) (i : Nat) (v : Word) : (setReg s r i v).hem = s.hem := rfl
@[simp] theorem setReg_lining (s : State) (r : RegName) (i : Nat) (v : Word) : (setReg s r i v).lining = s.lining := rfl
@[simp] theorem setReg_coll (s : State) (r : RegName) (i : Nat) (v : Word) : (setReg s r i v).coll = s.coll := rfl
@[simp] theorem setReg_power (s : State) (r : RegName) (i : Nat) (v : Word) : (setReg s r i v).power = s.power := rfl
@[simp] theorem setReg_net (s : State) (r : RegName) (i : Nat) (v : Word) : (setReg s r i v).net = s.net := rfl
@[simp] theorem setReg_links (s : State) (r : RegName) (i : Nat) (v : Word) : (setReg s r i v).links = s.links := rfl
@[simp] theorem setReg_mantle (s : State) (r : RegName) (i : Nat) (v : Word) : (setReg s r i v).mantle = s.mantle := rfl
@[simp] theorem setReg_boot (s : State) (r : RegName) (i : Nat) (v : Word) : (setReg s r i v).boot = s.boot := rfl
@[simp] theorem setReg_repair (s : State) (r : RegName) (i : Nat) (v : Word) : (setReg s r i v).repair = s.repair := rfl
@[simp] theorem setReg_clk (s : State) (r : RegName) (i : Nat) (v : Word) : (setReg s r i v).clk = s.clk := rfl
@[simp] theorem setReg_bm (s : State) (r : RegName) (i : Nat) (v : Word) : (setReg s r i v).bm = s.bm := rfl
@[simp] theorem setReg_hbm (s : State) (r : RegName) (i : Nat) (v : Word) : (setReg s r i v).hbm = s.hbm := rfl
@[simp] theorem setReg_flash (s : State) (r : RegName) (i : Nat) (v : Word) : (setReg s r i v).flash = s.flash := rfl
@[simp] theorem setReg_msix (s : State) (r : RegName) (i : Nat) (v : Word) : (setReg s r i v).msix = s.msix := rfl
@[simp] theorem setReg_pba (s : State) (r : RegName) (i : Nat) (v : Word) : (setReg s r i v).pba = s.pba := rfl
@[simp] theorem setReg_msixDue (s : State) (r : RegName) (i : Nat) (v : Word) : (setReg s r i v).msixDue = s.msixDue := rfl
@[simp] theorem setReg_msixEn (s : State) (r : RegName) (i : Nat) (v : Word) : (setReg s r i v).msixEn = s.msixEn := rfl
@[simp] theorem setReg_msixMask (s : State) (r : RegName) (i : Nat) (v : Word) : (setReg s r i v).msixMask = s.msixMask := rfl
@[simp] theorem setReg_lc (s : State) (r : RegName) (i : Nat) (v : Word) : (setReg s r i v).lc = s.lc := rfl
@[simp] theorem setReg_out (s : State) (r : RegName) (i : Nat) (v : Word) : (setReg s r i v).out = s.out := rfl
@[simp] theorem setReg_freeCtr (s : State) (r : RegName) (i : Nat) (v : Word) : (setReg s r i v).freeCtr = s.freeCtr := rfl

@[simp] theorem setRf_pending (s : State) (r : RegName) (f : Fld) (v i : Nat) : (setRf s r f v i).pending = s.pending := rfl
@[simp] theorem setRf_threads (s : State) (r : RegName) (f : Fld) (v i : Nat) : (setRf s r f v i).threads = s.threads := rfl
@[simp] theorem setRf_cells (s : State) (r : RegName) (f : Fld) (v i : Nat) : (setRf s r f v i).cells = s.cells := rfl
@[simp] theorem setRf_ms (s : State) (r : RegName) (f : Fld) (v i : Nat) : (setRf s r f v i).ms = s.ms := rfl
@[simp] theorem setRf_sel (s : State) (r : RegName) (f : Fld) (v i : Nat) : (setRf s r f v i).sel = s.sel := rfl
@[simp] theorem setRf_err (s : State) (r : RegName) (f : Fld) (v i : Nat) : (setRf s r f v i).err = s.err := rfl
@[simp] theorem setRf_pegs (s : State) (r : RegName) (f : Fld) (v i : Nat) : (setRf s r f v i).pegs = s.pegs := rfl
@[simp] theorem setRf_tasks (s : State) (r : RegName) (f : Fld) (v i : Nat) : (setRf s r f v i).tasks = s.tasks := rfl
@[simp] theorem setRf_dma (s : State) (r : RegName) (f : Fld) (v i : Nat) : (setRf s r f v i).dma = s.dma := rfl
@[simp] theorem setRf_dmaLast (s : State) (r : RegName) (f : Fld) (v i : Nat) : (setRf s r f v i).dmaLast = s.dmaLast := rfl
@[simp] theorem setRf_hem (s : State) (r : RegName) (f : Fld) (v i : Nat) : (setRf s r f v i).hem = s.hem := rfl
@[simp] theorem setRf_lining (s : State) (r : RegName) (f : Fld) (v i : Nat) : (setRf s r f v i).lining = s.lining := rfl
@[simp] theorem setRf_coll (s : State) (r : RegName) (f : Fld) (v i : Nat) : (setRf s r f v i).coll = s.coll := rfl
@[simp] theorem setRf_power (s : State) (r : RegName) (f : Fld) (v i : Nat) : (setRf s r f v i).power = s.power := rfl
@[simp] theorem setRf_net (s : State) (r : RegName) (f : Fld) (v i : Nat) : (setRf s r f v i).net = s.net := rfl
@[simp] theorem setRf_links (s : State) (r : RegName) (f : Fld) (v i : Nat) : (setRf s r f v i).links = s.links := rfl
@[simp] theorem setRf_mantle (s : State) (r : RegName) (f : Fld) (v i : Nat) : (setRf s r f v i).mantle = s.mantle := rfl
@[simp] theorem setRf_boot (s : State) (r : RegName) (f : Fld) (v i : Nat) : (setRf s r f v i).boot = s.boot := rfl
@[simp] theorem setRf_repair (s : State) (r : RegName) (f : Fld) (v i : Nat) : (setRf s r f v i).repair = s.repair := rfl
@[simp] theorem setRf_clk (s : State) (r : RegName) (f : Fld) (v i : Nat) : (setRf s r f v i).clk = s.clk := rfl
@[simp] theorem setRf_bm (s : State) (r : RegName) (f : Fld) (v i : Nat) : (setRf s r f v i).bm = s.bm := rfl
@[simp] theorem setRf_hbm (s : State) (r : RegName) (f : Fld) (v i : Nat) : (setRf s r f v i).hbm = s.hbm := rfl
@[simp] theorem setRf_flash (s : State) (r : RegName) (f : Fld) (v i : Nat) : (setRf s r f v i).flash = s.flash := rfl
@[simp] theorem setRf_msix (s : State) (r : RegName) (f : Fld) (v i : Nat) : (setRf s r f v i).msix = s.msix := rfl
@[simp] theorem setRf_pba (s : State) (r : RegName) (f : Fld) (v i : Nat) : (setRf s r f v i).pba = s.pba := rfl
@[simp] theorem setRf_msixDue (s : State) (r : RegName) (f : Fld) (v i : Nat) : (setRf s r f v i).msixDue = s.msixDue := rfl
@[simp] theorem setRf_msixEn (s : State) (r : RegName) (f : Fld) (v i : Nat) : (setRf s r f v i).msixEn = s.msixEn := rfl
@[simp] theorem setRf_msixMask (s : State) (r : RegName) (f : Fld) (v i : Nat) : (setRf s r f v i).msixMask = s.msixMask := rfl
@[simp] theorem setRf_lc (s : State) (r : RegName) (f : Fld) (v i : Nat) : (setRf s r f v i).lc = s.lc := rfl
@[simp] theorem setRf_out (s : State) (r : RegName) (f : Fld) (v i : Nat) : (setRf s r f v i).out = s.out := rfl
@[simp] theorem setRf_freeCtr (s : State) (r : RegName) (f : Fld) (v i : Nat) : (setRf s r f v i).freeCtr = s.freeCtr := rfl

@[simp] theorem bumpRf_pending (s : State) (r : RegName) (f : Fld) (n i : Nat) : (bumpRf s r f n i).pending = s.pending := rfl
@[simp] theorem bumpRf_threads (s : State) (r : RegName) (f : Fld) (n i : Nat) : (bumpRf s r f n i).threads = s.threads := rfl
@[simp] theorem bumpRf_cells (s : State) (r : RegName) (f : Fld) (n i : Nat) : (bumpRf s r f n i).cells = s.cells := rfl
@[simp] theorem bumpRf_ms (s : State) (r : RegName) (f : Fld) (n i : Nat) : (bumpRf s r f n i).ms = s.ms := rfl
@[simp] theorem bumpRf_sel (s : State) (r : RegName) (f : Fld) (n i : Nat) : (bumpRf s r f n i).sel = s.sel := rfl
@[simp] theorem bumpRf_err (s : State) (r : RegName) (f : Fld) (n i : Nat) : (bumpRf s r f n i).err = s.err := rfl
@[simp] theorem bumpRf_pegs (s : State) (r : RegName) (f : Fld) (n i : Nat) : (bumpRf s r f n i).pegs = s.pegs := rfl
@[simp] theorem bumpRf_tasks (s : State) (r : RegName) (f : Fld) (n i : Nat) : (bumpRf s r f n i).tasks = s.tasks := rfl
@[simp] theorem bumpRf_dma (s : State) (r : RegName) (f : Fld) (n i : Nat) : (bumpRf s r f n i).dma = s.dma := rfl
@[simp] theorem bumpRf_dmaLast (s : State) (r : RegName) (f : Fld) (n i : Nat) : (bumpRf s r f n i).dmaLast = s.dmaLast := rfl
@[simp] theorem bumpRf_hem (s : State) (r : RegName) (f : Fld) (n i : Nat) : (bumpRf s r f n i).hem = s.hem := rfl
@[simp] theorem bumpRf_lining (s : State) (r : RegName) (f : Fld) (n i : Nat) : (bumpRf s r f n i).lining = s.lining := rfl
@[simp] theorem bumpRf_coll (s : State) (r : RegName) (f : Fld) (n i : Nat) : (bumpRf s r f n i).coll = s.coll := rfl
@[simp] theorem bumpRf_power (s : State) (r : RegName) (f : Fld) (n i : Nat) : (bumpRf s r f n i).power = s.power := rfl
@[simp] theorem bumpRf_net (s : State) (r : RegName) (f : Fld) (n i : Nat) : (bumpRf s r f n i).net = s.net := rfl
@[simp] theorem bumpRf_links (s : State) (r : RegName) (f : Fld) (n i : Nat) : (bumpRf s r f n i).links = s.links := rfl
@[simp] theorem bumpRf_mantle (s : State) (r : RegName) (f : Fld) (n i : Nat) : (bumpRf s r f n i).mantle = s.mantle := rfl
@[simp] theorem bumpRf_boot (s : State) (r : RegName) (f : Fld) (n i : Nat) : (bumpRf s r f n i).boot = s.boot := rfl
@[simp] theorem bumpRf_repair (s : State) (r : RegName) (f : Fld) (n i : Nat) : (bumpRf s r f n i).repair = s.repair := rfl
@[simp] theorem bumpRf_clk (s : State) (r : RegName) (f : Fld) (n i : Nat) : (bumpRf s r f n i).clk = s.clk := rfl
@[simp] theorem bumpRf_bm (s : State) (r : RegName) (f : Fld) (n i : Nat) : (bumpRf s r f n i).bm = s.bm := rfl
@[simp] theorem bumpRf_hbm (s : State) (r : RegName) (f : Fld) (n i : Nat) : (bumpRf s r f n i).hbm = s.hbm := rfl
@[simp] theorem bumpRf_flash (s : State) (r : RegName) (f : Fld) (n i : Nat) : (bumpRf s r f n i).flash = s.flash := rfl
@[simp] theorem bumpRf_msix (s : State) (r : RegName) (f : Fld) (n i : Nat) : (bumpRf s r f n i).msix = s.msix := rfl
@[simp] theorem bumpRf_pba (s : State) (r : RegName) (f : Fld) (n i : Nat) : (bumpRf s r f n i).pba = s.pba := rfl
@[simp] theorem bumpRf_msixDue (s : State) (r : RegName) (f : Fld) (n i : Nat) : (bumpRf s r f n i).msixDue = s.msixDue := rfl
@[simp] theorem bumpRf_msixEn (s : State) (r : RegName) (f : Fld) (n i : Nat) : (bumpRf s r f n i).msixEn = s.msixEn := rfl
@[simp] theorem bumpRf_msixMask (s : State) (r : RegName) (f : Fld) (n i : Nat) : (bumpRf s r f n i).msixMask = s.msixMask := rfl
@[simp] theorem bumpRf_lc (s : State) (r : RegName) (f : Fld) (n i : Nat) : (bumpRf s r f n i).lc = s.lc := rfl
@[simp] theorem bumpRf_out (s : State) (r : RegName) (f : Fld) (n i : Nat) : (bumpRf s r f n i).out = s.out := rfl
@[simp] theorem bumpRf_freeCtr (s : State) (r : RegName) (f : Fld) (n i : Nat) : (bumpRf s r f n i).freeCtr = s.freeCtr := rfl

@[simp] theorem setSel_pending (s : State) (a : Agent) (r : RegName) (v : Word) : (setSel s a r v).pending = s.pending := rfl
@[simp] theorem setSel_threads (s : State) (a : Agent) (r : RegName) (v : Word) : (setSel s a r v).threads = s.threads := rfl
@[simp] theorem setSel_cells (s : State) (a : Agent) (r : RegName) (v : Word) : (setSel s a r v).cells = s.cells := rfl
@[simp] theorem setSel_ms (s : State) (a : Agent) (r : RegName) (v : Word) : (setSel s a r v).ms = s.ms := rfl
@[simp] theorem setSel_mmio (s : State) (a : Agent) (r : RegName) (v : Word) : (setSel s a r v).mmio = s.mmio := rfl
@[simp] theorem setSel_err (s : State) (a : Agent) (r : RegName) (v : Word) : (setSel s a r v).err = s.err := rfl
@[simp] theorem setSel_pegs (s : State) (a : Agent) (r : RegName) (v : Word) : (setSel s a r v).pegs = s.pegs := rfl
@[simp] theorem setSel_tasks (s : State) (a : Agent) (r : RegName) (v : Word) : (setSel s a r v).tasks = s.tasks := rfl
@[simp] theorem setSel_dma (s : State) (a : Agent) (r : RegName) (v : Word) : (setSel s a r v).dma = s.dma := rfl
@[simp] theorem setSel_dmaLast (s : State) (a : Agent) (r : RegName) (v : Word) : (setSel s a r v).dmaLast = s.dmaLast := rfl
@[simp] theorem setSel_hem (s : State) (a : Agent) (r : RegName) (v : Word) : (setSel s a r v).hem = s.hem := rfl
@[simp] theorem setSel_lining (s : State) (a : Agent) (r : RegName) (v : Word) : (setSel s a r v).lining = s.lining := rfl
@[simp] theorem setSel_coll (s : State) (a : Agent) (r : RegName) (v : Word) : (setSel s a r v).coll = s.coll := rfl
@[simp] theorem setSel_power (s : State) (a : Agent) (r : RegName) (v : Word) : (setSel s a r v).power = s.power := rfl
@[simp] theorem setSel_net (s : State) (a : Agent) (r : RegName) (v : Word) : (setSel s a r v).net = s.net := rfl
@[simp] theorem setSel_links (s : State) (a : Agent) (r : RegName) (v : Word) : (setSel s a r v).links = s.links := rfl
@[simp] theorem setSel_mantle (s : State) (a : Agent) (r : RegName) (v : Word) : (setSel s a r v).mantle = s.mantle := rfl
@[simp] theorem setSel_boot (s : State) (a : Agent) (r : RegName) (v : Word) : (setSel s a r v).boot = s.boot := rfl
@[simp] theorem setSel_repair (s : State) (a : Agent) (r : RegName) (v : Word) : (setSel s a r v).repair = s.repair := rfl
@[simp] theorem setSel_clk (s : State) (a : Agent) (r : RegName) (v : Word) : (setSel s a r v).clk = s.clk := rfl
@[simp] theorem setSel_bm (s : State) (a : Agent) (r : RegName) (v : Word) : (setSel s a r v).bm = s.bm := rfl
@[simp] theorem setSel_hbm (s : State) (a : Agent) (r : RegName) (v : Word) : (setSel s a r v).hbm = s.hbm := rfl
@[simp] theorem setSel_flash (s : State) (a : Agent) (r : RegName) (v : Word) : (setSel s a r v).flash = s.flash := rfl
@[simp] theorem setSel_msix (s : State) (a : Agent) (r : RegName) (v : Word) : (setSel s a r v).msix = s.msix := rfl
@[simp] theorem setSel_pba (s : State) (a : Agent) (r : RegName) (v : Word) : (setSel s a r v).pba = s.pba := rfl
@[simp] theorem setSel_msixDue (s : State) (a : Agent) (r : RegName) (v : Word) : (setSel s a r v).msixDue = s.msixDue := rfl
@[simp] theorem setSel_msixEn (s : State) (a : Agent) (r : RegName) (v : Word) : (setSel s a r v).msixEn = s.msixEn := rfl
@[simp] theorem setSel_msixMask (s : State) (a : Agent) (r : RegName) (v : Word) : (setSel s a r v).msixMask = s.msixMask := rfl
@[simp] theorem setSel_lc (s : State) (a : Agent) (r : RegName) (v : Word) : (setSel s a r v).lc = s.lc := rfl
@[simp] theorem setSel_out (s : State) (a : Agent) (r : RegName) (v : Word) : (setSel s a r v).out = s.out := rfl
@[simp] theorem setSel_freeCtr (s : State) (a : Agent) (r : RegName) (v : Word) : (setSel s a r v).freeCtr = s.freeCtr := rfl

@[simp] theorem emit_pending (s : State) (o : Out) : (emit s o).pending = s.pending := rfl
@[simp] theorem emit_threads (s : State) (o : Out) : (emit s o).threads = s.threads := rfl
@[simp] theorem emit_cells (s : State) (o : Out) : (emit s o).cells = s.cells := rfl
@[simp] theorem emit_ms (s : State) (o : Out) : (emit s o).ms = s.ms := rfl
@[simp] theorem emit_mmio (s : State) (o : Out) : (emit s o).mmio = s.mmio := rfl
@[simp] theorem emit_sel (s : State) (o : Out) : (emit s o).sel = s.sel := rfl
@[simp] theorem emit_err (s : State) (o : Out) : (emit s o).err = s.err := rfl
@[simp] theorem emit_pegs (s : State) (o : Out) : (emit s o).pegs = s.pegs := rfl
@[simp] theorem emit_tasks (s : State) (o : Out) : (emit s o).tasks = s.tasks := rfl
@[simp] theorem emit_dma (s : State) (o : Out) : (emit s o).dma = s.dma := rfl
@[simp] theorem emit_dmaLast (s : State) (o : Out) : (emit s o).dmaLast = s.dmaLast := rfl
@[simp] theorem emit_hem (s : State) (o : Out) : (emit s o).hem = s.hem := rfl
@[simp] theorem emit_lining (s : State) (o : Out) : (emit s o).lining = s.lining := rfl
@[simp] theorem emit_coll (s : State) (o : Out) : (emit s o).coll = s.coll := rfl
@[simp] theorem emit_power (s : State) (o : Out) : (emit s o).power = s.power := rfl
@[simp] theorem emit_net (s : State) (o : Out) : (emit s o).net = s.net := rfl
@[simp] theorem emit_links (s : State) (o : Out) : (emit s o).links = s.links := rfl
@[simp] theorem emit_mantle (s : State) (o : Out) : (emit s o).mantle = s.mantle := rfl
@[simp] theorem emit_boot (s : State) (o : Out) : (emit s o).boot = s.boot := rfl
@[simp] theorem emit_repair (s : State) (o : Out) : (emit s o).repair = s.repair := rfl
@[simp] theorem emit_clk (s : State) (o : Out) : (emit s o).clk = s.clk := rfl
@[simp] theorem emit_bm (s : State) (o : Out) : (emit s o).bm = s.bm := rfl
@[simp] theorem emit_hbm (s : State) (o : Out) : (emit s o).hbm = s.hbm := rfl
@[simp] theorem emit_flash (s : State) (o : Out) : (emit s o).flash = s.flash := rfl
@[simp] theorem emit_msix (s : State) (o : Out) : (emit s o).msix = s.msix := rfl
@[simp] theorem emit_pba (s : State) (o : Out) : (emit s o).pba = s.pba := rfl
@[simp] theorem emit_msixDue (s : State) (o : Out) : (emit s o).msixDue = s.msixDue := rfl
@[simp] theorem emit_msixEn (s : State) (o : Out) : (emit s o).msixEn = s.msixEn := rfl
@[simp] theorem emit_msixMask (s : State) (o : Out) : (emit s o).msixMask = s.msixMask := rfl
@[simp] theorem emit_lc (s : State) (o : Out) : (emit s o).lc = s.lc := rfl
@[simp] theorem emit_freeCtr (s : State) (o : Out) : (emit s o).freeCtr = s.freeCtr := rfl

@[simp] theorem report_pending (s : State) (r : ErrRec) : (report s r).pending = s.pending := rfl
@[simp] theorem report_threads (s : State) (r : ErrRec) : (report s r).threads = s.threads := rfl
@[simp] theorem report_cells (s : State) (r : ErrRec) : (report s r).cells = s.cells := rfl
@[simp] theorem report_ms (s : State) (r : ErrRec) : (report s r).ms = s.ms := rfl
@[simp] theorem report_mmio (s : State) (r : ErrRec) : (report s r).mmio = s.mmio := rfl
@[simp] theorem report_sel (s : State) (r : ErrRec) : (report s r).sel = s.sel := rfl
@[simp] theorem report_pegs (s : State) (r : ErrRec) : (report s r).pegs = s.pegs := rfl
@[simp] theorem report_tasks (s : State) (r : ErrRec) : (report s r).tasks = s.tasks := rfl
@[simp] theorem report_dma (s : State) (r : ErrRec) : (report s r).dma = s.dma := rfl
@[simp] theorem report_dmaLast (s : State) (r : ErrRec) : (report s r).dmaLast = s.dmaLast := rfl
@[simp] theorem report_hem (s : State) (r : ErrRec) : (report s r).hem = s.hem := rfl
@[simp] theorem report_lining (s : State) (r : ErrRec) : (report s r).lining = s.lining := rfl
@[simp] theorem report_coll (s : State) (r : ErrRec) : (report s r).coll = s.coll := rfl
@[simp] theorem report_power (s : State) (r : ErrRec) : (report s r).power = s.power := rfl
@[simp] theorem report_net (s : State) (r : ErrRec) : (report s r).net = s.net := rfl
@[simp] theorem report_links (s : State) (r : ErrRec) : (report s r).links = s.links := rfl
@[simp] theorem report_mantle (s : State) (r : ErrRec) : (report s r).mantle = s.mantle := rfl
@[simp] theorem report_boot (s : State) (r : ErrRec) : (report s r).boot = s.boot := rfl
@[simp] theorem report_repair (s : State) (r : ErrRec) : (report s r).repair = s.repair := rfl
@[simp] theorem report_clk (s : State) (r : ErrRec) : (report s r).clk = s.clk := rfl
@[simp] theorem report_bm (s : State) (r : ErrRec) : (report s r).bm = s.bm := rfl
@[simp] theorem report_hbm (s : State) (r : ErrRec) : (report s r).hbm = s.hbm := rfl
@[simp] theorem report_flash (s : State) (r : ErrRec) : (report s r).flash = s.flash := rfl
@[simp] theorem report_msix (s : State) (r : ErrRec) : (report s r).msix = s.msix := rfl
@[simp] theorem report_pba (s : State) (r : ErrRec) : (report s r).pba = s.pba := rfl
@[simp] theorem report_msixDue (s : State) (r : ErrRec) : (report s r).msixDue = s.msixDue := rfl
@[simp] theorem report_msixEn (s : State) (r : ErrRec) : (report s r).msixEn = s.msixEn := rfl
@[simp] theorem report_msixMask (s : State) (r : ErrRec) : (report s r).msixMask = s.msixMask := rfl
@[simp] theorem report_lc (s : State) (r : ErrRec) : (report s r).lc = s.lc := rfl
@[simp] theorem report_out (s : State) (r : ErrRec) : (report s r).out = s.out := rfl
@[simp] theorem report_freeCtr (s : State) (r : ErrRec) : (report s r).freeCtr = s.freeCtr := rfl

@[simp] theorem tick_pending (s : State) : (tick s).pending = s.pending := rfl
@[simp] theorem tick_threads (s : State) : (tick s).threads = s.threads := rfl
@[simp] theorem tick_cells (s : State) : (tick s).cells = s.cells := rfl
@[simp] theorem tick_ms (s : State) : (tick s).ms = s.ms := rfl
@[simp] theorem tick_mmio (s : State) : (tick s).mmio = s.mmio := rfl
@[simp] theorem tick_sel (s : State) : (tick s).sel = s.sel := rfl
@[simp] theorem tick_err (s : State) : (tick s).err = s.err := rfl
@[simp] theorem tick_pegs (s : State) : (tick s).pegs = s.pegs := rfl
@[simp] theorem tick_tasks (s : State) : (tick s).tasks = s.tasks := rfl
@[simp] theorem tick_dma (s : State) : (tick s).dma = s.dma := rfl
@[simp] theorem tick_dmaLast (s : State) : (tick s).dmaLast = s.dmaLast := rfl
@[simp] theorem tick_hem (s : State) : (tick s).hem = s.hem := rfl
@[simp] theorem tick_lining (s : State) : (tick s).lining = s.lining := rfl
@[simp] theorem tick_coll (s : State) : (tick s).coll = s.coll := rfl
@[simp] theorem tick_power (s : State) : (tick s).power = s.power := rfl
@[simp] theorem tick_net (s : State) : (tick s).net = s.net := rfl
@[simp] theorem tick_links (s : State) : (tick s).links = s.links := rfl
@[simp] theorem tick_mantle (s : State) : (tick s).mantle = s.mantle := rfl
@[simp] theorem tick_boot (s : State) : (tick s).boot = s.boot := rfl
@[simp] theorem tick_repair (s : State) : (tick s).repair = s.repair := rfl
@[simp] theorem tick_clk (s : State) : (tick s).clk = s.clk := rfl
@[simp] theorem tick_bm (s : State) : (tick s).bm = s.bm := rfl
@[simp] theorem tick_hbm (s : State) : (tick s).hbm = s.hbm := rfl
@[simp] theorem tick_flash (s : State) : (tick s).flash = s.flash := rfl
@[simp] theorem tick_msix (s : State) : (tick s).msix = s.msix := rfl
@[simp] theorem tick_pba (s : State) : (tick s).pba = s.pba := rfl
@[simp] theorem tick_msixDue (s : State) : (tick s).msixDue = s.msixDue := rfl
@[simp] theorem tick_msixEn (s : State) : (tick s).msixEn = s.msixEn := rfl
@[simp] theorem tick_msixMask (s : State) : (tick s).msixMask = s.msixMask := rfl
@[simp] theorem tick_out (s : State) : (tick s).out = s.out := rfl
@[simp] theorem tick_freeCtr (s : State) : (tick s).freeCtr = s.freeCtr := rfl

/-! ## Reading after writing -/

@[simp] theorem emit_out (s : State) (o : Out) : (emit s o).out = s.out ++ [o] := rfl
@[simp] theorem report_detected (s : State) (r : ErrRec) : (report s r).err.detected = s.err.detected ++ [r] := rfl
@[simp] theorem tick_lc (s : State) : (tick s).lc = s.lc.map (fun c => c + 1) := rfl

/-- A thread read after one was written. -/
theorem thread_setThread (s : State) (t u : Tid) (x : Thread) : thread (setThread s t x) u = if u = t then x else thread s u := by
  simp only [thread, setThread, tget_tins, Fin.ext_iff]

@[simp] theorem thread_setThread_same (s : State) (t : Tid) (x : Thread) : thread (setThread s t x) t = x := by simp [thread_setThread]

theorem thread_modThread (s : State) (t u : Tid) (f : Thread → Thread) :
    thread (modThread s t f) u = if u = t then f (thread s t) else thread s u := by simp [modThread, thread_setThread]

@[simp] theorem thread_modThread_same (s : State) (t : Tid) (f : Thread → Thread) : thread (modThread s t f) t = f (thread s t) := by
  simp [thread_modThread]

/-- A cell read after one was written. -/
theorem cell_setCell (s : State) (c d : Nat) (x : CellS) : cell (setCell s c x) d = if d = c then x else cell s d := by
  simp only [cell, setCell, tget_tins]

theorem cell_modCell (s : State) (c d : Nat) (f : CellS → CellS) : cell (modCell s c f) d = if d = c then f (cell s c) else cell s d := by
  simp [modCell, cell_setCell]

@[simp] theorem cell_modCell_same (s : State) (c : Nat) (f : CellS → CellS) : cell (modCell s c f) c = f (cell s c) := by
  simp [cell_modCell]

@[simp] theorem cell_modThread (s : State) (t : Tid) (f : Thread → Thread) (c : Nat) : cell (modThread s t f) c = cell s c := rfl
@[simp] theorem cell_setThread (s : State) (t : Tid) (x : Thread) (c : Nat) : cell (setThread s t x) c = cell s c := rfl
@[simp] theorem thread_modCell (s : State) (c : Nat) (f : CellS → CellS) (t : Tid) : thread (modCell s c f) t = thread s t := rfl
@[simp] theorem thread_setReg (s : State) (r : RegName) (i : Nat) (v : Word) (t : Tid) : thread (setReg s r i v) t = thread s t := rfl
@[simp] theorem thread_setRf (s : State) (r : RegName) (f : Fld) (v i : Nat) (t : Tid) : thread (setRf s r f v i) t = thread s t := rfl
@[simp] theorem thread_emit (s : State) (o : Out) (t : Tid) : thread (emit s o) t = thread s t := rfl
@[simp] theorem thread_report (s : State) (r : ErrRec) (t : Tid) : thread (report s r) t = thread s t := rfl
@[simp] theorem cell_setReg (s : State) (r : RegName) (i : Nat) (v : Word) (c : Nat) : cell (setReg s r i v) c = cell s c := rfl
@[simp] theorem cell_setRf (s : State) (r : RegName) (f : Fld) (v i : Nat) (c : Nat) : cell (setRf s r f v i) c = cell s c := rfl
@[simp] theorem cell_emit (s : State) (o : Out) (c : Nat) : cell (emit s o) c = cell s c := rfl
@[simp] theorem cell_report (s : State) (r : ErrRec) (c : Nat) : cell (report s r) c = cell s c := rfl
@[simp] theorem reg_modThread (s : State) (t : Tid) (f : Thread → Thread) (r : RegName) (i : Nat) : reg (modThread s t f) r i = reg s r i := rfl
@[simp] theorem reg_modCell (s : State) (c : Nat) (f : CellS → CellS) (r : RegName) (i : Nat) : reg (modCell s c f) r i = reg s r i := rfl
@[simp] theorem reg_emit (s : State) (o : Out) (r : RegName) (i : Nat) : reg (emit s o) r i = reg s r i := rfl
@[simp] theorem reg_report (s : State) (x : ErrRec) (r : RegName) (i : Nat) : reg (report s x) r i = reg s r i := rfl

/-- s0 reads zero (R35). -/
@[simp] theorem xget_zero (th : Thread) : xget th 0 = 0 := rfl

/-- A scalar register read after one was written: a write to s0 is discarded (R35). -/
theorem xget_xset (th : Thread) (r q : Reg) (v : Word) : xget (xset th r v) q = if q = r ∧ r ≠ 0 then v else xget th q := by
  by_cases hr : r = 0
  · simp [xset, hr]
  · by_cases hq : q = 0
    · subst hq; simp only [xget, if_true]; rw [if_neg]; rintro ⟨h, -⟩; exact hr h.symm
    · simp only [xset, hr, if_false, xget, hq, tget_tset, BitVec.toNat_inj, ne_eq, not_false_eq_true, and_true]

/-- A register's index names it. -/
theorem regIdx_inj {r q : RegName} (h : regIdx r = regIdx q) : r = q := by
  rw [← RegName.ofNat_ctorIdx r, ← RegName.ofNat_ctorIdx q]; exact congrArg _ h

/-- A register instance's key names it. -/
theorem regKey_inj {r q : RegName} {i j : Nat} (hi : i < 65536) (hj : j < 65536) (h : regKey r i = regKey q j) : r = q ∧ i = j := by
  simp only [regKey] at h
  exact ⟨regIdx_inj (by omega), by omega⟩

/-- A register word read after it was written. -/
@[simp] theorem reg_setReg_same (s : State) (r : RegName) (i : Nat) (v : Word) : reg (setReg s r i v) r i = v := by simp [reg, setReg]

/-- A register word read after another was written. -/
theorem reg_setReg_other (s : State) {r q : RegName} {i j : Nat} (v : Word) (hi : i < 65536) (hj : j < 65536)
    (h : ¬(q = r ∧ j = i)) : reg (setReg s r i v) q j = reg s q j := by
  by_cases hk : regKey q j = regKey r i
  · exact absurd (regKey_inj hj hi hk) h
  · by_cases hr : q = r
    · subst hr; simp [reg, setReg, tget_tset_other _ _ hk]
    · have : ∀ d, tget d (tset (regReset r) s.mmio (regKey r i) v) (regKey q j) = tget d s.mmio (regKey q j) := by
        intro d; unfold tset; split
        · rw [tget_tdel]; simp [hk]
        · rw [tget_tins]; simp [hk]
      simp [reg, setReg, this]


end Sys2Proof.Machine
end

