-- ==== Sys2Proof/Laws/Fields.lean ====
section
/-! SUPPORT. Laws of bit fields: a field read after it or another was written. -/

namespace Sys2Proof.Machine

theorem getLsbD_fmask (n hi lo j : Nat) (h : lo ≤ hi) : (fmask n hi lo).getLsbD j = decide (j < n ∧ lo ≤ j ∧ j ≤ hi) := by
  simp only [fmask, BitVec.getLsbD_ofNat, Nat.testBit_shiftLeft, Nat.testBit_two_pow_sub_one]
  by_cases h1 : j < n <;> by_cases h2 : lo ≤ j <;> simp [h1, h2]
  omega

/-- A bit of a word after a field was written. -/
theorem getLsbD_setBits {n : Nat} (w : BitVec n) {hi lo : Nat} (v : Nat) (h : lo ≤ hi) (hn : hi < n) (j : Nat) :
    (setBits w hi lo v).getLsbD j = if lo ≤ j ∧ j ≤ hi then v.testBit (j - lo) else w.getLsbD j := by
  simp only [setBits, BitVec.getLsbD_or, BitVec.getLsbD_and, BitVec.getLsbD_not, getLsbD_fmask _ _ _ _ h, BitVec.getLsbD_ofNat,
    Nat.testBit_shiftLeft, Nat.testBit_mod_two_pow]
  by_cases h2 : lo ≤ j ∧ j ≤ hi
  · rw [if_pos h2]
    have h1 : j < n := by omega
    simp [h1, h2.1, h2.2, show j - lo < hi + 1 - lo by omega]
  · rw [if_neg h2]
    by_cases h1 : j < n
    · have : ¬(j ≥ lo ∧ j - lo < hi + 1 - lo) := by omega
      have e : (decide (j ≥ lo) && (decide (j - lo < hi + 1 - lo) && v.testBit (j - lo))) = false := by
        by_cases a : lo ≤ j <;> by_cases b : j - lo < hi + 1 - lo <;> simp_all
      simp [h1, h2, e]
    · simp [h1, BitVec.getLsbD_of_ge w j (by omega)]

theorem testBit_bits {n : Nat} (w : BitVec n) (hi lo k : Nat) : (bits w hi lo).testBit k = (decide (k < hi + 1 - lo) && w.getLsbD (lo + k)) := by
  simp [bits, Nat.testBit_mod_two_pow, Nat.testBit_shiftRight, BitVec.getLsbD]

/-- A field read after it was written. -/
theorem bits_setBits_same {n : Nat} (w : BitVec n) {hi lo : Nat} (v : Nat) (h : lo ≤ hi) (hn : hi < n) :
    bits (setBits w hi lo v) hi lo = v % 2 ^ (hi + 1 - lo) := by
  apply Nat.eq_of_testBit_eq; intro k
  rw [testBit_bits, getLsbD_setBits w v h hn, Nat.testBit_mod_two_pow]
  by_cases hk : k < hi + 1 - lo
  · simp [hk, show lo + k ≤ hi by omega]
  · simp [hk]

/-- A field read after another was written. -/
theorem bits_setBits_other {n : Nat} (w : BitVec n) {hi lo hi' lo' : Nat} (v : Nat) (h : lo ≤ hi) (hn : hi < n)
    (hd : hi' < lo ∨ hi < lo') : bits (setBits w hi lo v) hi' lo' = bits w hi' lo' := by
  apply Nat.eq_of_testBit_eq; intro k
  rw [testBit_bits, testBit_bits, getLsbD_setBits w v h hn]
  by_cases hk : k < hi' + 1 - lo'
  · rw [if_neg (by omega)]
  · simp [hk]

theorem fget_fput_same (w : Word) (f : Fld) (v : Nat) (h : f.lo ≤ f.hi) (hn : f.hi < 64) : fget (fput w f v) f = v % 2 ^ (f.hi + 1 - f.lo) :=
  bits_setBits_same w v h hn

theorem fget_fput_other (w : Word) (f g : Fld) (v : Nat) (h : f.lo ≤ f.hi) (hn : f.hi < 64) (hd : g.hi < f.lo ∨ f.hi < g.lo) :
    fget (fput w f v) g = fget w g := bits_setBits_other w v h hn hd

/-- A field of a register after that field was written. -/
theorem rf_setRf_same (s : State) (r : RegName) (f : Fld) (v i : Nat) (h : f.lo ≤ f.hi) (hn : f.hi < 64) :
    rf (setRf s r f v i) r f i = v % 2 ^ (f.hi + 1 - f.lo) := by
  simp only [rf, setRf, reg_setReg_same]; exact fget_fput_same _ _ _ h hn

/-- Another field of the register. -/
theorem rf_setRf_other (s : State) (r : RegName) (f g : Fld) (v i : Nat) (h : f.lo ≤ f.hi) (hn : f.hi < 64)
    (hd : g.hi < f.lo ∨ f.hi < g.lo) : rf (setRf s r f v i) r g i = rf s r g i := by
  simp only [rf, setRf, reg_setReg_same]; exact fget_fput_other _ _ _ _ h hn hd

/-- A field of another register or instance. -/
theorem rf_setRf_away (s : State) {r q : RegName} (f g : Fld) (v : Nat) {i j : Nat} (hi : i < 65536) (hj : j < 65536)
    (h : ¬(q = r ∧ j = i)) : rf (setRf s r f v i) q g j = rf s q g j := by
  simp only [rf, setRf, reg_setReg_other s _ hi hj h]

theorem setRf_eq (s : State) (r : RegName) (f : Fld) (v i : Nat) : setRf s r f v i = { s with mmio := (setRf s r f v i).mmio } := rfl

end Sys2Proof.Machine
end

