-- ==== Sys2Proof/Laws/Memory.lean ====
section
/-! SUPPORT. Laws of memory: a byte read after a write, and the canonical form, which every memory operation keeps. -/

namespace Sys2Proof.Machine

/-! ## Bytes -/

/-- A byte read after bytes were written: one of them, or what it was. -/
theorem memByte_wrMem (bs : List Byte) (m : List Host.Cell) (a x : Nat) :
    memByte (wrMem m a bs) x = if a ≤ x ∧ x < a + bs.length then bs.getD (x - a) 0 else memByte m x := by
  induction bs generalizing m a with
  | nil => simp only [wrMem, List.length_nil]; rw [if_neg (by omega)]
  | cons b t ih =>
    simp only [wrMem, ih, List.length_cons]
    by_cases h : a + 1 ≤ x ∧ x < a + 1 + t.length
    · rw [if_pos h, if_pos (by omega)]
      obtain ⟨k, rfl⟩ : ∃ k, x = a + (k + 1) := ⟨x - a - 1, by omega⟩
      simp [show a + (k + 1) - (a + 1) = k by omega]
    · rw [if_neg h]
      by_cases hx : x = a
      · subst hx; rw [if_pos (by omega)]; simp [memByte]
      · rw [if_neg (by omega)]; simp only [memByte]; rw [tget_tset_other _ _ hx]

/-- Bytes written keep the canonical form. -/
theorem wrMem_wf (bs : List Byte) (m : List Host.Cell) (a : Nat) (h : Memory.wf m = true) : Memory.wf (wrMem m a bs) = true := by
  induction bs generalizing m a with
  | nil => exact h
  | cons b t ih => exact ih _ _ (tset_canon _ _ _ _ h)

theorem leBytes_length (v n : Nat) : (leBytes v n).length = n := by
  induction n generalizing v with
  | zero => rfl
  | succ n ih => simp [leBytes, ih]

/-! ## Operations that leave the stored bytes alone -/

/-- Noting a row whose error was found touches the error unit's counts alone. -/
@[simp] theorem noteRow_ms (s : State) (key row : Nat) (b : Bool) : (noteRow s key row b).ms = s.ms := by
  unfold noteRow; dsimp only; split <;> rfl

@[simp] theorem touchLatent_mem (s : State) (l i : Nat) : (touchLatent s l i).ms.mem = s.ms.mem := by
  unfold touchLatent
  split
  · rfl
  · dsimp only; split <;> split <;> simp

theorem foldl_keeps {α β γ : Type} (g : β → γ) (f : β → α → β) (h : ∀ b a, g (f b a) = g b) (l : List α) (b : β) :
    g (l.foldl f b) = g b := by
  induction l generalizing b with
  | nil => rfl
  | cons a t ih => rw [List.foldl_cons, ih, h]

/-- A property kept by each step of a fold is kept by the fold. -/
theorem foldl_inv {α β : Type} (P : β → Prop) (f : β → α → β) (h : ∀ b a, P b → P (f b a)) (l : List α) (b : β) (hb : P b) :
    P (l.foldl f b) := by
  induction l generalizing b with
  | nil => exact hb
  | cons a t ih => exact ih _ (h _ _ hb)

@[simp] theorem touchLine_mem (s : State) (l : Nat) : (touchLine s l).ms.mem = s.ms.mem := by
  unfold touchLine; split
  · rfl
  · exact foldl_keeps (fun s : State => s.ms.mem) (fun s i => touchLatent s l i) (fun b a => touchLatent_mem b l a) (List.range 16) s

@[simp] theorem touchDeadIf_ms (d : Bool) (s : State) (l : Nat) : (touchDeadIf d s l).ms = s.ms := by
  unfold touchDeadIf; split <;> rfl

@[simp] theorem touchDead_ms (s : State) (l : Nat) : (touchDead s l).ms = s.ms := by simp [touchDead]

/-- A line's way taken leaves bytes, dirty lines and marks alone. -/
@[simp] theorem rcTouch_mem (s : State) (l : Nat) : (rcTouch s l).ms.mem = s.ms.mem := by
  unfold rcTouch; dsimp only; split <;> rfl

@[simp] theorem rcDrop_mem (s : State) (l : Nat) : (rcDrop s l).ms.mem = s.ms.mem := rfl

@[simp] theorem readLine_mem (s : State) (l : Nat) : (readLine s l).2.ms.mem = s.ms.mem := by simp [readLine]

@[simp] theorem homeRead_mem (s : State) (pa n : Nat) : (homeRead s pa n).2.ms.mem = s.ms.mem := by
  unfold homeRead
  refine foldl_keeps (fun a : (List Byte × Option Nat) × State => a.2.ms.mem) _ ?_ _ _
  intro b c; simp

@[simp] theorem readLineFrom_mem (s : State) (d l : Nat) : (readLineFrom s d l).2.ms.mem = s.ms.mem := by
  unfold readLineFrom; split <;> simp

@[simp] theorem homeReadFrom_mem (s : State) (d pa n : Nat) : (homeReadFrom s d pa n).2.ms.mem = s.ms.mem := by
  unfold homeReadFrom; split <;> simp

@[simp] theorem dropLatent_ms (s : State) (l o n : Nat) : (dropLatent s l o n).ms = s.ms := by
  unfold dropLatent; split
  · rfl
  · refine foldl_keeps (fun s : State => s.ms) _ ?_ _ _
    intro b a; split <;> rfl

@[simp] theorem rcInvalidateRange_mem (s : State) (pa n : Nat) : (rcInvalidateRange s pa n).ms.mem = s.ms.mem := rfl

/-! ## Operations that store bytes keep the canonical form -/

/-- A stored line changes no byte outside the line. -/
theorem storeLineIf_byte (d : Bool) (s : State) (l : Nat) (x : Line) (a : Nat) (h : ¬(lineBase l ≤ a ∧ a < lineBase l + 128)) :
    memByte (storeLineIf d s l x).ms.mem a = memByte s.ms.mem a := by
  unfold storeLineIf; split
  · rfl
  · dsimp only
    split <;> · dsimp only; rw [memByte_wrMem, leBytes_length, if_neg h]

theorem storeLineIf_wf (d : Bool) (s : State) (l : Nat) (x : Line) (h : Memory.wf s.ms.mem = true) :
    Memory.wf (storeLineIf d s l x).ms.mem = true := by
  unfold storeLineIf; split
  · exact h
  · dsimp only
    split <;> exact wrMem_wf _ _ _ h

theorem storeLine_wf (s : State) (l : Nat) (x : Line) (h : Memory.wf s.ms.mem = true) : Memory.wf (storeLine s l x).ms.mem = true :=
  storeLineIf_wf _ s l x h

theorem writeBack_wf (s : State) (l : Nat) (h : Memory.wf s.ms.mem = true) : Memory.wf (writeBack s l).ms.mem = true := by
  unfold writeBack; split
  · exact h
  · exact storeLine_wf _ l _ (by simpa using h)

theorem storeInjected_wf (s : State) (l o n : Nat) (h : Memory.wf s.ms.mem = true) : Memory.wf (storeInjected s l o n).ms.mem = true := by
  unfold storeInjected; dsimp only; split
  · exact writeBack_wf _ l h
  · exact h

theorem homeWriteLine_wf (s : State) (l o : Nat) (bs : List Byte) (mk : Bool) (h : Memory.wf s.ms.mem = true) :
    Memory.wf (homeWriteLine s l o bs mk).ms.mem = true := by
  unfold homeWriteLine; split
  · simpa using h
  · dsimp only
    apply storeInjected_wf
    rw [dropLatent_ms, rcTouch_mem]
    have hs : Memory.wf (if lineHbm l && decide (bs.length < 128) then touchLine s l else s).ms.mem = true := by
      split <;> simpa using h
    split
    · exact hs
    · exact storeLine_wf _ l _ hs

theorem homeWrite_wf (s : State) (pa : Nat) (bs : List Byte) (mk : Bool) (h : Memory.wf s.ms.mem = true) :
    Memory.wf (homeWrite s pa bs mk).ms.mem = true := by
  unfold homeWrite; split
  · exact h
  · exact foldl_inv (fun s : State => Memory.wf s.ms.mem = true) _ (fun b a hb => homeWriteLine_wf _ _ _ _ _ hb) _ _ h

theorem homeWriteFrom_wf (s : State) (d pa : Nat) (bs : List Byte) (mk : Bool) (h : Memory.wf s.ms.mem = true) :
    Memory.wf (homeWriteFrom s d pa bs mk).ms.mem = true := by
  unfold homeWriteFrom; split
  · exact h
  · exact homeWrite_wf s pa bs mk h

theorem dramStore_wf (s : State) (l o n : Nat) (x : Line) (h : Memory.wf s.ms.mem = true) :
    Memory.wf (dramStore s l o n x).ms.mem = true := by
  unfold dramStore
  apply storeInjected_wf
  rw [dropLatent_ms]
  exact storeLineIf_wf _ _ _ _ (by simpa using h)

@[simp] theorem dramLine_mem (s : State) (l : Nat) : (dramLine s l).2.ms.mem = s.ms.mem := by
  simp only [dramLine, touchDeadIf_ms]
  exact foldl_keeps (fun s : State => s.ms.mem) (fun s i => touchLatent s l i) (fun b a => touchLatent_mem b l a) (List.range 16) s

theorem writeBackRange_wf (s : State) (pa n : Nat) (h : Memory.wf s.ms.mem = true) : Memory.wf (writeBackRange s pa n).ms.mem = true := by
  unfold writeBackRange
  exact foldl_inv (fun s : State => Memory.wf s.ms.mem = true) _ (fun b a hb => writeBack_wf _ _ hb) _ _ h

/-- Memory right after reset stands in its canonical form. -/
theorem reset_memory_wf : Memory.wf State.reset.ms.mem = true := rfl

end Sys2Proof.Machine
end

