-- ==== Sys2Proof/Laws/Bytes.lean ====
section
/-! SUPPORT. Laws of the bytes that memory's home serves: what a write changes, and that nothing else does. -/

namespace Sys2Proof.Machine

open Sys2Proof.Safety

/-- What the home's bytes rest on is the same. -/
def sameHome (s n : State) : Prop :=
  n.ms.mem = s.ms.mem ∧ n.ms.rc = s.ms.rc ∧ n.ms.junk = s.ms.junk ∧ n.ms.gran = s.ms.gran
  ∧ (∀ i, i < 65536 → rf n .hbmChstat F.hbmChstatState i = rf s .hbmChstat F.hbmChstatState i)
  ∧ (∀ i, i < 65536 → rf n .hbmStkstat F.hbmStkstatState i = rf s .hbmStkstat F.hbmStkstatState i)

theorem sameHome.refl (s : State) : sameHome s s := ⟨rfl, rfl, rfl, rfl, fun _ _ => rfl, fun _ _ => rfl⟩

theorem sameHome.trans {a b c : State} (h : sameHome a b) (k : sameHome b c) : sameHome a c :=
  ⟨k.1.trans h.1, k.2.1.trans h.2.1, k.2.2.1.trans h.2.2.1, k.2.2.2.1.trans h.2.2.2.1,
   fun i hi => (k.2.2.2.2.1 i hi).trans (h.2.2.2.2.1 i hi), fun i hi => (k.2.2.2.2.2 i hi).trans (h.2.2.2.2.2 i hi)⟩

/-- Memory the same and the registers the same. -/
theorem sameHome_of_regs {s n : State} (h : n.ms = s.ms) {l : List RegName} (hr : regsKept l s n)
    (h1 : RegName.hbmChstat ∉ l) (h2 : RegName.hbmStkstat ∉ l) : sameHome s n := by
  refine ⟨by rw [h], by rw [h], by rw [h], by rw [h], fun i hi => ?_, fun i hi => ?_⟩
  · simp only [rf, hr _ i hi h1]
  · simp only [rf, hr _ i hi h2]

theorem xor_lt_32 (a b : Nat) : a % 2 ^ 5 ^^^ b % 2 ^ 5 < 32 := Nat.xor_lt_two_pow (Nat.mod_lt _ (by norm_num)) (Nat.mod_lt _ (by norm_num))

/-- A channel's key is one of the 384. -/
theorem chKey_lt (g a : Nat) : chKey (hbmPlace g a).stack (hbmPlace g a).chan < 65536 := by
  have h1 : (hbmPlace g a).stack < 12 := Nat.mod_lt _ (by norm_num)
  have h2 : (hbmPlace g a).chan < 32 := xor_lt_32 _ _
  unfold chKey; omega

theorem stack_lt (g a : Nat) : (hbmPlace g a).stack < 12 := Nat.mod_lt _ (by norm_num)

theorem sameHome.lineDead {s n : State} (h : sameHome s n) (l : Nat) : lineDead n l = lineDead s l := by
  obtain ⟨-, -, -, h4, h5, h6⟩ := h
  simp only [Machine.lineDead, chanDead, h4]
  rw [h5 _ (chKey_lt _ _), h6 _ (lt_trans (stack_lt _ _) (by norm_num))]

theorem sameHome.storedData {s n : State} (h : sameHome s n) (l : Nat) : (storedLine n l).data = (storedLine s l).data := by
  unfold storedLine storedLineIf
  rw [h.lineDead]
  split
  · rfl
  · simp only [junkMask, h.1, h.2.2.1, h.2.2.2.1]

theorem sameHome.homeData {s n : State} (h : sameHome s n) (l : Nat) : (homeLine n l).data = (homeLine s l).data := by
  unfold homeLine
  rw [h.2.1, h.lineDead]
  split
  · exact h.storedData l
  · cases tget? s.ms.rc l with
    | none => exact h.storedData l
    | some x => rfl

theorem sameHome.bytes {s n : State} (h : sameHome s n) : bytesKept s n := fun a => by simp only [byteAt, h.homeData]

theorem noteRow_sameHome (s : State) (key row : Nat) (b : Bool) : sameHome s (noteRow s key row b) := by
  unfold noteRow; dsimp only; split <;> exact ⟨rfl, rfl, rfl, rfl, fun _ _ => rfl, fun _ _ => rfl⟩

/-- A channel's count of corrected errors leaves its state. -/
theorem bumpCe_sameHome (s : State) (k g a : Nat) : sameHome s (bumpRf s .hbmChstat F.hbmChstatCe k (chKey (hbmPlace g a).stack (hbmPlace g a).chan)) := by
  refine ⟨rfl, rfl, rfl, rfl, fun j hj => ?_, fun j hj => ?_⟩
  · by_cases he : j = chKey (hbmPlace g a).stack (hbmPlace g a).chan
    · subst he; exact rf_setRf_other _ _ _ _ _ _ (by decide) (by decide) (by decide)
    · exact rf_setRf_away _ _ _ _ (chKey_lt _ _) hj (fun h => he h.2)
  · exact rf_setRf_away _ _ _ _ (chKey_lt _ _) hj (fun h => nomatch h.1)

theorem report_sameHome (s : State) (r : ErrRec) : sameHome s (report s r) := ⟨rfl, rfl, rfl, rfl, fun _ _ => rfl, fun _ _ => rfl⟩

theorem touchLatent_sameHome (s : State) (l i : Nat) : sameHome s (touchLatent s l i) := by
  unfold touchLatent
  split
  · exact .refl s
  · dsimp only
    have k0 : sameHome s { s with err := { s.err with latent := tdel (16 * l + i) s.err.latent } } := ⟨rfl, rfl, rfl, rfl, fun _ _ => rfl, fun _ _ => rfl⟩
    have hn := fun key row b => k0.trans (noteRow_sameHome _ key row b)
    split
    · generalize hg : noteRow _ _ _ _ = q
      have kq : sameHome s q := by rw [← hg]; exact hn _ _ _
      split
      · exact kq.trans ((bumpCe_sameHome _ _ _ _).trans (report_sameHome _ _))
      · exact kq.trans ⟨rfl, rfl, rfl, rfl, fun _ _ => rfl, fun _ _ => rfl⟩
    · generalize hg : noteRow _ _ _ _ = q
      have kq : sameHome s q := by rw [← hg]; exact hn _ _ _
      split
      · exact kq.trans (report_sameHome _ _)
      · exact kq.trans ⟨rfl, rfl, rfl, rfl, fun _ _ => rfl, fun _ _ => rfl⟩

theorem foldl_sameHome {α : Type} (f : State → α → State) (h : ∀ s a, sameHome s (f s a)) (l : List α) (s : State) : sameHome s (l.foldl f s) := by
  induction l generalizing s with
  | nil => exact .refl s
  | cons a t ih => exact (h s a).trans (ih _)

theorem touchLine_sameHome (s : State) (l : Nat) : sameHome s (touchLine s l) := by
  unfold touchLine; split
  · exact .refl s
  · exact foldl_sameHome _ (fun s i => touchLatent_sameHome s l i) _ s

theorem rcTouch_sameHome (s : State) (l : Nat) : sameHome s (rcTouch s l) := by
  unfold rcTouch; dsimp only; split
  · exact .refl s
  · exact ⟨rfl, rfl, rfl, rfl, fun _ _ => rfl, fun _ _ => rfl⟩

theorem rcDrop_sameHome (s : State) (l : Nat) : sameHome s (rcDrop s l) := ⟨rfl, rfl, rfl, rfl, fun _ _ => rfl, fun _ _ => rfl⟩

/-- A line whose channel answers is accessed without a record. -/
theorem touchDead_live {s : State} {l : Nat} (h : lineDead s l = false) : touchDead s l = s := by simp [touchDead, touchDeadIf, h]

theorem touchDead_sameHome (s : State) (l : Nat) : sameHome s (touchDead s l) := by
  unfold touchDead touchDeadIf; split
  · exact report_sameHome _ _
  · exact .refl s

theorem readLine_sameHome (s : State) (l : Nat) : sameHome s (readLine s l).2 :=
  (touchLine_sameHome s l).trans ((touchDead_sameHome _ l).trans (rcTouch_sameHome _ l))

theorem readLineFrom_sameHome (s : State) (d l : Nat) : sameHome s (readLineFrom s d l).2 := by
  unfold readLineFrom; split
  · exact .refl s
  · exact readLine_sameHome s l

theorem homeRead_sameHome (s : State) (pa n : Nat) : sameHome s (homeRead s pa n).2 := by
  unfold homeRead
  have : ∀ (l : List (Nat × Nat × List Byte)) (acc : (List Byte × Option Nat) × State),
      sameHome acc.2 (l.foldl (fun (acc : (List Byte × Option Nat) × State) (c : Nat × Nat × List Byte) =>
        let (x, s) := readLine acc.2 c.1
        let k := c.2.2.length
        let bad := if linePoison x c.2.1 k then some (lineBase c.1 + linePoisonAt x c.2.1 k) else none
        ((acc.1.1 ++ lineBytes x c.2.1 k, acc.1.2.or bad), s)) acc).2 := by
    intro l
    induction l with
    | nil => intro acc; exact .refl _
    | cons c t ih => intro acc; exact (readLine_sameHome acc.2 c.1).trans (ih _)
  exact this _ _

theorem homeReadFrom_sameHome (s : State) (d pa n : Nat) : sameHome s (homeReadFrom s d pa n).2 := by
  unfold homeReadFrom; split
  · exact .refl s
  · exact homeRead_sameHome s pa n

theorem dropLatent_sameHome (s : State) (l o n : Nat) : sameHome s (dropLatent s l o n) := by
  unfold dropLatent; split
  · exact .refl s
  · refine foldl_sameHome _ (fun s i => ?_) _ s
    split
    · exact ⟨rfl, rfl, rfl, rfl, fun _ _ => rfl, fun _ _ => rfl⟩
    · exact .refl s

/-! ## Bytes of numbers and lines -/

theorem testBit_ofLE (bs : List Byte) (m k : Nat) (hk : k < 8) : (ofLE bs).testBit (8 * m + k) = (bs.getD m 0).getLsbD k := by
  induction bs generalizing m with
  | nil => simp [ofLE]
  | cons b t ih =>
    have e : ofLE (b :: t) = 2 ^ 8 * ofLE t + b.toNat := by simp only [ofLE]; omega
    rw [e, Nat.testBit_two_pow_mul_add _ b.isLt]
    cases m with
    | zero => rw [if_pos (by omega)]; simp [BitVec.getLsbD]
    | succ m =>
      rw [if_neg (by omega), show 8 * (m + 1) + k - 8 = 8 * m + k by omega, ih]; simp

theorem ofLE_lt (bs : List Byte) : ofLE bs < 2 ^ (8 * bs.length) := by
  induction bs with
  | nil => simp [ofLE]
  | cons b t ih =>
    simp only [ofLE, List.length_cons, Nat.mul_add, Nat.pow_add, Nat.mul_one]
    have := b.isLt; omega

/-- A byte of a line after bytes were laid over it. -/
theorem overlay_byte (x : Line) (off : Nat) (bs : List Byte) (mk : Bool) (h : off + bs.length ≤ 128) (i : Nat) (hi : i < 128) :
    (overlay x off bs mk).data.extractLsb' (8 * i) 8
      = if off ≤ i ∧ i < off + bs.length then bs.getD (i - off) 0 else x.data.extractLsb' (8 * i) 8 := by
  ext k hk
  rw [BitVec.getElem_extractLsb']
  simp only [overlay, BitVec.getLsbD_or, BitVec.getLsbD_and, BitVec.getLsbD_not, BitVec.getLsbD_ofNat, Nat.testBit_shiftLeft,
    Nat.testBit_two_pow_sub_one]
  have h1 : 8 * i + k < 1024 := by omega
  by_cases hin : off ≤ i ∧ i < off + bs.length
  · have a1 : 8 * i + k ≥ 8 * off := by omega
    have a2 : 8 * i + k - 8 * off < 8 * bs.length := by omega
    simp only [h1, a1, a2, decide_true, Bool.and_self, Bool.not_true, Bool.and_false, Bool.false_or, Bool.true_and, hin]
    rw [show 8 * i + k - 8 * off = 8 * (i - off) + k by omega, testBit_ofLE _ _ _ hk]
    simp [BitVec.getLsbD_eq_getElem hk]
  · have e1 : (decide (8 * i + k ≥ 8 * off) && decide (8 * i + k - 8 * off < 8 * bs.length)) = false := by
      by_cases a : 8 * i + k ≥ 8 * off
      · have : ¬(8 * i + k - 8 * off < 8 * bs.length) := by omega
        simp [this]
      · simp [a]
    have e2 : (decide (8 * i + k ≥ 8 * off) && (ofLE bs).testBit (8 * i + k - 8 * off)) = false := by
      by_cases a : 8 * i + k ≥ 8 * off
      · have : 2 ^ (8 * bs.length) ≤ 2 ^ (8 * i + k - 8 * off) := Nat.pow_le_pow_right (by norm_num) (by omega)
        simp [Nat.testBit_lt_two_pow (lt_of_lt_of_le (ofLE_lt bs) this)]
      · simp [a]
    rw [if_neg hin]
    simp [h1, e1, e2, BitVec.getElem_extractLsb']

theorem testBit_leBytes (v n m k : Nat) (hk : k < 8) : ((leBytes v n).getD m 0).getLsbD k = (decide (m < n) && v.testBit (8 * m + k)) := by
  induction n generalizing v m with
  | zero => simp [leBytes]
  | succ n ih =>
    cases m with
    | zero =>
      simp only [leBytes, List.getD_cons_zero, BitVec.getLsbD_ofNat]
      simp [hk]
    | succ m =>
      simp only [leBytes, List.getD_cons_succ, ih, Nat.testBit_shiftRight, Nat.add_lt_add_iff_right]
      rw [show 8 + (8 * m + k) = 8 * (m + 1) + k by omega]

/-- A key above a bound. -/
theorem tget?_below (lo k : Nat) (t : Table Byte) (ht : tsortedFrom (some lo) t = true) (h : k ≤ lo) : tget? t k = none := by
  induction t generalizing lo with
  | nil => rfl
  | cons p t ih =>
    simp only [tsortedFrom, Bool.and_eq_true, decide_eq_true_eq] at ht
    simp only [tget?]; rw [if_neg (by omega)]; exact ih _ ht.2 (by omega)

theorem rdMem_fold (m : List Host.Cell) (hm : tsortedFrom none m = true) (base n acc j k : Nat) (hj : j < n) (hk : k < 8) :
    (m.foldl (fun acc p => if base ≤ p.1 ∧ p.1 < base + n then acc ||| (p.2.toNat <<< (8 * (p.1 - base))) else acc) acc).testBit (8 * j + k)
      = (acc.testBit (8 * j + k) || (memByte m (base + j)).getLsbD k) := by
  induction m generalizing acc with
  | nil => simp [memByte, tget]
  | cons p t ih =>
    simp only [tsortedFrom, Bool.true_and] at hm
    simp only [List.foldl_cons]
    rw [ih (tsortedFrom_none hm)]
    by_cases he : p.1 = base + j
    · have hb : memByte t (base + j) = 0 := by
        simp only [memByte, tget]; rw [tget?_below _ _ t hm (by omega)]; rfl
      have hp : memByte (p :: t) (base + j) = p.2 := by simp [memByte, tget, tget?, he]
      rw [hb, hp, if_pos (by omega), he]
      have : (p.2.toNat <<< (8 * (base + j - base))).testBit (8 * j + k) = p.2.getLsbD k := by
        rw [Nat.testBit_shiftLeft, show base + j - base = j by omega]
        simp [BitVec.getLsbD]
      rw [Nat.testBit_or, this]; simp
    · have hp : memByte (p :: t) (base + j) = memByte t (base + j) := by simp [memByte, tget, tget?, he]
      rw [hp]
      split
      · rename_i hr
        have : (p.2.toNat <<< (8 * (p.1 - base))).testBit (8 * j + k) = false := by
          rw [Nat.testBit_shiftLeft]
          by_cases a : 8 * j + k ≥ 8 * (p.1 - base)
          · have b : 8 ≤ 8 * j + k - 8 * (p.1 - base) := by omega
            have : p.2.toNat < 2 ^ (8 * j + k - 8 * (p.1 - base)) := lt_of_lt_of_le p.2.isLt (Nat.pow_le_pow_right (by norm_num) b)
            simp [Nat.testBit_lt_two_pow this]
          · simp [a]
        simp [this]
      · rfl

/-- A byte of the number that memory holds at an address. -/
theorem rdMem_testBit (m : List Host.Cell) (hm : Memory.wf m = true) (base n j k : Nat) (hj : j < n) (hk : k < 8) :
    (rdMem m base n).testBit (8 * j + k) = (memByte m (base + j)).getLsbD k := by
  have h : tsortedFrom none m = true := by simp only [Memory.wf, tcanon, Bool.and_eq_true] at hm; exact hm.1
  have := rdMem_fold m h base n 0 j k hj hk
  simpa [rdMem] using this

/-- A byte of a line stored in memory. -/
theorem stored_byte (s : State) (hm : Memory.wf s.ms.mem = true) (l i : Nat) (hd : lineDead s l = false) (hi : i < 128) :
    (storedLine s l).data.extractLsb' (8 * i) 8 = memByte s.ms.mem (lineBase l + i) ^^^ (junkMask s l).extractLsb' (8 * i) 8 := by
  ext k hk
  rw [BitVec.getElem_extractLsb', BitVec.getElem_xor, BitVec.getElem_extractLsb']
  simp only [storedLine, storedLineIf, hd, Bool.false_eq_true, if_false, BitVec.getLsbD_xor, BitVec.getLsbD_ofNat]
  rw [rdMem_testBit _ hm _ _ _ _ hi hk]
  simp [show 8 * i + k < 1024 by omega, BitVec.getLsbD_eq_getElem hk]

theorem storeLine_ms_rest (s : State) (l : Nat) (x : Line) :
    (storeLine s l x) = { s with ms := { s.ms with mem := (storeLine s l x).ms.mem, hbmPoison := (storeLine s l x).ms.hbmPoison, bmPoison := (storeLine s l x).ms.bmPoison } } := by
  unfold storeLine storeLineIf; split
  · rfl
  · dsimp only; split <;> rfl

theorem reg_of_mmio {s n : State} (h : n.mmio = s.mmio) (r : RegName) (i : Nat) : reg n r i = reg s r i := by simp only [reg, h]

theorem lineDead_storeLine (s : State) (l : Nat) (x : Line) (k : Nat) : lineDead (storeLine s l x) k = lineDead s k := by
  have e := storeLine_ms_rest s l x
  have h1 : (storeLine s l x).mmio = s.mmio := by rw [e]
  have h2 : (storeLine s l x).ms.gran = s.ms.gran := by rw [e]
  simp only [lineDead, chanDead, rf, reg_of_mmio h1, h2]; rfl

theorem junkMask_storeLine (s : State) (l : Nat) (x : Line) (k : Nat) : junkMask (storeLine s l x) k = junkMask s k := by
  have e := storeLine_ms_rest s l x
  have h1 : (storeLine s l x).ms.junk = s.ms.junk := by rw [e]
  have h2 : (storeLine s l x).ms.gran = s.ms.gran := by rw [e]
  simp only [junkMask, h1, h2]

/-- A byte of a stored line after a line was stored. -/
theorem storedLine_storeLine (s : State) (hm : Memory.wf s.ms.mem = true) (l : Nat) (x : Line) (hd : lineDead s l = false) (k i : Nat) (hi : i < 128) :
    (storedLine (storeLine s l x) k).data.extractLsb' (8 * i) 8
      = if k = l then x.data.extractLsb' (8 * i) 8 else (storedLine s k).data.extractLsb' (8 * i) 8 := by
  by_cases hk : lineDead s k = true
  · have hne : k ≠ l := by rintro rfl; simp_all
    rw [if_neg hne]
    unfold storedLine storedLineIf
    rw [lineDead_storeLine, hk]; rfl
  · replace hk : lineDead s k = false := by simpa using hk
    rw [stored_byte _ (storeLine_wf s l x hm) k i (by rw [lineDead_storeLine, hk]) hi, junkMask_storeLine]
    have hmem : (storeLine s l x).ms.mem = wrMem s.ms.mem (lineBase l) (leBytes (x.data ^^^ junkMask s l).toNat 128) := by
      unfold storeLine storeLineIf; rw [hd]; dsimp only; simp only [Bool.false_eq_true, if_false]; split <;> rfl
    rw [hmem, memByte_wrMem, leBytes_length]
    by_cases he : k = l
    · subst he
      rw [if_pos (by omega), if_pos rfl, show lineBase k + i - lineBase k = i by omega]
      ext b hb
      rw [BitVec.getElem_xor, ← BitVec.getLsbD_eq_getElem, testBit_leBytes _ _ _ _ hb, BitVec.getElem_extractLsb', BitVec.getElem_extractLsb']
      have : (x.data ^^^ junkMask s k).toNat.testBit (8 * i + b) = (x.data ^^^ junkMask s k).getLsbD (8 * i + b) := rfl
      rw [this, BitVec.getLsbD_xor]
      simp [hi]
    · rw [if_neg (by simp only [lineBase]; omega), if_neg he, stored_byte s hm k i hk hi]

/-! ## Writes at the home -/

/-- Writing a dirty line back changes no byte. -/
theorem writeBack_bytes (s : State) (hm : Memory.wf s.ms.mem = true) (l : Nat) (hd : lineDead s l = false) : bytesKept s (writeBack s l) := by
  intro a
  unfold writeBack
  split
  · rfl
  · rename_i x hx
    rw [touchDead_live hd]
    dsimp only
    have e := storeLine_ms_rest s l x
    have hk : lineDead { storeLine s l x with ms := { (storeLine s l x).ms with rc := tdel l (storeLine s l x).ms.rc } } (a / 128) = lineDead s (a / 128) :=
      lineDead_storeLine s l x (a / 128)
    simp only [byteAt, homeLine, hk]
    split
    · rename_i hk'
      have hne : a / 128 ≠ l := by rintro rfl; simp_all
      exact (storedLine_storeLine s hm l x hd _ _ (Nat.mod_lt _ (by norm_num))).trans (if_neg hne)
    have hrc : (storeLine s l x).ms.rc = s.ms.rc := by rw [e]
    rw [hrc, tget?_tdel]
    have hs : ∀ t : Table Line, storedLine { storeLine s l x with ms := { (storeLine s l x).ms with rc := t } } (a / 128) = storedLine (storeLine s l x) (a / 128) := fun _ => rfl
    rw [hs]
    by_cases he : a / 128 = l
    · rw [if_pos he, he, hx]
      simp only [Option.getD_none, Option.getD_some]
      rw [storedLine_storeLine s hm l x hd _ _ (Nat.mod_lt _ (by norm_num)), if_pos rfl]
    · rw [if_neg he]
      cases tget? s.ms.rc (a / 128) with
      | some y => rfl
      | none =>
        simp only [Option.getD_none]
        rw [storedLine_storeLine s hm l x hd _ _ (Nat.mod_lt _ (by norm_num)), if_neg he]

theorem bytesKept.trans {a b c : State} (h : bytesKept a b) (k : bytesKept b c) : bytesKept a c := fun x => (k x).trans (h x)

theorem storeInjected_bytes (s : State) (hm : Memory.wf s.ms.mem = true) (l o n : Nat) (hd : lineDead s l = false) : bytesKept s (storeInjected s l o n) := by
  unfold storeInjected
  dsimp only
  split
  · set s' : State := { s with err := _ }
    have h1 : bytesKept s s' := fun _ => rfl
    have h2 : bytesKept s' (writeBack s' l) := writeBack_bytes s' hm l hd
    refine bytesKept.trans (bytesKept.trans h1 h2) ?_
    generalize writeBack s' l = s2
    refine sameHome.bytes ((rcDrop_sameHome s2 l).trans ?_)
    generalize rcDrop s2 l = s3
    refine ⟨rfl, rfl, rfl, rfl, fun i hi => ?_, fun i hi => ?_⟩
    · exact rf_setRf_away _ _ _ _ (by norm_num) hi (fun h => nomatch h.1)
    · exact rf_setRf_away _ _ _ _ (by norm_num) hi (fun h => nomatch h.1)
  · exact fun _ => rfl

/-- Bytes written within a line: each reads back, every other byte reads as before; a dead line takes none. -/
theorem homeWriteLine_bytes (s : State) (hs : memorySafe s) (l off : Nat) (bs : List Byte) (mk : Bool) (h : off + bs.length ≤ 128) (a : Nat) :
    byteAt (homeWriteLine s l off bs mk) a
      = if lineDead s l = false ∧ a / 128 = l ∧ off ≤ a % 128 ∧ a % 128 < off + bs.length then bs.getD (a % 128 - off) 0 else byteAt s a := by
  obtain ⟨hm, hr⟩ := hs
  unfold homeWriteLine
  cases hd : lineDead s l with
  | true => simp only [if_true]; rw [if_neg (by simp)]; exact (touchDead_sameHome s l).bytes a
  | false =>
    simp only [Bool.false_eq_true, if_false, true_and]
    set s1 := (if lineHbm l && decide (bs.length < 128) then touchLine s l else s) with e1
    have k1 : sameHome s s1 := by rw [e1]; split; exact touchLine_sameHome s l; exact .refl s
    have hm1 : Memory.wf s1.ms.mem = true := by rw [k1.1]; exact hm
    have hd1 : lineDead s1 l = false := by rw [k1.lineDead, hd]
    set x := overlay (homeLine s1 l) off bs mk with ex
    set s2 := (if lineHbm l then { s1 with ms := { s1.ms with rc := tins l x s1.ms.rc } } else storeLine s1 l x) with e2
    have hm2 : Memory.wf s2.ms.mem = true := by rw [e2]; split; exact hm1; exact storeLine_wf s1 l x hm1
    have hd2 : lineDead s2 l = false := by
      rw [e2]; split
      · exact hd1
      · rw [lineDead_storeLine]; exact hd1
    have k3 := (rcTouch_sameHome s2 l).trans (dropLatent_sameHome (rcTouch s2 l) l off bs.length)
    rw [storeInjected_bytes _ (by rw [k3.1]; exact hm2) _ _ _ (by rw [k3.lineDead]; exact hd2) a, k3.bytes a]
    have ha : a % 128 < 128 := Nat.mod_lt _ (by norm_num)
    have key : (if a / 128 = l ∧ off ≤ a % 128 ∧ a % 128 < off + bs.length then bs.getD (a % 128 - off) 0 else byteAt s1 a)
        = if a / 128 = l then x.data.extractLsb' (8 * (a % 128)) 8 else byteAt s1 a := by
      by_cases hl : a / 128 = l
      · simp only [hl, true_and, if_true]
        rw [ex, overlay_byte _ _ _ _ h _ ha]
        simp only [byteAt, hl]
      · simp only [hl, false_and, if_false]
    rw [← k1.bytes a, key]
    rw [e2]
    split
    · simp only [byteAt, homeLine]
      rw [tget?_tins]
      change (if lineDead s1 (a / 128) = true then storedLine s1 (a / 128) else _).data.extractLsb' _ _ = _
      by_cases hl : a / 128 = l
      · rw [if_pos hl, if_pos hl, hl, hd1]; rfl
      · rw [if_neg hl, if_neg hl]; rfl
    · rename_i hb
      simp only [byteAt, homeLine, lineDead_storeLine]
      by_cases hk' : lineDead s1 (a / 128) = true
      · have hne : a / 128 ≠ l := by rintro h; rw [h, hd1] at hk'; cases hk'
        rw [if_pos hk', if_pos hk', if_neg hne, storedLine_storeLine s1 hm1 l x hd1 _ _ ha, if_neg hne]
      rw [if_neg hk', if_neg hk']
      have e := storeLine_ms_rest s1 l x
      have hrc : (storeLine s1 l x).ms.rc = s1.ms.rc := by rw [e]
      rw [hrc]
      by_cases hl : a / 128 = l
      · rw [if_pos hl, hl, k1.2.1, hr l (by simpa using hb)]
        simp only [Option.getD_none]
        rw [storedLine_storeLine s1 hm1 l x hd1 _ _ ha, if_pos rfl]
      · rw [if_neg hl]
        cases tget? s1.ms.rc (a / 128) with
        | some y => rfl
        | none =>
          simp only [Option.getD_none]
          rw [storedLine_storeLine s1 hm1 l x hd1 _ _ ha, if_neg hl]

theorem sameDead_of {s n : State} (hg : n.ms.gran = s.ms.gran)
    (h1 : ∀ i, i < 65536 → rf n .hbmChstat F.hbmChstatState i = rf s .hbmChstat F.hbmChstatState i)
    (h2 : ∀ i, i < 65536 → rf n .hbmStkstat F.hbmStkstatState i = rf s .hbmStkstat F.hbmStkstatState i) (k : Nat) : lineDead n k = lineDead s k := by
  simp only [lineDead, chanDead, hg]
  rw [h1 _ (chKey_lt _ _), h2 _ (lt_trans (stack_lt _ _) (by norm_num))]

theorem writeBack_dead (s : State) (l k : Nat) : lineDead (writeBack s l) k = lineDead s k := by
  unfold writeBack; split
  · rfl
  · exact (lineDead_storeLine _ l _ k).trans ((touchDead_sameHome s l).lineDead k)

theorem storeInjected_dead (s : State) (l o n k : Nat) : lineDead (storeInjected s l o n) k = lineDead s k := by
  unfold storeInjected
  dsimp only
  split
  · set s' : State := { s with err := _ }
    have h1 : lineDead s' k = lineDead s k := rfl
    have h2 := writeBack_dead s' l k
    rw [h1] at h2
    rw [← h2]
    generalize writeBack s' l = s2
    refine sameDead_of (s := s2) (n := setRf (rcDrop s2 l) .errInj F.errInjGo 0) rfl (fun i hi => ?_) (fun i hi => ?_) k
    · exact rf_setRf_away _ _ _ _ (by norm_num) hi (fun h => nomatch h.1)
    · exact rf_setRf_away _ _ _ _ (by norm_num) hi (fun h => nomatch h.1)
  · rfl

theorem homeWriteLine_dead (s : State) (l off : Nat) (bs : List Byte) (mk : Bool) (k : Nat) :
    lineDead (homeWriteLine s l off bs mk) k = lineDead s k := by
  unfold homeWriteLine
  split
  · exact (touchDead_sameHome s l).lineDead k
  · dsimp only
    rw [storeInjected_dead, (dropLatent_sameHome _ _ _ _).lineDead, (rcTouch_sameHome _ _).lineDead]
    have h : lineDead (if lineHbm l && decide (bs.length < 128) then touchLine s l else s) k = lineDead s k := by
      split
      · exact (touchLine_sameHome s l).lineDead k
      · rfl
    split
    · exact h
    · rw [lineDead_storeLine]; exact h

theorem writeBack_rc (s : State) (l k : Nat) : tget? (writeBack s l).ms.rc k = none ∨ tget? (writeBack s l).ms.rc k = tget? s.ms.rc k := by
  unfold writeBack; split
  · exact .inr rfl
  · rename_i x _
    have e := storeLine_ms_rest (touchDead s l) l x
    have hrc : (storeLine (touchDead s l) l x).ms.rc = s.ms.rc := by rw [e, touchDead_ms]
    simp only [hrc, touchDead_ms, tget?_tdel]
    by_cases h : k = l
    · exact .inl (if_pos h)
    · exact .inr (if_neg h)

theorem storeInjected_rc (s : State) (l o n k : Nat) (h : tget? s.ms.rc k = none) : tget? (storeInjected s l o n).ms.rc k = none := by
  unfold storeInjected
  dsimp only
  split
  · rcases writeBack_rc { s with err := { s.err with armed := false, latent := tins (8 * fget (reg s .errInj) F.errInjAddr / 8) (1 + fget (reg s .errInj) F.errInjKind) s.err.latent } } l k with e | e
    · exact e
    · exact e.trans h
  · exact h

/-- A write at the home keeps memory's form. -/
theorem homeWriteLine_safe (s : State) (h : memorySafe s) (l off : Nat) (bs : List Byte) (mk : Bool) : memorySafe (homeWriteLine s l off bs mk) := by
  refine ⟨homeWriteLine_wf s l off bs mk h.1, fun k hk => ?_⟩
  have h2 := h.2 k hk
  unfold homeWriteLine
  split
  · rw [touchDead_ms]; exact h2
  · dsimp only
    apply storeInjected_rc
    rw [dropLatent_ms, (rcTouch_sameHome _ _).2.1]
    have e : tget? (if lineHbm l && decide (bs.length < 128) then touchLine s l else s).ms.rc k = none := by
      split
      · rw [(touchLine_sameHome s l).2.1]; exact h2
      · exact h2
    split
    · rename_i hl
      dsimp only
      rw [tget?_tins, if_neg (by rintro rfl; simp_all)]; exact e
    · rename_i x _
      rw [storeLine_ms_rest]; exact e

/-- What a list of pieces writes into a byte, by the state before. -/
def pieceByte (s : State) (a : Nat) (v : Byte) (p : Nat × Nat × List Byte) : Byte :=
  if lineDead s p.1 = false ∧ a / 128 = p.1 ∧ p.2.1 ≤ a % 128 ∧ a % 128 < p.2.1 + p.2.2.length then p.2.2.getD (a % 128 - p.2.1) 0 else v

theorem pieces_bytes (mk : Bool) (a : Nat) (L : List (Nat × Nat × List Byte)) (hL : ∀ p ∈ L, p.2.1 + p.2.2.length ≤ 128) (s : State) (hs : memorySafe s) :
    byteAt (L.foldl (fun s c => homeWriteLine s c.1 c.2.1 c.2.2 mk) s) a = L.foldl (pieceByte s a) (byteAt s a) := by
  induction L generalizing s with
  | nil => rfl
  | cons p t ih =>
    simp only [List.foldl_cons]
    rw [ih (fun q hq => hL q (List.mem_cons_of_mem _ hq)) _ (homeWriteLine_safe s hs _ _ _ _),
      homeWriteLine_bytes s hs _ _ _ _ (hL p List.mem_cons_self) a]
    have e : pieceByte (homeWriteLine s p.1 p.2.1 p.2.2 mk) a = pieceByte s a := by
      funext v q; simp only [pieceByte, homeWriteLine_dead]
    rw [e]; rfl

theorem cutLines_fits (pa : Nat) (bs : List Byte) : ∀ p ∈ cutLines pa bs, p.2.1 + p.2.2.length ≤ 128 := by
  intro p hp
  unfold cutLines at hp
  dsimp only at hp
  split at hp
  · rw [List.mem_singleton] at hp; subst hp; dsimp only; omega
  · rcases List.mem_cons.1 hp with rfl | hp
    · simp only [List.length_take]; omega
    · obtain ⟨i, _, rfl⟩ := List.mem_map.1 hp
      simp only [List.length_take]; omega

theorem rangePieces (s : State) (a q : Nat) (bs : List Byte) (n : Nat) (v : Byte) (hd : ∀ i, i < n → lineDead s (q + i) = false) :
    ((List.range n).map (fun i => (q + i, 0, (bs.drop (128 * i)).take 128))).foldl (pieceByte s a) v
      = if 128 * q ≤ a ∧ a < 128 * (q + n) ∧ a - 128 * q < bs.length then bs.getD (a - 128 * q) 0 else v := by
  induction n with
  | zero => rw [if_neg (by omega)]; rfl
  | succ n ih =>
    rw [List.range_succ, List.map_append, List.foldl_append, ih (fun i hi => hd i (by omega))]
    simp only [List.map_cons, List.map_nil, List.foldl_cons, List.foldl_nil, pieceByte, List.length_take, List.length_drop]
    by_cases h : a / 128 = q + n
    · by_cases h2 : a - 128 * q < bs.length
      · rw [if_pos ⟨hd n (by omega), h, by omega, by omega⟩, if_pos (by omega)]
        simp only [List.getD_eq_getElem?_getD]
        rw [List.getElem?_take_of_lt (by omega), List.getElem?_drop, show 128 * n + (a % 128 - 0) = a - 128 * q by omega]
      · rw [if_neg (by omega), if_neg (by omega), if_neg (by omega)]
    · rw [if_neg (by rintro ⟨-, h', -⟩; exact h h')]
      by_cases h3 : 128 * q ≤ a ∧ a < 128 * (q + n) ∧ a - 128 * q < bs.length
      · rw [if_pos h3, if_pos (by omega)]
      · rw [if_neg h3, if_neg (by omega)]

/-- Bytes written at their home: each reads back, every other byte reads as before. -/
theorem homeWrite_bytes (s : State) (hs : memorySafe s) (pa : Nat) (bs : List Byte) (mk : Bool)
    (hd : ∀ x, pa ≤ x → x < pa + bs.length → lineDead s (x / 128) = false) (a : Nat) :
    byteAt (homeWrite s pa bs mk) a = if pa ≤ a ∧ a < pa + bs.length then bs.getD (a - pa) 0 else byteAt s a := by
  unfold homeWrite
  split
  · rename_i h
    have : bs = [] := by simpa using h
    subst this; rw [if_neg (by simp)]
  · rename_i hne
    have hpos : 0 < bs.length := by cases bs with | nil => simp at hne | cons b t => simp
    rw [pieces_bytes mk a _ (cutLines_fits pa bs) s hs]
    unfold cutLines
    dsimp only
    by_cases h : bs.length ≤ 128 - pa % 128
    · rw [if_pos h]
      simp only [List.foldl_cons, List.foldl_nil, pieceByte]
      by_cases ha : pa ≤ a ∧ a < pa + bs.length
      · rw [if_pos ha, if_pos ⟨hd pa (by omega) (by omega), by omega, by omega, by omega⟩, show a % 128 - pa % 128 = a - pa by omega]
      · rw [if_neg ha, if_neg (by omega)]
    · rw [if_neg h]
      simp only [List.foldl_cons]
      have e : (List.range ((bs.length - (128 - pa % 128) + 127) / 128)).map (fun i => (pa / 128 + 1 + i, 0, (bs.drop (128 - pa % 128 + 128 * i)).take 128))
          = (List.range ((bs.length - (128 - pa % 128) + 127) / 128)).map (fun i => (pa / 128 + 1 + i, 0, ((bs.drop (128 - pa % 128)).drop (128 * i)).take 128)) := by
        refine List.map_congr_left (fun i _ => ?_); rw [List.drop_drop]
      rw [e, rangePieces _ _ _ _ _ _ (fun i hi => by
        have := hd (128 * (pa / 128 + 1 + i)) (by omega) (by omega)
        rwa [Nat.mul_div_cancel_left _ (by norm_num)] at this)]
      simp only [pieceByte, List.length_take, List.length_drop]
      by_cases ha : pa ≤ a ∧ a < pa + bs.length
      · rw [if_pos ha]
        by_cases h1 : a / 128 = pa / 128
        · rw [if_neg (by omega), if_pos ⟨hd pa (by omega) (by omega), by omega, by omega, by omega⟩]
          simp only [List.getD_eq_getElem?_getD]
          rw [List.getElem?_take_of_lt (by omega), show a % 128 - pa % 128 = a - pa by omega]
        · rw [if_pos (by omega)]
          simp only [List.getD_eq_getElem?_getD]
          rw [List.getElem?_drop, show 128 - pa % 128 + (a - 128 * (pa / 128 + 1)) = a - pa by omega]
      · rw [if_neg ha, if_neg (by omega), if_neg (by omega)]

end Sys2Proof.Machine
end

