-- ==== Sys2Proof/Laws/Translate.lean ====
section
/-! SUPPORT. What a translation leaves alone. -/

namespace Sys2Proof.Machine

open Sys2Proof.Safety

/-- As `walkFrame`, in the form that composes. -/
def walkKeeps (c : Nat) (s n : State) : Prop :=
  n = { s with cells := n.cells, err := n.err, ms := { s.ms with hbmPoison := n.ms.hbmPoison, bmPoison := n.ms.bmPoison, rcSets := n.ms.rcSets, rcOut := n.ms.rcOut }, mmio := n.mmio, hbm := queued s n }
  ∧ (∀ d, d ≠ c → cell n d = cell s d)
  ∧ cell n c = { cell s c with itlb := (cell n c).itlb, dtlb := (cell n c).dtlb, l2tlb := (cell n c).l2tlb, walker := (cell n c).walker }
  ∧ regsKept [.hbmChstat] s n
  ∧ sameHome s n

theorem walkKeeps.frame {c : Nat} {s n : State} (h : walkKeeps c s n) : walkFrame c s n := ⟨h.1, h.2.1, h.2.2.1, h.2.2.2.1, h.2.2.2.2.bytes⟩

theorem walkKeeps.refl (c : Nat) (s : State) : walkKeeps c s s := ⟨rfl, fun _ _ => rfl, rfl, fun _ _ _ _ => rfl, .refl s⟩

theorem walkKeeps.trans {c : Nat} {a b d : State} (h : walkKeeps c a b) (k : walkKeeps c b d) : walkKeeps c a d := by
  refine ⟨?_, fun e he => (k.2.1 e he).trans (h.2.1 e he), ?_, fun r i hi hr => (k.2.2.2.1 r i hi hr).trans (h.2.2.2.1 r i hi hr), h.2.2.2.2.trans k.2.2.2.2⟩
  · rw [k.1, h.1]; rfl
  · rw [k.2.2.1, h.2.2.1]

theorem regsKept_refl (l : List RegName) (s : State) : regsKept l s s := fun _ _ _ _ => rfl
theorem regsKept_trans {l : List RegName} {a b c : State} (h : regsKept l a b) (k : regsKept l b c) : regsKept l a c :=
  fun r i hi hr => (k r i hi hr).trans (h r i hi hr)
theorem regsKept_mono {l m : List RegName} {a b : State} (h : regsKept l a b) (hm : ∀ r ∈ l, r ∈ m) : regsKept m a b :=
  fun r i hi hr => h r i hi (fun e => hr (hm r e))

/-- What reading at a home leaves alone. -/
def readKeeps (s n : State) : Prop :=
  n = { s with err := n.err, ms := { s.ms with hbmPoison := n.ms.hbmPoison, bmPoison := n.ms.bmPoison, rcSets := n.ms.rcSets, rcOut := n.ms.rcOut }, mmio := n.mmio, hbm := queued s n }
  ∧ regsKept [.hbmChstat] s n ∧ sameHome s n

theorem readKeeps.refl (s : State) : readKeeps s s := ⟨rfl, regsKept_refl _ s, .refl s⟩
theorem readKeeps.trans {a b d : State} (h : readKeeps a b) (k : readKeeps b d) : readKeeps a d :=
  ⟨by rw [k.1, h.1]; rfl, regsKept_trans h.2.1 k.2.1, h.2.2.trans k.2.2⟩

theorem readKeeps.walk {s n : State} (h : readKeeps s n) (c : Nat) : walkKeeps c s n := by
  have hc : ∀ d, cell n d = cell s d := fun d => by rw [h.1]; rfl
  exact ⟨by rw [h.1]; rfl, fun d _ => hc d, by rw [hc c], h.2.1, h.2.2⟩

theorem readKeeps.thread {s n : State} (h : readKeeps s n) (t : Tid) : Machine.thread n t = Machine.thread s t := by rw [h.1]; rfl

theorem noteRow_keeps (s : State) (key row : Nat) (b : Bool) : readKeeps s (noteRow s key row b) := by
  refine ⟨?_, ?_, noteRow_sameHome s key row b⟩ <;> (unfold noteRow; dsimp only; split <;> first | rfl | exact regsKept_refl _ _)

theorem report_keeps (s : State) (r : ErrRec) : readKeeps s (report s r) := ⟨rfl, fun _ _ _ _ => rfl, report_sameHome s r⟩

theorem touchLatent_keeps (s : State) (l i : Nat) : readKeeps s (touchLatent s l i) := by
  unfold touchLatent
  split
  · exact .refl s
  · dsimp only
    have k0 : readKeeps s { s with err := { s.err with latent := tdel (16 * l + i) s.err.latent } } :=
      ⟨rfl, fun _ _ _ _ => rfl, ⟨rfl, rfl, rfl, rfl, fun _ _ => rfl, fun _ _ => rfl⟩⟩
    have hn := fun key row b => k0.trans (noteRow_keeps _ key row b)
    split
    · generalize hg : noteRow _ _ _ _ = q
      have kq : readKeeps s q := by rw [← hg]; exact hn _ _ _
      split
      · refine kq.trans (readKeeps.trans ⟨rfl, fun r j hj hr => ?_, bumpCe_sameHome q _ _ _⟩ (report_keeps _ _))
        exact reg_setReg_other _ _ (chKey_lt _ _) hj (fun h => hr (by simp [h.1]))
      · exact kq.trans ⟨rfl, fun _ _ _ _ => rfl, ⟨rfl, rfl, rfl, rfl, fun _ _ => rfl, fun _ _ => rfl⟩⟩
    · generalize hg : noteRow _ _ _ _ = q
      have kq : readKeeps s q := by rw [← hg]; exact hn _ _ _
      split
      · exact kq.trans (report_keeps _ _)
      · exact kq.trans ⟨rfl, fun _ _ _ _ => rfl, ⟨rfl, rfl, rfl, rfl, fun _ _ => rfl, fun _ _ => rfl⟩⟩

theorem foldl_readKeeps {α : Type} (f : State → α → State) (h : ∀ s a, readKeeps s (f s a)) (l : List α) (s : State) : readKeeps s (l.foldl f s) := by
  induction l generalizing s with
  | nil => exact .refl s
  | cons a t ih => exact (h s a).trans (ih _)

theorem rcTouch_keeps (s : State) (l : Nat) : readKeeps s (rcTouch s l) := by
  refine ⟨?_, ?_, rcTouch_sameHome s l⟩ <;> (unfold rcTouch; dsimp only; split <;> first | rfl | exact regsKept_refl _ _)

theorem touchLine_keeps (s : State) (l : Nat) : readKeeps s (touchLine s l) := by
  unfold touchLine; split
  · exact .refl s
  · exact foldl_readKeeps _ (fun s i => touchLatent_keeps s l i) _ s

theorem touchDeadIf_keeps (d : Bool) (s : State) (l : Nat) : readKeeps s (touchDeadIf d s l) := by
  unfold touchDeadIf; split
  · exact report_keeps _ _
  · exact .refl s

theorem readLine_keeps (s : State) (l : Nat) : readKeeps s (readLine s l).2 := (touchLine_keeps s l).trans ((touchDeadIf_keeps _ _ l).trans (rcTouch_keeps _ l))

theorem readLineFrom_keeps (s : State) (d l : Nat) : readKeeps s (readLineFrom s d l).2 := by
  unfold readLineFrom; split
  · exact .refl s
  · exact readLine_keeps s l

theorem homeRead_keeps (s : State) (pa n : Nat) : readKeeps s (homeRead s pa n).2 := by
  unfold homeRead
  have : ∀ (l : List (Nat × Nat × List Byte)) (acc : (List Byte × Option Nat) × State),
      readKeeps acc.2 (l.foldl (fun (acc : (List Byte × Option Nat) × State) (c : Nat × Nat × List Byte) =>
        let (x, s) := readLine acc.2 c.1
        let k := c.2.2.length
        let bad := if linePoison x c.2.1 k then some (lineBase c.1 + linePoisonAt x c.2.1 k) else none
        ((acc.1.1 ++ lineBytes x c.2.1 k, acc.1.2.or bad), s)) acc).2 := by
    intro l
    induction l with
    | nil => intro acc; exact .refl _
    | cons c t ih => intro acc; exact (readLine_keeps acc.2 c.1).trans (ih _)
  exact this _ _

theorem homeReadFrom_keeps (s : State) (d pa n : Nat) : readKeeps s (homeReadFrom s d pa n).2 := by
  unfold homeReadFrom; split
  · exact .refl s
  · exact homeRead_keeps s pa n

/-- A line's request taken by its stack changes the stack's queue alone. -/
theorem drawTokens_keeps (s : State) (k p : Nat) : readKeeps s (drawTokens s k p) := ⟨rfl, regsKept_refl _ _, ⟨rfl, rfl, rfl, rfl, fun _ _ => rfl, fun _ _ => rfl⟩⟩

theorem stackTaken_keeps (s : State) (p l no : Nat) : readKeeps s (stackTaken s p l no) := by
  unfold stackTaken; split
  · exact .refl s
  · exact (drawTokens_keeps s _ p).trans ⟨rfl, regsKept_refl _ _, ⟨rfl, rfl, rfl, rfl, fun _ _ => rfl, fun _ _ => rfl⟩⟩

theorem lineTaken_keeps (s : State) (c l : Nat) : readKeeps s (lineTaken s c l) := by
  unfold lineTaken; split
  · split
    · exact drawTokens_keeps s _ _
    · exact .refl s
  · exact stackTaken_keeps s _ l _

theorem coreRead_keeps (s : State) (c pa n : Nat) : readKeeps s (coreRead s c pa n).2 :=
  (foldl_readKeeps _ (fun s l => lineTaken_keeps s c l) _ s).trans (homeReadFrom_keeps _ _ _ _)

theorem coreLine_keeps (s : State) (c l : Nat) : readKeeps s (coreLine s c l).2 := (lineTaken_keeps s c l).trans (readLineFrom_keeps _ _ _)

/-- A change of a core's TLBs and table-entry cache. -/
theorem modCell_walkKeeps (s : State) (c : Nat) (f : CellS → CellS)
    (h : f (cell s c) = { cell s c with itlb := (f (cell s c)).itlb, dtlb := (f (cell s c)).dtlb, l2tlb := (f (cell s c)).l2tlb, walker := (f (cell s c)).walker }) :
    walkKeeps c s (modCell s c f) := by
  refine ⟨rfl, fun d hd => ?_, ?_, fun _ _ _ _ => rfl, ⟨rfl, rfl, rfl, rfl, fun _ _ => rfl, fun _ _ => rfl⟩⟩
  · rw [cell_modCell, if_neg hd]
  · simp only [cell_modCell_same]; exact h

theorem asEntry_keeps (s : State) (c : Nat) (a : BitVec 6) : readKeeps s (asEntry s c a).2 := by
  have k := coreRead_keeps s c (4096 * rf s .devAstbase F.devAstbaseBase + 32 * a.toNat) 32
  unfold asEntry
  dsimp only
  generalize coreRead s c (4096 * rf s .devAstbase F.devAstbaseBase + 32 * a.toNat) 32 = r at k
  obtain ⟨⟨bs, bad⟩, s2⟩ := r
  split
  · exact .refl s
  · dsimp only; split
    · exact k
    · split <;> exact k

theorem readPte_keeps (s : State) (c pa lvl : Nat) : walkKeeps c s (readPte s c pa lvl).2 := by
  have k := (coreRead_keeps s c pa 8).walk c
  unfold readPte
  generalize coreRead s c pa 8 = r at k
  obtain ⟨⟨bs, bad⟩, s2⟩ := r
  split
  · rename_i p _
    exact modCell_walkKeeps s c (fun x => { x with walker := lruPut 64 (fun o => o.1 = pa) p x.walker }) rfl
  · dsimp only at k ⊢; split
    · exact k
    · split
      · exact k.trans (modCell_walkKeeps s2 c (fun x => { x with walker := lruPut 64 (fun o => o.1 = pa) (pa, wd (ofLE bs)) x.walker }) rfl)
      · exact k

theorem walkFrom_keeps (c : Nat) (a : BitVec 6) (u : Bool) (va lvl table : Nat) (s : State) : walkKeeps c s (walkFrom c a u va lvl table s).2 := by
  induction lvl generalizing table s with
  | zero =>
    unfold walkFrom
    have k := readPte_keeps s c (table + 8 * ((va >>> (12 + 9 * 0)) % 512)) 0
    generalize readPte s c (table + 8 * ((va >>> (12 + 9 * 0)) % 512)) 0 = r at k
    obtain ⟨o, s2⟩ := r
    cases o with
    | none => exact k
    | some w =>
      dsimp only at k ⊢
      split
      · exact k
      · split
        · exact k
        · split
          · exact k
          · split <;> exact k
  | succ n ih =>
    unfold walkFrom
    have k := readPte_keeps s c (table + 8 * ((va >>> (12 + 9 * (n + 1))) % 512)) (n + 1)
    generalize readPte s c (table + 8 * ((va >>> (12 + 9 * (n + 1))) % 512)) (n + 1) = r at k
    obtain ⟨o, s2⟩ := r
    cases o with
    | none => exact k
    | some w =>
      dsimp only at k ⊢
      split
      · exact k
      · split
        · split
          · exact k
          · exact k.trans (ih _ _)
        · split
          · exact k
          · split <;> exact k

theorem fillFirst_tlb (k : Access) (e : TlbEnt) (x : CellS) :
    fillFirst k e x = { x with itlb := (fillFirst k e x).itlb, dtlb := (fillFirst k e x).dtlb, l2tlb := (fillFirst k e x).l2tlb, walker := (fillFirst k e x).walker } := by
  cases k <;> rfl

theorem fill_tlb (k : Access) (e : TlbEnt) (x : CellS) :
    let y := fillFirst k e (fillSecond e x)
    y = { x with itlb := y.itlb, dtlb := y.dtlb, l2tlb := y.l2tlb, walker := y.walker } := by
  cases k <;> rfl

theorem walk_keeps (s : State) (c : Nat) (a : BitVec 6) (va : Nat) : walkKeeps c s (walk s c a va).2 := by
  unfold walk
  have h1 := (asEntry_keeps s c a).walk c
  generalize asEntry s c a = r at h1
  obtain ⟨o, s2⟩ := r
  cases o with
  | error e => exact h1
  | ok p =>
    obtain ⟨u, root⟩ := p
    exact h1.trans (walkFrom_keeps c a u va 3 root s2)

theorem tlbLookup_cell {x y : CellS} {k : Access} {a : BitVec 6} {va : Nat} {e : TlbEnt} (h : tlbLookup x k a va = some (e, y)) :
    y = { x with itlb := y.itlb, dtlb := y.dtlb, l2tlb := y.l2tlb, walker := y.walker } := by
  unfold tlbLookup at h
  dsimp only at h
  split at h
  · simp only [Option.some.injEq, Prod.mk.injEq] at h
    rw [← h.2]; exact fillFirst_tlb ..
  · split at h
    · simp only [Option.some.injEq, Prod.mk.injEq] at h
      rw [← h.2]; cases k <;> rfl
    · cases h

theorem findEnt_keeps (s : State) (c : Nat) (a : BitVec 6) (va : Word) (k : Access) : walkKeeps c s (findEnt s c a va k).2 := by
  unfold findEnt
  split
  · exact .refl c s
  · split
    · rename_i e x hx
      exact modCell_walkKeeps s c (fun _ => x) (tlbLookup_cell hx)
    · have h := walk_keeps s c a va.toNat
      generalize walk s c a va.toNat = r at h
      obtain ⟨o, s2⟩ := r
      cases o with
      | error e => exact h
      | ok e => exact h

theorem fillTlbs_keeps (s : State) (c : Nat) (k : Access) (e : TlbEnt) (r : Except Exc Nat) : walkKeeps c s (fillTlbs s c k e r) := by
  have h := modCell_walkKeeps s c (fun x => fillFirst k e (fillSecond e x)) (fill_tlb k e _)
  unfold fillTlbs; split
  · exact h
  · split
    · exact h
    · exact .refl c s

/-- What a translation can change (R86, R98). -/
theorem translate_keeps (s : State) (c : Nat) (x : XCtx) (va : Word) (k : Access) : walkKeeps c s (translate s c x va k).2 := by
  unfold translate
  split
  · exact .refl c s
  · have h := findEnt_keeps s c x.asid va k
    generalize findEnt s c x.asid va k = r at h
    obtain ⟨o, s2⟩ := r
    cases o with
    | error e => exact h
    | ok e =>
      obtain ⟨e, walked⟩ := e
      dsimp only at h ⊢
      cases walked
      · exact h
      · exact h.trans (fillTlbs_keeps ..)

theorem walkKeeps.thread {c : Nat} {s n : State} (h : walkKeeps c s n) (t : Tid) : Machine.thread n t = Machine.thread s t := by rw [h.1]; rfl

end Sys2Proof.Machine
end

