-- ==== Sys2Proof/Laws/Issue.lean ====
section
/-! SUPPORT. What issuing an instruction can do (R30–R33, R471): the counters' events, the cell's last thread, the marks of yield. -/

namespace Sys2Proof.Machine

open Sys2Proof.Safety

/-- What only the performance counters and their notices can change. -/
def counterFrame (s n : State) : Prop :=
  n = { s with mmio := n.mmio, out := n.out, pba := n.pba, msixDue := n.msixDue } ∧ regsKept [.perfCnt, .perfEvt] s n

theorem counterFrame.refl (s : State) : counterFrame s s := ⟨rfl, fun _ _ _ _ => rfl⟩

theorem counterFrame.trans {a b c : State} (h : counterFrame a b) (k : counterFrame b c) : counterFrame a c := by
  refine ⟨?_, fun r i hi hr => (k.2 r i hi hr).trans (h.2 r i hi hr)⟩
  rw [k.1, h.1]

theorem msixPost_counterFrame (s : State) (v : Nat) : counterFrame s (msixPost s v) := by
  unfold msixPost
  split
  · exact .refl s
  · split
    · exact ⟨rfl, fun _ _ _ _ => rfl⟩
    · exact ⟨rfl, fun _ _ _ _ => rfl⟩

theorem emit_counterFrame (s : State) (o : Out) : counterFrame s (emit s o) := ⟨rfl, fun _ _ _ _ => rfl⟩

theorem setRf_counterFrame (s : State) (r : RegName) (f : Fld) (v i : Nat) (hr : r = .perfCnt ∨ r = .perfEvt) (hi : i < 65536) :
    counterFrame s (setRf s r f v i) := by
  refine ⟨rfl, fun q j hj hq => ?_⟩
  unfold setRf
  refine reg_setReg_other s _ hi hj ?_
  rintro ⟨rfl, -⟩
  rcases hr with rfl | rfl <;> simp at hq

/-- A counter's key is one of the 6,912 of the cells' sites. -/
theorem perfKey_lt (s : State) {c j : Nat} (hc : c < 768) (hj : j < 8) : perfKey s c j < 65536 := by
  have := (cell s c).site.isLt
  unfold perfKey; omega

theorem perfBump_counterFrame (s : State) {c j : Nat} (n : Nat) (hc : c < 768) (hj : j < 8) : counterFrame s (perfBump s c j n) := by
  have hk := perfKey_lt s hc hj
  unfold perfBump
  dsimp only
  split
  · exact setRf_counterFrame _ _ _ _ _ (.inr rfl) hk
  · have h1 := setRf_counterFrame s .perfCnt F.perfCntCount (min (2 ^ 48 - 1) (rf s .perfCnt F.perfCntCount (perfKey s c j) + n)) _ (.inl rfl) hk
    split
    · exact h1
    · refine h1.trans ?_
      generalize setRf s .perfCnt F.perfCntCount _ _ = s1
      have h2 := setRf_counterFrame s1 .perfEvt F.perfEvtOvf 1 _ (.inr rfl) hk
      split
      · exact h2
      · refine h2.trans ?_
        split
        · exact (emit_counterFrame _ _).trans (msixPost_counterFrame _ _)
        · exact emit_counterFrame _ _

/-- An event counted changes the counters alone (R471–R474). -/
theorem perfEvent_counterFrame (s : State) (c ev : Nat) (thr : Option Nat) (n : Nat) : counterFrame s (perfEvent s c ev thr n) := by
  unfold perfEvent
  split
  · exact .refl s
  · rename_i h
    have hc : c < 768 := by simp [isMantle] at h; omega
    have : ∀ (l : List Nat), (∀ j ∈ l, j < 8) → ∀ s, counterFrame s (l.foldl (fun s j => if perfCounts s c j ev thr then perfBump s c j n else s) s) := by
      intro l
      induction l with
      | nil => intro _ s; exact .refl s
      | cons j t ih =>
        intro hl s
        refine counterFrame.trans ?_ (ih (fun k hk => hl k (List.mem_cons_of_mem _ hk)) _)
        dsimp only; split
        · exact perfBump_counterFrame s n hc (hl j List.mem_cons_self)
        · exact .refl s
    exact this _ (by simp) s

theorem counterFrame.thread {s n : State} (h : counterFrame s n) (t : Tid) : Machine.thread n t = Machine.thread s t := by
  rw [h.1]; rfl

theorem counterFrame.cell {s n : State} (h : counterFrame s n) (c : Nat) : Machine.cell n c = Machine.cell s c := by
  rw [h.1]; rfl

/-! ## Issue -/

/-- Threads changed only in their yield marks. -/
theorem clearYield (l : List Tid) (s : State) :
    let n := l.foldl (fun s u => if (thread s u).yield then modThread s u (fun th => { th with yield := false }) else s) s
    n = { s with threads := n.threads } ∧ ∀ u, thread n u = { thread s u with yield := (thread n u).yield } := by
  induction l generalizing s with
  | nil => exact ⟨rfl, fun _ => rfl⟩
  | cons a t ih =>
    simp only [List.foldl_cons]
    split
    · obtain ⟨h1, h2⟩ := ih (modThread s a (fun th => { th with yield := false }))
      refine ⟨by rw [h1]; rfl, fun u => ?_⟩
      rw [h2 u]
      rw [thread_modThread]
      split
      · subst_vars; rfl
      · rfl
    · exact ih s

/-- What an issue does to the cells: the last thread of the thread's own. -/
theorem issued_cell (s : State) (t : Tid) (c : Nat) :
    cell (issued s t) c = if c = cellOf t then { cell s c with last := Fin.ofNat 8 (thrOf t) } else cell s c := by
  unfold issued
  dsimp only
  set s1 := modCell s (cellOf t) (fun x => { x with last := Fin.ofNat 8 (thrOf t) }) with e1
  obtain ⟨h1, -⟩ := clearYield (tidsOf (cellOf t)) s1
  rw [(perfEvent_counterFrame ..).cell, (perfEvent_counterFrame ..).cell, (perfEvent_counterFrame ..).cell]
  have : ∀ s2 : State, cell (if (oldestUnresolved (thread s2 t)).isSome then modThread s2 t (fun th => { th with younger := th.younger + 1 }) else s2) c = cell s2 c := by
    intro s2; split <;> rfl
  rw [this, h1]
  show cell s1 c = _
  rw [e1, cell_modCell]
  split
  · subst_vars; rfl
  · rfl

/-- What an issue does to its own thread: its yield mark, and the count of the window behind an unresolved instruction. -/
theorem issued_frame (s : State) (t : Tid) :
    issueFrame t s (issued s t)
    ∧ thread (issued s t) t = { thread s t with yield := (thread (issued s t) t).yield, younger := (thread (issued s t) t).younger } := by
  unfold issued
  simp only
  set s1 := modCell s (cellOf t) (fun x => { x with last := Fin.ofNat 8 (thrOf t) }) with e1
  obtain ⟨h1, h2⟩ := clearYield (tidsOf (cellOf t)) s1
  simp only at h1 h2
  set s2 := (tidsOf (cellOf t)).foldl (fun s u => if (thread s u).yield then modThread s u (fun th => { th with yield := false }) else s) s1 with e2
  set s3 := (if (oldestUnresolved (thread s2 t)).isSome then modThread s2 t (fun th => { th with younger := th.younger + 1 }) else s2) with e3
  have h3 : s3 = { s2 with threads := s3.threads } := by rw [e3]; split <;> rfl
  have h4 : ∀ u, u ≠ t → thread s3 u = thread s2 u := by
    intro u hu; rw [e3]; split
    · rw [thread_modThread, if_neg hu]
    · rfl
  have h5 : thread s3 t = { thread s2 t with younger := (thread s3 t).younger } := by
    rw [e3]; split
    · simp
    · rfl
  have k1 := perfEvent_counterFrame s3 (cellOf t) 0x01 none 1
  have k2 := (k1.trans (perfEvent_counterFrame _ (cellOf t) 0x02 (some (thrOf t)) 1)).trans (perfEvent_counterFrame _ (cellOf t) (stallCode 1 0) (some (thrOf t)) 1)
  generalize perfEvent (perfEvent (perfEvent s3 (cellOf t) 0x01 none) (cellOf t) 0x02 (some (thrOf t))) (cellOf t) (stallCode 1 0) (some (thrOf t)) = s4 at k2
  have hs1 : ∀ u, thread s1 u = thread s u := fun u => rfl
  refine ⟨⟨?_, ?_, ?_, ?_, ?_⟩, ?_⟩
  · rw [k2.1, h3, h1, e1]; rfl
  · intro u hu; rw [k2.thread, h4 u hu, h2 u, hs1]
  · intro c; rw [k2.cell]
    have : cell s3 c = cell s1 c := by rw [h3, h1]; rfl
    rw [this, e1, cell_modCell]
    split
    · subst_vars; rfl
    · rfl
  · intro r i hi hr; rw [k2.2 r i hi hr]
    rw [h3, h1, e1]; rfl
  · have hms : s4.ms = s.ms := by rw [k2.1, h3, h1, e1]; rfl
    refine (sameHome_of_regs hms (l := [.perfCnt, .perfEvt]) (fun r i hi hr => ?_) (by decide) (by decide)).bytes
    rw [k2.2 r i hi hr]
    rw [h3, h1, e1]; rfl
  · rw [k2.thread, h5, h2 t, hs1]

end Sys2Proof.Machine
end

