-- ==== Sys2Proof/Laws/Path.lean ====
section
/-! SUPPORT. What a cell's memory path leaves alone: lookups, training of streams, stores into the write buffer. -/

namespace Sys2Proof.Machine

open Sys2Proof.Safety

/-- As `pathFrame`, in the form that composes. -/
def pathKeeps (t : Tid) (s n : State) : Prop :=
  n = { s with threads := n.threads, cells := n.cells, mmio := n.mmio, out := n.out, pba := n.pba, msixDue := n.msixDue }
  ∧ (∀ u, u ≠ t → thread n u = { thread s u with yield := (thread n u).yield })
  ∧ (∀ c, c ≠ cellOf t → cell n c = cell s c)
  ∧ cell n (cellOf t) = { cell s (cellOf t) with
      last := (cell n (cellOf t)).last, l1 := (cell n (cellOf t)).l1, victim := (cell n (cellOf t)).victim, wb := (cell n (cellOf t)).wb,
      streams := (cell n (cellOf t)).streams, streamNo := (cell n (cellOf t)).streamNo }
  ∧ regsKept [.perfCnt, .perfEvt] s n

theorem pathKeeps.ms {t : Tid} {s n : State} (h : pathKeeps t s n) : n.ms = s.ms := by rw [h.1]

theorem pathKeeps.frame {t : Tid} {s n : State} (h : pathKeeps t s n) : pathFrame t s n :=
  ⟨h.1, h.2.1, h.2.2.1, h.2.2.2.1, h.2.2.2.2, (sameHome_of_regs h.ms h.2.2.2.2 (by decide) (by decide)).bytes⟩

theorem pathKeeps.trans {t : Tid} {a b d : State} (h : pathKeeps t a b) (k : pathKeeps t b d) : pathKeeps t a d := by
  refine ⟨?_, fun u hu => ?_, fun c hc => (k.2.2.1 c hc).trans (h.2.2.1 c hc), ?_, regsKept_trans h.2.2.2.2 k.2.2.2.2⟩
  · rw [k.1, h.1]
  · rw [k.2.1 u hu, h.2.1 u hu]
  · rw [k.2.2.2.1, h.2.2.2.1]

theorem pathKeeps.refl (t : Tid) (s : State) : pathKeeps t s s := ⟨rfl, fun _ _ => rfl, fun _ _ => rfl, rfl, regsKept_refl _ s⟩

/-- A thread that is not the cell's issuing one keeps its cell: issue marks only the thread's own cell. -/
theorem issued_pathKeeps (s : State) (t : Tid) : pathKeeps t s (issued s t) := by
  obtain ⟨⟨f1, f2, f3, f4, f5⟩, g⟩ := issued_frame s t
  refine ⟨f1, f2, fun c hc => ?_, ?_, f4⟩
  · rw [issued_cell, if_neg hc]
  · rw [f3]

/-- What lookups of core c leave alone: no thread changes. -/
def cacheKeeps (c : Nat) (s n : State) : Prop :=
  n = { s with cells := n.cells, mmio := n.mmio, out := n.out, pba := n.pba, msixDue := n.msixDue }
  ∧ (∀ d, d ≠ c → cell n d = cell s d)
  ∧ cell n c = { cell s c with
      l1 := (cell n c).l1, victim := (cell n c).victim, streams := (cell n c).streams, streamNo := (cell n c).streamNo }
  ∧ regsKept [.perfCnt, .perfEvt] s n

theorem cacheKeeps.thread {c : Nat} {s n : State} (h : cacheKeeps c s n) (t : Tid) : Machine.thread n t = Machine.thread s t := by rw [h.1]; rfl

theorem cacheKeeps.path {t : Tid} {s n : State} (h : cacheKeeps (cellOf t) s n) : pathKeeps t s n :=
  ⟨by rw [h.1], fun u _ => by rw [h.thread], h.2.1, by rw [h.2.2.1], h.2.2.2⟩

theorem cacheKeeps.refl (c : Nat) (s : State) : cacheKeeps c s s := ⟨rfl, fun _ _ => rfl, rfl, regsKept_refl _ s⟩

theorem cacheKeeps.trans {c : Nat} {a b d : State} (h : cacheKeeps c a b) (k : cacheKeeps c b d) : cacheKeeps c a d := by
  refine ⟨?_, fun e he => (k.2.1 e he).trans (h.2.1 e he), ?_, regsKept_trans h.2.2.2 k.2.2.2⟩
  · rw [k.1, h.1]
  · rw [k.2.2.1, h.2.2.1]

theorem cacheKeeps.bytes {c : Nat} {s n : State} (h : cacheKeeps c s n) : bytesKept s n :=
  (sameHome_of_regs (by rw [h.1]) h.2.2.2 (by decide) (by decide)).bytes

theorem counterFrame.cacheKeeps {s n : State} (h : counterFrame s n) (c : Nat) : cacheKeeps c s n :=
  ⟨by rw [h.1], fun d _ => h.cell d, by rw [h.cell], h.2⟩

/-- A change of the memory path's parts of a cell. -/
theorem modCell_cacheKeeps (s : State) (c : Nat) (f : CellS → CellS)
    (h : f (cell s c) = { cell s c with
      l1 := (f (cell s c)).l1, victim := (f (cell s c)).victim, streams := (f (cell s c)).streams, streamNo := (f (cell s c)).streamNo }) :
    cacheKeeps c s (modCell s c f) := by
  refine ⟨rfl, fun d hd => ?_, ?_, fun _ _ _ _ => rfl⟩
  · rw [cell_modCell, if_neg hd]
  · simp only [cell_modCell_same]; exact h

/-- A change of the thread alone. -/
theorem modThread_pathKeeps (s : State) (t : Tid) (f : Thread → Thread) : pathKeeps t s (modThread s t f) := by
  refine ⟨rfl, fun u hu => ?_, fun _ _ => rfl, rfl, fun _ _ _ _ => rfl⟩
  rw [thread_modThread, if_neg hu]

theorem usefulIf_keeps (s : State) (c : Nat) (x : CLine) (d : Bool) : cacheKeeps c s (usefulIf s c x d) := by
  unfold usefulIf; split
  · exact .refl c s
  · split
    · exact (perfEvent_counterFrame ..).cacheKeeps c
    · exact .refl c s

theorem earlyIf_keeps (s : State) (c : Nat) (x : CLine) : cacheKeeps c s (earlyIf s c x) := by
  unfold earlyIf; split
  · exact .refl c s
  · exact ((perfEvent_counterFrame ..).cacheKeeps c).trans (modCell_cacheKeeps _ c _ rfl)

theorem victimPut_keeps (s : State) (c : Nat) (x : CLine) : cacheKeeps c s (victimPut s c x) := by
  unfold victimPut; dsimp only; split
  · exact modCell_cacheKeeps s c _ rfl
  · split
    · exact (modCell_cacheKeeps s c _ rfl).trans (earlyIf_keeps _ c _)
    · exact modCell_cacheKeeps s c _ rfl

theorem l1Fill_keeps (s : State) (c : Nat) (x : CLine) : cacheKeeps c s (l1Fill s c x) := by
  unfold l1Fill; dsimp only
  split
  · split
    · exact modCell_cacheKeeps s c _ rfl
    · exact (modCell_cacheKeeps s c _ rfl).trans (victimPut_keeps _ c _)
  · exact modCell_cacheKeeps s c _ rfl

theorem l1Lookup_keeps (s : State) (c : Nat) (l : Nat) (d : Bool) : cacheKeeps c s (l1Lookup s c l d).2 := by
  unfold l1Lookup; dsimp only
  split
  · split
    · rename_i x _
      dsimp only
      exact (usefulIf_keeps s c x d).trans (modCell_cacheKeeps _ c _ rfl)
    · exact .refl c s
  · split
    · rename_i x _
      dsimp only
      exact ((usefulIf_keeps s c x d).trans (modCell_cacheKeeps _ c _ rfl)).trans (l1Fill_keeps _ c _)
    · exact .refl c s

theorem trainStreams_keeps (s : State) (c thr : Nat) (d : Demand) (m : Bool) : cacheKeeps c s (trainStreams s c thr d m) := by
  unfold trainStreams
  have h := modCell_cacheKeeps s c (fun y => { y with streams := y.streams.map (fun st => if st.thr.val = thr ∧ st.armed = true then st.resumed d else st) }) rfl
  generalize modCell s c _ = s1 at h
  refine h.trans ?_
  dsimp only
  split
  · exact modCell_cacheKeeps s1 c _ rfl
  · split
    · exact .refl c s1
    · split
      · split
        · exact .refl c s1
        · split <;> exact modCell_cacheKeeps s1 c _ rfl
      · exact modCell_cacheKeeps s1 c _ rfl

theorem l1Store_keeps (s : State) (c l off : Nat) (bs : List Byte) : cacheKeeps c s (l1Store s c l off bs) := by
  unfold l1Store; dsimp only
  split
  · split
    · exact (usefulIf_keeps s c _ _).trans (modCell_cacheKeeps _ c _ rfl)
    · exact .refl c s
  · split
    · exact (usefulIf_keeps s c _ _).trans (modCell_cacheKeeps _ c _ rfl)
    · exact .refl c s

/-- What a store into the write buffer of core c leaves alone: as `cacheKeeps`, but the write buffer. -/
def cellKeeps (c : Nat) (s n : State) : Prop :=
  n = { s with cells := n.cells, mmio := n.mmio, out := n.out, pba := n.pba, msixDue := n.msixDue }
  ∧ (∀ d, d ≠ c → cell n d = cell s d)
  ∧ cell n c = { cell s c with
      l1 := (cell n c).l1, victim := (cell n c).victim, wb := (cell n c).wb, streams := (cell n c).streams, streamNo := (cell n c).streamNo }
  ∧ regsKept [.perfCnt, .perfEvt] s n

theorem cacheKeeps.cell {c : Nat} {s n : State} (h : cacheKeeps c s n) : cellKeeps c s n := ⟨h.1, h.2.1, by rw [h.2.2.1], h.2.2.2⟩

theorem cacheKeeps.wb {c : Nat} {s n : State} (h : cacheKeeps c s n) : (Machine.cell n c).wb = (Machine.cell s c).wb := by rw [h.2.2.1]

theorem cellKeeps.thread {c : Nat} {s n : State} (h : cellKeeps c s n) (t : Tid) : Machine.thread n t = Machine.thread s t := by rw [h.1]; rfl

theorem cellKeeps.path {t : Tid} {s n : State} (h : cellKeeps (cellOf t) s n) : pathKeeps t s n :=
  ⟨by rw [h.1], fun u _ => by rw [h.thread], h.2.1, by rw [h.2.2.1], h.2.2.2⟩

theorem cellKeeps.trans {c : Nat} {a b d : State} (h : cellKeeps c a b) (k : cellKeeps c b d) : cellKeeps c a d := by
  refine ⟨?_, fun e he => (k.2.1 e he).trans (h.2.1 e he), ?_, regsKept_trans h.2.2.2 k.2.2.2⟩
  · rw [k.1, h.1]
  · rw [k.2.2.1, h.2.2.1]

/-- A change of the memory path's parts of a cell. -/
theorem modCell_cellKeeps (s : State) (c : Nat) (f : CellS → CellS)
    (h : f (Machine.cell s c) = { Machine.cell s c with
      l1 := (f (Machine.cell s c)).l1, victim := (f (Machine.cell s c)).victim, wb := (f (Machine.cell s c)).wb,
      streams := (f (Machine.cell s c)).streams, streamNo := (f (Machine.cell s c)).streamNo }) :
    cellKeeps c s (modCell s c f) := by
  refine ⟨rfl, fun d hd => ?_, ?_, fun _ _ _ _ => rfl⟩
  · rw [cell_modCell, if_neg hd]
  · simp only [cell_modCell_same]; exact h

/-! ## Reads of a core through its TLBs and caches -/

/-- What a core's reads leave alone: all but its TLBs, caches and miss registers, the events counted, and what reading at the home finds. -/
def lookKeeps (c : Nat) (s n : State) : Prop :=
  n = { s with cells := n.cells, err := n.err,
               ms := { s.ms with hbmPoison := n.ms.hbmPoison, bmPoison := n.ms.bmPoison, rcSets := n.ms.rcSets, rcOut := n.ms.rcOut },
               mmio := n.mmio, out := n.out, pba := n.pba, msixDue := n.msixDue, hbm := queued s n }
  ∧ (∀ d, d ≠ c → cell n d = cell s d)
  ∧ cell n c = { cell s c with
      mshrs := (cell n c).mshrs, itlb := (cell n c).itlb, dtlb := (cell n c).dtlb, l2tlb := (cell n c).l2tlb, walker := (cell n c).walker,
      l1 := (cell n c).l1, victim := (cell n c).victim, streams := (cell n c).streams, streamNo := (cell n c).streamNo }
  ∧ regsKept [.perfCnt, .perfEvt, .hbmChstat] s n
  ∧ sameHome s n

theorem lookKeeps.refl (c : Nat) (s : State) : lookKeeps c s s := ⟨rfl, fun _ _ => rfl, rfl, regsKept_refl _ s, .refl s⟩

theorem lookKeeps.trans {c : Nat} {a b d : State} (h : lookKeeps c a b) (k : lookKeeps c b d) : lookKeeps c a d := by
  refine ⟨?_, fun e he => (k.2.1 e he).trans (h.2.1 e he), ?_, regsKept_trans h.2.2.2.1 k.2.2.2.1, h.2.2.2.2.trans k.2.2.2.2⟩
  · rw [k.1, h.1]; rfl
  · rw [k.2.2.1, h.2.2.1]

theorem lookKeeps.thread {c : Nat} {s n : State} (h : lookKeeps c s n) (t : Tid) : Machine.thread n t = Machine.thread s t := by rw [h.1]; rfl
theorem lookKeeps.wb {c : Nat} {s n : State} (h : lookKeeps c s n) : (Machine.cell n c).wb = (Machine.cell s c).wb := by rw [h.2.2.1]

theorem cacheKeeps.look {c : Nat} {s n : State} (h : cacheKeeps c s n) : lookKeeps c s n :=
  ⟨by rw [h.1]; rfl, h.2.1, by rw [h.2.2.1], regsKept_mono h.2.2.2 (by simp), sameHome_of_regs (by rw [h.1]) h.2.2.2 (by decide) (by decide)⟩

theorem walkKeeps.look {c : Nat} {s n : State} (h : walkKeeps c s n) : lookKeeps c s n :=
  ⟨by rw [h.1]; rfl, h.2.1, by rw [h.2.2.1], regsKept_mono h.2.2.2.1 (by simp), h.2.2.2.2⟩

/-- A change of a cell's caches and miss registers. -/
theorem modCell_lookKeeps (s : State) (c : Nat) (f : CellS → CellS)
    (h : f (cell s c) = { cell s c with
      mshrs := (f (cell s c)).mshrs, l1 := (f (cell s c)).l1, victim := (f (cell s c)).victim, streams := (f (cell s c)).streams, streamNo := (f (cell s c)).streamNo }) :
    lookKeeps c s (modCell s c f) := by
  refine ⟨rfl, fun d hd => ?_, ?_, fun _ _ _ _ => rfl, ⟨rfl, rfl, rfl, rfl, fun _ _ => rfl, fun _ _ => rfl⟩⟩
  · rw [cell_modCell, if_neg hd]
  · simp only [cell_modCell_same]; rw [h]

theorem readKeeps.look {s n : State} (h : readKeeps s n) (c : Nat) : lookKeeps c s n := (h.walk c).look

theorem l1Drop_keeps (s : State) (c l : Nat) : lookKeeps c s (l1Drop s c l) := by
  unfold l1Drop
  dsimp only
  refine modCell_lookKeeps s c _ ?_
  dsimp only; split <;> rfl

theorem coreErr_lookKeeps (s : State) (c : Nat) (k : BitVec 8) (a : Word) : lookKeeps c s (coreErr s c k a) := by
  unfold coreErr
  refine lookKeeps.trans ?_ ((report_keeps _ _).look c)
  unfold countCellCe; split
  · exact .refl c s
  · exact ⟨rfl, fun _ _ => rfl, rfl, fun _ _ _ _ => rfl, ⟨rfl, rfl, rfl, rfl, fun _ _ => rfl, fun _ _ => rfl⟩⟩

/-- A parity error met by a read takes the line and is recorded (R222). -/
theorem l1Parity_keeps (s : State) (c l off n : Nat) : lookKeeps c s (l1Parity s c l off n) := by
  unfold l1Parity; split
  · split
    · exact .refl c s
    · exact (l1Drop_keeps s c l).trans (coreErr_lookKeeps _ _ _ _)
  · exact .refl c s

theorem lateIf_keeps (s : State) (c : Nat) (m : Mshr) : cacheKeeps c s (lateIf s c m) := by
  unfold lateIf; split
  · exact ((perfEvent_counterFrame ..).cacheKeeps c).trans (modCell_cacheKeeps _ c _ rfl)
  · exact .refl c s

theorem mergeMiss_keeps (s : State) (c i : Nat) (f : Mshr → Mshr) : lookKeeps c s (mergeMiss s c i f) := by
  unfold mergeMiss; split
  · exact (lateIf_keeps s c _).look.trans (modCell_lookKeeps _ c _ rfl)
  · exact .refl c s

theorem serveMiss_keeps (s : State) (c i : Nat) : lookKeeps c s (serveMiss s c i) := by
  unfold serveMiss; split
  · rename_i m _
    split
    · exact .refl c s
    · have h := (readLineFrom_keeps s (dieOfCore c) m.line).look c
      generalize readLineFrom s (dieOfCore c) m.line = r at h
      obtain ⟨x, s2⟩ := r
      exact h.trans (modCell_lookKeeps s2 c _ rfl)
  · exact .refl c s

/-- A line read all at once: through its miss register, or from its home (R50, R229). -/
theorem lineNow_keeps (s : State) (c l : Nat) : lookKeeps c s (lineNow s c l).2 := by
  unfold lineNow; split
  · exact ((mergeMiss_keeps s c _ _).trans ((lineTaken_keeps _ c l).look c)).trans (serveMiss_keeps _ c _)
  · have h := (coreLine_keeps s c l).look c
    generalize coreLine s c l = r at h
    obtain ⟨b, s2⟩ := r
    dsimp only at h ⊢
    split
    · exact h.trans (l1Fill_keeps s2 c _).look
    · exact h

/-- A core's read through its caches while it holds no open store. -/
theorem threadRead_keeps (s : State) (c thr pa n : Nat) (hw : (cell s c).wb = []) : lookKeeps c s (threadRead s c thr pa n).2 := by
  unfold threadRead
  have : ∀ (l : List (Nat × Nat × List Byte)) (acc : (List Byte × Option Nat) × State), (cell acc.2 c).wb = [] →
      lookKeeps c acc.2 (l.foldl (fun (acc : (List Byte × Option Nat) × State) (q : Nat × Nat × List Byte) =>
      let k := q.2.2.length
      let off := q.2.1
      let s := acc.2
      match ownFull (cell s c) thr q.1 off k with
      | some e => ((acc.1.1 ++ wbBytes e off k, acc.1.2), s)
      | none =>
        let s := ownSettle s c thr q.1 off k
        let (b, s) := match (if lineHbm q.1 then l1Lookup (l1Parity s c q.1 off k) c q.1 true else (none, s)) with
          | (some b, s) => (b, s)
          | (none, s) => lineNow s c q.1
        let bad := if linePoison b off k then some (lineBase q.1 + linePoisonAt b off k) else none
        ((acc.1.1 ++ lineBytes b off k, acc.1.2.or bad), s)) acc).2 := by
    intro l
    induction l with
    | nil => intro acc _; exact .refl c _
    | cons q t ih =>
      intro acc h
      simp only [List.foldl_cons]
      suffices H : lookKeeps c acc.2 _ from H.trans (ih _ (H.wb.trans h))
      have e1 : ownFull (cell acc.2 c) thr q.1 q.2.1 q.2.2.length = none := by simp [ownFull, h]
      have e2 : ownSettle acc.2 c thr q.1 q.2.1 q.2.2.length = acc.2 := by simp [ownSettle, ownPart, h]
      simp only [e1, e2]
      have h1 : lookKeeps c acc.2 (if lineHbm q.1 then l1Lookup (l1Parity acc.2 c q.1 q.2.1 q.2.2.length) c q.1 true else (none, acc.2)).2 := by
        split
        · exact (l1Parity_keeps ..).trans (l1Lookup_keeps _ c q.1 true).look
        · exact .refl c _
      generalize (if lineHbm q.1 then l1Lookup (l1Parity acc.2 c q.1 q.2.1 q.2.2.length) c q.1 true else (none, acc.2)) = r at h1
      obtain ⟨o, s1⟩ := r
      cases o with
      | some b => exact h1
      | none => exact h1.trans (lineNow_keeps s1 c q.1)
  exact this _ _ hw

theorem physAt_hbm (s : State) {pa : Nat} (h : pa < 0xF000000000) : physAt s pa = .hbm := by unfold physAt; rw [if_pos h]

/-- A number from its little-endian bytes. -/
theorem ofLE_leBytes (v n : Nat) : ofLE (leBytes v n) = v % 2 ^ (8 * n) := by
  induction n generalizing v with
  | zero => simp [leBytes, ofLE, Nat.mod_one]
  | succ n ih =>
    simp only [leBytes, ofLE, ih, BitVec.toNat_ofNat, Nat.shiftRight_eq_div_pow]
    rw [show 8 * (n + 1) = 8 + 8 * n by omega, Nat.pow_add, Nat.mod_mul]

end Sys2Proof.Machine
end

