-- ==== Sys2Proof/Laws/Sr.lean ====
section
/-! SUPPORT. Laws of system registers and of the entry of a level. -/

namespace Sys2Proof.Machine

open Sys2Proof.Safety

theorem srAt_srPut (s : State) (t : Tid) (n m : Nat) (v : Word) : srAt (srPut s t n v) t m = if m = n then v else srAt s t m := by
  simp only [srAt, srPut, thread_modThread_same]
  by_cases h : m = n
  · subst h; rw [if_pos rfl, tget_tset_same]
  · rw [if_neg h]
    unfold tset; split
    · rw [tget_tdel, if_neg h]
    · rw [tget_tins, if_neg h]

@[simp] theorem srAt_srPut_same (s : State) (t : Tid) (n : Nat) (v : Word) : srAt (srPut s t n v) t n = v := by rw [srAt_srPut, if_pos rfl]

theorem srAt_srPut_other (s : State) (t : Tid) {n m : Nat} (h : m ≠ n) (v : Word) : srAt (srPut s t n v) t m = srAt s t m := by rw [srAt_srPut, if_neg h]

theorem thread_srPut (s : State) (t : Tid) (n : Nat) (v : Word) : thread (srPut s t n v) t = { thread s t with sr := (thread (srPut s t n v) t).sr } := by
  simp [srPut]

@[simp] theorem rx_srPut (s : State) (t : Tid) (n : Nat) (v : Word) (r : Reg) : rx (srPut s t n v) t r = rx s t r := by
  simp only [rx]; rw [thread_srPut]; rfl

@[simp] theorem level_srPut (s : State) (t : Tid) (n : Nat) (v : Word) : (thread (srPut s t n v) t).level = (thread s t).level := by rw [thread_srPut]
@[simp] theorem pc_srPut (s : State) (t : Tid) (n : Nat) (v : Word) : (thread (srPut s t n v) t).pc = (thread s t).pc := by rw [thread_srPut]

/-- A change of the thread that leaves its system registers. -/
theorem srAt_modThread (s : State) (t : Tid) (f : Thread → Thread) (h : (f (thread s t)).sr = (thread s t).sr) (m : Nat) : srAt (modThread s t f) t m = srAt s t m := by
  simp only [srAt, thread_modThread_same, h]

/-- The registers of a thread depend on the thread's table alone. -/
theorem srAt_congr {s n : State} {t : Tid} (h : (thread n t).sr = (thread s t).sr) (m : Nat) : srAt n t m = srAt s t m := by simp only [srAt, h]

theorem xset_sr (th : Thread) (r : Reg) (v : Word) : (xset th r v).sr = th.sr := by unfold xset; split <;> rfl
theorem xset_rest (th : Thread) (r : Reg) (v : Word) : xset th r v = { th with regs := (xset th r v).regs } := by unfold xset; split <;> rfl

theorem lvlReg_ne (l : Nat) {j k : Nat} (h : j ≠ k) : lvlReg l j ≠ lvlReg l k := by unfold lvlReg; omega

/-- Only the thread changes. -/
def threadOnly (t : Tid) (s n : State) : Prop := n = { s with threads := n.threads } ∧ ∀ u, u ≠ t → thread n u = thread s u

theorem threadOnly.refl (t : Tid) (s : State) : threadOnly t s s := ⟨rfl, fun _ _ => rfl⟩
theorem threadOnly.trans {t : Tid} {a b c : State} (h : threadOnly t a b) (k : threadOnly t b c) : threadOnly t a c :=
  ⟨by rw [k.1, h.1], fun u hu => (k.2 u hu).trans (h.2 u hu)⟩
theorem modThread_only (s : State) (t : Tid) (f : Thread → Thread) : threadOnly t s (modThread s t f) :=
  ⟨rfl, fun u hu => by rw [thread_modThread, if_neg hu]⟩
theorem threadOnly.cell {t : Tid} {s n : State} (h : threadOnly t s n) (c : Nat) : Machine.cell n c = Machine.cell s c := by rw [h.1]; rfl
theorem threadOnly.path {t : Tid} {s n : State} (h : threadOnly t s n) : pathKeeps t s n :=
  ⟨by rw [h.1], fun u hu => by rw [h.2 u hu], fun c _ => h.cell c, by rw [h.cell], fun r i _ _ => by rw [h.1]; rfl⟩

/-- The status word that an entry leaves (R67). -/
def entryStatus (st : Word) (cur l : Nat) (prio : Option Nat) : Word :=
  let st' := setBits (setBits (setBits (setBits st 14 13 cur) 11 8 (bits st 3 0)) 12 12 (bits st 4 4)) 4 4 1
  match prio with
  | some p => if l = 0 then st' else setBits st' 3 0 p
  | none => st'

/-- Its fields. -/
theorem entryStatus_fields (st : Word) (cur l : Nat) (prio : Option Nat) (hc : cur < 4) (hp : ∀ p, prio = some p → l ≠ 0 ∧ p < 16) :
    bits (entryStatus st cur l prio) 14 13 = cur ∧ bits (entryStatus st cur l prio) 11 8 = bits st 3 0 ∧ bits (entryStatus st cur l prio) 12 12 = bits st 4 4
    ∧ bits (entryStatus st cur l prio) 4 4 = 1 ∧ bits (entryStatus st cur l prio) 3 0 = prio.getD (bits st 3 0) := by
  have a2 : bits st 3 0 < 16 := Nat.mod_lt _ (by norm_num)
  have a3 : bits st 4 4 < 2 := Nat.mod_lt _ (by norm_num)
  have hb : ∀ st1, st1 = setBits (setBits (setBits (setBits st 14 13 cur) 11 8 (bits st 3 0)) 12 12 (bits st 4 4)) 4 4 1 →
      bits st1 14 13 = cur ∧ bits st1 11 8 = bits st 3 0 ∧ bits st1 12 12 = bits st 4 4 ∧ bits st1 4 4 = 1 ∧ bits st1 3 0 = bits st 3 0 := by
    rintro st1 rfl
    refine ⟨?_, ?_, ?_, ?_, ?_⟩
    · rw [bits_setBits_other _ _ (by norm_num) (by norm_num) (by norm_num), bits_setBits_other _ _ (by norm_num) (by norm_num) (by norm_num),
        bits_setBits_other _ _ (by norm_num) (by norm_num) (by norm_num), bits_setBits_same _ _ (by norm_num) (by norm_num)]
      exact Nat.mod_eq_of_lt hc
    · rw [bits_setBits_other _ _ (by norm_num) (by norm_num) (by norm_num), bits_setBits_other _ _ (by norm_num) (by norm_num) (by norm_num),
        bits_setBits_same _ _ (by norm_num) (by norm_num)]
      exact Nat.mod_eq_of_lt a2
    · rw [bits_setBits_other _ _ (by norm_num) (by norm_num) (by norm_num), bits_setBits_same _ _ (by norm_num) (by norm_num)]
      exact Nat.mod_eq_of_lt a3
    · rw [bits_setBits_same _ _ (by norm_num) (by norm_num)]; norm_num
    · rw [bits_setBits_other _ _ (by norm_num) (by norm_num) (by norm_num), bits_setBits_other _ _ (by norm_num) (by norm_num) (by norm_num),
        bits_setBits_other _ _ (by norm_num) (by norm_num) (by norm_num), bits_setBits_other _ _ (by norm_num) (by norm_num) (by norm_num)]
  obtain ⟨b1, b2, b3, b4, b5⟩ := hb _ rfl
  cases prio with
  | none => exact ⟨b1, b2, b3, b4, b5⟩
  | some p =>
    obtain ⟨hl0, hp16⟩ := hp p rfl
    simp only [entryStatus, hl0, if_false]
    refine ⟨?_, ?_, ?_, ?_, ?_⟩
    · rw [bits_setBits_other _ _ (by norm_num) (by norm_num) (by norm_num)]; exact b1
    · rw [bits_setBits_other _ _ (by norm_num) (by norm_num) (by norm_num)]; exact b2
    · rw [bits_setBits_other _ _ (by norm_num) (by norm_num) (by norm_num)]; exact b3
    · rw [bits_setBits_other _ _ (by norm_num) (by norm_num) (by norm_num)]; exact b4
    · rw [bits_setBits_same _ _ (by norm_num) (by norm_num)]; exact Nat.mod_eq_of_lt hp16

/-- The register changes of an entry, one after the other. -/
theorem enterRegs_eq (s : State) (t : Tid) (l : Nat) (pc : Word) (e : Exc) (esc : Bool) (prio : Option Nat) :
    enterRegs s t l pc e esc prio =
      (let s4 := srPut (srPut (srPut (srPut s t (lvlReg l 0) (pc &&& fmask 64 47 2)) t (lvlReg l 2)
          (pack [(0, e.code), (8, e.detail), (62, esc.toNat), (63, prio.isSome.toNat)])) t (lvlReg l 3) e.val) t (lvlReg l 1)
          (entryStatus (srAt s t (lvlReg l 1)) (thread s t).level.toNat l prio)
       modThread (wx (srPut s4 t (lvlReg l 5) (rx s4 t 2)) t 2 (srAt s4 t (lvlReg l 5))) t (fun th => { th with level := BitVec.ofNat 2 l, st := .ready })) := by
  unfold enterRegs; cases prio <;> rfl

/-- What the register changes of an entry are (R67). -/
theorem enterRegs_entered (s : State) (t : Tid) (l : Nat) (pc : Word) (e : Exc) (esc : Bool) (prio : Option Nat) (hp : ∀ p, prio = some p → l ≠ 0 ∧ p < 16) :
    entered s (enterRegs s t l pc e esc prio) t l pc (pack [(0, e.code), (8, e.detail), (62, esc.toNat), (63, prio.isSome.toNat)]) e.val prio
    ∧ threadOnly t s (enterRegs s t l pc e esc prio) := by
  have n01 := lvlReg_ne l (show 0 ≠ 1 by decide)
  have n02 := lvlReg_ne l (show 0 ≠ 2 by decide)
  have n03 := lvlReg_ne l (show 0 ≠ 3 by decide)
  have n05 := lvlReg_ne l (show 0 ≠ 5 by decide)
  have n12 := lvlReg_ne l (show 1 ≠ 2 by decide)
  have n13 := lvlReg_ne l (show 1 ≠ 3 by decide)
  have n15 := lvlReg_ne l (show 1 ≠ 5 by decide)
  have n23 := lvlReg_ne l (show 2 ≠ 3 by decide)
  have n25 := lvlReg_ne l (show 2 ≠ 5 by decide)
  have n35 := lvlReg_ne l (show 3 ≠ 5 by decide)
  have hb := entryStatus_fields (srAt s t (lvlReg l 1)) (thread s t).level.toNat l prio (thread s t).level.isLt hp
  rw [enterRegs_eq]
  generalize entryStatus (srAt s t (lvlReg l 1)) (thread s t).level.toNat l prio = st2 at hb
  generalize pack [(0, e.code), (8, e.detail), (62, esc.toNat), (63, prio.isSome.toNat)] = cause
  dsimp only
  generalize h4 : srPut (srPut (srPut (srPut s t (lvlReg l 0) (pc &&& fmask 64 47 2)) t (lvlReg l 2) cause) t (lvlReg l 3) e.val) t (lvlReg l 1) st2 = s4
  have hrx4 : ∀ r, rx s4 t r = rx s t r := fun r => by simp only [← h4, rx_srPut]
  have hsp : srAt s4 t (lvlReg l 5) = srAt s t (lvlReg l 5) := by
    rw [← h4, srAt_srPut_other _ _ n15.symm, srAt_srPut_other _ _ n35.symm, srAt_srPut_other _ _ n25.symm, srAt_srPut_other _ _ n05.symm]
  have ho : threadOnly t s s4 := by
    rw [← h4]
    exact (((modThread_only _ t _).trans (modThread_only _ t _)).trans (modThread_only _ t _)).trans (modThread_only _ t _)
  rw [hrx4, hsp]
  generalize h5 : srPut s4 t (lvlReg l 5) (rx s t 2) = s5
  have hrx5 : ∀ r, rx s5 t r = rx s t r := fun r => by rw [← h5, rx_srPut, hrx4]
  have h51 : srAt s5 t (lvlReg l 1) = st2 := by rw [← h5, srAt_srPut_other _ _ n15, ← h4, srAt_srPut_same]
  have ho5 : threadOnly t s4 s5 := by rw [← h5]; exact modThread_only _ t _
  have hsr : ∀ m, srAt (modThread (wx s5 t 2 (srAt s t (lvlReg l 5))) t (fun th => { th with level := BitVec.ofNat 2 l, st := .ready })) t m = srAt s5 t m := by
    intro m
    rw [srAt_modThread _ _ _ rfl]
    exact srAt_modThread _ _ _ (xset_sr _ _ _) m
  refine ⟨⟨?_, ?_, ?_, ?_, ?_, ?_, ?_, ?_, ?_, ?_, ?_, ?_, ?_, ?_⟩, ?_⟩
  · rw [hsr, ← h5, srAt_srPut_other _ _ n05, ← h4, srAt_srPut_other _ _ n01, srAt_srPut_other _ _ n03, srAt_srPut_other _ _ n02, srAt_srPut_same]
  · rw [hsr, ← h5, srAt_srPut_other _ _ n25, ← h4, srAt_srPut_other _ _ n12.symm, srAt_srPut_other _ _ n23, srAt_srPut_same]
  · rw [hsr, ← h5, srAt_srPut_other _ _ n35, ← h4, srAt_srPut_other _ _ n13.symm, srAt_srPut_same]
  · rw [hsr, h51]; exact hb.1
  · rw [hsr, h51]; exact hb.2.1
  · rw [hsr, h51]; exact hb.2.2.1
  · rw [hsr, h51]; exact hb.2.2.2.1
  · rw [hsr, h51]; exact hb.2.2.2.2
  · simp only [rx, thread_modThread_same, wx]
    show xget (xset (thread s5 t) 2 _) 2 = _
    rw [xget_xset, if_pos ⟨rfl, by decide⟩]
  · rw [hsr, ← h5, srAt_srPut_same]
  · intro r hr
    rw [← hrx5]
    simp only [rx, thread_modThread_same, wx]
    show xget (xset (thread s5 t) 2 _) r = _
    rw [xget_xset, if_neg (fun h => hr h.1)]
  · intro m hm
    rw [hsr, ← h5, srAt_srPut_other _ _ (hm 5 (by decide) (by decide)), ← h4, srAt_srPut_other _ _ (hm 1 (by decide) (by decide)),
      srAt_srPut_other _ _ (hm 3 (by decide) (by decide)), srAt_srPut_other _ _ (hm 2 (by decide) (by decide)), srAt_srPut_other _ _ (hm 0 (by decide) (by decide))]
  · simp
  · simp
  · exact ((ho.trans ho5).trans (modThread_only _ t _)).trans (modThread_only _ t _)

end Sys2Proof.Machine
end

