-- ==== Sys2Proof/Laws/Vector.lean ====
section
/-! SUPPORT. Laws of vector registers, groups and predicates (R104–R112), and of a decoupled instruction that runs alone (R32, R33). -/

namespace Sys2Proof.Machine

open Sys2Proof.Safety

/-! ## Registers and groups -/

theorem tget_vset (th : Thread) (r v q : Nat) : tget 0 (vset th r v).v q = if q = r then BitVec.ofNat 8192 v else tget 0 th.v q := by
  simp only [vset, tget_tset]

theorem vset_rest (th : Thread) (r v : Nat) : vset th r v = { th with v := (vset th r v).v } := rfl

theorem groupVal_succ (th : Thread) (r k : Nat) : groupVal th r (k + 1) = vget th r + groupVal th (r + 1) k <<< 8192 := by
  have e : (fun (j : Nat) (acc : Nat) => vget th (r + j.succ) + acc <<< 8192) = fun j acc => vget th (r + 1 + j) + acc <<< 8192 := by
    funext j acc; rw [show r + 1 + j = r + j.succ by omega]
  unfold groupVal
  rw [List.range_succ_eq_map, List.foldr_cons, List.foldr_map, Nat.add_zero, e]

theorem testBit_add_shift {a b w j : Nat} (ha : a < 2 ^ w) : (a + b <<< w).testBit j = if j < w then a.testBit j else b.testBit (j - w) := by
  rw [Nat.add_comm, Nat.shiftLeft_eq, Nat.mul_comm, Nat.testBit_two_pow_mul_add b ha]

theorem testBit_groupVal (th : Thread) (r k j : Nat) :
    (groupVal th r k).testBit j = (decide (j < 8192 * k) && (tget 0 th.v (r + j / 8192)).getLsbD (j % 8192)) := by
  induction k generalizing r j with
  | zero => simp [groupVal]
  | succ k ih =>
    rw [groupVal_succ, testBit_add_shift (show vget th r < 2 ^ 8192 from BitVec.isLt _), ih]
    by_cases h : j < 8192
    · rw [if_pos h, Nat.div_eq_of_lt h, Nat.mod_eq_of_lt h, Nat.add_zero, decide_eq_true (by omega), Bool.true_and]; rfl
    · rw [if_neg h]
      have h1 : r + 1 + (j - 8192) / 8192 = r + j / 8192 := by omega
      have h2 : (j - 8192) % 8192 = j % 8192 := by omega
      have h3 : decide (j - 8192 < 8192 * k) = decide (j < 8192 * (k + 1)) := decide_eq_decide.2 (by omega)
      rw [h1, h2, h3]

/-- The element widths. -/
def elWidth (w : Nat) : Prop := w = 4 ∨ w = 8 ∨ w = 16 ∨ w = 32 ∨ w = 64

theorem elWidth.pos {w : Nat} (h : elWidth w) : 0 < w := by rcases h with h | h | h | h | h <;> omega

theorem elWidth.le {w : Nat} (h : elWidth w) : w ≤ 64 := by rcases h with h | h | h | h | h <;> omega

/-- A bit of an element. -/
theorem getLsbD_vEl (v : Table (BitVec 8192)) {w : Nat} (r i j : Nat) (hw : w ≤ 64) (hj : j < w) :
    (vEl v w r i).getLsbD j = (tget 0 v (r + (w * i + j) / 8192)).getLsbD ((w * i + j) % 8192) := by
  unfold vEl
  dsimp only
  have ho : w * i % 8192 < 8192 := Nat.mod_lt _ (by omega)
  have hlt : (tget 0 v (r + w * i / 8192)).toNat / 2 ^ (w * i % 8192) < 2 ^ (8192 - w * i % 8192) := by
    rw [Nat.div_lt_iff_lt_mul (Nat.two_pow_pos _), ← Nat.pow_add, Nat.sub_add_cancel (Nat.le_of_lt ho)]
    exact BitVec.isLt _
  rw [BitVec.getLsbD_ofNat, decide_eq_true hj, Bool.true_and, ← Nat.shiftLeft_eq, testBit_add_shift hlt]
  by_cases h : j < 8192 - w * i % 8192
  · rw [if_pos h, Nat.testBit_div_two_pow, show r + (w * i + j) / 8192 = r + w * i / 8192 by omega, show (w * i + j) % 8192 = j + w * i % 8192 by omega]
    rfl
  · rw [if_neg h, show r + (w * i + j) / 8192 = r + w * i / 8192 + 1 by omega, show (w * i + j) % 8192 = j - (8192 - w * i % 8192) by omega]
    rfl

theorem length_elems (v w n : Nat) : (elems v w n).length = n := by simp [elems]

theorem length_groupEls (th : Thread) (r w n : Nat) : (groupEls th r w n).length = n := length_elems ..

theorem mul_lt_regsOf {w i n : Nat} (hi : i < n) : w * i + w ≤ 8192 * regsOf w n := by
  have : w * i + w ≤ w * n := by have := Nat.mul_le_mul_left w hi; rwa [Nat.mul_succ] at this
  unfold regsOf; omega

theorem groupEls_getD (th : Thread) (r : Nat) {w n i : Nat} (hw : w ≤ 64) (hi : i < n) (d : Nat) :
    (groupEls th r w n).getD i d = (vEl th.v w r i).toNat := by
  have hl : i < (groupEls th r w n).length := by rw [length_groupEls]; exact hi
  rw [List.getD_eq_getElem _ _ hl]
  simp only [groupEls, elems, List.getElem_map, List.getElem_range]
  apply Nat.eq_of_testBit_eq; intro j
  rw [Nat.testBit_mod_two_pow, Nat.testBit_shiftRight, testBit_groupVal]
  have h := mul_lt_regsOf (w := w) hi
  by_cases hj : j < w
  · have e := getLsbD_vEl th.v r i j hw hj
    rw [decide_eq_true hj, decide_eq_true (by omega), Bool.true_and, Bool.true_and, ← e]; rfl
  · rw [decide_eq_false hj, Bool.false_and]
    exact ((vEl th.v w r i).getLsbD_of_ge j (by omega)).symm

theorem ofElems_lt (w : Nat) (l : List Nat) : ofElems w l < 2 ^ (w * l.length) := by
  induction l with
  | nil => simp [ofElems]
  | cons x t ih =>
    show x % 2 ^ w + ofElems w t <<< w < _
    rw [Nat.shiftLeft_eq, List.length_cons, Nat.mul_succ, Nat.pow_add]
    have h1 : x % 2 ^ w < 2 ^ w := Nat.mod_lt _ (by positivity)
    have h2 : (ofElems w t + 1) * 2 ^ w ≤ 2 ^ (w * t.length) * 2 ^ w := Nat.mul_le_mul_right _ ih
    rw [Nat.add_mul] at h2; omega

theorem testBit_ofElems (w : Nat) (l : List Nat) (i j : Nat) (hj : j < w) (hi : i < l.length) :
    (ofElems w l).testBit (w * i + j) = (l.getD i 0).testBit j := by
  induction l generalizing i with
  | nil => simp at hi
  | cons x t ih =>
    show (x % 2 ^ w + ofElems w t <<< w).testBit _ = _
    rw [testBit_add_shift (Nat.mod_lt _ (by positivity))]
    cases i with
    | zero => rw [Nat.mul_zero, Nat.zero_add, if_pos hj, Nat.testBit_mod_two_pow, decide_eq_true hj, Bool.true_and]; rfl
    | succ i =>
      rw [Nat.mul_succ, if_neg (by omega), show w * i + w + j - w = w * i + j by omega, ih i (by simpa using hi)]; rfl

/-- Registers written from a bit string. -/
theorem foldl_vset (v : Nat) (r : Nat) (k : Nat) (th : Thread) :
    let n := (List.range k).foldl (fun th j => vset th (r + j) ((v >>> (8192 * j)) % 2 ^ 8192)) th
    n = { th with v := n.v } ∧ ∀ q, tget 0 n.v q = if r ≤ q ∧ q < r + k then BitVec.ofNat 8192 (v >>> (8192 * (q - r))) else tget 0 th.v q := by
  induction k with
  | zero => exact ⟨rfl, fun q => by rw [if_neg (by omega)]; rfl⟩
  | succ k ih =>
    dsimp only at ih ⊢
    rw [List.range_succ, List.foldl_append, List.foldl_cons, List.foldl_nil]
    generalize (List.range k).foldl (fun th j => vset th (r + j) ((v >>> (8192 * j)) % 2 ^ 8192)) th = m at ih ⊢
    obtain ⟨h1, h2⟩ := ih
    refine ⟨?_, fun q => ?_⟩
    · rw [vset_rest]; rw [h1]
    · rw [tget_vset, h2]
      by_cases hq : q = r + k
      · subst hq
        rw [if_pos rfl, if_pos (by omega), Nat.add_sub_cancel_left]
        apply BitVec.eq_of_toNat_eq; simp
      · rw [if_neg hq]
        by_cases h : r ≤ q ∧ q < r + k
        · rw [if_pos h, if_pos (by omega)]
        · rw [if_neg h, if_neg (by omega)]

/-- What a write of elements does: the registers of the group, nothing else of the thread. -/
theorem putGroup_rest (th : Thread) (r w : Nat) (l : List Nat) : putGroup th r w l = { th with v := (putGroup th r w l).v } :=
  (foldl_vset _ r _ th).1

theorem putGroup_away (th : Thread) (r w : Nat) (l : List Nat) {q : Nat} (h : q < r ∨ r + regsOf w l.length ≤ q) :
    tget 0 (putGroup th r w l).v q = tget 0 th.v q := by
  rw [show tget 0 (putGroup th r w l).v q = _ from (foldl_vset _ r _ th).2 q, if_neg (by omega)]

/-- An element after a write of elements. -/
theorem vEl_putGroup (th : Thread) (r : Nat) {w i : Nat} (l : List Nat) (hw : w ≤ 64) (hi : w * i + w ≤ 8192 * regsOf w l.length) :
    vEl (putGroup th r w l).v w r i = if i < l.length then BitVec.ofNat w (l.getD i 0) else vEl th.v w r i := by
  have key : ∀ j, j < w → (vEl (putGroup th r w l).v w r i).getLsbD j
      = (((groupVal th r (regsOf w l.length) >>> (w * l.length)) <<< (w * l.length) + ofElems w l).testBit (w * i + j)) := by
    intro j hj
    rw [getLsbD_vEl _ r i j hw hj, show tget 0 (putGroup th r w l).v (r + (w * i + j) / 8192) = _ from (foldl_vset _ r _ th).2 _, if_pos (by omega)]
    rw [BitVec.getLsbD_ofNat, Nat.testBit_shiftRight, decide_eq_true (by omega), Bool.true_and]
    congr 1; omega
  apply BitVec.eq_of_getLsbD_eq; intro j hj
  rw [key j hj, Nat.add_comm, testBit_add_shift (ofElems_lt w l)]
  by_cases hlt : i < l.length
  · have : w * i + w ≤ w * l.length := by have := Nat.mul_le_mul_left w hlt; rwa [Nat.mul_succ] at this
    rw [if_pos hlt, if_pos (by omega), testBit_ofElems w l i j hj hlt, BitVec.getLsbD_ofNat, decide_eq_true hj, Bool.true_and]
  · have : w * l.length ≤ w * i := Nat.mul_le_mul_left w (by omega)
    rw [if_neg hlt, if_neg (by omega), Nat.testBit_shiftRight, Nat.add_sub_cancel' (by omega), testBit_groupVal, decide_eq_true (by omega), Bool.true_and,
      getLsbD_vEl _ r i j hw hj]

/-- A bit that no element written covers stays. -/
theorem putGroup_bit (th : Thread) (r : Nat) {w q b : Nat} (l : List Nat) (hb : b < 8192) (h : q < r ∨ w * l.length ≤ 8192 * (q - r) + b) :
    (tget 0 (putGroup th r w l).v q).getLsbD b = (tget 0 th.v q).getLsbD b := by
  by_cases ha : r ≤ q ∧ q < r + regsOf w l.length
  · rw [show tget 0 (putGroup th r w l).v q = _ from (foldl_vset _ r _ th).2 q, if_pos ha, BitVec.getLsbD_ofNat, decide_eq_true hb, Bool.true_and,
      Nat.testBit_shiftRight, Nat.add_comm (_ <<< _), testBit_add_shift (ofElems_lt w l), if_neg (by omega), Nat.testBit_shiftRight,
      Nat.add_sub_cancel' (by omega), testBit_groupVal, decide_eq_true (by omega), Bool.true_and]
    congr 2 <;> omega
  · rw [putGroup_away th r w l (by omega)]

/-- What a group reads as depends on the vector registers alone. -/
theorem groupEls_congr {a b : Thread} (h : a.v = b.v) (r w n : Nat) : groupEls a r w n = groupEls b r w n := by
  unfold groupEls groupVal vget; rw [h]

theorem foldl_vset_congr (u : Nat → Nat) (r k : Nat) {a b : Thread} (h : a.v = b.v) :
    ((List.range k).foldl (fun th j => vset th (r + j) (u j)) a).v = ((List.range k).foldl (fun th j => vset th (r + j) (u j)) b).v := by
  induction k with
  | zero => exact h
  | succ k ih =>
    rw [List.range_succ, List.foldl_append, List.foldl_append]
    simp only [List.foldl_cons, List.foldl_nil]
    show tset 0 (List.foldl _ a _).v _ _ = tset 0 (List.foldl _ b _).v _ _
    rw [ih]

/-- A write of elements depends on the vector registers alone. -/
theorem putGroup_congr {a b : Thread} (h : a.v = b.v) (r w : Nat) (l : List Nat) : putGroup a r w l = { a with v := (putGroup b r w l).v } := by
  rw [putGroup_rest]
  have e : groupVal a r (regsOf w l.length) = groupVal b r (regsOf w l.length) := by unfold groupVal vget; rw [h]
  have : (putGroup a r w l).v = (putGroup b r w l).v := by
    unfold putGroup
    dsimp only
    rw [e]
    exact foldl_vset_congr _ r _ h
  rw [this]

theorem regsOf_full {w g : Nat} (hw : elWidth w) : regsOf w (g * 8192 / w) = g := by
  unfold regsOf; rcases hw with rfl | rfl | rfl | rfl | rfl <;> omega

theorem full_room {w g i : Nat} (hw : elWidth w) (hi : i < g * 8192 / w) : w * i + w ≤ 8192 * g := by
  rcases hw with rfl | rfl | rfl | rfl | rfl <;> omega

theorem etBits_width {et : BitVec 3} {w : Nat} (h : etBits et = some w) : elWidth w := by
  unfold etBits at h; unfold elWidth
  split at h <;> simp at h <;> omega

/-! ## Predicates -/

theorem testBit_ones (n k : Nat) : (2 ^ n - 1).testBit k = decide (k < n) := Nat.testBit_two_pow_sub_one ..

theorem qget_testBit (th : Thread) (q k : Nat) : (qget th q).testBit k = if q = 0 then decide (k < 1024) else (tget 0 th.q q).getLsbD k := by
  unfold qget; split
  · exact testBit_ones _ _
  · rfl

theorem active_iff (th : Thread) {qp w g k : Nat} (h : k * w / (8 * g) < 1024) : active (qget th qp) w g k = true ↔ vActive th qp w g k := by
  unfold active govBit vActive
  rw [qget_testBit]
  by_cases hq : qp = 0
  · simp [hq, h]
  · simp [hq]

theorem gov_below {w g k : Nat} (hw0 : 0 < w) (hk : k < g * 8192 / w) : k * w / (8 * g) < 1024 := by
  have h1 : k * w < g * 8192 := by
    have h := (Nat.lt_div_iff_mul_lt hw0).1 hk
    omega
  have hg : 0 < 8 * g := by
    rcases Nat.eq_zero_or_pos g with rfl | h
    · simp at hk
    · omega
  rw [Nat.div_lt_iff_lt_mul hg]; omega

theorem gov_lt {w g k : Nat} (hw : elWidth w) (hk : k < g * 8192 / w) : k * w / (8 * g) < 1024 := gov_below hw.pos hk

/-! ## Elements mapped -/

theorem mapActive_length (q w g : Nat) (old : List Nat) (f : Nat → Nat → Fl Nat) : (mapActive q w g old f).1.length = old.length := by
  simp [mapActive]

theorem mapActive_getD (q w g : Nat) (old : List Nat) (f : Nat → Nat → Fl Nat) {k : Nat} (hk : k < old.length) (d : Nat) :
    (mapActive q w g old f).1.getD k d = if active q w g k then (f k (old.getD k d)).1 else old.getD k d := by
  have hl : k < (mapActive q w g old f).1.length := by rw [mapActive_length]; exact hk
  rw [List.getD_eq_getElem _ _ hl, List.getD_eq_getElem _ _ hk]
  simp only [mapActive, List.getElem_map, List.getElem_zip, List.getElem_range]
  split <;> rfl

theorem testBit_foldl_or {α : Type} (l : List (α × Nat)) (a j : Nat) :
    (l.foldl (fun a x => a ||| x.2) a).testBit j = true ↔ a.testBit j = true ∨ ∃ x ∈ l, x.2.testBit j = true := by
  induction l generalizing a with
  | nil => simp
  | cons x t ih =>
    rw [List.foldl_cons, ih, Nat.testBit_or, Bool.or_eq_true]
    simp [or_assoc]

theorem mapActive_flags (q w g : Nat) (old : List Nat) (f : Nat → Nat → Fl Nat) (j : Nat) :
    (mapActive q w g old f).2.testBit j = true ↔ ∃ k, k < old.length ∧ active q w g k = true ∧ (f k (old.getD k 0)).2.testBit j = true := by
  simp only [mapActive]
  rw [testBit_foldl_or]
  simp only [Nat.zero_testBit, Bool.false_eq_true, false_or, List.mem_map]
  constructor
  · rintro ⟨x, ⟨p, hp, rfl⟩, hx⟩
    obtain ⟨k, hk, rfl⟩ := List.getElem_of_mem hp
    have hko : k < old.length := by simpa using hk
    simp only [List.getElem_zip, List.getElem_range] at hx
    by_cases ha : active q w g k = true
    · rw [if_pos ha] at hx
      exact ⟨k, hko, ha, by rw [List.getD_eq_getElem _ _ hko]; exact hx⟩
    · rw [if_neg ha] at hx; simp at hx
  · rintro ⟨k, hk, ha, hf⟩
    refine ⟨f k (old.getD k 0), ⟨(old.getD k 0, k), ?_, by simp [ha]⟩, hf⟩
    rw [List.getD_eq_getElem _ _ hk]
    have hz : k < (old.zip (List.range old.length)).length := by simpa using hk
    have : (old.zip (List.range old.length))[k] = (old[k], k) := by simp
    rw [← this]; exact List.getElem_mem hz

/-- What a compare or `v.pwhile` writes (R113). -/
theorem predFrom_spec (q w g n : Nat) (p : Nat → Bool × Nat) (j : Nat) :
    ((predFrom q w g n p).1.testBit j = true ↔ ∃ k, k < n ∧ active q w g k = true ∧ govBit w g k = j ∧ (p k).1 = true)
    ∧ ((predFrom q w g n p).2.testBit j = true ↔ ∃ k, k < n ∧ active q w g k = true ∧ (p k).2.testBit j = true) := by
  unfold predFrom
  induction n with
  | zero => simp
  | succ n ih =>
    rw [List.range_succ, List.foldl_append, List.foldl_cons, List.foldl_nil]
    generalize (List.range n).foldl _ (0, 0) = acc at ih ⊢
    obtain ⟨h1, h2⟩ := ih
    have split1 : ∀ P : Nat → Prop, (∃ k, k < n + 1 ∧ P k) ↔ (∃ k, k < n ∧ P k) ∨ P n := by
      intro P; constructor
      · rintro ⟨k, hk, hp⟩
        rcases Nat.lt_succ_iff_lt_or_eq.1 hk with h | rfl
        · exact .inl ⟨k, h, hp⟩
        · exact .inr hp
      · rintro (⟨k, hk, hp⟩ | hp)
        · exact ⟨k, by omega, hp⟩
        · exact ⟨n, by omega, hp⟩
    rw [split1, split1]
    by_cases ha : active q w g n = true
    · rw [if_pos ha]
      dsimp only
      constructor
      · by_cases hb : (p n).1 = true
        · rw [if_pos hb, Nat.testBit_or, Bool.or_eq_true, h1, Nat.one_shiftLeft, Nat.testBit_two_pow, decide_eq_true_eq]
          simp [ha, hb]
        · rw [if_neg hb, h1]; simp [hb]
      · rw [Nat.testBit_or, Bool.or_eq_true, h2]; simp [ha]
    · rw [if_neg ha, h1, h2]; simp [ha]

theorem tget_qset (th : Thread) (q v r : Nat) : tget 0 (qset th q v).q r = if r = q ∧ q ≠ 0 then BitVec.ofNat 1024 v else tget 0 th.q r := by
  unfold qset
  by_cases h : q = 0
  · simp [h]
  · rw [if_neg h, tget_tset]; simp [h]

theorem qset_eq (th : Thread) (q v : Nat) : qset th q v = { th with q := (qset th q v).q } := by unfold qset; split <;> rfl

theorem qset_congr {a b : Thread} (h : a.q = b.q) (q v : Nat) : (qset a q v).q = (qset b q v).q := by unfold qset; split <;> simp [h]

theorem qget_congr {a b : Thread} (h : a.q = b.q) (q : Nat) : qget a q = qget b q := by unfold qget; rw [h]

end Sys2Proof.Machine
end

