-- ==== Sys2Proof/Laws/Decoupled.lean ====
section
/-! SUPPORT. What a decoupled instruction does that runs alone: issued into an empty queue, resolved, its result arrived (R32, R33). -/

namespace Sys2Proof.Machine

open Sys2Proof.Safety

/-- The scalar registers' marks once an instruction's result is awaited. -/
def awaited (s : State) (f : DecForm) : BitVec 32 :=
  match f.dst with
  | some r => if r = 0 then (thread s f.t).busy else setBit (thread s f.t).busy r.toNat true
  | none => (thread s f.t).busy

/-- The entry as its queue takes it, before its pipe has begun it. -/
def waiting (s : State) (f : DecForm) (i : Instr) : DecEntry := { entryOf s f i with at' := none, ask := 0 }

theorem enqueue_thread (s : State) (f : DecForm) (i : Instr) (hv : (thread s f.t).vq = []) (ht : (thread s f.t).tq = []) :
    thread (enqueue s f i) f.t = { thread s f.t with
      yield := (thread (issued s f.t) f.t).yield, younger := (thread (issued s f.t) f.t).younger,
      pc := (thread s f.t).pc + (if f.long then 12 else 4), busy := awaited s f,
      vq := if f.tile then [] else [waiting s f i], tq := if f.tile then [waiting s f i] else [] } := by
  unfold enqueue
  simp only [thread_modThread_same]
  rw [(issued_frame s f.t).2]
  simp only [hv, ht, List.nil_append]
  rfl

theorem enqueue_frame (s : State) (f : DecForm) (i : Instr) : threadOnly f.t (issued s f.t) (enqueue s f i) := by
  unfold enqueue; exact modThread_only _ _ _

theorem enqueue_oldest (s : State) (f : DecForm) (i : Instr) (hv : (thread s f.t).vq = []) (ht : (thread s f.t).tq = []) :
    oldestUnresolved (thread (enqueue s f i) f.t) = some (waiting s f i) := by
  rw [enqueue_thread s f i hv ht]
  unfold oldestUnresolved
  cases f.tile <;> rfl

/-! ## The start in the pipe (R31, R134, R184) -/

/-- The place that an instruction issued now starts from. -/
def startOf (s : State) (f : DecForm) (i : Instr) : Nat :=
  if pipeOf i = 2 then resumeAt (srAt s f.t 0x006) 6 else resumeAt (srAt s f.t 0x005) 14

/-- The entry of an instruction issued now, begun by its pipe. -/
abbrev startEntry (s : State) (f : DecForm) (i : Instr) : DecEntry := entryOf s f i (startOf s f i)

/-- What beginning an instruction leaves alone: its thread's queues, the pipe's last thread and the count of accesses change. -/
def pipeOnly (t : Tid) (s n : State) : Prop :=
  n = { s with threads := n.threads, cells := n.cells }
  ∧ (∀ u, u ≠ t → thread n u = thread s u)
  ∧ (∀ c, c ≠ cellOf t → cell n c = cell s c)
  ∧ cell n (cellOf t) = { cell s (cellOf t) with accNo := (cell n (cellOf t)).accNo, pipeLast := (cell n (cellOf t)).pipeLast }

theorem beginEntry_only (s : State) (t : Tid) (e : DecEntry) : pipeOnly t s (beginEntry s t e) := by
  unfold beginEntry
  dsimp only
  refine ⟨rfl, fun u hu => ?_, fun c hc => ?_, ?_⟩
  · rw [thread_modThread, if_neg hu]; rfl
  · rw [cell_modThread, cell_modCell, if_neg hc]
  · rw [cell_modThread]; simp only [cell_modCell_same]

theorem begun_eq (s : State) (f : DecForm) (i : Instr) (hv : (thread s f.t).vq = []) (ht : (thread s f.t).tq = []) :
    begun s f i = beginEntry (enqueue s f i) f.t (waiting s f i) := by
  unfold begun
  dsimp only
  rw [enqueue_oldest s f i hv ht]

theorem begun_thread (s : State) (f : DecForm) (i : Instr) (hv : (thread s f.t).vq = []) (ht : (thread s f.t).tq = []) :
    thread (begun s f i) f.t = { thread s f.t with
      yield := (thread (issued s f.t) f.t).yield, younger := (thread (issued s f.t) f.t).younger,
      pc := (thread s f.t).pc + (if f.long then 12 else 4), busy := awaited s f,
      vq := if f.tile then [] else [startEntry s f i], tq := if f.tile then [startEntry s f i] else [] } := by
  rw [begun_eq s f i hv ht]
  unfold beginEntry
  dsimp only
  rw [thread_modThread_same]
  have hk : ∀ g : CellS → CellS, thread (modCell (enqueue s f i) (cellOf f.t) g) f.t = thread (enqueue s f i) f.t := fun _ => rfl
  rw [hk, enqueue_thread s f i hv ht]
  have hs : startAt (enqueue s f i) f.t (waiting s f i) = startOf s f i := by
    have e : ∀ m, srAt (enqueue s f i) f.t m = srAt s f.t m := fun m => srAt_congr (by rw [enqueue_thread s f i hv ht]) m
    unfold startAt startOf
    rw [e, e]; rfl
  have hn : (cell (enqueue s f i) (cellOf f.t)).accNo = (cell s (cellOf f.t)).accNo := by
    rw [(enqueue_frame s f i).cell, issued_cell, if_pos rfl]
  rw [hs, hn]
  cases f.tile <;> rfl

theorem begun_only (s : State) (f : DecForm) (i : Instr) (hv : (thread s f.t).vq = []) (ht : (thread s f.t).tq = []) :
    pipeOnly f.t (enqueue s f i) (begun s f i) := by
  rw [begun_eq s f i hv ht]; exact beginEntry_only ..

theorem begun_oldest (s : State) (f : DecForm) (i : Instr) (hv : (thread s f.t).vq = []) (ht : (thread s f.t).tq = []) :
    oldestUnresolved (thread (begun s f i) f.t) = some (startEntry s f i) := by
  rw [begun_thread s f i hv ht]
  unfold oldestUnresolved
  cases f.tile <;> rfl

/-- The one element of a list that a test holds of. -/
theorem find?_only {α : Type} (p : α → Bool) (a : α) (l : List α) (h : a ∈ l) (ha : p a = true) (ho : ∀ b ∈ l, b ≠ a → p b = false) :
    l.find? p = some a := by
  induction l with
  | nil => cases h
  | cons b t ih =>
    by_cases hb : b = a
    · subst hb; rw [List.find?_cons_of_pos ha]
    · rw [List.find?_cons_of_neg (by rw [ho b List.mem_cons_self hb]; simp)]
      exact ih ((List.mem_cons.1 h).resolve_left (fun e => hb e.symm)) (fun c hc => ho c (List.mem_cons_of_mem _ hc))

theorem tidOf_self (t : Tid) (h : isMantle (cellOf t) = false) : tidOf (cellOf t) (thrOf t) = t := by
  have hb : cellOf t < 768 := by simpa [isMantle] using h
  have ht : t.val < 6144 := by by_contra hn; rw [cellOf, if_neg hn] at hb; omega
  unfold tidOf; rw [if_pos hb]
  simp only [cellOf, thrOf, if_pos ht]
  apply Fin.ext; simp only [Fin.ofNat]; omega

theorem cellOf_tidOf (c j : Nat) (h : c < 768) : cellOf (tidOf c j) = c := by
  have hj : (8 * c + j % 8) % 6160 = 8 * c + j % 8 := Nat.mod_eq_of_lt (by omega)
  unfold tidOf cellOf
  rw [if_pos h]
  simp only [Fin.ofNat, hj]
  rw [if_pos (by omega)]; omega

/-- A thread whose queues are empty has nothing that a pipe could start. -/
theorem couldStart_none (s : State) (u : Tid) (p : Nat) (hv : (thread s u).vq = []) (ht : (thread s u).tq = []) : couldStart s u p = false := by
  unfold couldStart; dsimp only; rw [hv, ht]; rfl

/-- What an instruction must find to be started as soon as it is issued (R31, R134, R184, R225, R231). -/
structure startsNow (s : State) (f : DecForm) (i : Instr) : Prop where
  vq : (thread s f.t).vq = []
  tq : (thread s f.t).tq = []
  hold : (thread s f.t).hold = []
  cellId : isMantle (cellOf f.t) = false
  others : ∀ u, cellOf u = cellOf f.t → u ≠ f.t → (thread s u).vq = [] ∧ (thread s u).tq = []
  held : (cell s (cellOf f.t)).held = []
  room : (cell s (cellOf f.t)).wb.length ≤ 16
  harp : pipeOf i = 4 → (cell s (cellOf f.t)).harpStopped = false

theorem startsNow.cell {s : State} {f : DecForm} {i : Instr} (_ : startsNow s f i) :
    Machine.cell (enqueue s f i) (cellOf f.t) = { Machine.cell s (cellOf f.t) with last := Fin.ofNat 8 (thrOf f.t) } := by
  rw [(enqueue_frame s f i).cell, issued_cell, if_pos rfl]

theorem startsNow.idle {s : State} {f : DecForm} {i : Instr} (h : startsNow s f i) (u : Tid) (hc : cellOf u = cellOf f.t) (hu : u ≠ f.t) :
    (thread (enqueue s f i) u).vq = [] ∧ (thread (enqueue s f i) u).tq = [] := by
  rw [(enqueue_frame s f i).2 u hu, (issued_frame s f.t).1.2.1 u hu]
  exact h.others u hc hu

theorem startsNow.could {s : State} {f : DecForm} {i : Instr} (h : startsNow s f i) : couldStart (enqueue s f i) f.t (pipeOf i) = true := by
  unfold couldStart
  rw [enqueue_thread s f i h.vq h.tq, h.cell]
  have hp : pipeOf (waiting s f i).instr = pipeOf i := rfl
  cases hf : f.tile
  · simp [waiting, entryOf, List.findIdx?, List.findIdx?.go]
  · by_cases h4 : pipeOf i = 4
    · simp [waiting, entryOf, behindTile, h.harp h4]
    · simp [waiting, entryOf, behindTile, h4]

theorem startsNow.turn {s : State} {f : DecForm} {i : Instr} (h : startsNow s f i) : hasTurn (enqueue s f i) f.t (pipeOf i) = true := by
  have hb : cellOf f.t < 768 := by simpa [isMantle] using h.cellId
  unfold hasTurn
  rw [decide_eq_true_eq]
  refine find?_only _ _ _ ?_ h.could (fun u hu hne => ?_)
  · have hn : thrCount (cellOf f.t) = 8 := by unfold thrCount; rw [if_pos hb]
    have ht : thrOf f.t < 8 := by unfold thrOf; split <;> omega
    generalize (tget 7 (Machine.cell (enqueue s f i) (cellOf f.t)).pipeLast (pipeOf i)).val = k
    refine List.mem_map.2 ⟨(thrOf f.t + 8 * (k + 1) - (k + 1)) % 8, List.mem_range.2 (by rw [hn]; exact Nat.mod_lt _ (by norm_num)), ?_⟩
    rw [hn, show (k + 1 + (thrOf f.t + 8 * (k + 1) - (k + 1)) % 8) % 8 = thrOf f.t by omega]
    exact tidOf_self _ h.cellId
  · obtain ⟨j, -, rfl⟩ := List.mem_map.1 hu
    obtain ⟨a, b⟩ := h.idle _ (cellOf_tidOf _ _ hb) hne
    exact couldStart_none _ _ _ a b

theorem startsNow.free {s : State} {f : DecForm} {i : Instr} (h : startsNow s f i) : pipeKept (enqueue s f i) f.t (pipeOf i) = false := by
  have hb : cellOf f.t < 768 := by simpa [isMantle] using h.cellId
  have hq : ∀ u ∈ tidsOf (cellOf f.t), u ≠ f.t → (thread (enqueue s f i) u).vq = [] ∧ (thread (enqueue s f i) u).tq = [] := by
    intro u hu hne
    obtain ⟨j, -, rfl⟩ := List.mem_map.1 hu
    exact h.idle _ (cellOf_tidOf _ _ hb) hne
  have k (p : DecEntry → Bool) : (tidsOf (cellOf f.t)).any (fun u => decide (u ≠ f.t) && (thread (enqueue s f i) u).vq.any p) = false := by
    rw [List.any_eq_false]; intro u hu
    by_cases hne : u = f.t
    · simp [hne]
    · simp [(hq u hu hne).1]
  have k' (p : DecEntry → Bool) : (tidsOf (cellOf f.t)).any (fun u => decide (u ≠ f.t) && (thread (enqueue s f i) u).tq.any p) = false := by
    rw [List.any_eq_false]; intro u hu
    by_cases hne : u = f.t
    · simp [hne]
    · simp [(hq u hu hne).2]
  unfold pipeKept
  dsimp only
  rw [k, k', h.cell, h.held]
  simp

theorem startsNow.window {s : State} {f : DecForm} {i : Instr} (h : startsNow s f i) : windowBlocked (enqueue s f i) f.t = false := by
  have hh : (thread (enqueue s f i) f.t).hold = [] := by rw [enqueue_thread s f i h.vq h.tq]; exact h.hold
  have hr := h.room
  unfold windowBlocked storesBlocked
  rw [hh, h.cell]
  have e : (distinct (([] : List HeldStore).map (fun h => h.pa / 128))).filter
      (fun l => (storeMerges { Machine.cell s (cellOf f.t) with last := Fin.ofNat 8 (thrOf f.t) } (thrOf f.t) l).isNone) = [] := rfl
  simp only [e, List.length_nil]
  rw [decide_eq_false (by omega), Bool.false_and]

/-! ## Its end -/

/-- A thread whose scalar result has arrived. -/
def resultIn (i : Instr) (res : Option Word) (th : Thread) : Thread :=
  match res with
  | none => th
  | some v => arriveReg th (dstOf i) v

/-- An instruction that its unit completes: its flags are set, both queues and the window are empty, its result is in its register. -/
theorem runDecoupled_done (s : State) (i : Instr) (f : DecForm) (hf : decForm i = some f) (hs : startsNow s f i)
    (hm : mayIssue s f.t false f.regs = true) (s2 : State) (fl : Nat) (res : Option Word)
    (hd : dRun (begun s f i) f.t (startEntry s f i) = .done s2 fl res)
    (h1 : (thread s2 f.t).vq = (thread (begun s f i) f.t).vq) (h2 : (thread s2 f.t).tq = (thread (begun s f i) f.t).tq)
    (h3 : (thread s2 f.t).hold = (thread (begun s f i) f.t).hold) :
    ∃ n, runDecoupled true i s = some n ∧ threadOnly f.t s2 n
      ∧ thread n f.t = resultIn i res { thread s2 f.t with sr := (thread (setFlags s2 f.t fl) f.t).sr, vq := [], tq := [], hold := [], younger := 0 } := by
  have hq : ((if f.tile then (thread s f.t).tq else (thread s f.t).vq) : List DecEntry) = [] := by split; exact hs.tq; exact hs.vq
  have hrun : runDecoupled true i s = some (arrive (startUnit true (enqueue s f i) f.t .clean) f.t f.tile) := by
    unfold runDecoupled
    rw [hf]
    simp only [hq, hm]
    rfl
  rw [begun_thread s f i hs.vq hs.tq] at h1 h2 h3
  have hstart : startUnit true (enqueue s f i) f.t .clean = passUnit (setFlags s2 f.t fl) f.t (startEntry s f i) false res := by
    unfold startUnit
    rw [enqueue_oldest s f i hs.vq hs.tq]
    have e1 : pipeOf (waiting s f i).instr = pipeOf i := rfl
    have e2 : (waiting s f i).at'.isNone = true := rfl
    simp only [e1, e2, hs.free, hs.turn, hs.window, Bool.not_true, Bool.and_false, Bool.or_false, Bool.false_eq_true, if_false, if_true]
    rw [← begun_eq s f i hs.vq hs.tq, begun_oldest s f i hs.vq hs.tq]
    dsimp only
    rw [if_neg (by simp)]
    have e3 : dNow (begun s f i) f.t (startEntry s f i) = .done s2 fl res := by unfold dNow; rw [hd]
    rw [e3]
  let mark (th : Thread) : Thread :=
    let g (o : DecEntry) : DecEntry := if o.resolved then o else { o with resolved := true, result := res.map (fun v => (dstOf i, v)), runs := false }
    { th with vq := th.vq.map g, tq := th.tq.map g }
  have hpass : passUnit (setFlags s2 f.t fl) f.t (startEntry s f i) false res
      = modThread (modThread (setFlags s2 f.t fl) f.t mark) f.t (fun th => { th with hold := [], younger := 0 }) := by
    unfold passUnit commitWindow
    have : (thread (modThread (setFlags s2 f.t fl) f.t mark) f.t).hold = [] := by
      rw [thread_modThread_same]
      show (thread (setFlags s2 f.t fl) f.t).hold = []
      unfold setFlags srPutF; rw [thread_srPut]; exact h3.trans hs.hold
    show modThread ((thread (modThread (setFlags s2 f.t fl) f.t mark) f.t).hold.foldl _ _) f.t _ = _
    rw [this]; rfl
  have hth : thread (startUnit true (enqueue s f i) f.t .clean) f.t = { mark (thread s2 f.t) with
      sr := (thread (setFlags s2 f.t fl) f.t).sr, hold := [], younger := 0 } := by
    rw [hstart, hpass, thread_modThread_same, thread_modThread_same]
    show ({ mark (thread (setFlags s2 f.t fl) f.t) with hold := [], younger := 0 } : Thread) = _
    unfold setFlags srPutF; rw [thread_srPut]
  have honly : threadOnly f.t s2 (startUnit true (enqueue s f i) f.t .clean) := by
    rw [hstart, hpass]
    exact ((modThread_only s2 f.t _).trans (modThread_only _ f.t mark)).trans (modThread_only _ f.t _)
  refine ⟨_, hrun, ?_⟩
  have ha : arrive (startUnit true (enqueue s f i) f.t .clean) f.t f.tile
      = setThread (startUnit true (enqueue s f i) f.t .clean) f.t (resultIn i res { thread s2 f.t with sr := (thread (setFlags s2 f.t fl) f.t).sr, vq := [], tq := [], hold := [], younger := 0 }) := by
    unfold arrive
    rw [hth]
    show (match (if f.tile = true then (mark (thread s2 f.t)).tq else (mark (thread s2 f.t)).vq).findIdx? _ with | none => _ | some i => _) = _
    simp only [mark, h1, h2]
    cases f.tile <;> cases res <;> rfl
  rw [ha]
  exact ⟨honly.trans ⟨rfl, fun u hu => by rw [thread_setThread, if_neg hu]⟩, by rw [thread_setThread_same]⟩

/-! ## Flags -/

theorem thread_setFlags (s : State) (t : Tid) (fl : Nat) : thread (setFlags s t fl) t = { thread s t with sr := (thread (setFlags s t fl) t).sr } := by
  unfold setFlags srPutF; exact thread_srPut ..

theorem setFlags_gained (s : State) (t : Tid) (fl : Nat) : flagsGained s (setFlags s t fl) t (fun j => fl.testBit j = true) := by
  unfold setFlags srPutF
  refine ⟨fun m hm => srAt_srPut_other s t hm _, fun j hj => ?_⟩
  rw [srAt_srPut_same]
  show (setBits (srAt s t 0x002) 8 0 _).getLsbD j = true ↔ _
  rw [getLsbD_setBits _ _ (by norm_num) (by norm_num)]
  by_cases h : j < 9
  · rw [if_pos (by omega), Nat.testBit_or, testBit_bits, Nat.sub_zero, Nat.zero_add]
    have : decide (j < 8 + 1 - 0) = true := decide_eq_true (by omega)
    rw [this, Bool.true_and, Bool.or_eq_true]
    simp [h, bit]
  · rw [if_neg (by omega)]
    simp [h, bit]

/-! ## Vector instructions that stay in the registers -/

theorem setBit_same {n : Nat} (b : BitVec n) {k : Nat} (hk : k < n) (h : bit b k = false) : setBit b k false = b := by
  apply BitVec.eq_of_getLsbD_eq; intro j hj
  rw [setBit, getLsbD_setBits _ _ (le_refl _) hk]
  split
  · obtain rfl : j = k := by omega
    simp only [bit] at h; simp [h]
  · rfl

theorem setBit_back {n : Nat} (b : BitVec n) {k : Nat} (hk : k < n) (h : bit b k = false) : setBit (setBit b k true) k false = b := by
  apply BitVec.eq_of_getLsbD_eq; intro j hj
  rw [setBit, getLsbD_setBits _ _ (le_refl _) hk]
  split
  · obtain rfl : j = k := by omega
    simp only [bit] at h; simp [h]
  · rename_i hne
    rw [setBit, getLsbD_setBits _ _ (le_refl _) hk, if_neg hne]

/-- The mark of an awaited result goes when it arrives. -/
theorem awaited_back (s : State) (f : DecForm) (r : Reg) (hr : f.dst = some r) (h0 : bit (thread s f.t).busy 0 = false) (hb : bit (thread s f.t).busy r.toNat = false) :
    setBit (awaited s f) r.toNat false = (thread s f.t).busy := by
  unfold awaited
  rw [hr]
  by_cases h : r = 0
  · subst h; exact setBit_same _ (by decide) h0
  · dsimp only; rw [if_neg h]; exact setBit_back _ r.isLt hb

/-- The harp runs no vector instruction. -/
theorem vPure_pipe {i : Instr} {th : Thread} {d : DCtx} {x : Tid × VOut} (h : vPure i th d = some x) : pipeOf i ≠ 4 := by
  intro h4
  unfold pipeOf at h4
  split at h4 <;> first | omega | (split at h4 <;> omega) | cases h

/-- What an instruction finds that may issue alone, but for the harp. -/
theorem decReady_starts {s : State} {t : Tid} {rs : List Reg} (h : decReady s t rs) {f : DecForm} {i : Instr} (hft : f.t = t)
    (h4 : pipeOf i = 4 → (cell s (cellOf t)).harpStopped = false) : startsNow s f i := by
  subst hft
  obtain ⟨-, hmt, hv, ht, hh, ho, hheld, hwb⟩ := h
  exact ⟨hv, ht, hh, hmt, ho, hheld, hwb, h4⟩

theorem decReady_issue {s : State} {t : Tid} {rs : List Reg} (h : decReady s t rs) {f : DecForm} (hrs : ∀ r ∈ f.regs, r ∈ (0 : Reg) :: rs) :
    mayIssue s t false f.regs = true := by
  have hm := h.1
  simp only [mayIssue, Bool.and_eq_true, regsFree, List.all_eq_true] at hm ⊢
  exact ⟨⟨hm.1.1, fun r hr' => hm.1.2 r (hrs r hr')⟩, hm.2⟩

theorem decReady_marks {s : State} {t : Tid} {rs : List Reg} (h : decReady s t rs) (r : Reg) (hr : r ∈ (0 : Reg) :: rs) : bit (thread s t).busy r.toNat = false := by
  have hm := h.1
  simp only [mayIssue, Bool.and_eq_true, regsFree, List.all_eq_true] at hm
  simpa using hm.1.2 r hr

/-- What begins alone leaves alone all that its unit may not touch. -/
theorem begun_frame (s : State) (f : DecForm) (i : Instr) (hv : (thread s f.t).vq = []) (ht : (thread s f.t).tq = []) (n : State)
    (hn : threadOnly f.t (begun s f i) n) : unitFrame f.t s n := by
  obtain ⟨a1, a2, a3, a4, a5⟩ := (issued_frame s f.t).1
  have ho := enqueue_frame s f i
  obtain ⟨b1, b2, b3, b4⟩ := begun_only s f i hv ht
  refine ⟨by rw [hn.1, b1, ho.1, a1], fun u hu => by rw [hn.2 u hu, b2 u hu, ho.2 u hu, a2 u hu], fun c hc => ?_, ?_, fun r j hj hr => ?_, fun a => ?_⟩
  · rw [hn.cell, b3 c hc, ho.cell, issued_cell, if_neg hc]
  · dsimp only; rw [hn.cell, b4, ho.cell, a3]
  · rw [← a4 r j hj hr, hn.1, b1, ho.1]; rfl
  · rw [← a5 a, hn.1, b1, ho.1]; rfl

/-- What such an instruction leaves, given what its unit makes of the thread's vector state, its scalar operands and the step of its random bits. -/
theorem vec_done (s : State) (i : Instr) (t : Tid) (f : DecForm) (hf : decForm i = some f) (hft : f.t = t) (rs : List Reg) (hr : decReady s t rs)
    (hrs : ∀ r ∈ f.regs, r ∈ (0 : Reg) :: rs)
    (hd : ∀ s' e, e.instr = i → isMantle (cellOf t) = false → dRun s' t e = runVPure s' t e)
    (v' : Table (BitVec 8192)) (q' : Table (BitVec 1024)) (fl : Nat) (res : Option Word) (hdst : res.isSome = f.dst.isSome)
    (hp : ∀ th d, th.v = (thread s t).v → th.q = (thread s t).q → th.sr = (thread s t).sr → d.a = rx s t f.a → d.b = rx s t f.b →
      d.step = stepReg s (thread s t).spec.isSome → vPure i th d = some (t, .ok { th with v := v', q := q' } fl res))
    (hx : exec i s = .next ((runDecoupled true i s).getD s)) :
    ∃ n, exec i s = .next n ∧ decDone s n t ((thread s t).pc + (if f.long then 12 else 4)) ∧ (thread n t).v = v' ∧ (thread n t).q = q'
      ∧ (∀ r, rx n t r = match res with | none => rx s t r | some v => if r = dstOf i ∧ r ≠ 0 then v else rx s t r)
      ∧ (res = none → (thread n t).regs = (thread s t).regs)
      ∧ flagsGained s n t (fun j => fl.testBit j = true) := by
  subst hft
  have hmt := hr.2.1
  have he := begun_thread s f i hr.2.2.1 hr.2.2.2.1
  have hp1 := hp (thread (begun s f i) f.t) (entD (begun s f i) f.t (startEntry s f i)) (by rw [he]) (by rw [he]) (by rw [he]) rfl rfl rfl
  have hs := decReady_starts hr (i := i) rfl (fun h => absurd h (vPure_pipe hp1))
  set s1 := begun s f i with hs1
  have hrun : dRun s1 f.t (startEntry s f i) = .done (setThread s1 f.t { thread s1 f.t with v := v', q := q' }) fl res := by
    rw [hd s1 _ rfl hmt]
    unfold runVPure
    rw [show (startEntry s f i).instr = i from rfl, hp1]
  obtain ⟨n, n1, n2, n3⟩ := runDecoupled_done s i f hf hs (decReady_issue hr hrs) _ fl res hrun (by rw [thread_setThread_same]) (by rw [thread_setThread_same]) (by rw [thread_setThread_same])
  set s2 := setThread s1 f.t { thread s1 f.t with v := v', q := q' } with hs2
  have hfr : unitFrame f.t s n := begun_frame s f i hs.vq hs.tq n ((show threadOnly f.t s1 s2 from ⟨rfl, fun u hu => by rw [hs2, thread_setThread, if_neg hu]⟩).trans n2)
  have hs2t : thread s2 f.t = { thread s1 f.t with v := v', q := q' } := by rw [hs2, thread_setThread_same]
  set srN := (thread (setFlags s2 f.t fl) f.t).sr with hsr
  have hflag : ∀ n' : State, (thread n' f.t).sr = srN → flagsGained s n' f.t (fun j => fl.testBit j = true) := by
    intro n' h
    obtain ⟨k1, k2⟩ := setFlags_gained s2 f.t fl
    have e1 : ∀ m, srAt n' f.t m = srAt (setFlags s2 f.t fl) f.t m := fun m => srAt_congr (by rw [h]) m
    have e2 : ∀ m, srAt s2 f.t m = srAt s f.t m := fun m => srAt_congr (by rw [hs2t, he]) m
    refine ⟨fun m hm => by rw [e1, k1 m hm, e2], fun j hj => ?_⟩
    rw [e1, k2 j hj, e2]
  have hv := hs.vq
  have ht := hs.tq
  have hh := hs.hold
  cases hdst' : f.dst with
  | none =>
    have hres : res = none := by cases res with | none => rfl | some v => rw [hdst'] at hdst; simp at hdst
    subst hres
    have hb : awaited s f = (thread s f.t).busy := by unfold awaited; rw [hdst']
    have hn : thread n f.t = { thread s1 f.t with v := v', q := q', sr := srN, vq := [], tq := [], hold := [], younger := 0 } := by rw [n3, hs2t]; rfl
    rw [he, hb] at hn
    have hsame : (thread n f.t).regs = (thread s f.t).regs := by rw [hn]
    refine ⟨n, by rw [hx, n1]; rfl, ⟨?_, hfr⟩, by rw [hn], by rw [hn], fun r => ?_, fun _ => hsame, hflag n (by rw [hn])⟩
    · rw [hn]
      generalize hgg : thread s f.t = th at *
      cases th; simp only at hv ht hh; subst hv ht hh; rfl
    · show rx n f.t r = rx s f.t r
      simp only [rx, xget, hsame]
  | some r =>
    obtain ⟨v, hres⟩ : ∃ v, res = some v := by cases res with | none => rw [hdst'] at hdst; simp at hdst | some v => exact ⟨v, rfl⟩
    subst hres
    have hdo : dstOf i = r := by unfold dstOf; rw [hf]; dsimp only; rw [hdst']; rfl
    have hb : setBit (awaited s f) r.toNat false = (thread s f.t).busy :=
      awaited_back s f r hdst' (decReady_marks hr 0 (by simp)) (decReady_marks hr r (hrs r (by simp [DecForm.regs, hdst'])))
    have hn : thread n f.t = arriveReg { thread s1 f.t with v := v', q := q', sr := srN, vq := [], tq := [], hold := [], younger := 0 } r v := by rw [n3, hs2t]; rw [← hdo]; rfl
    rw [he] at hn
    unfold arriveReg at hn
    rw [xset_rest] at hn
    simp only [hb, List.map_nil] at hn
    refine ⟨n, by rw [hx, n1]; rfl, ⟨?_, hfr⟩, by rw [hn], by rw [hn], fun q => ?_, fun h => by simp at h, hflag n (by rw [hn])⟩
    · rw [hn]
      generalize hgg : thread s f.t = th at *
      cases th; simp only at hv ht hh; subst hv ht hh; rfl
    · rw [hdo]
      have : (thread n f.t).regs = (xset (thread s f.t) r v).regs := by
        rw [hn]
        simp only [xset]
        split <;> rfl
      show xget (thread n f.t) q = _
      have e : xget (thread n f.t) q = xget (xset (thread s f.t) r v) q := by simp only [xget, this]
      rw [e, xget_xset]
      dsimp only
      by_cases hq : q = r ∧ r ≠ 0
      · rw [if_pos hq, if_pos ⟨hq.1, by rw [hq.1]; exact hq.2⟩]
      · rw [if_neg hq, if_neg (fun h => hq ⟨h.1, by rw [← h.1]; exact h.2⟩)]; rfl

/-- An instruction that maps the elements of its destination group: `vecGives` with each element's new value and flags. -/
theorem group_gives (s : State) (t : Tid) (i : Instr) (df : DecForm) (hf : decForm i = some df) (hft : df.t = t) (rs : List Reg) (hr : decReady s t rs)
    (hrs : ∀ r ∈ df.regs, r ∈ (0 : Reg) :: rs) (hdst : df.dst = none)
    (hd : ∀ s' e, e.instr = i → isMantle (cellOf t) = false → dRun s' t e = runVPure s' t e)
    (hx : exec i s = .next ((runDecoupled true i s).getD s))
    (w g vd qp : Nat) (hw : elWidth w) (n : Nat) (hn : n = g * 8192 / w) (fn : Nat → Nat → Fl Nat)
    (hp : ∀ th d, th.v = (thread s t).v → th.q = (thread s t).q → th.sr = (thread s t).sr → d.a = rx s t df.a → d.b = rx s t df.b →
      d.step = stepReg s (thread s t).spec.isSome →
      vPure i th d = some (t, .ok (putGroup th vd w (mapActive (qget th qp) w g (groupEls th vd w n) fn).1) (mapActive (qget th qp) w g (groupEls th vd w n) fn).2 none))
    (el : Nat → BitVec w → BitVec w × Nat)
    (hel : ∀ k, k < n → el k (vEl (thread s t).v w vd k) = (BitVec.ofNat w (fn k (vEl (thread s t).v w vd k).toNat).1, (fn k (vEl (thread s t).v w vd k).toNat).2)) :
    vecGives i s t ((thread s t).pc + (if df.long then 12 else 4)) w g vd qp el := by
  set th0 := thread s t with hth0
  obtain ⟨m, hm⟩ : ∃ m, m = mapActive (qget th0 qp) w g (groupEls th0 vd w n) fn := ⟨_, rfl⟩
  have hp' := vec_done s i t df hf hft rs hr hrs hd (putGroup th0 vd w m.1).v th0.q m.2 none (by rw [hdst]; rfl) (by
    intro th d h1 h2 h3 h4 h5 h6
    rw [hp th d h1 h2 h3 h4 h5 h6, groupEls_congr h1 vd w n, show qget th qp = qget th0 qp by unfold qget; rw [h2], ← hm, putGroup_congr h1 vd w m.1, ← h2]) hx
  obtain ⟨n', k1, k2, k3, k4, -, k6, k7⟩ := hp'
  have hlen : m.1.length = n := by rw [hm, mapActive_length, length_groupEls]
  have hro : regsOf w m.1.length = g := by rw [hlen, hn]; exact regsOf_full hw
  have hact : ∀ k, k < n → (active (qget th0 qp) w g k = true ↔ vActive th0 qp w g k) := fun k hk => active_iff th0 (gov_lt hw (by rw [← hn]; exact hk))
  have hold : ∀ k, k < n → (groupEls th0 vd w n).getD k 0 = (vEl th0.v w vd k).toNat := fun k hk => groupEls_getD th0 vd hw.le hk 0
  refine ⟨n', k1, k2, fun k hk => ?_, fun r hr => ?_, k4, k6 rfl, k7.1, fun j hj => ?_⟩
  · rw [← hn] at hk
    have e : vEl (thread n' t).v w vd k = if active (qget th0 qp) w g k then BitVec.ofNat w (fn k (vEl th0.v w vd k).toNat).1 else vEl th0.v w vd k := by
      rw [k3, vEl_putGroup _ _ _ hw.le (by rw [hro]; exact full_room hw (by rw [← hn]; exact hk)), if_pos (by rw [hlen]; exact hk), hm,
        mapActive_getD _ _ _ _ _ (by rw [length_groupEls]; exact hk), hold k hk]
      split
      · rfl
      · simp
    rw [e]
    constructor
    · intro ha; rw [if_pos ((hact k hk).2 ha.2), hel k hk]
    · intro ha; rw [if_neg (fun h => ha ⟨by rw [← hn]; exact hk, (hact k hk).1 h⟩)]
  · rw [k3, putGroup_away]; rw [hro]; exact hr
  · rw [k7.2 j hj]
    beta_reduce
    rw [hm, mapActive_flags, length_groupEls]
    constructor
    · rintro (h | ⟨h9, k, hk, ha, hf⟩)
      · exact .inl h
      · refine .inr ⟨h9, k, ⟨by rw [← hn]; exact hk, (hact k hk).1 ha⟩, ?_⟩
        rw [hel k hk]; rw [hold k hk] at hf; exact hf
    · rintro (h | ⟨h9, k, ⟨hk, ha⟩, hf⟩)
      · exact .inl h
      · rw [← hn] at hk
        refine .inr ⟨h9, k, hk, (hact k hk).2 ha, ?_⟩
        rw [hel k hk] at hf; rw [hold k hk]; exact hf

/-- An instruction that writes the first elements of a group: `elGives`. -/
theorem els_give (s : State) (t : Tid) (i : Instr) (df : DecForm) (hf : decForm i = some df) (hft : df.t = t) (rs : List Reg) (hr : decReady s t rs)
    (hrs : ∀ r ∈ df.regs, r ∈ (0 : Reg) :: rs) (hdst : df.dst = none)
    (hd : ∀ s' e, e.instr = i → isMantle (cellOf t) = false → dRun s' t e = runVPure s' t e)
    (hx : exec i s = .next ((runDecoupled true i s).getD s))
    (w vd : Nat) (hw : w ≤ 64) (l : List Nat) (fl : Nat)
    (hp : ∀ th d, th.v = (thread s t).v → th.q = (thread s t).q → th.sr = (thread s t).sr → d.a = rx s t df.a → d.b = rx s t df.b →
      d.step = stepReg s (thread s t).spec.isSome → vPure i th d = some (t, .ok (putGroup th vd w l) fl none))
    (el : Nat → BitVec w) (hel : ∀ k, k < l.length → BitVec.ofNat w (l.getD k 0) = el k) :
    elGives i s t w vd l.length el (if df.long then 12 else 4) fl := by
  obtain ⟨n, k1, k2, k3, k4, -, k6, k7⟩ := vec_done s i t df hf hft rs hr hrs hd (putGroup (thread s t) vd w l).v (thread s t).q fl none (by rw [hdst]; rfl) (by
    intro th d h1 h2 h3 h4 h5 h6
    rw [hp th d h1 h2 h3 h4 h5 h6, putGroup_congr h1, ← h2]) hx
  refine ⟨n, k1, k2, fun k hk => ?_, fun r b hb h => ?_, k4, k6 rfl, k7⟩
  · rw [k3, vEl_putGroup _ _ _ hw (mul_lt_regsOf hk), if_pos hk, hel k hk]
  · rw [k3, putGroup_bit _ _ _ hb h]

/-- An instruction that writes a scalar register alone: `scalarFrom`. -/
theorem scalar_from (s : State) (t : Tid) (i : Instr) (df : DecForm) (hf : decForm i = some df) (hft : df.t = t) (rs : List Reg) (hr : decReady s t rs)
    (hrs : ∀ r ∈ df.regs, r ∈ (0 : Reg) :: rs) (rd : Reg) (hdst : df.dst = some rd) (hl : df.long = false)
    (hd : ∀ s' e, e.instr = i → isMantle (cellOf t) = false → dRun s' t e = runVPure s' t e)
    (hx : exec i s = .next ((runDecoupled true i s).getD s)) (x : Word)
    (hp : ∀ th d, th.v = (thread s t).v → th.q = (thread s t).q → d.a = rx s t df.a → d.b = rx s t df.b → vPure i th d = some (t, .ok th 0 (some x))) :
    scalarFrom i s t rd x := by
  obtain ⟨n, k1, k2, k3, k4, k5, -, k7⟩ := vec_done s i t df hf hft rs hr hrs hd (thread s t).v (thread s t).q 0 (some x) (by rw [hdst]; rfl) (by
    intro th d h1 h2 h3 h4 h5 h6
    rw [hp th d h1 h2 h4 h5, ← h1, ← h2]) hx
  have hdo : dstOf i = rd := by unfold dstOf; rw [hf]; dsimp only; rw [hdst]; rfl
  rw [hdo] at k5
  refine ⟨n, k1, by rw [hl] at k2; exact k2, ?_, fun r hr' => ?_, k3, k4, fun m => ?_⟩
  · rw [k5 rd]; by_cases h : rd = 0
    · subst h; rfl
    · dsimp only; rw [if_pos ⟨rfl, h⟩, if_neg h]
  · rw [k5 r]; simp [hr']
  · by_cases hm : m = 0x002
    · subst hm
      apply BitVec.eq_of_getLsbD_eq; intro j hj
      have := k7.2 j hj
      simp only [Nat.zero_testBit, Bool.false_eq_true, and_false, or_false] at this
      exact Bool.eq_iff_iff.2 this
    · exact k7.1 m hm

/-- An instruction that writes no element: `elGives` of none. -/
theorem none_give (s : State) (t : Tid) (i : Instr) (df : DecForm) (hf : decForm i = some df) (hft : df.t = t) (rs : List Reg) (hr : decReady s t rs)
    (hrs : ∀ r ∈ df.regs, r ∈ (0 : Reg) :: rs) (hdst : df.dst = none)
    (hd : ∀ s' e, e.instr = i → isMantle (cellOf t) = false → dRun s' t e = runVPure s' t e)
    (hx : exec i s = .next ((runDecoupled true i s).getD s))
    (hp : ∀ th d, th.v = (thread s t).v → th.q = (thread s t).q → th.sr = (thread s t).sr → d.a = rx s t df.a → d.b = rx s t df.b →
      vPure i th d = some (t, .ok th 0 none)) (w vd n : Nat) (el : Nat → BitVec w) (hel : ∀ k, k < n → vEl (thread s t).v w vd k = el k) :
    elGives i s t w vd n el (if df.long then 12 else 4) 0 := by
  obtain ⟨m, k1, k2, k3, k4, -, k6, k7⟩ := vec_done s i t df hf hft rs hr hrs hd (thread s t).v (thread s t).q 0 none (by rw [hdst]; rfl) (by
    intro th d h1 h2 h3 h4 h5 _
    rw [hp th d h1 h2 h3 h4 h5, ← h1, ← h2]) hx
  exact ⟨m, k1, k2, fun k hk => by rw [k3, hel k hk], fun r b _ _ => by rw [k3], k4, k6 rfl, k7⟩

end Sys2Proof.Machine
end

