-- ==== Sys2Proof/Laws/Home.lean ====
section
/-! SUPPORT. What a write at the home and a flash invalidation leave alone; reading and writing a word at its home. -/

namespace Sys2Proof.Machine

open Sys2Proof.Safety

/-- What a write at the home leaves alone: all but memory, the errors found, and the registers that count them. -/
def writeKeeps (s n : State) : Prop :=
  n = { s with ms := { s.ms with mem := n.ms.mem, rc := n.ms.rc, rcSets := n.ms.rcSets, rcOut := n.ms.rcOut, hbmPoison := n.ms.hbmPoison, bmPoison := n.ms.bmPoison }, mmio := n.mmio, err := n.err, hbm := queued s n }
  ∧ regsKept [.hbmChstat, .errInj] s n

theorem writeKeeps.refl (s : State) : writeKeeps s s := ⟨rfl, regsKept_refl _ s⟩
theorem writeKeeps.trans {a b c : State} (h : writeKeeps a b) (k : writeKeeps b c) : writeKeeps a c :=
  ⟨by rw [k.1, h.1]; rfl, regsKept_trans h.2 k.2⟩
theorem writeKeeps.thread {s n : State} (h : writeKeeps s n) (t : Tid) : Machine.thread n t = Machine.thread s t := by rw [h.1]; rfl
theorem writeKeeps.cell {s n : State} (h : writeKeeps s n) (c : Nat) : Machine.cell n c = Machine.cell s c := by rw [h.1]; rfl
theorem writeKeeps.gran {s n : State} (h : writeKeeps s n) : n.ms.gran = s.ms.gran := by rw [h.1]

theorem readKeeps.write {s n : State} (h : readKeeps s n) : writeKeeps s n :=
  ⟨by rw [h.1]; rfl, regsKept_mono h.2.1 (by simp)⟩

theorem storeLine_keeps (s : State) (l : Nat) (x : Line) : writeKeeps s (storeLine s l x) := by
  have e := storeLine_ms_rest s l x
  refine ⟨by rw [e]; rfl, fun r i _ _ => ?_⟩
  rw [e]; rfl

theorem writeBack_keeps (s : State) (l : Nat) : writeKeeps s (writeBack s l) := by
  unfold writeBack; split
  · exact .refl s
  · refine ((touchDeadIf_keeps _ s l).write.trans (storeLine_keeps _ l _)).trans ⟨rfl, fun _ _ _ _ => rfl⟩

theorem dropLatent_keeps (s : State) (l o n : Nat) : writeKeeps s (dropLatent s l o n) := by
  unfold dropLatent; split
  · exact .refl s
  · have : ∀ (L : List Nat) (s : State), writeKeeps s (L.foldl (fun s i =>
        if o ≤ 8 * i ∧ 8 * i + 8 ≤ o + n then { s with err := { s.err with latent := tdel (16 * l + i) s.err.latent } } else s) s) := by
      intro L
      induction L with
      | nil => intro s; exact .refl s
      | cons a t ih =>
        intro s
        simp only [List.foldl_cons]
        refine writeKeeps.trans ?_ (ih _)
        split
        · exact ⟨rfl, fun _ _ _ _ => rfl⟩
        · exact .refl s
    exact this _ s

theorem rcDrop_keeps (s : State) (l : Nat) : writeKeeps s (rcDrop s l) := ⟨rfl, fun _ _ _ _ => rfl⟩

theorem storeInjected_keeps (s : State) (l o n : Nat) : writeKeeps s (storeInjected s l o n) := by
  unfold storeInjected; dsimp only; split
  · set s' : State := { s with err := _ }
    have h1 : writeKeeps s s' := ⟨rfl, fun _ _ _ _ => rfl⟩
    refine ((h1.trans (writeBack_keeps s' l)).trans (rcDrop_keeps _ l)).trans ⟨rfl, fun r i hi hr => ?_⟩
    exact reg_setReg_other _ _ (by norm_num) hi (fun h => hr (by simp [h.1]))
  · exact .refl s

theorem homeWriteLine_keeps (s : State) (l o : Nat) (bs : List Byte) (mk : Bool) : writeKeeps s (homeWriteLine s l o bs mk) := by
  unfold homeWriteLine; split
  · exact (touchDeadIf_keeps _ s l).write
  · dsimp only
    refine writeKeeps.trans (writeKeeps.trans (writeKeeps.trans ?_ (rcTouch_keeps _ l).write) (dropLatent_keeps _ _ _ _)) (storeInjected_keeps _ _ _ _)
    have h1 : writeKeeps s (if lineHbm l && decide (bs.length < 128) then touchLine s l else s) := by
      split
      · exact (touchLine_keeps s l).write
      · exact .refl s
    split
    · exact h1.trans ⟨rfl, fun _ _ _ _ => rfl⟩
    · exact h1.trans (storeLine_keeps _ _ _)

theorem homeWrite_keeps (s : State) (pa : Nat) (bs : List Byte) (mk : Bool) : writeKeeps s (homeWrite s pa bs mk) := by
  unfold homeWrite; split
  · exact .refl s
  · generalize cutLines pa bs = L
    induction L generalizing s with
    | nil => exact .refl s
    | cons c t ih => exact (homeWriteLine_keeps s _ _ _ _).trans (ih _)

theorem homeWriteFrom_keeps (s : State) (d pa : Nat) (bs : List Byte) (mk : Bool) : writeKeeps s (homeWriteFrom s d pa bs mk) := by
  unfold homeWriteFrom; split
  · exact .refl s
  · exact homeWrite_keeps s pa bs mk

/-! ## Bytes read -/

theorem lineBytes_eq (x : Line) (off k : Nat) : lineBytes x off k = (List.range k).map (fun i => x.data.extractLsb' (8 * (off + i)) 8) := by
  apply List.ext_getElem
  · simp [lineBytes, leBytes_length]
  · intro i h1 h2
    have hi : i < k := by simpa using h2
    simp only [List.getElem_map, List.getElem_range]
    have : (lineBytes x off k)[i] = (lineBytes x off k).getD i 0 := by rw [List.getD_eq_getElem?_getD, List.getElem?_eq_getElem h1]; rfl
    rw [this]
    ext b hb
    rw [← BitVec.getLsbD_eq_getElem, lineBytes, testBit_leBytes _ _ _ _ hb, BitVec.getElem_extractLsb']
    simp only [hi, decide_true, Bool.true_and, Nat.testBit_shiftRight, BitVec.getLsbD]
    congr 1; omega

theorem cutLines_one (pa : Nat) (bs : List Byte) (h : pa % 128 + bs.length ≤ 128) : cutLines pa bs = [(pa / 128, pa % 128, bs)] := by
  unfold cutLines; dsimp only; rw [if_pos (by omega)]

/-- The bytes that a read within a line gives. -/
theorem homeRead_bytes (s : State) (pa k : Nat) (h : pa % 128 + k ≤ 128) : ofLE (homeRead s pa k).1.1 = wordAt s pa k := by
  unfold homeRead wordAt
  rw [cutLines_one pa _ (by simpa using h)]
  simp only [List.foldl_cons, List.foldl_nil, List.length_replicate, List.nil_append]
  congr 1
  rw [lineBytes_eq]
  refine List.map_congr_left (fun i hi => ?_)
  have hi : i < k := by simpa using hi
  have : (readLine s (pa / 128)).1 = homeLine (touchDead (touchLine s (pa / 128)) (pa / 128)) (pa / 128) := rfl
  rw [this, ((touchLine_sameHome s _).trans (touchDead_sameHome _ _)).homeData]
  simp only [byteAt]
  rw [show (pa + i) / 128 = pa / 128 by omega, show (pa + i) % 128 = pa % 128 + i by omega]

theorem sameHome.safe {s n : State} (h : sameHome s n) (hs : memorySafe s) : memorySafe n :=
  ⟨by rw [h.1]; exact hs.1, fun l hl => by rw [h.2.1]; exact hs.2 l hl⟩

theorem wordAt_congr {s n : State} (h : bytesKept s n) (pa k : Nat) : wordAt n pa k = wordAt s pa k := by
  unfold wordAt; congr 1; exact List.map_congr_left (fun i _ => h _)

/-! ## Flash invalidation -/

/-- What a flash invalidation of core c leaves alone (R223, R228). -/
def flashKeeps (c : Nat) (s n : State) : Prop :=
  n = { s with cells := n.cells, mmio := n.mmio, out := n.out, pba := n.pba, msixDue := n.msixDue }
  ∧ (∀ d, d ≠ c → cell n d = cell s d)
  ∧ cell n c = { cell s c with
      l1 := (cell n c).l1, victim := (cell n c).victim, streams := (cell n c).streams, mshrs := (cell n c).mshrs }
  ∧ regsKept [.perfCnt, .perfEvt] s n

theorem flashKeeps.refl (c : Nat) (s : State) : flashKeeps c s s := ⟨rfl, fun _ _ => rfl, rfl, regsKept_refl _ s⟩
theorem flashKeeps.trans {c : Nat} {a b d : State} (h : flashKeeps c a b) (k : flashKeeps c b d) : flashKeeps c a d := by
  refine ⟨?_, fun e he => (k.2.1 e he).trans (h.2.1 e he), ?_, regsKept_trans h.2.2.2 k.2.2.2⟩
  · rw [k.1, h.1]
  · rw [k.2.2.1, h.2.2.1]
theorem flashKeeps.thread {c : Nat} {s n : State} (h : flashKeeps c s n) (t : Tid) : Machine.thread n t = Machine.thread s t := by rw [h.1]; rfl
theorem flashKeeps.bytes {c : Nat} {s n : State} (h : flashKeeps c s n) : bytesKept s n :=
  (sameHome_of_regs (by rw [h.1]) h.2.2.2 (by decide) (by decide)).bytes

theorem counterFrame.flash {s n : State} (h : counterFrame s n) (c : Nat) : flashKeeps c s n :=
  ⟨by rw [h.1], fun d _ => h.cell d, by rw [h.cell], h.2⟩

theorem modCell_flashKeeps (s : State) (c : Nat) (f : CellS → CellS)
    (h : f (cell s c) = { cell s c with l1 := (f (cell s c)).l1, victim := (f (cell s c)).victim, streams := (f (cell s c)).streams, mshrs := (f (cell s c)).mshrs }) :
    flashKeeps c s (modCell s c f) := by
  refine ⟨rfl, fun d hd => ?_, ?_, fun _ _ _ _ => rfl⟩
  · rw [cell_modCell, if_neg hd]
  · simp only [cell_modCell_same]; exact h

theorem earlyIf_flash (s : State) (c : Nat) (x : CLine) : flashKeeps c s (earlyIf s c x) := by
  unfold earlyIf; split
  · exact .refl c s
  · exact ((perfEvent_counterFrame ..).flash c).trans (modCell_flashKeeps _ c _ rfl)

/-- The lines dropped early change nothing but streams and counters. -/
theorem earlyAll_mshrs (l : List CLine) (s : State) (c : Nat) :
    flashKeeps c s (l.foldl (fun s y => earlyIf s c y) s) ∧ (cell (l.foldl (fun s y => earlyIf s c y) s) c).mshrs = (cell s c).mshrs := by
  induction l generalizing s with
  | nil => exact ⟨.refl c s, rfl⟩
  | cons a t ih =>
    obtain ⟨h1, h2⟩ := ih (earlyIf s c a)
    refine ⟨(earlyIf_flash s c a).trans h1, h2.trans ?_⟩
    rw [(earlyIf_keeps s c a).2.2.1]

/-- A flash invalidation (R223, R228). -/
theorem flash_keeps (s : State) (c : Nat) : flashKeeps c s (flash s c) := by
  unfold flash
  exact (earlyAll_mshrs _ s c).1.trans (modCell_flashKeeps _ c _ rfl)

/-- After it the L1 and the victim cache hold nothing, and no fill in flight installs its line. -/
theorem flash_cell (s : State) (c : Nat) : (cell (flash s c) c).l1 = [] ∧ (cell (flash s c) c).victim = []
    ∧ (cell (flash s c) c).mshrs = (cell s c).mshrs.map (fun m => { m with install := false }) := by
  unfold flash
  simp only [cell_modCell_same, true_and]
  rw [(earlyAll_mshrs _ s c).2]

/-! ## A quiet cell has nothing to settle -/

theorem serveLoads_quiet (s : State) (t : Tid) (p : Nat → Nat → Bool) (h : quiet s t) : serveLoads s (cellOf t) p = s := by
  unfold serveLoads
  simp only [h.2.1, h.2.2.1, h.2.2.2, List.length_nil, List.range_zero, List.foldl_nil]

theorem release_quiet (s : State) (t : Tid) (h : quiet s t) : release s t = s := by
  unfold release
  dsimp only
  rw [serveLoads_quiet s t _ h]
  have hd : finishDevices s (cellOf t) (thrOf t) (cell s (cellOf t)).accNo = s := by
    unfold finishDevices; simp only [h.1, h.2.2.1, List.length_nil, Nat.add_zero, List.range_zero, List.foldl_nil]
  rw [hd]
  unfold settleStores
  rw [h.1]; rfl

theorem settleLine_quiet (s : State) (t : Tid) (l : Nat) (h : quiet s t) : settleLine s (cellOf t) (thrOf t) l = s := by
  unfold settleLine; rw [serveLoads_quiet s t _ h, h.1]; rfl

end Sys2Proof.Machine
end

