-- ==== Sys2Proof/Laws/Reduce.lean ====
section
/-! SUPPORT. The order of R128 gives an associative and commutative operation's fold in any order. -/

namespace Sys2Proof.Machine

variable {α : Type}

/-- Two partial results combined, where an empty one gives the other. -/
def oComb (op : α → α → α) : Option α → Option α → Option α
  | some x, some y => some (op x y)
  | some x, none => some x
  | none, y => y

/-- Partial results combined from left to right. -/
def oFold (op : α → α → α) (l : List (Option α)) : Option α := l.foldl (oComb op) none

section
variable (op : α → α → α)

@[simp] theorem oComb_none_left (a : Option α) : oComb op none a = a := rfl
@[simp] theorem oComb_none_right (a : Option α) : oComb op a none = a := by cases a <;> rfl

theorem oComb_assoc (ha : ∀ x y z, op (op x y) z = op x (op y z)) (a b c : Option α) : oComb op (oComb op a b) c = oComb op a (oComb op b c) := by
  cases a <;> cases b <;> cases c <;> simp [oComb, ha]

theorem oComb_comm (hc : ∀ x y, op x y = op y x) (a b : Option α) : oComb op a b = oComb op b a := by
  cases a <;> cases b <;> simp [oComb, hc]

theorem foldl_oComb (ha : ∀ x y z, op (op x y) z = op x (op y z)) (l : List (Option α)) (a : Option α) : l.foldl (oComb op) a = oComb op a (oFold op l) := by
  unfold oFold
  induction l generalizing a with
  | nil => simp
  | cons b t ih => rw [List.foldl_cons, List.foldl_cons, ih, ih (oComb op none b), oComb_none_left, oComb_assoc op ha]

theorem oFold_cons (ha : ∀ x y z, op (op x y) z = op x (op y z)) (a : Option α) (l : List (Option α)) : oFold op (a :: l) = oComb op a (oFold op l) := by
  show l.foldl (oComb op) a = _
  exact foldl_oComb op ha l a

theorem oFold_append (ha : ∀ x y z, op (op x y) z = op x (op y z)) (l m : List (Option α)) : oFold op (l ++ m) = oComb op (oFold op l) (oFold op m) := by
  unfold oFold; rw [List.foldl_append]; exact foldl_oComb op ha m _

theorem oFold_flatMap (ha : ∀ x y z, op (op x y) z = op x (op y z)) {β : Type} (l : List β) (f : β → List (Option α)) :
    oFold op (l.flatMap f) = oFold op (l.map (fun b => oFold op (f b))) := by
  induction l with
  | nil => rfl
  | cons b t ih => rw [List.flatMap_cons, oFold_append op ha, List.map_cons, oFold_cons op ha, ih]

theorem oFold_perm (ha : ∀ x y z, op (op x y) z = op x (op y z)) (hc : ∀ x y, op x y = op y x) {l m : List (Option α)} (h : l.Perm m) : oFold op l = oFold op m := by
  induction h with
  | nil => rfl
  | cons x _ ih => rw [oFold_cons op ha, oFold_cons op ha, ih]
  | swap x y l => rw [oFold_cons op ha, oFold_cons op ha, oFold_cons op ha, oFold_cons op ha, ← oComb_assoc op ha, ← oComb_assoc op ha, oComb_comm op hc y x]
  | trans _ _ h1 h2 => exact h1.trans h2

/-- One round of the pairwise fold. -/
theorem oFold_pairs (ha : ∀ x y z, op (op x y) z = op x (op y z)) : (l : List (Option α)) → l.length % 2 = 0 →
    oFold op ((List.range (l.length / 2)).map (fun j => oComb op (l.getD (2 * j) none) (l.getD (2 * j + 1) none))) = oFold op l
  | [], _ => by simp
  | [_], h => by simp at h
  | a :: b :: t, h => by
    have ht : t.length % 2 = 0 := by simp at h; omega
    have e : (a :: b :: t).length / 2 = t.length / 2 + 1 := by simp only [List.length_cons]; omega
    rw [e, List.range_succ_eq_map, List.map_cons, List.map_map, oFold_cons op ha, oFold_cons op ha, oFold_cons op ha, ← oComb_assoc op ha]
    congr 1
    rw [← oFold_pairs ha t ht]
    rfl

/-- The pairwise fold of R128. -/
theorem foldPairs_eq (ha : ∀ x y z, op (op x y) z = op x (op y z)) (n k : Nat) (hk : k ≤ n) (l : List (Option α)) (hl : l.length = 2 ^ k) :
    foldPairs op n l = oFold op l := by
  induction n generalizing k l with
  | zero =>
    obtain rfl : k = 0 := by omega
    match l, hl with
    | [a], _ => rfl
  | succ n ih =>
    unfold foldPairs
    split
    · rename_i h
      match l, hl, h with
      | [], hl, _ => exact absurd hl (Nat.two_pow_pos k).ne
      | [a], _, _ => rfl
      | _ :: _ :: _, _, h => simp at h
    · rename_i h
      obtain ⟨j, rfl⟩ : ∃ j, k = j + 1 := by
        cases k with
        | zero => omega
        | succ j => exact ⟨j, rfl⟩
      rw [pow_succ] at hl
      have e := oFold_pairs op ha l (by omega)
      rw [← e]
      refine (ih j (by omega) _ ?_).trans ?_
      · rw [List.length_map, List.length_range]; omega
      · congr 2

theorem laneFold_eq (xs : List (Option α)) (l k : Nat) :
    laneFold xs l k (fun x => x) op = oFold op ((List.range ((xs.length + l - 1 - k) / l)).map (fun j => xs.getD (k + j * l) none)) := by
  unfold laneFold oFold
  rw [List.foldl_map]
  congr 1
  funext acc j
  generalize xs.getD (k + j * l) none = a
  cases a <;> cases acc <;> rfl

/-- The lanes' elements are the list's. -/
theorem lanes_perm (m l : Nat) (hl : 0 < l) :
    ((List.range l).flatMap (fun k => (List.range m).map (fun j => k + j * l))).Perm (List.range (l * m)) := by
  rw [List.perm_ext_iff_of_nodup ?_ List.nodup_range]
  · intro a
    simp only [List.mem_flatMap, List.mem_range, List.mem_map]
    constructor
    · rintro ⟨k, hk, j, hj, rfl⟩
      have : l * (j + 1) ≤ l * m := Nat.mul_le_mul_left l hj
      rw [Nat.mul_succ, Nat.mul_comm] at this; omega
    · intro ha
      exact ⟨a % l, Nat.mod_lt _ hl, a / l, by rw [Nat.div_lt_iff_lt_mul hl, Nat.mul_comm]; exact ha, by rw [Nat.mul_comm]; exact Nat.mod_add_div a l⟩
  · rw [List.nodup_flatMap]
    refine ⟨fun k _ => ?_, ?_⟩
    · refine List.Nodup.map (fun i j h => ?_) List.nodup_range
      exact Nat.eq_of_mul_eq_mul_right hl (by omega)
    · refine List.Pairwise.imp_of_mem (R := fun a b => a ≠ b) ?_ List.nodup_range
      intro a b ha hb hab x hx hy
      simp only [List.mem_map, List.mem_range] at hx hy ha hb
      obtain ⟨i, _, rfl⟩ := hx
      obtain ⟨j, _, h⟩ := hy
      apply hab
      have h1 := congrArg (· % l) h
      beta_reduce at h1
      rw [Nat.add_mul_mod_self_right, Nat.add_mul_mod_self_right, Nat.mod_eq_of_lt ha, Nat.mod_eq_of_lt hb] at h1
      exact h1.symm

/-- R128's order over 2^k lanes of a list that fills them evenly is the fold of the list. -/
theorem reduce_eq (ha : ∀ x y z, op (op x y) z = op x (op y z)) (hc : ∀ x y, op x y = op y x) (k m : Nat) (hk : k ≤ 7) (xs : List (Option α)) (hx : xs.length = 2 ^ k * m) :
    reduce (2 ^ k) xs (fun x => x) op op = oFold op xs := by
  have hp : 0 < 2 ^ k := Nat.two_pow_pos k
  unfold reduce
  rw [foldPairs_eq op ha 7 k hk _ (by simp)]
  have e1 : (List.range (2 ^ k)).map (fun j => laneFold xs (2 ^ k) j (fun x => x) op)
      = (List.range (2 ^ k)).map (fun j => oFold op ((List.range m).map (fun i => xs.getD (j + i * 2 ^ k) none))) := by
    apply List.map_congr_left
    intro j hj
    have hj := List.mem_range.1 hj
    rw [laneFold_eq]
    have : (xs.length + 2 ^ k - 1 - j) / 2 ^ k = m := by
      rw [hx, show 2 ^ k * m + 2 ^ k - 1 - j = (2 ^ k - 1 - j) + 2 ^ k * m by omega, Nat.add_mul_div_left _ _ hp, Nat.div_eq_of_lt (by omega)]; omega
    rw [this]
  rw [e1, ← oFold_flatMap op ha]
  apply oFold_perm op ha hc
  have e2 : (List.range (2 ^ k)).flatMap (fun j => (List.range m).map (fun i => xs.getD (j + i * 2 ^ k) none))
      = ((List.range (2 ^ k)).flatMap (fun j => (List.range m).map (fun i => j + i * 2 ^ k))).map (fun a => xs.getD a none) := by
    rw [List.map_flatMap]; congr 1; funext j; rw [List.map_map]; rfl
  have e3 : xs = (List.range (2 ^ k * m)).map (fun a => xs.getD a none) := by
    apply List.ext_getElem
    · simp [hx]
    · intro i h1 h2
      simp [List.getElem?_eq_getElem h1]
  rw [e2]
  conv_rhs => rw [e3]
  exact (lanes_perm m (2 ^ k) hp).map _

/-- A fold from an old value that skips what is absent. -/
theorem foldl_skip (ha : ∀ x y z, op (op x y) z = op x (op y z)) (l : List (Option α)) (old : α) :
    some (l.foldl (fun acc o => match o with | some x => op acc x | none => acc) old) = oComb op (some old) (oFold op l) := by
  rw [← foldl_oComb op ha]
  induction l generalizing old with
  | nil => rfl
  | cons a t ih =>
    rw [List.foldl_cons, List.foldl_cons]
    cases a with
    | none => exact ih old
    | some x => exact ih (op old x)

end

end Sys2Proof.Machine
end

