-- ==== Sys2Proof/Laws/Tile.lean ====
section
/-! SUPPORT. Laws of the tile file (R160–R163), and of a decoupled instruction that changes only its cell's tiles. -/

namespace Sys2Proof.Machine

open Sys2Proof.Safety

/-! ## Rows -/

/-- Rows of a tile written from a list of values and marks. -/
theorem putRows_spec (td width : Nat) (row : Nat → Nat) (bad : Nat → Bool) (n : Nat) (x : CellS) :
    let y := (List.range n).foldl (fun y r => putTileRow y td r width (row r) (bad r)) x
    y = { x with tiles := y.tiles, tpoison := y.tpoison, tparity := y.tparity }
    ∧ (∀ r j, r < n → j < 8 * width → j < 2048 → (tget 0 y.tiles (64 * td + r)).getLsbD j = (row r).testBit j)
    ∧ (∀ r, r < n → tget false y.tpoison (64 * td + r) = bad r)
    ∧ (∀ k, k < 64 * td ∨ 64 * td + n ≤ k → tget 0 y.tiles k = tget 0 x.tiles k ∧ tget false y.tpoison k = tget false x.tpoison k) := by
  induction n with
  | zero => exact ⟨rfl, fun r j h => by omega, fun r h => by omega, fun k _ => ⟨rfl, rfl⟩⟩
  | succ n ih =>
    dsimp only at ih ⊢
    rw [List.range_succ, List.foldl_append, List.foldl_cons, List.foldl_nil]
    generalize (List.range n).foldl (fun y r => putTileRow y td r width (row r) (bad r)) x = y at ih ⊢
    obtain ⟨h1, h2, h3, h4⟩ := ih
    have ht : ∀ k, tget 0 (putTileRow y td n width (row n) (bad n)).tiles k = if k = 64 * td + n then
        BitVec.ofNat 2048 ((tileRow y td n >>> (8 * width)) <<< (8 * width) + row n % 2 ^ (8 * width)) else tget 0 y.tiles k := fun k => by
      simp only [putTileRow, tget_tset]
    have hp : ∀ k, tget false (putTileRow y td n width (row n) (bad n)).tpoison k = if k = 64 * td + n then bad n else tget false y.tpoison k := fun k => by
      simp only [putTileRow, tget_tset]
    refine ⟨?_, fun r j hr hj hj2 => ?_, fun r hr => ?_, fun k hk => ?_⟩
    · have e : putTileRow y td n width (row n) (bad n) = { y with tiles := (putTileRow y td n width (row n) (bad n)).tiles, tpoison := (putTileRow y td n width (row n) (bad n)).tpoison, tparity := (putTileRow y td n width (row n) (bad n)).tparity } := rfl
      rw [e, h1]
    · rw [ht]
      by_cases h : r = n
      · subst h
        rw [if_pos rfl, BitVec.getLsbD_ofNat, decide_eq_true hj2, Bool.true_and, Nat.add_comm,
          testBit_add_shift (Nat.mod_lt _ (Nat.two_pow_pos _)), if_pos hj, Nat.testBit_mod_two_pow, decide_eq_true hj, Bool.true_and]
      · rw [if_neg (by omega)]; exact h2 r j (by omega) hj hj2
    · rw [hp]
      by_cases h : r = n
      · subst h; rw [if_pos rfl]
      · rw [if_neg (by omega)]; exact h3 r (by omega)
    · rw [ht, hp, if_neg (by omega), if_neg (by omega)]; exact h4 k (by omega)

theorem tileAttr_putExtent (x : CellS) (t rows width u : Nat) : tileAttr (putExtent x t rows width) u = if u = t then { tileAttr x t with rows := rows, colBytes := width } else tileAttr x u := by
  unfold tileAttr putExtent; dsimp only; rw [tget_tins]; rfl

/-- An element of a row whose bits are known. -/
theorem tileEl_of (y : CellS) (t fd r c v : Nat) (hr : r < (tileAttr y t).rows) (hc : (fmtBits fd * c + fmtBits fd - 1) / 8 < (tileAttr y t).colBytes)
    (hb : ∀ j, j < fmtBits fd → (tget 0 y.tiles (64 * t + r)).getLsbD (fmtBits fd * c + j) = v.testBit j) : tileEl y t fd r c = v % 2 ^ fmtBits fd := by
  unfold tileEl
  dsimp only
  rw [if_neg (by omega)]
  apply Nat.eq_of_testBit_eq; intro j
  rw [Nat.testBit_mod_two_pow, Nat.testBit_mod_two_pow, Nat.testBit_shiftRight]
  by_cases hj : j < fmtBits fd
  · rw [decide_eq_true hj, Bool.true_and, Bool.true_and, ← hb j hj]; rfl
  · rw [decide_eq_false hj, Bool.false_and, Bool.false_and]

/-! ## Instructions that change only their cell's tiles -/

theorem tile_done (s : State) (i : Instr) (t : Tid) (f : DecForm) (hf : decForm i = some f) (hft : f.t = t) (hl : f.long = true) (rs : List Reg) (hr : decReady s t rs)
    (h4 : pipeOf i = 4 → (cell s (cellOf t)).harpStopped = false)
    (hrs : ∀ r ∈ f.regs, r ∈ (0 : Reg) :: rs) (s2 : State) (fl : Nat) (res : Option Word) (hdst : res.isSome = f.dst.isSome)
    (hd : dRun (begun s f i) t (startEntry s f i) = .done s2 fl res) (h1 : s2 = { begun s f i with cells := s2.cells })
    (h2 : ∀ c, c ≠ cellOf t → cell s2 c = cell (begun s f i) c)
    (h3 : cell s2 (cellOf t) = {
      cell (begun s f i) (cellOf t) with
      tiles := (cell s2 (cellOf t)).tiles
      tpoison := (cell s2 (cellOf t)).tpoison
      tparity := (cell s2 (cellOf t)).tparity
      tattr := (cell s2 (cellOf t)).tattr
      opcache := (cell s2 (cellOf t)).opcache
      capo := (cell s2 (cellOf t)).capo
      harp := (cell s2 (cellOf t)).harp })
    (hx : exec i s = .next ((runDecoupled true i s).getD s)) :
    ∃ n, exec i s = .next n ∧ tileDone s n t ∧ cell n (cellOf t) = cell s2 (cellOf t)
      ∧ (∀ r, rx n t r = res.elim (rx s t r) (fun v => if r = dstOf i ∧ r ≠ 0 then v else rx s t r))
      ∧ (res = none → (thread n t).regs = (thread s t).regs)
      ∧ flagsGained s n t (fun j => fl.testBit j = true) := by
  subst hft
  have hs := decReady_starts hr (i := i) rfl h4
  have hv := hs.vq
  have ht := hs.tq
  have hh := hs.hold
  have he := begun_thread s f i hv ht
  set s1 := begun s f i with hs1
  have hth : ∀ u, thread s2 u = thread s1 u := fun u => by rw [h1]; rfl
  obtain ⟨n, n1, n2, n3⟩ := runDecoupled_done s i f hf hs (decReady_issue hr hrs) s2 fl res hd (by rw [hth]) (by rw [hth]) (by rw [hth])
  obtain ⟨c1, c2, c3, c4, c5, c6⟩ := begun_frame s f i hv ht s1 (.refl _ _)
  have hfr : (∀ u, u ≠ f.t → thread n u = { thread s u with yield := (thread n u).yield })
      ∧ n = { s with threads := n.threads, cells := n.cells, mmio := n.mmio, out := n.out, pba := n.pba, msixDue := n.msixDue }
      ∧ (∀ c, c ≠ cellOf f.t → cell n c = cell s c) ∧ regsKept [.perfCnt, .perfEvt] s n ∧ bytesKept s n := by
    refine ⟨fun u hu => by rw [n2.2 u hu, hth, c2 u hu], by rw [n2.1, h1, c1], fun c hc => ?_, fun r j hj hr => ?_, fun a => ?_⟩
    · rw [n2.cell, h2 c hc, c3 c hc]
    · rw [← c5 r j hj hr, n2.1, h1]; rfl
    · rw [← c6 a, n2.1, h1]; rfl
  have hown : (let x := cell n (cellOf f.t)
     x = { cell s (cellOf f.t) with last := x.last, accNo := x.accNo, pipeLast := x.pipeLast, tiles := x.tiles, tpoison := x.tpoison, tparity := x.tparity,
                                    tattr := x.tattr, opcache := x.opcache, capo := x.capo, harp := x.harp }) := by
    dsimp only
    rw [n2.cell, h3, c4]
  set srN := (thread (setFlags s2 f.t fl) f.t).sr with hsr
  have hflag : ∀ n' : State, (thread n' f.t).sr = srN → flagsGained s n' f.t (fun j => fl.testBit j = true) := by
    intro n' h
    obtain ⟨k1, k2⟩ := setFlags_gained s2 f.t fl
    have e1 : ∀ m, srAt n' f.t m = srAt (setFlags s2 f.t fl) f.t m := fun m => srAt_congr (by rw [h]) m
    have e2 : ∀ m, srAt s2 f.t m = srAt s f.t m := fun m => srAt_congr (by rw [hth, he]) m
    exact ⟨fun m hm => by rw [e1, k1 m hm, e2], fun j hj => by rw [e1, k2 j hj, e2]⟩
  cases hdst' : f.dst with
  | none =>
    have hres : res = none := by cases res with | none => rfl | some v => rw [hdst'] at hdst; simp at hdst
    subst hres
    have hb : awaited s f = (thread s f.t).busy := by unfold awaited; rw [hdst']
    have hn : thread n f.t = { thread s1 f.t with sr := srN, vq := [], tq := [], hold := [], younger := 0 } := by rw [n3, hth]; rfl
    rw [he, hb] at hn
    have hsame : (thread n f.t).regs = (thread s f.t).regs := by rw [hn]
    refine ⟨n, by rw [hx, n1]; rfl, ⟨?_, hfr.1, hfr.2.1, hfr.2.2.1, hown, hfr.2.2.2⟩, n2.cell _, fun r => ?_, fun _ => hsame, hflag n (by rw [hn])⟩
    · rw [hn, hl]
      generalize hgg : thread s f.t = th at *
      cases th; simp only at hv ht hh; subst hv ht hh; rfl
    · show rx n f.t r = rx s f.t r
      simp only [rx, xget, hsame]
  | some r =>
    obtain ⟨v, hres⟩ : ∃ v, res = some v := by cases res with | none => rw [hdst'] at hdst; simp at hdst | some v => exact ⟨v, rfl⟩
    subst hres
    have hdo : dstOf i = r := by unfold dstOf; rw [hf]; dsimp only; rw [hdst']; rfl
    have hb : setBit (awaited s f) r.toNat false = (thread s f.t).busy :=
      awaited_back s f r hdst' (decReady_marks hr 0 (by simp)) (decReady_marks hr r (hrs r (by simp [DecForm.regs, hdst'])))
    have hn : thread n f.t = arriveReg { thread s1 f.t with sr := srN, vq := [], tq := [], hold := [], younger := 0 } r v := by rw [n3, hth]; rw [← hdo]; rfl
    rw [he] at hn
    unfold arriveReg at hn
    rw [xset_rest] at hn
    simp only [hb, List.map_nil] at hn
    refine ⟨n, by rw [hx, n1]; rfl, ⟨?_, hfr.1, hfr.2.1, hfr.2.2.1, hown, hfr.2.2.2⟩, n2.cell _, fun q => ?_, fun h => by simp at h, hflag n (by rw [hn])⟩
    · rw [hn, hl]
      generalize hgg : thread s f.t = th at *
      cases th; simp only at hv ht hh; subst hv ht hh; rfl
    · rw [hdo]
      have : (thread n f.t).regs = (xset (thread s f.t) r v).regs := by
        rw [hn]
        simp only [xset]
        split <;> rfl
      show xget (thread n f.t) q = _
      have e : xget (thread n f.t) q = xget (xset (thread s f.t) r v) q := by simp only [xget, this]
      rw [e, xget_xset]
      show _ = if q = r ∧ q ≠ 0 then v else rx s f.t q
      by_cases hq : q = r ∧ r ≠ 0
      · rw [if_pos hq, if_pos ⟨hq.1, by rw [hq.1]; exact hq.2⟩]
      · rw [if_neg hq, if_neg (fun h => hq ⟨h.1, by rw [← h.1]; exact h.2⟩)]; rfl

end Sys2Proof.Machine
end

