-- ==== Sys2Proof/WellFormed.lean ====
section
/-! DEFINITION. Well-formed commands: the ranges of the operands that their types leave wider than the spec does. A command's meaning is total; these checks say which commands a sender can mean. -/

namespace Sys2Proof

/-- A width and an offset in the MMIO range (R9, R78). -/
def wfAccess (off bytes : Nat) : Bool := decide (off < 0x100000000) && decide (1 ≤ bytes) && decide (bytes ≤ 8)

/-- A job message: LEN is the payload's length (R327). -/
def wfMsg (m : Msg) : Bool := decide ((m.w5.toNat % 2 ^ 32) = m.payload.length)

/-- An access of n bytes, with n bytes of data when it writes. -/
def wfData (n : Nat) (data : Option (List Byte)) : Bool :=
  decide (0 < n) && (match data with | some d => decide (d.length = n) | none => true)

/-- A channel's lanes: 72 of data, then the command lanes (R245). -/
def wfLane (lane : Nat) : Bool := decide (lane < 128)

/-- An address of 16 bytes (R384). -/
def wfGid (a : List Byte) : Bool := decide (a.length = 16)

/-- The start-up offsets of the local counters: within 4 ac of one another (R467). -/
def wfSkew (skew : List Nat) : Bool := decide (skew.length ≤ 13) && skew.all (fun x => decide (x ≤ 4))

/-- Findings of self-test: cells by 16 × block + site, engines by 32 × stack + site, core sites, rows of banks, a trim for each region (R412). -/
def wfTest (cells engines cores rows trims : List Nat) : Bool :=
  cells.all (fun x => decide (x < 1536) && decide (x % 16 < 9)) && engines.all (fun x => decide (x < 384) && decide (x % 32 < 17))
    && cores.all (fun x => decide (x < 5)) && rows.all (fun x => decide (x < 96 * 32 * 1536)) && decide (trims.length ≤ 12)

/-- Findings of training: a stack, a channel, a lane (R245). -/
def wfTraining (bad : List (Nat × Nat × Nat)) : Bool :=
  bad.all (fun p => decide (p.1 < 12) && decide (p.2.1 < 32) && wfLane p.2.2)

/-- The checks of a command. -/
def Instr.wf (i : Instr) : Bool :=
  match i with
  | .registerWrite _ off bytes _ => wfAccess off bytes
  | .readClear _ off bytes => wfAccess off bytes
  | .rowSpare _ _ row => decide (row < 1536)
  | .laneFlagged _ _ lane => wfLane lane
  | .rowRepair _ _ _ _ row => decide (row < 20480)
  | .trafficGeneratorEnd _ _ _ lane => wfLane lane
  | .join m => wfMsg m
  | .refuse m => wfMsg m
  | .roster m => wfMsg m
  | .ack m => wfMsg m
  | .contrib _ m => wfMsg m
  | .allgather _ m => wfMsg m
  | .pace _ m => wfMsg m
  | .seamMsg m => wfMsg m
  | .bar2Access _ n data => wfData n data
  | .inboundDriveRequest _ _ n data => wfData n data
  | .seamWrite _ data marks => marks.all (fun k => decide (8 * k < data.length + 8))
  | .powerUp skew => wfSkew skew
  | .builtInSelfTest c e k r t => wfTest c e k r t
  | .hbmTraining bad => wfTraining bad
  | .addressResolutionFrame _ target sender _ _ => wfGid target && wfGid sender
  | _ => true

end Sys2Proof
end

