-- ==== Sys2Proof/Tests/Slice0.lean ====
section
/-! SUPPORT. Small tests: ill-formed commands that the checks refuse, states that meet the hypotheses of the statements, and results that the spec's tables give. -/

namespace Sys2Proof.Tests

open Sys2Proof.Machine Sys2Proof.Safety

-- One after the other: a task for each kernel evaluation would hold a stack of its own.
set_option Elab.async false

/-! ## Ill-formed commands, one for each check -/

/-- A message of the given payload whose LEN says n (R327). -/
def msgOf (n : Nat) (p : List Byte) : Msg :=
  { w0 := 0, w1 := 0, w2 := 0, w3 := 0, w4 := 0, w5 := BitVec.ofNat 64 n, w6 := 0, w7 := 0, payload := p }

theorem test_wf_access_offset : (Instr.registerWrite .host 0x100000000 8 0).wf = false := by decide
theorem test_wf_access_width : (Instr.readClear .host 0 0).wf = false := by decide
theorem test_wf_row : (Instr.rowSpare 0 0 1536).wf = false := by decide
theorem test_wf_lane : (Instr.laneFlagged 0 0 128).wf = false := by decide
theorem test_wf_hbm_row : (Instr.rowRepair 0 0 0 0 20480).wf = false := by decide
theorem test_wf_generator_lane : (Instr.trafficGeneratorEnd 0 0 0 200).wf = false := by decide
theorem test_wf_message_length : (Instr.join (msgOf 4 [])).wf = false := by decide
theorem test_wf_contribution_length : (Instr.contrib 0 (msgOf 0 [1])).wf = false := by decide
theorem test_wf_data_length : (Instr.bar2Access 0 4 (some [1])).wf = false := by decide
theorem test_wf_drive_request : (Instr.inboundDriveRequest 0 0 0 none).wf = false := by decide
theorem test_wf_seam_marks : (Instr.seamWrite 0 [1] [2]).wf = false := by decide
theorem test_wf_skew : (Instr.powerUp [5]).wf = false := by decide
theorem test_wf_self_test_cell : (Instr.builtInSelfTest [9] [] [] [] []).wf = false := by decide
theorem test_wf_training_stack : (Instr.hbmTraining [(12, 0, 0)]).wf = false := by decide
theorem test_wf_gid : (Instr.addressResolutionFrame 0 [] [] 0 false).wf = false := by decide
theorem test_wf_accepts : (Instr.join (msgOf 1 [7])).wf = true ∧ (Instr.powerUp [4, 0]).wf = true := by decide

/-! ## States -/

/-- The first thread of Mantle core 0. -/
def tm : Tid := 6144

/-- The first thread of cell 0.0.0. -/
def tc : Tid := 0

/-- The regulators of stack 0 with tokens for eight lines each (R255). -/
def tokens : HbmS := { buckets := [(0, (64, 64)), (1, (64, 64)), (2, (64, 64)), (3, (64, 64)), (4, (64, 64))] }

/-- The state after reset with thread 0 of cell 0.0.0 as given, its cell running and its region clocked; stack 0 has tokens. -/
def cellState (th : Thread) : State :=
  setReg { setThread State.reset tc th with cells := [(0, { cellReset 0 with power := .run })], hbm := tokens } .devClk 0 0x10000

/-- The state after reset with a Mantle thread as given; stack 0 has tokens. -/
def coreState (th : Thread) : State := setReg { setThread State.reset tm th with hbm := tokens } .devClk 0 0x10000

/-- A thread at U with 7 in s11, −2⁶³ in s12 and −1 in s13; FM_U is clear. -/
def user : Thread := { st := .ready, sr := [(0x011, 0)], regs := [(11, 7), (12, 0x8000000000000000), (13, 0xFFFFFFFFFFFFFFFF)] }

/-- A thread at M that entered from U with IML 5 and FM 0 stacked, s2 0x100, XPC_M 0x40 and XSP_M 0x200. -/
def entered0 : Thread :=
  { st := .ready, level := 2, pc := 0x1000, regs := [(2, 0x100)], sr := [(0x800, 2), (0x810, 0x40), (0x811, 0x510), (0x815, 0x200)] }

/-- What a command leaves, or the state before it. -/
def after (i : Instr) (s : State) : State :=
  match exec i s with
  | .next n => n
  | _ => s

/-! ## States that meet hypotheses -/

theorem tget_all {α : Type} (P : α → Prop) (d : α) (k : Nat) : ∀ (t : Table α), P d → (∀ p ∈ t, P p.2) → P (tget d t k)
  | [], hd, _ => hd
  | (a, x) :: t, hd, h => by
    have ih := tget_all P d k t hd (fun p hp => h p (List.mem_cons_of_mem _ hp))
    by_cases e : a = k
    · simpa [tget, tget?, e] using h (a, x) (List.mem_cons_self ..)
    · simpa [tget, tget?, e] using ih

/-- What holds of a thread at reset and of every listed thread holds of every thread. -/
theorem thread_all (P : Thread → Prop) (s : State) (hd : P {}) (hm : P { st := .ready, level := 2 }) (h : ∀ p ∈ s.threads, P p.2) (u : Tid) : P (thread s u) := by
  unfold thread
  refine tget_all P _ _ _ ?_ h
  unfold threadReset
  split
  · exact hd
  · exact hm

/-- What holds of a core at reset and of every listed core holds of every core. -/
theorem cell_all (P : CellS → Prop) (s : State) (hd : ∀ k, P { site := k }) (h : ∀ p ∈ s.cells, P p.2) (c : Nat) : P (cell s c) := by
  unfold cell
  refine tget_all P _ _ _ ?_ h
  exact hd _

/-- A thread may issue a decoupled instruction where no listed thread has one queued. -/
theorem ready_of {s : State} {t : Tid} {rs : List Reg}
    (h : mayIssue s t false (0 :: rs) = true ∧ isMantle (cellOf t) = false ∧ (∀ p ∈ s.threads, p.2.vq = [] ∧ p.2.tq = []) ∧ (thread s t).hold = []
      ∧ (cell s (cellOf t)).held = [] ∧ (cell s (cellOf t)).wb.length ≤ 16) : decReady s t rs :=
  have q (u : Tid) := thread_all (fun x => x.vq = [] ∧ x.tq = []) s ⟨rfl, rfl⟩ ⟨rfl, rfl⟩ h.2.2.1 u
  ⟨h.1, h.2.1, (q t).1, (q t).2, h.2.2.2.1, fun u _ _ => q u, h.2.2.2.2⟩

theorem witness_issue : mayIssue (cellState user) tc true [10, 11, 12] = true ∧ mayIssue (cellState user) tc false [10, 11, 12] = true := by decide
theorem witness_decoupled : decReady (cellState user) tc [10, 11] := ready_of (by decide)
theorem witness_drained : drained (cellState user) tc = true := by decide
theorem witness_quiet : quiet (cellState user) tc ∧ (oldestUnresolved (thread (cellState user) tc)).isNone = true := by unfold quiet; decide
theorem witness_forbidden_register :
    srAssigned 0x410 = true ∧ (thread (cellState user) tc).level.toNat < 0x410 / 0x400 ∧ fmOf (cellState user) tc 0 = false := by decide
theorem witness_legal_return :
    mayIssue (coreState entered0) tm false [2] = true ∧ entryReady (coreState entered0) tm = true ∧ bits (srAt (coreState entered0) tm (lvlReg 2 1)) 14 13 ≤ 2 := by decide
theorem witness_illegal_return :
    let s := coreState { entered0 with sr := [(0x800, 0), (0x811, 0x2010)] }
    mayIssue s tm false [2] = true ∧ entryReady s tm = true ∧ quiet s tm ∧ bits (srAt s tm 0x800) 1 0 < bits (srAt s tm (lvlReg 2 1)) 14 13 := by unfold quiet; decide
theorem witness_handler :
    let s := coreState { entered0 with sr := [(0x800, 0), (0x811, 0x2010)] }
    handlerAt (illegalEntry (issued s tm) tm 2 1) tm 2 0x0B 0 := by
  exact ⟨⟨0x58, _, rfl, by decide⟩, by decide +kernel, by decide +kernel⟩
theorem witness_register_trap :
    let s := coreState { entered0 with sr := [(0x811, 0)] }
    mayIssue s tm false [10, 11] = true ∧ srAssigned 0x999 = false ∧ fmOf s tm 2 = false := by decide
theorem witness_serving : serving State.reset ∧ takes State.reset .host ∧ takes (cellState user) (.thread tc) := by
  unfold takes serving mayAccess
  decide +kernel

/-- Thread 0 of cell 0.0.0 at M, whose addresses are physical, with s11 0x1000, s12 5 and s13 1; the cell's L1 holds the line of 0x1000. -/
def machine : Thread := { st := .ready, level := 2, regs := [(11, 0x1000), (12, 5), (13, 1)], sr := [(0x811, 0)] }

/-- A set of the L1 that holds one line in its first way. -/
def l1Of (l : Nat) (d : BitVec 1024) : L1Set := { ways := some { line := l, body := { data := d } } :: List.replicate 7 none }

/-- The state with `machine`, the L1 line of 0x1000 and the write buffer given. -/
def memState (wb : List WbEnt) : State :=
  modCell (cellState machine) 0 (fun x => { x with l1 := [(l1Index 32, l1Of 32 7)], wb := wb })

/-- An open entry of thread 0 for the first eight bytes of 0x1000. -/
def ownEntry (drained : Bool) : WbEnt := { line := 32, data := 9, mask := 0xFF, owner := 0, drained := drained }

/-- A handler that the vector table of the level gives. -/
theorem handler_of {s : State} {t : Tid} {l code : Nat} {h : Word} (pa : Nat)
    (h1 : (translate s (cellOf t) (ctxAt s t (BitVec.ofNat 2 l)) ((srAt s t (lvlReg l 4) &&& fmask 64 47 9) + wd (8 * code)) .load).1 = .ok pa)
    (h2 : pa < 0xF000000000) (h3 : readAsNeeds s t (BitVec.ofNat 2 l) (vectorAddr s t l code) 8 = []) (h4 : (vectorRead s t l code).1 = .ok h) : handlerAt s t l code h :=
  ⟨⟨pa, _, Prod.ext h1 rfl, h2⟩, h3, h4⟩

theorem witness_loads :
    mayIssue (memState []) tc true [10, 11] = true ∧ oldestUnresolved (thread (memState []) tc) = none ∧ (thread (memState []) tc).hold = []
    ∧ loadRuns (thread (memState []) tc) = false ∧ xlatHeld (memState []) 0 (ctxOf (memState []) tc) 0x1000 .load = false
    ∧ translate (memState []) 0 (ctxOf (memState []) tc) 0x1000 .load = (.ok 0x1000, memState [])
    ∧ ownEntries (memState []) tc 0x1000 8 = [] ∧ (∃ y, l1Line (memState []) 0 0x1000 = some y ∧ linePoison y.body 0 8 = false ∧ y.bad &&& wordsUnder 0 8 = 0)
    ∧ (ownEntries (memState [ownEntry false]) tc 0x1000 8).getLast? = some (ownEntry false) ∧ (ownEntry false).mask &&& byteMask 0 8 = byteMask 0 8 := by
  refine ⟨by decide +kernel, by decide +kernel, by decide +kernel, by decide +kernel, by decide +kernel, rfl, by decide +kernel, ⟨_, rfl, by decide +kernel, by decide +kernel⟩, by decide +kernel, by decide +kernel⟩

theorem witness_stores :
    mayIssue (memState []) tc true [12, 11] = true ∧ translate (memState []) 0 (ctxOf (memState []) tc) 0x1000 .store = (.ok 0x1000, memState [])
    ∧ xlatHeld (memState []) 0 (ctxOf (memState []) tc) 0x1000 .store = false ∧ (thread (memState []) tc).spec = none ∧ storeMerges (cell (memState []) 0) 0 32 = none
    ∧ storeMerges (cell (memState [ownEntry false]) 0) 0 32 = some 0 ∧ (cell (memState [ownEntry false]) 0).wb[0]? = some (ownEntry false) := by
  refine ⟨by decide +kernel, rfl, by decide +kernel, by decide +kernel, by decide +kernel, by decide +kernel, by decide +kernel⟩

theorem witness_atomics :
    let s := memState []
    mayIssue s tc false [10, 11, 12] = true ∧ translate s 0 (ctxOf s tc) 0x1000 .atomic = (.ok 0x1000, s) ∧ isMemory s 0x1000 = true
    ∧ xlatHeld s 0 (ctxOf s tc) 0x1000 .atomic = false ∧ lineOpen s 0 32 = true ∧ quiet s tc ∧ releaseReady s tc = true ∧ memorySafe s ∧ lineDead s 32 = false ∧ crossDead s 0 (dieOf s 0x1000) = false ∧ (homeRead s 0x1000 8).1.2 = none := by
  refine ⟨by decide +kernel, rfl, by decide +kernel, by decide +kernel, by decide +kernel, by unfold quiet; decide +kernel, by decide +kernel, ⟨by decide +kernel, fun _ _ => rfl⟩, by decide +kernel, by decide +kernel, by decide +kernel⟩

theorem witness_misaligned :
    let s := cellState { machine with regs := [(11, 0x1001)] }
    mayIssue s tc true [10, 11] = true ∧ oldestUnresolved (thread s tc) = none ∧ fmOf s tc 2 = false ∧ quiet s tc
    ∧ handlerAt (enterRegs (issued s tc) tc 2 (thread s tc).pc { code := 1, val := 0x1001 } false none) tc 2 1 0 := by
  refine ⟨by decide +kernel, by decide +kernel, by decide +kernel, by unfold quiet; decide +kernel, handler_of 8 (by decide +kernel) (by decide) (by decide +kernel) (by decide +kernel)⟩

/-- R73: a gate at M, whose descriptor 0 stands at 0x1000: TARGET_PC 0x40, no frame base, TLEVEL M, callable at M. -/
def gateState : State :=
  let s := cellState { machine with sr := [(0x401, 0x1001), (0x811, 0), (0x800, 2)], regs := [(2, 0x2040)] }
  { s with ms := { mem := [(0x1000, 0x40), (0x1010, 0x46)] } }

theorem witness_gate :
    let s := gateState
    let d : List Byte := 0x40 :: List.replicate 15 0 ++ 0x46 :: List.replicate 15 0
    mayIssue s tc false [2, 10, 11, 12, 13, 14, 15] = true ∧ quiet s tc ∧ (0 : Nat) < bits (srAt s tc 0x401) 11 0
    ∧ asHeld (issued s tc) tc 2 0x1000 = false ∧ readAsNeeds (issued s tc) tc 2 0x1000 32 = []
    ∧ (let r := readAs (issued s tc) tc 2 0x1000 32
       r.1 = .ok d ∧ (cell r.2 0).wb = [] ∧ thread r.2 tc = thread (issued s tc) tc ∧ r.2.ms = s.ms ∧ r.2.mmio = s.mmio
       ∧ ∃ s2, checkArgs tc 0x46 (List.range 6) r.2 = .pass s2 ∧ xlatHeld s2 0 (ctxAt s2 tc 2) 0x2000 .store = false ∧ (translate s2 0 (ctxAt s2 tc 2) 0x2000 .store).1 = .ok 0x2000)
    ∧ gateMalformed 0x40 0 0x46 = false ∧ bit (0x46 : Word) 6 = true ∧ 2 ≤ bits (srAt s tc 0x800) 1 0 := by
  refine ⟨by decide +kernel, by unfold quiet; decide +kernel, by decide +kernel, by decide +kernel, by decide +kernel, ⟨by decide +kernel, by decide +kernel, by decide +kernel, ?_⟩, by decide +kernel⟩
  exact ⟨by decide +kernel, by decide +kernel, _, rfl, by decide +kernel, by decide +kernel⟩

/-- A translation of the page at 0 to itself for address space 0, with every right. -/
def page0 : TlbEnt := { asid := 0, vpn := 0, size := 12, frame0 := 0, frame1 := 0, pair := false, unp := false, r := true, w := true, x := true, u := true, ns := false }

/-- A thread at U with interrupt n pending; its cell holds the translation of page 0. -/
def interruptState (n : Nat) : State :=
  modCell (cellState { user with pend := BitVec.twoPow 16 n, sr := [(0x411, 0), (0x811, 0)] }) 0 (fun x => { x with dtlb := [page0] })

theorem witness_interrupts (k : Nat) (hk : k = 1 ∨ k = 14 ∨ k = 15) :
    let s := interruptState k
    let s1 := modThread (rollBack (leaveWaves s tc) tc) tc (fun th => { th with pend := setBit th.pend k false, yield := false, late := none })
    let l := if k = 15 then 2 else 1
    atBoundary s tc = true ∧ nextInterrupt s tc = some k ∧ oldestUnresolved (thread s tc) = none ∧ (cell s 0).wb = [] ∧ (thread s tc).st = .ready ∧ (thread s tc).late = none ∧ entryReady s tc = true
    ∧ handlerAt (enterRegs s1 tc l (thread s tc).pc { code := 0x20 + k } false (some k)) tc l (0x20 + k) 0 := by
  rcases hk with rfl | rfl | rfl <;>
  refine ⟨?_, by decide +kernel, by decide +kernel, by decide +kernel, ?_, by decide +kernel, by decide +kernel, ?_⟩ <;> try decide +kernel
  · exact handler_of 0x108 (by decide +kernel) (by decide) (by decide +kernel) (by decide +kernel)
  · exact handler_of 0x170 (by decide +kernel) (by decide) (by decide +kernel) (by decide +kernel)
  · exact handler_of 0x178 (by decide +kernel) (by decide) (by decide +kernel) (by decide +kernel)

theorem witness_fences :
    let s := memState []
    mayIssue s tc false [] = true ∧ releaseReady s tc = true ∧ drained s tc = true ∧ (cell s 0).loads = [] ∧ (cell s 0).wb = []
    ∧ (thread (cellState { machine with st := .waiting (.pause 9) }) tc).st = .waiting (.pause 9) := by decide +kernel

/-! ### Decoupled instructions -/

/-- A vector form on registers that suit groups of up to eight, under a predicate. -/
def groupForm (et : BitVec 3) (grp : BitVec 2) (qp : BitVec 4) : VForm := { vd := 8, vs1 := 16, vs2 := 24, qp := qp, et := et, grp := grp }

theorem witness_vector_forms :
    decReady (cellState user) tc [10, 11, 16, 24, 8]
    ∧ (∀ g : BitVec 2, ∀ e : BitVec 3, (groupForm e g 11).qp.toNat < 12 ∧ (∀ r, r ∈ [(groupForm e g 0).vd, (groupForm e g 0).vs1, (groupForm e g 0).vs2] → r.toNat % 2 ^ g.toNat = 0)
        ∧ ((groupForm e g 0).vs1.toNat % (2 * 2 ^ g.toNat) = 0 ∧ ((groupForm e g 0).vs2.toNat % (2 * 2 ^ g.toNat) = 0 ∨ g = 3)))
    ∧ ([0, 1, 2, 3, 4].map (fun e => etBits (BitVec.ofNat 3 e)) = [some 8, some 16, some 32, some 64, some 4])
    ∧ ([1, 2, 3, 5].map (fun e => etFloat (BitVec.ofNat 3 e)) = [some 2, some 0, some 0xD, some 1]) := by
  refine ⟨ready_of (by decide +kernel), by decide +kernel, by decide +kernel, by decide +kernel⟩

theorem witness_predicate_forms :
    let f (vd vs1 vs2 : Reg) : VForm := { vd := vd, vs1 := vs1, vs2 := vs2, qp := 0, et := 0, grp := 0 }
    decReady (cellState user) tc [11, 12] ∧ (f 0 0 0).vd.toNat % 16 < 12 ∧ (f 11 11 11).vd.toNat % 16 < 12 ∧ (f 11 11 11).vs1.toNat < 12
    ∧ etBits (f 0 0 0).et = some 8 ∧ 8 * 2 ^ (f 0 0 0).grp.toNat ≤ 8 := by
  refine ⟨ready_of (by decide +kernel), by decide +kernel⟩

theorem witness_vector_moves :
    decReady (cellState user) tc [8, 24] ∧ etBits (3 : BitVec 3) = some 64 ∧ (0 : Reg).toNat % 8 = 0 := by
  refine ⟨ready_of (by decide +kernel), by decide +kernel⟩

/-- A long form: D, A and B formats and flags, on v8, v16 and v24 with SRC3. -/
def longForm (fd fa fb flags src3 : Nat) (rs2 : Reg) : LForm :=
  { rd := 8, rs1 := 16, rs2 := rs2, qp := 0, grp := 0, w1 := pack [(25, fd), (29, fa), (33, fb), (39, flags), (47, src3)] }

theorem witness_long_forms :
    -- v.cvt of FP32 to FP16, of FP8 with a scale to FP32, of FP32 to FP8 with a scale
    (longOk (longForm 2 0 0 1 0 0).w1 = true ∧ longAligned 8 1 16 32 = true ∧ longAligned 16 1 32 32 = true)
    ∧ (longOk (longForm 0 3 0 2 1 0).w1 = true ∧ isMx 3 = true ∧ isMx 0 = false ∧ longAligned 16 1 (fmtBits 3) 32 = true)
    ∧ (longOk (longForm 3 0 0 2 1 0).w1 = true ∧ bits (longForm 3 0 0 2 1 0).w1 51 47 < 8)
    -- v.mfma on FP8 into FP32, v.stat.merge and v.stat on FP64
    ∧ (longOk (longForm 0 3 4 0 0 24).w1 = true ∧ fmtBits 4 ≤ 32 ∧ longAligned 24 1 (fmtBits 4) 32 = true)
    ∧ (longOk (longForm 0xD 0xD 0xD 0 0 24).w1 = true ∧ longOk (longForm 0xD 0xD 0 4 0 0).w1 = true ∧ longAligned 16 1 64 64 = true) := by decide +kernel

/-- The vector memory run of a statement, for a form of thread 0 whose first element alone is active. -/
def vecRun (s : State) (i : Instr) (f : VForm) (st : Bool) (k : VAddr) : VMemRun :=
  let df : DecForm := { t := tc, a := f.vs1, b := if k = .stride then f.vs2 else 0 }
  let s1 := enqueue s df i
  vMemRun (vecAcc tc (entCtx s1 tc (entryOf s df i))) f st k 64 (entD s1 tc (entryOf s df i)) (thread s1 tc) (resumeAt (srAt s tc 0x005) 14) s1

/-- `machine` with q1 covering the first doubleword alone. -/
def oneState : State := modThread (memState []) tc (fun th => { th with q := [(1, 1)], mine := 0xFFFF })

/-- What a run needs for its instruction to complete. -/
def runEnds (r : VMemRun) (s : State) (i : Instr) (f : VForm) (b : Reg) : Bool :=
  r.stop.isNone && !r.hold && decide (thread r.s tc = thread (enqueue s { t := tc, a := f.vs1, b := b } i) tc)

theorem witness_vector_memory :
    let f : VForm := { vd := 8, vs1 := 11, vs2 := 12, qp := 1, et := 3, grp := 0 }
    let g : VForm := { f with vs2 := 2 }
    decReady oneState tc [11, 12]
    ∧ vMemIllegal f false .unit = false ∧ runEnds (vecRun oneState (.vLd tc f) f false .unit) oneState (.vLd tc f) f 0 = true
    ∧ vMemIllegal f false .stride = false ∧ runEnds (vecRun oneState (.vLdS tc f) f false .stride) oneState (.vLdS tc f) f 12 = true
    ∧ vMemIllegal f false .index = false ∧ runEnds (vecRun oneState (.vLdX tc f) f false .index) oneState (.vLdX tc f) f 0 = true
    ∧ vMemIllegal g false .seg = false ∧ runEnds (vecRun oneState (.vLdSeg tc g) g false .seg) oneState (.vLdSeg tc g) g 0 = true
    ∧ vMemIllegal f true .unit = false ∧ runEnds (vecRun oneState (.vSt tc f) f true .unit) oneState (.vSt tc f) f 0 = true
    ∧ runEnds (vecRun oneState (.vStS tc f) f true .stride) oneState (.vStS tc f) f 12 = true
    ∧ runEnds (vecRun oneState (.vStX tc f) f true .index) oneState (.vStX tc f) f 0 = true
    ∧ runEnds (vecRun oneState (.vStSeg tc g) g true .seg) oneState (.vStSeg tc g) g 0 = true := by
  refine ⟨ready_of (by decide +kernel), by decide +kernel⟩

theorem witness_element_access :
    let s := oneState
    let bad := modCell s 0 (fun x => { x with l1 := [(l1Index 32, { ways := some { line := 32, body := { data := 7, poison := 1 } } :: List.replicate 7 none })] })
    let x := ctxOf s tc
    isDevice s 0x1000 = false ∧ (translate s 0 x 0x1000 .load).1 = .ok 0x1000 ∧ (translate s 0 x 0x1000 .store).1 = .ok 0x1000 ∧ irrevocable s tc 0x1000 true = false
    ∧ (threadRead s 0 0 0x1000 8).1 = ([7, 0, 0, 0, 0, 0, 0, 0], none) ∧ (threadRead s 0 0 0x1000 1).1 = ([7], none) ∧ (threadRead bad 0 0 0x1000 8).1.2.isSome = true := by decide +kernel

theorem witness_tiles :
    let held (k : Nat) : Prop := bit (thread oneState tc).mine k = true
    let f : TForm := { rd := 1, rs1 := 2, rs2 := 0, sub := 0, w1 := 0x81 }
    decReady oneState tc [1] ∧ held 1 ∧ held 2 ∧ held 15 ∧ (tileAttr (cell oneState 0) 2).rows < 256 ∧ tIllegal .mov f = false ∧ tShape .mov f.w1 = none := by
  refine ⟨ready_of (by decide +kernel), by decide +kernel⟩

theorem witness_matrix :
    let f : TForm := { rd := 1, rs1 := 2, rs2 := 3, sub := 0, w1 := 0x10081 }
    let m := mxFields f
    let x := cell oneState 0
    decReady oneState tc [] ∧ mxIllegal f = false ∧ mxShape m = none ∧ (∀ k, k ∈ mxTiles m → k < 16 ∧ bit (thread oneState tc).mine k = true) ∧ x.harpStopped = false
    ∧ m.rows = 1 ∧ mxPoison x m 0 = false ∧ (harpTry x m none).passes = true := by
  refine ⟨ready_of (by decide +kernel), by decide +kernel⟩

/-- The tile memory run of a statement, for one row of one FP32 element at s11. -/
def tileRunOf (i : Instr) (k : TKind) (f : TForm) : TRun :=
  let df : DecForm := { t := tc, tile := true, long := true, a := f.rs1, b := f.rs2, d := 0 }
  let s1 := enqueue oneState df i
  tMemRun (tileAcc tc (entCtx s1 tc (entryOf oneState df i))) k 0 f (entD s1 tc (entryOf oneState df i)) (thread s1 tc) (resumeAt (srAt oneState tc 0x006) 6) s1

theorem witness_tile_memory :
    let f : TForm := { rd := 1, rs1 := 11, rs2 := 12, sub := 0, w1 := 0x81 }
    let ends (i : Instr) (k : TKind) : Bool :=
      let r := tileRunOf i k f
      r.stop.isNone && !r.hold && decide (thread r.s tc = thread (enqueue oneState { t := tc, tile := true, long := true, a := 11, b := 12, d := 0 } i) tc)
    decReady oneState tc [11, 12, 0] ∧ tIllegal .ld f = false ∧ tShape .ld f.w1 = none ∧ tIllegal .st f = false ∧ tShape .st f.w1 = none ∧ bit (thread oneState tc).mine 1 = true
    ∧ ends (.tLd tc f) .ld = true ∧ ends (.tSt tc f) .st = true := by
  refine ⟨ready_of (by decide +kernel), by decide +kernel⟩

/-- A thread at U whose s11 names the parameter block at 0x40 of page 0: step 1, every factor 0, all formats FP32; one element at 0x100, 0x200, 0x300 and 0x400. -/
def updState : State :=
  let th : Thread := { user with regs := [(10, 1), (11, 0x40), (16, 0x100), (17, 0x200), (18, 0x300), (19, 0x400)], q := [(1, 1)] }
  { modCell (cellState th) 0 (fun x => { x with dtlb := [page0] }) with ms := { mem := [(0x58, 1)] } }

theorem witness_updates :
    let f : LForm := { rd := 10, rs1 := 11, rs2 := 16, qp := 1, grp := 0, w1 := 0 }
    let df : DecForm := { t := tc, long := true, a := 11, d := 10, more := [16, 17, 18, 19] }
    let ends (i : Instr) (opt : Nat) : Bool :=
      let s1 := enqueue updState df i
      let x := entCtx s1 tc (entryOf updState df i)
      let d := entD s1 tc (entryOf updState df i)
      let c := elCheck tc (updRead x) s1 0x40 64 false
      let b := tileRead tc c.2 0x40 64
      (match c.1 with | .ok pa => decide (pa = 0x40) | _ => false) && b.1.2.isNone
      && (match parseUpd b.1.1 (decide (opt = 1)) with
        | some p =>
          let r := updRun (updAcc tc x) opt p (updGf b.2 p) f d (thread b.2 tc) (thread b.2 tc).spec.isSome (resumeAt (srAt b.2 tc 0x005) 14) b.2
          !p.hemgf && r.stop.isNone && !r.hold && decide (thread r.s tc = thread s1 tc)
        | none => false)
    decReady updState tc [11, 10, 16, 17, 18, 19] ∧ updIllegal f 0x40 0 = false ∧ ends (.updSgdm tc f) 0 = true ∧ ends (.updAdamw tc f) 1 = true ∧ ends (.updLion tc f) 2 = true := by
  refine ⟨ready_of (by decide +kernel), by decide +kernel⟩

/-! ### Issue, misses, stores, pegs -/

theorem witness_issue_select :
    let s := modCell (cellState machine) 0 (fun x => { x with icache := [(0, { data := (word0 (.add tc 10 11 12)).setWidth 1024 })] })
    let s0 := cycle s 0
    (cell s 0).power = .run ∧ clocked s 0 = true
    ∧ (issueOrder s0 0).filter (fun u => !(thread s0 u).yield) ++ (issueOrder s0 0).filter (fun u => (thread s0 u).yield) = [] ++ tc :: [1, 2, 3, 4, 5, 6, 7]
    ∧ canIssue s0 tc = true
    ∧ (match fetchInstr s0 tc with
      | (.ok w w1, s1) => (match decodeInstr tc w w1 with
        | some i => decide (i = .add tc 10 11 12) && divFree (cell s1 0) i && (match runInstr i s1 with
          | some n => decide ((thread n tc).st ≠ .waiting .miss) && decide ((thread n tc).st ≠ .waiting .store)
          | none => false)
        | none => false)
      | _ => false) = true := by decide +kernel

/-- A state in which one decoupled instruction of thread 0 waits in its queue. -/
def queued (i : Instr) : State := enqueue (cellState user) { t := tc } i

theorem witness_resolve :
    let i : Instr := .vAdd tc { vd := 8, vs1 := 16, vs2 := 24, qp := 1, et := 3, grp := 0 }
    let s := queued i
    let e : DecEntry := { entryOf (cellState user) { t := tc } i with at' := none }
    (thread s tc).vq = [e]
    ∧ (cell s 0).power = .run ∧ clocked s 0 = true ∧ (thread s tc).tq = [] ∧ e.resolved = false ∧ e.at' = none ∧ e.runs = false ∧ (thread s tc).hold = [] ∧ (thread s tc).late = none ∧ (cell s 0).wb = []
    ∧ pipeKept s tc (pipeOf e.instr) = false ∧ hasTurn s tc (pipeOf e.instr) = true
    ∧ (let place := resumeAt (srAt s tc 0x005) 14
       let e' : DecEntry := { e with at' := some place, next := place, ask := (cell s 0).accNo }
       (match dPipe (beginEntry s tc e) tc e' with
         | .done s2 _ _ => decide ((thread s2 tc).vq = [e'] ∧ (thread s2 tc).tq = [] ∧ (thread s2 tc).hold = [] ∧ (thread s2 tc).late = none)
         | _ => false) = true) := by decide +kernel

theorem witness_arrive :
    let e : DecEntry := { entryOf (cellState user) { t := tc } (.tExt tc { rd := 10, rs1 := 1, rs2 := 0, sub := 0, w1 := 0 }) with resolved := true, result := some (10, 3) }
    let s := cellState { user with tq := [e] }
    (thread s tc).tq[0]? = some e ∧ e.resolved = true ∧ e.runs = false ∧ (thread s tc).tq.take 0 = [] ∧ e.result = some (10, 3) := by decide +kernel

theorem witness_fetch_return :
    let s := cellState { machine with st := .waiting .fetch }
    (thread s tc).st = .waiting .fetch ∧ (missingLine s tc).1 = some 0 ∧ thread (missingLine s tc).2 tc = thread s tc
    ∧ lineDead (missingLine s tc).2 0 = false ∧ crossDead (missingLine s tc).2 0 (dieOf (missingLine s tc).2 0) = false := by decide +kernel

/-- A load of s10 by thread 0 at 0x1000. -/
def load0 : LoadReq := { thr := 0, rd := 10, pa := 0x1000, bytes := 8, signed := false }

/-- Cell 0.0.0 changed, with tokens in the buckets of its stack. -/
def pathState (f : CellS → CellS) : State := { modCell (cellState machine) 0 f with hbm := { buckets := [(0, (64, 64))] } }

theorem witness_misses :
    let m : Mshr := { line := 32, loads := [load0] }
    let s := pathState (fun x => { x with mshrs := [m], slots := [{ thr := 0, line := 32 }], loads := [load0] })
    (cell s 0).mshrs[0]? = some m ∧ m.served = none ∧ homeClocked s 32 = true ∧ stackServes s 0 32 0 = true ∧ goesToDram s 32 = true
    ∧ lineDead s 32 = false ∧ crossDead s 0 (dieOf s (lineBase 32)) = false ∧ (cell s 0).slots[0]? = some { thr := 0, line := 32 }
    ∧ (cell s 0).loads[0]? = some load0 ∧ isMemory s load0.pa = true ∧ linePoison (readLineFrom s 0 32).1 0 8 = false ∧ ∀ u, (thread s u).late = none := by
  and_intros
  on_goal 12 => exact thread_all (fun th => th.late = none) _ rfl rfl (by decide +kernel)
  all_goals first | decide +kernel | exact fun _ _ => rfl

theorem witness_fills :
    let m : Mshr := { line := 32, loads := [load0], served := some { data := 7 } }
    let s := pathState (fun x => { x with mshrs := [m, { m with install := false }] })
    (cell s 0).mshrs[0]? = some m ∧ (cell s 0).mshrs[1]? = some { m with install := false } ∧ (tget {} (cell s 0).l1 (l1Index 32)).ways.length = 8
    ∧ linePoison { data := 7 } (load0.pa % 128) 8 = false ∧ ∀ u, (thread s u).late = none := by
  and_intros
  on_goal 5 => exact thread_all (fun th => th.late = none) _ rfl rfl (by decide +kernel)
  all_goals first | decide +kernel | exact fun _ _ => rfl

theorem witness_grants :
    let h : HeldMiss := { line := 32, load := load0 }
    let full : Mshr := { line := 32, loads := [], merged := 8 }
    let s := pathState (fun x => { x with held := [h] })
    let t := pathState (fun x => { x with held := [h, { h with kind := .element, line := 33 }, { h with kind := .atomic, instr := some (.amoAdd tc 10 11 12 true false false) }], mshrs := [full] })
    mayGrant s 0 h = true ∧ mayGrant { s with cells := (pathState (fun x => { x with held := [h], mshrs := [{ full with merged := 7 }] })).cells } 0 h = true
    ∧ mayGrant t 0 h = false ∧ mayGrant t 0 { h with kind := .element, line := 33 } = true ∧ mayGrant t 0 { h with kind := .atomic, instr := some (.amoAdd tc 10 11 12 true false false) } = true := by decide +kernel

theorem witness_prefetch :
    let st : Stream := { id := 1, thr := 0, last := 3, stride := 1, run := 3, armed := true, depth := 4, next := 4, paused := none, issued := 0, late := 0, early := 0 }
    let s := modCell (cellState user) 0 (fun x => { x with streams := [st], dtlb := [page0] })
    let x := cell s 0
    x.streams.find? (fun o => decide (o.thr.val = thrOf tc) && streamWants o 4) = some st ∧ clocked s 0 = true ∧ x.power = .run ∧ rf s .powerShed F.powerShedStage = 0
    ∧ (tlbLookup x .load 0 512).map (fun p => p.1) = some page0 ∧ pairFrame (ctxOf s tc) page0 + 512 % 4096 = 512 ∧ inHbm 512 = true ∧ x.mshrs = [] ∧ l1Copy x 4 = none ∧ hbmAtomics x = [] := by decide +kernel

theorem witness_stores_perform :
    let s := pathState (fun x => { x with wb := [ownEntry true] })
    (cell s 0).wb[0]? = some (ownEntry true) ∧ lineHbm 32 = true ∧ memorySafe s ∧ lineDead s 32 = false ∧ (∀ j, j < 128 → crossDead s 0 (dieOf s (lineBase 32 + j)) = false)
    ∧ olderLoad (cell s 0) (ownEntry true) = false ∧ homeClocked s 32 = true := by
  refine ⟨by decide +kernel, by decide +kernel, ⟨by decide +kernel, fun _ _ => rfl⟩, by decide +kernel, by decide +kernel, by decide +kernel, by decide +kernel⟩

/-- Thread 0 of cell 0.0.0 at M, whose s11 names peg 3 and whose s12 is 5. -/
def pegState (sr : Table Word) : State :=
  let s := cellState { machine with regs := [(11, 3), (12, 5)], sr := sr }
  { s with pegs := { vals := [(3, 4)] } }

theorem witness_pegs :
    let s := pegState [(0x811, 0)]
    let t := pegState [(0x811, 0), (0x007, 0x8000000000000001)]
    mayIssue s tc false [10, 11, 12] = true ∧ mayIssue s tc false [10, 11, 0] = true ∧ (∀ op ∈ [PegOp.rd, .add, .set, .waitGe, .waitEq, .arrive], (pegFault s tc op 3 5).isNone = true)
    ∧ quiet s tc ∧ releaseReady s tc = true ∧ pegVal s 3 = 4 ∧ noBarrierMet s 3 9
    -- an arrival that waits, one resumed whose target is reached
    ∧ (bit (srAt s tc 0x007) 63 = false ∧ 4 + 1 < (4 / 6 + 1) * 6) ∧ (bit (srAt t tc 0x007) 63 = true ∧ bits (srAt t tc 0x007) 62 0 = 1 ∧ (1 / 2 + 1) * 2 ≤ pegVal t 3) := by
  refine ⟨by decide +kernel, by decide +kernel, by decide +kernel, by unfold quiet; decide +kernel, by decide +kernel, by decide +kernel, ?_, by decide +kernel, by decide +kernel⟩
  intro q hq x o r h
  have hr : ∀ q ∈ (pegState [(0x811, 0)]).threads, q.2.st = .ready := by decide +kernel
  rw [hr q hq] at h
  cases h

theorem witness_peg_releases :
    (thread (cellState { user with st := .waiting (.released 4 10) }) tc).st = .waiting (.released 4 10)
    ∧ (thread (cellState { user with st := .waiting (.arrive 3 6 4 10) }) tc).st = .waiting (.arrive 3 6 4 10)
    ∧ ({ cellState user with pegs := { waves := [[[tc], [1]], [[2]]] } } : State).pegs.waves = ([tc] :: [[1]]) :: [[[2]]]
    ∧ agentAtLeast State.reset .host 1 = true ∧ agentThread .host = none ∧ agentThread (.thread tc) = some tc ∧ releaseReady (cellState user) tc = true
    ∧ min (max ((4 : Int) + (-5)) 0) (2 ^ 63 - 1) = 0 := by
  and_intros
  all_goals first | decide +kernel | exact fun _ _ => rfl

/-! ### Cells, spares, memories -/

/-- The state with fields of register instances set. -/
def fields (s : State) (l : List (RegName × Fld × Nat × Nat)) : State := l.foldl (fun s p => setRf s p.1 p.2.1 p.2.2.2 p.2.2.1) s

/-- Every cell and thread as at reset, with these fields. -/
def regState (l : List (RegName × Fld × Nat × Nat)) : State := fields State.reset l

theorem witness_cell_power :
    cellIdle State.reset 0 = true ∧ (cell State.reset 0).power = .run ∧ (cell State.reset 0).wakeReq = false ∧ (cell State.reset 0).updates = []
    ∧ (∀ p ∈ [CellPower.gated, .entering, .off, .waking, .run], (cell (setCell State.reset 0 { cell State.reset 0 with power := p, wakeReq := true }) 0).power = p)
    ∧ markedLines (cell State.reset 0) = [] := by decide +kernel

theorem witness_region_clocks :
    let booted := regState [(.devBoot, F.devBootImage, 0, 1)]
    let running := fields booted [(.devClk, F.devClkRunning, 0, 1)]
    let spare := fields running [(.devClk, F.devClkSparePll, 0, 1)]
    let switching := { booted with clk := { switching := [0] } }
    rf booted .devBoot F.devBootImage = 1 ∧ (rf booted .devClk F.devClkRunning).testBit 0 = false ∧ (rf booted .devClk F.devClkStopped).testBit 0 = false ∧ booted.clk.starting = []
    ∧ (rf running .devClk F.devClkRunning).testBit 0 = true ∧ (rf running .devClk F.devClkPin).testBit 0 = false ∧ (∀ i, i < 64 → cellRetired running i = true)
    ∧ (∀ ch ∈ chansOf 3, rf running .dmaChctl F.dmaChctlEn ch = 0) ∧ crossbarIdle running 0 = true
    ∧ (rf running .devClk F.devClkSparePll).testBit 0 = false ∧ (rf spare .devClk F.devClkSparePll).testBit 0 = true ∧ 0 ∈ switching.clk.switching
    ∧ 1 ≤ (agentLevel booted .host).toNat := by decide +kernel

theorem witness_booted_serves : serving (regState [(.devBoot, F.devBootImage, 0, 1)]) := by unfold serving; decide +kernel

/-- Block 0 with its cells on sites 0–7 and the spare site given; cell 0 has failed. -/
def siteState (spare : Nat) (cleared : Table Word) : State :=
  let s := setReg (modCell State.reset 0 (fun x => { x with harpStopped := true })) .devBlkmap 0 (pack [(0, 0x76543210), (32, spare)])
  { s with mantle := { s.mantle with cleared := cleared } }

theorem witness_substitution :
    cellRetired (siteState 8 []) 0 = false ∧ rf (siteState 8 []) .devBlkmap F.devBlkmapSpare 0 = 8 ∧ rf (siteState 15 []) .devBlkmap F.devBlkmapSpare 0 = 15
    ∧ (cell (siteState 8 []) 0).wb = [] ∧ (cell (siteState 8 []) 0).mshrs = [] ∧ (cell (siteState 8 []) 0).held = [] ∧ (cell (siteState 15 []) 0).harpStopped = true
    ∧ (cell (siteState 8 []) 0).loads = [] ∧ (cell (siteState 8 []) 0).slots = [] ∧ (∀ t ∈ tidsOf 0, pushHeld (siteState 8 []) t = false) ∧ (settleWait (siteState 15 [(0, 0)]) (tidsOf 0)).isNone = true
    ∧ faultAgain (siteState 15 []) 0 = false ∧ faultAgain (siteState 15 [(0, 0)]) 0 = true ∧ (siteState 15 [(0, 0)]).tasks.runs = [] ∧ (siteState 8 []).repair.ents.length < 8184
    ∧ cellFaulted (siteState 8 []) 0 = true ∧ cellFaulted State.reset 0 = false ∧ (siteState 15 [(0, 0)]).tasks.queues = [] := by
  and_intros
  all_goals first | exact fun _ _ => rfl | decide +kernel

/-- Corrected errors at the site of cell 0. -/
def ceState (times : List Word) : State := { State.reset with err := { cellCe := [(0, times)] } }

theorem witness_cell_corrected_errors :
    cellFaulted (ceState (wd hourTicks :: List.replicate 63 0)) 0 = true ∧ cellFaulted (ceState (wd (hourTicks + 1) :: List.replicate 63 0)) 0 = false
    ∧ cellFaulted (ceState (List.replicate 63 0)) 0 = false := by decide +kernel

theorem witness_substituted_threads (t : Tid) :
    let th := thread (siteState 8 []) t
    th.vq = [] ∧ th.tq = [] ∧ th.late = none ∧ th.st ≠ .waiting .miss :=
  thread_all (fun th => th.vq = [] ∧ th.tq = [] ∧ th.late = none ∧ th.st ≠ .waiting .miss) _ (by decide) (by decide) (by decide +kernel) t

theorem witness_row_spares :
    let due : State := { State.reset with err := { due := [(bmRowKey 0 0, [5])] } }
    let full : State := { due with bm := { spares := [(bankKey 0 0, List.range 32)] } }
    rowDue State.reset (bmRowKey 0 0) 5 = false ∧ rowDue due (bmRowKey 0 0) 5 = true ∧ (sparesUsed due 0 0).length < 32 ∧ 32 ≤ (sparesUsed full 0 0).length ∧ rowDue full (bmRowKey 0 0) 5 = true
    ∧ ({ dirty := true } : RepairS).ents.length ≤ 8184 ∧ (∀ k, k < 4 → homeLive (regState [(.mantleCores, F.mantleCoresLive, 0, 15)]) k = true) := by decide +kernel

theorem witness_row_repairs :
    let due : State := { State.reset with err := { due := [(chKey 0 0, [hbmRow 0 0 5])] } }
    let full : State := { due with hbm := { retired := [(rmBank 0 0 0 0, List.range 16)] } }
    let off : State := { full with hbm := { full.hbm with offlined := [rowPage full 0 0 0 0 5] } }
    rowDue due (chKey 0 0) (hbmRow 0 0 5) = true
    ∧ (∀ e, e < 512 → rmNames (reg due .hbmRment e) 0 0 0 none = false) ∧ fget (reg due .hbmRment 0) F.hbmRmentValid = 0 ∧ 0 ∉ tget [] due.hbm.retired (rmBank 0 0 0 0)
    ∧ (∀ m, m < 16 → m ∈ tget [] full.hbm.retired (rmBank 0 0 0 0)) ∧ rowPage full 0 0 0 0 5 ∉ full.hbm.offlined ∧ rowPage off 0 0 0 0 5 ∈ off.hbm.offlined := by decide +kernel

theorem witness_scrubs :
    let last : State := { State.reset with hbm := { ptr := [(0, 20971519)] }, bm := { ptr := [(0, 12543)] } }
    State.reset.err.latent = [] ∧ tget 0 last.hbm.ptr (chKey 0 0) + 1 = 20971520 ∧ tget 0 last.bm.ptr (bankKey 0 0) + 1 = 12544 ∧ tget 0 State.reset.bm.ptr (bankKey 0 0) < 12288
    ∧ physAt State.reset (128 * bmLine 0 0 0) = .block 0 0 := by decide +kernel

theorem witness_lanes :
    let fresh := { regState [(.hbmChstat, F.hbmChstatState, 0, 1)] with err := { lanes := [(9, List.replicate 32 0)] } }
    let retraining := { regState [(.hbmChstat, F.hbmChstatState, 0, 2)] with hbm := { flag := [(0, [9])] } }
    let spared := { fields retraining [(.hbmChstat, F.hbmChstatDqSpared, 0, 2)] with hbm := { flag := [(0, [9])] } }
    laneDue fresh 0 9 = true ∧ rf fresh .hbmChstat F.hbmChstatState 0 = 1 ∧ tget [] fresh.hbm.flag 0 = []
    ∧ rf retraining .hbmChstat F.hbmChstatState 0 = 2 ∧ (tget [] retraining.hbm.flag 0).head? = some 9 ∧ 2 < (distinct [0, 1, 2]).countP (fun l => decide (l < 72)) + rf retraining .hbmChstat F.hbmChstatDqSpared 0
    ∧ rf retraining .hbmChstat F.hbmChstatDqSpared 0 = 0 ∧ rf spared .hbmChstat F.hbmChstatDqSpared 0 = 2 ∧ rf spared .hbmChstat F.hbmChstatState 0 = 2 := by decide +kernel

theorem witness_injected_store :
    let s : State := { regState [(.errInj, F.errInjAddr, 0, 0x200)] with err := { armed := true } }
    memorySafe s ∧ s.err.armed = true ∧ isMemory s (8 * rf s .errInj F.errInjAddr) = true ∧ lineDead s (8 * rf s .errInj F.errInjAddr / 128) = false := by
  refine ⟨⟨by decide +kernel, fun _ _ => rfl⟩, by decide +kernel⟩

theorem witness_outbound :
    let l : LoadReq := { thr := 0, rd := 10, pa := 0x40000000000, bytes := 8, signed := true, device := true }
    let e : WbEnt := { line := 0x40000000000 / 128, data := 1, mask := 0xFF, owner := 0, device := true }
    let s := modCell State.reset 0 (fun x => { x with loads := [l], wb := [e] })
    (cell s 0).loads[0]? = some l ∧ physAt s l.pa = .window ∧ (cell s 0).wb[0]? = some e ∧ physAt s (128 * e.line) = .window := by decide +kernel

/-- A state whose stack 0 reads the STATE given. -/
def stackIn (k : Nat) : State := regState [(.hbmStkstat, F.hbmStkstatState, 0, k)]

theorem witness_regulators :
    takes State.reset .host ∧ agentTrusted .host = true ∧ selF State.reset .host .hbmStacksel F.hbmStackselStack = 0
    -- a setting that fits at the very sum, one past it
    ∧ (bits (pack [(0, 256)]) 9 0 = 256 ∧ bits (pack [(0, 257)]) 9 0 = 257 ∧ rf State.reset .hbmPart F.hbmPartGuar 0 = 0)
    ∧ waitingLines (stackIn 2) = [] ∧ rf (stackIn 2) .hbmStkstat F.hbmStkstatState 0 = 2 ∧ rf (stackIn 3) .hbmStkstat F.hbmStkstatState 0 = 3
    ∧ rf (fields (stackIn 2) [(.hbmStkstat, F.hbmStkstatMaint, 0, 1)]) .hbmStkstat F.hbmStkstatMaint 0 = 1 := by
  exact ⟨witness_serving.2.1, by decide +kernel⟩

theorem witness_bank_aging :
    let m : Mshr := { line := 32, loads := [], no := 7 }
    let s := pathState (fun x => { x with mshrs := [m] })
    let b := bankOf s 32
    (waitingLines s).filter (fun q => goesToDram s q.line && decide (bankOf s q.line = b)) = [{ line := 32, no := 7, part := 0 }]
    ∧ ({ s with ms := { s.ms with rcOut := [32] } } : State).ms.rcOut = [32] := by decide +kernel

theorem witness_generators :
    let go := { regState [(.hbmTgctl, F.hbmTgctlGo, 0, 1)] with hbm := { runs := [(0, pack [(0, 1), (1, 1), (8, 1)])] } }
    rf State.reset .hbmTgctl F.hbmTgctlGo 0 = 0 ∧ bit (pack [(0, 1), (1, 1), (8, 1)]) 40 = false ∧ bits (pack [(0, 1), (1, 1), (8, 1)]) 3 2 < 3
    ∧ rf go .hbmTgctl F.hbmTgctlGo 0 = 1 ∧ fget (tget 0 go.hbm.runs 0) F.hbmTgctlPasses = 1 ∧ fget (tget 0 go.hbm.runs 0) F.hbmTgctlScope = 1 ∧ fget (tget 0 go.hbm.runs 0) F.hbmTgctlOp ≠ 1 := by decide +kernel

/-! ### Registers, translations -/

theorem witness_register_access :
    (¬((3 = 4 ∨ 3 = 8) ∧ 0x200 % 3 = 0)) ∧ (¬((8 = 4 ∨ 8 = 8) ∧ 0x204 % 8 = 0)) ∧ ((4 = 4 ∨ 4 = 8) ∧ 0x204 % 4 = 0)
    ∧ 0x204 / 8 * 8 = (regPlace .devAstbase).1 ∧ (∀ r ∈ [RegName.devBoot, .collCtl, .perfCfg], (regPlace r).1 % 8 = 0) ∧ agentTrusted (.thread 0) = false ∧ agentTrusted .host = true := by decide

theorem witness_counters :
    let s := regState [(.perfEvt, F.perfEvtEn, 0, 1), (.perfEvt, F.perfEvtEvent, 0, 1), (.perfCnt, F.perfCntCount, 0, 2 ^ 48 - 2)]
    let full := fields s [(.perfCnt, F.perfCntCount, 0, 2 ^ 48 - 1), (.perfEvt, F.perfEvtInten, 0, 1)]
    perfKey s 0 0 = 0 ∧ (cell s 0).power = .run ∧ (cell (setCell s 0 { cell s 0 with power := .gated }) 0).power ≠ .run ∧ (∀ q ∈ [s, full], rf q .perfEvt F.perfEvtEn 0 = 1 ∧ rf q .perfEvt F.perfEvtEvent 0 ≠ 0 ∧ rf q .perfCfg F.perfCfgFreeze = 0 ∧ 2 ^ 48 - 2 ≤ rf q .perfCnt F.perfCntCount 0)
    ∧ rf s .perfCnt F.perfCntCount 0 < 2 ^ 48 - 1 ∧ rf full .perfEvt F.perfEvtInten 0 = 1 ∧ agentAtLeast s .host 1 = true ∧ agentAtLeast s (.thread 0) 1 = false ∧ cellRetired s (perfCell s .host) = true
    ∧ cellRetired (setReg s .devBlkmap 0 0x876543210) (perfCell s .host) = false := by decide +kernel

theorem witness_deadline :
    let s : State := { cellState { user with deadline := 5 } with lc := List.replicate 13 5 }
    (thread s tc).deadline ≠ 0 ∧ (thread s tc).deadline ≤ lcountOf s tc := by decide +kernel

/-- Words of eight bytes in memory, in rising order of address. -/
def memWords (l : List (Nat × Word)) : List Host.Cell :=
  l.flatMap (fun p => ((List.range 8).map (fun i => (p.1 + i, BitVec.ofNat 8 (p.2.toNat / 256 ^ i)))).filter (fun c => decide (c.2 ≠ 0)))

/-- A state whose address-space table stands at 0x10000: space 0 has the one page at 0, with the leaf given, and the state's other memory is the words given. -/
def paged (s : State) (leaf : Word) (words : List (Nat × Word) := []) : State :=
  { setRf s .devAstbase F.devAstbaseBase 16 with
    ms := { mem := memWords ([(0x10000, 0x20001), (0x20000, 0x21003), (0x21000, 0x22003), (0x22000, 0x23003), (0x23000, leaf)] ++ words) } }

theorem witness_walks :
    let walked (leaf : Word) : Option (TlbEnt × Except Exc Nat) :=
      let s := paged (cellState user) leaf
      let w := walk s 0 0 0x11
      match w.1 with
      | .ok e => some (e, useEnt w.2 (ctxOf w.2 tc) 0x11 .load e)
      | .error _ => none
    -- a page with every right, one that U may not read, none
    (match walked 0x3003D with | some (e, .ok pa) => decide (e.size = 12 ∧ pa = 0x30011) | _ => false) = true
    ∧ (match walked 0x3001D with | some (_, .error f) => decide (f.code ≠ 6) | _ => false) = true ∧ (match walked 0 with | some _ => false | none => true) = true
    ∧ (thread (cellState user) tc).level ≠ 2 ∧ bits (0x11 : Word) 63 48 = 0 ∧ (thread (memState []) tc).level = 2 := by decide +kernel

theorem witness_invalidation :
    let s := regState [(.devTlbinv, F.devTlbinvGo, 0, 1)]
    agentAtLeast s .host 1 = true ∧ agentAtLeast s (.thread 0) 1 = false ∧ rf State.reset .devTlbinv F.devTlbinvGo = 0 ∧ rf s .devTlbinv F.devTlbinvGo = 1
    ∧ (∀ k, k < 3 → fget (pack [(6, k), (63, 1)]) F.devTlbinvGo = 1 ∧ fget (pack [(6, k), (63, 1)]) F.devTlbinvScope = k) ∧ s.lining = [] := by decide +kernel

theorem witness_invalidation_done (c : Nat) (t : Tid) :
    let s := regState [(.devTlbinv, F.devTlbinvGo, 0, 1)]
    ((cell s c).wb = [] ∧ (cell s c).mshrs = [] ∧ (cell s c).loads = [] ∧ (cell s c).slots = [] ∧ (cell s c).held = []) ∧ (thread s t).hold = [] ∧ (thread s t).tq = [] :=
  ⟨cell_all (fun x => x.wb = [] ∧ x.mshrs = [] ∧ x.loads = [] ∧ x.slots = [] ∧ x.held = []) _ (by intro k; exact ⟨rfl, rfl, rfl, rfl, rfl⟩) (by decide +kernel) c,
   thread_all (fun th => th.hold = [] ∧ th.tq = []) _ (by decide) (by decide) (by decide +kernel) t⟩

theorem witness_epoch_update :
    let u : HemUpdate := { epoch := 1, discard := false, step := 3 }
    let s := modCell (cellState { user with spec := some 3 }) 0 (fun x => { x with updates := [u] })
    (cell s 0).updates = [u] ∧ (thread s tc).spec = some u.step ∧ (thread s tc).spec.isSome = true := by decide +kernel

/-! ### Lining engines -/

/-- A descriptor's words and those of its block, at 0x40000 and 0x40040. -/
def liningWords (ws blk : List Word) : List (Nat × Word) :=
  ((List.range 8).map (fun i => (0x40000 + 8 * i, ws.getD i 0))) ++ ((List.range 8).map (fun i => (0x40040 + 8 * i, blk.getD i 0)))

/-- A descriptor of a kind for n elements at virtual address a, its block at 0x40040, its record at 0x40080. -/
def liningDesc (kind n a : Nat) : List Word := [wd kind, wd n, wd a, 0, 0, 0, 0x40040, 0x40080]

/-- The bytes of words. -/
def wordBytes (l : List Word) : List Byte := l.flatMap (fun w => leBytes w.toNat 8)

/-- Stack 0 ready, with the page at 0 mapped as a 64 KiB page, the lining state and the memory given. -/
def liningState (x : LStack) (words : List (Nat × Word) := []) (st : Nat := 2) : State :=
  { paged (fields (stackIn st) [(.liningEngstat, F.liningEngstatSite, 0, 0)]) 0x3013D words with lining := [(0, x)] }

/-- A task of a kind. -/
def liningTask (kind : Nat) (blk : List Word) (prog : List Byte := []) (a : Nat := 0) : LTask :=
  { desc := 0x40000, words := liningDesc kind 64 a, param := wordBytes (blk ++ List.replicate (8 - blk.length) 0), prog := prog, spec := false, epoch := false, total := 1 }

/-- What the dispatch of the descriptor at 0x40000 finds wrong with it. -/
def dispatchBad (s : State) : Bool :=
  let part := Activity.lining.part
  let w := readWords8 s part 0x40000
  let ws := w.1.1
  let space := spaceBad w.2 0 (ldAsid ws)
  let blk := homeRead (accessDraws space.2 part (ldParam ws) 64) (ldParam ws) 64
  w.1.2 || ldHeadBad ws false || space.1 || blk.1.2.isSome || ldParamBad blk.2 ws blk.1.1 (ldSpec ws) || (ldUnused ws blk.1.1).any (fun i => decide (ldA ws i ≠ 0 ∧ ldKind ws ≠ 1))

theorem witness_lining_queue :
    let e : LEnt := { desc := 0x40000 }
    let good := liningState { queue := [e] } (liningWords (liningDesc 4 2 0) [])
    let bad := liningState { queue := [e] } (liningWords (liningDesc 0 2 0) [])
    (lstack good 0).queue = [e] ∧ (lstack good 0).active = [] ∧ e.own = none ∧ ldKind (readWords8 good Activity.lining.part 0x40000).1.1 = 4 ∧ dispatchBad good = false ∧ dispatchBad bad = true
    ∧ serving good ∧ accessWaits good .host 0x300008 true = false ∧ agentAtLeast good .host 1 = true ∧ ((List.range 8).map (fun i => (i, liningTask 4 []))).length = 8 ∧ 64 * bits (wd 0x40000) 51 6 < 0xF000000000
    ∧ memorySafe good ∧ good.ms.rc = [] := by
  and_intros
  all_goals first | decide +kernel | exact fun _ _ => rfl

theorem witness_chunk_start :
    let starts (a st : Nat) (chst : Option Nat) : Bool × Bool × Bool × Bool :=
      let tk := liningTask 4 [] [] a
      let s := match chst with
        | none => liningState { active := [(0, tk)] } [] st
        | some c => setRf (liningState { active := [(0, tk)] } [] st) .hbmChstat F.hbmChstatState c (chKey 0 (hbmPlace 0x200000 0x30080).chan)
      let m := mapChunk s 0 tk 0
      (decide ((lstack s 0).active.find? (fun p => mayStart s 0 p.2) = some (0, tk)) && decide (nextChunk tk 0 = some 0) && decide (rf s .liningEngstat F.liningEngstatSite 0 ≠ 31) && decide (rf s .liningEngstat F.liningEngstatState 0 ≠ 2),
       m.err.isSome, chunkTouches m.s m.maps tk 0 2, chunkTouches m.s m.maps tk 0 3)
    starts 0 2 none = (true, false, false, false) ∧ starts 1 2 none = (true, true, false, false)
    ∧ starts 0 2 (some 2) = (true, false, true, false) ∧ starts 0 4 (some 3) = (true, false, false, true) ∧ stackState (stackIn 3) 0 = 3 ∧ stackState (stackIn 5) 0 = 5 := by decide +kernel

/-- A chunk that runs on thread 0 of engine 0, its pages mapped. -/
def liningRun (thread : Option Thread) : LRun := { task := 0, chunk := 0, maps := [(0, 0, 0x30000), (1, 0, 0x30000)], thread := thread }

/-- What one cycle of a program does: whether it waits, and how it ends. -/
def progEnds (blk : List Word) (prog : List Byte) (words : List (Nat × Word) := []) : Bool × Option (Option Nat) :=
  let tk := liningTask 2 blk prog
  let th := progThread tk 0
  let s := liningState { active := [(0, tk)], runs := [(0, liningRun (some th))] } words
  let r := progStep 0 0 tk { s := s, th := th, bad := false }
  (r.wait, r.fin.map (fun x => x.map (fun y => y.1)))

theorem witness_chunk_complete :
    let blk (n : Nat) : List Word := [0, 0, 0, 0, wd (n + 2 ^ 32)]
    let wordB (w : BitVec 32) : List Byte := leBytes w.toNat 4
    let upd : Instr := .updSgdm 0 { rd := 10, rs1 := 12, rs2 := 16, qp := 1, grp := 0, w1 := 0 }
    -- an instruction that goes on, one that is not assigned, the end, an update that waits for the hem
    progEnds (blk 4) (wordB (word0 (.addi 0 10 10 1))) = (false, none) ∧ progEnds (blk 4) (wordB 0xFFFFFFFF) = (false, some (some 4)) ∧ progEnds (blk 4) (wordB (word0 (.tend 0))) = (false, some none)
    ∧ progEnds (blk 12) (wordB (word0 upd) ++ List.replicate 8 0) [(0x30008, 0x1000000000), (0x30018, 1)] = (true, none) := by decide +kernel

theorem witness_engine_errors :
    let tk := liningTask 4 []
    let s := liningState { active := [(0, tk)], runs := [(0, liningRun none)], errAt := [(0, 0)] }
    let t := fields (liningState { spare := some 16 }) [(.liningEngstat, F.liningEngstatState, 0, 2)]
    tget? (lstack s 0).runs 0 = some (liningRun none) ∧ tget? (lstack s 0).active 0 = some tk ∧ (lcount s 12 - 0).toNat ≤ hourTicks ∧ s.err.armed = false
    ∧ ({ tk with erred := [(0, 0)] } : LTask).erred.any (fun p => decide (p.1 = 0)) = true ∧ onceOnly s tk = false
    ∧ rf t .liningEngstat F.liningEngstatSite 0 ≠ 31 ∧ rf t .liningEngstat F.liningEngstatState 0 = 2 ∧ (lstack t 0).runs = [] ∧ t.repair.ents.length < 8184 ∧ (lstack t 0).spare = some 16 := by decide +kernel

theorem witness_lining_complete :
    let tk := { liningTask 4 [] with done := 1 }
    let s := liningState { active := [(0, tk)] }
    tget? (lstack s 0).active 0 = some tk ∧ (lstack s 0).runs = [] ∧ tk.total ≤ tk.done ∧ tk.bucket = none ∧ memorySafe s ∧ tk.wrote = [] ∧ writePages tk = [] ∧ tk.again = [] ∧ resultOk tk.words = true ∧ lineDead s (ldResult tk.words / 128) = false
    ∧ resultOk [] = true ∧ resultOk [0, 0, 0, 0, 0, 0, 0, 1] = false ∧ ldPegen tk.words = false ∧ ldPegen [0x4000] = true := by
  and_intros
  all_goals first | decide +kernel | exact fun _ _ => rfl

/-! ### The hem, tasks, the debug port, DMA -/

theorem witness_hem_control :
    let s := setReg (paged State.reset 0x3013D) .devHemasid 0 1
    let mode (q : State) (k : Nat) : Option Bool := if bit (reg q .devHemasid) k = true then spaceMode q k else none
    hemState s = 0 ∧ rf s .devHeminit F.devHeminitLsexp0 = 0 ∧ rf s .devHemcfg F.devHemcfgLsmin = 0 ∧ rf s .devHemcfg F.devHemcfgLsmax = 0
    ∧ mode s 0 = some false ∧ (∀ k, k < 63 → bit (reg s .devHemasid) (k + 1) = false) ∧ (∀ k, k < 64 → bit (reg State.reset .devHemasid) k = false)
    ∧ (∀ k, k < 5 → hemState (fields s [(.devHemctl, F.devHemctlState, 0, k)]) = k) ∧ rf s .errStat F.errStatFatal = 0 ∧ rf (fields s [(.errStat, F.errStatFatal, 0, 1)]) .errStat F.errStatFatal = 1 := by decide +kernel

/-- A generation of one rank and one bucket whose shard has been resolved. -/
def collecting (r : ShardRes) (h : HemS) : State :=
  { regState [(.devHemctl, F.devHemctlState, 0, 1), (.collCtl, F.collCtlState, 0, 5)] with coll := { buckets := [(0, { res := [(0, r)] })] }, hem := h }

theorem witness_collect_end :
    (∀ r ∈ [ShardRes.gathered 0x3FF0000000000000, .nonfinite, .void 0 1 false, .gathered 0x7FF0000000000000],
      hemState (collecting r {}) = 1 ∧ collState (collecting r {}) = 5 ∧ allResolved (collecting r {}) = true ∧ allRes (collecting r {}) = [(0, r)])
    ∧ (sumS (collecting (.gathered 0x3FF0000000000000) {})).isFin = true ∧ (sumS (collecting (.gathered 0x7FF0000000000000) {})).isFin = false
    ∧ (collecting .nonfinite { drift := some 3 }).hem.drift ≠ none ∧ rf (collecting .nonfinite {}) .devHemctl F.devHemctlNonfin = 0
    ∧ rf (fields (collecting .nonfinite {}) [(.devHemctl, F.devHemctlNonfin, 0, 1)]) .devHemctl F.devHemctlNonfin = 1 := by decide +kernel

theorem witness_update_complete :
    let s (st : Nat) (h : HemS) : State := { regState [(.devHemctl, F.devHemctlState, 0, st)] with hem := h }
    let twin := fields (s 2 {}) [(.devHemcfg, F.devHemcfgTwin, 0, 1)]
    let d (q : State) : Word := (List.range 12).foldl (fun x k => x ^^^ reg q .liningSdig k) q.hem.xdig
    (∀ st ∈ [2, 3], hemState (s st {}) = st ∧ (s st {}).hem.twinWait = false ∧ (s st { updNonfin := true }).hem.updNonfin = true
      ∧ (reg (s st {}) .devHemtgt).toNat ≤ pegVal (s st {}) (rf (s st {}) .devHemcfg F.devHemcfgUpdpeg))
    ∧ pegVal (setReg (s 2 {}) .devHemtgt 0 1) 0 < (reg (setReg (s 2 {}) .devHemtgt 0 1) .devHemtgt).toNat
    ∧ rf twin .devHemcfg F.devHemcfgTwin = 1 ∧ d { twin with hem := { xdig := 9 } } = 9
    ∧ (s 2 { twin := some (0, 0) }).hem.twin = some ((s 2 {}).hem.step.setWidth 64, d (s 2 {})) ∧ (s 2 { twinWait := true, digest := 9 }).hem.digest = 9
    ∧ (let q := fields (s 2 { twinWait := true, digest := 9 }) [(.seamStat, F.seamStatState, 0, 5)]; rf q .seamStat F.seamStatState = 5 ∧ q.hem.twinWait = true) := by decide +kernel

/-- Region 0 clocked, its block 0 with eight cells, and these task queues. -/
def taskState (t : TaskS) (words : List (Nat × Word) := []) : State :=
  { setReg (setReg (paged State.reset 0x3013D words) .devClk 0 0x10000) .devBlkmap 0 0x876543210 with tasks := t }

theorem witness_task_queues :
    let e : TqEnt := { desc := 0x40000 }
    let ws : List Word := [0x100, 0, 0, 0, 0, 0, 0, 0]
    let read (s : State) : List Word × Bool × Bool :=
      let w := homeRead s 0x40000 64
      ((List.range 8).map (fun i => wd (ofLE ((w.1.1.drop (8 * i)).take 8))), w.1.2.isNone, (match (asEntry w.2 0 0).1 with | .ok _ => true | .error _ => false))
    let s := taskState { queues := [(0, [e])] } [(0x40000, 0x100)]
    let bad := taskState { queues := [(0, [e])] } [(0x40000, 0x101)]
    let ready := taskState { queues := [(0, [{ e with words := some ws }])] }
    let spec := taskState { queues := [(0, [{ e with words := some [0x100, 8, 5, 0, 0, 0, 0, 0] }])] }
    let run : TaskRun := { desc := 0x40000, queue := 0, cell := 0, threads := [tc], left := 0, spec := none, pegen := false, peg := 0 }
    tqueue s 0 = [e] ∧ read s = (ws, true, true) ∧ tdMalformed ws = false ∧ tdMalformed (read bad).1 = true ∧ (read bad).2 = (true, true)
    ∧ cellRetired s 0 = false ∧ cellRetired (setReg s .devBlkmap 0 0xFFFFFFFFF) 0 = true ∧ tdAny 0 = false ∧ tdPegen 0 = false ∧ tdPegen 0x20000 = true
    ∧ clkBit ready F.devClkRunning 0 = true ∧ tget 63 ready.tasks.rr 0 = 63 ∧ dispatchable ready 0 = some ({ e with words := some ws }, ws, 0, false) ∧ (∀ i, i < 64 → dispatchable spec i = none)
    ∧ tget? (taskState { runs := [(0, run)] }).tasks.runs 0 = some run ∧ run.queue < 768 ∧ (List.replicate 128 e).length = 128
    ∧ agentAtLeast s .host 1 = true ∧ bits (0x40000 : Word) 5 0 = 0 ∧ bits (0x40000 : Word) 63 52 = 0 ∧ 64 * bits (0x40000 : Word) 51 6 < 0xF000000000 := by decide +kernel

theorem witness_task_status :
    memorySafe (taskState {}) ∧ takes (taskState {}) .host ∧ lineDead (taskState {}) (0x40000 / 128) = false :=
  ⟨⟨by decide +kernel, fun _ _ => rfl⟩, by unfold takes serving mayAccess; decide +kernel, by decide +kernel⟩

theorem witness_debug :
    let s := fields (memState []) [(.devBoot, F.devBootDebug, 0, 2)]
    let reads := fields (memState []) [(.devBoot, F.devBootDebug, 0, 1)]
    let halted := cellState { user with st := .halted }
    s.power.down = false ∧ rf s .devBoot F.devBootDebug = 2 ∧ rf reads .devBoot F.devBootDebug = 1 ∧ rf (memState []) .devBoot F.devBootDebug = 0 ∧ isMemory s 0x1000 = true ∧ memorySafe s
    ∧ debugSram 0 0x1000 8 = false ∧ debugSram 768 0x1000 8 = true
    ∧ (∀ l, 0x1000 / 128 ≤ l → l ≤ (0x1000 + 8) / 128 → lineDead s l = false) ∧ (thread s tc).st = .ready ∧ (thread s tc).vq = [] ∧ (thread s tc).tq = [] ∧ (thread s tc).late = none ∧ quiet s tc ∧ (thread halted tc).st = .halted := by
  refine ⟨by decide +kernel, by decide +kernel, by decide +kernel, by decide +kernel, by decide +kernel, ⟨by decide +kernel, fun _ _ => rfl⟩, by decide +kernel, by decide +kernel, ?_, by decide +kernel, by decide +kernel, by decide +kernel, by decide +kernel, by unfold quiet; decide +kernel, by decide +kernel⟩
  intro l h1 h2
  obtain rfl : l = 32 := by omega
  decide +kernel

/-- A region channel of region 0, enabled, with its ring at 0x40000 and one descriptor pending; tokens in its stack's buckets. -/
def dmaState (regs : List (RegName × Fld × Nat × Nat)) (c : DmaChan := {}) (words : List (Nat × Word) := []) : State :=
  { fields (setReg (paged State.reset 0x3013D words) .devClk 0 0x10000)
      ([(.dmaChctl, F.dmaChctlEn, 64, 1), (.dmaRing, F.dmaRingBase, 64, 64), (.dmaPi, F.dmaPiPi, 64, 1)] ++ regs) with
    dma := [(64, c)], hbm := { buckets := [(0, (64, 64)), (1, (64, 64)), (2, (64, 64)), (3, (64, 64)), (4, (64, 64))] } }

/-- A descriptor at 0x40000 that copies n bytes from 0x50000 and m to 0x60000. -/
def dmaWords (w0 : Word) (n m : Word) : List (Nat × Word) :=
  [(0x40000, w0), (0x40008, 0x40040), (0x40010, 0x100000001), (0x40018, 0x40050), (0x40040, 0x50000), (0x40048, n), (0x40050, 0x60000), (0x40058, m)]

theorem witness_dma_start :
    let look (s : State) : Bool × Bool :=
      let part := enginePart 3
      let w := readWords8 s part 0x40000
      let ws := w.1.1
      let src := readList w.2 part (ddSrc ws) (ddSrcN ws)
      let dst := readList src.2.2 part (ddDst ws) (ddDstN ws)
      (w.1.2 || ddBad 3 ws, src.2.1 || dst.2.1 || decide (listLen src.1 ≠ listLen dst.1) || decide (2 ^ 40 ≤ listLen src.1) || !ddClasses dst.2.2 3 ws src.1 dst.1)
    let s := dmaState [] {} (dmaWords 0 128 128)
    engineClocked s 3 = true ∧ descHeld s 64 = [] ∧ descHeld { s with hbm := {} } 64 ≠ [] ∧ rf s .dmaChctl F.dmaChctlEn 64 = 1 ∧ chState s 64 = 0 ∧ (dmaChan s 64).run = none ∧ rf s .dmaPi F.dmaPiPi 64 ≠ rf s .dmaCi F.dmaCiCi 64
    ∧ rf s .dmaPace F.dmaPaceEn 64 = 0 ∧ look s = (false, false) ∧ look (dmaState [] {} (dmaWords 0 128 64)) = (false, true) ∧ (look (dmaState [] {} (dmaWords 0x2000000 128 128))).1 = true
    ∧ (let p := dmaState [(.dmaPace, F.dmaPaceEn, 64, 1), (.dmaPace, F.dmaPaceHigh, 64, 0)]
       rf p .dmaPace F.dmaPaceEn 64 = 1 ∧ (dmaChan p 64).paced = false ∧ rf p .dmaPace F.dmaPaceDir 64 = 0 ∧ rf p .dmaPace F.dmaPaceHigh 64 ≤ pegVal p 0)
    ∧ (dmaChan (dmaState [] { dropIdx := [0] }) 64).dropIdx = [0] := by decide +kernel

/-- A copy of 128 bytes in progress. -/
def dmaRun (w0 : Word) (src dst : Nat) : DmaRun :=
  { desc := 0x40000, words := [w0, 0, 0, 0, 0, 0, 0, 0], src := [(src, 128)], dst := [(dst, 128)], total := 128 }

theorem witness_dma_burst :
    let s := dmaState [(.dmaChctl, F.dmaChctlState, 64, 1)] { run := some (dmaRun 0 0x50000 0x60000) }
    let virt := dmaRun 6 0x50000 0x60000
    (dmaChan s 64).run = some (dmaRun 0 0x50000 0x60000) ∧ chState s 64 = 1 ∧ nextBurst (dmaRun 0 0x50000 0x60000) = some (0x50000, 0x60000, 128) ∧ engineClocked s 3 = true ∧ burstTurn s 3 = some 64 ∧ s.links.seamHold = false
    ∧ dclass s 0x50000 128 = .mem ∧ dclass s 0x60000 128 = .mem ∧ s.links.dead = [] ∧ accessHeld s (enginePart 3) 0x50000 128 = false ∧ accessHeld s (enginePart 3) 0x60000 128 = false
    ∧ accessHeld { s with hbm := {} } (enginePart 3) 0x50000 128 = true ∧ classesOk 3 .mem .mem = true ∧ classesOk 3 .mem .none = false
    ∧ (match (dmaAddr s 64 virt true 0x50000 .load).1 with | .error _ => true | .ok _ => false) = true ∧ memorySafe s ∧ (∀ l, 0x60000 / 128 ≤ l → l ≤ (0x60000 + 128) / 128 → lineDead s l = false)
    -- the host's window on either side, and the Seam
    ∧ dclass s 0x40000000000 128 = .win 0 ∧ classesOk 0 (.win 0) .mem = true ∧ classesOk 0 .mem (.win 0) = true ∧ windowUp s 0x40000000000 = true ∧ engineOf 0 = 0 ∧ engineOf 48 = 2
    ∧ rf (fields s [(.seamStat, F.seamStatState, 0, 5)]) .seamStat F.seamStatState = 5 := by
  have h : ∀ i, i < 2 → lineDead (dmaState [(.dmaChctl, F.dmaChctlState, 64, 1)] { run := some (dmaRun 0 0x50000 0x60000) }) (3072 + i) = false := by decide +kernel
  and_intros
  all_goals first
    | decide +kernel
    | exact fun _ _ => rfl
    | (intro l h1 h2
       obtain ⟨i, rfl⟩ : ∃ i, l = 3072 + i := ⟨l - 3072, by omega⟩
       exact h i (by omega))

theorem witness_dma_control :
    let w : Watch := { peg := 0, up := false, value := 0, met := true }
    let p : State := { dmaState [(.dmaChctl, F.dmaChctlState, 64, 2)] with pegs := { watches := [(paceKey 64, w)] } }
    let sel : State := setDmaSel p .reg .host 0
    let done : DmaRun := { dmaRun 0 0x50000 0x60000 with moved := 128 }
    chState p 64 = 2 ∧ tget? p.pegs.watches (paceKey 64) = some w ∧ w.met = true ∧ dmaSelected sel .reg .host = 64 ∧ agentAtLeast sel .host 1 = true ∧ agentAtLeast sel (.thread 0) 1 = false
    ∧ (∀ st, st < 6 → chState (dmaState [(.dmaChctl, F.dmaChctlState, 64, st)]) 64 = st) ∧ done.total ≤ done.moved ∧ ddPegen done.words = false ∧ ddPegen [0x200] = true
    ∧ fget (pack [(0, 0)]) F.dmaPaceHigh ≤ fget (pack [(0, 0)]) F.dmaPaceLow ∧ (thread (cellState { user with level := 1, spec := some 3 }) tc).spec ≠ none
    ∧ agentAtLeast (cellState { user with level := 1, spec := some 3 }) (.thread 0) 1 = true ∧ (1 + 65536 - rf p .dmaCi F.dmaCiCi 64) % 65536 ≤ 2 ^ rf p .dmaRing F.dmaRingLog2n 64 := by decide +kernel

/-! ### The collective engine, the links -/

/-- A job of n ranks and one bucket of 4,096 elements, its table at 0x50000, in a state of the collective engine and of the hem. -/
def jobState (n me coll hem : Nat) (c : CollS := {}) : State :=
  { setReg (fields (paged State.reset 0x3013D [(0x50000, 0x1000), (0x50018, 0x100000)])
      [(.collJob, F.collJobNrm1, 0, n - 1), (.collJob, F.collJobMyrank, 0, me), (.collBtbase, F.collBtbaseBase, 0, 0x50), (.collCtl, F.collCtlState, 0, coll), (.devHemctl, F.devHemctlState, 0, hem)])
      .devHemasid 0 1 with coll := c }

theorem witness_roll_call :
    (∀ n ∈ [1, 2, 3], let s := jobState n 0 0 0; nRanks s = n ∧ myRank s < nRanks s ∧ nBuckets s = 1 ∧ (btEnt s 0).1.ok = true ∧ pairFirst s = false ∧ hemState s = 0 ∧ rolling s = false ∧ s.err.latent = [])
    ∧ myRank (jobState 2 1 0 0) ≠ 0 ∧ ¬myRank (jobState 2 2 0 0) < nRanks (jobState 2 2 0 0)
    ∧ (∀ k, k < 7 → collState (jobState 2 0 k 1) = k ∧ hemState (jobState 2 0 k 1) = 1) ∧ rolling (jobState 2 0 2 0) = true ∧ hemState (jobState 2 0 4 3) = 3
    ∧ (jobState 2 0 4 1 { held := [0] }).coll.held = [0] ∧ (jobState 2 0 4 1 { unacked := [(0, 1)], chunks := [0] }).coll.unacked = [(0, 1)] := by decide +kernel

theorem witness_join :
    let e : List Byte := List.replicate 128 0
    let s := jobState 3 0 2 0
    let own := (checkBlock s).1
    let m (w6 : Word) (check : List Byte) : Msg := { msgOf 0 (e ++ check) with w2 := 1, w6 := w6 }
    let other := own.take 32 ++ [1] ++ own.drop 33
    (m 0 own).w6 = reg s .collJobid ∧ (m 1 own).w6 ≠ reg s .collJobid ∧ ofLE (((m 0 own).payload.drop 168).take 2) = rf s .collJob F.collJobNrm1
    ∧ tget? s.coll.joined (mSrc (m 0 own)) = none ∧ ((m 0 own).payload.drop 128).take 32 = own.take 32 ∧ (((m 0 own).payload.drop 128).drop 32).take 8 = (own.drop 32).take 8
    ∧ ((1 :: other).take 32 ≠ own.take 32 ∧ other.take 32 = own.take 32) ∧ (tins 1 e s.coll.joined).length ≠ nRanks s
    ∧ (tins 1 e [(0, e), (2, e)]).length = nRanks s ∧ nChunks s = 1 ∧ (List.replicate 2048 (0 : Byte)).length = 2048 := by decide +kernel

theorem witness_join_prefix (own : List Byte) (h : 40 ≤ own.length) :
    (own.take 32 ++ [own.getD 32 0 + 1] ++ own.drop 33).take 32 = own.take 32
    ∧ ((own.take 32 ++ [own.getD 32 0 + 1] ++ own.drop 33).drop 32).take 8 ≠ (own.drop 32).take 8 := by
  have l : (own.take 32).length = 32 := by simp; omega
  have d : own.drop 32 = own.getD 32 0 :: own.drop 33 := by rw [List.drop_eq_getElem_cons (by omega)]; simp [List.getD_eq_getElem?_getD, show 32 < own.length by omega]
  have n : own.getD 32 0 + 1 ≠ own.getD 32 0 := by bv_omega
  refine ⟨by simp [List.take_append, l], ?_⟩
  rw [d]
  simp [List.drop_append, l, -List.getD_eq_getElem?_getD]

theorem witness_roll_lines (l : Nat) : lineDead (jobState 2 0 1 0) l = false := by
  have c (k : Nat) : rf (jobState 2 0 1 0) .hbmChstat F.hbmChstatState k ≠ 3 :=
    tget_all (fun v => fget v F.hbmChstatState ≠ 3) _ _ _ (by decide) (by decide +kernel)
  have k (k : Nat) : rf (jobState 2 0 1 0) .hbmStkstat F.hbmStkstatState k ≠ 3 :=
    tget_all (fun v => fget v F.hbmStkstatState ≠ 3) _ _ _ (by decide) (by decide +kernel)
  revert c k
  generalize jobState 2 0 1 0 = s
  intro c k
  simp [lineDead, chanDead, c, k]

/-- A message of a job of two ranks from rank 1 to rank 0: type, first and second word, void or with n bytes of payload. -/
def jobMsg (t : Nat) (void : Bool) (n : Nat) (w1 w6 : Word := 0) (gen : Nat := 0) : Msg :=
  { w0 := pack [(0, t), (8, 1), (14, void.toNat), (32, gen)], w1 := w1, w2 := 1, w3 := 0, w4 := 0, w5 := wd n, w6 := w6, w7 := 0, payload := List.replicate n 0 }

theorem witness_messages :
    let s := fields (jobState 2 0 5 1) [(.ethPortstat, F.ethPortstatState, 0, 3)]
    let later := fields s [(.collGen, F.collGenGen, 0, 1)]
    let bad (q : State) (t : Nat) (m : Msg) : Bool := badHeader (btEnt q (mBucket m)).2 t false (btEnt q (mBucket m)).1 m
    collState s = 5 ∧ rf s .ethPortstat F.ethPortstatState 0 = 3 ∧ (jobMsg 1 true 0).w6 = reg s .collJobid ∧ (jobMsg 1 true 0 0 1).w6 ≠ reg s .collJobid
    ∧ bad s 1 (jobMsg 1 true 0) = false ∧ bad s 1 (jobMsg 2 true 0) = true ∧ bad s 2 (jobMsg 2 true 0) = false ∧ bad s 3 (jobMsg 3 false 0) = false
    ∧ genOf s = 0 ∧ mGen (jobMsg 1 true 0) < genOf later ∧ mGen (jobMsg 1 true 0 0 0 1) = genOf s + 1 ∧ genOf s + 1 < mGen (jobMsg 1 true 0 0 0 2) ∧ mGen (jobMsg 1 true 0) = genOf s
    ∧ mStep (jobMsg 1 true 0 9) ≠ s.hem.step.toNat ∧ mStep (jobMsg 1 true 0) = s.hem.step.toNat ∧ (cbucket s 0).seen = [] ∧ mSrc (jobMsg 1 true 0) = 1 ∧ mShard (jobMsg 1 true 0) = 0
    ∧ ownResolved s 0 = false ∧ ownResolved { s with coll := { buckets := [(0, { res := [(0, .nonfinite)], seen := [(1, 1, 0)] })] } } 0 = true ∧ mVoid (jobMsg 1 true 0) = true
    ∧ (jobMsg 1 true 0).w3 = hemDig s ∧ ({ jobMsg 1 true 0 with w3 := 1 } : Msg).w3 ≠ hemDig s ∧ s.hem.drift = none := by decide +kernel

theorem witness_contribution :
    let s := jobState 2 0 5 1
    badHeader (btEnt s 0).2 1 false (btEnt s 0).1 (jobMsg 1 false 4096) = false ∧ mVoid (jobMsg 1 false 4096) = false ∧ mNonfin (jobMsg 1 false 4096) = false ∧ (cbucket s 0).stopped = false := by decide +kernel

theorem witness_posts :
    let s := jobState 2 0 5 1 { qps := [qpnOf 1 1], buckets := [(1, { posted := true })] }
    let up := fields s [(.ethPortstat, F.ethPortstatState, 1, 3)]
    agentAtLeast s .host 1 = true ∧ postsOpen s = true ∧ postsOpen (jobState 2 0 5 3) = false ∧ nBuckets s ≤ 1 ∧ (cbucket s 1).posted = true ∧ (cbucket s 0).posted = false ∧ 0 < nBuckets s
    ∧ (cbucket (jobState 2 0 5 1) 0).posted = false ∧ (jobState 2 0 5 1).coll.buckets = [] ∧ pathUp up 1 1 = true ∧ prioPaused up 1 up.net.rpri = false
    ∧ ({ up with out := [.net 0 1 (jobMsg 3 false 0) {}] } : State).out[0]? = some (.net 0 1 (jobMsg 3 false 0) {}) := by decide +kernel

theorem witness_passes :
    let c : CBucket := { slots := [0, 1] }
    let s := jobState 2 0 5 1 { buckets := [(0, c)] }
    let at' (q : State) : Option Nat := (translate (btEnt q 0).2 collCore (collX (btEnt q 0).2 (btEnt q 0).1) (wd (btEnt q 0).1.hold) .store).1.toOption
    let here := jobState 2 0 5 1 { buckets := [(0, c)] }
    (cbucket s 0).pass = none ∧ (cbucket s 0).fin = none ∧ ownResolved s 0 = false ∧ prefixOf s c = 2 ∧ c.summed = 0 ∧ slotsOf s = 2 ∧ at' s = none
    -- HOLD at 0, where the page is mapped
    ∧ at' { here with ms := { here.ms with mem := here.ms.mem.filter (fun x => decide (x.1 ≠ 0x5001A)) } } = some 0x30000 := by decide +kernel

theorem witness_final_passes :
    (∀ f ∈ [(1, false, 0, 0), (5, false, 0, 0), (0, true, 0, 0), ((0, false, 0x3FF0000000000000, 2) : Nat × Bool × Word × Nat)],
      let s := jobState 2 0 5 1 { buckets := [(0, { fin := some f })] }
      (cbucket s 0).fin = some f ∧ (cbucket s 0).stopped = false ∧ ownResolved s 0 = false)
    ∧ (let s := jobState 2 0 5 1 { buckets := [(0, { armed := true, slots := [0] })] }
       (cbucket s 0).armed = true ∧ ownResolved s 0 = false ∧ (List.range (slotsOf s)).filter (fun i => decide (i ∉ (cbucket s 0).slots)) = [1])
    ∧ (∀ i ∈ [0, 2], let s := fields (jobState 4 0 5 1 { buckets := [(0, { mine := [(i, ([], false))] })] }) [(.collNum, F.collNumOrder, 0, 1)]
       pairFirst s = true ∧ leads s i = true ∧ (tget? (cbucket s 0).mine i).isSome = true ∧ tget? (cbucket s 0).twins i = none ∧ i ∉ (cbucket s 0).led)
    ∧ (let s := fields (jobState 4 0 5 1) [(.collNum, F.collNumOrder, 0, 1), (.seamStat, F.seamStatState, 0, 5)]
       rf s .seamStat F.seamStatState = 5 ∧ recvRule (btEnt s 0).2 1 true (btEnt s 0).1 (jobMsg 1 true 0) = .accept ∧ tget? (cbucket s 0).mine 0 = none) := by decide +kernel

theorem witness_host_link :
    let s := { setReg (regState [(.devBoot, F.devBootImage, 0, 1)]) .devClk 0 0x10000 with links := { bar2Gib := 1 }, msixEn := true, pba := 1, msix := [(1, 0)], hbm := { buckets := [(4, (64, 64))] } }
    let high := fields s [(.devPciewin, F.devPciewinBar2base, 0, 959)]
    s.links.bar2Gib = 1 ∧ 0x1000 + 8 ≤ s.links.bar2Gib * 2 ^ 30 ∧ accessHeld s 4 0x1000 8 = false ∧ accessHeld { s with hbm := {} } 4 0x1000 8 = true
    ∧ 0xF000000000 < rf high .devPciewin F.devPciewinBar2base * 2 ^ 30 + 0x3FFFFFFC + 8 ∧ 0x3FFFFFFC + 4 ≤ s.links.bar2Gib * 2 ^ 30 ∧ crossDead s 2 (dieOf s 0x1000) = false
    ∧ s.msixMask = false ∧ bit s.pba 0 = true ∧ bit (msixWord s 1) 32 = false ∧ rf s .devBoot F.devBootImage ≠ 0 ∧ rf State.reset .devBoot F.devBootImage = 0
    ∧ (∀ code ∈ [0x84, 0xE1, 0xE3, 0x81, 0x82, 0x83, 0xE0, (0 : Byte)], ofLE ((([0x13, code, 0, 0] : List Byte).drop 1).take 1) = code.toNat) := by decide +kernel

theorem witness_root_links :
    let st (k : Nat) : State := { setReg (fields State.reset [(.rootLinkstat, F.rootLinkstatState, 0, k), (.rootLinkstat, F.rootLinkstatPower, 0, 1)]) .devClk 0 0x10000 with links := { started := true }, hbm := { buckets := [(3, (64, 64))] } }
    (∀ k, k < 6 → rf (st k) .rootLinkstat F.rootLinkstatState 0 = k ∧ rf (st k) .rootLinkstat F.rootLinkstatPower 0 = 1 ∧ (st k).links.started = true)
    ∧ memRange (st 3) 0x1000 8 = true ∧ accessHeld (st 3) 3 0x1000 8 = false ∧ accessHeld { st 3 with hbm := {} } 3 0x1000 8 = true ∧ memRange (st 3) 0x2000060F000 4 = false ∧ memRange (st 3) 0x2000060F000 8 = false
    ∧ selF (st 3) .host .rootLinksel F.rootLinkselLink = 0 ∧ memorySafe (st 3) := by
  and_intros
  all_goals first | decide +kernel | exact fun _ _ => rfl

theorem witness_ethernet :
    let s := { regState [(.ethPortstat, F.ethPortstatState, 0, 3)] with
      links := { started := true }, lc := List.replicate 13 5000, coll := { qps := [0x40004] }, net := { cnpAt := [(0x40004, 0)], nbrs := [(0, { chassis := [1], port := [2], ttl := 9, heardAt := 0 })], gids := [(0, [7])] } }
    rf s .ethPortstat F.ethPortstatState 0 = 3 ∧ rf State.reset .ethPortstat F.ethPortstatState 0 ≠ 3 ∧ s.links.started = true ∧ s.coll.waits = []
    ∧ (∃ prio : BitVec 3, prio.toNat = s.net.rpri) ∧ 0x40004 ∈ s.coll.qps ∧ 1250 ≤ (ioNow s - 0).toNat ∧ tget? s.net.ceAt 0x40004 = none ∧ prioPaused s (0x40004 % 4) s.net.cpri = false
    ∧ tget? s.net.gids 0 = some [7] ∧ (tget? s.net.nbrs 0).isSome = true := by
  and_intros
  all_goals first | decide +kernel | exact ⟨3, by decide +kernel⟩

theorem witness_seam :
    let st (k : Nat) (b : BootS) : State := { setReg (regState [(.seamStat, F.seamStatState, 0, k), (.seamStat, F.seamStatGood, 0, 0xFFFF), (.seamStat, F.seamStatSpares, 0, 1)]) .devClk 0 0x10000 with
      links := { started := true, seamGood := 0x1FFFF }, boot := b, hbm := { buckets := [(2, (64, 64))] } }
    (∀ k ∈ [0, 1, 5], rf (st k {}) .seamStat F.seamStatState = k) ∧ ((List.range 18).filter (fun j => bit (0xFFFF : BitVec 18) j)).length = 16 ∧ ((List.range 18).filter (fun j => bit (0x7FFF : BitVec 18) j)).length < 16
    ∧ (st 1 {}).boot.partner = 0 ∧ (st 1 { partner := 1 }).boot.partner ≠ 0 ∧ (rf (st 5 {}) .seamStat F.seamStatGood).testBit 0 = true ∧ 0 < rf (st 5 {}) .seamStat F.seamStatSpares
    ∧ (st 5 { twinArea := 0x1000 }).boot.twinArea ≠ 0 ∧ 0x1000 + 8 ≤ 0x1000 + 0x200000 ∧ memRange (st 5 {}) 0x1000 8 = true ∧ accessHeld (st 5 {}) 2 0x1000 8 = false ∧ accessHeld { st 5 {} with hbm := {} } 2 0x1000 8 = true
    ∧ rf (st 5 {}) .seamStat F.seamStatAccept = 0 ∧ (st 5 {}).links.dead = [] := by decide +kernel

/-- The Seam link in each state of its training, with its traffic held and with none, trained before and not. -/
theorem witness_seam_training :
    let st (k : Nat) (held trained : Bool) : State := { regState [(.seamStat, F.seamStatState, 0, k)] with
      links := { started := true, seamGood := 0x2FFFF, seamHold := held, seamTrained := trained, seamWait := if held then [.seam "DIGEST" 0 []] else [] } }
    (∀ k ∈ [1, 2, 3, 4], ∀ h ∈ [true, false], rf (st k h h) .seamStat F.seamStatState = k ∧ (st k h h).links.seamHold = h ∧ (st k h h).links.seamTrained = h)
    ∧ 16 ≤ (goodLanes (0x3FFFF &&& 0x2FFFF : BitVec 18)).length ∧ (goodLanes (0xFFFF : BitVec 18)).length = 16 ∧ (goodLanes (0x7FFF : BitVec 18)).length = 15
    ∧ (st 4 false false).boot.partner = 0 ∧ ({ partner := 1, serials := [7] } : BootS).serials = [7] ∧ ({ partner := 1 } : BootS).serials = [] := by decide +kernel

/-! ### Firmware, start-up, power, errors -/

/-- The part ready with its four cores live, mailbox slot 0 busy with a command of an opcode, an ARGLEN and arguments of eight bytes. What a signature proves stands open: `Config.ed25519Verify` has no body. -/
def boxState (op len : Nat) (args : List Word) (words : List (Nat × Word) := []) (stage : Nat := 9) : State :=
  let bytes := (leBytes op 2 ++ List.replicate 10 0 ++ leBytes len 4 ++ args.flatMap (fun w => leBytes w.toNat 8))
  let s := fields (paged State.reset 0x3013D words) [(.devBoot, F.devBootStage, 0, stage), (.mantleCores, F.mantleCoresLive, 0, 15), (.mantleMbstat, F.mantleMbstatBusy, 0, 1)]
  { s with mantle := { s.mantle with queue := [0], box := ((List.range bytes.length).zip bytes).filter (fun p => decide (p.2 ≠ 0)) } }

/-- Whether slot 0's command is taken up, well formed, and not one to be signed. -/
def boxReady (s : State) (op len : Nat) : Bool :=
  let stage := rf s .devBoot F.devBootStage
  decide (6 ≤ stage) && decide (stage ≤ 10) && boxNext s 0 op && (decide (stage = 9) || [0x01, 0x02, 0x0E].contains op)
    && decide (boxF s 0 12 4 = len) && decide (boxF s 0 2 1 ≤ 1) && decide (boxF s 0 3 1 = 0) && decide (s.mantle.copy = none) && s.err.latent.isEmpty

theorem witness_mailbox :
    (∀ c ∈ [(0x01, 0), (0x03, 48), (0x04, 8), (0x05, 24), (0x06, 16), (0x07, 128), (0x08, 24), (0x09, 16), (0x09, 24), (0x0A, 0), (0x0E, 0)], boxReady (boxState c.1 c.2 []) c.1 c.2 = true)
    ∧ boxNext (boxState 0x03 48 [] [] 8) 0 0x03 = true ∧ rf (boxState 0x03 48 [] [] 8) .devBoot F.devBootStage ≠ 9 ∧ boxSigned (boxState 0x02 0 []) 0 = false
    ∧ boxF (boxState 0x03 8 []) 0 12 4 = 8 ∧ boxServes (boxState 0 0 []) = true ∧ boxBusy (boxState 0 0 []) 0 = true ∧ boxBusy (boxState 0 0 []) 1 = false ∧ serving (boxState 0 0 []) := by
  and_intros
  all_goals first | decide +kernel | exact fun _ _ => rfl

/-- No copy, checkpoint or restore of slot 0 goes on; a service whose core is lost; a stage in which a reboot is taken. -/
theorem witness_mailbox_turns :
    let s := boxState 0x03 48 []
    (∀ b, s.mantle.copy ≠ some (0, b)) ∧ s.mantle.ckpt = none ∧ s.mantle.restore = none ∧ homeLive s 0 = true
    ∧ homeLive (fields s [(.mantleCores, F.mantleCoresLive, 0, 14)]) 0 = false
    ∧ (∀ q ∈ (boxState 0x03 48 []).mantle.queue, 1 ≤ boxOp (boxState 0x03 48 []) q ∧ boxOp (boxState 0x03 48 []) q ≤ 0x0E)
    ∧ boxOp (boxState 0 0 []) 0 = 0 ∧ 0x0E < boxOp (boxState 0x0F 0 []) 0
    ∧ mayAccess (regState [(.devBoot, F.devBootStage, 0, 10)]) .host ∧ rf (regState [(.devBoot, F.devBootStage, 0, 10)]) .devBoot F.devBootStage = 10
    ∧ agentTrusted .host = true ∧ rf (regState [(.devBoot, F.devBootStage, 0, 10)]) .trustFlctl F.trustFlctlGo = 0 := by
  unfold mayAccess
  decide +kernel

theorem witness_mailbox_arguments :
    let read (s : State) (a n : Nat) : List Byte := (List.range n).map (fun i => byteAt s (a + i))
    let feed : List (Nat × Word) := [(0x40000, 0x100000000000), (0x40008, 0x10002), (0x40020, 0x1000)]
    let plan := boxState 0x05 24 [0x40000, 1, 0]
    let range : List (Nat × Word) := [(0x40008, 0x200000)]
    -- NETADDR, LLDPNBR, FEEDCFG: port or stream 3, 4, 7, 8
    boxF (boxState 0x03 48 [3]) 0 16 8 = 3 ∧ boxF (boxState 0x03 48 [4]) 0 16 8 = 4 ∧ boxF (boxState 0x06 16 [8]) 0 16 8 = 8
    ∧ planOk (read plan 0x40000 32) = true ∧ planOk (read (boxState 0x05 24 [0x40000, 1, 0] [(0x40000, 9)]) 0x40000 32) = false ∧ 0x40000 + 32 * 1 ≤ 0xF000000000
    ∧ (feedOf (read (boxState 0x06 16 [0, 0x40000] feed) 0x40000 64)).isSome = true ∧ feedOf (read (boxState 0x06 16 [0, 0x40000]) 0x40000 64) = none
    ∧ rangesOf (read (boxState 0x08 24 [0x40000, 1, 0] range) 0x40000 16) = some [(0, 0x200000, 0)] ∧ rangesOf (read (boxState 0x08 24 [0x40000, 1, 0]) 0x40000 16) = none
    ∧ activeDrives (boxState 0x08 24 []) = [] ∧ (let s := fields (boxState 0x08 24 []) [(.rootLinkstat, F.rootLinkstatState, 0, 3)]; activeDrives { s with links := { cmb := [0] } } = [0])
    ∧ halfStep plan (Config.sha512 []) 0 = none ∧ halfStep plan (Config.sha512 []) 1 = none
    ∧ (∀ l, l < 9 → lineDead plan (0x800 + l) = false) ∧ plan.err.latent = [] ∧ hemState plan = 0 ∧ plan.mantle.ckpt = none := by decide +kernel

theorem witness_restore (m : BitVec 512) :
    let s := fields (boxState 0x09 16 []) [(.rootLinkstat, F.rootLinkstatState, 0, 3)]
    rf s .rootLinkstat F.rootLinkstatState 0 = 3 ∧ restorable s { valid := true, manifest := m, step := 5 } m = true ∧ hemState s = 0 := by
  have job : reg (fields (boxState 0x09 16 []) [(.rootLinkstat, F.rootLinkstatState, 0, 3)]) .collJobid = 0 := by decide +kernel
  exact ⟨by decide +kernel, by simp [restorable, job], by decide +kernel⟩

theorem witness_copies :
    let s := fields (boxState 0x0C 0 []) [(.seamStat, F.seamStatState, 0, 5)]
    rf s .seamStat F.seamStatState = 5 ∧ s.mantle.copy = none ∧ hemState s = 0 ∧ collState s = 0 ∧ s.mantle.feeds = [] ∧ s.mantle.ckpt = none
    ∧ ({ s with mantle := { s.mantle with copy := some (0, true) } } : State).mantle.copy = some (0, true) := by decide +kernel

theorem witness_services :
    let v := pack [(0, 0)]
    let post := setReg State.reset .devBlkmap 0 0x876543210
    let e (a : Nat) : PlanEnt := { trig := 0, action := a, target := 0, wpeg := 0, wval := 0, value := 0x40 }
    let live : State := fields State.reset [(.mantleCores, F.mantleCoresLive, 0, 15)]
    let waits (a : Nat) : State := { live with mantle := { live.mantle with waiting := [e a] } }
    let one := fields State.reset [(.mantleCores, F.mantleCoresLive, 0, 1)]
    let noted : State := { one with hem := { notes := [1] }, mantle := { one.mantle with commits := [(7, 0)], ckpt := some { box := 0, half := 0, manifest := [], ranges := [], skip := 1 } } }
    cellRetired post 0 = false ∧ agentTrusted .host = true ∧ fget v F.mantleIrqpostRegion ≤ 11
    ∧ rf one .mantleCores F.mantleCoresLive = 2 ^ 0 ∧ rf (boxState 0 0 []) .mantleCores F.mantleCoresLive ≠ 2 ^ 0 ∧ (rf (boxState 0 0 []) .mantleCores F.mantleCoresLive).testBit 0 = true ∧ (boxState 0 0 []).mantle.home.length = 4
    ∧ (∀ a, a < 4 → (waits a).mantle.waiting = [e a] ∧ (e a).wval ≤ pegVal (waits a) (e a).wpeg ∧ homeLive (waits a) 0 = true ∧ tget? (waits a).pegs.watches runnerKey = none ∧ agentHeld (waits a) (runner (waits a)) = false ∧ (e a).value % 64 = 0)
    ∧ (tqueue (waits 0) 0).length < 128 ∧ (lstack (waits 1) 0).queue.length < 256 ∧ (waits 2).threads = [] ∧ postsOpen (waits 3) = false
    ∧ noted.hem.notes = [1] ∧ noted.mantle.plan = [] ∧ noted.mantle.commits = [(7, 0)] ∧ homeLive live 0 = true ∧ homeLive live 3 = true ∧ homeLive one 3 = false ∧ (∀ j, j < 4 → coreHalted live j = false) := by decide +kernel

/-- A copy of a chunk that matches its digest. -/
theorem witness_good_copy : tget? ({ digests := [(0, Config.sha512 [1])] } : Stored).digests 0 = some (Config.sha512 [1]) := rfl

theorem witness_keeper :
    let c : Ckpt := { box := 0, half := 0, manifest := [], ranges := [], taken := true, frames := [0x1000], drives := [0], todo := [0] }
    let z : State := fields State.reset [(.rootLinkstat, F.rootLinkstatState, 0, 3), (.seamStat, F.seamStatState, 0, 5), (.mantleCores, F.mantleCoresLive, 0, 15)]
    let s (c : Ckpt) : State := { z with
      links := { cmb := [0], twinArea := 0x1000 }, mantle := { z.mantle with ckpt := some c, stored := [(0, { valid := true, chunks := [(0, [1])] })], twinDue := true }, boot := { kpeg := some 0 } }
    homeLive (s c) 0 = true ∧ homeLive (s c) 2 = true ∧ (s c).links.seamHold = false ∧ tget? (storedAt (s c) 0 0).chunks 0 = some [1] ∧ tget? (storedAt (s c) 0 0).chunks 1 = none ∧ (s { c with taken := false }).mantle.ckpt = some { c with taken := false }
    ∧ (s c).mantle.ckpt = some c ∧ c.taken = true ∧ 0 ∈ activeDrives (s c) ∧ 0 ∉ activeDrives State.reset ∧ ({ c with todo := [0, 1] } : Ckpt).todo = [0, 1]
    ∧ (storedAt (s c) 0 0).valid = true ∧ rf (s c) .rootLinkstat F.rootLinkstatState 0 = 3 ∧ rf (s c) .seamStat F.seamStatState = 5 ∧ (pairMode (s c)).1 = false ∧ (s c).mantle.twinDue = true
    ∧ (s c).links.twinArea ≠ 0 ∧ (s c).mantle.user.length = 128
    -- a rank table in which each of two ranks has the other as its twin
    ∧ (pairMode (paged (regState [(.collJob, F.collJobNrm1, 0, 1), (.collRtbase, F.collRtbaseBase, 0, 0x40)]) 0 [(0x40040, 1)])).1 = true := by decide +kernel

/-- Consecutive bytes from an address, as a table. -/
def laid (a : Nat) : List Byte → Table Byte
  | [] => []
  | b :: l => (a, b) :: laid (a + 1) l

theorem laid_read (l : List Byte) (a : Nat) : (List.range l.length).map (fun i => tget 0xFF (laid a l) (a + i)) = l := by
  induction l generalizing a with
  | nil => rfl
  | cons b l ih =>
    rw [List.length_cons, List.range_succ_eq_map, List.map_cons, List.map_map]
    congr 1
    · simp [laid, tget, tget?]
    · refine (List.map_congr_left fun i _ => ?_).trans (ih (a + 1))
      have e : a + Nat.succ i = a + 1 + i := by omega
      have n : ¬a = a + 1 + i := by omega
      simp only [Function.comp_apply, laid, tget, tget?, e, if_neg n]

/-- A copy of the repair record in the flash, whatever its signature. -/
theorem witness_repair_copy :
    let c : RepairCopy := { seq := 1, ents := [] }
    let s : State := { State.reset with repair := { copy0 := some c }, flash := laid 0x10000 (repairImage c) }
    newestCopy s = some 0 := by
  intro c s
  have h : flashBytes s (copyBase 0) (repairImage c).length = repairImage c := laid_read _ _
  have h0 : repairCopy s 0 = some c := by simp [repairCopy, s, h]
  have h1 : repairCopy s 1 = none := rfl
  simp [newestCopy, h0, h1]

theorem witness_start_up :
    let st (k : Nat) : State := regState [(.devBoot, F.devBootStage, 0, k)]
    let lock : State := { st 8 with boot := { fw := List.replicate 6 0 ++ [1] } }
    (∀ k ∈ [1, 3, 5, 6, 7, 8, 10, 11], rf (st k) .devBoot F.devBootStage = k) ∧ (st 1).power.railHold = false ∧ (st 1).power.down = false
    ∧ newestCopy (st 1) = none ∧ ofLE ((lock.boot.fw.drop 6).take 1) % 2 = 1
    ∧ slotCode (st 3) 0 ≠ 0 ∧ slotCode (st 3) 1 ≠ 0 := by decide +kernel

theorem witness_flash :
    let go := regState [(.trustFlctl, F.trustFlctlGo, 0, 1)]
    rf State.reset .trustFlctl F.trustFlctlGo = 0 ∧ rf go .trustFlctl F.trustFlctlGo = 1 ∧ agentTrusted .host = true ∧ agentTrusted (.thread 0) = false
    ∧ 0x2100000 % 0x10000 = 0 ∧ ¬(0x2100000 < 0x50000) ∧ ¬(0x100000 + 1 * 0x1000000 ≤ 0x2100000 ∧ 0x2100000 < 0x1100000 + 1 * 0x1000000) ∧ (0x60000 : Nat) < 0x100000
    ∧ State.reset.boot.owner = none ∧ bits (0x454E524C : Word) 31 0 = 0x454E524C ∧ ({ down := true } : PowerS).down = true ∧ ({ railHold := true } : PowerS).railHold = true := by decide +kernel

/-- Four steps of 500 to 2,000 MHz at 600 to 750 mV, every region at step 2; limits of 1,000 W. -/
def powerState (p : PowerS) (regs : List (RegName × Fld × Nat × Nat) := []) : State :=
  { fields State.reset ((List.range 12).map (fun r => (RegName.powerRegstat, F.powerRegstatStep, r, 2)) ++ (List.range 12).map (fun r => (RegName.powerRegstat, F.powerRegstatCap, r, 15)) ++ regs) with
    power := { p with vf := [(500, 600), (1000, 650), (1500, 700), (2000, 750)], base := 15, peak := List.replicate 17 (1000, 1000), throt := 95, trip := 110, shed := [10, 20, 30, 40, 50, 60], vmax := 900 } }

theorem witness_power_steps :
    let s := powerState {}
    rf s .powerRegstat F.powerRegstatStep 0 = 2 ∧ (1 : BitVec 4).toNat < 2 ∧ 2 ≤ (2 : BitVec 4).toNat
    -- no lever, one to pull, one to let go
    ∧ 100 * rf s .powerChstat F.powerChstatP10 0 < 95 * 1000 ∧ 95 * 1000 ≤ 100 * rf (powerState {} [(.powerChstat, F.powerChstatP10, 0, 950)]) .powerChstat F.powerChstatP10 0
    ∧ tget 0 (powerState { levers := [(0, 1)] }).power.levers 0 ≠ 0
    -- averages and temperatures at both sides of their thresholds
    ∧ rf (fields s [(.powerAvglim, F.powerAvglimPkg, 0, 1000)]) .powerAvglim F.powerAvglimPkg = 1000 ∧ (100 * 969 < 97 * 1000 ∧ 97 * 1000 ≤ 100 * 970)
    ∧ tget 15 (powerState { lim := [(2, 3)] }).power.lim (16 * 0 + 2) < 15 ∧ s.power.throt = 95 ∧ s.power.trip = 110 ∧ s.power.down = false ∧ 91 + 3 < s.power.throt ∧ s.power.throt ≤ 92 + 3
    ∧ 1 ∈ neighbours 0 ∧ 5 ∉ neighbours 0 ∧ tget 15 (powerState { lim := [(9, 3)] }).power.lim (16 * 0 + 9) < 15
    ∧ 0 ∈ (powerState { stretched := [0] }).power.stretched ∧ 0 ∉ s.power.stretched := by decide +kernel

theorem witness_shedding :
    let at' (k : Nat) : State := powerState {} [(.powerShed, F.powerShedStage, 0, k)]
    (∀ k ∈ [0, 1, 2, 3, 4, 5], rf (at' k) .powerShed F.powerShedStage = k ∧ (at' k).power.shed.length = 6)
    ∧ (∀ k, k < 7 → ((at' 0).power.shed.filter (fun x => decide (x ≤ 10 * k))).length = k)
    ∧ ¬((at' 3).power.shed.getD 2 0 ≤ 19 + 10) ∧ ¬((at' 5).power.shed.getD 4 0 ≤ 39 + 10) ∧ ¬((at' 1).power.shed.getD 0 0 ≤ 9 - 10) ∧ (at' 5).power.down = false ∧ (at' 0).power.vf ≠ []
    -- stage 5 with a stack that MAINT was left for, one that serves and one that is off; a trim and a full repair record
    ∧ (let r := powerState { inMaint := [1] } [(.powerShed, F.powerShedStage, 0, 5), (.hbmStkstat, F.hbmStkstatState, 0, 5), (.hbmStkstat, F.hbmStkstatState, 1, 5), (.hbmStkstat, F.hbmStkstatMaint, 1, 1)]
       [0, 1, 2].map (fun k => rf r .hbmStkstat F.hbmStkstatState k) = [5, 5, 0] ∧ [0, 1].map (fun k => rf r .hbmStkstat F.hbmStkstatMaint k) = [0, 1] ∧ 1 ∈ r.power.inMaint ∧ 0 ∉ r.power.inMaint)
    ∧ rf (at' 0) .powerRegstat F.powerRegstatTrim 0 < 63 ∧ (at' 0).repair.ents.length < 8184 ∧ rf (powerState {} [(.powerRegstat, F.powerRegstatTrim, 0, 63)]) .powerRegstat F.powerRegstatTrim 0 = 63 := by decide +kernel

theorem witness_records :
    let e : ErrRec := { cause := 0x10, cls := 0, level := 0 }
    let x : Accepted := { er := e, seq := 0, time := 0, step := 0 }
    let ring := regState [(.errRing, F.errRingEn, 0, 1), (.errRing, F.errRingLog2n, 0, 8), (.errRing, F.errRingBase, 0, 0x40)]
    let full := fields ring [(.errWp, F.errWpWp, 0, 256)]
    let used (s : State) : Nat := (rf s .errWp F.errWpWp + 2 ^ 32 - rf s .errRp F.errRpRp) % 2 ^ 32
    ({ detected := [e], merges := [x] } : ErrS).merges = [] ++ x :: [] ∧ x.er.cause = e.cause ∧ ({ detected := [e] } : ErrS).merges.length < 32 ∧ (List.replicate 32 x).length = 32 ∧ ({ e with cls := 2 } : ErrRec).cls = 2 ∧ ({ e with cls := 1 } : ErrRec).cls ≠ 0
    ∧ rf ring .errRing F.errRingEn = 1 ∧ used ring < 2 ^ rf ring .errRing F.errRingLog2n ∧ 2 ^ rf full .errRing F.errRingLog2n ≤ used full ∧ ({ hold := [x] } : ErrS).hold = [x] ∧ (List.replicate 64 x).length = 64
    ∧ memorySafe ring ∧ lineDead ring (0x40000 / 128) = false := by
  and_intros
  all_goals first | decide +kernel | exact fun _ _ => rfl

theorem witness_injections :
    let at' (t a : Nat) : State := regState [(.errInj, F.errInjTarget, 0, t), (.errInj, F.errInjAddr, 0, a), (.devBoot, F.devBootDebug, 0, 1)]
    rf (at' 1 0x200) .devBoot F.devBootDebug ≠ 0 ∧ rf State.reset .devBoot F.devBootDebug = 0 ∧ 8 * rf (at' 1 0x200) .errInj F.errInjAddr < 0xF000000000
    ∧ 0x10000000000 ≤ 8 * rf (at' 0 0x2000000000) .errInj F.errInjAddr ∧ isMemory (at' 0 0x2000000000) (8 * rf (at' 0 0x2000000000) .errInj F.errInjAddr) = true ∧ bit (1 : Word) 0 = true
    ∧ rf State.reset .errRing F.errRingEn = 0 ∧ (8 ≤ bits (pack [(0, 8), (12, 0x40)]) 4 0 ∧ 4096 * bits (pack [(0, 8), (12, 0x40)]) 51 12 + 64 * 2 ^ 8 ≤ 0xF000000000)
    ∧ ¬(4096 * bits (pack [(0, 8), (12, 0xEFFFFFD)]) 51 12 + 64 * 2 ^ 8 ≤ 0xF000000000) := by decide +kernel

/-! ## Results -/

/-- R42's table: a zero divisor gives −1 and the dividend. -/
theorem test_div_by_zero :
    rx (after (.div tc 10 11 0) (cellState user)) tc 10 = 0xFFFFFFFFFFFFFFFF ∧ rx (after (.rem tc 10 11 0) (cellState user)) tc 10 = 7 := by decide +kernel

/-- R42's table: the most negative value ÷ −1. -/
theorem test_div_overflow :
    rx (after (.div tc 10 12 13) (cellState user)) tc 10 = 0x8000000000000000 ∧ rx (after (.rem tc 10 12 13) (cellState user)) tc 10 = 0 := by decide +kernel

/-- R35, R41: a write to s0 is discarded and the pc moves on. -/
theorem test_write_to_s0 :
    rx (after (.add tc 0 11 11) (cellState user)) tc 0 = 0 ∧ (thread (after (.add tc 0 11 11) (cellState user)) tc).pc = 4 := by decide +kernel

/-- R74: a return from M to U. -/
theorem test_xret :
    let n := after (.xret tm) (coreState entered0)
    (thread n tm).level = 0 ∧ (thread n tm).pc = 0x40 ∧ rx n tm 2 = 0x200 ∧ srAt n tm 0x815 = 0x100 ∧ srAt n tm 0x811 = 0x505 := by decide +kernel

/-- R74: a return above XCEIL.CEIL writes the cause 0x0B with the level, the address, and FM. -/
theorem test_xret_illegal :
    let n := after (.xret tm) (coreState { entered0 with sr := [(0x800, 0), (0x811, 0x2000)] })
    srAt n tm 0x812 = 0x10B ∧ srAt n tm 0x813 = 0x1000 ∧ srAt n tm 0x811 = 0x2010 ∧ rx n tm 2 = 0x100 := by decide +kernel

/-- R75: a return through the frame at s2, whose INFO asks for S, with CEIL at M and at U. -/
theorem test_xret_g :
    let frame (ceil : Word) : State := { coreState { entered0 with sr := [(0x800, ceil), (0x811, 0)] } with ms := { mem := [(0x100, 0x44), (0x108, 0x80), (0x110, 1)] } }
    let n := after (.xretG tm) (frame 2)
    let m := after (.xretG tm) (frame 0)
    ((thread n tm).level = 1 ∧ (thread n tm).pc = 0x44 ∧ rx n tm 2 = 0x80)
    ∧ ((thread m tm).level = 2 ∧ rx m tm 2 = 0x100 ∧ srAt m tm 0x812 = 0x10B ∧ srAt m tm 0x813 = 0x1000 ∧ srAt m tm 0x811 = 0x10) := by decide +kernel

/-- R56: `sr.rw` on an unassigned number enters the handler with cause 0 and XPC the instruction, rd as it was. -/
theorem test_register_trap :
    let n := after (.srRw tm 10 11 0x999) (coreState { entered0 with sr := [(0x811, 0), (0x810, 0x40)] })
    srAt n tm 0x812 = 0 ∧ srAt n tm 0x810 = 0x1000 ∧ rx n tm 10 = 0 ∧ (thread n tm).pc = 0 := by decide +kernel

/-- R107, R118: `v.cmp.ltu` of doublewords under q0: only element 1 of v1 (0) is below that of v2 (1); bit 8 governs it. -/
theorem test_compare :
    let f : VForm := { vd := 1, vs1 := 1, vs2 := 2, qp := 0, et := 3, grp := 0 }
    let n := after (.vCmpLtu tc f) (cellState { user with v := [(2, 0x10000000000000000)] })
    (thread n tc).q = [(1, 0x100)] := by decide +kernel

end Sys2Proof.Tests
end

section
/-! PROOFS. What a register access of an agent reaches, and what its bits do to the register's word (R7–R10, R82). -/

namespace Sys2Proof.Machine

open Sys2Proof.Safety

/-! ## Accesses that wait for nothing -/

theorem accessWaits_of_mayAccess {s : State} {a : Agent} (h : mayAccess s a) (off : Nat) (wr : Bool) : accessWaits s a off wr = false := by
  simp [accessWaits, h.1, h.2]

theorem mmioGate_of_serving {s : State} (h : serving s) (a : Agent) (off : Nat) (f : State → State) : mmioGate s a off f = f s := by
  obtain ⟨hup, hshort, hrec⟩ := h
  simp [mmioGate, hup, hshort, hrec]

theorem mmioReads_of_serving {s : State} (h : serving s) (off : Nat) : mmioReads s off = true := by
  obtain ⟨hup, hshort, hrec⟩ := h
  simp [mmioReads, hup, hshort, hrec]

theorem mmioCmd_of_takes {s : State} {a : Agent} (h : takes s a) (off : Nat) (f : State → State) : mmioCmd s a off f = f s := by
  simp [mmioCmd, accessWaits_of_mayAccess h.2, mmioGate_of_serving h.1]

/-- A thread's write elsewhere than in the peg registers is no release. -/
theorem pegCmd_of_mayAccess {s : State} {a : Agent} (h : mayAccess s a) {off : Nat} (hp : isPegReg off = false) (f : State → State) :
    pegCmd s a off f = f s := by
  have hr : pegRelease s a off = some s := by
    unfold pegRelease; cases agentThread a <;> simp [hp]
  simp [pegCmd, accessWaits_of_mayAccess h, hr]

/-- A thread's read elsewhere than in the peg registers is no acquire. -/
theorem mmioReadCmd_of_mayAccess {s : State} {a : Agent} (h : mayAccess s a) {off : Nat} (hp : isPegReg off = false) (f : State → Word × State) :
    mmioReadCmd s a off f = emit (f s).2 (.value a off (f s).1) := by
  have hv : off / 8 * 8 ≠ 0x20008 := by simp [isPegReg] at hp; exact hp.1
  unfold mmioReadCmd pegAcquire
  rw [if_neg (by simp [accessWaits_of_mayAccess h])]
  cases agentThread a <;> simp [hv]

/-! ## Width and alignment (R9) -/

/-- An access that R9 serves: of 4 or 8 bytes, aligned to its width. -/
def wideAccess (off bytes : Nat) : Prop := (bytes = 4 ∨ bytes = 8) ∧ off % bytes = 0

theorem wideAccess_cases {off bytes : Nat} (h : wideAccess off bytes) :
    bytes = 8 ∧ off % 8 = 0 ∨ bytes = 4 ∧ off % 8 = 0 ∨ bytes = 4 ∧ off % 8 = 4 := by
  obtain ⟨rfl | rfl, h⟩ := h <;> omega

theorem not_wideAccess_iff {off bytes : Nat} : ¬wideAccess off bytes ↔ (bytes ≠ 4 ∧ bytes ≠ 8) ∨ off % bytes ≠ 0 := by
  unfold wideAccess; tauto

theorem mmioWrite_not_wide {a : Agent} {off bytes : Nat} (h : ¬wideAccess off bytes) (hb : inBar4 a off = false) (v : Word) (s : State) :
    mmioWrite a off bytes v s = accessError s a off := by
  simp [mmioWrite, hb, not_wideAccess_iff.1 h]

theorem mmioRead_not_wide {a : Agent} {off bytes : Nat} (h : ¬wideAccess off bytes) (hb : inBar4 a off = false) (s : State) :
    mmioRead a off bytes s = (0, accessError s a off) := by
  simp [mmioRead, hb, not_wideAccess_iff.1 h]

/-! ## The register that an offset reaches (R81) -/

/-- The access at off reaches register r and nothing else of the MMIO range: neither the peg registers, whose accesses order the thread's, nor a byte array or the MSI-X table. -/
structure ReachesReg (off : Nat) (r : RegName) : Prop where
  slot : off / 8 * 8 = (regPlace r).1
  only : regAt (regPlace r).1 = some (r, 0)
  bar0 : (regPlace r).1 < bar4Base
  noPeg : isPegReg (regPlace r).1 = false
  noMsix : (regPlace r).1 < 0x8000 ∨ 0x9020 ≤ (regPlace r).1
  noBox : (regPlace r).1 < 0x11000 ∨ 0x12000 ≤ (regPlace r).1
  noFlash : (regPlace r).1 < 0xB01000 ∨ 0xB02000 ≤ (regPlace r).1

variable {s : State} {a : Agent} {off bytes : Nat} {r : RegName}

theorem ReachesReg.notPeg (h : ReachesReg off r) : isPegReg off = false := by
  have := h.noPeg
  simp only [isPegReg, h.slot] at this ⊢
  simpa [isPegReg, ← h.slot] using this

theorem ReachesReg.notBar4 (h : ReachesReg off r) (a : Agent) : inBar4 a off = false := by
  obtain ⟨slot, -, bar0, -⟩ := h
  simp [inBar4, show ¬bar4Base ≤ off by unfold bar4Base at *; omega]

/-- A served write goes to the register. -/
theorem mmioWrite_reaches (hs : serving s) (hw : wideAccess off bytes) (h : ReachesReg off r) (v : Word) :
    mmioWrite a off bytes v s = regWrite s a off bytes r 0 v := by
  have hb := h.notBar4 a
  have hn := mt not_wideAccess_iff.2 (not_not.2 hw)
  obtain ⟨slot, only, -, -, noMsix, noBox, noFlash⟩ := h
  rw [mmioWrite, hb, if_neg (by decide), if_neg hn, mmioGate_of_serving hs, mmioPut,
    if_neg (by omega), if_neg (by omega), if_neg (by omega), if_neg (by omega), slot, only]

/-- A served read goes to the register. -/
theorem mmioRead_reaches (hs : serving s) (hw : wideAccess off bytes) (h : ReachesReg off r) :
    mmioRead a off bytes s = regRead s a off bytes r 0 := by
  have hb := h.notBar4 a
  have hn := mt not_wideAccess_iff.2 (not_not.2 hw)
  obtain ⟨slot, only, -, -, noMsix, noBox, noFlash⟩ := h
  rw [mmioRead, hb, if_neg (by decide), if_neg hn, mmioReads_of_serving hs, if_neg (by decide),
    if_neg (by omega), if_neg (by omega), if_neg (by omega), if_neg (by omega), slot, only]

theorem exec_registerWrite (s : State) (a : Agent) (off bytes : Nat) (v : Word) :
    exec (.registerWrite a off bytes v) s = .next (pegCmd s a off (mmioWrite a off bytes v)) := rfl

theorem exec_readClear (s : State) (a : Agent) (off bytes : Nat) :
    exec (.readClear a off bytes) s = .next (mmioReadCmd s a off (mmioRead a off bytes)) := rfl

theorem exec_registerWrite_reaches (ht : takes s a) (hw : wideAccess off bytes) (h : ReachesReg off r) (v : Word) :
    exec (.registerWrite a off bytes v) s = .next (regWrite s a off bytes r 0 v) := by
  rw [exec_registerWrite, pegCmd_of_mayAccess ht.2 h.notPeg, mmioWrite_reaches ht.1 hw h]

theorem exec_readClear_reaches (ht : takes s a) (hw : wideAccess off bytes) (h : ReachesReg off r) :
    exec (.readClear a off bytes) s
      = .next (emit (regRead s a off bytes r 0).2 (.value a off (regRead s a off bytes r 0).1)) := by
  rw [exec_readClear, mmioReadCmd_of_mayAccess ht.2 h.notPeg, mmioRead_reaches ht.1 hw h]

/-- An access of a wrong width or a misaligned offset is an access error: the write is discarded, the read returns zero (R9). -/
theorem exec_not_wide (hm : mayAccess s a) (hw : ¬wideAccess off bytes) (hb : inBar4 a off = false) (hp : isPegReg off = false) (v : Word) :
    exec (.registerWrite a off bytes v) s = .next (accessError s a off)
    ∧ exec (.readClear a off bytes) s = .next (emit (accessError s a off) (.value a off 0)) := by
  constructor
  · rw [exec_registerWrite, pegCmd_of_mayAccess hm hp, mmioWrite_not_wide hw hb]
  · rw [exec_readClear, mmioReadCmd_of_mayAccess hm hp, mmioRead_not_wide hw hb]

/-! ## The half that an access covers (R9) -/

/-- The written value laid at the place of the half that it covers. -/
def laidValue (off bytes : Nat) (v : Word) : Word := (if bytes = 4 ∧ off % 8 ≠ 0 then v <<< 32 else v) &&& halfMask off bytes

theorem bit_halfMask (hw : wideAccess off bytes) {k : Nat} (hk : k < 64) :
    bit (halfMask off bytes) k = decide (8 * (off % 8) ≤ k ∧ k < 8 * (off % 8) + 8 * bytes) := by
  obtain ⟨rfl, ho⟩ | ⟨rfl, ho⟩ | ⟨rfl, ho⟩ := wideAccess_cases hw <;>
    · simp only [halfMask, ho, allMask, bit]
      revert k; decide

theorem bit_laidValue (hw : wideAccess off bytes) (v : Word) {k : Nat} (hk : k < 64) :
    bit (laidValue off bytes v) k = (bit (halfMask off bytes) k && bit v (k - 8 * (off % 8))) := by
  have hand : bit (laidValue off bytes v) k
      = (bit (halfMask off bytes) k && bit (if bytes = 4 ∧ off % 8 ≠ 0 then v <<< 32 else v) k) := by
    simp only [bit, laidValue, BitVec.getLsbD_and, Bool.and_comm]
  rw [hand, bit_halfMask hw hk]
  obtain ⟨rfl, ho⟩ | ⟨rfl, ho⟩ | ⟨rfl, ho⟩ := wideAccess_cases hw
  · simp [ho]
  · simp [ho]
  · by_cases h32 : 32 ≤ k
    · simp only [ho, bit, ne_eq, OfNat.ofNat_ne_zero, not_false_eq_true, and_self, if_true, BitVec.getLsbD_shiftLeft, hk, Nat.not_lt.2 h32]
      simp
    · simp [ho, h32]

theorem bit_wd_bits (w : Word) (hi lo : Nat) {k : Nat} (hk : k < 64) :
    bit (wd (bits w hi lo)) k = (decide (k < hi + 1 - lo) && bit w (lo + k)) := by
  simp only [bit, wd, BitVec.getLsbD_ofNat, testBit_bits, hk, decide_true, Bool.true_and]

/-- The value of a read is the half of the word that the access covers. -/
theorem bit_halfOf (hw : wideAccess off bytes) (w : Word) {k : Nat} (hk : k < 64) :
    bit (halfOf off bytes w) k = (decide (k < 8 * bytes) && bit w (8 * (off % 8) + k)) := by
  obtain ⟨rfl, ho⟩ | ⟨rfl, ho⟩ | ⟨rfl, ho⟩ := wideAccess_cases hw
  · simp [halfOf, ho, hk]
  · simp [halfOf, ho, bit_wd_bits _ _ _ hk]
  · simp [halfOf, ho, bit_wd_bits _ _ _ hk]

/-! ## The fields of a word (R7, R8) -/

/-- A field's bits lie in the word. -/
theorem regFields_fit (r : RegName) : ∀ f ∈ regFields r, f.lo ≤ f.hi ∧ f.hi < 64 := by
  cases r <;> decide

theorem bit_fmask {f : Fld} (h : f.lo ≤ f.hi) {k : Nat} (hk : k < 64) : bit (fmask 64 f.hi f.lo) k = decide (f.lo ≤ k ∧ k ≤ f.hi) := by
  simp only [bit, getLsbD_fmask _ _ _ _ h, hk, true_and]

/-- Whether a write acts on the field at most by laying its bits: it takes every value and no bit written there clears or sets one. -/
def Fld.plain (f : Fld) : Bool := f.ok.isEmpty && decide (f.acc ≠ .w1c) && decide (f.acc ≠ .w1s)

theorem bit_fwrite {f : Fld} (hf : f.plain = true) (h : f.lo ≤ f.hi) (v mask w : Word) {k : Nat} (hk : k < 64) :
    bit (fwrite v mask w f) k = if bit mask k = true ∧ f.acc = .rw ∧ f.lo ≤ k ∧ k ≤ f.hi then bit v k else bit w k := by
  have hm := bit_fmask h hk
  simp only [Fld.plain, Bool.and_eq_true, decide_eq_true_eq] at hf
  obtain ⟨⟨hok, hw1c⟩, hw1s⟩ := hf
  unfold fwrite
  cases hacc : f.acc with
  | w1c => exact absurd hacc hw1c
  | w1s => exact absurd hacc hw1s
  | rw =>
    simp only [bit] at hm ⊢
    simp only [fokay, hok, Bool.true_or, if_true, BitVec.getLsbD_or, BitVec.getLsbD_and, BitVec.getLsbD_not, hk, decide_true, Bool.true_and, hm]
    by_cases hin : f.lo ≤ k ∧ k ≤ f.hi <;> cases mask.getLsbD k <;> simp [hin]
  | ro => simp
  | wo => simp
  | rc => simp

/-- A plain write lays its bits over the RW fields that it reaches; every other bit stays (R7–R9). -/
theorem bit_foldl_fwrite (v mask : Word) {k : Nat} (hk : k < 64) (fs : List Fld) (hp : ∀ f ∈ fs, f.plain = true) (hf : ∀ f ∈ fs, f.lo ≤ f.hi) (w : Word) :
    bit (fs.foldl (fwrite v mask) w) k
      = if bit mask k = true ∧ ∃ f ∈ fs, f.acc = .rw ∧ f.lo ≤ k ∧ k ≤ f.hi then bit v k else bit w k := by
  induction fs generalizing w with
  | nil => simp
  | cons f t ih =>
    rw [List.foldl_cons, ih (fun g hg => hp g (List.mem_cons_of_mem _ hg)) (fun g hg => hf g (List.mem_cons_of_mem _ hg)),
      bit_fwrite (hp f List.mem_cons_self) (hf f List.mem_cons_self) _ _ _ hk]
    simp only [List.exists_mem_cons_iff]
    by_cases hm : bit mask k = true
    · by_cases hin : f.acc = .rw ∧ f.lo ≤ k ∧ k ≤ f.hi <;> simp [hm, hin]
    · simp [hm]

theorem bit_regWriteWord {r : RegName} (hp : ∀ f ∈ regFields r, f.plain = true) (old v mask : Word) {k : Nat} (hk : k < 64) :
    bit (regWriteWord r old v mask) k
      = if bit mask k = true ∧ ∃ f ∈ regFields r, f.acc = .rw ∧ f.lo ≤ k ∧ k ≤ f.hi then bit v k else bit old k :=
  bit_foldl_fwrite v mask hk _ hp (fun f hf => (regFields_fit r f hf).1) old

theorem bit_allMask {k : Nat} (hk : k < 64) : bit allMask k = true := by
  revert k; decide

/-- A write of the whole register gives an RW field the bits written there. -/
theorem fget_regWriteWord {r : RegName} (hp : ∀ f ∈ regFields r, f.plain = true) (old v : Word) {f : Fld} (hf : f ∈ regFields r) (hacc : f.acc = .rw) :
    fget (regWriteWord r old v allMask) f = fget v f := by
  obtain ⟨-, hhi⟩ := regFields_fit r f hf
  apply Nat.eq_of_testBit_eq
  intro k
  rw [fget, fget, testBit_bits, testBit_bits]
  by_cases hk : k < f.hi + 1 - f.lo
  · have hlt : f.lo + k < 64 := by omega
    have hin : ∃ g ∈ regFields r, g.acc = .rw ∧ g.lo ≤ f.lo + k ∧ f.lo + k ≤ g.hi := ⟨f, hf, hacc, by omega, by omega⟩
    have hb := bit_regWriteWord hp old v allMask hlt
    rw [if_pos ⟨bit_allMask hlt, hin⟩] at hb
    exact congrArg _ hb
  · simp [hk]

/-- A read clears the RC fields that it reaches; every other bit stays (R7, R9). -/
theorem bit_regReadClear (r : RegName) (old mask : Word) {k : Nat} (hk : k < 64) :
    bit (regReadClear r old mask) k
      = (!decide (bit mask k = true ∧ ∃ f ∈ regFields r, f.acc = .rc ∧ f.lo ≤ k ∧ k ≤ f.hi) && bit old k) := by
  have hfit := regFields_fit r
  unfold regReadClear
  generalize regFields r = fs at hfit
  induction fs generalizing old with
  | nil => simp
  | cons f t ih =>
    have hm := bit_fmask (hfit f List.mem_cons_self).1 hk
    rw [List.foldl_cons, ih _ (fun g hg => hfit g (List.mem_cons_of_mem _ hg))]
    simp only [List.exists_mem_cons_iff]
    by_cases hacc : f.acc = .rc
    · simp only [bit] at hm ⊢
      simp only [hacc, if_true, true_and, BitVec.getLsbD_and, BitVec.getLsbD_not, hk, decide_true, Bool.true_and, hm]
      by_cases hin : f.lo ≤ k ∧ k ≤ f.hi <;> by_cases hb : mask.getLsbD k = true <;> simp [hin, hb]
    · simp [hacc]

/-- The bits of the readable fields. -/
theorem bit_readMask (fs : List Fld) (hf : ∀ f ∈ fs, f.lo ≤ f.hi) {k : Nat} (hk : k < 64) (m : Word) :
    bit (fs.foldl (fun m f => if f.acc = .wo then m else m ||| fmask 64 f.hi f.lo) m) k
      = (bit m k || decide (∃ f ∈ fs, f.acc ≠ .wo ∧ f.lo ≤ k ∧ k ≤ f.hi)) := by
  induction fs generalizing m with
  | nil => simp
  | cons f t ih =>
    have hm := bit_fmask (hf f List.mem_cons_self) hk
    rw [List.foldl_cons, ih (fun g hg => hf g (List.mem_cons_of_mem _ hg))]
    simp only [List.exists_mem_cons_iff]
    by_cases hacc : f.acc = .wo
    · simp [hacc]
    · simp only [bit] at hm ⊢
      simp only [hacc, if_false, BitVec.getLsbD_or, hm, Bool.or_assoc, Bool.decide_or, ne_eq, not_false_eq_true, true_and]

/-- A read returns the readable fields; write-only and reserved bits read zero (R7). -/
theorem bit_regReadWord (r : RegName) (w : Word) {k : Nat} (hk : k < 64) :
    bit (regReadWord r w) k = (decide (∃ f ∈ regFields r, f.acc ≠ .wo ∧ f.lo ≤ k ∧ k ≤ f.hi) && bit w k) := by
  have hm := bit_readMask (regFields r) (fun f hf => (regFields_fit r f hf).1) hk 0#64
  simp only [bit, BitVec.getLsbD_zero, Bool.false_or] at hm ⊢
  rw [regReadWord, BitVec.getLsbD_and, hm, Bool.and_comm]

end Sys2Proof.Machine
end

section
/-! PROOFS. The plain register writes and the reads that R7–R10 and R82 speak of. -/

namespace Sys2Proof.Machine

open Sys2Proof.Safety

variable {s : State} {a : Agent} {off bytes : Nat} {r : RegName}

/-! ## Frames of a register word -/

theorem regsKept_setReg (s : State) (r : RegName) {i : Nat} (hi : i < 65536) (v : Word) : regsKept [r] s (setReg s r i v) :=
  fun _ _ hj hq => reg_setReg_other s v hi hj (fun h => hq (by simp [h.1]))

theorem mmioFrame_setReg (s : State) (r : RegName) {i : Nat} (hi : i < 65536) (v : Word) : mmioFrame [r] s (setReg s r i v) :=
  ⟨rfl, regsKept_setReg s r hi v⟩

theorem instKept_setReg (s : State) (r : RegName) {i : Nat} (hi : i < 65536) (v : Word) : instKept r i s (setReg s r i v) :=
  fun _ hj hne => reg_setReg_other s v hi hj (fun h => hne h.2)

/-! ## Plain writes -/

/-- The registers of one instance whose write lays its bits over their fields and starts nothing. -/
def plainRegs : List RegName :=
  [.devAstbase, .devHemupd, .devHostxlat, .pegRamp, .hbmRmsel, .collDline, .collPace, .rootCfgaddr, .errRp, .errMsix]

/-- The registers of one instance whose read returns their word and changes nothing but it. -/
def wordRegs : List RegName :=
  [.devBoot, .devAstbase, .devTlbstat, .devHostxlat, .pegSat, .hbmRmsel, .collDline, .collCtl, .seamStat, .powerShed, .errStat, .errInj, .perfCfg]

theorem reachesReg_of_mem (hr : r ∈ plainRegs ++ wordRegs) (ho : off / 8 * 8 = (regPlace r).1) : ReachesReg off r := by
  have hplace : ∀ q ∈ plainRegs ++ wordRegs, regAt (regPlace q).1 = some (q, 0) ∧ (regPlace q).1 < bar4Base ∧ isPegReg (regPlace q).1 = false
      ∧ ((regPlace q).1 < 0x8000 ∨ 0x9020 ≤ (regPlace q).1) ∧ ((regPlace q).1 < 0x11000 ∨ 0x12000 ≤ (regPlace q).1)
      ∧ ((regPlace q).1 < 0xB01000 ∨ 0xB02000 ≤ (regPlace q).1) := by decide +kernel
  obtain ⟨only, bar0, noPeg, noMsix, noBox, noFlash⟩ := hplace r hr
  exact ⟨ho, only, bar0, noPeg, noMsix, noBox, noFlash⟩

theorem plainRegs_fields (hr : r ∈ plainRegs) : ∀ f ∈ regFields r, f.plain = true := by
  revert r; decide

theorem regWrite_plainRegs (hr : r ∈ plainRegs) (v : Word) :
    regWrite s a off bytes r 0 v = plainWrite s a off r 0 (laidValue off bytes v) (halfMask off bytes) := by
  fin_cases hr <;> rfl

/-- Of the plain registers the translation base and the configuration address ignore a write of an agent that may not write, the others record it (R85, R383; log 92). -/
theorem writeRule_plainRegs (hr : r ∈ plainRegs) :
    writeRule s a r = if agentTrusted a then .allow else if r = .devAstbase ∨ r = .rootCfgaddr then .ignore else .record := by
  fin_cases hr <;> simp [writeRule, ignoreIf, allowIf]

theorem holdsFixed_plainRegs (hr : r ∈ plainRegs) (new : Word) : holdsFixed s r new = false := by
  fin_cases hr <;> rfl

theorem plainWrite_untrusted (hr : r ∈ plainRegs) (ha : agentTrusted a = false) (v mask : Word) :
    plainWrite s a off r 0 v mask = if r = .devAstbase ∨ r = .rootCfgaddr then s else accessError s a off := by
  by_cases hq : r = .devAstbase ∨ r = .rootCfgaddr
  · simp [plainWrite, writeRule_plainRegs hr, ha, hq]
  · simp [plainWrite, writeRule_plainRegs hr, ha, hq]

theorem plainWrite_trusted (hr : r ∈ plainRegs) (ha : agentTrusted a = true) (v mask : Word) :
    plainWrite s a off r 0 v mask = setReg s r 0 (regWriteWord r (reg s r) v mask) := by
  simp [plainWrite, writeRule_plainRegs hr, ha, holdsFixed_plainRegs hr]

/-- A plain write by an agent that may not write is ignored or recorded. -/
theorem exec_registerWrite_untrusted (ht : takes s a) (hw : wideAccess off bytes) (hr : r ∈ plainRegs) (ho : off / 8 * 8 = (regPlace r).1)
    (ha : agentTrusted a = false) (v : Word) :
    exec (.registerWrite a off bytes v) s = .next (if r = .devAstbase ∨ r = .rootCfgaddr then s else accessError s a off) := by
  rw [exec_registerWrite_reaches ht hw (reachesReg_of_mem (List.mem_append_left _ hr) ho), regWrite_plainRegs hr, plainWrite_untrusted hr ha]

/-- A plain write by an agent that may write changes the register's word alone. -/
theorem exec_registerWrite_trusted (ht : takes s a) (hw : wideAccess off bytes) (hr : r ∈ plainRegs) (ho : off / 8 * 8 = (regPlace r).1)
    (ha : agentTrusted a = true) (v : Word) :
    exec (.registerWrite a off bytes v) s = .next (setReg s r 0 (regWriteWord r (reg s r) (laidValue off bytes v) (halfMask off bytes))) := by
  rw [exec_registerWrite_reaches ht hw (reachesReg_of_mem (List.mem_append_left _ hr) ho), regWrite_plainRegs hr, plainWrite_trusted hr ha]

/-- The word that an access's write leaves: the bits of the RW fields under the access are the value's, the others stay (R7–R9). -/
theorem bit_regWriteWord_laid (hw : wideAccess off bytes) (hp : ∀ f ∈ regFields r, f.plain = true) (old v : Word) {k : Nat} (hk : k < 64) :
    bit (regWriteWord r old (laidValue off bytes v) (halfMask off bytes)) k
      = if 8 * (off % 8) ≤ k ∧ k < 8 * (off % 8) + 8 * bytes ∧ (∃ f ∈ regFields r, f.acc = .rw ∧ f.lo ≤ k ∧ k ≤ f.hi)
        then bit v (k - 8 * (off % 8)) else bit old k := by
  rw [bit_regWriteWord hp _ _ _ hk, bit_laidValue hw v hk, bit_halfMask hw hk]
  simp only [decide_eq_true_eq, and_assoc]
  split
  next h => simp [h.1, h.2.1]
  next => rfl

/-! ## Reads -/

theorem regRead_wordRegs (hr : r ∈ wordRegs) :
    regRead s a off bytes r 0
      = (halfOf off bytes (regReadWord r (reg s r)),
         if regReadClear r (reg s r) (halfMask off bytes) = reg s r then s else setReg s r 0 (regReadClear r (reg s r) (halfMask off bytes))) := by
  fin_cases hr <;> rfl

/-- A read of a register answers the half of its readable fields and clears the RC fields under the access (R7, R9, R10). -/
theorem exec_readClear_wordRegs (ht : takes s a) (hw : wideAccess off bytes) (hr : r ∈ wordRegs) (ho : off / 8 * 8 = (regPlace r).1) :
    ∃ n, exec (.readClear a off bytes) s = .next n
      ∧ n = { s with mmio := n.mmio, out := s.out ++ [.value a off (halfOf off bytes (regReadWord r (reg s r)))] }
      ∧ regsKept [r] s n ∧ instKept r 0 s n ∧ reg n r = regReadClear r (reg s r) (halfMask off bytes) := by
  refine ⟨_, exec_readClear_reaches ht hw (reachesReg_of_mem (List.mem_append_right _ hr) ho), ?_⟩
  rw [regRead_wordRegs hr]
  dsimp only
  split
  next hsame => exact ⟨rfl, fun _ _ _ _ => rfl, fun _ _ _ => rfl, hsame.symm⟩
  next =>
    exact ⟨rfl, regsKept_setReg s r (by decide) _, instKept_setReg s r (by decide) _, reg_setReg_same s r 0 _⟩

/-- The bits that a read answers. -/
theorem bit_readValue (hw : wideAccess off bytes) (r : RegName) (w : Word) {k : Nat} (hk : k < 64) :
    bit (halfOf off bytes (regReadWord r w)) k
      = (decide (k < 8 * bytes ∧ ∃ f ∈ regFields r, f.acc ≠ .wo ∧ f.lo ≤ 8 * (off % 8) + k ∧ 8 * (off % 8) + k ≤ f.hi) && bit w (8 * (off % 8) + k)) := by
  rw [bit_halfOf hw _ hk]
  by_cases hin : k < 8 * bytes
  · have hlt : 8 * (off % 8) + k < 64 := by obtain ⟨rfl, ho⟩ | ⟨rfl, ho⟩ | ⟨rfl, ho⟩ := wideAccess_cases hw <;> omega
    simp [hin, bit_regReadWord r w hlt]
  · simp [hin]

/-- The bits that a read leaves. -/
theorem bit_readLeaves (hw : wideAccess off bytes) (r : RegName) (w : Word) {k : Nat} (hk : k < 64) :
    bit (regReadClear r w (halfMask off bytes)) k
      = (!decide (8 * (off % 8) ≤ k ∧ k < 8 * (off % 8) + 8 * bytes ∧ ∃ f ∈ regFields r, f.acc = .rc ∧ f.lo ≤ k ∧ k ≤ f.hi) && bit w k) := by
  rw [bit_regReadClear r w _ hk, bit_halfMask hw hk]
  simp only [decide_eq_true_eq, and_assoc]

end Sys2Proof.Machine
end

section
/-! PROOFS. The counters' registers, their overflow and the deadlines (R468, R474–R476), and the statement that joins them with the register accesses. -/

namespace Sys2Proof.Machine

open Sys2Proof.Safety

/-! ## Writes of the counters' registers -/

theorem perfSel_lt (s : State) (a : Agent) : perfSel s a < 65536 := by
  have hb : selF s a .perfCellsel F.perfCellselBlock < 2 ^ 7 := Nat.mod_lt _ (by decide)
  have hc : selF s a .perfCellsel F.perfCellselCell < 2 ^ 3 := Nat.mod_lt _ (by decide)
  have hn : selF s a .perfCntsel F.perfCntselCnt < 2 ^ 3 := Nat.mod_lt _ (by decide)
  have hs := (cell s (perfCell s a)).site.isLt
  unfold perfSel perfKey
  unfold perfCell at hs ⊢
  omega

/-- A write of the selected counter as its level, its cell's site and its value decide (R474, R476). -/
theorem exec_perfCntWrite {s : State} {a : Agent} (h : takes s a) (v : Word) :
    exec (.perfCntWrite a v) s = .next (
      if agentAtLeast s a 1 = false then accessError s a 0xA00018
      else if cellRetired s (perfCell s a) = true then s
      else setReg s .perfCnt (perfSel s a) (regWriteWord .perfCnt (reg s .perfCnt (perfSel s a)) v allMask)) := by
  have hcmd : exec (.perfCntWrite a v) s = .next (mmioCmd s a 0xA00018 (fun s => perfWr s a .perfCnt 0xA00018 v allMask)) := rfl
  simp [hcmd, mmioCmd_of_takes h, perfWr]

theorem exec_freeze {s : State} {a : Agent} (h : takes s a) (v : Word) :
    exec (.freeze a v) s = .next (
      if agentAtLeast s a 1 = true then setReg s .perfCfg 0 (regWriteWord .perfCfg (reg s .perfCfg) v allMask) else accessError s a 0xA00020) := by
  have hcmd : exec (.freeze a v) s = .next (mmioCmd s a 0xA00020 (fun s => perfCfgWr s a v allMask)) := rfl
  rw [hcmd, mmioCmd_of_takes h, perfCfgWr]

theorem perfCnt_plain : ∀ f ∈ regFields .perfCnt, f.plain = true := by decide

theorem perfCfg_plain : ∀ f ∈ regFields .perfCfg, f.plain = true := by decide

theorem perfCntWrite_sets {s : State} {a : Agent} (h : takes s a) (v : Word) (ha : agentAtLeast s a 1 = true)
    (hc : cellRetired s (perfCell s a) = false) :
    ∃ n, exec (.perfCntWrite a v) s = .next n ∧ mmioFrame [.perfCnt] s n
      ∧ rf n .perfCnt F.perfCntCount (perfSel s a) = v.toNat % 2 ^ 48 ∧ instKept .perfCnt (perfSel s a) s n := by
  have hk := perfSel_lt s a
  refine ⟨_, by rw [exec_perfCntWrite h, ha, hc, if_neg (by decide), if_neg (by decide)], mmioFrame_setReg s _ hk _, ?_, instKept_setReg s _ hk _⟩
  rw [rf, reg_setReg_same, fget_regWriteWord perfCnt_plain _ v (by decide) rfl]
  simp [fget, bits, F.perfCntCount]

theorem freeze_sets {s : State} {a : Agent} (h : takes s a) (v : Word) (ha : agentAtLeast s a 1 = true) :
    ∃ n, exec (.freeze a v) s = .next n ∧ mmioFrame [.perfCfg] s n ∧ fieldsKept .perfCfg 0 [F.perfCfgFreeze, F.perfCfgMsixEn, F.perfCfgVec] s n
      ∧ ∀ f ∈ [F.perfCfgFreeze, F.perfCfgMsixEn, F.perfCfgVec], rf n .perfCfg f = fget v f := by
  refine ⟨_, by rw [exec_freeze h, if_pos ha], mmioFrame_setReg s _ (by decide) _, fun k hk hout => ?_, fun f hf => ?_⟩
  · rw [reg_setReg_same, bit_regWriteWord perfCfg_plain _ _ _ hk, if_neg]
    rintro ⟨-, f, hf, -, hlo, hhi⟩
    have := hout f hf
    omega
  · have hrw : ∀ g ∈ regFields .perfCfg, g.acc = .rw := by decide
    rw [rf, reg_setReg_same, fget_regWriteWord perfCfg_plain _ v hf (hrw f hf)]

/-! ## Deadlines (R468) -/

theorem exec_perfDeadlineWrite {s : State} {a : Agent} (h : takes s a) (v : Word) :
    exec (.perfDeadlineWrite a v) s = .next (deadlineWr s a v allMask) := by
  have hcmd : exec (.perfDeadlineWrite a v) s = .next (mmioCmd s a 0xA00038 (fun s => deadlineWr s a v allMask)) := rfl
  rw [hcmd, mmioCmd_of_takes h]

theorem exec_perfDeadlineWrite_thread {s : State} {t : Tid} (h : takes s (.thread t)) (ht : t.val < 6144) (v : Word) :
    exec (.perfDeadlineWrite (.thread t) v) s = .next (setThread s t { thread s t with deadline := v }) := by
  have hv : ((thread s t).deadline &&& ~~~allMask) ||| (v &&& allMask) = v := by
    simp only [allMask, BitVec.not_allOnes, BitVec.and_zero, BitVec.and_allOnes, BitVec.zero_or]
  simp only [exec_perfDeadlineWrite h, deadlineWr, ht, if_true, modThread, hv]

/-- The Mantle and the host have no deadline. -/
theorem exec_perfDeadlineWrite_trusted {s : State} {a : Agent} (h : takes s a) (ha : agentTrusted a = true) (v : Word) :
    exec (.perfDeadlineWrite a v) s = .next (accessError s a 0xA00038) := by
  rw [exec_perfDeadlineWrite h]
  cases a with
  | host => rfl
  | mantle c j => rfl
  | thread t =>
    have ht : ¬t.val < 6144 := by simp [agentTrusted, agentMantle] at ha; omega
    simp [deadlineWr, ht]

theorem wakeCell_eq (s : State) (c : Nat) :
    wakeCell s c = { s with cells := (wakeCell s c).cells, clk := { s.clk with starting := (wakeCell s c).clk.starting } } := by
  unfold wakeCell pllGo
  dsimp only
  split_ifs <;> rfl

theorem pllGo_cell (s : State) (r c : Nat) : cell (pllGo s r) c = cell s c := by
  unfold pllGo; split <;> rfl

/-- A wake event asks a cell that does not run to wake, and changes no other cell (R22). -/
theorem wakeCell_cell (s : State) (c d : Nat) :
    cell (wakeCell s c) d = if d = c ∧ (cell s d).power ≠ .run then { cell s d with wakeReq := true } else cell s d := by
  unfold wakeCell
  by_cases hrun : (cell s c).power = .run
  · rw [if_pos hrun, if_neg (by rintro ⟨rfl, h⟩; exact h hrun)]
  · have hpll : ∀ e, cell (if clocked s c = true then s else pllGo s (regionOf c)) e = cell s e := by
      intro e; split
      · rfl
      · exact pllGo_cell s _ e
    rw [if_neg hrun, cell_modCell]
    by_cases hd : d = c
    · subst hd; simp [hpll, hrun]
    · simp [hpll, hd]

/-- A posted interrupt is pending at its thread, whose cell wakes (R22, R70). -/
theorem postInt_interrupted (s : State) (t : Tid) (k : Nat) : interrupted s (postInt s t k) t k := by
  have hthread : ∀ u, thread (postInt s t k) u = thread (modThread s t (fun th => { th with pend := setBit th.pend k true })) u := by
    intro u; rw [postInt, wakeCell_eq]; rfl
  refine ⟨by rw [postInt, wakeCell_eq]; rfl, ?_, fun u hu => ?_, fun c => ?_⟩
  · rw [hthread, thread_modThread_same]
  · rw [hthread, thread_modThread, if_neg hu]
  · rw [postInt, wakeCell_cell]; rfl

/-- A deadline that is due disarms, and interrupt 12 is posted; one that is not stays (R468). -/
theorem exec_deadlineFire (s : State) (t : Tid) :
    exec (.deadlineFire t) s = .next (
      if (thread s t).deadline ≠ 0 ∧ (thread s t).deadline ≤ lcountOf s t then postInt (modThread s t (fun th => { th with deadline := 0 })) t 12 else s) := by
  have hcmd : exec (.deadlineFire t) s = execDeadlineFire t s := rfl
  simp [hcmd, execDeadlineFire]

theorem setBit_deadline (p : BitVec 16) : setBit p 12 true = p ||| 0x1000 := by
  have hbit : ∀ j, j < 16 → (0x1000#16).getLsbD j = decide (j = 12) := by decide
  apply BitVec.eq_of_getLsbD_eq
  intro j hj
  rw [setBit, getLsbD_setBits p _ (by decide) (by decide), BitVec.getLsbD_or]
  change _ = (p.getLsbD j || (0x1000#16).getLsbD j)
  rw [hbit j hj]
  by_cases h : j = 12
  · subst h; simp
  · rw [if_neg (by omega)]; simp [h]

/-- What a deadline that is due leaves (R468). -/
theorem deadlineFire_due {s : State} {t : Tid} (hd : (thread s t).deadline ≠ 0 ∧ (thread s t).deadline ≤ lcountOf s t) :
    ∃ n, exec (.deadlineFire t) s = .next n ∧ n = { s with threads := n.threads, cells := n.cells, clk := { s.clk with starting := n.clk.starting } }
      ∧ thread n t = { thread s t with deadline := 0, pend := (thread s t).pend ||| 0x1000 } ∧ (∀ u, u ≠ t → thread n u = thread s u)
      ∧ ∀ c, cell n c = if c = cellOf t ∧ (cell s c).power ≠ .run then { cell s c with wakeReq := true } else cell s c := by
  obtain ⟨hframe, hthread, hothers, hcells⟩ := postInt_interrupted (modThread s t (fun th => { th with deadline := 0 })) t 12
  refine ⟨_, by rw [exec_deadlineFire, if_pos hd], hframe, ?_, fun u hu => ?_, hcells⟩
  · rw [hthread, thread_modThread_same, setBit_deadline]
  · rw [hothers u hu, thread_modThread, if_neg hu]

/-! ## Overflow (R474) -/

/-- The greatest value of a counter. -/
def counterTop : Nat := 2 ^ 48 - 1

/-- The notice of a counter that has reached its greatest value: to the Mantle, and by a message where PERF_CFG asks for one (R474). -/
def counterNotice (s : State) (k : Nat) : State :=
  let s := emit s (.mantle "counter" (wd k))
  if rf s .perfCfg F.perfCfgMsixEn = 1 then msixPost s (rf s .perfCfg F.perfCfgVec) else s

theorem msixPost_out (s : State) (vec : Nat) : (msixPost s vec).out = s.out := by
  unfold msixPost; split_ifs <;> rfl

theorem msixPost_mmio (s : State) (vec : Nat) : (msixPost s vec).mmio = s.mmio := by
  unfold msixPost; split_ifs <;> rfl

theorem counterNotice_out (s : State) (k : Nat) : (counterNotice s k).out = s.out ++ [.mantle "counter" (wd k)] := by
  unfold counterNotice; dsimp only; split
  · exact msixPost_out _ _
  · rfl

theorem counterNotice_mmio (s : State) (k : Nat) : (counterNotice s k).mmio = s.mmio := by
  unfold counterNotice; dsimp only; split
  · exact msixPost_mmio _ _
  · rfl

/-- A counter at its greatest value stays there and sets OVF. -/
theorem perfBump_full {s : State} {c j : Nat} (n : Nat) (h : rf s .perfCnt F.perfCntCount (perfKey s c j) = counterTop) :
    perfBump s c j n = setRf s .perfEvt F.perfEvtOvf 1 (perfKey s c j) := by
  unfold perfBump; exact if_pos h

/-- The event that brings a counter to its greatest value sets OVF and, with INTEN, gives notice. -/
theorem perfBump_last {s : State} {c j k : Nat} (hkey : perfKey s c j = k) (hk : k < 65536) (h : rf s .perfCnt F.perfCntCount k + 1 = counterTop) :
    perfBump s c j 1
      = (let n := setRf (setRf s .perfCnt F.perfCntCount counterTop k) .perfEvt F.perfEvtOvf 1 k
         if rf s .perfEvt F.perfEvtInten k = 0 then n else counterNotice n k) := by
  subst hkey
  have hcnt : rf s .perfCnt F.perfCntCount (perfKey s c j) + 1 = 2 ^ 48 - 1 := h
  have hinten : rf (setRf s .perfCnt F.perfCntCount (2 ^ 48 - 1) (perfKey s c j)) .perfEvt F.perfEvtInten (perfKey s c j)
      = rf s .perfEvt F.perfEvtInten (perfKey s c j) := rf_setRf_away s _ _ _ hk hk (by simp)
  unfold perfBump
  dsimp only
  rw [if_neg (by omega), hcnt, min_self, if_neg (lt_irrefl _)]
  unfold rf at hinten
  rw [hinten]; rfl

/-- What a state reads whose words are those of s1 with OVF set at k, where s1 is s with its counter k at the greatest value. -/
theorem reads_of_overflow {s s1 n : State} {k : Nat} (hk : k < 65536) (hn : n.mmio = (setRf s1 .perfEvt F.perfEvtOvf 1 k).mmio)
    (htop : rf s1 .perfCnt F.perfCntCount k = counterTop) (hcnt : instKept .perfCnt k s s1) (hevt : ∀ i, i < 65536 → reg s1 .perfEvt i = reg s .perfEvt i) :
    rf n .perfCnt F.perfCntCount k = counterTop ∧ rf n .perfEvt F.perfEvtOvf k = 1
      ∧ ∀ i, i < 65536 → i ≠ k → reg n .perfCnt i = reg s .perfCnt i ∧ reg n .perfEvt i = reg s .perfEvt i := by
  have hreg : ∀ r i, reg n r i = reg (setRf s1 .perfEvt F.perfEvtOvf 1 k) r i := reg_of_mmio hn
  have hkeep : ∀ i, i < 65536 → reg n .perfCnt i = reg s1 .perfCnt i := fun i hi => by
    rw [hreg]; exact reg_setReg_other s1 _ hk hi (by simp)
  refine ⟨?_, ?_, fun i hi hne => ⟨?_, ?_⟩⟩
  · rw [rf, hkeep k hk]; exact htop
  · rw [rf, hreg]; exact rf_setRf_same s1 .perfEvt F.perfEvtOvf 1 k (by decide) (by decide)
  · rw [hkeep i hi]; exact hcnt i hi hne
  · rw [hreg, ← hevt i hi]; exact reg_setReg_other s1 _ hk hi (by simp [hne])

/-- What the next event leaves of a counter one below its greatest value or at it (R474). -/
theorem perfBump_overflow {s n : State} {c j k : Nat} (hkey : perfKey s c j = k) (hbump : perfBump s c j 1 = n) (hk : k < 65536)
    (h : counterTop - 1 ≤ rf s .perfCnt F.perfCntCount k) :
    (rf n .perfCnt F.perfCntCount k = counterTop ∧ rf n .perfEvt F.perfEvtOvf k = 1
      ∧ ∀ i, i < 65536 → i ≠ k → reg n .perfCnt i = reg s .perfCnt i ∧ reg n .perfEvt i = reg s .perfEvt i)
    ∧ (rf s .perfEvt F.perfEvtInten k = 1 → rf s .perfCnt F.perfCntCount k < counterTop → n.out = s.out ++ [.mantle "counter" (wd k)])
    ∧ (rf s .perfEvt F.perfEvtInten k = 0 ∨ rf s .perfCnt F.perfCntCount k = counterTop → n.out = s.out ∧ n.pba = s.pba ∧ n.msixDue = s.msixDue) := by
  have hlt : rf s .perfCnt F.perfCntCount k < 2 ^ 48 := Nat.mod_lt _ (by decide)
  by_cases hfull : rf s .perfCnt F.perfCntCount k = counterTop
  · have hn := perfBump_full (s := s) (c := c) (j := j) 1 (by rw [hkey]; exact hfull)
    rw [hkey, hbump] at hn
    subst hn
    exact ⟨reads_of_overflow hk rfl hfull (fun _ _ _ => rfl) (fun _ _ => rfl), fun _ hl => absurd hfull hl.ne, fun _ => ⟨rfl, rfl, rfl⟩⟩
  · have hn := perfBump_last hkey hk (by unfold counterTop at *; omega)
    rw [hbump] at hn
    have htop : rf (setRf s .perfCnt F.perfCntCount counterTop k) .perfCnt F.perfCntCount k = counterTop :=
      rf_setRf_same s .perfCnt F.perfCntCount counterTop k (by decide) (by decide)
    have hcnt : instKept .perfCnt k s (setRf s .perfCnt F.perfCntCount counterTop k) := instKept_setReg s _ hk _
    have hevt : ∀ i, i < 65536 → reg (setRf s .perfCnt F.perfCntCount counterTop k) .perfEvt i = reg s .perfEvt i :=
      fun i hi => reg_setReg_other s _ hk hi (by simp)
    by_cases hint : rf s .perfEvt F.perfEvtInten k = 0
    · replace hn := hn.trans (if_pos hint)
      subst hn
      exact ⟨reads_of_overflow hk rfl htop hcnt hevt, fun h1 => by omega, fun _ => ⟨rfl, rfl, rfl⟩⟩
    · replace hn := hn.trans (if_neg hint)
      subst hn
      exact ⟨reads_of_overflow hk (counterNotice_mmio _ k) htop hcnt hevt, fun _ _ => counterNotice_out _ k, fun h0 => absurd h0 (by tauto)⟩

theorem exec_counterOverflow (s : State) (c : Cid) (j : Fin 8) : exec (.counterOverflow c j) s = execCounterOverflow c j s := rfl

theorem exec_counterOverflow_gated {s : State} {c : Cid} (j : Fin 8) (h : (cell s c.val).power ≠ .run) : exec (.counterOverflow c j) s = .next s := by
  simp [exec_counterOverflow, execCounterOverflow, h]

theorem exec_counterOverflow_counts {s : State} {c : Cid} {j : Fin 8} (hc : c.val < 768) (hrun : (cell s c.val).power = .run)
    (hen : rf s .perfEvt F.perfEvtEn (perfKey s c.val j.val) = 1) (hev : rf s .perfEvt F.perfEvtEvent (perfKey s c.val j.val) ≠ 0)
    (hfz : rf s .perfCfg F.perfCfgFreeze = 0) (htop : counterTop - 1 ≤ rf s .perfCnt F.perfCntCount (perfKey s c.val j.val)) :
    exec (.counterOverflow c j) s = .next (perfBump s c.val j.val 1) := by
  have hm : isMantle c.val = false := by simp [isMantle, hc]
  have hge : 2 ^ 48 - 2 ≤ rf s .perfCnt F.perfCntCount (perfKey s c.val j.val) := htop
  rw [rf] at hen hev
  rw [exec_counterOverflow, execCounterOverflow]
  rw [if_pos (by simp [hm, hrun, hen, hev, hfz]; omega)]

/-! ## The statement -/

/-- Settles O42. A register access falls under the lemma of its width, register and agent; an agent that may not write is recorded, but at the translation base and the configuration address ignored (R85, log 92). The counters' writes, the freeze, the deadlines and the overflow have a lemma each. -/
theorem registersAndCounters : Obligations.RegistersAndCounters := by
  unfold Obligations.RegistersAndCounters
  refine ⟨fun s a off bytes v => ⟨fun hw hm hb hp => exec_not_wide hm hw hb hp v, fun r hr ht hw ho => ⟨?_, fun ha => ?_⟩, fun r hr ht hw ho => ?_⟩,
    fun s a v ht => ⟨fun ha => ⟨?_, ?_⟩, fun ha => ⟨fun hret => ?_, fun hret => perfCntWrite_sets ht v ha hret, freeze_sets ht v ha⟩, fun t hat hcell => ?_,
      fun ha => exec_perfDeadlineWrite_trusted ht ha v⟩,
    fun s t => ⟨fun hnot => ?_, deadlineFire_due⟩,
    fun s c j hc => ⟨exec_counterOverflow_gated j, fun hrun hen hev hfz htop => ?_⟩⟩
  · exact fun ha => exec_registerWrite_untrusted ht hw hr ho ha v
  · refine ⟨_, exec_registerWrite_trusted ht hw hr ho ha v, mmioFrame_setReg s r (by decide) _, instKept_setReg s r (by decide) _, fun k hk => ?_⟩
    rw [reg_setReg_same]
    exact bit_regWriteWord_laid hw (plainRegs_fields hr) _ v hk
  · obtain ⟨n, hexec, hn, hregs, hinst, hword⟩ := exec_readClear_wordRegs ht hw hr ho
    refine ⟨n, _, hexec, hn, hregs, hinst, fun k hk => ⟨bit_readValue hw r _ hk, ?_⟩⟩
    rw [hword]
    exact bit_readLeaves hw r _ hk
  · rw [exec_perfCntWrite ht, if_pos ha]; rfl
  · rw [exec_freeze ht, if_neg (ne_true_of_eq_false ha)]; rfl
  · rw [exec_perfCntWrite ht, if_neg (ne_false_of_eq_true ha), if_pos hret]
  · subst hat
    exact exec_perfDeadlineWrite_thread ht hcell v
  · rw [exec_deadlineFire, if_neg hnot]
  · obtain ⟨hframe, hregs⟩ := perfBump_counterFrame s 1 hc j.isLt
    obtain ⟨⟨hcnt, hovf, hothers⟩, hnotice, hquiet⟩ := perfBump_overflow rfl rfl (perfKey_lt s hc j.isLt) htop
    exact ⟨_, exec_counterOverflow_counts hc hrun hen hev hfz htop, hframe, hregs, hcnt, hovf, hothers, hnotice, hquiet⟩

end Sys2Proof.Machine
end

section
/-! PROOFS. Why a halted thread does not always go on as it stands when it is resumed (R30, R44, R66): the statement of the debug port fails for a thread that has still to take a load's poison fault. -/

namespace Sys2Proof.Machine

open Sys2Proof.Safety

/-- A resumed thread first takes the poison fault of a load that it has met, if it can (R30, R33, R44). -/
theorem exec_haltedThreadResume (s : State) (t : Tid) :
    exec (.haltedThreadResume t) s
      = .next (if (thread s t).st = .halted then takeLate (modThread s t (fun th => { th with st := .ready })) t else s) := rfl

/-- Thread 0 of cell 0.0.0, halted with FM set at S and at M, as a double fault leaves it (R66); a load that it had outstanding has brought poison since (R44). -/
def haltedOnPoison : State :=
  setThread State.reset 0 { st := .halted, sr := [(lvlReg 1 1, 0x10), (lvlReg 2 1, 0x10)], late := some { seq := 0, pc := 0x1000, va := 0x2000 } }

/-- Resumed, it takes the poison fault where it can enter no level, which is a double fault again (R66, R68). -/
theorem haltedOnPoison_halts_again :
    (thread (takeLate (modThread haltedOnPoison 0 (fun th => { th with st := .ready })) 0) 0).st = .halted := by decide

/-- Refutes O48: a halted thread that has still to take a load's poison fault takes it when it is resumed, and here double-faults, where the statement has it ready. -/
theorem not_debugAndStops : ¬ Obligations.DebugAndStops := by
  unfold Obligations.DebugAndStops
  rintro ⟨-, hthreads⟩
  obtain ⟨hresumed, -⟩ := hthreads haltedOnPoison 0
  have hhalted : (thread haltedOnPoison 0).st = .halted := by decide
  have hnext := hresumed hhalted
  rw [exec_haltedThreadResume, if_pos hhalted] at hnext
  have hst := congrArg (fun n => (thread n 0).st) (Host.Outcome.next.inj hnext)
  simp only [haltedOnPoison_halts_again, thread_setThread_same] at hst
  exact nomatch hst

end Sys2Proof.Machine
end

section
/-! PROOFS. The power states of a cell, and the updates that it applies when it runs again (R21, R22, R94). -/

namespace Sys2Proof.Machine

open Sys2Proof.Safety

/-! ## Power states (R21) -/

section
variable {s : State} {c : Cid}

theorem exec_clockGate_idle (hc : c.val < 768) (hrun : (cell s c.val).power = .run) (hidle : cellIdle s c.val = true) :
    exec (.clockGate c) s = .next (setCell s c.val { cell s c.val with power := .gated }) := by
  have hcmd : exec (.clockGate c) s = execClockGate c s := rfl
  have hm : isMantle c.val = false := by simp [isMantle, hc]
  rw [hcmd, execClockGate, if_pos (by simp [hm, hrun, hidle])]; rfl

theorem exec_powerGate_gated (hp : (cell s c.val).power = .gated) (hw : (cell s c.val).wakeReq = false) :
    exec (.powerGate c) s = .next (setCell s c.val { cell s c.val with power := .entering }) := by
  have hcmd : exec (.powerGate c) s = execPowerGate c s := rfl
  rw [hcmd, execPowerGate, if_pos (by simp [hp, hw])]; rfl

/-- The state that the opened power switch leaves: a flash invalidation, then the rest that is lost (R21, R98, R228). -/
def switchedOff (s : State) (c : Nat) : State :=
  modCell (flash s c) c (fun x => tlbFlush { x with power := .off, icache := [], opcache := [], capo := none, harp := {}, streams := [] })

theorem exec_powerSwitchOpen_entering (hp : (cell s c.val).power = .entering) (hw : (cell s c.val).wakeReq = false) :
    exec (.powerSwitchOpen c) s = .next (switchedOff s c.val) := by
  have hcmd : exec (.powerSwitchOpen c) s = execPowerSwitchOpen c s := rfl
  rw [hcmd, execPowerSwitchOpen, if_pos (by simp [hp, hw])]; rfl

theorem exec_cellWake_off (hw : (cell s c.val).wakeReq = true) (hp : (cell s c.val).power = .off) :
    exec (.cellWake c) s = .next (setCell s c.val { cell s c.val with power := .waking }) := by
  have hcmd : exec (.cellWake c) s = execCellWake c s := rfl
  rw [hcmd, execCellWake, if_neg (by simp [hw]), hp]; rfl

/-- A wake before the switch has opened lets the cell run again (R22). -/
theorem exec_cellWake_on (hw : (cell s c.val).wakeReq = true)
    (hp : (cell s c.val).power = .gated ∨ (cell s c.val).power = .entering ∨ (cell s c.val).power = .run) :
    exec (.cellWake c) s = .next (runAgain s c.val) := by
  have hcmd : exec (.cellWake c) s = execCellWake c s := rfl
  rw [hcmd, execCellWake, if_neg (by simp [hw])]
  rcases hp with hp | hp | hp <;> rw [hp]

theorem exec_cellPowered_waking (hp : (cell s c.val).power = .waking) : exec (.cellPowered c) s = .next (runAgain s c.val) := by
  have hcmd : exec (.cellPowered c) s = execCellPowered c s := rfl
  rw [hcmd, execCellPowered, if_pos hp]

end

/-! ## The power switch (R21, R98) -/

section
variable (s : State) (c : Nat)

theorem cell_switchedOff : cell (switchedOff s c) c =
    tlbFlush { cell (flash s c) c with power := .off, icache := [], opcache := [], capo := none, harp := {}, streams := [] } := by
  rw [switchedOff, cell_modCell_same]

theorem switchedOff_frame :
    switchedOff s c = { s with cells := (switchedOff s c).cells, mmio := (switchedOff s c).mmio, out := (switchedOff s c).out, pba := (switchedOff s c).pba, msixDue := (switchedOff s c).msixDue }
      ∧ (∀ d, d ≠ c → cell (switchedOff s c) d = cell s d) ∧ regsKept [.perfCnt, .perfEvt] s (switchedOff s c) := by
  obtain ⟨hframe, hothers, -, hregs⟩ := flash_keeps s c
  refine ⟨?_, fun d hd => ?_, hregs⟩
  · have h : switchedOff s c = { flash s c with cells := (switchedOff s c).cells } := rfl
    rw [h, hframe]
  · rw [switchedOff, cell_modCell, if_neg hd, hothers d hd]

/-- Where no line carries the mark P, no counter counts and the cell alone changes (R238). -/
theorem switchedOff_unmarked (h : markedLines (cell s c) = []) : cellFrame c s (switchedOff s c) := by
  refine ⟨?_, (switchedOff_frame s c).2.1⟩
  have hflash : flash s c = modCell s c (fun y => { y with l1 := [], victim := [], mshrs := y.mshrs.map (fun m => { m with install := false }) }) := by
    rw [flash, h]; rfl
  rw [switchedOff, hflash]; rfl

/-- What the cell loses with its power, and what it keeps (R21, R98, R228). -/
theorem switchedOff_loses :
    let x := cell s c
    let y := cell (switchedOff s c) c
    y.power = .off ∧ y.icache = [] ∧ y.l1 = [] ∧ y.victim = [] ∧ y.opcache = [] ∧ y.capo = none ∧ y.harp = {} ∧ (∀ m ∈ y.mshrs, m.install = false)
      ∧ y.tiles = x.tiles ∧ y.tattr = x.tattr ∧ y.tpoison = x.tpoison ∧ y.updates = x.updates ∧ y.epoch = x.epoch ∧ y.site = x.site := by
  obtain ⟨hl1, hvictim, hmshrs⟩ := flash_cell s c
  obtain ⟨-, -, hcell, -⟩ := flash_keeps s c
  dsimp only
  rw [cell_switchedOff]
  refine ⟨rfl, rfl, hl1, hvictim, rfl, rfl, rfl, fun m hm => ?_, ?_⟩
  · replace hm : m ∈ (cell (flash s c) c).mshrs := hm
    rw [hmshrs, List.mem_map] at hm
    obtain ⟨_, -, rfl⟩ := hm
    rfl
  · rw [hcell]; exact ⟨rfl, rfl, rfl, rfl, rfl, rfl⟩

end

/-! ## The updates of the hem (R94) -/

/-- No resolved instruction in a thread's queues has still work to do. -/
def unitsDone (s : State) (t : Tid) : Prop := ∀ e ∈ (thread s t).vq ++ (thread s t).tq, e.runs = false

/-- Between s and n core c kept its power state, its wake event and its updates, and no queue of a thread grew. -/
def powerKept (c : Nat) (s n : State) : Prop :=
  (cell n c).power = (cell s c).power ∧ (cell n c).wakeReq = (cell s c).wakeReq ∧ (cell n c).updates = (cell s c).updates
    ∧ ∀ t, ∀ e ∈ (thread n t).vq ++ (thread n t).tq, e ∈ (thread s t).vq ++ (thread s t).tq

theorem powerKept.refl (c : Nat) (s : State) : powerKept c s s := ⟨rfl, rfl, rfl, fun _ _ h => h⟩

theorem powerKept.trans {c : Nat} {a b d : State} (h : powerKept c a b) (k : powerKept c b d) : powerKept c a d := by
  obtain ⟨hp, hw, hu, hq⟩ := h
  obtain ⟨kp, kw, ku, kq⟩ := k
  exact ⟨kp.trans hp, kw.trans hw, ku.trans hu, fun t e he => hq t e (kq t e he)⟩

theorem powerKept.unitsDone {c : Nat} {s n : State} (h : powerKept c s n) {t : Tid} (ht : unitsDone s t) : Machine.unitsDone n t :=
  fun e he => ht e (h.2.2.2 t e he)

theorem modCell_powerKept (s : State) (c d : Nat) (f : CellS → CellS)
    (h : ∀ x, (f x).power = x.power ∧ (f x).wakeReq = x.wakeReq ∧ (f x).updates = x.updates) : powerKept c s (modCell s d f) := by
  have hcell : cell (modCell s d f) c = if c = d then f (cell s c) else cell s c := by
    rw [cell_modCell]; exact ite_congr rfl (fun he => by rw [he]) (fun _ => rfl)
  unfold powerKept
  rw [hcell]
  split
  · obtain ⟨hp, hw, hu⟩ := h (cell s c); exact ⟨hp, hw, hu, fun _ _ he => he⟩
  · exact ⟨rfl, rfl, rfl, fun _ _ he => he⟩

theorem modThread_powerKept (s : State) (c : Nat) (t : Tid) (f : Thread → Thread)
    (h : ∀ e ∈ (f (thread s t)).vq ++ (f (thread s t)).tq, e ∈ (thread s t).vq ++ (thread s t).tq) : powerKept c s (modThread s t f) := by
  refine ⟨rfl, rfl, rfl, fun u e he => ?_⟩
  rw [thread_modThread] at he
  split at he
  next hu => rw [hu]; exact h e he
  next => exact he

theorem finishUnits_done {s : State} {t : Tid} (h : unitsDone s t) : finishUnits s t = s := by
  have hnone : ((thread s t).vq ++ (thread s t).tq).any (fun e => e.runs) = false := by
    rw [List.any_eq_false]; intro e he; simp [h e he]
  simp only [finishUnits, hnone, Bool.not_false, if_true]

theorem leaveWaves_powerKept (s : State) (c : Nat) (t : Tid) : powerKept c s (leaveWaves s t) := ⟨rfl, rfl, rfl, fun _ _ h => h⟩

theorem capoHeld_powerKept (s : State) (c d : Nat) : powerKept c s (capoHeld s d) := by
  unfold capoHeld
  split
  · split
    · exact .refl c s
    · exact modCell_powerKept s c d _ (fun _ => ⟨rfl, rfl, rfl⟩)
  · exact .refl c s

theorem stopThread_powerKept (s : State) (c : Nat) (t : Tid) : powerKept c s (stopThread s t) := by
  unfold stopThread
  refine .trans ?_ (capoHeld_powerKept _ c _)
  refine .trans ?_ (modCell_powerKept _ c _ _ (fun _ => ⟨rfl, rfl, rfl⟩))
  exact (leaveWaves_powerKept s c t).trans (modThread_powerKept _ c t _ (fun _ he => absurd he (by simp)))

theorem discardThread_powerKept {s : State} (c : Nat) {t : Tid} (h : unitsDone s t) : powerKept c s (discardThread s t) := by
  rw [discardThread, finishUnits_done h]
  exact (stopThread_powerKept s c t).trans (modCell_powerKept _ c _ _ (fun _ => ⟨rfl, rfl, rfl⟩))

theorem ordinaryThread_powerKept (s : State) (c : Nat) (t : Tid) : powerKept c s (ordinaryThread s t) := by
  unfold ordinaryThread
  refine .trans ?_ (modThread_powerKept _ c t _ (fun _ he => he))
  exact modCell_powerKept s c _ _ (fun _ => ⟨rfl, rfl, rfl⟩)

/-- The end of an update at a thread (R94, R300, R301): a discard stops it, a commit makes it ordinary, where the update is its own. -/
def updateThread (u : HemUpdate) (s : State) (t : Tid) : State :=
  if u.discard then (if isAborted s t then discardThread s t else s)
  else if (thread s t).spec = some u.step then ordinaryThread s t else s

theorem updateThread_powerKept (u : HemUpdate) {s : State} (c : Nat) {t : Tid} (h : unitsDone s t) : powerKept c s (updateThread u s t) := by
  unfold updateThread
  split_ifs
  · exact discardThread_powerKept c h
  · exact .refl c s
  · exact ordinaryThread_powerKept s c t
  · exact .refl c s

theorem foldl_updateThread_powerKept (u : HemUpdate) (c : Nat) (ts : List Tid) (s : State) (h : ∀ t ∈ ts, unitsDone s t) :
    powerKept c s (ts.foldl (updateThread u) s) := by
  induction ts generalizing s with
  | nil => exact .refl c s
  | cons t ts ih =>
    have hhead := updateThread_powerKept u c (h t (List.mem_cons_self ..))
    exact hhead.trans (ih _ (fun v hv => hhead.unitsDone (h v (List.mem_cons_of_mem t hv))))

/-- Between s and n core c went on with its updates: as `powerKept`, the updates left being those given. -/
def updatesLeft (c : Nat) (us : List HemUpdate) (s n : State) : Prop :=
  (cell n c).power = (cell s c).power ∧ (cell n c).wakeReq = (cell s c).wakeReq ∧ (cell n c).updates = us
    ∧ ∀ t, ∀ e ∈ (thread n t).vq ++ (thread n t).tq, e ∈ (thread s t).vq ++ (thread s t).tq

theorem applyUpdateTo_left (s : State) (c : Nat) (u : HemUpdate) : updatesLeft c ((cell s c).updates.drop 1) s (applyUpdateTo s c u) := by
  have hflash := flash_keeps s c
  have hcell := hflash.2.2.1
  unfold updatesLeft applyUpdateTo
  rw [cell_modCell_same]
  dsimp only
  rw [hcell]
  refine ⟨rfl, rfl, rfl, fun t e he => ?_⟩
  rw [thread_modCell, hflash.thread] at he
  exact he

/-- An update applied leaves the younger ones to apply (R94). -/
theorem applyUpdate_left (s : State) (c : Nat) (h : ∀ t ∈ tidsOf c, unitsDone s t) : updatesLeft c ((cell s c).updates.drop 1) s (applyUpdate s c) := by
  unfold applyUpdate
  split
  next hnil => rw [hnil]; exact ⟨rfl, rfl, hnil, fun _ _ he => he⟩
  next u us _ =>
    obtain ⟨hp, hw, hu, hq⟩ := applyUpdateTo_left s c u
    obtain ⟨kp, kw, ku, kq⟩ := foldl_updateThread_powerKept u c (tidsOf c) (applyUpdateTo s c u) (fun t ht e he => h t ht e (hq t e he))
    exact ⟨kp.trans hp, kw.trans hw, ku.trans hu, fun t e he => hq t e (kq t e he)⟩

theorem applyUpdates_left (c : Nat) (k : Nat) (s : State) (h : ∀ t ∈ tidsOf c, unitsDone s t) :
    updatesLeft c ((cell s c).updates.drop k) s ((List.range k).foldl (fun s _ => applyUpdate s c) s) := by
  induction k with
  | zero => exact ⟨rfl, rfl, rfl, fun _ _ he => he⟩
  | succ k ih =>
    rw [List.range_succ, List.foldl_append]
    set q := (List.range k).foldl (fun s _ => applyUpdate s c) s
    obtain ⟨hp, hw, hu, hq⟩ := ih
    obtain ⟨kp, kw, ku, kq⟩ := applyUpdate_left q c (fun t ht e he => h t ht e (hq t e he))
    refine ⟨kp.trans hp, kw.trans hw, ku.trans ?_, fun t e he => hq t e (kq t e he)⟩
    rw [hu, List.drop_drop]

/-- A cell that runs again has applied every update that waited, and no wake event is pending (R22, R94). -/
theorem runAgain_runs (s : State) (c : Nat) (h : (cell s c).updates = [] ∨ ∀ t ∈ tidsOf c, unitsDone s t) :
    (cell (runAgain s c) c).power = .run ∧ (cell (runAgain s c) c).wakeReq = false ∧ (cell (runAgain s c) c).updates = []
      ∧ ((cell s c).updates = [] → runAgain s c = setCell s c { cell s c with power := .run, wakeReq := false }) := by
  set q := modCell s c (fun x => { x with power := .run, wakeReq := false }) with hq
  have hcell : cell q c = { cell s c with power := .run, wakeReq := false } := by rw [hq, cell_modCell_same]
  have hrun : runAgain s c = (List.range (cell s c).updates.length).foldl (fun s _ => applyUpdate s c) q := by
    rw [runAgain, applyAll, ← hq, hcell]
  have hnone : (cell s c).updates = [] → runAgain s c = q := fun hu => by rw [hrun, hu]; rfl
  rcases h with hu | hdone
  · rw [hnone hu, hcell]; exact ⟨rfl, rfl, hu, fun _ => rfl⟩
  · obtain ⟨hp, hw, hu, -⟩ := applyUpdates_left c (cell s c).updates.length q hdone
    rw [← hrun] at hp hw hu
    refine ⟨hp.trans (by rw [hcell]), hw.trans (by rw [hcell]), hu.trans ?_, hnone⟩
    rw [hcell]; exact List.drop_length

end Sys2Proof.Machine
end

section
/-! PROOFS. The power states of a cell and the PLLs of the regions (R18, R21–R23, R29, R94). -/

namespace Sys2Proof.Machine

open Sys2Proof.Safety

/-! ## The bits of DEV_CLK (R23, R29) -/

theorem testBit_withBit {v : Nat} {r : Nat} (hr : r < 12) (b : Bool) {k : Nat} (hk : k < 12) :
    (if b then v ||| (1 <<< r) else v &&& (0xFFF - (1 <<< r))).testBit k = if k = r then b else v.testBit k := by
  have hone : (1 <<< r).testBit k = decide (k = r) := by
    rw [Nat.one_shiftLeft, Nat.testBit_two_pow]; exact decide_eq_decide.mpr eq_comm
  have hmask : ∀ i < 12, ∀ j < 12, (0xFFF - (1 <<< i)).testBit j = decide (j ≠ i) := by decide
  cases b
  · rw [if_neg (by decide), Nat.testBit_and, hmask r hr k hk]
    by_cases h : k = r <;> simp [h]
  · rw [if_pos rfl, Nat.testBit_or, hone]
    by_cases h : k = r <;> simp [h]

/-- A bit of the register after one of a field was set: that one took its value, the others stay. -/
theorem bit_setClkBit (s : State) {f : Fld} (hf : f ∈ regFields .devClk) {r : Nat} (hr : r < 12) (b : Bool) (j : Nat) :
    bit (reg (setClkBit s f r b) .devClk) j = if j = f.lo + r then b else bit (reg s .devClk) j := by
  have hwidth : ∀ g ∈ regFields .devClk, g.hi = g.lo + 11 ∧ g.lo + 11 < 64 := by decide
  obtain ⟨hhi, hlt⟩ := hwidth f hf
  simp only [setClkBit, setRf, reg_setReg_same, fput, bit]
  rw [getLsbD_setBits _ _ (by omega) (by omega)]
  by_cases hj : f.lo ≤ j ∧ j ≤ f.hi
  · rw [if_pos hj, testBit_withBit hr b (by omega), rf, fget, testBit_bits]
    by_cases hjr : j = f.lo + r
    · rw [if_pos (by omega), if_pos hjr]
    · rw [if_neg (by omega), if_neg hjr, Nat.add_sub_cancel' hj.1, decide_eq_true (by omega), Bool.true_and]
  · rw [if_neg hj, if_neg (by omega)]

theorem clkBit_eq (s : State) {f : Fld} (hf : f ∈ regFields .devClk) {r : Nat} (hr : r < 12) : clkBit s f r = bit (reg s .devClk) (f.lo + r) := by
  have hwidth : ∀ g ∈ regFields .devClk, g.hi = g.lo + 11 := by decide
  rw [clkBit, rf, fget, testBit_bits, hwidth f hf, decide_eq_true (by omega), Bool.true_and, bit]

theorem clkBit_setClkBit (s : State) {f g : Fld} (hf : f ∈ regFields .devClk) (hg : g ∈ regFields .devClk) {r : Nat} (hr : r < 12) (b : Bool) :
    clkBit (setClkBit s f r b) g r = if g = f then b else clkBit s g r := by
  have hapart : ∀ x ∈ regFields .devClk, ∀ y ∈ regFields .devClk, x.lo = y.lo → x = y := by decide
  rw [clkBit_eq _ hg hr, clkBit_eq _ hg hr, bit_setClkBit s hf hr]
  exact if_congr ⟨fun h => hapart g hg f hf (by omega), fun h => by rw [h]⟩ rfl rfl

/-! ## What a step of a PLL changes (R18, R23) -/

/-- Between s and n the clocks have changed in region r's bits of the fields named and in the two lists alone, besides an error note. -/
def clkStep (r : Nat) (fs : List Fld) (starting switching : List Nat) (s n : State) : Prop :=
  n = { s with mmio := n.mmio, err := n.err, clk := { starting := starting, switching := switching } } ∧ regsKept [.devClk] s n
    ∧ fieldsKept .devClk 0 (fs.map (fun f => { f with hi := f.lo + r, lo := f.lo + r })) s n

theorem clkStep_lists (s : State) (r : Nat) (starting switching : List Nat) :
    clkStep r [] starting switching s { s with clk := { starting := starting, switching := switching } } :=
  ⟨rfl, regsKept_refl _ s, fun _ _ _ => rfl⟩

theorem clkStep.setBit {r : Nat} {fs : List Fld} {starting switching : List Nat} {s n : State} (h : clkStep r fs starting switching s n)
    (hr : r < 12) {f : Fld} (hf : f ∈ regFields .devClk) (b : Bool) :
    clkStep r (fs ++ [f]) starting switching s (setClkBit n f r b) := by
  obtain ⟨hframe, hregs, hbits⟩ := h
  refine ⟨by rw [hframe]; rfl, regsKept_trans hregs (regsKept_setReg n .devClk (by decide) _), fun j hj hout => ?_⟩
  simp only [List.map_append, List.map_cons, List.map_nil, List.mem_append, List.mem_singleton] at hout
  have hne : j ≠ f.lo + r := by have hlast := hout _ (.inr rfl); dsimp only at hlast; omega
  rw [bit_setClkBit n hf hr, if_neg hne]
  exact hbits j hj (fun g hg => hout g (.inl hg))

theorem clkStep.report {r : Nat} {fs : List Fld} {starting switching : List Nat} {s n : State} (h : clkStep r fs starting switching s n) (e : ErrRec) :
    clkStep r fs starting switching s (Machine.report n e) :=
  ⟨by rw [h.1]; rfl, h.2.1, h.2.2⟩

/-! ## The PLL's commands -/

theorem devClkRunning_field : F.devClkRunning ∈ regFields .devClk := by decide
theorem devClkStopped_field : F.devClkStopped ∈ regFields .devClk := by decide
theorem devClkSparePll_field : F.devClkSparePll ∈ regFields .devClk := by decide

theorem pllGo_idle {s : State} {r : Nat} (hstart : r ∉ s.clk.starting) (hswitch : r ∉ s.clk.switching) (hrun : clkBit s F.devClkRunning r = false)
    (hstop : clkBit s F.devClkStopped r = false) : pllGo s r = { s with clk := { s.clk with starting := r :: s.clk.starting } } := by
  simp [pllGo, hstart, hswitch, hrun, hstop]

/-- Which PLLs start after one was told to: no other joins, and that one does unless it runs, switches or is stopped for good (R23). -/
theorem mem_pllGo (s : State) (r k : Nat) :
    k ∈ (pllGo s r).clk.starting ↔ k ∈ s.clk.starting
      ∨ k = r ∧ clkBit s F.devClkRunning k = false ∧ clkBit s F.devClkStopped k = false ∧ k ∉ s.clk.switching := by
  unfold pllGo
  split
  next h =>
    simp only [Bool.or_eq_true, List.contains_iff_mem] at h
    constructor
    · exact .inl
    · rintro (h' | ⟨rfl, hrun, hstop, hswitch⟩)
      · exact h'
      · simp_all
  next h =>
    simp only [Bool.or_eq_true, List.contains_iff_mem, not_or, Bool.not_eq_true] at h
    obtain ⟨⟨⟨hrun, hstop⟩, -⟩, hswitch⟩ := h
    simp only [List.mem_cons]
    constructor
    · rintro (rfl | h')
      · exact .inr ⟨rfl, hrun, hstop, hswitch⟩
      · exact .inl h'
    · rintro (h' | ⟨rfl, -⟩)
      · exact .inr h'
      · exact .inl rfl

/-- The second loss of a region's PLL stops the region (R18). -/
theorem regionStop_stops (s : State) {r : Nat} (hr : r < 12) :
    clkStep r [F.devClkRunning, F.devClkStopped] (without r s.clk.starting) (without r s.clk.switching) s (regionStop s r)
      ∧ clkBit (regionStop s r) F.devClkRunning r = false ∧ clkBit (regionStop s r) F.devClkStopped r = true
      ∧ noted s (regionStop s r) (mkErr 0x39 0xFF r 0) := by
  refine ⟨(((clkStep_lists s r _ _).setBit hr devClkRunning_field false).setBit hr devClkStopped_field true).report _, ?_, ?_, rfl⟩
  · exact (clkBit_setClkBit _ devClkStopped_field devClkRunning_field hr true).trans
      ((if_neg (by decide)).trans ((clkBit_setClkBit _ devClkRunning_field devClkRunning_field hr false).trans (if_pos rfl)))
  · exact (clkBit_setClkBit _ devClkStopped_field devClkStopped_field hr true).trans (if_pos rfl)

section
variable {s : State} {r : Fin 12}

theorem exec_pllStart_idle (hboot : rf s .devBoot F.devBootImage = 1) (hstart : r.val ∉ s.clk.starting) (hswitch : r.val ∉ s.clk.switching)
    (hrun : clkBit s F.devClkRunning r.val = false) (hstop : clkBit s F.devClkStopped r.val = false) :
    exec (.pllStart r) s = .next { s with clk := { s.clk with starting := r.val :: s.clk.starting } } := by
  have hcmd : exec (.pllStart r) s = execPllStart r s := rfl
  rw [hcmd, execPllStart, if_neg (by rw [hboot]; decide), pllGo_idle hstart hswitch hrun hstop]

theorem pllLock_runs (hboot : rf s .devBoot F.devBootImage = 1) (hstart : r.val ∈ s.clk.starting) :
    ∃ n, exec (.pllLock r) s = .next n ∧ clkStep r.val [F.devClkRunning] (without r.val s.clk.starting) s.clk.switching s n
      ∧ n.err = s.err ∧ clkBit n F.devClkRunning r.val = true := by
  have hcmd : exec (.pllLock r) s = execPllLock r s := rfl
  refine ⟨_, by rw [hcmd, execPllLock, if_pos (by simp [hboot, hstart])], (clkStep_lists s r.val _ _).setBit r.isLt devClkRunning_field true, rfl, ?_⟩
  rw [clkBit_setClkBit _ devClkRunning_field devClkRunning_field r.isLt, if_pos rfl]

/-- A PLL that nothing needs stops (R23). -/
theorem pllIdleStop_stops (hrun : clkBit s F.devClkRunning r.val = true) (hpin : clkBit s F.devClkPin r.val = false)
    (hcells : ∀ i, i < 64 → cellRetired s (64 * r.val + i) = true ∨ (cell s (64 * r.val + i)).power = .off)
    (hdma : ∀ ch ∈ chansOf (3 + r.val), rf s .dmaChctl F.dmaChctlEn ch = 0) (hidle : crossbarIdle s r.val = true) :
    ∃ n, exec (.pllIdleStop r) s = .next n ∧ clkStep r.val [F.devClkRunning] s.clk.starting s.clk.switching s n
      ∧ n.err = s.err ∧ clkBit n F.devClkRunning r.val = false := by
  have hcmd : exec (.pllIdleStop r) s = execPllIdleStop r s := rfl
  have hoff : (List.range 64).all (fun i => cellRetired s (64 * r.val + i) || decide ((cell s (64 * r.val + i)).power = .off)) = true := by
    simpa using hcells
  have hen : (chansOf (3 + r.val)).all (fun ch => decide (rf s .dmaChctl F.dmaChctlEn ch = 0)) = true := by simpa using hdma
  refine ⟨_, by rw [hcmd, execPllIdleStop, if_pos (by rw [hrun, hpin, hoff, hidle, hen]; rfl)],
    (clkStep_lists s r.val _ _).setBit r.isLt devClkRunning_field false, rfl, ?_⟩
  rw [clkBit_setClkBit _ devClkRunning_field devClkRunning_field r.isLt, if_pos rfl]

theorem exec_pllLockLoss (hboot : rf s .devBoot F.devBootImage = 1) (hon : clkBit s F.devClkRunning r.val = true ∨ r.val ∈ s.clk.starting) :
    exec (.pllLockLoss r) s = .next (if clkBit s F.devClkSparePll r.val then regionStop s r.val
      else report (setClkBit { s with clk := { starting := without r.val s.clk.starting, switching := r.val :: s.clk.switching } } F.devClkRunning r.val false)
        (mkErr 0x38 0xFF r.val 0)) := by
  have hcmd : exec (.pllLockLoss r) s = execPllLockLoss r s := rfl
  rw [hcmd, execPllLockLoss, if_neg (by rw [hboot]; decide), if_pos (by simpa using hon)]

/-- The first loss of lock starts the switch to the spare PLL (R18). -/
theorem pllLockLoss_switches (hboot : rf s .devBoot F.devBootImage = 1) (hon : clkBit s F.devClkRunning r.val = true ∨ r.val ∈ s.clk.starting)
    (hfirst : clkBit s F.devClkSparePll r.val = false) :
    ∃ n, exec (.pllLockLoss r) s = .next n ∧ clkStep r.val [F.devClkRunning] (without r.val s.clk.starting) (r.val :: s.clk.switching) s n
      ∧ clkBit n F.devClkRunning r.val = false ∧ noted s n (mkErr 0x38 0xFF r.val 0) := by
  refine ⟨_, by rw [exec_pllLockLoss hboot hon, hfirst, if_neg (by decide)],
    ((clkStep_lists s r.val _ _).setBit r.isLt devClkRunning_field false).report _, ?_, rfl⟩
  exact (clkBit_setClkBit _ devClkRunning_field devClkRunning_field r.isLt false).trans (if_pos rfl)

theorem exec_pllSwitchEnd (hboot : rf s .devBoot F.devBootImage = 1) (hswitch : r.val ∈ s.clk.switching) (locked : Bool) :
    exec (.pllSwitchEnd r locked) s = .next (if locked then
        setClkBit (setClkBit { s with clk := { s.clk with switching := without r.val s.clk.switching } } F.devClkRunning r.val true) F.devClkSparePll r.val true
      else regionStop s r.val) := by
  have hcmd : exec (.pllSwitchEnd r locked) s = execPllSwitchEnd r locked s := rfl
  rw [hcmd, execPllSwitchEnd, if_neg (by simp [hboot, hswitch])]

/-- The spare PLL, once locked, clocks the region (R18). -/
theorem pllSwitchEnd_runs (hboot : rf s .devBoot F.devBootImage = 1) (hswitch : r.val ∈ s.clk.switching) :
    ∃ n, exec (.pllSwitchEnd r true) s = .next n
      ∧ clkStep r.val [F.devClkRunning, F.devClkSparePll] s.clk.starting (without r.val s.clk.switching) s n
      ∧ clkBit n F.devClkRunning r.val = true ∧ clkBit n F.devClkSparePll r.val = true ∧ n.err = s.err := by
  refine ⟨_, by rw [exec_pllSwitchEnd hboot hswitch, if_pos rfl],
    ((clkStep_lists s r.val _ _).setBit r.isLt devClkRunning_field true).setBit r.isLt devClkSparePll_field true, ?_, ?_, rfl⟩
  · rw [clkBit_setClkBit _ devClkSparePll_field devClkRunning_field r.isLt, if_neg (by decide),
      clkBit_setClkBit _ devClkRunning_field devClkRunning_field r.isLt, if_pos rfl]
  · rw [clkBit_setClkBit _ devClkSparePll_field devClkSparePll_field r.isLt, if_pos rfl]

end

/-! ## The pins (R29) -/

/-- The PLLs of a list of regions told to start where their pin is set. -/
def startPinned (s : State) (rs : List Nat) : State := rs.foldl (fun s r => if clkBit s F.devClkPin r then pllGo s r else s) s

theorem pllGo_eq (s : State) (r : Nat) : pllGo s r = { s with clk := { s.clk with starting := (pllGo s r).clk.starting } } := by
  unfold pllGo; split <;> rfl

theorem startPinned_spec (rs : List Nat) (s : State) :
    startPinned s rs = { s with clk := { s.clk with starting := (startPinned s rs).clk.starting } }
      ∧ ∀ k, k ∈ (startPinned s rs).clk.starting ↔ k ∈ s.clk.starting
        ∨ k ∈ rs ∧ clkBit s F.devClkPin k = true ∧ clkBit s F.devClkRunning k = false ∧ clkBit s F.devClkStopped k = false ∧ k ∉ s.clk.switching := by
  induction rs generalizing s with
  | nil => exact ⟨rfl, fun k => by simp [startPinned]⟩
  | cons r rs ih =>
    set q := if clkBit s F.devClkPin r then pllGo s r else s with hq
    obtain ⟨hframe, hmem⟩ := ih q
    have hq' : q = { s with clk := { s.clk with starting := q.clk.starting } } := by
      rw [hq]; split
      · exact pllGo_eq s r
      · rfl
    have hcons : startPinned s (r :: rs) = startPinned q rs := rfl
    have hclk : ∀ f k, clkBit q f k = clkBit s f k := fun f k => by rw [hq']; rfl
    have hswitch : q.clk.switching = s.clk.switching := by rw [hq']
    have hhead : ∀ k, k ∈ q.clk.starting ↔ k ∈ s.clk.starting
        ∨ k = r ∧ clkBit s F.devClkPin k = true ∧ clkBit s F.devClkRunning k = false ∧ clkBit s F.devClkStopped k = false ∧ k ∉ s.clk.switching := by
      intro k
      by_cases hpin : clkBit s F.devClkPin r = true
      · rw [hq, if_pos hpin, mem_pllGo]
        exact or_congr_right (and_congr_right fun h => by subst h; simp [hpin])
      · rw [hq, if_neg hpin]
        refine (or_iff_left ?_).symm
        rintro ⟨rfl, h, -⟩; exact hpin h
    refine ⟨by rw [hcons, hframe]; rw [hq'], fun k => ?_⟩
    rw [hcons, hmem, hhead]
    simp only [hclk, hswitch, List.mem_cons]
    tauto

theorem fget_devClkPin (v : Word) : fget v F.devClkPin = v.toNat % 4096 := by
  have h : fget v F.devClkPin = v.toNat >>> 0 % 2 ^ 12 := rfl
  simpa using h

theorem exec_devClkPinWrite {s : State} {a : Agent} (v : Word) (ht : takes s a) (hl : 1 ≤ (agentLevel s a).toNat) (hboot : rf s .devBoot F.devBootImage = 1) :
    exec (.devClkPinWrite a v) s = .next (startPinned (setRf s .devClk F.devClkPin (fget v F.devClkPin)) (List.range 12)) := by
  have hcmd : exec (.devClkPinWrite a v) s = execDevClkPinWrite a v s := rfl
  have hwriter : clkWriter s a = true := decide_eq_true (by rw [BitVec.le_def]; exact hl)
  rw [hcmd, execDevClkPinWrite, mmioCmd_of_takes ht, clkWrite, if_neg (by simp [hwriter, hboot])]
  rfl

theorem fieldsKept_setRf (s : State) (r : RegName) {f : Fld} (h : f.lo ≤ f.hi) (hn : f.hi < 64) (v i : Nat) : fieldsKept r i [f] s (setRf s r f v i) := by
  intro j _ hout
  have hj := hout f (List.mem_singleton.mpr rfl)
  rw [setRf, reg_setReg_same, fput, bit, getLsbD_setBits _ _ h hn, if_neg (by omega), bit]

/-- A write of DEV_CLK sets the pins alone, and starts the PLLs that are pinned and stand still (R23, R29). -/
theorem devClkPinWrite_pins {s : State} {a : Agent} (v : Word) (ht : takes s a) (hl : 1 ≤ (agentLevel s a).toNat) (hboot : rf s .devBoot F.devBootImage = 1) :
    ∃ n, exec (.devClkPinWrite a v) s = .next n ∧ n = { s with mmio := n.mmio, clk := { s.clk with starting := n.clk.starting } } ∧ regsKept [.devClk] s n
      ∧ fieldsKept .devClk 0 [F.devClkPin] s n ∧ rf n .devClk F.devClkPin = v.toNat % 4096
      ∧ ∀ r, r < 12 →
        (v.getLsbD r = true → clkBit s F.devClkRunning r = false → clkBit s F.devClkStopped r = false → r ∉ s.clk.switching → r ∈ n.clk.starting)
        ∧ (v.getLsbD r = false → (r ∈ n.clk.starting ↔ r ∈ s.clk.starting)) := by
  set w := setRf s .devClk F.devClkPin (fget v F.devClkPin) with hw
  obtain ⟨hframe, hmem⟩ := startPinned_spec (List.range 12) w
  have hreg : ∀ q i, reg (startPinned w (List.range 12)) q i = reg w q i := fun q i => by rw [hframe]; rfl
  have hpin : rf w .devClk F.devClkPin = v.toNat % 4096 := by
    rw [hw, rf_setRf_same _ _ _ _ _ (by decide) (by decide), fget_devClkPin]; exact Nat.mod_mod _ _
  have hpinned : ∀ r, r < 12 → clkBit w F.devClkPin r = v.getLsbD r := fun r hr => by
    rw [clkBit, hpin, show 4096 = 2 ^ 12 from rfl, Nat.testBit_mod_two_pow, decide_eq_true hr, Bool.true_and]; rfl
  have hclk : ∀ f ∈ [F.devClkRunning, F.devClkStopped], ∀ r, clkBit w f r = clkBit s f r := fun f hf r => by
    have haway : ∀ g ∈ [F.devClkRunning, F.devClkStopped], F.devClkPin.hi < g.lo := by decide
    rw [clkBit, hw, rf_setRf_other _ _ _ _ _ _ (by decide) (by decide) (.inr (haway f hf)), clkBit]
  refine ⟨_, exec_devClkPinWrite v ht hl hboot, by rw [hframe]; rfl, fun q i hi hq => ?_, fun j hj hout => ?_, by rw [rf, hreg]; exact hpin, fun r hr => ?_⟩
  · rw [hreg]; exact regsKept_setReg s .devClk (by decide) _ q i hi hq
  · rw [hreg]; exact fieldsKept_setRf s .devClk (by decide) (by decide) _ 0 j hj hout
  · rw [hmem, hpinned r hr, hclk _ (by simp), hclk _ (by simp)]
    exact ⟨fun hv hrun hstop hswitch => .inr ⟨List.mem_range.mpr hr, hv, hrun, hstop, hswitch⟩, fun hv => by rw [hv]; exact or_iff_left (by simp)⟩

/-! ## The statement -/

/-- Settles O34. The power states and the PLLs have a lemma for each command; a cell that runs again has applied the updates that waited, one after the other. -/
theorem cellPowerAndRegionClocks : Obligations.CellPowerAndRegionClocks := by
  unfold Obligations.CellPowerAndRegionClocks
  refine ⟨fun s c => ?_, fun s r => ?_, fun s a v ht hl hboot => devClkPinWrite_pins v ht hl hboot⟩
  · refine ⟨exec_clockGate_idle, exec_powerGate_gated, fun hp hw => ?_, fun hw hp hdone => ?_, exec_cellWake_off, fun hp hdone => ?_⟩
    · obtain ⟨hframe, hothers, hregs⟩ := switchedOff_frame s c.val
      exact ⟨_, exec_powerSwitchOpen_entering hp hw, hframe, hothers, hregs, switchedOff_unmarked s c.val, switchedOff_loses s c.val⟩
    · exact ⟨_, exec_cellWake_on hw hp, runAgain_runs s c.val hdone⟩
    · exact ⟨_, exec_cellPowered_waking hp, runAgain_runs s c.val hdone⟩
  · have hstops := regionStop_stops s r.isLt
    refine ⟨fun hboot ⟨hstart, hswitch, hrun, hstop⟩ => exec_pllStart_idle hboot hstart hswitch hrun hstop, pllLock_runs, pllIdleStop_stops,
      fun hboot hon => ⟨pllLockLoss_switches hboot hon, fun hspare => ⟨_, ?_, hstops⟩⟩,
      fun hboot hswitch => ⟨pllSwitchEnd_runs hboot hswitch, _, ?_, hstops⟩⟩
    · rw [exec_pllLockLoss hboot hon]; exact congrArg _ (if_pos hspare)
    · rw [exec_pllSwitchEnd hboot hswitch]; exact congrArg _ (if_neg (by decide))

end Sys2Proof.Machine
end

section
/-! PROOFS. Substitution and retirement of cells, and the entries of the repair record (R15–R17, R203, R425). -/

namespace Sys2Proof.Machine

open Sys2Proof.Safety

/-! ## The cell map (R28) -/

theorem reg_setReg_devBlkmap (s : State) {b d : Nat} (hb : b < 65536) (hd : d < 65536) (v : Word) :
    reg (setReg s .devBlkmap b v) .devBlkmap d = if d = b then v else reg s .devBlkmap d := by
  by_cases h : d = b
  · rw [h, reg_setReg_same, if_pos rfl]
  · rw [reg_setReg_other s v hb hd (fun e => h e.2), if_neg h]

/-- A field of the map other than the sites leaves every site. -/
theorem siteOf_setRf (s : State) {f : Fld} (hlo : 32 ≤ f.lo) (hf : f.lo ≤ f.hi) (hn : f.hi < 64) (v : Nat) {b d : Nat} (hb : b < 65536) (hd : d < 768) :
    siteOf (setRf s .devBlkmap f v b) d = siteOf s d := by
  rw [siteOf, setRf, reg_setReg_devBlkmap s hb (by omega)]
  split
  next h => rw [fput, bits_setBits_other _ _ hf hn (by omega), ← h, siteOf]
  next => rfl

/-- The map with a site's four bits written. -/
def siteWord (s : State) (c v : Nat) : State :=
  setReg s .devBlkmap (c / 8) (setBits (reg s .devBlkmap (c / 8)) (4 * (c % 8) + 3) (4 * (c % 8)) v)

theorem siteOf_siteWord (s : State) {c d : Nat} (hc : c < 768) (hd : d < 768) (v : Nat) :
    siteOf (siteWord s c v) d = if d = c then v % 16 else siteOf s d := by
  rw [siteOf, siteWord, reg_setReg_devBlkmap s (by omega) (by omega)]
  by_cases h : d = c
  · subst h
    rw [if_pos rfl, if_pos rfl, bits_setBits_same _ _ (by omega) (by omega)]
    rw [show 4 * (d % 8) + 3 + 1 - 4 * (d % 8) = 4 by omega]; norm_num
  · rw [if_neg h]
    split
    next hb => rw [bits_setBits_other _ _ (by omega) (by omega) (by omega), ← hb, siteOf]
    next => rfl

theorem rf_siteWord (s : State) (c v : Nat) {f : Fld} (hlo : 32 ≤ f.lo) :
    rf (siteWord s c v) .devBlkmap f (c / 8) = rf s .devBlkmap f (c / 8) := by
  rw [rf, siteWord, reg_setReg_same, fget, bits_setBits_other _ _ (by omega) (by omega) (by omega), rf, fget]

theorem setSite_eq (s : State) (c v : Nat) :
    setSite s c v = setRf (siteWord s c v) .devBlkmap F.devBlkmapDead (rf s .devBlkmap F.devBlkmapDead (c / 8) + 1) (c / 8) := by
  rw [← rf_siteWord s c v (by decide)]; rfl

/-- Between s and n logical cell c took a site, its block the named spare and one more dead site; the map else stays (R15, R16, R28). -/
def mapMoved (s n : State) (c site spare : Nat) : Prop :=
  siteOf n c = site ∧ rf n .devBlkmap F.devBlkmapSpare (c / 8) = spare
    ∧ rf n .devBlkmap F.devBlkmapDead (c / 8) = (rf s .devBlkmap F.devBlkmapDead (c / 8) + 1) % 16
    ∧ (∀ d, d < 768 → d ≠ c → siteOf n d = siteOf s d) ∧ regsKept [.devBlkmap, .devActive] s n

theorem setSite_mapMoved (s : State) {c v : Nat} (hc : c < 768) (hv : v < 16) :
    mapMoved s (setSite s c v) c v (rf s .devBlkmap F.devBlkmapSpare (c / 8)) := by
  have hsite : ∀ d, d < 768 → siteOf (setSite s c v) d = if d = c then v % 16 else siteOf s d := fun d hd => by
    rw [setSite_eq s c, siteOf_setRf _ (by decide) (by decide) (by decide) _ (by omega) hd, siteOf_siteWord s hc hd]
  refine ⟨?_, ?_, ?_, fun d hd hne => by rw [hsite d hd, if_neg hne], fun r i hi hr => ?_⟩
  · rw [hsite c hc, if_pos rfl, Nat.mod_eq_of_lt hv]
  · rw [setSite_eq s c, rf_setRf_other _ _ _ _ _ _ (by decide) (by decide) (by decide), rf_siteWord s c v (by decide)]
  · rw [setSite_eq s c, rf_setRf_same _ _ _ _ _ (by decide) (by decide)]; rfl
  · have hne : r ≠ .devBlkmap := fun h => hr (by simp [h])
    rw [setSite_eq s c, setRf, reg_setReg_other _ _ (by omega) hi (fun h => hne h.1), siteWord, reg_setReg_other _ _ (by omega) hi (fun h => hne h.1)]

theorem mapMoved.takeSpare {s n : State} {c site spare : Nat} (h : mapMoved s n c site spare) (hc : c < 768) :
    mapMoved s (setRf n .devBlkmap F.devBlkmapSpare 15 (c / 8)) c site 15 := by
  obtain ⟨hsite, -, hdead, hothers, hregs⟩ := h
  have hkept : ∀ d, d < 768 → siteOf (setRf n .devBlkmap F.devBlkmapSpare 15 (c / 8)) d = siteOf n d := fun d hd =>
    siteOf_setRf n (by decide) (by decide) (by decide) 15 (by omega) hd
  refine ⟨(hkept c hc).trans hsite, rf_setRf_same _ _ _ _ _ (by decide) (by decide), ?_, fun d hd hne => (hkept d hd).trans (hothers d hd hne), ?_⟩
  · rw [rf_setRf_other _ _ _ _ _ _ (by decide) (by decide) (by decide), hdead]
  · exact regsKept_trans hregs (regsKept_mono (regsKept_setReg n .devBlkmap (by omega) _) (by simp))

theorem mapMoved.recount {s n : State} {c site spare : Nat} (h : mapMoved s n c site spare) (hc : c < 768) : mapMoved s (recountCells n) c site spare := by
  obtain ⟨hsite, hspare, hdead, hothers, hregs⟩ := h
  have hkept : regsKept [.devActive] n (recountCells n) := by
    unfold recountCells setRf
    exact regsKept_trans (regsKept_setReg _ _ (by decide) _) (regsKept_setReg _ _ (by decide) _)
  have hmap : ∀ b, b < 96 → reg (recountCells n) .devBlkmap b = reg n .devBlkmap b := fun b hb => hkept _ _ (by omega) (by decide)
  have hsites : ∀ d, d < 768 → siteOf (recountCells n) d = siteOf n d := fun d hd => by rw [siteOf, hmap _ (by omega), siteOf]
  refine ⟨(hsites c hc).trans hsite, ?_, ?_, fun d hd hne => (hsites d hd).trans (hothers d hd hne), regsKept_trans hregs (regsKept_mono hkept (by simp))⟩
  · rw [rf, hmap _ (by omega)]; exact hspare
  · rw [rf, hmap _ (by omega)]; exact hdead

/-- The move of a map depends on the register words alone. -/
theorem mapMoved.of_mmio {s n s' n' : State} {c site spare : Nat} (h : mapMoved s n c site spare) (hs : s'.mmio = s.mmio) (hn : n'.mmio = n.mmio) :
    mapMoved s' n' c site spare := by
  have hreg : ∀ r i, reg s' r i = reg s r i ∧ reg n' r i = reg n r i := fun r i => ⟨by rw [reg, hs, reg], by rw [reg, hn, reg]⟩
  obtain ⟨hsite, hspare, hdead, hothers, hregs⟩ := h
  simp only [mapMoved, siteOf, rf, regsKept, hreg] at *
  exact ⟨hsite, hspare, hdead, hothers, hregs⟩

/-! ## Threads brought to a boundary that have nothing outstanding (R15) -/

/-- A thread whose units are empty, that waits for no miss register and has no poison fault to take. -/
def atRest (s : State) (t : Tid) : Prop := (thread s t).vq = [] ∧ (thread s t).tq = [] ∧ (thread s t).late = none ∧ (thread s t).st ≠ .waiting .miss

/-- A core without a store, a load or a request outstanding; an atomic may be on its way. -/
def nothingOut (x : CellS) : Prop := x.wb = [] ∧ x.mshrs = [] ∧ x.loads = [] ∧ x.slots = [] ∧ x.held = []

/-- Between s and n core c dropped atomics at most, and nothing else changed. -/
def boundaryKept (c : Nat) (s n : State) : Prop :=
  n = { s with threads := n.threads, cells := n.cells } ∧ (∀ t, thread n t = thread s t) ∧ (∀ d, d ≠ c → cell n d = cell s d)
    ∧ cell n c = { cell s c with atomics := (cell n c).atomics }

theorem boundaryKept.refl (c : Nat) (s : State) : boundaryKept c s s := ⟨rfl, fun _ => rfl, fun _ _ => rfl, rfl⟩

theorem boundaryKept.trans {c : Nat} {a b d : State} (h : boundaryKept c a b) (k : boundaryKept c b d) : boundaryKept c a d := by
  obtain ⟨hframe, hthreads, hothers, hcell⟩ := h
  obtain ⟨kframe, kthreads, kothers, kcell⟩ := k
  exact ⟨by rw [kframe, hframe], fun t => (kthreads t).trans (hthreads t), fun e he => (kothers e he).trans (hothers e he), by rw [kcell, hcell]⟩

theorem boundaryKept.nothingOut {c : Nat} {s n : State} (h : boundaryKept c s n) (hs : nothingOut (cell s c)) : Machine.nothingOut (cell n c) := by
  rw [h.2.2.2]; exact hs

theorem boundaryKept.atRest {c : Nat} {s n : State} (h : boundaryKept c s n) {t : Tid} (ht : atRest s t) : Machine.atRest n t := by
  unfold Machine.atRest; rw [h.2.1]; exact ht

theorem dropLoads_nothingOut {x : CellS} (h : nothingOut x) (thr mark : Nat) :
    dropLoads thr mark x = { x with atomics := (dropLoads thr mark x).atomics } := by
  obtain ⟨-, hmshrs, hloads, -, hheld⟩ := h
  simp only [dropLoads, hmshrs, hloads, hheld, List.map_nil, List.filter_nil]

theorem oldestUnresolved_atRest {s : State} {t : Tid} (h : atRest s t) : oldestUnresolved (thread s t) = none := by
  rw [oldestUnresolved, h.1, h.2.1]; rfl

/-- Going back to the boundary drops what the thread asked for and had not got. -/
theorem rollBack_atRest {s : State} {t : Tid} (h : atRest s t) :
    rollBack s t = modCell (modThread s t unheld) (cellOf t) (fun x => dropLoads (thrOf t) x.accNo x) := by
  rw [rollBack, oldestUnresolved_atRest h]

theorem rollBack_kept {s : State} {t : Tid} (h : atRest s t) (hc : nothingOut (cell s (cellOf t))) : boundaryKept (cellOf t) s (rollBack s t) := by
  rw [rollBack_atRest h]
  refine ⟨rfl, fun u => ?_, fun d hd => ?_, ?_⟩
  · rw [thread_modCell, thread_modThread]
    split
    next hu => rw [hu, unheld, if_neg h.2.2.2]
    next => rfl
  · rw [cell_modCell, if_neg hd, cell_modThread]
  · rw [cell_modCell_same, cell_modThread]; exact dropLoads_nothingOut hc _ _

theorem finishUnits_atRest {s : State} {t : Tid} (h : atRest s t) : finishUnits s t = s := by
  simp only [finishUnits, h.1, h.2.1, List.append_nil, List.any_nil, Bool.not_false, if_true]

theorem settleLoads_nothingOut {s : State} {c : Nat} (h : nothingOut (cell s c)) (thr : Nat) : settleLoads s c thr = s := by
  obtain ⟨hwb, hmshrs, hloads, hslots, -⟩ := h
  have hserve : ∀ p, serveLoads s c p = s := fun p => by
    simp only [serveLoads, hmshrs, hloads, hslots, List.length_nil, List.range_zero, List.foldl_nil]
  have hdev : ∀ k, finishDevices s c thr k = s := fun k => by
    simp only [finishDevices, hloads, hwb, List.length_nil, Nat.add_zero, List.range_zero, List.foldl_nil]
  simp only [settleLoads, hserve, hdev, hmshrs, hloads, List.length_nil, List.range_zero, List.foldl_nil]

theorem settleStores_nothingOut {s : State} {c : Nat} (h : nothingOut (cell s c)) (thr : Nat) : settleStores s c thr = s := by
  simp only [settleStores, h.1, List.length_nil, List.range_zero, List.foldl_nil]

/-- A thread with nothing outstanding stands at a boundary (R15, R71). -/
theorem toBoundary_atRest {s : State} {t : Tid} (h : atRest s t) (hc : nothingOut (cell s (cellOf t))) : toBoundary s t = rollBack s t := by
  have hkept := rollBack_kept h hc
  have hrest := hkept.atRest h
  have hout := hkept.nothingOut hc
  have hstop : stopUnits s t = s := by rw [stopUnits, oldestUnresolved_atRest h]
  have hlate : takeLate (rollBack s t) t = rollBack s t := by simp only [takeLate, hrest.2.2.1]
  simp only [toBoundary, hstop, finishUnits_atRest hrest, hrest.1, hrest.2.1, List.length_nil, Nat.add_zero, List.range_zero, List.foldl_nil,
    settleLoads_nothingOut hout, settleStores_nothingOut hout, hlate]

theorem foldl_toBoundary_kept {c : Nat} (ts : List Tid) (s : State) (hts : ∀ t ∈ ts, cellOf t = c ∧ atRest s t) (hc : nothingOut (cell s c)) :
    boundaryKept c s (ts.foldl toBoundary s) := by
  induction ts generalizing s with
  | nil => exact .refl c s
  | cons t ts ih =>
    obtain ⟨rfl, ht⟩ := hts t (List.mem_cons_self ..)
    have hhead : boundaryKept (cellOf t) s (toBoundary s t) := by rw [toBoundary_atRest ht hc]; exact rollBack_kept ht hc
    have hrest : ∀ u ∈ ts, cellOf u = cellOf t ∧ atRest (toBoundary s t) u := fun u hu => by
      obtain ⟨hcell, hu'⟩ := hts u (List.mem_cons_of_mem t hu)
      exact ⟨hcell, hhead.atRest hu'⟩
    rw [List.foldl_cons]
    exact hhead.trans (ih (toBoundary s t) hrest (hhead.nothingOut hc))

theorem mem_tidsOf_cellOf {c : Nat} (hc : c < 768) {t : Tid} (ht : t ∈ tidsOf c) : cellOf t = c := by
  obtain ⟨j, -, rfl⟩ := List.mem_map.mp ht
  exact cellOf_tidOf c j hc

theorem settleWait_nothingOut {s : State} {c : Nat} (hc : c < 768) (hout : nothingOut (cell s c)) (hpush : ∀ t ∈ tidsOf c, pushHeld s t = false) :
    settleWait s (tidsOf c) = none := by
  obtain ⟨hwb, hmshrs, hloads, hslots, -⟩ := hout
  have hany : (tidsOf c).any (pushHeld s) = false := List.any_eq_false.mpr fun t ht => by simp [hpush t ht]
  have hneeds : (tidsOf c).flatMap (releaseNeeds s) = [] := by
    rw [List.flatMap_eq_nil_iff]
    intro t ht
    simp [releaseNeeds, mem_tidsOf_cellOf hc ht, hwb, hmshrs, hloads, hslots]
  rw [settleWait, hany, hneeds]; rfl

/-! ## The repair record (R425) -/

/-- An entry of a site or of a block-memory row replaces no older one, and joins a record with room. -/
theorem addRepair_room {s : State} {e : RepairEnt} (hk : e.kind = 1 ∨ e.kind = 2) (h : s.repair.ents.length < 8184) :
    addRepair s e = { s with repair := { s.repair with ents := s.repair.ents ++ [e], dirty := true } } := by
  have hents : (e.kind = 3 || e.kind = 6) = false := by rcases hk with h | h <;> simp [h]
  simp only [addRepair, hents, Bool.false_eq_true, if_false]
  exact if_neg (by omega)

/-! ## A cell that leaves its site (R15, R16) -/

/-- What a cell has on a new site, or when it has lost its own: no cached line or translation, the tiles it had (R15). -/
def coldWithTiles (x y : CellS) : Prop :=
  y.icache = [] ∧ y.l1 = [] ∧ y.victim = [] ∧ y.opcache = [] ∧ y.capo = none ∧ y.itlb = [] ∧ y.dtlb = [] ∧ y.l2tlb = []
    ∧ y.tiles = x.tiles ∧ y.tattr = x.tattr ∧ y.tpoison = x.tpoison

theorem coldCell_coldWithTiles {x y : CellS} (h : y.tiles = x.tiles ∧ y.tattr = x.tattr ∧ y.tpoison = x.tpoison) : coldWithTiles x (coldCell y) :=
  ⟨rfl, rfl, rfl, rfl, rfl, rfl, rfl, rfl, h⟩

/-- The loss of a site noted, and entered in the repair record. -/
def siteNoted (s : State) (c old new : Nat) : State :=
  addRepair (report s (mkErr 0x15 0x20 (c / 8) old 0 (pack [(0, old), (4, new)]))) { kind := 1, unit := c / 8, site := old }

theorem siteNoted_eq {s : State} (h : s.repair.ents.length < 8184) (c old new : Nat) :
    siteNoted s c old new =
      { report s (mkErr 0x15 0x20 (c / 8) old 0 (pack [(0, old), (4, new)])) with
        repair := { s.repair with ents := s.repair.ents ++ [{ kind := 1, unit := c / 8, site := old }], dirty := true } } :=
  addRepair_room (.inl rfl) h

theorem siteNoted_frame {s : State} (h : s.repair.ents.length < 8184) (c old new : Nat) :
    siteNoted s c old new = { s with err := (siteNoted s c old new).err, repair := (siteNoted s c old new).repair } := by
  rw [siteNoted_eq h]; rfl

/-- Between s and n logical cell c took a site: the map, the notes and the record say so, the cell is cold, no other cell changed (R15–R17, R425). -/
def siteMoved (s n : State) (c site spare : Nat) : Prop :=
  mapMoved s n c site spare
    ∧ noted s n (mkErr 0x15 0x20 (c / 8) (siteOf s c) 0 (pack [(0, siteOf s c), (4, site)]))
    ∧ n.repair = { s.repair with ents := s.repair.ents ++ [{ kind := 1, unit := c / 8, site := siteOf s c }], dirty := true }
    ∧ coldWithTiles (cell s c) (cell n c) ∧ ∀ d, d ≠ c → cell n d = cell s d

theorem siteNoted_moved {s q : State} {c site spare : Nat} (hmap : mapMoved s q c site spare) (herr : q.err = s.err) (hrep : q.repair = s.repair)
    (hroom : s.repair.ents.length < 8184) (hcold : coldWithTiles (cell s c) (cell q c)) (hothers : ∀ d, d ≠ c → cell q d = cell s d) :
    siteMoved s (siteNoted q c (siteOf s c) site) c site spare := by
  rw [siteNoted_eq (by rw [hrep]; exact hroom)]
  refine ⟨hmap.of_mmio rfl rfl, ?_, ?_, hcold, hothers⟩
  · rw [noted, ← herr]; rfl
  · rw [← hrep]

/-! ## Substitution (R15, R457) -/

/-- The map and the cell after a substitution. -/
def substituted (s : State) (c sp : Nat) : State :=
  setRf (setSite (modCell s c (fun x => { coldCell x with site := BitVec.ofNat 4 sp })) c sp) .devBlkmap F.devBlkmapSpare 15 (c / 8)

theorem substituted_frame (s : State) (c sp : Nat) :
    substituted s c sp = { s with cells := (substituted s c sp).cells, mmio := (substituted s c sp).mmio } := rfl

theorem cell_substituted (s : State) (c sp d : Nat) :
    cell (substituted s c sp) d = if d = c then { coldCell (cell s c) with site := BitVec.ofNat 4 sp } else cell s d := by
  have h : cell (substituted s c sp) d = cell (modCell s c (fun x => { coldCell x with site := BitVec.ofNat 4 sp })) d := rfl
  rw [h, cell_modCell]

theorem substituted_mapMoved (s : State) {c sp : Nat} (hc : c < 768) (hsp : sp < 16) : mapMoved s (substituted s c sp) c sp 15 :=
  ((setSite_mapMoved (modCell s c (fun x => { coldCell x with site := BitVec.ofNat 4 sp })) hc hsp).takeSpare hc).of_mmio rfl rfl

theorem rf_devBlkmapSpare_lt (s : State) (b : Nat) : rf s .devBlkmap F.devBlkmapSpare b < 16 := Nat.mod_lt _ (by decide)

section
variable {s : State} {c : Cid}

theorem exec_cellSubstitution_sound (hharp : (cell s c.val).harpStopped = false) (hce : cellCeDue s c.val = false) :
    exec (.cellSubstitution c) s = .next s := by
  have hcmd : exec (.cellSubstitution c) s = execCellSubstitution c s := rfl
  have hfault : cellFaulted s c.val = false := by rw [cellFaulted, hharp, hce]; rfl
  simp only [hcmd, execCellSubstitution, hfault, Bool.not_false, Bool.or_true, if_true]

theorem exec_cellSubstitution_faulted (hc : c.val < 768) (hret : cellRetired s c.val = false) (hsp : rf s .devBlkmap F.devBlkmapSpare (c.val / 8) ≠ 15)
    (hfault : cellFaulted s c.val = true) (hwait : settleWait s (tidsOf c.val) = none) :
    exec (.cellSubstitution c) s = .next (siteNoted (substituted ((tidsOf c.val).foldl toBoundary s) c.val (rf s .devBlkmap F.devBlkmapSpare (c.val / 8)))
      c.val (siteOf s c.val) (rf s .devBlkmap F.devBlkmapSpare (c.val / 8))) := by
  have hcmd : exec (.cellSubstitution c) s = execCellSubstitution c s := rfl
  have hm : isMantle c.val = false := by simp [isMantle, hc]
  rw [hcmd, execCellSubstitution]
  dsimp only
  rw [if_neg (by simp [hm, hret, hsp, hfault]), hwait]
  rfl

/-- A faulted cell with nothing outstanding moves to its block's spare site (R15, R457). -/
theorem cellSubstitution_moves (hc : c.val < 768) (hret : cellRetired s c.val = false) (hroom : s.repair.ents.length < 8184)
    (hsp : rf s .devBlkmap F.devBlkmapSpare (c.val / 8) ≠ 15) (hfault : cellFaulted s c.val = true) (hrest : ∀ t ∈ tidsOf c.val, atRest s t)
    (hout : nothingOut (cell s c.val)) (hpush : ∀ t ∈ tidsOf c.val, pushHeld s t = false) :
    ∃ n, exec (.cellSubstitution c) s = .next n ∧ siteMoved s n c.val (rf s .devBlkmap F.devBlkmapSpare (c.val / 8)) 15
      ∧ (cell n c.val).site = BitVec.ofNat 4 (rf s .devBlkmap F.devBlkmapSpare (c.val / 8))
      ∧ n = { s with threads := n.threads, cells := n.cells, mmio := n.mmio, err := n.err, repair := n.repair } ∧ ∀ t, thread n t = thread s t := by
  have hexec := exec_cellSubstitution_faulted hc hret hsp hfault (settleWait_nothingOut hc hout hpush)
  set sp := rf s .devBlkmap F.devBlkmapSpare (c.val / 8) with hspare
  obtain ⟨hframe, hthreads, hothers, hcell⟩ := foldl_toBoundary_kept (tidsOf c.val) s (fun t ht => ⟨mem_tidsOf_cellOf hc ht, hrest t ht⟩) hout
  set q := (tidsOf c.val).foldl toBoundary s
  have hmap : mapMoved s (substituted q c.val sp) c.val sp 15 :=
    (substituted_mapMoved q hc (rf_devBlkmapSpare_lt s _)).of_mmio (by rw [hframe]) rfl
  have hcold : coldWithTiles (cell s c.val) (cell (substituted q c.val sp) c.val) := by
    rw [cell_substituted, if_pos rfl]
    exact coldCell_coldWithTiles (by rw [hcell]; exact ⟨rfl, rfl, rfl⟩)
  have hsub := substituted_frame q c.val sp
  have hrep : (substituted q c.val sp).repair = s.repair := by rw [hsub, hframe]
  have herr : (substituted q c.val sp).err = s.err := by rw [hsub, hframe]
  have hroom' : (substituted q c.val sp).repair.ents.length < 8184 := by rw [hrep]; exact hroom
  have hend := siteNoted_frame hroom' c.val (siteOf s c.val) sp
  set p := substituted q c.val sp
  set n := siteNoted p c.val (siteOf s c.val) sp
  refine ⟨n, hexec, siteNoted_moved hmap herr hrep hroom hcold (fun d hd => ?_), ?_, by rw [hend, hsub, hframe], fun t => ?_⟩
  · rw [cell_substituted, if_neg hd, hothers d hd]
  · have hcell' : cell n c.val = cell p c.val := by rw [hend]; rfl
    rw [hcell', cell_substituted, if_pos rfl]
  · have hthread : thread n t = thread q t := by rw [hend, hsub]; rfl
    rw [hthread, hthreads]

end

/-! ## A fault without a spare (R16) -/

section
variable {s : State} {c : Cid}

theorem faultNoSpare_of (hc : c.val < 768) (hret : cellRetired s c.val = false) (hsp : rf s .devBlkmap F.devBlkmapSpare (c.val / 8) = 15)
    (hharp : (cell s c.val).harpStopped = true) : faultNoSpare s c.val = true := by
  have hm : isMantle c.val = false := by simp [isMantle, hc]
  simp [faultNoSpare, hm, hret, hsp, hharp]

/-- The first fault of a site without a spare is cleared, and its time kept (R16). -/
theorem exec_cellFaultClear_first (hfault : faultNoSpare s c.val = true) (hagain : faultAgain s c.val = false) :
    exec (.cellFaultClear c) s = .next { setCell s c.val { cell s c.val with harpStopped := false } with
      mantle := { s.mantle with cleared := tins (16 * (c.val / 8) + siteOf s c.val) (lcount s 12) s.mantle.cleared } } := by
  have hcmd : exec (.cellFaultClear c) s = execCellFaultClear c s := rfl
  rw [hcmd, execCellFaultClear, if_neg (by simp [hfault, hagain])]
  rfl

end

/-! ## Threads stopped (R16, R301) -/

/-- Between s and n the threads of a list have been stopped; of core c nothing of its tiles changed, and no other core did. -/
def threadsStopped (c : Nat) (ts : List Tid) (s n : State) : Prop :=
  n = { s with threads := n.threads, cells := n.cells, pegs := { s.pegs with waves := n.pegs.waves } }
    ∧ (∀ t, (t ∈ ts → (thread n t).st = .idle ∧ (thread n t).mine = 0) ∧ (t ∉ ts → thread n t = thread s t))
    ∧ (∀ d, d ≠ c → cell n d = cell s d)
    ∧ (cell n c).tiles = (cell s c).tiles ∧ (cell n c).tattr = (cell s c).tattr ∧ (cell n c).tpoison = (cell s c).tpoison

theorem capoHeld_frame (s : State) (c : Nat) :
    capoHeld s c = { s with cells := (capoHeld s c).cells } ∧ ∀ d, cell (capoHeld s c) d = { cell s d with capo := (cell (capoHeld s c) d).capo } := by
  have hself : s = { s with cells := s.cells } ∧ ∀ d, cell s d = { cell s d with capo := (cell s d).capo } := ⟨rfl, fun _ => rfl⟩
  unfold capoHeld
  split
  · split
    · exact hself
    · refine ⟨rfl, fun d => ?_⟩
      rw [cell_modCell]
      split
      next h => rw [h]
      next => rfl
  · exact hself

theorem stopThread_stops (s : State) (t : Tid) : threadsStopped (cellOf t) [t] s (stopThread s t) := by
  set p := modCell (modThread (leaveWaves s t) t (fun th => { th with
    st := .idle, mine := 0, spec := none, task := none, hold := [], younger := 0, busy := 0, vq := [], tq := [], late := none })) (cellOf t) (dropLoads (thrOf t) 0) with hp
  have hstop : stopThread s t = capoHeld p (cellOf t) := rfl
  obtain ⟨hframe, hcapo⟩ := capoHeld_frame p (cellOf t)
  have hcell : ∀ d, cell p d = if d = cellOf t then dropLoads (thrOf t) 0 (cell s (cellOf t)) else cell s d := fun d => by
    rw [hp, cell_modCell]; rfl
  have hthread : ∀ u, thread (stopThread s t) u = thread p u := fun u => by rw [hstop, hframe]; rfl
  have hself : thread p t = { thread s t with
      st := .idle, mine := 0, spec := none, task := none, hold := [], younger := 0, busy := 0, vq := [], tq := [], late := none } := by
    rw [hp, thread_modCell, thread_modThread_same]; rfl
  have hpframe : p = { s with threads := p.threads, cells := p.cells, pegs := { s.pegs with waves := p.pegs.waves } } := rfl
  refine ⟨by rw [hstop, hframe, hpframe], fun u => ⟨fun hu => ?_, fun hu => ?_⟩, fun d hd => ?_, ?_⟩
  · rw [List.mem_singleton] at hu
    rw [hthread, hu, hself]; exact ⟨rfl, rfl⟩
  · rw [hthread, hp, thread_modCell, thread_modThread, if_neg (by simpa using hu)]; rfl
  · rw [hstop, capoHeld]
    split
    · split
      · rw [hcell, if_neg hd]
      · rw [cell_modCell, if_neg hd, hcell, if_neg hd]
    · rw [hcell, if_neg hd]
  · rw [hstop, hcapo, hcell, if_pos rfl]; exact ⟨rfl, rfl, rfl⟩

theorem foldl_stopThread_stops {c : Nat} (ts : List Tid) (s : State) (hts : ∀ t ∈ ts, cellOf t = c) : threadsStopped c ts s (ts.foldl stopThread s) := by
  induction ts generalizing s with
  | nil => exact ⟨rfl, fun t => ⟨fun h => absurd h (List.not_mem_nil), fun _ => rfl⟩, fun _ _ => rfl, rfl, rfl, rfl⟩
  | cons t ts ih =>
    have hhead := stopThread_stops s t
    rw [hts t (List.mem_cons_self ..)] at hhead
    obtain ⟨hframe, hthreads, hothers, htiles, htattr, htpoison⟩ := hhead
    obtain ⟨kframe, kthreads, kothers, ktiles, ktattr, ktpoison⟩ := ih (stopThread s t) (fun u hu => hts u (List.mem_cons_of_mem t hu))
    rw [List.foldl_cons]
    set q := stopThread s t
    set n := ts.foldl stopThread q
    refine ⟨by rw [kframe, hframe], fun u => ⟨fun hu => ?_, fun hu => ?_⟩, fun d hd => (kothers d hd).trans (hothers d hd),
      ktiles.trans htiles, ktattr.trans htattr, ktpoison.trans htpoison⟩
    · by_cases hin : u ∈ ts
      · exact (kthreads u).1 hin
      · rw [(kthreads u).2 hin]
        exact (hthreads u).1 (by simpa [hin] using hu)
    · rw [List.mem_cons, not_or] at hu
      rw [(kthreads u).2 hu.2, (hthreads u).2 (by simpa using hu.1)]

/-! ## Retirement (R16) -/

theorem loseTasks_none {s : State} {c : Nat} (h : ∀ p ∈ s.tasks.runs, p.2.cell ≠ c) : loseTasks s c = s := by
  have hnil : s.tasks.runs.filter (fun p => decide (p.2.cell = c)) = [] := by
    rw [List.filter_eq_nil_iff]; intro p hp; simp [h p hp]
  rw [loseTasks, hnil]; rfl

theorem loseHead_unchecked {s : State} (h : ∀ k e rest, tqueue s k = e :: rest → e.words = none) (k : Nat) : loseHead s k = s := by
  unfold loseHead
  split
  next e rest hq => rw [h k e rest hq]
  next => rfl

theorem loseHeads_unchecked {s : State} (h : ∀ k e rest, tqueue s k = e :: rest → e.words = none) (r : Nat) : loseHeads s r = s := by
  unfold loseHeads
  generalize List.range 64 = ks
  exact List.foldl_fixed' (f := fun s q => loseHead s (64 * r + q)) (fun q => loseHead_unchecked h (64 * r + q)) ks

/-- The map and the cell after a retirement. -/
def unsited (s : State) (c : Nat) : State := recountCells (setSite (modCell s c coldCell) c 15)

theorem unsited_frame (s : State) (c : Nat) : unsited s c = { s with cells := (unsited s c).cells, mmio := (unsited s c).mmio } := rfl

theorem cell_unsited (s : State) (c d : Nat) : cell (unsited s c) d = if d = c then coldCell (cell s c) else cell s d := by
  have h : cell (unsited s c) d = cell (modCell s c coldCell) d := rfl
  rw [h, cell_modCell]

theorem unsited_mapMoved (s : State) {c : Nat} (hc : c < 768) : mapMoved s (unsited s c) c 15 (rf s .devBlkmap F.devBlkmapSpare (c / 8)) :=
  ((setSite_mapMoved (modCell s c coldCell) hc (by decide)).recount hc).of_mmio rfl rfl

section
variable {s : State} {c : Cid}

theorem exec_cellRetirement_again (hfault : faultNoSpare s c.val = true) (hagain : faultAgain s c.val = true) (hwait : settleWait s (tidsOf c.val) = none) :
    exec (.cellRetirement c) s = .next (siteNoted
      (loseHeads (unsited ((tidsOf c.val).foldl stopThread (loseTasks s c.val)) c.val) (regionOf c.val)) c.val (siteOf s c.val) 15) := by
  have hcmd : exec (.cellRetirement c) s = execCellRetirement c s := rfl
  rw [hcmd, execCellRetirement]
  dsimp only
  rw [if_neg (by simp [hfault, hagain]), hwait]
  rfl

/-- A cell whose fault is the second within 24 powered hours, and which has no spare, loses its site (R16). -/
theorem cellRetirement_retires (hc : c.val < 768) (hroom : s.repair.ents.length < 8184) (hsp : rf s .devBlkmap F.devBlkmapSpare (c.val / 8) = 15)
    (hfault : faultNoSpare s c.val = true) (hagain : faultAgain s c.val = true) (hruns : ∀ p ∈ s.tasks.runs, p.2.cell ≠ c.val)
    (hheads : ∀ k e rest, tqueue s k = e :: rest → e.words = none) (hwait : settleWait s (tidsOf c.val) = none) :
    ∃ n, exec (.cellRetirement c) s = .next n ∧ siteMoved s n c.val 15 15
      ∧ (∀ t ∈ tidsOf c.val, (thread n t).st = .idle ∧ (thread n t).mine = 0) ∧ (∀ t, t ∉ tidsOf c.val → thread n t = thread s t)
      ∧ n = { s with threads := n.threads, cells := n.cells, mmio := n.mmio, err := n.err, repair := n.repair, pegs := { s.pegs with waves := n.pegs.waves } } := by
  have hexec := exec_cellRetirement_again hfault hagain hwait
  rw [loseTasks_none hruns] at hexec
  obtain ⟨hframe, hthreads, hothers, htiles⟩ := foldl_stopThread_stops (tidsOf c.val) s (fun t ht => mem_tidsOf_cellOf hc ht)
  set q := (tidsOf c.val).foldl stopThread s
  have hsub := unsited_frame q c.val
  have hspq : rf q .devBlkmap F.devBlkmapSpare (c.val / 8) = 15 := by rw [hframe]; exact hsp
  have hmap : mapMoved s (unsited q c.val) c.val 15 15 := by
    have h := unsited_mapMoved q hc
    rw [hspq] at h
    exact h.of_mmio (by rw [hframe]) rfl
  have hqueue : ∀ k, tqueue (unsited q c.val) k = tqueue s k := fun k => by rw [hsub, hframe]; rfl
  rw [loseHeads_unchecked (fun k e rest hk => hheads k e rest (by rw [← hqueue]; exact hk))] at hexec
  have hcold : coldWithTiles (cell s c.val) (cell (unsited q c.val) c.val) := by
    rw [cell_unsited, if_pos rfl]; exact coldCell_coldWithTiles htiles
  have hrep : (unsited q c.val).repair = s.repair := by rw [hsub, hframe]
  have herr : (unsited q c.val).err = s.err := by rw [hsub, hframe]
  have hend := siteNoted_frame (s := unsited q c.val) (by rw [hrep]; exact hroom) c.val (siteOf s c.val) 15
  have hmoved := siteNoted_moved hmap herr hrep hroom hcold (fun d hd => by rw [cell_unsited, if_neg hd, hothers d hd])
  set p := unsited q c.val
  set n := siteNoted p c.val (siteOf s c.val) 15
  have hthread : ∀ t, thread n t = thread q t := fun t => by rw [hend, hsub]; rfl
  refine ⟨n, hexec, hmoved, fun t ht => ?_, fun t ht => ?_, by rw [hend, hsub, hframe]⟩
  · rw [hthread]; exact (hthreads t).1 ht
  · rw [hthread]; exact (hthreads t).2 ht

end

end Sys2Proof.Machine
end

section
/-! PROOFS. The repair record in the flash (R17, R409, R414, R425). -/

namespace Sys2Proof.Machine

open Sys2Proof.Safety

/-! ## The flash (R414) -/

theorem tget?_filter_key {α : Type} (p : Nat → Bool) (k : Nat) (t : Table α) :
    tget? (t.filter (fun x => p x.1)) k = if p k = true then tget? t k else none := by
  induction t with
  | nil => simp
  | cons x t ih =>
    obtain ⟨a, v⟩ := x
    by_cases ha : a = k
    · subst ha
      by_cases hp : p a = true <;> simp [hp, tget?, ih]
    · by_cases hp : p a = true <;> simp [hp, tget?, ha, ih]

/-- Erased flash reads as ones. -/
theorem flashErase_byte (s : State) (a n k : Nat) :
    tget 0xFF (flashErase s a n).flash k = if a ≤ k ∧ k < a + n then 0xFF else tget 0xFF s.flash k := by
  rw [flashErase, tget, tget?_filter_key (fun i => !(decide (a ≤ i) && decide (i < a + n)))]
  by_cases h : a ≤ k ∧ k < a + n
  · rw [if_neg (by simp [h]), if_pos h]; rfl
  · rw [if_pos (by simp; omega), if_neg h]; rfl

/-- Programming clears the bits of the bytes that it covers, and leaves the others. -/
theorem flashProg_byte (s : State) (a : Nat) (bs : List Byte) (k : Nat) :
    tget 0xFF (flashProg s a bs).flash k = if a ≤ k ∧ k < a + bs.length then tget 0xFF s.flash k &&& bs.getD (k - a) 0 else tget 0xFF s.flash k := by
  unfold flashProg
  dsimp only
  induction bs using List.reverseRecOn with
  | nil => rw [if_neg (by simp)]; rfl
  | append_singleton bs b ih =>
    have hzip : (bs ++ [b]).zip (List.range (bs ++ [b]).length) = bs.zip (List.range bs.length) ++ [(b, bs.length)] := by
      rw [List.length_append, List.length_singleton, List.range_succ, List.zip_append (by simp)]; rfl
    rw [hzip, List.foldl_append, List.foldl_cons, List.foldl_nil, tget_tset, List.length_append, List.length_singleton]
    by_cases hk : k = a + bs.length
    · have hold := ih
      rw [if_neg (by omega)] at hold
      rw [if_pos hk, if_pos (by omega), ← hk, hold, hk, Nat.add_sub_cancel_left]
      simp
    · rw [if_neg hk, ih]
      by_cases hin : a ≤ k ∧ k < a + bs.length
      · rw [if_pos hin, if_pos (by omega), List.getD_append _ _ _ _ (by omega)]
      · rw [if_neg hin, if_neg (by omega)]

/-- A range erased and then programmed from its start holds the bytes given; the flash outside it stays. -/
theorem flashRewrite_bytes (s : State) (a n : Nat) (bs : List Byte) (h : bs.length ≤ n) :
    (∀ k, k < bs.length → tget 0xFF (flashProg (flashErase s a n) a bs).flash (a + k) = bs.getD k 0)
      ∧ (∀ k, k < a ∨ a + n ≤ k → tget 0xFF (flashProg (flashErase s a n) a bs).flash k = tget 0xFF s.flash k) := by
  refine ⟨fun k hk => ?_, fun k hk => ?_⟩
  · rw [flashProg_byte, if_pos (by omega), flashErase_byte, if_pos (by omega), Nat.add_sub_cancel_left]
    exact BitVec.allOnes_and
  · rw [flashProg_byte, if_neg (by omega), flashErase_byte, if_neg (by omega)]

/-! ## Copies of the record (R425) -/

theorem repairImage_length (r : RepairCopy) : (repairImage r).length = 128 + 16 * r.ents.length := by
  have hents : ((r.ents.map (fun e => BitVec.ofNat 8 e.kind :: leBytes (Config.repairBytes e.kind e.unit e.site e.data).toNat 15)).flatten).length = 16 * r.ents.length := by
    rw [List.length_flatten, List.map_map, List.eq_replicate_of_mem (a := 16) (l := List.map _ _), List.sum_replicate]
    · simp [Nat.mul_comm]
    · intro x hx
      obtain ⟨e, -, rfl⟩ := List.mem_map.mp hx
      simp [leBytes_length]
  simp only [repairImage, List.length_append, leBytes_length, List.length_replicate, hents, List.length_cons, List.length_nil]
  omega

/-- The copy that a record is written to: the one with the smaller SEQ, or one that does not verify (R425). -/
def olderCopy (s : State) : Fin 2 :=
  match repairCopy s 0, repairCopy s 1 with
  | some a, some b => if a.seq < b.seq then 0 else 1
  | some _, none => 1
  | none, _ => 0

/-- The greatest SEQ of the copies that verify. -/
def topSeq (s : State) : Nat := max ((repairCopy s 0).elim 0 (fun a => a.seq)) ((repairCopy s 1).elim 0 (fun a => a.seq))

theorem olderCopy_eq (s : State) : olderCopy s = match newestCopy s with | some j => if j = 0 then 1 else 0 | none => 0 := by
  unfold olderCopy newestCopy
  cases repairCopy s 0 <;> cases repairCopy s 1 <;> dsimp only
  case none.some => rfl
  case some.none => rfl
  case some.some a b => by_cases hlt : a.seq < b.seq <;> simp [hlt]

theorem topSeq_eq (s : State) : topSeq s = ((newestCopy s).bind (repairCopy s)).elim 0 (fun c => c.seq) := by
  unfold topSeq newestCopy
  cases h0 : repairCopy s 0 with
  | none =>
    cases h1 : repairCopy s 1 with
    | none => rfl
    | some b => simp [h1]
  | some a =>
    cases h1 : repairCopy s 1 with
    | none => simp [h0]
    | some b =>
      by_cases hlt : a.seq < b.seq
      · simp [hlt, h1, Nat.le_of_lt hlt]
      · simp [hlt, h0, Nat.le_of_not_lt hlt]

/-- The state with a copy noted as written, before the flash takes it. -/
def copyNoted (s : State) (j : Fin 2) (r : RepairCopy) : State :=
  { s with repair := { s.repair with dirty := false, copy0 := if j = 0 then some r else s.repair.copy0, copy1 := if j = 0 then s.repair.copy1 else some r } }

theorem exec_repairRecordWrite_dirty {s : State} (hdirty : s.repair.dirty = true) (hlive : homeLive s 3 = true) :
    exec .repairRecordWrite s = .next (
      let r : RepairCopy := { seq := topSeq s + 1, ents := s.repair.ents }
      flashProg (flashErase (copyNoted s (olderCopy s) r) (copyBase (olderCopy s)) 0x20000) (copyBase (olderCopy s)) (repairImage r)) := by
  have hcmd : exec .repairRecordWrite s = execRepairRecordWrite s := rfl
  rw [hcmd, execRepairRecordWrite, if_neg (by simp [hdirty, hlive]), topSeq_eq, olderCopy_eq]
  rfl

/-- Health writes the record to the older copy, whose range it fills at most (R425). -/
theorem repairRecordWrite_writes {s : State} (hdirty : s.repair.dirty = true) (hfits : s.repair.ents.length ≤ 8184) (hlive : homeLive s 3 = true) :
    let j := olderCopy s
    let new : RepairCopy := { seq := topSeq s + 1, ents := s.repair.ents }
    ∃ n, exec .repairRecordWrite s = .next n ∧ n = { s with repair := n.repair, flash := n.flash }
      ∧ n.repair = { s.repair with
          dirty := false
          copy0 := if j = 0 then some new else s.repair.copy0
          copy1 := if j = 0 then s.repair.copy1 else some new }
      ∧ (∀ k, k < (repairImage new).length → tget 0xFF n.flash (copyBase j + k) = (repairImage new).getD k 0)
      ∧ (∀ a, a < copyBase j ∨ copyBase j + 0x20000 ≤ a → tget 0xFF n.flash a = tget 0xFF s.flash a) := by
  intro j new
  have hlen : (repairImage new).length ≤ 0x20000 := by
    have h := repairImage_length new
    have hents : new.ents.length = s.repair.ents.length := rfl
    omega
  exact ⟨_, exec_repairRecordWrite_dirty hdirty hlive, rfl, rfl, flashRewrite_bytes (copyNoted s j new) (copyBase j) 0x20000 (repairImage new) hlen⟩

end Sys2Proof.Machine
end

section
/-! PROOFS. Spare rows of block memory (R219). -/

namespace Sys2Proof.Machine

open Sys2Proof.Safety

/-- The bank's spare taken: the row joins its list, the least count of spares left falls with it. -/
def spareTaken (s : State) (b bank row : Nat) : State :=
  let used := sparesUsed s b bank
  setRf { s with bm := { s.bm with spares := tset [] s.bm.spares (bankKey b bank) (used ++ [row]) } } .devBmcfg F.devBmcfgSpareMin
    (min (rf s .devBmcfg F.devBmcfgSpareMin) (31 - used.length))

theorem sparesUsed_spareTaken (s : State) (b bank row d k : Nat) :
    sparesUsed (spareTaken s b bank row) d k = if bankKey d k = bankKey b bank then sparesUsed s b bank ++ [row] else sparesUsed s d k := tget_tset ..

theorem rf_spareTaken (s : State) (b bank row : Nat) :
    rf (spareTaken s b bank row) .devBmcfg F.devBmcfgSpareMin = min (rf s .devBmcfg F.devBmcfgSpareMin) (31 - (sparesUsed s b bank).length) := by
  have hlt : rf s .devBmcfg F.devBmcfgSpareMin < 2 ^ 6 := Nat.mod_lt _ (by decide)
  rw [spareTaken, rf_setRf_same _ _ _ _ _ (by decide) (by decide)]
  exact Nat.mod_eq_of_lt (lt_of_le_of_lt (Nat.min_le_left _ _) hlt)

theorem regsKept_spareTaken (s : State) (b bank row : Nat) : regsKept [.devBmcfg] s (spareTaken s b bank row) :=
  regsKept_setReg { s with bm := { s.bm with spares := _ } } .devBmcfg (by decide) _

section
variable {s : State} {b : Fin 96} {bank : Fin 32} {row : Nat}

theorem exec_rowSpare_notDue (hdue : rowDue s (bmRowKey b.val bank.val) row = false) : exec (.rowSpare b bank row) s = .next s := by
  have hcmd : exec (.rowSpare b bank row) s = execRowSpare b bank row s := rfl
  rw [hcmd, execRowSpare]
  exact congrArg _ (if_pos (by simp [hdue]))

theorem exec_rowSpare_due (hrow : row < 1536) (hdue : rowDue s (bmRowKey b.val bank.val) row = true) :
    exec (.rowSpare b bank row) s = .next (
      let done := rowDone s (bmRowKey b.val bank.val) row
      let used := sparesUsed s b.val bank.val
      if used.length < 32 then
        addRepair (report (spareTaken done b.val bank.val row) (mkErr 0x22 0x21 b.val bank.val 0 (pack [(0, bank.val), (16, row)])))
          { kind := 2, unit := b.val, site := bank.val, data := pack [(0, row), (16, used.length)] }
      else report done (mkErr 0x22 0x21 b.val bank.val 0 (pack [(0, bank.val), (16, row), (31, 1)]))) := by
  have hcmd : exec (.rowSpare b bank row) s = execRowSpare b bank row s := rfl
  rw [hcmd, execRowSpare]
  have hleft : bmSpareRows - ((sparesUsed s b.val bank.val).length + 1) = 31 - (sparesUsed s b.val bank.val).length := by rw [bmSpareRows]; omega
  dsimp only
  rw [if_neg (by simp [hdue, bmRows, Nat.not_le.mpr hrow]), hleft]
  rfl

/-- A row whose spare is due takes the next spare of its bank (R219). -/
theorem rowSpare_takes (hrow : row < 1536) (hroom : s.repair.ents.length < 8184) (hdue : rowDue s (bmRowKey b.val bank.val) row = true)
    (hused : (sparesUsed s b.val bank.val).length < 32) :
    ∃ n, exec (.rowSpare b bank row) s = .next n ∧ sparesUsed n b.val bank.val = sparesUsed s b.val bank.val ++ [row]
      ∧ (∀ d k, bankKey d k ≠ bankKey b.val bank.val → sparesUsed n d k = sparesUsed s d k)
      ∧ rf n .devBmcfg F.devBmcfgSpareMin = min (rf s .devBmcfg F.devBmcfgSpareMin) (31 - (sparesUsed s b.val bank.val).length)
      ∧ fieldsKept .devBmcfg 0 [F.devBmcfgSpareMin] s n ∧ regsKept [.devBmcfg] s n
      ∧ noted (rowDone s (bmRowKey b.val bank.val) row) n (mkErr 0x22 0x21 b.val bank.val 0 (pack [(0, bank.val), (16, row)]))
      ∧ (∃ e, n.repair = { s.repair with ents := s.repair.ents ++ [e], dirty := true } ∧ e.kind = 2 ∧ e.unit = b.val)
      ∧ n = { s with bm := n.bm, mmio := n.mmio, err := n.err, repair := n.repair } := by
  set done := rowDone s (bmRowKey b.val bank.val) row with hdone
  set e : RepairEnt := { kind := 2, unit := b.val, site := bank.val, data := pack [(0, row), (16, (sparesUsed s b.val bank.val).length)] } with he
  have hexec := exec_rowSpare_due hrow hdue
  dsimp only at hexec
  have hadd := addRepair_room (s := report (spareTaken done b.val bank.val row) (mkErr 0x22 0x21 b.val bank.val 0 (pack [(0, bank.val), (16, row)]))) (e := e)
    (.inr rfl) hroom
  rw [if_pos hused, ← hdone, ← he, hadd] at hexec
  refine ⟨_, hexec, ?_, fun d k hne => ?_, rf_spareTaken done b.val bank.val row, ?_, regsKept_spareTaken done b.val bank.val row, rfl, ⟨e, rfl, rfl, rfl⟩, rfl⟩
  · exact (sparesUsed_spareTaken done _ _ _ _ _).trans (if_pos rfl)
  · exact (sparesUsed_spareTaken done _ _ _ _ _).trans (if_neg hne)
  · exact fieldsKept_setRf _ .devBmcfg (by decide) (by decide) _ 0

/-- With no spare left the row is recorded, and stays (R219). -/
theorem rowSpare_stays (hrow : row < 1536) (hdue : rowDue s (bmRowKey b.val bank.val) row = true) (hused : 32 ≤ (sparesUsed s b.val bank.val).length) :
    ∃ n, exec (.rowSpare b bank row) s = .next n ∧ n = { s with err := n.err }
      ∧ noted (rowDone s (bmRowKey b.val bank.val) row) n (mkErr 0x22 0x21 b.val bank.val 0 (pack [(0, bank.val), (16, row), (31, 1)])) := by
  have hexec := exec_rowSpare_due hrow hdue
  dsimp only at hexec
  rw [if_neg (by omega)] at hexec
  exact ⟨_, hexec, rfl, rfl⟩

end

end Sys2Proof.Machine
end

section
/-! PROOFS. Repairs of HBM rows, and the pages offlined where none is possible (R250–R253). -/

namespace Sys2Proof.Machine

open Sys2Proof.Safety

/-! ## Words packed from fields -/

theorem testBit_foldl_pack (l : List (Nat × Nat)) (a j : Nat) :
    (l.foldl (fun a p => a ||| (p.2 <<< p.1)) a).testBit j = (a.testBit j || l.any (fun p => decide (p.1 ≤ j) && p.2.testBit (j - p.1))) := by
  induction l generalizing a with
  | nil => simp
  | cons p l ih => rw [List.foldl_cons, ih, Nat.testBit_or, Nat.testBit_shiftLeft, List.any_cons, Bool.or_assoc]

/-- A field of a packed word holds the value laid there, where every other value lies above the field or ends below it. -/
theorem fget_pack {l : List (Nat × Nat)} {f : Fld} {v : Nat} (hn : f.hi < 64) (hmem : (f.lo, v) ∈ l) (hv : v < 2 ^ (f.hi + 1 - f.lo))
    (hrest : ∀ p ∈ l, p = (f.lo, v) ∨ f.hi < p.1 ∨ p.2 < 2 ^ (f.lo - p.1)) : fget (pack l) f = v := by
  apply Nat.eq_of_testBit_eq
  intro j
  rw [fget, testBit_bits, pack, wd, BitVec.getLsbD_ofNat, testBit_foldl_pack, Nat.zero_testBit, Bool.false_or]
  by_cases hj : j < f.hi + 1 - f.lo
  · rw [decide_eq_true hj, decide_eq_true (by omega), Bool.true_and, Bool.true_and, Bool.eq_iff_iff, List.any_eq_true]
    constructor
    · rintro ⟨p, hp, hbit⟩
      simp only [Bool.and_eq_true, decide_eq_true_eq] at hbit
      obtain ⟨hle, hbit⟩ := hbit
      rcases hrest p hp with rfl | habove | hbelow
      · simpa using hbit
      · omega
      · have hlt : p.2 < 2 ^ (f.lo + j - p.1) := lt_of_lt_of_le hbelow (Nat.pow_le_pow_right (by decide) (by omega))
        rw [Nat.testBit_lt_two_pow hlt] at hbit
        exact absurd hbit (by decide)
    · intro hbit
      exact ⟨_, hmem, by simpa using hbit⟩
  · rw [decide_eq_false hj, Bool.false_and, Nat.testBit_lt_two_pow (lt_of_lt_of_le hv (Nat.pow_le_pow_right (by decide) (by omega)))]

/-! ## The remap table (R251, R252) -/

theorem find?_rmKeys_first {k e : Nat} {p : Nat → Bool} (he : e < 512) (hp : p (512 * k + e) = true) (hfirst : ∀ d, d < e → p (512 * k + d) = false) :
    (rmKeys k).find? p = some (512 * k + e) := by
  have hrange : (List.range 512).find? (p ∘ fun e => k * 512 + e) = some e := by
    rw [List.find?_range_eq_some]
    refine ⟨?_, List.mem_range.mpr he, fun d hd => ?_⟩
    · rw [Function.comp_apply, Nat.mul_comm]; exact hp
    · rw [Function.comp_apply, Nat.mul_comm, hfirst d hd]; rfl
  rw [rmKeys, List.find?_map, hrange, Option.map_some, Nat.mul_comm]

theorem find?_rmKeys_none {k : Nat} {p : Nat → Bool} (h : ∀ e, e < 512 → p (512 * k + e) = false) : (rmKeys k).find? p = none := by
  rw [List.find?_eq_none]
  intro x hx
  obtain ⟨e, he, rfl⟩ := List.mem_map.mp hx
  rw [Nat.mul_comm, h e (List.mem_range.mp he)]
  decide

/-- The entry that names a row, if any; and the entry that a repair of the row takes: that one, else the lowest free one (R252). -/
def rmNamed (s : State) (k ch pc bank row : Nat) : Option Nat := (rmKeys k).find? (fun e => rmNames (reg s .hbmRment e) ch pc bank (some row))
def rmEntry (s : State) (k ch pc bank row : Nat) : Option Nat :=
  rmNamed s k ch pc bank row <|> (rmKeys k).find? (fun e => decide (fget (reg s .hbmRment e) F.hbmRmentValid = 0))

/-- The lowest spare of a bank that no entry points to and that no repair has retired (R251; log 68). -/
def rmSpare (s : State) (k ch pc bank : Nat) : Option Nat :=
  let inUse := ((rmKeys k).filter (fun e => rmNames (reg s .hbmRment e) ch pc bank none)).map (fun e => fget (reg s .hbmRment e) F.hbmRmentSpare)
  (List.range 16).find? (fun m => !inUse.contains m && !(tget [] s.hbm.retired (rmBank k ch pc bank)).contains m)

/-- A spare that a repair may take. -/
def spareOpen (s : State) (k ch pc bank m : Nat) : Prop :=
  (∀ e, e < 512 → rmNames (reg s .hbmRment (512 * k + e)) ch pc bank none = true → fget (reg s .hbmRment (512 * k + e)) F.hbmRmentSpare ≠ m)
    ∧ m ∉ tget [] s.hbm.retired (rmBank k ch pc bank)

theorem spareOpen_iff (s : State) (k ch pc bank m : Nat) :
    spareOpen s k ch pc bank m ↔
      (!(((rmKeys k).filter (fun e => rmNames (reg s .hbmRment e) ch pc bank none)).map (fun e => fget (reg s .hbmRment e) F.hbmRmentSpare)).contains m
        && !(tget [] s.hbm.retired (rmBank k ch pc bank)).contains m) = true := by
  rw [Bool.and_eq_true, Bool.not_eq_true', Bool.not_eq_true', ← Bool.not_eq_true, ← Bool.not_eq_true, List.contains_iff_mem, List.contains_iff_mem, spareOpen]
  refine and_congr_left fun _ => ?_
  rw [List.mem_map]
  constructor
  · rintro h ⟨x, hx, hm⟩
    rw [List.mem_filter] at hx
    obtain ⟨hkey, hnames⟩ := hx
    obtain ⟨e, he, rfl⟩ := List.mem_map.mp hkey
    rw [Nat.mul_comm] at hnames hm
    exact h e (List.mem_range.mp he) hnames hm
  · intro h e he hnames hm
    refine h ⟨512 * k + e, List.mem_filter.mpr ⟨List.mem_map.mpr ⟨e, List.mem_range.mpr he, by rw [Nat.mul_comm]⟩, hnames⟩, hm⟩

theorem rmSpare_lowest {s : State} {k ch pc bank m : Nat} (hm : m < 16) (hopen : spareOpen s k ch pc bank m) (hlow : ∀ d, d < m → ¬spareOpen s k ch pc bank d) :
    rmSpare s k ch pc bank = some m := by
  rw [rmSpare, List.find?_range_eq_some]
  refine ⟨(spareOpen_iff ..).mp hopen, List.mem_range.mpr hm, fun d hd => ?_⟩
  rw [Bool.not_eq_true', ← Bool.not_eq_true]
  exact fun h => hlow d hd ((spareOpen_iff ..).mpr h)

theorem rmSpare_none {s : State} {k ch pc bank : Nat} (h : ∀ m, m < 16 → ¬spareOpen s k ch pc bank m) : rmSpare s k ch pc bank = none := by
  rw [rmSpare, List.find?_eq_none]
  exact fun m hm hbit => h m (List.mem_range.mp hm) ((spareOpen_iff ..).mpr hbit)

section
variable {s : State} {k ch pc bank row : Nat}

/-- The entry of a repair, by the two ways in which the statement names it. -/
theorem rmEntry_eq {e : Nat} (he : e < 512)
    (h : rmNames (reg s .hbmRment (512 * k + e)) ch pc bank (some row) = true
          ∧ (∀ d, d < e → ¬rmNames (reg s .hbmRment (512 * k + d)) ch pc bank (some row) = true)
        ∨ (∀ d, d < 512 → ¬rmNames (reg s .hbmRment (512 * k + d)) ch pc bank (some row) = true)
          ∧ fget (reg s .hbmRment (512 * k + e)) F.hbmRmentValid = 0
          ∧ ∀ d, d < e → ¬fget (reg s .hbmRment (512 * k + d)) F.hbmRmentValid = 0) :
    rmEntry s k ch pc bank row = some (512 * k + e)
      ∧ (rmNamed s k ch pc bank row).isSome = rmNames (reg s .hbmRment (512 * k + e)) ch pc bank (some row) := by
  rcases h with ⟨hnames, hfirst⟩ | ⟨hnone, hfree, hfirst⟩
  · have hnamed : rmNamed s k ch pc bank row = some (512 * k + e) :=
      find?_rmKeys_first he hnames (fun d hd => eq_false_of_ne_true (hfirst d hd))
    rw [rmEntry, hnamed, hnames]
    exact ⟨rfl, rfl⟩
  · have hnamed : rmNamed s k ch pc bank row = none := find?_rmKeys_none (fun d hd => eq_false_of_ne_true (hnone d hd))
    have hentry := find?_rmKeys_first (p := fun e => decide (fget (reg s .hbmRment e) F.hbmRmentValid = 0)) he (decide_eq_true hfree)
      (fun d hd => decide_eq_false (hfirst d hd))
    rw [rmEntry, hnamed, hentry, eq_false_of_ne_true (hnone e he)]
    exact ⟨rfl, rfl⟩

theorem rmEntry_none (h : ∀ e, e < 512 → ¬rmNames (reg s .hbmRment (512 * k + e)) ch pc bank (some row) = true
      ∧ ¬fget (reg s .hbmRment (512 * k + e)) F.hbmRmentValid = 0) : rmEntry s k ch pc bank row = none := by
  have hnamed : rmNamed s k ch pc bank row = none := find?_rmKeys_none (fun d hd => eq_false_of_ne_true (h d hd).1)
  rw [rmEntry, hnamed, find?_rmKeys_none (fun d hd => decide_eq_false (h d hd).2)]
  rfl

end

/-! ## A row read for its copy (R251) -/

/-- Between s and n a row has been read: errors noted, counted and marked, no byte changed. -/
def rowRead (s n : State) : Prop :=
  n = { s with err := n.err, mmio := n.mmio, ms := { s.ms with hbmPoison := n.ms.hbmPoison, bmPoison := n.ms.bmPoison } }
    ∧ regsKept [.hbmChstat] s n ∧ sameHome s n

theorem rowRead.refl (s : State) : rowRead s s := ⟨rfl, regsKept_refl _ s, .refl s⟩

theorem rowRead.trans {a b d : State} (h : rowRead a b) (k : rowRead b d) : rowRead a d :=
  ⟨by rw [k.1, h.1], regsKept_trans h.2.1 k.2.1, h.2.2.trans k.2.2⟩

theorem noteRow_eq (s : State) (key row : Nat) (b : Bool) : noteRow s key row b = { s with err := (noteRow s key row b).err } := by
  unfold noteRow; dsimp only; split <;> rfl

theorem touchLatent_rowRead (s : State) (l i : Nat) : rowRead s (touchLatent s l i) := by
  obtain ⟨-, hregs, hhome⟩ := touchLatent_keeps s l i
  refine ⟨?_, hregs, hhome⟩
  unfold touchLatent
  split
  · rfl
  · dsimp only
    have hnoted : ∀ key row b, ∃ e, noteRow { s with err := { s.err with latent := tdel (16 * l + i) s.err.latent } } key row b = { s with err := e } :=
      fun key row b => ⟨_, noteRow_eq _ key row b⟩
    split
    · obtain ⟨e, he⟩ := hnoted (chKey _ _) (hbmRow _ _ _) _
      rw [he]; split <;> rfl
    · obtain ⟨e, he⟩ := hnoted (bmRowKey _ _) _ _
      rw [he]; split <;> rfl

theorem foldl_rowRead {α : Type} (f : State → α → State) (h : ∀ s a, rowRead s (f s a)) (l : List α) (s : State) : rowRead s (l.foldl f s) :=
  foldl_inv (rowRead s) f (fun _ a hb => hb.trans (h _ a)) l s (.refl s)

theorem touchRow_rowRead (s : State) (k ch pc bank row : Nat) : rowRead s (touchRow s k ch pc bank row) :=
  foldl_rowRead _ (fun s _ => foldl_rowRead _ (fun s j => touchLatent_rowRead s _ j) _ s) _ s

/-! ## Repairs (R251–R253) -/

/-- The word of a remap entry. -/
def rmWord (ch pc bank row m rep : Nat) : Word := pack [(0, 1), (1, ch), (6, pc), (7, bank), (13, row), (28, m), (32, rep)]

theorem rmWord_fields {ch pc bank row m : Nat} (rep : Nat) (hch : ch < 32) (hpc : pc < 2) (hbank : bank < 64) (hrow : row < 32768) (hm : m < 16) :
    fget (rmWord ch pc bank row m rep) F.hbmRmentValid = 1 ∧ fget (rmWord ch pc bank row m rep) F.hbmRmentCh = ch
      ∧ fget (rmWord ch pc bank row m rep) F.hbmRmentPc = pc ∧ fget (rmWord ch pc bank row m rep) F.hbmRmentBank = bank
      ∧ fget (rmWord ch pc bank row m rep) F.hbmRmentRow = row ∧ fget (rmWord ch pc bank row m rep) F.hbmRmentSpare = m := by
  refine ⟨?_, ?_, ?_, ?_, ?_, ?_⟩ <;> refine fget_pack (by decide) ?_ ?_ ?_ <;>
    simp [F.hbmRmentValid, F.hbmRmentCh, F.hbmRmentPc, F.hbmRmentBank, F.hbmRmentRow, F.hbmRmentSpare]
  all_goals omega

/-- A remap entry in the repair record takes the place of the older one of its number; the record keeps its room. -/
theorem addRepair_entry {s : State} {e : RepairEnt} (hk : e.kind = 3) (h : s.repair.ents.length < 8184) :
    addRepair s e = { s with repair := (addRepair s e).repair } ∧ (addRepair s e).repair.dirty = true ∧ e ∈ (addRepair s e).repair.ents := by
  have hkind : (e.kind = 3 || e.kind = 6) = true := by simp [hk]
  have hlen := List.length_filter_le (fun o => !(decide (o.kind = e.kind) && decide (o.unit = e.unit) && decide (o.site = e.site))) s.repair.ents
  simp only [addRepair, hkind, if_true]
  rw [if_neg (by omega)]
  exact ⟨rfl, rfl, List.mem_append_right _ (List.mem_singleton.mpr rfl)⟩

/-- The bank's spares retired after a repair: the one that the row's own entry pointed to joins them (R252). -/
def spareRetired (s : State) (bk : Nat) (named : Bool) (old : Nat) : State :=
  if named then { s with hbm := { s.hbm with retired := tset [] s.hbm.retired bk (tget [] s.hbm.retired bk ++ [old]) } } else s

theorem spareRetired_spec (s : State) (bk : Nat) (named : Bool) (old : Nat) :
    spareRetired s bk named old = { s with hbm := (spareRetired s bk named old).hbm }
      ∧ tget [] (spareRetired s bk named old).hbm.retired bk = tget [] s.hbm.retired bk ++ (if named then [old] else []) := by
  unfold spareRetired
  cases named
  · exact ⟨rfl, by simp⟩
  · exact ⟨rfl, by simp⟩

/-- A due row read for its copy, and the spare that its own entry named retired. -/
def rowCopied (s : State) (k ch pc bank row : Nat) (named : Bool) (old : Nat) : State :=
  spareRetired (touchRow (rowDone s (chKey k ch) (hbmRow pc bank row)) k ch pc bank row) (rmBank k ch pc bank) named old

section
variable {s : State} {k : Fin 12} {ch : Fin 32} {pc : Fin 2} {bank : Fin 64} {row : Nat}

/-- The word that a repair writes: the row's own entry counts another repoint. -/
def rmNewWord (s : State) (k ch pc bank row e m : Nat) : Word :=
  rmWord ch pc bank row m (if (rmNamed s k ch pc bank row).isSome then min 255 (fget (reg s .hbmRment e) F.hbmRmentRepoints + 1) else 0)

/-- The repair of a row by entry e and spare m (R251, R252). -/
def rowRepaired (s : State) (k : Fin 12) (ch : Fin 32) (pc : Fin 2) (bank : Fin 64) (row e m : Nat) : State :=
  let w := rmNewWord s k.val ch.val pc.val bank.val row e m
  let copied := rowCopied s k.val ch.val pc.val bank.val row (rmNamed s k.val ch.val pc.val bank.val row).isSome (fget (reg s .hbmRment e) F.hbmRmentSpare)
  addRepair (report (recountRm (setReg copied .hbmRment e w) k.val) (mkErr 0x35 7 k.val ch.val 0 w)) { kind := 3, unit := k.val, site := e % 512, data := w }

theorem exec_rowRepair_notDue (hdue : rowDue s (chKey k.val ch.val) (hbmRow pc.val bank.val row) = false) :
    exec (.rowRepair k ch pc bank row) s = .next s := by
  have hcmd : exec (.rowRepair k ch pc bank row) s = execRowRepair k ch pc bank row s := rfl
  rw [hcmd, execRowRepair]
  exact congrArg _ (if_pos (by simp [hdue]))

theorem exec_rowRepair_due (hrow : row < 20480) (hdue : rowDue s (chKey k.val ch.val) (hbmRow pc.val bank.val row) = true) :
    exec (.rowRepair k ch pc bank row) s = .next (
      match rmEntry s k.val ch.val pc.val bank.val row, rmSpare s k.val ch.val pc.val bank.val with
      | some e, some m => rowRepaired s k ch pc bank row e m
      | _, _ => offline (rowDone s (chKey k.val ch.val) (hbmRow pc.val bank.val row)) k.val ch.val pc.val bank.val row) := by
  have hcmd : exec (.rowRepair k ch pc bank row) s = execRowRepair k ch pc bank row s := rfl
  have hread := (touchRow_rowRead (rowDone s (chKey k.val ch.val) (hbmRow pc.val bank.val row)) k.val ch.val pc.val bank.val row).1
  have hretired : (touchRow (rowDone s (chKey k.val ch.val) (hbmRow pc.val bank.val row)) k.val ch.val pc.val bank.val row).hbm = s.hbm := by rw [hread]; rfl
  rw [hcmd, execRowRepair]
  unfold rmEntry rmSpare rowRepaired rmNewWord rowCopied rmNamed
  dsimp only
  rw [if_neg (by simp [hdue, Nat.not_le.mpr hrow])]
  generalize (rmKeys k.val).find? (fun e => rmNames (reg s .hbmRment e) ch.val pc.val bank.val (some row)) = named
  generalize (rmKeys k.val).find? (fun e => decide (fget (reg s .hbmRment e) F.hbmRmentValid = 0)) = free
  generalize (List.range 16).find? _ = spare
  generalize (named <|> free) = entry
  cases entry with
  | none => rfl
  | some e =>
    cases spare with
    | none => rfl
    | some m => simp only [spareRetired, hretired]; rfl

end

/-- A field of a stack's status other than its state leaves the bytes that homes serve. -/
theorem setRf_stkstat_sameHome (s : State) {f : Fld} (hlo : 2 < f.lo) (hf : f.lo ≤ f.hi) (hn : f.hi < 64) (v : Nat) {k : Nat} (hk : k < 65536) :
    sameHome s (setRf s .hbmStkstat f v k) := by
  refine ⟨rfl, rfl, rfl, rfl, fun i hi => ?_, fun i hi => ?_⟩
  · exact rf_setRf_away s _ _ _ hk hi (fun h => nomatch h.1)
  · by_cases h : i = k
    · rw [h]; exact rf_setRf_other s _ _ _ _ _ hf hn (.inl hlo)
    · exact rf_setRf_away s _ _ _ hk hi (fun e => h e.2)

theorem recountRm_keeps (s : State) {k : Nat} (hk : k < 65536) :
    recountRm s k = { s with mmio := (recountRm s k).mmio } ∧ regsKept [.hbmStkstat] s (recountRm s k) ∧ sameHome s (recountRm s k) := by
  refine ⟨rfl, ?_, ?_⟩
  · exact regsKept_trans (regsKept_setReg s .hbmStkstat hk _) (regsKept_setReg _ .hbmStkstat hk _)
  · exact (setRf_stkstat_sameHome s (by decide) (by decide) (by decide) _ hk).trans (setRf_stkstat_sameHome _ (by decide) (by decide) (by decide) _ hk)

/-- A remap entry written, and the table's counts with it: the entry holds the word, no other changed. -/
theorem entryWritten_spec (s : State) {k key : Nat} (hk : k < 12) (hkey : key < 6144) (w : Word) :
    let n := recountRm (setReg s .hbmRment key w) k
    n = { s with mmio := n.mmio } ∧ reg n .hbmRment key = w ∧ (∀ d, d < 6144 → d ≠ key → reg n .hbmRment d = reg s .hbmRment d)
      ∧ regsKept [.hbmRment, .hbmStkstat] s n ∧ sameHome s n := by
  obtain ⟨-, hregs, hhome⟩ := recountRm_keeps (setReg s .hbmRment key w) (k := k) (by omega)
  have hset := regsKept_setReg s .hbmRment (i := key) (by omega) w
  have hsetHome : sameHome s (setReg s .hbmRment key w) := sameHome_of_regs rfl hset (by decide) (by decide)
  refine ⟨rfl, ?_, fun d hd hne => ?_, ?_, hsetHome.trans hhome⟩
  · rw [hregs _ _ (by omega) (by decide), reg_setReg_same]
  · rw [hregs _ _ (by omega) (by decide), reg_setReg_other s w (by omega) (by omega) (fun h => hne h.2)]
  · exact regsKept_trans (regsKept_mono hset (by simp)) (regsKept_mono hregs (by simp))

theorem rowCopied_spec (s : State) (k ch pc bank row : Nat) (named : Bool) (old : Nat) :
    let n := rowCopied s k ch pc bank row named old
    n = { s with hbm := n.hbm, mmio := n.mmio, err := n.err, ms := { s.ms with hbmPoison := n.ms.hbmPoison, bmPoison := n.ms.bmPoison } }
      ∧ tget [] n.hbm.retired (rmBank k ch pc bank) = tget [] s.hbm.retired (rmBank k ch pc bank) ++ (if named then [old] else [])
      ∧ regsKept [.hbmChstat] s n ∧ sameHome s n := by
  have hdone : rowRead s (rowDone s (chKey k ch) (hbmRow pc bank row)) := ⟨rfl, regsKept_refl _ s, ⟨rfl, rfl, rfl, rfl, fun _ _ => rfl, fun _ _ => rfl⟩⟩
  obtain ⟨hread, hregs, hhome⟩ := hdone.trans (touchRow_rowRead _ k ch pc bank row)
  unfold rowCopied
  generalize touchRow (rowDone s (chKey k ch) (hbmRow pc bank row)) k ch pc bank row = q at *
  obtain ⟨hret, hretired⟩ := spareRetired_spec q (rmBank k ch pc bank) named old
  generalize spareRetired q (rmBank k ch pc bank) named old = n at *
  have hmmio : ∀ r i, reg n r i = reg q r i := fun r i => by rw [hret]; rfl
  have hkept : sameHome q n := ⟨by rw [hret], by rw [hret], by rw [hret], by rw [hret], fun i _ => by simp only [rf, hmmio], fun i _ => by simp only [rf, hmmio]⟩
  refine ⟨by rw [hret, hread], by rw [hretired, hread], fun r i hi hr => (hmmio r i).trans (hregs r i hi hr), hhome.trans hkept⟩

section
variable {s : State} {k : Fin 12} {ch : Fin 32} {pc : Fin 2} {bank : Fin 64} {row : Nat}

/-- What a repair of a row changes and what it keeps (R251, R252, R425). -/
theorem rowRepaired_spec (hrow : row < 20480) (hroom : s.repair.ents.length < 8184) {e m : Nat} (he : e < 512) (hm : m < 16)
    (hnamed : (rmNamed s k.val ch.val pc.val bank.val row).isSome = rmNames (reg s .hbmRment (512 * k.val + e)) ch.val pc.val bank.val (some row)) :
    let n := rowRepaired s k ch pc bank row (512 * k.val + e) m
    let w := reg n .hbmRment (512 * k.val + e)
    (fget w F.hbmRmentValid = 1 ∧ fget w F.hbmRmentCh = ch.val ∧ fget w F.hbmRmentPc = pc.val ∧ fget w F.hbmRmentBank = bank.val
      ∧ fget w F.hbmRmentRow = row ∧ fget w F.hbmRmentSpare = m)
    ∧ (∀ d, d < 6144 → d ≠ 512 * k.val + e → reg n .hbmRment d = reg s .hbmRment d)
    ∧ tget [] n.hbm.retired (rmBank k.val ch.val pc.val bank.val) = tget [] s.hbm.retired (rmBank k.val ch.val pc.val bank.val)
        ++ (if rmNames (reg s .hbmRment (512 * k.val + e)) ch.val pc.val bank.val (some row) = true
            then [fget (reg s .hbmRment (512 * k.val + e)) F.hbmRmentSpare] else [])
    ∧ regsKept [.hbmRment, .hbmStkstat, .hbmChstat] s n ∧ bytesKept s n
    ∧ (∃ f, f.kind = 3 ∧ f.unit = k.val ∧ f.site = e ∧ f ∈ n.repair.ents) ∧ n.repair.dirty = true
    ∧ n = { s with hbm := n.hbm, mmio := n.mmio, err := n.err, repair := n.repair, ms := { s.ms with hbmPoison := n.ms.hbmPoison, bmPoison := n.ms.bmPoison } } := by
  have hkey : 512 * k.val + e < 6144 := by omega
  obtain ⟨hcopied, hretired, hcopiedRegs, hcopiedHome⟩ := rowCopied_spec s k.val ch.val pc.val bank.val row
    (rmNamed s k.val ch.val pc.val bank.val row).isSome (fget (reg s .hbmRment (512 * k.val + e)) F.hbmRmentSpare)
  have hfields := rmWord_fields (ch := ch.val) (pc := pc.val) (bank := bank.val) (row := row) (m := m)
    (if (rmNamed s k.val ch.val pc.val bank.val row).isSome then min 255 (fget (reg s .hbmRment (512 * k.val + e)) F.hbmRmentRepoints + 1) else 0)
    ch.isLt pc.isLt bank.isLt (by omega) hm
  unfold rowRepaired
  dsimp only
  rw [← rmNewWord] at hfields
  generalize rmNewWord s k.val ch.val pc.val bank.val row (512 * k.val + e) m = w at *
  generalize rowCopied s k.val ch.val pc.val bank.val row _ _ = q at *
  obtain ⟨hwritten, hentry, hothers, hregs, hhome⟩ := entryWritten_spec q k.isLt hkey w
  generalize recountRm (setReg q .hbmRment (512 * k.val + e) w) k.val = p at *
  obtain ⟨hadd, hdirty, hmem⟩ := addRepair_entry (s := report p (mkErr 0x35 7 k.val ch.val 0 w))
    (e := { kind := 3, unit := k.val, site := (512 * k.val + e) % 512, data := w }) rfl
    (show p.repair.ents.length < 8184 by rw [hwritten, hcopied]; exact hroom)
  generalize addRepair _ _ = n at *
  have hn : n = { p with err := n.err, repair := n.repair } := by rw [hadd]; rfl
  have hreg : ∀ r i, reg n r i = reg p r i := fun r i => by rw [hn]; rfl
  have hkept : sameHome p n := ⟨by rw [hn], by rw [hn], by rw [hn], by rw [hn], fun i _ => by simp only [rf, hreg], fun i _ => by simp only [rf, hreg]⟩
  refine ⟨?_, fun d hd hne => ?_, ?_, fun r i hi hr => ?_, ((hcopiedHome.trans hhome).trans hkept).bytes, ⟨_, rfl, rfl, ?_, hmem⟩, hdirty, by rw [hn, hwritten, hcopied]⟩
  · rw [hreg, hentry]; exact hfields
  · rw [hreg, hothers d hd hne, hcopiedRegs _ _ (by omega) (by decide)]
  · rw [← hnamed, ← hretired, hn, hwritten]
  · rw [hreg, regsKept_mono hregs (m := [.hbmRment, .hbmStkstat, .hbmChstat]) (by simp) r i hi hr]
    exact regsKept_mono hcopiedRegs (m := [.hbmRment, .hbmStkstat, .hbmChstat]) (by simp) r i hi hr
  · exact (Nat.mul_add_mod ..).trans (Nat.mod_eq_of_lt he)

end

/-! ## Pages offlined (R253) -/

section
variable {s : State} {k : Fin 12} {ch : Fin 32} {pc : Fin 2} {bank : Fin 64} {row : Nat}

/-- A page already reported is not reported again in the same boot. -/
theorem offline_again (h : rowPage s k.val ch.val pc.val bank.val row ∈ s.hbm.offlined) : offline s k.val ch.val pc.val bank.val row = s :=
  if_pos (List.contains_iff_mem.mpr h)

theorem offline_first (h : rowPage s k.val ch.val pc.val bank.val row ∉ s.hbm.offlined) :
    let p := rowPage s k.val ch.val pc.val bank.val row
    let n := offline s k.val ch.val pc.val bank.val row
    n = { s with hbm := { s.hbm with offlined := p :: s.hbm.offlined }, mmio := n.mmio, err := n.err }
      ∧ rf n .hbmStkstat F.hbmStkstatOfflined k.val = min 65535 (rf s .hbmStkstat F.hbmStkstatOfflined k.val + 1) ∧ regsKept [.hbmStkstat] s n
      ∧ noted s n (mkErr 0x36 7 k.val ch.val (wd p)) := by
  intro p n
  set q : State := { s with hbm := { s.hbm with offlined := p :: s.hbm.offlined } } with hq
  have hn : n = report (bumpRf q .hbmStkstat F.hbmStkstatOfflined 1 k.val) (mkErr 0x36 7 k.val ch.val (wd p)) :=
    if_neg (fun hmem => h (List.contains_iff_mem.mp hmem))
  have hcount : rf (bumpRf q .hbmStkstat F.hbmStkstatOfflined 1 k.val) .hbmStkstat F.hbmStkstatOfflined k.val
      = min 65535 (rf s .hbmStkstat F.hbmStkstatOfflined k.val + 1) := by
    rw [bumpRf, rf_setRf_same _ _ _ _ _ (by decide) (by decide)]
    have htop : min 65535 (rf s .hbmStkstat F.hbmStkstatOfflined k.val + 1) < 2 ^ 16 := lt_of_le_of_lt (Nat.min_le_left _ _) (by norm_num)
    exact Nat.mod_eq_of_lt htop
  rw [hn]
  exact ⟨rfl, hcount, regsKept_setReg q .hbmStkstat (by omega) _, rfl⟩

/-- A due row with an entry and a spare for it is repaired (R251). -/
theorem exec_rowRepair_takes (hrow : row < 20480) (hdue : rowDue s (chKey k.val ch.val) (hbmRow pc.val bank.val row) = true) {e m : Nat}
    (hentry : rmEntry s k.val ch.val pc.val bank.val row = some e) (hspare : rmSpare s k.val ch.val pc.val bank.val = some m) :
    exec (.rowRepair k ch pc bank row) s = .next (rowRepaired s k ch pc bank row e m) := by
  rw [exec_rowRepair_due hrow hdue, hentry, hspare]

/-- A due row without an entry or a spare: the repair takes its page offline. -/
theorem exec_rowRepair_full (hrow : row < 20480) (hdue : rowDue s (chKey k.val ch.val) (hbmRow pc.val bank.val row) = true)
    (hfull : rmEntry s k.val ch.val pc.val bank.val row = none ∨ rmSpare s k.val ch.val pc.val bank.val = none) :
    exec (.rowRepair k ch pc bank row) s = .next (offline (rowDone s (chKey k.val ch.val) (hbmRow pc.val bank.val row)) k.val ch.val pc.val bank.val row) := by
  rw [exec_rowRepair_due hrow hdue]
  rcases hfull with hnone | hnone
  · rw [hnone]
  · rw [hnone]; cases rmEntry s k.val ch.val pc.val bank.val row <;> rfl

end

/-! ## The obligation -/

/-- Settles O35: each command's work is a chain of small writes (the map, the notes, the record, a table's entry), each with its own frame. -/
theorem sparesAndRepairs : Obligations.SparesAndRepairs := by
  unfold Obligations.SparesAndRepairs
  refine ⟨fun s c hc hret hroom => ⟨exec_cellSubstitution_sound, ?_, ?_, ?_⟩, fun s hdirty hfits hlive => repairRecordWrite_writes hdirty hfits hlive,
    fun s b bank row hrow hroom => ⟨exec_rowSpare_notDue, rowSpare_takes hrow hroom, rowSpare_stays hrow⟩,
    fun s k ch pc bank row hrow hroom => ⟨?_, ?_, ?_⟩⟩
  · intro hsp hfault hrest hwb hmshrs hloads hslots hheld hpush
    obtain ⟨n, hexec, ⟨⟨hsite, hspare, hdead, hmap, hregs⟩, hmoved⟩, hend⟩ :=
      cellSubstitution_moves hc hret hroom hsp hfault hrest ⟨hwb, hmshrs, hloads, hslots, hheld⟩ hpush
    exact ⟨n, hexec, ⟨hsite, hspare, hdead, hmap, hregs, hmoved⟩, hend⟩
  · exact fun hsp hharp => exec_cellFaultClear_first (faultNoSpare_of hc hret hsp hharp)
  · intro hsp hharp hagain hruns hheads hwait
    obtain ⟨n, hexec, ⟨⟨hsite, hspare, hdead, hmap, hregs⟩, hmoved⟩, hend⟩ :=
      cellRetirement_retires hc hroom hsp (faultNoSpare_of hc hret hsp hharp) hagain hruns hheads hwait
    exact ⟨n, hexec, ⟨hsite, hspare, hdead, hmap, hregs, hmoved⟩, hend⟩
  · exact fun hdue => exec_rowRepair_notDue (eq_false_of_ne_true hdue)
  · intro hdue e m he hentry hm hopen hlow
    obtain ⟨hsome, hnamed⟩ := rmEntry_eq he hentry
    exact ⟨_, exec_rowRepair_takes hrow hdue hsome (rmSpare_lowest hm hopen hlow), rowRepaired_spec hrow hroom he hm hnamed⟩
  · intro hdue hfull
    have hexec := exec_rowRepair_full (s := s) hrow hdue (hfull.imp rmEntry_none rmSpare_none)
    refine ⟨fun hin => ?_, fun hout => ⟨_, hexec, offline_first (s := rowDone s (chKey k.val ch.val) (hbmRow pc.val bank.val row)) hout⟩⟩
    rw [hexec, offline_again (s := rowDone s (chKey k.val ch.val) (hbmRow pc.val bank.val row)) hin]

end Sys2Proof.Machine
end

section
/-! PROOFS. The instructions that change a scalar register and the pc alone: what their issue leaves, and the results of the integer instructions (R35, R41, R42, R46). -/

namespace Sys2Proof.Machine

open Sys2Proof.Safety

/-! ## Issue, then one register and the pc -/

/-- An instruction may issue that needs fewer registers. -/
theorem mayIssue_mono {s : State} {t : Tid} {young : Bool} {rs qs : List Reg} (h : mayIssue s t young rs = true) (hq : ∀ r ∈ qs, r ∈ rs) :
    mayIssue s t young qs = true := by
  simp only [mayIssue, Bool.and_eq_true, regsFree, List.all_eq_true] at h ⊢
  exact ⟨⟨h.1.1, fun r hr => h.1.2 r (hq r hr)⟩, h.2⟩

/-- The issued thread's registers and pc are those it had. -/
theorem rx_issued (s : State) (t : Tid) (r : Reg) : rx (issued s t) t r = rx s t r := by
  simp only [rx]; rw [(issued_frame s t).2]; rfl

/-- A change of a thread leaves memory. -/
theorem threadOnly.bytes {t : Tid} {s n : State} (h : threadOnly t s n) : bytesKept s n :=
  (sameHome_of_regs (by rw [h.1]) (l := []) (fun r i _ _ => by rw [h.1]; rfl) (by simp) (by simp)).bytes

/-- Changes of thread t after its issue leave what `issueFrame` names. -/
theorem issueFrame_of_threadOnly {s n : State} {t : Tid} (h : threadOnly t (issued s t) n) : issueFrame t s n := by
  obtain ⟨hrest, hthreads, hcells, hregs, hbytes⟩ := (issued_frame s t).1
  refine ⟨by rw [h.1, hrest], fun u hu => ?_, fun c => ?_, fun r i hi hr => ?_, bytesKept.trans hbytes h.bytes⟩
  · rw [h.2 u hu]; exact hthreads u hu
  · rw [h.cell]; exact hcells c
  · rw [h.1]; exact hregs r i hi hr

/-- A register and the pc written after an issue, nothing else of the thread. -/
theorem regDone_modThread (s : State) (t : Tid) (rd : Reg) (v p : Word) (f : Thread → Thread)
    (hf : f (thread (issued s t) t) = { xset (thread (issued s t) t) rd v with pc := p }) :
    regDone s (modThread (issued s t) t f) t rd v p := by
  have hget : ∀ r, rx (modThread (issued s t) t f) t r = if r = rd ∧ rd ≠ 0 then v else rx s t r := fun r => by
    rw [← rx_issued s t r, rx, thread_modThread_same, hf]
    exact xget_xset (thread (issued s t) t) rd r v
  refine ⟨?_, fun r hr => ?_, ?_⟩
  · rw [hget]
    by_cases h0 : rd = 0
    · subst h0; rfl
    · rw [if_pos ⟨rfl, h0⟩, if_neg h0]
  · rw [hget, if_neg (fun h => hr h.1)]
  · rw [thread_modThread_same, hf, xset_rest, (issued_frame s t).2]

theorem scalarDone_modThread (s : State) (t : Tid) (rd : Reg) (v p : Word) (f : Thread → Thread)
    (hf : f (thread (issued s t) t) = { xset (thread (issued s t) t) rd v with pc := p }) :
    scalarDone s (modThread (issued s t) t f) t rd v p :=
  ⟨regDone_modThread s t rd v p f hf, issueFrame_of_threadOnly (modThread_only _ t f)⟩

theorem pc_issued (s : State) (t : Tid) : (thread (issued s t) t).pc = (thread s t).pc := by rw [(issued_frame s t).2]

/-- A result written after an issue. -/
theorem scalarDone_writeNext (s : State) (t : Tid) (rd : Reg) (v : Word) :
    scalarDone s (writeNext (issued s t) t rd v) t rd v ((thread s t).pc + 4) :=
  scalarDone_modThread s t rd v _ _ (by rw [pc_issued])

/-! ## Integer instructions -/

/-- An integer instruction that needs no divider completes with its form's value. -/
theorem runAlu_gives {i : Instr} {s : State} {t : Tid} {rd : Reg} {v : Word} {srcs rs : List Reg} {val : Thread → Word} (hm : mayIssue s t true rs = true)
    (hrs : ∀ r ∈ rd :: srcs, r ∈ rs) (hf : aluForm i = some { t := t, rd := rd, srcs := srcs, val := val }) (hdiv : divCycles i = 0)
    (hexec : exec i s = .next ((runAlu i s).getD s)) (hv : val (thread s t) = v) : scalarGives i s t rd v ((thread s t).pc + 4) := by
  refine ⟨writeNext (issued s t) t rd v, ?_, scalarDone_writeNext s t rd v⟩
  have hrun : runAlu i s = some (writeNext (issued s t) t rd v) := by
    simp only [runAlu, hf, hdiv, decide_true, mayIssue_mono hm hrs, divFree, divTake, Bool.true_or, Bool.and_true, if_true, hv]
  rw [hexec, hrun, Option.getD_some]

/-! ### Values -/

theorem bool64_eq (p : Prop) [Decidable p] : bool64 (decide p) = if p then 1 else 0 := by
  simp [bool64]

theorem slt_iff_toInt {w : Nat} (x y : BitVec w) : x.slt y = decide (x.toInt < y.toInt) := rfl
theorem ult_iff_toNat {w : Nat} (x y : BitVec w) : x.ult y = decide (x.toNat < y.toNat) := rfl

/-- A narrower immediate keeps its value. -/
theorem toInt_signExtend_le {m n : Nat} (i : BitVec m) (h : m ≤ n) : (i.signExtend n).toInt = i.toInt :=
  BitVec.toInt_signExtend_of_le h

theorem bool64_slt_imm (x : Word) (i : BitVec 12) : bool64 (x.slt (i.signExtend 64)) = if x.toInt < i.toInt then 1 else 0 := by
  rw [slt_iff_toInt, toInt_signExtend_le i (by decide), bool64_eq]

theorem min_slt {w : Nat} (x y : BitVec w) : (if x.slt y = true then x else y) = BitVec.ofInt w (min x.toInt y.toInt) := by
  rw [slt_iff_toInt]
  by_cases h : x.toInt < y.toInt
  · rw [min_eq_left h.le]; simp [h]
  · rw [min_eq_right (not_lt.1 h)]; simp [h]

theorem max_slt {w : Nat} (x y : BitVec w) : (if x.slt y = true then y else x) = BitVec.ofInt w (max x.toInt y.toInt) := by
  rw [slt_iff_toInt]
  by_cases h : x.toInt < y.toInt
  · rw [max_eq_right h.le]; simp [h]
  · rw [max_eq_left (not_lt.1 h)]; simp [h]

theorem min_ult {w : Nat} (x y : BitVec w) : (if x.ult y = true then x else y) = BitVec.ofNat w (min x.toNat y.toNat) := by
  rw [ult_iff_toNat]
  by_cases h : x.toNat < y.toNat
  · rw [min_eq_left h.le]; simp [h]
  · rw [min_eq_right (not_lt.1 h)]; simp [h]

theorem max_ult {w : Nat} (x y : BitVec w) : (if x.ult y = true then y else x) = BitVec.ofNat w (max x.toNat y.toNat) := by
  rw [ult_iff_toNat]
  by_cases h : x.toNat < y.toNat
  · rw [max_eq_right h.le]; simp [h]
  · rw [max_eq_left (not_lt.1 h)]; simp [h]

theorem twoPow_eq_ofInt (w k : Nat) : BitVec.twoPow w k = BitVec.ofInt w (2 ^ k) := by
  rw [show (2 : Int) ^ k = ((2 ^ k : Nat) : Int) by push_cast; rfl, BitVec.ofInt_natCast]
  apply BitVec.eq_of_toNat_eq
  rw [BitVec.toNat_twoPow, BitVec.toNat_ofNat]

/-- An immediate shifted left is its multiple. -/
theorem signExtend_shiftLeft {m : Nat} (i : BitVec m) (k : Nat) (h : m ≤ 64) : i.signExtend 64 <<< k = BitVec.ofInt 64 (i.toInt * 2 ^ k) := by
  rw [BitVec.ofInt_mul, ← toInt_signExtend_le i h, BitVec.ofInt_toInt, BitVec.shiftLeft_eq_mul_twoPow, twoPow_eq_ofInt]

/-- Settles O1. Each instruction is the lemma of the integer instructions at its own form, with what its form's value is. -/
theorem integerResults : Obligations.IntegerResults := by
  unfold Obligations.IntegerResults
  intro s t rd a b i j hm x y k p
  have h2 : ∀ r ∈ [rd, a, b], r ∈ [rd, a, b] := fun _ h => h
  have h1 : ∀ r ∈ [rd, a], r ∈ [rd, a, b] := by simp
  have h0 : ∀ r ∈ [rd], r ∈ [rd, a, b] := by simp
  refine ⟨runAlu_gives hm h2 rfl rfl rfl rfl, runAlu_gives hm h2 rfl rfl rfl rfl, runAlu_gives hm h2 rfl rfl rfl rfl, runAlu_gives hm h2 rfl rfl rfl rfl,
    runAlu_gives hm h2 rfl rfl rfl rfl, runAlu_gives hm h2 rfl rfl rfl (bool64_eq _), runAlu_gives hm h2 rfl rfl rfl (bool64_eq _),
    runAlu_gives hm h2 rfl rfl rfl (min_slt x y), runAlu_gives hm h2 rfl rfl rfl (max_slt x y), runAlu_gives hm h2 rfl rfl rfl (min_ult x y),
    runAlu_gives hm h2 rfl rfl rfl (max_ult x y), runAlu_gives hm h1 rfl rfl rfl rfl, runAlu_gives hm h1 rfl rfl rfl (bool64_slt_imm x i),
    runAlu_gives hm h1 rfl rfl rfl (bool64_eq _), runAlu_gives hm h1 rfl rfl rfl rfl, runAlu_gives hm h1 rfl rfl rfl rfl, runAlu_gives hm h1 rfl rfl rfl rfl,
    runAlu_gives hm h0 rfl rfl rfl (signExtend_shiftLeft j 12 (by decide)),
    runAlu_gives hm h0 rfl rfl rfl (congrArg (p + ·) (signExtend_shiftLeft j 12 (by decide)))⟩

/-! ### Shifts, counts and 32-bit forms (R41) -/

theorem shiftLeft_eq_ofNat {w : Nat} (x : BitVec w) (k : Nat) : x <<< k = BitVec.ofNat w (x.toNat * 2 ^ k) := by
  apply BitVec.eq_of_toNat_eq
  rw [BitVec.toNat_shiftLeft, BitVec.toNat_ofNat, Nat.shiftLeft_eq]

theorem ushiftRight_eq_ofNat {w : Nat} (x : BitVec w) (k : Nat) : x >>> k = BitVec.ofNat w (x.toNat / 2 ^ k) := by
  apply BitVec.eq_of_toNat_eq
  rw [BitVec.toNat_ushiftRight, BitVec.toNat_ofNat, Nat.shiftRight_eq_div_pow,
    Nat.mod_eq_of_lt ((Nat.div_le_self _ _).trans_lt x.isLt)]

theorem sshiftRight_eq_ofInt {w : Nat} (x : BitVec w) (k : Nat) : x.sshiftRight k = BitVec.ofInt w (x.toInt / 2 ^ k) := by
  rw [show (2 : Int) ^ k = ((2 ^ k : Nat) : Int) by push_cast; rfl, ← Int.shiftRight_eq_div_pow]
  rw [← BitVec.ofInt_toInt (x := x.sshiftRight k), BitVec.toInt_sshiftRight]

/-- The low half of a word, by its signed or its unsigned value. -/
theorem lo32_eq_ofInt (x : Word) : lo32 x = BitVec.ofInt 32 x.toInt := by
  apply BitVec.eq_of_toInt_eq
  rw [lo32, BitVec.toInt_setWidth, BitVec.toInt_ofInt, BitVec.toInt_eq_toNat_bmod, Int.bmod_bmod_of_dvd (by decide)]

theorem lo32_eq_ofNat (x : Word) : lo32 x = BitVec.ofInt 32 x.toNat := by
  rw [BitVec.ofInt_natCast, BitVec.ofNat_toNat]; rfl

theorem addW_eq (x y : Word) : lo32 x + lo32 y = BitVec.ofInt 32 (x.toInt + y.toInt) := by
  rw [lo32_eq_ofInt, lo32_eq_ofInt, BitVec.ofInt_add]

theorem subW_eq (x y : Word) : lo32 x - lo32 y = BitVec.ofInt 32 (x.toInt - y.toInt) := by
  rw [lo32_eq_ofInt, lo32_eq_ofInt, Int.sub_eq_add_neg, BitVec.ofInt_add, BitVec.ofInt_neg, BitVec.sub_eq_add_neg]

theorem addiW_eq (x : Word) (i : BitVec 12) : lo32 x + i.signExtend 32 = BitVec.ofInt 32 (x.toInt + i.toInt) := by
  rw [lo32_eq_ofInt, BitVec.ofInt_add, ← toInt_signExtend_le i (show 12 ≤ 32 by decide), BitVec.ofInt_toInt]

theorem sllW_eq (x : Word) (k : Nat) : lo32 x <<< k = BitVec.ofInt 32 (x.toNat * 2 ^ k) := by
  rw [BitVec.shiftLeft_eq_mul_twoPow, twoPow_eq_ofInt, lo32_eq_ofNat, BitVec.ofInt_mul]

theorem srlW_eq (x : Word) (k : Nat) : lo32 x >>> k = BitVec.ofInt 32 ((x.toNat % 2 ^ 32) / 2 ^ k) := by
  rw [ushiftRight_eq_ofNat, ← BitVec.ofInt_natCast]
  congr 1

/-- The leading zeros of a word. -/
theorem clzN_bounds {v : Nat} (hv : v < 2 ^ 64) : clzN 64 v ≤ 64 ∧ v < 2 ^ (64 - clzN 64 v) ∧ (clzN 64 v < 64 → 2 ^ (63 - clzN 64 v) ≤ v) := by
  unfold clzN
  split
  · subst_vars; simp
  · rename_i h0
    have hlog : Nat.log2 v < 64 := (Nat.log2_lt h0).2 hv
    refine ⟨by omega, ?_, fun _ => ?_⟩
    · rw [show 64 - (64 - 1 - Nat.log2 v) = Nat.log2 v + 1 by omega]; exact Nat.lt_log2_self
    · rw [show 63 - (64 - 1 - Nat.log2 v) = Nat.log2 v by omega]; exact Nat.log2_self_le h0

/-- The trailing zeros of a word. -/
theorem ctzN_bounds (v : Nat) : ctzN 64 v ≤ 64 ∧ (∀ l, l < ctzN 64 v → v.testBit l = false) ∧ (ctzN 64 v < 64 → v.testBit (ctzN 64 v) = true) := by
  unfold ctzN
  cases h : (List.range 64).find? (fun i => v.testBit i) with
  | none =>
    refine ⟨le_rfl, fun l hl => ?_, fun h => absurd h (lt_irrefl _)⟩
    simpa using List.find?_eq_none.1 h l (List.mem_range.2 hl)
  | some k =>
    obtain ⟨hk, hlt, hfirst⟩ := List.find?_range_eq_some.1 h
    exact ⟨(List.mem_range.1 hlt).le, fun l hl => by simpa using hfirst l hl, fun _ => hk⟩

/-- The set bits of a word. -/
theorem popN_eq_card (x : Word) : popN 64 x.toNat = (Finset.univ.filter (fun l : Fin 64 => x.getLsbD l = true)).card := by
  have hcard : popN 64 x.toNat = ((Finset.range 64).filter (fun l => x.getLsbD l = true)).card := by
    unfold popN; simp [Finset.filter, Finset.range, Multiset.range, BitVec.getLsbD]
  rw [hcard, Finset.card_filter, Finset.card_filter, Fin.sum_univ_eq_sum_range (fun l => if x.getLsbD l = true then 1 else 0)]

/-- Settles O2. As O1; a 32-bit form's value is given on its operands' low halves. -/
theorem shiftCountAndWordResults : Obligations.ShiftCountAndWordResults := by
  unfold Obligations.ShiftCountAndWordResults
  intro s t rd a b i n m hm x y w p
  have h2 : ∀ r ∈ [rd, a, b], r ∈ [rd, a, b] := fun _ h => h
  have h1 : ∀ r ∈ [rd, a], r ∈ [rd, a, b] := by simp
  have hw {v : BitVec 32} {z : Int} (h : v = BitVec.ofInt 32 z) : wRes v = w z := congrArg _ h
  obtain ⟨hclz, hclzLt, hclzLe⟩ := clzN_bounds x.isLt
  obtain ⟨hctz, hctzLow, hctzBit⟩ := ctzN_bounds x.toNat
  refine ⟨runAlu_gives hm h2 rfl rfl rfl (shiftLeft_eq_ofNat x _), runAlu_gives hm h2 rfl rfl rfl (ushiftRight_eq_ofNat x _), runAlu_gives hm h2 rfl rfl rfl (sshiftRight_eq_ofInt x _),
    runAlu_gives hm h1 rfl rfl rfl (shiftLeft_eq_ofNat x _), runAlu_gives hm h1 rfl rfl rfl (ushiftRight_eq_ofNat x _), runAlu_gives hm h1 rfl rfl rfl (sshiftRight_eq_ofInt x _),
    ⟨_, hclz, hclzLt, hclzLe, runAlu_gives hm h1 rfl rfl rfl rfl⟩, ⟨_, hctz, hctzLow, hctzBit, runAlu_gives hm h1 rfl rfl rfl rfl⟩,
    runAlu_gives hm h1 rfl rfl rfl (congrArg wd (popN_eq_card x)),
    runAlu_gives hm h2 rfl rfl rfl (hw (addW_eq x y)), runAlu_gives hm h2 rfl rfl rfl (hw (subW_eq x y)), runAlu_gives hm h1 rfl rfl rfl (hw (addiW_eq x i)),
    runAlu_gives hm h2 rfl rfl rfl (hw (sllW_eq x _)), runAlu_gives hm h2 rfl rfl rfl (hw (srlW_eq x _)), runAlu_gives hm h2 rfl rfl rfl (hw (sshiftRight_eq_ofInt _ _)),
    runAlu_gives hm h1 rfl rfl rfl (hw (sllW_eq x _)), runAlu_gives hm h1 rfl rfl rfl (hw (srlW_eq x _)), runAlu_gives hm h1 rfl rfl rfl (hw (sshiftRight_eq_ofInt _ _))⟩

/-! ### Products, quotients and remainders (R41, R42) -/

/-- A division completes with its form's value, and its divider is occupied (R42). -/
theorem runAlu_divides {i : Instr} {s : State} {t : Tid} {rd : Reg} {v : Word} {srcs : List Reg} {val : Thread → Word} {k : Nat}
    (hm : mayIssue s t false (rd :: srcs) = true) (hfree : (cell s (cellOf t)).div = 0)
    (hf : aluForm i = some { t := t, rd := rd, srcs := srcs, val := val }) (hk : divCycles i = k) (h0 : k ≠ 0)
    (hexec : exec i s = .next ((runAlu i s).getD s)) (hv : val (thread s t) = v) : divideGives i k s t rd v := by
  obtain ⟨hreg, hrest, hthreads, hcells, hregs, hbytes⟩ := scalarDone_writeNext s t rd v
  have hcell : ∀ c, cell (writeNext (issued s t) t rd v) c = { cell s c with last := (cell (writeNext (issued s t) t rd v) c).last } := hcells
  refine ⟨modCell (writeNext (issued s t) t rd v) (cellOf t) (fun x => { x with div := k }), ?_, hreg, ?_, hthreads, fun c hc => ?_, ?_, hregs, hbytes⟩
  · have hrun : runAlu i s = some (modCell (writeNext (issued s t) t rd v) (cellOf t) (fun x => { x with div := k })) := by
      simp only [runAlu, hf, hk, h0, decide_false, hm, divFree, hfree, decide_true, divTake, Bool.or_true, Bool.and_true, if_true, if_false, hv]
    rw [hexec, hrun, Option.getD_some]
  · rw [hrest]; rfl
  · rw [cell_modCell, if_neg hc]; exact hcells c
  · rw [cell_modCell_same, hcell]

theorem mulhu_eq (x y : Word) : mulHigh x.toNat y.toNat = BitVec.ofNat 64 (x.toNat * y.toNat / 2 ^ 64) := by
  rw [← BitVec.ofInt_natCast]; push_cast; rfl

theorem mul_eq_ofInt {w : Nat} (x y : BitVec w) : x * y = BitVec.ofInt w (x.toInt * y.toInt) := by
  rw [BitVec.ofInt_mul, BitVec.ofInt_toInt, BitVec.ofInt_toInt]

theorem mulW_eq (x y : Word) : lo32 x * lo32 y = BitVec.ofInt 32 (x.toInt * y.toInt) := by
  rw [lo32_eq_ofInt, lo32_eq_ofInt, BitVec.ofInt_mul]

/-! The two cases of R42, on words and, under the sign extension of the 32-bit forms, on their values. -/

theorem divS_word (x y : Word) : divS x y = if y = 0 then -1 else BitVec.ofInt 64 (x.toInt.tdiv y.toInt) := by
  unfold divS
  split
  · rw [← BitVec.neg_one_eq_allOnes]; rfl
  · apply BitVec.eq_of_toInt_eq
    rw [BitVec.toInt_sdiv, BitVec.toInt_ofInt]

theorem divU_word (x y : Word) : divU x y = if y = 0 then -1 else BitVec.ofNat 64 (x.toNat / y.toNat) := by
  unfold divU
  split
  · rw [← BitVec.neg_one_eq_allOnes]; rfl
  · rw [← BitVec.toNat_udiv, BitVec.ofNat_toNat, BitVec.setWidth_eq]

theorem remS_word (x y : Word) : remS x y = if y = 0 then x else BitVec.ofInt 64 (x.toInt.tmod y.toInt) := by
  rw [remS, ← BitVec.toInt_srem, BitVec.ofInt_toInt]

theorem remU_word (x y : Word) : remU x y = if y = 0 then x else BitVec.ofNat 64 (x.toNat % y.toNat) := by
  rw [remU, ← BitVec.toNat_umod, BitVec.ofNat_toNat, BitVec.setWidth_eq]

theorem divS_eq {w : Nat} (x y : BitVec w) : divS x y = BitVec.ofInt w (if y = 0 then -1 else x.toInt.tdiv y.toInt) := by
  unfold divS
  split
  · rw [BitVec.ofInt_neg, ← BitVec.neg_one_eq_allOnes]; rfl
  · apply BitVec.eq_of_toInt_eq
    rw [BitVec.toInt_sdiv, BitVec.toInt_ofInt]

theorem divU_eq {w : Nat} (x y : BitVec w) : divU x y = BitVec.ofInt w (if y = 0 then -1 else x.toNat / y.toNat) := by
  unfold divU
  split
  · rw [BitVec.ofInt_neg, ← BitVec.neg_one_eq_allOnes]; rfl
  · rw [← Int.natCast_ediv, BitVec.ofInt_natCast, ← BitVec.toNat_udiv, BitVec.ofNat_toNat, BitVec.setWidth_eq]

theorem remS_eq {w : Nat} (x y : BitVec w) : remS x y = BitVec.ofInt w (if y = 0 then x.toInt else x.toInt.tmod y.toInt) := by
  unfold remS
  split
  · rw [BitVec.ofInt_toInt]
  · rw [← BitVec.toInt_srem, BitVec.ofInt_toInt]

theorem remU_eq {w : Nat} (x y : BitVec w) : remU x y = BitVec.ofInt w (if y = 0 then x.toNat else x.toNat % y.toNat) := by
  unfold remU
  split
  · rw [BitVec.ofInt_natCast, BitVec.ofNat_toNat, BitVec.setWidth_eq]
  · rw [← Int.natCast_emod, BitVec.ofInt_natCast, ← BitVec.toNat_umod, BitVec.ofNat_toNat, BitVec.setWidth_eq]

/-- Settles O3. The products are integer instructions like those of O1; the divisions also take the divider. -/
theorem productAndQuotientResults : Obligations.ProductAndQuotientResults := by
  unfold Obligations.ProductAndQuotientResults
  intro s t rd a b x y xw yw w p
  have h2 : ∀ r ∈ [rd, a, b], r ∈ [rd, a, b] := fun _ h => h
  have hw {v : BitVec 32} {z : Int} (h : v = BitVec.ofInt 32 z) : wRes v = w z := congrArg _ h
  refine ⟨fun hm => ⟨runAlu_gives hm h2 rfl rfl rfl (mul_eq_ofInt x y), runAlu_gives hm h2 rfl rfl rfl rfl, runAlu_gives hm h2 rfl rfl rfl (mulhu_eq x y),
    runAlu_gives hm h2 rfl rfl rfl rfl, runAlu_gives hm h2 rfl rfl rfl (hw (mulW_eq x y))⟩, fun hm hfree =>
    ⟨runAlu_divides hm hfree rfl rfl (by decide) rfl (divS_word x y), runAlu_divides hm hfree rfl rfl (by decide) rfl (divU_word x y),
    runAlu_divides hm hfree rfl rfl (by decide) rfl (remS_word x y), runAlu_divides hm hfree rfl rfl (by decide) rfl (remU_word x y),
    runAlu_divides hm hfree rfl rfl (by decide) rfl (hw (divS_eq xw yw)), runAlu_divides hm hfree rfl rfl (by decide) rfl (hw (divU_eq xw yw)),
    runAlu_divides hm hfree rfl rfl (by decide) rfl (hw (remS_eq xw yw)), runAlu_divides hm hfree rfl rfl (by decide) rfl (hw (remU_eq xw yw))⟩⟩

/-! ## Branches and jumps (R46) -/

/-- A branch goes by its offset in words where its condition holds, else on. -/
theorem runBranch_gives {i : Instr} {s : State} {t : Tid} {a b : Reg} {o : BitVec 12} {cond : Word → Word → Bool} {p : Prop} [Decidable p]
    (hm : mayIssue s t true [a, b] = true) (hf : branchForm i = some ⟨t, a, b, o, cond⟩) (hexec : exec i s = .next ((runBranch i s).getD s))
    (hc : cond (rx s t a) (rx s t b) = decide p) :
    scalarGives i s t 0 0 (if p then (thread s t).pc + BitVec.ofInt 64 (o.toInt * 4) else (thread s t).pc + 4) := by
  have hoff : o.signExtend 64 <<< 2 = BitVec.ofInt 64 (o.toInt * 4) := signExtend_shiftLeft o 2 (by decide)
  have hrun : runBranch i s = some (modThread (issued s t) t (fun th => { th with pc := th.pc + if p then BitVec.ofInt 64 (o.toInt * 4) else 4 })) := by
    simp only [runBranch, hf, hm, if_true, hoff]
    simp only [rx] at hc
    simp only [hc, decide_eq_true_eq]
  refine ⟨_, by rw [hexec, hrun, Option.getD_some], scalarDone_modThread s t 0 0 _ _ ?_⟩
  rw [pc_issued]
  split <;> rfl

/-- A jump writes its link and goes to its target. -/
theorem runJump_gives {i : Instr} {s : State} {t : Tid} {rd : Reg} {srcs : List Reg} {target : Thread → Word} {p : Word}
    (hm : mayIssue s t true (rd :: srcs) = true) (hexec : exec i s = .next ((runJump s t rd srcs target).getD s)) (hp : target (thread s t) = p) :
    scalarGives i s t rd ((thread s t).pc + 4) p := by
  have hrun : runJump s t rd srcs target = some (modThread (issued s t) t (fun th => { xset th rd ((thread s t).pc + 4) with pc := p })) := by
    simp only [runJump, hm, if_true, hp]
  exact ⟨_, by rw [hexec, hrun, Option.getD_some], scalarDone_modThread s t rd _ p _ rfl⟩

/-- An address whose bits [1:0] are cleared (R46). -/
theorem clear_low2 (x : Word) : x &&& ~~~3#64 = BitVec.ofNat 64 (x.toNat / 4 * 4) := by
  apply BitVec.eq_of_getLsbD_eq
  intro k hk
  rw [BitVec.getLsbD_ofNat, show (4 : Nat) = 2 ^ 2 by rfl, ← Nat.shiftRight_eq_div_pow, ← Nat.shiftLeft_eq, Nat.testBit_shiftLeft, Nat.testBit_shiftRight]
  rw [BitVec.getLsbD_and, BitVec.getLsbD_not, show 3#64 = fmask 64 1 0 from rfl, getLsbD_fmask _ _ _ _ (by decide)]
  by_cases h : k < 2
  · simp [h, hk, show k ≤ 1 by omega]
  · simp [hk, BitVec.getLsbD, show 2 + (k - 2) = k by omega, show 2 ≤ k by omega, show ¬k ≤ 1 by omega]

/-- Settles O4. A lemma for the branches, one for the jumps. -/
theorem branchesAndJumps : Obligations.BranchesAndJumps := by
  unfold Obligations.BranchesAndJumps
  intro s t rd a b o j x y p dest
  have hge (u v : Int) : (!decide (u < v)) = decide (v ≤ u) := by rw [← decide_not, decide_eq_decide, not_lt]
  have hgeu (u v : Nat) : (!decide (u < v)) = decide (v ≤ u) := by rw [← decide_not, decide_eq_decide, not_lt]
  refine ⟨fun hm => ⟨runBranch_gives hm rfl rfl rfl, runBranch_gives hm rfl rfl rfl, runBranch_gives hm rfl rfl rfl, runBranch_gives hm rfl rfl (hge _ _),
    runBranch_gives hm rfl rfl rfl, runBranch_gives hm rfl rfl (hgeu _ _)⟩,
    fun hm => runJump_gives hm rfl (congrArg (p + ·) (signExtend_shiftLeft j 2 (by decide))), fun hm => runJump_gives hm rfl (clear_low2 _)⟩

end Sys2Proof.Machine
end

section
/-! PROOFS. Why a misaligned scalar access does not always trap at once (R44, R49, R232): the statement fails for a load behind a vector load that has resolved and still reads. -/

namespace Sys2Proof.Machine

open Sys2Proof.Safety

/-- A load behind an older vector access that still reads does not issue (R49, R232). -/
theorem runLoad_behind_access {i : Instr} {f : MemForm} {s : State} (hf : loadForm i = some f) (h : olderAccess (thread s f.t) = true) : runLoad i s = none := by
  simp only [runLoad, hf, h, Bool.or_true, if_true]

/-- A vector load that has resolved and still waits for lines (R232). -/
def runningLoad : DecEntry :=
  { instr := .vLd 0 { vd := 8, vs1 := 11, vs2 := 0, qp := 0, et := 3, grp := 0 }, pc := 0, word := 0, a := 0, b := 0, d := 0, more := [],
    epoch := false, spec := none, step := 0, regs := [], busy := 0, resolved := true, result := none, at' := some 0, runs := true }

/-- Thread 0 of cell 0.0.0 at M behind such a load: s11 holds an odd address, FM_M is clear, and the cell's L1 holds the vector table's line. -/
def misalignedBehindLoad : State :=
  setReg { setThread State.reset 0 { st := .ready, level := 2, regs := [(11, 0x1001)], sr := [(0x811, 0)], vq := [runningLoad] } with
    cells := [(0, { cellReset 0 with l1 := [(0, { ways := some { line := 0, body := {} } :: List.replicate 7 none })] })] } .devClk 0 0x10000

/-- The load that waits leaves the state, where the statement has it in its handler. -/
theorem misalignedBehindLoad_waits : exec (.ldH 0 10 11 0) misalignedBehindLoad = .next misalignedBehindLoad := by
  show Host.Outcome.next ((runLoad (.ldH 0 10 11 0) misalignedBehindLoad).getD misalignedBehindLoad) = _
  rw [runLoad_behind_access (f := ⟨0, 10, 11, 0, 2, true⟩) rfl (by decide)]
  rfl

/-- A handler from what its level's vector table translates to and reads as. -/
theorem handlerAt_of_reads {s : State} {t : Tid} {l code pa : Nat} {h : Word} (hpa : pa < 0xF000000000)
    (hx : (translate s (cellOf t) (ctxAt s t (BitVec.ofNat 2 l)) (vectorAddr s t l code) .load).1 = .ok pa)
    (hneeds : readAsNeeds s t (BitVec.ofNat 2 l) (vectorAddr s t l code) 8 = []) (hread : (vectorRead s t l code).1 = .ok h) : handlerAt s t l code h :=
  ⟨⟨pa, _, Prod.ext hx rfl, hpa⟩, hneeds, hread⟩

/-- Its level's vector table gives a handler. -/
theorem misalignedBehindLoad_handler :
    handlerAt (enterRegs (issued misalignedBehindLoad 0) 0 2 (thread misalignedBehindLoad 0).pc { code := 1, val := 0x1001 } false none) 0 2 1 0 :=
  handlerAt_of_reads (pa := 8) (by decide) (by decide +kernel) (by decide +kernel) (by decide +kernel)

/-- Refutes O8: a misaligned load behind a vector load that still reads does not issue, so that it takes no exception yet. -/
theorem not_misalignedAccessesTrap : ¬ Obligations.MisalignedAccessesTrap := by
  unfold Obligations.MisalignedAccessesTrap
  intro h
  obtain ⟨hhalf, -, -⟩ := h misalignedBehindLoad 0 10 11 0 (by decide +kernel) (by decide) (by decide) (by decide) (by unfold quiet; decide)
  obtain ⟨n, hexec, ⟨-, hcause, -⟩, -⟩ := (hhalf (by decide)).1 0 misalignedBehindLoad_handler
  rw [misalignedBehindLoad_waits] at hexec
  rw [← Host.Outcome.next.inj hexec] at hcause
  exact absurd hcause (by decide)

end Sys2Proof.Machine
end

section
/-! PROOFS. Exceptions that an instruction takes at its own level (R56, R64, R67). -/

namespace Sys2Proof.Machine

open Sys2Proof.Safety

/-! ## An entry carried over to states that agree on the thread -/

/-- An entry speaks of the thread's registers and level before and after, and of its state after. -/
theorem entered_congr {s s' n n' : State} {t : Tid} {l : Nat} {pc cause val : Word} {prio : Option Nat} (h : entered s n t l pc cause val prio)
    (hsr : (thread s' t).sr = (thread s t).sr) (hregs : (thread s' t).regs = (thread s t).regs) (hlevel : (thread s' t).level = (thread s t).level)
    (hsr' : (thread n' t).sr = (thread n t).sr) (hregs' : (thread n' t).regs = (thread n t).regs) (hlevel' : (thread n' t).level = (thread n t).level)
    (hst' : (thread n' t).st = (thread n t).st) : entered s' n' t l pc cause val prio := by
  simpa only [entered, srAt, rx, xget, hsr, hregs, hlevel, hsr', hregs', hlevel', hst'] using h

/-- The cause word of a synchronous exception (R64). -/
theorem pack_cause {code detail : Nat} (h : code < 256) :
    pack [(0, code), (8, detail), (62, false.toNat), (63, (none : Option Nat).isSome.toNat)] = BitVec.ofNat 64 (code + 256 * detail) := by
  have hor : code ||| detail <<< 8 = code + 256 * detail := by
    rw [Nat.or_comm, ← Nat.shiftLeft_add_eq_or_of_lt (show code < 2 ^ 8 from h), Nat.shiftLeft_eq]; omega
  simp [pack, wd, hor]

/-! ## The vector's read (R63) -/

/-- A read with the permissions of a level, at an address of HBM, by a cell without an open store. -/
theorem readAs_looks {s : State} {t : Tid} {l : BitVec 2} {va : Word} {n pa : Nat} {s' : State} (hx : translate s (cellOf t) (ctxAt s t l) va .load = (.ok pa, s'))
    (hpa : pa < 0xF000000000) (hwb : (cell s (cellOf t)).wb = []) : lookKeeps (cellOf t) s (readAs s t l va n).2 := by
  have hwalk : walkKeeps (cellOf t) s s' := by have := translate_keeps s (cellOf t) (ctxAt s t l) va .load; rwa [hx] at this
  have hread := hwalk.look.trans (threadRead_keeps s' (cellOf t) (thrOf t) pa n (hwalk.look.wb.trans hwb))
  have hany : threadReadAny s' t pa n = threadRead s' (cellOf t) (thrOf t) pa n := by rw [threadReadAny, physAt_hbm s' hpa]
  unfold readAs
  rw [hx]
  dsimp only
  rw [hany]
  generalize threadRead s' (cellOf t) (thrOf t) pa n = r at hread
  obtain ⟨⟨bs, bad⟩, s2⟩ := r
  cases bad <;> exact hread

theorem vectorRead_looks {s : State} {t : Tid} {l code : Nat} {h : Word} (hh : handlerAt s t l code h) (hwb : (cell s (cellOf t)).wb = []) :
    lookKeeps (cellOf t) s (vectorRead s t l code).2 := by
  obtain ⟨⟨pa, s', hx, hpa⟩, -, -⟩ := hh
  have hread : lookKeeps (cellOf t) s (readAs s t (BitVec.ofNat 2 l) (vectorAddr s t l code) 8).2 := readAs_looks hx hpa hwb
  unfold vectorRead
  dsimp only
  generalize readAs s t (BitVec.ofNat 2 l) (vectorAddr s t l code) 8 = r at hread ⊢
  obtain ⟨o, s2⟩ := r
  cases o <;> exact hread

/-- The read of a vector table in HBM is no irrevocable action (R300). -/
theorem asHeld_handler {s : State} {t : Tid} {l code : Nat} {h : Word} (hh : handlerAt s t l code h) :
    asHeld s t (BitVec.ofNat 2 l) (vectorAddr s t l code) = false := by
  obtain ⟨⟨pa, s', hx, hpa⟩, -, -⟩ := hh
  have hx' : (translate s (cellOf t) (ctxAt s t (BitVec.ofNat 2 l)) (vectorAddr s t l code) .load).1 = .ok pa := by rw [vectorAddr, hx]
  simp only [asHeld, hx', irrevocableAt, physAt_hbm s hpa, Bool.false_and, Bool.and_false]

/-- An entry at a level whose FM is clear goes on at its handler (R63, R66). -/
theorem enterAt_handler {s : State} {t : Tid} {pc h : Word} {l k : Nat} {e : Exc} (hl : l ≤ 2) (hfm : fmOf s t l = false)
    (hh : handlerAt (enterRegs s t l pc e false none) t l e.code h) :
    enterAt t pc (k + 1) s l e false none false
      = modThread (vectorRead (enterRegs s t l pc e false none) t l e.code).2 t (fun th => { th with pc := h }) := by
  obtain ⟨-, hneeds, hread⟩ := id hh
  rw [enterAt, if_neg (not_lt.2 hl), hfm]
  simp only [Bool.and_false, Bool.false_eq_true, if_false, asHeld_handler hh, hneeds]
  generalize vectorRead (enterRegs s t l pc e false none) t l e.code = r at hread ⊢
  obtain ⟨o, s2⟩ := r
  subst hread
  rfl

/-! ## An instruction's exception (R64, R67) -/

/-- An instruction that issues alone has nothing unresolved before it (R33). -/
theorem oldestUnresolved_of_mayIssue {s : State} {t : Tid} {rs : List Reg} (hm : mayIssue s t false rs = true) : oldestUnresolved (thread s t) = none := by
  simp only [mayIssue, Bool.and_eq_true] at hm
  simpa using hm.2

/-- A quiet cell's thread may enter a level. -/
theorem entryReady_quiet {s : State} {t : Tid} (hq : quiet s t) (ho : oldestUnresolved (thread s t) = none) : entryReady s t = true := by
  obtain ⟨-, hmshrs, hloads, -, -, hbusy⟩ := hq
  simp [entryReady, ho, loadsBefore, hmshrs, hloads, hbusy]

/-- An instruction that raises an exception which its own level may take enters there (R64). -/
theorem raiseScalar_traps {i : Instr} {s : State} {t : Tid} {e : Exc} (hexec : exec i s = .next ((raiseScalar s s t e).getD s))
    (hlow : lowestLevel e.code = 0) (hcode : e.code < 256) (ho : oldestUnresolved (thread s t) = none) (hq : quiet s t)
    (hl : (thread s t).level.toNat ≠ 3) (hfm : fmOf s t (thread s t).level.toNat = false) : traps i s t (thread s t).level.toNat e := by
  intro h hh
  set l := (thread s t).level.toNat with hlvl
  have hl2 : l ≤ 2 := by have := (thread s t).level.isLt; omega
  obtain ⟨⟨hrest, hthreads, hcells, hregs, hbytes⟩, hown⟩ := issued_frame s t
  have hraise : raise (issued s t) t e = modThread (vectorRead (enterRegs (issued s t) t l (thread s t).pc e false none) t l e.code).2 t (fun th => { th with pc := h }) := by
    have hlevel : (thread (issued s t) t).level = (thread s t).level := by rw [hown]
    have hfm' : fmOf (issued s t) t l = false := by
      rw [← hfm, fmOf, srAt_congr (s := s) (by rw [hown]), fmOf]
    rw [raise, takeExc, hlow, hlevel, ← hlvl, Nat.max_zero, pc_issued]
    exact enterAt_handler hl2 hfm' hh
  obtain ⟨hent, honly⟩ := enterRegs_entered (issued s t) t l (thread s t).pc e false none (by simp)
  rw [pack_cause hcode] at hent
  set s1 := enterRegs (issued s t) t l (thread s t).pc e false none with hs1
  have hlook : lookKeeps (cellOf t) s1 (vectorRead s1 t l e.code).2 := vectorRead_looks hh (by rw [honly.cell, hcells]; exact hq.1)
  set s2 := (vectorRead s1 t l e.code).2
  have hn : entered s (modThread s2 t (fun th => { th with pc := h })) t l (thread s t).pc (BitVec.ofNat 64 (e.code + 256 * e.detail)) e.val none := by
    refine entered_congr hent ?_ ?_ ?_ ?_ ?_ ?_ ?_
    · rw [hown]
    · rw [hown]
    · rw [hown]
    all_goals rw [thread_modThread_same, hlook.thread]
  obtain ⟨-, -, -, -, -, -, -, -, -, -, -, -, -, hst⟩ := id hn
  refine ⟨_, ?_, hn, by rw [thread_modThread_same], ?_, fun u hu => ?_⟩
  · rw [hexec, raiseScalar, hraise]
    simp only [mayRaise, ho, Option.isNone_none, entryReady_quiet hq ho, Bool.and_self, if_true, Option.getD_some, unlessWaits, hst]
  · exact bytesKept.trans (bytesKept.trans (bytesKept.trans hbytes honly.bytes) hlook.2.2.2.2.bytes) (modThread_only s2 t _).bytes
  · rw [thread_modThread, if_neg hu, hlook.thread, honly.2 u hu]; exact hthreads u hu

/-! ## System registers (R56) -/

/-- An `sr.*` that R56 forbids is an illegal instruction. -/
theorem runSr_traps {i : Instr} {s : State} {t : Tid} {op : SrOp} {rd a : Reg} {num : BitVec 12} (hm : mayIssue s t false [rd, a] = true) (hq : quiet s t)
    (hexec : exec i s = .next ((runSr s t op rd a num (word0 i)).getD s))
    (hbad : srIllegal (thread s t).level.toNat num.toNat (decide (op = .rw) || decide (a ≠ 0)) = true)
    (hl : (thread s t).level.toNat ≠ 3) (hfm : fmOf s t (thread s t).level.toNat = false) :
    traps i s t (thread s t).level.toNat { code := 0, val := (word0 i).setWidth 64 } := by
  have ho := oldestUnresolved_of_mayIssue hm
  refine raiseScalar_traps ?_ rfl (show 0 < 256 by decide) ho hq hl hfm
  rw [hexec, runSr]
  simp only [hm, hbad, Bool.not_true, Bool.false_eq_true, if_false, if_true, illegalNow]

/-- R56's cases, as the model tests them. -/
theorem srIllegal_of_cases {l m : Nat} {writes : Bool} {p : Prop} (hw : p → writes = true)
    (h : l < m / 0x400 ∨ (p ∧ m / 0x200 % 2 = 1) ∨ srAssigned m = false ∨ m / 0x400 = 3) : srIllegal l m writes = true := by
  rcases h with h | ⟨hp, h⟩ | h | h
  · simp [srIllegal, h]
  · simp [srIllegal, hw hp, h]
  · simp [srIllegal, h]
  · simp [srIllegal, h]

/-- Settles O10. Each of the three instructions raises the illegal instruction of R56 before it changes anything, and the thread enters its own level for it. -/
theorem systemRegisterTraps : Obligations.SystemRegisterTraps := by
  unfold Obligations.SystemRegisterTraps
  intro s t rd a num hm hq m l bad trap hl hfm
  refine ⟨fun h => runSr_traps hm hq rfl (srIllegal_of_cases (by simp) h) hl hfm, fun h => ⟨?_, ?_⟩⟩
  · exact runSr_traps hm hq rfl (srIllegal_of_cases (by simp) h) hl hfm
  · exact runSr_traps hm hq rfl (srIllegal_of_cases (by simp) h) hl hfm

end Sys2Proof.Machine
end

section
/-! PROOFS. System registers read and written by their thread (R8, R55–R58). -/

namespace Sys2Proof.Machine

open Sys2Proof.Safety

/-! ## The bits that a write leaves (R8, R57) -/

/-- A field whose value 3 is reserved, in a word cut to the bits that exist: the reserved value leaves the field. -/
theorem bit_keepField (old v mask : Word) {hi lo : Nat} (hle : lo ≤ hi) (hlt : hi < 64) (hmask : ∀ k, lo ≤ k → k ≤ hi → mask.getLsbD k = true) (j : Nat) :
    bit (if decide (bits (v &&& mask) hi lo = 3) then setBits (v &&& mask) hi lo (bits old hi lo) else v &&& mask) j
      = if (lo ≤ j ∧ j ≤ hi) ∧ bits v hi lo = 3 then bit old j else bit v j && bit mask j := by
  have hbits : bits (v &&& mask) hi lo = bits v hi lo := by
    apply Nat.eq_of_testBit_eq
    intro k
    rw [testBit_bits, testBit_bits, BitVec.getLsbD_and]
    by_cases hk : k < hi + 1 - lo
    · rw [hmask (lo + k) (by omega) (by omega), Bool.and_true]
    · simp [hk]
  rw [hbits]
  by_cases h3 : bits v hi lo = 3
  · simp only [h3, decide_true, if_true, and_true, bit, getLsbD_setBits _ _ hle hlt, testBit_bits, BitVec.getLsbD_and]
    split
    · next h => rw [show lo + (j - lo) = j by omega]; simp [show j - lo < hi + 1 - lo by omega]
    · rfl
  · simp only [h3, decide_false, Bool.false_eq_true, if_false, and_false, bit, BitVec.getLsbD_and]

/-- An assigned number lies below level 3; a status word's mask has the level that it names. -/
theorem srAssigned_spec {m : Nat} (ha : srAssigned m = true) :
    m / 0x400 ≠ 3 ∧ (m % 0x400 = 0x11 → (srMask m).getLsbD 13 = true ∧ (srMask m).getLsbD 14 = true) := by
  have hall : ∀ n ∈ [0x001, 0x002, 0x003, 0x004, 0x005, 0x006, 0x007, 0x010, 0x011, 0x012, 0x013, 0x014, 0x015, 0x200, 0x201, 0x202, 0x203,
      0x204, 0x205, 0x400, 0x401, 0x410, 0x411, 0x412, 0x413, 0x414, 0x415, 0x800, 0x810, 0x811, 0x812, 0x813, 0x814, 0x815],
      n / 0x400 ≠ 3 ∧ (n % 0x400 = 0x11 → (srMask n).getLsbD 13 = true ∧ (srMask n).getLsbD 14 = true) := by decide
  exact hall m (List.contains_iff_mem.1 ha)

theorem srMask_levels {m : Nat} (ha : srAssigned m = true) (h : m % 0x400 = 0x11) (k : Nat) (h1 : 13 ≤ k) (h2 : k ≤ 14) : (srMask m).getLsbD k = true := by
  obtain ⟨h13, h14⟩ := (srAssigned_spec ha).2 h
  obtain rfl | rfl : k = 13 ∨ k = 14 := by omega
  · exact h13
  · exact h14

/-- A system register after a write: the bits of the value that exist, but for a reserved value's field (R8, R57). -/
theorem bit_srWrite (s : State) (t : Tid) {m : Nat} (ha : srAssigned m = true) (v : Word) (j : Nat) :
    bit (srAt (srWrite s t m v) t m) j
      = if (m = 0x001 ∨ m = 0x800) ∧ j < 2 ∧ bits v 1 0 = 3 ∨ m % 0x400 = 0x11 ∧ (j = 13 ∨ j = 14) ∧ bits v 14 13 = 3 then bit (srAt s t m) j
        else bit v j && bit (srMask m) j := by
  rw [srWrite, srAt_srPut_same]
  by_cases hrm : m = 0x001 ∨ m = 0x800
  · have hlow : ∀ k, 0 ≤ k → k ≤ 1 → (srMask m).getLsbD k = true := by
      have : srMask m = fmask 64 1 0 := by rcases hrm with rfl | rfl <;> rfl
      intro k _ hk
      rw [this, getLsbD_fmask _ _ _ _ (by decide)]
      simp [hk, show k < 64 by omega]
    have hbit := bit_keepField (srAt s t m) v (srMask m) (by decide) (by decide) hlow j
    have h11 : m % 0x400 ≠ 0x11 := by rcases hrm with rfl | rfl <;> decide
    have hjlt : (0 ≤ j ∧ j ≤ 1) ↔ j < 2 := by omega
    simp only [hjlt] at hbit
    rcases hrm with rfl | rfl <;> simpa [h11] using hbit
  · obtain ⟨h1, h8⟩ := not_or.1 hrm
    by_cases h11 : m % 0x400 = 0x11
    · have hbit := bit_keepField (srAt s t m) v (srMask m) (by decide) (by decide) (srMask_levels ha h11) j
      have hjlt : (13 ≤ j ∧ j ≤ 14) ↔ j = 13 ∨ j = 14 := by omega
      simp only [hjlt] at hbit
      simpa [h1, h8, h11] using hbit
    · simp [h1, h8, h11, bit, BitVec.getLsbD_and]

/-! ## The three instructions (R55) -/

/-- The thread's system registers as the issue leaves them. -/
theorem srAt_issued (s : State) (t : Tid) (m : Nat) : srAt (issued s t) t m = srAt s t m := srAt_congr (by rw [(issued_frame s t).2]) m

/-- A thread that changes in its level, pc, scalar and system registers alone after its issue. -/
theorem privFrame_of_threadOnly {s n : State} {t : Tid} (h : threadOnly t (issued s t) n)
    (ht : thread n t = { thread (issued s t) t with level := (thread n t).level, pc := (thread n t).pc, regs := (thread n t).regs, sr := (thread n t).sr }) :
    privFrame t s n := by
  refine ⟨?_, issueFrame_of_threadOnly h⟩
  rw [ht, (issued_frame s t).2]

/-- What a write to a system register leaves of its thread and of its other system registers. -/
theorem srWrite_only (s : State) (t : Tid) (m : Nat) (v : Word) :
    threadOnly t s (srWrite s t m v) ∧ thread (srWrite s t m v) t = { thread s t with sr := (thread (srWrite s t m v) t).sr }
      ∧ ∀ k, k ≠ m → srAt (srWrite s t m v) t k = srAt s t k :=
  ⟨by unfold srWrite; exact modThread_only s t _, thread_srPut s t m _, fun _ hk => srAt_srPut_other s t hk _⟩

/-- An `sr.*` that R56 allows: rd takes the old value, the register the new one (R55, R57). -/
theorem runSr_gives {i : Instr} {s : State} {t : Tid} {op : SrOp} {rd a : Reg} {num : BitVec 12} {w : BitVec 32} {v : Word} {writes : Bool}
    (hm : mayIssue s t false [rd, a] = true) (hd : drained s t = true) (ha : srAssigned num.toNat = true) (hl : num.toNat / 0x400 ≤ (thread s t).level.toNat)
    (hown : num.toNat ≠ 0x400) (hexec : exec i s = .next ((runSr s t op rd a num w).getD s)) (hw : (decide (op = .rw) || decide (a ≠ 0)) = writes)
    (hro : num.toNat / 0x200 % 2 = 0 ∨ writes = false) (hv : op.val (srRead s t num.toNat) (rx s t a) = v) :
    srGives i s t rd num.toNat v writes := by
  set m := num.toNat with hnum
  set s1 := if writes then srWrite (issued s t) t m v else issued s t with hs1
  have hlegal : srIllegal (thread s t).level.toNat m writes = false := by
    have h3 := (srAssigned_spec ha).1
    rcases hro with h | h <;> simp [srIllegal, h3, ha, h, not_lt.2 hl]
  have hrun : runSr s t op rd a num w = some (writeNext s1 t rd (srRead s t m)) := by
    simp only [runSr, hm, ← hnum, hw, hlegal, hd, hv, srWriteBy, hown, if_false, Bool.not_true, Bool.false_eq_true, Bool.and_false, hs1]
  have h1 : threadOnly t (issued s t) s1 ∧ thread s1 t = { thread (issued s t) t with sr := (thread s1 t).sr } ∧ ∀ k, k ≠ m → srAt s1 t k = srAt s t k := by
    cases writes with
    | true =>
      obtain ⟨honly, hthread, hother⟩ := srWrite_only (issued s t) t m v
      exact ⟨honly, hthread, fun k hk => (hother k hk).trans (srAt_issued s t k)⟩
    | false => exact ⟨.refl t _, rfl, fun k _ => srAt_issued s t k⟩
  obtain ⟨honly, hthread, hother⟩ := h1
  set n := writeNext s1 t rd (srRead s t m) with hn
  have hnt : thread n t = { xset (thread s1 t) rd (srRead s t m) with pc := (thread s1 t).pc + 4 } := by rw [hn, writeNext, thread_modThread_same]
  have hnsr : (thread n t).sr = (thread s1 t).sr := by rw [hnt]; exact xset_sr ..
  have hrx : ∀ r, rx n t r = if r = rd ∧ rd ≠ 0 then srRead s t m else rx s t r := fun r => by
    have hget := xget_xset (thread s1 t) rd r (srRead s t m)
    rw [rx, hnt]
    refine Eq.trans hget ?_
    rw [hthread, ← rx_issued s t r]; rfl
  refine ⟨n, by rw [hexec, hrun, Option.getD_some], ?_, fun r hr => by rw [hrx, if_neg (fun h => hr h.1)], ?_, ?_, fun k hk => ?_, fun hnw => ?_, fun hwr j _ => ?_, ?_⟩
  · rw [hrx]
    by_cases h0 : rd = 0
    · subst h0; rfl
    · rw [if_pos ⟨rfl, h0⟩, if_neg h0]
  · rw [hnt, hthread, ← pc_issued s t]
  · rw [hnt, xset_rest, hthread, (issued_frame s t).2]
  · rw [srAt_congr hnsr, hother k hk]
  · rw [srAt_congr hnsr, hs1, hnw]; exact srAt_issued s t m
  · rw [srAt_congr hnsr, hs1, hwr, if_pos rfl, bit_srWrite _ _ ha, srAt_issued]
  · refine privFrame_of_threadOnly (honly.trans (modThread_only s1 t _)) ?_
    rw [hnt, xset_rest, hthread]

/-- Settles O9. The three instructions differ in the value alone that they write; with rs1 = s0 the last two write none. -/
theorem systemRegisterAccess : Obligations.SystemRegisterAccess := by
  unfold Obligations.SystemRegisterAccess
  intro s t rd a num hm hd m ha hl hown old x
  have hro {p : Prop} (h : p ∨ a = 0) : p ∨ (decide (a ≠ 0)) = false := h.imp id (by simp)
  exact ⟨fun h => runSr_gives hm hd ha hl hown rfl rfl (.inl h) rfl, fun h => runSr_gives hm hd ha hl hown rfl rfl (hro h) rfl,
    fun h => runSr_gives hm hd ha hl hown rfl rfl (hro h) rfl⟩

end Sys2Proof.Machine
end

section
/-! PROOFS. Scalar loads of HBM that their thread's write-buffer entry or the L1 answers (R43, R50, R222, R225). -/

namespace Sys2Proof.Machine

open Sys2Proof.Safety

/-! ## A load's value (R43) -/

/-- A sign extension of a value's low bits. -/
theorem signExtend_ofNat_cases {w v : Nat} (hw : 0 < w) (hle : w ≤ 64) (hv : v < 2 ^ w) :
    (BitVec.ofNat w v).signExtend 64 = if 2 ^ (w - 1) ≤ v then BitVec.ofInt 64 ((v : Int) - 2 ^ w) else BitVec.ofNat 64 v := by
  have hpow : 2 ^ w = 2 * 2 ^ (w - 1) := by rw [← Nat.pow_succ', Nat.succ_eq_add_one, Nat.sub_add_cancel hw]
  rw [← BitVec.ofInt_toInt (x := (BitVec.ofNat w v).signExtend 64), toInt_signExtend_le _ hle, BitVec.toInt_eq_toNat_cond, BitVec.toNat_ofNat, Nat.mod_eq_of_lt hv]
  by_cases h : 2 ^ (w - 1) ≤ v
  · rw [if_pos h, if_neg (by omega)]; push_cast; rfl
  · rw [if_neg h, if_pos (by omega), BitVec.ofInt_natCast]

/-- A load takes the k bytes at its place in a line, as its form extends them. -/
theorem loadValue_lineBytes {r : LoadReq} {k : Nat} (hk : 0 < k) (hk8 : k ≤ 8) (hr : r.bytes = k) (b : Line) (off : Nat) :
    loadValue r (lineBytes b off r.bytes) = lineValue b.data off k r.signed := by
  have hlt : b.data.toNat / 2 ^ (8 * off) % 2 ^ (8 * k) < 2 ^ (8 * k) := Nat.mod_lt _ (Nat.two_pow_pos _)
  rw [loadValue, hr, lineBytes, ofLE_leBytes, Nat.shiftRight_eq_div_pow, sext, signExtend_ofNat_cases (by omega) (by omega) hlt, lineValue]
  cases r.signed <;> simp [wd]

/-! ## The threads' own entries (R225) -/

theorem thrOf_lt (t : Tid) : thrOf t < 8 := by unfold thrOf; split <;> omega

theorem val_ofNat_thrOf (t : Tid) : (Fin.ofNat 8 (thrOf t)).val = thrOf t := Nat.mod_eq_of_lt (thrOf_lt t)

/-- The own entries of an access, as the cell's path looks them up. -/
theorem ownEntries_eq (s : State) (t : Tid) (pa k : Nat) :
    (cell s (cellOf t)).wb.filter (fun e => decide (e.owner.val = thrOf t) && decide (e.line = pa / 128) && decide (e.mask &&& byteMask (pa % 128) k ≠ 0))
      = ownEntries s t pa k := by
  have hown (e : WbEnt) : (e.owner.val = thrOf t) = (e.owner = Fin.ofNat 8 (thrOf t)) := by rw [Fin.ext_iff, val_ofNat_thrOf]
  simp only [ownEntries, hown]

/-- The newest own entry that holds all of an access serves it. -/
theorem ownFull_of_newest {s : State} {t : Tid} {pa k : Nat} {e : WbEnt} (he : (ownEntries s t pa k).getLast? = some e)
    (hfull : e.mask &&& byteMask (pa % 128) k = byteMask (pa % 128) k) : ownFull (cell s (cellOf t)) (thrOf t) (pa / 128) (pa % 128) k = some e := by
  rw [ownFull, ownEntries_eq, he]
  simp only [hfull, if_true]

theorem ownFull_none {s : State} {t : Tid} {pa k : Nat} (h : ownEntries s t pa k = []) : ownFull (cell s (cellOf t)) (thrOf t) (pa / 128) (pa % 128) k = none := by
  rw [ownFull, ownEntries_eq, h]; rfl

theorem ownPart_none {s : State} {t : Tid} {pa k : Nat} (h : ownEntries s t pa k = []) : ownPart (cell s (cellOf t)) (thrOf t) (pa / 128) (pa % 128) k = false := by
  rw [← ownEntries_eq, List.filter_eq_nil_iff] at h
  rw [ownPart, List.any_eq_false]
  exact h

/-! ## The L1's line (R222, R223) -/

/-- The way of the L1 that holds an address. -/
theorem l1Line_way {s : State} {c pa : Nat} {y : CLine} (h : l1Line s c pa = some y) :
    ∃ w, l1Way (tget {} (cell s c).l1 (l1Index (pa / 128))) (pa / 128) = some w ∧ (tget {} (cell s c).l1 (l1Index (pa / 128))).ways.getD w none = some y := by
  unfold l1Line at h
  exact Option.bind_eq_some_iff.1 h

/-- A line of the L1 is the cell's own copy. -/
theorem l1Copy_of_l1Line {s : State} {c pa : Nat} {y : CLine} (h : l1Line s c pa = some y) : l1Copy (cell s c) (pa / 128) = some y := by
  obtain ⟨w, hw, hy⟩ := l1Line_way h
  unfold l1Copy
  extract_lets st
  rw [show l1Way st (pa / 128) = some w from hw, Option.bind_some, show st.ways.getD w none = some y from hy]
  rfl

/-- A hit in the L1 gives the line's body (R223). -/
theorem l1Lookup_hit {s : State} {c pa : Nat} {y : CLine} (h : l1Line s c pa = some y) (demand : Bool) : (l1Lookup s c (pa / 128) demand).1 = some y.body := by
  obtain ⟨w, hw, hy⟩ := l1Line_way h
  simp only [l1Lookup, hw, hy]

/-- A read of words whose parity is right finds no error (R222). -/
theorem l1Parity_right {s : State} {c pa k : Nat} {y : CLine} (h : l1Line s c pa = some y) (hbad : y.bad &&& wordsUnder (pa % 128) k = 0) :
    l1Parity s c (pa / 128) (pa % 128) k = s := by
  rw [l1Parity, l1Copy_of_l1Line h]
  simp only [hbad, if_true]

/-! ## A load served at issue -/

/-- A load of HBM that an own entry holds takes it from there (R225). -/
theorem cellLoad_own {s : State} {c : Nat} {r : LoadReq} {e : WbEnt} (dm : Demand) (hpa : r.pa < 0xF000000000)
    (hown : ownFull (cell s c) r.thr.val (r.pa / 128) (r.pa % 128) r.bytes = some e) :
    cellLoad s c dm r = (.value (loadValue r (wbBytes e (r.pa % 128) r.bytes)), s) := by
  rw [cellLoad, physAt_hbm s hpa]
  simp only [hown]

/-- A load of HBM without an own entry takes the line of the L1, unless it is poisoned (R222, R223). -/
theorem cellLoad_hit {s : State} {c : Nat} {r : LoadReq} {y : CLine} (dm : Demand) (hpa : r.pa < 0xF000000000)
    (hfull : ownFull (cell s c) r.thr.val (r.pa / 128) (r.pa % 128) r.bytes = none) (hpart : ownPart (cell s c) r.thr.val (r.pa / 128) (r.pa % 128) r.bytes = false)
    (hy : l1Line s c r.pa = some y) (hpoison : linePoison y.body (r.pa % 128) r.bytes = false) (hbad : y.bad &&& wordsUnder (r.pa % 128) r.bytes = 0) :
    cellLoad s c dm r = (.value (loadValue r (lineBytes y.body (r.pa % 128) r.bytes)), trainStreams (l1Lookup s c (r.pa / 128) true).2 c r.thr.val dm false) := by
  have hhit := l1Lookup_hit hy true
  rw [cellLoad, physAt_hbm s hpa]
  simp only [hfull, ownSettle, hpart, Bool.false_eq_true, if_false, l1Parity_right hy hbad]
  generalize l1Lookup s c (r.pa / 128) true = q at hhit ⊢
  obtain ⟨o, s'⟩ := q
  subst hhit
  simp only [hpoison, Bool.false_eq_true, if_false]

/-! ## The instruction -/

/-- An access of HBM is no device's. -/
theorem isDevice_hbm (s : State) {pa : Nat} (h : pa < 0xF000000000) : isDevice s pa = false := by rw [isDevice, physAt_hbm s h]

/-- A read of HBM is revocable (R300). -/
theorem irrevocable_read_hbm (s : State) (t : Tid) {pa : Nat} (h : pa < 0xF000000000) : irrevocable s t pa false = false := by
  simp [irrevocable, irrevocableAt, physAt_hbm s h]

/-- A translation leaves threads alone and what `walkFrame` names. -/
theorem walkKeeps_of_translate {s s1 : State} {c : Nat} {x : XCtx} {va : Word} {k : Access} {r : Except Exc Nat} (h : translate s c x va k = (r, s1)) :
    walkKeeps c s s1 := by have := translate_keeps s c x va k; rwa [h] at this

/-- What an instruction has done to its thread is what it did from a state with the same thread. -/
theorem regDone_congr {s s' n : State} {t : Tid} {rd : Reg} {v p : Word} (h : regDone s' n t rd v p) (ht : thread s' t = thread s t) : regDone s n t rd v p := by
  simpa only [regDone, rx, ht] using h

/-- A load whose translation and value wait for nothing writes its value and goes on (R43). -/
theorem runLoad_value {i : Instr} {t : Tid} {rd a : Reg} {o : BitVec 12} {k pa : Nat} {signed : Bool} {s s1 s2 : State} {v : Word}
    (hf : loadForm i = some ⟨t, rd, a, o, k, signed⟩) (hm : mayIssue s t true [rd, a] = true) (ho : oldestUnresolved (thread s t) = none)
    (hhold : (thread s t).hold = []) (hruns : loadRuns (thread s t) = false) (halign : (rx s t a + o.signExtend 64).toNat % k = 0)
    (hheld : xlatHeld s (cellOf t) (ctxOf s t) (rx s t a + o.signExtend 64) .load = false)
    (hx : translate s (cellOf t) (ctxOf s t) (rx s t a + o.signExtend 64) .load = (.ok pa, s1)) (hpa : pa < 0xF000000000)
    (hwait : ownWaits s1 (cellOf t) (thrOf t) (pa / 128) (pa % 128) k = false)
    (hload : cellLoad s1 (cellOf t) (demandAt s1 t (rx s t a + o.signExtend 64))
        { thr := Fin.ofNat 8 (thrOf t), rd := rd, pa := pa, bytes := k, signed := signed, va := rx s t a + o.signExtend 64,
          pc := (thread s t).pc, level := (thread s t).level } = (.value v, s2)) :
    runLoad i s = some (writeNext (issued s2 t) t rd v) := by
  have haddr : MemForm.addr ⟨t, rd, a, o, k, signed⟩ (thread s t) = rx s t a + o.signExtend 64 := rfl
  have hback : holdForward (thread s t) pa k = none := by rw [holdForward, hhold]; rfl
  have hold : olderAccess (thread s t) = false := by rw [olderAccess, ho, hruns]; rfl
  rw [runLoad, hf]
  simp only [hm, hold, haddr, halign, hheld, hx, ho, irrevocable_read_hbm s t hpa, hback, hwait, Bool.not_true, Bool.or_self, Bool.false_eq_true, if_false,
    ne_eq, not_true_eq_false, Option.isSome_none, Bool.and_false]
  rw [hload]; rfl

/-- A result written after lookups of the thread's own core: what `pathFrame` names stays. -/
theorem writeNext_cacheKeeps {s s1 s2 : State} {t : Tid} (h1 : walkKeeps (cellOf t) s s1) (h2 : cacheKeeps (cellOf t) s1 s2) (rd : Reg) (v : Word) :
    regDone s (writeNext (issued s2 t) t rd v) t rd v ((thread s t).pc + 4) ∧ pathFrame t s1 (writeNext (issued s2 t) t rd v) := by
  have ht : thread s2 t = thread s t := (h2.thread t).trans (h1.thread t)
  refine ⟨regDone_congr (ht ▸ (scalarDone_writeNext s2 t rd v).1) ht, ?_⟩
  exact ((h2.path.trans (issued_pathKeeps s2 t)).trans (modThread_pathKeeps _ t _)).frame

/-- What a load takes of a write-buffer entry, as its form extends it. -/
theorem loadValue_wbBytes {r : LoadReq} {k : Nat} (hk : 0 < k) (hk8 : k ≤ 8) (hr : r.bytes = k) (e : WbEnt) (off : Nat) :
    loadValue r (wbBytes e off r.bytes) = lineValue e.data off k r.signed := loadValue_lineBytes hk hk8 hr { data := e.data } off

/-- A load of HBM gives the bytes of its own entry, else of the L1's line. -/
theorem runLoad_gives {i : Instr} {t : Tid} {rd a : Reg} {o : BitVec 12} {k pa : Nat} {signed : Bool} {s s1 : State}
    (hf : loadForm i = some ⟨t, rd, a, o, k, signed⟩) (hexec : exec i s = .next ((runLoad i s).getD s)) (hk : 0 < k) (hk8 : k ≤ 8)
    (hm : mayIssue s t true [rd, a] = true) (ho : oldestUnresolved (thread s t) = none)
    (hhold : (thread s t).hold = []) (hruns : loadRuns (thread s t) = false) (halign : (rx s t a + o.signExtend 64).toNat % k = 0)
    (hheld : xlatHeld s (cellOf t) (ctxOf s t) (rx s t a + o.signExtend 64) .load = false)
    (hx : translate s (cellOf t) (ctxOf s t) (rx s t a + o.signExtend 64) .load = (.ok pa, s1)) (hpa : pa < 0xF000000000) :
    loadGives i k signed s s1 t rd pa := by
  have hwalk := walkKeeps_of_translate hx
  have finish {s2 : State} {v : Word} (h2 : cacheKeeps (cellOf t) s1 s2) (hrun : runLoad i s = some (writeNext (issued s2 t) t rd v)) :
      ∃ n, exec i s = .next n ∧ regDone s n t rd v ((thread s t).pc + 4) ∧ pathFrame t s1 n :=
    ⟨_, by rw [hexec, hrun, Option.getD_some], writeNext_cacheKeeps hwalk h2 rd v⟩
  refine ⟨fun e he hfull => ?_, fun y hown hy hpoison hbad => ?_⟩
  · have hown := ownFull_of_newest he hfull
    rw [← val_ofNat_thrOf] at hown
    have hwait : ownWaits s1 (cellOf t) (thrOf t) (pa / 128) (pa % 128) k = false := by
      rw [ownWaits, ownFull_of_newest he hfull]; rfl
    have hload := runLoad_value hf hm ho hhold hruns halign hheld hx hpa hwait (cellLoad_own _ hpa hown)
    rw [loadValue_wbBytes hk hk8 rfl] at hload
    exact finish (.refl _ s1) hload
  · have hnone := ownFull_none hown
    have hpart := ownPart_none hown
    have hwait : ownWaits s1 (cellOf t) (thrOf t) (pa / 128) (pa % 128) k = false := by rw [ownWaits, hpart, Bool.and_false]; rfl
    rw [← val_ofNat_thrOf] at hnone hpart
    have hload := runLoad_value hf hm ho hhold hruns halign hheld hx hpa hwait (cellLoad_hit _ hpa hnone hpart hy hpoison hbad)
    rw [loadValue_lineBytes hk hk8 rfl] at hload
    exact finish ((l1Lookup_keeps ..).trans (trainStreams_keeps ..)) hload

/-- Settles O5. Each load is the lemma of the loads at its own form. -/
theorem loadsReturnTheirBytes : Obligations.LoadsReturnTheirBytes := by
  unfold Obligations.LoadsReturnTheirBytes
  intro s s1 t rd a o pa hm ho hhold hruns va hheld hx hpa
  have h1 : va.toNat % 1 = 0 := Nat.mod_one _
  exact ⟨runLoad_gives rfl rfl (by decide) (by decide) hm ho hhold hruns h1 hheld hx hpa,
    runLoad_gives rfl rfl (by decide) (by decide) hm ho hhold hruns h1 hheld hx hpa,
    fun h => ⟨runLoad_gives rfl rfl (by decide) (by decide) hm ho hhold hruns h hheld hx hpa, runLoad_gives rfl rfl (by decide) (by decide) hm ho hhold hruns h hheld hx hpa⟩,
    fun h => ⟨runLoad_gives rfl rfl (by decide) (by decide) hm ho hhold hruns h hheld hx hpa, runLoad_gives rfl rfl (by decide) (by decide) hm ho hhold hruns h hheld hx hpa⟩,
    fun h => runLoad_gives rfl rfl (by decide) (by decide) hm ho hhold hruns h hheld hx hpa⟩

end Sys2Proof.Machine
end

section
/-! PROOFS. Scalar stores to HBM enter the write buffer and the L1's own copy (R43, R224, R225). -/

namespace Sys2Proof.Machine

open Sys2Proof.Safety

/-! ## A store's bytes (R4, R43) -/

/-- A store's bytes laid over a line. -/
theorem laidOver_overlay (x : Line) (off k : Nat) (v : Word) (h : off + k ≤ 128) : laidOver x.data (overlay x off (leBytes v.toNat k) false).data off k v := by
  intro b hb
  rw [overlay_byte x off _ false (by rwa [leBytes_length]) b hb, leBytes_length]
  split
  · rename_i hin
    ext j hj
    rw [← BitVec.getLsbD_eq_getElem, testBit_leBytes _ _ _ _ hj, BitVec.getElem_extractLsb', decide_eq_true (by omega), Bool.true_and, BitVec.getLsbD]
  · rfl

/-! ## The L1's copy (R224) -/

theorem trainStreams_l1 (s : State) (c thr : Nat) (d : Demand) (m : Bool) : (cell (trainStreams s c thr d m) c).l1 = (cell s c).l1 := by
  unfold trainStreams
  extract_lets s1 x dist put
  have hs1 : (cell s1 c).l1 = (cell s c).l1 := by rw [cell_modCell_same]
  have hput (st : Stream) : (cell (put s1 st) c).l1 = (cell s c).l1 := by rw [cell_modCell_same]; exact hs1
  split
  · exact hput _
  · split
    · exact hs1
    · split
      · split
        · exact hs1
        · split <;> exact hput _
      · rw [cell_modCell_same]; exact hs1

theorem usefulIf_cell (s : State) (c : Nat) (x : CLine) (d : Bool) (e : Nat) : cell (usefulIf s c x d) e = cell s e := by
  unfold usefulIf
  split
  · rfl
  · split
    · exact (perfEvent_counterFrame ..).cell e
    · rfl

/-- A way takes a changed copy of its line. -/
theorem l1Way_set {st : L1Set} {l w : Nat} {y : CLine} (tree : BitVec 7) (hw : l1Way st l = some w) (hy : y.line = l) :
    l1Way { ways := st.ways.set w (some y), tree := tree } l = some w ∧ (st.ways.set w (some y)).getD w none = some y := by
  unfold l1Way at hw ⊢
  obtain ⟨hlt, hp, hfirst⟩ := List.findIdx?_eq_some_iff_getElem.1 hw
  constructor
  · refine List.findIdx?_eq_some_iff_getElem.2 ⟨by simpa using hlt, by simpa using hy, fun j hj => ?_⟩
    rw [List.getElem_set_ne (by omega)]
    exact hfirst j hj
  · rw [List.getD_eq_getElem?_getD, List.getElem?_set_self hlt]; rfl

/-- The line in a way is the line looked up. -/
theorem l1Way_line {st : L1Set} {l w : Nat} {y : CLine} (hw : l1Way st l = some w) (hy : st.ways.getD w none = some y) : y.line = l := by
  obtain ⟨hlt, hp, -⟩ := List.findIdx?_eq_some_iff_getElem.1 hw
  rw [List.getD_eq_getElem?_getD, List.getElem?_eq_getElem hlt, Option.getD_some] at hy
  rw [hy] at hp
  exact of_decide_eq_true hp

/-- A store changes the L1's copy of its line as R222, R224 and R238 say. -/
theorem l1Line_l1Store {s : State} {c pa : Nat} {y : CLine} (bs : List Byte) (h : l1Line s c pa = some y) :
    l1Line (l1Store s c (pa / 128) (pa % 128) bs) c pa
      = some { y with body := overlay y.body (pa % 128) bs false, bad := y.bad &&& ~~~wordsCovered (pa % 128) bs.length, pmark := none } := by
  obtain ⟨w, hw, hy⟩ := l1Line_way h
  simp only [l1Store, hw, hy, l1Line, cell_modCell_same, tget_tins_same]
  obtain ⟨hway, hget⟩ := l1Way_set (y := { y with body := overlay y.body (pa % 128) bs false, bad := y.bad &&& ~~~wordsCovered (pa % 128) bs.length, pmark := none })
    (treeTouch (tget {} (cell s c).l1 (l1Index (pa / 128))).tree w) hw (show y.line = _ from l1Way_line hw hy)
  rw [hway, Option.bind_some, hget]

/-! ## The write buffer (R225) -/

theorem storeMerges_congr {x y : CellS} (h : x.wb = y.wb) (thr l : Nat) : storeMerges x thr l = storeMerges y thr l := by rw [storeMerges, storeMerges, h]

/-- An entry of the write buffer with the bytes of a store laid over it (R224, R225). -/
def grownEntry (e : WbEnt) (off : Nat) (bs : List Byte) : WbEnt :=
  { e with data := (overlay { data := e.data } off bs false).data, mask := e.mask ||| byteMask off bs.length,
           drained := decide (e.mask ||| byteMask off bs.length = BitVec.allOnes 128) }

/-- A store merges into its thread's open entry of the line. -/
theorem wbPut_merges {s : State} {c thr l off j : Nat} {bs : List Byte} {e : WbEnt} (hj : storeMerges (cell s c) thr l = some j) (he : (cell s c).wb[j]? = some e) :
    wbPut s c thr l off bs = modCell s c (fun x => { x with wb := (cell s c).wb.set j (grownEntry e off bs) }) := by
  simp only [wbPut, hj, he, Bool.or_false]
  rfl

/-- A store without an open entry takes a new one. -/
theorem wbPut_appends {s : State} {c thr l off : Nat} {bs : List Byte} (hj : storeMerges (cell s c) thr l = none) (hroom : (cell s c).wb.length < 16) :
    wbPut s c thr l off bs = modCell s c 
      (fun x => { x with wb := (cell s c).wb ++ [grownEntry { line := l, data := 0, mask := 0, owner := Fin.ofNat 8 thr } off bs] }) := by
  have hmask (m : BitVec 128) : 0 ||| m = m := BitVec.zero_or
  simp only [wbPut, hj, makeRoom, hroom, if_true, grownEntry, hmask]
  rfl

/-! ## The instruction -/

/-- An aligned access, its page offset kept by translation, stays within a line (R44, R94). -/
theorem aligned_within_line {pa va k : Nat} (hk : k ∣ 128) (halign : va % k = 0) (hplace : pa % 4096 = va % 4096) : pa % 128 + k ≤ 128 := by
  have hpage : k ∣ 4096 := hk.trans (by decide)
  have hpa : k ∣ pa % 128 := by
    rw [Nat.dvd_mod_iff hk, ← Nat.dvd_mod_iff hpage, hplace, Nat.dvd_mod_iff hpage]
    exact Nat.dvd_of_mod_eq_zero halign
  have hlt : pa % 128 < 128 := Nat.mod_lt _ (by decide)
  have hgap : k ∣ 128 - pa % 128 := Nat.dvd_sub hk hpa
  have := Nat.le_of_dvd (by omega) hgap
  omega

/-- A store to HBM is irrevocable for a SPEC thread at level 2 alone (R300). -/
theorem irrevocable_store_hbm {s : State} {t : Tid} {pa : Nat} (h : pa < 0xF000000000) (hs : (thread s t).spec = none ∨ (thread s t).level ≠ 2) :
    irrevocable s t pa true = false := by
  rw [irrevocable, irrevocableAt, physAt_hbm s h]
  rcases hs with hs | hs
  · rw [hs]; rfl
  · simp only [decide_eq_false hs, Bool.and_false]

/-- A store within a line of HBM goes to the L1's copy and the write buffer. -/
theorem cellStore_hbm {s : State} {c thr pa : Nat} {bs : List Byte} (hpa : pa < 0xF000000000) (hline : pa % 128 + bs.length ≤ 128) :
    cellStore s c thr pa bs = wbPut (l1Store s c (pa / 128) (pa % 128) bs) c thr (pa / 128) (pa % 128) bs := by
  rw [cellStore, physAt_hbm _ hpa]
  simp only [cutLines_one pa bs hline, List.foldl_cons, List.foldl_nil]

/-- A store to HBM that finds its entry puts its bytes into the L1's copy and the write buffer (R43). -/
theorem runStore_puts {i : Instr} {t : Tid} {r a : Reg} {o : BitVec 12} {k pa : Nat} {s s1 : State} (hf : storeForm i = some ⟨t, r, a, o, k, false⟩)
    (hm : mayIssue s t true [r, a] = true) (ho : oldestUnresolved (thread s t) = none) (halign : (rx s t a + o.signExtend 64).toNat % k = 0)
    (hheld : xlatHeld s (cellOf t) (ctxOf s t) (rx s t a + o.signExtend 64) .store = false)
    (hx : translate s (cellOf t) (ctxOf s t) (rx s t a + o.signExtend 64) .store = (.ok pa, s1)) (hpa : pa < 0xF000000000)
    (hspec : (thread s t).spec = none ∨ (thread s t).level ≠ 2) (hline : pa % 128 + k ≤ 128)
    (hroom : storeRoom (cell s1 (cellOf t)) (thrOf t) (pa / 128) false = true) :
    ∃ dm, runStore i s = some (nextPc (wbPut (l1Store (issued (trainStreams s1 (cellOf t) (thrOf t) dm false) t) (cellOf t) (pa / 128) (pa % 128) (leBytes (rx s t r).toNat k))
      (cellOf t) (thrOf t) (pa / 128) (pa % 128) (leBytes (rx s t r).toNat k)) t) := by
  have haddr : MemForm.addr ⟨t, r, a, o, k, false⟩ (thread s t) = rx s t a + o.signExtend 64 := rfl
  have hin : inHbm pa = true := decide_eq_true hpa
  refine ⟨demandAt s1 t (rx s t a + o.signExtend 64), ?_⟩
  rw [runStore, hf]
  simp only [hm, haddr, halign, hheld, hx, ho, irrevocable_store_hbm hpa hspec, isDevice_hbm s hpa, hroom, hin, Bool.not_true, Bool.false_eq_true, if_false, if_true,
    ne_eq, not_true_eq_false, Option.isSome_none, Bool.and_false]
  rw [← rx, cellStore_hbm hpa (by rwa [leBytes_length])]

/-- What a store does once its bytes have an entry: the thread goes on, the L1's copy has them, and nothing but what `pathFrame` names changes. -/
theorem stored_done {s s1 s2 : State} {t : Tid} {pa k : Nat} {v : Word} {wb : List WbEnt} (h1 : walkKeeps (cellOf t) s s1) (h2 : cacheKeeps (cellOf t) s1 s2)
    (hl1 : (cell s2 (cellOf t)).l1 = (cell s1 (cellOf t)).l1) (hline : pa % 128 + k ≤ 128) :
    let n := nextPc (modCell (l1Store (issued s2 t) (cellOf t) (pa / 128) (pa % 128) (leBytes v.toNat k)) (cellOf t) (fun x => { x with wb := wb })) t
    regDone s n t 0 0 ((thread s t).pc + 4) ∧ pathFrame t s1 n
    ∧ (∀ y, l1Line s1 (cellOf t) pa = some y →
        ∃ d, l1Line n (cellOf t) pa = some { y with body := d, bad := y.bad &&& ~~~wordsCovered (pa % 128) k, pmark := none } ∧ laidOver y.body.data d.data (pa % 128) k v)
    ∧ (cell n (cellOf t)).wb = wb := by
  intro n
  have hstore := l1Store_keeps (issued s2 t) (cellOf t) (pa / 128) (pa % 128) (leBytes v.toNat k)
  have ht : thread s2 t = thread s t := (h2.thread t).trans (h1.thread t)
  have hn : thread n t = thread (nextPc (issued s2 t) t) t := by
    simp only [n, nextPc, thread_modThread_same, thread_modCell, hstore.thread]
  have hreg : regDone s2 (nextPc (issued s2 t) t) t 0 0 ((thread s2 t).pc + 4) := regDone_modThread s2 t 0 0 _ _ (by rw [pc_issued]; rfl)
  refine ⟨?_, ?_, fun y hy => ⟨overlay y.body (pa % 128) (leBytes v.toNat k) false, ?_, laidOver_overlay _ _ _ _ hline⟩, ?_⟩
  · simpa only [regDone, rx, ht, hn] using hreg
  · exact ((((h2.path.trans (issued_pathKeeps s2 t)).trans hstore.path).trans (modCell_cellKeeps _ _ _ rfl).path).trans (modThread_pathKeeps _ t _)).frame
  · have hy2 : l1Line (issued s2 t) (cellOf t) pa = some y := by
      rw [← hy, l1Line, l1Line, issued_cell, if_pos rfl, hl1]
    have hafter := l1Line_l1Store (leBytes v.toNat k) hy2
    rw [leBytes_length] at hafter
    rw [← hafter]
    simp only [n, nextPc, l1Line, cell_modThread, cell_modCell_same]
  · simp only [n, nextPc, cell_modThread, cell_modCell_same]

/-- A store of HBM within a page's place does as R224 and R225 say. -/
theorem runStore_gives {i : Instr} {t : Tid} {r a : Reg} {o : BitVec 12} {k pa : Nat} {s s1 : State} (hf : storeForm i = some ⟨t, r, a, o, k, false⟩)
    (hexec : exec i s = .next ((runStore i s).getD s)) (hk : k ∣ 128) (hm : mayIssue s t true [r, a] = true) (ho : oldestUnresolved (thread s t) = none)
    (halign : (rx s t a + o.signExtend 64).toNat % k = 0)
    (hheld : xlatHeld s (cellOf t) (ctxOf s t) (rx s t a + o.signExtend 64) .store = false)
    (hx : translate s (cellOf t) (ctxOf s t) (rx s t a + o.signExtend 64) .store = (.ok pa, s1)) (hpa : pa < 0xF000000000)
    (hspec : (thread s t).spec = none ∨ (thread s t).level ≠ 2) (hplace : pa % 4096 = (rx s t a + o.signExtend 64).toNat % 4096) :
    storeGives i k s s1 t (rx s t r) pa := by
  have hwalk := walkKeeps_of_translate hx
  have hline := aligned_within_line hk halign hplace
  have hstored (dm : Demand) := cacheKeeps.wb (l1Store_keeps (issued (trainStreams s1 (cellOf t) (thrOf t) dm false) t) (cellOf t) (pa / 128) (pa % 128) (leBytes (rx s t r).toNat k))
  have hissued (dm : Demand) : (cell (issued (trainStreams s1 (cellOf t) (thrOf t) dm false) t) (cellOf t)).wb = (cell s1 (cellOf t)).wb := by
    rw [issued_cell, if_pos rfl]; exact (trainStreams_keeps ..).wb
  have hgrown (e : WbEnt) : laidOver e.data (grownEntry e (pa % 128) (leBytes (rx s t r).toNat k)).data (pa % 128) k (rx s t r) := laidOver_overlay { data := e.data } _ _ _ hline
  refine ⟨fun j e hj he => ?_, fun hj hroom => ?_⟩
  · obtain ⟨dm, hrun⟩ := runStore_puts hf hm ho halign hheld hx hpa hspec hline (by rw [storeRoom, hj]; simp)
    rw [wbPut_merges (by rw [storeMerges_congr ((hstored dm).trans (hissued dm)), hj]) (by rw [hstored, hissued]; exact he), hstored, hissued] at hrun
    obtain ⟨hreg, hframe, hcopy, hwb⟩ := stored_done hwalk (trainStreams_keeps s1 (cellOf t) (thrOf t) dm false) (trainStreams_l1 ..) hline
    exact ⟨_, _, ⟨by rw [hexec, hrun, Option.getD_some], hreg, hframe, hcopy⟩, ⟨by simp [grownEntry, leBytes_length], hgrown e⟩, hwb⟩
  · obtain ⟨dm, hrun⟩ := runStore_puts hf hm ho halign hheld hx hpa hspec hline (by rw [storeRoom, decide_eq_true hroom, Bool.true_or])
    rw [wbPut_appends (by rw [storeMerges_congr ((hstored dm).trans (hissued dm)), hj]) (by rw [hstored, hissued]; exact hroom), hstored, hissued] at hrun
    obtain ⟨hreg, hframe, hcopy, hwb⟩ := stored_done hwalk (trainStreams_keeps s1 (cellOf t) (thrOf t) dm false) (trainStreams_l1 ..) hline
    exact ⟨_, _, ⟨by rw [hexec, hrun, Option.getD_some], hreg, hframe, hcopy⟩, ⟨by simp [grownEntry, leBytes_length], hgrown _⟩, hwb⟩

/-- Settles O6. Each store is the lemma of the stores at its own form. -/
theorem storesEnterTheWriteBuffer : Obligations.StoresEnterTheWriteBuffer := by
  unfold Obligations.StoresEnterTheWriteBuffer
  intro s s1 t r a o pa hm ho va hheld hx hpa hspec hplace
  exact ⟨runStore_gives rfl rfl (by decide) hm ho (Nat.mod_one _) hheld hx hpa hspec hplace,
    fun h => runStore_gives rfl rfl (by decide) hm ho h hheld hx hpa hspec hplace,
    fun h => runStore_gives rfl rfl (by decide) hm ho h hheld hx hpa hspec hplace,
    fun h => runStore_gives rfl rfl (by decide) hm ho h hheld hx hpa hspec hplace⟩

end Sys2Proof.Machine
end

section
/-! PROOFS. Write-buffer entries drain and are performed at memory (R50, R225). -/

namespace Sys2Proof.Machine

open Sys2Proof.Safety

/-! ## The runs of an entry (R225) -/

/-- A run of bytes covers a place of its line. -/
def runCovers (r : Nat × List Byte) (j : Nat) : Prop := r.1 ≤ j ∧ j < r.1 + r.2.length

/-- Runs hold exactly an entry's valid bytes between two places. -/
structure runsHold (e : WbEnt) (lo hi : Nat) (rs : List (Nat × List Byte)) : Prop where
  within : ∀ r ∈ rs, r.2 ≠ [] ∧ lo ≤ r.1 ∧ r.1 + r.2.length ≤ hi
  bytes : ∀ r ∈ rs, ∀ j, runCovers r j → r.2.getD (j - r.1) 0 = e.data.extractLsb' (8 * j) 8
  covers : ∀ j, lo ≤ j → j < hi → ((∃ r ∈ rs, runCovers r j) ↔ bit e.mask j = true)

theorem wbBytes_one (e : WbEnt) (i : Nat) : wbBytes e i 1 = [e.data.extractLsb' (8 * i) 8] := lineBytes_eq { data := e.data } i 1

theorem runCovers_byte (i : Nat) (b : Byte) (j : Nat) : runCovers (i, [b]) j ↔ j = i := by
  simp only [runCovers, List.length_singleton]; omega

/-- A valid byte before the first run joins it. -/
theorem runCovers_join (i : Nat) (b : Byte) (bs : List Byte) (j : Nat) : runCovers (i, b :: bs) j ↔ j = i ∨ runCovers (i + 1, bs) j := by
  simp only [runCovers, List.length_cons]; omega

/-- No run covers a place before the first. -/
theorem runsHold.not_covers {e : WbEnt} {lo hi : Nat} {rs : List (Nat × List Byte)} (h : runsHold e lo hi rs) {j : Nat} (hj : j < lo) : ¬ ∃ r ∈ rs, runCovers r j := by
  rintro ⟨r, hr, hc, -⟩
  have := (h.within r hr).2.1
  omega

theorem runsHold.within_from {e : WbEnt} {lo hi : Nat} {rs : List (Nat × List Byte)} (h : runsHold e lo hi rs) (i : Nat) (hi' : i ≤ lo) :
    ∀ r ∈ rs, r.2 ≠ [] ∧ i ≤ r.1 ∧ r.1 + r.2.length ≤ hi := fun r hr => by
  obtain ⟨hne, hlo, hhi⟩ := h.within r hr
  exact ⟨hne, hi'.trans hlo, hhi⟩

/-- A byte that is not valid adds nothing. -/
theorem runsHold.skip {e : WbEnt} {i hi : Nat} {rs : List (Nat × List Byte)} (h : runsHold e (i + 1) hi rs) (hb : bit e.mask i = false) : runsHold e i hi rs := by
  refine ⟨h.within_from i (Nat.le_succ i), h.bytes, fun j hlo hhi => ?_⟩
  · rcases Nat.eq_or_lt_of_le hlo with rfl | hlt
    · simp only [h.not_covers (Nat.lt_succ_self _), hb, Bool.false_eq_true]
    · exact h.covers j hlt hhi

/-- A valid byte that makes a run of its own. -/
theorem runsHold.alone {e : WbEnt} {i hi : Nat} {rs : List (Nat × List Byte)} (h : runsHold e (i + 1) hi rs) (hi' : i < hi) (hb : bit e.mask i = true) :
    runsHold e i hi ((i, wbBytes e i 1) :: rs) := by
  rw [wbBytes_one]
  refine ⟨List.forall_mem_cons.2 ⟨⟨by simp, Nat.le_refl i, hi'⟩, h.within_from i (Nat.le_succ i)⟩, List.forall_mem_cons.2 ⟨fun j hj => ?_, h.bytes⟩, fun j hlo hhi => ?_⟩
  · rw [(runCovers_byte ..).1 hj]; simp
  · rw [List.exists_mem_cons_iff, runCovers_byte]
    rcases Nat.eq_or_lt_of_le hlo with rfl | hlt
    · exact iff_of_true (Or.inl rfl) hb
    · rw [h.covers j hlt hhi, or_iff_right (by omega)]

/-- A valid byte that joins the run after it. -/
theorem runsHold.join {e : WbEnt} {i hi : Nat} {bs : List Byte} {rs : List (Nat × List Byte)} (h : runsHold e (i + 1) hi ((i + 1, bs) :: rs)) (hb : bit e.mask i = true) :
    runsHold e i hi ((i, wbBytes e i 1 ++ bs) :: rs) := by
  rw [wbBytes_one, List.singleton_append]
  obtain ⟨hfirst, hrest⟩ := List.forall_mem_cons.1 h.within
  obtain ⟨bfirst, brest⟩ := List.forall_mem_cons.1 h.bytes
  refine ⟨List.forall_mem_cons.2 ⟨⟨by simp, Nat.le_refl i, ?_⟩, fun r hr => ?_⟩, List.forall_mem_cons.2 ⟨fun j hj => ?_, brest⟩, fun j hlo hhi => ?_⟩
  · have := hfirst.2.2
    simp only [List.length_cons] at this ⊢; omega
  · obtain ⟨hne, hlo, hhi⟩ := hrest r hr
    exact ⟨hne, by omega, hhi⟩
  · rcases (runCovers_join ..).1 hj with rfl | hc
    · simp
    · have hij := hc.1
      rw [← bfirst j hc, show j - (i, e.data.extractLsb' (8 * i) 8 :: bs).1 = j - (i + 1) + 1 by simp only at hij ⊢; omega, List.getD_cons_succ]
  · rw [List.exists_mem_cons_iff, runCovers_join, or_assoc, ← List.exists_mem_cons_iff (p := fun r => runCovers r j)]
    rcases Nat.eq_or_lt_of_le hlo with rfl | hlt
    · exact iff_of_true (Or.inl rfl) hb
    · rw [h.covers j hlt hhi, or_iff_right (by omega)]

/-- A property of a right fold over the numbers below n, from the last down. -/
theorem foldr_range_inv {α : Type} (P : Nat → α → Prop) (f : Nat → α → α) (n : Nat) (a : α) (h0 : P n a) (hs : ∀ i x, i < n → P (i + 1) x → P i (f i x)) :
    P 0 ((List.range n).foldr f a) := by
  induction n generalizing a with
  | zero => exact h0
  | succ n ih =>
    rw [List.range_succ, List.foldr_append]
    exact ih (f n a) (hs n a (Nat.lt_succ_self n) h0) (fun i x hi => hs i x (Nat.lt_succ_of_lt hi))

/-- The runs of an entry hold its valid bytes. -/
theorem wbRuns_hold (e : WbEnt) : runsHold e 0 128 (wbRuns e) := by
  refine foldr_range_inv (fun i rs => runsHold e i 128 rs) _ 128 [] ⟨by simp, by simp, fun j h1 h2 => by omega⟩ (fun i rs hi h => ?_)
  split
  · rename_i hb
    split
    · rename_i o bs rest
      split
      · rename_i ho
        subst ho
        exact h.join hb
      · exact h.alone hi hb
    · exact h.alone hi hb
  · rename_i hb
    exact h.skip (Bool.eq_false_iff.2 hb)

/-! ## Runs written at their home (R50) -/

/-- What writing to a line needs, whatever is written: memory is safe, the line is alive and no dead link lies between the die and the line (R457). -/
structure lineWritable (s : State) (d l : Nat) : Prop where
  safe : memorySafe s
  alive : lineDead s l = false
  reached : ∀ j, j < 128 → crossDead s d (dieOf s (lineBase l + j)) = false

theorem lineBase_place {l j : Nat} (hj : j < 128) : (lineBase l + j) / 128 = l ∧ (lineBase l + j) % 128 = j := by rw [lineBase]; omega

theorem hbm_place {l j : Nat} (hl : lineHbm l = true) (hj : j < 128) : lineBase l + j < 0xF000000000 := by
  have := of_decide_eq_true hl
  rw [lineBase] at this ⊢
  omega

theorem dieOf_hbm {s n : State} {pa : Nat} (h : pa < 0xF000000000) (hg : n.ms.gran = s.ms.gran) : dieOf n pa = dieOf s pa := by
  rw [dieOf, dieOf, physAt_hbm n h, physAt_hbm s h, hg]

/-- A write to a line of HBM leaves it writable. -/
theorem lineWritable.after {s : State} {d l : Nat} (h : lineWritable s d l) (hl : lineHbm l = true) (off : Nat) (bs : List Byte) (mk : Bool) :
    lineWritable (homeWriteLine s l off bs mk) d l := by
  have hkeep := homeWriteLine_keeps s l off bs mk
  refine ⟨homeWriteLine_safe s h.safe l off bs mk, by rw [homeWriteLine_dead]; exact h.alive, fun j hj => ?_⟩
  rw [dieOf_hbm (hbm_place hl hj) hkeep.gran, ← h.reached j hj]
  generalize homeWriteLine s l off bs mk = n at hkeep
  rw [hkeep.1]; rfl

/-- Bytes written to a line that nothing keeps them from. -/
theorem homeWriteFrom_line {s : State} {d l off : Nat} {bs : List Byte} (h : lineWritable s d l) (hne : bs ≠ []) (hlt : off + bs.length ≤ 128) :
    homeWriteFrom s d (lineBase l + off) bs = homeWriteLine s l off bs false := by
  have hpos := List.length_pos_of_ne_nil hne
  obtain ⟨hline, hoff⟩ := lineBase_place (l := l) (j := off) (by omega)
  rw [homeWriteFrom, h.reached off (by omega), homeWrite, cutLines_one _ _ (by omega), hline, hoff]
  simp [hne]

/-- The bytes of runs written one after another to a line: of an entry's valid ones each place gets its own, and no other byte of memory changes. -/
theorem foldl_writeRuns {e : WbEnt} {d l : Nat} (hl : lineHbm l = true) (f : State → Nat × List Byte → State)
    (hf : ∀ s r, lineWritable s d l → r.2 ≠ [] → r.1 + r.2.length ≤ 128 → f s r = homeWriteLine s l r.1 r.2 false) (rs : List (Nat × List Byte))
    (hw : ∀ r ∈ rs, r.2 ≠ [] ∧ r.1 + r.2.length ≤ 128) (hb : ∀ r ∈ rs, ∀ j, runCovers r j → r.2.getD (j - r.1) 0 = e.data.extractLsb' (8 * j) 8)
    (s : State) (h : lineWritable s d l) :
    writeKeeps s (rs.foldl f s)
    ∧ (∀ j, j < 128 → (∃ r ∈ rs, runCovers r j) → byteAt (rs.foldl f s) (lineBase l + j) = e.data.extractLsb' (8 * j) 8)
    ∧ (∀ a, (a / 128 = l → ¬ ∃ r ∈ rs, runCovers r (a % 128)) → byteAt (rs.foldl f s) a = byteAt s a) := by
  induction rs generalizing s with
  | nil => exact ⟨.refl s, fun j _ hc => by simp at hc, fun a _ => rfl⟩
  | cons r rs ih =>
    obtain ⟨hr, hrs⟩ := List.forall_mem_cons.1 hw
    obtain ⟨hbr, hbrs⟩ := List.forall_mem_cons.1 hb
    rw [List.foldl_cons, hf s r h hr.1 hr.2]
    obtain ⟨hkeep, hin, hout⟩ := ih hrs hbrs _ (h.after hl r.1 r.2 false)
    have hfirst := homeWriteLine_bytes s h.safe l r.1 r.2 false hr.2
    refine ⟨(homeWriteLine_keeps ..).trans hkeep, fun j hj hc => ?_, fun a ha => ?_⟩
    · by_cases hrest : ∃ q ∈ rs, runCovers q j
      · exact hin j hj hrest
      · have hrj : runCovers r j := ((List.exists_mem_cons_iff ..).1 hc).resolve_right hrest
        obtain ⟨hline, hplace⟩ := lineBase_place (l := l) hj
        rw [hout _ (fun _ => by rwa [hplace]), hfirst, hline, hplace, if_pos ⟨h.alive, rfl, hrj⟩, hbr j hrj]
    · rw [hout a (fun hl hc => ha hl ((List.exists_mem_cons_iff ..).2 (.inr hc))), hfirst,
        if_neg (fun hc => ha hc.2.1 ((List.exists_mem_cons_iff ..).2 (.inl hc.2.2)))]

/-- All runs of an entry written: its valid bytes are in memory. -/
theorem foldl_writeEntry {e : WbEnt} {s : State} {d : Nat} (hl : lineHbm e.line = true) (h : lineWritable s d e.line) (f : State → Nat × List Byte → State)
    (hf : ∀ s r, lineWritable s d e.line → r.2 ≠ [] → r.1 + r.2.length ≤ 128 → f s r = homeWriteLine s e.line r.1 r.2 false) :
    writeKeeps s ((wbRuns e).foldl f s)
    ∧ (∀ j, j < 128 → byteAt ((wbRuns e).foldl f s) (lineBase e.line + j) = if bit e.mask j then e.data.extractLsb' (8 * j) 8 else byteAt s (lineBase e.line + j))
    ∧ (∀ a, a / 128 ≠ e.line → byteAt ((wbRuns e).foldl f s) a = byteAt s a) := by
  have hruns := wbRuns_hold e
  obtain ⟨hkeep, hin, hout⟩ := foldl_writeRuns hl f hf (wbRuns e) (fun r hr => ⟨(hruns.within r hr).1, (hruns.within r hr).2.2⟩) hruns.bytes s h
  refine ⟨hkeep, fun j hj => ?_, fun a ha => hout a (fun hl => absurd hl ha)⟩
  have hcover := hruns.covers j (Nat.zero_le j) hj
  split
  · rename_i hb
    exact hin j hj (hcover.2 hb)
  · rename_i hb
    refine hout _ (fun _ => ?_)
    rwa [(lineBase_place hj).2, hcover]

/-- An entry of a line of HBM performed: its valid bytes are in memory (R50). -/
theorem performEnt_writes {s : State} {c : Nat} {e : WbEnt} (hl : lineHbm e.line = true) (h : lineWritable s (dieOfCore c) e.line) :
    writeKeeps s (performEnt s c e)
    ∧ (∀ j, j < 128 → byteAt (performEnt s c e) (lineBase e.line + j) = if bit e.mask j then e.data.extractLsb' (8 * j) 8 else byteAt s (lineBase e.line + j))
    ∧ (∀ a, a / 128 ≠ e.line → byteAt (performEnt s c e) a = byteAt s a) := by
  unfold performEnt
  refine foldl_writeEntry hl h _ (fun s r hw hne hlt => ?_)
  have hpos := List.length_pos_of_ne_nil hne
  simp only [physAt_hbm s (hbm_place hl (show r.1 < 128 by omega))]
  exact homeWriteFrom_line hw hne hlt

/-! ## Stores that wait for an entry (R225) -/

theorem mem_tidsOf {c : Nat} (hc : c < 772) (t : Tid) : t ∈ tidsOf c ↔ cellOf t = c := by
  have ht := t.isLt
  simp only [tidsOf, List.mem_map, List.mem_range, thrCount, tidOf, cellOf]
  by_cases h : c < 768
  · simp only [h, if_true]
    constructor
    · rintro ⟨j, hj, rfl⟩
      simp only [Fin.val_ofNat]
      rw [if_pos (by omega)]; omega
    · intro hcell
      have : t.val < 6144 := by by_contra hn; rw [if_neg hn] at hcell; omega
      rw [if_pos this] at hcell
      exact ⟨t.val % 8, Nat.mod_lt _ (by decide), Fin.ext (by simp only [Fin.val_ofNat]; omega)⟩
  · simp only [h, if_false]
    constructor
    · rintro ⟨j, hj, rfl⟩
      simp only [Fin.val_ofNat]
      rw [if_neg (by omega)]; omega
    · intro hcell
      have : ¬ t.val < 6144 := fun hn => by rw [if_pos hn] at hcell; omega
      rw [if_neg this] at hcell
      exact ⟨(t.val - 6144) % 4, Nat.mod_lt _ (by decide), Fin.ext (by simp only [Fin.val_ofNat]; omega)⟩

/-- A change made to those of a core's threads that it concerns, and that no longer concerns them then. -/
theorem foldl_modThreadIf (p : Thread → Prop) [DecidablePred p] (g : Thread → Thread) (hg : ∀ th, p th → ¬ p (g th)) (ts : List Tid) (s : State) :
    let n := ts.foldl (fun s t => if p (thread s t) then modThread s t g else s) s
    n = { s with threads := n.threads } ∧ ∀ t, thread n t = if t ∈ ts ∧ p (thread s t) then g (thread s t) else thread s t := by
  induction ts generalizing s with
  | nil => exact ⟨rfl, fun t => by simp⟩
  | cons a ts ih =>
    intro n
    simp only [n, List.foldl_cons]
    obtain ⟨hrest, hthread⟩ := ih (if p (thread s a) then modThread s a g else s)
    refine ⟨?_, fun t => ?_⟩
    · rw [hrest]; split <;> rfl
    · rw [hthread]
      by_cases hta : t = a
      · subst hta
        by_cases hp : p (thread s t)
        · simp [hp, thread_modThread_same, hg _ hp]
        · simp [hp]
      · have hsame : thread (if p (thread s a) then modThread s a g else s) t = thread s t := by
          split
          · rw [thread_modThread, if_neg hta]
          · rfl
        simp only [hsame, List.mem_cons, hta, false_or]

/-- Stores of a core that wait for an entry go on. -/
theorem wakeStores_wakes (s : State) {c : Nat} (hc : c < 772) :
    wakeStores s c = { s with threads := (wakeStores s c).threads }
    ∧ ∀ t, thread (wakeStores s c) t = { thread s t with st := if cellOf t = c ∧ (thread s t).st = .waiting .store then .ready else (thread s t).st } := by
  obtain ⟨hrest, hthread⟩ := foldl_modThreadIf (fun th => th.st = .waiting .store) (fun th => { th with st := .ready }) (fun _ _ h => nomatch h) (tidsOf c) s
  refine ⟨hrest, fun t => (hthread t).trans ?_⟩
  simp only [mem_tidsOf hc]
  split <;> rfl

/-! ## The instructions -/

/-- The cell of core c without its k-th entry e, whose bytes the lines that it has been served and has still to install have taken (R226). -/
def performedCell (x : CellS) (k : Nat) (e : WbEnt) : CellS :=
  { x with wb := x.wb.eraseIdx k, mshrs := x.mshrs.map (fun m => if m.line = e.line then { m with served := m.served.map (layEntry e) } else m) }

/-- An entry performed and freed at a line that nothing keeps its bytes from (R225). -/
theorem performAt_performs {s : State} {c : Cid} {k : Nat} {e : WbEnt} (he : (cell s c.val).wb[k]? = some e) (hl : lineHbm e.line = true)
    (h : lineWritable s (dieOfCore c.val) e.line) :
    let n := performAt s c.val k
    cell n c.val = performedCell (cell s c.val) k e
    ∧ (∀ j, j < 128 → byteAt n (lineBase e.line + j) = if bit e.mask j then e.data.extractLsb' (8 * j) 8 else byteAt s (lineBase e.line + j))
    ∧ (∀ a, a / 128 ≠ e.line → byteAt n a = byteAt s a)
    ∧ (∀ t, thread n t = { thread s t with st := if cellOf t = c.val ∧ (thread s t).st = .waiting .store then .ready else (thread s t).st })
    ∧ (∀ d, d ≠ c.val → cell n d = cell s d) ∧ regsKept [.perfCnt, .perfEvt, .hbmChstat, .errInj] s n := by
  intro n
  set s1 := modCell s c.val (fun x => performedCell x k e) with hs1
  obtain ⟨hrest, hwoken⟩ := wakeStores_wakes s1 c.isLt
  set s2 := wakeStores s1 c.val with hs2
  have hn : n = performEnt s2 c.val e := by simp only [n, performAt, he]; rfl
  have hstate : s2 = { s with threads := s2.threads, cells := s1.cells } := by rw [hrest, hs1]; rfl
  have hw : lineWritable s2 (dieOfCore c.val) e.line := by rw [hstate]; exact ⟨h.safe, h.alive, h.reached⟩
  have hbytes (a : Nat) : byteAt s2 a = byteAt s a := by rw [hstate]; rfl
  have hcell (d : Nat) : cell s2 d = cell s1 d := by rw [hrest]; rfl
  obtain ⟨hkeep, hin, hout⟩ := performEnt_writes hl hw
  rw [← hn] at hkeep hin hout
  refine ⟨?_, fun j hj => by rw [hin j hj, hbytes], fun a ha => by rw [hout a ha, hbytes], fun t => ?_, fun d hd => ?_, ?_⟩
  · rw [hkeep.cell, hcell, hs1, cell_modCell_same]
  · rw [hkeep.thread, hwoken]; rfl
  · rw [hkeep.cell, hcell, hs1, cell_modCell, if_neg hd]
  · refine regsKept_trans (b := s2) (fun r i _ _ => by rw [hstate]; rfl) (regsKept_mono hkeep.2 (by simp))

/-- Settles O31: an entry is told to drain, or its time is over; a drained one is performed as `performAt_performs` says. -/
theorem storesReachMemory : Obligations.StoresReachMemory := by
  unfold Obligations.StoresReachMemory
  intro s c k e he x drains
  refine ⟨⟨_, rfl, ?_⟩, fun hdev => ⟨_, rfl, ?_⟩, fun hdrained hdev hl hsafe hdead hcross horder holder hclock => ⟨performAt s c.val k, ?_, performAt_performs he hl ⟨hsafe, hdead, hcross⟩⟩⟩
  · simp only [drains, modCell, he]; rfl
  · simp only [drains, modCell, he, hdev, Bool.false_eq_true, if_false]; rfl
  · have hfirst : ((cell s c.val).wb.take k).any (fun o => decide (o.owner = e.owner) && decide (o.line = e.line)) = false := by
      rw [List.any_eq_false]
      intro o ho
      rw [Bool.and_eq_true, decide_eq_true_eq, decide_eq_true_eq, not_and_or]
      exact horder o ho
    have hmay : mayPerform s c.val k e = true := by
      simp only [mayPerform, releaseBehind, relEnt, hdrained, hfirst, show olderLoad (cell s c.val) e = false from holder, hdev, Bool.false_and, Bool.not_false, Bool.and_self]
    show execStorePerformed c k s = _
    simp only [execStorePerformed, he, hmay, hclock, Bool.not_true, Bool.false_eq_true, if_false, if_true]

end Sys2Proof.Machine
end

section
/-! PROOFS. A release serves its thread's loads and performs its stores (R50). -/

namespace Sys2Proof.Machine

open Sys2Proof.Safety

/-! ## Loads served (R50) -/

/-- What serving the waiting requests of core c leaves alone: threads, tasks, the registers that count no errors, the core's open stores and what its uncached loads ask for. -/
structure servesOnly (c : Nat) (s n : State) : Prop where
  threads : ∀ u, thread n u = thread s u
  tasks : n.tasks = s.tasks
  regs : regsKept [.hbmChstat] s n
  wb : (cell n c).wb = (cell s c).wb
  loads : ∀ l ∈ (cell n c).loads, ∃ m ∈ (cell s c).loads, l.thr = m.thr ∧ l.device = m.device

theorem servesOnly.refl (c : Nat) (s : State) : servesOnly c s s := ⟨fun _ => rfl, rfl, regsKept_refl _ s, rfl, fun l hl => ⟨l, hl, rfl, rfl⟩⟩

theorem servesOnly.trans {c : Nat} {a b d : State} (h : servesOnly c a b) (k : servesOnly c b d) : servesOnly c a d := by
  refine ⟨fun u => (k.threads u).trans (h.threads u), k.tasks.trans h.tasks, regsKept_trans h.regs k.regs, k.wb.trans h.wb, fun l hl => ?_⟩
  obtain ⟨m, hm, hthr, hdev⟩ := k.loads l hl
  obtain ⟨o, ho, hthr', hdev'⟩ := h.loads m hm
  exact ⟨o, ho, hthr.trans hthr', hdev.trans hdev'⟩

theorem readKeeps.cells {s n : State} (h : readKeeps s n) (d : Nat) : cell n d = cell s d := by rw [h.1]; rfl

theorem readKeeps.serves {s n : State} (h : readKeeps s n) (c : Nat) : servesOnly c s n :=
  ⟨h.thread, by rw [h.1], h.2.1, by rw [h.cells], by rw [h.cells]; exact fun l hl => ⟨l, hl, rfl, rfl⟩⟩

theorem modCell_serves (s : State) (c : Nat) (f : CellS → CellS) (hwb : (f (cell s c)).wb = (cell s c).wb)
    (hloads : ∀ l ∈ (f (cell s c)).loads, ∃ m ∈ (cell s c).loads, l.thr = m.thr ∧ l.device = m.device) : servesOnly c s (modCell s c f) :=
  ⟨fun _ => rfl, rfl, fun _ _ _ _ => rfl, by rw [cell_modCell_same, hwb], by rw [cell_modCell_same]; exact hloads⟩

/-- A step that touches the request of its own number only, and leaves it as Q says. -/
structure servesAt {α : Type} (get : State → List α) (K : State → State → Prop) (Q : α → Prop) (i : Nat) (s n : State) : Prop where
  keeps : K s n
  length : (get n).length = (get s).length
  others : ∀ j, j ≠ i → (get n)[j]? = (get s)[j]?
  served : ∀ m, (get n)[i]? = some m → Q m

theorem servesAt.of_same {α : Type} {get : State → List α} {K : State → State → Prop} {Q : α → Prop} {i : Nat} {s : State} (hK : K s s)
    (hQ : ∀ m, (get s)[i]? = some m → Q m) : servesAt get K Q i s s := ⟨hK, rfl, fun _ _ => rfl, hQ⟩

theorem servesAt.of_set {α : Type} {get : State → List α} {K : State → State → Prop} {Q : α → Prop} {i : Nat} {s n : State} {m : α} (hK : K s n)
    (hset : get n = (get s).set i m) (hQ : Q m) : servesAt get K Q i s n := by
  refine ⟨hK, by rw [hset, List.length_set], fun j hj => by rw [hset, List.getElem?_set_ne (Ne.symm hj)], fun o ho => ?_⟩
  rw [hset, List.getElem?_set, if_pos rfl] at ho
  obtain ⟨-, ho⟩ := Option.ite_none_right_eq_some.1 ho
  rwa [← Option.some.inj ho]

/-- Requests of a list served one after another are in the end all as each step leaves its own. -/
theorem foldl_range_serves {α : Type} {get : State → List α} {K : State → State → Prop} {Q : α → Prop} {f : State → Nat → State}
    (hrefl : ∀ s, K s s) (htrans : ∀ {a b d}, K a b → K b d → K a d) (hf : ∀ s i, servesAt get K Q i s (f s i)) (s : State) {k : Nat} (hk : k = (get s).length) :
    K s ((List.range k).foldl f s) ∧ ∀ m ∈ get ((List.range k).foldl f s), Q m := by
  have key (k : Nat) : let n := (List.range k).foldl f s
      K s n ∧ (get n).length = (get s).length ∧ ∀ i m, i < k → (get n)[i]? = some m → Q m := by
    induction k with
    | zero => exact ⟨hrefl s, rfl, fun i m hi => absurd hi (Nat.not_lt_zero i)⟩
    | succ k ih =>
      obtain ⟨hkept, hlength, hserved⟩ := ih
      simp only [List.range_succ, List.foldl_append, List.foldl_cons, List.foldl_nil]
      have hstep := hf ((List.range k).foldl f s) k
      refine ⟨htrans hkept hstep.keeps, hstep.length.trans hlength, fun i m hi hm => ?_⟩
      rcases Nat.lt_succ_iff_lt_or_eq.1 hi with hlt | rfl
      · exact hserved i m hlt (by rw [← hm, hstep.others _ (Nat.ne_of_lt hlt)])
      · exact hstep.served m hm
  obtain ⟨hkept, hlength, hserved⟩ := key k
  refine ⟨hkept, fun m hm => ?_⟩
  obtain ⟨i, hi, rfl⟩ := List.getElem_of_mem hm
  exact hserved i _ (by rw [hk, ← hlength]; exact hi) (List.getElem?_eq_getElem hi)

/-! ### Miss registers, uncached loads, slots -/

/-- A thread's loads and pipes that wait at a miss register have what its home serves. -/
def mshrServed (thr : Nat) (m : Mshr) : Prop :=
  (∀ l ∈ m.loads, l.thr.val = thr → l.got.isSome = true ∨ m.served.isSome = true) ∧ (∀ j ∈ m.pipes, j.val = thr → m.served.isSome = true)

/-- A thread's uncached load of memory has what its home serves. -/
def loadServed (thr : Nat) (l : LoadReq) : Prop := l.thr.val = thr → l.device = true ∨ l.got.isSome = true

/-- A thread's line of the tile pipe has been served. -/
def slotServed (thr : Nat) (m : TileSlot) : Prop := m.thr.val = thr → m.served.isSome = true

/-- Serving miss registers leaves the other requests. -/
def servesMshrs (c : Nat) (s n : State) : Prop := servesOnly c s n ∧ (cell n c).loads = (cell s c).loads ∧ (cell n c).slots = (cell s c).slots

/-- Serving uncached loads leaves the other requests. -/
def servesUncached (c : Nat) (s n : State) : Prop := servesOnly c s n ∧ (cell n c).mshrs = (cell s c).mshrs ∧ (cell n c).slots = (cell s c).slots

/-- Serving slots leaves the other requests. -/
def servesSlots (c : Nat) (s n : State) : Prop := servesOnly c s n ∧ (cell n c).mshrs = (cell s c).mshrs ∧ (cell n c).loads = (cell s c).loads

theorem serveMiss_at {s : State} {c i : Nat} {m : Mshr} (l no : Nat) (hm : (cell s c).mshrs[i]? = some m) (hopen : m.served.isNone = true) (thr : Nat) :
    servesAt (fun s => (cell s c).mshrs) (servesMshrs c) (mshrServed thr) i s (serveMiss (stackServed s c l no) c i) := by
  have htaken := stackTaken_keeps s (corePart c) l no
  have hm' : (cell (stackServed s c l no) c).mshrs[i]? = some m := by rw [stackServed, htaken.cells]; exact hm
  have hread := htaken.trans (readLineFrom_keeps (stackServed s c l no) (dieOfCore c) m.line)
  have hno : m.served.isSome = false := by simpa using hopen
  simp only [serveMiss, hm', hno, Bool.false_eq_true, if_false]
  refine .of_set ⟨(hread.serves c).trans (modCell_serves _ c _ rfl (fun l hl => ⟨l, hl, rfl, rfl⟩)), ?_, ?_⟩ (by rw [cell_modCell_same, hread.cells]) (by exact ⟨fun _ _ _ => .inr rfl, fun _ _ _ => rfl⟩)
  · rw [cell_modCell_same, hread.cells]
  · rw [cell_modCell_same, hread.cells]

theorem serveLoad_at {s : State} {c i : Nat} {l : LoadReq} (hl : (cell s c).loads[i]? = some l) (thr : Nat) :
    servesAt (fun s => (cell s c).loads) (servesUncached c) (loadServed thr) i s (serveLoad s c i) := by
  have hread := readLineFrom_keeps s (dieOfCore c) (l.pa / 128)
  simp only [serveLoad, hl]
  split
  · rename_i hdone
    refine .of_same ⟨.refl c s, rfl, rfl⟩ (fun o ho _ => ?_)
    rw [hl] at ho
    rw [← Option.some.inj ho]
    simpa using hdone
  · refine .of_set ⟨(hread.serves c).trans (modCell_serves _ c _ rfl (fun o ho => ?_)), ?_, ?_⟩ (by rw [cell_modCell_same, hread.cells]) (by exact fun _ => .inr rfl)
    · rcases List.mem_or_eq_of_mem_set ho with ho | rfl
      · exact ⟨o, ho, rfl, rfl⟩
      · exact ⟨l, by rw [hread.cells]; exact List.mem_of_getElem? hl, rfl, rfl⟩
    · rw [cell_modCell_same, hread.cells]
    · rw [cell_modCell_same, hread.cells]

theorem serveSlot_at {s : State} {c i : Nat} {m : TileSlot} (l no : Nat) (hm : (cell s c).slots[i]? = some m) (hopen : m.served.isNone = true) (thr : Nat) :
    servesAt (fun s => (cell s c).slots) (servesSlots c) (slotServed thr) i s (serveSlot (stackServed s c l no) c i) := by
  have htaken := stackTaken_keeps s (corePart c) l no
  have hm' : (cell (stackServed s c l no) c).slots[i]? = some m := by rw [stackServed, htaken.cells]; exact hm
  have hread := htaken.trans (readLineFrom_keeps (stackServed s c l no) (dieOfCore c) m.line)
  have hno : m.served.isSome = false := by simpa using hopen
  simp only [serveSlot, hm', hno, Bool.false_eq_true, if_false]
  refine .of_set ⟨(hread.serves c).trans (modCell_serves _ c _ rfl (fun l hl => ⟨l, hl, rfl, rfl⟩)), ?_, ?_⟩ (by rw [cell_modCell_same, hread.cells]) (by exact fun _ => rfl)
  · rw [cell_modCell_same, hread.cells]
  · rw [cell_modCell_same, hread.cells]

/-! ### All requests of a thread -/

theorem servesMshrs.refl (c : Nat) (s : State) : servesMshrs c s s := ⟨.refl c s, rfl, rfl⟩
theorem servesMshrs.trans {c : Nat} {a b d : State} (h : servesMshrs c a b) (k : servesMshrs c b d) : servesMshrs c a d :=
  ⟨h.1.trans k.1, k.2.1.trans h.2.1, k.2.2.trans h.2.2⟩
theorem servesUncached.refl (c : Nat) (s : State) : servesUncached c s s := ⟨.refl c s, rfl, rfl⟩
theorem servesUncached.trans {c : Nat} {a b d : State} (h : servesUncached c a b) (k : servesUncached c b d) : servesUncached c a d :=
  ⟨h.1.trans k.1, k.2.1.trans h.2.1, k.2.2.trans h.2.2⟩
theorem servesSlots.refl (c : Nat) (s : State) : servesSlots c s s := ⟨.refl c s, rfl, rfl⟩
theorem servesSlots.trans {c : Nat} {a b d : State} (h : servesSlots c a b) (k : servesSlots c b d) : servesSlots c a d :=
  ⟨h.1.trans k.1, k.2.1.trans h.2.1, k.2.2.trans h.2.2⟩

/-- No request of a thread waits any longer for its home. -/
structure allServed (c thr : Nat) (n : State) : Prop where
  mshrs : ∀ m ∈ (cell n c).mshrs, mshrServed thr m
  loads : ∀ l ∈ (cell n c).loads, loadServed thr l
  slots : ∀ m ∈ (cell n c).slots, slotServed thr m

/-- A miss register that a release passes has nothing of the thread's waiting. -/
theorem mshrServed_of_skipped {m : Mshr} {thr : Nat}
    (h : (m.served.isNone && (m.loads.any (fun l => l.got.isNone && decide (l.thr.val = thr)) || m.pipes.any (fun j => decide (j.val = thr)))) = false) :
    mshrServed thr m := by
  rcases Bool.and_eq_false_iff.1 h with h | h
  · have hs : m.served.isSome = true := by simpa [Option.isSome_iff_ne_none] using h
    exact ⟨fun _ _ _ => .inr hs, fun _ _ _ => hs⟩
  · obtain ⟨hl, hp⟩ := Bool.or_eq_false_iff.1 h
    rw [List.any_eq_false] at hl hp
    refine ⟨fun l hm hown => .inl ?_, fun j hj hown => absurd (decide_eq_true hown) (hp j hj)⟩
    have := hl l hm
    rw [decide_eq_true hown, Bool.and_true] at this
    simpa [Option.isSome_iff_ne_none] using this

/-- Serving a thread's loads leaves none of its requests waiting. -/
theorem serveLoads_serves (s : State) (c thr : Nat) :
    servesOnly c s (serveLoads s c (fun j _ => decide (j = thr))) ∧ allServed c thr (serveLoads s c (fun j _ => decide (j = thr))) := by
  generalize hn : serveLoads s c (fun j _ => decide (j = thr)) = n
  unfold serveLoads at hn
  extract_lets x s1 s2 at hn
  obtain ⟨hmshrs, hmserved⟩ : servesMshrs c s s1 ∧ ∀ m ∈ (cell s1 c).mshrs, mshrServed thr m := by
    refine foldl_range_serves (get := fun s => (cell s c).mshrs) (servesMshrs.refl c) servesMshrs.trans (fun s i => ?_) s rfl
    dsimp only
    split
    · rename_i m hm
      split
      · rename_i hopen
        exact serveMiss_at _ _ hm (Bool.and_eq_true_iff.1 hopen).1 thr
      · rename_i hnone
        refine .of_same (.refl c s) (fun o ho => ?_)
        rw [hm] at ho
        rw [← Option.some.inj ho]
        exact mshrServed_of_skipped (Bool.eq_false_iff.2 hnone)
    · rename_i hm
      exact .of_same (.refl c s) (fun m hm' => by rw [hm] at hm'; cases hm')
  obtain ⟨hloads, hlserved⟩ : servesUncached c s1 s2 ∧ ∀ l ∈ (cell s2 c).loads, loadServed thr l := by
    refine foldl_range_serves (get := fun s => (cell s c).loads) (servesUncached.refl c) servesUncached.trans (fun s i => ?_) s1 (by rw [hmshrs.2.1])
    dsimp only
    split
    · rename_i l hl
      split
      · exact serveLoad_at hl thr
      · rename_i hother
        refine .of_same (.refl c s) (fun o ho hown => ?_)
        rw [hl] at ho
        exact absurd (decide_eq_true (Option.some.inj ho ▸ hown)) hother
    · rename_i hl
      exact .of_same (.refl c s) (fun l hl' => by rw [hl] at hl'; cases hl')
  obtain ⟨hslots, hsserved⟩ : servesSlots c s2 n ∧ ∀ m ∈ (cell n c).slots, slotServed thr m := by
    rw [← hn]
    refine foldl_range_serves (get := fun s => (cell s c).slots) (servesSlots.refl c) servesSlots.trans (fun s i => ?_) s2 (by rw [hloads.2.2, hmshrs.2.2])
    dsimp only
    split
    · rename_i m hm
      split
      · rename_i hopen
        exact serveSlot_at _ _ hm (Bool.and_eq_true_iff.1 hopen).2 thr
      · rename_i hnone
        refine .of_same (.refl c s) (fun o ho hown => ?_)
        rw [hm] at ho
        rw [← Option.some.inj ho] at hown ⊢
        simpa [hown, Option.isSome_iff_ne_none] using hnone
    · rename_i hm
      exact .of_same (.refl c s) (fun m hm' => by rw [hm] at hm'; cases hm')
  refine ⟨(hmshrs.1.trans hloads.1).trans hslots.1, fun m hm => hmserved m ?_, fun l hl => hlserved l ?_, hsserved⟩
  · rwa [hslots.2.1, hloads.2.1] at hm
  · rwa [hslots.2.2] at hl

/-! ## Stores performed (R50, R225) -/

theorem physAt_congr {s n : State} (h : reg n .devBmcfg = reg s .devBmcfg) (pa : Nat) : physAt n pa = physAt s pa := by
  have hs (r : Nat) : scratchSize n r = scratchSize s r := by rw [scratchSize, rcWays, h]; rfl
  simp only [physAt, hs]

theorem physAt_regsKept {s n : State} {but : List RegName} (h : regsKept but s n) (hb : .devBmcfg ∉ but) (pa : Nat) : physAt n pa = physAt s pa :=
  physAt_congr (h .devBmcfg 0 (by decide) hb) pa

/-- An open entry of memory alone. -/
def memoryEntry (s : State) (e : WbEnt) : Prop := e.device = false ∧ ∀ o, o < 128 → isMemory s (lineBase e.line + o) = true

theorem memoryEntry_regsKept {s n : State} {but : List RegName} {e : WbEnt} (h : regsKept but s n) (hb : .devBmcfg ∉ but) (he : memoryEntry s e) : memoryEntry n e :=
  ⟨he.1, fun o ho => by rw [isMemory, physAt_regsKept h hb]; exact he.2 o ho⟩

/-- Runs of a line of memory written by a step that keeps what a write at the home keeps. -/
theorem foldl_writeKeeps {α : Type} {f : State → α → State} {P : State → α → Prop} (hf : ∀ s a, P s a → writeKeeps s (f s a))
    (hP : ∀ s n a, writeKeeps s n → P s a → P n a) (l : List α) (s : State) (hl : ∀ a ∈ l, P s a) : writeKeeps s (l.foldl f s) := by
  induction l generalizing s with
  | nil => exact .refl s
  | cons a l ih =>
    obtain ⟨ha, hl⟩ := List.forall_mem_cons.1 hl
    have hstep := hf s a ha
    exact hstep.trans (ih (f s a) (fun b hb => hP _ _ b hstep (hl b hb)))

/-- An entry of memory performed changes no more than writes at the home do. -/
theorem performEnt_keeps {s : State} {c : Nat} {e : WbEnt} (he : memoryEntry s e) : writeKeeps s (performEnt s c e) := by
  unfold performEnt
  refine foldl_writeKeeps (P := fun s r => isMemory s (lineBase e.line + r.1) = true) (fun s r hr => ?_) (fun s n r hk hr => ?_) _ s (fun r hr => ?_)
  · dsimp only
    rw [isMemory] at hr
    split at hr <;> rename_i hpa
    · rw [hpa]; exact homeWriteFrom_keeps ..
    · rw [hpa]; exact homeWriteFrom_keeps ..
    · cases hr
  · rw [isMemory, physAt_regsKept hk.2 (by decide)]; exact hr
  · obtain ⟨hne, -, hlt⟩ := (wbRuns_hold e).within r hr
    have := List.length_pos_of_ne_nil hne
    exact he.2 r.1 (by omega)

/-- What performing stores of thread t leaves alone: the thread and the tasks, the registers that count no errors, and the requests of its core, but what they have been served. -/
structure performsOnly (t : Tid) (s n : State) : Prop where
  thread : Machine.thread n t = Machine.thread s t
  tasks : n.tasks = s.tasks
  regs : regsKept [.hbmChstat, .errInj] s n
  mshrs : ∀ m ∈ (cell n (cellOf t)).mshrs, ∃ o ∈ (cell s (cellOf t)).mshrs, m.loads = o.loads ∧ m.pipes = o.pipes ∧ m.served.isSome = o.served.isSome
  loads : (cell n (cellOf t)).loads = (cell s (cellOf t)).loads
  slots : (cell n (cellOf t)).slots = (cell s (cellOf t)).slots

theorem performsOnly.refl (t : Tid) (s : State) : performsOnly t s s := ⟨rfl, rfl, regsKept_refl _ s, fun m hm => ⟨m, hm, rfl, rfl, rfl⟩, rfl, rfl⟩

theorem performsOnly.trans {t : Tid} {a b d : State} (h : performsOnly t a b) (k : performsOnly t b d) : performsOnly t a d := by
  refine ⟨k.thread.trans h.thread, k.tasks.trans h.tasks, regsKept_trans h.regs k.regs, fun m hm => ?_, k.loads.trans h.loads, k.slots.trans h.slots⟩
  obtain ⟨o, ho, hl, hp, hs⟩ := k.mshrs m hm
  obtain ⟨q, hq, hl', hp', hs'⟩ := h.mshrs o ho
  exact ⟨q, hq, hl.trans hl', hp.trans hp', hs.trans hs'⟩

theorem cellOf_lt (t : Tid) : cellOf t < 772 := by
  have := t.isLt
  unfold cellOf
  split <;> omega

/-- The k-th entry of a thread's core performed, when it is one of memory alone. -/
theorem performAt_only {s : State} {t : Tid} {k : Nat} {e : WbEnt} (hst : (thread s t).st ≠ .waiting .store) (he : (cell s (cellOf t)).wb[k]? = some e)
    (hmem : memoryEntry s e) :
    performsOnly t s (performAt s (cellOf t) k) ∧ (cell (performAt s (cellOf t) k) (cellOf t)).wb = (cell s (cellOf t)).wb.eraseIdx k := by
  set s1 := modCell s (cellOf t) (fun x => performedCell x k e) with hs1
  obtain ⟨hrest, hwoken⟩ := wakeStores_wakes s1 (cellOf_lt t)
  set s2 := wakeStores s1 (cellOf t) with hs2
  have hn : performAt s (cellOf t) k = performEnt s2 (cellOf t) e := by simp only [performAt, he]; rfl
  have hregs : regsKept [] s s2 := fun r i _ _ => by rw [hrest]; rfl
  have hkeep := performEnt_keeps (c := cellOf t) (memoryEntry_regsKept hregs (by simp) hmem)
  have hcell : cell (performAt s (cellOf t) k) (cellOf t) = performedCell (cell s (cellOf t)) k e := by
    rw [hn, hkeep.cell, hrest]
    exact cell_modCell_same s (cellOf t) (fun x => performedCell x k e)
  rw [← hn] at hkeep
  refine ⟨⟨?_, ?_, regsKept_trans (regsKept_mono hregs (by simp)) hkeep.2, fun m hm => ?_, by rw [hcell]; rfl, by rw [hcell]; rfl⟩, by rw [hcell]; rfl⟩
  · rw [hkeep.thread, hwoken, if_neg (fun h => hst h.2)]; rfl
  · rw [hkeep.1, hrest]; rfl
  · rw [hcell] at hm
    obtain ⟨o, ho, rfl⟩ := List.mem_map.1 hm
    refine ⟨o, ho, ?_⟩
    split <;> simp

/-- Taking out one that a filter drops. -/
theorem filter_not_eraseP {α : Type} (p : α → Bool) (l : List α) : (l.eraseP p).filter (fun x => !p x) = l.filter (fun x => !p x) := by
  induction l with
  | nil => rfl
  | cons a l ih =>
    rw [List.eraseP_cons]
    by_cases h : p a = true
    · simp [h]
    · simp [h, ih]

theorem countP_eraseP_le {α : Type} (p : α → Bool) (l : List α) (n : Nat) (h : l.countP p ≤ n + 1) : (l.eraseP p).countP p ≤ n := by
  induction l with
  | nil => simp
  | cons a l ih =>
    rw [List.eraseP_cons]
    by_cases ha : p a = true
    · simp only [ha, List.countP_cons_of_pos, cond_true] at h ⊢; omega
    · simp only [Bool.eq_false_iff.2 ha, Bool.false_eq_true, not_false_eq_true, List.countP_cons_of_neg, cond_false] at h ⊢
      exact ih h

/-- Every open store of thread t is one of memory alone, and the thread does not wait for an entry. -/
structure storesReady (t : Tid) (s : State) : Prop where
  ready : (thread s t).st ≠ .waiting .store
  memory : ∀ e ∈ (cell s (cellOf t)).wb, e.owner.val = thrOf t → memoryEntry s e

/-- Steps that each perform the thread's first store leave none of its stores, when there are as many. -/
theorem foldl_performs {α : Type} {t : Tid} {f : State → α → State}
    (hf : ∀ s a, storesReady t s → performsOnly t s (f s a) ∧ (cell (f s a) (cellOf t)).wb = (cell s (cellOf t)).wb.eraseP (fun e => decide (e.owner.val = thrOf t)))
    (l : List α) (s : State) (hs : storesReady t s) (hl : (cell s (cellOf t)).wb.countP (fun e => decide (e.owner.val = thrOf t)) ≤ l.length) :
    performsOnly t s (l.foldl f s) ∧ (cell (l.foldl f s) (cellOf t)).wb = (cell s (cellOf t)).wb.filter (fun e => !decide (e.owner.val = thrOf t)) := by
  induction l generalizing s with
  | nil =>
    have hnone := List.countP_eq_zero.1 (Nat.le_zero.1 hl)
    exact ⟨.refl t s, (List.filter_eq_self.2 (fun e he => by simpa using hnone e he)).symm⟩
  | cons a l ih =>
    obtain ⟨hstep, hwb⟩ := hf s a hs
    have hs' : storesReady t (f s a) := by
      refine ⟨by rw [hstep.thread]; exact hs.ready, fun e he hown => ?_⟩
      rw [hwb] at he
      exact memoryEntry_regsKept hstep.regs (by decide) (hs.memory e (List.mem_of_mem_eraseP he) hown)
    obtain ⟨hrest, hfilter⟩ := ih (f s a) hs' (by rw [hwb]; exact countP_eraseP_le _ _ _ hl)
    exact ⟨hstep.trans hrest, by rw [List.foldl_cons, hfilter, hwb, filter_not_eraseP]⟩

/-- Every store of a thread to memory alone performed (R50). -/
theorem settleStores_settles {s : State} {t : Tid} (hs : storesReady t s) :
    performsOnly t s (settleStores s (cellOf t) (thrOf t))
    ∧ (cell (settleStores s (cellOf t) (thrOf t)) (cellOf t)).wb = (cell s (cellOf t)).wb.filter (fun e => !decide (e.owner.val = thrOf t)) := by
  unfold settleStores
  refine foldl_performs (fun s _ hs => ?_) _ s hs (by rw [List.length_range]; exact List.countP_le_length)
  rw [List.eraseP_eq_eraseIdx]
  split
  · rename_i i hi
    rw [hi]
    obtain ⟨hlt, hown, -⟩ := List.findIdx?_eq_some_iff_getElem.1 hi
    exact performAt_only hs.ready (List.getElem?_eq_getElem hlt) (hs.memory _ (List.getElem_mem hlt) (of_decide_eq_true hown))
  · rename_i hi
    rw [hi]
    exact ⟨.refl t s, rfl⟩

/-! ## A release (R49, R50) -/

/-- A thread without device accesses has none to finish. -/
theorem finishDevices_none {s : State} {c thr : Nat} (n : Nat) (hl : ∀ l ∈ (cell s c).loads, l.thr.val = thr → l.device = false)
    (he : ∀ e ∈ (cell s c).wb, e.owner.val = thr → e.device = false) : finishDevices s c thr n = s := by
  have hloads : (cell s c).loads.findIdx? (fun l => l.device && decide (l.thr.val = thr) && decide (l.seq < n)) = none := by
    rw [List.findIdx?_eq_none_iff]
    intro l hm
    by_cases hown : l.thr.val = thr
    · rw [hl l hm hown]; rfl
    · rw [decide_eq_false hown, Bool.and_false]; rfl
  have hwb : (cell s c).wb.findIdx? (fun e => e.device && decide (e.owner.val = thr) && decide (e.seq < n)) = none := by
    rw [List.findIdx?_eq_none_iff]
    intro e hm
    by_cases hown : e.owner.val = thr
    · rw [he e hm hown]; rfl
    · rw [decide_eq_false hown, Bool.and_false]; rfl
  refine foldl_inv (fun s' => s' = s) _ (fun s' _ hs' => ?_) _ s rfl
  subst hs'
  simp only [deviceStep, hloads, hwb]

/-- No access of thread t waits: its stores are performed and its requests served, other threads' stores are still there. -/
structure releasedBy (t : Tid) (s n : State) : Prop where
  wb : (cell n (cellOf t)).wb = (cell s (cellOf t)).wb.filter (fun e => !decide (e.owner.val = thrOf t))
  mshrs : ∀ m ∈ (cell n (cellOf t)).mshrs, mshrServed (thrOf t) m
  loads : ∀ l ∈ (cell n (cellOf t)).loads, l.thr.val = thrOf t → l.got.isSome = true
  slots : ∀ m ∈ (cell n (cellOf t)).slots, slotServed (thrOf t) m

/-- A release of a thread with no device access leaves none of its accesses waiting. -/
theorem release_releases {s : State} {t : Tid} (hs : storesReady t s) (hl : ∀ l ∈ (cell s (cellOf t)).loads, l.thr.val = thrOf t → l.device = false) :
    releasedBy t s (release s t) ∧ thread (release s t) t = thread s t ∧ (release s t).tasks = s.tasks := by
  obtain ⟨honly, hserved⟩ := serveLoads_serves s (cellOf t) (thrOf t)
  set s1 := serveLoads s (cellOf t) (fun j _ => decide (j = thrOf t)) with hs1
  have hready : storesReady t s1 := by
    refine ⟨by rw [honly.threads]; exact hs.ready, fun e he hown => ?_⟩
    rw [honly.wb] at he
    exact memoryEntry_regsKept honly.regs (by decide) (hs.memory e he hown)
  have hdevice : ∀ l ∈ (cell s1 (cellOf t)).loads, l.thr.val = thrOf t → l.device = false := fun l hm hown => by
    obtain ⟨o, ho, hthr, hdev⟩ := honly.loads l hm
    rw [hdev]
    exact hl o ho (hthr ▸ hown)
  have hrelease : release s t = settleStores s1 (cellOf t) (thrOf t) := by
    rw [release, ← hs1, finishDevices_none _ hdevice (fun e he hown => (hready.memory e he hown).1)]
  obtain ⟨hperf, hwb⟩ := settleStores_settles hready
  rw [← hrelease] at hperf hwb
  refine ⟨⟨by rw [hwb, honly.wb], fun m hm => ?_, fun l hm hown => ?_, fun m hm => ?_⟩, by rw [hperf.thread, honly.threads], by rw [hperf.tasks, honly.tasks]⟩
  · obtain ⟨o, ho, hloads, hpipes, hsome⟩ := hperf.mshrs m hm
    rw [mshrServed, hloads, hpipes, hsome]
    exact hserved.mshrs o ho
  · rw [hperf.loads] at hm
    have := hserved.loads l hm hown
    rwa [hdevice l hm hown, or_iff_right Bool.false_ne_true] at this
  · rw [hperf.slots] at hm
    exact hserved.slots m hm

end Sys2Proof.Machine
end

section
/-! PROOFS. Fences and thread control (R50, R53, R54, R59). -/

namespace Sys2Proof.Machine

open Sys2Proof.Safety

/-- A thread that may issue is ready. -/
theorem ready_of_mayIssue {s : State} {t : Tid} {young : Bool} {rs : List Reg} (hm : mayIssue s t young rs = true) : (thread s t).st = .ready := by
  simp only [mayIssue, canIssue, Bool.and_eq_true, decide_eq_true_eq] at hm
  exact hm.1.1.1.1.1.1.1.1

/-- What an issued instruction leaves of its thread when it writes no register and goes on. -/
theorem wentOn_of_thread {s n : State} {t : Tid} {p : Word} {y : Bool} (h : thread n t = { thread (issued s t) t with pc := p, yield := y }) : wentOn s n t p := by
  have hregs (r : Reg) : rx n t r = rx s t r := by rw [← rx_issued s t r, rx, h]; rfl
  refine ⟨by rw [hregs]; rfl, fun r _ => hregs r, ?_⟩
  rw [h, (issued_frame s t).2]

theorem wentOn_nextPc {s n : State} {t : Tid} (h : thread n t = thread (issued s t) t) : wentOn s (nextPc n t) t ((thread s t).pc + 4) :=
  wentOn_of_thread (y := (thread (issued s t) t).yield) (by rw [nextPc, thread_modThread_same, h, pc_issued])

/-! ## Fences (R50, R54) -/

/-- A cell's caches hold nothing, and no fill in flight installs its line. -/
def flatCell (x : CellS) : Prop := x.l1 = [] ∧ x.victim = [] ∧ ∀ m ∈ x.mshrs, m.install = false

theorem acquire_flat (s : State) (c : Nat) : flatCell (cell (acquire s c) c) := by
  obtain ⟨hl1, hvictim, hmshrs⟩ := flash_cell s c
  refine ⟨hl1, hvictim, fun m hm => ?_⟩
  rw [acquire, hmshrs] at hm
  obtain ⟨o, -, rfl⟩ := List.mem_map.1 hm
  rfl

theorem nextPc_flat (s : State) (c : Nat) (t : Tid) : flatCell (cell (nextPc (acquire s c) t) c) := by
  rw [nextPc, cell_modThread]
  exact acquire_flat s c

theorem issued_wb (s : State) (t : Tid) : (cell (issued s t) (cellOf t)).wb = (cell s (cellOf t)).wb := by rw [issued_cell, if_pos rfl]
theorem issued_loads (s : State) (t : Tid) : (cell (issued s t) (cellOf t)).loads = (cell s (cellOf t)).loads := by rw [issued_cell, if_pos rfl]

/-- An acquire leaves what a release has done. -/
theorem releasedBy.acquire {t : Tid} {s n : State} (h : releasedBy t s n) : releasedBy t s (acquire n (cellOf t)) := by
  have hkeep := flash_keeps n (cellOf t)
  have hcell := hkeep.2.2.1
  refine ⟨?_, fun m hm => ?_, fun l hm => ?_, fun m hm => ?_⟩
  · rw [Machine.acquire, hcell]; exact h.wb
  · rw [Machine.acquire, (flash_cell n (cellOf t)).2.2] at hm
    obtain ⟨o, ho, rfl⟩ := List.mem_map.1 hm
    exact h.mshrs o ho
  · rw [Machine.acquire, hcell] at hm; exact h.loads l hm
  · rw [Machine.acquire, hcell] at hm; exact h.slots m hm

theorem releasedBy.congr {t : Tid} {s n n' : State} (h : releasedBy t s n) (hwb : (cell n' (cellOf t)).wb = (cell n (cellOf t)).wb)
    (hm : (cell n' (cellOf t)).mshrs = (cell n (cellOf t)).mshrs) (hl : (cell n' (cellOf t)).loads = (cell n (cellOf t)).loads)
    (hs : (cell n' (cellOf t)).slots = (cell n (cellOf t)).slots) : releasedBy t s n' :=
  ⟨by rw [hwb, h.wb], by rw [hm]; exact h.mshrs, by rw [hl]; exact h.loads, by rw [hs]; exact h.slots⟩

theorem releasedBy.nextPc {t : Tid} {s n : State} (h : releasedBy t s n) : releasedBy t s (nextPc n t) := h.congr rfl rfl rfl rfl

/-- A release after an issue does for the thread as it stood. -/
theorem release_issued {s : State} {t : Tid} (hst : (thread s t).st = .ready) (hl : ∀ l ∈ (cell s (cellOf t)).loads, l.thr.val = thrOf t → l.device = false)
    (he : ∀ e ∈ (cell s (cellOf t)).wb, e.owner.val = thrOf t → memoryEntry s e) :
    releasedBy t s (release (issued s t) t) ∧ thread (release (issued s t) t) t = thread (issued s t) t ∧ (release (issued s t) t).tasks = s.tasks := by
  obtain ⟨⟨hrest, -, -, hregs, -⟩, hthread⟩ := issued_frame s t
  have hready : storesReady t (issued s t) := by
    refine ⟨by rw [hthread, hst]; exact nofun, fun e hm hown => ?_⟩
    rw [issued_wb] at hm
    exact memoryEntry_regsKept hregs (by decide) (he e hm hown)
  obtain ⟨hby, hth, htasks⟩ := release_releases hready (by rw [issued_loads]; exact hl)
  exact ⟨⟨by rw [hby.wb, issued_wb], hby.mshrs, hby.loads, hby.slots⟩, hth, by rw [htasks, hrest]⟩

/-! ## The end of a task (R59, R166) -/

theorem capoHeld_cases (s : State) (c : Nat) :
    capoHeld s c = s ∨ capoHeld s c = modCell s c (fun x => { x with capo := none }) := by
  unfold capoHeld
  split
  · split
    · exact .inl rfl
    · exact .inr rfl
  · exact .inl rfl

/-- A table's entry after a change of the entries of one key. -/
theorem tget?_map_key {α : Type} (j : Nat) (g : α → α) (tb : Table α) {q : α} (h : tget? tb j = some q) :
    tget? (tb.map (fun p => if p.1 = j then (p.1, g p.2) else p)) j = some (g q) := by
  induction tb with
  | nil => cases h
  | cons p tb ih =>
    obtain ⟨a, x⟩ := p
    simp only [tget?] at h
    by_cases ha : a = j
    · simp only [ha, if_true, List.map_cons, tget?] at h ⊢
      rw [Option.some.inj h]
    · simp only [ha, if_false, List.map_cons, tget?] at h ⊢
      exact ih h

/-- What `tend` leaves before it counts the completion. -/
def tendState (s : State) (t : Tid) : State :=
  capoHeld (modThread (release (issued s t) t) t (fun th => { th with st := .idle, mine := 0, spec := none, task := none, pc := th.pc + 4 })) (cellOf t)

/-- `tend` that may go on, for a thread of a task and for one of none. -/
theorem runTend_none {s : State} {t : Tid} (hm : mayIssue s t false [] = true) (hd : drained s t = true) (hr : releaseReady s t = true)
    (hjob : (thread s t).task = none) : runTend s t = some (tendState s t) := by
  simp only [runTend, hm, hd, hr, hjob, Bool.not_true, Bool.or_self, Bool.false_eq_true, if_false, tendState]

theorem runTend_some {s : State} {t : Tid} (hm : mayIssue s t false [] = true) (hd : drained s t = true) (hr : releaseReady s t = true)
    {j : Nat} (hjob : (thread s t).task = some j) : runTend s t = some { tendState s t with tasks := { (tendState s t).tasks with
      runs := (tendState s t).tasks.runs.map (fun (p : Nat × TaskRun) => if p.1 = j then (p.1, { p.2 with left := p.2.left - 1 }) else p) } } := by
  simp only [runTend, hm, hd, hr, hjob, Bool.not_true, Bool.or_self, Bool.false_eq_true, if_false, tendState]

theorem tendState_thread {s : State} {t : Tid} (hth : thread (release (issued s t) t) t = thread (issued s t) t) :
    thread (tendState s t) t = { thread (issued s t) t with st := .idle, mine := 0, spec := none, task := none, pc := (thread (issued s t) t).pc + 4 } := by
  unfold tendState
  generalize release (issued s t) t = s1 at hth ⊢
  rw [← hth]
  rcases capoHeld_cases (modThread s1 t (fun th => { th with st := .idle, mine := 0, spec := none, task := none, pc := th.pc + 4 })) (cellOf t) with h | h <;> rw [h]
  · exact thread_modThread_same ..
  · rw [thread_modCell]; exact thread_modThread_same ..

theorem tendState_tasks (s : State) (t : Tid) : (tendState s t).tasks = (release (issued s t) t).tasks := by
  unfold tendState
  generalize release (issued s t) t = s1
  rcases capoHeld_cases (modThread s1 t (fun th => { th with st := .idle, mine := 0, spec := none, task := none, pc := th.pc + 4 })) (cellOf t) with h | h <;> rw [h] <;> rfl

theorem tendState_released {s : State} {t : Tid} (h : releasedBy t s (release (issued s t) t)) : releasedBy t s (tendState s t) := by
  unfold tendState
  generalize release (issued s t) t = s1 at h ⊢
  rcases capoHeld_cases (modThread s1 t (fun th => { th with st := .idle, mine := 0, spec := none, task := none, pc := th.pc + 4 })) (cellOf t) with hc | hc <;> rw [hc]
  · exact h.congr rfl rfl rfl rfl
  · refine h.congr ?_ ?_ ?_ ?_ <;> rw [cell_modCell_same] <;> rfl

/-- `tend` leaves an idle thread without a task, its registers as they were, its accesses performed, and a completion counted (R59, R354). -/
theorem runTend_ends {s : State} {t : Tid} (hm : mayIssue s t false [] = true) (hd : drained s t = true) (hr : releaseReady s t = true)
    (hby : releasedBy t s (release (issued s t) t)) (hth : thread (release (issued s t) t) t = thread (issued s t) t)
    (htasks : (release (issued s t) t).tasks = s.tasks) :
    ∃ n, runTend s t = some n ∧ (thread n t).st = .idle ∧ (thread n t).mine = 0 ∧ (thread n t).spec = none ∧ (thread n t).task = none
      ∧ (∀ r, rx n t r = rx s t r) ∧ releasedBy t s n
      ∧ (∀ j, (thread s t).task = some j → ∀ q, tget? s.tasks.runs j = some q → tget? n.tasks.runs j = some { q with left := q.left - 1 }) := by
  have hthread := tendState_thread hth
  have hrx (r : Reg) : rx (tendState s t) t r = rx s t r := by rw [← rx_issued s t r, rx, hthread]; rfl
  have hrel := tendState_released hby
  have hruns := (tendState_tasks s t).trans htasks
  cases hjob : (thread s t).task with
  | none =>
    exact ⟨_, runTend_none hm hd hr hjob, by rw [hthread], by rw [hthread], by rw [hthread], by rw [hthread], hrx, hrel, fun j hj => by cases hj⟩
  | some k =>
    refine ⟨_, runTend_some hm hd hr hjob, ?_⟩
    generalize tendState s t = n at *
    refine ⟨congrArg Thread.st hthread, congrArg Thread.mine hthread, congrArg Thread.spec hthread, congrArg Thread.task hthread, hrx,
      hrel.congr rfl rfl rfl rfl, fun j hj q hq => ?_⟩
    obtain rfl := Option.some.inj hj
    rw [← hruns] at hq
    exact tget?_map_key k (fun r => { r with left := r.left - 1 }) _ hq

/-! ## The instructions -/

/-- Settles O15, instruction by instruction. -/
theorem fencesAndThreadControl : Obligations.FencesAndThreadControl := by
  unfold Obligations.FencesAndThreadControl
  intro s t k c x pc flat own settled noDevice
  refine ⟨fun hm => ⟨?_, fun hr hno => ?_, ?_, ?_, fun hk => ?_, fun hk => ?_⟩, fun j hj => ?_⟩
  · have hkeep := flash_keeps (issued s t) (cellOf t)
    refine ⟨nextPc (acquire (issued s t) (cellOf t)) t, ?_, wentOn_nextPc (hkeep.thread t), nextPc_flat (issued s t) c t, fun a => ?_, ?_⟩
    · show Host.Outcome.next ((runFence s t false true).getD s) = _
      simp only [runFence, hm, Bool.not_true, Bool.false_and, Bool.false_eq_true, if_false, if_true, Option.getD_some]
    · exact (hkeep.bytes a).trans ((issued_frame s t).1.2.2.2.2 a)
    · show (cell (acquire (issued s t) (cellOf t)) (cellOf t)).wb = _
      rw [acquire, hkeep.2.2.1]
      exact issued_wb s t
  · obtain ⟨hby, hth, htasks⟩ := release_issued (ready_of_mayIssue hm) hno.1 hno.2
    have hsettled {n : State} (h : releasedBy t s n) : settled n := ⟨h.wb, h.mshrs, h.loads, h.slots⟩
    refine ⟨⟨nextPc (release (issued s t) t) t, ?_, wentOn_nextPc hth, hsettled hby.nextPc⟩, ⟨nextPc (acquire (release (issued s t) t) c) t, ?_, ?_, ?_, ?_⟩, fun hd => ?_⟩
    · show Host.Outcome.next ((runFence s t true false).getD s) = _
      simp only [runFence, hm, hr, Bool.not_true, Bool.and_false, Bool.false_eq_true, if_false, if_true, Option.getD_some]
    · show Host.Outcome.next ((runFence s t true true).getD s) = _
      simp only [runFence, hm, hr, Bool.not_true, Bool.and_false, Bool.false_eq_true, if_false, if_true, Option.getD_some]
      rfl
    · exact wentOn_nextPc (((flash_keeps _ c).thread t).trans hth)
    · exact hsettled hby.acquire.nextPc
    · exact nextPc_flat _ c t
    · obtain ⟨n, hrun, hst, hmine, hspec, htask, hrx, hrel, hcount⟩ := runTend_ends hm hd hr hby hth htasks
      exact ⟨n, by show Host.Outcome.next ((runTend s t).getD s) = _; rw [hrun, Option.getD_some], hst, hmine, hspec, htask, hrx, hsettled hrel, hcount⟩
  · refine ⟨nextPc (modCell (issued s t) (cellOf t) (fun x => { x with icache := [] })) t, ?_, wentOn_nextPc rfl, ?_, fun a => ?_⟩
    · show Host.Outcome.next ((runFenceI s t).getD s) = _
      simp only [runFenceI, hm, Bool.not_true, Bool.false_eq_true, if_false, Option.getD_some]
    · rw [nextPc, cell_modThread, cell_modCell_same]
    · exact (issued_frame s t).1.2.2.2.2 a
  · refine ⟨modThread (issued s t) t (fun th => { th with yield := true, pc := th.pc + 4 }), ?_, ?_, ?_, issueFrame_of_threadOnly (modThread_only _ t _)⟩
    · show Host.Outcome.next ((runYield s t).getD s) = _
      simp only [runYield, hm, Bool.not_true, Bool.false_eq_true, if_false, Option.getD_some]
    · exact wentOn_of_thread (y := true) (by rw [thread_modThread_same, pc_issued])
    · rw [thread_modThread_same]
  · show Host.Outcome.next ((runPause s t k).getD s) = Host.Outcome.next ((runYield s t).getD s)
    rw [runPause, if_pos hk]
  · refine ⟨modThread (issued s t) t (fun th => { th with st := .waiting (.pause k.toNat) }), ?_, ?_, ?_, fun r => ?_, issueFrame_of_threadOnly (modThread_only _ t _)⟩
    · show Host.Outcome.next ((runPause s t k).getD s) = _
      simp only [runPause, if_neg (not_le.2 hk), hm, Bool.not_true, Bool.false_eq_true, if_false, Option.getD_some]
    · rw [thread_modThread_same]
    · rw [thread_modThread_same]; exact pc_issued s t
    · rw [← rx_issued s t r, rx, thread_modThread_same]; rfl
  · refine ⟨modThread s t (fun th => { th with st := .ready, pc := th.pc + 4 }), ?_, thread_modThread_same .., rfl, fun u hu => by rw [thread_modThread, if_neg hu]⟩
    show execPauseExpiry t s = _
    simp only [execPauseExpiry, hj]

end Sys2Proof.Machine
end

section
/-! PROOFS. What a request finds at a home depends on the memory system alone: poison, and whether the stack takes it (R217, R248, R255). -/

namespace Sys2Proof.Machine

open Sys2Proof.Safety

/-! ## Poison found by a read -/

/-- Two states that a read of a line finds alike, its poison included. -/
structure readsAlike (s n : State) : Prop where
  home : sameHome s n
  ms : n.ms = s.ms
  latent : n.err.latent = s.err.latent

theorem homeLine_congr {s n : State} (hms : n.ms = s.ms) {l : Nat} (hd : lineDead n l = lineDead s l) : homeLine n l = homeLine s l := by
  simp only [homeLine, storedLine, storedLineIf, junkMask, hd, hms]

theorem noteRow_latent (s : State) (key row : Nat) (b : Bool) : (noteRow s key row b).err.latent = s.err.latent := by unfold noteRow; dsimp only; split <;> rfl

/-- What a read of a word finds and leaves depends on what is stored and on the errors latent there. -/
theorem touchLatent_congr {s n : State} (hms : n.ms = s.ms) (hl : n.err.latent = s.err.latent) (l i : Nat) :
    (touchLatent n l i).ms = (touchLatent s l i).ms ∧ (touchLatent n l i).err.latent = (touchLatent s l i).err.latent := by
  unfold touchLatent
  rw [hl, hms]
  split
  · exact ⟨hms, hl⟩
  · dsimp only
    split
    · split
      · exact ⟨by simp only [report_ms, bumpRf_ms, noteRow_ms], by simp only [report, bumpRf_err, noteRow_latent]⟩
      · exact ⟨by simp only [report_ms, noteRow_ms], by simp only [report, noteRow_latent]⟩
    · split
      · exact ⟨by simp only [report_ms, noteRow_ms], by simp only [report, noteRow_latent]⟩
      · exact ⟨by simp only [report_ms, noteRow_ms], by simp only [report, noteRow_latent]⟩

theorem touchLine_congr {s n : State} (h : readsAlike s n) (l : Nat) : (touchLine n l).ms = (touchLine s l).ms := by
  have hhit : rcHit n l = rcHit s l := by simp only [rcHit, rcKey, h.ms, h.home.lineDead]
  have hfold (is : List Nat) {a b : State} (hms : b.ms = a.ms) (hl : b.err.latent = a.err.latent) :
      (is.foldl (fun s i => touchLatent s l i) b).ms = (is.foldl (fun s i => touchLatent s l i) a).ms := by
    induction is generalizing a b with
    | nil => exact hms
    | cons i is ih =>
      obtain ⟨hms', hl'⟩ := touchLatent_congr hms hl l i
      exact ih hms' hl'
  unfold touchLine
  rw [h.latent, h.ms, hhit]
  split
  · exact h.ms
  · exact hfold _ h.ms h.latent

/-- A read of a line finds the same line, its poison included, where reads are alike. -/
theorem readLine_congr {s n : State} (h : readsAlike s n) (l : Nat) : (readLine n l).1 = (readLine s l).1 := by
  show homeLine (touchDead (touchLine n l) l) l = homeLine (touchDead (touchLine s l) l) l
  refine homeLine_congr (by rw [touchDead_ms, touchDead_ms, touchLine_congr h]) ?_
  rw [(touchDead_sameHome _ l).lineDead, (touchDead_sameHome _ l).lineDead, (touchLine_sameHome n l).lineDead, (touchLine_sameHome s l).lineDead, h.home.lineDead]

/-- A read of bytes within a line gives the same bytes and the same poison where reads are alike. -/
theorem homeRead_congr {s n : State} (h : readsAlike s n) {pa k : Nat} (hline : pa % 128 + k ≤ 128) : (homeRead n pa k).1 = (homeRead s pa k).1 := by
  unfold homeRead
  rw [cutLines_one pa _ (by simpa using hline)]
  simp only [List.foldl_cons, List.foldl_nil, readLine_congr h]

/-- A read through no dead link finds what memory holds. -/
theorem readLineFrom_data {s : State} {d l : Nat} (hcross : crossDead s d (dieOf s (lineBase l)) = false) : (readLineFrom s d l).1.data = (homeLine s l).data := by
  rw [readLineFrom, hcross, if_neg Bool.false_ne_true]
  show (homeLine (touchDead (touchLine s l) l) l).data = _
  rw [((touchLine_sameHome _ l).trans (touchDead_sameHome _ l)).homeData]

/-! ## The requests that wait -/

/-- A cell with no request for a line on its way. -/
structure noRequests (x : CellS) : Prop where
  mshrs : x.mshrs = []
  slots : x.slots = []
  atomics : x.atomics = []

/-- An entry that contributes nothing, put in the place of one that contributes nothing. -/
theorem foldl_tins {α β : Type} (g : β → Nat × α → β) (k : Nat) (x : α) (t : Table α) (hx : ∀ b, g b (k, x) = b) (ht : ∀ y, tget? t k = some y → ∀ b, g b (k, y) = b) (b : β) :
    (tins k x t).foldl g b = t.foldl g b := by
  induction t generalizing b with
  | nil => simp only [tins, List.foldl_cons, List.foldl_nil, hx]
  | cons p t ih =>
    obtain ⟨a, y⟩ := p
    by_cases ha : a = k
    · subst ha
      simp only [tins, lt_irrefl, if_false, if_true, List.foldl_cons, hx, ht y (by simp [tget?])]
    · by_cases hlt : k < a
      · simp only [tins, hlt, if_true, List.foldl_cons, hx]
      · simp only [tins, hlt, ha, if_false, List.foldl_cons]
        exact ih (fun z hz => ht z (by simpa [tget?, ha] using hz)) _

/-- A cell without requests changed in ways that make none: the requests of the part that wait are the same. -/
theorem waitingLines_modCell {s : State} {c : Nat} {f : CellS → CellS} (h : noRequests (cell s c)) (hf : noRequests (f (cell s c))) :
    waitingLines (modCell s c f) = waitingLines s := by
  unfold waitingLines
  rw [List.flatMap_eq_foldl, List.flatMap_eq_foldl]
  refine foldl_tins _ c _ _ (fun b => ?_) (fun y hy b => ?_) []
  · simp only [hf.mshrs, hf.slots, hf.atomics, List.filter_nil, List.map_nil, List.append_nil]
  · have hy' : cell s c = y := by rw [cell, tget, hy]; rfl
    rw [← hy']
    simp only [h.mshrs, h.slots, h.atomics, List.filter_nil, List.map_nil, List.append_nil]

theorem nextNo_modCell {s : State} {c : Nat} {f : CellS → CellS} (h : noRequests (cell s c)) (hf : noRequests (f (cell s c))) : nextNo (modCell s c f) = nextNo s := by
  unfold nextNo
  congr 1
  refine foldl_tins _ c _ _ (fun b => ?_) (fun y hy b => ?_) 0
  · simp only [hf.mshrs, hf.slots, hf.atomics, List.foldl_nil]
  · have hy' : cell s c = y := by rw [cell, tget, hy]; rfl
    rw [← hy']
    simp only [h.mshrs, h.slots, h.atomics, List.foldl_nil]

/-- Whether a stack takes a core's request depends on the cells through the requests that wait alone. -/
theorem lineOpen_cells {s : State} {cells : Table CellS} (hw : waitingLines { s with cells := cells } = waitingLines s)
    (hno : nextNo { s with cells := cells } = nextNo s) (c l : Nat) : lineOpen { s with cells := cells } c l = lineOpen s c l := by
  simp only [lineOpen, stackServes, stackTakes, partServes, bankServes, hw, hno]
  rfl

/-- A cell without requests changed in ways that make none: a line is as open as before. -/
theorem lineOpen_modCell {s : State} {c : Nat} {f : CellS → CellS} (h : noRequests (cell s c)) (hf : noRequests (f (cell s c))) (d l : Nat) :
    lineOpen (modCell s c f) d l = lineOpen s d l := lineOpen_cells (waitingLines_modCell h hf) (nextNo_modCell h hf) d l

/-- A cell's first miss gets its register (R230). -/
theorem missGrant_none {s : State} {c : Nat} (h : noRequests (cell s c)) (l : Nat) : missGrant s c l = none := by
  simp [missGrant, hbmAtomics, h.mshrs, h.atomics]

/-- Streams of a cell without requests see an access: a line is as open as before. -/
theorem lineOpen_trainStreams {s : State} {c : Nat} (h : noRequests (cell s c)) (thr : Nat) (dm : Demand) (d l : Nat) :
    lineOpen (trainStreams s c thr dm false) d l = lineOpen s d l := by
  have hmod {x : State} {f : CellS → CellS} (hx : noRequests (cell x c)) (hl : lineOpen x d l = lineOpen s d l) (hm : (f (cell x c)).mshrs = (cell x c).mshrs)
      (hs : (f (cell x c)).slots = (cell x c).slots) (ha : (f (cell x c)).atomics = (cell x c).atomics) :
      lineOpen (modCell x c f) d l = lineOpen s d l :=
    (lineOpen_modCell hx ⟨hm.trans hx.mshrs, hs.trans hx.slots, ha.trans hx.atomics⟩ d l).trans hl
  unfold trainStreams
  extract_lets s1 x dist put
  have hs1 : lineOpen s1 d l = lineOpen s d l := hmod h rfl rfl rfl rfl
  have hcell : noRequests (cell s1 c) := by
    rw [cell_modCell_same]
    exact ⟨h.mshrs, h.slots, h.atomics⟩
  split
  · exact hmod hcell hs1 rfl rfl rfl
  · exact hs1

end Sys2Proof.Machine
end

section
/-! PROOFS. Atomics at their home (R47, R48). -/

namespace Sys2Proof.Machine

open Sys2Proof.Safety

/-! ## What an access at a home leaves alone -/

theorem homeFrame_trans {t : Tid} {a b d : State} (h : homeFrame t a b) (k : homeFrame t b d) : homeFrame t a d := by
  obtain ⟨hrest, hthreads, hcells, hcell, hregs⟩ := h
  obtain ⟨krest, kthreads, kcells, kcell, kregs⟩ := k
  refine ⟨?_, fun u hu => ?_, fun c hc => (kcells c hc).trans (hcells c hc), ?_, regsKept_trans hregs kregs⟩
  · rw [krest, hrest]; rfl
  · rw [kthreads u hu, hthreads u hu]
  · rw [kcell, hcell]

theorem cacheKeeps.homeFrame {t : Tid} {s n : State} (h : cacheKeeps (cellOf t) s n) : homeFrame t s n :=
  ⟨by rw [h.1]; rfl, fun u _ => by rw [h.thread], h.2.1, by rw [h.2.2.1], regsKept_mono h.2.2.2 (by simp)⟩

theorem issued_homeFrame (s : State) (t : Tid) : homeFrame t s (issued s t) := by
  obtain ⟨⟨hrest, hthreads, hcells, hregs, -⟩, -⟩ := issued_frame s t
  refine ⟨by rw [hrest]; rfl, hthreads, fun c hc => by rw [issued_cell, if_neg hc], ?_, regsKept_mono hregs (by simp)⟩
  rw [hcells]

theorem readKeeps.homeFrame {s n : State} (h : readKeeps s n) (t : Tid) : homeFrame t s n :=
  ⟨by rw [h.1]; rfl, fun u _ => by rw [h.thread], fun c _ => h.cells c, by rw [h.cells], regsKept_mono h.2.1 (by simp)⟩

theorem writeKeeps.homeFrame {s n : State} (h : writeKeeps s n) (t : Tid) : homeFrame t s n :=
  ⟨by rw [h.1]; rfl, fun u _ => by rw [h.thread], fun c _ => h.cell c, by rw [h.cell], regsKept_mono h.2 (by simp)⟩

theorem flashKeeps.homeFrame {t : Tid} {s n : State} (h : flashKeeps (cellOf t) s n) : homeFrame t s n :=
  ⟨by rw [h.1]; rfl, fun u _ => by rw [h.thread], h.2.1, by rw [h.2.2.1], regsKept_mono h.2.2.2 (by simp)⟩

theorem modCell_homeFrame (s : State) (t : Tid) (f : CellS → CellS)
    (h : f (cell s (cellOf t)) = { cell s (cellOf t) with l1 := (f (cell s (cellOf t))).l1, victim := (f (cell s (cellOf t))).victim, mshrs := (f (cell s (cellOf t))).mshrs }) :
    homeFrame t s (modCell s (cellOf t) f) := by
  refine ⟨rfl, fun u _ => rfl, fun c hc => by rw [cell_modCell, if_neg hc], ?_, fun _ _ _ _ => rfl⟩
  simp only [cell_modCell_same]
  rw [h]

theorem modThread_homeFrame (s : State) (t : Tid) (f : Thread → Thread) : homeFrame t s (modThread s t f) :=
  ⟨rfl, fun u hu => by rw [thread_modThread, if_neg hu], fun _ _ => rfl, rfl, fun _ _ _ _ => rfl⟩

/-! ## The line of an atomic -/

theorem linesOf_one {pa k : Nat} (hk : 0 < k) (h : pa % 128 + k ≤ 128) : linesOf pa k = [pa / 128] := by
  rw [linesOf, show (pa + k + 127) / 128 - pa / 128 = 1 by omega]; rfl

/-- A request taken changes the stacks' queues alone. -/
theorem lineTaken_hbm (s : State) (c l : Nat) : lineTaken s c l = { s with hbm := (lineTaken s c l).hbm } := by
  unfold lineTaken stackServed stackTaken
  split
  · split <;> rfl
  · split <;> rfl

/-- A read of bytes of a line that no dead link keeps from its reader gives them, with the poison that a read at the home finds. -/
theorem coreRead_gives {s : State} {c pa k : Nat} (hk : 0 < k) (hline : pa % 128 + k ≤ 128) (hcross : crossDead s (dieOfCore c) (dieOf s pa) = false) :
    (coreRead s c pa k).1.2 = (homeRead s pa k).1.2 ∧ ofLE (coreRead s c pa k).1.1 = wordAt s pa k := by
  have htaken := lineTaken_keeps s c (pa / 128)
  have hhbm := lineTaken_hbm s c (pa / 128)
  have halike : readsAlike s (lineTaken s c (pa / 128)) := ⟨htaken.2.2, by rw [hhbm], by rw [hhbm]⟩
  have hcross' : crossDead (lineTaken s c (pa / 128)) (dieOfCore c) (dieOf (lineTaken s c (pa / 128)) pa) = false := by rw [hhbm]; exact hcross
  have hread : (coreRead s c pa k).1 = (homeRead s pa k).1 := by
    rw [coreRead, linesOf_one hk hline, List.foldl_cons, List.foldl_nil, homeReadFrom, hcross', if_neg Bool.false_ne_true]
    exact homeRead_congr halike hline
  rw [hread]
  exact ⟨rfl, homeRead_bytes s pa k hline⟩

/-! ## The access -/

theorem dieOf_keeps {s n : State} {but : List RegName} (h : regsKept but s n) (hb : .devBmcfg ∉ but) (hg : n.ms.gran = s.ms.gran) (pa : Nat) : dieOf n pa = dieOf s pa := by
  rw [dieOf, dieOf, physAt_regsKept h hb, hg]

theorem crossDead_links {s n : State} (h : n.links = s.links) (a b : Nat) : crossDead n a b = crossDead s a b := by rw [crossDead, crossDead, h]

/-- Bytes written within a living line that no dead link keeps from their writer. -/
theorem homeWriteFrom_bytes {s : State} {d pa : Nat} {bs : List Byte} (hsafe : memorySafe s) (hline : pa % 128 + bs.length ≤ 128) (ha : lineDead s (pa / 128) = false)
    (hcross : crossDead s d (dieOf s pa) = false) (x : Nat) :
    byteAt (homeWriteFrom s d pa bs) x = if pa ≤ x ∧ x < pa + bs.length then bs.getD (x - pa) 0 else byteAt s x := by
  rw [homeWriteFrom, hcross, if_neg Bool.false_ne_true]
  refine homeWrite_bytes s hsafe pa bs false (fun y h1 h2 => ?_) x
  rwa [show y / 128 = pa / 128 by omega]

/-- The state that an atomic writes from: its line read, fills of it that have been served stale, the cell's copy of it gone. -/
def amoRead (s : State) (t : Tid) (pa k : Nat) : State := l1Drop (staleFills (coreRead s (cellOf t) pa k).2 (cellOf t) (pa / 128)) (cellOf t) (pa / 128)

theorem amoRead_cells (s : State) (t : Tid) (pa k : Nat) :
    amoRead s t pa k = { (coreRead s (cellOf t) pa k).2 with cells := (amoRead s t pa k).cells } := rfl

theorem staleFills_frame (s : State) (t : Tid) (l : Nat) : homeFrame t s (staleFills s (cellOf t) l) := modCell_homeFrame s t _ rfl

theorem l1Drop_frame (s : State) (t : Tid) (l : Nat) : homeFrame t s (l1Drop s (cellOf t) l) := by
  unfold l1Drop
  dsimp only
  refine modCell_homeFrame s t _ ?_
  split <;> rfl

theorem amoRead_frame (s : State) (t : Tid) (pa k : Nat) : homeFrame t s (amoRead s t pa k) :=
  homeFrame_trans (homeFrame_trans ((coreRead_keeps s (cellOf t) pa k).homeFrame t) (staleFills_frame ..)) (l1Drop_frame ..)

theorem amoRead_home (s : State) (t : Tid) (pa k : Nat) : sameHome s (amoRead s t pa k) :=
  (coreRead_keeps s (cellOf t) pa k).2.2.trans ⟨rfl, rfl, rfl, rfl, fun _ _ => rfl, fun _ _ => rfl⟩

theorem amoRead_regs (s : State) (t : Tid) (pa k : Nat) : regsKept [.hbmChstat] s (amoRead s t pa k) :=
  regsKept_trans (coreRead_keeps s (cellOf t) pa k).2.1 (fun _ _ _ _ => rfl)

/-- An atomic once nothing of its thread is outstanding and its word is not poisoned (R48). -/
theorem amoAt_eq {s : State} {t : Tid} {op k : Nat} {rd a b : Reg} {pa old : Nat} (hq : quiet s t) (hnone : (coreRead s (cellOf t) pa k).1.2 = none)
    (hold : ofLE (coreRead s (cellOf t) pa k).1.1 = old) (aq : Bool) :
    let done := writeNext (homeWriteFrom (amoRead s t pa k) (dieOfCore (cellOf t)) pa (amoBytes op k old (rx s t b) (rx s t rd))) t rd (sext (8 * k) old)
    amoAt s t op k rd a b pa aq = if aq then acquire done (cellOf t) else done := by
  rw [amoAt, settleFor, settleLine_quiet s t _ hq]
  simp only [hnone, hold]
  rfl

/-- What an atomic reads and writes at its home. -/
theorem amoAt_performs {s : State} {t : Tid} {op k : Nat} {rd a b : Reg} {pa : Nat} (hk : 0 < k) (hline : pa % 128 + k ≤ 128) (hq : quiet s t)
    (hsafe : memorySafe s) (ha : lineDead s (pa / 128) = false) (hcross : crossDead s (dieOfCore (cellOf t)) (dieOf s pa) = false)
    (hpoison : (homeRead s pa k).1.2 = none) (aq : Bool) {bs : List Byte} (hbs : amoBytes op k (wordAt s pa k) (rx s t b) (rx s t rd) = bs) (hlen : bs.length = k) :
    let n := amoAt s t op k rd a b pa aq
    thread n t = { xset (thread s t) rd (sext (8 * k) (wordAt s pa k)) with pc := (thread s t).pc + 4 }
    ∧ (∀ x, byteAt n x = if pa ≤ x ∧ x < pa + k then bs.getD (x - pa) 0 else byteAt s x)
    ∧ homeFrame t s n := by
  obtain ⟨hnone, hold⟩ := coreRead_gives hk hline hcross
  have hhome := amoRead_home s t pa k
  have hframe := amoRead_frame s t pa k
  have hthread : thread (amoRead s t pa k) t = thread s t := (coreRead_keeps s (cellOf t) pa k).thread t
  have hlinks : (amoRead s t pa k).links = s.links := by rw [hframe.1]
  have hcross' : crossDead (amoRead s t pa k) (dieOfCore (cellOf t)) (dieOf (amoRead s t pa k) pa) = false := by
    rw [crossDead_links hlinks, dieOf_keeps (amoRead_regs s t pa k) (by decide) hhome.2.2.2.1]
    exact hcross
  have hwritten := homeWriteFrom_bytes (hhome.safe hsafe) (by rw [hlen]; exact hline) (by rw [hhome.lineDead]; exact ha) hcross'
  have hkeep := homeWriteFrom_keeps (amoRead s t pa k) (dieOfCore (cellOf t)) pa bs false
  dsimp only
  rw [amoAt_eq hq (hnone.trans hpoison) hold, hbs]
  generalize amoRead s t pa k = s3 at *
  generalize homeWriteFrom s3 (dieOfCore (cellOf t)) pa bs = s4 at *
  set done := writeNext s4 t rd (sext (8 * k) (wordAt s pa k)) with hdone
  have hth : thread done t = { xset (thread s t) rd (sext (8 * k) (wordAt s pa k)) with pc := (thread s t).pc + 4 } := by
    rw [hdone, writeNext, thread_modThread_same, hkeep.thread, hthread]
  have hbytes (x : Nat) : byteAt done x = if pa ≤ x ∧ x < pa + k then bs.getD (x - pa) 0 else byteAt s x := by
    rw [← hlen, ← hhome.bytes x, ← hwritten x]; rfl
  have hdoneframe : homeFrame t s done := homeFrame_trans (homeFrame_trans hframe (hkeep.homeFrame t)) (modThread_homeFrame s4 t _)
  have hflash := flash_keeps done (cellOf t)
  cases aq with
  | false => exact ⟨hth, hbytes, hdoneframe⟩
  | true => exact ⟨(hflash.thread t).trans hth, fun x => (hflash.bytes x).trans (hbytes x), homeFrame_trans hdoneframe hflash.homeFrame⟩

/-! ## The instruction -/

/-- A state after the thread's streams have seen its atomic (R234). -/
def amoTrained (s : State) (t : Tid) (pa : Nat) (va : Word) : State :=
  if inHbm pa then trainStreams s (cellOf t) (thrOf t) (demandAt s t va) false else s

theorem amoTrained_keeps (s : State) (t : Tid) (pa : Nat) (va : Word) : cacheKeeps (cellOf t) s (amoTrained s t pa va) := by
  unfold amoTrained
  split
  · exact trainStreams_keeps ..
  · exact .refl _ s

/-- An access of memory is no device's, and revocable but for a SPEC thread at level 2 (R300). -/
theorem isDevice_memory {s : State} {pa : Nat} (h : isMemory s pa = true) : isDevice s pa = false := by
  rw [isMemory] at h
  rw [isDevice]
  split at h <;> simp_all

theorem irrevocable_memory {s : State} {t : Tid} {pa : Nat} (h : isMemory s pa = true) (hs : (thread s t).spec = none ∨ (thread s t).level ≠ 2) :
    irrevocable s t pa true = false := by
  rw [isMemory] at h
  rw [irrevocable, irrevocableAt]
  rcases hs with hs | hs
  · rw [hs]; rfl
  · split at h <;> simp_all

theorem quiet_congr {s n : State} {t : Tid} (hq : quiet s t) (hwb : (cell n (cellOf t)).wb = (cell s (cellOf t)).wb) (hm : (cell n (cellOf t)).mshrs = (cell s (cellOf t)).mshrs)
    (hl : (cell n (cellOf t)).loads = (cell s (cellOf t)).loads) (hs : (cell n (cellOf t)).slots = (cell s (cellOf t)).slots)
    (ha : (cell n (cellOf t)).atomics = (cell s (cellOf t)).atomics) (hb : (thread n t).busy = (thread s t).busy) : quiet n t := by
  unfold quiet
  rw [hwb, hm, hl, hs, ha, hb]
  exact hq

theorem walkKeeps.quiet {s n : State} {t : Tid} (h : walkKeeps (cellOf t) s n) (hq : quiet s t) : quiet n t := by
  have hcell := h.2.2.1
  exact quiet_congr hq (by rw [hcell]) (by rw [hcell]) (by rw [hcell]) (by rw [hcell]) (by rw [hcell]) (by rw [h.thread])

theorem cacheKeeps.quiet {s n : State} {t : Tid} (h : cacheKeeps (cellOf t) s n) (hq : quiet s t) : quiet n t := by
  have hcell := h.2.2.1
  exact quiet_congr hq (by rw [hcell]) (by rw [hcell]) (by rw [hcell]) (by rw [hcell]) (by rw [hcell]) (by rw [h.thread])

theorem issued_quiet {s : State} {t : Tid} (hq : quiet s t) : quiet (issued s t) t := by
  have hcell : cell (issued s t) (cellOf t) = { cell s (cellOf t) with last := Fin.ofNat 8 (thrOf t) } := by rw [issued_cell, if_pos rfl]
  exact quiet_congr hq (by rw [hcell]) (by rw [hcell]) (by rw [hcell]) (by rw [hcell]) (by rw [hcell]) (by rw [(issued_frame s t).2])

theorem noRequests_of_quiet {s : State} {t : Tid} (hq : quiet s t) : noRequests (cell s (cellOf t)) := by
  obtain ⟨-, hm, -, hs, ha, -⟩ := hq
  exact ⟨hm, hs, ha⟩

theorem lineOpen_amoTrained {s : State} {t : Tid} (hq : quiet s t) (pa : Nat) (va : Word) (l : Nat) :
    lineOpen (amoTrained s t pa va) (cellOf t) l = lineOpen s (cellOf t) l := by
  unfold amoTrained
  split
  · exact lineOpen_trainStreams (noRequests_of_quiet hq) _ _ _ _
  · rfl

/-- A state that waits for nothing stands as an instruction leaves it. -/
theorem unlessWaits_ready {s n : State} {t : Tid} (h : (thread n t).st = .ready) : unlessWaits s t n = n := by rw [unlessWaits, h]

/-- An atomic that nothing holds back is performed at its home. -/
theorem runAmo_eq {i : Instr} {s s1 : State} {t : Tid} {op : Nat} {rd a b : Reg} {d aq rl : Bool} {pa : Nat} (hm : mayIssue s t false [rd, a, b] = true)
    (hheld : xlatHeld s (cellOf t) (ctxOf s t) (rx s t a) .atomic = false) (hopen : lineOpen s1 (cellOf t) (pa / 128) = true)
    (hx : translate s (cellOf t) (ctxOf s t) (rx s t a) .atomic = (.ok pa, s1)) (hmem : isMemory s pa = true) (halign : (rx s t a).toNat % (if d then 8 else 4) = 0)
    (hspec : (thread s t).spec = none ∨ (thread s t).level ≠ 2) (hq : quiet s t) (hrel : rl = true → releaseReady s t = true)
    (hready : (thread (amoAt (issued (amoTrained s1 t pa (rx s t a)) t) t op (if d then 8 else 4) rd a b pa aq) t).st = .ready) :
    runAmo i s t op rd a b d aq rl = some (amoAt (issued (amoTrained s1 t pa (rx s t a)) t) t op (if d then 8 else 4) rd a b pa aq) := by
  have hq1 := (walkKeeps_of_translate hx).quiet hq
  have hq2 := (amoTrained_keeps s1 t pa (rx s t a)).quiet hq1
  have hentry := entryReady_quiet hq (oldestUnresolved_of_mayIssue hm)
  have hrelease : (rl && !releaseReady s t) = false := by
    cases rl with
    | false => rfl
    | true => rw [hrel rfl]; rfl
  have htrained : (if inHbm pa then trainStreams s1 (cellOf t) (thrOf t) (demandAt s1 t (rx s t a)) false else s1) = amoTrained s1 t pa (rx s t a) := rfl
  have hgo : (if rl then release (amoTrained s1 t pa (rx s t a)) t else amoTrained s1 t pa (rx s t a)) = amoTrained s1 t pa (rx s t a) := by
    rw [release_quiet _ t hq2, ite_self]
  have hopen' := lineOpen_amoTrained hq1 pa (rx s t a) (pa / 128)
  rw [runAmo]
  simp only [hm, hheld, hx, isDevice_memory hmem, irrevocable_memory hmem hspec, halign, hentry, hrelease, htrained, hgo, missGrant_none (noRequests_of_quiet hq2), hopen', hopen,
    Bool.not_true, Bool.false_eq_true, if_false, if_true, ne_eq, not_true_eq_false, decide_false, Option.isSome_none, Bool.and_false, unlessWaits_ready hready]

/-- The little-endian bytes of a number, by place. -/
theorem leBytes_getD {v n i : Nat} (h : i < n) : (leBytes v n).getD i 0 = BitVec.ofNat 8 (v / 2 ^ (8 * i)) := by
  ext j hj
  rw [← BitVec.getLsbD_eq_getElem, testBit_leBytes _ _ _ _ hj, decide_eq_true h, Bool.true_and, ← BitVec.getLsbD_eq_getElem, BitVec.getLsbD_ofNat, Nat.testBit_div_two_pow,
    decide_eq_true hj, Bool.true_and, Nat.add_comm]

/-- The issue of an atomic leaves what a read finds. -/
theorem amoIssued_keeps (s : State) (t : Tid) (pa : Nat) (va : Word) :
    readsAlike s (issued (amoTrained s t pa va) t) ∧ regsKept [.perfCnt, .perfEvt] s (issued (amoTrained s t pa va) t) ∧ homeFrame t s (issued (amoTrained s t pa va) t) := by
  have htrain := amoTrained_keeps s t pa va
  generalize amoTrained s t pa va = s' at htrain
  obtain ⟨hrest, -, -, hregs, -⟩ := (issued_frame s' t).1
  have hms : (issued s' t).ms = s.ms := by rw [hrest, htrain.1]
  have hkept := regsKept_trans htrain.2.2.2 hregs
  exact ⟨⟨sameHome_of_regs hms hkept (by decide) (by decide), hms, by rw [hrest, htrain.1]⟩, hkept, homeFrame_trans htrain.homeFrame (issued_homeFrame s' t)⟩

/-- The value of an atomic's register and the bytes that it stores (R47). -/
theorem amoValue (d : Bool) (old : Nat) : sext (8 * (if d then 8 else 4)) old = if d then BitVec.ofNat 64 old else (BitVec.ofNat 32 old).signExtend 64 := by
  cases d with
  | false => rfl
  | true => exact BitVec.signExtend_eq _

theorem amoBytes_eq {op : Nat} {f : (w : Nat) → BitVec w → BitVec w → BitVec w → BitVec w} (hf : ∀ (w : Nat) (x y z : BitVec w), amoFun op x y z = f w x y z) (d : Bool) (old : Nat)
    (y z : Word) : amoBytes op (if d then 8 else 4) old y z
      = leBytes (if d then (f 64 (BitVec.ofNat 64 old) y z).toNat else (f 32 (BitVec.ofNat 32 old) (y.setWidth 32) (z.setWidth 32)).toNat) (if d then 8 else 4) := by
  cases d with
  | false => simp only [amoBytes, hf, lo32, Bool.false_eq_true, if_false]; rfl
  | true => simp only [amoBytes, hf, if_true]; rfl

/-- An atomic gives its register the old value and memory what its function makes of it (R47, R48). -/
theorem runAmo_gives {i : Instr} {s s1 : State} {t : Tid} {op : Nat} {rd a b : Reg} {d aq rl : Bool} {pa : Nat} {f : (w : Nat) → BitVec w → BitVec w → BitVec w → BitVec w}
    (hexec : exec i s = .next ((runAmo i s t op rd a b d aq rl).getD s)) (hf : ∀ (w : Nat) (x y z : BitVec w), amoFun op x y z = f w x y z)
    (hm : mayIssue s t false [rd, a, b] = true) (hheld : xlatHeld s (cellOf t) (ctxOf s t) (rx s t a) .atomic = false) (hopen : lineOpen s1 (cellOf t) (pa / 128) = true)
    (hx : translate s (cellOf t) (ctxOf s t) (rx s t a) .atomic = (.ok pa, s1)) (hmem : isMemory s pa = true) (halign : (rx s t a).toNat % (if d then 8 else 4) = 0)
    (hplace : pa % 4096 = (rx s t a).toNat % 4096)
    (hspec : (thread s t).spec = none ∨ (thread s t).level ≠ 2) (hq : quiet s t) (hrel : rl = true → releaseReady s t = true)
    (hsafe : memorySafe s) (hdead : lineDead s (pa / 128) = false) (hcross : crossDead s1 (dieOfCore (cellOf t)) (dieOf s1 pa) = false)
    (hpoison : (homeRead s1 pa (if d then 8 else 4)).1.2 = none) : atomicGives i d s s1 t rd b pa f := by
  have hkpos : 0 < if d then 8 else 4 := by cases d <;> decide
  have hkdvd : (if d then 8 else 4) ∣ 128 := by cases d <;> decide
  have hline := aligned_within_line hkdvd halign hplace
  have hwalk := walkKeeps_of_translate hx
  have htrain := amoTrained_keeps s1 t pa (rx s t a)
  obtain ⟨halike, hregs, hframe⟩ := amoIssued_keeps s1 t pa (rx s t a)
  have hq2 := issued_quiet (htrain.quiet (hwalk.quiet hq))
  have hth : thread (amoTrained s1 t pa (rx s t a)) t = thread s t := (htrain.thread t).trans (hwalk.thread t)
  have hrx (r : Reg) : rx (issued (amoTrained s1 t pa (rx s t a)) t) t r = rx s t r := by rw [rx_issued, rx, hth]; rfl
  have hst : (thread (issued (amoTrained s1 t pa (rx s t a)) t) t).st = .ready := by rw [(issued_frame _ t).2, hth]; exact ready_of_mayIssue hm
  have hrun := runAmo_eq (i := i) (op := op) (aq := aq) hm hheld hopen hx hmem halign hspec hq hrel
  have hnext := (scalarDone_writeNext (amoTrained s1 t pa (rx s t a)) t rd (sext (8 * (if d then 8 else 4)) (wordAt s pa (if d then 8 else 4)))).1
  generalize amoTrained s1 t pa (rx s t a) = s' at *
  have hhome : sameHome s (issued s' t) := hwalk.2.2.2.2.trans halike.home
  have hword : wordAt (issued s' t) pa (if d then 8 else 4) = wordAt s pa (if d then 8 else 4) := wordAt_congr hhome.bytes _ _
  have hcross2 : crossDead (issued s' t) (dieOfCore (cellOf t)) (dieOf (issued s' t) pa) = false := by
    rw [crossDead_links (by rw [hframe.1]), dieOf_keeps hregs (by decide) (by rw [halike.ms])]
    exact hcross
  have hbs := amoBytes_eq hf d (wordAt s pa (if d then 8 else 4)) (rx s t b) (rx s t rd)
  obtain ⟨hthread, hbytes, hdone⟩ := amoAt_performs (t := t) (op := op) (rd := rd) (a := a) (b := b) hkpos hline hq2 (hhome.safe hsafe) (by rw [hhome.lineDead]; exact hdead) hcross2
    (by rw [homeRead_congr halike hline]; exact hpoison) aq (by rw [hword, hrx, hrx]; exact hbs) (leBytes_length ..)
  rw [hword] at hthread
  refine ⟨_, by rw [hexec, hrun (by rw [hthread, xset_rest]; exact hst), Option.getD_some], ?_, fun x => ?_, homeFrame_trans hframe hdone⟩
  · rw [amoValue] at hthread hnext
    have hsame : thread (amoAt (issued s' t) t op (if d then 8 else 4) rd a b pa aq) t = thread (writeNext (issued s' t) t rd (if d then BitVec.ofNat 64 (wordAt s pa (if d then 8 else 4))
        else (BitVec.ofNat 32 (wordAt s pa (if d then 8 else 4))).signExtend 64)) t := by rw [hthread, writeNext, thread_modThread_same]
    rw [← hth]
    simpa only [regDone, rx, hsame, hth] using hnext
  · rw [hbytes, hhome.bytes x]
    by_cases hin : pa ≤ x ∧ x < pa + if d then 8 else 4
    · rw [if_pos hin, if_pos hin, leBytes_getD (by omega)]
    · rw [if_neg hin, if_neg hin]

/-- Settles O7. Each atomic is the lemma of the atomics at its own function. -/
theorem atomicResults : Obligations.AtomicResults := by
  unfold Obligations.AtomicResults
  intro s s1 t rd a b d aq rl pa hm va k hheld hopen hx hmem halign hplace hspec hq hrel hsafe hdead hcross hpoison gives
  have all {i : Instr} {op : Nat} {f : (w : Nat) → BitVec w → BitVec w → BitVec w → BitVec w} (hexec : exec i s = .next ((runAmo i s t op rd a b d aq rl).getD s))
      (hf : ∀ (w : Nat) (x y z : BitVec w), amoFun op x y z = f w x y z) : gives i f :=
    runAmo_gives hexec hf hm hheld hopen hx hmem halign hplace hspec hq hrel hsafe hdead hcross hpoison
  exact ⟨all rfl (fun _ _ _ _ => rfl), all rfl (fun _ _ _ _ => rfl), all rfl (fun _ _ _ _ => rfl), all rfl (fun _ _ _ _ => rfl), all rfl (fun _ _ _ _ => rfl),
    all rfl (fun _ x y _ => min_slt x y), all rfl (fun _ x y _ => max_slt x y), all rfl (fun _ x y _ => min_ult x y), all rfl (fun _ x y _ => max_ult x y),
    all rfl (fun _ _ _ _ => rfl)⟩

end Sys2Proof.Machine
end

section
/-! PROOFS. One element of a vector access made at once (R64, R121–R123). -/

namespace Sys2Proof.Machine

open Sys2Proof.Safety

/-! ## The checks of its address -/

/-- The access of an element: a store or a load. -/
def elAccess (st : Bool) : Access := if st then .store else .load

/-- An address whose tables' homes take their reads is checked at once (R18, R23). -/
theorem elWait_open {s : State} {t : Tid} {x : XCtx} {va : Word} {n : Nat} {st : Bool} (h : xlatHeld s (cellOf t) x va (elAccess st) = false) :
    elWait t x s va n st = elCheck t x s va n st := by
  have hall : ∀ l ∈ xlatNeeds s (cellOf t) x va (elAccess st), lineOpen s (cellOf t) l = true := by
    rw [← List.all_eq_true]
    simpa only [xlatHeld, Bool.not_eq_false'] using h
  have hnone : (xlatNeeds s (cellOf t) x va (elAccess st)).filter (fun l => !lineOpen s (cellOf t) l) = [] :=
    List.filter_eq_nil_iff.2 (fun l hl => by rw [hall l hl]; decide)
  rw [elAccess] at hnone
  simp only [elWait, hnone]

/-- An element whose checks fail raises what they find. -/
theorem vecNow_error {s s2 : State} {t : Tid} {x : XCtx} {va : Word} {n : Nat} {st : Bool} {e : Exc} (h : xlatHeld s (cellOf t) x va (elAccess st) = false)
    (he : elCheck t x s va n st = (.error e, s2)) : (vecNow t x s va n st).1 = .error e := by
  simp only [vecNow, vecSee, elWait_open h, he]

/-- An element whose checks pass is accessed at its place, unless a load has to wait (R103, R229). -/
theorem vecNow_ok {s s2 : State} {t : Tid} {x : XCtx} {va : Word} {n pa : Nat} {st : Bool} (h : xlatHeld s (cellOf t) x va (elAccess st) = false)
    (he : elCheck t x s va n st = (.ok pa, s2)) :
    let s3 := if inHbm pa then trainStreams s2 (cellOf t) (thrOf t) (demandAt s2 t va) (!st && (l1Copy (cell s2 (cellOf t)) (pa / 128)).isNone) else s2
    (st = true ∨ nsPage s3 t va = false ∧ readNeeds s3 (cellOf t) (thrOf t) pa n = []) → vecNow t x s va n st = (.ok pa, s3) := by
  intro s3 hnow
  have hwait : (!st && (nsPage s3 t va || !(readNeeds s3 (cellOf t) (thrOf t) pa n).isEmpty)) = false := by
    rcases hnow with rfl | ⟨hns, hneeds⟩
    · rfl
    · rw [hns, hneeds]; exact Bool.and_false _
  simp only [vecNow, vecSee, elWait_open h, he]
  rw [show (if inHbm pa then trainStreams s2 (cellOf t) (thrOf t) (demandAt s2 t va) (!st && (l1Copy (cell s2 (cellOf t)) (pa / 128)).isNone) else s2) = s3 from rfl, hwait,
    if_neg Bool.false_ne_true]

/-! ### The checks in the order of R64 -/

theorem elCheck_fault {s s2 : State} {t : Tid} {x : XCtx} {va : Word} {n : Nat} {st : Bool} {y : Exc} (hx : translate s (cellOf t) x va (elAccess st) = (.error y, s2)) :
    elCheck t x s va n st = (.error (if va.toNat % n = 0 then y else { code := 1, val := va }), s2) := by
  rw [elAccess] at hx
  simp only [elCheck, hx]
  by_cases h : va.toNat % n = 0 <;> simp [h]

theorem elCheck_device {s s2 : State} {t : Tid} {x : XCtx} {va : Word} {n pa : Nat} {st : Bool} (hx : translate s (cellOf t) x va (elAccess st) = (.ok pa, s2))
    (hd : isDevice s2 pa = true) : elCheck t x s va n st = (.error { code := 2, val := va }, s2) := by
  rw [elAccess] at hx
  simp only [elCheck, hx, hd, if_true]

theorem elCheck_misaligned {s s2 : State} {t : Tid} {x : XCtx} {va : Word} {n pa : Nat} {st : Bool} (hx : translate s (cellOf t) x va (elAccess st) = (.ok pa, s2))
    (hd : isDevice s2 pa = false) (hmis : va.toNat % n ≠ 0) : elCheck t x s va n st = (.error { code := 1, val := va }, s2) := by
  rw [elAccess] at hx
  simp only [elCheck, hx, hd, decide_eq_true hmis, Bool.false_eq_true, if_false, if_true]

theorem elCheck_ok {s s2 : State} {t : Tid} {x : XCtx} {va : Word} {n pa : Nat} {st : Bool} (hx : translate s (cellOf t) x va (elAccess st) = (.ok pa, s2))
    (hd : isDevice s2 pa = false) (halign : va.toNat % n = 0) : elCheck t x s va n st = (.ok pa, s2) := by
  rw [elAccess] at hx
  simp only [elCheck, hx, hd, halign, ne_eq, not_true_eq_false, decide_false, Bool.false_eq_true, if_false]

/-! ## Its bytes -/

/-- The address of an element of a form without fields (R122). -/
def elAddr (k : VAddr) (w e : Nat) (d : DCtx) (idx : List Nat) : Word :=
  match k with
  | .stride => d.a + BitVec.ofNat 64 e * d.b
  | .index => d.a + BitVec.ofNat 64 (idx.getD e 0)
  | _ => d.a + BitVec.ofNat 64 (e * w / 8)

theorem vAddrOf_elAddr {k : VAddr} (hk : k ≠ .seg) (f : VForm) (w e : Nat) (d : DCtx) (idx : List Nat) (fl : Nat) : vAddrOf f k w d idx e fl = elAddr k w e d idx := by
  cases k with
  | seg => exact absurd rfl hk
  | unit => rfl
  | stride => rfl
  | index => rfl

/-- The bytes of an element (R123). -/
theorem elSize {w : Nat} (hw : w ∈ [4, 8, 16, 32, 64]) : max 1 (w / 8) = if w = 4 then 1 else w / 8 := by
  simp only [List.mem_cons, List.not_mem_nil, or_false] at hw
  rcases hw with rfl | rfl | rfl | rfl | rfl <;> rfl

/-- A byte with one of its two 4-bit elements replaced (R123). -/
def halfStored (old e v : Nat) : Nat := if e % 2 = 0 then old / 16 * 16 + v else old % 16 + 16 * v

section
variable {s s1 s2 : State} {t : Tid} {x : XCtx} {f : VForm} {k : VAddr} {w e pa b : Nat} {d : DCtx} {idx : List Nat} {data : List (List Nat)} {r : VMemRun} {bs : List Byte}

/-- A load of an element whose word is not poisoned (R121). -/
theorem vMemEl_load (hk : k ≠ .seg) (hb : max 1 (w / 8) = b) (hr : r.s = s) (hnow : vecNow t x s (elAddr k w e d idx) b false = (.ok pa, s1))
    (hread : threadRead s1 (cellOf t) (thrOf t) pa b = ((bs, none), s2)) :
    vMemEl (vecAcc t x) f false k w d idx data e r = { r with s := s2, got := tins e (if w = 4 then ofLE bs / 16 ^ (e % 2) % 16 else ofLE bs) r.got } := by
  have hshift : ofLE bs >>> (4 * (e % 2)) = ofLE bs / 16 ^ (e % 2) := by rw [Nat.shiftRight_eq_div_pow, Nat.pow_mul]
  simp only [vMemEl, vecAcc, hk, if_false, List.range_one, List.foldl_cons, List.foldl_nil, vAddrOf_elAddr hk, hb, hr, hnow, List.nil_append, Bool.false_eq_true,
    List.getD_cons_zero, hread, Nat.zero_mul, Nat.zero_add, hshift]

/-- A load of an element whose word is poisoned stops the instruction (R121). -/
theorem vMemEl_poison {j : Nat} (hk : k ≠ .seg) (hb : max 1 (w / 8) = b) (hr : r.s = s) (hnow : vecNow t x s (elAddr k w e d idx) b false = (.ok pa, s1))
    (hread : threadRead s1 (cellOf t) (thrOf t) pa b = ((bs, some j), s2)) :
    (vMemEl (vecAcc t x) f false k w d idx data e r).stop = some (e, { code := 7, val := elAddr k w e d idx &&& ~~~7#64 }) := by
  simp only [vMemEl, vecAcc, hk, if_false, List.range_one, List.foldl_cons, List.foldl_nil, vAddrOf_elAddr hk, hb, hr, hnow, List.nil_append, Bool.false_eq_true,
    List.getD_cons_zero, hread, Option.none_or]

/-- A store of an element of whole bytes (R121). -/
theorem vMemEl_store (hk : k ≠ .seg) (hb : max 1 (w / 8) = b) (hr : r.s = s) (hnow : vecNow t x s (elAddr k w e d idx) b true = (.ok pa, s1))
    (hheld : entHeld x s1 pa = false) (hfits : storeFits t s1 [pa] = true) (hw : w ≠ 4) :
    vMemEl (vecAcc t x) f true k w d idx data e r = { r with s := cellStore s1 (cellOf t) (thrOf t) pa (leBytes ((data.getD 0 []).getD e 0) b) } := by
  simp only [vMemEl, vecAcc, hk, if_false, List.range_one, List.foldl_cons, List.foldl_nil, vAddrOf_elAddr hk, hb, hr, hnow, List.nil_append, if_true,
    List.any_cons, List.any_nil, Bool.or_false, hheld, hfits, Bool.not_true, Bool.false_eq_true, hw, List.getD_cons_zero]

/-- A store of a 4-bit element keeps the other element of its byte (R123). -/
theorem vMemEl_store4 (hk : k ≠ .seg) (hr : r.s = s) (hnow : vecNow t x s (elAddr k 4 e d idx) 1 true = (.ok pa, s1))
    (hheld : entHeld x s1 pa = false) (hfits : storeFits t s1 [pa] = true) (hread : threadRead s1 (cellOf t) (thrOf t) pa 1 = ((bs, none), s2)) :
    vMemEl (vecAcc t x) f true k 4 d idx data e r = { r with s := cellStore s2 (cellOf t) (thrOf t) pa (leBytes (halfStored (ofLE bs) e ((data.getD 0 []).getD e 0)) 1) } := by
  have hb : max 1 (4 / 8) = 1 := rfl
  simp only [vMemEl, vecAcc, hk, if_false, List.range_one, List.foldl_cons, List.foldl_nil, vAddrOf_elAddr hk, hb, hr, hnow, List.nil_append, if_true,
    List.any_cons, List.any_nil, Bool.or_false, hheld, hfits, Bool.not_true, Bool.false_eq_true, List.getD_cons_zero, hread]
  rfl

end

/-- Settles O24: the checks in the order of R64, then the element's bytes. -/
theorem vectorElementAccess : Obligations.VectorElementAccess := by
  unfold Obligations.VectorElementAccess
  intro s s1 t x f k w e pa d idx data r hk hw hr c size va
  have hb : max 1 (w / 8) = size := elSize hw
  have hva : va = elAddr k w e d idx := rfl
  refine ⟨fun st s2 hheld => ⟨fun y hy => vecNow_error hheld (elCheck_fault hy), fun hx => ⟨fun hd => vecNow_error hheld (elCheck_device hx hd),
    fun hd hmis => vecNow_error hheld (elCheck_misaligned hx hd hmis), fun hd halign => vecNow_ok hheld (elCheck_ok hx hd halign)⟩⟩,
    fun s2 bs hnow hread => vMemEl_load hk hb hr hnow hread, fun s2 bs j hnow hread => vMemEl_poison hk hb hr hnow hread,
    fun hnow hh hfits hw4 => vMemEl_store hk hb hr hnow hh hfits hw4, fun s2 bs hnow hh hfits hw4 hread => ?_⟩
  subst hw4
  exact vMemEl_store4 hk hr hnow hh hfits hread

end Sys2Proof.Machine
end

section
/-! PROOFS. Issue selection, resolution, arrival of results and fetched lines (R31–R33, R53, R134). -/

namespace Sys2Proof.Machine

open Sys2Proof.Safety

/-! ## The selector (R31) -/

/-- The selector passes threads that cannot issue. -/
theorem issueFirst_passes {s : State} {us : List Tid} (h : ∀ u ∈ us, canIssue s u = false) (ts : List Tid) : issueFirst (us ++ ts) s = issueFirst ts s := by
  induction us with
  | nil => rfl
  | cons u us ih =>
    obtain ⟨hu, hus⟩ := List.forall_mem_cons.1 h
    have hno : tryIssue s u = (false, s) := by rw [tryIssue, hu]; rfl
    rw [List.cons_append, issueFirst, hno]
    exact ih hus

/-- A thread whose instruction is fetched, decoded and run issues. -/
theorem tryIssue_runs {s s1 n : State} {t : Tid} {w : BitVec 32} {w1 : Word} {i : Instr} (hc : canIssue s t = true) (hf : fetchInstr s t = (.ok w w1, s1))
    (hd : decodeInstr t w w1 = some i) (hr : runInstr i s1 = some n) (ht : tookIssue n t = true) : tryIssue s t = (true, n) := by
  simp only [tryIssue, hc, hf, hd, hr, ht, Bool.not_true, Bool.false_eq_true, if_false]

theorem issueFirst_runs {s n : State} {t : Tid} (ts : List Tid) (h : tryIssue s t = (true, n)) : issueFirst (t :: ts) s = (true, n) := by
  rw [issueFirst, h]

/-! ## Resolution (R33, R134) -/

theorem takeLate_none {s : State} {t : Tid} (h : (thread s t).late = none) : takeLate s t = s := by simp only [takeLate, h]

/-- The place a vector-queue or tile-queue instruction that has not begun starts at (R126, R176). -/
theorem startAt_none {s : State} {t : Tid} {e : DecEntry} (h : e.at' = none) :
    startAt s t e = if pipeOf e.instr = 2 then resumeAt (srAt s t 0x006) 6 else resumeAt (srAt s t 0x005) 14 := by rw [startAt, h]; rfl

/-- An unresolved instruction alone in its thread's queues, as its pipe begins it. -/
theorem beginEntry_queues {s : State} {t : Tid} {e : DecEntry} (hv : (thread s t).vq = [e]) (ht : (thread s t).tq = []) (hr : e.resolved = false) :
    (thread (beginEntry s t e) t).vq = [{ e with at' := some (startAt s t e), next := startAt s t e, ask := (cell s (cellOf t)).accNo }]
    ∧ (thread (beginEntry s t e) t).tq = [] := by
  unfold beginEntry
  simp only [thread_modThread_same, thread_modCell, hv, ht, List.map_cons, List.map_nil, hr, Bool.false_eq_true, if_false, and_self]

theorem oldestUnresolved_one {th : Thread} {e : DecEntry} (hv : th.vq = [e]) (ht : th.tq = []) (hr : e.resolved = false) : oldestUnresolved th = some e := by
  simp only [oldestUnresolved, hv, ht, List.append_nil, List.find?_cons, hr, Bool.not_false]

/-- A window without stores does not wait for the write buffer (R225). -/
theorem windowBlocked_nil {s : State} {t : Tid} (hh : (thread s t).hold = []) (hw : (cell s (cellOf t)).wb.length ≤ 16) : windowBlocked s t = false := by
  have hlen : decide (16 < (cell s (cellOf t)).wb.length) = false := decide_eq_false (by omega)
  rw [windowBlocked, hh, storesBlocked]
  simp only [List.map_nil, distinct, List.foldl_nil, List.filter_nil, List.length_nil, Nat.add_zero, hlen, Bool.false_and]

/-- An instruction that its pipe chooses and completes has resolved with its flags and its result. -/
theorem startUnit_done {s s2 : State} {t : Tid} {e e' : DecEntry} {fl : Nat} {res : Option Word} (hv : (thread s t).vq = [e]) (htq : (thread s t).tq = [])
    (hr : e.resolved = false) (hat : e.at' = none) (hh : (thread s t).hold = []) (hw : (cell s (cellOf t)).wb.length ≤ 16) (hkept : pipeKept s t (pipeOf e.instr) = false)
    (hturn : hasTurn s t (pipeOf e.instr) = true)
    (he' : e' = { e with at' := some (startAt s t e), next := startAt s t e, ask := (cell s (cellOf t)).accNo })
    (hdone : dPipe (beginEntry s t e) t e' = .done s2 fl res) :
    startUnit false s t .clean = passUnit (setFlags s2 t fl) t e' false res := by
  obtain ⟨hv1, ht1⟩ := beginEntry_queues hv htq hr
  rw [← he'] at hv1
  have hr' : e'.resolved = false := by rw [he']; exact hr
  rw [startUnit, oldestUnresolved_one hv htq hr]
  simp only [hkept, hturn, windowBlocked_nil hh hw, hat, Option.isNone_none, Bool.not_true, Bool.and_false, Bool.or_false, Bool.false_eq_true, if_false, if_true,
    oldestUnresolved_one hv1 ht1 hr', reduceCtorEq, false_and, hdone]

/-- What an instruction past its checks leaves of its thread, with no store in the window. -/
theorem passUnit_passes {s : State} {t : Tid} {e : DecEntry} {res : Option Word} (hv : (thread s t).vq = [e]) (ht : (thread s t).tq = []) (hh : (thread s t).hold = [])
    (hr : e.resolved = false) (hruns : e.runs = false) :
    passUnit s t e false res = { s with threads := (passUnit s t e false res).threads } ∧ (∀ u, u ≠ t → thread (passUnit s t e false res) u = thread s u)
    ∧ thread (passUnit s t e false res) t
      = { thread s t with younger := 0, vq := [{ e with resolved := true, result := res.map (fun v => (dstOf e.instr, v)) }] } := by
  set g : DecEntry → DecEntry := fun o => if o.resolved then o else { o with resolved := true, result := res.map (fun v => (dstOf e.instr, v)), runs := false } with hg
  set s1 := modThread s t (fun th => { th with vq := th.vq.map g, tq := th.tq.map g }) with hs1
  have hth1 : thread s1 t = { thread s t with vq := [g e], tq := [] } := by rw [hs1, thread_modThread_same, hv, ht]; rfl
  have hpass : passUnit s t e false res = modThread s1 t (fun th => { th with hold := [], younger := 0 }) := by
    show commitWindow s1 t = _
    rw [commitWindow, hth1]
    dsimp only
    rw [hh]; rfl
  have hge : g e = { e with resolved := true, result := res.map (fun v => (dstOf e.instr, v)) } := by simp only [hg, hr, Bool.false_eq_true, if_false, hruns]
  rw [hpass]
  refine ⟨rfl, fun u hu => by rw [thread_modThread, if_neg hu, hs1, thread_modThread, if_neg hu], ?_⟩
  rw [thread_modThread_same, hth1, hge, ← hh, ← ht]

/-- An unresolved vector-queue instruction resolves with its flags and its result. -/
theorem instructionResolve_done {s s2 : State} {t : Tid} {e e' : DecEntry} {fl : Nat} {res : Option Word} (hpower : (cell s (cellOf t)).power = .run)
    (hclk : clocked s (cellOf t) = true) (hv : (thread s t).vq = [e]) (htq : (thread s t).tq = []) (hr : e.resolved = false) (hruns : e.runs = false)
    (hstart : startUnit false s t .clean = passUnit (setFlags s2 t fl) t e' false res) (hr' : e'.resolved = false) (hruns' : e'.runs = false)
    (hv2 : (thread s2 t).vq = [e']) (ht2 : (thread s2 t).tq = []) (hh2 : (thread s2 t).hold = []) (hl2 : (thread s2 t).late = none) :
    ∃ n, exec (.instructionResolve t false .clean) s = .next n
      ∧ n = { s2 with threads := n.threads } ∧ (∀ u, u ≠ t → thread n u = thread s2 u)
      ∧ thread n t = { thread s2 t with sr := (thread n t).sr, younger := 0, vq := [{ e' with resolved := true, result := res.map (fun v => (dstOf e'.instr, v)) }] }
      ∧ flagsGained s2 n t (fun j => fl.testBit j = true) := by
  have hflags := thread_setFlags s2 t fl
  have hq : (thread (setFlags s2 t fl) t).vq = [e'] ∧ (thread (setFlags s2 t fl) t).tq = [] ∧ (thread (setFlags s2 t fl) t).hold = [] := by
    rw [hflags]; exact ⟨hv2, ht2, hh2⟩
  obtain ⟨hrest, hothers, hthread⟩ := passUnit_passes (res := res) hq.1 hq.2.1 hq.2.2 hr' hruns'
  have hlate : (thread (passUnit (setFlags s2 t fl) t e' false res) t).late = none := by rw [hthread, hflags]; exact hl2
  have hon : runOn [1] s t .clean = s := by
    simp only [runOn, List.foldl_cons, List.foldl_nil, hv, htq, List.append_nil, List.find?_cons, List.find?_nil, hruns, Bool.false_and, Option.elim_none]
  have hexec : exec (.instructionResolve t false .clean) s = .next (passUnit (setFlags s2 t fl) t e' false res) := by
    show execInstructionResolve t false .clean s = _
    simp only [execInstructionResolve, unitsRun, hpower, hclk, decide_true, Bool.and_self, Bool.not_true, Bool.false_eq_true, if_false, hon, hv, List.any_cons, List.any_nil, hr,
      Bool.not_false, Bool.or_false, if_true, hstart, takeLate_none hlate]
  generalize passUnit (setFlags s2 t fl) t e' false res = n at *
  have hgained := setFlags_gained s2 t fl
  have hsr (m : Nat) : srAt n t m = srAt (setFlags s2 t fl) t m := srAt_congr (by rw [hthread]) m
  refine ⟨n, hexec, by rw [hrest]; rfl, fun u hu => ?_, ?_, ?_⟩
  · rw [hothers u hu]
    unfold setFlags srPutF srPut
    rw [thread_modThread, if_neg hu]
  · rw [hthread, hflags]
  · simpa only [flagsGained, hsr] using hgained

/-! ## Results (R32) -/

theorem takeReg_instr (r : Reg) (v : Word) (e : DecEntry) : ((DecEntry.takeReg r v e).instr, (DecEntry.takeReg r v e).pc) = (e.instr, e.pc) := by
  unfold DecEntry.takeReg
  split <;> rfl

/-- A queue takes a result: the same instructions stand in it. -/
theorem map_takeReg_instr (r : Reg) (v : Word) (q : List DecEntry) : (q.map (DecEntry.takeReg r v)).map (fun o => (o.instr, o.pc)) = q.map (fun o => (o.instr, o.pc)) := by
  rw [List.map_map]
  exact List.map_congr_left (fun e _ => takeReg_instr r v e)

/-- The queue of a unit. -/
def unitQueue (th : Thread) (tile : Bool) : List DecEntry := if tile then th.tq else th.vq

/-- A thread with an instruction of a unit's queue gone. -/
def leftQueue (th : Thread) (tile : Bool) (k : Nat) : Thread :=
  if tile then { th with tq := (unitQueue th tile).eraseIdx k } else { th with vq := (unitQueue th tile).eraseIdx k }

/-- The first complete instruction of a unit's queue leaves it and writes its result. -/
theorem arrive_arrives {s : State} {t : Tid} {tile : Bool} {k : Nat} {e : DecEntry} {r : Reg} {v : Word} (hk : (unitQueue (thread s t) tile)[k]? = some e)
    (hr : e.resolved = true) (hruns : e.runs = false) (hfirst : ∀ o ∈ (unitQueue (thread s t) tile).take k, o.resolved = false ∨ o.runs = true) (hres : e.result = some (r, v)) :
    arrive s t tile = setThread s t (arriveReg (leftQueue (thread s t) tile k) r v) := by
  have hidx : (unitQueue (thread s t) tile).findIdx? (fun e => e.resolved && !e.runs) = some k := by
    obtain ⟨hlt, hget⟩ := List.getElem?_eq_some_iff.1 hk
    refine List.findIdx?_eq_some_iff_getElem.2 ⟨hlt, by rw [hget, hr, hruns]; rfl, fun j hj => ?_⟩
    have hj' : j < ((unitQueue (thread s t) tile).take k).length := by rw [List.length_take]; omega
    have hmem := List.getElem_mem hj'
    rw [List.getElem_take] at hmem
    rcases hfirst _ hmem with h | h <;> simp [h]
  rw [unitQueue] at hk hidx
  simp only [arrive, hidx, hk, hres, Option.bind_some, leftQueue, unitQueue]

theorem leftQueue_rest (th : Thread) (tile : Bool) (k : Nat) : leftQueue th tile k = { th with vq := (leftQueue th tile k).vq, tq := (leftQueue th tile k).tq } := by
  cases tile <;> rfl

theorem leftQueue_queue (th : Thread) (tile : Bool) (k : Nat) : unitQueue (leftQueue th tile k) tile = (unitQueue th tile).eraseIdx k := by
  cases tile <;> rfl

/-- A register that a result arrives in takes it. -/
theorem xget_arriveReg (th : Thread) (r q : Reg) (v : Word) : xget (arriveReg th r v) q = if q = r ∧ r ≠ 0 then v else xget th q :=
  (show xget (arriveReg th r v) q = xget (xset th r v) q from rfl).trans (xget_xset th r q v)

/-! ## Fetched lines (R53) -/

/-- A line read at its home for a core, through no dead link, holds what memory holds. -/
theorem coreLine_data {s : State} {c l : Nat} (hcross : crossDead s (dieOfCore c) (dieOf s (lineBase l)) = false) : (coreLine s c l).1.data = (homeLine s l).data := by
  have htaken := lineTaken_keeps s c l
  have hhbm := lineTaken_hbm s c l
  have hcross' : crossDead (lineTaken s c l) (dieOfCore c) (dieOf (lineTaken s c l) (lineBase l)) = false := by rw [hhbm]; exact hcross
  rw [coreLine, readLineFrom_data hcross', htaken.2.2.homeData]

/-! ## The commands -/

/-- The first complete instruction of a unit's queue leaves it with its result (R32). -/
theorem decoupledResultArrive_done {s : State} {t : Tid} {tile : Bool} {k : Nat} {e : DecEntry} {r : Reg} {v : Word} (hk : (unitQueue (thread s t) tile)[k]? = some e)
    (hr : e.resolved = true) (hruns : e.runs = false) (hfirst : ∀ o ∈ (unitQueue (thread s t) tile).take k, o.resolved = false ∨ o.runs = true) (hres : e.result = some (r, v))
    (hl : (thread s t).late = none) :
    ∃ n, exec (.decoupledResultArrive t tile) s = .next n
      ∧ rx n t r = (if r = 0 then 0 else v) ∧ (∀ q, q ≠ r → rx n t q = rx s t q)
      ∧ thread n t = { thread s t with regs := (thread n t).regs, busy := setBit (thread s t).busy r.toNat false, vq := (thread n t).vq, tq := (thread n t).tq }
      ∧ (unitQueue (thread n t) tile).map (fun o => (o.instr, o.pc)) = ((unitQueue (thread s t) tile).eraseIdx k).map (fun o => (o.instr, o.pc))
      ∧ n = { s with threads := n.threads } ∧ (∀ u, u ≠ t → thread n u = thread s u) := by
  have hrest := leftQueue_rest (thread s t) tile k
  have hqueue := leftQueue_queue (thread s t) tile k
  have harrive := arrive_arrives hk hr hruns hfirst hres
  generalize leftQueue (thread s t) tile k = th at hrest hqueue harrive
  have hthread : thread (arrive s t tile) t = arriveReg th r v := by rw [harrive, thread_setThread_same]
  have hlate : (thread (arrive s t tile) t).late = none := by
    rw [hthread, arriveReg, xset_rest, hrest]; exact hl
  have hget (q : Reg) : rx (arrive s t tile) t q = if q = r ∧ r ≠ 0 then v else rx s t q := by
    rw [rx, hthread, xget_arriveReg, hrest]; rfl
  refine ⟨arrive s t tile, ?_, ?_, fun q hq => ?_, ?_, ?_, ?_, fun u hu => ?_⟩
  · show execDecoupledResultArrive t tile s = _
    rw [execDecoupledResultArrive, takeLate_none hlate]
  · rw [hget]
    by_cases h0 : r = 0
    · subst h0; rfl
    · rw [if_pos ⟨rfl, h0⟩, if_neg h0]
  · rw [hget, if_neg (fun h => hq h.1)]
  · rw [hthread, arriveReg, xset_rest, hrest]
  · rw [hthread, ← hqueue]
    cases tile
    · exact map_takeReg_instr r v th.vq
    · exact map_takeReg_instr r v th.tq
  · rw [harrive]; rfl
  · rw [harrive, thread_setThread, if_neg hu]

/-- The line that a thread's fetch misses comes into its cell's instruction cache (R53). -/
theorem instructionFetchReturn_done {s s1 : State} {t : Tid} {l : Nat} (hst : (thread s t).st = .waiting .fetch) (hl : missingLine s t = (some l, s1))
    (hopen : lineOpen s1 (cellOf t) l = true) (hth : thread s1 t = thread s t) (hcross : crossDead s1 (dieOfCore (cellOf t)) (dieOf s1 (lineBase l)) = false) :
    ∃ n b, exec (.instructionFetchReturn t) s = .next n ∧ (thread n t).st = .ready ∧ thread n t = { thread s t with st := .ready }
      ∧ b.data = (homeLine s1 l).data ∧ (cell n (cellOf t)).icache.head? = some (l, b) ∧ bytesKept s1 n
      ∧ (∀ u, u ≠ t → thread n u = thread s1 u) ∧ (∀ c, c ≠ cellOf t → cell n c = cell s1 c)
      ∧ cell n (cellOf t) = { cell s1 (cellOf t) with icache := (cell n (cellOf t)).icache } := by
  have hkeep := coreLine_keeps s1 (cellOf t) l
  have hdata := coreLine_data hcross
  have hexec : exec (.instructionFetchReturn t) s = .next (modThread (modCell (coreLine s1 (cellOf t) l).2 (cellOf t) (fun x => { x with
      icache := lruPut 512 (fun o => decide (o.1 = l)) (l, (coreLine s1 (cellOf t) l).1) x.icache })) t (fun th => { th with st := .ready })) := by
    show execInstructionFetchReturn t s = _
    simp only [execInstructionFetchReturn, hst, hl, hopen, ne_eq, not_true_eq_false, if_false, Bool.not_true, Bool.false_eq_true]
  generalize coreLine s1 (cellOf t) l = p at *
  obtain ⟨b, s2⟩ := p
  have hthread : thread s2 t = thread s t := (hkeep.thread t).trans hth
  refine ⟨_, b, hexec, ?_, ?_, hdata, ?_, hkeep.2.2.bytes, fun u hu => ?_, fun c hc => ?_, ?_⟩
  · rw [thread_modThread_same]
  · rw [thread_modThread_same, thread_modCell, hthread]
  · rw [cell_modThread, cell_modCell_same]; rfl
  · rw [thread_modThread, if_neg hu, thread_modCell, hkeep.thread]
  · rw [cell_modThread, cell_modCell, if_neg hc, hkeep.cells]
  · simp only [cell_modThread, cell_modCell_same, hkeep.cells]

/-- Settles O29, command by command. -/
theorem pipelineEvents : Obligations.PipelineEvents := by
  unfold Obligations.PipelineEvents
  refine ⟨?_, ?_, ?_, fun s s1 t l hst hl hopen hth _ hcross => instructionFetchReturn_done hst hl hopen hth hcross⟩
  · intro s s1 n c t before after w w1 i hpower hclk s0 horder hbefore hcan hfetch hdecode hrun htook
    have hissue := issueFirst_passes hbefore (t :: after)
    rw [issueFirst_runs after (tryIssue_runs hcan hfetch hdecode hrun htook), ← horder] at hissue
    show execIssueSelect c s = _
    simp only [execIssueSelect, hpower, hclk, ne_eq, not_true_eq_false, decide_false, Bool.not_true, Bool.or_self, Bool.false_eq_true, if_false]
    rw [hissue]
  · intro s s2 t e fl res hpower hclk hv htq hr hat hruns hh hw p hkept hturn place e' s1 hdone hv2 ht2 hh2 hl2
    have he' : e' = { e with at' := some (startAt s t e), next := startAt s t e, ask := (cell s (cellOf t)).accNo } := by rw [startAt_none hat]
    exact instructionResolve_done hpower hclk hv htq hr hruns (startUnit_done hv htq hr hat hh hw hkept hturn he' hdone) hr hruns hv2 ht2 hh2 hl2
  · intro s t tile k e r v q hk hr hruns hfirst hres hl
    exact decoupledResultArrive_done hk hr hruns hfirst hres hl

end Sys2Proof.Machine
end

section
/-! PROOFS. Requests on their way to memory: the numbers they take, what a read finds, how a load takes its value, how a line enters the L1 (R32, R222, R223, R226, R229). -/

namespace Sys2Proof.Machine

open Sys2Proof.Safety

/-! ## The number of a new request -/

/-- The greatest weight in a list. -/
def greatest {α : Type} (w : α → Nat) (l : List α) : Nat := l.foldl (fun a m => max a (w m)) 0

theorem foldl_greatest {α : Type} (w : α → Nat) (l : List α) (a : Nat) : l.foldl (fun a m => max a (w m)) a = max a (greatest w l) := by
  unfold greatest
  induction l generalizing a with
  | nil => simp
  | cons m l ih => rw [List.foldl_cons, List.foldl_cons, ih (max a (w m)), ih (max 0 (w m))]; omega

theorem greatest_cons {α : Type} (w : α → Nat) (m : α) (l : List α) : greatest w (m :: l) = max (w m) (greatest w l) := by
  rw [greatest, List.foldl_cons, foldl_greatest, Nat.zero_max]

/-- An entry of a table weighs no more than the greatest. -/
theorem le_greatest {α : Type} (w : α → Nat) {k : Nat} {y : α} {t : Table α} (h : tget? t k = some y) : w y ≤ greatest (fun p => w p.2) t := by
  induction t with
  | nil => simp at h
  | cons p t ih =>
    obtain ⟨a, z⟩ := p
    rw [greatest_cons]
    rw [tget?] at h
    split at h
    · cases h; exact le_max_left _ _
    · exact (ih h).trans (le_max_right _ _)

/-- An entry written that weighs what its key's entry did leaves the greatest weight as it was. -/
theorem greatest_tins {α : Type} (w : α → Nat) {k : Nat} {x : α} {t : Table α} (h : w x = ((tget? t k).map w).getD 0) :
    greatest (fun p => w p.2) (tins k x t) = greatest (fun p => w p.2) t := by
  have hle : w x ≤ greatest (fun p => w p.2) t := by
    rw [h]
    cases hk : tget? t k with
    | none => exact Nat.zero_le _
    | some y => exact le_greatest w hk
  induction t with
  | nil => rw [tins, greatest_cons, h]; rfl
  | cons p t ih =>
    obtain ⟨a, y⟩ := p
    rw [tins]
    by_cases hlt : k < a
    · rw [if_pos hlt, greatest_cons]
      exact max_eq_right hle
    · rw [if_neg hlt]
      by_cases ha : a = k
      · rw [if_pos ha, greatest_cons, greatest_cons]
        rw [show w x = w y by simpa [tget?, ha] using h]
      · have ht : w x = ((tget? t k).map w).getD 0 := by simpa [tget?, ha] using h
        rw [if_neg ha, greatest_cons, greatest_cons]
        refine congrArg _ (ih ht ?_)
        rw [ht]
        cases hk : tget? t k with
        | none => exact Nat.zero_le _
        | some z => exact le_greatest w hk

/-- The greatest number among a cell's requests. -/
def cellNo (x : CellS) : Nat := max (greatest Mshr.no x.mshrs) (max (greatest TileSlot.no x.slots) (greatest AtomReq.no x.atomics))

theorem nextNo_eq (s : State) : nextNo s = 1 + greatest (fun p => cellNo p.2) s.cells := by
  rw [nextNo, greatest]
  congr 2
  funext a p
  rw [foldl_greatest, foldl_greatest, foldl_greatest, cellNo, max_assoc, max_assoc]

/-- A cell changed but for the numbers of its requests: a new request takes the number it took. -/
theorem nextNo_kept {s : State} {c : Nat} {f : CellS → CellS} (h : cellNo (f (cell s c)) = cellNo (cell s c)) : nextNo (modCell s c f) = nextNo s := by
  rw [nextNo_eq, nextNo_eq]
  refine congrArg _ (greatest_tins cellNo ?_)
  rw [h, cell, tget]
  cases tget? s.cells c <;> rfl

theorem counterFrame.nextNo {s n : State} (h : counterFrame s n) : nextNo n = nextNo s := by rw [h.1]; rfl

/-! ## What a read of a line finds -/

/-- A change of a cell does not change what its core reads. -/
theorem readLineFrom_modCell (s : State) (c d l : Nat) (f : CellS → CellS) : (readLineFrom (modCell s c f) d l).1 = (readLineFrom s d l).1 := by
  have hregs : regsKept [] s (modCell s c f) := fun _ _ _ _ => rfl
  have halike : readsAlike s (modCell s c f) := ⟨sameHome_of_regs rfl hregs List.not_mem_nil List.not_mem_nil, rfl, rfl⟩
  have hread := readLine_congr halike l
  have hcross : crossDead (modCell s c f) d (dieOf (modCell s c f) (lineBase l)) = crossDead s d (dieOf s (lineBase l)) := rfl
  unfold readLineFrom
  rw [hcross]
  split
  · rfl
  · exact hread

/-- A request taken leaves the links and the registers, so what lies across a dead link does not change. -/
theorem stackServed_hbm (s : State) (c l no : Nat) : stackServed s c l no = { s with hbm := (stackServed s c l no).hbm } := by
  unfold stackServed stackTaken
  split <;> rfl

theorem touchLatent_hbm (s : State) (l i : Nat) : (touchLatent s l i).hbm = s.hbm := by
  have hnote (s : State) (key row : Nat) (b : Bool) : (noteRow s key row b).hbm = s.hbm := by unfold noteRow; dsimp only; split <;> rfl
  unfold touchLatent
  split
  · rfl
  · dsimp only
    split
    · split
      · rw [report_hbm, bumpRf_hbm, hnote]
      · rw [report_hbm, hnote]
    · split
      · rw [report_hbm, hnote]
      · rw [report_hbm, hnote]

/-- A read leaves the stacks' queues. -/
theorem readLineFrom_hbm (s : State) (d l : Nat) : (readLineFrom s d l).2.hbm = s.hbm := by
  have htouch : (touchLine s l).hbm = s.hbm := by
    unfold touchLine
    split
    · rfl
    · exact List.foldlRecOn _ _ (motive := fun n => n.hbm = s.hbm) rfl (fun n hn i _ => (touchLatent_hbm n l i).trans hn)
  have hdead (n : State) : (touchDead n l).hbm = n.hbm := by
    unfold touchDead touchDeadIf
    split
    · rw [report_hbm]
    · rfl
  have hrc (n : State) : (rcTouch n l).hbm = n.hbm := by
    unfold rcTouch
    dsimp only
    split <;> rfl
  unfold readLineFrom
  split
  · rfl
  · show (rcTouch (touchDead (touchLine s l) l) l).hbm = _
    rw [hrc, hdead, htouch]

/-! ## A load's value (R32, R50) -/

/-- A load of thread t has given v to its register rd: nothing else of the threads has changed but that the register is no longer busy. -/
structure loadArrived (s n : State) (t : Tid) (rd : Reg) (v : Word) : Prop where
  value : rx n t rd = if rd = 0 then 0 else v
  others : ∀ r, r ≠ rd → rx n t r = rx s t r
  busy : (thread n t).busy = setBit (thread s t).busy rd.toNat false
  pc : (thread n t).pc = (thread s t).pc
  st : (thread n t).st = (thread s t).st
  late : (thread n t).late = (thread s t).late
  threads : ∀ u, u ≠ t → thread n u = thread s u

theorem loadArrived.congr {s s' n n' : State} {t : Tid} {rd : Reg} {v : Word} (h : loadArrived s n t rd v) (hs : ∀ u, thread s' u = thread s u)
    (hn : ∀ u, thread n' u = thread n u) : loadArrived s' n' t rd v := by
  obtain ⟨h1, h2, h3, h4, h5, h6, h7⟩ := h
  refine ⟨by rw [rx, hn]; exact h1, fun r hr => by rw [rx, hn, rx, hs]; exact h2 r hr, ?_, ?_, ?_, ?_, fun u hu => ?_⟩
  · rw [hn, hs]; exact h3
  · rw [hn, hs]; exact h4
  · rw [hn, hs]; exact h5
  · rw [hn, hs]; exact h6
  · rw [hn, hs]; exact h7 u hu

theorem deliver_arrives (s : State) (c : Nat) (l : LoadReq) (v : Word) : loadArrived s (deliver s c l v) (tidOf c l.thr.val) l.rd v := by
  have hthread : thread (deliver s c l v) (tidOf c l.thr.val) = arriveReg (thread s (tidOf c l.thr.val)) l.rd v := thread_modThread_same ..
  have hget (q : Reg) : rx (deliver s c l v) (tidOf c l.thr.val) q = if q = l.rd ∧ l.rd ≠ 0 then v else rx s (tidOf c l.thr.val) q := by
    rw [rx, hthread, xget_arriveReg]; rfl
  refine ⟨?_, fun r hr => ?_, ?_, ?_, ?_, ?_, fun u hu => ?_⟩
  · rw [hget]
    by_cases h0 : l.rd = 0
    · rw [h0]; rfl
    · rw [if_pos ⟨rfl, h0⟩, if_neg h0]
  · rw [hget, if_neg (fun h => hr h.1)]
  · rw [hthread]; rfl
  · rw [hthread, arriveReg, xset_rest]
  · rw [hthread, arriveReg, xset_rest]
  · rw [hthread, arriveReg, xset_rest]
  · rw [deliver, thread_modThread, if_neg hu]

/-- A load takes the bytes of an unpoisoned line, extended as its form says (R43, R44). -/
theorem deliverLine_delivers {s : State} {c : Nat} {l : LoadReq} {b : Line} (hp : linePoison b (l.pa % 128) l.bytes = false) (hb : l.bytes ∈ [1, 2, 4, 8]) :
    deliverLine s c l b = deliver s c l (lineValue b.data (l.pa % 128) l.bytes l.signed) := by
  have hsize : 0 < l.bytes ∧ l.bytes ≤ 8 := by
    simp only [List.mem_cons, List.not_mem_nil, or_false] at hb
    omega
  rw [deliverLine, hp, if_neg Bool.false_ne_true, loadValue_lineBytes hsize.1 hsize.2 rfl]

/-- Where no thread has met a poison fault, none is taken. -/
theorem takeLates_none {s : State} (h : ∀ u, (thread s u).late = none) (c : Nat) : takeLates s c = s :=
  List.foldlRecOn _ _ (motive := fun n => n = s) rfl (fun n hn t _ => by rw [hn]; exact takeLate_none (h t))

theorem loadArrived.none_late {s n : State} {t : Tid} {rd : Reg} {v : Word} (h : loadArrived s n t rd v) (hs : ∀ u, (thread s u).late = none) (u : Tid) :
    (thread n u).late = none := by
  by_cases hu : u = t
  · rw [hu, h.late]; exact hs t
  · rw [h.threads u hu]; exact hs u

/-! ## A line enters the L1 (R222, R223, R227) -/

/-- The way that a line's fill takes: that of its line, else an invalid one, else the tree's (R223). -/
def fillWay (st : L1Set) (l : Nat) : Nat := ((l1Way st l).or (st.ways.findIdx? (fun o => o.isNone))).getD (treeVictim st.tree)

theorem treeVictim_lt (b : BitVec 7) : treeVictim b < 8 := by
  have hbit (x : Nat) : (bit b x).toNat ≤ 1 := Bool.toNat_le _
  have h0 := hbit 0
  simp only [treeVictim, List.range_succ, List.range_zero, List.nil_append, List.cons_append, List.foldl_cons, List.foldl_nil]
  have h1 := hbit (2 * 0 + 1 + (bit b 0).toNat)
  have h2 := hbit (2 * (2 * 0 + 1 + (bit b 0).toNat) + 1 + (bit b (2 * 0 + 1 + (bit b 0).toNat)).toNat)
  omega

theorem fillWay_lt {st : L1Set} (h : st.ways.length = 8) (l : Nat) : fillWay st l < st.ways.length := by
  unfold fillWay
  cases hw : l1Way st l with
  | some w => exact (List.findIdx?_eq_some_iff_getElem.1 hw).1
  | none =>
    cases hi : st.ways.findIdx? (fun o => o.isNone) with
    | some w => exact (List.findIdx?_eq_some_iff_getElem.1 hi).1
    | none => rw [h]; exact treeVictim_lt _

theorem l1Way_eq (st : L1Set) (l : Nat) : l1Way st l = st.ways.findIdx? (fun o => decide (o.map CLine.line = some l)) := by
  unfold l1Way
  congr 1
  funext o
  cases o <;> simp

/-- No way before the one that a line's fill takes holds the line. -/
theorem fillWay_first {st : L1Set} {l w : Nat} (hw : w < fillWay st l) (hlt : w < st.ways.length) : st.ways[w].map CLine.line ≠ some l := by
  cases hl : l1Way st l with
  | some v =>
    have hv : w < v := by simpa [fillWay, hl] using hw
    rw [l1Way_eq] at hl
    simpa using (List.findIdx?_eq_some_iff_getElem.1 hl).2.2 w hv
  | none =>
    rw [l1Way_eq] at hl
    simpa using List.findIdx?_eq_none_iff.1 hl _ (List.getElem_mem hlt)

/-- A set with a line filled into it (R222, R223). -/
def filledSet (st : L1Set) (y : CLine) : L1Set := { ways := st.ways.set (fillWay st y.line) (some y), tree := treeTouch st.tree (fillWay st y.line) }

/-- The way that a fill takes holds its line. -/
theorem l1Way_filledSet {st : L1Set} {y : CLine} (h : st.ways.length = 8) :
    l1Way (filledSet st y) y.line = some (fillWay st y.line) ∧ (filledSet st y).ways.getD (fillWay st y.line) none = some y := by
  have hlt := fillWay_lt h y.line
  constructor
  · rw [l1Way_eq]
    refine List.findIdx?_eq_some_iff_getElem.2 ⟨by simpa [filledSet] using hlt, by simp [filledSet], fun j hj => ?_⟩
    have hkept : (filledSet st y).ways[j]'(by simp only [filledSet, List.length_set]; omega) = st.ways[j]'(by omega) := List.getElem_set_ne (by omega) _
    simpa [hkept] using fillWay_first hj (by omega)
  · rw [filledSet, List.getD_eq_getElem?_getD, List.getElem?_set_self hlt]; rfl

theorem earlyIf_l1 (s : State) (c : Nat) (x : CLine) : (cell (earlyIf s c x) c).l1 = (cell s c).l1 := by
  unfold earlyIf
  split
  · rfl
  · rw [cell_modCell_same, (perfEvent_counterFrame ..).cell]

theorem victimPut_l1 (s : State) (c : Nat) (x : CLine) : (cell (victimPut s c x) c).l1 = (cell s c).l1 := by
  unfold victimPut
  dsimp only
  split
  · rw [cell_modCell_same]
  · split
    · rw [earlyIf_l1, cell_modCell_same]
    · rw [cell_modCell_same]

/-- A line filled stands in the L1 as it was filled (R222, R223). -/
theorem l1Line_l1Fill {s : State} {c : Nat} {y : CLine} (h : (tget {} (cell s c).l1 (l1Index y.line)).ways.length = 8) : l1Line (l1Fill s c y) c (lineBase y.line) = some y := by
  obtain ⟨hway, hget⟩ := l1Way_filledSet (y := y) h
  have hl1 : (cell (l1Fill s c y) c).l1 = tins (l1Index y.line) (filledSet (tget {} (cell s c).l1 (l1Index y.line)) y) (cell s c).l1 := by
    unfold l1Fill
    dsimp only
    split
    · split
      · rw [cell_modCell_same]; rfl
      · rw [victimPut_l1, cell_modCell_same]; rfl
    · rw [cell_modCell_same]; rfl
  rw [l1Line, show lineBase y.line / 128 = y.line by rw [lineBase]; omega, hl1]
  rw [tget_tins_same, hway, Option.bind_some, hget]

end Sys2Proof.Machine
end

section
/-! PROOFS. Misses, fills, grants and prefetches (R50, R226, R228–R237). -/

namespace Sys2Proof.Machine

open Sys2Proof.Safety

/-! ## Requests served by their home (R50, R233) -/

/-- A request that its stack takes is read at its home: the line that memory holds, the stack's queue and what the read finds changed alone. -/
theorem servedLine (s : State) (c l no : Nat) (hcross : crossDead s (dieOfCore c) (dieOf s (lineBase l)) = false) :
    readKeeps s (readLineFrom (stackServed s c l no) (dieOfCore c) l).2
      ∧ (readLineFrom (stackServed s c l no) (dieOfCore c) l).2.hbm = (stackServed s c l no).hbm
      ∧ (readLineFrom (stackServed s c l no) (dieOfCore c) l).1.data = (homeLine s l).data := by
  have htaken := stackTaken_keeps s (corePart c) l no
  have hhbm := stackServed_hbm s c l no
  have hcross' : crossDead (stackServed s c l no) (dieOfCore c) (dieOf (stackServed s c l no) (lineBase l)) = false := by rw [hhbm]; exact hcross
  refine ⟨htaken.trans (readLineFrom_keeps _ _ _), readLineFrom_hbm _ _ _, ?_⟩
  rw [readLineFrom_data hcross']
  exact htaken.2.2.homeData l

/-- What serving a request changes of its cell alone. -/
theorem modCell_served {s n : State} (h : readKeeps s n) (c : Nat) (f : CellS → CellS) :
    cell (modCell n c f) c = f (cell s c) ∧ (∀ d, d ≠ c → cell (modCell n c f) d = cell s d) ∧ (∀ t, thread (modCell n c f) t = thread s t)
      ∧ regsKept [.hbmChstat] s (modCell n c f) ∧ bytesKept s (modCell n c f) :=
  ⟨by rw [cell_modCell_same, h.cells], fun d hd => by rw [cell_modCell, if_neg hd, h.cells], fun t => by rw [thread_modCell, h.thread], h.2.1, h.2.2.bytes⟩

theorem serveMiss_open {s : State} {c i : Nat} {m : Mshr} (hm : (cell s c).mshrs[i]? = some m) (hs : m.served = none) :
    serveMiss s c i = modCell (readLineFrom s (dieOfCore c) m.line).2 c (fun y => { y with mshrs := y.mshrs.set i { m with
      served := some (readLineFrom s (dieOfCore c) m.line).1, loads := m.loads.map (fun l => { l with got := l.got.or (some (readLineFrom s (dieOfCore c) m.line).1) }) } }) := by
  simp only [serveMiss, hm, hs, Option.isSome_none, Bool.false_eq_true, if_false]

theorem serveSlot_open {s : State} {c i : Nat} {m : TileSlot} (hm : (cell s c).slots[i]? = some m) (hs : m.served = none) :
    serveSlot s c i = modCell (readLineFrom s (dieOfCore c) m.line).2 c (fun y => { y with slots := y.slots.set i { m with served := some (readLineFrom s (dieOfCore c) m.line).1 } }) := by
  simp only [serveSlot, hm, hs, Option.isSome_none, Bool.false_eq_true, if_false]

theorem loadPerformed_miss {s : State} {c : Cid} {k : Nat} {m : Mshr} (hm : (cell s c.val).mshrs[k]? = some m) (hs : m.served = none) (hclk : homeClocked s m.line = true)
    (htakes : stackServes s c.val m.line m.no = true) : exec (.loadPerformed c k) s = .next (serveMiss (stackServed s c.val m.line m.no) c.val k) := by
  obtain ⟨hk, -⟩ := List.getElem?_eq_some_iff.1 hm
  show execLoadPerformed c k s = _
  simp only [execLoadPerformed, if_pos hk, hm, Option.elim_some, hs, Option.isSome_none, hclk, htakes, Bool.not_true, Bool.false_eq_true, if_false]

theorem loadPerformed_slot {s : State} {c : Cid} {j : Nat} {m : TileSlot} (hm : (cell s c.val).slots[j]? = some m) (hs : m.served = none) (hh : m.held = false)
    (hclk : homeClocked s m.line = true) (htakes : stackServes s c.val m.line m.no = true) :
    exec (.loadPerformed c ((cell s c.val).mshrs.length + (cell s c.val).loads.length + j)) s = .next (serveSlot (stackServed s c.val m.line m.no) c.val j) := by
  obtain ⟨hj, -⟩ := List.getElem?_eq_some_iff.1 hm
  show execLoadPerformed c _ s = _
  have hplace : (cell s c.val).mshrs.length + (cell s c.val).loads.length + j - (cell s c.val).mshrs.length - (cell s c.val).loads.length = j := by omega
  have h1 : ¬ (cell s c.val).mshrs.length + (cell s c.val).loads.length + j < (cell s c.val).mshrs.length := by omega
  have h2 : ¬ (cell s c.val).mshrs.length + (cell s c.val).loads.length + j < (cell s c.val).mshrs.length + (cell s c.val).loads.length := by omega
  simp only [execLoadPerformed, if_neg h1, if_neg h2, if_pos (Nat.add_lt_add_left hj _), hplace, hm, Option.elim_some, hs, hh, Option.isSome_none, Bool.or_self, hclk, htakes,
    Bool.not_true, Bool.false_eq_true, if_false]

/-! ## An uncached load of memory (R43, R50) -/

theorem performLoad_memory {s : State} {c j : Nat} {l : LoadReq} (hl : (cell s c).loads[j]? = some l) (hg : l.got = none) (hmem : isMemory s l.pa = true) :
    performLoad s c j = (let r := readLineFrom (modCell s c (fun y => { y with loads := y.loads.eraseIdx j })) (dieOfCore c) (l.pa / 128); deliverLine r.2 c l r.1) := by
  have hphys : physAt (modCell s c (fun y => { y with loads := y.loads.eraseIdx j })) l.pa = physAt s l.pa := rfl
  simp only [performLoad, hl, hphys, hg]
  unfold isMemory at hmem
  generalize physAt s l.pa = p at *
  cases p with
  | hbm => rfl
  | block b o => rfl
  | mmio o => simp at hmem
  | window => simp at hmem
  | hole => simp at hmem

theorem loadPerformed_load {s : State} {c : Cid} {j : Nat} {l : LoadReq} (hl : (cell s c.val).loads[j]? = some l) (hd : l.device = false) (hclk : homeClocked s (l.pa / 128) = true)
    (hfirst : ∀ o ∈ (cell s c.val).loads.take j, o.thr = l.thr → o.pa + o.bytes ≤ l.pa ∨ l.pa + l.bytes ≤ o.pa) :
    exec (.loadPerformed c ((cell s c.val).mshrs.length + j)) s = .next (takeLates (performLoad s c.val j) c.val) := by
  obtain ⟨hj, -⟩ := List.getElem?_eq_some_iff.1 hl
  have hnone : ((cell s c.val).loads.take j).any (fun o => decide (o.thr = l.thr) && decide (o.pa < l.pa + l.bytes) && decide (l.pa < o.pa + o.bytes)) = false := by
    refine List.any_eq_false.2 (fun o ho h => ?_)
    simp only [Bool.and_eq_true, decide_eq_true_eq] at h
    have := hfirst o ho h.1.1
    omega
  show execLoadPerformed c _ s = _
  have h1 : ¬ (cell s c.val).mshrs.length + j < (cell s c.val).mshrs.length := by omega
  simp only [execLoadPerformed, if_neg h1, if_pos (Nat.add_lt_add_left hj _), Nat.add_sub_cancel_left, hl, Option.elim_some, hd, hnone, hclk, Bool.not_true, Bool.false_eq_true, if_false]

/-- An uncached load of memory gives its register the bytes at its home, and is gone. -/
theorem loadPerformed_gives {s : State} {c : Cid} {j : Nat} {l : LoadReq} (hl : (cell s c.val).loads[j]? = some l) (hd : l.device = false) (hg : l.got = none)
    (hb : l.bytes ∈ [1, 2, 4, 8]) (hmem : isMemory s l.pa = true) (hclk : homeClocked s (l.pa / 128) = true)
    (hfirst : ∀ o ∈ (cell s c.val).loads.take j, o.thr = l.thr → o.pa + o.bytes ≤ l.pa ∨ l.pa + l.bytes ≤ o.pa)
    (hp : linePoison (readLineFrom s (dieOfCore c.val) (l.pa / 128)).1 (l.pa % 128) l.bytes = false) (hlate : ∀ u, (thread s u).late = none) :
    ∃ n, exec (.loadPerformed c ((cell s c.val).mshrs.length + j)) s = .next n ∧ cell n c.val = { cell s c.val with loads := (cell s c.val).loads.eraseIdx j }
      ∧ loadArrived s n (tidOf c.val l.thr.val) l.rd (lineValue (readLineFrom s (dieOfCore c.val) (l.pa / 128)).1.data (l.pa % 128) l.bytes l.signed)
      ∧ (∀ d, d ≠ c.val → cell n d = cell s d) ∧ bytesKept s n := by
  have hexec := loadPerformed_load hl hd hclk hfirst
  have hline := readLineFrom_modCell s c.val (dieOfCore c.val) (l.pa / 128) (fun y => { y with loads := y.loads.eraseIdx j })
  have hread := readLineFrom_keeps (modCell s c.val (fun y => { y with loads := y.loads.eraseIdx j })) (dieOfCore c.val) (l.pa / 128)
  rw [performLoad_memory hl hg hmem] at hexec
  dsimp only at hexec
  rw [hline, deliverLine_delivers hp hb] at hexec
  generalize (readLineFrom s (dieOfCore c.val) (l.pa / 128)).1 = b at *
  generalize (readLineFrom (modCell s c.val (fun y => { y with loads := y.loads.eraseIdx j })) (dieOfCore c.val) (l.pa / 128)).2 = s2 at *
  have harr := (deliver_arrives s2 c.val l (lineValue b.data (l.pa % 128) l.bytes l.signed)).congr (s' := s) (fun u => (hread.thread u).symm) (fun _ => rfl)
  rw [takeLates_none (harr.none_late hlate)] at hexec
  refine ⟨_, hexec, ?_, harr, fun d hd' => ?_, ?_⟩
  · rw [deliver, cell_modThread, hread.cells, cell_modCell_same]
  · rw [deliver, cell_modThread, hread.cells, cell_modCell, if_neg hd']
  · exact hread.2.2.bytes

/-! ## Fills (R226, R228, R230) -/

/-- A cell's state once the fill of its i-th miss register has given its load its value. -/
def fillDelivered (s : State) (c i : Nat) (l : LoadReq) (v : Word) : State := deliver (modCell s c (fun y => { y with mshrs := y.mshrs.eraseIdx i })) c l v

theorem fillDelivered_cell (s : State) (c i : Nat) (l : LoadReq) (v : Word) (d : Nat) :
    cell (fillDelivered s c i l v) d = if d = c then { cell s c with mshrs := (cell s c).mshrs.eraseIdx i } else cell s d := by
  rw [fillDelivered, deliver, cell_modThread, cell_modCell]

theorem fillMiss_one {s : State} {c i : Nat} {m : Mshr} {b : Line} {l : LoadReq} (bad : BitVec 32) (hm : (cell s c).mshrs[i]? = some m) (hs : m.served = some b)
    (hl : m.loads = [l]) (hpipes : m.pipes = []) (hb : l.bytes ∈ [1, 2, 4, 8]) (hp : linePoison (l.got.getD b) (l.pa % 128) l.bytes = false) :
    fillMiss s c i bad = (let s' := fillDelivered s c i l (lineValue (l.got.getD b).data (l.pa % 128) l.bytes l.signed)
      if m.install then l1Fill s' c { line := m.line, body := applyOpen (cell s c) m.line b, bad := bad } else s') := by
  simp only [fillMiss, hm, hs, hl, hpipes, List.foldl_cons, List.foldl_nil, deliverLine_delivers hp hb, List.isEmpty_cons, Bool.false_and, Bool.false_eq_true, if_false]
  have hopen : applyOpen (cell (fillDelivered s c i l (lineValue (l.got.getD b).data (l.pa % 128) l.bytes l.signed)) c) m.line b = applyOpen (cell s c) m.line b := by
    rw [fillDelivered_cell, if_pos rfl]; rfl
  rw [fillDelivered] at hopen ⊢
  rw [hopen]

/-- The line of a served miss register gives the load that waits for it its value, and enters the L1. -/
theorem cacheFill_gives {s : State} {c : Cid} {k : Fill} {m : Mshr} {b : Line} {l : LoadReq} (hm : (cell s c.val).mshrs[k.place]? = some m) (hs : m.served = some b)
    (hl : m.loads = [l]) (hpipes : m.pipes = []) (hb : l.bytes ∈ [1, 2, 4, 8]) (hways : (tget {} (cell s c.val).l1 (l1Index m.line)).ways.length = 8)
    (hp : linePoison (l.got.getD b) (l.pa % 128) l.bytes = false) (hlate : ∀ u, (thread s u).late = none) :
    ∃ n, exec (.cacheFill c k) s = .next n ∧ (cell n c.val).mshrs = (cell s c.val).mshrs.eraseIdx k.place
      ∧ loadArrived s n (tidOf c.val l.thr.val) l.rd (lineValue (l.got.getD b).data (l.pa % 128) l.bytes l.signed)
      ∧ (∀ d, d ≠ c.val → cell n d = cell s d) ∧ bytesKept s n
      ∧ (m.install = true → l1Line n c.val (lineBase m.line) = some { line := m.line, body := applyOpen (cell s c.val) m.line b, bad := k.bad })
      ∧ (m.install = false → (cell n c.val).l1 = (cell s c.val).l1 ∧ (cell n c.val).victim = (cell s c.val).victim) := by
  obtain ⟨hk, -⟩ := List.getElem?_eq_some_iff.1 hm
  have hfill := fillMiss_one k.bad hm hs hl hpipes hb hp
  have hcell := fillDelivered_cell s c.val k.place l (lineValue (l.got.getD b).data (l.pa % 128) l.bytes l.signed)
  have harr : loadArrived s (fillDelivered s c.val k.place l (lineValue (l.got.getD b).data (l.pa % 128) l.bytes l.signed)) (tidOf c.val l.thr.val) l.rd _ :=
    (deliver_arrives _ c.val l _).congr (fun _ => rfl) (fun _ => rfl)
  have hbytes : bytesKept s (fillDelivered s c.val k.place l (lineValue (l.got.getD b).data (l.pa % 128) l.bytes l.signed)) := fun _ => rfl
  have hexec : exec (.cacheFill c k) s = .next (takeLates (fillMiss s c.val k.place k.bad) c.val) := by
    show execCacheFill c k s = _
    simp only [execCacheFill, if_pos hk]
  rw [hfill] at hexec
  generalize fillDelivered s c.val k.place l (lineValue (l.got.getD b).data (l.pa % 128) l.bytes l.signed) = s1 at *
  have hsame : cell s1 c.val = { cell s c.val with mshrs := (cell s c.val).mshrs.eraseIdx k.place } := by rw [hcell, if_pos rfl]
  cases hi : m.install with
  | false =>
    simp only [hi, Bool.false_eq_true, if_false, takeLates_none (harr.none_late hlate)] at hexec
    refine ⟨_, hexec, by rw [hsame], harr, fun d hd => by rw [hcell, if_neg hd], hbytes, fun h => (Bool.false_ne_true h).elim, fun _ => by rw [hsame]; exact ⟨rfl, rfl⟩⟩
  | true =>
    have hkeep := l1Fill_keeps s1 c.val { line := m.line, body := applyOpen (cell s c.val) m.line b, bad := k.bad }
    have hline := l1Line_l1Fill (s := s1) (c := c.val) (y := { line := m.line, body := applyOpen (cell s c.val) m.line b, bad := k.bad }) (by rw [hsame]; exact hways)
    have harr' := harr.congr (fun _ => rfl) hkeep.thread
    simp only [hi, if_true, takeLates_none (harr'.none_late hlate)] at hexec
    refine ⟨_, hexec, ?_, harr', fun d hd => ?_, fun a => (hkeep.bytes a).trans (hbytes a), fun _ => hline, fun h => (Bool.false_ne_true h.symm).elim⟩
    · rw [hkeep.2.2.1]; exact congrArg CellS.mshrs hsame
    · rw [hkeep.2.1 d hd, hcell, if_neg hd]

/-! ## Grants (R229–R231) -/

/-- What a held request waits with: a load for its value, an element for the line. -/
def asksIn (h : HeldMiss) (m : Mshr) : Mshr := if h.kind = .load then { m with loads := m.loads ++ [h.load] } else { m with pipes := m.pipes ++ [h.load.thr] }

/-- A demand of core c for a line merged into the register that tracks it, else in a register of its own. -/
def demandLine (s : State) (c line : Nat) (f : Mshr → Mshr) : State :=
  match (cell s c).mshrs.findIdx? (fun m => decide (m.line = line)) with
  | some j => mergeMiss s c j f
  | none => takeMiss s c (f { line := line, loads := [] })

/-- The state in which a held request is granted: it is held no more. -/
def heldGone (s : State) (c i : Nat) : State := modCell s c (fun x => { x with held := x.held.eraseIdx i })

/-- What a demand changes beside the miss registers: the performance counters and the stream's count of its cell. -/
structure demandFrame (c : Nat) (s n : State) : Prop where
  rest : n = { s with cells := n.cells, mmio := n.mmio, out := n.out, pba := n.pba, msixDue := n.msixDue }
  cells : ∀ d, d ≠ c → cell n d = cell s d
  held : (cell n c).held = (cell s c).held

theorem demandFrame.trans {c : Nat} {a b d : State} (h : demandFrame c a b) (k : demandFrame c b d) : demandFrame c a d :=
  ⟨by rw [k.rest, h.rest], fun e he => (k.cells e he).trans (h.cells e he), k.held.trans h.held⟩

theorem cacheKeeps.demandFrame {c : Nat} {s n : State} (h : cacheKeeps c s n) : demandFrame c s n := ⟨h.1, h.2.1, by rw [h.2.2.1]⟩

theorem modCell_demandFrame (s : State) (c : Nat) (f : CellS → CellS) (h : (f (cell s c)).held = (cell s c).held) : demandFrame c s (modCell s c f) :=
  ⟨rfl, fun d hd => by rw [cell_modCell, if_neg hd], by rw [cell_modCell_same, h]⟩

theorem demandFrame.thread {c : Nat} {s n : State} (h : demandFrame c s n) (t : Tid) : Machine.thread n t = Machine.thread s t := by rw [h.rest]; rfl

theorem demandLine_frame (s : State) (c line : Nat) (f : Mshr → Mshr) : demandFrame c s (demandLine s c line f) := by
  unfold demandLine
  split
  · unfold mergeMiss
    split
    · exact (lateIf_keeps s c _).demandFrame.trans (modCell_demandFrame _ c _ rfl)
    · exact (cacheKeeps.refl c s).demandFrame
  · exact modCell_demandFrame s c _ rfl

/-- A demand for a line that no register tracks takes one (R230). -/
theorem demandLine_takes {s : State} {c line : Nat} {f : Mshr → Mshr} (h : ∀ m ∈ (cell s c).mshrs, m.line ≠ line) :
    (cell (demandLine s c line f) c).mshrs = (cell s c).mshrs ++ [{ f { line := line, loads := [] } with no := nextNo s }] := by
  have hnone : (cell s c).mshrs.findIdx? (fun m => decide (m.line = line)) = none := List.findIdx?_eq_none_iff.2 (fun m hm => decide_eq_false (h m hm))
  rw [demandLine, hnone]
  exact congrArg CellS.mshrs (cell_modCell_same ..)

/-- A demand for a line that a register tracks merges into it (R229). -/
theorem demandLine_merges {s : State} {c line j : Nat} {m : Mshr} {f : Mshr → Mshr} (hm : (cell s c).mshrs[j]? = some m) (hline : m.line = line)
    (hfirst : ∀ o ∈ (cell s c).mshrs.take j, o.line ≠ line) :
    (cell (demandLine s c line f) c).mshrs = (cell s c).mshrs.set j { f m with merged := m.merged + 1, stream := none, served := none } := by
  have hj : (cell s c).mshrs.findIdx? (fun m => decide (m.line = line)) = some j := by
    obtain ⟨hlt, hget⟩ := List.getElem?_eq_some_iff.1 hm
    refine List.findIdx?_eq_some_iff_getElem.2 ⟨hlt, by simpa [hget] using hline, fun i hi => ?_⟩
    have hmem : (cell s c).mshrs[i]'(by omega) ∈ (cell s c).mshrs.take j := List.mem_take_iff_getElem.2 ⟨i, by omega, rfl⟩
    simpa using hfirst _ hmem
  have hkeep := lateIf_keeps s c m
  rw [demandLine, hj]
  simp only [mergeMiss, hm, cell_modCell_same]
  rw [hkeep.2.2.1]

/-- The request that a core grants first: those that came before it may not go on. -/
theorem missRegisterGrant_grants {s : State} {c : Cid} {before after : List HeldMiss} {h : HeldMiss} (hheld : (cell s c.val).held = before ++ h :: after)
    (hbefore : ∀ g ∈ before, mayGrant s c.val g = false) (hgrant : mayGrant s c.val h = true) :
    exec (.missRegisterGrant c) s = .next (grantHeld s c.val before.length) ∧ (cell s c.val).held[before.length]? = some h
      ∧ (cell s c.val).held.eraseIdx before.length = before ++ after := by
  have hnext : nextHeld s c.val = some before.length := by
    rw [nextHeld, hheld, List.findIdx?_append, List.findIdx?_eq_none_iff.2 hbefore, List.findIdx?_cons, hgrant]
    simp
  refine ⟨?_, by rw [hheld]; simp, by rw [hheld, List.eraseIdx_append_of_length_le le_rfl]; simp⟩
  show execMissRegisterGrant c s = _
  rw [execMissRegisterGrant, hnext]; rfl

/-- A load goes on: its line is demanded, and its thread goes on to the next instruction. -/
theorem grantHeld_load {s : State} {c i : Nat} {h : HeldMiss} (hh : (cell s c).held[i]? = some h) (hk : h.kind = .load) :
    grantHeld s c i = modThread (perfEvent (demandLine (heldGone s c i) c h.line (asksIn h)) c 0x02 (some (thrOf (tidOf c h.load.thr.val)))) (tidOf c h.load.thr.val) (fun th =>
      { th with st := .ready, pc := th.pc + 4, younger := if (oldestUnresolved th).isSome then th.younger + 1 else th.younger,
                busy := if h.load.rd = 0 then th.busy else setBit th.busy h.load.rd.toNat true }) := by
  have hasks : asksIn h = fun m => { m with loads := m.loads ++ [h.load] } := by funext m; rw [asksIn, if_pos hk]
  rw [hasks]
  simp only [grantHeld, hh, hk, demandLine, heldGone] <;> rfl

/-- A vector element's line is demanded. -/
theorem grantHeld_element {s : State} {c i : Nat} {h : HeldMiss} (hh : (cell s c).held[i]? = some h) (hk : h.kind = .element) :
    grantHeld s c i = demandLine (heldGone s c i) c h.line (asksIn h) := by
  have hasks : asksIn h = fun m => { m with pipes := m.pipes ++ [h.load.thr] } := by funext m; rw [asksIn, hk]; rfl
  rw [hasks]
  simp only [grantHeld, hh, hk, demandLine, heldGone, grantElement] <;> rfl

/-- An atomic is executed. -/
theorem grantHeld_atomic {s : State} {c i : Nat} {h : HeldMiss} {k : Instr} (hh : (cell s c).held[i]? = some h) (hk : h.kind = .atomic) (hi : h.instr = some k) :
    grantHeld s c i = (let s' := modThread (heldGone s c i) (tidOf c h.load.thr.val) (fun th => { th with st := .ready }); (runInstr k s').getD s') := by
  simp only [grantHeld, hh, hk, hi, Option.bind_some, heldGone]

/-! ## Prefetches (R234–R237) -/

/-- A stream replaced by a later state of itself. -/
def putStream (s : State) (c : Nat) (st : Stream) : State := modCell s c (fun y => { y with streams := y.streams.map (fun o => if o.id = st.id then st else o) })

/-- A stream's next line, which its page lets it prefetch and no register or copy of the cell holds, takes a miss register while more than 16 are free. -/
theorem prefetchIssue_takes {s : State} {t : Tid} {line : Nat} {st : Stream} {e : TlbEnt} {y : CellS}
    (hst : (cell s (cellOf t)).streams.find? (fun o => decide (o.thr.val = thrOf t) && streamWants o line) = some st) (hclk : clocked s (cellOf t) = true)
    (hrun : (cell s (cellOf t)).power = .run) (hshed : rf s .powerShed F.powerShedStage = 0)
    (htlb : tlbLookup (cell s (cellOf t)) .load (thread s t).asid (128 * line) = some (e, y)) (hr : e.r = true) (hns : e.ns = false) (hu : (thread s t).level = 0 → e.u = true)
    (hp : st.paused = none) {pa : Nat} (hpa : pa = pairFrame (ctxOf s t) e + 128 * line % 2 ^ e.size) (hhbm : inHbm pa = true)
    (hnew : ∀ m ∈ (cell s (cellOf t)).mshrs, m.line ≠ pa / 128) (hcopy : l1Copy (cell s (cellOf t)) (pa / 128) = none)
    (hfree : (cell s (cellOf t)).mshrs.length + (hbmAtomics (cell s (cellOf t))).length < 32)
    (hbank : ((cell s (cellOf t)).mshrs.filter (fun m => decide (bankOf s m.line = bankOf s (pa / 128)))).length
      + ((hbmAtomics (cell s (cellOf t))).filter (fun m => decide (bankOf s m.line = bankOf s (pa / 128)))).length < 8) :
    exec (.prefetchIssue t line) s
      = .next (takeMiss (putStream (perfEvent s (cellOf t) 0x60 (some (thrOf t))) (cellOf t) (streamIssued st)) (cellOf t) { line := pa / 128, loads := [], stream := some st.id }) := by
  have hlevel : (decide ((thread s t).level = 0) && !e.u) = false := by
    by_cases h0 : (thread s t).level = 0
    · rw [hu h0, Bool.not_true, Bool.and_false]
    · rw [decide_eq_false h0, Bool.false_and]
  have hany : (cell s (cellOf t)).mshrs.any (fun m => decide (m.line = pa / 128)) = false := List.any_eq_false.2 (fun m hm => by simpa using hnew m hm)
  have hshort : ¬ (48 - ((cell s (cellOf t)).mshrs.length + (hbmAtomics (cell s (cellOf t))).length) ≤ 16
      ∨ 8 ≤ ((cell s (cellOf t)).mshrs.filter (fun m => decide (bankOf s m.line = bankOf s (pa / 128)))).length
        + ((hbmAtomics (cell s (cellOf t))).filter (fun m => decide (bankOf s m.line = bankOf s (pa / 128)))).length) := by omega
  show execPrefetchIssue t line s = _
  simp only [execPrefetchIssue, hst, hclk, hrun, hshed, htlb, hr, hns, hlevel, hp, ← hpa, hhbm, hany, hcopy, if_neg hshort, putStream, Option.isSome_none, ne_eq, not_true_eq_false,
    decide_false, Bool.not_true, Bool.or_self, Bool.false_eq_true, if_false, nonpos_iff_eq_zero, one_ne_zero]

theorem streamIssued_id (st : Stream) : (streamIssued st).id = st.id := by
  unfold streamIssued
  dsimp only
  split <;> rfl

theorem streamIssued_next (st : Stream) : (streamIssued st).next = st.next + st.stride := by
  unfold streamIssued
  dsimp only
  split <;> rfl

/-- What the prefetch of a line leaves. -/
theorem prefetched {s : State} {t : Tid} {l : Nat} {st : Stream} (hmem : st ∈ (cell s (cellOf t)).streams) {n : State}
    (hn : n = takeMiss (putStream (perfEvent s (cellOf t) 0x60 (some (thrOf t))) (cellOf t) (streamIssued st)) (cellOf t) { line := l, loads := [], stream := some st.id }) :
    (cell n (cellOf t)).mshrs = (cell s (cellOf t)).mshrs ++ [{ line := l, loads := [], stream := some st.id, no := nextNo s }]
      ∧ (∃ o ∈ (cell n (cellOf t)).streams, o.id = st.id ∧ o.next = st.next + st.stride)
      ∧ (∀ u, thread n u = thread s u) ∧ (∀ d, d ≠ cellOf t → cell n d = cell s d) ∧ regsKept [.perfCnt, .perfEvt] s n ∧ bytesKept s n := by
  have hcount := perfEvent_counterFrame s (cellOf t) 0x60 (some (thrOf t)) 1
  have hno : nextNo (putStream (perfEvent s (cellOf t) 0x60 (some (thrOf t))) (cellOf t) (streamIssued st)) = nextNo s := (nextNo_kept rfl).trans hcount.nextNo
  have hcell : cell n (cellOf t) = { cell s (cellOf t) with
      streams := (cell s (cellOf t)).streams.map (fun o => if o.id = (streamIssued st).id then streamIssued st else o),
      mshrs := (cell s (cellOf t)).mshrs ++ [{ line := l, loads := [], stream := some st.id, no := nextNo s }] } := by
    rw [hn, takeMiss, cell_modCell_same, hno, putStream, cell_modCell_same, hcount.cell]
  have hkeep := hcount.cacheKeeps (cellOf t)
  refine ⟨by rw [hcell], ⟨streamIssued st, ?_, streamIssued_id st, streamIssued_next st⟩, fun u => ?_, fun d hd => ?_, ?_, ?_⟩
  · rw [hcell]
    exact List.mem_map.2 ⟨st, hmem, if_pos (streamIssued_id st).symm⟩
  · rw [hn]; exact hcount.thread u
  · rw [hn, takeMiss, cell_modCell, if_neg hd, putStream, cell_modCell, if_neg hd, hcount.cell]
  · rw [hn]; exact hcount.2
  · rw [hn]; exact hkeep.bytes

/-! ## The obligation -/

/-- A request granted that is no atomic: its line is demanded; a load's thread goes on. -/
theorem grantHeld_demands {s : State} {c i : Nat} {h : HeldMiss} (hh : (cell s c).held[i]? = some h) (hk : h.kind ≠ .atomic) {n : State} (hn : n = grantHeld s c i) :
    n = { s with threads := n.threads, cells := n.cells, mmio := n.mmio, out := n.out, pba := n.pba, msixDue := n.msixDue } ∧ (cell n c).held = (cell s c).held.eraseIdx i
      ∧ (cell n c).mshrs = (cell (demandLine (heldGone s c i) c h.line (asksIn h)) c).mshrs
      ∧ (∀ d, d ≠ c → cell n d = cell s d) ∧ (∀ u, u ≠ tidOf c h.load.thr.val → thread n u = thread s u)
      ∧ (thread n (tidOf c h.load.thr.val)).regs = (thread s (tidOf c h.load.thr.val)).regs
      ∧ (h.kind = .element → thread n (tidOf c h.load.thr.val) = thread s (tidOf c h.load.thr.val))
      ∧ (h.kind = .load → (thread n (tidOf c h.load.thr.val)).pc = (thread s (tidOf c h.load.thr.val)).pc + 4 ∧ (thread n (tidOf c h.load.thr.val)).st = .ready
          ∧ (h.load.rd ≠ 0 → (thread n (tidOf c h.load.thr.val)).busy = setBit (thread s (tidOf c h.load.thr.val)).busy h.load.rd.toNat true)) := by
  have hframe := demandLine_frame (heldGone s c i) c h.line (asksIn h)
  have hheld : (cell (demandLine (heldGone s c i) c h.line (asksIn h)) c).held = (cell s c).held.eraseIdx i := by rw [hframe.held, heldGone, cell_modCell_same]
  have hcells (d : Nat) (hd : d ≠ c) : cell (demandLine (heldGone s c i) c h.line (asksIn h)) d = cell s d := by rw [hframe.cells d hd, heldGone, cell_modCell, if_neg hd]
  have hthread (u : Tid) : thread (demandLine (heldGone s c i) c h.line (asksIn h)) u = thread s u := hframe.thread u
  have hrest := hframe.rest
  cases hkind : h.kind with
  | atomic => exact (hk hkind).elim
  | element =>
    rw [grantHeld_element hh hkind] at hn
    subst hn
    exact ⟨by rw [hrest]; rfl, hheld, rfl, hcells, fun u _ => hthread u, by rw [hthread], fun _ => hthread _, fun h => HeldKind.noConfusion h⟩
  | load =>
    have hcount := perfEvent_counterFrame (demandLine (heldGone s c i) c h.line (asksIn h)) c 0x02 (some (thrOf (tidOf c h.load.thr.val))) 1
    rw [grantHeld_load hh hkind] at hn
    generalize perfEvent (demandLine (heldGone s c i) c h.line (asksIn h)) c 0x02 (some (thrOf (tidOf c h.load.thr.val))) = s2 at hn hcount
    have hth : thread s2 (tidOf c h.load.thr.val) = thread s (tidOf c h.load.thr.val) := (hcount.thread _).trans (hthread _)
    subst hn
    refine ⟨?_, ?_, ?_, fun d hd => ?_, fun u hu => ?_, ?_, fun h => HeldKind.noConfusion h, fun _ => ⟨?_, ?_, fun h0 => ?_⟩⟩
    · rw [hcount.1, hrest]; rfl
    · rw [cell_modThread, hcount.cell, hheld]
    · rw [cell_modThread, hcount.cell]
    · rw [cell_modThread, hcount.cell, hcells d hd]
    · rw [thread_modThread, if_neg hu, hcount.thread, hthread]
    · rw [thread_modThread_same, hth]
    · rw [thread_modThread_same, hth]
    · rw [thread_modThread_same]
    · rw [thread_modThread_same, hth]; exact if_neg h0

/-- Settles O30, command by command. -/
theorem missesAndFills : Obligations.MissesAndFills := by
  unfold Obligations.MissesAndFills
  refine ⟨?_, ?_, ?_, ?_, ?_, ?_⟩
  · intro s c k m x s1 hm hs hclk htakes hdead hcross
    obtain ⟨hread, hhbm, hdata⟩ := servedLine s c.val m.line m.no hcross
    have hm' : (cell (stackServed s c.val m.line m.no) c.val).mshrs[k]? = some m := by rw [stackServed, (stackTaken_keeps s (corePart c.val) m.line m.no).cells]; exact hm
    have hexec := loadPerformed_miss hm hs hclk htakes
    rw [serveMiss_open hm' hs] at hexec
    obtain ⟨hcell, hcells, hthreads, hregs, hbytes⟩ := modCell_served hread c.val _
    exact ⟨_, _, hexec, hdata, hcell, hcells, hthreads, hhbm, hregs, hbytes⟩
  · intro s c j m x hm hs hh hclk htakes hdead hcross
    obtain ⟨hread, -, hdata⟩ := servedLine s c.val m.line m.no hcross
    have hm' : (cell (stackServed s c.val m.line m.no) c.val).slots[j]? = some m := by rw [stackServed, (stackTaken_keeps s (corePart c.val) m.line m.no).cells]; exact hm
    have hexec := loadPerformed_slot hm hs hh hclk htakes
    rw [serveSlot_open hm' hs] at hexec
    obtain ⟨hcell, hcells, hthreads, hregs, hbytes⟩ := modCell_served hread c.val _
    exact ⟨_, _, hexec, hdata, hcell, hcells, hthreads, hregs, hbytes⟩
  · intro s s2 c j l b x t hl hd hg hb hmem hclk hfirst hread hp hlate
    obtain rfl : (readLineFrom s (dieOfCore c.val) (l.pa / 128)).1 = b := by rw [hread]
    obtain ⟨n, hexec, hcell, harr, hcells, hbytes⟩ := loadPerformed_gives hl hd hg hb hmem hclk hfirst hp hlate
    exact ⟨n, hexec, hcell, harr.value, harr.others, harr.busy, harr.pc, harr.st, harr.threads, hcells, hbytes⟩
  · intro s c k m b l x t hm hs hl hpipes hb hways d hp hlate
    obtain ⟨n, hexec, hmshrs, harr, hcells, hbytes, hin, hout⟩ := cacheFill_gives hm hs hl hpipes hb hways hp hlate
    exact ⟨n, hexec, hmshrs, harr.value, harr.others, harr.busy, harr.pc, harr.st, harr.threads, hcells, hbytes, hin, hout⟩
  · intro s c before after h x hheld hbefore hgrant t asks
    obtain ⟨hexec, hh, herase⟩ := missRegisterGrant_grants hheld hbefore hgrant
    have hgone : cell (heldGone s c.val before.length) c.val = { x with held := before ++ after } := by rw [heldGone, cell_modCell_same, herase]
    have hno : nextNo (heldGone s c.val before.length) = nextNo s := nextNo_kept rfl
    refine ⟨_, hexec, fun hk => ?_, fun i hk hi => ?_⟩
    · obtain ⟨hrest, hheld', hmshrs, hcells, hthreads, hregs, helement, hload⟩ := grantHeld_demands hh hk rfl
      refine ⟨hrest, hheld'.trans herase, fun hnew => ?_, fun j m hm hline hfirst => ?_, hcells, hthreads, hregs, helement, hload⟩
      · rw [hmshrs, demandLine_takes (by rw [hgone]; exact hnew), hgone, hno]; rfl
      · rw [hmshrs, demandLine_merges (by rw [hgone]; exact hm) hline (by rw [hgone]; exact hfirst), hgone]; rfl
    · rw [grantHeld_atomic hh hk hi]
      dsimp only
      rw [heldGone, modCell, herase]
  · intro s t line st e y c x hst hclk hrun hshed htlb hr hns hu hp pa hhbm hnew hcopy hfree hbank
    exact ⟨_, prefetchIssue_takes hst hclk hrun hshed htlb hr hns hu hp rfl hhbm hnew hcopy hfree hbank, prefetched (List.mem_of_find?_eq_some hst) rfl⟩

end Sys2Proof.Machine
end

section
/-! PROOFS. The state after reset (R61, R214, R365, R412). -/

namespace Sys2Proof.Machine

open Sys2Proof.Safety

/-- A line that nothing has written since reset holds zeros, whatever its channel (R214). -/
theorem homeLine_reset_data (l : Nat) : (homeLine State.reset l).data = 0 := by
  have hstored : (storedLine State.reset l).data = 0 := by
    have hjunk : junkMask State.reset l = 0 := rfl
    have hmem : rdMem State.reset.ms.mem (lineBase l) 128 = 0 := rfl
    rw [storedLine, storedLineIf]
    split
    · rfl
    · simp only [hjunk, hmem, BitVec.ofNat_eq_ofNat, BitVec.xor_zero]
  have hcache : tget? State.reset.ms.rc l = none := rfl
  rw [homeLine, hcache, Option.getD_none, ite_self, hstored]

theorem byteAt_reset (a : Nat) : byteAt State.reset a = 0 := by
  rw [byteAt, homeLine_reset_data]
  exact BitVec.extractLsb'_zero

theorem reg_reset (r : RegName) (i : Nat) : reg State.reset r i = regReset r := rfl

/-- A cell's thread after reset: no task has been given to it (R61). -/
theorem thread_reset_cell {t : Tid} (h : t.val < 6144) : thread State.reset t = {} := if_pos h

theorem rx_reset_cell {t : Tid} (h : t.val < 6144) (r : Reg) : rx State.reset t r = 0 := by
  rw [rx, thread_reset_cell h]
  exact ite_self 0

/-- Settles O39. The reset state lists no word, byte or thread, so that each read gives what its table gives for an unlisted key. -/
theorem resetState : Obligations.ResetState := by
  unfold Obligations.ResetState
  refine ⟨rfl, ⟨rfl, fun _ _ => rfl⟩, ⟨rfl, rfl⟩, byteAt_reset, fun _ => rfl, reg_reset, fun t ht => ?_, ?_, ?_⟩
  · rw [thread_reset_cell ht]
    exact ⟨rfl, rfl, rx_reset_cell ht⟩
  · rw [rf, reg_reset]; decide
  · rw [rf, reg_reset]; decide

end Sys2Proof.Machine
end

section
/-! PROOFS. Instructions that change the level, and an illegal return (R32, R33, R63, R74). -/

namespace Sys2Proof.Machine

open Sys2Proof.Safety

variable {s u : State} {t : Tid}

/-! ## The issue of an instruction that changes the level -/

/-- An instruction that changes the level and waits for nothing does what it does after its issue. -/
theorem runLevel_runs {i : Instr} {rs : List Reg} {f : State → State} (hexec : exec i s = .next ((runLevel s t rs f).getD s))
    (hm : mayIssue s t false rs = true) (he : entryReady s t = true) (h : (thread (f (issued s t)) t).st = .ready) :
    exec i s = .next (f (issued s t)) := by
  rw [hexec, runLevel, hm, he, unlessWaits_ready h]
  rfl

theorem level_issued (s : State) (t : Tid) : (thread (issued s t) t).level = (thread s t).level := by rw [(issued_frame s t).2]

/-- An instruction that may issue leaves its thread ready by its issue. -/
theorem st_issued {young : Bool} {rs : List Reg} (hm : mayIssue s t young rs = true) : (thread (issued s t) t).st = .ready := by
  rw [(issued_frame s t).2]
  exact ready_of_mayIssue hm

theorem srPut_only (s : State) (t : Tid) (m : Nat) (v : Word) : threadOnly t s (srPut s t m v) := modThread_only s t _

theorem wx_only (s : State) (t : Tid) (r : Reg) (v : Word) : threadOnly t s (wx s t r v) := modThread_only s t _

theorem lookKeeps.bytes {c : Nat} {a b : State} (h : lookKeeps c a b) : bytesKept a b := by
  obtain ⟨-, -, -, -, hhome⟩ := h
  exact hhome.bytes

/-! ## An illegal return (R74) -/

/-- The cause word of an illegal return to level l. -/
theorem pack_illegalReturn {l : Nat} : pack [(0, 0x0B), (8, l)] = BitVec.ofNat 64 (0x0B + 256 * l) := by
  have h := pack_cause (code := 0x0B) (detail := l) (by decide)
  simpa [pack] using h

/-- What an illegal return leaves before the handler's address is read (R74): the cause, the value and FM of the current level. -/
theorem illegalEntry_changes (u : State) (t : Tid) (cur l : Nat) :
    threadOnly t u (illegalEntry u t cur l)
    ∧ thread (illegalEntry u t cur l) t = { thread u t with sr := (thread (illegalEntry u t cur l) t).sr }
    ∧ srAt (illegalEntry u t cur l) t (lvlReg cur 2) = BitVec.ofNat 64 (0x0B + 256 * l)
    ∧ srAt (illegalEntry u t cur l) t (lvlReg cur 3) = (thread u t).pc
    ∧ srAt (illegalEntry u t cur l) t (lvlReg cur 1) = setBits (srAt u t (lvlReg cur 1)) 4 4 1
    ∧ ∀ m, (∀ k, 1 ≤ k → k ≤ 3 → m ≠ lvlReg cur k) → srAt (illegalEntry u t cur l) t m = srAt u t m := by
  have n12 := lvlReg_ne cur (show 1 ≠ 2 by decide)
  have n13 := lvlReg_ne cur (show 1 ≠ 3 by decide)
  have n23 := lvlReg_ne cur (show 2 ≠ 3 by decide)
  refine ⟨?_, ?_, ?_, ?_, ?_, fun m hm => ?_⟩
  · exact ((srPut_only u t _ _).trans (srPut_only _ t _ _)).trans (srPut_only _ t _ _)
  · rw [illegalEntry, srPutF, thread_srPut, thread_srPut, thread_srPut]
  · rw [illegalEntry, srPutF, srAt_srPut_other _ _ n12.symm, srAt_srPut_other _ _ n23, srAt_srPut_same, pack_illegalReturn]
  · rw [illegalEntry, srPutF, srAt_srPut_other _ _ n13.symm, srAt_srPut_same]
  · rw [illegalEntry, srPutF, srAt_srPut_same, srAt_srPut_other _ _ n13, srAt_srPut_other _ _ n12]
  · rw [illegalEntry, srPutF, srAt_srPut_other _ _ (hm 1 (by decide) (by decide)), srAt_srPut_other _ _ (hm 3 (by decide) (by decide)),
      srAt_srPut_other _ _ (hm 2 (by decide) (by decide))]

/-- An illegal return whose handler can be read goes on there (R63, R74). -/
theorem illegalReturn_handler {l : Nat} {h : Word} (hh : handlerAt (illegalEntry u t (thread u t).level.toNat l) t (thread u t).level.toNat 0x0B h) :
    illegalReturn u t l
      = modThread (vectorRead (illegalEntry u t (thread u t).level.toNat l) t (thread u t).level.toNat 0x0B).2 t (fun th => { th with pc := h }) := by
  obtain ⟨-, hneeds, hread⟩ := id hh
  have hfree := asHeld_handler hh
  rw [illegalEntry] at hneeds hread hfree ⊢
  simp only [illegalReturn, hfree, hneeds, Bool.false_eq_true, if_false]
  generalize vectorRead _ t (thread u t).level.toNat 0x0B = r at hread ⊢
  obtain ⟨o, v⟩ := r
  subst hread
  rfl

/-- Between s and n thread t took an illegal return to level l and went on at h (R74): of its registers only XCAUSE, XVAL and FM of its level changed. -/
def tookIllegalReturn (s n : State) (t : Tid) (l : Nat) (h : Word) : Prop :=
  let cur := (thread s t).level.toNat
  srAt n t (lvlReg cur 2) = BitVec.ofNat 64 (0x0B + 256 * l) ∧ srAt n t (lvlReg cur 3) = (thread s t).pc
    ∧ (∀ j, j < 64 → bit (srAt n t (lvlReg cur 1)) j = (decide (j = 4) || bit (srAt s t (lvlReg cur 1)) j))
    ∧ (∀ m, (∀ k, 1 ≤ k → k ≤ 3 → m ≠ lvlReg cur k) → srAt n t m = srAt s t m)
    ∧ (∀ r, rx n t r = rx s t r) ∧ (thread n t).level = (thread s t).level ∧ (thread n t).pc = h

/-- It speaks of the thread's registers, level and pc alone. -/
theorem tookIllegalReturn.congr {n : State} {l : Nat} {h : Word} (k : tookIllegalReturn u n t l h)
    (hsr : (thread u t).sr = (thread s t).sr) (hregs : (thread u t).regs = (thread s t).regs) (hlevel : (thread u t).level = (thread s t).level)
    (hpc : (thread u t).pc = (thread s t).pc) : tookIllegalReturn s n t l h := by
  simpa only [tookIllegalReturn, srAt, rx, xget, hsr, hregs, hlevel, hpc] using k

/-- What an illegal return does where its cell holds no open store: the reads of the vector change no byte of memory and no other thread. -/
theorem illegalReturn_takes {l : Nat} {h : Word} (hwb : (cell u (cellOf t)).wb = [])
    (hh : handlerAt (illegalEntry u t (thread u t).level.toNat l) t (thread u t).level.toNat 0x0B h) :
    tookIllegalReturn u (illegalReturn u t l) t l h ∧ (thread (illegalReturn u t l) t).st = (thread u t).st
      ∧ bytesKept u (illegalReturn u t l) ∧ ∀ x, x ≠ t → thread (illegalReturn u t l) x = thread u x := by
  rw [illegalReturn_handler hh]
  set cur := (thread u t).level.toNat with hcur
  obtain ⟨honly, hthread, hcause, hval, hstatus, hother⟩ := illegalEntry_changes u t cur l
  set e := illegalEntry u t cur l
  have hlook : lookKeeps (cellOf t) e (vectorRead e t cur 0x0B).2 := vectorRead_looks hh (by rw [honly.cell]; exact hwb)
  set v := (vectorRead e t cur 0x0B).2
  set n := modThread v t (fun th => { th with pc := h }) with hn
  have hnt : thread n t = { thread e t with pc := h } := by rw [hn, thread_modThread_same, hlook.thread]
  have hsr (m : Nat) : srAt n t m = srAt e t m := srAt_congr (by rw [hnt]) m
  refine ⟨⟨by rw [hsr, hcause], by rw [hsr, hval], fun j _ => ?_, fun m hm => by rw [hsr, hother m hm], fun r => ?_, ?_, by rw [hnt]⟩, ?_, ?_, fun x hx => ?_⟩
  · rw [hsr, hstatus, bit, getLsbD_setBits _ _ (by decide) (by decide)]
    by_cases hj : j = 4
    · subst hj; rfl
    · rw [if_neg (by omega), decide_eq_false hj, Bool.false_or]; rfl
  · rw [rx, hnt, hthread]; rfl
  · rw [hnt, hthread]
  · rw [hnt, hthread]
  · exact bytesKept.trans (bytesKept.trans honly.bytes hlook.bytes) (modThread_only v t _).bytes
  · rw [hn, thread_modThread, if_neg hx, hlook.thread, honly.2 x hx]

end Sys2Proof.Machine
end

section
/-! PROOFS. The returns from an entry and from a gate (R74, R75). -/

namespace Sys2Proof.Machine

open Sys2Proof.Safety

variable {s : State} {t : Tid}

/-! ## `xret` (R74) -/

theorem exec_xret (s : State) (t : Tid) : exec (.xret t) s = .next ((runLevel s t [2] (fun s => doXret s t)).getD s) := rfl

/-- The status word that a return leaves: IML and FM as the entry stacked them. -/
def returnStatus (st : Word) : Word := setBits (setBits st 3 0 (bits st 11 8)) 4 4 (bits st 12 12)

theorem returnStatus_fields (st : Word) :
    bits (returnStatus st) 3 0 = bits st 11 8 ∧ bits (returnStatus st) 4 4 = bits st 12 12 ∧ bits (returnStatus st) 63 5 = bits st 63 5 := by
  refine ⟨?_, ?_, ?_⟩
  · rw [returnStatus, bits_setBits_other _ _ (by decide) (by decide) (by decide), bits_setBits_same _ _ (by decide) (by decide)]
    exact Nat.mod_mod _ _
  · rw [returnStatus, bits_setBits_same _ _ (by decide) (by decide)]
    exact Nat.mod_mod _ _
  · rw [returnStatus, bits_setBits_other _ _ (by decide) (by decide) (by decide), bits_setBits_other _ _ (by decide) (by decide) (by decide)]

/-- The state that a legal `xret` leaves. -/
def returned (s : State) (t : Tid) : State :=
  let cur := (thread s t).level.toNat
  let st := srAt s t (lvlReg cur 1)
  let s1 := srPut s t (lvlReg cur 1) (returnStatus st)
  modThread (wx (srPut s1 t (lvlReg cur 5) (rx s1 t 2)) t 2 (srAt s1 t (lvlReg cur 5))) t
    (fun th => { th with level := BitVec.ofNat 2 (bits st 14 13), pc := srAt s t (lvlReg cur 0) })

theorem doXret_legal (h : bits (srAt s t (lvlReg (thread s t).level.toNat 1)) 14 13 ≤ (thread s t).level.toNat)
    (hceil : bits (srAt s t (lvlReg (thread s t).level.toNat 1)) 14 13 ≤ bits (srAt s t 0x800) 1 0) : doXret s t = returned s t :=
  if_neg (by omega)

theorem doXret_illegal (h : (thread s t).level.toNat < bits (srAt s t (lvlReg (thread s t).level.toNat 1)) 14 13
    ∨ bits (srAt s t 0x800) 1 0 < bits (srAt s t (lvlReg (thread s t).level.toNat 1)) 14 13) :
    doXret s t = illegalReturn s t (bits (srAt s t (lvlReg (thread s t).level.toNat 1)) 14 13) :=
  if_pos h

/-- A register written and then the level and the pc. -/
theorem thread_wx_level (s : State) (t : Tid) (r : Reg) (v pc : Word) (l : BitVec 2) :
    thread (modThread (wx s t r v) t (fun th => { th with level := l, pc := pc })) t = { xset (thread s t) r v with level := l, pc := pc } := by
  rw [thread_modThread_same, wx, thread_modThread_same]

/-- What a legal `xret` changes of its thread. -/
theorem returned_changes (s : State) (t : Tid) :
    let cur := (thread s t).level.toNat
    let n := returned s t
    threadOnly t s n
    ∧ thread n t = { thread s t with level := BitVec.ofNat 2 (bits (srAt s t (lvlReg cur 1)) 14 13), pc := srAt s t (lvlReg cur 0),
                                     regs := (thread n t).regs, sr := (thread n t).sr }
    ∧ srAt n t (lvlReg cur 1) = returnStatus (srAt s t (lvlReg cur 1)) ∧ srAt n t (lvlReg cur 5) = rx s t 2
    ∧ (∀ m, m ≠ lvlReg cur 1 → m ≠ lvlReg cur 5 → srAt n t m = srAt s t m)
    ∧ rx n t 2 = srAt s t (lvlReg cur 5) ∧ ∀ r, r ≠ 2 → rx n t r = rx s t r := by
  intro cur n
  have n15 := lvlReg_ne cur (show 1 ≠ 5 by decide)
  set s1 := srPut s t (lvlReg cur 1) (returnStatus (srAt s t (lvlReg cur 1))) with hs1
  set s2 := srPut s1 t (lvlReg cur 5) (rx s1 t 2) with hs2
  have hsp : srAt s1 t (lvlReg cur 5) = srAt s t (lvlReg cur 5) := srAt_srPut_other s t n15.symm _
  have hnt : thread n t = { xset (thread s2 t) 2 (srAt s t (lvlReg cur 5)) with
      level := BitVec.ofNat 2 (bits (srAt s t (lvlReg cur 1)) 14 13), pc := srAt s t (lvlReg cur 0) } := by
    rw [← hsp]; exact thread_wx_level s2 t 2 _ _ _
  have hsr (m : Nat) : srAt n t m = srAt s2 t m := srAt_congr (by rw [hnt]; exact xset_sr ..) m
  have hrx (r : Reg) : rx n t r = if r = 2 then srAt s t (lvlReg cur 5) else rx s t r := by
    have hold : rx s2 t r = rx s t r := by rw [hs2, rx_srPut, hs1, rx_srPut]
    have hget := xget_xset (thread s2 t) 2 r (srAt s t (lvlReg cur 5))
    rw [rx, hnt]
    refine Eq.trans hget ?_
    rw [← hold, rx]
    simp
  refine ⟨?_, ?_, ?_, ?_, fun m h1 h5 => ?_, by rw [hrx, if_pos rfl], fun r hr => by rw [hrx, if_neg hr]⟩
  · show threadOnly t s (returned s t)
    rw [returned]
    exact (((srPut_only s t _ _).trans (srPut_only _ t _ _)).trans (wx_only _ t _ _)).trans (modThread_only _ t _)
  · rw [hnt, xset_rest, hs2, thread_srPut, hs1, thread_srPut]
  · rw [hsr, hs2, srAt_srPut_other _ _ n15, hs1, srAt_srPut_same]
  · rw [hsr, hs2, srAt_srPut_same, hs1, rx_srPut]
  · rw [hsr, hs2, srAt_srPut_other _ _ h5, hs1, srAt_srPut_other _ _ h1]

/-- Settles O11. A legal `xret` acts on the issued thread as `returned` says; an illegal one as `illegalReturn` does. -/
theorem returnFromAnEntry : Obligations.ReturnFromAnEntry := by
  unfold Obligations.ReturnFromAnEntry
  intro s t hm he _ cur st l ceil
  have hlevel := level_issued s t
  refine ⟨fun hl hceil => ⟨returned (issued s t) t, ?_, ?_⟩, fun hbad hq h hh => ?_⟩
  · obtain ⟨-, hthread, -⟩ := returned_changes (issued s t) t
    have hdo : doXret (issued s t) t = returned (issued s t) t := doXret_legal (by rw [hlevel, srAt_issued]; exact hl) (by rw [hlevel, srAt_issued, srAt_issued]; exact hceil)
    rw [← hdo]
    refine runLevel_runs (exec_xret s t) hm he ?_
    rw [hdo, hthread]
    exact st_issued hm
  · have hchanges := returned_changes (issued s t) t
    simp only [hlevel, srAt_issued, rx_issued] at hchanges
    obtain ⟨honly, hthread, hstatus, hsp, hother, hs2, hregs⟩ := hchanges
    refine ⟨by rw [hthread], by rw [hthread], ?_, hs2, hsp, hregs, hother, privFrame_of_threadOnly honly ?_⟩
    · rw [hstatus]; exact returnStatus_fields st
    · rw [hthread]
  · have hdo : doXret (issued s t) t = illegalReturn (issued s t) t l := by
      have := doXret_illegal (s := issued s t) (t := t) (by rw [hlevel, srAt_issued, srAt_issued]; exact hbad)
      rwa [hlevel, srAt_issued] at this
    obtain ⟨htook, hst, hbytes, hthreads⟩ := illegalReturn_takes (l := l) (h := h) ((issued_wb s t).trans hq.1) (by rw [hlevel]; exact hh)
    obtain ⟨⟨-, fthreads, -, -, fbytes⟩, hown⟩ := issued_frame s t
    obtain ⟨hcause, hval, hfm, hother, hregs, hlvl, hpc⟩ := htook.congr (s := s) (by rw [hown]) (by rw [hown]) (by rw [hown]) (by rw [hown])
    refine ⟨_, ?_, hcause, hval, hfm, hother, hregs, hlvl, hpc, bytesKept.trans fbytes hbytes, fun u hu => ?_⟩
    · rw [← hdo]
      refine runLevel_runs (exec_xret s t) hm he ?_
      rw [hdo, hst]
      exact st_issued hm
    · rw [hthreads u hu]; exact fthreads u hu

end Sys2Proof.Machine
end

section
/-! PROOFS. The return from a gate (R75). -/

namespace Sys2Proof.Machine

open Sys2Proof.Safety

variable {s s1 : State} {t : Tid} {pc s2 info : Word}

theorem exec_xretG (s : State) (t : Tid) : exec (.xretG t) s = .next ((runLevel s t [2] (fun s => doXretG s t)).getD s) := rfl

/-- The frame's three words can be read now with the permissions of the thread's level (R18, R300). -/
def frameReads (s : State) (t : Tid) : Prop :=
  ∀ i, i < 3 → asHeld s t (thread s t).level (rx s t 2 + BitVec.ofNat 64 (8 * i)) = false
    ∧ readAsNeeds s t (thread s t).level (rx s t 2 + BitVec.ofNat 64 (8 * i)) 8 = []

/-- `xret.g` acts on the three words that it reads: INFO's level decides whether the return is legal. -/
theorem doXretG_read (hf : frameReads s t) (hread : readWordsAs t (thread s t).level 3 (rx s t 2) s = (.ok [pc, s2, info], s1)) :
    doXretG s t = if (thread s t).level.toNat < bits info 1 0 ∨ bits (srAt s1 t 0x800) 1 0 < bits info 1 0 then illegalReturn s1 t (bits info 1 0)
      else modThread (wx s1 t 2 s2) t (fun th => { th with level := BitVec.ofNat 2 (bits info 1 0), pc := pc }) := by
  have hheld : (List.range 3).any (fun i => asHeld s t (thread s t).level (rx s t 2 + wd (8 * i))) = false := by
    rw [List.any_eq_false]
    intro i hi
    rw [wd, (hf i (List.mem_range.1 hi)).1]
    decide
  have hneeds : (List.range 3).flatMap (fun i => readAsNeeds s t (thread s t).level (rx s t 2 + wd (8 * i)) 8) = [] :=
    List.flatMap_eq_nil_iff.2 (fun i hi => (hf i (List.mem_range.1 hi)).2)
  simp only [doXretG, hheld, hneeds, hread, Bool.false_eq_true, if_false]
  rfl

/-- What a legal `xret.g` changes of its thread. -/
theorem wx_level_changes (s : State) (t : Tid) (v pc : Word) (l : BitVec 2) :
    let n := modThread (wx s t 2 v) t (fun th => { th with level := l, pc := pc })
    threadOnly t s n ∧ thread n t = { thread s t with level := l, pc := pc, regs := (thread n t).regs }
      ∧ rx n t 2 = v ∧ ∀ r, r ≠ 2 → rx n t r = rx s t r := by
  intro n
  have hnt : thread n t = { xset (thread s t) 2 v with level := l, pc := pc } := thread_wx_level s t 2 v pc l
  have hrx (r : Reg) : rx n t r = if r = 2 then v else rx s t r := by
    rw [rx, hnt]
    refine Eq.trans (xget_xset (thread s t) 2 r v) ?_
    simp [rx]
  exact ⟨(wx_only s t 2 v).trans (modThread_only _ t _), by rw [hnt, xset_rest], by rw [hrx, if_pos rfl], fun r hr => by rw [hrx, if_neg hr]⟩

/-- Settles O12. The frame's words are read from the issued state; the reads leave s1, from which the thread returns or takes its illegal return. -/
theorem returnFromAGate : Obligations.ReturnFromAGate := by
  unfold Obligations.ReturnFromAGate
  intro s s1 t pc s2 info hm _ hq hf hread l
  have he : entryReady s t = true := entryReady_quiet hq (oldestUnresolved_of_mayIssue hm)
  have hlevel := level_issued s t
  have hframe : frameReads (issued s t) t := fun i hi => by rw [hlevel, rx_issued]; exact hf i hi
  have hdo := doXretG_read hframe (by rw [hlevel, rx_issued]; exact hread)
  obtain ⟨-, hown⟩ := issued_frame s t
  have hsr1 (hthread : thread s1 t = thread (issued s t) t) : srAt s1 t 0x800 = srAt s t 0x800 := srAt_congr (by rw [hthread, hown]) _
  refine ⟨fun hthread hl hceil => ?_, fun hthread hq1 hbad h hh => ?_⟩
  · rw [if_neg (by rw [hlevel, hsr1 hthread]; omega)] at hdo
    obtain ⟨honly, hn, hs2, hregs⟩ := wx_level_changes s1 t s2 pc (BitVec.ofNat 2 l)
    refine ⟨_, ?_, hs2, fun r hr => ?_, ?_, honly.1, honly.2⟩
    · rw [← hdo]
      refine runLevel_runs (exec_xretG s t) hm he ?_
      rw [hdo, hn, hthread]
      exact st_issued hm
    · rw [hregs r hr, rx, hthread, ← rx, rx_issued]
    · rw [hn, hthread, hown]
  · have hlevel1 : (thread s1 t).level = (thread s t).level := by rw [hthread, hlevel]
    rw [if_pos (by rw [hlevel, hsr1 hthread]; exact hbad)] at hdo
    obtain ⟨htook, hst, hbytes, hthreads⟩ := illegalReturn_takes (l := l) (h := h) hq1.1 (by rw [hlevel1]; exact hh)
    obtain ⟨hcause, hval, hfm, hother, hregs, hlvl, hpc⟩ := htook.congr (s := s) (by rw [hthread, hown]) (by rw [hthread, hown]) hlevel1 (by rw [hthread, hown])
    refine ⟨_, ?_, hcause, hval, hfm, hother, hregs, hlvl, hpc, hbytes, hthreads⟩
    rw [← hdo]
    refine runLevel_runs (exec_xretG s t) hm he ?_
    rw [hdo, hst, hthread]
    exact st_issued hm

end Sys2Proof.Machine
end

section
/-! PROOFS. The checks of a gate (R72, R73). -/

namespace Sys2Proof.Machine

open Sys2Proof.Safety

variable {s u s1 s2 s3 n : State} {t : Tid} {d : List Byte} {pa : Nat}

/-! ## Translations and arguments -/

/-- A translation that waits for no home has all its lines open (R18, R23, R246, R255). -/
theorem shutLines_nil {c : Nat} {x : XCtx} {va : Word} {k : Access} (h : xlatHeld s c x va k = false) :
    (xlatNeeds s c x va k).filter (fun l => !lineOpen s c l) = [] := by
  have hall : ∀ l ∈ xlatNeeds s c x va k, lineOpen s c l = true := by
    rw [← List.all_eq_true]
    simpa only [xlatHeld, Bool.not_eq_false'] using h
  exact List.filter_eq_nil_iff.2 (fun l hl => by rw [hall l hl]; decide)

/-- A range that passes has been translated page by page, and nothing else. -/
theorem checkRange_keeps {det : Nat} {k : Access} {x : XCtx} (fuel a hi : Nat) (s : State) (h : checkRange t det k x fuel a hi s = .pass n) :
    walkKeeps (cellOf t) s n := by
  induction fuel generalizing a s with
  | zero =>
    cases h
    exact .refl _ _
  | succ fuel ih =>
    rw [checkRange] at h
    split at h
    · cases h
      exact .refl _ _
    · split at h
      · cases h
      · split at h
        · cases h
        · split at h
          next s' hx => exact (walkKeeps_of_translate hx).trans (ih _ s' h)
          next => cases h

theorem checkArg_keeps {w2 : Word} {k : Nat} (h : checkArg s t w2 k = .pass n) : walkKeeps (cellOf t) s n := by
  simp only [checkArg] at h
  split at h
  · cases h
    exact .refl _ _
  · split at h
    · cases h
    · exact checkRange_keeps _ _ _ s h

theorem checkArgs_keeps {w2 : Word} (ks : List Nat) (s : State) (h : checkArgs t w2 ks s = .pass n) : walkKeeps (cellOf t) s n := by
  induction ks generalizing s with
  | nil =>
    cases h
    exact .refl _ _
  | cons k ks ih =>
    rw [checkArgs] at h
    split at h
    next s' hk => exact (checkArg_keeps hk).trans (ih s' h)
    next o hno => exact absurd h (hno n)

/-! ## The descriptor -/

/-- Word i of a gate's descriptor (R72). -/
def descWord (d : List Byte) (i : Nat) : Word := BitVec.ofNat 64 (ofLE ((d.drop (8 * i)).take 8))

/-- The address of descriptor k in the table that g names (R72). -/
def descAddr (g : Word) (k : Nat) : Word := BitVec.ofNat 64 (bits g 47 12 * 4096) + BitVec.ofNat 64 (32 * k)

/-- The level whose permissions the descriptor is read with (R73). -/
def descLevel (s : State) (t : Tid) : BitVec 2 := if (thread s t).level = 2 then 2 else 1

/-- Descriptor k can be read now and is d; the read leaves s1 (R73). -/
def gateReads (s s1 : State) (t : Tid) (k : Nat) (d : List Byte) : Prop :=
  k < bits (srAt s t 0x401) 11 0
  ∧ asHeld s t (descLevel s t) (descAddr (srAt s t 0x401) k) = false
  ∧ readAsNeeds s t (descLevel s t) (descAddr (srAt s t 0x401) k) 32 = []
  ∧ readAs s t (descLevel s t) (descAddr (srAt s t 0x401) k) 32 = (.ok d, s1)

/-- A descriptor is well formed and lets level lvl go to a level that exists, is not below it and not above the ceiling (R73). -/
def gateAllows (d : List Byte) (lvl ceil : Nat) : Prop :=
  gateMalformed (descWord d 0) (descWord d 1) (descWord d 2) = false ∧ bit (descWord d 2) (4 + lvl) = true
  ∧ bits (descWord d 2) 1 0 ≠ 3 ∧ lvl ≤ bits (descWord d 2) 1 0 ∧ bits (descWord d 2) 1 0 ≤ ceil

/-- A gate whose descriptor and arguments pass enters its target (R73). -/
theorem doGate_passes {k : Nat} (hread : gateReads u s1 t k d) (hok : gateAllows d (thread u t).level.toNat (bits (srAt s1 t 0x800) 1 0))
    (hargs : checkArgs t (descWord d 2) (List.range 6) s1 = .pass s2) :
    doGate u t k = gateEnter s2 t k (descWord d 0) (descWord d 1) (descWord d 2) := by
  obtain ⟨hk, hheld, hneeds, hbytes⟩ := hread
  obtain ⟨hform, hcall, hlevel, hup, hceil⟩ := hok
  have haddr : wd (bits (srAt u t 0x401) 47 12 <<< 12) + wd (32 * k) = descAddr (srAt u t 0x401) k := by
    rw [Nat.shiftLeft_eq]; rfl
  have hword (i : Nat) : wd (ofLE ((d.drop (8 * i)).take 8)) = descWord d i := rfl
  have hlv : (if (thread u t).level = 2 then 2 else 1 : BitVec 2) = descLevel u t := rfl
  have htarget : (decide (bits (descWord d 2) 1 0 = 3) || decide (bits (descWord d 2) 1 0 < (thread u t).level.toNat)
      || decide (bits (srAt s1 t 0x800) 1 0 < bits (descWord d 2) 1 0)) = false := by
    simp only [Bool.or_eq_false_iff, decide_eq_false_iff_not]
    omega
  simp only [doGate, if_neg (not_le.2 hk), haddr, hlv, hheld, hneeds, hbytes, hword, hform, hcall, htarget, hargs, Bool.not_true, Bool.false_eq_true, if_false]

end Sys2Proof.Machine
end

section
/-! PROOFS. The entry of a gate's target: the frame and the registers that it leaves (R73). -/

namespace Sys2Proof.Machine

open Sys2Proof.Safety

variable {s s2 s3 : State} {t : Tid} {pa : Nat} {w0 w1 w2 f : Word}

/-! ## The argument registers -/

/-- The argument registers coded "none" cleared (R73). -/
def noneCleared (w2 : Word) (t : Tid) (ks : List Nat) (s : State) : State :=
  ks.foldl (fun s k => if argChk w2 k = 0 then wx s t (BitVec.ofNat 5 (10 + k)) 0 else s) s

/-- A register cleared. -/
theorem rx_wx_zero (s : State) (t : Tid) (q r : Reg) : rx (wx s t q 0) t r = if r = q then 0 else rx s t r := by
  rw [rx, wx, thread_modThread_same]
  refine Eq.trans (xget_xset (thread s t) q r 0) ?_
  by_cases hq : r = q
  · subst hq
    by_cases h0 : r = 0
    · subst h0; rfl
    · rw [if_pos ⟨rfl, h0⟩, if_pos rfl]
  · rw [if_neg (fun h => hq h.1), if_neg hq]; rfl

theorem thread_wx (s : State) (t : Tid) (r : Reg) (v : Word) : thread (wx s t r v) t = { thread s t with regs := (thread (wx s t r v) t).regs } := by
  rw [wx, thread_modThread_same, xset_rest]

/-- What the clearing changes. -/
theorem noneCleared_changes (w2 : Word) (t : Tid) (ks : List Nat) (s : State) :
    let n := noneCleared w2 t ks s
    threadOnly t s n ∧ thread n t = { thread s t with regs := (thread n t).regs }
      ∧ ∀ r, rx n t r = if ∃ k ∈ ks, argChk w2 k = 0 ∧ r = BitVec.ofNat 5 (10 + k) then 0 else rx s t r := by
  induction ks generalizing s with
  | nil => exact ⟨.refl t s, rfl, fun r => by simp [noneCleared]⟩
  | cons k ks ih =>
    by_cases hk : argChk w2 k = 0
    · have hstep : noneCleared w2 t (k :: ks) s = noneCleared w2 t ks (wx s t (BitVec.ofNat 5 (10 + k)) 0) := by
        rw [noneCleared, List.foldl_cons, if_pos hk]; rfl
      obtain ⟨honly, hthread, hrx⟩ := ih (wx s t (BitVec.ofNat 5 (10 + k)) 0)
      rw [hstep]
      refine ⟨(wx_only s t _ 0).trans honly, by rw [hthread, thread_wx], fun r => ?_⟩
      rw [hrx, rx_wx_zero]
      by_cases hr : r = BitVec.ofNat 5 (10 + k)
      · simp [hr, hk]
      · simp [hr]
    · have hstep : noneCleared w2 t (k :: ks) s = noneCleared w2 t ks s := by
        rw [noneCleared, List.foldl_cons, if_neg hk]; rfl
      rw [hstep]
      simpa only [List.exists_mem_cons_iff, hk, false_and, false_or] using ih s

/-- The registers that a gate's six codes clear, by number (R72). -/
theorem clears_iff (w2 : Word) (r : Reg) :
    (∃ k ∈ List.range 6, argChk w2 k = 0 ∧ r = BitVec.ofNat 5 (10 + k))
      ↔ 10 ≤ r.toNat ∧ r.toNat ≤ 15 ∧ bits w2 (9 + 2 * (r.toNat - 10)) (8 + 2 * (r.toNat - 10)) = 0 := by
  constructor
  · rintro ⟨k, hk, hcode, rfl⟩
    have hk6 := List.mem_range.1 hk
    have hr : (BitVec.ofNat 5 (10 + k)).toNat = 10 + k := by rw [BitVec.toNat_ofNat]; omega
    rw [hr, Nat.add_sub_cancel_left]
    exact ⟨by omega, by omega, hcode⟩
  · rintro ⟨hlo, hhi, hcode⟩
    refine ⟨r.toNat - 10, List.mem_range.2 (by omega), hcode, ?_⟩
    rw [Nat.add_sub_cancel' hlo, BitVec.ofNat_toNat, BitVec.setWidth_eq]

/-! ## The frame -/

/-- A byte of a word among its eight. -/
theorem leBytes_word (x : Word) {b : Nat} (h : b < 8) : (leBytes x.toNat 8).getD b 0 = x.extractLsb' (8 * b) 8 := by
  ext j hj
  rw [← BitVec.getLsbD_eq_getElem, testBit_leBytes _ _ _ _ hj, BitVec.getElem_extractLsb', decide_eq_true h, Bool.true_and, BitVec.getLsbD]

theorem gateFrame_length (pc sp : Word) (lvl k : Nat) : (gateFrame pc sp lvl k).length = 64 := by
  simp only [gateFrame, List.length_append, leBytes_length, List.length_replicate]

/-- The frame's INFO: the caller's level and the gate's number (R73). -/
theorem gateInfo {lvl k : Nat} (hl : lvl < 4) (hk : k < 4096) : lvl ||| k <<< 2 = (BitVec.ofNat 64 (lvl + 4 * k)).toNat := by
  rw [Nat.or_comm, ← Nat.shiftLeft_add_eq_or_of_lt (show lvl < 2 ^ 2 from hl), Nat.shiftLeft_eq, BitVec.toNat_ofNat]
  omega

/-- The frame's bytes: RET_PC, CALLER_S2, INFO, zeros (R73). -/
theorem gateFrame_getD (pc sp : Word) {lvl k b : Nat} (hl : lvl < 4) (hk : k < 4096) :
    (gateFrame pc sp lvl k).getD b 0 =
      if b < 8 then (pc + 4).extractLsb' (8 * b) 8 else if b < 16 then sp.extractLsb' (8 * (b - 8)) 8
      else if b < 24 then (BitVec.ofNat 64 (lvl + 4 * k)).extractLsb' (8 * (b - 16)) 8 else 0 := by
  have hlen (x : Nat) : (leBytes x 8).length = 8 := leBytes_length x 8
  simp only [gateFrame, gateInfo hl hk, List.append_assoc]
  by_cases h8 : b < 8
  · rw [if_pos h8, List.getD_append _ _ _ _ (by rw [hlen]; exact h8), leBytes_word _ h8]
  rw [if_neg h8, List.getD_append_right _ _ _ _ (by rw [hlen]; omega), hlen]
  by_cases h16 : b < 16
  · rw [if_pos h16, List.getD_append _ _ _ _ (by rw [hlen]; omega), leBytes_word _ (by omega)]
  rw [if_neg h16, List.getD_append_right _ _ _ _ (by rw [hlen]; omega), hlen]
  by_cases h24 : b < 24
  · rw [if_pos h24, List.getD_append _ _ _ _ (by rw [hlen]; omega), leBytes_word _ (by omega), show b - 8 - 8 = b - 16 by omega]
  · rw [if_neg h24, List.getD_append_right _ _ _ _ (by rw [hlen]; omega)]
    rw [List.getD_eq_getElem?_getD, List.getElem?_replicate]
    split <;> rfl

/-- A store of 64 aligned bytes into an empty write buffer: the one entry, and what it leaves alone (R224, R225). -/
theorem cellStore_alone {c thr : Nat} {bs : List Byte} (hpa : pa < 0xF000000000) (hline : pa % 128 + bs.length ≤ 128) (hwb : (cell s c).wb = []) :
    cellKeeps c s (cellStore s c thr pa bs)
      ∧ (cell (cellStore s c thr pa bs) c).wb = [grownEntry { line := pa / 128, data := 0, mask := 0, owner := Fin.ofNat 8 thr } (pa % 128) bs] := by
  have hkeep := l1Store_keeps s c (pa / 128) (pa % 128) bs
  have hempty : (cell (l1Store s c (pa / 128) (pa % 128) bs) c).wb = [] := hkeep.wb.trans hwb
  rw [cellStore_hbm hpa hline, wbPut_appends (by rw [storeMerges, hempty]; rfl) (by rw [hempty]; decide), hempty]
  exact ⟨hkeep.cell.trans (modCell_cellKeeps _ c _ rfl), by rw [cell_modCell_same]; rfl⟩

theorem cellKeeps.bytes {c : Nat} {a b : State} (h : cellKeeps c a b) : bytesKept a b :=
  (sameHome_of_regs (by rw [h.1]) h.2.2.2 (by decide) (by decide)).bytes

/-! ## The entry -/

/-- The address of the frame (R73): below the descriptor's base where the level rises, else below the caller's stack pointer. -/
def frameAddr (lvl : Nat) (sp w1 w2 : Word) : Word :=
  if lvl < bits w2 1 0 then BitVec.ofNat 64 (bits w1 47 6 * 64) - 64 else (sp - 64) &&& ~~~63#64

/-- The state that a gate's last two steps leave: the frame stored, the registers coded "none" cleared, s2, the level and the pc (R73). -/
def gateEntered (s : State) (t : Tid) (pa k : Nat) (w0 w2 f : Word) : State :=
  let s1 := cellStore s (cellOf t) (thrOf t) pa (gateFrame (thread s t).pc (rx s t 2) (thread s t).level.toNat k)
  modThread (wx (noneCleared w2 t (List.range 6) s1) t 2 f) t (fun th => { th with level := BitVec.ofNat 2 (bits w2 1 0), pc := BitVec.ofNat 64 (bits w0 47 2 * 4) })

/-- A gate whose frame can be stored enters its target. -/
theorem gateEnter_enters {k : Nat} (hf : frameAddr (thread s2 t).level.toNat (rx s2 t 2) w1 w2 = f)
    (hheld : xlatHeld s2 (cellOf t) (ctxAt s2 t (BitVec.ofNat 2 (bits w2 1 0))) f .store = false)
    (hx : translate s2 (cellOf t) (ctxAt s2 t (BitVec.ofNat 2 (bits w2 1 0))) f .store = (.ok pa, s3)) (hpa : pa < 0xF000000000)
    (hspec : (thread s2 t).spec = none ∨ bits w2 1 0 ≠ 2) (hwb : (cell s3 (cellOf t)).wb = []) :
    gateEnter s2 t k w0 w1 w2 = gateEntered s3 t pa k w0 w2 f := by
  have ht : thread s3 t = thread s2 t := (walkKeeps_of_translate hx).thread t
  have haddr : (if (thread s2 t).level.toNat < bits w2 1 0 then wd (bits w1 47 6 <<< 6) - 64 else (rx s2 t 2 - 64) &&& ~~~63#64) = f := by
    rw [← hf, frameAddr, Nat.shiftLeft_eq]; rfl
  have hfree : irrevocableAt s3 t (BitVec.ofNat 2 (bits w2 1 0)) pa true = false := by
    rw [irrevocableAt, physAt_hbm s3 hpa, ht]
    rcases hspec with h | h
    · rw [h]; rfl
    · have htl : bits w2 1 0 < 4 := Nat.mod_lt _ (by decide)
      have : BitVec.ofNat 2 (bits w2 1 0) ≠ 2 := fun he => h (by
        have := congrArg BitVec.toNat he
        rw [BitVec.toNat_ofNat, Nat.mod_eq_of_lt htl] at this
        exact this)
      rw [decide_eq_false this, Bool.and_false, Bool.and_false]
  have hroom : storeRoom (cell s3 (cellOf t)) (thrOf t) (pa / 128) (isDevice s3 pa) = true := by rw [storeRoom, hwb]; rfl
  simp only [gateEnter, haddr, shutLines_nil hheld, hx, hfree, hroom, Bool.not_true, Bool.false_eq_true, if_false]
  rw [gateEntered, ht, Nat.shiftLeft_eq]
  rfl

/-- What a gate's entry changes of its thread and its cell, and what it leaves of memory. -/
theorem gateEntered_changes {k : Nat} (hpa : pa < 0xF000000000) (hplace : pa % 64 = 0) (hwb : (cell s (cellOf t)).wb = []) :
    let n := gateEntered s t pa k w0 w2 f
    thread n t = { thread s t with level := BitVec.ofNat 2 (bits w2 1 0), pc := BitVec.ofNat 64 (bits w0 47 2 * 4), regs := (thread n t).regs }
      ∧ rx n t 2 = f
      ∧ (∀ r, r ≠ 2 → rx n t r = if 10 ≤ r.toNat ∧ r.toNat ≤ 15 ∧ bits w2 (9 + 2 * (r.toNat - 10)) (8 + 2 * (r.toNat - 10)) = 0 then 0 else rx s t r)
      ∧ (cell n (cellOf t)).wb = [grownEntry { line := pa / 128, data := 0, mask := 0, owner := Fin.ofNat 8 (thrOf t) } (pa % 128)
          (gateFrame (thread s t).pc (rx s t 2) (thread s t).level.toNat k)]
      ∧ bytesKept s n := by
  intro n
  set bs := gateFrame (thread s t).pc (rx s t 2) (thread s t).level.toNat k
  obtain ⟨hkeep, hentry⟩ := cellStore_alone (thr := thrOf t) (bs := bs) hpa (by rw [gateFrame_length]; omega) hwb
  set s1 := cellStore s (cellOf t) (thrOf t) pa bs
  obtain ⟨honly, hthread, hrx⟩ := noneCleared_changes w2 t (List.range 6) s1
  set s2 := noneCleared w2 t (List.range 6) s1
  obtain ⟨konly, kthread, ks2, kregs⟩ := wx_level_changes s2 t f (BitVec.ofNat 64 (bits w0 47 2 * 4)) (BitVec.ofNat 2 (bits w2 1 0))
  have hlast : threadOnly t s1 n := honly.trans konly
  refine ⟨?_, ks2, fun r hr => ?_, by rw [hlast.cell, hentry], bytesKept.trans hkeep.bytes hlast.bytes⟩
  · exact kthread.trans (by rw [hthread, hkeep.thread]; rfl)
  · refine (kregs r hr).trans ?_
    rw [hrx, rx, hkeep.thread]
    simp only [clears_iff]
    rfl

theorem exec_gate (s : State) (t : Tid) (k : BitVec 12) : exec (.gate t k) s = .next ((runLevel s t gateRegs (fun s => doGate s t k.toNat)).getD s) := rfl

/-- Settles O13. The reads and checks leave the issued thread and the empty write buffer as they are; then the gate enters as `gateEntered` says. -/
theorem gateEntry : Obligations.GateEntry := by
  unfold Obligations.GateEntry
  intro s s1 s2 s3 t k d pa hm _ hq lvl g w tl f da hk hheld hneeds hread hwb hthread _ hform hcall htl3 hup hceil hargs hxheld hx hpa hplace hspec
  have he : entryReady s t = true := entryReady_quiet hq (oldestUnresolved_of_mayIssue hm)
  have hlevel := level_issued s t
  have hchecks := checkArgs_keeps (List.range 6) s1 hargs
  have hwalk := walkKeeps_of_translate hx
  have ht2 : thread s2 t = thread (issued s t) t := (hchecks.thread t).trans hthread
  have ht3 : thread s3 t = thread (issued s t) t := (hwalk.thread t).trans ht2
  have hrx2 (r : Reg) : rx s2 t r = rx s t r := by rw [rx, ht2, ← rx, rx_issued]
  have hrx3 (r : Reg) : rx s3 t r = rx s t r := by rw [rx, ht3, ← rx, rx_issued]
  have hown := (issued_frame s t).2
  have hwb3 : (cell s3 (cellOf t)).wb = [] := hwalk.look.wb.trans (hchecks.look.wb.trans hwb)
  have hlvl : descLevel (issued s t) t = if lvl = 2 then 2 else 1 := by rw [descLevel, hlevel]
  have hda : descAddr (srAt (issued s t) t 0x401) k.toNat = da := by rw [srAt_issued]; rfl
  have hreads : gateReads (issued s t) s1 t k.toNat d := by
    rw [gateReads, hlvl, hda, srAt_issued]
    exact ⟨hk, hheld, hneeds, hread⟩
  have hallows : gateAllows d (thread (issued s t) t).level.toNat (bits (srAt s1 t 0x800) 1 0) := by
    rw [hlevel, srAt_congr (s := s) (by rw [hthread, hown])]
    exact ⟨hform, hcall, htl3, hup, hceil⟩
  have hdo : doGate (issued s t) t k.toNat = gateEntered s3 t pa k.toNat (w 0) (w 2) f := by
    rw [doGate_passes hreads hallows hargs]
    refine gateEnter_enters ?_ hxheld hx hpa ?_ hwb3
    · rw [ht2, hlevel, hrx2]; rfl
    · rw [ht2, hown]; exact hspec
  obtain ⟨hn, hs2, hregs, hentry, hbytes⟩ := gateEntered_changes (k := k.toNat) (w0 := w 0) (w2 := w 2) (f := f) hpa hplace hwb3
  set n := gateEntered s3 t pa k.toNat (w 0) (w 2) f
  rw [show (thread s3 t).pc = (thread s t).pc by rw [ht3, pc_issued], show (thread s3 t).level = lvl by rw [ht3, hlevel], hrx3] at hentry
  refine ⟨n, _, ?_, by rw [hn], by rw [hn], hs2, fun r hr => ?_, fun m => srAt_congr (by rw [hn, ht3, hown]) m, hentry, rfl, rfl, ?_, fun b hb => ?_, hbytes⟩
  · rw [← hdo]
    refine runLevel_runs (exec_gate s t k) hm he ?_
    rw [hdo, hn, ht3]
    exact st_issued hm
  · rw [hregs r hr, hrx3]
  · rw [grownEntry, gateFrame_length]
    exact BitVec.zero_or
  · rw [← gateFrame_getD (thread s t).pc (rx s t 2) lvl.isLt k.isLt]
    have hbyte := overlay_byte { data := 0 } (pa % 128) (gateFrame (thread s t).pc (rx s t 2) lvl.toNat k.toNat) false
      (by rw [gateFrame_length]; omega) (pa % 128 + b) (by omega)
    rwa [if_pos ⟨by omega, by rw [gateFrame_length]; omega⟩, Nat.add_sub_cancel_left] at hbyte

end Sys2Proof.Machine
end

section
/-! PROOFS. The entry of an interrupt's level at a boundary (R67, R70, R71). -/

namespace Sys2Proof.Machine

open Sys2Proof.Safety

variable {s n : State} {t : Tid} {k : Nat}

/-! ## The interrupt that is taken (R70, R71) -/

/-- The interrupt found first, from the highest number down, is takeable and the greatest that is. -/
theorem nextInterrupt_greatest (h : nextInterrupt s t = some k) : takeable s t k = true ∧ k < 16 ∧ ∀ j, takeable s t j = true → j < 16 → j ≤ k := by
  obtain ⟨htake, before, after, hsplit, hbefore⟩ := List.find?_eq_some_iff_append.1 h
  have hmem (j : Nat) : j ∈ before ++ k :: after ↔ j < 16 := by rw [← hsplit, List.mem_reverse, List.mem_range]
  have hsorted : (before ++ k :: after).Pairwise (fun a b => b < a) := by
    rw [← hsplit, List.pairwise_reverse]
    exact List.pairwise_lt_range
  refine ⟨htake, (hmem k).1 (by simp), fun j hj hlt => ?_⟩
  rcases List.mem_append.1 ((hmem j).2 hlt) with hin | hin
  · have hnot := hbefore j hin
    rw [hj] at hnot
    cases hnot
  · rcases List.mem_cons.1 hin with rfl | hafter
    · exact le_refl _
    · exact le_of_lt (List.rel_of_pairwise_cons (List.pairwise_append.1 hsorted).2.1 hafter)

/-- What makes an interrupt takeable (R70). -/
theorem takeable_spec (h : takeable s t k = true) :
    1 ≤ k ∧ bit (thread s t).pend k = true ∧ (thread s t).level.toNat ≤ intTarget k ∧ bits (srAt s t (lvlReg (intTarget k) 1)) 3 0 < k := by
  simpa only [takeable, Bool.and_eq_true, decide_eq_true_eq, and_assoc] using h

/-- The cause word of an interrupt (R67). -/
theorem pack_interrupt (hk : k < 16) :
    pack [(0, 0x20 + k), (8, 0), (62, false.toNat), (63, (some k).isSome.toNat)] = BitVec.ofNat 64 (2 ^ 63 + 0x20 + k) := by
  have hall : ∀ k, k < 16 → pack [(0, 0x20 + k), (8, 0), (62, 0), (63, 1)] = BitVec.ofNat 64 (2 ^ 63 + 0x20 + k) := by decide
  exact hall k hk

theorem bit_setBit {w : Nat} (b : BitVec w) (hk : k < w) (j : Nat) : bit (setBit b k false) j = (decide (j ≠ k) && bit b j) := by
  rw [bit, setBit, getLsbD_setBits _ _ (le_refl _) hk]
  by_cases hj : j = k
  · subst hj; simp
  · rw [if_neg (by omega)]; simp [hj, bit]

/-! ## The boundary -/

/-- A thread that has entered a level is ready (R67). -/
theorem ready_of_entered {l : Nat} {pc cause val : Word} {prio : Option Nat} (h : entered s n t l pc cause val prio) : (thread n t).st = .ready := by
  obtain ⟨-, -, -, -, -, -, -, -, -, -, -, -, -, hst⟩ := h
  exact hst

/-- What an entry from outside leaves whose thread is ready after it stands. -/
theorem orStay_ready (h : (thread n t).st = .ready) : orStay s t n = n := by simp only [orStay, h]

theorem stopUnits_resolved (h : oldestUnresolved (thread s t) = none) : stopUnits s t = s := by simp only [stopUnits, h]

theorem keepArrive_none (h : ∀ p x o r, (thread s t).st ≠ .waiting (.arrive p x o r)) : keepArrive s t = s := by
  rw [keepArrive]
  split
  next p x o r hst => exact absurd hst (h p x o r)
  next => rfl

theorem unheld_rest (th : Thread) : unheld th = { th with st := (unheld th).st } := by
  rw [unheld]; split <;> rfl

/-- A thread that waits for a miss register is interrupted where it stands. -/
theorem interruptPc_unheld (th : Thread) : interruptPc (unheld th) = interruptPc th := by
  rw [unheld]
  split
  next hst =>
    simp only [interruptPc, hst]
    cases th.late <;> rfl
  next => rfl

/-- An interrupted `pause` is not executed again (R71). -/
theorem interruptPc_pause {th : Thread} {c : Nat} (hlate : th.late = none) (hst : th.st = .waiting (.pause c)) : interruptPc th = th.pc + 4 := by
  simp only [interruptPc, hlate, hst]

theorem interruptPc_here {th : Thread} (hlate : th.late = none) (hst : ∀ c, th.st ≠ .waiting (.pause c)) : interruptPc th = th.pc := by
  rw [interruptPc, hlate]
  split
  next h => cases h
  next c _ h => exact absurd h (hst c)
  next => rfl

/-- Going back to the boundary with nothing unresolved drops the thread's requests alone (R71). -/
theorem rollBack_resolved (h : oldestUnresolved (thread s t) = none) :
    rollBack s t = modCell (modThread s t unheld) (cellOf t) (fun x => dropLoads (thrOf t) x.accNo x) := by
  rw [rollBack, h]

/-- The state at the boundary, with the interrupt's pending bit cleared (R71). -/
def atInterrupt (s : State) (t : Tid) (k : Nat) : State :=
  modThread (rollBack (leaveWaves s t) t) t (fun th => { th with pend := setBit th.pend k false, yield := false, late := none })

/-- What it keeps. -/
theorem atInterrupt_changes (h : oldestUnresolved (thread s t) = none) :
    thread (atInterrupt s t k) t = { thread s t with st := (unheld (thread s t)).st, pend := setBit (thread s t).pend k false, yield := false, late := none }
    ∧ (∀ u, u ≠ t → thread (atInterrupt s t k) u = thread s u)
    ∧ (cell (atInterrupt s t k) (cellOf t)).wb = (cell s (cellOf t)).wb ∧ bytesKept s (atInterrupt s t k) := by
  rw [atInterrupt, rollBack_resolved (s := leaveWaves s t) h]
  refine ⟨?_, fun u hu => ?_, ?_, ?_⟩
  · rw [thread_modThread_same, thread_modCell, thread_modThread_same, show thread (leaveWaves s t) t = thread s t from rfl, unheld_rest (thread s t)]
  · rw [thread_modThread, if_neg hu, thread_modCell, thread_modThread, if_neg hu]; rfl
  · rw [cell_modThread, cell_modCell_same, cell_modThread]; rfl
  · exact (sameHome_of_regs (l := []) rfl (fun _ _ _ _ => rfl) (by simp) (by simp)).bytes

/-- Taking an interrupt at a boundary is the entry of its level from there. -/
theorem takeInterrupt_eq (harrive : ∀ p x o r, (thread s t).st ≠ .waiting (.arrive p x o r)) (h : oldestUnresolved (thread s t) = none) :
    takeInterrupt s t k = enterAt t (interruptPc (thread s t)) 4 (atInterrupt s t k) (intTarget k) { code := 0x20 + k } false (some k) true := by
  have hpc : interruptPc (thread (rollBack (leaveWaves s t) t) t) = interruptPc (thread s t) := by
    rw [rollBack_resolved (s := leaveWaves s t) h, thread_modCell, thread_modThread_same, interruptPc_unheld]; rfl
  simp only [takeInterrupt, keepArrive_none harrive, hpc]
  rfl

/-- An interrupt's entry goes on at its handler, whatever FM holds (R63, R66). -/
theorem enterAt_interrupt {pc h : Word} {l j : Nat} {e : Exc} {force : Bool} (hl : l ≤ 2) (hh : handlerAt (enterRegs s t l pc e false (some k)) t l e.code h) :
    enterAt t pc (j + 1) s l e false (some k) force
      = modThread (vectorRead (enterRegs s t l pc e false (some k)) t l e.code).2 t (fun th => { th with pc := h }) := by
  obtain ⟨-, hneeds, hread⟩ := id hh
  rw [enterAt, if_neg (not_lt.2 hl)]
  simp only [Option.isNone_some, Bool.false_and, Bool.false_eq_true, if_false, asHeld_handler hh, hneeds]
  generalize vectorRead (enterRegs s t l pc e false (some k)) t l e.code = r at hread ⊢
  obtain ⟨o, s2⟩ := r
  subst hread
  rfl

theorem pend_srPut (s : State) (t : Tid) (m : Nat) (v : Word) : (thread (srPut s t m v) t).pend = (thread s t).pend := by rw [thread_srPut]

/-- An entry leaves the pending interrupts. -/
theorem pend_enterRegs (s : State) (t : Tid) (l : Nat) (pc : Word) (e : Exc) (esc : Bool) (prio : Option Nat) :
    (thread (enterRegs s t l pc e esc prio) t).pend = (thread s t).pend := by
  have hwx (s : State) (v : Word) : (thread (wx s t 2 v) t).pend = (thread s t).pend := by rw [thread_wx]
  simp only [enterRegs_eq, thread_modThread_same, hwx, pend_srPut]

theorem exec_interruptTake (ha : atBoundary s t = true) (hk : nextInterrupt s t = some k) (he : entryReady s t = true) :
    exec (.interruptTake t) s = .next (orStay s t (takeInterrupt (stopUnits s t) t k)) := by
  have hexec : exec (.interruptTake t) s = execInterruptTake t s := rfl
  simp only [hexec, execInterruptTake, ha, hk, interruptNow, he, if_true]

/-- Settles O14. The interrupt found is the greatest takeable one; its entry is that of `enterRegs` from the boundary, and the vector's read leaves the thread. -/
theorem interruptEntry : Obligations.InterruptEntry := by
  unfold Obligations.InterruptEntry
  intro s t k h hbound hnext hold hwb harrive hlate he l pc s1 hh
  obtain ⟨htake, hk, hmax⟩ := nextInterrupt_greatest hnext
  obtain ⟨hk1, hpend, hlevel, hprio⟩ := takeable_spec htake
  obtain ⟨hthread, hothers, hwb1, hbytes⟩ := atInterrupt_changes (k := k) hold
  have hl : l ≤ 2 ∧ l ≠ 0 := by simp only [l]; split <;> decide
  have hpc : interruptPc (thread s t) = pc := by
    simp only [pc]
    split
    next c hst => exact interruptPc_pause hlate hst
    next hst => exact interruptPc_here hlate hst
  obtain ⟨hent, honly⟩ := enterRegs_entered s1 t l pc { code := 0x20 + k } false (some k) (fun p hp => ⟨hl.2, by cases hp; exact hk⟩)
  rw [pack_interrupt hk] at hent
  set e := enterRegs s1 t l pc { code := 0x20 + k } false (some k)
  have hlook : lookKeeps (cellOf t) e (vectorRead e t l (0x20 + k)).2 := vectorRead_looks hh (by rw [honly.cell]; exact hwb1.trans hwb)
  set v := (vectorRead e t l (0x20 + k)).2
  set n := modThread v t (fun th => { th with pc := h }) with hn
  have hnt : thread n t = { thread e t with pc := h } := by rw [hn, thread_modThread_same, hlook.thread]
  have hentered : entered s n t l pc (BitVec.ofNat 64 (2 ^ 63 + 0x20 + k)) 0 (some k) := by
    refine entered_congr (n := e) hent ?_ ?_ ?_ ?_ ?_ ?_ ?_
    · exact (congrArg Thread.sr hthread).symm
    · exact (congrArg Thread.regs hthread).symm
    · exact (congrArg Thread.level hthread).symm
    all_goals rw [hnt]
  refine ⟨hk1, Nat.le_of_lt_succ hk, hlevel, hprio, hpend, hmax, n, ?_, hentered, by rw [hnt], fun j _ => ?_, ?_, fun u hu => ?_⟩
  · rw [exec_interruptTake hbound hnext he, stopUnits_resolved hold, takeInterrupt_eq harrive hold, hpc]
    exact congrArg Host.Outcome.next ((congrArg (orStay s t) (enterAt_interrupt hl.1 hh)).trans (orStay_ready (ready_of_entered hentered)))
  · have hpending : (thread n t).pend = setBit (thread s t).pend k false :=
      calc (thread n t).pend
        _ = (thread e t).pend := by rw [hnt]
        _ = (thread s1 t).pend := pend_enterRegs ..
        _ = setBit (thread s t).pend k false := congrArg Thread.pend hthread
    rw [hpending, bit_setBit _ hk]
  · exact bytesKept.trans (bytesKept.trans (bytesKept.trans hbytes honly.bytes) hlook.bytes) (modThread_only v t _).bytes
  · rw [hn, thread_modThread, if_neg hu, hlook.thread, honly.2 u hu]
    exact hothers u hu

end Sys2Proof.Machine
end

section
/-! PROOFS. What a page walk leaves in its core's TLBs (R86, R98–R100). -/

namespace Sys2Proof.Machine

open Sys2Proof.Safety

/-! ## A walk that ends (R86, R99) -/

/-- Between s and n the TLBs of core c stay; its cache of table entries may differ. -/
def tlbsKept (c : Nat) (s n : State) : Prop :=
  (cell n c).itlb = (cell s c).itlb ∧ (cell n c).dtlb = (cell s c).dtlb ∧ (cell n c).l2tlb = (cell s c).l2tlb

theorem tlbsKept.trans {c : Nat} {a b d : State} (h : tlbsKept c a b) (k : tlbsKept c b d) : tlbsKept c a d :=
  ⟨k.1.trans h.1, k.2.1.trans h.2.1, k.2.2.trans h.2.2⟩

theorem readKeeps.tlbs {s n : State} (h : readKeeps s n) (c : Nat) : tlbsKept c s n := by
  unfold tlbsKept; rw [h.cells]; exact ⟨rfl, rfl, rfl⟩

/-- A step of the walker's cache alone keeps the TLBs. -/
theorem modCell_walker_tlbs (s : State) (c : Nat) (g : CellS → List (Nat × Word)) : tlbsKept c s (modCell s c (fun x => { x with walker := g x })) := by
  unfold tlbsKept; rw [cell_modCell_same]; exact ⟨rfl, rfl, rfl⟩

theorem readPte_tlbs (s : State) (c pa lvl : Nat) : tlbsKept c s (readPte s c pa lvl).2 := by
  have hread := (coreRead_keeps s c pa 8).tlbs c
  unfold readPte
  generalize coreRead s c pa 8 = r at hread
  obtain ⟨⟨bs, bad⟩, s2⟩ := r
  split
  next => exact modCell_walker_tlbs s c _
  next =>
    dsimp only at hread ⊢
    split_ifs
    · exact hread
    · exact hread.trans (modCell_walker_tlbs s2 c _)
    · exact hread

section
variable (c : Nat) (a : BitVec 6) (u : Bool) (va : Nat)

/-- The state after the table entry that a walk reads at a level. -/
def pteRead (lvl table : Nat) (s : State) : State := (readPte s c (table + 8 * ((va >>> (12 + 9 * lvl)) % 512)) lvl).2

/-- After a table entry a walk ends in a fault or at the entry's leaf, or goes on a level lower (R86, R87). -/
theorem walkFrom_cases (lvl table : Nat) (s : State) :
    (∃ x, walkFrom c a u va lvl table s = (.error x, pteRead c va lvl table s))
      ∨ (∃ w, walkFrom c a u va lvl table s = (.ok (leafEnt w lvl a u va), pteRead c va lvl table s))
      ∨ ∃ l next, lvl = l + 1 ∧ walkFrom c a u va lvl table s = walkFrom c a u va l next (pteRead c va lvl table s) := by
  have hread : pteRead c va lvl table s = (readPte s c (table + 8 * ((va >>> (12 + 9 * lvl)) % 512)) lvl).2 := rfl
  generalize pteRead c va lvl table s = q at hread ⊢
  rw [walkFrom.eq_def]
  dsimp only
  generalize readPte s c (table + 8 * ((va >>> (12 + 9 * lvl)) % 512)) lvl = r at hread
  obtain ⟨o, s2⟩ := r
  dsimp only at hread
  subst hread
  cases o with
  | none => exact .inl ⟨_, rfl⟩
  | some w =>
    dsimp only
    split_ifs
    · exact .inl ⟨_, rfl⟩
    · cases lvl <;> exact .inl ⟨_, rfl⟩
    · cases lvl with
      | zero => exact .inl ⟨_, rfl⟩
      | succ l => exact .inr (.inr ⟨l, _, rfl, rfl⟩)
    · exact .inl ⟨_, rfl⟩
    · exact .inl ⟨_, rfl⟩
    · exact .inr (.inl ⟨w, rfl⟩)

/-- What a walk finds is the translation of a leaf; its core's TLBs stay. -/
def walkFinds (s : State) (r : Except (Nat × Nat) TlbEnt × State) : Prop :=
  tlbsKept c s r.2 ∧ ∀ e, r.1 = .ok e → ∃ w l u, e = leafEnt w l a u va

theorem walkFrom_finds (lvl table : Nat) (s : State) : walkFinds c a va s (walkFrom c a u va lvl table s) := by
  induction lvl generalizing table s with
  | zero =>
    have hread : tlbsKept c s (pteRead c va 0 table s) := readPte_tlbs s c _ 0
    obtain ⟨x, h⟩ | ⟨w, h⟩ | ⟨l, next, hl, -⟩ := walkFrom_cases c a u va 0 table s
    · rw [h]; exact ⟨hread, fun e he => nomatch he⟩
    · rw [h]; exact ⟨hread, fun e he => ⟨w, 0, u, (Except.ok.inj he).symm⟩⟩
    · exact absurd hl (Nat.succ_ne_zero l).symm
  | succ lvl ih =>
    have hread : tlbsKept c s (pteRead c va (lvl + 1) table s) := readPte_tlbs s c _ (lvl + 1)
    obtain ⟨x, h⟩ | ⟨w, h⟩ | ⟨l, next, hl, h⟩ := walkFrom_cases c a u va (lvl + 1) table s
    · rw [h]; exact ⟨hread, fun e he => nomatch he⟩
    · rw [h]; exact ⟨hread, fun e he => ⟨w, lvl + 1, u, (Except.ok.inj he).symm⟩⟩
    · obtain rfl := Nat.succ.inj hl
      obtain ⟨hkept, hfound⟩ := ih next (pteRead c va (lvl + 1) table s)
      rw [h]; exact ⟨hread.trans hkept, hfound⟩

theorem walk_finds (s : State) : walkFinds c a va s (walk s c a va) := by
  have hentry := (asEntry_keeps s c a).tlbs c
  unfold walk
  generalize asEntry s c a = r at hentry
  obtain ⟨o, s2⟩ := r
  cases o with
  | error x => exact ⟨hentry, fun e he => nomatch he⟩
  | ok p =>
    obtain ⟨hkept, hfound⟩ := walkFrom_finds c a p.1 va 3 p.2 s2
    exact ⟨hentry.trans hkept, hfound⟩

end

/-- A leaf's translation covers the address that was walked for (R86, R95). -/
theorem leafEnt_covers (w : Word) (lvl : Nat) (a : BitVec 6) (u : Bool) (va : Nat) :
    va / 2 ^ (leafEnt w lvl a u va).size = (leafEnt w lvl a u va).vpn / 2 ^ ((leafEnt w lvl a u va).size - 12) := by
  simp only [leafEnt, Nat.shiftLeft_eq, Nat.shiftRight_eq_div_pow]
  exact (Nat.mul_div_cancel _ (Nat.two_pow_pos _)).symm

/-! ## The TLBs filled (R98) -/

theorem mem_lruPut {α : Type} (n : Nat) (same : α → Bool) (e : α) (l : List α) : e ∈ lruPut (n + 1) same e l := by
  simp [lruPut]

theorem mem_fillFirst (k : Access) (e : TlbEnt) (x : CellS) : e ∈ if k = .fetch then (fillFirst k e x).itlb else (fillFirst k e x).dtlb := by
  cases k <;> exact mem_lruPut _ _ e _

theorem fillFirst_l2tlb (k : Access) (e : TlbEnt) (x : CellS) : (fillFirst k e x).l2tlb = x.l2tlb := by cases k <;> rfl

/-- The second level keeps the translation in the set of its page number. -/
theorem mem_fillSecond {e : TlbEnt} {x : CellS} (h : (tget {} x.l2tlb (e.vpn % 256)).ways.length = 8) :
    some e ∈ (tget {} (fillSecond e x).l2tlb (e.vpn % 256)).ways := by
  simp only [fillSecond, l2Index, tget_tins_same]
  apply List.mem_set
  rw [h]
  cases hfree : (tget {} x.l2tlb (e.vpn % 256)).ways.findIdx? (fun o => o.isNone) with
  | none => exact treeVictim_lt _
  | some w =>
    rw [Option.getD_some, ← h]
    exact (List.findIdx?_eq_some_iff_findIdx_eq.1 hfree).1

/-- A result fills the TLBs unless it is a translation fault (R99, R100): a fault of the paired pages is none. -/
def fills (r : Except Exc Nat) : Prop := match r with | .ok _ => True | .error f => f.code = 6

theorem fillTlbs_filled {s : State} {c : Nat} {k : Access} {e : TlbEnt} {r : Except Exc Nat} (h : fills r) :
    fillTlbs s c k e r = modCell s c (fun x => fillFirst k e (fillSecond e x)) := by
  cases r with
  | ok pa => rfl
  | error f => exact if_pos h

theorem fillTlbs_fault {s : State} {c : Nat} {k : Access} {e : TlbEnt} {f : Exc} (h : f.code ≠ 6) : fillTlbs s c k e (.error f) = s := if_neg h

/-! ## The command -/

section
variable {s s1 : State} {t : Tid} {va : Word} {k : Access} {e : TlbEnt}

theorem exec_pageWalk_skips (h : (thread s t).level = 2 ∨ bits va 63 48 ≠ 0) : exec (.pageWalk t va k) s = .next s := by
  have hcmd : exec (.pageWalk t va k) s = execPageWalk t va k s := rfl
  rw [hcmd, execPageWalk, if_pos (by simpa using h)]

section
variable (h : ¬((thread s t).level = 2 ∨ bits va 63 48 ≠ 0)) (hopen : xlatHeld s (cellOf t) (ctxOf s t) va k = false)
include h hopen

theorem exec_pageWalk_found (hw : walk s (cellOf t) (thread s t).asid va.toNat = (.ok e, s1)) :
    exec (.pageWalk t va k) s = .next (fillTlbs s1 (cellOf t) k e (useEnt s1 (ctxOf s1 t) va k e)) := by
  have hcmd : exec (.pageWalk t va k) s = execPageWalk t va k s := rfl
  rw [hcmd, execPageWalk, if_neg (by simpa using h), if_neg (by simp [hopen]), hw]

theorem exec_pageWalk_fault {x : Nat × Nat} (hw : walk s (cellOf t) (thread s t).asid va.toNat = (.error x, s1)) : exec (.pageWalk t va k) s = .next s1 := by
  have hcmd : exec (.pageWalk t va k) s = execPageWalk t va k s := rfl
  rw [hcmd, execPageWalk, if_neg (by simpa using h), if_neg (by simp [hopen]), hw]

end

/-- What the TLBs hold after a walk whose result fills them (R98). -/
theorem fillTlbs_holds {c : Nat} {a : BitVec 6} (hw : walk s c a va.toNat = (.ok e, s1)) {r : Except Exc Nat} (hr : fills r) :
    let n := fillTlbs s1 c k e r
    e ∈ (if k = .fetch then (cell n c).itlb else (cell n c).dtlb) ∧ e.asid = a ∧ va.toNat / 2 ^ e.size = e.vpn / 2 ^ (e.size - 12)
      ∧ ((tget {} (cell s c).l2tlb (e.vpn % 256)).ways.length = 8 → some e ∈ (tget {} (cell n c).l2tlb (e.vpn % 256)).ways) := by
  obtain ⟨⟨-, -, hl2⟩, hfound⟩ := walk_finds c a va.toNat s
  rw [hw] at hl2 hfound
  obtain ⟨w, l, u, he⟩ := hfound e rfl
  dsimp only
  rw [fillTlbs_filled hr, cell_modCell_same, fillFirst_l2tlb]
  refine ⟨mem_fillFirst k e _, by rw [he]; rfl, by rw [he]; exact leafEnt_covers w l a u _, fun hlen => mem_fillSecond ?_⟩
  rw [hl2]; exact hlen

/-- A walk that is made fills the TLBs with what it finds, or leaves them (R98–R100). -/
theorem pageWalk_walks (h : ¬((thread s t).level = 2 ∨ bits va 63 48 ≠ 0)) (hopen : xlatHeld s (cellOf t) (ctxOf s t) va k = false) :
    let c := cellOf t
    ∃ n, exec (.pageWalk t va k) s = .next n ∧ walkFrame c s n
      ∧ (∀ e s1, walk s c (thread s t).asid va.toNat = (.ok e, s1) → fills (useEnt s1 (ctxOf s1 t) va k e) →
          e ∈ (if k = .fetch then (cell n c).itlb else (cell n c).dtlb) ∧ e.asid = (thread s t).asid ∧ va.toNat / 2 ^ e.size = e.vpn / 2 ^ (e.size - 12)
          ∧ ((tget {} (cell s c).l2tlb (e.vpn % 256)).ways.length = 8 → some e ∈ (tget {} (cell n c).l2tlb (e.vpn % 256)).ways))
      ∧ (∀ r s1, walk s c (thread s t).asid va.toNat = (r, s1) → (∀ e, r = .ok e → ∃ f, useEnt s1 (ctxOf s1 t) va k e = .error f ∧ f.code ≠ 6) → tlbsKept c s n) := by
  dsimp only
  have hkeeps := walk_keeps s (cellOf t) (thread s t).asid va.toNat
  obtain ⟨htlbs, -⟩ := walk_finds (cellOf t) (thread s t).asid va.toNat s
  rcases hw : walk s (cellOf t) (thread s t).asid va.toNat with ⟨x | e, s1⟩
  · rw [hw] at hkeeps htlbs
    exact ⟨s1, exec_pageWalk_fault h hopen hw, hkeeps.frame, fun e q he => absurd (congrArg Prod.fst he) nofun, fun _ _ _ _ => htlbs⟩
  · rw [hw] at hkeeps htlbs
    refine ⟨_, exec_pageWalk_found h hopen hw, (hkeeps.trans (fillTlbs_keeps ..)).frame, ?_, ?_⟩
    · rintro _ _ ⟨⟩ hfills
      exact fillTlbs_holds hw hfills
    · rintro _ _ ⟨⟩ hfault
      obtain ⟨f, hf, hcode⟩ := hfault e rfl
      rw [hf, fillTlbs_fault hcode]; exact htlbs

end

end Sys2Proof.Machine
end

section
/-! PROOFS. Requests of DEV_TLBINV, and what their end leaves in the cores' TLBs (R101, R102). -/

namespace Sys2Proof.Machine

open Sys2Proof.Safety

/-! ## Entries of a scope dropped (R101) -/

/-- Of a core's TLBs the entries of a scope are gone. -/
def dropped (P : TlbEnt → Bool) (x y : CellS) : Prop :=
  (∀ e, (e ∈ y.itlb ↔ e ∈ x.itlb ∧ P e = false) ∧ (e ∈ y.dtlb ↔ e ∈ x.dtlb ∧ P e = false)) ∧ ∀ p ∈ y.l2tlb, ∀ e, some e ∈ p.2.ways → P e = false

/-- A way of the second level without an entry of a scope. -/
theorem dropWay_some {P : TlbEnt → Bool} {o : Option TlbEnt} {e : TlbEnt}
    (h : (match o with | some e => if P e then none else some e | none => none) = some e) : P e = false := by
  cases o with
  | none => cases h
  | some e' =>
    dsimp only at h
    split at h
    next => cases h
    next hp => rw [← Option.some.inj h]; simpa using hp

theorem tlbDrop_dropped (P : TlbEnt → Bool) (x : CellS) : dropped P x (tlbDrop P x) := by
  refine ⟨fun e => ⟨?_, ?_⟩, fun p hp e he => ?_⟩
  · simp [tlbDrop, List.mem_filter]
  · simp [tlbDrop, List.mem_filter]
  · obtain ⟨q, -, rfl⟩ := List.mem_map.1 hp
    obtain ⟨o, -, ho⟩ := List.mem_map.1 he
    exact dropWay_some ho

/-- Dropping a scope's entries once more changes nothing. -/
theorem tlbDrop_tlbDrop (P : TlbEnt → Bool) (x : CellS) : tlbDrop P (tlbDrop P x) = tlbDrop P x := by
  have hway : ∀ o : Option TlbEnt, (match (match o with | some e => if P e then none else some e | none => none) with
      | some e => if P e then none else some e | none => none) = (match o with | some e => if P e then none else some e | none => none : Option TlbEnt) := by
    intro o
    cases o with
    | none => rfl
    | some e => dsimp only; by_cases hp : P e = true <;> simp [hp]
  simp only [tlbDrop, List.filter_filter, Bool.and_self, List.map_map]
  congr 1
  refine List.map_congr_left fun q _ => ?_
  simp only [Function.comp_apply, List.map_map]
  congr 2
  exact List.map_congr_left fun o _ => hway o

/-- What the end of an invalidation makes of a core: one whose clock stands still marks all its TLBs invalid (R101). -/
def tlbEnd (P : TlbEnt → Bool) (x : CellS) : CellS := if x.power = .run then tlbDrop P x else tlbFlush x

theorem tlbEnd_tlbEnd (P : TlbEnt → Bool) (x : CellS) : tlbEnd P (tlbEnd P x) = tlbEnd P x := by
  by_cases h : x.power = .run
  · have hp : (tlbDrop P x).power = .run := h
    rw [tlbEnd, tlbEnd, if_pos h, if_pos hp, tlbDrop_tlbDrop]
  · have hp : (tlbFlush x).power ≠ .run := h
    rw [tlbEnd, tlbEnd, if_neg h, if_neg hp]; rfl

/-- A change that the state's cells do not enter, made to cores one after another: a second time it changes nothing. -/
theorem foldl_modCellBy (f : State → CellS → CellS) (hf : ∀ s c g, f (modCell s c g) = f s) (hidem : ∀ s x, f s (f s x) = f s x) (cs : List Nat) (s : State) :
    let n := cs.foldl (fun s c => modCell s c (f s)) s
    n = { s with cells := n.cells } ∧ ∀ c, cell n c = if c ∈ cs then f s (cell s c) else cell s c := by
  induction cs generalizing s with
  | nil => exact ⟨rfl, fun c => by simp⟩
  | cons a cs ih =>
    obtain ⟨hframe, hcell⟩ := ih (modCell s a (f s))
    dsimp only [List.foldl_cons]
    refine ⟨by rw [hframe]; rfl, fun c => ?_⟩
    rw [hcell, hf, cell_modCell]
    by_cases hca : c = a
    · subst hca; simp [hidem]
    · simp [hca]

theorem tlbScope_of_mmio {s n : State} (h : n.mmio = s.mmio) : tlbScope n = tlbScope s := by
  unfold tlbScope rf; simp only [reg_of_mmio h]

theorem tlbScope_modCell (s : State) (c : Nat) (g : CellS → CellS) : tlbScope (modCell s c g) = tlbScope s := tlbScope_of_mmio rfl

/-! ## A request (R101, R102) -/

theorem fget_mod (v : Word) (f : Fld) : fget v f % 2 ^ (f.hi + 1 - f.lo) = fget v f := Nat.mod_mod _ _

/-- DEV_TLBINV with a scope written and GO set. -/
def invRequested (s : State) (v : Word) : State :=
  setRf (setRf (setRf (setRf s .devTlbinv F.devTlbinvAsid (fget v F.devTlbinvAsid)) .devTlbinv F.devTlbinvVpn (fget v F.devTlbinvVpn))
    .devTlbinv F.devTlbinvScope (fget v F.devTlbinvScope)) .devTlbinv F.devTlbinvGo 1

theorem regsKept_setRf (s : State) (r : RegName) (f : Fld) (v : Nat) : regsKept [r] s (setRf s r f v) := regsKept_setReg s r (by decide) _

theorem invRequested_frame (s : State) (v : Word) : mmioFrame [.devTlbinv] s (invRequested s v) :=
  ⟨rfl, regsKept_trans (regsKept_trans (regsKept_trans (regsKept_setRf _ _ _ _) (regsKept_setRf _ _ _ _)) (regsKept_setRf _ _ _ _)) (regsKept_setRf _ _ _ _)⟩

/-- The fields that a request leaves in DEV_TLBINV. -/
theorem invRequested_fields (s : State) (v : Word) : rf (invRequested s v) .devTlbinv F.devTlbinvGo = 1
    ∧ ∀ f ∈ [F.devTlbinvAsid, F.devTlbinvVpn, F.devTlbinvScope], rf (invRequested s v) .devTlbinv f = fget v f := by
  have hsame (s : State) {f : Fld} (hf : f ∈ regFields .devTlbinv) (w : Nat) : rf (setRf s .devTlbinv f w) .devTlbinv f = w % 2 ^ (f.hi + 1 - f.lo) :=
    have hfield : ∀ f ∈ regFields .devTlbinv, f.lo ≤ f.hi ∧ f.hi < 64 := by decide
    rf_setRf_same s _ f w 0 (hfield f hf).1 (hfield f hf).2
  have hother (s : State) {f g : Fld} (hf : f ∈ regFields .devTlbinv) (hg : g ∈ regFields .devTlbinv) (hne : f ≠ g) (w : Nat) :
      rf (setRf s .devTlbinv f w) .devTlbinv g = rf s .devTlbinv g :=
    have hfield : ∀ f ∈ regFields .devTlbinv, ∀ g ∈ regFields .devTlbinv, f ≠ g → (f.lo ≤ f.hi ∧ f.hi < 64) ∧ (g.hi < f.lo ∨ f.hi < g.lo) := by decide
    have h := hfield f hf g hg hne
    rf_setRf_other s _ f g w 0 h.1.1 h.1.2 h.2
  refine ⟨hsame _ (by decide) 1, fun f hf => ?_⟩
  fin_cases hf
  · rw [invRequested, hother _ (by decide) (by decide) (by decide), hother _ (by decide) (by decide) (by decide), hother _ (by decide) (by decide) (by decide),
      hsame _ (by decide), fget_mod]
  · rw [invRequested, hother _ (by decide) (by decide) (by decide), hother _ (by decide) (by decide) (by decide), hsame _ (by decide), fget_mod]
  · rw [invRequested, hother _ (by decide) (by decide) (by decide), hsame _ (by decide), fget_mod]

/-- The scope that a written value names. -/
def writtenScope (v : Word) (e : TlbEnt) : Bool := inScope (fget v F.devTlbinvAsid) (fget v F.devTlbinvScope) (fget v F.devTlbinvVpn) e

theorem tlbScope_invRequested (s : State) (v : Word) : tlbScope (invRequested s v) = writtenScope v := by
  obtain ⟨-, hfields⟩ := invRequested_fields s v
  funext e
  rw [tlbScope, hfields _ (by simp), hfields _ (by simp), hfields _ (by simp), writtenScope]

/-- The engines' TLBs without the entries of the scope that stands in DEV_TLBINV. -/
def enginesDropped (s : State) : State := engineCores.foldl (fun s c => modCell s c (tlbDrop (tlbScope s))) s

theorem enginesDropped_spec (s : State) : enginesDropped s = { s with cells := (enginesDropped s).cells }
    ∧ ∀ c, cell (enginesDropped s) c = if c ∈ engineCores then tlbDrop (tlbScope s) (cell s c) else cell s c :=
  foldl_modCellBy (fun s => tlbDrop (tlbScope s)) (fun s c g => by rw [tlbScope_modCell]) (fun s => tlbDrop_tlbDrop _) engineCores s

/-- The lining's chunks that used a translation of a scope marked (R101). -/
def chunksMarked (P : TlbEnt → Bool) (l : Table LStack) : Table LStack :=
  l.map (fun p => (p.1, { p.2 with runs := p.2.runs.map (fun q => (q.1, { q.2 with inv := q.2.inv || q.2.ents.any P })) }))

theorem markRun_eq (b : Bool) (r : LRun) : (if b then { r with inv := true } else r) = { r with inv := r.inv || b } := by
  cases b
  · rw [Bool.or_false]; rfl
  · rw [Bool.or_true]; rfl

section
variable {s : State} {a : Agent} {v : Word}

theorem exec_tlbInvalidate_takes (ht : takes s a) : exec (.tlbInvalidate a v) s = .next (tlbinvWrite s a v) := by
  have hcmd : exec (.tlbInvalidate a v) s = execTlbInvalidate a v s := rfl
  rw [hcmd, execTlbInvalidate, mmioCmd_of_takes ht]

theorem tlbinvWrite_user (ha : agentAtLeast s a 1 = false) : tlbinvWrite s a v = s := if_pos (by rw [ha]; rfl)

theorem tlbinvWrite_busy (ha : agentAtLeast s a 1 = true) (hgo : rf s .devTlbinv F.devTlbinvGo = 1) :
    tlbinvWrite s a v = setRf s .devTlbstat F.devTlbstatLost 1 := by
  rw [tlbinvWrite, if_neg (by rw [ha]; decide), if_pos hgo]

/-- A request that is taken: the engines' TLBs lose its scope, and the chunks that used it are marked. -/
theorem tlbinvWrite_go (ha : agentAtLeast s a 1 = true) (hgo : rf s .devTlbinv F.devTlbinvGo = 0) (hv : fget v F.devTlbinvGo = 1) (hscope : fget v F.devTlbinvScope ≠ 3) :
    tlbinvWrite s a v = { enginesDropped (invRequested s v) with lining := chunksMarked (writtenScope v) s.lining } := by
  have hdrop := (enginesDropped_spec (invRequested s v)).1
  have hwrite : tlbinvWrite s a v = { enginesDropped (invRequested s v) with
      lining := (enginesDropped (invRequested s v)).lining.map (fun p => (p.1, { p.2 with runs := p.2.runs.map (fun q =>
        (q.1, if q.2.ents.any (tlbScope (enginesDropped (invRequested s v))) then { q.2 with inv := true } else q.2)) })) } := by
    rw [tlbinvWrite, if_neg (by rw [ha]; decide), if_neg (by rw [hgo]; decide)]
    simp only [if_neg hscope, hv, Nat.one_ne_zero, if_false]
    rfl
  rw [hwrite]
  generalize enginesDropped (invRequested s v) = q at hdrop
  have hlining : q.lining = s.lining := by rw [hdrop]; rfl
  have hscoped : tlbScope q = writtenScope v := by rw [← tlbScope_invRequested s v]; exact tlbScope_of_mmio (by rw [hdrop])
  rw [hlining, hscoped]
  simp only [markRun_eq]
  rfl

theorem tlbInvalidate_requests (ht : takes s a) (ha : agentAtLeast s a 1 = true) (hgo : rf s .devTlbinv F.devTlbinvGo = 0) (hv : fget v F.devTlbinvGo = 1)
    (hscope : fget v F.devTlbinvScope ≠ 3) :
    ∃ n, exec (.tlbInvalidate a v) s = .next n ∧ n = { s with mmio := n.mmio, cells := n.cells, lining := n.lining } ∧ regsKept [.devTlbinv] s n
      ∧ rf n .devTlbinv F.devTlbinvGo = 1 ∧ (∀ f ∈ [F.devTlbinvAsid, F.devTlbinvVpn, F.devTlbinvScope], rf n .devTlbinv f = fget v f)
      ∧ (∀ c, c ∉ engineCores → cell n c = cell s c)
      ∧ (∀ c ∈ engineCores, cell n c = tlbDrop (writtenScope v) (cell s c))
      ∧ n.lining = chunksMarked (writtenScope v) s.lining := by
  obtain ⟨hframe, hregs⟩ := invRequested_frame s v
  obtain ⟨hdrop, hcell⟩ := enginesDropped_spec (invRequested s v)
  obtain ⟨hone, hfields⟩ := invRequested_fields s v
  have hexec : exec (.tlbInvalidate a v) s = .next { enginesDropped (invRequested s v) with lining := chunksMarked (writtenScope v) s.lining } := by
    rw [exec_tlbInvalidate_takes ht, tlbinvWrite_go ha hgo hv hscope]
  generalize enginesDropped (invRequested s v) = q at hdrop hcell hexec
  have hreg (r : RegName) (i : Nat) : reg q r i = reg (invRequested s v) r i := by rw [hdrop]; rfl
  have hcells (c : Nat) : cell (invRequested s v) c = cell s c := rfl
  refine ⟨_, hexec, by rw [hdrop, hframe], fun r i hi hr => ?_, ?_, fun f hf => ?_, fun c hc => ?_, fun c hc => ?_, rfl⟩
  · exact (hreg r i).trans (hregs r i hi hr)
  · exact (congrArg (fget · F.devTlbinvGo) (hreg _ _)).trans hone
  · exact (congrArg (fget · f) (hreg _ _)).trans (hfields f hf)
  · exact (hcell c).trans (if_neg hc)
  · refine (hcell c).trans ((if_pos hc).trans ?_)
    rw [tlbScope_invRequested, hcells]

end

/-! ## Its end (R101) -/

theorem releaseNeeds_nothingOut {s : State} {t : Tid} (h : nothingOut (cell s (cellOf t))) : releaseNeeds s t = [] := by
  obtain ⟨hwb, hmshrs, hloads, hslots, -⟩ := h
  simp [releaseNeeds, hwb, hmshrs, hloads, hslots]

theorem serveLoads_nothingOut {s : State} {c : Nat} (h : nothingOut (cell s c)) (p : Nat → Nat → Bool) : serveLoads s c p = s := by
  obtain ⟨-, hmshrs, hloads, hslots, -⟩ := h
  simp only [serveLoads, hmshrs, hloads, hslots, List.length_nil, List.range_zero, List.foldl_nil]

/-- No access that the cores have translated is outstanding, and no push of a thread is held. -/
structure allSent (s : State) : Prop where
  cores : ∀ c, c < 772 → nothingOut (cell s c) ∧ (cell s c).atomics = []
  hold : ∀ t, (thread s t).hold = []
  pushes : ∀ t, pushHeld s t = false
  units : ∀ t, unitsDone s t

theorem settleCore_nothingOut {s : State} {c : Nat} (hc : nothingOut (cell s c)) (hu : ∀ t, unitsDone s t) : settleCore s c = s := by
  have hmshrs := hc.2.1
  have hthread (t : Tid) : settleStores (settleLoads (finishUnits s t) c (thrOf t)) c (thrOf t) = s := by
    rw [finishUnits_done (hu t), settleLoads_nothingOut hc, settleStores_nothingOut hc]
  simp only [settleCore, hmshrs, List.length_nil, List.range_zero, List.foldl_nil, serveLoads_nothingOut hc]
  exact List.foldl_fixed' (f := fun s t => settleStores (settleLoads (finishUnits s t) c (thrOf t)) c (thrOf t)) hthread (tidsOf c)

section
variable {s : State} (h : allSent s)
include h

theorem allSent.unsent {c : Nat} (hc : c < 772) : unsent s c = false := by
  obtain ⟨⟨-, -, -, -, hheld⟩, -⟩ := h.cores c hc
  simp [Machine.unsent, hheld, h.hold]

theorem allSent.coresWait {cs : List Nat} (hcs : ∀ c ∈ cs, c < 772) : coresWait s cs = none := by
  have hpush : (cs.flatMap tidsOf).any (pushHeld s) = false := List.any_eq_false.2 fun t _ => by simp [h.pushes t]
  have hneeds : (cs.flatMap tidsOf).flatMap (releaseNeeds s) = [] :=
    List.flatMap_eq_nil_iff.2 fun t _ => releaseNeeds_nothingOut (h.cores _ (cellOf_lt t)).1
  have hprefetch : cs.flatMap (prefetchNeeds s) = [] := List.flatMap_eq_nil_iff.2 fun c hc => by
    obtain ⟨⟨-, hmshrs, -⟩, -⟩ := h.cores c (hcs c hc)
    rw [prefetchNeeds, hmshrs]; rfl
  have hatomics : cs.flatMap (fun c => (cell s c).atomics) = [] := List.flatMap_eq_nil_iff.2 fun c hc => (h.cores c (hcs c hc)).2
  have hsettle : settleWait s (cs.flatMap tidsOf) = none := by rw [settleWait, hpush, hneeds]; rfl
  rw [Machine.coresWait, hsettle, hprefetch, hatomics]; rfl

theorem allSent.settle {cs : List Nat} (hcs : ∀ c ∈ cs, c < 772) : cs.foldl settleCore s = s := by
  induction cs with
  | nil => rfl
  | cons c cs ih =>
    rw [List.foldl_cons, settleCore_nothingOut (h.cores c (hcs c (List.mem_cons_self ..))).1 h.units]
    exact ih fun d hd => hcs d (List.mem_cons_of_mem c hd)

end

/-- The cores that the state lists. -/
def listedCores (s : State) : List Nat := (s.cells.map (fun p => p.1)).filter (fun c => decide (c < 772))

theorem mem_listedCores {s : State} {c : Nat} : c ∈ listedCores s ↔ (∃ x, (c, x) ∈ s.cells) ∧ c < 772 := by simp [listedCores]

theorem tget?_none_of_not_mem {α : Type} {k : Nat} : ∀ {t : Table α}, (∀ x, (k, x) ∉ t) → tget? t k = none
  | [], _ => rfl
  | (a, x) :: t, h => by
    have ha : a ≠ k := fun hk => h x (by rw [← hk]; exact List.mem_cons_self ..)
    rw [tget?, if_neg ha]
    exact tget?_none_of_not_mem fun y hy => h y (List.mem_cons_of_mem _ hy)

/-- A core that the state does not list is as reset left it. -/
theorem cell_unlisted {s : State} {c : Nat} (h : c ∉ listedCores s) (hc : c < 772) : cell s c = cellReset c := by
  have hnone : ∀ x, (c, x) ∉ s.cells := fun x hx => h (mem_listedCores.2 ⟨⟨x, hx⟩, hc⟩)
  rw [cell, tget, tget?_none_of_not_mem hnone]; rfl

/-- The end of an invalidation at cores. -/
def coresEnded (cs : List Nat) (s : State) : State := cs.foldl (fun s c => modCell s c (tlbEnd (tlbScope s))) s

theorem coresEnded_spec (cs : List Nat) (s : State) : coresEnded cs s = { s with cells := (coresEnded cs s).cells }
    ∧ ∀ c, cell (coresEnded cs s) c = if c ∈ cs then tlbEnd (tlbScope s) (cell s c) else cell s c :=
  foldl_modCellBy (fun s => tlbEnd (tlbScope s)) (fun s c g => by rw [tlbScope_modCell]) (fun s => tlbEnd_tlbEnd _) cs s

/-- What an ended invalidation leaves of a core (R101). -/
def invEnded (P : TlbEnt → Bool) (x y : CellS) : Prop :=
  y = { x with itlb := y.itlb, dtlb := y.dtlb, l2tlb := y.l2tlb, walker := y.walker }
    ∧ (x.power = .run → ∀ e, (e ∈ y.itlb ↔ e ∈ x.itlb ∧ P e = false) ∧ (e ∈ y.dtlb ↔ e ∈ x.dtlb ∧ P e = false))
    ∧ (x.power ≠ .run → y.itlb = [] ∧ y.dtlb = [] ∧ y.l2tlb = [])
    ∧ ∀ p ∈ y.l2tlb, ∀ e, some e ∈ p.2.ways → P e = false

theorem tlbEnd_invEnded (P : TlbEnt → Bool) (x : CellS) : invEnded P x (tlbEnd P x) := by
  obtain ⟨hfirst, hsecond⟩ := tlbDrop_dropped P x
  unfold tlbEnd
  split
  next hrun => exact ⟨rfl, fun _ => hfirst, fun hn => absurd hrun hn, hsecond⟩
  next hrun => exact ⟨rfl, fun h => absurd h hrun, fun _ => ⟨rfl, rfl, rfl⟩, fun p hp => absurd hp List.not_mem_nil⟩

theorem cellReset_invEnded (P : TlbEnt → Bool) (c : Nat) : invEnded P (cellReset c) (cellReset c) :=
  ⟨rfl, fun _ _ => ⟨by simp [cellReset], by simp [cellReset]⟩, fun _ => ⟨rfl, rfl, rfl⟩, fun p hp => absurd hp List.not_mem_nil⟩

theorem coresEnded_invEnded (s : State) {c : Nat} (hc : c < 772) : invEnded (tlbScope s) (cell s c) (cell (coresEnded (listedCores s) s) c) := by
  rw [(coresEnded_spec (listedCores s) s).2]
  split
  next => exact tlbEnd_invEnded _ _
  next hout => rw [cell_unlisted hout hc]; exact cellReset_invEnded _ c

section
variable {s : State} (hgo : rf s .devTlbinv F.devTlbinvGo = 1) (hruns : ∀ p ∈ s.lining, ∀ q ∈ p.2.runs, q.2.inv = false) (hsent : allSent s)
include hgo hruns hsent

theorem exec_tlbInvalidateDone_ends : exec .tlbInvalidateDone s = .next (setRf (coresEnded (listedCores s) s) .devTlbinv F.devTlbinvGo 0) := by
  have hcmd : exec .tlbInvalidateDone s = execTlbInvalidateDone s := rfl
  have hlisted : ∀ c ∈ listedCores s, c < 772 := fun c hc => (mem_listedCores.1 hc).2
  have hchunks : s.lining.any (fun p => p.2.runs.any (fun q => q.2.inv)) = false :=
    List.any_eq_false.2 fun p hp => by simpa using hruns p hp
  have hunsent : (listedCores s).any (unsent s) = false := List.any_eq_false.2 fun c hc => by simp [hsent.unsent (hlisted c hc)]
  rw [hcmd, execTlbInvalidateDone]
  dsimp only
  rw [← listedCores, hgo, hchunks, hunsent, if_neg (by simp), hsent.coresWait hlisted]
  dsimp only
  rw [hsent.settle hlisted]
  rfl

theorem tlbInvalidateDone_ends :
    ∃ n, exec .tlbInvalidateDone s = .next n ∧ n = { s with mmio := n.mmio, cells := n.cells } ∧ regsKept [.devTlbinv] s n ∧ fieldsKept .devTlbinv 0 [F.devTlbinvGo] s n
      ∧ rf n .devTlbinv F.devTlbinvGo = 0 ∧ ∀ c, c < 772 → invEnded (tlbScope s) (cell s c) (cell n c) := by
  have hframe := (coresEnded_spec (listedCores s) s).1
  set q := coresEnded (listedCores s) s with hq
  have hreg (r : RegName) (i : Nat) : reg q r i = reg s r i := by rw [hframe]; rfl
  refine ⟨_, exec_tlbInvalidateDone_ends hgo hruns hsent, ?_, fun r i hi hr => ?_, fun j hj hout => ?_, ?_, fun c hc => ?_⟩
  · rw [← hq, setRf_eq, hframe]
  · exact (regsKept_setRf q .devTlbinv F.devTlbinvGo 0 r i hi hr).trans (hreg r i)
  · rw [fieldsKept_setRf q .devTlbinv (by decide) (by decide) 0 0 j hj hout, hreg]
  · exact rf_setRf_same q .devTlbinv F.devTlbinvGo 0 0 (by decide) (by decide)
  · rw [cell_setRf]; exact coresEnded_invEnded s hc

end

end Sys2Proof.Machine
end

section
/-! PROOFS. The update of a commit or a discard at a cell, thread by thread (R94, R228, R293, R294, R301); then the statement on translations and their invalidation. -/

namespace Sys2Proof.Machine

open Sys2Proof.Safety

/-! ## What a thread's update leaves of the cell (R94) -/

/-- Between s and n threads of core c were stopped or made ordinary: the core keeps its EPOCH, its updates, its streams and its caches, and no fill in flight regains its line. -/
structure endsWork (c : Nat) (s n : State) : Prop where
  frame : n = { s with threads := n.threads, cells := n.cells, pegs := { s.pegs with waves := n.pegs.waves } }
  others : ∀ d, d ≠ c → cell n d = cell s d
  epoch : (cell n c).epoch = (cell s c).epoch
  updates : (cell n c).updates = (cell s c).updates
  streams : (cell n c).streams = (cell s c).streams
  l1 : (cell n c).l1 = (cell s c).l1
  victim : (cell n c).victim = (cell s c).victim
  fills : (cell n c).mshrs.map (fun m => m.install) = (cell s c).mshrs.map (fun m => m.install)

theorem endsWork.refl (c : Nat) (s : State) : endsWork c s s := ⟨rfl, fun _ _ => rfl, rfl, rfl, rfl, rfl, rfl, rfl⟩

theorem endsWork.trans {c : Nat} {a b d : State} (h : endsWork c a b) (k : endsWork c b d) : endsWork c a d where
  frame := by rw [k.frame, h.frame]
  others e he := (k.others e he).trans (h.others e he)
  epoch := k.epoch.trans h.epoch
  updates := k.updates.trans h.updates
  streams := k.streams.trans h.streams
  l1 := k.l1.trans h.l1
  victim := k.victim.trans h.victim
  fills := k.fills.trans h.fills

theorem endsWork.flushed {c : Nat} {s n : State} (h : endsWork c s n) (hs : flushed s c) : Safety.flushed n c := by
  obtain ⟨hl1, hvictim, hmshrs⟩ := hs
  refine ⟨h.l1.trans hl1, h.victim.trans hvictim, fun m hm => ?_⟩
  have hin : m.install ∈ (cell s c).mshrs.map (fun m => m.install) := by rw [← h.fills]; exact List.mem_map_of_mem hm
  obtain ⟨m', hm', hinstall⟩ := List.mem_map.1 hin
  rw [← hinstall, hmshrs m' hm']

theorem endsWork.tasks {c : Nat} {s n : State} (h : endsWork c s n) : n.tasks = s.tasks := by rw [h.frame]

/-- A change of core c that touches none of what `endsWork` keeps. -/
theorem modCell_endsWork (s : State) (c : Nat) {f : CellS → CellS}
    (h : ∀ x, (f x).epoch = x.epoch ∧ (f x).updates = x.updates ∧ (f x).streams = x.streams ∧ (f x).l1 = x.l1 ∧ (f x).victim = x.victim
      ∧ (f x).mshrs.map (fun m => m.install) = x.mshrs.map (fun m => m.install)) : endsWork c s (modCell s c f) := by
  obtain ⟨hepoch, hupdates, hstreams, hl1, hvictim, hfills⟩ := h (cell s c)
  rw [← cell_modCell_same s c f] at hepoch hupdates hstreams hl1 hvictim hfills
  exact ⟨rfl, fun d hd => by rw [cell_modCell, if_neg hd], hepoch, hupdates, hstreams, hl1, hvictim, hfills⟩

theorem modThread_endsWork (s : State) (c : Nat) (t : Tid) (f : Thread → Thread) : endsWork c s (modThread s t f) :=
  ⟨rfl, fun _ _ => rfl, rfl, rfl, rfl, rfl, rfl, rfl⟩

theorem leaveWaves_endsWork (s : State) (c : Nat) (t : Tid) : endsWork c s (leaveWaves s t) := ⟨rfl, fun _ _ => rfl, rfl, rfl, rfl, rfl, rfl, rfl⟩

theorem capoHeld_endsWork (s : State) (c : Nat) : endsWork c s (capoHeld s c) := by
  unfold capoHeld
  split
  · split
    · exact .refl c s
    · exact modCell_endsWork s c fun _ => ⟨rfl, rfl, rfl, rfl, rfl, rfl⟩
  · exact .refl c s

theorem dropLoads_fills (thr mark : Nat) (x : CellS) : (dropLoads thr mark x).mshrs.map (fun m => m.install) = x.mshrs.map (fun m => m.install) := by
  simp only [dropLoads, List.map_map]; rfl

theorem stopThread_endsWork (s : State) (t : Tid) : endsWork (cellOf t) s (stopThread s t) :=
  (((leaveWaves_endsWork s _ t).trans (modThread_endsWork _ _ t _)).trans
    (modCell_endsWork (f := dropLoads (thrOf t) 0) _ _ fun x => ⟨rfl, rfl, rfl, rfl, rfl, dropLoads_fills _ _ x⟩)).trans (capoHeld_endsWork _ _)

theorem ordinaryThread_endsWork (s : State) (t : Tid) : endsWork (cellOf t) s (ordinaryThread s t) := by
  unfold ordinaryThread
  refine .trans ?_ (modThread_endsWork _ _ t _)
  exact modCell_endsWork s (cellOf t) fun _ => ⟨rfl, rfl, rfl, rfl, rfl, rfl⟩

theorem discardThread_endsWork {s : State} {t : Tid} (h : unitsDone s t) : endsWork (cellOf t) s (discardThread s t) := by
  rw [discardThread, finishUnits_done h]
  exact (stopThread_endsWork s t).trans (modCell_endsWork _ _ fun _ => ⟨rfl, rfl, rfl, rfl, rfl, rfl⟩)

/-! ## What it leaves of the thread (R293, R301) -/

/-- A thread of an aborted task as its stop leaves it (R301). -/
def stopped (th : Thread) : Thread :=
  { th with st := .idle, mine := 0, spec := none, task := none, hold := [], younger := 0, busy := 0, vq := [], tq := [], late := none }

/-- A thread of a committed step as the commit leaves it (R293, R300). -/
def ordinary (th : Thread) : Thread := { th with spec := none, st := if th.st = .waiting .held then .ready else th.st }

theorem thread_stopThread (s : State) (t u : Tid) : thread (stopThread s t) u = if u = t then stopped (thread s t) else thread s u := by
  have hcapo (p : State) (c : Nat) : thread (capoHeld p c) u = thread p u := by rw [(capoHeld_frame p c).1]; rfl
  rw [stopThread, hcapo, thread_modCell, thread_modThread]
  rfl

theorem thread_discardThread {s : State} {t : Tid} (h : unitsDone s t) (u : Tid) :
    thread (discardThread s t) u = if u = t then stopped (thread s t) else thread s u := by
  rw [discardThread, finishUnits_done h, thread_modCell, thread_stopThread]

theorem thread_ordinaryThread (s : State) (t u : Tid) : thread (ordinaryThread s t) u = if u = t then ordinary (thread s t) else thread s u := by
  rw [ordinaryThread, thread_modThread]; rfl

/-- A thread after an update at it: a discard stops it if its task is aborted, a commit of its step makes it ordinary. -/
def updated (u : HemUpdate) (s : State) (t : Tid) : Thread :=
  if u.discard then (if isAborted s t then stopped (thread s t) else thread s t)
  else if (thread s t).spec = some u.step then ordinary (thread s t) else thread s t

/-- An update looks at its thread and at the tasks that run. -/
theorem updated_congr (u : HemUpdate) {s n : State} {t : Tid} (ht : thread n t = thread s t) (htasks : n.tasks = s.tasks) : updated u n t = updated u s t := by
  unfold updated isAborted; rw [ht, htasks]

theorem updateThread_endsWork (u : HemUpdate) {s : State} {t : Tid} (h : unitsDone s t) : endsWork (cellOf t) s (updateThread u s t) := by
  unfold updateThread
  split_ifs
  · exact discardThread_endsWork h
  · exact .refl _ s
  · exact ordinaryThread_endsWork s t
  · exact .refl _ s

theorem thread_updateThread (u : HemUpdate) {s : State} {t : Tid} (h : unitsDone s t) (v : Tid) :
    thread (updateThread u s t) v = if v = t then updated u s t else thread s v := by
  have hsame : thread s v = if v = t then thread s t else thread s v := (ite_eq_right_iff.2 fun hv => by rw [hv]).symm
  by_cases hd : u.discard = true
  · by_cases ha : isAborted s t = true
    · simp only [updateThread, updated, if_pos hd, if_pos ha]; exact thread_discardThread h v
    · simp only [updateThread, updated, if_pos hd, if_neg ha]; exact hsame
  · by_cases hspec : (thread s t).spec = some u.step
    · simp only [updateThread, updated, if_neg hd, if_pos hspec]; exact thread_ordinaryThread s t v
    · simp only [updateThread, updated, if_neg hd, if_neg hspec]; exact hsame

/-- An update at a core's threads, one after another. -/
theorem foldl_updateThread (u : HemUpdate) {c : Nat} (ts : List Tid) (s : State) (hnodup : ts.Nodup) (hts : ∀ t ∈ ts, cellOf t = c ∧ unitsDone s t) :
    endsWork c s (ts.foldl (updateThread u) s) ∧ ∀ v, thread (ts.foldl (updateThread u) s) v = if v ∈ ts then updated u s v else thread s v := by
  induction ts generalizing s with
  | nil => exact ⟨.refl c s, fun v => by simp⟩
  | cons t ts ih =>
    obtain ⟨hnot, hnodup⟩ := List.nodup_cons.1 hnodup
    obtain ⟨hc, ht⟩ := hts t (List.mem_cons_self ..)
    have hhead := updateThread_endsWork u ht
    rw [hc] at hhead
    have hthread := thread_updateThread u ht
    have hkept : ∀ v ∈ ts, thread (updateThread u s t) v = thread s v := fun v hv => by
      rw [hthread, if_neg (ne_of_mem_of_not_mem hv hnot)]
    have hrest : ∀ v ∈ ts, cellOf v = c ∧ unitsDone (updateThread u s t) v := fun v hv => by
      obtain ⟨hvc, hv'⟩ := hts v (List.mem_cons_of_mem t hv)
      exact ⟨hvc, by unfold unitsDone; rw [hkept v hv]; exact hv'⟩
    obtain ⟨ktail, kthread⟩ := ih (updateThread u s t) hnodup hrest
    rw [List.foldl_cons]
    refine ⟨hhead.trans ktail, fun v => ?_⟩
    rw [kthread]
    by_cases hv : v ∈ ts
    · rw [if_pos hv, if_pos (List.mem_cons_of_mem t hv), updated_congr u (hkept v hv) hhead.tasks]
    · rw [if_neg hv, hthread]
      by_cases hvt : v = t
      · rw [if_pos hvt, hvt, if_pos (List.mem_cons_self ..)]
      · rw [if_neg hvt, if_neg (by simp [hvt, hv])]

/-! ## The cell's own part (R94, R228) -/

/-- The oldest update taken: its EPOCH, no L1 line, no victim, no stream (R94, R228). -/
theorem applyUpdateTo_takes (s : State) (c : Nat) (u : HemUpdate) :
    flashKeeps c s (flash s c) ∧ applyUpdateTo s c u = { flash s c with cells := (applyUpdateTo s c u).cells } ∧ flushed (applyUpdateTo s c u) c
      ∧ (cell (applyUpdateTo s c u) c).epoch = u.epoch ∧ (cell (applyUpdateTo s c u) c).updates = (cell s c).updates.drop 1 ∧ (cell (applyUpdateTo s c u) c).streams = []
      ∧ ∀ d, d ≠ c → cell (applyUpdateTo s c u) d = cell s d := by
  have hkeeps := flash_keeps s c
  obtain ⟨-, hothers, hcell, -⟩ := id hkeeps
  obtain ⟨hl1, hvictim, hmshrs⟩ := flash_cell s c
  refine ⟨hkeeps, rfl, ?_, ?_, ?_, ?_, fun d hd => ?_⟩
  · unfold flushed applyUpdateTo
    rw [cell_modCell_same]
    refine ⟨hl1, hvictim, fun m hm => ?_⟩
    replace hm : m ∈ (cell (flash s c) c).mshrs := hm
    rw [hmshrs] at hm
    obtain ⟨_, -, rfl⟩ := List.mem_map.1 hm
    rfl
  · rw [applyUpdateTo, cell_modCell_same]
  · rw [applyUpdateTo, cell_modCell_same, hcell]
  · rw [applyUpdateTo, cell_modCell_same]
  · rw [applyUpdateTo, cell_modCell, if_neg hd, hothers d hd]

theorem tidsOf_nodup (c : Nat) : (tidsOf c).Nodup := by
  refine List.Nodup.map_on (fun i hi j hj hij => ?_) List.nodup_range
  have hval := congrArg Fin.val hij
  simp only [List.mem_range, thrCount] at hi hj
  by_cases h : c < 768
  · simp only [tidOf, if_pos h, Fin.val_ofNat] at hi hj hval
    omega
  · simp only [tidOf, if_neg h, Fin.val_ofNat] at hi hj hval
    omega

/-- A thread that runs no SPEC task is left by any update. -/
theorem updated_plain (u : HemUpdate) {s : State} {t : Tid} (h : (thread s t).spec = none) : updated u s t = thread s t := by
  simp [updated, isAborted, h]

/-! ## The command -/

section
variable {s : State} {c : Cid}

theorem exec_epochUpdateApply : exec (.epochUpdateApply c) s = .next (applyUpdate s c.val) := rfl

theorem applyUpdate_none (h : (cell s c.val).updates = []) : applyUpdate s c.val = s := by rw [applyUpdate, h]

theorem applyUpdate_oldest {u : HemUpdate} {rest : List HemUpdate} (h : (cell s c.val).updates = u :: rest) :
    applyUpdate s c.val = (tidsOf c.val).foldl (updateThread u) (applyUpdateTo s c.val u) := by
  rw [applyUpdate, h]; rfl

/-- A cell applies the oldest of its updates, and its threads follow it (R94). -/
theorem epochUpdateApply_applies {u : HemUpdate} {rest : List HemUpdate} (h : (cell s c.val).updates = u :: rest) (hunits : ∀ t ∈ tidsOf c.val, unitsDone s t) :
    ∃ n, exec (.epochUpdateApply c) s = .next n ∧ (cell n c.val).epoch = u.epoch ∧ (cell n c.val).updates = rest ∧ (cell n c.val).streams = [] ∧ flushed n c.val
      ∧ n = { s with threads := n.threads, cells := n.cells, mmio := n.mmio, out := n.out, pba := n.pba, msixDue := n.msixDue, pegs := { s.pegs with waves := n.pegs.waves } }
      ∧ (∀ d, d ≠ c.val → cell n d = cell s d) ∧ regsKept [.perfCnt, .perfEvt] s n ∧ bytesKept s n
      ∧ ∀ t, thread n t = if t ∈ tidsOf c.val ∧ (thread s t).spec.isSome = true then updated u s t else thread s t := by
  obtain ⟨hflash, hframe, hflushed, hepoch, hupdates, hstreams, hothers⟩ := applyUpdateTo_takes s c.val u
  set q := applyUpdateTo s c.val u
  have hthread (t : Tid) : thread q t = thread s t := by rw [← hflash.thread t, hframe]; rfl
  have htasks : q.tasks = s.tasks := by rw [hframe, hflash.1]
  obtain ⟨hends, hthreads⟩ := foldl_updateThread u (tidsOf c.val) q (tidsOf_nodup c.val)
    (fun t ht => ⟨(mem_tidsOf c.isLt t).1 ht, by unfold unitsDone; rw [hthread]; exact hunits t ht⟩)
  have hexec : exec (.epochUpdateApply c) s = .next ((tidsOf c.val).foldl (updateThread u) q) := exec_epochUpdateApply.trans (congrArg _ (applyUpdate_oldest h))
  generalize (tidsOf c.val).foldl (updateThread u) q = n at hends hthreads hexec
  have hregs : regsKept [.perfCnt, .perfEvt] s n := fun r i hi hr => by
    rw [← hflash.2.2.2 r i hi hr]
    exact reg_of_mmio (by rw [hends.frame, hframe]) r i
  refine ⟨n, hexec, hends.epoch.trans hepoch, ?_, hends.streams.trans hstreams, hends.flushed hflushed, ?_, fun d hd => (hends.others d hd).trans (hothers d hd), hregs, ?_, fun t => ?_⟩
  · rw [hends.updates, hupdates, h]; rfl
  · rw [hends.frame, hframe, hflash.1]
  · exact (sameHome_of_regs (by rw [hends.frame, hframe, hflash.1]) hregs (by decide) (by decide)).bytes
  · rw [hthreads, updated_congr u (hthread t) htasks, hthread]
    by_cases ht : t ∈ tidsOf c.val
    · cases hspec : (thread s t).spec with
      | none => simp [ht, updated_plain u hspec]
      | some step => simp [ht]
    · simp [ht]

end

/-! ## The statement -/

/-- Settles O43. A walk, a request of DEV_TLBINV, its end and an update of the hem have a lemma each. -/
theorem translationsAndInvalidation : Obligations.TranslationsAndInvalidation := by
  unfold Obligations.TranslationsAndInvalidation
  refine ⟨fun s t va k => ⟨exec_pageWalk_skips, pageWalk_walks⟩, fun s a v ht => ⟨fun ha => ?_, fun ha hgo => ?_, fun ha hgo hv hscope => ?_⟩,
    fun s hgo hruns hcores hthreads => ?_, fun s c => ⟨fun hnone => ?_, fun u rest hold hunits => epochUpdateApply_applies hold hunits⟩⟩
  · rw [exec_tlbInvalidate_takes ht, tlbinvWrite_user ha]
  · rw [exec_tlbInvalidate_takes ht, tlbinvWrite_busy ha hgo]
  · obtain ⟨n, hexec, hframe, hregs, hone, hfields, hothers, hengines, hlining⟩ := tlbInvalidate_requests ht ha hgo hv hscope
    refine ⟨n, hexec, hframe, hregs, hone, hfields, hothers, fun c hc => ?_, hlining⟩
    dsimp only
    rw [hengines c hc]
    exact ⟨rfl, (tlbDrop_dropped (writtenScope v) (cell s c)).1⟩
  · refine tlbInvalidateDone_ends hgo hruns ⟨fun c hc => ?_, fun t => (hthreads t).1, fun t => (hthreads t).2.1, fun t => (hthreads t).2.2⟩
    obtain ⟨hwb, hmshrs, hloads, hslots, hheld, hatomics⟩ := hcores c hc
    exact ⟨⟨hwb, hmshrs, hloads, hslots, hheld⟩, hatomics⟩
  · rw [exec_epochUpdateApply, applyUpdate_none hnone]

end Sys2Proof.Machine
end

section
/-! PROOFS. What a vector instruction leaves that stays in the registers and issues alone (R32, R33, R112). -/

namespace Sys2Proof.Machine

open Sys2Proof.Safety

/-- Instruction i of thread t is decoupled with the form df, and its unit does what `vPure` says of it. -/
structure RunsPure (i : Instr) (t : Tid) (df : DecForm) : Prop where
  form : decForm i = some df := by rfl
  owner : df.t = t := by rfl
  inUnit : ∀ (s : State) (e : DecEntry), dRun s t { e with instr := i } = if isMantle (cellOf t) then dIllegal s { e with instr := i } else runVPure s t { e with instr := i } := by
    intros; rfl
  issues : ∀ s, exec i s = .next ((runDecoupled true i s).getD s) := by intros; rfl

theorem RunsPure.run {i : Instr} {t : Tid} {df : DecForm} (h : RunsPure i t df) (s : State) (e : DecEntry) (he : e.instr = i)
    (hm : isMantle (cellOf t) = false) : dRun s t e = runVPure s t e := by
  subst he
  exact (h.inUnit s e).trans (by rw [hm]; rfl)

/-- What `vPure` may rely on of the thread and the operands that the unit hands it: the vector state and the system registers are those at issue, the element numbers count from zero. -/
structure AtIssue (s : State) (t : Tid) (th : Thread) (d : DCtx) : Prop where
  v : th.v = (thread s t).v
  q : th.q = (thread s t).q
  sr : th.sr = (thread s t).sr
  step : d.step = stepReg s (thread s t).spec.isSome
  base : d.base = 0

/-- `vec_done` for an instruction without scalar operands or result, whose elements' random bits count from zero (R149). -/
theorem plain_done {s : State} {i : Instr} {t : Tid} {df : DecForm} (hi : RunsPure i t df) (hr : decReady s t []) (hregs : ∀ r ∈ df.regs, r = 0)
    (hdst : df.dst = none) {v' : Table (BitVec 8192)} {fl : Nat}
    (hp : ∀ th d, AtIssue s t th d → vPure i th d = some (t, .ok { th with v := v' } fl none)) :
    ∃ n, exec i s = .next n ∧ decDone s n t ((thread s t).pc + (if df.long then 12 else 4)) ∧ (thread n t).v = v'
      ∧ (thread n t).q = (thread s t).q ∧ (thread n t).regs = (thread s t).regs ∧ flagsGained s n t (fun j => fl.testBit j = true) := by
  obtain rfl := hi.owner
  have hbegun := begun_thread s df i hr.2.2.1 hr.2.2.2.1
  have hpure := hp (thread (begun s df i) df.t) (entD (begun s df i) df.t (startEntry s df i)) ⟨by rw [hbegun], by rw [hbegun], by rw [hbegun], rfl, rfl⟩
  have hs : startsNow s df i := decReady_starts hr rfl (fun h => absurd h (vPure_pipe hpure))
  set s1 := begun s df i
  set s2 := setThread s1 df.t { thread s1 df.t with v := v' } with hs2
  have hs2t : thread s2 df.t = { thread s1 df.t with v := v' } := by rw [hs2, thread_setThread_same]
  have hrun : dRun s1 df.t (startEntry s df i) = .done s2 fl none := by
    rw [hi.run _ _ rfl hs.cellId, runVPure, show (startEntry s df i).instr = i from rfl, hpure]
  have hissue : mayIssue s df.t false df.regs = true := decReady_issue hr (fun r h => by rw [hregs r h]; simp)
  obtain ⟨n, hnext, honly, hn⟩ := runDecoupled_done s i df hi.form hs hissue _ fl none hrun (by rw [hs2t]) (by rw [hs2t]) (by rw [hs2t])
  have hframe : unitFrame df.t s n :=
    begun_frame s df i hs.vq hs.tq n ((show threadOnly df.t s1 s2 from ⟨rfl, fun u hu => by rw [hs2, thread_setThread, if_neg hu]⟩).trans honly)
  obtain ⟨hkept, hgained⟩ := setFlags_gained s2 df.t fl
  have hsr : ∀ m, srAt s2 df.t m = srAt s df.t m := srAt_congr (by rw [hs2t, hbegun])
  rw [hs2t, hbegun, show awaited s df = (thread s df.t).busy by unfold awaited; rw [hdst]] at hn
  have hsrn : ∀ m, srAt n df.t m = srAt (setFlags s2 df.t fl) df.t m := srAt_congr (by rw [hn]; rfl)
  have hv := hs.vq
  have ht := hs.tq
  have hh := hs.hold
  refine ⟨n, by rw [hi.issues, hnext]; rfl, ⟨?_, hframe⟩, by rw [hn]; rfl, by rw [hn]; rfl, by rw [hn]; rfl, fun m hm => ?_, fun j hj => ?_⟩
  · rw [hn]
    generalize thread s df.t = th at *
    cases th; simp only at hv ht hh; subst hv ht hh; rfl
  · rw [hsrn, hkept m hm, hsr]
  · rw [hsrn, hgained j hj, hsr]

theorem flagsGained_congr {s n : State} {t : Tid} {fl fl' : Nat → Prop} (h : flagsGained s n t fl) (hfl : ∀ j, fl j ↔ fl' j) : flagsGained s n t fl' :=
  ⟨h.1, fun j hj => by rw [h.2 j hj, hfl]⟩

/-! ## Active elements (R107, R112) -/

theorem active_eq_qBit (th : Thread) {qp w g k : Nat} (h : k * w / (8 * g) < 1024) : active (qget th qp) w g k = qBit th qp (k * w / (8 * g)) := by
  rw [active, govBit, qget_testBit, qBit]
  by_cases hq : qp = 0 <;> simp [hq, h]

theorem vActive_iff_qBit (th : Thread) (qp w g k : Nat) : vActive th qp w g k ↔ qBit th qp (k * w / (8 * g)) = true := by
  simp [vActive, qBit]

/-- Full registers past a group's elements keep every bit, so they stay. -/
theorem vRest_of_bits {s n : State} {t : Tid} {vd w g : Nat}
    (h : ∀ r b, b < 8192 → r < vd ∨ w * (g * 8192 / w) ≤ 8192 * (r - vd) + b → (tget 0 (thread n t).v r).getLsbD b = (tget 0 (thread s t).v r).getLsbD b) :
    vRest s n t vd g := by
  refine fun r hr => BitVec.eq_of_getLsbD_eq fun b hb => h r b hb ?_
  have hle : w * (g * 8192 / w) ≤ g * 8192 := Nat.mul_div_le _ _
  omega

section
variable {w ww g n vd qp : Nat} (hw : w ≤ 64) (hww : 0 < ww) (hn : n = g * 8192 / ww) (th : Thread) (fn : Nat → Nat → Fl Nat)
include hww hn

/-- The group's elements with a map of the active ones laid over them. -/
theorem active_mapped {k : Nat} (hk : k < n) : active (qget th qp) ww g k = qBit th qp (k * ww / (8 * g)) :=
  active_eq_qBit th (gov_below hww (by rw [← hn]; exact hk))

include hw

theorem vEl_mapped {k : Nat} (hk : k < n) :
    vEl (putGroup th vd w (mapActive (qget th qp) ww g (groupEls th vd w n) fn).1).v w vd k
      = if qBit th qp (k * ww / (8 * g)) then BitVec.ofNat w (fn k (vEl th.v w vd k).toNat).1 else vEl th.v w vd k := by
  have hlen : (mapActive (qget th qp) ww g (groupEls th vd w n) fn).1.length = n := by rw [mapActive_length, length_groupEls]
  rw [vEl_putGroup _ _ _ hw (by rw [hlen]; exact mul_lt_regsOf hk), if_pos (by rw [hlen]; exact hk),
    mapActive_getD _ _ _ _ _ (by rw [length_groupEls]; exact hk), groupEls_getD th vd hw hk, active_mapped hww hn th hk]
  split
  · rfl
  · simp

theorem flags_mapped (j : Nat) :
    (mapActive (qget th qp) ww g (groupEls th vd w n) fn).2.testBit j = true
      ↔ ∃ k, k < n ∧ qBit th qp (k * ww / (8 * g)) = true ∧ (fn k (vEl th.v w vd k).toNat).2.testBit j = true := by
  rw [mapActive_flags, length_groupEls]
  refine exists_congr fun k => and_congr_right fun hk => ?_
  rw [active_mapped hww hn th hk, groupEls_getD th vd hw hk]

end

/-- An instruction that maps the active elements of a group: the group's elements, the bits that none of them covers, the flags. -/
theorem mapped_done {s : State} {i : Instr} {t : Tid} {df : DecForm} (hi : RunsPure i t df) (hr : decReady s t []) (hregs : ∀ r ∈ df.regs, r = 0)
    (hdst : df.dst = none) {w ww g n vd qp : Nat} (hw : w ≤ 64) (hww : 0 < ww) (hn : n = g * 8192 / ww) {fn : Nat → Nat → Fl Nat}
    (hp : ∀ th d, AtIssue s t th d → vPure i th d = some (t,
      .ok (putGroup th vd w (mapActive (qget th qp) ww g (groupEls th vd w n) fn).1) (mapActive (qget th qp) ww g (groupEls th vd w n) fn).2 none))
    {el : Nat → BitVec w × Nat}
    (hel : ∀ k, k < n → el k = (BitVec.ofNat w (fn k (vEl (thread s t).v w vd k).toNat).1, (fn k (vEl (thread s t).v w vd k).toNat).2)) :
    ∃ m, exec i s = .next m ∧ decDone s m t ((thread s t).pc + (if df.long then 12 else 4))
      ∧ (∀ k, k < n → vEl (thread m t).v w vd k = if qBit (thread s t) qp (k * ww / (8 * g)) then (el k).1 else vEl (thread s t).v w vd k)
      ∧ (∀ r b, b < 8192 → r < vd ∨ w * n ≤ 8192 * (r - vd) + b → (tget 0 (thread m t).v r).getLsbD b = (tget 0 (thread s t).v r).getLsbD b)
      ∧ (thread m t).q = (thread s t).q ∧ (thread m t).regs = (thread s t).regs
      ∧ flagsGained s m t (fun j => ∃ k, k < n ∧ qBit (thread s t) qp (k * ww / (8 * g)) = true ∧ (el k).2.testBit j = true) := by
  obtain ⟨r, hr'⟩ : ∃ r, r = mapActive (qget (thread s t) qp) ww g (groupEls (thread s t) vd w n) fn := ⟨_, rfl⟩
  have hlen : r.1.length = n := by rw [hr', mapActive_length, length_groupEls]
  obtain ⟨m, hexec, hdone, hv, hq, hscalar, hflags⟩ := plain_done (v' := (putGroup (thread s t) vd w r.1).v) (fl := r.2) hi hr hregs hdst
    (fun th d h => by rw [hp th d h, groupEls_congr h.v, qget_congr h.q, ← hr', putGroup_congr h.v])
  refine ⟨m, hexec, hdone, fun k hk => ?_, fun q b hb h => ?_, hq, hscalar, flagsGained_congr hflags fun j => ?_⟩
  · rw [hv, hr', vEl_mapped hw hww hn _ _ hk, hel k hk]
  · rw [hv, putGroup_bit _ _ _ hb (by rw [hlen]; exact h)]
  · rw [hr', flags_mapped hw hww hn]
    exact exists_congr fun k => and_congr_right fun hk => by rw [hel k hk]

/-- `mapped_done` of a whole group. -/
theorem mapped_gives {s : State} {i : Instr} {t : Tid} {df : DecForm} (hi : RunsPure i t df) (hr : decReady s t []) (hregs : ∀ r ∈ df.regs, r = 0)
    (hdst : df.dst = none) {w g vd qp : Nat} (hw : elWidth w) {fn : Nat → Nat → Fl Nat}
    (hp : ∀ th d, AtIssue s t th d → vPure i th d = some (t,
      .ok (putGroup th vd w (mapActive (qget th qp) w g (groupEls th vd w (g * 8192 / w)) fn).1)
        (mapActive (qget th qp) w g (groupEls th vd w (g * 8192 / w)) fn).2 none))
    {el : Nat → BitVec w → BitVec w × Nat}
    (hel : ∀ k, k < g * 8192 / w → ∀ old, el k old = (BitVec.ofNat w (fn k old.toNat).1, (fn k old.toNat).2)) :
    vecGives i s t ((thread s t).pc + (if df.long then 12 else 4)) w g vd qp el := by
  obtain ⟨m, hexec, hdone, hels, hbits, hq, hregs, hflags⟩ := mapped_done (el := fun k => el k (vEl (thread s t).v w vd k)) hi hr hregs hdst hw.le hw.pos rfl hp
    (fun k hk => hel k hk _)
  have hact : ∀ k, vActive (thread s t) qp w g k ↔ qBit (thread s t) qp (k * w / (8 * g)) = true := vActive_iff_qBit _ _ _ _
  refine ⟨m, hexec, hdone, fun k hk => ⟨fun ha => ?_, fun ha => ?_⟩, vRest_of_bits hbits, hq, hregs, ?_⟩
  · rw [hels k hk, if_pos ((hact k).1 ha.2)]
  · rw [hels k hk, if_neg (fun h => ha ⟨hk, (hact k).2 h⟩)]
  · exact flagsGained_congr hflags fun j => exists_congr fun k => by beta_reduce; rw [hact, and_assoc]

end Sys2Proof.Machine
end

section
/-! PROOFS. The integer vector instructions (R115): an element's result, and the statement. -/

namespace Sys2Proof.Machine

open Sys2Proof.Safety

/-! ## Values of elements -/

theorem sval_toNat {w : Nat} (x : BitVec w) : sval w x.toNat = x.toInt := by rw [sval, BitVec.ofNat_toNat, BitVec.setWidth_eq]

theorem ofNat_toNat_self {w : Nat} (x : BitVec w) : BitVec.ofNat w x.toNat = x := by rw [BitVec.ofNat_toNat, BitVec.setWidth_eq]

theorem ofNat_modW (w : Nat) (v : Int) : BitVec.ofNat w (modW w v) = BitVec.ofInt w v := ofNat_toNat_self _

section
variable {w : Nat} (x y : BitVec w)

theorem ofNat_sum : BitVec.ofNat w ((x.toNat + y.toNat) % 2 ^ w) = x + y := by
  apply BitVec.eq_of_toNat_eq; simp

theorem ofNat_difference : BitVec.ofNat w ((2 ^ w + x.toNat - y.toNat) % 2 ^ w) = x - y := by
  have hy := y.isLt
  apply BitVec.eq_of_toNat_eq
  rw [BitVec.toNat_sub, BitVec.toNat_ofNat, Nat.mod_mod]
  congr 1; omega

theorem ofNat_product : BitVec.ofNat w (x.toNat * y.toNat % 2 ^ w) = x * y := by
  apply BitVec.eq_of_toNat_eq; simp

theorem ofNat_signedMin : BitVec.ofNat w (if x.toInt < y.toInt then x.toNat else y.toNat) = BitVec.ofInt w (min x.toInt y.toInt) := by
  rcases lt_or_ge x.toInt y.toInt with h | h
  · rw [if_pos h, min_eq_left h.le, BitVec.ofInt_toInt, ofNat_toNat_self]
  · rw [if_neg h.not_gt, min_eq_right h, BitVec.ofInt_toInt, ofNat_toNat_self]

theorem ofNat_signedMax : BitVec.ofNat w (if x.toInt < y.toInt then y.toNat else x.toNat) = BitVec.ofInt w (max x.toInt y.toInt) := by
  rcases lt_or_ge x.toInt y.toInt with h | h
  · rw [if_pos h, max_eq_right h.le, BitVec.ofInt_toInt, ofNat_toNat_self]
  · rw [if_neg h.not_gt, max_eq_left h, BitVec.ofInt_toInt, ofNat_toNat_self]

theorem ofNat_unsignedMin : BitVec.ofNat w (if x.toNat < y.toNat then x.toNat else y.toNat) = BitVec.ofNat w (min x.toNat y.toNat) := by
  rw [min_def_lt]

theorem ofNat_unsignedMax : BitVec.ofNat w (if x.toNat < y.toNat then y.toNat else x.toNat) = BitVec.ofNat w (max x.toNat y.toNat) := by
  rw [max_def_lt]

theorem ofNat_andNot : BitVec.ofNat w (x.toNat &&& (2 ^ w - 1 - y.toNat)) = x &&& ~~~y := by
  apply BitVec.eq_of_toNat_eq
  rw [BitVec.toNat_and, BitVec.toNat_not, BitVec.toNat_ofNat, Nat.mod_eq_of_lt (Nat.and_lt_two_pow _ (by have := y.isLt; omega))]

theorem ofNat_shiftLeft_mod (k : Nat) : BitVec.ofNat w (x.toNat <<< k % 2 ^ w) = x <<< k := by
  apply BitVec.eq_of_toNat_eq; simp

theorem ofNat_shiftRight (k : Nat) : BitVec.ofNat w (x.toNat >>> k) = x >>> k := by
  apply BitVec.eq_of_toNat_eq
  rw [BitVec.toNat_ushiftRight, BitVec.toNat_ofNat, Nat.mod_eq_of_lt (lt_of_le_of_lt (Nat.shiftRight_le _ _) x.isLt)]

end

/-- A signed value shifted right is its quotient. -/
theorem shiftRight_eq_ediv (v : Int) (k : Nat) : v >>> k = v / 2 ^ k := by
  rw [Int.shiftRight_eq_div_pow, Nat.cast_pow, Nat.cast_ofNat]

/-! ## Rounded shifts (R115, R116) -/

/-- The remainder of a right shift. -/
def shiftRem (v : Int) (s : Nat) : Int := v - (v >>> s) * 2 ^ s

theorem shiftRem_range (v : Int) (s : Nat) : 0 ≤ shiftRem v s ∧ shiftRem v s < 2 ^ s := by
  have hpos : (0 : Int) < 2 ^ s := by positivity
  have hdiv := Int.mul_ediv_add_emod v (2 ^ s)
  have hlo := Int.emod_nonneg v hpos.ne'
  have hhi := Int.emod_lt_of_pos v hpos
  rw [shiftRem, shiftRight_eq_ediv]
  constructor <;> linarith

theorem twice_add_step (v : Int) (s : Nat) : 2 * v + 2 ^ s = 2 * shiftRem v s + 2 ^ s + v >>> s * 2 ^ (s + 1) := by
  unfold shiftRem; rw [pow_succ]; ring

theorem roundHalfUp_eq (v : Int) (s : Nat) : roundHalfUp v s = if 2 ^ s ≤ 2 * shiftRem v s then v >>> s + 1 else v >>> s := by
  obtain ⟨hlo, hhi⟩ := shiftRem_range v s
  rw [roundHalfUp, twice_add_step, Int.add_mul_ediv_right _ _ (by positivity), pow_succ]
  split
  · have h1 : (2 * shiftRem v s + 2 ^ s) / (2 ^ s * 2) = 1 := (Int.ediv_eq_iff_of_pos (by positivity)).2 ⟨by linarith, by linarith⟩
    rw [h1, add_comm]
  · rw [Int.ediv_eq_zero_of_lt (by linarith) (by linarith), zero_add]

theorem exactHalf_iff (v : Int) (s : Nat) : (2 * v + 2 ^ s) % 2 ^ (s + 1) = 0 ↔ 2 * shiftRem v s = 2 ^ s := by
  obtain ⟨hlo, hhi⟩ := shiftRem_range v s
  have hpos : (0 : Int) < 2 ^ s := by positivity
  rw [twice_add_step, Int.add_mul_emod_self_right, pow_succ]
  constructor
  · intro h
    obtain ⟨k, hk⟩ := Int.dvd_of_emod_eq_zero h
    have h1 : 0 < k := by by_contra hn; nlinarith
    have h2 : k < 2 := by by_contra hn; nlinarith
    obtain rfl : k = 1 := by omega
    linarith
  · intro h; rw [h, ← two_mul, mul_comm, Int.emod_self]

/-- A shift by no bit leaves no half. -/
theorem exactHalf_shifts {v : Int} {s : Nat} (h : 2 * shiftRem v s = 2 ^ s) : s ≠ 0 := by rintro rfl; omega

theorem shiftRound_up (v : Int) (s : Nat) : shiftRound false v s = roundHalfUp v s := by
  rw [roundHalfUp_eq]
  show (if 2 * shiftRem v s > 2 ^ s ∨ (2 * shiftRem v s = 2 ^ s ∧ s ≠ 0 ∧ (!false ∨ v >>> s % 2 ≠ 0)) then v >>> s + 1 else v >>> s) = _
  refine if_congr ⟨fun h => ?_, fun h => ?_⟩ rfl rfl
  · rcases h with h | h
    · exact h.le
    · exact h.1.ge
  · rcases h.lt_or_eq with h | h
    · exact .inl h
    · exact .inr ⟨h.symm, exactHalf_shifts h.symm, .inl rfl⟩

theorem shiftRound_even (v : Int) (s : Nat) : shiftRound true v s = roundHalfEven v s := by
  simp only [roundHalfEven, roundHalfUp_eq, exactHalf_iff]
  show (if 2 * shiftRem v s > 2 ^ s ∨ (2 * shiftRem v s = 2 ^ s ∧ s ≠ 0 ∧ (!true ∨ v >>> s % 2 ≠ 0)) then v >>> s + 1 else v >>> s) = _
  rcases lt_trichotomy (2 * shiftRem v s) (2 ^ s) with h | h | h
  · rw [if_neg (by rintro (h' | h') <;> omega), if_neg (fun h' => h.ne h'.1), if_neg h.not_ge]
  · rcases Int.emod_two_eq_zero_or_one (v >>> s) with h2 | h2
    · simp [h, h2, Int.add_emod]
    · simp [h, h2, Int.add_emod, exactHalf_shifts h]
  · rw [if_pos (.inl h), if_neg (fun h' => h.ne' h'.1), if_pos h.le]

/-! ## Two-operand instructions -/

theorem aligned_of_mod {r : Reg} {g : Nat} (h : r.toNat % g = 0) : aligned r g = true := decide_eq_true h

theorem vPure_intOp {i : Instr} {t : Tid} {f : VForm} {op : Nat → Nat → Nat → Fl Nat} (h : intOp i = some (t, f, op)) (th : Thread) (d : DCtx) :
    vPure i th d = some (t, vInt i f op th) := by
  unfold vPure
  split
  case _ => cases h
  case _ => cases h
  case _ => cases h
  case _ => cases h
  case _ => unfold vReg; rw [h]; rfl

theorem vInt_maps {i : Instr} {f : VForm} {op : Nat → Nat → Nat → Fl Nat} {w : Nat} (hw : etBits f.et = some w) (hqp : f.qp.toNat < 12)
    (h4 : (excludes4 i && decide (w = 4)) = false) (hvd : aligned f.vd (grpSize f.grp) = true) (hvs1 : aligned f.vs1 (grpSize f.grp) = true)
    (hvs2 : aligned f.vs2 (grpSize f.grp) = true) (th : Thread) :
    let n := grpSize f.grp * 8192 / w
    let r := mapActive (qget th f.qp.toNat) w (grpSize f.grp) (groupEls th f.vd.toNat w n)
      (fun k _ => op w ((groupEls th f.vs1.toNat w n).getD k 0) ((groupEls th f.vs2.toNat w n).getD k 0))
    vInt i f op th = .ok (putGroup th f.vd.toNat w r.1) r.2 none := by
  unfold vInt
  rw [hw]
  exact if_neg (by simp [hqp, h4, hvd, hvs1, hvs2])

/-- A two-operand instruction maps its elements' results over the active elements. -/
theorem vInt_gives {s : State} {i : Instr} {t : Tid} {f : VForm} {w : Nat} {op' : Nat → Nat → Nat → Fl Nat} (hi : RunsPure i t { t := t })
    (hpure : intOp i = some (t, f, op')) (hr : decReady s t []) (hw : etBits f.et = some w) (hqp : f.qp.toNat < 12)
    (h4 : (excludes4 i && decide (w = 4)) = false) (hal : ∀ r, r ∈ [f.vd, f.vs1, f.vs2] → r.toNat % 2 ^ f.grp.toNat = 0)
    {op : BitVec w → BitVec w → BitVec w × Nat} (hop : ∀ x y, (BitVec.ofNat w (op' w x.toNat y.toNat).1, (op' w x.toNat y.toNat).2) = op x y) :
    vecGives i s t ((thread s t).pc + 4) w (2 ^ f.grp.toNat) f.vd.toNat f.qp.toNat
      (fun k _ => op (vEl (thread s t).v w f.vs1.toNat k) (vEl (thread s t).v w f.vs2.toNat k)) := by
  have hel := etBits_width hw
  refine group_gives s t i { t := t } hi.form rfl [] hr (by simp [DecForm.regs]) rfl hi.run (hi.issues s) w _ _ _ hel _ rfl (fun k _ =>
    op' w ((groupEls (thread s t) f.vs1.toNat w (2 ^ f.grp.toNat * 8192 / w)).getD k 0)
      ((groupEls (thread s t) f.vs2.toNat w (2 ^ f.grp.toNat * 8192 / w)).getD k 0)) (fun th d hv _ _ _ _ _ => ?_) _ (fun k hk => ?_)
  · rw [vPure_intOp hpure, vInt_maps hw hqp h4 (aligned_of_mod (hal _ (by simp))) (aligned_of_mod (hal _ (by simp))) (aligned_of_mod (hal _ (by simp))),
      groupEls_congr hv f.vs1.toNat, groupEls_congr hv f.vs2.toNat]
    rfl
  · rw [groupEls_getD _ _ hel.le hk, groupEls_getD _ _ hel.le hk, hop]

/-- Settles O16. Each instruction maps its element's result, which the model gives on numbers, over the active elements. -/
theorem vectorIntegerResults : Obligations.VectorIntegerResults := by
  intro s t f w hr hw hqp g hal gives
  have run {i : Instr} {op' : Nat → Nat → Nat → Fl Nat} {op : BitVec w → BitVec w → BitVec w} (hi : RunsPure i t { t := t })
      (hpure : intOp i = some (t, f, op')) (h4 : excludes4 i = false)
      (hop : ∀ x y, (BitVec.ofNat w (op' w x.toNat y.toNat).1, (op' w x.toNat y.toNat).2) = (op x y, 0)) : gives i op :=
    vInt_gives (op := fun x y => (op x y, 0)) hi hpure hr hw hqp (by rw [h4]; rfl) hal hop
  refine ⟨?add, ?sub, ?mul, ?mulh, ?mulhu, ?mulhsu, ?min, ?max, ?minu, ?maxu, ?and, ?or, ?xor, ?andn, ?sll, ?srl, ?sra, ?srar⟩
  case add => exact run (i := .vAdd t f) {} rfl rfl fun x y => Prod.ext (ofNat_sum x y) rfl
  case sub => exact run (i := .vSub t f) {} rfl rfl fun x y => Prod.ext (ofNat_difference x y) rfl
  case mul => exact run (i := .vMul t f) {} rfl rfl fun x y => Prod.ext (ofNat_product x y) rfl
  case mulh => exact run (i := .vMulh t f) {} rfl rfl fun x y => by rw [sval_toNat, sval_toNat, ofNat_modW, shiftRight_eq_ediv]
  case mulhu => exact run (i := .vMulhu t f) {} rfl rfl fun x y => rfl
  case mulhsu => exact run (i := .vMulhsu t f) {} rfl rfl fun x y => by rw [sval_toNat, ofNat_modW, shiftRight_eq_ediv]
  case min => exact run (i := .vMin t f) {} rfl rfl fun x y => by rw [sval_toNat, sval_toNat, ofNat_signedMin]
  case max => exact run (i := .vMax t f) {} rfl rfl fun x y => by rw [sval_toNat, sval_toNat, ofNat_signedMax]
  case minu => exact run (i := .vMinu t f) {} rfl rfl fun x y => Prod.ext (ofNat_unsignedMin x y) rfl
  case maxu => exact run (i := .vMaxu t f) {} rfl rfl fun x y => Prod.ext (ofNat_unsignedMax x y) rfl
  case and => exact run (i := .vAnd t f) {} rfl rfl fun x y => by rw [← BitVec.toNat_and, ofNat_toNat_self]
  case or => exact run (i := .vOr t f) {} rfl rfl fun x y => by rw [← BitVec.toNat_or, ofNat_toNat_self]
  case xor => exact run (i := .vXor t f) {} rfl rfl fun x y => by rw [← BitVec.toNat_xor, ofNat_toNat_self]
  case andn => exact run (i := .vAndn t f) {} rfl rfl fun x y => Prod.ext (ofNat_andNot x y) rfl
  case sll => exact run (i := .vSll t f) {} rfl rfl fun x y => Prod.ext (ofNat_shiftLeft_mod x _) rfl
  case srl => exact run (i := .vSrl t f) {} rfl rfl fun x y => Prod.ext (ofNat_shiftRight x _) rfl
  case sra => exact run (i := .vSra t f) {} rfl rfl fun x y => by rw [sval_toNat, ofNat_modW]
  case srar => exact run (i := .vSrar t f) {} rfl rfl fun x y => by rw [sval_toNat, ofNat_modW, shiftRound_up]

end Sys2Proof.Machine
end

section
/-! PROOFS. The saturating, Q-format and narrowing vector instructions (R115, R116, R155). -/

namespace Sys2Proof.Machine

open Sys2Proof.Safety

/-- A value clamped to a range, with QSAT where it lay outside. -/
def clamped (w : Nat) (lo hi v : Int) : BitVec w × Nat := (BitVec.ofInt w (max lo (min hi v)), if lo ≤ v ∧ v ≤ hi then 0 else 2 ^ 5)

theorem clampI_eq {lo hi : Int} (h : lo ≤ hi) (v : Int) : clampI lo hi v = max lo (min hi v) := by
  unfold clampI
  split
  · omega
  · split <;> omega

theorem clampI_self_iff {lo hi : Int} (h : lo ≤ hi) (v : Int) : clampI lo hi v = v ↔ lo ≤ v ∧ v ≤ hi := by
  rw [clampI_eq h]; omega

theorem satS_clamped (w : Nat) (v : Int) : (BitVec.ofNat w (satS w v).1, (satS w v).2) = clamped w (-2 ^ (w - 1)) (2 ^ (w - 1) - 1) v := by
  have hpos : (0 : Int) < 2 ^ (w - 1) := by positivity
  have hle : (-2 ^ (w - 1) : Int) ≤ 2 ^ (w - 1) - 1 := by omega
  refine Prod.ext ?_ (if_congr (clampI_self_iff hle v) rfl rfl)
  rw [satS, clamped, clampI_eq hle]
  exact ofNat_toNat_self _

theorem satU_clamped (w : Nat) (v : Int) : (BitVec.ofNat w (satU w v).1, (satU w v).2) = clamped w 0 (2 ^ w - 1) v := by
  have hpos : (0 : Int) < 2 ^ w := by positivity
  have hle : (0 : Int) ≤ 2 ^ w - 1 := by omega
  refine Prod.ext ?_ (if_congr (clampI_self_iff hle v) rfl rfl)
  rw [satU, clamped, clampI_eq hle, ← BitVec.ofInt_natCast, Int.toNat_of_nonneg (le_max_left _ _)]

/-! ## Narrowing -/

theorem vPure_narrowOp {i : Instr} {t : Tid} {f : VForm} {sgn even : Bool} (h : narrowOp i = some (t, f, sgn, even)) (th : Thread) (d : DCtx) :
    vPure i th d = some (t, vNarrow f sgn even th) := by
  unfold narrowOp at h
  split at h <;> cases h <;> rfl

theorem vNarrow_maps {f : VForm} {sgn even : Bool} {w : Nat} (hw : etBits f.et = some w) (hqp : f.qp.toNat < 12) (h64 : w ≠ 64) (h8 : grpSize f.grp ≠ 8)
    (hvd : aligned f.vd (grpSize f.grp) = true) (hvs1 : aligned f.vs1 (2 * grpSize f.grp) = true) (hvs2 : aligned f.vs2 (2 * grpSize f.grp) = true) (th : Thread) :
    let n := grpSize f.grp * 8192 / w
    let r := mapActive (qget th f.qp.toNat) w (grpSize f.grp) (groupEls th f.vd.toNat w n) (fun k _ =>
      let x := shiftRound even (sval (2 * w) ((groupEls th f.vs1.toNat (2 * w) n).getD k 0)) ((groupEls th f.vs2.toNat (2 * w) n).getD k 0 % (2 * w))
      if sgn then satS w x else satU w x)
    vNarrow f sgn even th = .ok (putGroup th f.vd.toNat w r.1) r.2 none := by
  unfold vNarrow
  rw [hw]
  exact if_neg (by simp [hqp, h64, h8, hvd, hvs1, hvs2])

/-- A narrowing instruction maps the rounded and clamped elements of twice the width over the active elements. -/
theorem vNarrow_gives {s : State} {i : Instr} {t : Tid} {f : VForm} {w : Nat} {sgn even : Bool} (hi : RunsPure i t { t := t })
    (hpure : narrowOp i = some (t, f, sgn, even)) (hr : decReady s t []) (hw : etBits f.et = some w) (hqp : f.qp.toNat < 12) (h64 : w ≠ 64) (h8 : 2 ^ f.grp.toNat ≠ 8)
    (hvd : f.vd.toNat % 2 ^ f.grp.toNat = 0) (hvs1 : f.vs1.toNat % (2 * 2 ^ f.grp.toNat) = 0) (hvs2 : f.vs2.toNat % (2 * 2 ^ f.grp.toNat) = 0)
    {lo hi' : Int} (hclamp : ∀ v, (BitVec.ofNat w (if sgn then satS w v else satU w v).1, (if sgn then satS w v else satU w v).2) = clamped w lo hi' v)
    {round : Int → Nat → Int} (hround : ∀ v k, shiftRound even v k = round v k) :
    vecGives i s t ((thread s t).pc + 4) w (2 ^ f.grp.toNat) f.vd.toNat f.qp.toNat (fun k _ => clamped w lo hi'
      (round (vEl (thread s t).v (2 * w) f.vs1.toNat k).toInt ((vEl (thread s t).v (2 * w) f.vs2.toNat k).toNat % (2 * w)))) := by
  have hel := etBits_width hw
  have hwide : 2 * w ≤ 64 := by unfold elWidth at hel; omega
  refine group_gives s t i { t := t } hi.form rfl [] hr (by simp [DecForm.regs]) rfl hi.run (hi.issues s) w _ _ _ hel _ rfl (fun k _ =>
    let x := shiftRound even (sval (2 * w) ((groupEls (thread s t) f.vs1.toNat (2 * w) (2 ^ f.grp.toNat * 8192 / w)).getD k 0))
      ((groupEls (thread s t) f.vs2.toNat (2 * w) (2 ^ f.grp.toNat * 8192 / w)).getD k 0 % (2 * w))
    if sgn then satS w x else satU w x) (fun th d hv _ _ _ _ _ => ?_) _ (fun k hk => ?_)
  · rw [vPure_narrowOp hpure, vNarrow_maps hw hqp h64 h8 (aligned_of_mod hvd) (aligned_of_mod hvs1) (aligned_of_mod hvs2),
      groupEls_congr hv f.vs1.toNat, groupEls_congr hv f.vs2.toNat]
    rfl
  · dsimp only
    rw [groupEls_getD _ _ hwide hk, groupEls_getD _ _ hwide hk, sval_toNat, hround, hclamp]

/-! ## The statement -/

/-- Settles O17. Every instruction clamps the exact value of its element. -/
theorem vectorSaturatingResults : Obligations.VectorSaturatingResults := by
  intro s t f w hr hw hqp g v gives low high a b wide by'
  refine ⟨fun hal => ?_, fun hvd hvs1 hvs2 h64 h8 => ?_⟩
  · have run {i : Instr} {op' : Nat → Nat → Nat → Fl Nat} {lo hi : Int} {val : BitVec w → BitVec w → Int} (hi' : RunsPure i t { t := t })
        (hpure : intOp i = some (t, f, op')) (h4 : (excludes4 i && decide (w = 4)) = false)
        (hop : ∀ x y : BitVec w, (BitVec.ofNat w (op' w x.toNat y.toNat).1, (op' w x.toNat y.toNat).2) = clamped w lo hi (val x y)) :
        gives i lo hi (fun k => val (a k) (b k)) := vInt_gives hi' hpure hr hw hqp h4 hal hop
    refine ⟨?sadd, ?ssub, ?saddu, ?ssubu, fun h4 => ⟨?qmul, ?qmulRne⟩⟩
    case sadd => exact run (i := .vSadd t f) (val := fun x y => x.toInt + y.toInt) {} rfl rfl fun x y => by rw [satS_clamped, sval_toNat, sval_toNat]
    case ssub => exact run (i := .vSsub t f) (val := fun x y => x.toInt - y.toInt) {} rfl rfl fun x y => by rw [satS_clamped, sval_toNat, sval_toNat]
    case saddu => exact run (i := .vSaddu t f) (val := fun x y => (x.toNat : Int) + y.toNat) {} rfl rfl fun x y => satU_clamped _ _
    case ssubu => exact run (i := .vSsubu t f) (val := fun x y => (x.toNat : Int) - y.toNat) {} rfl rfl fun x y => satU_clamped _ _
    case qmul =>
      exact run (i := .vQmul t f) (val := fun x y => roundHalfUp (x.toInt * y.toInt) (w - 1)) {} rfl (by simp [h4]) fun x y => by
        rw [satS_clamped, sval_toNat, sval_toNat, shiftRound_up]
    case qmulRne =>
      exact run (i := .vQmulRne t f) (val := fun x y => roundHalfEven (x.toInt * y.toInt) (w - 1)) {} rfl (by simp [h4]) fun x y => by
        rw [satS_clamped, sval_toNat, sval_toNat, shiftRound_even]
  · have run {i : Instr} {sgn even : Bool} {lo hi : Int} {round : Int → Nat → Int} (hi' : RunsPure i t { t := t }) (hpure : narrowOp i = some (t, f, sgn, even))
        (hclamp : ∀ v, (BitVec.ofNat w (if sgn then satS w v else satU w v).1, (if sgn then satS w v else satU w v).2) = clamped w lo hi v)
        (hround : ∀ v k, shiftRound even v k = round v k) : gives i lo hi (fun k => round (wide k) (by' k)) :=
      vNarrow_gives hi' hpure hr hw hqp h64 h8 hvd hvs1 hvs2 hclamp hround
    exact ⟨run (i := .vNarrowS t f) {} rfl (satS_clamped w) shiftRound_up, run (i := .vNarrowU t f) {} rfl (satU_clamped w) shiftRound_up,
      run (i := .vNarrowSRne t f) {} rfl (satS_clamped w) shiftRound_even, run (i := .vNarrowURne t f) {} rfl (satU_clamped w) shiftRound_even⟩

end Sys2Proof.Machine
end

section
/-! PROOFS. The floating vector instructions (R112, R117, R145, R149): one rounding of the exact result. -/

namespace Sys2Proof.Machine

open Sys2Proof.Safety

/-! ## Formats and rounding -/

theorem etFloat_cases {et : BitVec 3} {c : Nat} (h : etFloat et = some c) : c = 0 ∨ c = 1 ∨ c = 2 ∨ c = 0xD := by
  unfold etFloat at h
  split at h <;> simp at h <;> omega

theorem etFloat_width {et : BitVec 3} {c : Nat} (h : etFloat et = some c) : elWidth (fmtBits c) := by
  rcases etFloat_cases h with rfl | rfl | rfl | rfl <;> simp [elWidth, fmtBits, ffmt]

section
variable {s : State} {t : Tid} {th : Thread} {d : DCtx} (h : AtIssue s t th d)
include h

theorem frm_atIssue : frm th = bits (srAt s t 1) 1 0 := by
  unfold frm; rw [h.sr]; rfl

/-- The random bits of an instruction that issues now. -/
theorem srCtx_atIssue : srCtx th d = randomOf s t := by
  unfold srCtx; rw [h.sr, h.step, h.base]; rfl

end

/-! ## Two operands -/

theorem vPure_floatOp {i : Instr} {t : Tid} {f : VForm} {op : FV → FV → FV → Fl FV} (h : floatOp i = some (t, f, op)) (th : Thread) (d : DCtx) :
    vPure i th d = some (t, vFloat f op th d) := by
  unfold floatOp at h
  split at h <;> cases h <;> rfl

theorem vFloat_maps {f : VForm} {op : FV → FV → FV → Fl FV} {c : Nat} (hc : etFloat f.et = some c) (hqp : f.qp.toNat < 12)
    (hvd : aligned f.vd (grpSize f.grp) = true) (hvs1 : aligned f.vs1 (grpSize f.grp) = true) (hvs2 : aligned f.vs2 (grpSize f.grp) = true) (th : Thread) (d : DCtx) :
    let n := grpSize f.grp * 8192 / fmtBits c
    let r := mapActive (qget th f.qp.toNat) (fmtBits c) (grpSize f.grp) (groupEls th f.vd.toNat (fmtBits c) n) (fun k old =>
      let x := op (edec c ((groupEls th f.vs1.toNat (fmtBits c) n).getD k 0)) (edec c ((groupEls th f.vs2.toNat (fmtBits c) n).getD k 0)) (edec c old)
      let e := fenc (ffmtD c) (rndAt (frm th) (srCtx th d) (wd k)) false x.1
      (e.1, x.2 ||| e.2))
    vFloat f op th d = .ok (putGroup th f.vd.toNat (fmtBits c) r.1) r.2 none := by
  unfold vFloat
  rw [hc]
  exact if_neg (by simp [hqp, hvd, hvs1, hvs2])

/-- A value rounded once by FRM with the random bits of element k, and its code's flags (R145, R149). -/
def roundedOnce (s : State) (t : Tid) (c k : Nat) (x : Fl FV) : BitVec (fmtBits c) × Nat :=
  let e := fenc (ffmtD c) (rndAt (bits (srAt s t 1) 1 0) (randomOf s t) (BitVec.ofNat 64 k)) false x.1
  (BitVec.ofNat (fmtBits c) e.1, x.2 ||| e.2)

theorem vFloat_gives {s : State} {i : Instr} {t : Tid} {f : VForm} {op : FV → FV → FV → Fl FV} {c : Nat} (hi : RunsPure i t { t := t })
    (hpure : floatOp i = some (t, f, op)) (hr : decReady s t []) (hc : etFloat f.et = some c) (hqp : f.qp.toNat < 12)
    (hvd : f.vd.toNat % 2 ^ f.grp.toNat = 0) (hvs1 : f.vs1.toNat % 2 ^ f.grp.toNat = 0) (hvs2 : f.vs2.toNat % 2 ^ f.grp.toNat = 0) :
    vecGives i s t ((thread s t).pc + 4) (fmtBits c) (2 ^ f.grp.toNat) f.vd.toNat f.qp.toNat (fun k old => roundedOnce s t c k
      (op (edec c (vEl (thread s t).v (fmtBits c) f.vs1.toNat k).toNat) (edec c (vEl (thread s t).v (fmtBits c) f.vs2.toNat k).toNat) (edec c old.toNat))) := by
  have hel := etFloat_width hc
  refine mapped_gives hi hr (by simp [DecForm.regs]) rfl hel (fn := fun k old =>
    let x := op (edec c ((groupEls (thread s t) f.vs1.toNat (fmtBits c) (2 ^ f.grp.toNat * 8192 / fmtBits c)).getD k 0))
      (edec c ((groupEls (thread s t) f.vs2.toNat (fmtBits c) (2 ^ f.grp.toNat * 8192 / fmtBits c)).getD k 0)) (edec c old)
    let e := fenc (ffmtD c) (rndAt (bits (srAt s t 1) 1 0) (randomOf s t) (wd k)) false x.1
    (e.1, x.2 ||| e.2)) (fun th d h => ?_) (fun k hk old => ?_)
  · rw [vPure_floatOp hpure, vFloat_maps hc hqp (aligned_of_mod hvd) (aligned_of_mod hvs1) (aligned_of_mod hvs2), groupEls_congr h.v f.vs1.toNat,
      groupEls_congr h.v f.vs2.toNat, frm_atIssue h, srCtx_atIssue h]
    rfl
  · dsimp only
    rw [groupEls_getD _ _ hel.le hk, groupEls_getD _ _ hel.le hk]
    rfl

/-! ## One operand -/

theorem vPure_unaryOp {i : Instr} {t : Tid} {f : VForm} {op : Nat → Rnd → Nat → Fl Nat} (h : unaryOp i = some (t, f, op)) (th : Thread) (d : DCtx) :
    vPure i th d = some (t, vUnary f op th d) := by
  unfold unaryOp at h
  split at h <;> cases h <;> rfl

theorem vUnary_maps {f : VForm} {op : Nat → Rnd → Nat → Fl Nat} {c : Nat} (hc : etFloat f.et = some c) (hqp : f.qp.toNat < 12)
    (hvd : aligned f.vd (grpSize f.grp) = true) (hvs1 : aligned f.vs1 (grpSize f.grp) = true) (th : Thread) (d : DCtx) :
    let n := grpSize f.grp * 8192 / fmtBits c
    let r := mapActive (qget th f.qp.toNat) (fmtBits c) (grpSize f.grp) (groupEls th f.vd.toNat (fmtBits c) n)
      (fun k _ => op c (rndAt (frm th) (srCtx th d) (wd k)) ((groupEls th f.vs1.toNat (fmtBits c) n).getD k 0))
    vUnary f op th d = .ok (putGroup th f.vd.toNat (fmtBits c) r.1) r.2 none := by
  unfold vUnary
  rw [hc]
  exact if_neg (by simp [hqp, hvd, hvs1])

theorem vUnary_gives {s : State} {i : Instr} {t : Tid} {f : VForm} {op' : Nat → Rnd → Nat → Fl Nat} {c : Nat} {op : Nat → BitVec (fmtBits c) → BitVec (fmtBits c) × Nat}
    (hi : RunsPure i t { t := t }) (hpure : unaryOp i = some (t, f, op')) (hr : decReady s t []) (hc : etFloat f.et = some c) (hqp : f.qp.toNat < 12)
    (hvd : f.vd.toNat % 2 ^ f.grp.toNat = 0) (hvs1 : f.vs1.toNat % 2 ^ f.grp.toNat = 0)
    (hop : ∀ k (x : BitVec (fmtBits c)), let r := op' c (rndAt (bits (srAt s t 1) 1 0) (randomOf s t) (wd k)) x.toNat
      op k x = (BitVec.ofNat (fmtBits c) r.1, r.2)) :
    vecGives i s t ((thread s t).pc + 4) (fmtBits c) (2 ^ f.grp.toNat) f.vd.toNat f.qp.toNat (fun k _ => op k (vEl (thread s t).v (fmtBits c) f.vs1.toNat k)) := by
  have hel := etFloat_width hc
  refine mapped_gives hi hr (by simp [DecForm.regs]) rfl hel (fn := fun k _ =>
    op' c (rndAt (bits (srAt s t 1) 1 0) (randomOf s t) (wd k)) ((groupEls (thread s t) f.vs1.toNat (fmtBits c) (2 ^ f.grp.toNat * 8192 / fmtBits c)).getD k 0))
    (fun th d h => ?_) (fun k hk old => ?_)
  · rw [vPure_unaryOp hpure, vUnary_maps hc hqp (aligned_of_mod hvd) (aligned_of_mod hvs1), groupEls_congr h.v f.vs1.toNat, frm_atIssue h, srCtx_atIssue h]
    rfl
  · rw [groupEls_getD _ _ hel.le hk]
    exact hop k _

/-! ## The sign bit -/

theorem ofNat_mod_sign {w : Nat} (hw : 0 < w) (x : BitVec w) : BitVec.ofNat w (x.toNat % 2 ^ (w - 1)) = x &&& ~~~BitVec.twoPow w (w - 1) := by
  apply BitVec.eq_of_getLsbD_eq; intro j hj
  simp only [BitVec.getLsbD_ofNat, Nat.testBit_mod_two_pow, BitVec.getLsbD_and, BitVec.getLsbD_not, BitVec.getLsbD_twoPow, hj, decide_true, Bool.true_and]
  by_cases h : j < w - 1
  · simp [h, show w - 1 ≠ j by omega, BitVec.getLsbD]
  · simp [show w - 1 = j by omega, hj]

theorem ofNat_xor_sign {w : Nat} (hw : 0 < w) (x : BitVec w) : BitVec.ofNat w (x.toNat ^^^ 2 ^ (w - 1)) = x ^^^ BitVec.twoPow w (w - 1) := by
  rw [← ofNat_toNat_self (x ^^^ BitVec.twoPow w (w - 1)), BitVec.toNat_xor, BitVec.toNat_twoPow, Nat.mod_eq_of_lt (Nat.pow_lt_pow_right (by norm_num) (by omega))]

/-! ## The statement -/

/-- Settles O18. Each instruction rounds its element's exact result once; `v.fabs` and `v.fneg` clear and flip the sign bit of the code. -/
theorem vectorFloatResults : Obligations.VectorFloatResults := by
  intro s t f c hr hc hqp g w hvd hvs1 v a b d gives once
  have hpos := (etFloat_width hc).pos
  have unary {i : Instr} {op' : Nat → Rnd → Nat → Fl Nat} {op : Nat → BitVec w → BitVec w × Nat} (hi : RunsPure i t { t := t }) (hpure : unaryOp i = some (t, f, op'))
      (hop : ∀ k (x : BitVec w), let r := op' c (rndAt (bits (srAt s t 1) 1 0) (randomOf s t) (wd k)) x.toNat
        op k x = (BitVec.ofNat w r.1, r.2)) : gives i (fun k => op k (vEl v w f.vs1.toNat k)) := vUnary_gives hi hpure hr hc hqp hvd hvs1 hop
  refine ⟨fun hvs2 => ?_, ?sqrt, ?abs, ?neg⟩
  · have run {i : Instr} {op : FV → FV → FV → Fl FV} (hi : RunsPure i t { t := t }) (hpure : floatOp i = some (t, f, op)) :
        gives i (fun k => once k (op (a k) (b k) (d k))) := vFloat_gives hi hpure hr hc hqp hvd hvs1 hvs2
    exact ⟨run (i := .vFadd t f) {} rfl, run (i := .vFsub t f) {} rfl, run (i := .vFmul t f) {} rfl, run (i := .vFdiv t f) {} rfl, run (i := .vFma t f) {} rfl,
      run (i := .vFnma t f) {} rfl, run (i := .vFmin t f) {} rfl, run (i := .vFmax t f) {} rfl⟩
  case sqrt => exact unary (i := .vFsqrt t f) (op := fun k x => once k (FV.sqrt (edec c x.toNat))) {} rfl fun k x => rfl
  case abs => exact unary (i := .vFabs t f) (op := fun _ x => (x &&& ~~~BitVec.twoPow w (w - 1), 0)) {} rfl fun k x => Prod.ext (ofNat_mod_sign hpos x).symm rfl
  case neg => exact unary (i := .vFneg t f) (op := fun _ x => (x ^^^ BitVec.twoPow w (w - 1), 0)) {} rfl fun k x => Prod.ext (ofNat_xor_sign hpos x).symm rfl

end Sys2Proof.Machine
end

section
/-! PROOFS. Vector compares, predicate logic and `v.pwhile` (R112, R113, R118, R119). -/

namespace Sys2Proof.Machine

open Sys2Proof.Safety

/-! ## A predicate written -/

/-- An instruction that writes a predicate and no vector register. -/
theorem pred_gives {s : State} {i : Instr} {t : Tid} {df : DecForm} {rs : List Reg} (hi : RunsPure i t df) (hr : decReady s t rs)
    (hregs : ∀ r ∈ df.regs, r ∈ (0 : Reg) :: rs) (hdst : df.dst = none) (hlong : df.long = false) {qd val fl : Nat}
    (hp : ∀ th d, th.v = (thread s t).v → th.q = (thread s t).q → d.a = rx s t df.a → d.b = rx s t df.b → vPure i th d = some (t, .ok (qset th qd val) fl none))
    {written flags : Nat → Prop} (hwritten : ∀ j, j < 1024 → (val.testBit j = true ↔ written j)) (hflags : ∀ j, fl.testBit j = true ↔ flags j) :
    predGives i s t qd written flags := by
  obtain ⟨n, hexec, hdone, hv, hq, -, hscalar, hgained⟩ := vec_done s i t df hi.form hi.owner rs hr hregs hi.run (thread s t).v (qset (thread s t) qd val).q fl none
    (by rw [hdst]; rfl) (fun th d hv hq _ ha hb _ => by rw [hp th d hv hq ha hb, qset_eq, qset_congr hq, ← hv]) (hi.issues s)
  rw [hlong] at hdone
  refine ⟨n, hexec, hdone, fun j hj hqd => ?_, fun q hq' => ?_, hv, hscalar rfl, flagsGained_congr hgained hflags⟩
  · rw [hq, tget_qset, if_pos ⟨rfl, hqd⟩, BitVec.getLsbD_ofNat, decide_eq_true hj, Bool.true_and, hwritten j hj]
  · rw [hq, tget_qset, if_neg (by rintro ⟨rfl, h0⟩; exact hq'.elim (· rfl) h0)]

/-- The bits and flags that the active elements' truths give (R113). -/
theorem predFrom_iff (th : Thread) {qp w g : Nat} (hw : elWidth w) {p' p : Nat → Bool × Nat} (hp : ∀ k, k < g * 8192 / w → p' k = p k) (j : Nat) :
    ((predFrom (qget th qp) w g (g * 8192 / w) p').1.testBit j = true
        ↔ ∃ k, k < g * 8192 / w ∧ vActive th qp w g k ∧ k * w / (8 * g) = j ∧ (p k).1 = true)
    ∧ ((predFrom (qget th qp) w g (g * 8192 / w) p').2.testBit j = true ↔ ∃ k, k < g * 8192 / w ∧ vActive th qp w g k ∧ (p k).2.testBit j = true) := by
  obtain ⟨hbits, hflags⟩ := predFrom_spec (qget th qp) w g (g * 8192 / w) p' j
  rw [hbits, hflags]
  exact ⟨exists_congr fun k => and_congr_right fun hk => by rw [active_iff th (gov_lt hw hk), hp k hk, govBit],
    exists_congr fun k => and_congr_right fun hk => by rw [active_iff th (gov_lt hw hk), hp k hk]⟩

/-! ## Compares -/

theorem vPure_cmpOp {i : Instr} {t : Tid} {f : VForm} {op : Nat → Nat → Nat → Bool} {w : Nat} (h : cmpOp i = some (t, f, op)) (hw : etBits f.et = some w) (h4 : w ≠ 4)
    (th : Thread) (d : DCtx) : vPure i th d = some (t, vCompare f w (fun a b => (op w a b, 0)) th) := by
  obtain ⟨hreg, hint, hnarrow, hfloat, hunary⟩ : vPure i th d = vReg i th d ∧ intOp i = none ∧ narrowOp i = none ∧ floatOp i = none ∧ unaryOp i = none := by
    unfold cmpOp at h
    split at h <;> cases h <;> exact ⟨rfl, rfl, rfl, rfl, rfl⟩
  rw [hreg, vReg, hint, hnarrow, hfloat, hunary, h]
  simp only [Option.map_none, Option.map_some, hw, if_neg h4]
  rfl

theorem vPure_fcmpOp {i : Instr} {t : Tid} {f : VForm} {op : FV → FV → Bool × Nat} {c : Nat} (h : fcmpOp i = some (t, f, op)) (hc : etFloat f.et = some c)
    (th : Thread) (d : DCtx) : vPure i th d = some (t, vCompare f (fmtBits c) (fun a b => op (edec c a) (edec c b)) th) := by
  obtain ⟨hreg, hint, hnarrow, hfloat, hunary, hcmp⟩ :
      vPure i th d = vReg i th d ∧ intOp i = none ∧ narrowOp i = none ∧ floatOp i = none ∧ unaryOp i = none ∧ cmpOp i = none := by
    unfold fcmpOp at h
    split at h <;> cases h <;> exact ⟨rfl, rfl, rfl, rfl, rfl, rfl⟩
  rw [hreg, vReg, hint, hnarrow, hfloat, hunary, hcmp, h]
  simp only [Option.map_none, Option.map_some, hc]
  rfl

theorem vCompare_sets {f : VForm} {w : Nat} (hqp : f.qp.toNat < 12) (hqd : qdOf f < 12) (hg : 8 * grpSize f.grp ≤ w) (hvs1 : aligned f.vs1 (grpSize f.grp) = true)
    (hvs2 : aligned f.vs2 (grpSize f.grp) = true) (p : Nat → Nat → Bool × Nat) (th : Thread) :
    let n := grpSize f.grp * 8192 / w
    let r := predFrom (qget th f.qp.toNat) w (grpSize f.grp) n (fun k => p ((groupEls th f.vs1.toNat w n).getD k 0) ((groupEls th f.vs2.toNat w n).getD k 0))
    vCompare f w p th = .ok (qset th (qdOf f) r.1) r.2 none := by
  unfold vCompare
  exact if_neg (by simp [hqp, hqd, hg, hvs1, hvs2])

/-- A compare writes the truth of its active elements. -/
theorem vCompare_gives {s : State} {i : Instr} {t : Tid} {f : VForm} {w : Nat} {p' : Nat → Nat → Bool × Nat} {p : BitVec w → BitVec w → Bool × Nat} (hi : RunsPure i t { t := t })
    (hpure : ∀ th d, vPure i th d = some (t, vCompare f w p' th)) (hr : decReady s t []) (hel : elWidth w) (hqp : f.qp.toNat < 12) (hqd : f.vd.toNat % 16 < 12)
    (hg : 8 * 2 ^ f.grp.toNat ≤ w) (hvs1 : f.vs1.toNat % 2 ^ f.grp.toNat = 0) (hvs2 : f.vs2.toNat % 2 ^ f.grp.toNat = 0) (hp : ∀ x y : BitVec w, p' x.toNat y.toNat = p x y) :
    let truth (k : Nat) : Bool × Nat := p (vEl (thread s t).v w f.vs1.toNat k) (vEl (thread s t).v w f.vs2.toNat k)
    let act (k : Nat) : Prop := vActive (thread s t) f.qp.toNat w (2 ^ f.grp.toNat) k
    predGives i s t (f.vd.toNat % 16)
      (fun j => ∃ k, k < 2 ^ f.grp.toNat * 8192 / w ∧ act k ∧ k * w / (8 * 2 ^ f.grp.toNat) = j ∧ (truth k).1 = true)
      (fun j => ∃ k, k < 2 ^ f.grp.toNat * 8192 / w ∧ act k ∧ (truth k).2.testBit j = true) := by
  intro truth act
  have hiff := predFrom_iff (thread s t) (qp := f.qp.toNat) (g := 2 ^ f.grp.toNat) hel (p := truth) (p' := fun k =>
    p' ((groupEls (thread s t) f.vs1.toNat w (2 ^ f.grp.toNat * 8192 / w)).getD k 0) ((groupEls (thread s t) f.vs2.toNat w (2 ^ f.grp.toNat * 8192 / w)).getD k 0))
    (fun k hk => by rw [groupEls_getD _ _ hel.le hk, groupEls_getD _ _ hel.le hk, hp])
  refine pred_gives hi hr (by simp [DecForm.regs]) rfl rfl (fun th d hv hq _ _ => ?_) (fun j _ => (hiff j).1) (fun j => (hiff j).2)
  rw [hpure, vCompare_sets hqp hqd hg (aligned_of_mod hvs1) (aligned_of_mod hvs2), groupEls_congr hv f.vs1.toNat, groupEls_congr hv f.vs2.toNat, qget_congr hq]
  rfl

/-! ## NaN flags of a compare (R118) -/

theorem isNan_of_isSig {x : FV} (h : x.isSig = true) : x.isNan = true := by
  cases x with
  | nan _ => rfl
  | inf _ => cases h
  | fin _ _ _ => cases h

theorem nanFlags_pair (x y : FV) : nanFlags [x, y] = if (true && !x.isSig && !y.isSig) || (!x.isNan && !y.isNan) then 0 else 2 ^ 4 := by
  have hx := @isNan_of_isSig x
  have hy := @isNan_of_isSig y
  cases h1 : x.isSig <;> cases h2 : y.isSig <;> simp_all [nanFlags, fNV]

theorem nanFlag_any (x y : FV) : (if x.isNan || y.isNan then fNV else 0) = if (false && !x.isSig && !y.isSig) || (!x.isNan && !y.isNan) then 0 else 2 ^ 4 := by
  cases x.isNan <;> cases y.isNan <;> simp [fNV]

/-! ## `v.pwhile` -/

theorem vPwhile_gives {s : State} {t : Tid} {f : VForm} {w : Nat} (hr : decReady s t [f.vs1, f.vs2]) (hw : etBits f.et = some w) (h4 : w ≠ 4) (hqp : f.qp.toNat < 12)
    (hqd : f.vd.toNat % 16 < 12) (hg : 8 * 2 ^ f.grp.toNat ≤ w) :
    let truth (k : Nat) : Bool × Nat := (decide ((rx s t f.vs1).toNat + k < (rx s t f.vs2).toNat), 0)
    let act (k : Nat) : Prop := vActive (thread s t) f.qp.toNat w (2 ^ f.grp.toNat) k
    predGives (.vPwhile t f) s t (f.vd.toNat % 16)
      (fun j => ∃ k, k < 2 ^ f.grp.toNat * 8192 / w ∧ act k ∧ k * w / (8 * 2 ^ f.grp.toNat) = j ∧ (truth k).1 = true)
      (fun j => ∃ k, k < 2 ^ f.grp.toNat * 8192 / w ∧ act k ∧ (truth k).2.testBit j = true) := by
  intro truth act
  have hiff := predFrom_iff (thread s t) (qp := f.qp.toNat) (g := 2 ^ f.grp.toNat) (etBits_width hw) (p := truth) (fun _ _ => rfl)
  refine pred_gives (df := { t := t, a := f.vs1, b := f.vs2 }) {} hr (by simp [DecForm.regs]) rfl rfl (fun th d _ hq ha hb => ?_) (fun j _ => (hiff j).1) (fl := 0)
    (fun j => by simp [truth])
  have hlegal : (12 ≤ f.qp.toNat || decide (12 ≤ qdOf f) || decide (w = 4) || decide (w < 8 * grpSize f.grp)) = false := by
    simp [qdOf, grpSize, hqp, h4, Nat.not_le.2 hqd, Nat.not_lt.2 hg]
  simp only [vPure, vReg, vMove, hw, hlegal, qget_congr hq, ha, hb]
  rfl

/-! ## Predicate logic -/

theorem vPure_predOp {i : Instr} {t : Tid} {f : VForm} {op : Nat → Nat → Nat} (h : predOp i = some (t, f, op)) (th : Thread) (d : DCtx) :
    vPure i th d = some (t, vPred f op th) := by
  unfold predOp at h
  split at h <;> cases h <;> rfl

theorem vPred_sets {f : VForm} (het : f.et = 0) (hgrp : f.grp = 0) (hqp : f.qp = 0) (hqd : qdOf f < 12) (hvs1 : f.vs1.toNat < 12) (hvs2 : f.vs2.toNat < 12)
    (op : Nat → Nat → Nat) (th : Thread) : vPred f op th = .ok (qset th (qdOf f) (op (qget th f.vs1.toNat) (qget th f.vs2.toNat))) 0 none := by
  unfold vPred
  exact if_neg (by simp [het, hgrp, hqp, hqd, hvs1, hvs2])

theorem qget_lt (th : Thread) (q : Nat) : qget th q < 2 ^ 1024 := by
  unfold qget
  split
  · exact Nat.sub_lt (Nat.two_pow_pos _) one_pos
  · exact BitVec.isLt _

theorem qget_testBit_qBit (th : Thread) (q : Nat) {j : Nat} (hj : j < 1024) : (qget th q).testBit j = qBit th q j := by
  rw [qget_testBit, qBit]
  by_cases hq : q = 0 <;> simp [hq, hj]

theorem testBit_complement {n b j : Nat} (hb : b < 2 ^ n) (hj : j < n) : (2 ^ n - 1 - b).testBit j = !b.testBit j := by
  rw [Nat.sub_sub, Nat.add_comm, Nat.testBit_two_pow_sub_succ hb, decide_eq_true hj, Bool.true_and]

theorem vPred_gives {s : State} {i : Instr} {t : Tid} {f : VForm} {op' : Nat → Nat → Nat} {op : Bool → Bool → Bool} (hi : RunsPure i t { t := t })
    (hpure : predOp i = some (t, f, op')) (hr : decReady s t []) (het : f.et = 0) (hgrp : f.grp = 0) (hqp : f.qp = 0) (hqd : f.vd.toNat % 16 < 12)
    (hvs1 : f.vs1.toNat < 12) (hvs2 : f.vs2.toNat < 12) (hop : ∀ a b j, b < 2 ^ 1024 → j < 1024 → (op' a b).testBit j = op (a.testBit j) (b.testBit j)) :
    predGives i s t (f.vd.toNat % 16) (fun j => op (qBit (thread s t) f.vs1.toNat j) (qBit (thread s t) f.vs2.toNat j) = true) (fun _ => False) := by
  refine pred_gives hi hr (by simp [DecForm.regs]) rfl rfl (fun th d _ hq _ _ => ?_) (val := op' (qget (thread s t) f.vs1.toNat) (qget (thread s t) f.vs2.toNat)) (fun j hj => ?_) (fl := 0) (fun j => by simp)
  · rw [vPure_predOp hpure, vPred_sets het hgrp hqp hqd hvs1 hvs2, qget_congr hq, qget_congr hq]
    rfl
  · rw [hop _ _ _ (qget_lt _ _) hj, qget_testBit_qBit _ _ hj, qget_testBit_qBit _ _ hj]

/-! ## The statement -/

/-- Settles O19. Compares and `v.pwhile` write what `predFrom` collects, predicate logic works on whole predicates. -/
theorem vectorComparesAndPredicates : Obligations.VectorComparesAndPredicates := by
  intro s t f g v qd writes hqp hqd
  refine ⟨fun w hr hw h4 hg hvs1 hvs2 => ?_, fun c hr hc hg hvs1 hvs2 => ?_, fun w hr hw h4 hg => vPwhile_gives hr hw h4 hqp hqd hg, fun hr het hgrp hqp hvs1 hvs2 => ?_⟩
  · intro compares
    have run {i : Instr} {op : Nat → Nat → Nat → Bool} {p : BitVec w → BitVec w → Bool} (hi : RunsPure i t { t := t }) (hpure : cmpOp i = some (t, f, op))
        (hp : ∀ x y : BitVec w, op w x.toNat y.toNat = p x y) : compares i p :=
      vCompare_gives (p := fun x y => (p x y, 0)) hi (vPure_cmpOp hpure hw h4) hr (etBits_width hw) hqp hqd hg hvs1 hvs2 (fun x y => by rw [hp])
    refine ⟨?eq, ?ne, ?lt, ?le, ?gt, ?ge, ?ltu, ?leu⟩
    case eq => exact run (i := .vCmpEq t f) {} rfl fun x y => decide_eq_decide.2 BitVec.toNat_inj
    case ne => exact run (i := .vCmpNe t f) {} rfl fun x y => decide_eq_decide.2 (not_congr BitVec.toNat_inj)
    case lt => exact run (i := .vCmpLt t f) {} rfl fun x y => by rw [sval_toNat, sval_toNat]
    case le => exact run (i := .vCmpLe t f) {} rfl fun x y => by rw [sval_toNat, sval_toNat]
    case gt => exact run (i := .vCmpGt t f) {} rfl fun x y => by rw [sval_toNat, sval_toNat]
    case ge => exact run (i := .vCmpGe t f) {} rfl fun x y => by rw [sval_toNat, sval_toNat]
    case ltu => exact run (i := .vCmpLtu t f) {} rfl fun x y => rfl
    case leu => exact run (i := .vCmpLeu t f) {} rfl fun x y => rfl
  · intro compares
    have run {i : Instr} {op : FV → FV → Bool × Nat} {p : FV → FV → Bool} {quiet : Bool} (hi : RunsPure i t { t := t }) (hpure : fcmpOp i = some (t, f, op))
        (hp : ∀ x y, op x y = (p x y, if (quiet && !x.isSig && !y.isSig) || (!x.isNan && !y.isNan) then 0 else 2 ^ 4)) : compares i p quiet :=
      vCompare_gives hi (vPure_fcmpOp hpure hc) hr (etFloat_width hc) hqp hqd hg hvs1 hvs2 (fun x y => hp _ _)
    exact ⟨run (i := .vFcmpEq t f) {} rfl fun x y => Prod.ext rfl (nanFlags_pair x y), run (i := .vFcmpLt t f) {} rfl fun x y => Prod.ext rfl (nanFlag_any x y),
      run (i := .vFcmpLe t f) {} rfl fun x y => Prod.ext rfl (nanFlag_any x y), run (i := .vFcmpUn t f) {} rfl fun x y => Prod.ext rfl (nanFlags_pair x y)⟩
  · intro logic
    have run {i : Instr} {op' : Nat → Nat → Nat} {op : Bool → Bool → Bool} (hi : RunsPure i t { t := t }) (hpure : predOp i = some (t, f, op'))
        (hop : ∀ a b j, b < 2 ^ 1024 → j < 1024 → (op' a b).testBit j = op (a.testBit j) (b.testBit j)) : logic i op :=
      vPred_gives hi hpure hr het hgrp hqp hqd hvs1 hvs2 hop
    exact ⟨run (i := .vPand t f) {} rfl fun a b j _ _ => Nat.testBit_and a b j, run (i := .vPor t f) {} rfl fun a b j _ _ => Nat.testBit_or a b j,
      run (i := .vPxor t f) {} rfl fun a b j _ _ => Nat.testBit_xor a b j,
      run (i := .vPandn t f) (op := fun x y => x && !y) {} rfl fun a b j hb hj => (Nat.testBit_and a _ j).trans (congrArg _ (testBit_complement hb hj))⟩

end Sys2Proof.Machine
end

section
/-! PROOFS. The vector reductions (R128). -/

namespace Sys2Proof.Machine

open Sys2Proof.Safety

/-! ## The active elements -/

/-- The values of the active ones among n elements of w bits at r, in groups of elements of ww bits. -/
def activeVals {β : Type} (th : Thread) (qp r w ww g n : Nat) (val : Nat → β) : List (Option β) :=
  (List.range n).map (fun k => if qBit th qp (k * ww / (8 * g)) then some (val (vEl th.v w r k).toNat) else none)

theorem activeVals_congr {β : Type} {a b : Thread} (hv : a.v = b.v) (hq : a.q = b.q) (qp r w ww g n : Nat) (val : Nat → β) :
    activeVals a qp r w ww g n val = activeVals b qp r w ww g n val := by
  unfold activeVals qBit; rw [hv, hq]

theorem zip_activeVals {β : Type} (th : Thread) {qp r w ww g n : Nat} (hw : w ≤ 64) (hww : 0 < ww) (hn : n = g * 8192 / ww) (val : Nat → β) :
    ((groupEls th r w n).zip (List.range n)).map (fun p => if active (qget th qp) ww g p.2 then some (val p.1) else none) = activeVals th qp r w ww g n val := by
  refine List.ext_getElem (by simp [activeVals, length_groupEls]) fun k hk _ => ?_
  have hk : k < n := by simpa [length_groupEls] using hk
  have hval := groupEls_getD th r hw hk 0
  rw [List.getD_eq_getElem _ _ (by rw [length_groupEls]; exact hk)] at hval
  simp only [activeVals, List.getElem_map, List.getElem_zip, List.getElem_range, hval, active_mapped hww hn th hk]

theorem activeEls_vals {β : Type} (th : Thread) {qp r w g : Nat} (hw : elWidth w) (val : Nat → β) :
    (activeEls th (qget th qp) r w g (g * 8192 / w)).map (fun o => o.map val) = activeVals th qp r w w g (g * 8192 / w) val := by
  rw [← zip_activeVals th hw.le hw.pos rfl, activeEls, List.map_map]
  refine List.map_congr_left fun p _ => ?_
  rw [Function.comp_apply]
  split <;> rfl

theorem headD_groupEls (th : Thread) (r : Nat) {w : Nat} (hw : w ≤ 64) : (groupEls th r w 1).headD 0 = (vEl th.v w r 0).toNat := by
  rw [← groupEls_getD th r hw Nat.one_pos 0]
  rfl

/-! ## Integer reductions -/

theorem vPure_redOp {i : Instr} {t : Tid} {f : VForm} {sgn : Bool} {enter : Word → Word} {comb : Word → Word → Word} (h : redOp i = some (t, f, sgn, enter, comb))
    (th : Thread) (d : DCtx) : vPure i th d = some (t, vRed f sgn enter comb th) := by
  unfold redOp at h
  split at h <;> cases h <;> rfl

/-- An element as it enters a reduction. -/
abbrev entered64 (sgn : Bool) (enter : Word → Word) (w x : Nat) : Word := enter (if sgn then sext w x else wd x)

section
variable {f : VForm} {sgn : Bool} {enter : Word → Word} {comb : Word → Word → Word} {w : Nat} (hw : etBits f.et = some w)
  (hassoc : ∀ x y z, comb (comb x y) z = comb x (comb y z)) (hcomm : ∀ x y, comb x y = comb y x) (th : Thread)
include hw hassoc hcomm

theorem vRed_reduce : reduce 32 ((activeEls th (qget th f.qp.toNat) f.vs1.toNat w (grpSize f.grp) (grpSize f.grp * 8192 / w)).map (fun o => o.map (entered64 sgn enter w)))
      (fun x => x) comb comb
    = oFold comb (activeVals th f.qp.toNat f.vs1.toNat w w (grpSize f.grp) (grpSize f.grp * 8192 / w) (entered64 sgn enter w)) := by
  have hel := etBits_width hw
  rw [activeEls_vals th hel]
  refine reduce_eq comb hassoc hcomm 5 (grpSize f.grp * 8192 / w / 32) (by norm_num) _ ?_
  rw [activeVals, List.length_map, List.length_range]
  unfold elWidth at hel
  rcases hel with rfl | rfl | rfl | rfl | rfl <;> omega

variable (hqp : f.qp.toNat < 12) (hvs1 : aligned f.vs1 (grpSize f.grp) = true)
include hqp hvs1

theorem vRed_none (h : oFold comb (activeVals th f.qp.toNat f.vs1.toNat w w (grpSize f.grp) (grpSize f.grp * 8192 / w) (entered64 sgn enter w)) = none) :
    vRed f sgn enter comb th = .ok th 0 none := by
  unfold vRed
  simp only [hw]
  rw [if_neg (by simp [hqp, hvs1]), vRed_reduce hw hassoc hcomm, h]

theorem vRed_some {p : Word} (h : oFold comb (activeVals th f.qp.toNat f.vs1.toNat w w (grpSize f.grp) (grpSize f.grp * 8192 / w) (entered64 sgn enter w)) = some p) :
    vRed f sgn enter comb th = .ok (putGroup th f.vd.toNat 64 [(comb (vEl th.v 64 f.vd.toNat 0) p).toNat]) 0 none := by
  unfold vRed
  simp only [hw]
  rw [if_neg (by simp [hqp, hvs1]), vRed_reduce hw hassoc hcomm, h, headD_groupEls _ _ le_rfl, wd, ofNat_toNat_self]
  rfl

end

/-- A fold over the active elements alone is a fold of their values. -/
theorem foldl_activeVals (comb : Word → Word → Word) (hassoc : ∀ x y z, comb (comb x y) z = comb x (comb y z)) (th : Thread) (qp r w g n : Nat) (val : Nat → Word) (old : Word) :
    some ((List.range n).foldl (fun acc k => if qBit th qp (k * w / (8 * g)) then comb acc (val (vEl th.v w r k).toNat) else acc) old)
      = oComb comb (some old) (oFold comb (activeVals th qp r w w g n val)) := by
  rw [← foldl_skip comb hassoc, activeVals, List.foldl_map]
  congr 2
  funext acc k
  split <;> rfl

/-- An integer reduction combines element 0 of vd with the active elements. -/
theorem vRed_gives {s : State} {i : Instr} {t : Tid} {f : VForm} {sgn : Bool} {enter' : Word → Word} {comb op : Word → Word → Word} {w : Nat} {enter : BitVec w → Word}
    (hi : RunsPure i t { t := t }) (hpure : redOp i = some (t, f, sgn, enter', comb)) (hr : decReady s t []) (hw : etBits f.et = some w) (hqp : f.qp.toNat < 12)
    (hvs1 : f.vs1.toNat % 2 ^ f.grp.toNat = 0) (hassoc : ∀ x y z, op (op x y) z = op x (op y z)) (hcomm : ∀ x y, op x y = op y x) (hop : ∀ x y, comb x y = op x y)
    (henter : ∀ x : BitVec w, entered64 sgn enter' w x.toNat = enter x) :
    elGives i s t 64 f.vd.toNat 1 (fun _ => (List.range (2 ^ f.grp.toNat * 8192 / w)).foldl (fun acc k =>
      if qBit (thread s t) f.qp.toNat (k * w / (8 * 2 ^ f.grp.toNat)) then op acc (enter (vEl (thread s t).v w f.vs1.toNat k)) else acc) (vEl (thread s t).v 64 f.vd.toNat 0)) 4 0 := by
  obtain rfl : comb = op := funext₂ hop
  have hfold := foldl_activeVals comb hassoc (thread s t) f.qp.toNat f.vs1.toNat w (2 ^ f.grp.toNat) (2 ^ f.grp.toNat * 8192 / w) (entered64 sgn enter' w)
    (vEl (thread s t).v 64 f.vd.toNat 0)
  simp only [henter] at hfold
  have hregs : ∀ r ∈ DecForm.regs { t := t }, r ∈ (0 : Reg) :: [] := by simp [DecForm.regs]
  cases h : oFold comb (activeVals (thread s t) f.qp.toNat f.vs1.toNat w w (2 ^ f.grp.toNat) (2 ^ f.grp.toNat * 8192 / w) (entered64 sgn enter' w)) with
  | none =>
    rw [h] at hfold
    refine none_give s t i { t := t } hi.form rfl [] hr hregs rfl hi.run (hi.issues s) (fun th d hv hq _ _ _ => ?_) 64 f.vd.toNat 1 _ (fun k hk => ?_)
    · rw [← activeVals_congr hv hq] at h
      rw [vPure_redOp hpure, vRed_none hw hassoc hcomm th hqp (aligned_of_mod hvs1) h]
    · obtain rfl : k = 0 := by omega
      exact (Option.some.inj hfold).symm
  | some p =>
    rw [h] at hfold
    refine els_give s t i { t := t } hi.form rfl [] hr hregs rfl hi.run (hi.issues s) 64 f.vd.toNat le_rfl [(comb (vEl (thread s t).v 64 f.vd.toNat 0) p).toNat] 0
      (fun th d hv hq _ _ _ _ => ?_) _ (fun k hk => ?_)
    · rw [← activeVals_congr hv hq] at h
      rw [vPure_redOp hpure, vRed_some hw hassoc hcomm th hqp (aligned_of_mod hvs1) h, hv]
    · obtain rfl : k = 0 := by simpa using hk
      exact (ofNat_toNat_self _).trans (Option.some.inj hfold).symm

/-! ### Greatest and least of words -/

section
variable (a b : Word)

theorem toInt_ofInt_signedMax : (BitVec.ofInt 64 (max a.toInt b.toInt)).toInt = max a.toInt b.toInt := by
  rcases max_choice a.toInt b.toInt with h | h <;> rw [h, BitVec.ofInt_toInt]

theorem toInt_ofInt_signedMin : (BitVec.ofInt 64 (min a.toInt b.toInt)).toInt = min a.toInt b.toInt := by
  rcases min_choice a.toInt b.toInt with h | h <;> rw [h, BitVec.ofInt_toInt]

theorem toNat_ofNat_unsignedMax : (BitVec.ofNat 64 (max a.toNat b.toNat)).toNat = max a.toNat b.toNat :=
  Nat.mod_eq_of_lt (max_lt a.isLt b.isLt)

theorem toNat_ofNat_unsignedMin : (BitVec.ofNat 64 (min a.toNat b.toNat)).toNat = min a.toNat b.toNat :=
  Nat.mod_eq_of_lt (lt_of_le_of_lt (min_le_left _ _) a.isLt)

theorem slt_max : (if a.slt b then b else a) = BitVec.ofInt 64 (max a.toInt b.toInt) := by
  rw [BitVec.slt_eq_decide, if_congr decide_eq_true_iff rfl rfl, ← ofNat_signedMax, apply_ite (BitVec.ofNat 64), ofNat_toNat_self, ofNat_toNat_self]

theorem slt_min : (if b.slt a then b else a) = BitVec.ofInt 64 (min a.toInt b.toInt) := by
  rw [BitVec.slt_eq_decide, if_congr decide_eq_true_iff rfl rfl, min_comm, ← ofNat_signedMin, apply_ite (BitVec.ofNat 64), ofNat_toNat_self, ofNat_toNat_self]

theorem ult_max : (if a.ult b then b else a) = BitVec.ofNat 64 (max a.toNat b.toNat) := by
  rw [BitVec.ult_eq_decide, if_congr decide_eq_true_iff rfl rfl, ← ofNat_unsignedMax, apply_ite (BitVec.ofNat 64), ofNat_toNat_self, ofNat_toNat_self]

theorem ult_min : (if b.ult a then b else a) = BitVec.ofNat 64 (min a.toNat b.toNat) := by
  rw [BitVec.ult_eq_decide, if_congr decide_eq_true_iff rfl rfl, min_comm, ← ofNat_unsignedMin, apply_ite (BitVec.ofNat 64), ofNat_toNat_self, ofNat_toNat_self]

end

/-! ## Floating reductions -/

theorem vPure_fredOp {i : Instr} {t : Tid} {f : VForm} {enter : FFmt → FV → Fl FV} {step comb : FFmt → FV → FV → Fl FV} (h : fredOp i = some (t, f, enter, step, comb))
    (th : Thread) (d : DCtx) : vPure i th d = some (t, vFred f enter step comb th) := by
  unfold fredOp at h
  split at h <;> cases h <;> rfl

/-- The format that elements of format c are accumulated in (R128). -/
def accCode (c : Nat) : Nat := if c = 0xD then 0xD else 0

theorem accCode_fmt (c : Nat) : (if c = 0xD then f64 else f32) = ffmtD (accCode c) := by unfold accCode; split <;> rfl
theorem accCode_bits (c : Nat) : (if c = 0xD then 64 else 32) = fmtBits (accCode c) := by unfold accCode; split <;> rfl
theorem accCode_dec (c x : Nat) : fdec (ffmtD (accCode c)) x = edec (accCode c) x := by unfold accCode; split <;> rfl
theorem accCode_le (c : Nat) : fmtBits (accCode c) ≤ 64 := by rw [← accCode_bits]; split <;> norm_num

section
variable {f : VForm} {enter : FFmt → FV → Fl FV} {step comb : FFmt → FV → FV → Fl FV} {c : Nat} (hc : etFloat f.et = some c) (hqp : f.qp.toNat < 12)
  (hvs1 : aligned f.vs1 (grpSize f.grp) = true) (th : Thread)

/-- What a floating reduction makes of the active elements alone. -/
def fredPart (f : VForm) (enter : FFmt → FV → Fl FV) (step comb : FFmt → FV → FV → Fl FV) (c : Nat) (th : Thread) : Option (Fl FV) :=
  reduce (if c = 0xD then 32 else 64) (activeVals th f.qp.toNat f.vs1.toNat (fmtBits c) (fmtBits c) (2 ^ f.grp.toNat) (2 ^ f.grp.toNat * 8192 / fmtBits c) (edec c))
    (enter (ffmtD (accCode c))) (fun a x => flStep (step (ffmtD (accCode c))) a (x, 0)) (flStep (comb (ffmtD (accCode c))))

include hc hqp hvs1

theorem vFred_none (h : fredPart f enter step comb c th = none) : vFred f enter step comb th = .ok th 0 none := by
  unfold vFred
  simp only [hc]
  rw [if_neg (by simp [hqp, hvs1]), activeEls_vals th (etFloat_width hc), accCode_fmt]
  unfold fredPart at h
  rw [show grpSize f.grp = 2 ^ f.grp.toNat from rfl, h]

theorem vFred_some {p : Fl FV} (h : fredPart f enter step comb c th = some p) :
    let r := flStep (comb (ffmtD (accCode c))) (edec (accCode c) (vEl th.v (fmtBits (accCode c)) f.vd.toNat 0).toNat, 0) p
    let e := fenc (ffmtD (accCode c)) rne false r.1
    vFred f enter step comb th = .ok (putGroup th f.vd.toNat (fmtBits (accCode c)) [e.1]) (r.2 ||| e.2) none := by
  unfold vFred
  simp only [hc]
  rw [if_neg (by simp [hqp, hvs1]), activeEls_vals th (etFloat_width hc), accCode_fmt, accCode_bits, headD_groupEls _ _ (accCode_le c), accCode_dec]
  unfold fredPart at h
  rw [show grpSize f.grp = 2 ^ f.grp.toNat from rfl, h]
  rfl

end

theorem fredPart_congr {a b : Thread} (hv : a.v = b.v) (hq : a.q = b.q) (f : VForm) (enter : FFmt → FV → Fl FV) (step comb : FFmt → FV → FV → Fl FV) (c : Nat) :
    fredPart f enter step comb c a = fredPart f enter step comb c b := by
  unfold fredPart; rw [activeVals_congr hv hq]

section
variable {s : State} {i : Instr} {t : Tid} {f : VForm} {enter : FFmt → FV → Fl FV} {step comb : FFmt → FV → FV → Fl FV} {c : Nat}
  (hi : RunsPure i t { t := t }) (hpure : fredOp i = some (t, f, enter, step, comb)) (hr : decReady s t []) (hc : etFloat f.et = some c) (hqp : f.qp.toNat < 12)
  (hvs1 : f.vs1.toNat % 2 ^ f.grp.toNat = 0)
include hi hpure hr hc hqp hvs1

theorem vFred_gives_nothing (h : fredPart f enter step comb c (thread s t) = none) : elGives i s t (fmtBits (accCode c)) f.vd.toNat 0 (fun _ => 0) 4 0 := by
  refine none_give s t i { t := t } hi.form rfl [] hr (by simp [DecForm.regs]) rfl hi.run (hi.issues s) (fun th d hv hq _ _ _ => ?_) _ f.vd.toNat 0 _ (fun k hk => by omega)
  rw [← fredPart_congr hv hq] at h
  rw [vPure_fredOp hpure, vFred_none hc hqp (aligned_of_mod hvs1) th h]

theorem vFred_gives {p : Fl FV} (h : fredPart f enter step comb c (thread s t) = some p) :
    let r := flStep (comb (ffmtD (accCode c))) (edec (accCode c) (vEl (thread s t).v (fmtBits (accCode c)) f.vd.toNat 0).toNat, 0) p
    let e := fenc (ffmtD (accCode c)) rne false r.1
    elGives i s t (fmtBits (accCode c)) f.vd.toNat 1 (fun _ => BitVec.ofNat (fmtBits (accCode c)) e.1) 4 (r.2 ||| e.2) := by
  intro r e
  refine els_give s t i { t := t } hi.form rfl [] hr (by simp [DecForm.regs]) rfl hi.run (hi.issues s) _ f.vd.toNat (accCode_le c) [e.1] _
    (fun th d hv hq _ _ _ _ => ?_) _ (fun k hk => ?_)
  · rw [← fredPart_congr hv hq] at h
    rw [vPure_fredOp hpure, vFred_some hc hqp (aligned_of_mod hvs1) th h, hv]
  · obtain rfl : k = 0 := by simpa using hk
    rfl

end

/-! ## The statement -/

/-- Settles O20. An integer reduction's combination may be taken in any order, so R128's order gives the fold; a floating reduction is R128's order itself. -/
theorem vectorReductions : Obligations.VectorReductions := by
  intro s t f g v vd hr hqp hvs1
  refine ⟨fun w hw => ?_, fun c hc => ?_⟩
  · intro folds
    have run {i : Instr} {sgn : Bool} {enter' : Word → Word} {comb op : Word → Word → Word} {enter : BitVec w → Word} (hi : RunsPure i t { t := t })
        (hpure : redOp i = some (t, f, sgn, enter', comb)) (hop : ∀ x y, comb x y = op x y) (hassoc : ∀ x y z, op (op x y) z = op x (op y z)) (hcomm : ∀ x y, op x y = op y x)
        (henter : ∀ x : BitVec w, entered64 sgn enter' w x.toNat = enter x) : folds i enter op := vRed_gives hi hpure hr hw hqp hvs1 hassoc hcomm hop henter
    have signed (x : BitVec w) : sext w x.toNat = x.signExtend 64 := by rw [sext, ofNat_toNat_self]
    have unsigned (x : BitVec w) : wd x.toNat = x.setWidth 64 := by rw [wd, BitVec.ofNat_toNat]
    refine ⟨?sum, ?sumsq, ?max, ?min, ?maxu, ?minu⟩
    case sum => exact run (i := .vRedSum t f) {} rfl (fun _ _ => rfl) add_assoc add_comm signed
    case sumsq => exact run (i := .vRedSumsq t f) {} rfl (fun _ _ => rfl) add_assoc add_comm fun x => congrArg (fun y => y * y) (signed x)
    case max =>
      refine run (i := .vRedMax t f) {} rfl slt_max (fun x y z => ?_) (fun x y => by rw [max_comm]) signed
      rw [toInt_ofInt_signedMax, toInt_ofInt_signedMax, max_assoc]
    case min =>
      refine run (i := .vRedMin t f) {} rfl slt_min (fun x y z => ?_) (fun x y => by rw [min_comm]) signed
      rw [toInt_ofInt_signedMin, toInt_ofInt_signedMin, min_assoc]
    case maxu =>
      refine run (i := .vRedMaxu t f) {} rfl ult_max (fun x y z => ?_) (fun x y => by rw [max_comm]) unsigned
      rw [toNat_ofNat_unsignedMax, toNat_ofNat_unsignedMax, max_assoc]
    case minu =>
      refine run (i := .vRedMinu t f) {} rfl ult_min (fun x y z => ?_) (fun x y => by rw [min_comm]) unsigned
      rw [toNat_ofNat_unsignedMin, toNat_ofNat_unsignedMin, min_assoc]
  · intro w acc m xs folds
    have run {i : Instr} {enter : FFmt → FV → Fl FV} {step comb : FFmt → FV → FV → Fl FV} (hi : RunsPure i t { t := t })
        (hpure : fredOp i = some (t, f, enter, step, comb)) : folds i (enter m) (step m) (comb m) := by
      dsimp only [folds]
      split
      case _ h => exact vFred_gives_nothing hi hpure hr hc hqp hvs1 h
      case _ p h => exact vFred_gives hi hpure hr hc hqp hvs1 h
    exact ⟨run (i := .vFredSum t f) {} rfl, run (i := .vFredSumsq t f) {} rfl, run (i := .vFredMax t f) {} rfl, run (i := .vFredMin t f) {} rfl⟩

end Sys2Proof.Machine
end

section
/-! PROOFS. `v.splat`, `v.sel`, `v.ext`, `v.ins` and `v.pcount` (R119, R120). -/

namespace Sys2Proof.Machine

open Sys2Proof.Safety

/-! ## What each instruction does in its unit -/

theorem mapActive_noFlags {q w g : Nat} {old : List Nat} {fn : Nat → Nat → Fl Nat} (h : ∀ k x, (fn k x).2 = 0) : (mapActive q w g old fn).2 = 0 := by
  refine Nat.zero_of_testBit_eq_false fun j => Bool.eq_false_iff.2 fun hj => ?_
  obtain ⟨k, -, -, hk⟩ := (mapActive_flags q w g old fn j).1 hj
  rw [h, Nat.zero_testBit] at hk
  cases hk

section
variable {t : Tid} {f : VForm} {w : Nat} (hw : etBits f.et = some w) (th : Thread) (d : DCtx)
include hw

theorem vSplat_maps (hqp : f.qp.toNat < 12) (hvs2 : f.vs2 = 0) (hvd : aligned f.vd (grpSize f.grp) = true) :
    let r := mapActive (qget th f.qp.toNat) w (grpSize f.grp) (groupEls th f.vd.toNat w (grpSize f.grp * 8192 / w)) (fun _ _ => (d.a.toNat % 2 ^ w, 0))
    vPure (.vSplat t f) th d = some (t, .ok (putGroup th f.vd.toNat w r.1) r.2 none) := by
  intro r
  have hlegal : (12 ≤ f.qp.toNat || f.vs2 ≠ 0 || !aligned f.vd (grpSize f.grp)) = false := by simp [hqp, hvs2, hvd]
  rw [show r.2 = 0 from mapActive_noFlags fun _ _ => rfl]
  simp only [vPure, vReg, vMove, hw, hlegal]
  rfl

theorem vSel_puts (hqp : f.qp.toNat < 12) (hvd : aligned f.vd (grpSize f.grp) = true) (hvs1 : aligned f.vs1 (grpSize f.grp) = true) (hvs2 : aligned f.vs2 (grpSize f.grp) = true) :
    let n := grpSize f.grp * 8192 / w
    let r := mapActive (qget th f.qp.toNat) w (grpSize f.grp) (groupEls th f.vs2.toNat w n) (fun k _ => ((groupEls th f.vs1.toNat w n).getD k 0, 0))
    vPure (.vSel t f) th d = some (t, .ok (putGroup th f.vd.toNat w r.1) 0 none) := by
  have hlegal : (12 ≤ f.qp.toNat || !aligned f.vd (grpSize f.grp) || !aligned f.vs1 (grpSize f.grp) || !aligned f.vs2 (grpSize f.grp)) = false := by simp [hqp, hvd, hvs1, hvs2]
  simp only [vPure, vReg, vMove, hw, hlegal]
  rfl

theorem vExt_reads (hqp : f.qp = 0) (hvs1 : aligned f.vs1 (grpSize f.grp) = true) :
    let n := grpSize f.grp * 8192 / w
    vPure (.vExt t f) th d = some (t, .ok th 0 (some (if d.b.toNat < n then sext w ((groupEls th f.vs1.toNat w n).getD d.b.toNat 0) else 0))) := by
  have hlegal : (f.qp ≠ 0 || !aligned f.vs1 (grpSize f.grp)) = false := by simp [hqp, hvs1]
  simp only [vPure, vReg, vMove, hw, hlegal]
  rfl

section
variable (hqp : f.qp = 0) (hvd : aligned f.vd (grpSize f.grp) = true)
include hqp hvd

theorem vIns_puts (hin : d.b.toNat < grpSize f.grp * 8192 / w) :
    vPure (.vIns t f) th d = some (t, .ok (putGroup th f.vd.toNat w ((groupEls th f.vd.toNat w (grpSize f.grp * 8192 / w)).set d.b.toNat (d.a.toNat % 2 ^ w))) 0 none) := by
  have hlegal : (f.qp ≠ 0 || !aligned f.vd (grpSize f.grp)) = false := by simp [hqp, hvd]
  simp only [vPure, vReg, vMove, hw, hlegal, if_pos hin]
  rfl

theorem vIns_past (hin : ¬d.b.toNat < grpSize f.grp * 8192 / w) : vPure (.vIns t f) th d = some (t, .ok th 0 none) := by
  have hlegal : (f.qp ≠ 0 || !aligned f.vd (grpSize f.grp)) = false := by simp [hqp, hvd]
  simp only [vPure, vReg, vMove, hw, hlegal, if_neg hin]
  rfl

end

theorem vPcount_counts (hqp : f.qp = 0) (hvs1 : f.vs1.toNat < 12) :
    vPure (.vPcount t f) th d = some (t, .ok th 0 (some (wd ((List.range (grpSize f.grp * 8192 / w)).filter
      (fun k => active (qget th f.vs1.toNat) w (grpSize f.grp) k)).length))) := by
  have hlegal : (f.qp ≠ 0 || decide (12 ≤ f.vs1.toNat)) = false := by simp [hqp, Nat.not_le.2 hvs1]
  simp only [vPure, vReg, vMove, hw, hlegal]
  rfl

end

/-! ## What each instruction gives -/

section
variable {s : State} {t : Tid} {f : VForm} {w : Nat} (hw : etBits f.et = some w)
include hw

theorem vSplat_gives (hr : decReady s t [f.vs1]) (hqp : f.qp.toNat < 12) (hvs2 : f.vs2 = 0) (hvd : f.vd.toNat % 2 ^ f.grp.toNat = 0) :
    vecGives (.vSplat t f) s t ((thread s t).pc + 4) w (2 ^ f.grp.toNat) f.vd.toNat f.qp.toNat (fun _ _ => ((rx s t f.vs1).setWidth w, 0)) := by
  have hi : RunsPure (.vSplat t f) t { t := t, a := f.vs1 } := {}
  refine group_gives s t (.vSplat t f) _ hi.form rfl _ hr (by simp [DecForm.regs]) rfl hi.run (hi.issues s) w _ _ _ (etBits_width hw) _ rfl
    (fun _ _ => ((rx s t f.vs1).toNat % 2 ^ w, 0)) (fun th d _ _ _ ha _ _ => ?_) _ (fun k hk => ?_)
  · rw [vSplat_maps hw th d hqp hvs2 (aligned_of_mod hvd), ha]
    rfl
  · exact Prod.ext (BitVec.eq_of_toNat_eq (by simp)) rfl

theorem vSel_gives (hr : decReady s t []) (hqp : f.qp.toNat < 12) (hvd : f.vd.toNat % 2 ^ f.grp.toNat = 0) (hvs1 : f.vs1.toNat % 2 ^ f.grp.toNat = 0)
    (hvs2 : f.vs2.toNat % 2 ^ f.grp.toNat = 0) :
    elGives (.vSel t f) s t w f.vd.toNat (2 ^ f.grp.toNat * 8192 / w) (fun k =>
      if qBit (thread s t) f.qp.toNat (k * w / (8 * 2 ^ f.grp.toNat)) then vEl (thread s t).v w f.vs1.toNat k else vEl (thread s t).v w f.vs2.toNat k) 4 0 := by
  have hi : RunsPure (.vSel t f) t { t := t } := {}
  have hel := etBits_width hw
  set n := 2 ^ f.grp.toNat * 8192 / w with hn
  set l := (mapActive (qget (thread s t) f.qp.toNat) w (2 ^ f.grp.toNat) (groupEls (thread s t) f.vs2.toNat w n)
    (fun k _ => ((groupEls (thread s t) f.vs1.toNat w n).getD k 0, 0))).1 with hl
  have hlen : l.length = n := by rw [hl, mapActive_length, length_groupEls]
  rw [← hlen]
  refine els_give s t (.vSel t f) _ hi.form rfl _ hr (by simp [DecForm.regs]) rfl hi.run (hi.issues s) w f.vd.toNat hel.le l 0 (fun th d hv hq _ _ _ _ => ?_) _ (fun k hk => ?_)
  · rw [vSel_puts hw th d hqp (aligned_of_mod hvd) (aligned_of_mod hvs1) (aligned_of_mod hvs2), qget_congr hq, groupEls_congr hv f.vs1.toNat, groupEls_congr hv f.vs2.toNat]
    rfl
  · rw [hlen] at hk
    rw [hl, mapActive_getD _ _ _ _ _ (by rw [length_groupEls]; exact hk), active_mapped hel.pos hn _ hk, groupEls_getD _ _ hel.le hk, groupEls_getD _ _ hel.le hk]
    split <;> exact ofNat_toNat_self _

theorem vExt_gives (hr : decReady s t [f.vs2, f.vd]) (hqp : f.qp = 0) (hvs1 : f.vs1.toNat % 2 ^ f.grp.toNat = 0) :
    scalarFrom (.vExt t f) s t f.vd (let k := (rx s t f.vs2).toNat
      if k < 2 ^ f.grp.toNat * 8192 / w then (vEl (thread s t).v w f.vs1.toNat k).signExtend 64 else 0) := by
  have hi : RunsPure (.vExt t f) t { t := t, b := f.vs2, dst := some f.vd } := {}
  refine scalar_from s t (.vExt t f) _ hi.form rfl _ hr (by simp [DecForm.regs]) f.vd rfl rfl hi.run (hi.issues s) _ (fun th d hv _ _ hb => ?_)
  rw [vExt_reads hw th d hqp (aligned_of_mod hvs1), hb, groupEls_congr hv]
  have hval : ∀ k, k < 2 ^ f.grp.toNat * 8192 / w → sext w ((groupEls (thread s t) f.vs1.toNat w (2 ^ f.grp.toNat * 8192 / w)).getD k 0)
      = (vEl (thread s t).v w f.vs1.toNat k).signExtend 64 := fun k hk => by
    rw [groupEls_getD _ _ (etBits_width hw).le hk, sext, ofNat_toNat_self]
  exact congrArg (fun x => some (t, VOut.ok th 0 (some x))) (ite_congr rfl (fun hin => hval _ hin) fun _ => rfl)

theorem vIns_gives (hr : decReady s t [f.vs1, f.vs2]) (hqp : f.qp = 0) (hvd : f.vd.toNat % 2 ^ f.grp.toNat = 0) :
    elGives (.vIns t f) s t w f.vd.toNat (2 ^ f.grp.toNat * 8192 / w)
      (fun k => if k = (rx s t f.vs2).toNat then (rx s t f.vs1).setWidth w else vEl (thread s t).v w f.vd.toNat k) 4 0 := by
  have hi : RunsPure (.vIns t f) t { t := t, a := f.vs1, b := f.vs2 } := {}
  have hel := etBits_width hw
  have hregs : ∀ r ∈ DecForm.regs { t := t, a := f.vs1, b := f.vs2 }, r ∈ (0 : Reg) :: [f.vs1, f.vs2] := by simp [DecForm.regs]
  set n := 2 ^ f.grp.toNat * 8192 / w
  by_cases hin : (rx s t f.vs2).toNat < n
  · set l := (groupEls (thread s t) f.vd.toNat w n).set (rx s t f.vs2).toNat ((rx s t f.vs1).toNat % 2 ^ w) with hl
    have hlen : l.length = n := by rw [hl, List.length_set, length_groupEls]
    rw [← hlen]
    refine els_give s t (.vIns t f) _ hi.form rfl _ hr hregs rfl hi.run (hi.issues s) w f.vd.toNat hel.le l 0 (fun th d hv _ _ ha hb _ => ?_) _ (fun k hk => ?_)
    · rw [vIns_puts hw th d hqp (aligned_of_mod hvd) (by rw [hb]; exact hin), ha, hb, groupEls_congr hv]
      rfl
    · have hk' : k < n := hlen ▸ hk
      have hold := groupEls_getD (thread s t) f.vd.toNat hel.le hk' 0
      rw [List.getD_eq_getElem _ _ (by rw [length_groupEls]; exact hk')] at hold
      rw [List.getD_eq_getElem _ _ hk, List.getElem_set]
      by_cases he : (rx s t f.vs2).toNat = k
      · rw [if_pos he, if_pos he.symm]
        exact BitVec.eq_of_toNat_eq (by simp)
      · rw [if_neg he, if_neg (Ne.symm he), hold, ofNat_toNat_self]
  · refine none_give s t (.vIns t f) _ hi.form rfl _ hr hregs rfl hi.run (hi.issues s) (fun th d _ _ _ _ hb => ?_) w f.vd.toNat n _ (fun k hk => ?_)
    · exact vIns_past hw th d hqp (aligned_of_mod hvd) (by rw [hb]; exact hin)
    · rw [if_neg (by omega)]

theorem vPcount_gives (hr : decReady s t [f.vd]) (hqp : f.qp = 0) (hvs1 : f.vs1.toNat < 12) :
    scalarFrom (.vPcount t f) s t f.vd (BitVec.ofNat 64 ((List.range (2 ^ f.grp.toNat * 8192 / w)).countP
      (fun k => qBit (thread s t) f.vs1.toNat (k * w / (8 * 2 ^ f.grp.toNat))))) := by
  have hi : RunsPure (.vPcount t f) t { t := t, dst := some f.vd } := {}
  refine scalar_from s t (.vPcount t f) _ hi.form rfl _ hr (by simp [DecForm.regs]) f.vd rfl rfl hi.run (hi.issues s) _ (fun th d _ hq _ _ => ?_)
  rw [vPcount_counts hw th d hqp hvs1, qget_congr hq, ← List.countP_eq_length_filter]
  have hcount := List.countP_congr (l := List.range (2 ^ f.grp.toNat * 8192 / w)) (p := fun k => active (qget (thread s t) f.vs1.toNat) w (2 ^ f.grp.toNat) k)
    (q := fun k => qBit (thread s t) f.vs1.toNat (k * w / (8 * 2 ^ f.grp.toNat)))
    (fun k hk => by rw [active_mapped (etBits_width hw).pos rfl _ (List.mem_range.1 hk)])
  rw [← hcount]
  rfl

end

/-- Settles O21, instruction by instruction. -/
theorem vectorMoves : Obligations.VectorMoves := by
  intro s t f w g n v pc hw
  exact ⟨vSplat_gives hw, vSel_gives hw, vExt_gives hw, vIns_gives hw, vPcount_gives hw⟩

end Sys2Proof.Machine
end

section
/-! PROOFS. `v.cvt` (R129, R130, R154): the elements converted, and the scale bytes of their blocks. -/

namespace Sys2Proof.Machine

open Sys2Proof.Safety

/-! ## Formats and fields -/

theorem fmtBits_range {c : Nat} (h : c < 0xE) : 4 ≤ fmtBits c ∧ fmtBits c ≤ 64 := by
  interval_cases c <;> decide

theorem longOk_formats {w1 : Word} (h : longOk w1 = true) : w1FmtD w1 < 0xE ∧ w1FmtA w1 < 0xE ∧ w1FmtB w1 < 0xE ∧ w1Flags w1 < 8 := by
  simp only [longOk, Bool.and_eq_true, decide_eq_true_eq] at h
  obtain ⟨⟨⟨⟨-, hflags⟩, hd⟩, ha⟩, hb⟩ := h
  exact ⟨hd, ha, hb, hflags⟩

theorem cvtFlags {n : Nat} (h : n < 4) : n.testBit 0 = (n % 2 == 1) ∧ n.testBit 1 = decide (2 ≤ n) ∧ n.testBit 2 = false := by
  interval_cases n <;> decide

/-- The rounding of element k of a long form. -/
def longRnd (s : State) (t : Tid) (w1 : Word) (k : Nat) : Rnd :=
  rndAt (if w1Rm w1 = 3 then bits (srAt s t 1) 1 0 else w1Rm w1) (randomOf s t) (BitVec.ofNat 64 k)

theorem longRnd_atIssue {s : State} {t : Tid} {th : Thread} {d : DCtx} (h : AtIssue s t th d) (w1 : Word) (k : Nat) :
    rndAt (rmOf th (w1Rm w1)) (srCtx th d) (wd k) = longRnd s t w1 k := by
  rw [rmOf, frm_atIssue h, srCtx_atIssue h]
  rfl

theorem scaleByte_eq (th : Thread) (r : Nat) {b : Nat} (hb : b < 1024) : scaleByte th r b = (vEl th.v 8 r b).toNat := by
  apply Nat.eq_of_testBit_eq; intro j
  show _ = (vEl th.v 8 r b).getLsbD j
  rw [scaleByte, show 256 = 2 ^ 8 by norm_num, Nat.testBit_mod_two_pow, Nat.testBit_shiftRight]
  by_cases hj : j < 8
  · rw [decide_eq_true hj, Bool.true_and, getLsbD_vEl _ r b j (by norm_num) hj, show r + (8 * b + j) / 8192 = r by omega, show (8 * b + j) % 8192 = 8 * b + j by omega]
    rfl
  · rw [decide_eq_false hj, Bool.false_and, BitVec.getLsbD_of_ge _ _ (by omega)]

/-! ## What `v.cvt` reads -/

/-- The widest of the two formats of a `v.cvt`, and its elements. -/
def cvtWide (f : LForm) : Nat := max (fmtBits (w1FmtD f.w1)) (fmtBits (w1FmtA f.w1))
def cvtCount (f : LForm) : Nat := 2 ^ f.grp.toNat * 8192 / cvtWide f

/-- Whether a `v.cvt` goes through block scales. -/
def cvtScaled (f : LForm) : Bool := (w1Flags f.w1).testBit 1

/-- Its source elements as exact values. -/
def cvtVals (th : Thread) (f : LForm) : List FV :=
  (List.range (cvtCount f)).map (fun k =>
    srcVal th (cvtScaled f) (w1FmtA f.w1) (w1Src3 f.w1) k ((groupEls th f.rs1.toNat (fmtBits (w1FmtA f.w1)) (cvtCount f)).getD k 0))

/-- Source element k of a `v.cvt` of thread t. -/
def cvtVal (th : Thread) (f : LForm) (k : Nat) : FV :=
  if 2 ≤ w1Flags f.w1 ∧ isMx (w1FmtA f.w1) = true then
    mxDec (w1FmtA f.w1) (vEl th.v (fmtBits (w1FmtA f.w1)) f.rs1.toNat k).toNat (vEl th.v 8 (w1Src3 f.w1) (k / 32)).toNat
  else edec (w1FmtA f.w1) (vEl th.v (fmtBits (w1FmtA f.w1)) f.rs1.toNat k).toNat

theorem srcVal_congr {a b : Thread} (h : a.v = b.v) (blk : Bool) (c src3 k x : Nat) : srcVal a blk c src3 k x = srcVal b blk c src3 k x := by
  unfold srcVal scaleByte vget; rw [h]

theorem cvtVals_congr {a b : Thread} (h : a.v = b.v) (f : LForm) : cvtVals a f = cvtVals b f := by
  unfold cvtVals
  simp only [srcVal_congr h, groupEls_congr h]

section
variable {f : LForm} (hok : longOk f.w1 = true)
include hok

theorem cvtWide_range : 4 ≤ cvtWide f ∧ cvtWide f ≤ 64 := by
  obtain ⟨hd, ha, -, -⟩ := longOk_formats hok
  have h1 := fmtBits_range hd
  have h2 := fmtBits_range ha
  unfold cvtWide; omega

theorem cvtWide_pos : 0 < cvtWide f := Nat.lt_of_lt_of_le (by norm_num) (cvtWide_range hok).1

/-- A group holds no more elements than a register holds scale bytes for. -/
theorem cvtCount_le : cvtCount f ≤ 16384 := by
  have hg : 2 ^ f.grp.toNat ≤ 2 ^ 3 := Nat.pow_le_pow_right (by norm_num) (by have := f.grp.isLt; omega)
  calc cvtCount f ≤ 8 * 8192 / 4 := Nat.div_le_div (Nat.mul_le_mul_right _ hg) (cvtWide_range hok).1 (by norm_num)
    _ = 16384 := by norm_num

theorem cvtVals_getElem? (hflags : w1Flags f.w1 < 4) (th : Thread) {k : Nat} (hk : k < cvtCount f) : (cvtVals th f)[k]? = some (cvtVal th f k) := by
  obtain ⟨-, ha, -, -⟩ := longOk_formats hok
  have hn := cvtCount_le hok
  rw [cvtVals, List.getElem?_map, List.getElem?_range hk, Option.map_some, groupEls_getD _ _ (fmtBits_range ha).2 hk, srcVal, scaleByte_eq _ _ (by omega), cvtScaled,
    (cvtFlags hflags).2.1, cvtVal]
  exact congrArg some (if_congr (by rw [Bool.and_eq_true, decide_eq_true_iff]) rfl rfl)

theorem cvtVals_getD (hflags : w1Flags f.w1 < 4) (th : Thread) (x : FV) {k : Nat} (hk : k < cvtCount f) : (cvtVals th f).getD k x = cvtVal th f k := by
  rw [List.getD_eq_getElem?_getD, cvtVals_getElem? hok hflags th hk]
  rfl

end

/-! ## What `v.cvt` does in its unit -/

/-- The operands of a `v.cvt` that is no illegal instruction (R111, R129, R130). -/
structure CvtLegal (f : LForm) : Prop where
  ok : longOk f.w1 = true
  qp : f.qp.toNat < 12
  rs2 : f.rs2 = 0
  fmtB : w1FmtB f.w1 = 0
  flags : w1Flags f.w1 < 4
  rd : longAligned f.rd (2 ^ f.grp.toNat) (fmtBits (w1FmtD f.w1)) (cvtWide f) = true
  rs1 : longAligned f.rs1 (2 ^ f.grp.toNat) (fmtBits (w1FmtA f.w1)) (cvtWide f) = true
  unscaled : w1Flags f.w1 < 2 → w1Src3 f.w1 = 0
  scaled : 2 ≤ w1Flags f.w1 → isMx (w1FmtD f.w1) = true ∨ isMx (w1FmtA f.w1) = true

/-- The elements of a `v.cvt` whose destination takes no scales. -/
def cvtPlain (f : LForm) (rnd : Nat → Rnd) (vals : List FV) (k : Nat) : Fl Nat :=
  let e := eenc (w1FmtD f.w1) (narrows (w1FmtA f.w1) (w1FmtD f.w1) && !(cvtScaled f && isMx (w1FmtA f.w1))) (rnd k) ((w1Flags f.w1).testBit 0) (vals.getD k (.fin false 0 0))
  (posZero (w1FmtD f.w1) e.1, e.2)

/-- The scale codes of a `v.cvt` whose destination takes them, and its elements. -/
def cvtScales (f : LForm) (q : Nat) (vals : List FV) : List Nat :=
  (List.range ((cvtCount f + 31) / 32)).map (fun b => mxScale (w1FmtD f.w1)
    ((List.range 32).filterMap (fun j => if 32 * b + j < cvtCount f && active q (cvtWide f) (2 ^ f.grp.toNat) (32 * b + j) then vals[32 * b + j]? else none)))
def cvtBlock (f : LForm) (rnd : Nat → Rnd) (vals : List FV) (scales : List Nat) (k : Nat) : Fl Nat :=
  let e := mxEnc (w1FmtD f.w1) (rnd k) (scales.getD (k / 32) 0) (vals.getD k (.fin false 0 0))
  (posZero (w1FmtD f.w1) e.1, e.2)

section
variable {f : LForm} (h : CvtLegal f)
include h

theorem CvtLegal.not_illegal : (!longOk f.w1 || 12 ≤ f.qp.toNat || f.rs2 ≠ 0 || decide (w1FmtB f.w1 ≠ 0) || (w1Flags f.w1).testBit 2
    || (!cvtScaled f && decide (w1Src3 f.w1 ≠ 0)) || (cvtScaled f && !isMx (w1FmtD f.w1) && !isMx (w1FmtA f.w1))
    || !longAligned f.rd (2 ^ f.grp.toNat) (fmtBits (w1FmtD f.w1)) (cvtWide f)
    || !longAligned f.rs1 (2 ^ f.grp.toNat) (fmtBits (w1FmtA f.w1)) (cvtWide f)) = false := by
  obtain ⟨-, hblk, h2⟩ := cvtFlags h.flags
  rw [cvtScaled, hblk, h2]
  rcases Nat.lt_or_ge (w1Flags f.w1) 2 with hlt | hge
  · simp [h.ok, h.qp, h.rs2, h.fmtB, h.rd, h.rs1, h.unscaled hlt, Nat.not_le.2 hlt]
  · rcases h.scaled hge with hmx | hmx <;> simp [h.ok, h.qp, h.rs2, h.fmtB, h.rd, h.rs1, hge, hmx]

theorem vCvt_plain (hplain : (cvtScaled f && isMx (w1FmtD f.w1)) = false) (th : Thread) (d : DCtx) :
    let r := mapActive (qget th f.qp.toNat) (cvtWide f) (2 ^ f.grp.toNat) (groupEls th f.rd.toNat (fmtBits (w1FmtD f.w1)) (cvtCount f))
      (fun k _ => cvtPlain f (fun k => rndAt (rmOf th (w1Rm f.w1)) (srCtx th d) (wd k)) (cvtVals th f) k)
    vCvt f th d = .ok (putGroup th f.rd.toNat (fmtBits (w1FmtD f.w1)) r.1) r.2 none := by
  have hlegal := h.not_illegal
  unfold vCvt
  dsimp only
  exact (if_neg (by rw [Bool.not_eq_true]; exact hlegal)).trans (if_neg (by rw [Bool.not_eq_true]; exact hplain))

theorem vCvt_scaled (hscaled : (cvtScaled f && isMx (w1FmtD f.w1)) = true) (th : Thread) (d : DCtx) :
    let scales := cvtScales f (qget th f.qp.toNat) (cvtVals th f)
    let r := mapActive (qget th f.qp.toNat) (cvtWide f) (2 ^ f.grp.toNat) (groupEls th f.rd.toNat (fmtBits (w1FmtD f.w1)) (cvtCount f))
      (fun k _ => cvtBlock f (fun k => rndAt (rmOf th (w1Rm f.w1)) (srCtx th d) (wd k)) (cvtVals th f) scales k)
    vCvt f th d = .ok (putGroup (putGroup th f.rd.toNat (fmtBits (w1FmtD f.w1)) r.1) (w1Src3 f.w1) 8 scales) r.2 none := by
  have hlegal := h.not_illegal
  unfold vCvt
  dsimp only
  exact (if_neg (by rw [Bool.not_eq_true]; exact hlegal)).trans (if_pos hscaled)

end

/-! ## What `v.cvt` gives -/

/-- An element and a scale byte of a group are the same after a write to registers that hold none of its bits. -/
theorem vEl_away {u v : Table (BitVec 8192)} {w r n k : Nat} (hw : w ≤ 64) (hk : k < n) (h : ∀ q, r ≤ q → q < r + regsOf w n → tget 0 u q = tget 0 v q) :
    vEl u w r k = vEl v w r k := by
  have hroom := mul_lt_regsOf (w := w) hk
  apply BitVec.eq_of_getLsbD_eq; intro j hj
  rw [getLsbD_vEl _ _ _ _ hw hj, getLsbD_vEl _ _ _ _ hw hj, h _ (by omega) (by omega)]

/-- Element k of a `v.cvt` whose destination takes no scales (R130, R154). -/
def cvtElem (f : LForm) (rnd : Rnd) (x : FV) : Fl Nat :=
  let e := eenc (w1FmtD f.w1) (decide (w1Flags f.w1 < 2 ∨ isMx (w1FmtA f.w1) = false) && narrows (w1FmtA f.w1) (w1FmtD f.w1)) rnd (w1Flags f.w1 % 2 == 1) x
  (posZero (w1FmtD f.w1) e.1, e.2)

/-- The scale code of block b of a `v.cvt` whose destination takes scales, and element k under it (R130, R140, R154). -/
def cvtScale (th : Thread) (f : LForm) (b : Nat) : Nat :=
  mxScale (w1FmtD f.w1) ((List.range 32).filterMap (fun j =>
    if 32 * b + j < cvtCount f ∧ qBit th f.qp.toNat ((32 * b + j) * cvtWide f / (8 * 2 ^ f.grp.toNat)) = true then some (cvtVal th f (32 * b + j)) else none))
def cvtScaledElem (th : Thread) (f : LForm) (rnd : Rnd) (k : Nat) : Fl Nat :=
  let e := mxEnc (w1FmtD f.w1) rnd (cvtScale th f (k / 32)) (cvtVal th f k)
  (posZero (w1FmtD f.w1) e.1, e.2)

theorem cvtScales_length (f : LForm) (q : Nat) (vals : List FV) : (cvtScales f q vals).length = (cvtCount f + 31) / 32 := by
  simp [cvtScales]

section
variable {f : LForm} (h : CvtLegal f)
include h

theorem CvtLegal.wide_pos : 0 < cvtWide f := cvtWide_pos h.ok

theorem CvtLegal.width_le : fmtBits (w1FmtD f.w1) ≤ 64 := (fmtBits_range (longOk_formats h.ok).1).2

theorem CvtLegal.scaled_eq : cvtScaled f = decide (2 ≤ w1Flags f.w1) := (cvtFlags h.flags).2.1

theorem cvtPlain_eq (th : Thread) (rnd : Nat → Rnd) {k : Nat} (hk : k < cvtCount f) : cvtPlain f rnd (cvtVals th f) k = cvtElem f (rnd k) (cvtVal th f k) := by
  have hnarrow : (narrows (w1FmtA f.w1) (w1FmtD f.w1) && !(cvtScaled f && isMx (w1FmtA f.w1)))
      = (decide (w1Flags f.w1 < 2 ∨ isMx (w1FmtA f.w1) = false) && narrows (w1FmtA f.w1) (w1FmtD f.w1)) := by
    rw [Bool.and_comm, h.scaled_eq]
    rcases Nat.lt_or_ge (w1Flags f.w1) 2 with h2 | h2 <;> simp [h2, Nat.not_le.2, Nat.not_lt.2]
  rw [cvtPlain, cvtElem, cvtVals_getD h.ok h.flags th _ hk, hnarrow, (cvtFlags h.flags).1]

theorem cvtScales_getD (th : Thread) {b : Nat} (hb : b < (cvtCount f + 31) / 32) : (cvtScales f (qget th f.qp.toNat) (cvtVals th f)).getD b 0 = cvtScale th f b := by
  rw [List.getD_eq_getElem _ _ (by rw [cvtScales_length]; exact hb), cvtScale]
  simp only [cvtScales, List.getElem_map, List.getElem_range]
  refine congrArg _ (List.filterMap_congr fun j _ => ?_)
  by_cases hk : 32 * b + j < cvtCount f
  · rw [active_mapped h.wide_pos rfl th hk, cvtVals_getElem? h.ok h.flags th hk]
    simp only [hk, decide_true, Bool.true_and, true_and]
  · simp [hk]

theorem cvtBlock_eq (th : Thread) (rnd : Nat → Rnd) {k : Nat} (hk : k < cvtCount f) :
    cvtBlock f rnd (cvtVals th f) (cvtScales f (qget th f.qp.toNat) (cvtVals th f)) k = cvtScaledElem th f (rnd k) k := by
  rw [cvtBlock, cvtScaledElem, cvtVals_getD h.ok h.flags th _ hk, cvtScales_getD h th (by omega)]

/-- The scale bytes lie in one register. -/
theorem cvtScales_room (q : Nat) (vals : List FV) : regsOf 8 (cvtScales f q vals).length ≤ 1 := by
  have hn := cvtCount_le h.ok
  rw [cvtScales_length, regsOf]
  omega

end

section
variable {s : State} {t : Tid} {f : LForm} (hr : decReady s t []) (h : CvtLegal f)
include hr h

theorem vCvt_gives_plain (hplain : w1Flags f.w1 < 2 ∨ isMx (w1FmtD f.w1) = false) :
    convGives (.vCvt t f) s t (fmtBits (w1FmtD f.w1)) f.rd.toNat (cvtCount f) (fun k => qBit (thread s t) f.qp.toNat (k * cvtWide f / (8 * 2 ^ f.grp.toNat)))
      (fun k => cvtElem f (longRnd s t f.w1 k) (cvtVal (thread s t) f k)) none := by
  have hscale : (cvtScaled f && isMx (w1FmtD f.w1)) = false := by
    rw [h.scaled_eq]
    rcases hplain with h2 | h2 <;> simp [h2, Nat.not_le.2]
  set fn : Nat → Nat → Fl Nat := fun k _ => cvtPlain f (longRnd s t f.w1) (cvtVals (thread s t) f) k with hfn
  have hpure (th : Thread) (d : DCtx) (hat : AtIssue s t th d) : vPure (.vCvt t f) th d = some (t, .ok
      (putGroup th f.rd.toNat (fmtBits (w1FmtD f.w1)) (mapActive (qget th f.qp.toNat) (cvtWide f) (2 ^ f.grp.toNat)
        (groupEls th f.rd.toNat (fmtBits (w1FmtD f.w1)) (cvtCount f)) fn).1)
      (mapActive (qget th f.qp.toNat) (cvtWide f) (2 ^ f.grp.toNat) (groupEls th f.rd.toNat (fmtBits (w1FmtD f.w1)) (cvtCount f)) fn).2 none) := by
    rw [hfn, ← cvtVals_congr hat.v, ← funext (longRnd_atIssue hat f.w1)]
    exact congrArg (fun o => some (t, o)) (vCvt_plain h hscale th d)
  obtain ⟨m, hexec, hdone, hels, hbits, hq, hregs, hflags⟩ := mapped_done (i := .vCvt t f) (df := { t := t, long := true }) {} hr (by simp [DecForm.regs]) rfl
    h.width_le h.wide_pos rfl hpure
    (el := fun k => (BitVec.ofNat _ (cvtElem f (longRnd s t f.w1 k) (cvtVal (thread s t) f k)).1, (cvtElem f (longRnd s t f.w1 k) (cvtVal (thread s t) f k)).2))
    (fun k hk => by rw [show fn k (vEl (thread s t).v (fmtBits (w1FmtD f.w1)) f.rd.toNat k).toNat = _ from cvtPlain_eq h _ _ hk])
  exact ⟨m, hexec, hdone, hels, nofun, fun r b hb hout _ => hbits r b hb hout, hq, hregs, hflags⟩

theorem vCvt_gives_scaled (hflags : 2 ≤ w1Flags f.w1) (hmx : isMx (w1FmtD f.w1) = true)
    (hsrc3 : w1Src3 f.w1 < f.rd.toNat ∨ f.rd.toNat + regsOf (fmtBits (w1FmtD f.w1)) (cvtCount f) ≤ w1Src3 f.w1) :
    convGives (.vCvt t f) s t (fmtBits (w1FmtD f.w1)) f.rd.toNat (cvtCount f) (fun k => qBit (thread s t) f.qp.toNat (k * cvtWide f / (8 * 2 ^ f.grp.toNat)))
      (fun k => cvtScaledElem (thread s t) f (longRnd s t f.w1 k) k) (some (w1Src3 f.w1, (cvtCount f + 31) / 32, cvtScale (thread s t) f)) := by
  set rd := f.rd.toNat
  set th0 := thread s t with hth0
  set scales := cvtScales f (qget th0 f.qp.toNat) (cvtVals th0 f) with hscales
  set fn : Nat → Nat → Fl Nat := fun k _ => cvtBlock f (longRnd s t f.w1) (cvtVals th0 f) scales k with hfn
  set r := mapActive (qget th0 f.qp.toNat) (cvtWide f) (2 ^ f.grp.toNat) (groupEls th0 rd (fmtBits (w1FmtD f.w1)) (cvtCount f)) fn with hr'
  have hlen : r.1.length = cvtCount f := by rw [hr', mapActive_length, length_groupEls]
  have hroom : regsOf 8 scales.length ≤ 1 := cvtScales_room h _ _
  have hslen : scales.length = (cvtCount f + 31) / 32 := cvtScales_length f _ _
  obtain ⟨m, hexec, hdone, hv, hq, hregs, hfl⟩ := plain_done (i := .vCvt t f) (df := { t := t, long := true }) (fl := r.2)
    (v' := (putGroup (putGroup th0 rd (fmtBits (w1FmtD f.w1)) r.1) (w1Src3 f.w1) 8 scales).v) {} hr (by simp [DecForm.regs]) rfl (fun th d hat => by
      have hput : putGroup (putGroup th rd (fmtBits (w1FmtD f.w1)) r.1) (w1Src3 f.w1) 8 scales = { th with v := (putGroup (putGroup th0 rd (fmtBits (w1FmtD f.w1)) r.1) (w1Src3 f.w1) 8 scales).v } := by
        rw [putGroup_congr hat.v rd (fmtBits (w1FmtD f.w1)) r.1]
        exact putGroup_congr (b := putGroup th0 rd (fmtBits (w1FmtD f.w1)) r.1) (by rfl) _ _ _
      rw [← hput, hr', hfn, hscales, hth0, ← groupEls_congr hat.v, ← qget_congr hat.q, ← cvtVals_congr hat.v, ← funext (longRnd_atIssue hat f.w1)]
      exact congrArg (fun o => some (t, o)) (vCvt_scaled h (by rw [h.scaled_eq, hmx, decide_eq_true hflags]; rfl) th d))
  refine ⟨m, hexec, hdone, fun k hk => ?_, fun q c g hsome b hb => ?_, fun q b hb hout hscaled => ?_, hq, hregs, flagsGained_congr hfl fun j => ?_⟩
  · have haway := vEl_away (u := (putGroup (putGroup th0 rd (fmtBits (w1FmtD f.w1)) r.1) (w1Src3 f.w1) 8 scales).v) (v := (putGroup th0 rd (fmtBits (w1FmtD f.w1)) r.1).v) (r := rd) h.width_le hk
      (fun q hlo hhi => putGroup_away _ _ _ _ (by omega))
    rw [hv, haway, hr', vEl_mapped (n := cvtCount f) h.width_le h.wide_pos rfl _ _ hk, show fn k (vEl th0.v (fmtBits (w1FmtD f.w1)) rd k).toNat = _ from cvtBlock_eq h _ _ hk]
  · obtain ⟨rfl, rfl, rfl⟩ : w1Src3 f.w1 = q ∧ (cvtCount f + 31) / 32 = c ∧ cvtScale th0 f = g := by simpa using hsome
    have hb' : b < scales.length := by rw [hslen]; exact hb
    rw [hv, vEl_putGroup _ _ _ (by norm_num) (mul_lt_regsOf hb'), if_pos hb', cvtScales_getD h _ hb]
  · have hb8 : q < w1Src3 f.w1 ∨ 8 * scales.length ≤ 8192 * (q - w1Src3 f.w1) + b := by
      by_contra hin
      exact hscaled ⟨_, _, _, rfl, by omega, by omega⟩
    rw [hv, putGroup_bit _ _ _ hb hb8, putGroup_bit _ _ _ hb (by rw [hlen]; exact hout)]
  · rw [hr', flags_mapped (n := cvtCount f) h.width_le h.wide_pos rfl]
    exact exists_congr fun k => and_congr_right fun hk => by rw [show fn k (vEl th0.v (fmtBits (w1FmtD f.w1)) rd k).toNat = _ from cvtBlock_eq h _ _ hk]

end

end Sys2Proof.Machine
end

section
/-! PROOFS. `v.mfma`, `v.stat` and `v.stat.merge` (R131, R132, R154), and the long vector forms together. -/

namespace Sys2Proof.Machine

open Sys2Proof.Safety

/-! ## `v.mfma` -/

/-- The operands of a `v.mfma` that is no illegal instruction (R111, R131). -/
structure MfmaLegal (f : LForm) : Prop where
  ok : longOk f.w1 = true
  qp : f.qp.toNat < 12
  flags : w1Flags f.w1 = 0
  src3 : w1Src3 f.w1 = 0
  fmtA : w1FmtA f.w1 ∈ [0, 1, 2, 3, 4, 0xD]
  fmtB : w1FmtB f.w1 ∈ [0, 1, 2, 3, 4, 0xD]
  fmtD : w1FmtD f.w1 ∈ [0, 1, 2, 0xD]
  leA : fmtBits (w1FmtA f.w1) ≤ fmtBits (w1FmtD f.w1)
  leB : fmtBits (w1FmtB f.w1) ≤ fmtBits (w1FmtD f.w1)
  rd : longAligned f.rd (2 ^ f.grp.toNat) (fmtBits (w1FmtD f.w1)) (fmtBits (w1FmtD f.w1)) = true
  rs1 : longAligned f.rs1 (2 ^ f.grp.toNat) (fmtBits (w1FmtA f.w1)) (fmtBits (w1FmtD f.w1)) = true
  rs2 : longAligned f.rs2 (2 ^ f.grp.toNat) (fmtBits (w1FmtB f.w1)) (fmtBits (w1FmtD f.w1)) = true

/-- An element of a `v.mfma` from its three source codes. -/
def mfmaElem (f : LForm) (rnd : Rnd) (a b old : Nat) : Fl Nat :=
  let r := (if w1FmtA f.w1 = 0xD ∨ w1FmtB f.w1 = 0xD then FV.fma else mfmaVal) (edec (w1FmtA f.w1) a) (edec (w1FmtB f.w1) b) (edec (w1FmtD f.w1) old)
  let e := fenc (ffmtD (w1FmtD f.w1)) rnd false r.1
  (posZero (w1FmtD f.w1) e.1, r.2 ||| e.2)

theorem fmtBits_accumulator {c : Nat} (h : c ∈ [0, 1, 2, 0xD]) : elWidth (fmtBits c) := by
  unfold elWidth
  fin_cases h <;> decide

section
variable {f : LForm} (h : MfmaLegal f)
include h

theorem vMfma_eq (th : Thread) (d : DCtx) :
    let n := 2 ^ f.grp.toNat * 8192 / fmtBits (w1FmtD f.w1)
    let r := mapActive (qget th f.qp.toNat) (fmtBits (w1FmtD f.w1)) (2 ^ f.grp.toNat) (groupEls th f.rd.toNat (fmtBits (w1FmtD f.w1)) n) (fun k old =>
      mfmaElem f (rndAt (rmOf th (w1Rm f.w1)) (srCtx th d) (wd k)) ((groupEls th f.rs1.toNat (fmtBits (w1FmtA f.w1)) n).getD k 0)
        ((groupEls th f.rs2.toNat (fmtBits (w1FmtB f.w1)) n).getD k 0) old)
    vMfma f th d = .ok (putGroup th f.rd.toNat (fmtBits (w1FmtD f.w1)) r.1) r.2 none := by
  have hwide : (decide (w1FmtA f.w1 = 0xD) || decide (w1FmtB f.w1 = 0xD)) = decide (w1FmtA f.w1 = 0xD ∨ w1FmtB f.w1 = 0xD) := (Bool.decide_or _ _).symm
  unfold vMfma
  dsimp only
  rw [hwide, show grpSize f.grp = 2 ^ f.grp.toNat from rfl]
  refine (if_neg ?_).trans ?_
  · simp only [h.ok, h.flags, h.src3, h.rd, h.rs1, h.rs2, List.contains_iff_mem.2 h.fmtA, List.contains_iff_mem.2 h.fmtB, List.contains_iff_mem.2 h.fmtD]
    simp [Nat.not_le.2 h.qp, Nat.not_lt.2 h.leA, Nat.not_lt.2 h.leB]
  · simp only [decide_eq_true_iff, mfmaElem]

theorem vMfma_gives {s : State} {t : Tid} (hr : decReady s t []) :
    vecGives (.vMfma t f) s t ((thread s t).pc + 12) (fmtBits (w1FmtD f.w1)) (2 ^ f.grp.toNat) f.rd.toNat f.qp.toNat (fun k old =>
      let e := mfmaElem f (longRnd s t f.w1 k) (vEl (thread s t).v (fmtBits (w1FmtA f.w1)) f.rs1.toNat k).toNat
        (vEl (thread s t).v (fmtBits (w1FmtB f.w1)) f.rs2.toNat k).toNat old.toNat
      (BitVec.ofNat _ e.1, e.2)) := by
  have hwd := fmtBits_accumulator h.fmtD
  refine mapped_gives (i := .vMfma t f) (df := { t := t, long := true }) {} hr (by simp [DecForm.regs]) rfl hwd
    (fn := fun k old => mfmaElem f (longRnd s t f.w1 k) ((groupEls (thread s t) f.rs1.toNat (fmtBits (w1FmtA f.w1)) (2 ^ f.grp.toNat * 8192 / fmtBits (w1FmtD f.w1))).getD k 0)
      ((groupEls (thread s t) f.rs2.toNat (fmtBits (w1FmtB f.w1)) (2 ^ f.grp.toNat * 8192 / fmtBits (w1FmtD f.w1))).getD k 0) old)
    (fun th d hat => ?_) (fun k hk old => ?_)
  · simp only [← longRnd_atIssue hat, ← groupEls_congr hat.v]
    exact congrArg (fun o => some (t, o)) (vMfma_eq h th d)
  · rw [groupEls_getD _ _ (h.leA.trans hwd.le) hk, groupEls_getD _ _ (h.leB.trans hwd.le) hk]

end

/-! ## Triples of statistics (R132) -/

/-- The triple at a register, and a triple's part as it is written (R154). -/
def tripleAt (v : Table (BitVec 8192)) (c r : Nat) : Triple :=
  { n := edec c (vEl v (fmtBits c) r 0).toNat, m := edec c (vEl v (fmtBits c) r 1).toNat, q := edec c (vEl v (fmtBits c) r 2).toNat, fl := 0 }
def tripleCode (c : Nat) (x : FV) : Fl Nat :=
  let e := fenc (ffmtD c) rne false x
  (posZero c e.1, e.2)

/-- The codes of a triple's parts, and all its flags. -/
def tripleCodes (c : Nat) (r : Triple) : List Nat := [(tripleCode c r.n).1, (tripleCode c r.m).1, (tripleCode c r.q).1]
def tripleFlags (c : Nat) (r : Triple) : Nat := r.fl ||| (tripleCode c r.n).2 ||| (tripleCode c r.m).2 ||| (tripleCode c r.q).2

theorem readTriple_eq (th : Thread) (r : Nat) {c : Nat} (hw : fmtBits c ≤ 64) : readTriple th r c = tripleAt th.v c r := by
  rw [readTriple, tripleAt]
  simp only [groupEls_getD th r hw (by norm_num : 0 < 3), groupEls_getD th r hw (by norm_num : 1 < 3), groupEls_getD th r hw (by norm_num : 2 < 3)]

theorem writeTriple_eq (th : Thread) (r c : Nat) (x : Triple) : writeTriple th r c x = (putGroup th r (fmtBits c) (tripleCodes c x), tripleFlags c x) := rfl

theorem fmtBits_triple {c : Nat} (h : c = 0 ∨ c = 0xD) : fmtBits c ≤ 64 := by rcases h with rfl | rfl <;> decide

/-- An instruction that writes a triple. -/
theorem triple_gives {s : State} {i : Instr} {t : Tid} (hi : RunsPure i t { t := t, long := true }) (hr : decReady s t []) {c : Nat} (hw : fmtBits c ≤ 64) (rd : Nat) (r : Triple)
    (hp : ∀ th d, th.v = (thread s t).v → th.q = (thread s t).q → vPure i th d = some (t, .ok (putGroup th rd (fmtBits c) (tripleCodes c r)) (tripleFlags c r) none)) :
    elGives i s t (fmtBits c) rd 3 (fun k => BitVec.ofNat _ (tripleCode c (if k = 0 then r.n else if k = 1 then r.m else r.q)).1) 12 (tripleFlags c r) := by
  refine els_give s t i { t := t, long := true } hi.form rfl [] hr (by simp [DecForm.regs]) rfl hi.run (hi.issues s) _ rd hw (tripleCodes c r) (tripleFlags c r)
    (fun th d hv hq _ _ _ _ => hp th d hv hq) _ (fun k hk => ?_)
  have hk : k < 3 := hk
  interval_cases k <;> rfl

/-! ## `v.stat.merge` -/

theorem vStatMerge_eq {f : LForm} (hok : longOk f.w1 = true) (hqp : f.qp = 0) (hgrp : f.grp = 0) (hrm : w1Rm f.w1 = 0) (hflags : w1Flags f.w1 = 0) (hsrc3 : w1Src3 f.w1 = 0)
    (hfd : w1FmtD f.w1 = 0 ∨ w1FmtD f.w1 = 0xD) (hfa : w1FmtA f.w1 = w1FmtD f.w1) (hfb : w1FmtB f.w1 = w1FmtD f.w1) (th : Thread) :
    let r := statMerge (ffmtD (w1FmtD f.w1)) (tripleAt th.v (w1FmtD f.w1) f.rs1.toNat) (tripleAt th.v (w1FmtD f.w1) f.rs2.toNat)
    vStatMerge f th = .ok (putGroup th f.rd.toNat (fmtBits (w1FmtD f.w1)) (tripleCodes (w1FmtD f.w1) r)) (tripleFlags (w1FmtD f.w1) r) none := by
  unfold vStatMerge
  dsimp only
  rw [if_neg (by simp [hok, hqp, hgrp, hrm, hflags, hsrc3, hfa, hfb, hfd]), readTriple_eq _ _ (fmtBits_triple hfd), readTriple_eq _ _ (fmtBits_triple hfd)]
  rfl

/-! ## `v.stat` -/

/-- The operands of a `v.stat` that is no illegal instruction (R111, R132). -/
structure StatLegal (f : LForm) : Prop where
  ok : longOk f.w1 = true
  qp : f.qp.toNat < 12
  rs2 : f.rs2 = 0
  fmtB : w1FmtB f.w1 = 0
  rm : w1Rm f.w1 = 0
  flags : w1Flags f.w1 % 4 = 0
  src3 : w1Src3 f.w1 = 0
  fmtA : w1FmtA f.w1 ∈ [0, 1, 2, 0xD]
  fmtD : w1FmtD f.w1 = 0 ∨ w1FmtD f.w1 = 0xD
  rs1 : longAligned f.rs1 (2 ^ f.grp.toNat) (fmtBits (w1FmtA f.w1)) (cvtWide f) = true

/-- The statistics of the active elements of a `v.stat`. -/
def statPart (f : LForm) (th : Thread) : Option Triple :=
  reduce (if w1FmtA f.w1 = 0xD then 32 else 64)
    (activeVals th f.qp.toNat f.rs1.toNat (fmtBits (w1FmtA f.w1)) (cvtWide f) (2 ^ f.grp.toNat) (cvtCount f) (edec (w1FmtA f.w1)))
    (welford (ffmtD (w1FmtD f.w1)) zeroTriple) (welford (ffmtD (w1FmtD f.w1))) (statMerge (ffmtD (w1FmtD f.w1)))

theorem statPart_congr {a b : Thread} (hv : a.v = b.v) (hq : a.q = b.q) (f : LForm) : statPart f a = statPart f b := by
  unfold statPart; rw [activeVals_congr hv hq]

/-- The triple that a `v.stat` writes for the statistics of its active elements. -/
def statResult (f : LForm) (v : Table (BitVec 8192)) (p : Triple) : Triple :=
  if 4 ≤ w1Flags f.w1 then p else statMerge (ffmtD (w1FmtD f.w1)) (tripleAt v (w1FmtD f.w1) f.rd.toNat) p

theorem testBit_fresh {n : Nat} (h : n < 8) : n.testBit 2 = decide (4 ≤ n) := by
  interval_cases n <;> decide

section
variable {f : LForm} (h : StatLegal f)
include h

theorem StatLegal.not_illegal : (!longOk f.w1 || 12 ≤ f.qp.toNat || f.rs2 ≠ 0 || decide (w1FmtB f.w1 ≠ 0) || decide (w1Rm f.w1 ≠ 0) || decide (w1Flags f.w1 % 4 ≠ 0)
    || decide (w1Src3 f.w1 ≠ 0) || !([0, 1, 2, 0xD].contains (w1FmtA f.w1)) || !([0, 0xD].contains (w1FmtD f.w1))
    || !longAligned f.rs1 (2 ^ f.grp.toNat) (fmtBits (w1FmtA f.w1)) (cvtWide f)) = false := by
  have hcontains : [0, 0xD].contains (w1FmtD f.w1) = true := by rw [List.contains_iff_mem]; simpa using h.fmtD
  rw [List.contains_iff_mem.2 h.fmtA, hcontains]
  simp [h.ok, h.qp, h.rs2, h.fmtB, h.rm, h.flags, h.src3, h.rs1]

theorem StatLegal.width_le : fmtBits (w1FmtA f.w1) ≤ 64 := (fmtBits_range (longOk_formats h.ok).2.1).2

theorem vStat_none {th : Thread} (hpart : statPart f th = none) : vStat f th = .ok th 0 none := by
  have hlegal := h.not_illegal
  rw [statPart, ← zip_activeVals (n := cvtCount f) th h.width_le (cvtWide_pos h.ok) rfl] at hpart
  unfold vStat
  dsimp only
  refine (if_neg (by rw [Bool.not_eq_true]; exact hlegal)).trans ?_
  split
  · rfl
  · next hsome => exact nomatch hpart.symm.trans hsome

theorem vStat_some {th : Thread} {p : Triple} (hpart : statPart f th = some p) :
    vStat f th = .ok (putGroup th f.rd.toNat (fmtBits (w1FmtD f.w1)) (tripleCodes (w1FmtD f.w1) (statResult f th.v p))) (tripleFlags (w1FmtD f.w1) (statResult f th.v p)) none := by
  have hlegal := h.not_illegal
  rw [statPart, ← zip_activeVals (n := cvtCount f) th h.width_le (cvtWide_pos h.ok) rfl] at hpart
  have hresult : statResult f th.v p = if (w1Flags f.w1).testBit 2 then p else statMerge (ffmtD (w1FmtD f.w1)) (readTriple th f.rd.toNat (w1FmtD f.w1)) p := by
    rw [readTriple_eq _ _ (fmtBits_triple h.fmtD), testBit_fresh (longOk_formats h.ok).2.2.2, statResult]
    simp only [decide_eq_true_iff]
  rw [hresult]
  unfold vStat
  dsimp only
  refine (if_neg (by rw [Bool.not_eq_true]; exact hlegal)).trans ?_
  split
  · next hnone => exact nomatch hpart.symm.trans hnone
  · next hsome =>
    cases hpart.symm.trans hsome
    rfl

theorem vStat_gives_nothing {s : State} {t : Tid} (hr : decReady s t []) (hpart : statPart f (thread s t) = none) :
    elGives (.vStat t f) s t (fmtBits (w1FmtD f.w1)) f.rd.toNat 0 (fun _ => 0) 12 0 := by
  have hi : RunsPure (.vStat t f) t { t := t, long := true } := {}
  refine none_give s t _ _ hi.form rfl [] hr (by simp [DecForm.regs]) rfl hi.run (hi.issues s) (fun th d hv hq _ _ _ => ?_) _ f.rd.toNat 0 _ (fun k hk => by omega)
  exact congrArg (fun o => some (t, o)) (vStat_none h ((statPart_congr hv hq f).trans hpart))

theorem vStat_gives {s : State} {t : Tid} (hr : decReady s t []) {p : Triple} (hpart : statPart f (thread s t) = some p) :
    let r := statResult f (thread s t).v p
    elGives (.vStat t f) s t (fmtBits (w1FmtD f.w1)) f.rd.toNat 3 (fun k => BitVec.ofNat _ (tripleCode (w1FmtD f.w1) (if k = 0 then r.n else if k = 1 then r.m else r.q)).1) 12
      (tripleFlags (w1FmtD f.w1) r) := by
  refine triple_gives (i := .vStat t f) {} hr (fmtBits_triple h.fmtD) f.rd.toNat (statResult f (thread s t).v p) fun th d hv hq => ?_
  rw [← hv]
  exact congrArg (fun o => some (t, o)) (vStat_some h ((statPart_congr hv hq f).trans hpart))

end

/-! ## The statement -/

/-- Settles O22. `v.mfma` maps its elements as the short vector operations do, `v.cvt` writes its scale bytes beside them, and the statistics are R128's order of combination over triples. -/
theorem vectorLongForms : Obligations.VectorLongForms := by
  intro s t f hr hok hqp w1
  refine ⟨?cvt, ?mfma, ?stat⟩
  case cvt =>
    intro ww n act hrs2 hfb hflags hrd hrs1 hunscaled hscaled x
    have h : CvtLegal f := ⟨hok, hqp, hrs2, hfb, hflags, hrd, hrs1, hunscaled, hscaled⟩
    exact ⟨vCvt_gives_plain hr h, vCvt_gives_scaled hr h⟩
  case mfma =>
    intro w hflags hsrc3 hfa hfb hfd hleA hleB hrd hrs1 hrs2
    exact vMfma_gives ⟨hok, hqp, hflags, hsrc3, hfa, hfb, hfd, hleA, hleB, hrd, hrs1, hrs2⟩ hr
  case stat =>
    intro w triple code putsTriple hfd hrm hsrc3
    refine ⟨fun hflags hqp0 hgrp hfa hfb => ?_, ?_⟩
    · refine triple_gives (i := .vStatMerge t f) {} hr (fmtBits_triple hfd) f.rd.toNat (statMerge (ffmtD (w1FmtD f.w1)) (triple f.rs1.toNat) (triple f.rs2.toNat)) fun th d hv _ => ?_
      have hmerge := vStatMerge_eq hok hqp0 hgrp hrm hflags hsrc3 hfd hfa hfb th
      rw [hv] at hmerge
      exact congrArg (fun o => some (t, o)) hmerge
    · intro hrs2 hfb hflags hfa ww hrs1 xs
      have h : StatLegal f := ⟨hok, hqp, hrs2, hfb, hrm, hflags, hsrc3, hfa, hfd, hrs1⟩
      split
      · next hpart => exact vStat_gives_nothing h hr hpart
      · next p hpart => exact vStat_gives h hr hpart

end Sys2Proof.Machine
end

section
/-! PROOFS. The vector memory instructions that pass their checks (R121–R126). -/

namespace Sys2Proof.Machine

open Sys2Proof.Safety

/-! ## Loaded elements put into their groups -/

/-- The groups of g registers from vd on, the first nf of which take loaded elements. -/
def putFields (vd g w : Nat) (got : Table Nat) (nf : Nat) (th : Thread) : Thread :=
  (List.range nf).foldl (fun th j => putGroup th (vd + j * g) w ((List.range (g * 8192 / w)).map (fun i =>
    (tget? got (j * 65536 + i)).getD ((groupEls th (vd + j * g) w (g * 8192 / w)).getD i 0)))) th

theorem vMemPut_eq (f : VForm) (k : VAddr) (w : Nat) (got : Table Nat) (th : Thread) :
    vMemPut f k w got th = putFields f.vd.toNat (2 ^ f.grp.toNat) w got (if k = .seg then f.vs2.toNat else 1) th := rfl

theorem putFields_succ (vd g w : Nat) (got : Table Nat) (nf : Nat) (th : Thread) :
    putFields vd g w got (nf + 1) th = putGroup (putFields vd g w got nf th) (vd + nf * g) w ((List.range (g * 8192 / w)).map (fun i =>
      (tget? got (nf * 65536 + i)).getD ((groupEls (putFields vd g w got nf th) (vd + nf * g) w (g * 8192 / w)).getD i 0))) := by
  rw [putFields, List.range_succ, List.foldl_append]
  rfl

theorem putFields_rest (vd g w : Nat) (got : Table Nat) (nf : Nat) (th : Thread) : putFields vd g w got nf th = { th with v := (putFields vd g w got nf th).v } := by
  obtain ⟨v', hv⟩ : ∃ v', putFields vd g w got nf th = { th with v := v' } := by
    induction nf with
    | zero => exact ⟨th.v, rfl⟩
    | succ nf ih =>
      obtain ⟨v', hv⟩ := ih
      rw [putFields_succ, putGroup_rest, hv]
      exact ⟨_, rfl⟩
  rw [hv]

section
variable {w : Nat} (hw : elWidth w) (vd g : Nat) (got : Table Nat)
include hw

theorem putFields_away (nf : Nat) (th : Thread) {q : Nat} (h : q < vd ∨ vd + nf * g ≤ q) : tget 0 (putFields vd g w got nf th).v q = tget 0 th.v q := by
  induction nf with
  | zero => rfl
  | succ nf ih =>
    rw [Nat.succ_mul] at h
    rw [putFields_succ, putGroup_away _ _ _ _ (by rw [List.length_map, List.length_range, regsOf_full hw]; omega), ih (by omega)]

/-- The group of each field holds what was loaded for it, and its old elements where nothing was. -/
theorem vEl_putFields (nf : Nat) (th : Thread) {j e : Nat} (hj : j < nf) (he : e < g * 8192 / w) :
    vEl (putFields vd g w got nf th).v w (vd + j * g) e
      = ((tget? got (j * 65536 + e)).map (BitVec.ofNat w)).getD (vEl th.v w (vd + j * g) e) := by
  induction nf with
  | zero => exact absurd hj (Nat.not_lt_zero j)
  | succ nf ih =>
    rw [putFields_succ]
    rcases Nat.lt_succ_iff_lt_or_eq.1 hj with hlt | rfl
    · have hbelow : j * g + g ≤ nf * g := by rw [← Nat.succ_mul]; exact Nat.mul_le_mul_right g hlt
      rw [vEl_away hw.le he fun q hlo hhi => putGroup_away _ _ _ _ (by rw [regsOf_full hw] at hhi; omega), ih hlt]
    · have hold : vEl (putFields vd g w got j th).v w (vd + j * g) e = vEl th.v w (vd + j * g) e :=
        vEl_away hw.le he fun q hlo _ => putFields_away hw vd g got j th (.inr hlo)
      rw [vEl_putGroup _ _ _ hw.le (by rw [List.length_map, List.length_range]; exact mul_lt_regsOf he), if_pos (by simpa using he),
        List.getD_eq_getElem _ _ (by simpa using he), List.getElem_map, List.getElem_range, groupEls_getD _ _ hw.le he, hold]
      cases tget? got (j * 65536 + e) <;> simp

end

/-! ## The vector memory unit -/

/-- The operands of a vector memory instruction (R122). -/
def memForm (t : Tid) (f : VForm) (k : VAddr) : DecForm := { t := t, a := f.vs1, b := if k = .stride then f.vs2 else 0 }

theorem memForm_regs (t : Tid) (f : VForm) (k : VAddr) : ∀ r ∈ (memForm t f k).regs, r ∈ (0 : Reg) :: (if k = .stride then [f.vs1, f.vs2] else [f.vs1]) := by
  by_cases hk : k = .stride
  · simp [memForm, DecForm.regs, hk]
  · simp [memForm, DecForm.regs, hk]

/-- Instruction i of thread t is the vector load or store of form f. -/
structure RunsMem (i : Instr) (t : Tid) (f : VForm) (st : Bool) (k : VAddr) : Prop where
  form : decForm i = some (memForm t f k) := by rfl
  inUnit : ∀ (s : State) (e : DecEntry), dRun s t { e with instr := i } = if isMantle (cellOf t) then dIllegal s { e with instr := i } else runVMem s t { e with instr := i } f st k := by
    intros; rfl
  issues : ∀ s, exec i s = .next ((runDecoupled true i s).getD s) := by intros; rfl
  pipe : pipeOf i = 1 := by rfl

theorem RunsMem.run {i : Instr} {t : Tid} {f : VForm} {st : Bool} {k : VAddr} (h : RunsMem i t f st k) (s : State) (e : DecEntry) (he : e.instr = i)
    (hm : isMantle (cellOf t) = false) : dRun s t e = runVMem s t e f st k := by
  subst he
  exact (h.inUnit s e).trans (by rw [hm]; rfl)

/-- The run of a vector memory instruction that thread t issues now, from the element that VRESUME names. -/
def memRun (s : State) (i : Instr) (t : Tid) (f : VForm) (st : Bool) (k : VAddr) (w : Nat) : VMemRun :=
  let s1 := begun s (memForm t f k) i
  let e := entryOf s (memForm t f k) i (resumeAt (srAt s t 0x005) 14)
  vMemRun (vecAcc t (entCtx s1 t e)) f st k w (entD s1 t e) (thread s1 t) (resumeAt (srAt s t 0x005) 14) s1

theorem runVMem_completes {s : State} {t : Tid} {e : DecEntry} {f : VForm} {st : Bool} {k : VAddr} {w start : Nat} (hw : etBits f.et = some w)
    (hlegal : vMemIllegal f st k = false) (hstart : startAt s t e = start) {r : VMemRun}
    (hrun : vMemRun (vecAcc t (entCtx s t e)) f st k w (entD s t e) (thread s t) start s = r) (hstop : r.stop = none) (hhold : r.hold = false) :
    runVMem s t e f st k = .done (srPut (if st then r.s else modThread r.s t (vMemPut f k w r.got)) t 0x005 0) 0 none := by
  subst hrun hstart
  unfold runVMem
  rw [if_neg (by rw [hlegal]; exact Bool.false_ne_true), hw]
  dsimp only [Option.getD_some]
  rw [show (entD s t e).x = entCtx s t e from rfl, hstop]
  dsimp only
  rw [if_neg (by rw [hhold]; exact Bool.false_ne_true)]

theorem threadOnly.beside {t : Tid} {a b c : State} (h : threadOnly t a b) (k : threadOnly t a c) : threadOnly t b c :=
  ⟨k.1.trans (congrArg (fun x : State => { x with threads := c.threads }) h.1.symm), fun u hu => (k.2 u hu).trans (h.2 u hu).symm⟩

/-- An instruction whose run leaves `rs`, zeroes VRESUME and puts v' into its thread's vector registers. -/
theorem unit_gives {s : State} {i : Instr} {df : DecForm} (hform : decForm i = some df) (hdst : df.dst = none) (hlong : df.long = false)
    (hissues : exec i s = .next ((runDecoupled true i s).getD s)) (hs : startsNow s df i) (hissue : mayIssue s df.t false df.regs = true)
    {rs s' : State} {v' : Table (BitVec 8192)} (hrun : dRun (begun s df i) df.t (startEntry s df i) = .done (srPut s' df.t 0x005 0) 0 none)
    (hthread : thread rs df.t = thread (begun s df i) df.t) (hs' : threadOnly df.t rs s') (hv' : thread s' df.t = { thread rs df.t with v := v' }) {also : State → Prop}
    (halso : ∀ m, (thread m df.t).regs = (thread s df.t).regs → (thread m df.t).pc = (thread s df.t).pc + 4 → (thread m df.t).v = v' → also m) :
    unitGives i s df.t (srPut rs df.t 0x005 0) 0 also := by
  have hbegun := begun_thread s df i hs.vq hs.tq
  have hbusy : awaited s df = (thread s df.t).busy := by unfold awaited; rw [hdst]
  rw [hlong, if_neg Bool.false_ne_true, hbusy] at hbegun
  have hs2 : thread (srPut s' df.t 0x005 0) df.t = { thread (srPut rs df.t 0x005 0) df.t with v := v' } := by
    rw [srPut, srPut, thread_modThread_same, thread_modThread_same, hv']
  have hu : thread (srPut rs df.t 0x005 0) df.t = { thread (begun s df i) df.t with sr := (thread (srPut rs df.t 0x005 0) df.t).sr } := by
    rw [← hthread]
    exact thread_srPut rs df.t 0x005 0
  obtain ⟨n, hnext, hleft, hn⟩ := runDecoupled_done s i df hform hs hissue _ 0 none hrun (by rw [hs2]; dsimp only; rw [hu]) (by rw [hs2]; dsimp only; rw [hu])
    (by rw [hs2]; dsimp only; rw [hu])
  have honly : threadOnly df.t (srPut rs df.t 0x005 0) n := (srPut_only rs df.t 0x005 0).beside ((hs'.trans (srPut_only s' df.t 0x005 0)).trans hleft)
  have hkeeps : (thread (srPut rs df.t 0x005 0) df.t).busy = (thread s df.t).busy ∧ (thread (srPut rs df.t 0x005 0) df.t).regs = (thread s df.t).regs
      ∧ (thread (srPut rs df.t 0x005 0) df.t).pc = (thread s df.t).pc + 4 := by
    rw [hu, hbegun]
    exact ⟨rfl, rfl, rfl⟩
  obtain ⟨hbusy, hregs, hpc⟩ := hkeeps
  have hflags : flagsGained (srPut rs df.t 0x005 0) n df.t (fun j => (0 : Nat).testBit j = true) := by
    have hafter : ∀ m, srAt n df.t m = srAt (setFlags (srPut s' df.t 0x005 0) df.t 0) df.t m := srAt_congr (by rw [hn]; rfl)
    have hbefore : ∀ m, srAt (srPut s' df.t 0x005 0) df.t m = srAt (srPut rs df.t 0x005 0) df.t m := srAt_congr (by rw [hs2])
    obtain ⟨hkept, hgained⟩ := setFlags_gained (srPut s' df.t 0x005 0) df.t 0
    exact ⟨fun m hm => by rw [hafter, hkept m hm, hbefore], fun j hj => by rw [hafter, hgained j hj, hbefore]⟩
  rw [hs2] at hn
  refine ⟨n, by rw [hissues, hnext]; rfl, honly.1, honly.2, ?_, hflags, halso n (by rw [hn]; exact hregs) (by rw [hn]; exact hpc) (by rw [hn]; rfl)⟩
  rw [hn, ← hbusy]
  rfl

section
variable {s : State} {i : Instr} {t : Tid} {f : VForm} {st : Bool} {k : VAddr} {w : Nat} (hi : RunsMem i t f st k) (hw : etBits f.et = some w)
  (hr : decReady s t (if k = .stride then [f.vs1, f.vs2] else [f.vs1])) (hlegal : vMemIllegal f st k = false)
  (hstop : (memRun s i t f st k w).stop = none) (hhold : (memRun s i t f st k w).hold = false)
  (hthread : thread (memRun s i t f st k w).s t = thread (begun s (memForm t f k) i) t)
include hi hw hr hlegal hstop hhold hthread

/-- A vector memory instruction that completes leaves what its run left, VRESUME zero, and the thread's vector registers as v'. -/
theorem mem_gives {s' : State} {v' : Table (BitVec 8192)}
    (heq : (if st then (memRun s i t f st k w).s else modThread (memRun s i t f st k w).s t (vMemPut f k w (memRun s i t f st k w).got)) = s')
    (hs' : threadOnly t (memRun s i t f st k w).s s') (hv' : thread s' t = { thread (memRun s i t f st k w).s t with v := v' }) {also : State → Prop}
    (halso : ∀ m, (thread m t).regs = (thread s t).regs → (thread m t).pc = (thread s t).pc + 4 → (thread m t).v = v' → also m) :
    unitGives i s t (srPut (memRun s i t f st k w).s t 0x005 0) 0 also := by
  have hs : startsNow s (memForm t f k) i := decReady_starts hr rfl (fun h => by rw [hi.pipe] at h; omega)
  have hissue : mayIssue s t false (memForm t f k).regs = true := decReady_issue hr (memForm_regs t f k)
  refine unit_gives hi.form rfl rfl (hi.issues s) hs hissue ?_ hthread hs' hv' halso
  have hstart : startEntry s (memForm t f k) i = entryOf s (memForm t f k) i (resumeAt (srAt s t 0x005) 14) := by
    rw [startEntry, startOf, if_neg (by rw [hi.pipe]; norm_num)]
    rfl
  rw [hstart, ← heq]
  exact (hi.run _ _ rfl hs.cellId).trans (runVMem_completes hw hlegal rfl rfl hstop hhold)

end

theorem begun_memForm_v {s : State} {t : Tid} {f : VForm} {k : VAddr} {rs : List Reg} (hr : decReady s t rs) (i : Instr) :
    (thread (begun s (memForm t f k) i) t).v = (thread s t).v := by
  have hbegun : thread (begun s (memForm t f k) i) t = _ := begun_thread s (memForm t f k) i hr.2.2.1 hr.2.2.2.1
  rw [hbegun]
  rfl

section
variable {s : State} {i : Instr} {t : Tid} {f : VForm} {k : VAddr} {w : Nat} (hw : etBits f.et = some w)
  (hr : decReady s t (if k = .stride then [f.vs1, f.vs2] else [f.vs1]))
include hw hr

theorem store_gives (hi : RunsMem i t f true k) (hlegal : vMemIllegal f true k = false) (hstop : (memRun s i t f true k w).stop = none)
    (hhold : (memRun s i t f true k w).hold = false) (hthread : thread (memRun s i t f true k w).s t = thread (begun s (memForm t f k) i) t) :
    unitGives i s t (srPut (memRun s i t f true k w).s t 0x005 0) 0 (fun m =>
      (thread m t).regs = (thread s t).regs ∧ (thread m t).pc = (thread s t).pc + 4 ∧ (thread m t).v = (thread s t).v) := by
  refine mem_gives hi hw hr hlegal hstop hhold hthread rfl (.refl _ _) (v' := (thread s t).v) ?_ fun m hregs hpc hv => ⟨hregs, hpc, hv⟩
  rw [← begun_memForm_v hr i, ← hthread]
  rfl

theorem load_gives (hi : RunsMem i t f false k) (hlegal : vMemIllegal f false k = false) (hstop : (memRun s i t f false k w).stop = none)
    (hhold : (memRun s i t f false k w).hold = false) (hthread : thread (memRun s i t f false k w).s t = thread (begun s (memForm t f k) i) t) :
    let g := 2 ^ f.grp.toNat
    let fields := if k = .seg then f.vs2.toNat else 1
    unitGives i s t (srPut (memRun s i t f false k w).s t 0x005 0) 0 (fun m =>
      (thread m t).regs = (thread s t).regs ∧ (thread m t).pc = (thread s t).pc + 4
      ∧ (∀ j, j < fields → ∀ e, e < g * 8192 / w → vEl (thread m t).v w (f.vd.toNat + j * g) e
          = ((tget? (memRun s i t f false k w).got (j * 65536 + e)).map (BitVec.ofNat w)).getD (vEl (thread s t).v w (f.vd.toNat + j * g) e))
      ∧ vRest s m t f.vd.toNat (fields * g)) := by
  intro g fields
  have hel := etBits_width hw
  set r := memRun s i t f false k w with hrun
  have hput : thread (modThread r.s t (vMemPut f k w r.got)) t = { thread r.s t with v := (putFields f.vd.toNat g w r.got fields (thread r.s t)).v } := by
    rw [thread_modThread_same, vMemPut_eq]
    exact putFields_rest _ _ _ _ _ _
  have hold : (thread r.s t).v = (thread s t).v := by rw [hthread, begun_memForm_v hr i]
  refine mem_gives hi hw hr hlegal hstop hhold hthread rfl (modThread_only _ _ _) hput fun m hregs hpc hv => ⟨hregs, hpc, fun j hj e he => ?_, fun q hq => ?_⟩
  · rw [hv, vEl_putFields hel _ _ _ _ _ hj he, hold]
  · rw [hv, putFields_away hel _ _ _ _ _ hq, hold]

end

/-! ## The statement -/

/-- Settles O23. A run that is not stopped and holds no write is the unit's result: a store adds nothing to it, a load puts what was read into its groups. -/
theorem vectorLoadsAndStores : Obligations.VectorLoadsAndStores := by
  intro s t f w hw g n mem
  have load {i : Instr} {k : VAddr} (hi : RunsMem i t f false k) : mem i false k := by
    intro hr hlegal hstop hhold hthread
    obtain ⟨m, hexec, honly, hothers, hth, hflags, hregs, hpc, hels, hrest⟩ := load_gives hw hr hi hlegal hstop hhold hthread
    refine ⟨m, hexec, honly, hothers, hth, hflags, hregs, hpc, nofun, fun _ => ⟨fun j hj e he => ?_, hrest⟩⟩
    refine (hels j hj e he).trans ?_
    split
    · next x hx => rw [show tget? (memRun s i t f false k w).got (j * 65536 + e) = some x from hx]; rfl
    · next hx => rw [show tget? (memRun s i t f false k w).got (j * 65536 + e) = none from hx]; rfl
  have store {i : Instr} {k : VAddr} (hi : RunsMem i t f true k) : mem i true k := by
    intro hr hlegal hstop hhold hthread
    obtain ⟨m, hexec, honly, hothers, hth, hflags, hregs, hpc, hv⟩ := store_gives hw hr hi hlegal hstop hhold hthread
    exact ⟨m, hexec, honly, hothers, hth, hflags, hregs, hpc, fun _ => hv, nofun⟩
  exact ⟨load (i := .vLd t f) {}, load (i := .vLdS t f) {}, load (i := .vLdX t f) {}, load (i := .vLdSeg t f) {},
    store (i := .vSt t f) {}, store (i := .vStS t f) {}, store (i := .vStX t f) {}, store (i := .vStSeg t f) {}⟩

end Sys2Proof.Machine
end

section
/-! PROOFS. Tile clear, extent and move (R162, R165, R168, R173, R181), and the tile loads and stores that pass their checks (R171–R178). -/

namespace Sys2Proof.Machine

open Sys2Proof.Safety

/-! ## Checks (R165, R170) -/

theorem notHeld_none {mine : BitVec 16} {ts : List Nat} (h : ∀ k ∈ ts, bit mine k = true) : notHeld mine ts = none := by
  simp only [notHeld, List.find?_eq_none, Bool.and_eq_true, List.contains_iff_mem, not_and]
  intro k _ hk
  simp [h k hk]

theorem bit4_of_lt {r : Reg} (h : r.toNat < 16) : bit r 4 = false := by
  rw [bit, BitVec.getLsbD, Nat.testBit_lt_two_pow h]

theorem firstReason_none {op r : Nat} {b : Bool} {l : List (Nat × Bool)} (h : firstReason op l = none) (hm : (r, b) ∈ l) : b = false := by
  rw [firstReason, Option.map_eq_none_iff, List.find?_eq_none] at h
  simpa using h (r, b) hm

/-- A destination row that the shape check admits fits a tile's row, and its format is one of a tile's (R169, R170). -/
theorem tShape_destination {k : TKind} {w : Word} (hk : k ≠ .st) (h : tShape k w = none) : rowBytes (w1Cols w) (w1FmtD w) ≤ 256 ∧ w1FmtD w ≤ 0xC := by
  obtain ⟨hdest, -⟩ := (Option.orElse_eq_none _ _).1 h
  have hwidth := firstReason_none hdest (r := 3) (b := decide (k ≠ .st) && decide (256 < rowBytes (w1Cols w) (w1FmtD w))) (by simp)
  have hfmt := firstReason_none hdest (r := 5) (b := !tileFmt (w1FmtD w)) (by simp)
  exact ⟨by simpa [hk] using hwidth, by simpa [tileFmt] using hfmt⟩

/-! ## Rows of elements (R161–R163) -/

theorem packed_bit_lt {w cols k j : Nat} (hk : k < cols) (hj : j < w) : w * k + j < 8 * ((cols * w + 7) / 8) := by
  have hle : w * (k + 1) ≤ w * cols := Nat.mul_le_mul_left w hk
  rw [Nat.mul_succ, Nat.mul_comm w cols] at hle
  omega

/-- A cell whose tile td has taken rows of a width, and its extent (R162, R182, R183). -/
def putTile (x : CellS) (td rows width : Nat) (row : Nat → Nat) (bad : Nat → Bool) : CellS :=
  putExtent (tileWritten ((List.range rows).foldl (fun y r => putTileRow y td r width (row r) (bad r)) x) td) td rows width

theorem putTile_rest (x : CellS) (td rows width : Nat) (row : Nat → Nat) (bad : Nat → Bool) :
    let y := putTile x td rows width row bad
    y = { x with tiles := y.tiles, tpoison := y.tpoison, tparity := y.tparity, tattr := y.tattr, opcache := y.opcache, capo := y.capo, harp := y.harp } := by
  obtain ⟨hrest, -⟩ := putRows_spec td width row bad rows x
  unfold putTile
  rw [hrest]
  rfl

theorem putTile_attr (x : CellS) (td rows width : Nat) (row : Nat → Nat) (bad : Nat → Bool) (u : Nat) :
    tileAttr (putTile x td rows width row bad) u = if u = td then { tileAttr x td with rows := rows, colBytes := width } else tileAttr x u := by
  obtain ⟨hrest, -⟩ := putRows_spec td width row bad rows x
  rw [putTile, tileAttr_putExtent, hrest]
  rfl

/-- A cell whose tile has taken packed elements holds these elements. -/
theorem tileTakes_of_rows {s n : State} {t : Tid} {x : CellS} {td rows cols fd : Nat} {el : Nat → Nat → Nat} {row : Nat → Nat} {bad : Nat → Bool}
    (htiles : x.tiles = (cell s (cellOf t)).tiles) (hpoison : x.tpoison = (cell s (cellOf t)).tpoison) (hattr : x.tattr = (cell s (cellOf t)).tattr)
    (hfd : fd ≤ 0xC) (hwidth : rowBytes cols fd ≤ 256) (hrow : ∀ r, r < rows → row r = ofElems (fmtBits fd) ((List.range cols).map (el r)))
    (hn : cell n (cellOf t) = putTile x td rows (rowBytes cols fd) row bad) : tileTakes s n t td rows cols fd el := by
  obtain ⟨-, hbits, -, haway⟩ := putRows_spec td (rowBytes cols fd) row bad rows x
  have hsame : ∀ u, tileAttr x u = tileAttr (cell s (cellOf t)) u := fun u => by rw [tileAttr, hattr]; rfl
  have hext : tileAttr (cell n (cellOf t)) td = { tileAttr (cell s (cellOf t)) td with rows := rows, colBytes := rowBytes cols fd } := by
    rw [hn, putTile_attr, if_pos rfl, hsame]
  have hw : 0 < fmtBits fd := Nat.lt_of_lt_of_le (by norm_num) (fmtBits_range (c := fd) (by omega)).1
  refine ⟨fun r k hr hk => tileEl_of _ _ _ _ _ _ ?_ ?_ fun j hj => ?_, hext, fun u hu => ?_, fun k hk => ?_⟩
  · rw [hext]; exact hr
  · have hlast := packed_bit_lt (w := fmtBits fd) hk (Nat.sub_lt hw Nat.one_pos)
    rw [hext]
    show _ < (cols * fmtBits fd + 7) / 8
    omega
  · have hbit : fmtBits fd * k + j < 8 * rowBytes cols fd := packed_bit_lt hk hj
    rw [hn]
    refine (hbits r _ hr hbit (by omega)).trans ?_
    rw [hrow r hr, testBit_ofElems _ _ _ _ hj (by simpa using hk), List.getD_eq_getElem _ _ (by simpa using hk), List.getElem_map, List.getElem_range]
  · rw [hn, putTile_attr, if_neg hu, hsame]
  · rw [hn, ← htiles, ← hpoison]
    exact haway k hk

/-! ## A tile instruction in its unit -/

/-- Instruction i of thread t is decoupled with the form df, its unit does what `unit` says of it, and it is none of the harp's. -/
structure RunsTile (i : Instr) (t : Tid) (df : DecForm) (unit : State → DecEntry → DRes) : Prop where
  form : decForm i = some df := by rfl
  owner : df.t = t := by rfl
  long : df.long = true := by rfl
  inUnit : ∀ (s : State) (e : DecEntry), dRun s t { e with instr := i } = if isMantle (cellOf t) then dIllegal s { e with instr := i } else unit s { e with instr := i } := by
    intros; rfl
  issues : ∀ s, exec i s = .next ((runDecoupled true i s).getD s) := by intros; rfl
  notHarp : pipeOf i ≠ 4 := by simp [pipeOf]

theorem RunsTile.run {i : Instr} {t : Tid} {df : DecForm} {unit : State → DecEntry → DRes} (h : RunsTile i t df unit) (s : State) (e : DecEntry) (he : e.instr = i)
    (hm : isMantle (cellOf t) = false) : dRun s t e = unit s e := by
  subst he
  exact (h.inUnit s e).trans (by rw [hm]; rfl)

/-- The form of a tile instruction without scalar operands (R181). -/
def tileForm (t : Tid) (dst : Option Reg := none) : DecForm := { t := t, tile := true, long := true, dst := dst }

section
variable {s : State} {t : Tid} {rs : List Reg} (hr : decReady s t rs) {df : DecForm} (hdf : df.t = t) (i : Instr)
include hr hdf

/-- A beginning changes nothing of a cell that a tile instruction reads. -/
theorem begun_cell : cell (begun s df i) (cellOf t) = { cell s (cellOf t) with
    last := (cell (begun s df i) (cellOf t)).last
    accNo := (cell (begun s df i) (cellOf t)).accNo
    pipeLast := (cell (begun s df i) (cellOf t)).pipeLast } := by
  subst hdf
  obtain ⟨-, -, hvq, htq, -⟩ := hr
  obtain ⟨-, -, -, hown, -⟩ := begun_frame s df i hvq htq _ (.refl _ _)
  exact hown

theorem begun_mine : (thread (begun s df i) t).mine = (thread s t).mine := by
  subst hdf
  obtain ⟨-, -, hvq, htq, -⟩ := hr
  rw [begun_thread s df i hvq htq]

theorem begun_atIssue : AtIssue s t (thread (begun s df i) t) (entD (begun s df i) t (startEntry s df i)) := by
  subst hdf
  obtain ⟨-, -, hvq, htq, -⟩ := hr
  have hbegun := begun_thread s df i hvq htq
  exact ⟨by rw [hbegun], by rw [hbegun], by rw [hbegun], rfl, rfl⟩

end

/-- `tile_done` for an instruction that leaves the cell y, which differs in its tiles alone. -/
theorem tile_leaves {s : State} {i : Instr} {t : Tid} {unit : State → DecEntry → DRes} (hi : RunsTile i t (tileForm t) unit) (hr : decReady s t []) {y : CellS} {fl : Nat}
    (hrun : unit (begun s (tileForm t) i) (startEntry s (tileForm t) i) = .done (setCell (begun s (tileForm t) i) (cellOf t) y) fl none)
    (hy : y = { cell (begun s (tileForm t) i) (cellOf t) with
      tiles := y.tiles, tpoison := y.tpoison, tparity := y.tparity, tattr := y.tattr, opcache := y.opcache, capo := y.capo, harp := y.harp }) :
    ∃ n, exec i s = .next n ∧ tileDone s n t ∧ cell n (cellOf t) = y ∧ (thread n t).regs = (thread s t).regs
      ∧ flagsGained s n t (fun j => fl.testBit j = true) := by
  have hown : cell (setCell (begun s (tileForm t) i) (cellOf t) y) (cellOf t) = y := by rw [cell_setCell, if_pos rfl]
  obtain ⟨n, hexec, hdone, hcell, -, hregs, hflags⟩ := tile_done s i t (tileForm t) hi.form rfl rfl [] hr (fun h => absurd h hi.notHarp)
    (by simp [tileForm, DecForm.regs]) _ fl none rfl ((hi.run _ _ rfl hr.2.1).trans hrun) rfl (fun c hc => by rw [cell_setCell, if_neg hc]) (by rw [hown]; exact hy) (hi.issues s)
  exact ⟨n, hexec, hdone, hcell.trans hown, hregs rfl, hflags⟩

/-! ## Clear and extent (R162, R181) -/

theorem runTClr_clears {s : State} {t : Tid} {f : TForm} (e : DecEntry) (hsub : f.sub = 0) (hrd : f.rd.toNat < 16) (hrs1 : f.rs1 = 0) (hrs2 : f.rs2 = 0) (hw1 : f.w1 = 0)
    (hheld : bit (thread s t).mine f.rd.toNat = true) :
    runTClr s t e f = .done (setCell s (cellOf t) (putTile (cell s (cellOf t)) f.rd.toNat 0 0 (fun _ => 0) (fun _ => false))) 0 none := by
  rw [runTClr, if_neg (by simp [hsub, bit4_of_lt hrd, hrs1, hrs2, hw1]), notHeld_none (by simpa using hheld)]
  rfl

theorem runTExt_reads {s : State} {t : Tid} {f : TForm} (e : DecEntry) (hsub : f.sub = 0) (hrs1 : f.rs1.toNat < 16) (hrs2 : f.rs2 = 0) (hw1 : f.w1 = 0)
    (hheld : bit (thread s t).mine f.rs1.toNat = true) :
    runTExt s t e f = .done s 0 (some (pack [(0, (tileAttr (cell s (cellOf t)) f.rs1.toNat).rows), (8, (tileAttr (cell s (cellOf t)) f.rs1.toNat).colBytes)])) := by
  rw [runTExt, if_neg (by simp [hsub, bit4_of_lt hrs1, hrs2, hw1]), notHeld_none (by simpa using hheld)]

theorem pack_extent {rows width : Nat} (h : rows < 256) : pack [(0, rows), (8, width)] = BitVec.ofNat 64 (rows + 256 * width) := by
  simpa [pack] using pack_cause (detail := width) h

theorem tClr_gives {s : State} {t : Tid} {f : TForm} (hr : decReady s t []) (hsub : f.sub = 0) (hrd : f.rd.toNat < 16) (hrs1 : f.rs1 = 0) (hrs2 : f.rs2 = 0) (hw1 : f.w1 = 0)
    (hheld : bit (thread s t).mine f.rd.toNat = true) :
    ∃ n, exec (.tClr t f) s = .next n ∧ tileDone s n t ∧ tileTakes s n t f.rd.toNat 0 0 0 (fun _ _ => 0)
      ∧ (thread n t).regs = (thread s t).regs ∧ flagsGained s n t (fun _ => False) := by
  have hi : RunsTile (.tClr t f) t (tileForm t) (fun s e => runTClr s t e f) := {}
  obtain ⟨n, hexec, hdone, hcell, hregs, hflags⟩ :=
    tile_leaves hi hr (runTClr_clears _ hsub hrd hrs1 hrs2 hw1 (by rw [begun_mine (df := tileForm t) hr rfl]; exact hheld)) (putTile_rest ..)
  have hbegun := begun_cell (df := tileForm t) hr rfl (.tClr t f)
  refine ⟨n, hexec, hdone, ?_, hregs, flagsGained_congr hflags fun j => by simp⟩
  exact tileTakes_of_rows (by rw [hbegun]) (by rw [hbegun]) (by rw [hbegun]) (by norm_num) (by decide)
    (fun r h => absurd h (Nat.not_lt_zero r)) hcell

theorem tExt_gives {s : State} {t : Tid} {f : TForm} (hr : decReady s t [f.rd]) (hsub : f.sub = 0) (hrs1 : f.rs1.toNat < 16) (hrs2 : f.rs2 = 0) (hw1 : f.w1 = 0)
    (hheld : bit (thread s t).mine f.rs1.toNat = true) (hrows : (tileAttr (cell s (cellOf t)) f.rs1.toNat).rows < 256) :
    ∃ n, exec (.tExt t f) s = .next n ∧ tileDone s n t
      ∧ rx n t f.rd = (if f.rd = 0 then 0 else BitVec.ofNat 64
          ((tileAttr (cell s (cellOf t)) f.rs1.toNat).rows + 256 * (tileAttr (cell s (cellOf t)) f.rs1.toNat).colBytes))
      ∧ (∀ r, r ≠ f.rd → rx n t r = rx s t r) ∧ (∀ k, tileAttr (cell n (cellOf t)) k = tileAttr (cell s (cellOf t)) k)
      ∧ (cell n (cellOf t)).tiles = (cell s (cellOf t)).tiles ∧ flagsGained s n t (fun _ => False) := by
  have hi : RunsTile (.tExt t f) t (tileForm t (some f.rd)) (fun s e => runTExt s t e f) := {}
  have hbegun := begun_cell (df := tileForm t (some f.rd)) hr rfl (.tExt t f)
  have hattr : ∀ k, tileAttr (cell (begun s (tileForm t (some f.rd)) (.tExt t f)) (cellOf t)) k = tileAttr (cell s (cellOf t)) k := fun k => by rw [hbegun]; rfl
  have hmine := begun_mine (df := tileForm t (some f.rd)) hr rfl (.tExt t f)
  have hrun := (hi.run (begun s (tileForm t (some f.rd)) (.tExt t f)) (startEntry s (tileForm t (some f.rd)) (.tExt t f)) rfl hr.2.1).trans
    (runTExt_reads _ hsub hrs1 hrs2 hw1 (by rw [hmine]; exact hheld))
  rw [hattr, pack_extent hrows] at hrun
  obtain ⟨n, hexec, hdone, hcell, hrx, -, hflags⟩ := tile_done s (.tExt t f) t (tileForm t (some f.rd)) hi.form rfl rfl [f.rd] hr (fun h => absurd h hi.notHarp)
    (by simp [tileForm, DecForm.regs]) _ 0 _ rfl hrun rfl (fun _ _ => rfl) (by generalize cell (begun s (tileForm t (some f.rd)) (.tExt t f)) (cellOf t) = x; rfl) (hi.issues s)
  refine ⟨n, hexec, hdone, ?_, fun r hne => ?_, fun k => by rw [hcell, hattr], by rw [hcell, hbegun], flagsGained_congr hflags fun j => by simp⟩
  · by_cases h0 : f.rd = 0
    · rw [if_pos h0, h0]; rfl
    · rw [hrx, if_neg h0]; exact if_pos ⟨rfl, h0⟩
  · rw [hrx]; exact if_neg fun h => hne h.1

/-! ## Moves (R173, R181) -/

/-- Element k of row r of a `t.mov`, converted from its source with its flags (R173). -/
def movEl (x : CellS) (f : TForm) (sx : SrCtx) (rm r k : Nat) : Fl Nat :=
  let w := f.w1
  let e := eenc (w1FmtD w) (narrows (w1FmtA w) (w1FmtD w)) (rndAt rm sx (wd (r * 256 + k))) ((w1Flags w).testBit 0)
    (edec (w1FmtA w) (if (w1Flags w).testBit 2 then tileEl x f.rs1.toNat (w1FmtA w) k r else tileEl x f.rs1.toNat (w1FmtA w) r k))
  (posZero (w1FmtD w) e.1, e.2)

/-- Whether a `t.mov` reads beyond the extent of its source (R163). -/
def movBeyond (x : CellS) (f : TForm) : Bool :=
  let w := f.w1
  if (w1Flags w).testBit 2 then beyond x f.rs1.toNat (w1Cols w) (w1Rows w) (w1FmtA w) else beyond x f.rs1.toNat (w1Rows w) (w1Cols w) (w1FmtA w)

/-- The source of a move depends on the cell's rows and extents alone. -/
theorem tileEl_congr {x y : CellS} (htiles : y.tiles = x.tiles) (hattr : y.tattr = x.tattr) (t f r c : Nat) : tileEl y t f r c = tileEl x t f r c := by
  unfold tileEl tileAttr tileRow
  rw [htiles, hattr]

theorem movEl_congr {x y : CellS} (htiles : y.tiles = x.tiles) (hattr : y.tattr = x.tattr) (f : TForm) (sx : SrCtx) (rm r k : Nat) :
    movEl y f sx rm r k = movEl x f sx rm r k := by
  simp only [movEl, tileEl_congr htiles hattr]

theorem movBeyond_congr {x y : CellS} (hattr : y.tattr = x.tattr) (f : TForm) : movBeyond y f = movBeyond x f := by
  unfold movBeyond beyond tileAttr
  rw [hattr]

/-- The elements of a `t.mov`, row by row. -/
def movRows (x : CellS) (f : TForm) (sx : SrCtx) (rm : Nat) : List (List (Fl Nat)) :=
  (List.range (w1Rows f.w1)).map (fun r => (List.range (w1Cols f.w1)).map (movEl x f sx rm r))

theorem movRows_getD (x : CellS) (f : TForm) (sx : SrCtx) (rm : Nat) {r : Nat} (hr : r < w1Rows f.w1) :
    (movRows x f sx rm).getD r [] = (List.range (w1Cols f.w1)).map (movEl x f sx rm r) := by
  rw [List.getD_eq_getElem _ _ (by simpa [movRows] using hr)]
  simp [movRows]

theorem mem_movRows {x : CellS} {f : TForm} {sx : SrCtx} {rm : Nat} {z : Fl Nat} :
    z ∈ (movRows x f sx rm).flatten ↔ ∃ r k, r < w1Rows f.w1 ∧ k < w1Cols f.w1 ∧ movEl x f sx rm r k = z := by
  simp [movRows]

theorem testBit_tileFlags (fl j : Nat) : (tileFlags fl).testBit j = (fl.testBit j && Nat.testBit 0x1F4 j) := Nat.testBit_and ..

theorem testBit_shapeFlag (b : Bool) (j : Nat) : (if b then fTSHAPE else 0).testBit j = true ↔ j = 8 ∧ b = true := by
  cases b
  · simp
  · rw [if_pos rfl, show fTSHAPE = 2 ^ 8 from rfl, Nat.testBit_two_pow]
    simp [eq_comm]

section
variable (c : Nat) (f : TForm) (d : DCtx) (th : Thread) (s : State)

/-- The rows that a `t.mov` puts, with the poison marks that log 137 gives them. -/
theorem tMovRun_state : ∃ bad : Nat → Bool, (tMovRun c f d th s).s = setCell s c (putTile (cell s c) f.rd.toNat (w1Rows f.w1) (rowBytes (w1Cols f.w1) (w1FmtD f.w1))
    (fun r => ofElems (fmtBits (w1FmtD f.w1)) (((movRows (cell s c) f (srCtx th d) (rmOf th (w1Rm f.w1))).getD r []).map (fun p => p.1))) bad) :=
  ⟨_, rfl⟩

/-- The flags of a `t.mov`: those of its elements that a tile instruction may set (R155), and TSHAPE for a read beyond the extent. -/
theorem tMovRun_flags (j : Nat) : (tMovRun c f d th s).fl.testBit j = true
    ↔ (∃ r k, r < w1Rows f.w1 ∧ k < w1Cols f.w1 ∧ (movEl (cell s c) f (srCtx th d) (rmOf th (w1Rm f.w1)) r k).2.testBit j = true ∧ Nat.testBit 0x1F4 j = true)
      ∨ (j = 8 ∧ movBeyond (cell s c) f = true) := by
  have hfl : (tMovRun c f d th s).fl = tileFlags ((movRows (cell s c) f (srCtx th d) (rmOf th (w1Rm f.w1))).foldl (fun a row => row.foldl (fun a p => a ||| p.2) a) 0)
      ||| (if movBeyond (cell s c) f then fTSHAPE else 0) := rfl
  rw [hfl, ← List.foldl_flatten, Nat.testBit_or, Bool.or_eq_true, testBit_tileFlags, testBit_shapeFlag, Bool.and_eq_true, testBit_foldl_or]
  refine or_congr_left ?_
  simp only [Nat.zero_testBit, Bool.false_eq_true, false_or, mem_movRows]
  constructor
  · rintro ⟨⟨z, ⟨r, k, hr, hk, rfl⟩, hz⟩, hj⟩
    exact ⟨r, k, hr, hk, hz, hj⟩
  · rintro ⟨r, k, hr, hk, hz, hj⟩
    exact ⟨⟨_, ⟨r, k, hr, hk, rfl⟩, hz⟩, hj⟩

end

theorem runTMov_moves {s : State} {t : Tid} {f : TForm} (e : DecEntry) (hlegal : tIllegal .mov f = false) (hshape : tShape .mov f.w1 = none)
    (hrd : bit (thread s t).mine f.rd.toNat = true) (hrs1 : bit (thread s t).mine f.rs1.toNat = true) :
    runTMov s t e f = .done (tMovRun (cellOf t) f (entD s t e) (thread s t) s).s (tMovRun (cellOf t) f (entD s t e) (thread s t) s).fl none := by
  rw [runTMov, if_neg (by rw [hlegal]; exact Bool.false_ne_true), hshape]
  dsimp only
  rw [notHeld_none (by simp [hrd, hrs1])]

theorem tMov_gives {s : State} {t : Tid} {f : TForm} (hr : decReady s t []) (hlegal : tIllegal .mov f = false) (hshape : tShape .mov f.w1 = none)
    (hrd : bit (thread s t).mine f.rd.toNat = true) (hrs1 : bit (thread s t).mine f.rs1.toNat = true) {rm : Nat}
    (hrm : rm = if w1Rm f.w1 = 3 then bits (srAt s t 1) 1 0 else w1Rm f.w1) :
    ∃ n, exec (.tMov t f) s = .next n ∧ tileDone s n t
      ∧ tileTakes s n t f.rd.toNat (w1Rows f.w1) (w1Cols f.w1) (w1FmtD f.w1) (fun r k => (movEl (cell s (cellOf t)) f (randomOf s t) rm r k).1)
      ∧ (thread n t).regs = (thread s t).regs
      ∧ flagsGained s n t (fun j =>
          (∃ r k, r < w1Rows f.w1 ∧ k < w1Cols f.w1 ∧ (movEl (cell s (cellOf t)) f (randomOf s t) rm r k).2.testBit j = true ∧ Nat.testBit 0x1F4 j = true)
          ∨ (j = 8 ∧ movBeyond (cell s (cellOf t)) f = true)) := by
  have hi : RunsTile (.tMov t f) t (tileForm t) (fun s e => runTMov s t e f) := {}
  have hmine := begun_mine (df := tileForm t) hr rfl (.tMov t f)
  have hbegun := begun_cell (df := tileForm t) hr rfl (.tMov t f)
  have hissue := begun_atIssue (df := tileForm t) hr rfl (.tMov t f)
  set s1 := begun s (tileForm t) (.tMov t f)
  set e := startEntry s (tileForm t) (.tMov t f)
  have hmode : rmOf (thread s1 t) (w1Rm f.w1) = rm := by rw [hrm, rmOf, frm_atIssue hissue]
  have hrun : runTMov s1 t e f = _ := runTMov_moves e hlegal hshape (by rw [hmine]; exact hrd) (by rw [hmine]; exact hrs1)
  obtain ⟨bad, hstate⟩ := tMovRun_state (cellOf t) f (entD s1 t e) (thread s1 t) s1
  have hflag := tMovRun_flags (cellOf t) f (entD s1 t e) (thread s1 t) s1
  rw [hmode, srCtx_atIssue hissue] at hstate hflag
  rw [hstate] at hrun
  have htiles : (cell s1 (cellOf t)).tiles = (cell s (cellOf t)).tiles := by rw [hbegun]
  have hattr : (cell s1 (cellOf t)).tattr = (cell s (cellOf t)).tattr := by rw [hbegun]
  have hel := movEl_congr htiles hattr f (randomOf s t) rm
  obtain ⟨hwidth, hfd⟩ := tShape_destination (by decide) hshape
  obtain ⟨n, hexec, hdone, hcell, hregs, hflags⟩ := tile_leaves hi hr hrun (putTile_rest ..)
  refine ⟨n, hexec, hdone, ?_, hregs, flagsGained_congr hflags fun j => ?_⟩
  · refine tileTakes_of_rows htiles (by rw [hbegun]) hattr hfd hwidth (fun r hlt => ?_) hcell
    rw [movRows_getD _ _ _ _ hlt, List.map_map]
    exact congrArg _ (List.map_congr_left fun k _ => by rw [Function.comp_apply, hel])
  · rw [hflag j, movBeyond_congr hattr]
    simp only [hel]

/-- Settles O25, instruction by instruction. -/
theorem tileMovesAndExtents : Obligations.TileMovesAndExtents := by
  intro s t f x held
  exact ⟨tClr_gives, tExt_gives, fun hr hlegal hshape hrd hrs1 _ _ => tMov_gives hr hlegal hshape hrd hrs1 rfl⟩

end Sys2Proof.Machine
end

section
/-! PROOFS. Tile loads and stores that pass all checks (R171–R178). -/

namespace Sys2Proof.Machine

open Sys2Proof.Safety

/-- A long decoupled instruction without a scalar result whose unit completes it in the state u, of which its thread has begun and written system registers only. -/
theorem unitGives_of_done {s : State} {i : Instr} {t : Tid} {df : DecForm} {unit : State → DecEntry → DRes} (hi : RunsTile i t df unit) (hdst : df.dst = none)
    {rs : List Reg} (hr : decReady s t rs) (hregs : ∀ r ∈ df.regs, r ∈ (0 : Reg) :: rs) {u : State} {fl : Nat}
    (hrun : unit (begun s df i) (startEntry s df i) = .done u fl none) (hu : thread u t = { thread (begun s df i) t with sr := (thread u t).sr }) {also : State → Prop}
    (halso : ∀ n, (∀ c, cell n c = cell u c) → (thread n t).regs = (thread s t).regs → (thread n t).v = (thread s t).v → (thread n t).pc = (thread s t).pc + 12 → also n) :
    unitGives i s t u fl also := by
  obtain rfl := hi.owner
  have hs : startsNow s df i := decReady_starts hr rfl (fun h => absurd h hi.notHarp)
  have hbegun := begun_thread s df i hs.vq hs.tq
  rw [hi.long, if_pos rfl, show awaited s df = (thread s df.t).busy by rw [awaited, hdst]] at hbegun
  obtain ⟨n, hnext, honly, hn⟩ := runDecoupled_done s i df hi.form hs (decReady_issue hr hregs) u fl none ((hi.run _ _ rfl hs.cellId).trans hrun)
    (by rw [hu]) (by rw [hu]) (by rw [hu])
  have hkeeps : (thread u df.t).busy = (thread s df.t).busy ∧ (thread u df.t).regs = (thread s df.t).regs ∧ (thread u df.t).v = (thread s df.t).v
      ∧ (thread u df.t).pc = (thread s df.t).pc + 12 := by
    rw [hu, hbegun]
    exact ⟨rfl, rfl, rfl, rfl⟩
  obtain ⟨hbusy, hscalar, hv, hpc⟩ := hkeeps
  have hflags : flagsGained u n df.t (fun j => fl.testBit j = true) := by
    have hafter : ∀ m, srAt n df.t m = srAt (setFlags u df.t fl) df.t m := srAt_congr (by rw [hn]; rfl)
    obtain ⟨hkept, hgained⟩ := setFlags_gained u df.t fl
    exact ⟨fun m hm => (hafter m).trans (hkept m hm), fun j hj => by rw [hafter, hgained j hj]⟩
  refine ⟨n, by rw [hi.issues, hnext]; rfl, honly.1, honly.2, ?_, hflags,
    halso n honly.cell (by rw [hn]; exact hscalar) (by rw [hn]; exact hv) (by rw [hn]; exact hpc)⟩
  rw [hn, ← hbusy]
  rfl

/-- The form of a tile load or store (R171, R175). -/
def tileMemForm (t : Tid) (f : TForm) : DecForm :=
  { t := t, tile := true, long := true, a := f.rs1, b := f.rs2, d := if (w1Flags f.w1).testBit 1 then BitVec.ofNat 5 (w1Src3 f.w1) else 0 }

/-- The run of a tile load or store that thread t issues now, from the row that TRESUME names. -/
def tileMemRun (s : State) (i : Instr) (t : Tid) (f : TForm) (k : TKind) : TRun :=
  let s1 := begun s (tileMemForm t f) i
  let e := entryOf s (tileMemForm t f) i (resumeAt (srAt s t 0x006) 6)
  tMemRun (tileAcc t (entCtx s1 t e)) k (cellOf t) f (entD s1 t e) (thread s1 t) (resumeAt (srAt s t 0x006) 6) s1

theorem runTMem_completes {s : State} {t : Tid} {e : DecEntry} {f : TForm} {k : TKind} {start : Nat} (hlegal : tIllegal k f = false) (hshape : tShape k f.w1 = none)
    (hheld : bit (thread s t).mine f.rd.toNat = true) (hstart : startAt s t e = start) {r : TRun}
    (hrun : tMemRun (tileAcc t (entCtx s t e)) k (cellOf t) f (entD s t e) (thread s t) start s = r) (hstop : r.stop = none) (hhold : r.hold = false) :
    runTMem s t e f k = .done (srPut r.s t 0x006 0) r.fl none := by
  subst hrun hstart
  rw [runTMem, if_neg (by rw [hlegal]; exact Bool.false_ne_true), hshape]
  dsimp only
  rw [notHeld_none (by simpa using hheld)]
  dsimp only
  rw [show (entD s t e).x = entCtx s t e from rfl, hstop]
  dsimp only
  rw [if_neg (by rw [hhold]; exact Bool.false_ne_true)]

/-- A load that no row stops leaves its tile's extent (R162, R177). -/
theorem tMemRun_extent {acc : VAcc} {c : Nat} {f : TForm} {d : DCtx} {th : Thread} {start : Nat} {s : State} (hstop : (tMemRun acc .ld c f d th start s).stop = none) :
    ∃ s', (tMemRun acc .ld c f d th start s).s = modCell s' c (fun x =>
      putExtent (tileWritten x f.rd.toNat) f.rd.toNat (w1Rows f.w1) (rowBytes (w1Cols f.w1) (w1FmtD f.w1))) := by
  unfold tMemRun at hstop ⊢
  dsimp only at hstop ⊢
  rw [if_pos rfl] at hstop ⊢
  split at hstop
  · next hsome =>
    split at hstop <;> exact absurd (hsome.symm.trans hstop) nofun
  · next hnone => rw [hnone]; exact ⟨_, rfl⟩

theorem tileMem_gives {s : State} {i : Instr} {t : Tid} {f : TForm} {k : TKind} (hi : RunsTile i t (tileMemForm t f) (fun s e => runTMem s t e f k)) (hpipe : pipeOf i = 2)
    (hr : decReady s t [f.rs1, f.rs2, (tileMemForm t f).d]) (hlegal : tIllegal k f = false) (hshape : tShape k f.w1 = none)
    (hheld : bit (thread s t).mine f.rd.toNat = true) (hstop : (tileMemRun s i t f k).stop = none) (hhold : (tileMemRun s i t f k).hold = false)
    (hthread : thread (tileMemRun s i t f k).s t = thread (begun s (tileMemForm t f) i) t) :
    unitGives i s t (srPut (tileMemRun s i t f k).s t 0x006 0) (tileMemRun s i t f k).fl (fun n =>
      (thread n t).regs = (thread s t).regs ∧ (thread n t).v = (thread s t).v ∧ (thread n t).pc = (thread s t).pc + 12
      ∧ (k = .ld → (tileAttr (cell n (cellOf t)) f.rd.toNat).rows = w1Rows f.w1
        ∧ (tileAttr (cell n (cellOf t)) f.rd.toNat).colBytes = rowBytes (w1Cols f.w1) (w1FmtD f.w1))) := by
  have hstart : startEntry s (tileMemForm t f) i = entryOf s (tileMemForm t f) i (resumeAt (srAt s t 0x006) 6) := by
    rw [startEntry, startOf, if_pos hpipe]
    rfl
  refine unitGives_of_done hi rfl hr (by simp [tileMemForm, DecForm.regs]) ?_ ?_ fun n hcell hregs hv hpc => ⟨hregs, hv, hpc, fun hk => ?_⟩
  · rw [hstart]
    exact runTMem_completes hlegal hshape (by rw [begun_mine (df := tileMemForm t f) hr rfl]; exact hheld) rfl rfl hstop hhold
  · rw [← hthread]
    exact thread_srPut _ t 0x006 0
  · subst hk
    obtain ⟨s', hs'⟩ := tMemRun_extent hstop
    have hattr : cell n (cellOf t) = cell (tileMemRun s i t f .ld).s (cellOf t) := (hcell _).trans ((srPut_only _ t 0x006 0).cell _)
    rw [hattr, show (tileMemRun s i t f .ld).s = _ from hs', cell_modCell_same, tileAttr_putExtent, if_pos rfl]
    exact ⟨rfl, rfl⟩

/-- Settles O27: a run that is not stopped and holds no write is what the unit leaves, with TRESUME zero. -/
theorem tileLoadsAndStores : Obligations.TileLoadsAndStores := by
  intro s t f mem
  have gives {i : Instr} {k : TKind} (hi : RunsTile i t (tileMemForm t f) (fun s e => runTMem s t e f k)) (hpipe : pipeOf i = 2) : mem i k :=
    fun hr hlegal hshape _ hheld hstop hhold hthread => tileMem_gives hi hpipe hr hlegal hshape hheld hstop hhold hthread
  exact ⟨gives (i := .tLd t f) {} rfl, gives (i := .tSt t f) {} rfl⟩

end Sys2Proof.Machine
end

section
/-! PROOFS. `mx.mma` with nothing poisoned whose attempt passes its checks (R189–R201). -/

namespace Sys2Proof.Machine

open Sys2Proof.Safety

/-! ## The state's cells -/

theorem tins_tins {α : Type} (k : Nat) (v w : α) (l : Table α) : tins k v (tins k w l) = tins k v l := by
  induction l with
  | nil => simp [tins]
  | cons p l ih =>
    obtain ⟨a, y⟩ := p
    rcases lt_trichotomy k a with h | rfl | h
    · simp [tins, h]
    · simp [tins]
    · simp [tins, h.not_gt, h.ne, ih]

theorem setCell_setCell (s : State) (c : Nat) (x y : CellS) : setCell (setCell s c x) c y = setCell s c y := by
  simp only [setCell, tins_tins]

/-- One cell changed step after step is that cell set to what all the steps make of it. -/
theorem modCell_foldl {α : Type} (c : Nat) (g : α → CellS → CellS) (f : CellS → CellS) (l : List α) (s : State) :
    modCell (l.foldl (fun s a => modCell s c (g a)) s) c f = setCell s c (f (l.foldl (fun x a => g a x) (cell s c))) := by
  induction l generalizing s with
  | nil => rfl
  | cons a l ih => rw [List.foldl_cons, ih, cell_modCell_same, modCell, setCell_setCell, List.foldl_cons]

/-! ## The checks (R189–R194) -/

/-- A destination that the shape check admits has a row, fits a tile's row and is in a format of a tile's (R193). -/
theorem mxShape_destination {m : MxF} (h : mxShape m = none) : 0 < m.rows ∧ rowBytes m.cols m.fd ≤ 256 ∧ m.fd ≤ 0xC := by
  obtain ⟨hdest, -⟩ := (Option.orElse_eq_none _ _).1 h
  have hrows : m.rows ≠ 0 ∧ m.rows ≤ 64 := by
    simpa using firstReason_none hdest (r := 1) (b := decide (m.rows = 0) || decide (64 < m.rows)) (by simp)
  have hwidth : rowBytes m.cols m.fd ≤ 256 := by simpa using firstReason_none hdest (r := 3) (b := decide (256 < rowBytes m.cols m.fd)) (by simp)
  have hfmt : m.fd ≠ 0 → m.fd ≠ 1 → m.fd ≠ 2 → m.fd = 0xC := by
    simpa using firstReason_none hdest (r := 5) (b := !([0, 1, 2, 0xC].contains m.fd)) (by simp)
  omega

theorem mxCheck_none {s : State} {t : Tid} {f : TForm} (e : DecEntry) (hlegal : mxIllegal f = false) (hshape : mxShape (mxFields f) = none)
    (hheld : ∀ k ∈ mxTiles (mxFields f), bit (thread s t).mine k = true) : mxCheck s t e f = none := by
  rw [mxCheck, if_neg (by rw [hlegal]; exact Bool.false_ne_true)]
  dsimp only
  rw [hshape]
  dsimp only
  rw [notHeld_none hheld]
  rfl

/-- An `mx.mma` past its checks whose first attempt passes completes (R199, R201). -/
theorem runMx_completes {s : State} {t : Tid} {f : TForm} {e : DecEntry} (hcheck : mxCheck s t e f = none) (hstopped : (cell s (cellOf t)).harpStopped = false)
    {p : TRun} (hput : mxPut t f (entD s t e) (thread s t) (harpTry (cell s (cellOf t)) (mxFields f) none).outs s = p)
    (hpasses : (harpTry (cell s (cellOf t)) (mxFields f) none).passes = true) : runMx s t e f = .done p.s p.fl none := by
  have hrun : mxRun t f (entD s t e) (thread s t) none none s = (some p, s) := by
    rw [mxRun]
    dsimp only
    rw [if_pos hpasses, hput]
  rw [runMx, hcheck]
  dsimp only
  rw [if_neg (by rw [hstopped]; exact Bool.false_ne_true), hrun]

/-! ## Operands -/

/-- The part of a cell that a read of a tile looks at (R163, R204). -/
def operands (x : CellS) : CellS := { tiles := x.tiles, tattr := x.tattr, tpoison := x.tpoison, tparity := x.tparity }

theorem eq_of_operands {β : Type} {g : CellS → β} (hg : ∀ x, g x = g (operands x)) {x y : CellS} (h : operands y = operands x) : g y = g x :=
  (hg y).trans ((congrArg g h).trans (hg x).symm)

section
variable {x y : CellS} (h : operands y = operands x) (m : MxF)
include h

theorem harpTry_congr (hit : Option HarpHit) : harpTry y m hit = harpTry x m hit := eq_of_operands (g := fun x => harpTry x m hit) (fun _ => rfl) h

theorem mxPoison_congr (r : Nat) : mxPoison y m r = mxPoison x m r := eq_of_operands (g := fun x => mxPoison x m r) (fun _ => rfl) h

theorem mxDrain_congr (sx : SrCtx) (rm r n : Nat) : mxDrain y m sx rm r n = mxDrain x m sx rm r n :=
  eq_of_operands (g := fun x => mxDrain x m sx rm r n) (fun _ => rfl) h

theorem mxBeyond_congr : mxBeyond y m = mxBeyond x m := eq_of_operands (g := fun x => mxBeyond x m) (fun _ => rfl) h

end

theorem mxBadPlaces_nil {x : CellS} {m : MxF} (hrows : 0 < m.rows) (hsound : ∀ r, r < m.rows → mxPoison x m r = false) : mxBadPlaces x m = [] := by
  have hnone : ∀ r, r < m.rows → mxBadRow x m r = [] ∧ mxBadAll x m = [] := fun r hr => by simpa [mxPoison] using hsound r hr
  have hrow : (List.range m.rows).flatMap (mxBadRow x m) = [] := List.flatMap_eq_nil_iff.2 fun r hr => (hnone r (List.mem_range.1 hr)).1
  rw [mxBadPlaces, hrow, (hnone 0 hrows).2]
  rfl

/-! ## The results -/

theorem harpTry_outs (x : CellS) (m : MxF) : (harpTry x m none).outs = (List.range m.rows).map (fun r => (List.range m.cols).map (mxOut x m r)) := rfl

theorem zip_map_range {α : Type} (g : Nat → α) (n : Nat) : ((List.range n).map g).zip (List.range n) = (List.range n).map (fun r => (g r, r)) := by
  simpa using List.zip_map' (f := g) (g := id) (l := List.range n)

theorem harpTry_row (x : CellS) (m : MxF) {r : Nat} (hr : r < m.rows) : (harpTry x m none).outs.getD r [] = (List.range m.cols).map (mxOut x m r) := by
  rw [harpTry_outs, List.getD_eq_getElem _ _ (by simpa using hr), List.getElem_map, List.getElem_range]

/-- What a cell keeps of an attempt beside its tiles: the slices and the latches of its operands, and the harp's buffers (R182, R183, R185). -/
def mxLatched (f : TForm) (asid : BitVec 6) (h : HarpS) (y : CellS) : CellS :=
  let m := mxFields f
  { y with opcache := opcachePut m.ta m.rows (rowBytes m.depth m.fa) y.opcache, capo := some (m.tb, f.w1, asid), harp := h }

theorem putTile_latched (f : TForm) (asid : BitVec 6) (h : HarpS) (x : CellS) (td rows width : Nat) (row : Nat → Nat) (bad : Nat → Bool) :
    putTile (mxLatched f asid h x) td rows width row bad = putExtent (tileWritten (mxLatched f asid h
      ((List.range rows).foldl (fun y r => putTileRow y td r width (row r) (bad r)) x)) td) td rows width := by
  rw [putTile, List.foldl_hom (mxLatched f asid h) (g₁ := fun y r => putTileRow y td r width (row r) (bad r)) (fun _ _ => rfl)]

theorem putTile_latched_rest (f : TForm) (asid : BitVec 6) (h : HarpS) (x : CellS) (td rows width : Nat) (row : Nat → Nat) (bad : Nat → Bool) :
    let y := putTile (mxLatched f asid h x) td rows width row bad
    y = { x with tiles := y.tiles, tpoison := y.tpoison, tparity := y.tparity, tattr := y.tattr, opcache := y.opcache, capo := y.capo, harp := y.harp } :=
  putTile_rest ..

/-- The drained codes of row r, with their flags, of a sound array (R199). -/
def mxRow (x : CellS) (m : MxF) (sx : SrCtx) (rm r : Nat) : List (Fl Nat) := (List.range m.cols).map (mxDrain x m sx rm r)

theorem drained_rows {x : CellS} {m : MxF} (hsound : ∀ r, r < m.rows → mxPoison x m r = false) (sx : SrCtx) (rm : Nat) :
    (List.range m.rows).map (fun r => (mxPoison x m r, (((harpTry x m none).outs.getD r []).zip (List.range m.cols)).map (fun q => drainOut m sx rm r q.2 q.1)))
      = (List.range m.rows).map (fun r => (false, mxRow x m sx rm r)) := by
  refine List.map_congr_left fun r hr => ?_
  have hr := List.mem_range.1 hr
  rw [hsound r hr, harpTry_row x m hr, zip_map_range, List.map_map]
  rfl

/-- The flags of an `mx.mma` (R155): those that its results raise, and TSHAPE for a read beyond an extent. -/
def mxFlags (x : CellS) (m : MxF) (sx : SrCtx) (rm : Nat) : Nat :=
  ((List.range m.rows).flatMap (mxRow x m sx rm)).foldl (fun a p => a ||| p.2) 0 &&& (fOF ||| fNV ||| fQSAT ||| fSCALE) ||| (if mxBeyond x m then fTSHAPE else 0)

/-- With nothing poisoned an attempt that completes puts its drained results into its tile (R199). -/
theorem mxPut_sound (t : Tid) (f : TForm) (d : DCtx) (th : Thread) (s : State) {x : CellS} (hx : cell s (cellOf t) = x) (hrows : 0 < (mxFields f).rows)
    (hsound : ∀ r, r < (mxFields f).rows → mxPoison x (mxFields f) r = false) :
    let m := mxFields f
    let sx := srCtx th d
    let rm := rmOf th (w1Rm f.w1)
    mxPut t f d th (harpTry x m none).outs s =
      { s := setCell s (cellOf t) (putTile (mxLatched f d.x.asid (harpHolds x m (harpTry x m none).outs) x) m.td m.rows (rowBytes m.cols m.fd)
          (fun r => ofElems (fmtBits m.fd) ((mxRow x m sx rm r).map (fun q => q.1))) (fun _ => false)),
        fl := mxFlags x m sx rm } := by
  subst hx
  unfold mxPut
  dsimp only
  rw [drained_rows hsound, mxBadPlaces_nil hrows hsound, zip_map_range, List.foldl_map, List.foldl_map, mxFlags, List.flatMap, List.foldl_flatten, List.foldl_map, putTile_latched]
  dsimp only
  rw [modCell_foldl]
  rfl

theorem mxFlags_testBit (x : CellS) (m : MxF) (sx : SrCtx) (rm j : Nat) : (mxFlags x m sx rm).testBit j = true
    ↔ (∃ r k, r < m.rows ∧ k < m.cols ∧ (mxDrain x m sx rm r k).2.testBit j = true ∧ Nat.testBit 0x74 j = true) ∨ (j = 8 ∧ mxBeyond x m = true) := by
  rw [mxFlags, Nat.testBit_or, Bool.or_eq_true, testBit_shapeFlag, Nat.testBit_and, Bool.and_eq_true, testBit_foldl_or]
  refine or_congr_left ?_
  have hmem : ∀ z, z ∈ (List.range m.rows).flatMap (mxRow x m sx rm) ↔ ∃ r k, r < m.rows ∧ k < m.cols ∧ mxDrain x m sx rm r k = z := by simp [mxRow]
  simp only [Nat.zero_testBit, Bool.false_eq_true, false_or, hmem]
  constructor
  · rintro ⟨⟨z, ⟨r, k, hr, hk, rfl⟩, hz⟩, hj⟩
    exact ⟨r, k, hr, hk, hz, hj⟩
  · rintro ⟨r, k, hr, hk, hz, hj⟩
    exact ⟨⟨_, ⟨r, k, hr, hk, rfl⟩, hz⟩, hj⟩

/-! ## The instruction -/

theorem begun_operands {s : State} {t : Tid} (hr : decReady s t []) (i : Instr) :
    operands (cell (begun s (tileForm t) i) (cellOf t)) = operands (cell s (cellOf t)) :=
  (congrArg operands (begun_cell hr rfl i)).trans rfl

theorem dRun_mxMma {s : State} {t : Tid} {e : DecEntry} {f : TForm} (hi : e.instr = .mxMma t f) (hm : isMantle (cellOf t) = false) : dRun s t e = runMx s t e f := by
  rw [dRun, if_neg (by rw [hm]; exact Bool.false_ne_true), hi]

/-- `tile_done` for an `mx.mma` that leaves the cell y, which differs in its tiles, its latches and the harp's buffers alone. -/
theorem mxMma_leaves {s : State} {t : Tid} {f : TForm} (hr : decReady s t []) (hstopped : (cell s (cellOf t)).harpStopped = false) {y : CellS} {fl : Nat}
    (hrun : runMx (begun s (tileForm t) (.mxMma t f)) t (startEntry s (tileForm t) (.mxMma t f)) f = .done (setCell (begun s (tileForm t) (.mxMma t f)) (cellOf t) y) fl none)
    (hy : y = { cell (begun s (tileForm t) (.mxMma t f)) (cellOf t) with
      tiles := y.tiles, tpoison := y.tpoison, tparity := y.tparity, tattr := y.tattr, opcache := y.opcache, capo := y.capo, harp := y.harp }) :
    ∃ n, exec (.mxMma t f) s = .next n ∧ tileDone s n t ∧ cell n (cellOf t) = y ∧ (thread n t).regs = (thread s t).regs
      ∧ flagsGained s n t (fun j => fl.testBit j = true) := by
  have hown : cell (setCell (begun s (tileForm t) (.mxMma t f)) (cellOf t) y) (cellOf t) = y := by rw [cell_setCell, if_pos rfl]
  obtain ⟨n, hexec, hdone, hcell, -, hregs, hflags⟩ := tile_done s (.mxMma t f) t (tileForm t) rfl rfl rfl [] hr (fun _ => hstopped)
    (by simp [tileForm, DecForm.regs]) _ fl none rfl ((dRun_mxMma rfl hr.2.1).trans hrun) rfl (fun c hc => by rw [cell_setCell, if_neg hc]) (by rw [hown]; exact hy) rfl
  exact ⟨n, hexec, hdone, hcell.trans hown, hregs rfl, hflags⟩

/-- Settles O26. Begun by its pipe the instruction finds the operands that it was issued with; its attempt passes, and the drained results are the rows of its tile. -/
theorem matrixMultiply : Obligations.MatrixMultiply := by
  intro s t f x m rm el hr hlegal hshape hheld hstopped hsound hpasses
  have hsame := begun_operands hr (.mxMma t f)
  have hmine := begun_mine (df := tileForm t) hr rfl (.mxMma t f)
  have hbegun := begun_cell (df := tileForm t) hr rfl (.mxMma t f)
  have hissue := begun_atIssue (df := tileForm t) hr rfl (.mxMma t f)
  set s1 := begun s (tileForm t) (.mxMma t f)
  set e := startEntry s (tileForm t) (.mxMma t f)
  obtain ⟨hrows, hwidth, hfd⟩ := mxShape_destination hshape
  have hmode : rmOf (thread s1 t) (w1Rm f.w1) = rm := by rw [rmOf, frm_atIssue hissue]; rfl
  have hel : ∀ r k, mxDrain (cell s1 (cellOf t)) (mxFields f) (randomOf s t) rm r k = el r k := mxDrain_congr hsame m _ _
  have hcheck : mxCheck s1 t e f = none := mxCheck_none e hlegal hshape fun k hk => by rw [hmine]; exact (hheld k hk).2
  have hput := mxPut_sound t f (entD s1 t e) (thread s1 t) s1 rfl hrows (fun r hlt => (mxPoison_congr hsame m r).trans (hsound r hlt))
  rw [srCtx_atIssue hissue, hmode] at hput
  obtain ⟨n, hexec, hdone, hcell, hregs, hflags⟩ := mxMma_leaves hr hstopped
    (runMx_completes hcheck (by rw [hbegun]; exact hstopped) hput (by rw [harpTry_congr hsame]; exact hpasses)) (putTile_latched_rest ..)
  refine ⟨n, hexec, hdone, ?_, hregs, flagsGained_congr hflags fun j => ?_⟩
  · refine tileTakes_of_rows ?_ ?_ ?_ hfd hwidth (fun r _ => ?_) hcell
    · exact (congrArg CellS.tiles hsame :)
    · exact (congrArg CellS.tpoison hsame :)
    · exact (congrArg CellS.tattr hsame :)
    · rw [mxRow, List.map_map]
      exact congrArg _ (List.map_congr_left fun k _ => by rw [Function.comp_apply, hel])
  · rw [mxFlags_testBit, mxBeyond_congr hsame]
    simp only [hel]
    rfl

end Sys2Proof.Machine
end

section
/-! PROOFS. What keeping memory's form (R220) means, and that the smallest operations and those of memory's home keep it. -/

namespace Sys2Proof.Machine

open Sys2Proof.Safety

/-- `memorySafe` rests on a state's memory alone: an operation that leaves `ms` as it is keeps it at once. -/
def MemS.safe (m : MemS) : Prop := Memory.wf m.mem = true ∧ ∀ l, lineHbm l = false → tget? m.rc l = none

theorem memorySafe_iff {s : State} : memorySafe s ↔ s.ms.safe := Iff.rfl

/-- A command's outcome whose next state, if it gives one, has memory in its form. -/
def nextSafe (o : Host.Outcome State Fault Refusal) : Prop := ∀ n, o = .next n → n.ms.safe

@[simp] theorem nextSafe_next {s : State} : nextSafe (.next s) ↔ s.ms.safe := by simp [nextSafe]

theorem nextSafe_iff {s : State} : nextSafe (.next s) ↔ memorySafe s := nextSafe_next

/-- What is left as it is where an attempt gives no state keeps the form. -/
theorem getD_safe {s : State} (h : s.ms.safe) {o : Option State} (ho : ∀ n, o = some n → n.ms.safe) : (o.getD s).ms.safe := by
  cases o with
  | none => exact h
  | some n => exact ho n rfl

/-- An instruction that may not issue leaves the state as it is. -/
theorem nextSafe_getD {s : State} (h : s.ms.safe) {o : Option State} (ho : ∀ n, o = some n → n.ms.safe) : nextSafe (.next (o.getD s)) :=
  nextSafe_next.2 (getD_safe h ho)

/-! ## Folds over what keeps the form -/

theorem foldl_safe {α : Type} {f : State → α → State} (hf : ∀ q a, q.ms.safe → (f q a).ms.safe) (l : List α) {s : State} (h : s.ms.safe) :
    (l.foldl f s).ms.safe :=
  foldl_inv (fun q : State => q.ms.safe) f hf l s h

/-- The same of a fold that carries a result beside the state. -/
theorem foldl_pair_safe {α β : Type} {f : β × State → α → β × State} (hf : ∀ q a, q.2.ms.safe → (f q a).2.ms.safe) (l : List α) {q : β × State}
    (h : q.2.ms.safe) : (l.foldl f q).2.ms.safe :=
  foldl_inv (fun q : β × State => q.2.ms.safe) f hf l q h

theorem foldl_fst_safe {α β : Type} {f : State × β → α → State × β} (hf : ∀ q a, q.1.ms.safe → (f q a).1.ms.safe) (l : List α) {q : State × β}
    (h : q.1.ms.safe) : (l.foldl f q).1.ms.safe :=
  foldl_inv (fun q : State × β => q.1.ms.safe) f hf l q h

/-- What is done or left undone keeps the form when doing it does. -/
theorem optional_safe {p : Prop} [Decidable p] {f : State → State} (hf : ∀ q : State, q.ms.safe → (f q).ms.safe) {s : State} (h : s.ms.safe) :
    (if p then f s else s).ms.safe := by
  split
  · exact hf s h
  · exact h

theorem ite_safe_iff {p : Prop} [Decidable p] {a b : State} : (if p then a else b).ms.safe ↔ if p then a.ms.safe else b.ms.safe := by
  split <;> rfl

theorem ite_safe {p : Prop} [Decidable p] {a b : State} (ha : a.ms.safe) (hb : b.ms.safe) : (if p then a else b).ms.safe := by
  split
  · exact ha
  · exact hb

theorem memorySafe_ite {p : Prop} [Decidable p] {a b : State} (ha : memorySafe a) (hb : memorySafe b) : memorySafe (if p then a else b) := by
  split
  · exact ha
  · exact hb

/-- What an optional result is used for keeps the form when each of its uses does. -/
theorem elim_safe {α : Type} {o : Option α} {s : State} {f : α → State} (h : s.ms.safe) (hf : ∀ a, o = some a → (f a).ms.safe) : (o.elim s f).ms.safe := by
  cases o with
  | none => exact h
  | some a => exact hf a rfl

/-- The same of the first of two attempts that gives a state. -/
theorem orElse_safe {o p : Option State} (ho : ∀ n, o = some n → n.ms.safe) (hp : ∀ n, p = some n → n.ms.safe) : ∀ n, (o <|> p) = some n → n.ms.safe := by
  cases o with
  | none => exact hp
  | some a => exact ho

/-! ## Changes of bytes and of dirty lines -/

/-- The bytes and the dirty lines the same, whatever became of marks, ways and the granule. -/
theorem MemS.safe.congr {m k : MemS} (h : m.safe) (hmem : k.mem = m.mem) (hrc : k.rc = m.rc) : k.safe := by
  rw [MemS.safe, hmem, hrc]; exact h

/-- Bytes in their form and fewer dirty lines. -/
theorem MemS.safe.fewer {m k : MemS} (h : m.safe) (hmem : Memory.wf k.mem = true) (hrc : ∀ l, tget? m.rc l = none → tget? k.rc l = none) : k.safe :=
  ⟨hmem, fun l hl => hrc l (h.2 l hl)⟩

/-- A dirty line put into a region cache is one of HBM. -/
theorem MemS.safe.dirty {m k : MemS} (h : m.safe) {l : Nat} {x : Line} (hl : lineHbm l = true) (hmem : k.mem = m.mem) (hrc : k.rc = tins l x m.rc) : k.safe := by
  refine ⟨by rw [hmem]; exact h.1, fun j hj => ?_⟩
  rw [hrc, tget?_tins_other (by rintro rfl; simp_all)]
  exact h.2 j hj

/-! ## The smallest operations -/

section
variable {s : State} (h : s.ms.safe)
include h

theorem setThread_safe (t : Tid) (th : Thread) : (setThread s t th).ms.safe := h
theorem modThread_safe (t : Tid) (f : Thread → Thread) : (modThread s t f).ms.safe := h
theorem setCell_safe (c : Nat) (x : CellS) : (setCell s c x).ms.safe := h
theorem modCell_safe (c : Nat) (f : CellS → CellS) : (modCell s c f).ms.safe := h
theorem wx_safe (t : Tid) (r : Reg) (v : Word) : (wx s t r v).ms.safe := h
theorem drawFree_safe : (drawFree s).2.ms.safe := h
theorem emit_safe (o : Out) : (emit s o).ms.safe := h
theorem setReg_safe (r : RegName) (i : Nat) (v : Word) : (setReg s r i v).ms.safe := h
theorem setRf_safe (r : RegName) (f : Fld) (v : Nat) (i : Nat) : (setRf s r f v i).ms.safe := h
theorem seamPut_safe (o : Out) : (seamPut s o).ms.safe := h

theorem seamEmit_safe (o : Out) : (seamEmit s o).ms.safe := by
  grind [seamEmit, seamPut_safe]

theorem seamGot_safe (n : Nat) : (seamGot s n).ms.safe := by
  grind [seamGot]

theorem seamSend_safe (kind : String) (w : Word) (bs : List Byte) : (seamSend s kind w bs).ms.safe := by
  grind [seamSend, seamEmit_safe]

theorem bumpRf_safe (r : RegName) (f : Fld) (n : Nat) (i : Nat) : (bumpRf s r f n i).ms.safe := h
theorem setSel_safe (a : Agent) (r : RegName) (v : Word) : (setSel s a r v).ms.safe := h
theorem report_safe (r : ErrRec) : (report s r).ms.safe := h
theorem reportThread_safe (t : Tid) (cause : BitVec 8) (addr : Word) (d0 : Word) (d1 : Word) (d2 : Word) : (reportThread s t cause addr d0 d1 d2).ms.safe := h
theorem accessError_safe (a : Agent) (off : Nat) : (accessError s a off).ms.safe := h
theorem accessErrorBar_safe (bar off : Nat) : (accessErrorBar s bar off).ms.safe := h

theorem mmioGate_safe (a : Agent) (off : Nat) {f : State → State} (hf : ∀ q : State, q.ms.safe → (f q).ms.safe) : (mmioGate s a off f).ms.safe := by
  grind [mmioGate, accessError_safe]

theorem mmioCmd_safe (a : Agent) (off : Nat) {f : State → State} (hf : ∀ q : State, q.ms.safe → (f q).ms.safe) : (mmioCmd s a off f).ms.safe := by
  grind [mmioCmd, mmioGate_safe]

theorem tick_safe : (tick s).ms.safe := h

theorem collUpdate_safe (c : CollS) : ({ s with coll := c } : State).ms.safe := h
theorem hbmUpdate_safe (x : HbmS) : ({ s with hbm := x } : State).ms.safe := h
theorem mantleUpdate_safe (m : MantleS) : ({ s with mantle := m } : State).ms.safe := h

/-! ## Memory at its home -/

theorem rcTouch_safe (l : Nat) : (rcTouch s l).ms.safe := h.congr (rcTouch_mem s l) (rcTouch_sameHome s l).2.1

theorem rcDrop_safe (l : Nat) : (rcDrop s l).ms.safe := h

theorem storeLineIf_safe (dead : Bool) (l : Nat) (x : Line) : (storeLineIf dead s l x).ms.safe :=
  h.fewer (storeLineIf_wf dead s l x h.1) fun j hj => by rw [storeLineIf]; grind

theorem storeLine_safe (l : Nat) (x : Line) : (storeLine s l x).ms.safe := storeLineIf_safe h _ l x

theorem touchDeadIf_safe (dead : Bool) (l : Nat) : (touchDeadIf dead s l).ms.safe := by rw [touchDeadIf_ms]; exact h

theorem touchDead_safe (l : Nat) : (touchDead s l).ms.safe := touchDeadIf_safe h _ l

theorem writeBack_safe (l : Nat) : (writeBack s l).ms.safe :=
  h.fewer (writeBack_wf s l h.1) fun j hj => (writeBack_rc s l j).elim id fun e => e.trans hj

theorem noteRow_safe (key row : Nat) (atOnce : Bool) : (noteRow s key row atOnce).ms.safe := by rw [noteRow_ms]; exact h

theorem passEnded_safe (key : Nat) : (passEnded s key).ms.safe := h

theorem rowDone_safe (key row : Nat) : (rowDone s key row).ms.safe := h

theorem touchLatent_safe (l i : Nat) : (touchLatent s l i).ms.safe := h.congr (touchLatent_mem s l i) (touchLatent_sameHome s l i).2.1

theorem touchLine_safe (l : Nat) : (touchLine s l).ms.safe := h.congr (touchLine_mem s l) (touchLine_sameHome s l).2.1

theorem readLine_safe (l : Nat) : (readLine s l).2.ms.safe := h.congr (readLine_mem s l) (readLine_sameHome s l).2.1

theorem homeRead_safe (pa n : Nat) : (homeRead s pa n).2.ms.safe := h.congr (homeRead_mem s pa n) (homeRead_sameHome s pa n).2.1

theorem dropLatent_safe (l off n : Nat) : (dropLatent s l off n).ms.safe := by rw [dropLatent_ms]; exact h

theorem storeInjected_safe (l off n : Nat) : (storeInjected s l off n).ms.safe :=
  h.fewer (storeInjected_wf s l off n h.1) fun j => storeInjected_rc s l off n j

theorem readLineFrom_safe (d l : Nat) : (readLineFrom s d l).2.ms.safe := h.congr (readLineFrom_mem s d l) (readLineFrom_sameHome s d l).2.1

theorem homeReadFrom_safe (d pa n : Nat) : (homeReadFrom s d pa n).2.ms.safe := h.congr (homeReadFrom_mem s d pa n) (homeReadFrom_sameHome s d pa n).2.1

theorem homeWriteLine_ms_safe (l off : Nat) (bs : List Byte) (mark : Bool) : (homeWriteLine s l off bs mark).ms.safe := homeWriteLine_safe s h l off bs mark

theorem homeWrite_safe (pa : Nat) (bs : List Byte) (mark : Bool) : (homeWrite s pa bs mark).ms.safe := by
  grind [homeWrite, foldl_safe, homeWriteLine_ms_safe]

theorem homeWriteFrom_safe (d pa : Nat) (bs : List Byte) (mark : Bool) : (homeWriteFrom s d pa bs mark).ms.safe := by
  grind [homeWriteFrom, homeWrite_safe]

theorem dramLine_safe (l : Nat) : (dramLine s l).2.ms.safe := by
  grind [dramLine, foldl_safe, touchDeadIf_safe, touchLatent_safe]

theorem dramStore_safe (l off n : Nat) (x : Line) : (dramStore s l off n x).ms.safe := by
  grind [dramStore, storeInjected_safe, dropLatent_safe, storeLineIf_safe, touchDeadIf_safe]

/-- Lines dropped from the caches are among those that stood there. -/
theorem rcInvalidateRange_safe (pa n : Nat) : (rcInvalidateRange s pa n).ms.safe :=
  h.fewer h.1 fun j hj => by
    rw [rcInvalidateRange, tget?_filter_key (fun k => !(decide (pa < lineBase k + 128) && decide (lineBase k < pa + n))), hj, ite_self]

theorem rcDrain_safe (bank : Nat) : (rcDrain s bank).ms.safe :=
  (foldl_safe (fun _ l hq => writeBack_safe hq l) _ h).congr rfl rfl

end

end Sys2Proof.Machine
end

section
/-! PROOFS. Wakes, posts, counters, translations, caches, pegs and task queues keep the form of memory (R220). -/

namespace Sys2Proof.Machine

open Sys2Proof.Safety

section
variable {s : State} (h : s.ms.safe)
include h

/-! ## Posts, wakes and counters -/

theorem msixOut_safe (vec : Nat) : (msixOut s vec).ms.safe := h
theorem msixPost_safe (vec : Nat) : (msixPost s vec).ms.safe := by grind [msixPost]
theorem msixFlush_safe (vec : Nat) : (msixFlush s vec).ms.safe := by grind [msixFlush, msixOut_safe]
theorem msixSend_safe (vec : Nat) : (msixSend s vec).ms.safe := by grind [msixSend, msixFlush_safe, msixOut_safe]
theorem setClkBit_safe (f : Fld) (r : Nat) (b : Bool) : (setClkBit s f r b).ms.safe := h
theorem pllGo_safe (r : Nat) : (pllGo s r).ms.safe := by grind [pllGo]
theorem wakeCell_safe (c : Nat) : (wakeCell s c).ms.safe := by grind [wakeCell, pllGo_safe, modCell_safe]
theorem wakeHemWaiters_safe : (wakeHemWaiters s).ms.safe := by grind [wakeHemWaiters, wakeCell_safe, foldl_safe, foldl_pair_safe]
theorem postInt_safe (t : Tid) (n : Nat) : (postInt s t n).ms.safe := by grind [postInt, wakeCell_safe, modThread_safe]
theorem perfBump_safe (c j n : Nat) : (perfBump s c j n).ms.safe := by grind [perfBump, setRf_safe, emit_safe, msixPost_safe]

theorem perfEvent_safe (c : Nat) (ev : Nat) (thr : Option Nat) (n : Nat) : (perfEvent s c ev thr n).ms.safe := by
  grind [perfEvent, perfBump_safe, foldl_safe, foldl_pair_safe]

theorem execCounterOverflow_safe (c : Cid) (j : Fin 8) : nextSafe (execCounterOverflow c j s) := by grind [execCounterOverflow, nextSafe_next, perfBump_safe]
theorem execDeadlineFire_safe (t : Tid) : nextSafe (execDeadlineFire t s) := by grind [execDeadlineFire, nextSafe_next, postInt_safe, modThread_safe]

/-! ## The way to a home -/

theorem startHome_safe (l : Nat) : (startHome s l).ms.safe := by grind [startHome, pllGo_safe]
theorem drawTokens_safe (k p : Nat) : (drawTokens s k p).ms.safe := h
theorem stackTaken_safe (part l no : Nat) : (stackTaken s part l no).ms.safe := by grind [stackTaken, drawTokens_safe]
theorem stackServed_safe (c l no : Nat) : (stackServed s c l no).ms.safe := by grind [stackServed, stackTaken_safe]
theorem lineTaken_safe (c l : Nat) : (lineTaken s c l).ms.safe := by grind [lineTaken, drawTokens_safe, stackServed_safe]
theorem startLines_safe (ls : List Nat) : (startLines s ls).ms.safe := by grind [startLines, startHome_safe, foldl_safe, foldl_pair_safe]
theorem coreRead_safe (c pa n : Nat) : (coreRead s c pa n).2.ms.safe := by grind [coreRead, homeReadFrom_safe, lineTaken_safe, foldl_safe, foldl_pair_safe]
theorem coreLine_safe (c l : Nat) : (coreLine s c l).2.ms.safe := by grind [coreLine, readLineFrom_safe, lineTaken_safe]
theorem accessStarts_safe (pa n : Nat) : (accessStarts s pa n).ms.safe := by grind [accessStarts, startHome_safe, foldl_safe, foldl_pair_safe]
theorem accessDraws_safe (part pa n : Nat) : (accessDraws s part pa n).ms.safe := by grind [accessDraws, stackTaken_safe, foldl_safe, foldl_pair_safe]
theorem maintEnter_safe (k : Nat) : (maintEnter s k).ms.safe := by grind [maintEnter, setRf_safe]

theorem execBankQueueAging_safe (k : Fin 12) (ch : Fin 32) (pc : Fin 2) (bank : Fin 64) : nextSafe (execBankQueueAging k ch pc bank s) := by
  grind [execBankQueueAging, nextSafe_next, rcDrain_safe, foldl_safe, foldl_pair_safe]

/-! ## Translation -/

theorem asEntry_safe (c : Nat) (asid : BitVec 6) : (asEntry s c asid).2.ms.safe := by grind [asEntry, coreRead_safe]
theorem readPte_safe (c : Nat) (pa : Nat) (lvl : Nat) : (readPte s c pa lvl).2.ms.safe := by grind [readPte, modCell_safe, coreRead_safe]

/-- A walk goes down the levels, reading an entry at each. -/
theorem walkFrom_safe (c : Nat) (asid : BitVec 6) (unp : Bool) (va lvl table : Nat) : (walkFrom c asid unp va lvl table s).2.ms.safe := by
  induction lvl generalizing s table with
  | zero => grind [walkFrom, readPte_safe]
  | succ l ih => grind [walkFrom, readPte_safe]

theorem walk_safe (c : Nat) (asid : BitVec 6) (va : Nat) : (walk s c asid va).2.ms.safe := by unfold walk; grind [asEntry_safe, walkFrom_safe]
theorem findEnt_safe (c : Nat) (asid : BitVec 6) (va : Word) (k : Access) : (findEnt s c asid va k).2.ms.safe := by grind [findEnt, setCell_safe, walk_safe]
theorem fillTlbs_safe (c : Nat) (k : Access) (e : TlbEnt) (r : Except Exc Nat) : (fillTlbs s c k e r).ms.safe := by unfold fillTlbs; grind [modCell_safe]
theorem translate_safe (c : Nat) (x : XCtx) (va : Word) (k : Access) : (translate s c x va k).2.ms.safe := by grind [translate, findEnt_safe, fillTlbs_safe]

/-! ## The L1 and the victim cache -/

theorem earlyIf_safe (c : Nat) (x : CLine) : (earlyIf s c x).ms.safe := by grind [earlyIf, modCell_safe, perfEvent_safe]
theorem usefulIf_safe (c : Nat) (x : CLine) (demand : Bool) : (usefulIf s c x demand).ms.safe := by grind [usefulIf, perfEvent_safe]
theorem victimPut_safe (c : Nat) (x : CLine) : (victimPut s c x).ms.safe := by grind [victimPut, modCell_safe, earlyIf_safe]
theorem l1Fill_safe (c : Nat) (x : CLine) : (l1Fill s c x).ms.safe := by grind [l1Fill, modCell_safe, victimPut_safe]
theorem l1Lookup_safe (c : Nat) (l : Nat) (demand : Bool) : (l1Lookup s c l demand).2.ms.safe := by grind [l1Lookup, usefulIf_safe, modCell_safe, l1Fill_safe]
theorem l1Store_safe (c : Nat) (l off : Nat) (bs : List Byte) : (l1Store s c l off bs).ms.safe := by grind [l1Store, modCell_safe, usefulIf_safe]
theorem l1Drop_safe (c : Nat) (l : Nat) : (l1Drop s c l).ms.safe := h
theorem countCellCe_safe (c : Nat) : (countCellCe s c).ms.safe := by grind [countCellCe]
theorem coreErr_safe (c : Nat) (cause : BitVec 8) (addr : Word) : (coreErr s c cause addr).ms.safe := by grind [coreErr, report_safe, countCellCe_safe]
theorem l1Parity_safe (c l off n : Nat) : (l1Parity s c l off n).ms.safe := by grind [l1Parity, coreErr_safe, l1Drop_safe]
theorem flash_safe (c : Nat) : (flash s c).ms.safe := by grind [flash, earlyIf_safe, modCell_safe, foldl_safe, foldl_pair_safe]
theorem acquire_safe (c : Nat) : (acquire s c).ms.safe := by grind [acquire, flash_safe]
theorem applyUpdateTo_safe (c : Nat) (u : HemUpdate) : (applyUpdateTo s c u).ms.safe := by grind [applyUpdateTo, flash_safe, modCell_safe]

/-! ## Pegs -/

theorem finishArrive_safe (t : Tid) : (finishArrive s t).ms.safe := by grind [finishArrive, modThread_safe, wakeCell_safe, acquire_safe]
theorem finishWait_safe (t : Tid) : (finishWait s t).ms.safe := by grind [finishWait, modThread_safe, acquire_safe]
theorem leaveWaves_safe (t : Tid) : (leaveWaves s t).ms.safe := h
theorem pegNotify_safe (p v : Nat) : (pegNotify s p v).ms.safe := by grind [pegNotify, wakeCell_safe, finishArrive_safe, foldl_safe, foldl_pair_safe]
theorem pegPut_safe (p v : Nat) : (pegPut s p v).ms.safe := by grind [pegPut, pegNotify_safe]

theorem pegAddTo_safe (p : Nat) (d : Int) (who : Adder) : (pegAddTo s p d who).2.ms.safe := by
  grind [pegAddTo, pegPut_safe, setRf_safe, bumpRf_safe, postInt_safe, report_safe]

theorem watchPeg_safe (key p : Nat) (up : Bool) (x : Nat) : (watchPeg s key p up x).ms.safe := h
theorem unwatch_safe (key : Nat) : (unwatch s key).ms.safe := h
theorem pegValWrite_safe (a : Agent) (half : Half) (v : Word) : (pegValWrite s a half v).ms.safe := by unfold pegValWrite; grind [accessError_safe, pegPut_safe]
theorem pegAddWrite_safe (a : Agent) (half : Half) (v : Word) : (pegAddWrite s a half v).ms.safe := by unfold pegAddWrite; grind [accessError_safe, pegAddTo_safe]
theorem execPegWaitSatisfied_safe (t : Tid) : nextSafe (execPegWaitSatisfied t s) := by grind [execPegWaitSatisfied, nextSafe_next, finishWait_safe]

theorem execBarrierWaveRelease_safe : nextSafe (execBarrierWaveRelease s) := by
  grind [execBarrierWaveRelease, nextSafe_next, finishArrive_safe, foldl_safe, foldl_pair_safe]

/-! ## Task queues -/

theorem setQueue_safe (k : Nat) (q : List TqEnt) : (setQueue s k q).ms.safe := h
theorem admitHeld_safe (k : Nat) : (admitHeld s k).ms.safe := by grind [admitHeld, setQueue_safe]
theorem taskPush_safe (k desc : Nat) (agent : Option Agent) : (taskPush s k desc agent).ms.safe := by grind [taskPush, pllGo_safe, setQueue_safe]
theorem tqpushWrite_safe (a : Agent) (v : Word) : (tqpushWrite s a v).ms.safe := by grind [tqpushWrite, accessError_safe, taskPush_safe]

theorem taskEnd_safe (k desc code cellNo : Nat) (pegen : Bool) (peg : Nat) : (taskEnd s k desc code cellNo pegen peg).ms.safe := by
  grind [taskEnd, homeWrite_safe, bumpRf_safe, pegAddTo_safe]

theorem capoHeld_safe (c : Nat) : (capoHeld s c).ms.safe := by grind [capoHeld, modCell_safe]

theorem gainTiles_safe (t : Tid) (mine : BitVec 16) : (gainTiles s t mine).ms.safe := by
  grind [gainTiles, modCell_safe, capoHeld_safe, modThread_safe, foldl_safe, foldl_pair_safe]

theorem startThread_safe (t : Tid) (ws : List Word) (desc idx job : Nat) (spec : Option (BitVec 48)) : (startThread s t ws desc idx job spec).ms.safe := by
  grind [startThread, gainTiles_safe, setThread_safe, foldl_safe, foldl_pair_safe]

theorem dispatchTo_safe (k : Nat) (e : TqEnt) (ws : List Word) (c : Nat) (sp : Bool) : (dispatchTo s k e ws c sp).ms.safe := by
  grind [dispatchTo, startThread_safe, modCell_safe, admitHeld_safe, setQueue_safe, wakeCell_safe, acquire_safe, foldl_safe, foldl_pair_safe]

theorem execTaskDispatch_safe (r : Fin 12) : nextSafe (execTaskDispatch r s) := by grind [execTaskDispatch, nextSafe_next, dispatchTo_safe]
theorem wakeTarget_safe (k : Nat) (ws : List Word) : (wakeTarget s k ws).ms.safe := by grind [wakeTarget, wakeCell_safe]

theorem headDone_safe (k desc code : Nat) (w : Word) (peg : Bool) : (headDone s k desc code w peg).ms.safe := by
  grind [headDone, admitHeld_safe, setQueue_safe, taskEnd_safe]

theorem loseHead_safe (k : Nat) : (loseHead s k).ms.safe := by grind [loseHead, headDone_safe]
theorem loseHeads_safe (r : Nat) : (loseHeads s r).ms.safe := by grind [loseHeads, loseHead_safe, foldl_safe, foldl_pair_safe]

theorem execDescriptorHeadCheck_safe (r : Fin 12) (qn : Fin 64) : nextSafe (execDescriptorHeadCheck r qn s) := by
  grind [execDescriptorHeadCheck, nextSafe_next, headDone_safe, homeRead_safe, asEntry_safe, wakeTarget_safe, setQueue_safe]

theorem execTaskComplete_safe (j : Nat) : nextSafe (execTaskComplete j s) := by grind [execTaskComplete, nextSafe_next, taskEnd_safe]
theorem stopThread_safe (t : Tid) : (stopThread s t).ms.safe := by grind [stopThread, modThread_safe, leaveWaves_safe, capoHeld_safe, modCell_safe]
theorem commitRuns_safe (step : BitVec 48) : (commitRuns s step).ms.safe := h
theorem requeueSpec_safe : (requeueSpec s).ms.safe := by grind [requeueSpec, setQueue_safe, foldl_safe, foldl_pair_safe]
theorem execDevTqpush_safe (a : Agent) (v : Word) : nextSafe (execDevTqpush a v s) := by grind [execDevTqpush, nextSafe_next, mmioCmd_safe, tqpushWrite_safe]

end

end Sys2Proof.Machine
end

section
/-! PROOFS. Engines, Ethernet senders, power, the collective engine, Feed, DMA, the hem and roll call keep the form of memory (R220). -/

namespace Sys2Proof.Machine

open Sys2Proof.Safety

section
variable {s : State} (h : s.ms.safe)
include h

/-! ## What the part's engines share -/

/-- A span is mapped page by page. -/
theorem mapSpanFrom_safe (c : Nat) (x : XCtx) (k : Access) (f va n : Nat) : (mapSpanFrom c x k f va n s).2.ms.safe := by
  induction f generalizing s va n with
  | zero => exact h
  | succ f ih => unfold mapSpanFrom; grind [translate_safe]

theorem mapSpan_safe (c : Nat) (x : XCtx) (k : Access) (va n : Nat) : (mapSpan s c x k va n).2.ms.safe := by unfold mapSpan; grind [mapSpanFrom_safe]
theorem readMarked_safe (d pa n : Nat) : (readMarked s d pa n).2.ms.safe := by grind [readMarked, readLineFrom_safe, foldl_safe, foldl_pair_safe]

theorem writeMarked_safe (d pa : Nat) (l : List (Byte × Bool)) : (writeMarked s d pa l).ms.safe := by
  grind [writeMarked, homeWriteFrom_safe, foldl_safe, foldl_pair_safe]

theorem readPieces_safe (d : Nat) (ps : List (Nat × Nat)) : (readPieces d ps s).2.ms.safe := by grind [readPieces, readMarked_safe, foldl_safe, foldl_pair_safe]

theorem writePieces_safe (d : Nat) (ps : List (Nat × Nat)) (l : List (Byte × Bool)) : (writePieces d ps l s).ms.safe := by
  induction ps generalizing s l with
  | nil => exact h
  | cons p t ih => exact ih (writeMarked_safe h d p.1 _) _

theorem drawPieces_safe (ps : List (Nat × Nat)) : (drawPieces s ps).ms.safe := by grind [drawPieces, accessDraws_safe, foldl_safe, foldl_pair_safe]
theorem spanRead_safe (c : Nat) (x : XCtx) (va n : Nat) : (spanRead s c x va n).2.ms.safe := by grind [spanRead, mapSpan_safe, readPieces_safe, drawPieces_safe]

theorem spanWrite_safe (c : Nat) (x : XCtx) (va : Nat) (l : List (Byte × Bool)) : (spanWrite s c x va l).2.ms.safe := by
  unfold spanWrite; grind [mapSpan_safe, writePieces_safe, drawPieces_safe]

theorem modLstack_safe (k : Nat) (f : LStack → LStack) : (modLstack s k f).ms.safe := h
theorem lpush_safe (k : Nat) (e : LEnt) : (lpush s k e).ms.safe := h
theorem qpushWrite_safe (a : Agent) (v : Word) : (qpushWrite s a v).ms.safe := by unfold qpushWrite; grind [accessError_safe, lpush_safe]
theorem execLiningQpush_safe (a : Agent) (v : Word) : nextSafe (execLiningQpush a v s) := by grind [execLiningQpush, nextSafe_next, mmioCmd_safe, qpushWrite_safe]
theorem readWords8_safe (part pa : Nat) : (readWords8 s part pa).2.ms.safe := by grind [readWords8, homeRead_safe, accessDraws_safe]

theorem liningEnd_safe (k : Nat) (desc : Nat) (ws : List Word) (code : Nat) (elem : Nat) (record : List Byte) (eng : Nat) :
    (liningEnd s k desc ws code elem record eng).ms.safe := by
  grind [liningEnd, homeWrite_safe, accessDraws_safe, report_safe, bumpRf_safe, pegAddTo_safe]

theorem discardLining_safe : (discardLining s).ms.safe := by grind [discardLining, readWords8_safe, liningEnd_safe, modLstack_safe, foldl_safe, foldl_pair_safe]

/-! ## Ethernet senders -/

theorem askHop_safe (p : Nat) (gid : List Byte) : (askHop s p gid).ms.safe := h
theorem pfcShow_safe (p : Nat) : (pfcShow s p).ms.safe := h
theorem pfcFrame_safe (p prio : Nat) : (pfcFrame s p prio).ms.safe := h
theorem pfcStage_safe (assert : Bool) : (pfcStage s assert).ms.safe := by grind [pfcStage, pfcShow_safe, pfcFrame_safe, foldl_safe, foldl_pair_safe]
theorem netTry_safe (w : NetWait) : (netTry s w).ms.safe := by grind [netTry, emit_safe]
theorem netSend_safe (p prio : Nat) (gid : List Byte) (o : Out) : (netSend s p prio gid o).ms.safe := by grind [netSend, netTry_safe, askHop_safe]
theorem releaseNet_safe : (releaseNet s).ms.safe := by grind [releaseNet, netTry_safe, foldl_safe, foldl_pair_safe]

/-! ## The power controller -/

theorem setLim_safe (r c v : Nat) : (setLim s r c v).ms.safe := h
theorem refreshReasons_safe : (refreshReasons s).ms.safe := by grind [refreshReasons, setRf_safe, foldl_safe, foldl_pair_safe]
theorem setForced_safe (r by' : Nat) : (setForced s r by').ms.safe := h

/-- A region's step is lowered, then those of the neighbours that it forces. -/
theorem lowerFrom_safe (f root r k : Nat) : (lowerFrom f root r k s).ms.safe := by
  induction f generalizing s r k with
  | zero => exact h
  | succ f ih => unfold lowerFrom; grind [foldl_safe, setForced_safe, setLim_safe, setRf_safe]

theorem settleDown_safe (r : Nat) : (settleDown s r).ms.safe := by unfold settleDown; grind [refreshReasons_safe, lowerFrom_safe]
theorem nbLimit_safe (r : Nat) : (nbLimit s r).ms.safe := by grind [nbLimit, setForced_safe, setLim_safe]
theorem tryRise_safe (r watts : Nat) : (tryRise s r watts).ms.safe := by grind [tryRise, nbLimit_safe, refreshReasons_safe, setRf_safe]

theorem execStepChange_safe (r : Fin 12) (target : BitVec 4) (watts : Nat) : nextSafe (execStepChange r target watts s) := by
  grind [execStepChange, nextSafe_next, refreshReasons_safe, lowerFrom_safe, nbLimit_safe, setRf_safe]

theorem execUpwardChangeRetry_safe (r : Fin 12) (watts : Nat) : nextSafe (execUpwardChangeRetry r watts s) := by
  grind [execUpwardChangeRetry, nextSafe_next, tryRise_safe]

theorem execPowerSample_safe (ch : Fin 16) (p10 p100 : BitVec 16) : nextSafe (execPowerSample ch p10 p100 s) := by grind [execPowerSample, nextSafe_next, setRf_safe]
theorem setLever_safe (ch n : Nat) : (setLever s ch n).ms.safe := by grind [setLever, setRf_safe]

theorem execPeakLever_safe (ch : Fin 17) : nextSafe (execPeakLever ch s) := by
  grind [execPeakLever, nextSafe_next, settleDown_safe, setLim_safe, setLever_safe, foldl_safe, foldl_pair_safe]

theorem execPeakRelease_safe (ch : Fin 17) : nextSafe (execPeakRelease ch s) := by
  grind [execPeakRelease, nextSafe_next, setLever_safe, tryRise_safe, setLim_safe, foldl_safe, foldl_pair_safe]

theorem execAverageLimitDrop_safe (g : Fin 3) (mean : BitVec 16) : nextSafe (execAverageLimitDrop g mean s) := by
  grind [execAverageLimitDrop, nextSafe_next, setRf_safe, settleDown_safe, setLim_safe]

theorem execAverageLimitRaise_safe (g : Fin 3) (mean : BitVec 16) : nextSafe (execAverageLimitRaise g mean s) := by
  grind [execAverageLimitRaise, nextSafe_next, setRf_safe, tryRise_safe, setLim_safe]

theorem flashProg_safe (at' : Nat) (bs : List Byte) : (flashProg s at' bs).ms.safe := h
theorem flashStore_safe (at' : Nat) (bs : List Byte) : (flashStore s at' bs).ms.safe := h
theorem enterRefresh_safe : (enterRefresh s).ms.safe := by grind [enterRefresh, setRf_safe, foldl_safe, foldl_pair_safe]
theorem stopPart_safe : (stopPart s).ms.safe := by grind [stopPart, enterRefresh_safe, setRf_safe, emit_safe, foldl_safe, foldl_pair_safe]
theorem shutdown_safe (cause : BitVec 8) (d0 : Nat) : (shutdown s cause d0).ms.safe := by grind [shutdown, report_safe, stopPart_safe, flashStore_safe]
theorem setTemp_safe (r t : Nat) : (setTemp s r t).ms.safe := h

theorem execThermalThrottle_safe (r : Fin 12) (temp : BitVec 7) : nextSafe (execThermalThrottle r temp s) := by
  grind [execThermalThrottle, nextSafe_next, setTemp_safe, settleDown_safe, setLim_safe]

theorem execThermalRecovery_safe (r : Fin 12) (temp : BitVec 7) : nextSafe (execThermalRecovery r temp s) := by
  grind [execThermalRecovery, nextSafe_next, setTemp_safe, tryRise_safe, setLim_safe]

theorem execThermalTrip_safe (r : Fin 12) (temp : BitVec 7) : nextSafe (execThermalTrip r temp s) := by
  grind [execThermalTrip, nextSafe_next, setTemp_safe, shutdown_safe]

theorem execNeighbourTemperatureDrop_safe (r n : Fin 12) (tr tn : BitVec 7) : nextSafe (execNeighbourTemperatureDrop r n tr tn s) := by
  grind [execNeighbourTemperatureDrop, nextSafe_next, setTemp_safe, settleDown_safe, setForced_safe, setLim_safe, tryRise_safe]

theorem execDroopStretch_safe (b : Fin 96) : nextSafe (execDroopStretch b s) := by grind [execDroopStretch, nextSafe_next, bumpRf_safe]
theorem execDroopRecovery_safe (b : Fin 96) : nextSafe (execDroopRecovery b s) := by grind [execDroopRecovery, nextSafe_next]
theorem leaveRefresh_safe : (leaveRefresh s).ms.safe := by grind [leaveRefresh, setRf_safe, maintEnter_safe, foldl_safe, foldl_pair_safe]

theorem enterStage_safe (ch sag k : Nat) : (enterStage s ch sag k).ms.safe := by
  grind [enterStage, bumpRf_safe, setRf_safe, report_safe, settleDown_safe, setLim_safe, pfcStage_safe, enterRefresh_safe, shutdown_safe, foldl_safe,
      foldl_pair_safe]

theorem execShedStageEnter_safe (ch : Fin 16) (sag : BitVec 10) : nextSafe (execShedStageEnter ch sag s) := by
  grind [execShedStageEnter, nextSafe_next, setRf_safe, enterStage_safe]

theorem execShedStageClear_safe (sag : BitVec 10) : nextSafe (execShedStageClear sag s) := by
  grind [execShedStageClear, nextSafe_next, setRf_safe, leaveRefresh_safe, pfcStage_safe, tryRise_safe, setLim_safe, foldl_safe, foldl_pair_safe]

theorem execAvsNoAck_safe (ch : Fin 16) : nextSafe (execAvsNoAck ch s) := by grind [execAvsNoAck, nextSafe_next, enterStage_safe]
theorem execPwrgdDeassert_safe : nextSafe (execPwrgdDeassert s) := by grind [execPwrgdDeassert, nextSafe_next, stopPart_safe]
theorem execAonclkLoss_safe : nextSafe (execAonclkLoss s) := by grind [execAonclkLoss, nextSafe_next, shutdown_safe]
theorem execRailOutOfRange_safe : nextSafe (execRailOutOfRange s) := by grind [execRailOutOfRange, nextSafe_next, emit_safe]
theorem execRailBackInRange_safe : nextSafe (execRailBackInRange s) := by grind [execRailBackInRange, nextSafe_next, emit_safe]
theorem addRepair_safe (r : RepairEnt) : (addRepair s r).ms.safe := by grind [addRepair, setRf_safe]
theorem applyAgeing_safe (r : Nat) : (applyAgeing s r).ms.safe := h
theorem recordTrim_safe (r t : Nat) : (recordTrim s r t).ms.safe := by grind [recordTrim, addRepair_safe]

theorem execTunerReplan_safe (r : Fin 12) (slackFails slowOsc : Bool) : nextSafe (execTunerReplan r slackFails slowOsc s) := by
  grind [execTunerReplan, nextSafe_next, setRf_safe, recordTrim_safe, report_safe, settleDown_safe, nbLimit_safe, applyAgeing_safe]

/-! ## The collective engine -/

theorem modCb_safe (b : Nat) (f : CBucket → CBucket) : (modCb s b f).ms.safe := h
theorem collCount_safe (ev : Nat) (n : Nat) : (collCount s ev n).ms.safe := h
theorem collFault_safe (b kind shard rank : Nat) : (collFault s b kind shard rank).ms.safe := h
theorem btEnt_safe (b : Nat) : (btEnt s b).2.ms.safe := by grind [btEnt, readWords8_safe]
theorem stopBucket_safe (b shard : Nat) : (stopBucket s b shard).ms.safe := h
theorem shardScales_safe (e : BtEnt) (i : Nat) : (shardScales s e i).2.ms.safe := by grind [shardScales, spanRead_safe]
theorem encodeShard_safe (e : BtEnt) (i : Nat) : (encodeShard s e i).2.ms.safe := by grind [encodeShard, shardScales_safe, spanRead_safe]
theorem sendOn_safe (port dst : Nat) (m : Msg) : (sendOn s port dst m).ms.safe := by grind [sendOn, collCount_safe, emit_safe]
theorem sendTo_safe (dst : Nat) (m : Msg) : (sendTo s dst m).ms.safe := by grind [sendTo, sendOn_safe]
theorem releaseSends_safe : (releaseSends s).ms.safe := by grind [releaseSends, sendOn_safe, foldl_safe, foldl_pair_safe]
theorem releaseAll_safe : (releaseAll s).ms.safe := by grind [releaseAll, releaseNet_safe, releaseSends_safe]
theorem sendAll_safe (m : Msg) : (sendAll s m).ms.safe := by grind [sendAll, sendTo_safe, foldl_safe, foldl_pair_safe]
theorem sendNext_safe (port rank : Nat) (m : Msg) : (sendNext s port rank m).ms.safe := by grind [sendNext, collCount_safe, sendOn_safe]
theorem execRetryExhausted_safe (j : Nat) : nextSafe (execRetryExhausted j s) := by grind [execRetryExhausted, nextSafe_next, sendNext_safe]
theorem redWrite_safe (e : BtEnt) (i : Nat) (bs : List Byte) : (redWrite s e i bs).2.ms.safe := by grind [redWrite, shardScales_safe, spanWrite_safe]
theorem bucketDone_safe (b : Nat) (e : BtEnt) : (bucketDone s b e).ms.safe := by grind [bucketDone, modCb_safe, pegAddTo_safe]
theorem markShard_safe (b i : Nat) (e : BtEnt) (r : ShardRes) : (markShard s b i e r).ms.safe := by grind [markShard, modCb_safe, bucketDone_safe]

theorem resolveOwn_safe (b : Nat) (e : BtEnt) (r : ShardRes) (payload : List Byte) (clips : Nat) : (resolveOwn s b e r payload clips).ms.safe := by
  grind [resolveOwn, markShard_safe, sendAll_safe]

theorem gatherOwn_safe (b : Nat) (e : BtEnt) (res0 : Word) (clips : Nat) : (gatherOwn s b e res0 clips).ms.safe := by
  grind [gatherOwn, spanRead_safe, stopBucket_safe, resolveOwn_safe, shardScales_safe, redWrite_safe]

/-- The header's bytes are generalized before the writes are looked at: their number is fixed, and the kernel would run the writes. -/
theorem placeSlot_safe (b : Nat) (e : BtEnt) (k : Nat) (m : Msg) : (placeSlot s b e k m).ms.safe := by
  have hw := spanWrite_safe h collCore (collX s e)
  rw [← memorySafe_iff]
  generalize hf : placeSlot = f
  delta placeSlot at hf
  subst hf
  beta_reduce
  generalize hdrBytes m = bs
  grind [spanWrite_safe, stopBucket_safe, memorySafe_iff]

theorem takeContrib_safe (b : Nat) (e : BtEnt) (src : Nat) (m : Msg) : (takeContrib s b e src m).ms.safe := by
  grind [takeContrib, collCount_safe, placeSlot_safe, modCb_safe, resolveOwn_safe]

theorem tryPair_safe (b : Nat) (e : BtEnt) (i : Nat) : (tryPair s b e i).ms.safe := by
  grind [tryPair, shardScales_safe, stopBucket_safe, collCount_safe, modCb_safe, takeContrib_safe, sendTo_safe]

theorem contribute_safe (b : Nat) (e : BtEnt) (i : Nat) : (contribute s b e i).ms.safe := by
  grind [contribute, encodeShard_safe, stopBucket_safe, collCount_safe, tryPair_safe, modCb_safe, seamSend_safe, takeContrib_safe, sendTo_safe]

theorem runPost_safe (b : Nat) : (runPost s b).ms.safe := by grind [runPost, collCount_safe, modCb_safe, btEnt_safe, contribute_safe, foldl_safe, foldl_pair_safe]
theorem releasePosts_safe : (releasePosts s).ms.safe := by grind [releasePosts, runPost_safe, foldl_safe, foldl_pair_safe]
theorem collPostWrite_safe (a : Agent) (v : Word) : (collPostWrite s a v).ms.safe := by grind [collPostWrite, accessError_safe, runPost_safe]
theorem execCollPost_safe (a : Agent) (v : Word) : nextSafe (execCollPost a v s) := by grind [execCollPost, nextSafe_next, mmioCmd_safe, collPostWrite_safe]
theorem noteDrift_safe (m : Msg) : (noteDrift s m).ms.safe := by grind [noteDrift, setReg_safe, report_safe]
theorem heardFrom_safe : (heardFrom s).ms.safe := h

theorem receive_safe (type : Nat) (port : Option Nat) (m : Msg) {k : BtEnt → State → State} (hk : ∀ e (q : State), q.ms.safe → (k e q).ms.safe) :
    (receive s type port m k).ms.safe := by
  unfold receive; grind [btEnt_safe, collCount_safe, collFault_safe, netSend_safe, seamSend_safe, modCb_safe, heardFrom_safe, noteDrift_safe]

theorem execContrib_safe (port : Fin 4) (m : Msg) : nextSafe (execContrib port m s) := by grind [execContrib, nextSafe_next, receive_safe, takeContrib_safe]
theorem takeAllgather_safe (e : BtEnt) (m : Msg) : (takeAllgather s e m).ms.safe := by grind [takeAllgather, markShard_safe, redWrite_safe, stopBucket_safe]
theorem execAllgather_safe (port : Fin 4) (m : Msg) : nextSafe (execAllgather port m s) := by grind [execAllgather, nextSafe_next, receive_safe, takeAllgather_safe]
theorem execPace_safe (port : Fin 4) (m : Msg) : nextSafe (execPace port m s) := by grind [execPace, nextSafe_next, receive_safe]
theorem execPaceSend_safe : nextSafe (execPaceSend s) := by grind [execPaceSend, nextSafe_next, sendTo_safe, foldl_safe, foldl_pair_safe]
theorem execSeamMsg_safe (m : Msg) : nextSafe (execSeamMsg m s) := by grind [execSeamMsg, nextSafe_next, receive_safe, seamGot_safe, tryPair_safe, modCb_safe]

theorem execPairDeadlineExpiry_safe (b : BitVec 12) (shard : BitVec 16) : nextSafe (execPairDeadlineExpiry b shard s) := by
  grind [execPairDeadlineExpiry, nextSafe_next, btEnt_safe, modCb_safe, takeContrib_safe, sendTo_safe]

theorem execOrdsumPassStart_safe (b : BitVec 12) : nextSafe (execOrdsumPassStart b s) := by
  grind [execOrdsumPassStart, nextSafe_next, btEnt_safe, translate_safe, stopBucket_safe, modCb_safe, lpush_safe]

theorem passFailed_safe (b : Nat) : (passFailed s b).ms.safe := h

theorem passEnd_safe (key code : Nat) (nonfin : Bool) (res0 : Word) (wclip : Nat) : (passEnd s key code nonfin res0 wclip).ms.safe := by
  grind [passEnd, modCb_safe, btEnt_safe, resolveOwn_safe, passFailed_safe]

theorem execFinalPassComplete_safe (b : BitVec 12) : nextSafe (execFinalPassComplete b s) := by
  grind [execFinalPassComplete, nextSafe_next, btEnt_safe, passFailed_safe, collCount_safe, modCb_safe, resolveOwn_safe, gatherOwn_safe]

theorem execShardDeadlineExpiry_safe (b : BitVec 12) : nextSafe (execShardDeadlineExpiry b s) := by
  grind [execShardDeadlineExpiry, nextSafe_next, btEnt_safe, resolveOwn_safe]

theorem countVoids_safe : (countVoids s).ms.safe := by grind [countVoids, report_safe, setReg_safe, foldl_safe, foldl_pair_safe]
theorem recordLast_safe : (recordLast s).ms.safe := by grind [recordLast, setReg_safe]
theorem paceFollow_safe : (paceFollow s).ms.safe := by grind [paceFollow, setRf_safe, settleDown_safe, setLim_safe, tryRise_safe, foldl_safe, foldl_pair_safe]
theorem latchColl_safe : (latchColl s).ms.safe := h
theorem nextGen_safe : (nextGen s).ms.safe := h

theorem refreshScales_safe : (refreshScales s).ms.safe := by
  grind [refreshScales, btEnt_safe, shardScales_safe, stopBucket_safe, spanWrite_safe, foldl_safe, foldl_pair_safe]

/-- Bucket by bucket and shard by shard the scales are read, the shard is read, and its new scales are written. -/
theorem updateScales_safe : (updateScales s).ms.safe := by
  unfold updateScales
  split
  · exact h
  · refine foldl_safe (fun q b hq => ?_) _ h
    have hb := btEnt_safe hq b
    generalize btEnt q b = z at hb ⊢
    refine foldl_safe (fun q i hq => ?_) _ hb
    dsimp only
    have hs := shardScales_safe hq z.1 i
    generalize shardScales q z.1 i = y at hs ⊢
    obtain ⟨_ | cur, q1⟩ := y
    · exact stopBucket_safe hs b i
    dsimp only
    generalize hy : spanRead q1 collCore (collX q1 z.1) _ _ = y
    have hr : y.2.ms.safe := hy ▸ spanRead_safe hs ..
    obtain ⟨_ | l, q2⟩ := y
    · exact stopBucket_safe hr b i
    dsimp only
    generalize hy : spanWrite q2 collCore (collX q2 z.1 true) _ _ = y
    have hw : y.2.ms.safe := hy ▸ spanWrite_safe hr ..
    obtain ⟨_ | _, q3⟩ := y
    · exact hw
    · exact stopBucket_safe hw b i

/-! ## Feed and the drives -/

theorem mantleRead_safe (pa n : Nat) : (mantleRead s pa n).2.ms.safe := by grind [mantleRead, homeRead_safe, accessDraws_safe]
theorem mantleWrite_safe (pa : Nat) (bs : List Byte) : (mantleWrite s pa bs).ms.safe := by grind [mantleWrite, homeWrite_safe, accessDraws_safe]

theorem nvmeCmd_safe (l op : Nat) (kind : String) (prp at' n : Nat) (data : List Byte) : (nvmeCmd s l op kind prp at' n data).ms.safe := by
  rw [nvmeCmd]
  exact emit_safe (mantleUpdate_safe (mantleWrite_safe h _ _) _) _

theorem nvmeRead_safe (l prp at' n : Nat) : (nvmeRead s l prp at' n).ms.safe := by grind [nvmeRead, nvmeCmd_safe]
theorem nvmeWrite_safe (l at' : Nat) (data : List Byte) : (nvmeWrite s l at' data).ms.safe := by grind [nvmeWrite, nvmeCmd_safe]
theorem nvmeFlush_safe (l : Nat) : (nvmeFlush s l).ms.safe := by grind [nvmeFlush, nvmeCmd_safe]

theorem feedSlot_safe (i : Nat) (f : Feed) : (feedSlot s i f).ms.safe := by
  rw [feedSlot]
  exact mantleUpdate_safe (setRf_safe (mantleWrite_safe (mantleWrite_safe h _ _) _ _) _ _ _ _) _

theorem feedAsk_safe (i : Nat) (f : Feed) : (feedAsk s i f).ms.safe := by
  rw [feedAsk]
  have hq := foldl_fst_safe (f := fun (a : State × Nat) (p : Nat × Nat) => (nvmeRead a.1 f.link (slotPlace f f.asked + a.2) (4096 * f.srcBase + p.1) p.2, a.2 + p.2))
    (fun _ _ hq => nvmeRead_safe hq _ _ _ _) (slotPieces f f.asked) (q := (s, 0)) h
  exact mantleUpdate_safe hq _

theorem feedFill_safe (n i : Nat) : (feedFill n i s).ms.safe := by
  induction n generalizing s with
  | zero => exact h
  | succ n ih => unfold feedFill; grind [feedSlot_safe, feedAsk_safe]

theorem feedNext_safe (i : Nat) : (feedNext s i).ms.safe := by unfold feedNext; grind [feedFill_safe]
theorem feedDone_safe (ch : Nat) : (feedDone s ch).ms.safe := by grind [feedDone, feedNext_safe, foldl_safe, foldl_pair_safe]
theorem feedRead_safe (l : Nat) : (feedRead s l).ms.safe := by grind [feedRead, feedNext_safe, feedSlot_safe]
theorem feedStart_safe (i : Nat) (f : Feed) : (feedStart s i f).ms.safe := by grind [feedStart, setReg_safe, setRf_safe, feedNext_safe]

/-! ## DMA -/

theorem setDmaSel_safe (u : DmaUnit) (a : Agent) (v : Word) : (setDmaSel s u a v).ms.safe := h
theorem modChan_safe (ch : Nat) (f : DmaChan → DmaChan) : (modChan s ch f).ms.safe := h
theorem setChState_safe (ch v : Nat) : (setChState s ch v).ms.safe := h

theorem readEntries_safe (pa n : Nat) : (readEntries s pa n).2.2.ms.safe := by
  induction n generalizing s pa with
  | zero => exact h
  | succ n ih => unfold readEntries; grind [homeRead_safe]

theorem readList_safe (part pa n : Nat) : (readList s part pa n).2.2.ms.safe := by unfold readList; grind [readEntries_safe, accessDraws_safe]

theorem dmaFinish_safe (ch : Nat) (r : DmaRun) (code residue : Nat) : (dmaFinish s ch r code residue).ms.safe := by
  grind [dmaFinish, homeWrite_safe, accessDraws_safe, pegAddTo_safe, emit_safe, msixPost_safe, report_safe]

theorem ciNext_safe (ch : Nat) : (ciNext s ch).ms.safe := h

theorem dmaEnd_safe (ch : Nat) (r : DmaRun) (code residue st : Nat) : (dmaEnd s ch r code residue st).ms.safe := by
  grind [dmaEnd, setChState_safe, ciNext_safe, modChan_safe, dmaFinish_safe]

theorem pauseChan_safe (ch : Nat) : (pauseChan s ch).ms.safe := h
theorem startDesc_safe (ch : Nat) : (startDesc s ch).ms.safe := by grind [startDesc, readWords8_safe, setChState_safe, modChan_safe, readList_safe]

theorem execDmaDescriptorStart_safe (ch : Fin 256) : nextSafe (execDmaDescriptorStart ch s) := by
  grind [execDmaDescriptorStart, nextSafe_next, pauseChan_safe, startDesc_safe, accessStarts_safe, foldl_safe, foldl_pair_safe]

theorem dmaAddr_safe (ch : Nat) (r : DmaRun) (virt : Bool) (a : Nat) (k : Access) : (dmaAddr s ch r virt a k).2.ms.safe := by grind [dmaAddr, translate_safe]
theorem modRun_safe (ch : Nat) (f : DmaRun → DmaRun) : (modRun s ch f).ms.safe := h

theorem dmaPut_safe (ch : Nat) (r : DmaRun) (pa : Nat) (l : List (Byte × Bool)) : (dmaPut s ch r pa l).ms.safe := by
  grind [dmaPut, seamSend_safe, seamEmit_safe, emit_safe, writeMarked_safe]

theorem busStop_safe (failed : Option Nat) (ch : Nat) : (busStop s failed ch).ms.safe := by
  grind [busStop, modChan_safe, dmaFinish_safe, setChState_safe, modRun_safe]

theorem dmaBusErr_safe (e : Nat) (failed : Option Nat) (cause : Nat) (addr : Option Nat) : (dmaBusErr s e failed cause addr).ms.safe := by
  unfold dmaBusErr; grind [setReg_safe, busStop_safe, foldl_safe, foldl_pair_safe]

theorem burstAddr_safe (ch : Nat) (r : DmaRun) : (burstAddr s ch r).2.ms.safe := by grind [burstAddr, dmaAddr_safe]
theorem dmaPathLost_safe (e cause : Nat) (lost : Nat → Bool) : (dmaPathLost s e cause lost).ms.safe := by grind [dmaPathLost, dmaBusErr_safe]
theorem tookTurn_safe (ch : Nat) : (tookTurn s ch).ms.safe := h

theorem execDmaBusError_safe (ch : Fin 256) (cause : BitVec 3) : nextSafe (execDmaBusError ch cause s) := by
  grind [execDmaBusError, nextSafe_next, burstAddr_safe, dmaBusErr_safe]

theorem execDmaBurstComplete_safe (ch : Fin 256) (arrived : List Byte) (poisoned : Bool) : nextSafe (execDmaBurstComplete ch arrived poisoned s) := by
  unfold execDmaBurstComplete
  rw [nextSafe_next]
  split
  · exact h
  split
  · exact h
  split
  · exact h
  split
  · grind [dmaAddr_safe, modRun_safe]
  split
  · grind [dmaAddr_safe, modRun_safe]
  grind [modRun_safe, dmaAddr_safe, dmaBusErr_safe, tookTurn_safe, accessStarts_safe, accessDraws_safe, readMarked_safe, emit_safe, dmaPut_safe]

theorem execDmaDescriptorComplete_safe (ch : Fin 256) : nextSafe (execDmaDescriptorComplete ch s) := by
  grind [execDmaDescriptorComplete, nextSafe_next, feedDone_safe, dmaEnd_safe]

theorem piWrite_safe (a : Agent) (u : DmaUnit) (page : Option (Fin 32)) (v : Word) : (piWrite s a u page v).ms.safe := by
  unfold piWrite; grind [accessError_safe, accessErrorBar_safe, setRf_safe, pllGo_safe, modChan_safe]

theorem execDmaPiDoorbell_safe (a : Agent) (u : DmaUnit) (page : Option (Fin 32)) (v : Word) : nextSafe (execDmaPiDoorbell a u page v s) := by
  grind [execDmaPiDoorbell, nextSafe_next, accessErrorBar_safe, mmioCmd_safe, piWrite_safe]

theorem paceWrite_safe (a : Agent) (u : DmaUnit) (v : Word) : (paceWrite s a u v).ms.safe := by
  grind [paceWrite, accessError_safe, setRf_safe, modChan_safe, setReg_safe, setChState_safe, unwatch_safe, pauseChan_safe]

theorem execDmaPaceWrite_safe (a : Agent) (u : DmaUnit) (v : Word) : nextSafe (execDmaPaceWrite a u v s) := by
  grind [execDmaPaceWrite, nextSafe_next, mmioCmd_safe, paceWrite_safe]

theorem execDmaPaceResume_safe (ch : Fin 256) : nextSafe (execDmaPaceResume ch s) := by
  grind [execDmaPaceResume, nextSafe_next, setChState_safe, modChan_safe, unwatch_safe]

theorem abortChan_safe (ch : Nat) : (abortChan s ch).ms.safe := by grind [abortChan, modChan_safe, dmaEnd_safe, setChState_safe, unwatch_safe]
theorem restartChan_safe (ch : Nat) : (restartChan s ch).ms.safe := by grind [restartChan, setChState_safe]

theorem execDmaAbort_safe (a : Agent) (u : DmaUnit) : nextSafe (execDmaAbort a u s) := by
  grind [execDmaAbort, nextSafe_next, mmioCmd_safe, abortChan_safe, accessError_safe]

theorem execDmaRestart_safe (a : Agent) (u : DmaUnit) : nextSafe (execDmaRestart a u s) := by
  grind [execDmaRestart, nextSafe_next, mmioCmd_safe, restartChan_safe, accessError_safe]

theorem chctlWrite_safe (a : Agent) (u : DmaUnit) (v : Word) : (chctlWrite s a u v).ms.safe := by
  grind [chctlWrite, accessError_safe, setRf_safe, abortChan_safe, restartChan_safe]

theorem ringWrite_safe (a : Agent) (u : DmaUnit) (v : Word) : (ringWrite s a u v).ms.safe := by grind [ringWrite, accessError_safe, setRf_safe]

theorem chanVerdict_safe (commit : Bool) (ch : Nat) : (chanVerdict commit s ch).ms.safe := by
  grind [chanVerdict, modChan_safe, modRun_safe, setChState_safe, dmaEnd_safe]

theorem dmaVerdict_safe (commit : Bool) : (dmaVerdict s commit).ms.safe := by grind [dmaVerdict, chanVerdict_safe, foldl_safe, foldl_pair_safe]

/-! ## The hem -/

theorem takeDigest_safe : (takeDigest s).2.ms.safe := by grind [takeDigest, setReg_safe, foldl_safe, foldl_pair_safe]
theorem sendUpdate_safe (step : BitVec 48) (discard : Bool) : (sendUpdate s step discard).ms.safe := by grind [sendUpdate, modCell_safe, foldl_safe, foldl_pair_safe]

theorem verdictNotify_safe (kind : Nat) : (verdictNotify s kind).ms.safe := by
  grind [verdictNotify, setReg_safe, pegAddTo_safe, postInt_safe, report_safe, setRf_safe, emit_safe]

theorem hemNote_safe (n : Nat) : (hemNote s n).ms.safe := h
theorem enterCollect_safe : (enterCollect s).ms.safe := by grind [enterCollect, hemNote_safe, setRf_safe, releasePosts_safe, refreshScales_safe, releaseSends_safe]
theorem enterHalt_safe (kind : Nat) : (enterHalt s kind).ms.safe := by grind [enterHalt, releaseSends_safe, setRf_safe, hemNote_safe]

theorem commit_safe : (commit s).ms.safe := by
  grind [commit, setReg_safe, commitRuns_safe, sendUpdate_safe, recordLast_safe, dmaVerdict_safe, nextGen_safe, paceFollow_safe, verdictNotify_safe]

theorem discard_safe (kind : Nat) : (discard s kind).ms.safe := by
  grind [discard, discardLining_safe, requeueSpec_safe, setRf_safe, unwatch_safe, sendUpdate_safe, dmaVerdict_safe, takeDigest_safe, report_safe, countVoids_safe,
      verdictNotify_safe, nextGen_safe, recordLast_safe]

theorem discardCollect_safe (kind : Nat) : (discardCollect s kind).ms.safe := by grind [discardCollect, enterCollect_safe, discard_safe]
theorem discardHalt_safe (kind : Nat) : (discardHalt s kind).ms.safe := by grind [discardHalt, enterHalt_safe, discard_safe]

theorem enterUpdate_safe (st : Nat) (gf : FV) : (enterUpdate s st gf).ms.safe := by
  grind [enterUpdate, setRf_safe, setReg_safe, watchPeg_safe, hemNote_safe, wakeHemWaiters_safe, updateScales_safe]

theorem collectEnd_safe : (collectEnd s).ms.safe := by
  unfold collectEnd
  split
  · exact h
  · extract_lets res void bad sq q posted
    have hq : q.ms.safe := setReg_safe h ..
    clear_value q
    split
    · exact discardHalt_safe hq _
    split
    · exact discardCollect_safe hq _
    split
    · exact discardCollect_safe hq _
    split
    · exact enterUpdate_safe hq ..
    · exact collUpdate_safe (enterUpdate_safe (collUpdate_safe (commit_safe hq) _) _ _) _

theorem execCollectEnd_safe : nextSafe (execCollectEnd s) := by grind [execCollectEnd, nextSafe_next, collectEnd_safe]
theorem commitCollect_safe : (commitCollect s).ms.safe := by grind [commitCollect, enterCollect_safe, commit_safe]
theorem twinDecide_safe : (twinDecide s).ms.safe := by grind [twinDecide, discardHalt_safe, commitCollect_safe, setReg_safe]

theorem updateComplete_safe : (updateComplete s).ms.safe := by
  grind [updateComplete, takeDigest_safe, unwatch_safe, setReg_safe, discardHalt_safe, enterHalt_safe, verdictNotify_safe, enterCollect_safe, seamSend_safe,
      twinDecide_safe, commitCollect_safe]

theorem execUpdateComplete_safe : nextSafe (execUpdateComplete s) := by grind [execUpdateComplete, nextSafe_next, updateComplete_safe]

theorem execTwinDigestArrive_safe (step digest : Word) : nextSafe (execTwinDigestArrive step digest s) := by
  grind [execTwinDigestArrive, nextSafe_next, seamGot_safe, twinDecide_safe]

theorem execTwinTimeout_safe : nextSafe (execTwinTimeout s) := by
  have hq := setRf_safe h .devHemcfg F.devHemcfgTwin 0 0
  rw [execTwinTimeout, nextSafe_next]
  split
  · split
    · exact report_safe (discardHalt_safe hq 4) _
    · exact report_safe (commitCollect_safe hq) _
  · exact h

theorem hemArm_safe : (hemArm s).ms.safe := by grind [hemArm, setRf_safe, nextGen_safe, latchColl_safe, setReg_safe, enterCollect_safe]
theorem hemDisarm_safe : (hemDisarm s).ms.safe := by grind [hemDisarm, releaseSends_safe, setRf_safe, discard_safe]
theorem hemResume_safe : (hemResume s).ms.safe := by grind [hemResume, enterCollect_safe]
theorem hemNonfin_safe : (hemNonfin s).ms.safe := by grind [hemNonfin, setRf_safe]
theorem hemStop_safe (kind : Nat) : (hemStop s kind).ms.safe := by grind [hemStop, discardHalt_safe]

theorem hemAction_safe (a : Agent) {f : State → State} (hf : ∀ q : State, q.ms.safe → (f q).ms.safe) : (hemAction s a f).ms.safe := by
  grind [hemAction, accessError_safe]

theorem execArm_safe (a : Agent) : nextSafe (execArm a s) := by grind [execArm, nextSafe_next, mmioCmd_safe, hemAction_safe, hemArm_safe]
theorem execDisarm_safe (a : Agent) : nextSafe (execDisarm a s) := by grind [execDisarm, nextSafe_next, mmioCmd_safe, hemAction_safe, hemDisarm_safe]
theorem execResume_safe (a : Agent) : nextSafe (execResume a s) := by grind [execResume, nextSafe_next, mmioCmd_safe, hemAction_safe, hemResume_safe]
theorem execNonfinPost_safe (a : Agent) : nextSafe (execNonfinPost a s) := by grind [execNonfinPost, nextSafe_next, mmioCmd_safe, hemNonfin_safe, accessError_safe]
theorem execAbort_safe (a : Agent) : nextSafe (execAbort a s) := by grind [execAbort, nextSafe_next, mmioCmd_safe, hemAction_safe, hemStop_safe]
theorem execHaltreq_safe (a : Agent) : nextSafe (execHaltreq a s) := by grind [execHaltreq, nextSafe_next, mmioCmd_safe, hemAction_safe, hemStop_safe]
theorem hemxdigWrite_safe (a : Agent) (v : Word) : (hemxdigWrite s a v).ms.safe := by grind [hemxdigWrite, accessError_safe]

theorem execHemxdigWrite_safe (a : Agent) (v : Word) : nextSafe (execHemxdigWrite a v s) := by
  grind [execHemxdigWrite, nextSafe_next, mmioCmd_safe, hemxdigWrite_safe]

theorem hemctlWrite_safe (a : Agent) (v : Word) : (hemctlWrite s a v).ms.safe := by
  unfold hemctlWrite
  dsimp only
  split
  · exact accessError_safe h ..
  · exact optional_safe (fun _ hq => hemResume_safe hq) <| optional_safe (fun _ hq => hemArm_safe hq) <| optional_safe (fun _ hq => setRf_safe hq ..) <|
      optional_safe (fun _ hq => hemDisarm_safe hq) <| optional_safe (fun _ hq => hemStop_safe hq _) <| optional_safe (fun _ hq => hemStop_safe hq _) <|
      optional_safe (fun _ hq => hemNonfin_safe hq) h

/-! ## Roll call -/

theorem shapeOf_safe : (shapeOf s).2.ms.safe := by grind [shapeOf, btEnt_safe, foldl_safe, foldl_pair_safe]
theorem checkBlock_safe : (checkBlock s).2.ms.safe := by grind [checkBlock, shapeOf_safe]
theorem setColl_safe (st : Nat) : (setColl s st).ms.safe := h
theorem rollFail_safe (reason : Nat) : (rollFail s reason).ms.safe := h
theorem rtEntry_safe (r : Nat) : (rtEntry s r).2.ms.safe := by grind [rtEntry, homeRead_safe, accessDraws_safe]
theorem sendGid_safe (port : Nat) (gid : List Byte) (a : MsgArgs) : (sendGid s port gid a).ms.safe := by grind [sendGid, netSend_safe]
theorem sendRoll_safe (e : List Byte) (a : MsgArgs) : (sendRoll s e a).ms.safe := by grind [sendRoll, sendGid_safe]
theorem sendChunk_safe (c dst : Nat) : (sendChunk s c dst).ms.safe := by grind [sendChunk, rtEntry_safe, homeRead_safe, accessDraws_safe, sendRoll_safe]
theorem sendKnown_safe (l : List (Nat × Nat)) : (sendKnown s l).ms.safe := by grind [sendKnown, sendChunk_safe, foldl_safe, foldl_pair_safe]
theorem forwardChunk_safe (c : Nat) : (forwardChunk s c).ms.safe := by grind [forwardChunk, sendKnown_safe]
theorem refuseAll_safe (rank reason : Nat) : (refuseAll s rank reason).ms.safe := by grind [refuseAll, sendRoll_safe, rollFail_safe, foldl_safe, foldl_pair_safe]

theorem buildTable_safe : (buildTable s).ms.safe := by
  grind [buildTable, refuseAll_safe, homeWrite_safe, accessDraws_safe, sendKnown_safe, setColl_safe, foldl_safe, foldl_pair_safe]

theorem takeJoin_safe (rank : Nat) (entry check : List Byte) : (takeJoin s rank entry check).ms.safe := by
  grind [takeJoin, refuseAll_safe, checkBlock_safe, buildTable_safe]

theorem startRollcall_safe : (startRollcall s).ms.safe := by
  grind [startRollcall, setRf_safe, btEnt_safe, rollFail_safe, checkBlock_safe, setColl_safe, takeJoin_safe, foldl_safe, foldl_pair_safe]

theorem rollcallWrite_safe (a : Agent) : (rollcallWrite s a).ms.safe := by grind [rollcallWrite, startRollcall_safe, accessError_safe]
theorem cancelWrite_safe (a : Agent) : (cancelWrite s a).ms.safe := by grind [cancelWrite, accessError_safe, setRf_safe, setColl_safe]
theorem execRollcall_safe (a : Agent) : nextSafe (execRollcall a s) := by grind [execRollcall, nextSafe_next, mmioCmd_safe, rollcallWrite_safe]
theorem execCancel_safe (a : Agent) : nextSafe (execCancel a s) := by grind [execCancel, nextSafe_next, mmioCmd_safe, cancelWrite_safe]
theorem execJoinSend_safe : nextSafe (execJoinSend s) := by grind [execJoinSend, nextSafe_next, checkBlock_safe, sendGid_safe]
theorem malformed_safe (m : Msg) : (malformed s m).ms.safe := by grind [malformed, collCount_safe, collFault_safe]

theorem rollMsg_safe (type len : Nat) (m : Msg) {k : State → State} (hk : ∀ q : State, q.ms.safe → (k q).ms.safe) : (rollMsg s type len m k).ms.safe := by
  grind [rollMsg, collCount_safe, malformed_safe]

theorem execJoin_safe (m : Msg) : nextSafe (execJoin m s) := by grind [execJoin, nextSafe_next, collCount_safe, rollMsg_safe, takeJoin_safe]
theorem execRefuse_safe (m : Msg) : nextSafe (execRefuse m s) := by grind [execRefuse, nextSafe_next, rollMsg_safe, rollFail_safe]
theorem rosterDone_safe : (rosterDone s).ms.safe := by grind [rosterDone, rtEntry_safe, setColl_safe, rollFail_safe]

theorem execRoster_safe (m : Msg) : nextSafe (execRoster m s) := by
  grind [execRoster, nextSafe_next, rollMsg_safe, setColl_safe, homeWrite_safe, accessDraws_safe, sendGid_safe, rosterDone_safe, forwardChunk_safe]

theorem execAck_safe (m : Msg) : nextSafe (execAck m s) := by grind [execAck, nextSafe_next, rollMsg_safe]
theorem execRosterResend_safe : nextSafe (execRosterResend s) := by grind [execRosterResend, nextSafe_next, sendKnown_safe]
theorem execRollcallTimeout_safe : nextSafe (execRollcallTimeout s) := by grind [execRollcallTimeout, nextSafe_next, setRf_safe, rollFail_safe]
theorem askHops_safe (ports : List Nat) : (askHops s ports).ms.safe := by grind [askHops, askHop_safe, foldl_safe, foldl_pair_safe]
theorem openQps_safe : (openQps s).ms.safe := by grind [openQps, rtEntry_safe, askHops_safe, foldl_safe, foldl_pair_safe]

theorem execConnectingDone_safe : nextSafe (execConnectingDone s) := by
  grind [execConnectingDone, nextSafe_next, openQps_safe, setColl_safe, releasePosts_safe, refreshScales_safe]

theorem execRdmaNonsendRequest_safe (p : Fin 4) (qpn : BitVec 24) : nextSafe (execRdmaNonsendRequest p qpn s) := by
  grind [execRdmaNonsendRequest, nextSafe_next, collCount_safe, netSend_safe]

end

end Sys2Proof.Machine
end

section
/-! PROOFS. The stacks, the links, start-up, the services, the error unit and register accesses keep the form of memory (R220). -/

namespace Sys2Proof.Machine

open Sys2Proof.Safety

/-- What one call of `restoreGo` does with the calls after it left to `go`. -/
def restoreStep (go : State → State) (s : State) : State :=
  match s.mantle.restore with
  | none => s
  | some r =>
    match r.todo with
    | [] => restoreEnd s r stOk
    | (l, c) :: rest =>
      let x := storedAt s l r.half
      if 4 ≤ l || x.damaged || decide (linkF s F.rootLinkstatState l ≠ 3) then restoreEnd s r stFailed
      else
        let b := (tget? x.chunks c).getD []
        let s := nvmeRead s l (cmbAddr l 0) (chunkPlace x l r.half c) b.length
        if (tget? x.chunks c).isSome && decide (tget? x.digests c = some (Config.sha512 b)) then
          let s := writeFrames s ((r.frames.drop (1024 * c)).take 1024) b
          go { s with mantle := { s.mantle with restore := some { r with todo := rest, count := r.count + 1 } } }
        else
          let (t, s) := twinServes s
          if t then seamSend s "chunk wanted" (wd c) [] else restoreEnd (slotDamaged s l r.half) r stFailed

theorem restoreGo_succ (n : Nat) (s : State) : restoreGo (n + 1) s = restoreStep (restoreGo n) s := rfl

/-- What an access through BAR 2 does at its home. -/
def bar2Does (s : State) (pa n : Nat) (data : Option (List Byte)) : State :=
  match data with
  | some d => homeWriteFrom s 2 pa d
  | none => let ((bs, bad), s) := homeReadFrom s 2 pa n; emit s (.bar2 bs bad.isSome)

/-- What the Keeper does with the next chunk `x` of checkpoint `c`. -/
def chunkStores (s : State) (c : Ckpt) (x : Nat) (rest : List Nat) : State :=
  let l := c.drives.getD (c.k % c.drives.length) 0
  if !(activeDrives s).contains l then ckptEnd s c stFailed
  else
    let (b, s) := readFrames s ((c.frames.drop (1024 * x)).take 1024)
    let s := nvmeWrite s l (chunkPlace (storedAt s l c.half) l c.half x) b
    let s := modStored s l c.half (fun y => { y with digests := tins x (Config.sha512 b) y.digests, chunks := tins x b y.chunks })
    let c := { c with todo := rest, k := c.k + 1 }
    let s := { s with mantle := { s.mantle with ckpt := some c } }
    if rest.isEmpty then ckptFinish s c else kpegUpdate s

section
variable {s : State} (h : s.ms.safe)
include h

/-! ## What the units share -/

theorem execPllStart_safe (r : Fin 12) : nextSafe (execPllStart r s) := by grind [execPllStart, nextSafe_next, pllGo_safe]
theorem execPllLock_safe (r : Fin 12) : nextSafe (execPllLock r s) := by grind [execPllLock, nextSafe_next, setClkBit_safe]
theorem execPllIdleStop_safe (r : Fin 12) : nextSafe (execPllIdleStop r s) := by grind [execPllIdleStop, nextSafe_next, setClkBit_safe]
theorem regionStop_safe (r : Nat) : (regionStop s r).ms.safe := h
theorem execPllLockLoss_safe (r : Fin 12) : nextSafe (execPllLockLoss r s) := by grind [execPllLockLoss, nextSafe_next, regionStop_safe, report_safe, setClkBit_safe]

theorem execPllSwitchEnd_safe (r : Fin 12) (locked : Bool) : nextSafe (execPllSwitchEnd r locked s) := by
  grind [execPllSwitchEnd, nextSafe_next, setClkBit_safe, regionStop_safe]

theorem clkWrite_safe (a : Agent) (v : Word) : (clkWrite s a v).ms.safe := by grind [clkWrite, setRf_safe, pllGo_safe, foldl_safe, foldl_pair_safe]

theorem execDevClkPinWrite_safe (a : Agent) (v : Word) : nextSafe (execDevClkPinWrite a v s) := by
  grind [execDevClkPinWrite, nextSafe_next, mmioCmd_safe, clkWrite_safe]

theorem recountCells_safe : (recountCells s).ms.safe := h
theorem setSite_safe (c v : Nat) : (setSite s c v).ms.safe := h
theorem flashErase_safe (a n : Nat) : (flashErase s a n).ms.safe := h
theorem execRepairRecordWrite_safe : nextSafe (execRepairRecordWrite s) := by grind [execRepairRecordWrite, nextSafe_next, flashProg_safe, flashErase_safe]
theorem tlbinvWrite_safe (a : Agent) (v : Word) : (tlbinvWrite s a v).ms.safe := by grind [tlbinvWrite, setRf_safe, modCell_safe, foldl_safe, foldl_pair_safe]

theorem execTlbInvalidate_safe (a : Agent) (v : Word) : nextSafe (execTlbInvalidate a v s) := by
  grind [execTlbInvalidate, nextSafe_next, mmioCmd_safe, tlbinvWrite_safe]

/-! ## The stacks -/

theorem countLane_safe (ck lane : Nat) : (countLane s ck lane).ms.safe := h

theorem hbmFinding_safe (p : HbmPlace) (pa : Nat) (e : Ecc) : (hbmFinding s p pa e).ms.safe := by
  cases e with
  | clean => exact h
  | corrected lane =>
    have hq : (if flagged s (chKey p.stack p.chan) (lane % 256) then s else noteRow s (chKey p.stack p.chan) (hbmRow p.pc p.bank p.row) false).ms.safe := by
      split
      · exact h
      · exact noteRow_safe h ..
    exact report_safe (bumpRf_safe (countLane_safe hq ..) ..) _
  | uncorrectable =>
    have hq := noteRow_safe h (chKey p.stack p.chan) (hbmRow p.pc p.bank p.row) true
    exact hq

theorem execHbmScrub_safe (k : Fin 12) (ch : Fin 32) (burst : Fin 4) (e : Ecc) : nextSafe (execHbmScrub k ch burst e s) := by
  grind [execHbmScrub, nextSafe_next, touchLatent_safe, hbmFinding_safe, passEnded_safe, foldl_safe, foldl_pair_safe]

theorem chanFail_safe (k ch : Nat) : (chanFail s k ch).ms.safe := h

theorem execLaneFlagged_safe (k : Fin 12) (ch : Fin 32) (lane : Nat) : nextSafe (execLaneFlagged k ch lane s) := by
  grind [execLaneFlagged, nextSafe_next, setRf_safe]

theorem spareLane_safe (ck lane : Nat) : (spareLane s ck lane).ms.safe := h

theorem trainChan_safe (k ch : Nat) (bad : List Nat) (cmdBad : Nat) : (trainChan s k ch bad cmdBad).2.ms.safe := by
  grind [trainChan, chanFail_safe, spareLane_safe, setRf_safe, foldl_safe, foldl_pair_safe]

theorem unflag_safe (ck : Nat) (lanes : List Nat) : (unflag s ck lanes).ms.safe := h

theorem execChannelRetrain_safe (k : Fin 12) (ch : Fin 32) (bad : List Nat) (cmdBad : Nat) : nextSafe (execChannelRetrain k ch bad cmdBad s) := by
  grind [execChannelRetrain, nextSafe_next, bumpRf_safe, trainChan_safe, spareLane_safe, setRf_safe, unflag_safe, report_safe]

theorem recountRm_safe (k : Nat) : (recountRm s k).ms.safe := h
theorem offline_safe (k ch pc bank row : Nat) : (offline s k ch pc bank row).ms.safe := by grind [offline, report_safe, bumpRf_safe]
theorem touchRow_safe (k ch pc bank row : Nat) : (touchRow s k ch pc bank row).ms.safe := by grind [touchRow, touchLatent_safe, foldl_safe, foldl_pair_safe]

theorem execRowRepair_safe (k : Fin 12) (ch : Fin 32) (pc : Fin 2) (bank : Fin 64) (row : Nat) : nextSafe (execRowRepair k ch pc bank row s) := by
  rw [execRowRepair, nextSafe_iff]
  extract_lets q w m
  have hq : q.ms.safe := rowDone_safe h ..
  have hw : w.ms.safe := touchRow_safe hq ..
  clear_value q w m
  refine memorySafe_ite h ?_
  split
  · extract_lets old r rep x p
    have hr : memorySafe r := memorySafe_ite (hbmUpdate_safe hw _) hw
    have hp : p.ms.safe := recountRm_safe (setReg_safe hr ..) _
    exact addRepair_safe (report_safe hp _) _
  · exact offline_safe hq ..

theorem cutBucket_safe (k p : Nat) : (cutBucket s k p).ms.safe := h
theorem setPart_safe (k p : Nat) (v : Word) : (setPart s k p v).ms.safe := by grind [setPart, cutBucket_safe, setReg_safe, setRf_safe]

theorem trustedWrite_safe (a : Agent) (off : Nat) {f : State → State} (hf : ∀ q : State, q.ms.safe → (f q).ms.safe) : (trustedWrite s a off f).ms.safe := by
  grind [trustedWrite, accessError_safe]

theorem execHbmPartWrite_safe (a : Agent) (p : Fin 5) (v : Word) : nextSafe (execHbmPartWrite a p v s) := by
  grind [execHbmPartWrite, nextSafe_next, mmioCmd_safe, trustedWrite_safe, setPart_safe]

theorem execTokenRefill_safe : nextSafe (execTokenRefill s) := by grind [execTokenRefill, nextSafe_next, maintEnter_safe, foldl_safe, foldl_pair_safe]
theorem setMaint_safe (k : Nat) (on : Bool) : (setMaint s k on).ms.safe := by grind [setMaint, setRf_safe, maintEnter_safe]

theorem execMaintRequest_safe (a : Agent) (on : Bool) : nextSafe (execMaintRequest a on s) := by
  grind [execMaintRequest, nextSafe_next, mmioCmd_safe, trustedWrite_safe, setMaint_safe]

theorem tgGo_safe (ck : Nat) : (tgGo s ck).ms.safe := by grind [tgGo, setRf_safe]
theorem tgStop_safe (ck : Nat) : (tgStop s ck).ms.safe := by grind [tgStop]
theorem tgctlWrite_safe (ck : Nat) (v : Word) : (tgctlWrite s ck v).ms.safe := by grind [tgctlWrite, setRf_safe, tgStop_safe, tgGo_safe]

theorem execTrafficGeneratorGo_safe (a : Agent) (v : Word) : nextSafe (execTrafficGeneratorGo a v s) := by
  grind [execTrafficGeneratorGo, nextSafe_next, mmioCmd_safe, trustedWrite_safe, tgctlWrite_safe]

theorem execTrafficGeneratorStop_safe (a : Agent) : nextSafe (execTrafficGeneratorStop a s) := by
  grind [execTrafficGeneratorStop, nextSafe_next, mmioCmd_safe, trustedWrite_safe, tgStop_safe]

theorem wipeChan_safe (ck : Nat) : (wipeChan s ck).ms.safe := h

theorem execTrafficGeneratorEnd_safe (k : Fin 12) (ch : Fin 32) (errors : Nat) (lane : Nat) : nextSafe (execTrafficGeneratorEnd k ch errors lane s) := by
  grind [execTrafficGeneratorEnd, nextSafe_next, wipeChan_safe, setRf_safe, bumpRf_safe]

/-! ## Links -/

theorem farError_safe (addr : Nat) (code : Word) : (farError s addr code).ms.safe := h
theorem execPerstDeassert_safe : nextSafe (execPerstDeassert s) := by grind [execPerstDeassert, nextSafe_next]
theorem setBar2_safe (gib : Nat) : (setBar2 s gib).ms.safe := h
theorem execHotReset_safe : nextSafe (execHotReset s) := by grind [execHotReset, nextSafe_next, setBar2_safe, dmaPathLost_safe]

theorem bar2Does_safe (pa n : Nat) (data : Option (List Byte)) : (bar2Does s pa n data).ms.safe := by
  unfold bar2Does; grind [homeReadFrom_safe, homeWriteFrom_safe, emit_safe]

theorem execBar2Access_safe (off : Nat) (n : Nat) (data : Option (List Byte)) : nextSafe (execBar2Access off n data s) := by
  unfold execBar2Access
  exact nextSafe_iff.2 (memorySafe_ite h (memorySafe_ite (emit_safe (farError_safe h ..) _) (memorySafe_ite (accessStarts_safe h ..) (bar2Does_safe (accessDraws_safe h ..) ..))))

theorem execMsixSend_safe (vec : BitVec 8) : nextSafe (execMsixSend vec s) := by grind [execMsixSend, nextSafe_next, msixSend_safe]
theorem aerLog_safe (unc : Bool) (status : BitVec 32) : (aerLog s unc status).ms.safe := h

theorem execConfigRequest_safe (q : ConfigReq) : nextSafe (execConfigRequest q s) := by
  unfold execConfigRequest
  rw [nextSafe_next]
  split
  · exact emit_safe h _
  cases q with
  | msix en mask => exact foldl_safe (fun _ v hq => msixFlush_safe hq v) _ h
  | resizeBar2 gib => exact emit_safe (optional_safe (fun _ hq => setBar2_safe hq gib) h) _
  | control p r t => exact emit_safe (by split <;> exact h) _
  | error unc status => exact aerLog_safe h unc status
  | read _ => exact h
  | write _ _ => exact h
  | controlRead => exact h
  | doeDiscovery i => exact emit_safe h _
  | doeStatus => exact h
  | doeAbort => exact h
  | aerStatus unc clear => exact h

theorem setLinkF_safe (f : Fld) (v l : Nat) : (setLinkF s f v l).ms.safe := h
theorem linkPower_safe (l : Nat) : (linkPower s l).ms.safe := by grind [linkPower, emit_safe, setLinkF_safe]
theorem linkOff_safe (l : Nat) : (linkOff s l).ms.safe := by grind [linkOff, setLinkF_safe, emit_safe]
theorem linkPowerWrite_safe (l v : Nat) : (linkPowerWrite s l v).ms.safe := by grind [linkPowerWrite, setLinkF_safe, linkOff_safe, linkPower_safe]
theorem execPrsntDebounce_safe (l : Fin 4) : nextSafe (execPrsntDebounce l s) := by grind [execPrsntDebounce, nextSafe_next, linkPower_safe, setLinkF_safe]
theorem execPowerSettle_safe (l : Fin 4) : nextSafe (execPowerSettle l s) := by grind [execPowerSettle, nextSafe_next, emit_safe, setLinkF_safe]

theorem execRootLinkUp_safe (l : Fin 4) (rate : BitVec 3) (width : BitVec 4) (cls : BitVec 24) (cmb : Bool) : nextSafe (execRootLinkUp l rate width cls cmb s) := by
  grind [execRootLinkUp, nextSafe_next, setLinkF_safe, report_safe]

theorem execRootLinkTrainingFailed_safe (l : Fin 4) : nextSafe (execRootLinkTrainingFailed l s) := by
  grind [execRootLinkTrainingFailed, nextSafe_next, setLinkF_safe]

theorem linkTransfersLost_safe (k : Nat) : (linkTransfersLost s k).ms.safe := by grind [linkTransfersLost, dmaPathLost_safe]

theorem execSurpriseRemoval_safe (l : Fin 4) : nextSafe (execSurpriseRemoval l s) := by
  grind [execSurpriseRemoval, nextSafe_next, setLinkF_safe, linkOff_safe, drawFree_safe, report_safe, linkTransfersLost_safe]

theorem rootCfg_safe (a : Agent) (wr : Option (BitVec 32)) (resp : Option (BitVec 32)) : (rootCfg s a wr resp).ms.safe := by
  unfold rootCfg; grind [emit_safe, setLinkF_safe]

theorem execRootCfgdataAccess_safe (a : Agent) (wr : Option (BitVec 32)) (resp : Option (BitVec 32)) : nextSafe (execRootCfgdataAccess a wr resp s) := by
  grind [execRootCfgdataAccess, nextSafe_next, mmioCmd_safe, rootCfg_safe, emit_safe]

theorem postRoot_safe (data : Nat) : (postRoot s data).ms.safe := h
theorem execRootMsi_safe (l : Fin 4) (data : BitVec 32) : nextSafe (execRootMsi l data s) := by grind [execRootMsi, nextSafe_next, feedRead_safe, postRoot_safe]

theorem execInboundDriveRequest_safe (l : Fin 4) (addr : Nat) (n : Nat) (data : Option (List Byte)) : nextSafe (execInboundDriveRequest l addr n data s) := by
  unfold execInboundDriveRequest
  rw [nextSafe_next]
  cases data <;>
    grind [accessStarts_safe, accessDraws_safe, homeWriteFrom_safe, homeReadFrom_safe, emit_safe, feedRead_safe, postRoot_safe, farError_safe]

theorem execEthLinkUp_safe (p : Fin 4) : nextSafe (execEthLinkUp p s) := by grind [execEthLinkUp, nextSafe_next, releaseAll_safe, askHops_safe, setRf_safe]
theorem execEthLinkLost_safe (p : Fin 4) : nextSafe (execEthLinkLost p s) := by grind [execEthLinkLost, nextSafe_next, report_safe, bumpRf_safe, setRf_safe]

theorem execPfcPauseReceived_safe (p : Fin 4) (prio : BitVec 3) (quanta : BitVec 16) : nextSafe (execPfcPauseReceived p prio quanta s) := by
  grind [execPfcPauseReceived, nextSafe_next, releaseAll_safe, pfcShow_safe]

theorem execPfcPauseExpiry_safe (p : Fin 4) (prio : BitVec 3) : nextSafe (execPfcPauseExpiry p prio s) := by
  grind [execPfcPauseExpiry, nextSafe_next, releaseAll_safe, pfcShow_safe]

theorem execPfcAssert_safe (p : Fin 4) (prio : BitVec 3) (fill : Nat) : nextSafe (execPfcAssert p prio fill s) := by
  grind [execPfcAssert, nextSafe_next, pfcShow_safe, pfcFrame_safe]

theorem execCnpReceived_safe (qpn : BitVec 24) : nextSafe (execCnpReceived qpn s) := by grind [execCnpReceived, nextSafe_next]
theorem execRateRecovery_safe (qpn : BitVec 24) : nextSafe (execRateRecovery qpn s) := by grind [execRateRecovery, nextSafe_next]
theorem execCeMarkReceived_safe (qpn : BitVec 24) : nextSafe (execCeMarkReceived qpn s) := by grind [execCeMarkReceived, nextSafe_next, netSend_safe]
theorem execLldpSend_safe (p : Fin 4) : nextSafe (execLldpSend p s) := by grind [execLldpSend, nextSafe_next, emit_safe]
theorem neighbourChanged_safe (p : Nat) : (neighbourChanged s p).ms.safe := h
theorem neighbourGone_safe (p : Nat) : (neighbourGone s p).ms.safe := by grind [neighbourGone, neighbourChanged_safe]

theorem execLldpReceive_safe (p : Fin 4) (chassis port : List Byte) (ttl : BitVec 16) : nextSafe (execLldpReceive p chassis port ttl s) := by
  grind [execLldpReceive, nextSafe_next, neighbourGone_safe, neighbourChanged_safe]

theorem execLldpExpire_safe (p : Fin 4) : nextSafe (execLldpExpire p s) := by grind [execLldpExpire, nextSafe_next, neighbourGone_safe]

theorem execAddressResolutionFrame_safe (p : Fin 4) (target sender : List Byte) (mac : BitVec 48) (request : Bool) :
    nextSafe (execAddressResolutionFrame p target sender mac request s) := by
  grind [execAddressResolutionFrame, nextSafe_next, releaseAll_safe, emit_safe]

theorem setSeam_safe (st : Nat) : (setSeam s st).ms.safe := h
theorem execSeamPoll_safe : nextSafe (execSeamPoll s) := by grind [execSeamPoll, nextSafe_next, setSeam_safe, emit_safe]
theorem laneMap_safe (m : BitVec 18) : (laneMap s m).ms.safe := h
theorem seamDown_safe : (seamDown s).ms.safe := by grind [seamDown, setReg_safe, setRf_safe, setSeam_safe, report_safe, dmaPathLost_safe]
theorem seamRetrain_safe (good : BitVec 18) : (seamRetrain s good).ms.safe := h
theorem seamResume_safe : (seamResume s).ms.safe := by grind [seamResume, seamPut_safe, setSeam_safe, foldl_safe, foldl_pair_safe]
theorem seamEqualise_safe (good : BitVec 18) : (seamEqualise s good).ms.safe := by grind [seamEqualise, seamDown_safe, setSeam_safe]
theorem seamMap_safe : (seamMap s).ms.safe := by grind [seamMap, laneMap_safe, seamResume_safe, bumpRf_safe, setSeam_safe, emit_safe]

theorem execSeamTraining_safe (good : BitVec 18) (serial twinArea : Word) : nextSafe (execSeamTraining good serial twinArea s) := by
  grind [execSeamTraining, nextSafe_next, setSeam_safe, seamEqualise_safe, seamMap_safe, setReg_safe]

theorem seamRecord_safe (cause : BitVec 8) (lane : Nat) : (seamRecord s cause lane).ms.safe := h
theorem execSeamNak_safe (_seq : BitVec 8) : nextSafe (execSeamNak _seq s) := by grind [execSeamNak, nextSafe_next, emit_safe]

theorem execSeamReplay_safe (seq : BitVec 8) (n : Nat) : nextSafe (execSeamReplay seq n s) := by
  grind [execSeamReplay, nextSafe_next, seamRetrain_safe, seamRecord_safe, bumpRf_safe, emit_safe]

theorem execSeamLaneReplace_safe (lane : Fin 18) : nextSafe (execSeamLaneReplace lane s) := by
  grind [execSeamLaneReplace, nextSafe_next, seamRecord_safe, seamRetrain_safe]

theorem execSeamWrite_safe (addr : Nat) (data : List Byte) (marks : List Nat) : nextSafe (execSeamWrite addr data marks s) := by
  grind [execSeamWrite, nextSafe_next, accessStarts_safe, writeMarked_safe, accessDraws_safe, seamGot_safe, farError_safe]

theorem execLinkCrcFailure_safe (l : LinkId) (fails : Nat) (retrainOk : Bool) : nextSafe (execLinkCrcFailure l fails retrainOk s) := by
  grind [execLinkCrcFailure, nextSafe_next, report_safe, regionStop_safe, foldl_safe, foldl_pair_safe]

/-! ## Start-up -/

theorem setStage_safe (n : Nat) : (setStage s n).ms.safe := h

omit h in
/-- A cold boot starts from the reset state's memory. -/
theorem coldState_safe : (coldState s).ms.safe := by
  have hreset : MemS.safe {} := ⟨rfl, fun _ _ => rfl⟩
  exact setRf_safe (foldl_safe (fun _ i hq => setReg_safe hq .trustIdkey i _) _ hreset) ..

theorem newNonce_safe : (newNonce s).ms.safe := h
theorem boxPut_safe (at' : Nat) (bs : List Byte) : (boxPut s at' bs).ms.safe := h
theorem setBoxBit_safe (f : Fld) (slot : Nat) (on : Bool) : (setBoxBit s f slot on).ms.safe := h
theorem respond_safe (slot st : Nat) (res : List Byte) : (respond s slot st res).ms.safe := by grind [respond, boxPut_safe, setBoxBit_safe, msixPost_safe]
theorem answerReserved_safe : (answerReserved s).ms.safe := by grind [answerReserved, respond_safe, newNonce_safe, foldl_safe, foldl_pair_safe]

omit h in
theorem startBoot_safe (skew : List Nat) : (startBoot s skew).ms.safe := by grind [startBoot, newNonce_safe, coldState_safe, setStage_safe]

omit h in
theorem execPowerUp_safe (skew : List Nat) : nextSafe (execPowerUp skew s) := by grind [execPowerUp, nextSafe_next, startBoot_safe]

omit h in
theorem execResetInAssert_safe : nextSafe (execResetInAssert s) := by grind [execResetInAssert, nextSafe_next, newNonce_safe, coldState_safe]

theorem execBootRomStart_safe (good : BitVec 5) : nextSafe (execBootRomStart good s) := by grind [execBootRomStart, nextSafe_next, setStage_safe, setRf_safe]
theorem takeSlot_safe (i : Nat) : (takeSlot s i).ms.safe := h
theorem setFail_safe (i c : Nat) : (setFail s i c).ms.safe := h
theorem execSlotVerify_safe : nextSafe (execSlotVerify s) := by grind [execSlotVerify, nextSafe_next, setFail_safe, takeSlot_safe, setRf_safe, setStage_safe]
theorem applyStruct_safe (b : List Byte) : (applyStruct s b).ms.safe := by grind [applyStruct, setReg_safe, recountCells_safe, foldl_safe, foldl_pair_safe]

theorem applyMemory_safe (b : List Byte) : (applyMemory s b).ms.safe := by
  have hq : MemS.safe { s.ms with gran := granOf (fieldAt b 12 1) } := h.congr rfl rfl
  exact pegPut_safe (s := { setRf s .devBmcfg F.devBmcfgRcWays _ with ms := { s.ms with gran := granOf (fieldAt b 12 1) }, boot := _ }) hq _ _

theorem applyFabric_safe (b : List Byte) : (applyFabric s b).ms.safe := by grind [applyFabric, setReg_safe, setRf_safe, foldl_safe, foldl_pair_safe]
theorem applyPower_safe (b : List Byte) : (applyPower s b).ms.safe := h
theorem applyLinks_safe (b : List Byte) : (applyLinks s b).ms.safe := by grind [applyLinks, setRf_safe, setLinkF_safe, foldl_safe, foldl_pair_safe]
theorem applySecurity_safe (b : List Byte) : (applySecurity s b).ms.safe := h
theorem applyNumeric_safe (b : List Byte) : (applyNumeric s b).ms.safe := by grind [applyNumeric, setReg_safe, foldl_safe, foldl_pair_safe]
theorem applyClock_safe (b : List Byte) : (applyClock s b).ms.safe := by grind [applyClock, setRf_safe, pllGo_safe, foldl_safe, foldl_pair_safe]

theorem execApplyEmselImage_safe : nextSafe (execApplyEmselImage s) := by
  grind [execApplyEmselImage, nextSafe_next, applyMemory_safe, applyStruct_safe, applyPower_safe, applyClock_safe, applyFabric_safe, applyNumeric_safe,
      applySecurity_safe, applyLinks_safe, answerReserved_safe, setStage_safe, setRf_safe]

theorem retireSites_safe (kind unit : Nat) (bad : List Nat) : (retireSites s kind unit bad).ms.safe := by
  grind [retireSites, addRepair_safe, foldl_safe, foldl_pair_safe]

theorem testCells_safe (bad : List Nat) : (testCells s bad).ms.safe := by
  grind [testCells, recountCells_safe, retireSites_safe, setReg_safe, modCell_safe, foldl_safe, foldl_pair_safe]

theorem testEngines_safe (bad : List Nat) : (testEngines s bad).ms.safe := by
  grind [testEngines, retireSites_safe, setReg_safe, modLstack_safe, setRf_safe, foldl_safe, foldl_pair_safe]

theorem rehome_safe : (rehome s).ms.safe := by grind [rehome, foldl_safe, foldl_pair_safe]

theorem testCores_safe (bad : List Nat) : (testCores s bad).ms.safe := by
  grind [testCores, retireSites_safe, setRf_safe, modCell_safe, rehome_safe, foldl_safe, foldl_pair_safe]

theorem spareRow_safe (k row : Nat) : (spareRow s k row).ms.safe := by grind [spareRow]

/-- Self-test drops the block memory's bytes. -/
theorem testRows_safe (bad : List Nat) : (testRows s bad).ms.safe := by
  unfold testRows
  extract_lets s1 s2 most s3
  have h1 : s1.ms.safe := foldl_safe (fun q e hq => optional_safe (fun _ hq => spareRow_safe hq ..) hq) _ h
  have h2 : s2.ms.safe := foldl_safe (fun q x hq => by grind [spareRow_safe, addRepair_safe]) _ h1
  have h3 : s3.ms.safe := setRf_safe h2 ..
  exact h3.fewer (tfilter_canon _ _ _ h3.1) fun _ => id

theorem planTrims_safe (trims : List Nat) : (planTrims s trims).ms.safe := by
  grind [planTrims, setRf_safe, recordTrim_safe, report_safe, applyAgeing_safe, foldl_safe, foldl_pair_safe]

theorem execBuiltInSelfTest_safe (badCells badEngines badCores : List Nat) (badRows : List Nat) (trims : List Nat) :
    nextSafe (execBuiltInSelfTest badCells badEngines badCores badRows trims s) := by
  grind [execBuiltInSelfTest, nextSafe_next, testCores_safe, testEngines_safe, testCells_safe, planTrims_safe, testRows_safe, setStage_safe, setRf_safe, foldl_safe,
      foldl_pair_safe]

theorem loadRemaps_safe (k : Nat) : (loadRemaps s k).ms.safe := by grind [loadRemaps, drawFree_safe, setReg_safe, recountRm_safe, foldl_safe, foldl_pair_safe]

theorem trainStack_safe (k : Nat) (bad : List (Nat × Nat × Nat)) : (trainStack s k bad).ms.safe := by
  grind [trainStack, setRf_safe, trainChan_safe, maintEnter_safe, loadRemaps_safe, foldl_safe, foldl_pair_safe]

theorem execHbmTraining_safe (bad : List (Nat × Nat × Nat)) : nextSafe (execHbmTraining bad s) := by
  unfold execHbmTraining
  rw [nextSafe_next]
  split
  · exact h
  · have hq : ((List.range 12).foldl (fun q k => trainStack q k bad) s).ms.safe := foldl_safe (fun _ k hq => trainStack_safe hq k bad) _ h
    generalize (List.range 12).foldl (fun q k => trainStack q k bad) s = q at hq ⊢
    refine setStage_safe ?_ _
    exact hq.fewer (tfilter_canon _ _ _ hq.1) fun _ _ => rfl

theorem ringOn_safe : (ringOn s).ms.safe := by grind [ringOn, setReg_safe]

theorem execLinksStart_safe : nextSafe (execLinksStart s) := by
  grind [execLinksStart, nextSafe_next, setRf_safe, linkPower_safe, flashStore_safe, setStage_safe, ringOn_safe, foldl_safe, foldl_pair_safe]

theorem flRun_safe (cmd addr : Nat) : (flRun s cmd addr).ms.safe := by grind [flRun, flashProg_safe, flashErase_safe, foldl_safe, foldl_pair_safe]

theorem flCommand_safe (a : Agent) (cmd addr : Nat) : (flCommand s a cmd addr).ms.safe := by
  grind [flCommand, accessError_safe, setRf_safe, startBoot_safe, flRun_safe]

theorem execFlashRead_safe (a : Agent) (addr : BitVec 26) : nextSafe (execFlashRead a addr s) := by
  grind [execFlashRead, nextSafe_next, mmioCmd_safe, flCommand_safe]

theorem execFlashProgram_safe (a : Agent) (addr : BitVec 26) : nextSafe (execFlashProgram a addr s) := by
  grind [execFlashProgram, nextSafe_next, mmioCmd_safe, flCommand_safe]

theorem execFlashErase_safe (a : Agent) (addr : BitVec 26) : nextSafe (execFlashErase a addr s) := by
  grind [execFlashErase, nextSafe_next, mmioCmd_safe, flCommand_safe]

theorem execReboot_safe (a : Agent) : nextSafe (execReboot a s) := by grind [execReboot, nextSafe_next, mmioCmd_safe, flCommand_safe]
theorem execFlashCommandDone_safe : nextSafe (execFlashCommandDone s) := by grind [execFlashCommandDone, nextSafe_next, setRf_safe]
theorem flctlWrite_safe (a : Agent) (v : Word) : (flctlWrite s a v).ms.safe := by grind [flctlWrite, accessError_safe, setRf_safe, flCommand_safe]
theorem prefWrite_safe (a : Agent) (v : Word) : (prefWrite s a v).ms.safe := by grind [prefWrite, accessError_safe, setRf_safe]

theorem execTrustPrefWrite_safe (a : Agent) (v : Word) : nextSafe (execTrustPrefWrite a v s) := by
  grind [execTrustPrefWrite, nextSafe_next, mmioCmd_safe, prefWrite_safe]

theorem enrollWrite_safe (a : Agent) (v : Word) : (enrollWrite s a v).ms.safe := by grind [enrollWrite, accessError_safe, setRf_safe]
theorem execTrustEnroll_safe (a : Agent) (v : Word) : nextSafe (execTrustEnroll a v s) := by grind [execTrustEnroll, nextSafe_next, mmioCmd_safe, enrollWrite_safe]
theorem execDoeSpdmRequest_safe (req : List Byte) : nextSafe (execDoeSpdmRequest req s) := by grind [execDoeSpdmRequest, nextSafe_next, emit_safe]

/-! ## The services on the Mantle -/

theorem command_safe (slot : Fin 16) (op : Nat) (signed : Bool) (lens : List Nat) {run : State → State} (hrun : ∀ q : State, q.ms.safe → (run q).ms.safe)
    (ahead : Bool) :
    (command s slot op signed lens run ahead).ms.safe := by
  grind [command, newNonce_safe, respond_safe]

theorem doorbell_safe (slot : Nat) : (doorbell s slot).ms.safe := by grind [doorbell, accessError_safe, setBoxBit_safe, answerReserved_safe]
theorem execMantleMbdoor_safe (slot : Fin 16) : nextSafe (execMantleMbdoor slot s) := by grind [execMantleMbdoor, nextSafe_next, mmioCmd_safe, doorbell_safe]
theorem execInfo_safe (slot : Fin 16) : nextSafe (execInfo slot s) := by grind [execInfo, nextSafe_next, command_safe, respond_safe]
theorem execReset_safe (slot : Fin 16) : nextSafe (execReset slot s) := by grind [execReset, nextSafe_next, command_safe, startBoot_safe, respond_safe]
theorem execNetaddr_safe (slot : Fin 16) : nextSafe (execNetaddr slot s) := by grind [execNetaddr, nextSafe_next, command_safe, respond_safe]
theorem execLldpnbr_safe (slot : Fin 16) : nextSafe (execLldpnbr slot s) := by grind [execLldpnbr, nextSafe_next, command_safe, respond_safe]

theorem readPlan_safe (pa n : Nat) : (readPlan s pa n).2.ms.safe := by
  induction n generalizing s pa with
  | zero => exact h
  | succ n ih => unfold readPlan; grind [mantleRead_safe]

theorem execRunplan_safe (slot : Fin 16) : nextSafe (execRunplan slot s) := by
  grind [execRunplan, nextSafe_next, command_safe, respond_safe, readPlan_safe, unwatch_safe]

theorem runEntry_safe (e : PlanEnt) : (runEntry s e).ms.safe := by grind [runEntry, taskPush_safe, accessError_safe, lpush_safe, pegPut_safe, collPostWrite_safe]
theorem runnerWatch_safe (e : PlanEnt) : (runnerWatch s e).ms.safe := by grind [runnerWatch, watchPeg_safe]

theorem runWaiting_safe (n : Nat) : (runWaiting n s).ms.safe := by
  induction n generalizing s with
  | zero => exact h
  | succ n ih => unfold runWaiting; grind [runnerWatch_safe, runEntry_safe, unwatch_safe]

theorem trigger_safe (t : Nat) : (trigger s t).ms.safe := h
theorem execRunnerEntryStart_safe : nextSafe (execRunnerEntryStart s) := by grind [execRunnerEntryStart, nextSafe_next, runWaiting_safe]

theorem execFeedcfg_safe (slot : Fin 16) : nextSafe (execFeedcfg slot s) := by
  grind [execFeedcfg, nextSafe_next, command_safe, respond_safe, setRf_safe, mantleRead_safe, feedStart_safe]

theorem feedAdvance_safe (i : Nat) : (feedAdvance s i).ms.safe := by grind [feedAdvance, pegAddTo_safe, feedNext_safe]
theorem feedStat_safe (i : Nat) : (feedStat s i).ms.safe := by grind [feedStat, mantleWrite_safe]
theorem feedAll_safe {g : State → Nat → State} (hg : ∀ (q : State) i, q.ms.safe → (g q i).ms.safe) : (feedAll s g).ms.safe := foldl_safe hg _ h

theorem currentFrames_safe (epoch : Word) (l : List (Nat × Nat)) : (currentFrames epoch s l).2.ms.safe := by
  induction l generalizing s with
  | nil => exact h
  | cons p t ih => unfold currentFrames; grind [translate_safe]

theorem pairMode_safe : (pairMode s).2.ms.safe := by grind [pairMode, rtEntry_safe, foldl_safe, foldl_pair_safe]
theorem stripes_safe : (stripes s).2.ms.safe := by grind [stripes, pairMode_safe]
theorem kpegUpdate_safe : (kpegUpdate s).ms.safe := by grind [kpegUpdate, pegPut_safe]
theorem ckptEnd_safe (c : Ckpt) (st : Nat) : (ckptEnd s c st).ms.safe := by grind [ckptEnd, kpegUpdate_safe, respond_safe]
theorem execCkpt_safe (slot : Fin 16) : nextSafe (execCkpt slot s) := by grind [execCkpt, nextSafe_next, command_safe, respond_safe, mantleRead_safe]
theorem modStored_safe (l half : Nat) (f : Stored → Stored) : (modStored s l half f).ms.safe := h

theorem ckptStart_safe (c : Ckpt) (step : BitVec 48) (epoch : Word) : (ckptStart s c step epoch).ms.safe := by
  unfold ckptStart; grind [currentFrames_safe, ckptEnd_safe, stripes_safe, modStored_safe, nvmeWrite_safe, foldl_safe, foldl_pair_safe]

theorem keeperCommit_safe (step : BitVec 48) (epoch : Word) : (keeperCommit s step epoch).ms.safe := by grind [keeperCommit, kpegUpdate_safe, ckptStart_safe]

theorem readFrames_safe (l : List Nat) : (readFrames s l).2.ms.safe := by
  have step : ∀ n pa, (homeRead (accessDraws s Activity.storage.part pa n) pa n).2.ms.safe := fun n pa => homeRead_safe (accessDraws_safe h ..) ..
  induction l generalizing s with
  | nil => exact h
  | cons pa t ih =>
    have hq := step 4096 pa
    rw [readFrames]
    generalize homeRead _ pa 4096 = z at hq ⊢
    exact ih hq fun n pa => homeRead_safe (accessDraws_safe hq ..) ..

theorem ckptFinish_safe (c : Ckpt) : (ckptFinish s c).ms.safe := by
  grind [ckptFinish, ckptEnd_safe, nvmeFlush_safe, nvmeWrite_safe, modStored_safe, foldl_safe, foldl_pair_safe]

theorem chunkStores_safe (c : Ckpt) (x : Nat) (rest : List Nat) : (chunkStores s c x rest).ms.safe := by
  rw [← memorySafe_iff, chunkStores]
  have hread := readFrames_safe h ((c.frames.drop (1024 * x)).take 1024)
  generalize readFrames s _ = z at hread ⊢
  obtain ⟨b, q⟩ := z
  refine memorySafe_ite (ckptEnd_safe h ..) ?_
  exact memorySafe_ite (ckptFinish_safe (mantleUpdate_safe (modStored_safe (nvmeWrite_safe hread ..) ..) _) _)
    (kpegUpdate_safe (mantleUpdate_safe (modStored_safe (nvmeWrite_safe hread ..) ..) _))

theorem execKeeperChunkStore_safe : nextSafe (execKeeperChunkStore s) := by
  have hnext (c x rest) : memorySafe _ := chunkStores_safe h c x rest
  unfold execKeeperChunkStore
  rw [nextSafe_iff]
  cases s.mantle.ckpt with
  | none => exact h
  | some c =>
    refine memorySafe_ite h ?_
    cases c.todo with
    | nil => exact ckptFinish_safe h c
    | cons x rest => exact hnext c x rest

theorem slotDamaged_safe (l half : Nat) : (slotDamaged s l half).ms.safe := h
theorem twinServes_safe : (twinServes s).2.ms.safe := by grind [twinServes, pairMode_safe]

theorem execKeeperScrub_safe (l : Fin 4) (half : Fin 2) (r : ScrubResult) : nextSafe (execKeeperScrub l half r s) := by
  have hput : ∀ (q : State) a b f,
      q.ms.safe → (modStored (nvmeWrite q l.val a b) l.val half.val f).ms.safe := fun q a b f hq => modStored_safe (nvmeWrite_safe hq ..) ..
  unfold execKeeperScrub
  rw [nextSafe_next]
  split
  · exact h
  cases r <;> grind [twinServes_safe, seamSend_safe, slotDamaged_safe]

theorem execSmartCheck_safe (l : Fin 4) (used spare threshold : BitVec 8) (warn : BitVec 8) : nextSafe (execSmartCheck l used spare threshold warn s) := by
  grind [execSmartCheck, nextSafe_next]

theorem writeFrames_safe (l : List Nat) (b : List Byte) : (writeFrames s l b).ms.safe := by
  induction l generalizing s b with
  | nil => exact h
  | cons pa t ih =>
    rw [writeFrames]
    exact ih (homeWrite_safe (accessDraws_safe h _ pa 4096) pa (b.take 4096) false) _

theorem restoreEnd_safe (r : Restore) (st : Nat) : (restoreEnd s r st).ms.safe := by grind [restoreEnd, respond_safe]

theorem restoreStep_safe {go : State → State} (hgo : ∀ q : State, q.ms.safe → (go q).ms.safe) : (restoreStep go s).ms.safe := by
  rw [← memorySafe_iff, restoreStep]
  split
  · exact h
  split
  · exact restoreEnd_safe h ..
  extract_lets x b q w m
  have hq : q.ms.safe := nvmeRead_safe h ..
  have hw : w.ms.safe := writeFrames_safe hq ..
  have ht := twinServes_safe hq
  clear_value x b q w m
  generalize twinServes q = z at ht ⊢
  obtain ⟨t, u⟩ := z
  exact memorySafe_ite (restoreEnd_safe h ..)
    (memorySafe_ite (hgo _ (mantleUpdate_safe hw _)) (memorySafe_ite (seamSend_safe ht ..) (restoreEnd_safe (slotDamaged_safe ht ..) ..)))

theorem restoreGo_safe (n : Nat) : (restoreGo n s).ms.safe := by
  induction n generalizing s with
  | zero => exact h
  | succ n ih => exact restoreGo_succ n s ▸ restoreStep_safe h fun _ => ih

theorem execRestore_safe (slot : Fin 16) : nextSafe (execRestore slot s) := by
  rw [execRestore, nextSafe_iff]
  refine memorySafe_ite (memorySafe_ite (restoreGo_safe h _) h) (command_safe h slot 0x09 false [16, 24] (fun q hq => ?_) _)
  extract_lets
  have hread := mantleRead_safe hq (boxArg q slot 0) (16 * boxArg q slot 1)
  generalize mantleRead q _ (16 * _) = z at hread ⊢
  obtain ⟨⟨b, _⟩, w⟩ := z
  rw [← memorySafe_iff]
  refine memorySafe_ite (respond_safe hq ..) (memorySafe_ite (respond_safe hq ..) ?_)
  dsimp only
  split
  · exact respond_safe hread ..
  rename_i rs _
  have hframes := currentFrames_safe hread (reg w .devEpoch) (manifestPages rs)
  generalize currentFrames _ w _ = y at hframes ⊢
  split
  · exact respond_safe hread ..
  obtain ⟨_ | fs, u⟩ := y
  · exact respond_safe hframes ..
  · exact restoreGo_safe (mantleUpdate_safe (s := u) hframes _) _

theorem execDrives_safe (slot : Fin 16) : nextSafe (execDrives slot s) := by grind [execDrives, nextSafe_next, command_safe, respond_safe]
theorem execUserstate_safe (slot : Fin 16) : nextSafe (execUserstate slot s) := by grind [execUserstate, nextSafe_next, command_safe, respond_safe]
theorem execPoweravg_safe (slot : Fin 16) : nextSafe (execPoweravg slot s) := by grind [execPoweravg, nextSafe_next, command_safe, respond_safe, setReg_safe]
theorem execHealth_safe (slot : Fin 16) : nextSafe (execHealth slot s) := by grind [execHealth, nextSafe_next, command_safe, respond_safe]
theorem sramPut_safe (a : Nat) (bs : List Byte) : (sramPut s a bs).ms.safe := h
theorem execMantleHeartTick_safe : nextSafe (execMantleHeartTick s) := by grind [execMantleHeartTick, nextSafe_next, setRf_safe, setReg_safe]

theorem execHeartbeatLoss_safe (core : Fin 4) : nextSafe (execHeartbeatLoss core s) := by
  grind [execHeartbeatLoss, nextSafe_next, setRf_safe, retireSites_safe, report_safe, respond_safe, kpegUpdate_safe, answerReserved_safe, rehome_safe, foldl_safe,
      foldl_pair_safe]

theorem execMantleSramScrub_safe (addr : Nat) (e : Ecc) : nextSafe (execMantleSramScrub addr e s) := by
  unfold execMantleSramScrub
  rw [nextSafe_next]
  split
  · exact h
  · cases e <;> exact h

theorem irqpost_safe (a : Agent) (v : Word) : (irqpost s a v).ms.safe := by grind [irqpost, accessError_safe, postInt_safe]
theorem execMantleIrqpost_safe (a : Agent) (v : Word) : nextSafe (execMantleIrqpost a v s) := by grind [execMantleIrqpost, nextSafe_next, mmioCmd_safe, irqpost_safe]
theorem commitHeard_safe : (commitHeard s).2.ms.safe := by grind [commitHeard]
theorem runnerStop_safe (step : BitVec 48) : (runnerStop s step).ms.safe := by grind [runnerStop, hemDisarm_safe]

theorem notify_safe (n : Nat) : (notify s n).ms.safe := by
  grind [notify, trigger_safe, feedAll_safe, feedStat_safe, commitHeard_safe, keeperCommit_safe, feedAdvance_safe, runnerStop_safe]

theorem execRunnerNotify_safe : nextSafe (execRunnerNotify s) := by grind [execRunnerNotify, nextSafe_next, notify_safe, runWaiting_safe]
theorem twinWrite_safe (at' : Word) (bs : List Byte) : (twinWrite s at' bs).ms.safe := by grind [twinWrite, seamEmit_safe, seamSend_safe]
theorem execTwinRecordWrite_safe : nextSafe (execTwinRecordWrite s) := by grind [execTwinRecordWrite, nextSafe_next, twinWrite_safe]
theorem sendHbm_safe : (sendHbm s).ms.safe := by grind [sendHbm, seamEmit_safe, foldl_safe, foldl_pair_safe]

theorem execTwinsend_safe (slot : Fin 16) : nextSafe (execTwinsend slot s) := by
  grind [execTwinsend, nextSafe_next, writeBack_safe, seamSend_safe, sendHbm_safe, respond_safe, command_safe, foldl_safe, foldl_pair_safe]

theorem heldRecord_safe : (heldRecord s).2.ms.safe := by grind [heldRecord, mantleRead_safe]
theorem applyRecord_safe : (applyRecord s).ms.safe := by unfold applyRecord; grind [heldRecord_safe, foldl_safe, foldl_pair_safe]

theorem execTwinrecv_safe (slot : Fin 16) (epoch : Option Word) : nextSafe (execTwinrecv slot epoch s) := by
  unfold execTwinrecv
  rw [nextSafe_iff]
  cases epoch with
  | none =>
    refine memorySafe_ite h (command_safe h _ _ _ _ (fun q hq => ?_) _)
    exact memorySafe_ite (respond_safe hq ..) (mantleUpdate_safe (setRf_safe hq ..) _)
  | some e =>
    have hsent := sendUpdate_safe (setReg_safe h .devEpoch 0 e) s.hem.step false
    exact memorySafe_ite (respond_safe (mantleUpdate_safe (setRf_safe (applyRecord_safe hsent) ..) _) ..) h

theorem execSeamLinkLoss_safe : nextSafe (execSeamLinkLoss s) := by grind [execSeamLinkLoss, nextSafe_next, seamDown_safe, respond_safe]

/-! ## The error unit -/

theorem setHold_safe (h : List Accepted) : (setHold s h).ms.safe := by unfold setHold; grind [setRf_safe]
theorem notifyRecord_safe (x : Accepted) : (notifyRecord s x).ms.safe := by grind [notifyRecord, emit_safe, msixPost_safe]
theorem ringPut_safe (x : Accepted) : (ringPut s x).ms.safe := by grind [ringPut, mantleWrite_safe, setRf_safe]
theorem loseRecord_safe : (loseRecord s).ms.safe := h
theorem holdPut_safe (x : Accepted) : (holdPut s x).ms.safe := by unfold holdPut; grind [notifyRecord_safe, setHold_safe, loseRecord_safe]
theorem writeRecord_safe (x : Accepted) : (writeRecord s x).ms.safe := by grind [writeRecord, holdPut_safe, loseRecord_safe, notifyRecord_safe, ringPut_safe]
theorem acceptFatal_safe (c : BitVec 8) : (acceptFatal s c).ms.safe := by grind [acceptFatal, setRf_safe, hemStop_safe]
theorem acceptRecord_safe (e : ErrRec) : (acceptRecord s e).ms.safe := by grind [acceptRecord, writeRecord_safe, acceptFatal_safe]
theorem execRecordAccept_safe : nextSafe (execRecordAccept s) := by grind [execRecordAccept, nextSafe_next, acceptRecord_safe]
theorem execMergeExpiry_safe : nextSafe (execMergeExpiry s) := by grind [execMergeExpiry, nextSafe_next, writeRecord_safe]
theorem execHoldDrain_safe : nextSafe (execHoldDrain s) := by grind [execHoldDrain, nextSafe_next, ringPut_safe, setHold_safe]
theorem errRingWr_safe (a : Agent) (v mask : Word) : (errRingWr s a v mask).ms.safe := by grind [errRingWr, accessError_safe, setReg_safe]
theorem execErrRingWrite_safe (a : Agent) (v : Word) : nextSafe (execErrRingWrite a v s) := by grind [execErrRingWrite, nextSafe_next, mmioCmd_safe, errRingWr_safe]
theorem errInjWr_safe (a : Agent) (v mask : Word) : (errInjWr s a v mask).ms.safe := by grind [errInjWr, accessError_safe, setReg_safe]
theorem execErrInjGo_safe (a : Agent) (v : Word) : nextSafe (execErrInjGo a v s) := by grind [execErrInjGo, nextSafe_next, mmioCmd_safe, errInjWr_safe]
theorem execInjectedErrorStore_safe (data : Word) : nextSafe (execInjectedErrorStore data s) := by grind [execInjectedErrorStore, nextSafe_next, homeWrite_safe]
theorem perfWr_safe (a : Agent) (r : RegName) (off : Nat) (v mask : Word) : (perfWr s a r off v mask).ms.safe := by grind [perfWr, accessError_safe, setReg_safe]
theorem execPerfCntWrite_safe (a : Agent) (v : Word) : nextSafe (execPerfCntWrite a v s) := by grind [execPerfCntWrite, nextSafe_next, mmioCmd_safe, perfWr_safe]
theorem perfCfgWr_safe (a : Agent) (v mask : Word) : (perfCfgWr s a v mask).ms.safe := by grind [perfCfgWr, setReg_safe, accessError_safe]
theorem execFreeze_safe (a : Agent) (v : Word) : nextSafe (execFreeze a v s) := by grind [execFreeze, nextSafe_next, mmioCmd_safe, perfCfgWr_safe]
theorem deadlineWr_safe (a : Agent) (v mask : Word) : (deadlineWr s a v mask).ms.safe := by unfold deadlineWr; grind [modThread_safe, accessError_safe]

theorem execPerfDeadlineWrite_safe (a : Agent) (v : Word) : nextSafe (execPerfDeadlineWrite a v s) := by
  grind [execPerfDeadlineWrite, nextSafe_next, mmioCmd_safe, deadlineWr_safe]

/-! ## Register accesses -/

theorem cfgRead_safe (a : Agent) : (cfgRead s a).2.ms.safe := by grind [cfgRead, drawFree_safe, setLinkF_safe]
theorem fecRead_safe (r : RegName) (i : Nat) (mask : Word) : (fecRead s r i mask).ms.safe := by grind [fecRead]

theorem regRead_safe (a : Agent) (off bytes : Nat) (r : RegName) (j : Nat) : (regRead s a off bytes r j).2.ms.safe := by
  grind [regRead, cfgRead_safe, fecRead_safe, setReg_safe]

theorem bar4Read_safe (o bytes : Nat) : (bar4Read s o bytes).2.ms.safe := by grind [bar4Read, accessErrorBar_safe]
theorem mmioRead_safe (a : Agent) (off bytes : Nat) : (mmioRead a off bytes s).2.ms.safe := by grind [mmioRead, bar4Read_safe, accessError_safe, regRead_safe]

theorem plainWrite_safe (a : Agent) (off : Nat) (r : RegName) (i : Nat) (v mask : Word) : (plainWrite s a off r i v mask).ms.safe := by
  grind [plainWrite, accessError_safe, setReg_safe]

theorem collCtlWrite_safe (a : Agent) (v mask : Word) : (collCtlWrite s a v mask).ms.safe := by
  grind [collCtlWrite, accessError_safe, setReg_safe, cancelWrite_safe, rollcallWrite_safe]

theorem stkstatWrite_safe (a : Agent) (w : Word) : (stkstatWrite s a w).ms.safe := by grind [stkstatWrite, trustedWrite_safe, setRf_safe, setMaint_safe]

theorem linkstatWrite_safe (a : Agent) (l : Nat) (v mask w : Word) : (linkstatWrite s a l v mask w).ms.safe := by
  grind [linkstatWrite, linkPowerWrite_safe, setReg_safe]

theorem capWrite_safe (a : Agent) (r : Nat) (v mask : Word) : (capWrite s a r v mask).ms.safe := by grind [capWrite, settleDown_safe, setReg_safe, accessError_safe]
theorem cfgWrite_safe (a : Agent) (v : Word) : (cfgWrite s a v).ms.safe := by grind [cfgWrite, drawFree_safe, rootCfg_safe]

theorem regWrite_safe (a : Agent) (off bytes : Nat) (r : RegName) (j : Nat) (v : Word) : (regWrite s a off bytes r j v).ms.safe := by
  have htrust {f : State → State} (hf : (f s).ms.safe) : (trustedWrite s a off f).ms.safe := by grind [trustedWrite, accessError_safe]
  rw [← memorySafe_iff]
  unfold regWrite
  extract_lets u i mask v64 w
  clear_value u i mask v64 w
  split <;>
    simp only [memorySafe_iff, ite_safe_iff, ite_self, h, htrust, setDmaSel_safe h, setPart_safe h, tgctlWrite_safe h, doorbell_safe h, setSel_safe h,
        accessError_safe h, plainWrite_safe h, qpushWrite_safe h, hemctlWrite_safe h, hemxdigWrite_safe h, collCtlWrite_safe h, collPostWrite_safe h,
        ringWrite_safe h, piWrite_safe h, chctlWrite_safe h, paceWrite_safe h, pegValWrite_safe h, pegAddWrite_safe h, tqpushWrite_safe h, clkWrite_safe h,
        tlbinvWrite_safe h, stkstatWrite_safe h, linkstatWrite_safe h, cfgWrite_safe h, irqpost_safe h, flctlWrite_safe h, prefWrite_safe h, enrollWrite_safe h,
        capWrite_safe h, errRingWr_safe h, errInjWr_safe h, perfWr_safe h, perfCfgWr_safe h, deadlineWr_safe h]

theorem msixWrite_safe (a : Agent) (off bytes : Nat) (v : Word) : (msixWrite s a off bytes v).ms.safe := by
  unfold msixWrite
  split
  · exact h
  · extract_lets
    exact msixFlush_safe (by exact h) _

theorem mmioPut_safe (a : Agent) (off bytes : Nat) (v : Word) : (mmioPut s a off bytes v).ms.safe := by
  grind [mmioPut, msixWrite_safe, trustedWrite_safe, regWrite_safe, accessError_safe]

theorem bar4Write_safe (o bytes : Nat) (v : Word) : (bar4Write s o bytes v).ms.safe := by grind [bar4Write, accessErrorBar_safe, mmioGate_safe, piWrite_safe]

theorem mmioWrite_safe (a : Agent) (off bytes : Nat) (v : Word) : (mmioWrite a off bytes v s).ms.safe := by
  grind [mmioWrite, bar4Write_safe, accessError_safe, mmioGate_safe, mmioPut_safe]

end

end Sys2Proof.Machine
end

section
/-! PROOFS. A cell's path to memory, exceptions, scalar and system instructions keep the form of memory (R220). -/

namespace Sys2Proof.Machine

open Sys2Proof.Safety

/-- The state in which the check of a gate's arguments ends. -/
def ArgOut.state : ArgOut → State
  | .pass s => s
  | .fault _ _ s => s
  | .wait _ s => s

section
variable {s : State} (h : s.ms.safe)
include h

/-! ## A cell's path to memory -/

theorem outboundFailed_safe (pa : Nat) : (outboundFailed s pa).ms.safe := h

theorem atLevel_safe {α : Type} (t : Tid) (l : BitVec 2) {f : State → α × State} (hf : ∀ q : State, q.ms.safe → (f q).2.ms.safe) : (atLevel t l f s).2.ms.safe := by
  grind [atLevel, modThread_safe]

theorem asSpec_safe (t : Tid) (sp : Option (BitVec 48)) {f : State → State} (hf : ∀ q : State, q.ms.safe → (f q).ms.safe) : (asSpec t sp f s).ms.safe := by
  grind [asSpec, modThread_safe]

theorem performEnt_safe (c : Nat) (e : WbEnt) : (performEnt s c e).ms.safe := by
  grind [performEnt, asSpec_safe, atLevel_safe, mmioWrite_safe, emit_safe, outboundFailed_safe, homeWriteFrom_safe, foldl_safe, foldl_pair_safe]

theorem wakeStores_safe (c : Nat) : (wakeStores s c).ms.safe := by grind [wakeStores, modThread_safe, foldl_safe, foldl_pair_safe]
theorem performAt_safe (c i : Nat) : (performAt s c i).ms.safe := by grind [performAt, modCell_safe, performEnt_safe, wakeStores_safe]
theorem rollBack_safe (t : Tid) : (rollBack s t).ms.safe := by grind [rollBack, modThread_safe, modCell_safe]
theorem deliver_safe (c : Nat) (l : LoadReq) (v : Word) : (deliver s c l v).ms.safe := h
theorem deliverLine_safe (c : Nat) (l : LoadReq) (b : Line) : (deliverLine s c l b).ms.safe := by grind [deliverLine, rollBack_safe, modThread_safe, deliver_safe]
theorem serveMiss_safe (c i : Nat) : (serveMiss s c i).ms.safe := by grind [serveMiss, readLineFrom_safe, modCell_safe]
theorem serveLoad_safe (c i : Nat) : (serveLoad s c i).ms.safe := by grind [serveLoad, readLineFrom_safe, modCell_safe]
theorem serveSlot_safe (c i : Nat) : (serveSlot s c i).ms.safe := by grind [serveSlot, readLineFrom_safe, modCell_safe]

theorem fillMiss_safe (c i : Nat) (bad : BitVec 32) : (fillMiss s c i bad).ms.safe := by
  grind [fillMiss, modCell_safe, deliverLine_safe, modThread_safe, l1Fill_safe, foldl_safe, foldl_pair_safe]

theorem fillSlot_safe (c i : Nat) : (fillSlot s c i).ms.safe := by grind [fillSlot, modCell_safe, modThread_safe]

theorem performLoad_safe (c i : Nat) : (performLoad s c i).ms.safe := by
  grind [performLoad, modCell_safe, atLevel_safe, mmioRead_safe, acquire_safe, deliver_safe, drawFree_safe, emit_safe, outboundFailed_safe, deliverLine_safe,
      readLineFrom_safe]

theorem serveLoads_safe (c : Nat) (p : Nat → Nat → Bool) : (serveLoads s c p).ms.safe := by
  grind [serveLoads, serveMiss_safe, stackServed_safe, serveLoad_safe, serveSlot_safe, foldl_safe, foldl_pair_safe]

theorem performDevice_safe (c j : Nat) : (performDevice s c j).ms.safe := by grind [performDevice, serveLoads_safe, performAt_safe, foldl_safe, foldl_pair_safe]
theorem deviceStep_safe (c thr n : Nat) : (deviceStep s c thr n).ms.safe := by grind [deviceStep, performLoad_safe, performDevice_safe]
theorem finishDevices_safe (c thr n : Nat) : (finishDevices s c thr n).ms.safe := by grind [finishDevices, deviceStep_safe, foldl_safe, foldl_pair_safe]
theorem settleStores_safe (c : Nat) (thr : Nat) : (settleStores s c thr).ms.safe := by grind [settleStores, performAt_safe, foldl_safe, foldl_pair_safe]
theorem settleLine_safe (c thr l : Nat) : (settleLine s c thr l).ms.safe := by grind [settleLine, performAt_safe, serveLoads_safe, foldl_safe, foldl_pair_safe]
theorem waitHome_safe (t : Tid) (ls : List Nat) : (waitHome s t ls).ms.safe := by grind [waitHome, modThread_safe, startLines_safe]
theorem wakeHomes_safe (c : Nat) : (wakeHomes s c).ms.safe := by grind [wakeHomes, modThread_safe, foldl_safe, foldl_pair_safe]
theorem releaseWait_safe (t : Tid) : ∀ n, releaseWait s t = some n → n.ms.safe := by grind [releaseWait, modCell_safe, waitHome_safe]
theorem release_safe (t : Tid) : (release s t).ms.safe := by grind [release, serveLoads_safe, settleStores_safe, finishDevices_safe]
theorem makeRoom_safe (c : Nat) : (makeRoom s c).ms.safe := by grind [makeRoom, finishDevices_safe, performAt_safe, serveLoads_safe]
theorem drainOldest_safe (c : Nat) : (drainOldest s c).ms.safe := h
theorem storeWaits_safe (t : Tid) : (storeWaits s t).ms.safe := h
theorem storesWait_safe (c : Nat) : (storesWait s c).ms.safe := by grind [storesWait, startLines_safe, drainOldest_safe]
theorem wbPut_safe (c thr l off : Nat) (bs : List Byte) (tile : Bool) : (wbPut s c thr l off bs tile).ms.safe := by grind [wbPut, modCell_safe, makeRoom_safe]
theorem wbDevice_safe (c thr pa : Nat) (bs : List Byte) : (wbDevice s c thr pa bs).ms.safe := by grind [wbDevice, makeRoom_safe, modCell_safe]

theorem cellStore_safe (c thr pa : Nat) (bs : List Byte) : (cellStore s c thr pa bs).ms.safe := by
  grind [cellStore, wbDevice_safe, wbPut_safe, l1Store_safe, foldl_safe, foldl_pair_safe]

theorem trainStreams_safe (c thr : Nat) (dm : Demand) (miss : Bool) : (trainStreams s c thr dm miss).ms.safe := by grind [trainStreams, modCell_safe]
theorem releaseStreams_safe (t : Tid) (va : Word) (k : Access) : (releaseStreams s t va k).ms.safe := by grind [releaseStreams, modCell_safe]
theorem lateIf_safe (c : Nat) (m : Mshr) : (lateIf s c m).ms.safe := by grind [lateIf, modCell_safe, perfEvent_safe]
theorem takeMiss_safe (c : Nat) (m : Mshr) : (takeMiss s c m).ms.safe := h
theorem mergeMiss_safe (c i : Nat) (f : Mshr → Mshr) : (mergeMiss s c i f).ms.safe := by grind [mergeMiss, modCell_safe, lateIf_safe]
theorem ownSettle_safe (c thr l off n : Nat) : (ownSettle s c thr l off n).ms.safe := by grind [ownSettle, settleLine_safe]
theorem queueLoad_safe (c : Nat) (r : LoadReq) (device : Bool) : (queueLoad s c r device).ms.safe := h

theorem loadMiss_safe (c : Nat) (dm : Demand) (r : LoadReq) : (loadMiss s c dm r).2.ms.safe := by
  grind [loadMiss, modCell_safe, mergeMiss_safe, trainStreams_safe, takeMiss_safe]

theorem cellLoad_safe (c : Nat) (dm : Demand) (r : LoadReq) : (cellLoad s c dm r).2.ms.safe := by
  grind [cellLoad, queueLoad_safe, ownSettle_safe, l1Lookup_safe, l1Parity_safe, trainStreams_safe, loadMiss_safe]

theorem lineNow_safe (c l : Nat) : (lineNow s c l).2.ms.safe := by grind [lineNow, mergeMiss_safe, serveMiss_safe, lineTaken_safe, coreLine_safe, l1Fill_safe]

theorem threadRead_safe (c thr pa n : Nat) : (threadRead s c thr pa n).2.ms.safe := by
  grind [threadRead, ownSettle_safe, l1Lookup_safe, l1Parity_safe, lineNow_safe, foldl_safe, foldl_pair_safe]

theorem execWriteBufferDrain_safe (c : Cid) (k : Nat) : nextSafe (execWriteBufferDrain c k s) := by grind [execWriteBufferDrain, nextSafe_next, modCell_safe]
theorem execWriteBufferTimeout_safe (c : Cid) (k : Nat) : nextSafe (execWriteBufferTimeout c k s) := by grind [execWriteBufferTimeout, nextSafe_next, modCell_safe]

theorem execStorePerformed_safe (c : Cid) (k : Nat) : nextSafe (execStorePerformed c k s) := by
  grind [execStorePerformed, nextSafe_next, performAt_safe, startHome_safe]

theorem execPrefetchIssue_safe (t : Tid) (line : Nat) : nextSafe (execPrefetchIssue t line s) := by
  grind [execPrefetchIssue, nextSafe_next, modCell_safe, perfEvent_safe, takeMiss_safe]

theorem pegRelease_safe (a : Agent) (off : Nat) : ∀ n, pegRelease s a off = some n → n.ms.safe := by grind [pegRelease, release_safe]
theorem pegAcquire_safe (a : Agent) (off : Nat) : (pegAcquire s a off).ms.safe := by grind [pegAcquire, acquire_safe]

theorem pegCmd_safe (a : Agent) (off : Nat) {f : State → State} (hf : ∀ q : State, q.ms.safe → (f q).ms.safe) : (pegCmd s a off f).ms.safe := by
  grind [pegCmd, pegRelease_safe]

theorem execRegisterWrite_safe (a : Agent) (off : Nat) (bytes : Nat) (v : Word) : nextSafe (execRegisterWrite a off bytes v s) := by
  grind [execRegisterWrite, nextSafe_next, pegCmd_safe, mmioWrite_safe]

theorem mmioReadCmd_safe (a : Agent) (off : Nat) {f : State → Word × State} (hf : ∀ q : State, q.ms.safe → (f q).2.ms.safe) : (mmioReadCmd s a off f).ms.safe := by
  grind [mmioReadCmd, pegAcquire_safe, emit_safe]

theorem execReadClear_safe (a : Agent) (off : Nat) (bytes : Nat) : nextSafe (execReadClear a off bytes s) := by
  grind [execReadClear, nextSafe_next, mmioReadCmd_safe, mmioRead_safe]

theorem execPegValWrite_safe (a : Agent) (h : Half) (v : Word) : nextSafe (execPegValWrite a h v s) := by
  grind [execPegValWrite, nextSafe_next, pegCmd_safe, mmioGate_safe, pegValWrite_safe]

theorem execPegValRead_safe (a : Agent) (h : Half) : nextSafe (execPegValRead a h s) := by grind [execPegValRead, nextSafe_next, mmioReadCmd_safe]

theorem execPegAddWrite_safe (a : Agent) (h : Half) (v : Word) : nextSafe (execPegAddWrite a h v s) := by
  grind [execPegAddWrite, nextSafe_next, pegCmd_safe, mmioGate_safe, pegAddWrite_safe]

/-! ## Exceptions and calls -/

theorem srPut_safe (t : Tid) (n : Nat) (v : Word) : (srPut s t n v).ms.safe := h
theorem srPutF_safe (t : Tid) (n hi lo v : Nat) : (srPutF s t n hi lo v).ms.safe := h
theorem srWrite_safe (t : Tid) (n : Nat) (v : Word) : (srWrite s t n v).ms.safe := h
theorem holdAction_safe (t : Tid) : (holdAction s t).ms.safe := h

theorem doubleFault_safe (t : Tid) (pc : Word) (e : Exc) (esc : Bool) : (doubleFault s t pc e esc).ms.safe := by
  grind [doubleFault, reportThread_safe, emit_safe, modThread_safe, foldl_safe, foldl_pair_safe]

theorem threadReadAny_safe (t : Tid) (pa n : Nat) : (threadReadAny s t pa n).2.ms.safe := by grind [threadReadAny, mmioRead_safe, drawFree_safe, threadRead_safe]
theorem readAs_safe (t : Tid) (l : BitVec 2) (va : Word) (n : Nat) : (readAs s t l va n).2.ms.safe := by grind [readAs, translate_safe, threadReadAny_safe]

theorem readWordsAs_safe (t : Tid) (l : BitVec 2) (n : Nat) (va : Word) : (readWordsAs t l n va s).2.ms.safe := by
  induction n generalizing va s with
  | zero => exact h
  | succ n ih => grind [readWordsAs, readAs_safe]

theorem enterRegs_safe (t : Tid) (l : Nat) (pc : Word) (e : Exc) (esc : Bool) (prio : Option Nat) : (enterRegs s t l pc e esc prio).ms.safe := h
theorem vectorRead_safe (t : Tid) (l code : Nat) : (vectorRead s t l code).2.ms.safe := by grind [vectorRead, readAs_safe]

theorem enterAt_safe (t : Tid) (pc : Word) (n l : Nat) (e : Exc) (esc : Bool) (prio : Option Nat) (force : Bool) :
    (enterAt t pc n s l e esc prio force).ms.safe := by
  induction n generalizing s l e esc prio force with
  | zero => exact doubleFault_safe h ..
  | succ n ih => grind [enterAt, doubleFault_safe, enterRegs_safe, holdAction_safe, vectorRead_safe, modThread_safe, waitHome_safe]

theorem unlessWaits_safe (t : Tid) {q : State} (hq : q.ms.safe) : (unlessWaits s t q).ms.safe := by
  unfold unlessWaits; grind [holdAction_safe, storeWaits_safe, modThread_safe]

theorem orStay_safe (t : Tid) {q : State} (hq : q.ms.safe) : (orStay s t q).ms.safe := by unfold orStay; grind
theorem takeExc_safe (t : Tid) (pc : Word) (e : Exc) : (takeExc s t pc e).ms.safe := by unfold takeExc; grind [enterAt_safe]
theorem raise_safe (t : Tid) (e : Exc) : (raise s t e).ms.safe := by grind [raise, takeExc_safe]

theorem illegalReturn_safe (t : Tid) (l : Nat) : (illegalReturn s t l).ms.safe := by
  unfold illegalReturn; grind [srPut_safe, srPutF_safe, holdAction_safe, vectorRead_safe, enterAt_safe, modThread_safe, waitHome_safe]

theorem keepArrive_safe (t : Tid) : (keepArrive s t).ms.safe := by grind [keepArrive, srPut_safe]
theorem dropFrom_safe (t : Tid) (n : Nat) : (dropFrom s t n).ms.safe := h

theorem takeInterrupt_safe (t : Tid) (n : Nat) : (takeInterrupt s t n).ms.safe := by
  unfold takeInterrupt; grind [leaveWaves_safe, keepArrive_safe, rollBack_safe, enterAt_safe, modThread_safe]

theorem takeLate_safe (t : Tid) : (takeLate s t).ms.safe := by
  grind [takeLate, dropFrom_safe, leaveWaves_safe, keepArrive_safe, orStay_safe, takeExc_safe, modThread_safe]

theorem takeLates_safe (c : Nat) : (takeLates s c).ms.safe := by grind [takeLates, takeLate_safe, foldl_safe, foldl_pair_safe]

theorem gateEnter_safe (t : Tid) (n : Nat) (w0 w1 w2 : Word) : (gateEnter s t n w0 w1 w2).ms.safe := by
  unfold gateEnter; grind [waitHome_safe, translate_safe, enterAt_safe, holdAction_safe, storeWaits_safe, cellStore_safe, wx_safe, modThread_safe, foldl_safe,
      foldl_pair_safe]

theorem checkRange_safe (t : Tid) (d : Nat) (k : Access) (x : XCtx) (n a hi : Nat) : (checkRange t d k x n a hi s).state.ms.safe := by
  induction n generalizing a s with
  | zero => exact h
  | succ n ih => grind [checkRange, ArgOut.state, translate_safe]

theorem checkArg_safe (t : Tid) (w2 : Word) (k : Nat) : (checkArg s t w2 k).state.ms.safe := by
  grind [checkArg, ArgOut.state, checkRange_safe]

theorem checkArgs_safe (t : Tid) (w2 : Word) (l : List Nat) : (checkArgs t w2 l s).state.ms.safe := by
  induction l generalizing s with
  | nil => exact h
  | cons k ks ih => grind [checkArgs, ArgOut.state, checkArg_safe]

theorem doGate_safe (t : Tid) (n : Nat) : (doGate s t n).ms.safe := by
  unfold doGate; grind [ArgOut.state, raise_safe, holdAction_safe, waitHome_safe, readAs_safe, gateEnter_safe, checkArgs_safe]

theorem doXret_safe (t : Tid) : (doXret s t).ms.safe := by grind [doXret, illegalReturn_safe, srPut_safe, modThread_safe, wx_safe]

theorem doXretG_safe (t : Tid) : (doXretG s t).ms.safe := by
  unfold doXretG; grind [holdAction_safe, waitHome_safe, readWordsAs_safe, raise_safe, illegalReturn_safe, modThread_safe, wx_safe]

/-! ## Scalar instructions -/

theorem issued_safe (t : Tid) : (issued s t).ms.safe := by grind [issued, modCell_safe, modThread_safe, perfEvent_safe, foldl_safe, foldl_pair_safe]
theorem nextPc_safe (t : Tid) : (nextPc s t).ms.safe := h
theorem writeNext_safe (t : Tid) (rd : Reg) (v : Word) : (writeNext s t rd v).ms.safe := h

theorem raiseScalar_safe (t : Tid) (e : Exc) (s0 : State) : ∀ n, raiseScalar s0 s t e = some n → n.ms.safe := by
  grind [raiseScalar, unlessWaits_safe, raise_safe, issued_safe]

theorem xlatWait_safe (t : Tid) (x : XCtx) (va : Word) (k : Access) : (xlatWait s t x va k).ms.safe := by grind [xlatWait, waitHome_safe]
theorem divTake_safe (c : Nat) (i : Instr) : (divTake s c i).ms.safe := by grind [divTake, modCell_safe]
theorem runAlu_safe (i : Instr) : ∀ n, runAlu i s = some n → n.ms.safe := by grind [runAlu, divTake_safe, writeNext_safe, issued_safe]
theorem runBranch_safe (i : Instr) : ∀ n, runBranch i s = some n → n.ms.safe := by grind [runBranch, modThread_safe, issued_safe]

theorem runJump_safe (t : Tid) (rd : Reg) (srcs : List Reg) (target : Thread → Word) : ∀ n, runJump s t rd srcs target = some n → n.ms.safe := by
  grind [runJump, modThread_safe, issued_safe]

theorem loadDone_safe (t : Tid) (rd : Reg) (va : Word) (o : LoadOut) (s0 : State) : ∀ n, loadDone s0 s t rd va o = some n → n.ms.safe := by
  unfold loadDone; grind [writeNext_safe, issued_safe, modThread_safe, raiseScalar_safe]

theorem runLoad_safe (i : Instr) : ∀ n, runLoad i s = some n → n.ms.safe := by
  intro n
  unfold runLoad
  split
  · simp
  · rename_i f _
    have ht := translate_safe h (cellOf f.t) (ctxOf s f.t) (f.addr (thread s f.t)) .load
    dsimp only
    generalize translate s (cellOf f.t) (ctxOf s f.t) (f.addr (thread s f.t)) .load = z at ht ⊢
    obtain ⟨_ | pa, q⟩ := z
    · grind [raiseScalar_safe, xlatWait_safe, releaseStreams_safe]
    · grind [raiseScalar_safe, xlatWait_safe, holdAction_safe, writeNext_safe, issued_safe, waitHome_safe, cellLoad_safe, loadDone_safe]

theorem runStore_safe (i : Instr) : ∀ n, runStore i s = some n → n.ms.safe := by
  intro n
  unfold runStore
  split
  · simp
  · rename_i f _
    have ht := translate_safe h (cellOf f.t) (ctxOf s f.t) (f.addr (thread s f.t)) .store
    dsimp only
    generalize translate s (cellOf f.t) (ctxOf s f.t) (f.addr (thread s f.t)) .store = z at ht ⊢
    obtain ⟨_ | pa, q⟩ := z
    · grind [raiseScalar_safe, xlatWait_safe, releaseStreams_safe]
    · grind [raiseScalar_safe, xlatWait_safe, trainStreams_safe, holdAction_safe, nextPc_safe, issued_safe, modThread_safe, storeWaits_safe, cellStore_safe]

/-! ## The matrix unit -/

theorem freeRow_safe (width : Nat) : (freeRow s width).2.ms.safe := by grind [freeRow, drawFree_safe, foldl_safe, foldl_pair_safe]
theorem harpRetry_safe (c : Nat) (f : TForm) (pc : Word) : (harpRetry s c f pc).ms.safe := by grind [harpRetry, modCell_safe, coreErr_safe]

theorem mxPut_safe (t : Tid) (f : TForm) (d : DCtx) (th : Thread) (outs : List (List MxOut)) : (mxPut t f d th outs s).s.ms.safe := by
  unfold mxPut; grind [foldl_safe, freeRow_safe, modCell_safe, reportThread_safe, postInt_safe]

theorem mxRun_safe (t : Tid) (f : TForm) (d : DCtx) (th : Thread) (first again : Option HarpHit) : (mxRun t f d th first again s).2.ms.safe := by
  grind [mxRun, harpRetry_safe, modCell_safe, reportThread_safe]

theorem mxRun_run_safe (t : Tid) (f : TForm) (d : DCtx) (th : Thread) (first again : Option HarpHit) :
    ∀ r, (mxRun t f d th first again s).1 = some r → r.s.ms.safe := by
  grind [mxRun, mxPut_safe, harpRetry_safe]

/-! ## System instructions -/

theorem illegalNow_safe (t : Tid) (w : BitVec 32) : ∀ n, illegalNow s t w = some n → n.ms.safe := by grind [illegalNow, raiseScalar_safe]
theorem srWriteBy_safe (t : Tid) (n : Nat) (v : Word) : (srWriteBy s t n v).ms.safe := by grind [srWriteBy, gainTiles_safe, srWrite_safe]

theorem runSr_safe (t : Tid) (op : SrOp) (rd rs1 : Reg) (num : BitVec 12) (w : BitVec 32) : ∀ n, runSr s t op rd rs1 num w = some n → n.ms.safe := by
  grind [runSr, illegalNow_safe, issued_safe, srWriteBy_safe, writeNext_safe]

theorem runFence_safe (t : Tid) (rel acq : Bool) : ∀ n, runFence s t rel acq = some n → n.ms.safe := by
  grind [runFence, releaseWait_safe, issued_safe, release_safe, acquire_safe, nextPc_safe]

theorem runFenceI_safe (t : Tid) : ∀ n, runFenceI s t = some n → n.ms.safe := by grind [runFenceI, nextPc_safe, modCell_safe, issued_safe]
theorem runYield_safe (t : Tid) : ∀ n, runYield s t = some n → n.ms.safe := by grind [runYield, modThread_safe, issued_safe]
theorem runPause_safe (t : Tid) (imm : BitVec 12) : ∀ n, runPause s t imm = some n → n.ms.safe := by grind [runPause, runYield_safe, modThread_safe, issued_safe]

theorem runTend_safe (t : Tid) : ∀ n, runTend s t = some n → n.ms.safe := by
  grind [runTend, releaseWait_safe, release_safe, issued_safe, modThread_safe, capoHeld_safe]

theorem runLevel_safe (t : Tid) (rs : List Reg) {f : State → State} (hf : ∀ q : State, q.ms.safe → (f q).ms.safe) : ∀ n, runLevel s t rs f = some n → n.ms.safe := by
  grind [runLevel, unlessWaits_safe, issued_safe]

theorem runGate_safe (t : Tid) (imm : BitVec 12) : ∀ n, runGate s t imm = some n → n.ms.safe := by grind [runGate, runLevel_safe, doGate_safe]
theorem runXret_safe (t : Tid) : ∀ n, runXret s t = some n → n.ms.safe := by grind [runXret, runLevel_safe, doXret_safe]
theorem runXretG_safe (t : Tid) : ∀ n, runXretG s t = some n → n.ms.safe := by grind [runXretG, runLevel_safe, doXretG_safe]
theorem settleFor_safe (t : Tid) (l : Nat) : (settleFor s t l).ms.safe := by grind [settleFor, settleLine_safe]
theorem amoHold_safe (t : Tid) (i : Instr) (pa : Nat) : (amoHold s t i pa).ms.safe := h
theorem staleFills_safe (c l : Nat) : (staleFills s c l).ms.safe := h

theorem amoAt_safe (t : Tid) (op n : Nat) (rd rs1 rs2 : Reg) (pa : Nat) (aq : Bool) : (amoAt s t op n rd rs1 rs2 pa aq).ms.safe := by
  grind [amoAt, coreRead_safe, settleFor_safe, raise_safe, staleFills_safe, homeWriteFrom_safe, l1Drop_safe, writeNext_safe, acquire_safe]

theorem amoSend_safe (t : Tid) (i : Instr) (pa : Nat) : (amoSend s t i pa).ms.safe := by grind [amoSend, modThread_safe, startLines_safe, modCell_safe]

theorem runAmo_safe (i : Instr) (t : Tid) (op : Nat) (rd rs1 rs2 : Reg) (d aq rl : Bool) : ∀ n, runAmo i s t op rd rs1 rs2 d aq rl = some n → n.ms.safe := by
  intro n
  unfold runAmo
  have ht := translate_safe h (cellOf t) (ctxOf s t) (rx s t rs1) .atomic
  dsimp only
  generalize translate s (cellOf t) (ctxOf s t) (rx s t rs1) .atomic = z at ht ⊢
  obtain ⟨_ | pa, q⟩ := z
  · grind [xlatWait_safe, raiseScalar_safe, releaseStreams_safe]
  · have hseen : (if inHbm pa then trainStreams q (cellOf t) (thrOf t) (demandAt q t (rx s t rs1)) false else q).ms.safe := by grind [trainStreams_safe]
    dsimp only
    generalize (if inHbm pa then trainStreams q (cellOf t) (thrOf t) (demandAt q t (rx s t rs1)) false else q) = w at hseen ⊢
    have hgo : (issued (if rl then release w t else w) t).ms.safe := by grind [issued_safe, release_safe]
    generalize issued (if rl then release w t else w) t = u at hgo ⊢
    grind [xlatWait_safe, raiseScalar_safe, holdAction_safe, releaseWait_safe, amoHold_safe, unlessWaits_safe, amoAt_safe, amoSend_safe]

theorem pegWait_safe (t : Tid) (p v : Nat) (eq : Bool) (rd : Reg) : (pegWait s t p v eq rd).ms.safe := by
  grind [pegWait, acquire_safe, writeNext_safe, modThread_safe]

theorem pegArriveAt_safe (t : Tid) (p n : Nat) (rd : Reg) : (pegArriveAt s t p n rd).ms.safe := by
  grind [pegArriveAt, release_safe, modThread_safe, finishArrive_safe, pegAddTo_safe]

theorem pegDo_safe (t : Tid) (op : PegOp) (rd : Reg) (p : Nat) (v : Word) : (pegDo s t op rd p v).ms.safe := by
  unfold pegDo; grind [acquire_safe, writeNext_safe, release_safe, pegAddTo_safe, pegPut_safe, pegWait_safe, pegArriveAt_safe]

theorem runPeg_safe (t : Tid) (op : PegOp) (rd rs1 rs2 : Reg) : ∀ n, runPeg s t op rd rs1 rs2 = some n → n.ms.safe := by
  grind [runPeg, raiseScalar_safe, releaseWait_safe, pegDo_safe, issued_safe]

theorem execPauseExpiry_safe (t : Tid) : nextSafe (execPauseExpiry t s) := by grind [execPauseExpiry, nextSafe_next, modThread_safe]
theorem execStopRequest_safe (t : Tid) : nextSafe (execStopRequest t s) := by grind [execStopRequest, nextSafe_next, postInt_safe]

theorem execHaltedThreadResume_safe (t : Tid) : nextSafe (execHaltedThreadResume t s) := by
  grind [execHaltedThreadResume, nextSafe_next, takeLate_safe, modThread_safe]

end

end Sys2Proof.Machine
end

section
/-! PROOFS. The units, issue and the Lining's engines keep the form of memory (R220). -/

namespace Sys2Proof.Machine

open Sys2Proof.Safety

/-! ## What carries a state through an instruction's elements -/

/-- The accesses through which a decoupled instruction reaches memory keep its form. -/
structure VAcc.safe (acc : VAcc) : Prop where
  check : ∀ (q : State) va n wr, q.ms.safe → (acc.check q va n wr).2.ms.safe
  load : ∀ (q : State) pa n, q.ms.safe → (acc.load q pa n).2.ms.safe
  store : ∀ (q : State) pa bs, q.ms.safe → (acc.store q pa bs).ms.safe

/-- The same of an update instruction's accesses. -/
structure UAcc.safe (acc : UAcc) : Prop where
  rd : ∀ (q : State) va n, q.ms.safe → (acc.rd q va n).2.ms.safe
  wr : ∀ (q : State) va n, q.ms.safe → (acc.wr q va n).2.ms.safe
  load : ∀ (q : State) pa n, q.ms.safe → (acc.load q pa n).2.ms.safe
  store : ∀ (q : State) pa bs, q.ms.safe → (acc.store q pa bs).ms.safe

/-- The state in which a unit leaves an instruction. -/
def DRes.state : DRes → State
  | .done s _ _ => s
  | .exc s _ => s
  | .hold s => s
  | .wait s => s
  | .part s => s

section
variable {acc : VAcc} (hacc : acc.safe)
include hacc

theorem tCheck_safe (wr : Bool) (ps : List (Word × Nat)) {q : State} (hq : q.ms.safe) : (tCheck acc wr ps q).2.ms.safe := by
  rw [tCheck]
  exact foldl_pair_safe (fun q p hq => by grind [hacc.check q.2 p.1 p.2 wr hq]) ps hq

theorem vMemEl_safe (f : VForm) (st : Bool) (k : VAddr) (w : Nat) (d : DCtx) (idx : List Nat) (data : List (List Nat)) (i : Nat) {r : VMemRun} (hr : r.s.ms.safe) :
    (vMemEl acc f st k w d idx data i r).s.ms.safe := by
  unfold vMemEl
  extract_lets nf b chk
  have hchk : chk.2.ms.safe := foldl_pair_safe (fun q i hq => by grind [hacc.check]) _ hr
  clear_value chk
  obtain ⟨⟨_ | e, pas⟩, q⟩ := chk
  · grind [foldl_safe, foldl_pair_safe, hacc.load, hacc.store]
  · exact hchk

theorem vMemRun_safe (f : VForm) (st : Bool) (k : VAddr) (w : Nat) (d : DCtx) (th : Thread) (start : Nat) {q : State} (hq : q.ms.safe) :
    (vMemRun acc f st k w d th start q).s.ms.safe := by
  rw [vMemRun]
  exact foldl_inv (fun r : VMemRun => r.s.ms.safe) _ (fun r i hr => by grind [vMemEl_safe]) _ _ hq

theorem tLoadRow_safe (c t : Nat) (f : TForm) (d : DCtx) (th : Thread) (r : Nat) {q : TRun} (hq : q.s.ms.safe) : (tLoadRow acc c t f d th r q).s.ms.safe := by
  unfold tLoadRow
  extract_lets w cols fa fd blk els flat ps
  have hchk := tCheck_safe hacc false ps hq
  generalize tCheck acc false ps q.s = z at hchk ⊢
  obtain ⟨⟨_ | e, pas⟩, u⟩ := z
  · grind [foldl_pair_safe, hacc.load, modCell_safe]
  · exact hchk

theorem tStoreRow_safe (c t : Nat) (f : TForm) (d : DCtx) (th : Thread) (r : Nat) {q : TRun} (hq : q.s.ms.safe) : (tStoreRow acc c t f d th r q).s.ms.safe := by
  unfold tStoreRow
  extract_lets w cols fa fd blk tr x nb vals scales sx rm conv addr wm row bytes scs ps
  have hchk := tCheck_safe hacc true (ps.map (fun p => p.1)) hq
  generalize tCheck acc true _ q.s = z at hchk ⊢
  obtain ⟨⟨_ | e, pas⟩, u⟩ := z
  · grind [foldl_safe, hacc.store]
  · exact hchk

theorem tMemRun_safe (k : TKind) (c : Nat) (f : TForm) (d : DCtx) (th : Thread) (start : Nat) {q : State} (hq : q.ms.safe) :
    (tMemRun acc k c f d th start q).s.ms.safe := by
  rw [tMemRun]
  have hrows := foldl_inv (fun r : TRun => r.s.ms.safe) (fun q r =>
    if r < start || q.stop.isSome || q.hold then q
    else if k = .ld then tLoadRow acc c f.rd.toNat f d th r q else tStoreRow acc c f.rd.toNat f d th r q)
    (fun r i hr => by grind [tLoadRow_safe, tStoreRow_safe]) (List.range (w1Rows f.w1)) { s := q } hq
  grind [modCell_safe]

end

section
variable {acc : UAcc} (hacc : acc.safe)
include hacc

theorem updCheck_safe (fs : List Nat) (vas : List Word) (bm : Option Word) {q : State} (hq : q.ms.safe) : (updCheck acc fs vas bm q).2.ms.safe := by
  unfold updCheck
  extract_lets one ps r w
  have hrd (a : (Option Exc × List Nat) × State) (va : Word) (n : Nat) (ha : a.2.ms.safe) : (one a acc.rd va n).2.ms.safe := by grind [hacc.rd]
  have hwr (a : (Option Exc × List Nat) × State) (va : Word) (n : Nat) (ha : a.2.ms.safe) : (one a acc.wr va n).2.ms.safe := by grind [hacc.wr]
  have hr : r.2.ms.safe := foldl_pair_safe (fun a p ha => hrd a _ _ ha) _ hq
  have hw : w.2.ms.safe := foldl_pair_safe (fun a p ha => by grind) _ hr
  cases bm with
  | none => exact hw
  | some va => exact hrd _ va 1 hw

theorem updEl_safe (opt : Nat) (b : UpdBlk) (c : UpdConst) (gf : FV) (d : DCtx) (th : Thread) (held : Bool) (k : Nat) {q : UpdRun} (hq : q.s.ms.safe) :
    (updEl acc opt b c gf d th held k q).s.ms.safe := by
  unfold updEl
  extract_lets fs i vas bm
  have hchk := updCheck_safe hacc fs vas bm hq
  generalize updCheck acc fs vas bm q.s = z at hchk ⊢
  obtain ⟨⟨_ | e, rp, wp, bp⟩, u⟩ := z
  · grind [foldl_safe, foldl_pair_safe, hacc.load, hacc.store]
  · exact hchk

theorem updRun_safe (opt : Nat) (b : UpdBlk) (gf : FV) (f : LForm) (d : DCtx) (th : Thread) (held : Bool) (start : Nat) {q : State} (hq : q.ms.safe) :
    (updRun acc opt b gf f d th held start q).s.ms.safe := by
  rw [updRun]
  exact foldl_inv (fun r : UpdRun => r.s.ms.safe) _ (fun r i hr => by grind [updEl_safe]) _ _ hq

end

section
variable {s : State} (h : s.ms.safe)
include h

/-! ## Tiles -/

/-! ## The units -/

theorem enqueue_safe (f : DecForm) (i : Instr) : (enqueue s f i).ms.safe := by grind [enqueue, issued_safe, modThread_safe]
theorem elCheck_safe (t : Tid) (x : XCtx) (va : Word) (n : Nat) (wr : Bool) : (elCheck t x s va n wr).2.ms.safe := by grind [elCheck, translate_safe]
theorem elWait_safe (t : Tid) (x : XCtx) (va : Word) (n : Nat) (wr : Bool) : (elWait t x s va n wr).2.ms.safe := by grind [elWait, elCheck_safe, startLines_safe]
theorem tileRead_safe (t : Tid) (pa n : Nat) : (tileRead t s pa n).2.ms.safe := by grind [tileRead, coreRead_safe, settleLine_safe]

theorem tileWrite_safe (t : Tid) (tile : Bool) (pa : Nat) (bs : List Byte) : (tileWrite t tile s pa bs).ms.safe := by
  grind [tileWrite, wbPut_safe, l1Drop_safe, foldl_safe, foldl_pair_safe]

theorem vecSee_safe (t : Tid) (x : XCtx) (va : Word) (k : Nat) (wr : Bool) : (vecSee t x s va k wr).2.ms.safe := by
  grind [vecSee, elWait_safe, releaseStreams_safe, trainStreams_safe]

theorem vecNow_safe (t : Tid) (x : XCtx) (va : Word) (k : Nat) (wr : Bool) : (vecNow t x s va k wr).2.ms.safe := by grind [vecNow, vecSee_safe]
theorem tileNow_safe (t : Tid) (x : XCtx) (va : Word) (n : Nat) (wr : Bool) : (tileNow t x s va n wr).2.ms.safe := by grind [tileNow, elWait_safe, startLines_safe]
theorem modEntry_safe (t : Tid) (n : Nat) (f : DecEntry → DecEntry) : (modEntry s t n f).ms.safe := h

omit h in
theorem vecAcc_safe (t : Tid) (x : XCtx) : (vecAcc t x).safe :=
  ⟨fun _ _ _ _ hq => vecNow_safe hq .., fun _ _ _ hq => threadRead_safe hq .., fun _ _ _ hq => cellStore_safe hq ..⟩

omit h in
theorem tileAcc_safe (t : Tid) (x : XCtx) : (tileAcc t x).safe :=
  ⟨fun _ _ _ _ hq => tileNow_safe hq .., fun _ _ _ hq => tileRead_safe hq .., fun _ _ _ hq => tileWrite_safe hq ..⟩

omit h in
theorem updAcc_safe (t : Tid) (x : XCtx) : (updAcc t x).safe :=
  ⟨fun _ _ _ hq => tileNow_safe hq .., fun _ _ _ hq => elWait_safe hq .., fun _ _ _ hq => tileRead_safe hq .., fun _ _ _ hq => tileWrite_safe hq ..⟩

theorem dIllegal_safe (e : DecEntry) : (dIllegal s e).state.ms.safe := h
theorem waitAt_safe (t : Tid) (e : DecEntry) (k : Nat) : (waitAt s t e k).state.ms.safe := h
theorem commitWindow_safe (t : Tid) : (commitWindow s t).ms.safe := by grind [commitWindow, cellStore_safe, modThread_safe, foldl_safe, foldl_pair_safe]
theorem setFlags_safe (t : Tid) (fl : Nat) : (setFlags s t fl).ms.safe := h

theorem runVMem_safe (t : Tid) (e : DecEntry) (f : VForm) (st : Bool) (k : VAddr) : (runVMem s t e f st k).state.ms.safe := by
  have hrun := vMemRun_safe (vecAcc_safe t (entD s t e).x) f st k ((etBits f.et).getD 8) (entD s t e) (thread s t) (startAt s t e) h
  unfold runVMem
  grind [DRes.state, dIllegal_safe, waitAt_safe, modThread_safe, storesWait_safe, srPut_safe]

theorem runTMem_safe (t : Tid) (e : DecEntry) (f : TForm) (k : TKind) : (runTMem s t e f k).state.ms.safe := by
  have hrun := tMemRun_safe (tileAcc_safe t (entD s t e).x) k (cellOf t) f (entD s t e) (thread s t) (startAt s t e) h
  unfold runTMem
  grind [DRes.state, dIllegal_safe, waitAt_safe, storesWait_safe, srPut_safe, srPutF_safe]

theorem tMovRun_safe (c : Nat) (f : TForm) (d : DCtx) (th : Thread) : (tMovRun c f d th s).s.ms.safe := by
  unfold tMovRun; exact setCell_safe h ..

theorem runTMov_safe (t : Tid) (e : DecEntry) (f : TForm) : (runTMov s t e f).state.ms.safe := by
  unfold runTMov; grind [DRes.state, dIllegal_safe, tMovRun_safe]

theorem runTClr_safe (t : Tid) (e : DecEntry) (f : TForm) : (runTClr s t e f).state.ms.safe := by
  unfold runTClr; grind [DRes.state, dIllegal_safe, modCell_safe]

theorem runTExt_safe (t : Tid) (e : DecEntry) (f : TForm) : (runTExt s t e f).state.ms.safe := by
  unfold runTExt; grind [DRes.state, dIllegal_safe]

theorem runMx_safe (t : Tid) (e : DecEntry) (f : TForm) : (runMx s t e f).state.ms.safe := by
  unfold runMx; grind [DRes.state, mxRun_safe, mxRun_run_safe]

theorem runUpd_safe (t : Tid) (e : DecEntry) (f : LForm) (opt : Nat) : (runUpd s t e f opt).state.ms.safe := by
  rw [runUpd]
  split
  · exact h
  have hat := tileNow_safe h t (updRead (entD s t e).x) e.a 64 false
  extract_lets d
  generalize tileNow t (updRead d.x) s e.a 64 false = z at hat ⊢
  obtain ⟨_ | pa, q⟩ := z
  · grind [DRes.state]
  have hread := tileRead_safe hat t pa 64
  dsimp only at hread ⊢
  generalize tileRead t q pa 64 = z at hread ⊢
  obtain ⟨⟨bs, _ | _⟩, w⟩ := z
  · have hrun (b) := updRun_safe (updAcc_safe t d.x) opt b (updGf w b) f d (thread w t) e.spec.isSome (startAt w t e) hread
    grind [DRes.state, dIllegal_safe, waitAt_safe, storesWait_safe, srPut_safe, srPutF_safe]
  · exact hread

theorem runVPure_safe (t : Tid) (e : DecEntry) : (runVPure s t e).state.ms.safe := by
  unfold runVPure; grind [DRes.state, dIllegal_safe, setThread_safe]

theorem dRun_safe (t : Tid) (e : DecEntry) : (dRun s t e).state.ms.safe := by
  unfold dRun; grind [dIllegal_safe, runTMem_safe, runTMov_safe, runTClr_safe, runTExt_safe, runMx_safe, runVMem_safe, runUpd_safe, runVPure_safe]

theorem arrive_safe (t : Tid) (tile : Bool) : (arrive s t tile).ms.safe := by grind [arrive, setThread_safe]
theorem beginEntry_safe (t : Tid) (e : DecEntry) : (beginEntry s t e).ms.safe := h
theorem keepLine_safe (t : Tid) (n l : Nat) (b : Line) : (keepLine s t n l b).ms.safe := h
theorem vecAsk_safe (t : Tid) (l : Nat) : ∀ n, vecAsk s t l = some n → n.ms.safe := by grind [vecAsk, mergeMiss_safe, takeMiss_safe, modCell_safe]

theorem vecLine_safe (t : Tid) (n : Nat) (va : Word) (pa k : Nat) : (vecLine t n va pa k s).2.ms.safe := by
  grind [vecLine, startLines_safe, settleLine_safe, coreLine_safe, keepLine_safe, startHome_safe, trainStreams_safe, l1Lookup_safe, l1Parity_safe, vecAsk_safe]

theorem vecRest_safe (t : Tid) (e : DecEntry) (f : VForm) (k : VAddr) : ∀ n, vecRest s t e f k = some n → n.ms.safe := by
  grind [vecRest, modThread_safe, postInt_safe]

omit h in
theorem vPipeEl_safe (t : Tid) (n : Nat) (x : XCtx) (f : VForm) (k : VAddr) (w : Nat) (d : DCtx) (idx : List Nat) (i : Nat) {q : VPipe} (hq : q.s.ms.safe) :
    (vPipeEl t n x f k w d idx i q).s.ms.safe := by
  unfold vPipeEl
  extract_lets c nf b va chk
  have hchk : chk.2.ms.safe := foldl_pair_safe (fun q i hq => by grind [elWait_safe, releaseStreams_safe]) _ hq
  clear_value chk
  obtain ⟨⟨_ | e, pas⟩, u⟩ := chk
  · grind [foldl_pair_safe, modEntry_safe, vecLine_safe]
  · grind

theorem pipeVLd_safe (t : Tid) (e : DecEntry) (f : VForm) (k : VAddr) : (pipeVLd s t e f k).state.ms.safe := by
  rw [pipeVLd]
  split
  · exact h
  extract_lets c w g n d th q0 idx act q u e put left
  have hq : q.s.ms.safe := by
    unfold q
    split
    · exact h
    · exact foldl_inv (fun q : VPipe => q.s.ms.safe) _ (fun q i hq => by grind [vPipeEl_safe]) _ _ h
  have hu : u.ms.safe := modEntry_safe hq ..
  have hput (got : Table Nat) : (put got u).ms.safe := modThread_safe hu ..
  clear_value q u e put left
  split
  · exact srPut_safe (hput _) ..
  · exact srPut_safe (hput _) ..
  · split
    · exact srPut_safe (hput _) ..
    · exact hu
  · exact hu
  · split
    · exact hu
    split
    · exact startLines_safe hu _
    · exact srPut_safe (foldl_safe (fun v p hv => vecLine_safe hv ..) _ hu) ..

theorem slotGrant_safe (c : Nat) : (slotGrant s c).ms.safe := by grind [slotGrant, modCell_safe, foldl_safe, foldl_pair_safe]

omit h in
theorem tileAsk_safe (t : Tid) (n l : Nat) {a : Bool × State} (ha : a.2.ms.safe) : (tileAsk t n a l).2.ms.safe := by
  grind [tileAsk, startLines_safe, settleLine_safe, modCell_safe]

theorem tileGet_safe (t : Tid) (n : Nat) (pa k : Nat) : (tileGet t n s pa k).2.ms.safe := h

omit h in
theorem tPipeRow_safe {acc : VAcc} (hacc : acc.safe) (t : Tid) (n : Nat) (resolved : Bool) (f : TForm) (d : DCtx) (th : Thread) (r : Nat) {q : TPipe} (hq : q.s.ms.safe) :
    (tPipeRow acc t n resolved f d th r q).s.ms.safe := by
  unfold tPipeRow; grind [tCheck_safe, foldl_pair_safe, tileAsk_safe, tLoadRow_safe]

theorem tCut_safe (c : Nat) (f : TForm) (e : Nat) : (tCut s c f e).ms.safe := by
  grind [tCut, modCell_safe]

theorem pipeTLd_safe (t : Tid) (e : DecEntry) (f : TForm) : (pipeTLd s t e f).state.ms.safe := by
  unfold pipeTLd
  split
  · exact h
  split
  · exact h
  split
  · exact h
  extract_lets d rows own acc q u
  have hacc : acc.safe := ⟨fun _ _ _ _ hq => elWait_safe hq .., fun _ _ _ hq => tileGet_safe hq .., (tileAcc_safe t d.x).store⟩
  have hq : q.s.ms.safe := foldl_inv (fun q : TPipe => q.s.ms.safe) _ (fun q r hq => tPipeRow_safe hacc _ _ _ _ _ _ _ hq) _ _ (slotGrant_safe h _)
  have hu : u.ms.safe := setFlags_safe (modEntry_safe hq ..) ..
  clear_value q u
  grind [DRes.state, tCut_safe, postInt_safe, srPut_safe]

theorem regParity_safe (t : Tid) (e : DecEntry) : (regParity s t e).state.ms.safe := by
  grind [regParity, DRes.state, reportThread_safe, drawFree_safe]

theorem dPipe_safe (t : Tid) (e : DecEntry) : (dPipe s t e).state.ms.safe := by
  unfold dPipe; grind [DRes.state, dIllegal_safe, pipeVLd_safe, pipeTLd_safe, dRun_safe]

theorem dNow_safe (t : Tid) (e : DecEntry) : (dNow s t e).state.ms.safe := by
  have hrun := dRun_safe h t e
  unfold dNow; grind [DRes.state, dPipe_safe]

theorem stopUnits_safe (t : Tid) : (stopUnits s t).ms.safe := by grind [stopUnits, srPut_safe, tCut_safe]
theorem interruptNow_safe (t : Tid) (n : Nat) : (interruptNow s t n).ms.safe := by grind [interruptNow, orStay_safe, takeInterrupt_safe, stopUnits_safe]

theorem unitExc_safe {s0 : State} (h0 : s0.ms.safe) (t : Tid) (e : DecEntry) (x : Exc) : (unitExc s0 s t e x).ms.safe := by
  unfold unitExc; grind [interruptNow_safe, orStay_safe, takeExc_safe, rollBack_safe]

theorem passUnit_safe (t : Tid) (e : DecEntry) (runs : Bool) (res : Option Word) : (passUnit s t e runs res).ms.safe := by
  grind [passUnit, commitWindow_safe, modThread_safe]

theorem startUnit_safe (now : Bool) (t : Tid) (u : UnitFinding) : (startUnit now s t u).ms.safe := by
  unfold startUnit; grind [DRes.state, regParity_safe, dNow_safe, dPipe_safe, storesWait_safe, beginEntry_safe, passUnit_safe, setFlags_safe, unitExc_safe,
      rollBack_safe, holdAction_safe]

theorem runDecoupled_safe (now : Bool) (i : Instr) : ∀ n, runDecoupled now i s = some n → n.ms.safe := by
  unfold runDecoupled; grind [enqueue_safe, arrive_safe, startUnit_safe]

theorem endRun_safe (t : Tid) (n : Nat) : (endRun s t n).ms.safe := h

theorem goOn_safe (t : Tid) (u : UnitFinding) (e : DecEntry) : (goOn s t u e).ms.safe := by
  have hrest (f : VForm) (k : VAddr) : ((vecRest s t e f k).elim s (fun s => endRun s t e.ask)).ms.safe :=
    elim_safe h fun q hq => endRun_safe (vecRest_safe h t e f k q hq) ..
  unfold goOn
  split
  · exact hrest ..
  · exact hrest ..
  · exact hrest ..
  · exact hrest ..
  · have hld := pipeTLd_safe h t e
    grind [DRes.state, endRun_safe, postInt_safe]
  · grind [modCell_safe, mxRun_safe, mxRun_run_safe, endRun_safe, setFlags_safe]
  · exact h

theorem runOn_safe (ps : List Nat) (t : Tid) (u : UnitFinding) : (runOn ps s t u).ms.safe := by
  rw [runOn]
  exact foldl_safe (fun q p hq => elim_safe hq fun e _ => goOn_safe hq t u e) ps h

theorem grantElement_safe (c i : Nat) : (grantElement s c i).ms.safe := by grind [grantElement, modCell_safe, mergeMiss_safe, takeMiss_safe]

theorem finishUnits_safe (t : Tid) : (finishUnits s t).ms.safe := by
  rw [finishUnits]
  refine ite_safe h (foldl_safe (fun q _ hq => ?_) _ h)
  have hgrant := elim_safe (o := (cell q (cellOf t)).held.findIdx? (fun x => decide (x.kind = .element) && decide (x.load.thr.val = thrOf t))) hq
    fun i _ => grantElement_safe hq (cellOf t) i
  refine runOn_safe (foldl_safe (fun w _ hw => ?_) _ (foldl_safe (fun w _ hw => ?_) _ (serveLoads_safe hgrant ..))) ..
  · split
    · exact fillSlot_safe hw ..
    · exact hw
  · split
    · exact fillMiss_safe hw ..
    · exact hw

theorem execInstructionResolve_safe (t : Tid) (tile : Bool) (u : UnitFinding) : nextSafe (execInstructionResolve t tile u s) := by
  grind [execInstructionResolve, nextSafe_next, runOn_safe, startUnit_safe, takeLate_safe]

theorem execDecoupledResultArrive_safe (t : Tid) (tile : Bool) : nextSafe (execDecoupledResultArrive t tile s) := by
  grind [execDecoupledResultArrive, nextSafe_next, takeLate_safe, arrive_safe]

theorem execInterruptTake_safe (t : Tid) : nextSafe (execInterruptTake t s) := by grind [execInterruptTake, nextSafe_next, interruptNow_safe]

/-! ## Issue -/

theorem runSystem_safe (i : Instr) : ∀ n, runSystem i s = some n → n.ms.safe := by
  unfold runSystem; grind [runJump_safe, runFence_safe, runFenceI_safe, runSr_safe, runYield_safe, runPause_safe, runTend_safe, runGate_safe, runXret_safe,
      runXretG_safe, runPeg_safe]

theorem runInstr_safe (i : Instr) : ∀ n, runInstr i s = some n → n.ms.safe := by
  rw [runInstr]
  split
  · exact runAmo_safe h i _ _ _ _ _ _ _ _
  · exact orElse_safe (runAlu_safe h i) (orElse_safe (runBranch_safe h i) (orElse_safe (runLoad_safe h i) (orElse_safe (runStore_safe h i)
      (orElse_safe (runSystem_safe h i) (runDecoupled_safe h false i)))))

theorem fetchAligned_safe (t : Tid) (va : Word) : (fetchAligned s t va).2.ms.safe := by grind [fetchAligned, translate_safe, modCell_safe]
theorem fetchWord_safe (t : Tid) (va : Word) : (fetchWord s t va).2.ms.safe := by grind [fetchWord, fetchAligned_safe]
theorem fetchInstr_safe (t : Tid) : (fetchInstr s t).2.ms.safe := by grind [fetchInstr, fetchWord_safe]
theorem missingLine_safe (t : Tid) : (missingLine s t).2.ms.safe := by grind [missingLine, fetchWord_safe]
theorem tryIssue_safe (t : Tid) : (tryIssue s t).2.ms.safe := by grind [tryIssue, fetchInstr_safe, modThread_safe, waitHome_safe, raiseScalar_safe, runInstr_safe]

theorem issueFirst_safe (l : List Tid) : (issueFirst l s).2.ms.safe := by
  induction l generalizing s with
  | nil => exact h
  | cons t ts ih => grind [issueFirst, tryIssue_safe]

theorem noIssue_safe (c : Nat) (order : List Tid) : (noIssue s c order).ms.safe := by grind [noIssue, perfEvent_safe]

theorem cycle_safe (c : Nat) : (cycle s c).ms.safe := by
  unfold cycle
  extract_lets count s1 s2
  have hcount (q : State) (n : Nat) (o : Option (Nat × Tid)) (hq : q.ms.safe) : (count q n o).ms.safe := by grind [perfEvent_safe]
  have hs2 : s2.ms.safe := elim_safe (hcount _ _ _ (hcount _ _ _ (hcount _ _ _ h))) (by grind [perfEvent_safe])
  grind [modCell_safe]

theorem execIssueSelect_safe (c : Cid) : nextSafe (execIssueSelect c s) := by
  grind [execIssueSelect, nextSafe_next, takeLates_safe, wakeHomes_safe, cycle_safe, issueFirst_safe, noIssue_safe]

theorem performAtom_safe (c i : Nat) : (performAtom s c i).ms.safe := by grind [performAtom, startHome_safe, modThread_safe, modCell_safe, orStay_safe, amoAt_safe]

theorem execLoadPerformed_safe (c : Cid) (k : Nat) : nextSafe (execLoadPerformed c k s) := by
  grind [execLoadPerformed, nextSafe_next, startHome_safe, stackServed_safe, serveMiss_safe, performLoad_safe, takeLates_safe, serveSlot_safe, performAtom_safe]

theorem execCacheFill_safe (c : Cid) (k : Fill) : nextSafe (execCacheFill c k s) := by
  grind [execCacheFill, nextSafe_next, takeLates_safe, fillMiss_safe, fillSlot_safe]

theorem grantHeld_safe (c i : Nat) : (grantHeld s c i).ms.safe := by
  rw [grantHeld]
  split
  · exact h
  extract_lets t s0 q into
  have hq : q.ms.safe := modCell_safe h ..
  have hinto (f : Mshr → Mshr) : (into f).ms.safe := by grind [mergeMiss_safe, takeMiss_safe]
  clear_value q into
  split
  · exact grantElement_safe h ..
  · exact modThread_safe (perfEvent_safe (hinto _) ..) ..
  · refine getD_safe (modThread_safe hq ..) fun n hn => ?_
    obtain ⟨i, _, hi⟩ := Option.bind_eq_some_iff.1 hn
    exact runInstr_safe (modThread_safe hq ..) i n hi

theorem execMissRegisterGrant_safe (c : Cid) : nextSafe (execMissRegisterGrant c s) := by
  exact nextSafe_next.2 (elim_safe h fun i _ => grantHeld_safe h ..)

theorem execInstructionFetchReturn_safe (t : Tid) : nextSafe (execInstructionFetchReturn t s) := by
  grind [execInstructionFetchReturn, nextSafe_next, missingLine_safe, startLines_safe, coreLine_safe, modThread_safe, modCell_safe]

theorem execPageWalk_safe (t : Tid) (va : Word) (k : Access) : nextSafe (execPageWalk t va k s) := by
  grind [execPageWalk, nextSafe_next, startLines_safe, walk_safe, fillTlbs_safe]

/-! ## The Lining's engines -/

theorem chargeEng_safe (k : Nat) : (chargeEng s k).ms.safe := h
theorem mapPage_safe (k : Nat) (x : XCtx) (wr : Bool) (a : Nat) : (mapPage s k x wr a).2.ms.safe := by grind [mapPage, findEnt_safe, fillTlbs_safe]
theorem engRead_safe (ps : List (Nat × Nat)) : (engRead s ps).2.ms.safe := by grind [engRead, dramLine_safe, chargeEng_safe, foldl_safe, foldl_pair_safe]

theorem engWriteLine_safe (l off : Nat) (bs : List (Byte × Bool)) : (engWriteLine s l off bs).ms.safe := by
  grind [engWriteLine, chargeEng_safe, dramLine_safe, dramStore_safe, foldl_safe, foldl_pair_safe]

theorem engWritePiece_safe (pa : Nat) (bs : List (Byte × Bool)) : (engWritePiece s pa bs).ms.safe := by
  unfold engWritePiece
  exact foldl_fst_safe (fun q c hq => engWriteLine_safe hq ..) _ h

theorem engWrite_safe (l : List (Nat × Nat)) (bs : List (Byte × Bool)) : (engWrite l bs s).ms.safe := by
  induction l generalizing s bs with
  | nil => exact h
  | cons p t ih => exact ih (by split; exacts [h, engWritePiece_safe h ..]) _

theorem writeBackStack_safe (k : Nat) : (writeBackStack s k).ms.safe := by grind [writeBackStack, writeBack_safe, chargeEng_safe, foldl_safe, foldl_pair_safe]

theorem codeRead_safe (k : Nat) (x : XCtx) (f va n : Nat) : (codeRead k x f va n s).2.ms.safe := by
  induction f generalizing s va n with
  | zero => exact h
  | succ f ih => grind [codeRead, mapPage_safe, engRead_safe]

theorem lnActivate_safe (k : Nat) (e : LEnt) (ws : List Word) (p : List Byte) : (lnActivate s k e ws p).ms.safe := by
  unfold lnActivate; grind [writeBackStack_safe, codeRead_safe, modLstack_safe]

theorem lnPop_safe (k : Nat) : (lnPop s k).ms.safe := h

theorem ownEnd_safe (k desc key code elem : Nat) (nonfin : Bool) (res0 : Word) (wclip : Nat) : (ownEnd s k desc key code elem nonfin res0 wclip).ms.safe := by
  grind [ownEnd, report_safe, passEnd_safe, bumpRf_safe]

theorem lnMalformed_safe (k : Nat) (e : LEnt) (ws : List Word) : (lnMalformed s k e ws).ms.safe := by grind [lnMalformed, ownEnd_safe, liningEnd_safe]
theorem spaceBad_safe (k : Nat) (asid : BitVec 6) : (spaceBad s k asid).2.ms.safe := by grind [spaceBad, asEntry_safe]

theorem execLiningTaskDispatch_safe (k : Fin 12) : nextSafe (execLiningTaskDispatch k s) := by
  grind [execLiningTaskDispatch, nextSafe_next, readWords8_safe, spaceBad_safe, lnMalformed_safe, lnPop_safe, homeRead_safe, accessDraws_safe, lnActivate_safe]

theorem modLrun_safe (k key : Nat) (f : LRun → LRun) : (modLrun s k key f).ms.safe := h

omit h in
theorem mapRange_safe (k : Nat) (tk : LTask) (r : LRange) (wr : Bool) {m : LMap} (hm : m.s.ms.safe) : (mapRange k tk r wr m).s.ms.safe := by
  unfold mapRange
  split
  · exact hm
  · exact foldl_inv (fun q : LMap => q.s.ms.safe) _ (fun q i hq => by grind [mapPage_safe]) _ m hm

theorem mapChunk_safe (k : Nat) (tk : LTask) (c : Nat) : (mapChunk s k tk c).s.ms.safe := by
  unfold mapChunk
  exact foldl_inv (fun q : LMap => q.s.ms.safe) _ (fun q r hq => by grind [mapRange_safe]) _ _ h

theorem progRead_safe (k key : Nat) (pa n : Nat) : (progRead k key s pa n).2.ms.safe := by grind [progRead, engRead_safe]
theorem progPage_safe (k key : Nat) (x : XCtx) (wr : Bool) (a : Nat) : (progPage k key x s wr a).2.ms.safe := by grind [progPage, mapPage_safe]

theorem progCheck_safe (k key : Nat) (tk : LTask) (x : XCtx) (va : Word) (n : Nat) (wr : Bool) : (progCheck k key tk x s va n wr).2.ms.safe := by
  grind [progCheck, progPage_safe]

theorem progLoad_safe (k key : Nat) (tell : Bool) (pa n : Nat) : (progLoad k key tell s pa n).2.ms.safe := by grind [progLoad, progRead_safe]
theorem progStore_safe (k key : Nat) (bad : Bool) (pa : Nat) (bs : List Byte) : (progStore k key bad s pa bs).ms.safe := h

omit h in
theorem progAcc_safe (k key : Nat) (tk : LTask) (tell bad : Bool) : (progAcc k key tk tell bad).safe :=
  ⟨fun _ _ _ _ hq => progCheck_safe hq .., fun _ _ _ hq => progLoad_safe hq .., fun _ _ _ hq => progStore_safe hq ..⟩

omit h in
theorem progUpd_safe (k key : Nat) (tk : LTask) (tell bad : Bool) : (progUpd k key tk tell bad).safe :=
  ⟨fun _ _ _ hq => progCheck_safe hq .., fun _ _ _ hq => progCheck_safe hq .., fun _ _ _ hq => progLoad_safe hq .., fun _ _ _ hq => progStore_safe hq ..⟩

omit h in
theorem progStop_safe {r : PRun} (hr : r.s.ms.safe) (e : Exc) : (progStop r e).s.ms.safe := hr

omit h in
theorem progSrOp_safe {r : PRun} (hr : r.s.ms.safe) (thr : Nat) (op : SrOp) (rd rs1 : Reg) (num : BitVec 12) : (progSrOp r thr op rd rs1 num).s.ms.safe := by
  unfold progSrOp; grind [progStop_safe]

omit h in
theorem progVec_safe (k key : Nat) (tk : LTask) (i : Instr) (form : DecForm) (w : BitVec 32) {r : PRun} (hr : r.s.ms.safe) :
    (progVec k key tk i form w r).s.ms.safe := by
  unfold progVec
  extract_lets th len d fin start
  have hfin (p : PRun) (fl : Nat) (res : Option Word) (hp : p.s.ms.safe) : (fin p fl res).s.ms.safe := hp
  clear_value fin
  split
  · extract_lets ew probe q p
    have hq : q.s.ms.safe := vMemRun_safe (progAcc_safe ..) _ _ _ _ _ _ _ hr
    clear_value q
    grind [progStop_safe]
  · have hc := progCheck_safe hr k key tk { lnCtx tk false with spec := false } d.a 64 false
    generalize progCheck k key tk { lnCtx tk false with spec := false } r.s d.a 64 false = z at hc ⊢
    grind [progStop_safe, progRead_safe, updRun_safe, progUpd_safe]
  · grind [progStop_safe]

omit h in
theorem progStep_safe (k key : Nat) (tk : LTask) {r : PRun} (hr : r.s.ms.safe) : (progStep k key tk r).s.ms.safe := by
  unfold progStep
  grind [progStop_safe, progCheck_safe, progRead_safe, progStore_safe, progSrOp_safe, progVec_safe]

theorem modTask_safe (k j : Nat) (f : LTask → LTask) : (modTask s k j f).ms.safe := h

theorem execChunkStart_safe (k : Fin 12) (e : Fin 16) (th : Fin 4) : nextSafe (execChunkStart k e th s) := by
  grind [execChunkStart, nextSafe_next, mapChunk_safe, modTask_safe, modLstack_safe, setRf_safe]

theorem freeRun_safe (k e th : Nat) : (freeRun s k e th).ms.safe := by grind [freeRun, modLstack_safe, setRf_safe]
theorem chunkEnd_safe (k e th j : Nat) (f : LTask → LTask) : (chunkEnd s k e th j f).ms.safe := by grind [chunkEnd, freeRun_safe, bumpRf_safe, modTask_safe]
theorem chunkReads_safe (run : LRun) (tk : LTask) : (chunkReads s run tk).2.ms.safe := by grind [chunkReads, engRead_safe, foldl_safe, foldl_pair_safe]

theorem chunkRun_safe (k e th : Nat) (run : LRun) (tk : LTask) : (chunkRun s k e th run tk).ms.safe := by
  unfold chunkRun; grind [chunkReads_safe, engWrite_safe, chunkEnd_safe, foldl_safe]

theorem keepThread_safe (k key : Nat) (th : Thread) : (keepThread s k key th).ms.safe := h

theorem progDone_safe (k e th : Nat) (run : LRun) (tk : LTask) (t : Thread) : (progDone s k e th run tk t).ms.safe := by
  grind [progDone, engWritePiece_safe, engRead_safe, chunkEnd_safe, keepThread_safe, foldl_safe, foldl_pair_safe]

omit h in
theorem progPut_safe (k e th : Nat) (run : LRun) (tk : LTask) {r : PRun} (hr : r.s.ms.safe) : (progPut k e th run tk r).ms.safe := by
  unfold progPut; grind [modLrun_safe, freeRun_safe, keepThread_safe, modTask_safe, progDone_safe]

theorem chunkDead_safe (k e th : Nat) (run : LRun) : (chunkDead s k e th run).ms.safe := by grind [chunkDead, freeRun_safe, modTask_safe]
theorem progIssue_safe (k e j : Nat) : ∀ n, progIssue s k e j = some n → n.ms.safe := by unfold progIssue; grind [chunkDead_safe, progStep_safe, progPut_safe]

theorem engineCycle_safe (k e : Nat) : (engineCycle s k e).ms.safe := by
  rw [engineCycle]
  split
  · rename_i j n hj
    obtain ⟨i, _, hi⟩ := List.exists_of_findSome?_eq_some hj
    obtain ⟨m, hm, he⟩ := Option.map_eq_some_iff.1 hi
    obtain ⟨rfl, rfl⟩ := Prod.mk.inj he
    exact modLstack_safe (progIssue_safe h k e _ _ hm) ..
  · exact h

theorem engineRun_safe (k e th n : Nat) : (engineRun k e th n s).ms.safe := by
  induction n generalizing s with
  | zero => exact h
  | succ n ih => grind [engineRun, engineCycle_safe]

theorem execChunkComplete_safe (k : Fin 12) (e : Fin 16) (th : Fin 4) (cycles : Nat) : nextSafe (execChunkComplete k e th cycles s) := by
  grind [execChunkComplete, nextSafe_next, chunkDead_safe, engineRun_safe, chunkRun_safe]

theorem invalWrites_safe (k : Nat) (tk : LTask) : (invalWrites s k tk).ms.safe := by
  grind [invalWrites, mapPage_safe, rcInvalidateRange_safe, foldl_safe, foldl_pair_safe]

theorem execLiningTaskComplete_safe (k : Fin 12) (j : Nat) : nextSafe (execLiningTaskComplete k j s) := by
  rw [execLiningTaskComplete, nextSafe_next]
  extract_lets x
  have hx : x.ms.safe := modLstack_safe h ..
  split
  · exact h
  extract_lets code elem task q u w v y z p
  have hq : q.ms.safe := ite_safe (setReg_safe hx ..) hx
  have hw : w.ms.safe := ite_safe hq hq
  have hv : v.ms.safe := ite_safe (homeWrite_safe (accessDraws_safe hw ..) ..) hw
  have hy : y.ms.safe := invalWrites_safe hv ..
  have hz : z.ms.safe := ite_safe hy (report_safe hy _)
  have hp : p.ms.safe := bumpRf_safe hz ..
  refine ite_safe h ?_
  split
  · exact ownEnd_safe (invalWrites_safe hw ..) ..
  · exact ite_safe (pegAddTo_safe hp ..) hp

theorem chunkAgain_safe (k e th : Nat) : (chunkAgain s k e th).ms.safe := by grind [chunkAgain, freeRun_safe, modTask_safe]

theorem partWrites_safe (run : LRun) (tk : LTask) : (partWrites s run tk).2.ms.safe := by
  unfold partWrites; grind [drawFree_safe, chunkReads_safe, engWrite_safe, foldl_safe]

theorem countFault_safe (k e : Nat) : (countFault s k e).ms.safe := by grind [countFault, bumpRf_safe, modLstack_safe, setRf_safe]

theorem execEngineParityError_safe (k : Fin 12) (e : Fin 16) (th : Fin 4) : nextSafe (execEngineParityError k e th s) := by
  grind [execEngineParityError, nextSafe_next, countFault_safe, freeRun_safe, partWrites_safe, modTask_safe, chunkAgain_safe, report_safe]

theorem execEngineSubstitution_safe (k : Fin 12) (e : Fin 16) : nextSafe (execEngineSubstitution k e s) := by
  grind [execEngineSubstitution, nextSafe_next, chunkAgain_safe, setRf_safe, modLstack_safe, addRepair_safe, report_safe, foldl_safe, foldl_pair_safe]

end

end Sys2Proof.Machine
end

section
/-! PROOFS. The cells' power and repair, the debug port and every command keep the form of memory (R220): O40. -/

namespace Sys2Proof.Machine

open Sys2Proof.Safety

section
variable {s : State} (h : s.ms.safe)
include h

/-! ## Cells -/

theorem settleWait_safe (ts : List Tid) : ∀ n, settleWait s ts = some n → n.ms.safe := by grind [settleWait, startLines_safe]
theorem discardThread_safe (t : Tid) : (discardThread s t).ms.safe := by grind [discardThread, stopThread_safe, finishUnits_safe, modCell_safe]
theorem ordinaryThread_safe (t : Tid) : (ordinaryThread s t).ms.safe := h

theorem applyUpdate_safe (c : Nat) : (applyUpdate s c).ms.safe := by
  grind [applyUpdate, applyUpdateTo_safe, discardThread_safe, ordinaryThread_safe, foldl_safe, foldl_pair_safe]

theorem applyAll_safe (c : Nat) : (applyAll s c).ms.safe := by grind [applyAll, applyUpdate_safe, foldl_safe, foldl_pair_safe]
theorem execEpochUpdateApply_safe (c : Cid) : nextSafe (execEpochUpdateApply c s) := by grind [execEpochUpdateApply, nextSafe_next, applyUpdate_safe]
theorem killThread_safe (t : Tid) : (killThread s t).ms.safe := by grind [killThread, stopThread_safe, release_safe, finishUnits_safe]
theorem loseRun_safe (j code : Nat) (run : TaskRun) : (loseRun s j code run).ms.safe := by grind [loseRun, taskEnd_safe]

theorem execTaskKill_safe (j : Nat) : nextSafe (execTaskKill j s) := by
  grind [execTaskKill, nextSafe_next, settleWait_safe, loseRun_safe, killThread_safe, foldl_safe, foldl_pair_safe]

theorem loseTasks_safe (c : Nat) : (loseTasks s c).ms.safe := by grind [loseTasks, loseRun_safe, killThread_safe, foldl_safe, foldl_pair_safe]
theorem setPower_safe (c : Nat) (p : CellPower) : (setPower s c p).ms.safe := h
theorem runAgain_safe (c : Nat) : (runAgain s c).ms.safe := by grind [runAgain, applyAll_safe, modCell_safe]
theorem execClockGate_safe (c : Cid) : nextSafe (execClockGate c s) := by grind [execClockGate, nextSafe_next, setPower_safe]
theorem execPowerGate_safe (c : Cid) : nextSafe (execPowerGate c s) := by grind [execPowerGate, nextSafe_next, setPower_safe]
theorem execPowerSwitchOpen_safe (c : Cid) : nextSafe (execPowerSwitchOpen c s) := by grind [execPowerSwitchOpen, nextSafe_next, modCell_safe, flash_safe]
theorem execCellWake_safe (c : Cid) : nextSafe (execCellWake c s) := by grind [execCellWake, nextSafe_next, runAgain_safe, setPower_safe]
theorem execCellPowered_safe (c : Cid) : nextSafe (execCellPowered c s) := by grind [execCellPowered, nextSafe_next, runAgain_safe]

theorem settleLoads_safe (c thr : Nat) : (settleLoads s c thr).ms.safe := by
  rw [settleLoads]
  refine foldl_safe (fun q _ hq => ?_) _ (foldl_safe (fun q _ hq => ?_) _ (finishDevices_safe (serveLoads_safe h ..) ..))
  · split
    · exact performLoad_safe hq ..
    · exact hq
  · split
    · exact fillMiss_safe hq ..
    · exact hq

theorem toBoundary_safe (t : Tid) : (toBoundary s t).ms.safe := by
  grind [toBoundary, finishUnits_safe, rollBack_safe, stopUnits_safe, arrive_safe, takeLate_safe, settleStores_safe, settleLoads_safe, foldl_safe, foldl_pair_safe]

theorem execCellSubstitution_safe (c : Cid) : nextSafe (execCellSubstitution c s) := by
  grind [execCellSubstitution, nextSafe_next, settleWait_safe, toBoundary_safe, modCell_safe, setRf_safe, setSite_safe, addRepair_safe, report_safe, foldl_safe,
      foldl_pair_safe]

theorem execCellFaultClear_safe (c : Cid) : nextSafe (execCellFaultClear c s) := by grind [execCellFaultClear, nextSafe_next, modCell_safe]

theorem execCellRetirement_safe (c : Cid) : nextSafe (execCellRetirement c s) := by
  grind [execCellRetirement, nextSafe_next, settleWait_safe, loseTasks_safe, stopThread_safe, loseHeads_safe, recountCells_safe, setSite_safe, modCell_safe,
      addRepair_safe, report_safe, foldl_safe, foldl_pair_safe]

theorem settleCore_safe (c : Nat) : (settleCore s c).ms.safe := by
  grind [settleCore, serveMiss_safe, serveLoads_safe, settleStores_safe, settleLoads_safe, finishUnits_safe, foldl_safe, foldl_pair_safe]

theorem coresWait_safe (cores : List Nat) : ∀ n, coresWait s cores = some n → n.ms.safe := by grind [coresWait, settleWait_safe, startLines_safe]

theorem execTlbInvalidateDone_safe : nextSafe (execTlbInvalidateDone s) := by
  grind [execTlbInvalidateDone, nextSafe_next, coresWait_safe, settleCore_safe, modCell_safe, setRf_safe, foldl_safe, foldl_pair_safe]

omit h in
theorem rcAt_lineHbm (b bank i c : Nat) (hc : rcAt s b bank i = some c) : lineHbm c = true := by
  rw [rcAt] at hc
  split at hc
  · cases hc
  · have hhit := (Option.filter_eq_some_iff.1 hc).2
    grind [rcHit]

theorem bmFinding_safe (b bank l w : Nat) (e : Ecc) : (bmFinding s b bank l w e).ms.safe := by
  cases e with
  | clean => exact h
  | corrected _ => exact report_safe (noteRow_safe h ..) _
  | uncorrectable =>
    rw [bmFinding]
    refine report_safe (noteRow_safe ?_ ..) _
    rw [← memorySafe_iff]
    split
    · exact h
    · split
      · rename_i c hc
        exact h.dirty (rcAt_lineHbm _ _ _ _ hc) rfl rfl
      · exact h

theorem execBlockMemoryScrub_safe (b : Fin 96) (bank : Fin 32) (w : Fin 16) (e : Ecc) : nextSafe (execBlockMemoryScrub b bank w e s) := by
  grind [execBlockMemoryScrub, nextSafe_next, touchLine_safe, bmFinding_safe, passEnded_safe]

theorem execRowSpare_safe (b : Fin 96) (bank : Fin 32) (row : Nat) : nextSafe (execRowSpare b bank row s) := by
  grind [execRowSpare, nextSafe_next, rowDone_safe, setRf_safe, addRepair_safe, report_safe]

theorem execOutboundFailure_safe (c : Cid) (k : Nat) (store : Bool) : nextSafe (execOutboundFailure c k store s) := by
  grind [execOutboundFailure, nextSafe_next, outboundFailed_safe, setCell_safe, deliver_safe]

/-! ## The debug port -/

theorem stopHere_safe (t : Tid) : (stopHere s t).ms.safe := by grind [stopHere, modThread_safe, leaveWaves_safe, keepArrive_safe]
theorem debugHalt_safe (t : Tid) : (debugHalt s t).ms.safe := by grind [debugHalt, stopHere_safe, toBoundary_safe, finishWait_safe]
theorem debugStep_safe (t : Tid) : (debugStep s t).ms.safe := by grind [debugStep, stopHere_safe, tryIssue_safe, modThread_safe]

theorem debugRun_safe (c : Nat) (op : DebugOp) : (debugRun s c op).ms.safe := by
  unfold debugRun; grind [debugHalt_safe, debugStep_safe, emit_safe, homeRead_safe, wx_safe, sramPut_safe, homeWrite_safe]

theorem execDebugPortAccess_safe (c : Cid) (op : DebugOp) : nextSafe (execDebugPortAccess c op s) := by
  grind [execDebugPortAccess, nextSafe_next, debugRun_safe, wakeCell_safe]

/-! ## Every command -/

theorem exec_safe (i : Instr) : nextSafe (exec i s) := by
  cases i with
  | add | sub | and | or | xor | sll | srl | sra | slt | sltu | min | max | minu | maxu | clz | ctz | popc | addi | slti | sltiu | xori | ori | andi
  | slli | srli | srai | addW | subW | sllW | srlW | sraW | addiW | slliW | srliW | sraiW | mul | mulh | mulhu | mulhsu | mulW | div | divu | rem
  | remu | divW | divuW | remW | remuW | lui | auipc => exact nextSafe_getD h (runAlu_safe h _)
  | ldB | ldH | ldW | ldD | ldBu | ldHu | ldWu => exact nextSafe_getD h (runLoad_safe h _)
  | stB | stH | stW | stD => exact nextSafe_getD h (runStore_safe h _)
  | beq | bne | blt | bge | bltu | bgeu => exact nextSafe_getD h (runBranch_safe h _)
  | jal | jalr => exact nextSafe_getD h (runJump_safe h _ _ _ _)
  | amoSwap | amoAdd | amoAnd | amoOr | amoXor | amoMin | amoMax | amoMinu | amoMaxu | amoCas => exact nextSafe_getD h (runAmo_safe h _ _ _ _ _ _ _ _ _)
  | fenceAcq | fenceRel | fenceAr => exact nextSafe_getD h (runFence_safe h _ _ _)
  | fenceI => exact nextSafe_getD h (runFenceI_safe h _)
  | srRw | srSet | srClr => exact nextSafe_getD h (runSr_safe h _ _ _ _ _ _)
  | yield => exact nextSafe_getD h (runYield_safe h _)
  | pause => exact nextSafe_getD h (runPause_safe h _ _)
  | tend => exact nextSafe_getD h (runTend_safe h _)
  | gate => exact nextSafe_getD h (runGate_safe h _ _)
  | xret => exact nextSafe_getD h (runXret_safe h _)
  | xretG => exact nextSafe_getD h (runXretG_safe h _)
  | vAdd | vSub | vMul | vMulh | vMulhu | vMulhsu | vMin | vMax | vMinu | vMaxu | vAnd | vOr | vXor | vAndn | vSll | vSrl | vSra | vSrar | vSadd
  | vSsub | vSaddu | vSsubu | vQmul | vQmulRne | vNarrowS | vNarrowU | vNarrowSRne | vNarrowURne | vFadd | vFsub | vFmul | vFdiv | vFma | vFnma | vFmin
  | vFmax | vFsqrt | vFabs | vFneg | vCmpEq | vCmpNe | vCmpLt | vCmpLe | vCmpGt | vCmpGe | vCmpLtu | vCmpLeu | vFcmpEq | vFcmpLt | vFcmpLe | vFcmpUn
  | vPand | vPor | vPxor | vPandn | vPwhile | vPcount | vRedSum | vRedSumsq | vRedMax | vRedMin | vRedMaxu | vRedMinu | vFredSum | vFredSumsq
  | vFredMax | vFredMin | vLd | vLdS | vLdX | vLdSeg | vSt | vStS | vStX | vStSeg | vSplat | vSel | vExt | vIns | vCvt | vMfma | vStat | vStatMerge
  | updSgdm | updAdamw | updLion | tLd | tSt | tMov | tClr | tExt | mxMma => exact nextSafe_getD h (runDecoupled_safe h _ _)
  | pegRd | pegAdd | pegSet | pegWaitGe | pegWaitEq | pegArrive => exact nextSafe_getD h (runPeg_safe h _ _ _ _ _)
  | registerWrite => exact execRegisterWrite_safe h _ _ _ _
  | readClear => exact execReadClear_safe h _ _ _
  | issueSelect => exact execIssueSelect_safe h _
  | decoupledResultArrive => exact execDecoupledResultArrive_safe h _ _
  | instructionResolve => exact execInstructionResolve_safe h _ _ _
  | loadPerformed => exact execLoadPerformed_safe h _ _
  | cacheFill => exact execCacheFill_safe h _ _
  | writeBufferDrain => exact execWriteBufferDrain_safe h _ _
  | writeBufferTimeout => exact execWriteBufferTimeout_safe h _ _
  | storePerformed => exact execStorePerformed_safe h _ _
  | missRegisterGrant => exact execMissRegisterGrant_safe h _
  | pauseExpiry => exact execPauseExpiry_safe h _
  | interruptTake => exact execInterruptTake_safe h _
  | pegWaitSatisfied => exact execPegWaitSatisfied_safe h _
  | barrierWaveRelease => exact execBarrierWaveRelease_safe h
  | pegValWrite => exact execPegValWrite_safe h _ _ _
  | pegValRead => exact execPegValRead_safe h _ _
  | pegAddWrite => exact execPegAddWrite_safe h _ _ _
  | clockGate => exact execClockGate_safe h _
  | powerGate => exact execPowerGate_safe h _
  | powerSwitchOpen => exact execPowerSwitchOpen_safe h _
  | cellWake => exact execCellWake_safe h _
  | cellPowered => exact execCellPowered_safe h _
  | pllStart => exact execPllStart_safe h _
  | pllLock => exact execPllLock_safe h _
  | pllIdleStop => exact execPllIdleStop_safe h _
  | pllLockLoss => exact execPllLockLoss_safe h _
  | pllSwitchEnd => exact execPllSwitchEnd_safe h _ _
  | cellSubstitution => exact execCellSubstitution_safe h _
  | cellRetirement => exact execCellRetirement_safe h _
  | repairRecordWrite => exact execRepairRecordWrite_safe h
  | epochUpdateApply => exact execEpochUpdateApply_safe h _
  | pageWalk => exact execPageWalk_safe h _ _ _
  | tlbInvalidate => exact execTlbInvalidate_safe h _ _
  | tlbInvalidateDone => exact execTlbInvalidateDone_safe h
  | prefetchIssue => exact execPrefetchIssue_safe h _ _
  | blockMemoryScrub => exact execBlockMemoryScrub_safe h _ _ _ _
  | rowSpare => exact execRowSpare_safe h _ _ _
  | hbmScrub => exact execHbmScrub_safe h _ _ _ _
  | laneFlagged => exact execLaneFlagged_safe h _ _ _
  | channelRetrain => exact execChannelRetrain_safe h _ _ _ _
  | rowRepair k ch pc bank row => exact execRowRepair_safe h k ch pc bank row
  | tokenRefill => exact execTokenRefill_safe h
  | bankQueueAging => exact execBankQueueAging_safe h _ _ _ _
  | hbmPartWrite => exact execHbmPartWrite_safe h _ _ _
  | maintRequest => exact execMaintRequest_safe h _ _
  | trafficGeneratorGo => exact execTrafficGeneratorGo_safe h _ _
  | trafficGeneratorStop => exact execTrafficGeneratorStop_safe h _
  | trafficGeneratorEnd => exact execTrafficGeneratorEnd_safe h _ _ _ _
  | liningQpush => exact execLiningQpush_safe h _ _
  | liningTaskDispatch => exact execLiningTaskDispatch_safe h _
  | chunkStart => exact execChunkStart_safe h _ _ _
  | chunkComplete => exact execChunkComplete_safe h _ _ _ _
  | liningTaskComplete => exact execLiningTaskComplete_safe h _ _
  | engineParityError => exact execEngineParityError_safe h _ _ _
  | engineSubstitution => exact execEngineSubstitution_safe h _ _
  | arm => exact execArm_safe h _
  | disarm => exact execDisarm_safe h _
  | resume => exact execResume_safe h _
  | nonfinPost => exact execNonfinPost_safe h _
  | abort => exact execAbort_safe h _
  | haltreq => exact execHaltreq_safe h _
  | hemxdigWrite => exact execHemxdigWrite_safe h _ _
  | collectEnd => exact execCollectEnd_safe h
  | updateComplete => exact execUpdateComplete_safe h
  | twinDigestArrive => exact execTwinDigestArrive_safe h _ _
  | twinTimeout => exact execTwinTimeout_safe h
  | devTqpush => exact execDevTqpush_safe h _ _
  | descriptorHeadCheck => exact execDescriptorHeadCheck_safe h _ _
  | taskDispatch => exact execTaskDispatch_safe h _
  | taskComplete => exact execTaskComplete_safe h _
  | dmaPiDoorbell => exact execDmaPiDoorbell_safe h _ _ _ _
  | dmaDescriptorStart => exact execDmaDescriptorStart_safe h _
  | dmaBurstComplete => exact execDmaBurstComplete_safe h _ _ _
  | dmaDescriptorComplete => exact execDmaDescriptorComplete_safe h _
  | dmaPaceResume => exact execDmaPaceResume_safe h _
  | dmaPaceWrite => exact execDmaPaceWrite_safe h _ _ _
  | dmaAbort => exact execDmaAbort_safe h _ _
  | dmaRestart => exact execDmaRestart_safe h _ _
  | dmaBusError => exact execDmaBusError_safe h _ _
  | rollcall => exact execRollcall_safe h _
  | cancel => exact execCancel_safe h _
  | joinSend => exact execJoinSend_safe h
  | join => exact execJoin_safe h _
  | refuse => exact execRefuse_safe h _
  | roster => exact execRoster_safe h _
  | ack => exact execAck_safe h _
  | rosterResend => exact execRosterResend_safe h
  | rollcallTimeout => exact execRollcallTimeout_safe h
  | connectingDone => exact execConnectingDone_safe h
  | collPost => exact execCollPost_safe h _ _
  | contrib => exact execContrib_safe h _ _
  | allgather => exact execAllgather_safe h _ _
  | pace => exact execPace_safe h _ _
  | paceSend => exact execPaceSend_safe h
  | retryExhausted => exact execRetryExhausted_safe h _
  | ordsumPassStart => exact execOrdsumPassStart_safe h _
  | finalPassComplete => exact execFinalPassComplete_safe h _
  | shardDeadlineExpiry => exact execShardDeadlineExpiry_safe h _
  | perstDeassert => exact execPerstDeassert_safe h
  | hotReset => exact execHotReset_safe h
  | bar2Access => exact execBar2Access_safe h _ _ _
  | msixSend => exact execMsixSend_safe h _
  | doeSpdmRequest => exact execDoeSpdmRequest_safe h _
  | outboundFailure => exact execOutboundFailure_safe h _ _ _
  | prsntDebounce => exact execPrsntDebounce_safe h _
  | powerSettle => exact execPowerSettle_safe h _
  | rootLinkUp => exact execRootLinkUp_safe h _ _ _ _ _
  | surpriseRemoval => exact execSurpriseRemoval_safe h _
  | rootCfgdataAccess => exact execRootCfgdataAccess_safe h _ _ _
  | rootMsi => exact execRootMsi_safe h _ _
  | inboundDriveRequest => exact execInboundDriveRequest_safe h _ _ _ _
  | ethLinkUp => exact execEthLinkUp_safe h _
  | ethLinkLost => exact execEthLinkLost_safe h _
  | pfcPauseReceived => exact execPfcPauseReceived_safe h _ _ _
  | pfcAssert => exact execPfcAssert_safe h _ _ _
  | cnpReceived => exact execCnpReceived_safe h _
  | ceMarkReceived => exact execCeMarkReceived_safe h _
  | rateRecovery => exact execRateRecovery_safe h _
  | lldpSend => exact execLldpSend_safe h _
  | lldpReceive => exact execLldpReceive_safe h _ _ _ _
  | lldpExpire => exact execLldpExpire_safe h _
  | seamPoll => exact execSeamPoll_safe h
  | seamTraining => exact execSeamTraining_safe h _ _ _
  | seamNak seq => exact execSeamNak_safe h seq
  | seamReplay => exact execSeamReplay_safe h _ _
  | seamLaneReplace => exact execSeamLaneReplace_safe h _
  | seamLinkLoss => exact execSeamLinkLoss_safe h
  | seamWrite => exact execSeamWrite_safe h _ _ _
  | seamMsg => exact execSeamMsg_safe h _
  | mantleMbdoor => exact execMantleMbdoor_safe h _
  | info => exact execInfo_safe h _
  | reset => exact execReset_safe h _
  | netaddr => exact execNetaddr_safe h _
  | lldpnbr => exact execLldpnbr_safe h _
  | runplan => exact execRunplan_safe h _
  | feedcfg => exact execFeedcfg_safe h _
  | userstate => exact execUserstate_safe h _
  | ckpt => exact execCkpt_safe h _
  | restore => exact execRestore_safe h _
  | drives => exact execDrives_safe h _
  | poweravg => exact execPoweravg_safe h _
  | twinsend => exact execTwinsend_safe h _
  | twinrecv => exact execTwinrecv_safe h _ _
  | health => exact execHealth_safe h _
  | mantleIrqpost => exact execMantleIrqpost_safe h _ _
  | heartbeatLoss => exact execHeartbeatLoss_safe h _
  | mantleHeartTick => exact execMantleHeartTick_safe h
  | runnerNotify => exact execRunnerNotify_safe h
  | runnerEntryStart => exact execRunnerEntryStart_safe h
  | keeperChunkStore => exact execKeeperChunkStore_safe h
  | keeperScrub => exact execKeeperScrub_safe h _ _ _
  | smartCheck => exact execSmartCheck_safe h _ _ _ _ _
  | twinRecordWrite => exact execTwinRecordWrite_safe h
  | powerUp => exact execPowerUp_safe _
  | bootRomStart => exact execBootRomStart_safe h _
  | slotVerify => exact execSlotVerify_safe h
  | applyEmselImage => exact execApplyEmselImage_safe h
  | builtInSelfTest => exact execBuiltInSelfTest_safe h _ _ _ _ _
  | hbmTraining => exact execHbmTraining_safe h _
  | linksStart => exact execLinksStart_safe h
  | flashRead => exact execFlashRead_safe h _ _
  | flashProgram => exact execFlashProgram_safe h _ _
  | flashErase => exact execFlashErase_safe h _ _
  | reboot => exact execReboot_safe h _
  | flashCommandDone => exact execFlashCommandDone_safe h
  | trustPrefWrite => exact execTrustPrefWrite_safe h _ _
  | trustEnroll => exact execTrustEnroll_safe h _ _
  | resetInAssert => exact execResetInAssert_safe
  | pwrgdDeassert => exact execPwrgdDeassert_safe h
  | aonclkLoss => exact execAonclkLoss_safe h
  | railOutOfRange => exact execRailOutOfRange_safe h
  | avsNoAck => exact execAvsNoAck_safe h _
  | powerSample => exact execPowerSample_safe h _ _ _
  | peakLever => exact execPeakLever_safe h _
  | peakRelease => exact execPeakRelease_safe h _
  | averageLimitDrop => exact execAverageLimitDrop_safe h _ _
  | averageLimitRaise => exact execAverageLimitRaise_safe h _ _
  | upwardChangeRetry => exact execUpwardChangeRetry_safe h _ _
  | stepChange => exact execStepChange_safe h _ _ _
  | thermalThrottle => exact execThermalThrottle_safe h _ _
  | thermalRecovery => exact execThermalRecovery_safe h _ _
  | thermalTrip => exact execThermalTrip_safe h _ _
  | droopStretch => exact execDroopStretch_safe h _
  | shedStageEnter => exact execShedStageEnter_safe h _ _
  | shedStageClear => exact execShedStageClear_safe h _
  | tunerReplan => exact execTunerReplan_safe h _ _ _
  | recordAccept => exact execRecordAccept_safe h
  | mergeExpiry => exact execMergeExpiry_safe h
  | holdDrain => exact execHoldDrain_safe h
  | errRingWrite => exact execErrRingWrite_safe h _ _
  | errInjGo => exact execErrInjGo_safe h _ _
  | injectedErrorStore => exact execInjectedErrorStore_safe h _
  | perfDeadlineWrite => exact execPerfDeadlineWrite_safe h _ _
  | deadlineFire => exact execDeadlineFire_safe h _
  | counterOverflow => exact execCounterOverflow_safe h _ _
  | perfCntWrite => exact execPerfCntWrite_safe h _ _
  | freeze => exact execFreeze_safe h _ _
  | devClkPinWrite => exact execDevClkPinWrite_safe h _ _
  | debugPortAccess => exact execDebugPortAccess_safe h _ _
  | haltedThreadResume => exact execHaltedThreadResume_safe h _
  | taskKill => exact execTaskKill_safe h _
  | cellFaultClear => exact execCellFaultClear_safe h _
  | stopRequest => exact execStopRequest_safe h _
  | pairDeadlineExpiry => exact execPairDeadlineExpiry_safe h _ _
  | neighbourTemperatureDrop => exact execNeighbourTemperatureDrop_safe h _ _ _ _
  | pfcPauseExpiry => exact execPfcPauseExpiry_safe h _ _
  | rootLinkTrainingFailed => exact execRootLinkTrainingFailed_safe h _
  | configRequest => exact execConfigRequest_safe h _
  | mantleSramScrub => exact execMantleSramScrub_safe h _ _
  | linkCrcFailure => exact execLinkCrcFailure_safe h _ _ _
  | droopRecovery => exact execDroopRecovery_safe h _
  | railBackInRange => exact execRailBackInRange_safe h
  | addressResolutionFrame => exact execAddressResolutionFrame_safe h _ _ _ _ _
  | rdmaNonsendRequest => exact execRdmaNonsendRequest_safe h _ _
  | instructionFetchReturn => exact execInstructionFetchReturn_safe h _

/-! ## The step -/

theorem step_safe : nextSafe (step s) := by
  rw [step]
  split
  · exact nextSafe_next.2 (tick_safe h)
  · rename_i c rest _
    exact exec_safe (s := { s with pending := rest }) h c

end

/-- Settles O40: a step ticks or executes one command, and whatever either does with a state it does by operations that keep the form of memory. -/
theorem everyStepKeepsMemory : Obligations.EveryStepKeepsMemory := by
  unfold Obligations.EveryStepKeepsMemory
  exact fun s n hs hn => step_safe hs n hn

end Sys2Proof.Machine
end

section
/-! PROOFS. Scrubs of HBM, of block memory and of the Mantle's SRAM (R217, R218, R248, R250, R394). -/

namespace Sys2Proof.Machine

open Sys2Proof.Safety

/-! ## What a scrub meets where no injected error lies -/

theorem touchLatent_none {s : State} (h : s.err.latent = []) (l i : Nat) : touchLatent s l i = s := by
  rw [touchLatent, h]; rfl

theorem touchLatents_none {s : State} (h : s.err.latent = []) (l : Nat) (is : List Nat) : is.foldl (fun s i => touchLatent s l i) s = s :=
  List.foldlRecOn is _ (motive := fun n => n = s) rfl (fun n hn i _ => by rw [hn, touchLatent_none h])

theorem touchLine_none {s : State} (h : s.err.latent = []) (l : Nat) : touchLine s l = s := if_pos (by simp [h])

/-! ## A bit that a finding sets in a poison mask -/

theorem bit_setBit_set {w : Nat} (b : BitVec w) {k : Nat} (hk : k < w) : bit (setBit b k true) k = true := by
  rw [bit, setBit, getLsbD_setBits _ _ (le_refl _) hk, if_pos ⟨le_refl _, le_refl _⟩, Nat.sub_self]
  rfl

/-! ## A row's errors of a pass (R219, R250) -/

/-- A row's replacement is due once an error calls for it at once or is the row's second of the pass. -/
theorem rowDue_noteRow (s : State) (key row : Nat) (atOnce : Bool) :
    rowDue (noteRow s key row atOnce) key row = true ↔ rowDue s key row = true ∨ atOnce = true ∨ row ∈ tget [] s.err.ceRows key := by
  have hcall : atOnce = true ∨ row ∈ tget [] s.err.ceRows key ↔ (atOnce || (tget [] s.err.ceRows key).contains row) = true := by
    rw [Bool.or_eq_true, List.contains_iff_mem]
  rw [hcall, noteRow]
  by_cases hnow : (atOnce || (tget [] s.err.ceRows key).contains row) = true
  · rw [if_pos hnow]
    exact iff_of_true (by simp [rowDue]) (.inr hnow)
  · rw [if_neg hnow, or_iff_left hnow]; rfl

/-- A row's finding is noted with the errors alone. -/
theorem noteRow_rest (s : State) (key row : Nat) (atOnce : Bool) (e : ErrRec) :
    report (noteRow s key row atOnce) e = { s with err := (report (noteRow s key row atOnce) e).err } := by
  rw [noteRow_eq]; rfl

/-! ## The end of a scrub pass -/

/-- The pass over a channel ends with its last line. -/
def passStep (s : State) (ck i : Nat) : State := if i + 1 = chanLines then passEnded s ck else s

theorem passStep_rest (s : State) (ck i : Nat) : passStep s ck i = { s with err := (passStep s ck i).err } := by
  unfold passStep; split <;> rfl

theorem rowDue_passStep (s : State) (ck i key row : Nat) : rowDue (passStep s ck i) key row = rowDue s key row := by
  unfold passStep; split <;> rfl

/-- The end of a pass takes no record away. -/
theorem noted_passStep {s n : State} {e : ErrRec} (h : n.err = { s.err with detected := s.err.detected ++ [e] }) (ck i : Nat) :
    noted (passStep s ck i) (passStep n ck i) e := by
  unfold noted passStep
  split
  · simp only [passEnded, h]
  · exact h

/-! ## HBM_SCRUB (R248, R250) -/

/-- The channel's scrub pointer moved to the next line. -/
def hbmScrubbed (s : State) (ck : Nat) : State :=
  { s with hbm := { s.hbm with ptr := tset 0 s.hbm.ptr ck ((tget 0 s.hbm.ptr ck + 1) % chanLines) } }

/-- The place that a channel's scrub reads, and its address. -/
def hbmScrubPlace (s : State) (k ch burst : Nat) : HbmPlace := { scrubPlace k ch (tget 0 s.hbm.ptr (chKey k ch)) with burst := burst }
def hbmScrubAddr (s : State) (k ch burst : Nat) : Nat := hbmAddr s.ms.gran (hbmScrubPlace s k ch burst)

theorem exec_hbmScrub {s : State} (hlat : s.err.latent = []) (k : Fin 12) (ch : Fin 32) (burst : Fin 4) (e : Ecc) :
    exec (.hbmScrub k ch burst e) s = .next (passStep
      (hbmFinding (hbmScrubbed s (chKey k.val ch.val)) (hbmScrubPlace s k.val ch.val burst.val) (hbmScrubAddr s k.val ch.val burst.val) e)
      (chKey k.val ch.val) (tget 0 s.hbm.ptr (chKey k.val ch.val))) := by
  have hcmd : exec (.hbmScrub k ch burst e) s = execHbmScrub k ch burst e s := rfl
  have htouch := touchLatents_none (s := hbmScrubbed s (chKey k.val ch.val)) hlat (hbmScrubAddr s k.val ch.val burst.val / 128) (List.range 16)
  rw [hcmd]
  unfold hbmScrubbed hbmScrubAddr hbmScrubPlace at *
  unfold execHbmScrub
  dsimp only
  rw [htouch]
  rfl

/-- A symbol corrected in a channel is counted for its lane and, unless that is flagged, for its row. -/
def symbolCounted (s : State) (ck row lane : Nat) : State :=
  countLane (if lane ∈ tget [] s.hbm.flag ck then s else noteRow s ck row false) ck lane

theorem flagged_iff (s : State) (ck lane : Nat) : flagged s ck lane = true ↔ lane ∈ tget [] s.hbm.flag ck := List.contains_iff_mem

theorem symbolCounted_rest (s : State) (ck row lane : Nat) : symbolCounted s ck row lane = { s with err := (symbolCounted s ck row lane).err } := by
  unfold symbolCounted
  split
  · rfl
  · rw [noteRow_eq]; rfl

theorem rowDue_symbolCounted (s : State) (ck row lane : Nat) :
    rowDue (symbolCounted s ck row lane) ck row = true ↔ rowDue s ck row = true ∨ lane ∉ tget [] s.hbm.flag ck ∧ row ∈ tget [] s.err.ceRows ck := by
  have hcount (q : State) : rowDue (countLane q ck lane) ck row = rowDue q ck row := rfl
  rw [symbolCounted, hcount]
  by_cases hflag : lane ∈ tget [] s.hbm.flag ck
  · simp [hflag]
  · rw [if_neg hflag, rowDue_noteRow]; simp [hflag]

/-- A corrected error counts in the channel's word, whose count stays at its greatest value. -/
theorem rf_bumpCe (s : State) (ck : Nat) : rf (bumpRf s .hbmChstat F.hbmChstatCe 1 ck) .hbmChstat F.hbmChstatCe ck
    = min (2 ^ 32 - 1) (rf s .hbmChstat F.hbmChstatCe ck + 1) := by
  rw [bumpRf, rf_setRf_same _ _ _ _ _ (by decide) (by decide)]
  exact Nat.mod_eq_of_lt (lt_of_le_of_lt (Nat.min_le_left _ _) (by decide))

/-- What a symbol corrected by a scrub leaves (R246, R250). -/
theorem hbmScrub_corrected {s : State} (hlat : s.err.latent = []) (k : Fin 12) (ch : Fin 32) (burst : Fin 4) (lane : Nat) :
    let ck := chKey k.val ch.val
    let i := tget 0 s.hbm.ptr ck
    let p := hbmScrubPlace s k.val ch.val burst.val
    let row := hbmRow p.pc p.bank p.row
    ∃ n, exec (.hbmScrub k ch burst (.corrected lane)) s = .next n ∧ n = { hbmScrubbed s ck with mmio := n.mmio, err := n.err } ∧ regsKept [.hbmChstat] s n
      ∧ (noted (passStep (symbolCounted (hbmScrubbed s ck) ck row (lane % 256)) ck i) n
          (mkErr 0x32 7 k.val ch.val (wd (hbmScrubAddr s k.val ch.val burst.val)) (pack [(0, ch.val), (8, lane % 256)]))
        ∧ (rowDue n ck row = true ↔ rowDue s ck row = true ∨ lane % 256 ∉ tget [] s.hbm.flag ck ∧ row ∈ tget [] s.err.ceRows ck))
      ∧ rf n .hbmChstat F.hbmChstatCe ck = min (2 ^ 32 - 1) (rf s .hbmChstat F.hbmChstatCe ck + 1) := by
  intro ck i p row
  have hck : ck < 65536 := by simp only [ck, chKey]; omega
  have hrest := symbolCounted_rest (hbmScrubbed s ck) ck row (lane % 256)
  have hdue := rowDue_symbolCounted (hbmScrubbed s ck) ck row (lane % 256)
  refine ⟨_, exec_hbmScrub hlat k ch burst (.corrected lane), ?_⟩
  have hfound : hbmFinding (hbmScrubbed s ck) p (hbmScrubAddr s k.val ch.val burst.val) (.corrected lane)
      = report (bumpRf (symbolCounted (hbmScrubbed s ck) ck row (lane % 256)) .hbmChstat F.hbmChstatCe 1 ck)
          (mkErr 0x32 7 k.val ch.val (wd (hbmScrubAddr s k.val ch.val burst.val)) (pack [(0, ch.val), (8, lane % 256)])) := by
    simp only [hbmFinding, symbolCounted, flagged_iff]; rfl
  rw [hfound]
  generalize symbolCounted (hbmScrubbed s ck) ck row (lane % 256) = q at *
  generalize mkErr _ _ _ _ _ _ = e
  have hregs : ∀ r j, reg q r j = reg s r j := fun r j => by rw [hrest]; rfl
  have hend (r : RegName) (j : Nat) : reg (passStep (report (bumpRf q .hbmChstat F.hbmChstatCe 1 ck) e) ck i) r j
      = reg (bumpRf q .hbmChstat F.hbmChstatCe 1 ck) r j := by rw [passStep_rest]; rfl
  refine ⟨?_, fun r j hj hr => ?_, ⟨noted_passStep rfl ck i, ?_⟩, ?_⟩
  · rw [passStep_rest, hrest]; rfl
  · rw [hend, ← hregs]
    exact regsKept_setReg q .hbmChstat hck _ r j hj hr
  · rw [rowDue_passStep]; exact hdue
  · rw [rf, hend, ← rf, rf_bumpCe, rf, hregs, rf]

/-- What a burst that a scrub finds uncorrectable leaves (R248, R250). -/
theorem hbmScrub_uncorrectable {s : State} (hlat : s.err.latent = []) (k : Fin 12) (ch : Fin 32) (burst : Fin 4) :
    let ck := chKey k.val ch.val
    let i := tget 0 s.hbm.ptr ck
    let p := hbmScrubPlace s k.val ch.val burst.val
    let row := hbmRow p.pc p.bank p.row
    let l := hbmScrubAddr s k.val ch.val burst.val / 128
    ∃ n, exec (.hbmScrub k ch burst .uncorrectable) s = .next n
      ∧ n = { hbmScrubbed s ck with err := n.err, ms := { s.ms with hbmPoison := n.ms.hbmPoison } }
      ∧ bit (tget 0 n.ms.hbmPoison l) burst.val = true ∧ (∀ m, m ≠ l → tget 0 n.ms.hbmPoison m = tget 0 s.ms.hbmPoison m)
      ∧ noted (passStep (noteRow (hbmScrubbed s ck) ck row true) ck i) n (mkErr 0x34 7 k.val ch.val (wd (hbmScrubAddr s k.val ch.val burst.val)))
      ∧ rowDue n ck row = true := by
  intro ck i p row l
  have hrest := noteRow_eq (hbmScrubbed s ck) ck row true
  have hdue := (rowDue_noteRow (hbmScrubbed s ck) ck row true).mpr (.inr (.inl rfl))
  refine ⟨_, exec_hbmScrub hlat k ch burst .uncorrectable, ?_⟩
  have hfound : hbmFinding (hbmScrubbed s ck) p (hbmScrubAddr s k.val ch.val burst.val) .uncorrectable
      = (let q := noteRow (hbmScrubbed s ck) ck row true
         report { q with ms := { q.ms with hbmPoison := tset 0 q.ms.hbmPoison l (setBit (tget 0 q.ms.hbmPoison l) burst.val true) } }
          (mkErr 0x34 7 k.val ch.val (wd (hbmScrubAddr s k.val ch.val burst.val)))) := rfl
  rw [hfound]
  generalize noteRow (hbmScrubbed s ck) ck row true = q at *
  generalize mkErr _ _ _ _ _ = e
  dsimp only
  have hms : q.ms = s.ms := by rw [hrest]; rfl
  rw [hms]
  refine ⟨?_, ?_, fun m hm => ?_, noted_passStep rfl ck i, ?_⟩
  · rw [passStep_rest, hrest]; rfl
  · rw [passStep_rest]
    show bit (tget 0 (tset 0 s.ms.hbmPoison l _) l) burst.val = true
    rw [tget_tset, if_pos rfl]
    exact bit_setBit_set _ burst.isLt
  · rw [passStep_rest]
    exact tget_tset_other 0 _ hm _
  · rw [rowDue_passStep]; exact hdue

/-! ## BLOCK_MEMORY_SCRUB (R217, R218) -/

/-- The bank's scrub pointer moved to the next line, spare rows included. -/
def bmScrubbed (s : State) (key : Nat) : State :=
  { s with bm := { s.bm with ptr := tset 0 s.bm.ptr key ((tget 0 s.bm.ptr key + 1) % 12544) } }

/-- A word without an error leaves the scrub pointer, and the pass where it ends. -/
theorem exec_blockMemoryScrub_clean {s : State} (hlat : s.err.latent = []) (b : Fin 96) (bank : Fin 32) (w : Fin 16) :
    exec (.blockMemoryScrub b bank w .clean) s = .next (if tget 0 s.bm.ptr (bankKey b.val bank.val) + 1 = 12544
      then passEnded (bmScrubbed s (bankKey b.val bank.val)) (bmRowKey b.val bank.val) else bmScrubbed s (bankKey b.val bank.val)) := by
  have hcmd : exec (.blockMemoryScrub b bank w .clean) s = execBlockMemoryScrub b bank w .clean s := rfl
  have htouch := touchLine_none (s := bmScrubbed s (bankKey b.val bank.val)) hlat
  have hsize : 8 * (bmRows + bmSpareRows) = 12544 := rfl
  rw [hcmd]
  unfold execBlockMemoryScrub bmScrubbed at *
  simp only [hsize, htouch, bmFinding]
  by_cases hrow : tget 0 s.bm.ptr (bankKey b.val bank.val) / 8 < bmRows
  · simp only [if_pos hrow]
  · simp only [if_neg hrow]
    generalize (sparesUsed _ _ _)[(_ : Nat)]? = spare
    cases spare <;> rfl

/-- A finding in a row of the bank itself. -/
theorem exec_blockMemoryScrub_row {s : State} (hlat : s.err.latent = []) (b : Fin 96) (bank : Fin 32) (w : Fin 16) (e : Ecc)
    (hi : tget 0 s.bm.ptr (bankKey b.val bank.val) < 12288) :
    exec (.blockMemoryScrub b bank w e) s = .next (bmFinding (bmScrubbed s (bankKey b.val bank.val)) b.val bank.val
      (bmLine b.val bank.val (tget 0 s.bm.ptr (bankKey b.val bank.val))) w.val e) := by
  have hcmd : exec (.blockMemoryScrub b bank w e) s = execBlockMemoryScrub b bank w e s := rfl
  have htouch := touchLine_none (s := bmScrubbed s (bankKey b.val bank.val)) hlat
  have hsize : 8 * (bmRows + bmSpareRows) = 12544 := rfl
  have hrow : tget 0 s.bm.ptr (bankKey b.val bank.val) / 8 < bmRows := by rw [bmRows]; omega
  rw [hcmd]
  unfold execBlockMemoryScrub bmScrubbed at *
  simp only [hsize, htouch, if_pos hrow, Nat.div_add_mod]
  rw [if_neg (by omega)]

/-- What a word that a scrub finds uncorrectable leaves (R217, R219), in a row that block memory serves. -/
theorem bmFinding_uncorrectable {s : State} {b bank l w d o : Nat} (hw : w < 16) (hblock : physAt s (128 * l + 8 * w) = .block d o) :
    let row := (bmPlace (128 * l + 8 * w)).2.2
    let n := bmFinding s b bank l w .uncorrectable
    n = { s with err := n.err, ms := { s.ms with bmPoison := n.ms.bmPoison } }
      ∧ bit (tget 0 n.ms.bmPoison l) w = true ∧ (∀ m, m ≠ l → tget 0 n.ms.bmPoison m = tget 0 s.ms.bmPoison m)
      ∧ noted (noteRow s (bmRowKey b bank) row true) n (mkErr 0x21 0x21 b bank (wd (128 * l + 8 * w))) ∧ rowDue n (bmRowKey b bank) row = true := by
  intro row n
  have hn : n = report (noteRow { s with ms := { s.ms with bmPoison := tset 0 s.ms.bmPoison l (setBit (tget 0 s.ms.bmPoison l) w true) } }
      (bmRowKey b bank) row true) (mkErr 0x21 0x21 b bank (wd (128 * l + 8 * w))) := by
    simp only [n, bmFinding, lineBase, hblock]; rfl
  have hms : n.ms = { s.ms with bmPoison := tset 0 s.ms.bmPoison l (setBit (tget 0 s.ms.bmPoison l) w true) } := by rw [hn, noteRow_rest]
  refine ⟨?_, ?_, fun m hm => ?_, ?_, ?_⟩
  · rw [hn, noteRow_rest]
  · rw [hms, tget_tset, if_pos rfl]
    exact bit_setBit_set _ hw
  · rw [hms]
    exact tget_tset_other 0 _ hm _
  · rw [hn]; rfl
  · rw [hn]
    exact (rowDue_noteRow _ _ _ true).mpr (.inr (.inl rfl))

/-! ## MANTLE_SRAM_SCRUB (R394) -/

/-- A word that Health's scrub reads without an uncorrectable error. -/
def sramGood (s : State) (addr : Nat) : State :=
  { s with mantle := { s.mantle with sramBad := s.mantle.sramBad.filter (fun a => decide (a ≠ addr)) } }

/-- Bytes put into the SRAM leave every byte outside them. -/
theorem sramPut_outside (s : State) {addr a : Nat} (bs : List Byte) (h : a < addr ∨ addr + bs.length ≤ a) :
    tget 0 (sramPut s addr bs).mantle.sram a = tget 0 s.mantle.sram a := by
  refine List.foldlRecOn (bs.zip (List.range bs.length)) _ (motive := fun m => tget 0 m a = tget 0 s.mantle.sram a) rfl (fun m hm p hp => ?_)
  have hlt := List.mem_range.mp (List.of_mem_zip hp).2
  rw [tget_tset_other 0 m (by omega), hm]

section
variable {s : State} {addr : Nat} (hsize : addr < 0x1000000) (halign : addr % 8 = 0) (hlive : homeLive s 3 = true)
include hsize halign hlive

theorem exec_mantleSramScrub (e : Ecc) : exec (.mantleSramScrub addr e) s = .next (match e with
    | .clean => sramGood s addr
    | .corrected _ => report (sramGood s addr) (mkErr 0x82 1 0 0 (wd addr))
    | .uncorrectable =>
      let put := sramPut (drawFree s).2 addr (leBytes (drawFree s).1.toNat 8)
      report { put with mantle := { put.mantle with sramBad := addr :: s.mantle.sramBad.filter (fun a => decide (a ≠ addr)) } } (mkErr 0x83 1 0 0 (wd addr))) := by
  have hcmd : exec (.mantleSramScrub addr e) s = execMantleSramScrub addr e s := rfl
  have hsize' : ¬sramBytes ≤ addr := Nat.not_le.mpr hsize
  rw [hcmd]
  unfold execMantleSramScrub
  simp only [hsize', halign, hlive]
  cases e <;> rfl

/-- A word found uncorrectable takes a free value and is known to be bad. -/
theorem mantleSramScrub_uncorrectable :
    ∃ n, exec (.mantleSramScrub addr .uncorrectable) s = .next n
      ∧ n = { s with err := n.err, freeCtr := n.freeCtr, mantle := { s.mantle with sram := n.mantle.sram, sramBad := n.mantle.sramBad } }
      ∧ (∀ a, a ∈ n.mantle.sramBad ↔ a = addr ∨ a ∈ s.mantle.sramBad)
      ∧ (∀ a, a < addr ∨ addr + 8 ≤ a → tget 0 n.mantle.sram a = tget 0 s.mantle.sram a)
      ∧ noted s n (mkErr 0x83 1 0 0 (wd addr)) := by
  refine ⟨_, exec_mantleSramScrub hsize halign hlive .uncorrectable, ?_⟩
  dsimp only
  generalize (drawFree s).1 = v
  refine ⟨rfl, fun a => ?_, fun a ha => ?_, rfl⟩
  · show a ∈ addr :: s.mantle.sramBad.filter (fun a => decide (a ≠ addr)) ↔ _
    simp only [List.mem_cons, List.mem_filter, decide_eq_true_eq]
    tauto
  · exact sramPut_outside (drawFree s).2 _ (by rwa [leBytes_length])

end

end Sys2Proof.Machine
end

section
/-! PROOFS. Flagged lanes, and the retrains that give them spares or fail their channel (R245–R247). -/

namespace Sys2Proof.Machine

open Sys2Proof.Safety

/-! ## A channel's word -/

theorem chKey_lt_words (k : Fin 12) (ch : Fin 32) : chKey k.val ch.val < 65536 := by
  rw [chKey]; omega

/-- A field of a channel's word that another one written leaves. -/
theorem chstat_other (s : State) (ck v : Nat) {f g : Fld} (h : f.lo ≤ f.hi ∧ f.hi < 64 ∧ (g.hi < f.lo ∨ f.hi < g.lo)) :
    rf (setRf s .hbmChstat f v ck) .hbmChstat g ck = rf s .hbmChstat g ck :=
  rf_setRf_other s .hbmChstat f g v ck h.1 h.2.1 h.2.2

theorem chstat_same (s : State) (ck : Nat) {v : Nat} {f : Fld} (h : f.lo ≤ f.hi ∧ f.hi < 64) (hv : v < 2 ^ (f.hi + 1 - f.lo)) :
    rf (setRf s .hbmChstat f v ck) .hbmChstat f ck = v := by
  rw [rf_setRf_same s .hbmChstat f v ck h.1 h.2, Nat.mod_eq_of_lt hv]

/-! ## LANE_FLAGGED (R246) -/

/-- A lane with 32 corrected symbols within 1 s heads the channel's flagged ones, and the channel retrains. -/
theorem exec_laneFlagged {s : State} {k : Fin 12} {ch : Fin 32} {lane : Nat} (hdue : laneDue s (chKey k.val ch.val) lane = true)
    (hready : rf s .hbmChstat F.hbmChstatState (chKey k.val ch.val) = 1) (hlane : lane < 72) (hnew : lane ∉ tget [] s.hbm.flag (chKey k.val ch.val)) :
    exec (.laneFlagged k ch lane) s = .next (setRf
      { s with hbm := { s.hbm with flag := tset [] s.hbm.flag (chKey k.val ch.val) (lane :: tget [] s.hbm.flag (chKey k.val ch.val)) } }
      .hbmChstat F.hbmChstatState 2 (chKey k.val ch.val)) := by
  have hcmd : exec (.laneFlagged k ch lane) s = execLaneFlagged k ch lane s := rfl
  have hflag : flagged s (chKey k.val ch.val) lane = false := by simpa [flagged] using hnew
  rw [hcmd, execLaneFlagged]
  exact congrArg _ (if_pos (by simp [hdue, hready, hlane, hflag]))

/-! ## CHANNEL_RETRAIN (R245–R247) -/

/-- A retrain's end counts it. -/
def retrainCounted (s : State) (ck : Nat) : State := bumpRf s .hbmChstat F.hbmChstatRetrains 1 ck

theorem retrainCounted_count (s : State) (ck : Nat) :
    rf (retrainCounted s ck) .hbmChstat F.hbmChstatRetrains ck = min 255 (rf s .hbmChstat F.hbmChstatRetrains ck + 1) := by
  rw [retrainCounted, bumpRf]
  exact chstat_same s ck (by decide) (lt_of_le_of_lt (Nat.min_le_left _ _) (by decide))

theorem retrainCounted_other (s : State) (ck : Nat) {g : Fld} (h : g.hi < F.hbmChstatRetrains.lo) :
    rf (retrainCounted s ck) .hbmChstat g ck = rf s .hbmChstat g ck := chstat_other s ck _ ⟨by decide, by decide, .inl h⟩

/-- More bad lanes than spares fail the channel (R247). -/
theorem exec_channelRetrain_fails {s : State} {k : Fin 12} {ch : Fin 32} {bad : List Nat} {cmdBad : Nat}
    (htrains : rf s .hbmChstat F.hbmChstatState (chKey k.val ch.val) = 2)
    (hbad : 2 < (distinct bad).countP (fun l => decide (l < 72)) + rf s .hbmChstat F.hbmChstatDqSpared (chKey k.val ch.val)
      ∨ 1 < cmdBad + rf s .hbmChstat F.hbmChstatCmdSpared (chKey k.val ch.val)) :
    exec (.channelRetrain k ch bad cmdBad) s = .next (chanFail (retrainCounted s (chKey k.val ch.val)) k.val ch.val) := by
  have hcmd : exec (.channelRetrain k ch bad cmdBad) s = execChannelRetrain k ch bad cmdBad s := rfl
  have htrain : trainChan (retrainCounted s (chKey k.val ch.val)) k.val ch.val bad cmdBad
      = (false, chanFail (retrainCounted s (chKey k.val ch.val)) k.val ch.val) := by
    rw [trainChan]
    refine if_pos ?_
    rw [retrainCounted_other s _ (g := F.hbmChstatDqSpared) (by decide), retrainCounted_other s _ (g := F.hbmChstatCmdSpared) (by decide),
      ← List.countP_eq_length_filter]
    simpa using hbad
  rw [retrainCounted] at *
  rw [hcmd, execChannelRetrain]
  dsimp only
  rw [if_neg (not_not.mpr htrains), htrain]
  rfl

/-- What a failed channel leaves (R247). -/
theorem chanFail_spec (s : State) (k : Fin 12) (ch : Fin 32) :
    let n := chanFail s k.val ch.val
    n = { s with mmio := n.mmio, err := n.err } ∧ regsKept [.hbmChstat, .hbmStkstat] s n ∧ rf n .hbmChstat F.hbmChstatState (chKey k.val ch.val) = 3
      ∧ rf n .hbmStkstat F.hbmStkstatState k.val = 4 ∧ noted s n (mkErr 0x37 7 k.val ch.val 0 (wd ch.val)) := by
  intro n
  have hk : k.val < 65536 := by omega
  have hck := chKey_lt_words k ch
  have hstate : rf (setRf s .hbmChstat F.hbmChstatState 3 (chKey k.val ch.val)) .hbmChstat F.hbmChstatState (chKey k.val ch.val) = 3 :=
    chstat_same s _ (by decide) (by decide)
  have hregs : regsKept [.hbmChstat] s (setRf s .hbmChstat F.hbmChstatState 3 (chKey k.val ch.val)) := regsKept_setReg s .hbmChstat hck _
  have hn : n = report (setRf (setRf s .hbmChstat F.hbmChstatState 3 (chKey k.val ch.val)) .hbmStkstat F.hbmStkstatState 4 k.val)
      (mkErr 0x37 7 k.val ch.val 0 (wd ch.val)) := rfl
  refine ⟨rfl, ?_, ?_, ?_, rfl⟩
  all_goals
    rw [hn]
    generalize setRf s .hbmChstat F.hbmChstatState 3 (chKey k.val ch.val) = q at *
  · have hstack : regsKept [.hbmStkstat] q (setRf q .hbmStkstat F.hbmStkstatState 4 k.val) := regsKept_setReg q .hbmStkstat hk _
    exact regsKept_trans (regsKept_mono hregs (by simp)) (regsKept_mono hstack (by simp))
  · have haway : rf (setRf q .hbmStkstat F.hbmStkstatState 4 k.val) .hbmChstat F.hbmChstatState (chKey k.val ch.val)
        = rf q .hbmChstat F.hbmChstatState (chKey k.val ch.val) := rf_setRf_away q _ _ 4 hk hck (fun h => nomatch h.1)
    exact haway.trans hstate
  · exact rf_setRf_same q .hbmStkstat F.hbmStkstatState 4 k.val (by decide) (by decide)

/-- A retrain with no bad lane makes the channel ready again. -/
def chanReady (s : State) (ck : Nat) : State := setRf (retrainCounted s ck) .hbmChstat F.hbmChstatState 1 ck

theorem chanReady_rest (s : State) {ck : Nat} (hck : ck < 65536) :
    chanReady s ck = { s with mmio := (chanReady s ck).mmio } ∧ regsKept [.hbmChstat] s (chanReady s ck) :=
  ⟨rfl, regsKept_trans (regsKept_setReg s .hbmChstat hck _) (regsKept_setReg _ .hbmChstat hck _)⟩

theorem chanReady_ready (s : State) (ck : Nat) : rf (chanReady s ck) .hbmChstat F.hbmChstatState ck = 1 := chstat_same _ ck (by decide) (by decide)

theorem chanReady_count (s : State) (ck : Nat) :
    rf (chanReady s ck) .hbmChstat F.hbmChstatRetrains ck = min 255 (rf s .hbmChstat F.hbmChstatRetrains ck + 1) :=
  (chstat_other _ ck _ (by decide)).trans (retrainCounted_count s ck)

theorem chanReady_other (s : State) (ck : Nat) {g : Fld} (h : F.hbmChstatState.hi < g.lo ∧ g.hi < F.hbmChstatRetrains.lo) :
    rf (chanReady s ck) .hbmChstat g ck = rf s .hbmChstat g ck :=
  (chstat_other _ ck _ ⟨by decide, by decide, .inr h.1⟩).trans (retrainCounted_other s ck h.2)

/-- A retrain with no bad lane: the lane flagged last takes a spare where one is left, else it stays in service, flagged (R246). -/
theorem exec_channelRetrain_clean {s : State} {k : Fin 12} {ch : Fin 32} {lane : Nat}
    (htrains : rf s .hbmChstat F.hbmChstatState (chKey k.val ch.val) = 2) (hhead : (tget [] s.hbm.flag (chKey k.val ch.val)).head? = some lane)
    (hcmd : rf s .hbmChstat F.hbmChstatCmdSpared (chKey k.val ch.val) ≤ 1) (hused : rf s .hbmChstat F.hbmChstatDqSpared (chKey k.val ch.val) ≤ 2) :
    exec (.channelRetrain k ch [] 0) s = .next (
      if rf s .hbmChstat F.hbmChstatDqSpared (chKey k.val ch.val) < 2 then
        report (unflag (spareLane (chanReady s (chKey k.val ch.val)) (chKey k.val ch.val) lane) (chKey k.val ch.val) [lane])
          (mkErr 0x33 7 k.val ch.val 0 (pack [(0, ch.val), (8, lane), (16, 1), (17, 0)]))
      else
        report (unflag (setRf (chanReady s (chKey k.val ch.val)) .hbmChstat F.hbmChstatFlagged 1 (chKey k.val ch.val)) (chKey k.val ch.val) [])
          (mkErr 0x33 7 k.val ch.val 0 (pack [(0, ch.val), (8, lane), (16, 1), (17, 1)]))) := by
  have hexec : exec (.channelRetrain k ch [] 0) s = execChannelRetrain k ch [] 0 s := rfl
  have hroom := chanReady_other s (chKey k.val ch.val) (g := F.hbmChstatDqSpared) (by decide)
  have htrain : trainChan (retrainCounted s (chKey k.val ch.val)) k.val ch.val [] 0 = (true, chanReady s (chKey k.val ch.val)) := by
    rw [trainChan]
    refine if_neg ?_
    rw [retrainCounted_other s _ (g := F.hbmChstatDqSpared) (by decide), retrainCounted_other s _ (g := F.hbmChstatCmdSpared) (by decide)]
    have hnone : (distinct []).filter (fun l => decide (l < 72)) = [] := rfl
    rw [hnone]
    simp only [List.length_nil, Nat.zero_add, Bool.or_eq_true, decide_eq_true_eq]
    omega
  generalize chanReady s (chKey k.val ch.val) = r at *
  have hflag : (bumpRf s .hbmChstat F.hbmChstatRetrains 1 (chKey k.val ch.val)).hbm = s.hbm := rfl
  rw [retrainCounted] at htrain
  rw [hexec, execChannelRetrain]
  dsimp only
  rw [if_neg (not_not.mpr htrains), htrain, hflag, hhead]
  dsimp only
  rw [hroom]
  by_cases hlt : rf s .hbmChstat F.hbmChstatDqSpared (chKey k.val ch.val) < 2
  · simp [hlt]
  · simp [hlt]

/-- What a spare that a lane takes changes in its channel's word (R245). -/
theorem spareLane_spec (s : State) {ck lane : Nat} (hck : ck < 65536) (hlane : lane < 128) (hused : rf s .hbmChstat F.hbmChstatDqSpared ck < 2) :
    let n := spareLane s ck lane
    let used := rf s .hbmChstat F.hbmChstatDqSpared ck
    n = { s with mmio := n.mmio } ∧ regsKept [.hbmChstat] s n ∧ rf n .hbmChstat F.hbmChstatDqSpared ck = used + 1
      ∧ rf n .hbmChstat (if used = 0 then F.hbmChstatLane0 else F.hbmChstatLane1) ck = lane
      ∧ rf n .hbmChstat F.hbmChstatState ck = rf s .hbmChstat F.hbmChstatState ck
      ∧ rf n .hbmChstat F.hbmChstatRetrains ck = rf s .hbmChstat F.hbmChstatRetrains ck := by
  intro n used
  have hplace : (if used = 0 then F.hbmChstatLane0 else F.hbmChstatLane1) = F.hbmChstatLane0
      ∨ (if used = 0 then F.hbmChstatLane0 else F.hbmChstatLane1) = F.hbmChstatLane1 := by split <;> simp
  have hn : n = setRf (setRf s .hbmChstat (if used = 0 then F.hbmChstatLane0 else F.hbmChstatLane1) lane ck) .hbmChstat F.hbmChstatDqSpared (used + 1) ck := rfl
  generalize (if used = 0 then F.hbmChstatLane0 else F.hbmChstatLane1) = f at *
  have hfits : lane < 2 ^ (f.hi + 1 - f.lo) ∧ f.lo ≤ f.hi ∧ f.hi < 64 ∧ F.hbmChstatDqSpared.hi < f.lo ∧ f.hi < F.hbmChstatRetrains.lo := by
    rcases hplace with rfl | rfl
    · exact ⟨hlane, by decide⟩
    · exact ⟨hlane, by decide⟩
  obtain ⟨hval, hle, hlt, habove, hbelow⟩ := hfits
  have hother (g : Fld) (hg : g.hi < F.hbmChstatDqSpared.lo ∨ F.hbmChstatRetrains.lo ≤ g.lo) : rf n .hbmChstat g ck = rf s .hbmChstat g ck := by
    have hmid : F.hbmChstatDqSpared.lo ≤ F.hbmChstatDqSpared.hi ∧ F.hbmChstatDqSpared.hi < F.hbmChstatRetrains.lo := by decide
    rw [hn, chstat_other _ ck _ ⟨by decide, by decide, by omega⟩, chstat_other s ck _ ⟨hle, hlt, by omega⟩]
  refine ⟨rfl, ?_, ?_, ?_, hother _ (by decide), hother _ (by decide)⟩
  · exact regsKept_trans (regsKept_setReg s .hbmChstat hck _) (regsKept_setReg _ .hbmChstat hck _)
  · rw [hn]
    exact chstat_same _ ck (by decide) (lt_of_le_of_lt (Nat.succ_le_of_lt hused) (by decide))
  · rw [hn, chstat_other _ ck _ ⟨by decide, by decide, .inr habove⟩]
    exact chstat_same s ck ⟨hle, hlt⟩ hval

/-- Lanes unflagged leave the others of the channel's list. -/
theorem unflag_flags (s : State) (ck : Nat) (lanes : List Nat) :
    tget [] (unflag s ck lanes).hbm.flag ck = (tget [] s.hbm.flag ck).filter (fun l => !lanes.contains l) := by
  show tget [] (tset [] _ ck _) ck = _
  rw [tget_tset, if_pos rfl]

section
variable {s : State} {k : Fin 12} {ch : Fin 32} {lane : Nat}

/-- What the retrain of a channel that has spares left leaves. -/
theorem laneSpared_spec (hlane : lane < 72) (hused : rf s .hbmChstat F.hbmChstatDqSpared (chKey k.val ch.val) < 2) (e : ErrRec) :
    let ck := chKey k.val ch.val
    let f (q : State) (g : Fld) : Nat := rf q .hbmChstat g ck
    let used := f s F.hbmChstatDqSpared
    let n := report (unflag (spareLane (chanReady s ck) ck lane) ck [lane]) e
    (n = { s with mmio := n.mmio, err := n.err, hbm := { s.hbm with flag := n.hbm.flag } } ∧ regsKept [.hbmChstat] s n
      ∧ f n F.hbmChstatState = 1 ∧ f n F.hbmChstatRetrains = min 255 (f s F.hbmChstatRetrains + 1))
    ∧ f n F.hbmChstatDqSpared = used + 1 ∧ f n (if used = 0 then F.hbmChstatLane0 else F.hbmChstatLane1) = lane
      ∧ tget [] n.hbm.flag ck = (tget [] s.hbm.flag ck).filter (fun l => decide (l ≠ lane)) ∧ noted s n e := by
  intro ck f used n
  have hkept : rf (chanReady s ck) .hbmChstat F.hbmChstatDqSpared ck = used := chanReady_other s ck (by decide)
  obtain ⟨hready, hreadyRegs⟩ := chanReady_rest s (chKey_lt_words k ch)
  obtain ⟨hrest, hregs, hspared, hplaced, hstate, hcount⟩ :=
    spareLane_spec (chanReady s ck) (lane := lane) (chKey_lt_words k ch) (by omega) (by rw [hkept]; exact hused)
  rw [hkept] at hspared hplaced
  rw [chanReady_ready] at hstate
  rw [chanReady_count] at hcount
  have hflags := unflag_flags (spareLane (chanReady s ck) ck lane) ck [lane]
  have hleft : (fun l => !([lane] : List Nat).contains l) = fun l => decide (l ≠ lane) := by funext l; simp
  have hn : n = report (unflag (spareLane (chanReady s ck) ck lane) ck [lane]) e := rfl
  clear_value n
  generalize spareLane (chanReady s ck) ck lane = q at *
  rw [hready] at hrest
  subst hn
  refine ⟨⟨?_, regsKept_trans hreadyRegs hregs, hstate, hcount⟩, hspared, hplaced, ?_, ?_⟩
  · rw [hrest]; rfl
  · exact hflags.trans (by rw [hleft, hrest])
  · rw [hrest]; rfl

/-- What the retrain of a channel whose spares are all in use leaves. -/
theorem laneKept_spec (hused : rf s .hbmChstat F.hbmChstatDqSpared (chKey k.val ch.val) = 2) (e : ErrRec) :
    let ck := chKey k.val ch.val
    let f (q : State) (g : Fld) : Nat := rf q .hbmChstat g ck
    let n := report (unflag (setRf (chanReady s ck) .hbmChstat F.hbmChstatFlagged 1 ck) ck []) e
    (n = { s with mmio := n.mmio, err := n.err, hbm := { s.hbm with flag := n.hbm.flag } } ∧ regsKept [.hbmChstat] s n
      ∧ f n F.hbmChstatState = 1 ∧ f n F.hbmChstatRetrains = min 255 (f s F.hbmChstatRetrains + 1))
    ∧ f n F.hbmChstatDqSpared = 2 ∧ f n F.hbmChstatFlagged = 1 ∧ tget [] n.hbm.flag ck = tget [] s.hbm.flag ck ∧ noted s n e := by
  intro ck f n
  obtain ⟨hready, hreadyRegs⟩ := chanReady_rest s (chKey_lt_words k ch)
  have hstate : f (chanReady s ck) F.hbmChstatState = 1 := chanReady_ready s ck
  have hcount : f (chanReady s ck) F.hbmChstatRetrains = min 255 (f s F.hbmChstatRetrains + 1) := chanReady_count s ck
  have hspared : f (chanReady s ck) F.hbmChstatDqSpared = 2 := (chanReady_other s ck (by decide)).trans hused
  have hn : n = report (unflag (setRf (chanReady s ck) .hbmChstat F.hbmChstatFlagged 1 ck) ck []) e := rfl
  clear_value n
  generalize chanReady s ck = q at *
  have hregs : regsKept [.hbmChstat] q (setRf q .hbmChstat F.hbmChstatFlagged 1 ck) := regsKept_setReg q .hbmChstat (chKey_lt_words k ch) _
  have hother {g : Fld} (h : g.hi < 5 ∨ 5 < g.lo) : f (setRf q .hbmChstat F.hbmChstatFlagged 1 ck) g = f q g :=
    chstat_other q ck 1 ⟨by decide, by decide, h⟩
  have hflagged : f (setRf q .hbmChstat F.hbmChstatFlagged 1 ck) F.hbmChstatFlagged = 1 := chstat_same q ck (by decide) (by decide)
  have hflags := unflag_flags (setRf q .hbmChstat F.hbmChstatFlagged 1 ck) ck []
  have hrest : setRf q .hbmChstat F.hbmChstatFlagged 1 ck = { s with mmio := (setRf q .hbmChstat F.hbmChstatFlagged 1 ck).mmio } := by
    rw [setRf_eq, hready]
  rw [← hother (.inl (by decide))] at hstate hspared
  rw [← hother (.inr (by decide))] at hcount
  generalize setRf q .hbmChstat F.hbmChstatFlagged 1 ck = p at *
  subst hn
  refine ⟨⟨?_, regsKept_trans hreadyRegs hregs, hstate, hcount⟩, hspared, hflagged, ?_, ?_⟩
  · rw [hrest]; rfl
  · exact hflags.trans ((List.filter_eq_self.mpr (fun l _ => rfl)).trans (by rw [hrest]))
  · rw [hrest]; rfl

end

end Sys2Proof.Machine
end

section
/-! PROOFS. The store that takes an injected error with it (R464), outbound failures (R378), and the statement on scrubs and lanes: O36. -/

namespace Sys2Proof.Machine

open Sys2Proof.Safety

/-! ## An armed injection until its store (R464) -/

/-- Between s and n the injection stays as it is, and so do the stacks and whether a line's channel answers. -/
structure injectionKept (l : Nat) (s n : State) : Prop where
  armed : n.err.armed = s.err.armed
  hbm : n.hbm = s.hbm
  word : reg n .errInj = reg s .errInj
  dead : lineDead n l = lineDead s l

theorem injectionKept.refl (l : Nat) (s : State) : injectionKept l s s := ⟨rfl, rfl, rfl, rfl⟩

theorem injectionKept.trans {l : Nat} {a b c : State} (h : injectionKept l a b) (k : injectionKept l b c) : injectionKept l a c :=
  ⟨k.armed.trans h.armed, k.hbm.trans h.hbm, k.word.trans h.word, k.dead.trans h.dead⟩

theorem foldl_injectionKept {α : Type} {l : Nat} (f : State → α → State) (h : ∀ s a, injectionKept l s (f s a)) (as : List α) (s : State) :
    injectionKept l s (as.foldl f s) :=
  foldl_inv (injectionKept l s) f (fun b a hb => hb.trans (h b a)) as s (.refl l s)

theorem touchLatent_armed (s : State) (l i : Nat) : (touchLatent s l i).err.armed = s.err.armed := by
  have hnote (q : State) (key row : Nat) (b : Bool) : (noteRow q key row b).err.armed = q.err.armed := by
    unfold noteRow; dsimp only; split <;> rfl
  unfold touchLatent
  split
  · rfl
  · dsimp only
    split
    · split
      · simp only [report, bumpRf_err, hnote]
      · simp only [report, hnote]
    · split
      · simp only [report, hnote]
      · simp only [report, hnote]

theorem touchLine_injectionKept (s : State) (l : Nat) : injectionKept l s (touchLine s l) := by
  unfold touchLine
  split
  · exact .refl l s
  · refine foldl_injectionKept _ (fun q i => ?_) _ s
    obtain ⟨-, hregs, hhome⟩ := touchLatent_keeps q l i
    exact ⟨touchLatent_armed q l i, touchLatent_hbm q l i, hregs .errInj 0 (by decide) (by decide), hhome.lineDead l⟩

theorem storeLine_injectionKept (s : State) (l : Nat) (x : Line) : injectionKept l s (storeLine s l x) := by
  have hrest := storeLine_ms_rest s l x
  exact ⟨by rw [hrest], by rw [hrest], by rw [hrest]; rfl, lineDead_storeLine s l x l⟩

theorem rcTouch_injectionKept (s : State) (l : Nat) : injectionKept l s (rcTouch s l) := by
  refine ⟨?_, ?_, ?_, (rcTouch_sameHome s l).lineDead l⟩
  all_goals
    unfold rcTouch
    dsimp only
    split <;> rfl

theorem dropLatent_injectionKept (s : State) (l off n : Nat) : injectionKept l s (dropLatent s l off n) := by
  unfold dropLatent
  split
  · exact .refl l s
  · refine foldl_injectionKept _ (fun q i => ?_) _ s
    split
    · exact ⟨rfl, rfl, rfl, rfl⟩
    · exact .refl l q

/-- Bytes written within a line whose channel answers, before an injected error joins them. -/
def lineWritten (s : State) (l off : Nat) (bs : List Byte) (mark : Bool) : State :=
  let q := if lineHbm l && decide (bs.length < 128) then touchLine s l else s
  let x := overlay (homeLine q l) off bs mark
  let p := if lineHbm l then { q with ms := { q.ms with rc := tins l x q.ms.rc } } else storeLine q l x
  dropLatent (rcTouch p l) l off bs.length

theorem homeWriteLine_live {s : State} {l : Nat} (h : lineDead s l = false) (off : Nat) (bs : List Byte) (mark : Bool) :
    homeWriteLine s l off bs mark = storeInjected (lineWritten s l off bs mark) l off bs.length := by
  unfold homeWriteLine
  rw [h]
  rfl

theorem lineWritten_injectionKept (s : State) (l off : Nat) (bs : List Byte) (mark : Bool) : injectionKept l s (lineWritten s l off bs mark) := by
  unfold lineWritten
  dsimp only
  have htouch : injectionKept l s (if lineHbm l && decide (bs.length < 128) then touchLine s l else s) := by
    split
    · exact touchLine_injectionKept s l
    · exact .refl l s
  generalize (if lineHbm l && decide (bs.length < 128) then touchLine s l else s) = q at htouch
  generalize overlay (homeLine q l) off bs mark = x
  refine htouch.trans (injectionKept.trans (injectionKept.trans ?_ (rcTouch_injectionKept _ l)) (dropLatent_injectionKept _ l off _))
  split
  · exact ⟨rfl, rfl, rfl, rfl⟩
  · exact storeLine_injectionKept q l x

/-- A line written back to a channel that answers leaves the errors and the stacks. -/
theorem writeBack_live {s : State} {l : Nat} (h : lineDead s l = false) : (writeBack s l).err = s.err ∧ (writeBack s l).hbm = s.hbm := by
  rw [writeBack, touchDead_live h]
  split
  · exact ⟨rfl, rfl⟩
  · dsimp only
    rw [storeLine_ms_rest]
    exact ⟨rfl, rfl⟩

/-- The write to the armed word stores the error with it, once (R464). -/
theorem storeInjected_armed {s : State} {l off : Nat} (harmed : s.err.armed = true) (hlive : lineDead s l = false)
    (hword : lineBase l + off = 8 * rf s .errInj F.errInjAddr) :
    let n := storeInjected s l off 8
    n.err.armed = false ∧ tget? n.err.latent (8 * rf s .errInj F.errInjAddr / 8) = some (1 + rf s .errInj F.errInjKind)
      ∧ rf n .errInj F.errInjGo = 0 ∧ n.hbm = s.hbm := by
  intro n
  let latent := tins (8 * rf s .errInj F.errInjAddr / 8) (1 + rf s .errInj F.errInjKind) s.err.latent
  let taken : State := { s with err := { s.err with armed := false, latent := latent } }
  have htakes : (s.err.armed && decide (lineBase l + off < 8 * rf s .errInj F.errInjAddr + 8)
      && decide (8 * rf s .errInj F.errInjAddr < lineBase l + off + 8)) = true := by
    rw [harmed, hword]
    simp
  have hn : n = setRf (rcDrop (writeBack taken l) l) .errInj F.errInjGo 0 := if_pos htakes
  obtain ⟨herr, hhbm⟩ := writeBack_live (s := taken) (l := l) hlive
  rw [hn]
  refine ⟨?_, ?_, rf_setRf_same _ .errInj F.errInjGo 0 0 (by decide) (by decide), hhbm⟩
  · show (writeBack taken l).err.armed = false
    rw [herr]
  · show tget? (writeBack taken l).err.latent _ = _
    rw [herr]
    exact tget?_tins_same _ _ _

section
variable {s : State} (hsafe : memorySafe s) (harmed : s.err.armed = true) (hlive : lineDead s (8 * rf s .errInj F.errInjAddr / 128) = false)
include hsafe harmed hlive

/-- What the store of an injected error leaves (R464). -/
theorem injectedErrorStore_stores (data : Word) :
    let pa := 8 * rf s .errInj F.errInjAddr
    ∃ n, exec (.injectedErrorStore data) s = .next n ∧ n.err.armed = false ∧ tget? n.err.latent (pa / 8) = some (1 + rf s .errInj F.errInjKind)
      ∧ rf n .errInj F.errInjGo = 0
      ∧ (∀ a, byteAt n a = if pa ≤ a ∧ a < pa + 8 then BitVec.ofNat 8 (data.toNat / 2 ^ (8 * (a - pa))) else byteAt s a)
      ∧ n = { s with ms := n.ms, err := n.err, mmio := n.mmio } := by
  intro pa
  have hlen : (leBytes data.toNat 8).length = 8 := leBytes_length _ _
  have hexec : exec (.injectedErrorStore data) s = .next (homeWrite s pa (leBytes data.toNat 8)) := congrArg _ (if_pos harmed)
  have hline : homeWrite s pa (leBytes data.toNat 8)
      = storeInjected (lineWritten s (pa / 128) (pa % 128) (leBytes data.toNat 8) false) (pa / 128) (pa % 128) 8 := by
    have hone : homeWrite s pa (leBytes data.toNat 8) = homeWriteLine s (pa / 128) (pa % 128) (leBytes data.toNat 8) false := by
      rw [homeWrite, cutLines_one _ _ (by rw [hlen]; omega)]
      rfl
    rw [hone, homeWriteLine_live hlive, hlen]
  obtain ⟨hkeptArmed, hkeptHbm, hkeptWord, hkeptDead⟩ := lineWritten_injectionKept s (pa / 128) (pa % 128) (leBytes data.toNat 8) false
  have hfield (f : Fld) : rf (lineWritten s (pa / 128) (pa % 128) (leBytes data.toNat 8) false) .errInj f = rf s .errInj f :=
    congrArg (fun w => fget w f) hkeptWord
  have hplace : lineBase (pa / 128) + pa % 128
      = 8 * rf (lineWritten s (pa / 128) (pa % 128) (leBytes data.toNat 8) false) .errInj F.errInjAddr := by
    rw [hfield, lineBase]
    exact Nat.div_add_mod pa 128
  obtain ⟨hdone, hlatent, hgo, hhbm⟩ := storeInjected_armed (hkeptArmed.trans harmed) (hkeptDead.trans hlive) hplace
  rw [hfield, hfield] at hlatent
  rw [← hline] at hdone hlatent hgo hhbm
  refine ⟨_, hexec, hdone, hlatent, hgo, fun a => ?_, ?_⟩
  · have halive : ∀ x, pa ≤ x → x < pa + (leBytes data.toNat 8).length → lineDead s (x / 128) = false := by
      intro x hlo hhi
      rw [hlen] at hhi
      rw [show x / 128 = pa / 128 by omega]
      exact hlive
    rw [homeWrite_bytes s hsafe pa _ false halive a, hlen]
    by_cases ha : pa ≤ a ∧ a < pa + 8
    · rw [if_pos ha, if_pos ha, leBytes_getD (by omega)]
    · rw [if_neg ha, if_neg ha]
  · obtain ⟨hrest, -⟩ := homeWrite_keeps s pa (leBytes data.toNat 8) false
    generalize homeWrite s pa (leBytes data.toNat 8) = n at *
    have hqueues : queued s n = s.hbm := by rw [queued, hhbm, hkeptHbm]
    rw [hqueues] at hrest
    rw [hrest]

end

/-! ## Outbound failures (R378) -/

/-- The record of a lost outbound access: the host's windows lie first, then the root ports', whose link is named (R378, R459). -/
def lostAccess (s : State) (pa : Nat) : ErrRec :=
  if pa < 0x80000000000 then mkErr 0x52 0xFF 0 0 (wd pa) else mkErr 0x52 11 (windowLink s pa) 0 (wd pa)

theorem outboundFailed_eq (s : State) (pa : Nat) : outboundFailed s pa = report s (lostAccess s pa) := by
  rw [outboundFailed, lostAccess]
  by_cases hhost : pa < 0x80000000000
  · have hwindow : windowKind pa = 0 := if_pos hhost
    rw [if_pos hhost, if_pos hwindow]
  · have hport : windowKind pa ≠ 0 := by rw [windowKind, if_neg hhost]; split <;> decide
    rw [if_neg hhost, if_neg hport]

/-- Bytes of all ones make a number of all ones. -/
theorem ofLE_ones (n : Nat) : ofLE (List.replicate n 0xFF) = 2 ^ (8 * n) - 1 := by
  induction n with
  | zero => rfl
  | succ n ih =>
    have hpos : 0 < 2 ^ (8 * n) := Nat.two_pow_pos _
    have hbyte : (0xFF : Byte).toNat = 255 := rfl
    rw [List.replicate_succ, ofLE, ih, hbyte, Nat.mul_add, Nat.pow_add]
    omega

section
variable {s : State} {c : Cid} {k : Nat}

/-- The k-th outstanding load returns all ones. -/
theorem outboundFailure_load {l : LoadReq} (hl : (cell s c.val).loads[k]? = some l) (hwin : physAt s l.pa = .window) :
    ∃ n, exec (.outboundFailure c k false) s = .next n ∧ noted s n (lostAccess s l.pa) ∧ (cell n c.val).loads = (cell s c.val).loads.eraseIdx k
      ∧ (l.rd ≠ 0 → rx n (tidOf c.val l.thr.val) l.rd = if l.signed = true then sext (8 * l.bytes) (2 ^ (8 * l.bytes) - 1) else wd (2 ^ (8 * l.bytes) - 1))
      ∧ (∀ u, u ≠ tidOf c.val l.thr.val → thread n u = thread s u) ∧ n = { s with threads := n.threads, cells := n.cells, err := n.err } := by
  let left := setCell s c.val { cell s c.val with loads := (cell s c.val).loads.eraseIdx k }
  have hcmd : exec (.outboundFailure c k false) s = execOutboundFailure c k false s := rfl
  have hexec : exec (.outboundFailure c k false) s
      = .next (deliver (report left (lostAccess s l.pa)) c.val l (loadValue l (List.replicate l.bytes 0xFF))) := by
    rw [hcmd]
    unfold execOutboundFailure
    simp only [Bool.false_eq_true, if_false, hl, isWindow, hwin, decide_true, if_true, outboundFailed_eq]
    rfl
  have hvalue : loadValue l (List.replicate l.bytes 0xFF)
      = if l.signed = true then sext (8 * l.bytes) (2 ^ (8 * l.bytes) - 1) else wd (2 ^ (8 * l.bytes) - 1) := by rw [loadValue, ofLE_ones]
  obtain ⟨hgets, -, -, -, -, -, hothers⟩ := deliver_arrives (report left (lostAccess s l.pa)) c.val l (loadValue l (List.replicate l.bytes 0xFF))
  refine ⟨_, hexec, rfl, ?_, fun hrd => ?_, hothers, rfl⟩
  · show (cell left c.val).loads = _
    rw [cell_setCell, if_pos rfl]
  · rw [hgets, if_neg hrd, hvalue]

/-- The first byte that a buffered store holds lies in its line. -/
theorem wbRuns_first (e : WbEnt) : let a := ((wbRuns e).map (fun r => lineBase e.line + r.1)).headD (lineBase e.line)
    128 * e.line ≤ a ∧ a < 128 * e.line + 128 := by
  have hwithin := (wbRuns_hold e).within
  generalize wbRuns e = runs at hwithin
  cases runs with
  | nil => simp [lineBase]
  | cons r rest =>
    obtain ⟨hsome, -, hhi⟩ := hwithin r List.mem_cons_self
    have hpos := List.length_pos_of_ne_nil hsome
    simp only [List.map_cons, List.headD_cons, lineBase]
    omega

/-- The k-th buffered store is dropped. -/
theorem outboundFailure_store {e : WbEnt} (he : (cell s c.val).wb[k]? = some e) (hwin : physAt s (128 * e.line) = .window) :
    ∃ n a, exec (.outboundFailure c k true) s = .next n ∧ noted s n (lostAccess s a) ∧ 128 * e.line ≤ a ∧ a < 128 * e.line + 128
      ∧ n = { setCell s c.val { cell s c.val with wb := (cell s c.val).wb.eraseIdx k } with err := n.err } := by
  have hcmd : exec (.outboundFailure c k true) s = execOutboundFailure c k true s := rfl
  obtain ⟨hlo, hhi⟩ := wbRuns_first e
  refine ⟨report (setCell s c.val { cell s c.val with wb := (cell s c.val).wb.eraseIdx k }) (lostAccess s _), _, ?_, rfl, hlo, hhi, rfl⟩
  rw [hcmd]
  unfold execOutboundFailure
  simp only [if_true, he, isWindow, lineBase, hwin, decide_true, outboundFailed_eq]
  rfl

end

/-! ## The obligation -/

/-- Settles O36: a scrub is its pointer's move and one finding, a retrain writes disjoint fields of one word, an injected error joins the bytes
that the home stores, and a lost access leaves its queue with a record. -/
theorem scrubsAndLanes : Obligations.ScrubsAndLanes := by
  unfold Obligations.ScrubsAndLanes
  refine ⟨fun s k ch burst lane hlat => ⟨exec_hbmScrub hlat k ch burst .clean, hbmScrub_corrected hlat k ch burst lane,
      hbmScrub_uncorrectable hlat k ch burst⟩,
    fun s b bank w x hlat => ⟨exec_blockMemoryScrub_clean hlat b bank w, fun hi => exec_blockMemoryScrub_row hlat b bank w _ hi, fun hi hblock => ?_⟩,
    fun s addr x hsize halign hlive => ⟨exec_mantleSramScrub hsize halign hlive .clean, exec_mantleSramScrub hsize halign hlive (.corrected x),
      mantleSramScrub_uncorrectable hsize halign hlive⟩,
    fun s k ch lane bad cmdBad => ⟨exec_laneFlagged, fun htrains hbad => ⟨_, exec_channelRetrain_fails htrains hbad, ?_⟩,
      fun htrains hhead hlane hcmd hused => ⟨_, exec_channelRetrain_clean htrains hhead hcmd hused, ?_⟩⟩,
    fun s data hsafe harmed hmem hlive => injectedErrorStore_stores hsafe harmed hlive data,
    fun s c k => ⟨fun l => outboundFailure_load, fun e => outboundFailure_store⟩⟩
  · obtain ⟨d, o, hblock⟩ := hblock
    exact ⟨_, exec_blockMemoryScrub_row hlat b bank w _ hi, bmFinding_uncorrectable (s := bmScrubbed s (bankKey b.val bank.val)) w.isLt hblock⟩
  · obtain ⟨hrest, hregs, hstate, hstack, hnoted⟩ := chanFail_spec (retrainCounted s (chKey k.val ch.val)) k ch
    have hcounted : regsKept [.hbmChstat, .hbmStkstat] s (retrainCounted s (chKey k.val ch.val)) :=
      regsKept_mono (regsKept_setReg s .hbmChstat (chKey_lt_words k ch) _) (by simp)
    exact ⟨hrest, regsKept_trans hcounted hregs, hstate, hstack, hnoted⟩
  · by_cases hlt : rf s .hbmChstat F.hbmChstatDqSpared (chKey k.val ch.val) < 2
    · rw [if_pos hlt]
      obtain ⟨⟨hrest, hregs, hstate, hcount⟩, hspared⟩ :=
        laneSpared_spec hlane hlt (mkErr 0x33 7 k.val ch.val 0 (pack [(0, ch.val), (8, lane), (16, 1), (17, 0)]))
      exact ⟨hrest, hregs, hstate, hcount, fun _ => hspared, fun hfull => absurd hfull (Nat.ne_of_lt hlt)⟩
    · have hfull : rf s .hbmChstat F.hbmChstatDqSpared (chKey k.val ch.val) = 2 := Nat.le_antisymm hused (Nat.le_of_not_lt hlt)
      rw [if_neg hlt]
      obtain ⟨⟨hrest, hregs, hstate, hcount⟩, hkept⟩ :=
        laneKept_spec hfull (mkErr 0x33 7 k.val ch.val 0 (pack [(0, ch.val), (8, lane), (16, 1), (17, 1)]))
      exact ⟨hrest, hregs, hstate, hcount, fun hlt' => absurd hlt' hlt, fun _ => hkept⟩

end Sys2Proof.Machine
end
